-- ==== Sys2Proof/Word.lean ====
section
/-! DEFINITION. The word types of the spec (R3, R24) and the plain containers the model's state is made of. -/

namespace Sys2Proof

/-- A byte of memory, records or instruction words (R3). -/
abbrev Byte := BitVec 8
/-- A 16-bit field: block tags, operand fields. -/
abbrev W16 := BitVec 16
/-- A 32-bit lane-register or scalar (R63). -/
abbrev W32 := BitVec 32
/-- A 64-bit pair, or a virtual address carried in one (R29, R200). -/
abbrev W64 := BitVec 64
/-- One instruction word (R56). -/
abbrev W128 := BitVec 128
/-- One bit per lane of a warp; bit l is lane l, bits at and above W are zero (R442). -/
abbrev Mask := BitVec 64
/-- Data under natural-number keys, keys strictly rising. -/
abbrev KV (α : Type) := List (Nat × α)

end Sys2Proof
end

