-- ==== Sys2Proof/Syntax.lean ====
section
/-! DEFINITION. The syntax: the fields of an instruction word (R56, R59, R68) and Instr, one constructor per row of
spec/opcode_table.json. The Zorsis instructions carry the fields of their word; the steps of the device's other
agents (events, queue commands, host and debugger operations, link events) carry the operands the spec gives them
and have no instruction word. -/

namespace Sys2Proof

/-- The lane types that TY selects (R28); code 13 is reserved. -/
inductive Ty where
  | n32 | s32 | n64 | s64 | f32 | f16x2 | bf16x2 | f16 | bf16 | n16x2 | s16x2 | n8x4 | s8x4 | r13 | b32 | b1
  deriving DecidableEq, Repr

/-- The register file an operand names (FILE of R59). -/
inductive RegFile where
  | main | scalar | side | pred
  deriving DecidableEq, Repr

/-- A 16-bit operand field, in the fields of R59. -/
structure Operand where
  file : RegFile
  idx : BitVec 9
  fep : Bool
  mod : BitVec 2
  lsel : BitVec 2
  deriving DecidableEq, Repr

/-- The guard fields of R68. -/
structure Guard where
  ga : BitVec 5
  gan : Bool
  gb : BitVec 5
  gbn : Bool
  gc : Bool
  deriving DecidableEq, Repr

/-- The fields of an instruction word (R56) other than OP. With a literal (L = 1) the fields B and C
do not exist and are held as zero fields (R58). -/
structure Enc where
  sub : BitVec 4
  ty : Ty
  guard : Guard
  ch : BitVec 2
  d : Operand
  a : Operand
  b : Operand
  c : Operand
  e : Operand
  lit : Option W32
  bnd : Bool
  dly : BitVec 4
  yh : Bool
  ph : Bool
  deriving DecidableEq, Repr

/-- A Darham frame as it reaches a port (R462): the header fields, and the message its first flit and data
flits hold (R464); of the Ethernet frame around it the EtherType and the destination's MAC address (R461). -/
structure Frame where
  etype : Nat := 0x88B5
  mac : Nat := 0
  mtype : Nat
  vc : Nat
  src : Nat
  dst : Nat
  nfl : Nat
  seq : W16
  ack : W16
  crd : List Nat
  raux : List Byte
  raddr : Nat
  rlen : Nat
  rtok : W32
  rset : Nat
  rop : Nat
  rphys : Bool
  rlast : Bool
  rctx : Nat
  rsrc : Nat
  reservedZero : Bool
  data : List Byte
  deriving DecidableEq, Repr

/-- Where an uncorrectable error strikes (R320, R450). -/
inductive ErrorPlace where
  | mainReg (dws reg lane : Nat)
  | scalarReg (dws reg : Nat)
  | scratch (crew offset : Nat)
  | block (pa : Nat)
  | writeBack (core pa : Nat)
  deriving DecidableEq, Repr

/-- What runs hot, and is left by its crews: a core or a quad (R350). -/
inductive HotPlace where
  | core (n : Nat)
  | quad (n : Nat)
  deriving DecidableEq, Repr

/-- What DHALT and DRELEASE name (R486). -/
inductive HaltTarget where
  | warp (dws : Nat)
  | crew (core crewNo : Nat)
  | core (core : Nat)
  | all
  deriving DecidableEq, Repr

/-- The files that DREAD and DWRITE reach (R486). -/
inductive DebugFile where
  | main | scalar | predicate | jmask | special | operand | lastResult | pathTable | haltRecord
  deriving DecidableEq, Repr

/-- What a watch catches (R455, R458). -/
inductive WatchKind where
  | disabled | read | write | both
  deriving DecidableEq, Repr

/-- One constructor per row of spec/opcode_table.json. -/
inductive Instr where
  /-- NOP (R177): Has no effect beyond its place in the run. -/
  | nop (w : Enc)
  /-- BRA (R164): Sends the active lanes to PC plus the offset; inactive lanes fall through, splitting the path by R160. -/
  | bra (w : Enc)
  /-- BRAU (R165): Uniform branch that never splits; raises DIVERGENT_UNIFORM if a live lane's guard or target differs. -/
  | brau (w : Enc)
  /-- BRX (R166): Checks each index against the bound, loads per-lane code offsets from a table and splits the path by target. -/
  | brx (w : Enc)
  /-- CALL (R164): Pushes PC+16 on each active lane's return stack, then branches like BRA. -/
  | call (w : Enc)
  /-- CALLI (R168): Pushes PC+16 per active lane and splits the path by the code offset read from A. -/
  | calli (w : Enc)
  /-- RET (R168): Pops a return address per active lane, reloading spilled entries, and splits by the popped targets; traps STACK_EMPTY at depth 0. -/
  | ret (w : Enc)
  /-- JSAVE (R169): Writes a j mask with the active lanes. -/
  | jsave (w : Enc)
  /-- JOIN (R170): Parks the active lanes of the j mask and merges the parked paths when they cover the mask less its vacant lanes. -/
  | join (w : Enc)
  /-- JWAIT (R171): Parks the active lanes of the j mask until every live lane of the mask is parked, then releases them. -/
  | jwait (w : Enc)
  /-- EXIT (R172): Waits for in-flight writes to the active lanes, then makes those lanes vacant. -/
  | exit (w : Enc)
  /-- REFILL (R173): Fills every vacant lane of the warp with items from the source and writes the refill map. -/
  | refill (w : Enc)
  /-- REFORM (R174): Files each active lane's thread into a reform bin keyed by launch, target and register block. -/
  | reform (w : Enc)
  /-- YIELD (R175): Ends the run, ranks the warp last in the next selection, and lets a pending cooperative switch take the crew. -/
  | yield (w : Enc)
  /-- NPREG_ENTER (R176): Opens a non-preemptible region for the crew with a budget in core cycles. -/
  | npregEnter (w : Enc)
  /-- NPREG_LEAVE (R176): Closes the crew's non-preemptible region. -/
  | npregLeave (w : Enc)
  /-- TRAP_BRK (R177): Raises BREAK with extra word 0, routed to a debugger or the trap entry. -/
  | trapBrk (w : Enc)
  /-- TRAP_CALL (R177): Raises BREAK with the value of B as extra word, always delivered to the trap entry. -/
  | trapCall (w : Enc)
  /-- TRAP_TRET (R446): Returns from the trap entry, restoring the set-aside path table and resuming the trapping path. -/
  | trapTret (w : Enc)
  /-- IADD (R102): Integer add per element, with optional saturation. -/
  | iadd (w : Enc)
  /-- ISUB (R102): Integer subtract per element, with optional saturation. -/
  | isub (w : Enc)
  /-- IADDC (R102): Unsigned add with carry-in predicate and carry-out predicate. -/
  | iaddc (w : Enc)
  /-- ISUBB (R102): Unsigned subtract with borrow-in predicate and borrow-out predicate. -/
  | isubb (w : Enc)
  /-- IMUL (R103): Low half of the integer product. -/
  | imul (w : Enc)
  /-- IMULH (R103): Upper half of the exact integer product. -/
  | imulh (w : Enc)
  /-- IMAD (R103): Integer multiply-add per element. -/
  | imad (w : Enc)
  /-- IMADW (R103): 32-bit multiply added to a 64-bit pair, giving a 64-bit result. -/
  | imadw (w : Enc)
  /-- IMIN (R104): Integer minimum by the signedness of TY. -/
  | imin (w : Enc)
  /-- IMAX (R104): Integer maximum by the signedness of TY. -/
  | imax (w : Enc)
  /-- IABS (R104): Integer absolute value. -/
  | iabs (w : Enc)
  /-- ISAD (R104): Sum of absolute differences added to an n32 accumulator. -/
  | isad (w : Enc)
  /-- ICMP (R105): Integer compare writing a predicate in each active lane. -/
  | icmp (w : Enc)
  /-- ISEL (R105): Selects a or b per lane by a predicate. -/
  | isel (w : Enc)
  /-- AND (R106): Bitwise AND. -/
  | and (w : Enc)
  /-- OR (R106): Bitwise OR. -/
  | or (w : Enc)
  /-- XOR (R106): Bitwise exclusive OR. -/
  | xor (w : Enc)
  /-- ANDN (R106): a AND NOT b. -/
  | andn (w : Enc)
  /-- LOP3 (R106): Arbitrary three-input bitwise function given by an 8-bit truth table. -/
  | lop3 (w : Enc)
  /-- SHL (R107): Logical shift left, zero for counts at or above the width. -/
  | shl (w : Enc)
  /-- SHR (R107): Logical shift right, zero for counts at or above the width. -/
  | shr (w : Enc)
  /-- SAR (R107): Arithmetic shift right filling with the sign. -/
  | sar (w : Enc)
  /-- ROTL (R107): 32-bit rotate left by the count modulo 32. -/
  | rotl (w : Enc)
  /-- FSHF (R107): Funnel shift of a 64-bit concatenation left or right. -/
  | fshf (w : Enc)
  /-- BFX (R108): Bit-field extract, zero- or sign-extended. -/
  | bfx (w : Enc)
  /-- BFI (R108): Bit-field insert into a base value. -/
  | bfi (w : Enc)
  /-- POPC (R109): Population count. -/
  | popc (w : Enc)
  /-- CLZ (R109): Count of leading zero bits. -/
  | clz (w : Enc)
  /-- CTZ (R109): Count of trailing zero bits. -/
  | ctz (w : Enc)
  /-- BREV (R109): Bit reversal. -/
  | brev (w : Enc)
  /-- BLV (R110): Interleaves two or three coordinates into a Morton code. -/
  | blv (w : Enc)
  /-- BDLV (R110): Extracts one coordinate phase from an interleaved code. -/
  | bdlv (w : Enc)
  /-- LEA (R111): 64-bit base plus a shifted n32 index. -/
  | lea (w : Enc)
  /-- PRMT (R112): Byte permutation of two sources under a control word. -/
  | prmt (w : Enc)
  /-- MOV (R113): Copies a source to the destination, applying only modifiers. -/
  | mov (w : Enc)
  /-- MOVL (R113): Writes a literal, or the code base plus a literal for n64. -/
  | movl (w : Enc)
  /-- CVTI (R114): Converts between integer widths and signedness. -/
  | cvti (w : Enc)
  /-- IDIV (R115): Integer division truncating toward zero, giving quotient, remainder or both. -/
  | idiv (w : Enc)
  /-- FADD (R121): Floating-point add rounded once. -/
  | fadd (w : Enc)
  /-- FSUB (R121): Floating-point subtract rounded once. -/
  | fsub (w : Enc)
  /-- FMUL (R121): Floating-point multiply rounded once. -/
  | fmul (w : Enc)
  /-- FFMA (R121): Fused multiply-add with one rounding. -/
  | ffma (w : Enc)
  /-- FMIN (R124): Floating-point minimum by IEEE minimum or minimumNumber. -/
  | fmin (w : Enc)
  /-- FMAX (R124): Floating-point maximum by IEEE maximum or maximumNumber. -/
  | fmax (w : Enc)
  /-- FCMP (R125): Floating-point compare writing a predicate, optionally signalling. -/
  | fcmp (w : Enc)
  /-- FCLASS (R126): Writes a one-hot class mask of the source encoding. -/
  | fclass (w : Enc)
  /-- FRND (R127): Rounds to an integral value in the format. -/
  | frnd (w : Enc)
  /-- FCVT (R128): Converts between floating-point formats. -/
  | fcvt (w : Enc)
  /-- F2I (R129): Converts binary32 or binary16 to an integer type with saturation. -/
  | f2i (w : Enc)
  /-- I2F (R130): Converts an integer to binary32 or binary16. -/
  | i2f (w : Enc)
  /-- FDIV (R131): Correctly rounded division. -/
  | fdiv (w : Enc)
  /-- FSQRT (R131): Correctly rounded square root. -/
  | fsqrt (w : Enc)
  /-- FRCP (R132): Reciprocal rounded toward zero from the exact value. -/
  | frcp (w : Enc)
  /-- FRSQ (R132): Reciprocal square root rounded toward zero. -/
  | frsq (w : Enc)
  /-- EXP2 (R132): Base-2 exponential rounded toward zero. -/
  | exp2 (w : Enc)
  /-- LOG2 (R132): Base-2 logarithm rounded toward zero. -/
  | log2 (w : Enc)
  /-- SINPI (R132): sin(pi x) rounded toward zero. -/
  | sinpi (w : Enc)
  /-- COSPI (R132): cos(pi x) rounded toward zero. -/
  | cospi (w : Enc)
  /-- FDOT2 (R122): Two-element half-precision dot product added to f32 with one rounding. -/
  | fdot2 (w : Enc)
  /-- FSCALE (R123): Multiplies by 2^k with one rounding. -/
  | fscale (w : Enc)
  /-- FLGCLR (R134): Clears selected sticky flags in each active lane in program order. -/
  | flgclr (w : Enc)
  /-- WELF (R135): Welford update of a count/mean/M2 triple with one value. -/
  | welf (w : Enc)
  /-- WMRG (R136): Merges two statistics triples. -/
  | wmrg (w : Enc)
  /-- VOTE (R179): Warp-wide vote over a predicate: all, any, same, mask or count. -/
  | vote (w : Enc)
  /-- SHFL (R180): Reads A from a computed source lane. -/
  | shfl (w : Enc)
  /-- WRED (R181): Reduces A over the active lanes into a scalar. -/
  | wred (w : Enc)
  /-- WSCAN (R182): Inclusive or exclusive prefix reduction over the active lanes. -/
  | wscan (w : Enc)
  /-- MATCH (R183): Writes masks of lanes whose values match. -/
  | laneMatch (w : Enc)
  /-- ELECT (R184): Sets a predicate true in the lowest active lane only. -/
  | elect (w : Enc)
  /-- PLOP (R185): Logical function of two predicates per active lane. -/
  | plop (w : Enc)
  /-- PMOV (R185): Copies a predicate's lane bits into a scalar mask. -/
  | pmov (w : Enc)
  /-- PMOV_SET (R185): Writes a predicate or j mask from a scalar mask in the active lanes. -/
  | pmovSet (w : Enc)
  /-- BXQ (R186): Quantises a warp-wide block to BX8 or BX4 codes and a tag. -/
  | bxq (w : Enc)
  /-- LD (R206): Global load per active lane through the L1 or the LLC home by scope. -/
  | ld (w : Enc)
  /-- ST (R207): Global store per active lane into the L1 or through to the home by scope. -/
  | st (w : Enc)
  /-- LDS (R206): Scratch load, local or through a pooled window. -/
  | lds (w : Enc)
  /-- STS (R207): Scratch store, local or through a pooled window. -/
  | sts (w : Enc)
  /-- LDK (R209): Loads from the kernel's code range through the instruction cache. -/
  | ldk (w : Enc)
  /-- ATOM (R210): Global atomic performed at the LLC home, returning the old value. -/
  | atom (w : Enc)
  /-- ATOMS (R210): Scratch atomic performed at the bank, returning the old value. -/
  | atoms (w : Enc)
  /-- RED (R210): Global reduction at the LLC home with no returned value. -/
  | red (w : Enc)
  /-- PFETCH (R214): Brings a line into the L1 or the LLC without changing values or trapping. -/
  | pfetch (w : Enc)
  /-- PFETCH_ZERO (R215): Declares a 64-byte block zero with tag 0x7000, as a device-scope store. -/
  | pfetchZero (w : Enc)
  /-- FENCE (R217): Release and acquire at a scope for the warp; at system scope also waits for remote commands. -/
  | fence (w : Enc)
  /-- CFLUSH (R216): Writes back a line from the L1, or also from the LLC to DRAM. -/
  | cflush (w : Enc)
  /-- CINV (R216): Writes back and invalidates a line in the L1, or also in the LLC. -/
  | cinv (w : Enc)
  /-- CSPLIT (R218): Sets the number of L1 ways the crew holds as scratch. -/
  | csplit (w : Enc)
  /-- SEAL (R247): Checks a record in scratch and copies it into a record-table slot, returning a handle. -/
  | sealRec (w : Enc)
  /-- UNSEAL (R248): Invalidates a handle by advancing its slot's generation. -/
  | unsealRec (w : Enc)
  /-- HQRY (R249): Reads one word of a sealed record by handle. -/
  | hqry (w : Enc)
  /-- CPY (R253): Copies a tensor box between global memory and scratch with conversion. -/
  | cpy (w : Enc)
  /-- GATH (R256): Gathers or scatters indexed tensor rows to or from local rows. -/
  | gath (w : Enc)
  /-- SCAT (R256): Moves tensor rows to or from indexed local rows. -/
  | scat (w : Enc)
  /-- COLL (R476): Issues a collective operation over a collective set of devices. -/
  | coll (w : Enc)
  /-- PUTN (R474): Writes scratch bytes to a remote tensor at system scope. -/
  | putn (w : Enc)
  /-- GETN (R474): Reads a remote tensor region into scratch. -/
  | getn (w : Enc)
  /-- SIGNAL (R474): Sets or adds to a remote n64 word after earlier puts to that device. -/
  | signal (w : Enc)
  /-- WAITC (R263): Waits until a class counter is at most the threshold, acquiring and delivering retired faults. -/
  | waitc (w : Enc)
  /-- CNTRD (R264): Reads a class counter and status bits and clears status except FLT. -/
  | cntrd (w : Enc)
  /-- MMA (R274): Accumulates A times B from scratch images into an FP32 tile. -/
  | mma (w : Enc)
  /-- MMAP (R276): Paired matrix multiply across both arrays of a core pair. -/
  | mmap (w : Enc)
  /-- MMAG (R275): Matrix multiply with A rows gathered by an index vector. -/
  | mmag (w : Enc)
  /-- ACCZ (R280): Zeroes tiles and clears their poison flags. -/
  | accz (w : Enc)
  /-- ACCLD (R278): Loads a tile from a scratch image. -/
  | accld (w : Enc)
  /-- ACCST (R279): Stores a tile to a scratch image with conversion or quantisation. -/
  | accst (w : Enc)
  /-- ACCRD (R280): Reads a tile element per lane. -/
  | accrd (w : Enc)
  /-- ACCWR (R280): Writes a tile element per lane. -/
  | accwr (w : Enc)
  /-- MXACQ (R285): Acquires the core's array or the pair's arrays in reserved mode. -/
  | mxacq (w : Enc)
  /-- MXREL (R285): Waits for the crew's matrix commands and releases held arrays. -/
  | mxrel (w : Enc)
  /-- MXSTAT (R286): Reads matrix mode, holds and counts. -/
  | mxstat (w : Enc)
  /-- TRACE (R292): Writes a ray record per active lane and sends the ray to the nearest stack. -/
  | trace (w : Enc)
  /-- HITQ (R300): Reads each lane's ray state and trace sequence. -/
  | hitq (w : Enc)
  /-- CAND_GET (R297): Delivers a lane's pending candidate, or waits for one or for the ray's end. -/
  | candGet (w : Enc)
  /-- CAND_ACCEPT (R298): Accepts the delivered candidate. -/
  | candAccept (w : Enc)
  /-- CAND_REJECT (R298): Rejects the delivered candidate. -/
  | candReject (w : Enc)
  /-- CAND_TERM (R298): Accepts the candidate and ends traversal. -/
  | candTerm (w : Enc)
  /-- FILT_TEX (R342): Sends a texture filter request per active lane to a Quince unit. -/
  | filtTex (w : Enc)
  /-- FILT_GRID (R342): Sends a hash-grid lookup per active lane to a Quince unit. -/
  | filtGrid (w : Enc)
  /-- TLSHUT (R323): Sets a treelet entry SHUT so later rays are held. -/
  | tlshut (w : Enc)
  /-- TLPOST (R323): Posts a new treelet version after a release and re-admits held rays. -/
  | tlpost (w : Enc)
  /-- TLQRY (R324): Reads a treelet-table word or the last-refusal word. -/
  | tlqry (w : Enc)
  /-- BARI (R399): Binds, rebinds or unbinds a crew barrier with a mask and expected commands. -/
  | bari (w : Enc)
  /-- BARA (R400): Arrives on a barrier with the active lanes without waiting. -/
  | bara (w : Enc)
  /-- BARW (R400): Waits for the open phase if the warp has arrived in it. -/
  | barw (w : Enc)
  /-- BARAW (R400): Arrives and waits for the phase the arrival entered. -/
  | baraw (w : Enc)
  /-- GRPQ (R386): Reads information about the group in a slot. -/
  | grpq (w : Enc)
  /-- GRED (R388): Contributes the warp's reduction to the group's open reduction phase. -/
  | gred (w : Enc)
  /-- STEP (R425): Adds to the context's step counter at the hub. -/
  | step (w : Enc)
  /-- SYSRD (R459): Reads a system register into a scalar. -/
  | sysrd (w : Enc)
  /-- SYSWR (R459): Writes a system register after a device-scope release. -/
  | syswr (w : Enc)
  /-- CLK (R460): Reads the core cycle counter or the device time. -/
  | clk (w : Enc)
  /-- GROW (R153): Requests more registers per lane for the warp. -/
  | grow (w : Enc)
  /-- SHRINK (R153): Returns registers above the new count to the partition. -/
  | shrink (w : Enc)
  /-- RSPLIT (R418): Splits a piece at a VA. -/
  | rsplit (w : Enc)
  /-- RMERGE (R419): Merges two adjacent pieces with equal attributes. -/
  | rmerge (w : Enc)
  /-- RINV (R420): Invalidates cached translations over an interval by the ordering of R413. -/
  | rinv (w : Enc)
  /-- RPROBE (R421): Walks the directory for a VA without touching, returning a descriptor word. -/
  | rprobe (w : Enc)
  /-- RHINT (R422): Sets priority and next-use step on pieces in an interval. -/
  | rhint (w : Enc)
  /-- RMOVE (R423): Moves, evicts or recalls a piece by mode. -/
  | rmove (w : Enc)
  /-- RCMPT (R424): Sets Medlar to empty a physical window. -/
  | rcmpt (w : Enc)
  /-- COMMIT (R379): Publishes each active lane's version and starts a new one. -/
  | commit (w : Enc)
  /-- RUN_START (R144): A free issue slot selects a READY warp and a path and starts its run. -/
  | runStart (core part slot : Nat)
  /-- STALL_EVICTION (R141): A warp STALLED for 512 core cycles is evicted with its files saved. -/
  | stallEviction (dws : Nat)
  /-- LOAD_DATA_RETURN (R206): A load's value lands, marking its destination full and releasing waiting warps. -/
  | loadDataReturn (dws k : Nat)
  /-- STORE_QUEUE_LEAVE (R204): A store-queue entry leaves in program order once earlier loads have values. -/
  | storeQueueLeave (dws : Nat)
  /-- REGISTER_STALL_RESOLUTION (R156): After 256 cycles stalled on registers, the core saves youngest crews until the oldest GROW fits. -/
  | registerStallResolution (core : Nat)
  /-- GROW_GRANT (R154): A pending GROW request is granted oldest first when the partition's free count holds it. -/
  | growGrant (core part : Nat)
  /-- BIN_AGED (R147): A reform bin becomes drawable when its first thread reaches the bin age. -/
  | binAged (core bin : Nat)
  /-- BIN_DRAW (R147): A wholly vacant warp draws the earliest drawable bin of its launch. -/
  | binDraw (dws : Nat)
  /-- IDLE_WARP_REFILL (R149): An idle warp performs REFILL at its refill point when the source gives items. -/
  | idleWarpRefill (dws : Nat)
  /-- WARP_RETIRE (R152): A vacant warp with a drained source and no bin thread retires. -/
  | warpRetire (dws : Nat)
  /-- LAUNCH_COMPLETE (R375): The launch completes once crews retired, counters zero and versions resolved, releasing at device scope. -/
  | launchComplete (launch : Nat)
  /-- COMMAND_START (R257): A command starts when its scoreboard predecessor count reaches zero. -/
  | commandStart (cmd : Nat)
  /-- COMMAND_COMPLETE (R257): A command completes, makes any barrier arrival, decrements successors and frees its entry. -/
  | commandComplete (cmd : Nat)
  /-- COMMAND_RETIRE (R259): A completed command retires in issue order within its class, posting status and fault. -/
  | commandRetire (cmd : Nat)
  /-- MATRIX_TILE_STEP (R284): The array serves up to 8 K-blocks of one queued matrix command. -/
  | matrixTileStep (core : Nat) (errs : BitVec 32)
  /-- RAY_ADMIT (R316): A ray message arriving at a treelet is bound, held, sent back or completed by the entry's state. -/
  | rayAdmit (k : Nat)
  /-- TREELET_BATCH (R319): A free Damson pipeline serves up to 256 entries of one treelet queue. -/
  | treeletBatch (stack ctx tid : Nat)
  /-- HIT_DELIVERY (R294): A ray result arriving at a core fills the hit block if the pool id matches, else is dropped. -/
  | hitDelivery (k : Nat)
  /-- CANDIDATE_DELIVERY (R297): A candidate arrives at its origin core and waits for CAND.get. -/
  | candidateDelivery (k : Nat)
  /-- CANDIDATE_RETURN (R302): A candidate with no match is returned to the stack, which sets CANDW or resends it. -/
  | candidateReturn (k : Nat)
  /-- CANDIDATE_ANSWER (R296): A candidate's answer arrives at the ray's stack and traversal resumes or ends. -/
  | candidateAnswer (k : Nat)
  /-- FILTER_REQUEST_END (R343): A Quince request ends and fills the lane's result block at once. -/
  | filterRequestEnd (cmd lane : Nat)
  /-- VIEW_SAMPLE_DELIVERY (R330): A camera ray's result reaches its view unit, which writes the visibility entry and frees the record. -/
  | viewSampleDelivery (k : Nat)
  /-- TILE_EMISSION (R332): A tile whose entries are all written emits its shade items with a device-scope release. -/
  | tileEmission (view vunit : Nat)
  /-- VIEW_COMPLETE (R332): When every unit has emitted and every record is freed, the VIEW completes and may close the queue. -/
  | viewComplete (view : Nat)
  /-- MOVE_COMPLETE (R407): A move finishes, making the unit RESIDENT or AWAY, appending frames and re-issuing waiting touches. -/
  | moveComplete (k : Nat)
  /-- FRAME_WAIT_TIMEOUT (R411): A recall or first touch that waited 2^20 cycles for a frame fails with RESIDENCY reason 2. -/
  | frameWaitTimeout (k : Nat)
  /-- RANGE_OP_COMPLETE (R417): A range-unit operation completes and fills sd with its status. -/
  | rangeOpComplete (k : Nat)
  /-- SLICE_EXPIRY (R348): A context's slice on a core expires and the youngest crews are picked as victims. -/
  | sliceExpiry (core ctx : Nat)
  /-- YIELD_DEADLINE_EXPIRY (R349): A picked crew's %ydl reaches 0 and its warps stop for a forced save. -/
  | yieldDeadlineExpiry (crew : Nat)
  /-- NPREG_BUDGET_EXPIRY (R176): A non-preemptible region's budget runs out and deferred saves proceed. -/
  | npregBudgetExpiry (crew : Nat)
  /-- CREW_SAVE (R352): A crew is saved once its results and commands have landed, writing its image. -/
  | crewSave (crew : Nat)
  /-- CREW_PLACEMENT (R374): A crew awaiting placement is placed on a core with room. -/
  | crewPlacement (launch : Nat)
  /-- CREW_RESTORE (R353): A saved crew is placed again, acquires, reloads and re-arms its rays. -/
  | crewRestore (crew core : Nat)
  /-- THERMAL_MIGRATION (R350): The crews of a hot core, or of a hot quad, are saved and restored on another core. -/
  | thermalMigration (hot : HotPlace)
  /-- CONTEXT_RELEASE (R346): A DEAD context whose ranges are invalidated and images discarded becomes FREE. -/
  | contextRelease (ctx : Nat)
  /-- DOORBELL (R355): A host doorbell sets a queue's tail and acts as an acquire at system scope. -/
  | doorbell (queue : Nat) (tail : W32)
  /-- LAUNCH (R373): Queue command that checks a launch, selects a variant and offers its crews. -/
  | launch (queue : Nat)
  /-- VIEW (R359): Queue command that reads and checks a VIEW record and starts the view units. -/
  | view (queue : Nat)
  /-- SEMWAIT (R359): Queue command that waits until a memory word meets a condition. -/
  | semwait (queue : Nat)
  /-- SEMWAIT_RECHECK (R359): A pending SEMWAIT rereads its word after a write to its sector or every 4,096 fabric cycles. -/
  | semwaitRecheck (queue : Nat)
  /-- SEMSIGNAL (R359): Queue command that releases and sets or adds to a memory word. -/
  | semsignal (queue : Nat)
  /-- RANGEOP (R417): Queue command that performs a range operation for the context. -/
  | rangeop (queue : Nat)
  /-- QUEUE_FENCE (R359): Queue FENCE command that releases at its scope and stores a value. -/
  | queueFence (queue : Nat)
  /-- CREATE (R347): Host operation that loads and checks a context descriptor. -/
  | create (tok : W32) (ctx pa : Nat)
  /-- SUSPEND (R346): Host operation that stops a context's queues and saves every crew. -/
  | suspend (tok : W32) (ctx : Nat)
  /-- RESUME (R346): Host operation that returns a suspended or faulted context to READY. -/
  | resume (tok : W32) (ctx pa : Nat)
  /-- DRAIN (R346): Host operation that stops new launches of a running context. -/
  | drain (tok : W32) (ctx : Nat)
  /-- DESTROY (R346): Host operation that makes a context DEAD. -/
  | destroy (tok : W32) (ctx : Nat)
  /-- QSETUP (R354): Host operation that binds a queue to a context from a descriptor. -/
  | qsetup (tok : W32) (queue ctx va : Nat)
  /-- QDISABLE (R357): Host operation that disables a queue. -/
  | qdisable (tok : W32) (queue : Nat)
  /-- QRESUME (R357): Host operation that restarts a faulted queue, optionally skipping the faulting command. -/
  | qresume (tok : W32) (queue : Nat) (skip : Bool)
  /-- IQSETUP (R369): Host operation that registers an item queue. -/
  | iqsetup (tok : W32) (ctx iq va : Nat)
  /-- RREADY (R408): Host operation that requeues crews saved for residency. -/
  | rready (tok : W32) (ctx : Nat)
  /-- HOST_FENCE (R482): Host operation that takes a core or quad out of service. -/
  | hostFence (tok : W32) (unitNo : Nat) (isQuad : Bool)
  /-- UNFENCE (R482): Host operation that returns an OUT core to service. -/
  | unfence (tok : W32) (unitNo : Nat) (isQuad : Bool)
  /-- TESTING_END (R483): Self-test and repair of a fenced core end, leaving it OUT. -/
  | testingEnd (core : Nat) (beyondSpares : Bool)
  /-- PDRAIN (R484): Host operation that recalls AWAY units of a persistent stack and takes it offline. -/
  | pdrain (tok : W32) (pstack : Nat)
  /-- PRETURN (R484): Host operation that brings a persistent stack back online. -/
  | preturn (tok : W32) (pstack : Nat)
  /-- FWSTAGE (R485): Host operation that stores and checks a firmware or configuration image. -/
  | fwstage (tok : W32) (image : List Byte)
  /-- FWSWAP (R485): Host operation that replaces the command processors one at a time. -/
  | fwswap (tok : W32)
  /-- ATTEST (R480): Host operation that returns the signed measurement chain for a nonce. -/
  | attest (tok : W32) (nonce : List Byte)
  /-- COLLSET (R476): Host operation that defines a collective set of devices. -/
  | collset (tok : W32) (ctx set : Nat) (ids : List Nat)
  /-- PUT_DATA (R474): A received put message writes its bytes at system scope on the target. -/
  | putData (port : Nat) (frame : Frame)
  /-- GET_REQUEST (R474): A received get request reads the target region and returns get data. -/
  | getRequest (port : Nat) (frame : Frame)
  /-- SIGNAL_MESSAGE (R474): A received signal performs one atomic on the target word. -/
  | signalMessage (port : Nat) (frame : Frame)
  /-- GET_DATA (R474): Received get data lands in the issuing command's scratch region. -/
  | getData (port : Nat) (frame : Frame)
  /-- PERFORMED_ACKNOWLEDGEMENT (R474): A received acknowledgement completes the remote command of its token. -/
  | performedAcknowledgement (port : Nat) (frame : Frame)
  /-- FAULT_RESPONSE (R474): A received fault response completes the remote command as faulted. -/
  | faultResponse (port : Nat) (frame : Frame)
  /-- COLLECTIVE_SEGMENT (R476): A received collective contribution or result segment advances a collective. -/
  | collectiveSegment (port : Nat) (frame : Frame)
  /-- HOST_WRITE (R469): A host write by VA or physical address is performed at system scope. -/
  | hostWrite (port : Nat) (frame : Frame)
  /-- HOST_READ (R469): A host read by VA or physical address returns host read data. -/
  | hostRead (port : Nat) (frame : Frame)
  /-- NAK (R466): A received NAK makes the sender retransmit every unacknowledged frame. -/
  | nak (port : Nat) (frame : Frame)
  /-- BAD_FRAME (R466): A frame with a bad FCS or out-of-order SEQ is dropped and a NAK returned. -/
  | badFrame (port : Nat) (frame : Frame)
  /-- RETRANSMIT_TIMEOUT (R466): 4,096 fabric cycles without ACK progress retransmit unacknowledged frames. -/
  | retransmitTimeout (port : Nat)
  /-- LINK_TRAINED (R467): PCS lock, FEC alignment and the hello bring a port UP. -/
  | linkTrained (port : Nat) (credits : List Nat)
  /-- TRAINING_TIMEOUT (R467): No hello within 2^24 core cycles returns the port to DOWN. -/
  | trainingTimeout (port : Nat)
  /-- ERROR_WINDOW_END (R467): At the end of a 2^20-cycle window the port moves between UP and DEGRADED. -/
  | errorWindowEnd (port : Nat)
  /-- DRAINING_END (R467): A draining port with all frames acknowledged or after 2^20 cycles enters TRAINING. -/
  | drainingEnd (port : Nat)
  /-- LOSS_OF_SIGNAL (R467): Loss of signal or PCS lock sends the port DOWN and fails unacknowledged requests. -/
  | lossOfSignal (port : Nat)
  /-- PORT_WAIT_TIMEOUT (R467): A frame waiting 2^24 cycles for a port fails its request with reason 2. -/
  | portWaitTimeout (port : Nat)
  /-- LCTL_RETRAIN (R468): Writing 1 to LCTL requests a retrain of the port. -/
  | lctlRetrain (port : Nat)
  /-- LCTL_START_TRAINING (R468): Writing 2 to LCTL starts training from DOWN. -/
  | lctlStartTraining (port : Nat)
  /-- CHANNEL_REQUEST_SERVE (R428): A pseudo-channel or persistent stack serves the next request by class and deadline. -/
  | channelRequestServe (stack channel : Nat)
  /-- REFRESH_DUE (R431): A per-bank refresh falls due and is made or postponed, forcing an all-bank refresh at debt 8. -/
  | refreshDue (stack channel : Nat)
  /-- REFRESH_END (R432): A per-bank or forced all-bank refresh ends and reopens its banks. -/
  | refreshEnd (stack channel : Nat)
  /-- SELF_REFRESH_ENTRY (R438): A stack idle for 1,024 fabric cycles enters SELF. -/
  | selfRefreshEntry (stack : Nat)
  /-- RETENTION_ENTRY (R438): With no context running and no request for 600,000 cycles a stack enters RETENTION. -/
  | retentionEntry (stack : Nat)
  /-- STACK_WAKE (R438): A sleeping stack finishes waking and serves its waiting requests. -/
  | stackWake (stack : Nat)
  /-- DEBUG_WAKE_RETURN (R439): A stack woken by the debugger returns to its former state after 65,536 idle cycles. -/
  | debugWakeReturn (stack : Nat)
  /-- GAP_COPY_COMPLETE (R435): A start-gap copy completes and S and G are updated. -/
  | gapCopyComplete (pstack region : Nat)
  /-- POWER_PROJECTION (R27): Every 1,024 core cycles the power manager projects draw and limits or releases units. -/
  | powerProjection (draw : Nat)
  /-- UNCORRECTABLE_ERROR (R450): An uncorrectable error poisons a register, scratch word or block. -/
  | uncorrectableError (at_ : ErrorPlace)
  /-- COLD_BOOT (R477): The management controller runs the boot steps in order. -/
  | coldBoot (firmware : List Byte)
  /-- WARM_RESET (R478): Reset restoring PHY training from the record and ending every context. -/
  | warmReset (firmware : List Byte)
  /-- DATTACH (R486): Debugger operation that attaches to a context. -/
  | dattach (ctx : Nat)
  /-- DDETACH (R486): Debugger operation that detaches, releasing halts and clearing watches. -/
  | ddetach
  /-- DCATCH (R486): Debugger operation that sets the catch mask of trap codes. -/
  | dcatch (catchMask : W32)
  /-- DHALT (R486): Debugger operation that halts warps at their next instruction boundary. -/
  | dhalt (who : HaltTarget)
  /-- DSTEP (R486): Debugger operation that issues one instruction of a halted warp. -/
  | dstep (dws : Nat)
  /-- DREAD (R486): Debugger operation that reads halted state. -/
  | dread (dws : Nat) (file : DebugFile) (index : Nat) (lanes : Mask)
  /-- DWRITE (R486): Debugger operation that writes halted state. -/
  | dwrite (dws : Nat) (file : DebugFile) (index : Nat) (lanes : Mask) (values : List W32)
  /-- DWATCH (R486): Debugger operation that sets a watch. -/
  | dwatch (k base m : Nat) (kind : WatchKind)
  /-- DRELEASE (R486): Debugger operation that releases halted warps, delivering pending faults first. -/
  | drelease (who : HaltTarget)
  /-- DMEM (R486): Debugger operation that reads or writes stack memory by PA. -/
  | dmem (pa count : Nat) (wr : Option (List Byte))
  /-- WEAR (R486): Debugger operation that reads a tier region's wear state. -/
  | wear (pstack region : Nat)
  /-- CREDIT_RETURN (R465): A received frame with NFL 0 carries only ACK and CRD; it returns credits and acknowledges frames, letting waiting frames be sent. -/
  | creditReturn (port : Nat) (frame : Frame)
  /-- CORRECTED_SOFT_ERROR (R458): A corrected soft error in a core's SRAM increments CCORR. -/
  | correctedSoftError (core : Nat)
  /-- POWER_LOSS (R435): Loss of supply stops the device; a start-gap copy in progress is repeated at the next boot, and only the reserved region keeps its contents. -/
  | powerLoss
  deriving DecidableEq, Repr

end Sys2Proof
end

