-- ==== Sys2Proof/Machine/Shapes.lean ====
section
/-! DEFINITION. The operand shapes of every Zorsis instruction: which SUB and TY values its row admits (R80-R93), what
each operand field may name (R59-R67 and the operand tables of the chapters), and the conditions of R76 in their order. -/

namespace Sys2Proof.Machine

/-- How a source is read for its modifiers and inline constants (R59, R67). -/
inductive Kind where
  | int | fp
  deriving DecidableEq, Repr

/-- Whether a field names one register, a pair, or a pair at warp width 64 only (R62, R163). -/
inductive PairRule where
  | single | pair | atW64
  deriving DecidableEq, Repr

/-- What an operand field is used for, in the notations of R101, R119, R163, R199, R246, R271, R291, R341, R385,
R397 and R416. -/
inductive Role where
  | none
  /-- a destination: main or scalar file, the operand file too where `side` holds -/
  | dst (p : Bool) (side : Bool)
  | sdst (p : PairRule)
  /-- a main-file destination block of n registers; a pair rule stands beside it for MATCH and IDIV.qr -/
  | mdst (n : Nat) (p : PairRule)
  | src (k : Kind) (p : Bool) (mods : Bool)
  | pred
  | pdst
  | jdst
  | pjdst
  | jsrc
  /-- a code offset in the main file or, unless `mainOnly`, the scalar file -/
  | code (mainOnly : Bool)
  /-- a main-file source block of n registers; `plain`: neither LSEL nor MOD is admitted -/
  | mblk (n : Nat) (k : Kind) (plain : Bool)
  | bxBlock (four : Bool)
  | reformBlock
  | base64
  | base32
  | idx
  /-- a scalar or an inline constant -/
  | scon (mods : Bool)
  /-- a scalar or the inline constant 0 -/
  | szero
  /-- a block of n scalars -/
  | sblk (n : Nat)
  /-- a scalar pair; `mods`: an integer MOD is admitted (R59, R163) -/
  | spair (mods : Bool)
  /-- PMOV.set's mask: a scalar, a pair at W = 64 -/
  | smask
  | tile
  | rawTT | rawN | rawFlags
  | rawBar (groupOk : Bool)
  | rawSlot
  /-- the literal of an instruction that requires L = 1 -/
  | litOnly
  deriving DecidableEq, Repr

/-- Whether an instruction admits L = 1 (R58). -/
inductive LitRule where
  | no | yes | required
  deriving DecidableEq, Repr

/-- The use of the five operand fields, the literal rule and the destination modifier of one instruction. -/
structure Shape where
  d : Role
  a : Role
  b : Role
  c : Role
  e : Role
  lit : LitRule
  dmod : Bool
  deriving DecidableEq, Repr

/-- Two-word lane types (R28). -/
def Ty.wide : Ty → Bool
  | .n64 | .s64 => true
  | _ => false

/-- The lane types whose sources take the floating-point modifiers and constants (R59, R67). -/
def Ty.isFp : Ty → Bool
  | .f32 | .f16x2 | .bf16x2 | .f16 | .bf16 => true
  | _ => false

/-- The kind of a source of lane type t. -/
def Ty.kind (t : Ty) : Kind := if Ty.isFp t then .fp else .int

/-- The code of a lane type in the TY field (R28). -/
def Ty.code : Ty → Nat
  | .n32 => 0 | .s32 => 1 | .n64 => 2 | .s64 => 3 | .f32 => 4 | .f16x2 => 5 | .bf16x2 => 6 | .f16 => 7
  | .bf16 => 8 | .n16x2 => 9 | .s16x2 => 10 | .n8x4 => 11 | .s8x4 => 12 | .r13 => 13 | .b32 => 14 | .b1 => 15

/-- The lane type of a TY code (R28). -/
def Ty.ofCode : Nat → Ty
  | 0 => .n32 | 1 => .s32 | 2 => .n64 | 3 => .s64 | 4 => .f32 | 5 => .f16x2 | 6 => .bf16x2 | 7 => .f16
  | 8 => .bf16 | 9 => .n16x2 | 10 => .s16x2 | 11 => .n8x4 | 12 => .s8x4 | 13 => .r13 | 14 => .b32 | _ => .b1

/-- The OP value and the word fields of a Zorsis instruction; the steps of other agents have no word (R80-R93). -/
def Instr.word? : Instr → Option (Nat × Enc)
  | .nop w => some (0x00, w)
  | .bra w => some (0x01, w)
  | .brau w => some (0x02, w)
  | .brx w => some (0x03, w)
  | .call w => some (0x04, w)
  | .calli w => some (0x05, w)
  | .ret w => some (0x06, w)
  | .jsave w => some (0x07, w)
  | .join w => some (0x08, w)
  | .jwait w => some (0x09, w)
  | .exit w => some (0x0A, w)
  | .refill w => some (0x0B, w)
  | .reform w => some (0x0C, w)
  | .yield w => some (0x0D, w)
  | .npregEnter w => some (0x0E, w)
  | .npregLeave w => some (0x0E, w)
  | .trapBrk w => some (0x0F, w)
  | .trapCall w => some (0x0F, w)
  | .trapTret w => some (0x0F, w)
  | .iadd w => some (0x10, w)
  | .isub w => some (0x11, w)
  | .iaddc w => some (0x12, w)
  | .isubb w => some (0x13, w)
  | .imul w => some (0x14, w)
  | .imulh w => some (0x15, w)
  | .imad w => some (0x16, w)
  | .imadw w => some (0x17, w)
  | .imin w => some (0x18, w)
  | .imax w => some (0x19, w)
  | .iabs w => some (0x1A, w)
  | .isad w => some (0x1B, w)
  | .icmp w => some (0x1C, w)
  | .isel w => some (0x1D, w)
  | .and w => some (0x1E, w)
  | .or w => some (0x1F, w)
  | .xor w => some (0x20, w)
  | .andn w => some (0x21, w)
  | .lop3 w => some (0x22, w)
  | .shl w => some (0x23, w)
  | .shr w => some (0x24, w)
  | .sar w => some (0x25, w)
  | .rotl w => some (0x26, w)
  | .fshf w => some (0x27, w)
  | .bfx w => some (0x28, w)
  | .bfi w => some (0x29, w)
  | .popc w => some (0x2A, w)
  | .clz w => some (0x2B, w)
  | .ctz w => some (0x2C, w)
  | .brev w => some (0x2D, w)
  | .blv w => some (0x2E, w)
  | .bdlv w => some (0x2F, w)
  | .lea w => some (0x30, w)
  | .prmt w => some (0x31, w)
  | .mov w => some (0x32, w)
  | .movl w => some (0x33, w)
  | .cvti w => some (0x34, w)
  | .idiv w => some (0x35, w)
  | .fadd w => some (0x40, w)
  | .fsub w => some (0x41, w)
  | .fmul w => some (0x42, w)
  | .ffma w => some (0x43, w)
  | .fmin w => some (0x44, w)
  | .fmax w => some (0x45, w)
  | .fcmp w => some (0x46, w)
  | .fclass w => some (0x47, w)
  | .frnd w => some (0x48, w)
  | .fcvt w => some (0x49, w)
  | .f2i w => some (0x4A, w)
  | .i2f w => some (0x4B, w)
  | .fdiv w => some (0x4C, w)
  | .fsqrt w => some (0x4D, w)
  | .frcp w => some (0x4E, w)
  | .frsq w => some (0x4F, w)
  | .exp2 w => some (0x50, w)
  | .log2 w => some (0x51, w)
  | .sinpi w => some (0x52, w)
  | .cospi w => some (0x53, w)
  | .fdot2 w => some (0x54, w)
  | .fscale w => some (0x55, w)
  | .flgclr w => some (0x56, w)
  | .welf w => some (0x57, w)
  | .wmrg w => some (0x58, w)
  | .vote w => some (0x80, w)
  | .shfl w => some (0x81, w)
  | .wred w => some (0x82, w)
  | .wscan w => some (0x83, w)
  | .laneMatch w => some (0x84, w)
  | .elect w => some (0x85, w)
  | .plop w => some (0x86, w)
  | .pmov w => some (0x87, w)
  | .pmovSet w => some (0x87, w)
  | .bxq w => some (0x88, w)
  | .ld w => some (0x90, w)
  | .st w => some (0x91, w)
  | .lds w => some (0x92, w)
  | .sts w => some (0x93, w)
  | .ldk w => some (0x94, w)
  | .atom w => some (0x95, w)
  | .atoms w => some (0x96, w)
  | .red w => some (0x97, w)
  | .pfetch w => some (0x98, w)
  | .pfetchZero w => some (0x98, w)
  | .fence w => some (0x99, w)
  | .cflush w => some (0x9A, w)
  | .cinv w => some (0x9B, w)
  | .csplit w => some (0x9C, w)
  | .sealRec w => some (0xB0, w)
  | .unsealRec w => some (0xB1, w)
  | .hqry w => some (0xB2, w)
  | .cpy w => some (0xB3, w)
  | .gath w => some (0xB4, w)
  | .scat w => some (0xB5, w)
  | .coll w => some (0xB6, w)
  | .putn w => some (0xB7, w)
  | .getn w => some (0xB8, w)
  | .signal w => some (0xB9, w)
  | .waitc w => some (0xBA, w)
  | .cntrd w => some (0xBB, w)
  | .mma w => some (0xC0, w)
  | .mmap w => some (0xC1, w)
  | .mmag w => some (0xC2, w)
  | .accz w => some (0xC3, w)
  | .accld w => some (0xC4, w)
  | .accst w => some (0xC5, w)
  | .accrd w => some (0xC6, w)
  | .accwr w => some (0xC7, w)
  | .mxacq w => some (0xC8, w)
  | .mxrel w => some (0xC9, w)
  | .mxstat w => some (0xCA, w)
  | .trace w => some (0xD0, w)
  | .hitq w => some (0xD1, w)
  | .candGet w => some (0xD2, w)
  | .candAccept w => some (0xD2, w)
  | .candReject w => some (0xD2, w)
  | .candTerm w => some (0xD2, w)
  | .filtTex w => some (0xD3, w)
  | .filtGrid w => some (0xD3, w)
  | .tlshut w => some (0xD4, w)
  | .tlpost w => some (0xD5, w)
  | .tlqry w => some (0xD6, w)
  | .bari w => some (0xE0, w)
  | .bara w => some (0xE1, w)
  | .barw w => some (0xE2, w)
  | .baraw w => some (0xE3, w)
  | .grpq w => some (0xE4, w)
  | .gred w => some (0xE5, w)
  | .step w => some (0xE6, w)
  | .sysrd w => some (0xF0, w)
  | .syswr w => some (0xF1, w)
  | .clk w => some (0xF2, w)
  | .grow w => some (0xF3, w)
  | .shrink w => some (0xF4, w)
  | .rsplit w => some (0xF5, w)
  | .rmerge w => some (0xF6, w)
  | .rinv w => some (0xF7, w)
  | .rprobe w => some (0xF8, w)
  | .rhint w => some (0xF9, w)
  | .rmove w => some (0xFA, w)
  | .rcmpt w => some (0xFB, w)
  | .commit w => some (0xFC, w)
  | _ => none

/-- The instruction of an OP value, told apart by SUB where the table has one row per subform; none for an
unassigned OP, and for an unassigned SUB of such an OP (R80-R93). -/
def ofOp (op : Nat) (e : Enc) : Option Instr :=
  match op with
  | 0x00 => some (.nop e)
  | 0x01 => some (.bra e)
  | 0x02 => some (.brau e)
  | 0x03 => some (.brx e)
  | 0x04 => some (.call e)
  | 0x05 => some (.calli e)
  | 0x06 => some (.ret e)
  | 0x07 => some (.jsave e)
  | 0x08 => some (.join e)
  | 0x09 => some (.jwait e)
  | 0x0A => some (.exit e)
  | 0x0B => some (.refill e)
  | 0x0C => some (.reform e)
  | 0x0D => some (.yield e)
  | 0x0E => (match e.sub.toNat with | 0 => some (.npregEnter e) | 1 => some (.npregLeave e) | _ => none)
  | 0x0F => (match e.sub.toNat with | 0 => some (.trapBrk e) | 1 => some (.trapCall e) | 2 => some (.trapTret e) | _ => none)
  | 0x10 => some (.iadd e)
  | 0x11 => some (.isub e)
  | 0x12 => some (.iaddc e)
  | 0x13 => some (.isubb e)
  | 0x14 => some (.imul e)
  | 0x15 => some (.imulh e)
  | 0x16 => some (.imad e)
  | 0x17 => some (.imadw e)
  | 0x18 => some (.imin e)
  | 0x19 => some (.imax e)
  | 0x1A => some (.iabs e)
  | 0x1B => some (.isad e)
  | 0x1C => some (.icmp e)
  | 0x1D => some (.isel e)
  | 0x1E => some (.and e)
  | 0x1F => some (.or e)
  | 0x20 => some (.xor e)
  | 0x21 => some (.andn e)
  | 0x22 => some (.lop3 e)
  | 0x23 => some (.shl e)
  | 0x24 => some (.shr e)
  | 0x25 => some (.sar e)
  | 0x26 => some (.rotl e)
  | 0x27 => some (.fshf e)
  | 0x28 => some (.bfx e)
  | 0x29 => some (.bfi e)
  | 0x2A => some (.popc e)
  | 0x2B => some (.clz e)
  | 0x2C => some (.ctz e)
  | 0x2D => some (.brev e)
  | 0x2E => some (.blv e)
  | 0x2F => some (.bdlv e)
  | 0x30 => some (.lea e)
  | 0x31 => some (.prmt e)
  | 0x32 => some (.mov e)
  | 0x33 => some (.movl e)
  | 0x34 => some (.cvti e)
  | 0x35 => some (.idiv e)
  | 0x40 => some (.fadd e)
  | 0x41 => some (.fsub e)
  | 0x42 => some (.fmul e)
  | 0x43 => some (.ffma e)
  | 0x44 => some (.fmin e)
  | 0x45 => some (.fmax e)
  | 0x46 => some (.fcmp e)
  | 0x47 => some (.fclass e)
  | 0x48 => some (.frnd e)
  | 0x49 => some (.fcvt e)
  | 0x4A => some (.f2i e)
  | 0x4B => some (.i2f e)
  | 0x4C => some (.fdiv e)
  | 0x4D => some (.fsqrt e)
  | 0x4E => some (.frcp e)
  | 0x4F => some (.frsq e)
  | 0x50 => some (.exp2 e)
  | 0x51 => some (.log2 e)
  | 0x52 => some (.sinpi e)
  | 0x53 => some (.cospi e)
  | 0x54 => some (.fdot2 e)
  | 0x55 => some (.fscale e)
  | 0x56 => some (.flgclr e)
  | 0x57 => some (.welf e)
  | 0x58 => some (.wmrg e)
  | 0x80 => some (.vote e)
  | 0x81 => some (.shfl e)
  | 0x82 => some (.wred e)
  | 0x83 => some (.wscan e)
  | 0x84 => some (.laneMatch e)
  | 0x85 => some (.elect e)
  | 0x86 => some (.plop e)
  | 0x87 => (match e.sub.toNat with | 0 => some (.pmov e) | 1 => some (.pmovSet e) | _ => none)
  | 0x88 => some (.bxq e)
  | 0x90 => some (.ld e)
  | 0x91 => some (.st e)
  | 0x92 => some (.lds e)
  | 0x93 => some (.sts e)
  | 0x94 => some (.ldk e)
  | 0x95 => some (.atom e)
  | 0x96 => some (.atoms e)
  | 0x97 => some (.red e)
  | 0x98 => (match e.sub.toNat with | 0 => some (.pfetch e) | 1 => some (.pfetch e) | 2 => some (.pfetchZero e) | _ => none)
  | 0x99 => some (.fence e)
  | 0x9A => some (.cflush e)
  | 0x9B => some (.cinv e)
  | 0x9C => some (.csplit e)
  | 0xB0 => some (.sealRec e)
  | 0xB1 => some (.unsealRec e)
  | 0xB2 => some (.hqry e)
  | 0xB3 => some (.cpy e)
  | 0xB4 => some (.gath e)
  | 0xB5 => some (.scat e)
  | 0xB6 => some (.coll e)
  | 0xB7 => some (.putn e)
  | 0xB8 => some (.getn e)
  | 0xB9 => some (.signal e)
  | 0xBA => some (.waitc e)
  | 0xBB => some (.cntrd e)
  | 0xC0 => some (.mma e)
  | 0xC1 => some (.mmap e)
  | 0xC2 => some (.mmag e)
  | 0xC3 => some (.accz e)
  | 0xC4 => some (.accld e)
  | 0xC5 => some (.accst e)
  | 0xC6 => some (.accrd e)
  | 0xC7 => some (.accwr e)
  | 0xC8 => some (.mxacq e)
  | 0xC9 => some (.mxrel e)
  | 0xCA => some (.mxstat e)
  | 0xD0 => some (.trace e)
  | 0xD1 => some (.hitq e)
  | 0xD2 => (match e.sub.toNat with | 0 => some (.candGet e) | 1 => some (.candAccept e) | 2 => some (.candReject e) | 3 => some (.candTerm e) | _ => none)
  | 0xD3 => (match e.sub.toNat with | 0 => some (.filtTex e) | 1 => some (.filtGrid e) | _ => none)
  | 0xD4 => some (.tlshut e)
  | 0xD5 => some (.tlpost e)
  | 0xD6 => some (.tlqry e)
  | 0xE0 => some (.bari e)
  | 0xE1 => some (.bara e)
  | 0xE2 => some (.barw e)
  | 0xE3 => some (.baraw e)
  | 0xE4 => some (.grpq e)
  | 0xE5 => some (.gred e)
  | 0xE6 => some (.step e)
  | 0xF0 => some (.sysrd e)
  | 0xF1 => some (.syswr e)
  | 0xF2 => some (.clk e)
  | 0xF3 => some (.grow e)
  | 0xF4 => some (.shrink e)
  | 0xF5 => some (.rsplit e)
  | 0xF6 => some (.rmerge e)
  | 0xF7 => some (.rinv e)
  | 0xF8 => some (.rprobe e)
  | 0xF9 => some (.rhint e)
  | 0xFA => some (.rmove e)
  | 0xFB => some (.rcmpt e)
  | 0xFC => some (.commit e)
  | _ => none

/-- An integer source, a floating-point source, a destination: the common roles. -/
def srcI : Role := .src .int false true
def srcT (t : Ty) : Role := .src (Ty.kind t) (Ty.wide t) true
def dstT (t : Ty) : Role := .dst (Ty.wide t) true
def dst1 : Role := .dst false true
/-- A memory instruction's destination: main or scalar file only (R199). -/
def dstM (t : Ty) : Role := .dst (Ty.wide t) false
/-- A memory instruction's value: no modifier (R199). -/
def valT (t : Ty) : Role := .src (Ty.kind t) (Ty.wide t) false

/-- A shape with no literal and no destination modifier. -/
def sh (d a b c e : Role) (lit : LitRule := .no) (dmod : Bool := false) : Shape := ⟨d, a, b, c, e, lit, dmod⟩

/-- The shapes of R101. -/
def shapeInt (i : Instr) : Option Shape :=
  match i with
  | .iadd w | .isub w | .imul w => some (sh (dstT w.ty) (srcT w.ty) (srcT w.ty) .none .none .yes true)
  | .iaddc w | .isubb w => some (sh (dstT w.ty) (srcT w.ty) (srcT w.ty) .pred .pdst)
  | .imulh w | .imin w | .imax w => some (sh (dstT w.ty) (srcT w.ty) (srcT w.ty) .none .none .yes)
  | .imad _ | .isad _ => some (sh dst1 srcI srcI srcI .none .yes true)
  | .imadw _ => some (sh (.dst true true) srcI srcI (.src .int true true) .none .yes true)
  | .iabs w => some (sh (dstT w.ty) (srcT w.ty) .none .none .none .no true)
  | .icmp w => some (sh .pdst (srcT w.ty) (srcT w.ty) .none .none .yes)
  | .isel w => some (sh (dstT w.ty) (srcT w.ty) (srcT w.ty) .pred .none .yes)
  | .and w | .or w | .xor w | .andn w => some (sh (dstT w.ty) (srcT w.ty) (srcT w.ty) .none .none .yes)
  | .lop3 _ => some (sh dst1 srcI srcI srcI .rawTT)
  | .shl w | .shr w | .sar w | .rotl w => some (sh (dstT w.ty) (srcT w.ty) srcI .none .none .yes)
  | .fshf _ | .bfi _ | .prmt _ => some (sh dst1 srcI srcI srcI .none .yes)
  | .bfx _ | .bdlv _ => some (sh dst1 srcI srcI .none .none .yes)
  | .popc w | .clz w | .ctz w => some (sh dst1 (srcT w.ty) .none .none .none)
  | .brev w => some (sh (dstT w.ty) (srcT w.ty) .none .none .none)
  | .blv w => some (sh dst1 srcI srcI (if w.sub = 1 then srcI else .none) .none .yes)
  | .lea _ => some (sh (.dst true true) (.src .int true true) srcI .none .none .yes)
  | .mov w => some (sh (dstT w.ty) (srcT w.ty) .none .none .none .no (w.ty != .b32))
  | .movl w => some (sh (dstT w.ty) .none .litOnly .none .none .required)
  | .cvti w => some (sh (dstT w.ty) (.src .int (decide (6 ≤ w.sub.toNat)) true) .none .none .none .no true)
  | .idiv w => some (sh (dstT w.ty) (srcT w.ty) (srcT w.ty) .none
      (if w.sub = 2 then .mdst 1 (if Ty.wide w.ty then .pair else .single) else .none) .yes (w.sub != 1))
  | _ => none

/-- The shapes of R119. -/
def shapeFp (i : Instr) : Option Shape :=
  match i with
  | .fadd w | .fsub w | .fmul w | .fmin w | .fmax w | .fdiv w =>
      some (sh dst1 (srcT w.ty) (srcT w.ty) .none .none .yes true)
  | .ffma w => some (sh dst1 (srcT w.ty) (srcT w.ty) (srcT w.ty) .none .yes true)
  | .fcmp w => some (sh .pdst (srcT w.ty) (srcT w.ty) .none .none .yes)
  | .fclass w => some (sh dst1 (srcT w.ty) .none .none .none)
  | .frnd w | .fsqrt w | .frcp w | .frsq w | .exp2 w | .log2 w | .sinpi w | .cospi w =>
      some (sh dst1 (srcT w.ty) .none .none .none .no true)
  | .fcvt w =>
      if w.ty = .f16x2 ∨ w.ty = .bf16x2 then some (sh dst1 (.src .fp false true) (.src .fp false true) .none .none .yes true)
      else some (sh dst1 (.src .fp false true) .none .none .none .no true)
  | .f2i w => some (sh (dstT w.ty) (.src .fp false true) .none .none .none)
  | .i2f w => some (sh dst1 (srcT w.ty) .none .none .none .no true)
  | .fdot2 _ => some (sh dst1 (.src .fp false true) (.src .fp false true) (.src .fp false true) .none .yes true)
  | .fscale w => some (sh dst1 (srcT w.ty) srcI .none .none .yes true)
  | .flgclr _ => some (sh .none .none .none .none .rawFlags)
  | .welf _ => some (sh (.mdst 3 .single) (.mblk 3 .fp true) (.src .fp false true) .none .none .yes)
  | .wmrg _ => some (sh (.mdst 3 .single) (.mblk 3 .fp true) (.mblk 3 .fp true) .none .none)
  | _ => none

/-- The shapes of R163. -/
def shapeCtl (i : Instr) : Option Shape :=
  match i with
  | .nop _ | .ret _ | .exit _ | .refill _ | .yield _ | .npregLeave _ | .trapBrk _ | .trapTret _ =>
      some (sh .none .none .none .none .none)
  | .bra _ | .call _ => some (sh .none .none .litOnly .none .none .required)
  | .brau _ => some (sh .none .none (.code false) .none .none .yes)
  | .brx _ => some (sh .none srcI srcI (.spair true) .none .yes)
  | .calli _ => some (sh .none srcI .none .none .none)
  | .jsave _ => some (sh .jdst .none .none .none .none)
  | .join _ | .jwait _ => some (sh .none .jsrc .none .none .none)
  | .reform _ => some (sh .none (.code true) .reformBlock .none .rawN)
  | .npregEnter _ | .trapCall _ => some (sh .none .none (.scon true) .none .none .yes)
  | .vote w =>
      some (sh (if w.sub.toNat < 3 then .pdst else if w.sub = 3 then .sdst .atW64 else .sdst .single) .pred .none .none .none)
  | .shfl w => some (sh (dstT w.ty) (srcT w.ty) srcI .none .none .yes)
  | .wred w => some (sh (.sdst (if Ty.wide w.ty then .pair else .single))
      (if w.ty = .b1 then .pred else srcT w.ty) .none .none .none .no true)
  | .wscan w => some (sh (dstT w.ty) (srcT w.ty) .none .none .none .no true)
  | .laneMatch w => some (sh (.mdst 1 .atW64) (srcT w.ty) .none .none (if w.sub = 1 then .pdst else .none))
  | .elect _ => some (sh .pdst .none .none .none .none)
  | .plop _ => some (sh .pjdst .pred .pred .none .none)
  | .pmov _ => some (sh (.sdst .atW64) .pred .none .none .none)
  | .pmovSet _ => some (sh .pjdst .smask .none .none .none)
  | .bxq w => some (sh (.mdst 1 .single) (.bxBlock (w.sub = 1)) .none .none (.sdst .single))
  | _ => none

/-- The shapes of R199. -/
def shapeMem (i : Instr) : Option Shape :=
  match i with
  | .ld w => some (sh (dstM w.ty) .base64 .idx .none .none .yes)
  | .st w | .red w => some (sh .none .base64 .idx (valT w.ty) .none .yes)
  | .lds w | .ldk w => some (sh (dstM w.ty) .base32 .idx .none .none .yes)
  | .sts w => some (sh .none .base32 .idx (valT w.ty) .none .yes)
  | .atom w =>
      if w.sub = 7 then some (sh (dstM w.ty) .base64 .idx (valT w.ty) (valT w.ty))
      else some (sh (dstM w.ty) .base64 .idx (valT w.ty) .none .yes)
  | .atoms w =>
      if w.sub = 7 then some (sh (dstM w.ty) .base32 .idx (valT w.ty) (valT w.ty))
      else some (sh (dstM w.ty) .base32 .idx (valT w.ty) .none .yes)
  | .pfetch _ | .pfetchZero _ | .cflush _ | .cinv _ => some (sh .none .base64 .idx .none .none .yes)
  | .fence _ | .commit _ => some (sh .none .none .none .none .none)
  | .csplit _ => some (sh .none .none (.scon false) .none .pdst .yes)
  | _ => none

/-- The shapes of R246, R271 and R472. -/
def shapeEng (i : Instr) : Option Shape :=
  match i with
  | .sealRec _ => some (sh (.sdst .single) .none .szero .none .pdst .yes)
  | .unsealRec _ => some (sh .none (.sblk 1) .none .none .none)
  | .hqry _ => some (sh (.sdst .single) (.sblk 1) (.scon false) .none .pdst .yes)
  | .cpy _ => some (sh .none (.sblk 1) .szero (.sblk 4) (.sblk 3))
  | .gath _ | .scat _ => some (sh .none (.sblk 1) .szero (.sblk 4) (.sblk 4))
  | .coll _ => some (sh .none (.scon false) .szero (.sblk 2) .none)
  | .putn _ | .getn _ => some (sh .none (.sblk 1) .szero (.sblk 4) .none)
  | .signal _ => some (sh .none (.sblk 1) (.spair false) (.sblk 4) .none)
  | .waitc _ => some (sh .none .none (.scon false) .none .none .yes)
  | .cntrd _ => some (sh (.sdst .single) .none .none .none .none)
  | .mma _ | .mmap _ => some (sh .tile .szero .szero (.sblk 3) .none)
  | .mmag _ => some (sh .tile .szero .szero (.sblk 4) .none)
  | .accz _ => some (sh .tile .none (.scon false) .none .none .yes)
  | .accld _ | .accst _ => some (sh .tile .szero (.sblk 1) .none .none)
  | .accrd _ => some (sh dst1 .tile (.src .int false false) (.src .int false false) .none .yes)
  | .accwr _ => some (sh .tile (.src .int false false) (.src .int false false) (.src .fp false false) .none .yes)
  | .mxacq _ => some (sh .none .none .none .none .pdst)
  | .mxrel _ => some (sh .none .none .none .none .none)
  | .mxstat _ => some (sh (.sdst .single) .none (.scon false) .none .none .yes)
  | _ => none

/-- The shapes of R153, R291, R321, R341, R385, R397, R416 and R457. -/
def shapeSys (i : Instr) : Option Shape :=
  match i with
  | .trace _ => some (sh (.mdst 4 .single) (.mblk 9 .fp true) (.scon false) .none .none .yes)
  | .hitq _ => some (sh dst1 .none .none .none .none)
  | .candGet _ => some (sh (.mdst 4 .single) .none .none .none .pdst)
  | .candAccept _ | .candReject _ | .candTerm _ => some (sh .none .none .none .none .none)
  | .filtTex _ => some (sh (.mdst 4 .single) (.mblk 6 .fp true) (.sblk 1) .none .none)
  | .filtGrid _ => some (sh (.mdst 1 .single) (.mblk 3 .fp true) (.sblk 1) .none .none)
  | .tlshut _ => some (sh .none .none (.scon false) .none .pdst .yes)
  | .tlpost _ => some (sh .none (.sblk 3) (.scon false) .none .pdst .yes)
  | .tlqry _ => some (sh (.sdst .single) .none (.scon false) (.scon false) .none .yes)
  | .bari _ => some (sh .pdst (.scon false) (.scon false) .none (.rawBar false) .yes)
  | .bara _ | .barw _ | .baraw _ => some (sh .none .none .none .none (.rawBar true))
  | .grpq _ => some (sh (.sdst .single) .none (.scon false) .none .rawSlot .yes)
  | .gred w => some (sh (.sdst (if Ty.wide w.ty then .pair else .single)) (srcT w.ty) .none .none .rawSlot .no true)
  | .step _ | .sysrd _ => some (sh (.sdst .single) .none (.scon false) .none .none .yes)
  | .syswr _ => some (sh .none .none (.scon false) (.sblk 1) .none .yes)
  | .clk _ => some (sh (.sdst .pair) .none (.scon false) .none .none .yes)
  | .grow _ | .shrink _ => some (sh .none .none (.scon false) .none .none .yes)
  | .rsplit _ | .rmerge _ => some (sh (.sdst .single) (.spair false) .none .none .none)
  | .rinv _ | .rprobe _ | .rcmpt _ => some (sh (.sdst .single) (.spair false) (.scon false) .none .none .yes)
  | .rhint _ => some (sh (.sdst .single) (.spair false) (.scon false) (.sblk 1) .none .yes)
  | .rmove _ => some (sh (.sdst .single) (.spair false) (.scon false) (.spair false) .none .yes)
  | _ => none

/-- The shape of an instruction; none for the steps that have no word. -/
def shapeOf (i : Instr) : Option Shape :=
  (shapeInt i).orElse fun _ => (shapeFp i).orElse fun _ => (shapeCtl i).orElse fun _ => (shapeMem i).orElse fun _ =>
    (shapeEng i).orElse fun _ => shapeSys i

/-- The rounding selector codes of R35. -/
def rsOk (n : Nat) : Bool := n == 0 || n == 4 || n == 5 || n == 6 || n == 7

/-- The SUB values that the row of an instruction assigns (R85-R93), reserved rounding selectors excluded (R76 cause 2). -/
def subOk (i : Instr) : Bool :=
  match i with
  | .npregLeave w | .trapCall w | .candAccept w | .filtGrid w | .pmovSet w => w.sub == 1
  | .trapTret w | .candReject w | .pfetchZero w => w.sub == 2
  | .candTerm w => w.sub == 3
  | .icmp w => decide (w.sub.toNat < 6)
  | .fshf w | .blv w | .bdlv w | .bxq w | .laneMatch w | .pfetch w | .cflush w | .cinv w | .mxacq w =>
      decide (w.sub.toNat < 2)
  | .lea _ => true
  | .cvti w | .cpy w | .gath w | .scat w => decide (w.sub.toNat < 8)
  | .idiv w | .fmin w | .fmax w | .accld w => decide (w.sub.toNat < 3)
  | .fadd w | .fsub w | .fmul w | .ffma w | .frnd w | .fdiv w | .fsqrt w | .fdot2 w | .fscale w => rsOk w.sub.toNat
  | .fcvt w | .f2i w | .i2f w => rsOk (w.sub.toNat % 8)
  | .fcmp _ => true
  | .vote w | .fence w | .waitc w | .cntrd w | .accst w => decide (w.sub.toNat < 5)
  | .shfl w | .plop w | .mma w | .mmap w | .mmag w => decide (w.sub.toNat < 4)
  | .wred w | .red w | .gred w => decide (w.sub.toNat < 6)
  | .wscan w => decide (w.sub.toNat % 8 < 3)
  | .ld w | .st w => decide (w.sub.toNat % 8 < 5)
  | .lds w | .sts w => decide (w.sub.toNat % 8 < 3)
  | .atom w | .atoms w => decide (w.sub.toNat < 10)
  | .coll w => decide (w.sub.toNat < 7)
  | .trace w => [0, 1, 3, 4, 5, 7].contains w.sub.toNat
  | _ => match Instr.word? i with
    | some (_, w) => w.sub == 0
    | none => true

/-- R84: the operation codes that a type admits. -/
def r84Ok (t : Ty) (code : Nat) : Bool :=
  match t with
  | .f32 => [0, 1, 2, 6, 7].contains code
  | .b1 => [0, 3, 4, 5].contains code
  | _ => true

/-- The TY codes that the row of an instruction admits with its SUB (R84-R93). -/
def tyOk (i : Instr) : Bool :=
  match i with
  | .iadd w | .isub w | .imin w | .imax w => [0, 1, 2, 3, 9, 10, 11, 12].contains (Ty.code w.ty)
  | .iaddc w | .isubb w => [0, 2].contains (Ty.code w.ty)
  | .imul w => [0, 1, 2, 3, 9, 10].contains (Ty.code w.ty)
  | .imulh w | .icmp w | .cvti w | .idiv w | .f2i w | .i2f w => [0, 1, 2, 3].contains (Ty.code w.ty)
  | .imad w => [0, 1, 9, 10].contains (Ty.code w.ty)
  | .imadw w | .bfx w => [0, 1].contains (Ty.code w.ty)
  | .iabs w => [1, 3, 10, 12].contains (Ty.code w.ty)
  | .isad w => [0, 1, 9, 10, 11, 12].contains (Ty.code w.ty)
  | .isel w | .and w | .or w | .xor w | .andn w | .shl w | .shr w | .popc w | .clz w | .ctz w | .brev w
  | .shfl w | .laneMatch w => [2, 14].contains (Ty.code w.ty)
  | .lop3 w | .rotl w | .fshf w | .bfi w | .blv w | .bdlv w | .prmt w => w.ty == .b32
  | .sar w => [1, 3].contains (Ty.code w.ty)
  | .lea w => w.ty == .n64
  | .mov w => [0, 1, 2, 3, 4, 5, 6, 7, 8, 9, 10, 11, 12, 14].contains (Ty.code w.ty)
  | .movl w => [0, 2].contains (Ty.code w.ty)
  | .fadd w | .fsub w | .fmul w | .ffma w | .fmin w | .fmax w | .frnd w => [4, 5, 6, 7, 8].contains (Ty.code w.ty)
  | .fcmp w | .fclass w | .fdiv w | .fsqrt w | .frcp w | .frsq w | .fscale w => [4, 7, 8].contains (Ty.code w.ty)
  | .fcvt w => if w.ty = .f32 then w.sub.toNat % 8 == 0
      else [5, 6, 7, 8].contains (Ty.code w.ty) && decide (w.sub.toNat < 8)
  | .exp2 w | .log2 w | .sinpi w | .cospi w => [4, 7].contains (Ty.code w.ty)
  | .fdot2 w => [5, 6].contains (Ty.code w.ty)
  | .welf w | .wmrg w | .bxq w | .accrd w | .accwr w => w.ty == .f32
  | .vote w | .plop w => w.ty == .b1
  | .wred w => [0, 1, 2, 3, 4, 14, 15].contains (Ty.code w.ty) && r84Ok w.ty w.sub.toNat
  | .wscan w => [0, 1, 2, 3, 4].contains (Ty.code w.ty)
  | .ld w | .st w | .lds w | .sts w => [0, 1, 2, 3, 4, 5, 6, 7, 8, 9, 10, 11, 12, 14].contains (Ty.code w.ty)
  | .ldk w => [0, 2, 4, 14].contains (Ty.code w.ty)
  | .atom w | .atoms w | .red w | .gred w => [0, 1, 2, 3, 4, 14].contains (Ty.code w.ty) && r84Ok w.ty w.sub.toNat
  | .coll w => [0, 1, 4, 5, 6, 14].contains (Ty.code w.ty) && (w.ty != .b32 || decide (4 ≤ w.sub.toNat))
  | _ => match Instr.word? i with
    | some (_, w) => w.ty == .n32
    | none => true

/-- The 16 bits of an operand field (R59). -/
def Operand.bits (o : Operand) : W16 :=
  let f : BitVec 2 := match o.file with | .main => 0 | .scalar => 1 | .side => 2 | .pred => 3
  o.lsel ++ (o.mod ++ (BitVec.ofBool o.fep ++ (o.idx ++ f)))

/-- The operand field of 16 bits (R59). -/
def Operand.ofBits (v : W16) : Operand :=
  let f : RegFile := match (v.extractLsb' 0 2).toNat with | 0 => .main | 1 => .scalar | 2 => .side | _ => .pred
  ⟨f, v.extractLsb' 2 9, v.getLsbD 11, v.extractLsb' 12 2, v.extractLsb' 14 2⟩

/-- The field 0x0000. -/
def Operand.zero : Operand := ⟨.main, 0, false, 0, 0⟩

/-- The side file an operand with FILE = 10 selects (R60). -/
def Operand.side (o : Operand) : Nat := o.idx.toNat / 128
/-- The entry within the side file (R60). -/
def Operand.entry (o : Operand) : Nat := o.idx.toNat % 128

/-- The special registers that hold one value per lane (R66). -/
def perLaneSpecial (n : Nat) : Bool := n == 0 || n == 7 || n == 8 || n == 9 || n == 15

/-- The operand names a register of a per-lane file, a predicate or a per-lane special (R63, R66, R69, R100). -/
def Operand.perLane (o : Operand) : Bool :=
  match o.file with
  | .main | .pred => true
  | .scalar => false
  | .side => decide (Operand.side o < 2) || (Operand.side o == 2 && perLaneSpecial (Operand.entry o))

/-- R61: LSEL 00 anywhere, 01 on the main, operand and last-result files. -/
def lselOk (o : Operand) : Bool :=
  o.lsel == 0 || (o.lsel == 1 && (o.file == .main || (o.file == .side && decide (Operand.side o < 2))))

/-- R59: the source modifiers of a kind. -/
def modOk (k : Kind) (mods : Bool) (o : Operand) : Bool :=
  if mods then (k == .fp || decide (o.mod.toNat < 2)) else o.mod == 0

/-- R62, R63: the register or pair an operand names lies within its set. -/
def regOk (k : Kind) (p : Bool) (o : Operand) : Bool :=
  let even := o.idx.toNat % 2 == 0
  match o.file with
  | .main => decide (o.idx.toNat < 384) && (!p || even)
  | .scalar => decide (o.idx.toNat < 64) && (!p || even)
  | .pred => false
  | .side =>
    match Operand.side o with
    | 0 => decide (Operand.entry o < 8) && (!p || even)
    | 1 => decide (Operand.entry o < 4) && (!p || even)
    | 2 => decide (Operand.entry o ≤ 22)
    | _ => decide (Operand.entry o < (if k = .fp then 8 else 3))

/-- An inline constant of an integer source (R67). -/
def constOk (o : Operand) : Bool := o.file == .side && Operand.side o == 3 && decide (Operand.entry o < 3)

/-- A plain destination field: LSEL 00 and FEP 0 (R59). -/
def dstPlain (o : Operand) : Bool := o.lsel == 0 && !o.fep

/-- The predicate index lies in [lo, hi) and the field names the predicate namespace (R64). -/
def predIn (lo hi : Nat) (o : Operand) : Bool :=
  o.file == .pred && decide (lo ≤ o.idx.toNat) && decide (o.idx.toNat < hi)

/-- A pair rule at warp width w. -/
def PairRule.at (p : PairRule) (w : Nat) : Bool :=
  match p with
  | .single => false
  | .pair => true
  | .atW64 => w == 64

/-- R76 cause 4 for one field: whether it satisfies its role, for warp width w. `dm`: a destination modifier is
admitted on this field. A 64-bit destination may be an operand-file pair oK:oK+1 with K even, as a source may (R62 lists the
pair for sources; the model's choice, log entry 120). -/
def roleOk (w : Nat) (dm : Bool) (r : Role) (o : Operand) : Bool :=
  let dmodOk := if dm then decide (o.mod.toNat < 3) else o.mod == 0
  match r with
  | .none => o == Operand.zero
  | .dst p side => dstPlain o && dmodOk && regOk .int p o &&
      (o.file != .side || (side && Operand.side o == 0))
  | .sdst p => dstPlain o && dmodOk && o.file == .scalar && regOk .int (p.at w) o
  | .mdst _ p => dstPlain o && o.mod == 0 && o.file == .main && regOk .int (p.at w) o
  | .src k p mods => lselOk o && modOk k mods o && regOk k p o
  | .pred => o.lsel == 0 && decide (o.mod.toNat < 2) && predIn 0 32 o
  | .pdst => dstPlain o && o.mod == 0 && predIn 0 16 o
  | .jdst => dstPlain o && o.mod == 0 && predIn 16 24 o
  | .pjdst => dstPlain o && o.mod == 0 && predIn 0 24 o
  | .jsrc => o.lsel == 0 && o.mod == 0 && predIn 16 24 o
  | .code mainOnly => lselOk o && modOk .int true o && regOk .int false o &&
      (o.file == .main || (!mainOnly && o.file == .scalar))
  | .mblk _ k plain => o.file == .main && regOk k false o &&
      (if plain then o.lsel == 0 && o.mod == 0 else lselOk o && modOk k true o)
  | .bxBlock _ => o.file == .main && regOk .fp false o && lselOk o
  | .reformBlock => o.file == .main && regOk .int false o && lselOk o && modOk .int true o
  | .base64 => o.lsel == 0 && o.mod == 0 && regOk .int true o && (o.file == .main || o.file == .scalar)
  | .base32 => o.lsel == 0 && o.mod == 0 && ((regOk .int false o && (o.file == .main || o.file == .scalar)) ||
      (constOk o && Operand.entry o == 0))
  | .idx => lselOk o && o.mod == 0 && regOk .int false o
  | .scon mods => o.lsel == 0 && modOk .int mods o && ((o.file == .scalar && regOk .int false o) || constOk o)
  | .szero => o.lsel == 0 && o.mod == 0 && ((o.file == .scalar && regOk .int false o) ||
      (constOk o && Operand.entry o == 0))
  | .sblk n => o.lsel == 0 && o.mod == 0 && o.file == .scalar && decide (o.idx.toNat + n ≤ 64)
  | .spair mods => o.lsel == 0 && modOk .int mods o && o.file == .scalar && regOk .int true o
  | .smask => o.lsel == 0 && modOk .int true o && o.file == .scalar && regOk .int (w == 64) o
  | .tile => o.file == .main && !o.fep && o.mod == 0 && o.lsel == 0 && decide (o.idx.toNat < 96)
  | .rawTT => decide ((Operand.bits o).toNat < 256)
  | .rawN => decide (1 ≤ (Operand.bits o).toNat) && decide ((Operand.bits o).toNat ≤ 16)
  | .rawFlags => decide ((Operand.bits o).toNat < 32)
  | .rawBar groupOk =>
      let v := (Operand.bits o).toNat
      decide (v < 64) || (groupOk && decide (64 ≤ v) && decide (v < 68))
  | .rawSlot => decide ((Operand.bits o).toNat < 4)
  | .litOnly => false

/-- The last main-file register that a field names, plus one; 0 when it names none (R62, R76 cause 5). -/
def mainEnd (w : Nat) (n : Nat) (r : Role) (o : Operand) : Nat :=
  let i := o.idx.toNat
  if o.file != .main then 0
  else match r with
  | .dst p _ => i + (if p then 2 else 1)
  | .mdst k p => i + (if p.at w then 2 else k)
  | .src _ p _ => i + (if p then 2 else 1)
  | .code _ | .idx | .base32 => i + 1
  | .mblk k _ _ => i + k
  | .bxBlock four => i + (if four then 128 else 64) / w
  | .reformBlock => i + n
  | .base64 => i + 2
  | _ => 0

/-- A role that names a destination register. -/
def Role.isDst : Role → Bool
  | .dst _ _ | .sdst _ | .mdst _ _ | .pdst | .jdst | .pjdst => true
  | _ => false

/-- A role that names a source register or predicate. -/
def Role.isSrc : Role → Bool
  | .src _ _ _ | .pred | .jsrc | .code _ | .mblk _ _ _ | .bxBlock _ | .reformBlock | .base64 | .base32 | .idx
  | .scon _ | .szero | .sblk _ | .spair _ | .smask => true
  | _ => false

/-- The roles of the five fields when L is 1: B and C are the literal, and a third source is read from E (R58). -/
def Shape.withLit (s : Shape) : Shape :=
  match s.lit with
  | .no => { s with b := .none, c := .none }
  | _ => { s with b := .none, c := .none, e := if s.e = .none then s.c else s.e }

/-- The roles in force for a word with or without a literal. -/
def Shape.eff (s : Shape) (lit : Bool) : Shape := if lit then s.withLit else s

/-- Instructions whose entry defines the reduction that produces a scalar destination (R69). -/
def Instr.isReduction : Instr → Bool
  | .wred _ | .vote _ | .pmov _ | .gred _ | .bxq _ => true
  | _ => false

/-- An instruction that reads per-lane state beside its operands (R300). -/
def Instr.readsLaneState : Instr → Bool
  | .hitq _ => true
  | _ => false

/-- Whether a branch literal has a nonzero low nibble (R161). -/
def badBranchLit (i : Instr) (w : Enc) : Bool :=
  match i with
  | .bra _ | .call _ | .brau _ => (match w.lit with | some v => v.toNat % 16 != 0 | none => false)
  | _ => false

/-- The fields of a word in operand order, with their roles and whether the destination modifier is admitted. -/
def fieldsOf (s : Shape) (w : Enc) : List (Role × Operand × Bool) :=
  [(s.d, w.d, s.dmod), (s.a, w.a, false), (s.b, w.b, false), (s.c, w.c, false), (s.e, w.e, false)]

/-- The first field of a word that breaks its role (R76 cause 4): its operand number. -/
def badField (width : Nat) (i : Instr) (s : Shape) (w : Enc) : Option Nat :=
  let s' := s.eff w.lit.isSome
  let bad := (fieldsOf s' w).map fun (r, o, dm) => !roleOk width dm r o
  let bad := if badBranchLit i w then bad.set 2 true else bad
  let k := bad.findIdx id
  if k < 5 then some k else none

/-- R76 cause 5: a named main register lies at or above N. -/
def beyondN (width n : Nat) (s : Shape) (w : Enc) : Bool :=
  let s' := s.eff w.lit.isSome
  (fieldsOf s' w).any fun (r, o, _) => decide (n < mainEnd width (Operand.bits w.e).toNat r o)

/-- R76 cause 7: a scalar destination from a per-lane source, by R69. -/
def scalarFromLanes (i : Instr) (s : Shape) (w : Enc) : Bool :=
  let fs := fieldsOf (s.eff w.lit.isSome) w
  !Instr.isReduction i && fs.any (fun (r, o, _) => r.isDst && o.file == .scalar) &&
    (Instr.readsLaneState i || fs.any (fun (r, o, _) => r.isSrc && Operand.perLane o))

/-- A cause of ILLEGAL by R76: the cause number, and the operand number for cause 4. -/
structure IllegalCause where
  cause : Nat
  operand : Nat
  deriving DecidableEq, Repr

/-- The lowest cause of R76 from 2 to 7 that an instruction of an assigned OP has, in a warp of width W and N
registers; none when the word is an instruction. -/
def illegalInstr (width n : Nat) (i : Instr) (w : Enc) : Option IllegalCause :=
  if !subOk i then some ⟨2, 0⟩
  else if w.ty = .r13 || !tyOk i then some ⟨3, 0⟩
  else match shapeOf i with
  | none => some ⟨2, 0⟩
  | some s =>
    match badField width i s w with
    | some k => some ⟨4, k⟩
    | none =>
      if beyondN width n s w then some ⟨5, 0⟩
      else if w.lit.isSome && s.lit = .no then some ⟨6, 0⟩
      else if scalarFromLanes i s w then some ⟨7, 0⟩
      else none

end Sys2Proof.Machine
end

