-- ==== Sys2Proof/WellFormed.lean ====
section
/-! DEFINITION. Well-formed instructions: those whose word is an instruction under R76 and R80-R95 in some warp (N at
its largest, W 32 or 64: the two values of the warp that issues the word on which R76 depends). -/

namespace Sys2Proof

open Machine

/-- With a literal the fields B and C do not exist and are held as zero fields (R58). -/
def literalCanonical (w : Enc) : Bool :=
  match w.lit with
  | none => true
  | some _ => w.b == Machine.Operand.zero && w.c == Machine.Operand.zero

/-- The cause of R76 that the fields of an instruction have in every warp with N = 384: none where they have none at
W = 64 or at W = 32, the widths at which the conditions on blocks and pairs differ. -/
def illegalAnywhere (i : Instr) (w : Enc) : Option IllegalCause :=
  match illegalInstr 64 384 i w with
  | none => none
  | some _ => illegalInstr 32 384 i w

/-- The word of a Zorsis instruction is an instruction in some warp. -/
def wordLegal (i : Instr) (w : Enc) : Bool := (illegalAnywhere i w).isNone

/-- A well-formed instruction. A step of another agent has no word and is always well-formed as syntax. -/
def WellFormed (i : Instr) : Bool :=
  match Instr.word? i with
  | some (_, w) => literalCanonical w && wordLegal i w
  | none => true

end Sys2Proof
end

