-- ==== Sys2Proof/Decode.lean ====
section
/-! DEFINITION. The decoder of instruction words (R56, R58, R59, R76, R80-R95), total on any bytes and rejecting by
name, and the encoder written from the same tables. -/

namespace Sys2Proof

open Machine

/-- Why bytes are no instruction: too few of them, or a cause of R76 that holds in every warp. -/
inductive DecodeError where
  | truncated
  | reservedBits
  | unassignedOp
  | unassignedSub
  | typeNotAdmitted
  | operandField (operand : Nat)
  | literalNotAdmitted
  | scalarFromLanes
  deriving DecidableEq, Repr

/-- The fields of a word other than OP and the reserved bits (R56, R58). -/
def Enc.ofWord (v : W128) : Enc :=
  let lit := v.getLsbD 29
  { sub := v.extractLsb' 8 4
    ty := Ty.ofCode (v.extractLsb' 12 4).toNat
    guard := ⟨v.extractLsb' 16 5, v.getLsbD 21, v.extractLsb' 22 5, v.getLsbD 27, v.getLsbD 28⟩
    ch := v.extractLsb' 30 2
    d := Operand.ofBits (v.extractLsb' 32 16)
    a := Operand.ofBits (v.extractLsb' 48 16)
    b := if lit then Operand.zero else Operand.ofBits (v.extractLsb' 64 16)
    c := if lit then Operand.zero else Operand.ofBits (v.extractLsb' 80 16)
    e := Operand.ofBits (v.extractLsb' 96 16)
    lit := if lit then some (v.extractLsb' 64 32) else none
    bnd := v.getLsbD 112
    dly := v.extractLsb' 113 4
    yh := v.getLsbD 117
    ph := v.getLsbD 118 }

/-- OP of a word (R56). -/
def wordOp (v : W128) : Nat := (v.extractLsb' 0 8).toNat

/-- Bits [127:119] of a word (R56). -/
def wordReserved (v : W128) : BitVec 9 := v.extractLsb' 119 9

/-- The cause of R76 that a word has when a warp of width W and N registers issues it, the lowest of those that
hold; none when the word is an instruction. -/
def illegalWord (width n : Nat) (v : W128) : Option IllegalCause :=
  if wordReserved v ≠ 0 then some ⟨1, 0⟩
  else match ofOp (wordOp v) (Enc.ofWord v) with
  | none => some ⟨2, 0⟩
  | some i => illegalInstr width n i (Enc.ofWord v)

/-- The OP values of R85-R93 that have an instruction. -/
def opAssigned (op : Nat) : Bool :=
  decide (op ≤ 0x35) || (decide (0x40 ≤ op) && decide (op ≤ 0x58)) || (decide (0x80 ≤ op) && decide (op ≤ 0x88)) ||
  (decide (0x90 ≤ op) && decide (op ≤ 0x9C)) || (decide (0xB0 ≤ op) && decide (op ≤ 0xBB)) ||
  (decide (0xC0 ≤ op) && decide (op ≤ 0xCA)) || (decide (0xD0 ≤ op) && decide (op ≤ 0xD6)) ||
  (decide (0xE0 ≤ op) && decide (op ≤ 0xE6)) || (decide (0xF0 ≤ op) && decide (op ≤ 0xFC))

/-- The decoder on one word. -/
def decodeWord (v : W128) : Except DecodeError Instr :=
  if wordReserved v ≠ 0 then .error .reservedBits
  else match ofOp (wordOp v) (Enc.ofWord v) with
  | none => .error (if opAssigned (wordOp v) then .unassignedSub else .unassignedOp)
  | some i =>
    match illegalAnywhere i (Enc.ofWord v) with
    | none => .ok i
    | some c =>
      match c.cause with
      | 2 => .error .unassignedSub
      | 3 => .error .typeNotAdmitted
      | 6 => .error .literalNotAdmitted
      | 7 => .error .scalarFromLanes
      | _ => .error (.operandField c.operand)

/-- Little-endian bytes as a number (R3). -/
def leNat (l : List Byte) : Nat := l.foldr (fun b acc => b.toNat + 256 * acc) 0

/-- The n bytes of a number, least significant first (R3). -/
def leBytes (n v : Nat) : List Byte :=
  (List.range n).map fun k => BitVec.ofNat 8 (v / 256 ^ k)

/-- The decoder on a list of bytes: the instruction of the first 16 bytes, and the rest (R56). -/
def decodeBytes (l : List Byte) : Except DecodeError (Instr × List Byte) :=
  if l.length < 16 then .error .truncated
  else match decodeWord (BitVec.ofNat 128 (leNat (l.take 16))) with
  | .ok i => .ok (i, l.drop 16)
  | .error e => .error e

/-- The word of an instruction's fields (R56, R58). -/
def Enc.toWord (op : BitVec 8) (w : Enc) : W128 :=
  let bc : W32 := match w.lit with
    | some v => v
    | none => Operand.bits w.c ++ Operand.bits w.b
  (0 : BitVec 9) ++ (BitVec.ofBool w.ph ++ (BitVec.ofBool w.yh ++ (w.dly ++ (BitVec.ofBool w.bnd ++
    (Operand.bits w.e ++ (bc ++ (Operand.bits w.a ++ (Operand.bits w.d ++ (w.ch ++ (BitVec.ofBool w.lit.isSome ++
    (BitVec.ofBool w.guard.gc ++ (BitVec.ofBool w.guard.gbn ++ (w.guard.gb ++ (BitVec.ofBool w.guard.gan ++
    (w.guard.ga ++ (BitVec.ofNat 4 (Ty.code w.ty) ++ (w.sub ++ op)))))))))))))))))

/-- The encoder: the word of a Zorsis instruction; none for a step that has no word. -/
def encode (i : Instr) : Option W128 :=
  match Instr.word? i with
  | some (op, w) => some (Enc.toWord (BitVec.ofNat 8 op) w)
  | none => none

/-- The instruction the decoder reads from an instruction whose bits are w, numbered from the least significant bit
of the first byte; bits at and above nbits are zero. -/
def decodeTableWord (nbits w : Nat) : Option Instr :=
  match decodeBytes (leBytes 16 (w % 2 ^ nbits)) with
  | .ok (i, _) => some i
  | .error _ => none

end Sys2Proof
end

