-- ==== Sys2Proof/Machine/Bits.lean ====
section
/-! DEFINITION. Integers and bits on register values: elements (R28-R30, R98) and the value functions of the integer
class (R102-R115). A source or result is held in 64 bits, a 32-bit one zero-extended. -/

namespace Sys2Proof.Machine

/-- The elements of a lane type: how many, their width and their signedness (R28, R29). -/
structure Elem where
  count : Nat
  width : Nat
  signed : Bool
  deriving DecidableEq, Repr

/-- The integer elements of a lane type; raw types and predicates are read as unsigned (R98). -/
def Ty.elem : Ty → Elem
  | .n32 | .f32 | .b32 | .r13 => ⟨1, 32, false⟩
  | .s32 => ⟨1, 32, true⟩
  | .n64 => ⟨1, 64, false⟩
  | .s64 => ⟨1, 64, true⟩
  | .f16x2 | .bf16x2 | .n16x2 => ⟨2, 16, false⟩
  | .f16 | .bf16 => ⟨1, 16, false⟩
  | .s16x2 => ⟨2, 16, true⟩
  | .n8x4 => ⟨4, 8, false⟩
  | .s8x4 => ⟨4, 8, true⟩
  | .b1 => ⟨1, 1, false⟩

/-- n bits of v as a signed number (R28). -/
def signedOf (n v : Nat) : Int :=
  let v := v % 2 ^ n
  if n ≠ 0 ∧ 2 ^ (n - 1) ≤ v then (v : Int) - 2 ^ n else v

/-- The n-bit pattern of an integer (R98). -/
def wrapNat (n : Nat) (v : Int) : Nat := (v % (2 ^ n : Int)).toNat

/-- Element i of a value (R29, R98). -/
def elemOf (e : Elem) (v : Nat) (i : Nat) : Int :=
  let x := v / 2 ^ (e.width * i) % 2 ^ e.width
  if e.signed then signedOf e.width x else x

/-- The least and the greatest value of an element type (R28). -/
def elemLo (e : Elem) : Int := if e.signed then -(2 ^ (e.width - 1)) else 0
def elemHi (e : Elem) : Int := if e.signed then 2 ^ (e.width - 1) - 1 else 2 ^ e.width - 1

/-- v clamped to [lo, hi] (R30). -/
def clampInt (lo hi v : Int) : Int := if v < lo then lo else if hi < v then hi else v

/-- res of R98: the pattern of an exact result under a destination modifier. -/
def resElem (e : Elem) (dmod : Nat) (v : Int) : Nat :=
  wrapNat e.width (if dmod = 2 then clampInt (elemLo e) (elemHi e) v else if dmod = 1 then clampInt 0 1 v else v)

/-- Elements packed by R29. -/
def packElems (e : Elem) (l : List Nat) : Nat :=
  l.foldr (fun x acc => x % 2 ^ e.width + 2 ^ e.width * acc) 0

/-- A function of the elements of two values, each result through res. -/
def mapElems2 (e : Elem) (dmod : Nat) (f : Int → Int → Int) (a b : Nat) : Nat :=
  packElems e ((List.range e.count).map fun i => resElem e dmod (f (elemOf e a i) (elemOf e b i)))

/-- A function of the elements of three values, each result through res. -/
def mapElems3 (e : Elem) (dmod : Nat) (f : Int → Int → Int → Int) (a b c : Nat) : Nat :=
  packElems e ((List.range e.count).map fun i => resElem e dmod (f (elemOf e a i) (elemOf e b i) (elemOf e c i)))

/-- IADD, ISUB (R102), IMUL (R103). -/
def addV (t : Ty) (dmod a b : Nat) : Nat := mapElems2 (Ty.elem t) dmod (· + ·) a b
def subV (t : Ty) (dmod a b : Nat) : Nat := mapElems2 (Ty.elem t) dmod (· - ·) a b
def mulV (t : Ty) (dmod a b : Nat) : Nat := mapElems2 (Ty.elem t) dmod (· * ·) a b

/-- IADDC (R102): the sum and the carry out. -/
def addcV (t : Ty) (a b : Nat) (cin : Bool) : Nat × Bool :=
  let n := (Ty.elem t).width
  let s := a % 2 ^ n + b % 2 ^ n + (if cin then 1 else 0)
  (s % 2 ^ n, decide (2 ^ n ≤ s))

/-- ISUBB (R102): the difference and the borrow out. -/
def subbV (t : Ty) (a b : Nat) (cin : Bool) : Nat × Bool :=
  let n := (Ty.elem t).width
  let d : Int := (a % 2 ^ n : Nat) - (b % 2 ^ n : Nat) - (if cin then 1 else 0)
  (wrapNat n d, decide (d < 0))

/-- IMULH (R103): the upper half of the exact product. -/
def mulhV (t : Ty) (a b : Nat) : Nat :=
  let e := Ty.elem t
  wrapNat e.width ((elemOf e a 0 * elemOf e b 0) / (2 ^ e.width : Int))

/-- IMAD (R103). -/
def madV (t : Ty) (dmod a b c : Nat) : Nat := mapElems3 (Ty.elem t) dmod (fun x y z => x * y + z) a b c

/-- IMADW (R103): a 32-bit product added to a 64-bit pair. -/
def madwV (t : Ty) (dmod a b c : Nat) : Nat :=
  let e := Ty.elem t
  let w : Elem := ⟨1, 64, e.signed⟩
  resElem w dmod (elemOf e a 0 * elemOf e b 0 + elemOf w c 0)

/-- IMIN, IMAX (R104). -/
def minV (t : Ty) (a b : Nat) : Nat := mapElems2 (Ty.elem t) 0 min a b
def maxV (t : Ty) (a b : Nat) : Nat := mapElems2 (Ty.elem t) 0 max a b

/-- IABS (R104). -/
def absV (t : Ty) (dmod a : Nat) : Nat := mapElems2 (Ty.elem t) dmod (fun x _ => x.natAbs) a 0

/-- ISAD (R104): absolute differences summed and added to an n32. -/
def sadV (t : Ty) (dmod a b c : Nat) : Nat :=
  let e := Ty.elem t
  let s := (List.range e.count).foldl (fun acc i => acc + (elemOf e a i - elemOf e b i).natAbs) 0
  resElem ⟨1, 32, false⟩ dmod ((s + c % 2 ^ 32 : Nat) : Int)

/-- The condition of ICMP (R105). -/
def icmpV (t : Ty) (cc a b : Nat) : Bool :=
  let x := elemOf (Ty.elem t) a 0
  let y := elemOf (Ty.elem t) b 0
  match cc with
  | 0 => decide (x = y)
  | 1 => decide (x ≠ y)
  | 2 => decide (x < y)
  | 3 => decide (x ≤ y)
  | 4 => decide (y < x)
  | _ => decide (y ≤ x)

/-- LOP3 (R106): each result bit from the table byte. -/
def lop3V (tt a b c : Nat) : Nat :=
  (List.range 32).foldl (fun acc j =>
    let i := (a.testBit j).toNat + 2 * (b.testBit j).toNat + 4 * (c.testBit j).toNat
    if tt.testBit i then acc + 2 ^ j else acc) 0

/-- The bitwise inverse over w bits. -/
def notBits (w v : Nat) : Nat := 2 ^ w - 1 - v % 2 ^ w

/-- AND, OR, XOR, ANDN (R106). -/
def andV (t : Ty) (a b : Nat) : Nat := (a &&& b) % 2 ^ (Ty.elem t).width
def orV (t : Ty) (a b : Nat) : Nat := (a ||| b) % 2 ^ (Ty.elem t).width
def xorV (t : Ty) (a b : Nat) : Nat := (a ^^^ b) % 2 ^ (Ty.elem t).width
def andnV (t : Ty) (a b : Nat) : Nat := (a &&& notBits (Ty.elem t).width b) % 2 ^ (Ty.elem t).width

/-- SHL, SHR, SAR, ROTL (R107), by the n32 count c. -/
def shlV (t : Ty) (a c : Nat) : Nat :=
  let w := (Ty.elem t).width
  if w ≤ c then 0 else a * 2 ^ c % 2 ^ w
def shrV (t : Ty) (a c : Nat) : Nat :=
  let w := (Ty.elem t).width
  if w ≤ c then 0 else a % 2 ^ w / 2 ^ c
def sarV (t : Ty) (a c : Nat) : Nat :=
  let w := (Ty.elem t).width
  wrapNat w (signedOf w a / (2 ^ min c (w - 1) : Int))
def rotlV (a c : Nat) : Nat :=
  let k := c % 32
  (a * 2 ^ k + a % 2 ^ 32 / 2 ^ (32 - k)) % 2 ^ 32

/-- FSHF (R107): a funnel shift of hi and lo. -/
def fshfV (right : Bool) (hi lo c : Nat) : Nat :=
  let x := hi % 2 ^ 32 * 2 ^ 32 + lo % 2 ^ 32
  let k := min c 32
  if right then x / 2 ^ k % 2 ^ 32 else x * 2 ^ k / 2 ^ 32 % 2 ^ 32

/-- BFX (R108): a bit field, zero- or sign-extended. -/
def bfxV (t : Ty) (a ctl : Nat) : Nat :=
  let e := Ty.elem t
  let pos := ctl % 256
  let len := min (ctl / 256 % 256) 32
  if len = 0 then 0
  else
    let ext : Int := if e.signed then signedOf 32 a else (a % 2 ^ 32 : Nat)
    let f := wrapNat len (ext / (2 ^ pos : Int))
    if e.signed then wrapNat 32 (signedOf len f) else f

/-- BFI (R108): a bit field inserted into a base. -/
def bfiV (base ctl ins : Nat) : Nat :=
  let pos := ctl % 256
  let len := min (ctl / 256 % 256) 32
  (List.range 32).foldl (fun acc j =>
    let bit := if pos ≤ j ∧ j < pos + len then ins.testBit (j - pos) else base.testBit j
    if bit then acc + 2 ^ j else acc) 0

/-- The number of set bits among the lowest w. -/
def popNat (w v : Nat) : Nat := (List.range w).foldl (fun acc j => acc + (v.testBit j).toNat) 0

/-- The position of the lowest set bit among the lowest w, or w. -/
def ctzNat (w v : Nat) : Nat := (List.range w).findIdx fun j => v.testBit j

/-- The number of zero bits above the highest set bit of w bits. -/
def clzNat (w v : Nat) : Nat := (List.range w).findIdx fun j => v.testBit (w - 1 - j)

/-- The w bits of v reversed. -/
def revNat (w v : Nat) : Nat :=
  (List.range w).foldl (fun acc j => if v.testBit j then acc + 2 ^ (w - 1 - j) else acc) 0

/-- POPC, CLZ, CTZ, BREV (R109). -/
def popcV (t : Ty) (a : Nat) : Nat := popNat (Ty.elem t).width a
def clzV (t : Ty) (a : Nat) : Nat := clzNat (Ty.elem t).width a
def ctzV (t : Ty) (a : Nat) : Nat := ctzNat (Ty.elem t).width a
def brevV (t : Ty) (a : Nat) : Nat := revNat (Ty.elem t).width a

/-- BLV (R110): coordinates interleaved. -/
def blvV (three : Bool) (x y z : Nat) : Nat :=
  if three then
    (List.range 10).foldl (fun acc i =>
      acc + (x.testBit i).toNat * 2 ^ (3 * i) + (y.testBit i).toNat * 2 ^ (3 * i + 1) +
        (z.testBit i).toNat * 2 ^ (3 * i + 2)) 0
  else
    (List.range 16).foldl (fun acc i =>
      acc + (x.testBit i).toNat * 2 ^ (2 * i) + (y.testBit i).toNat * 2 ^ (2 * i + 1)) 0

/-- BDLV (R110): one phase of an interleaved code. -/
def bdlvV (three : Bool) (a k : Nat) : Nat :=
  let t := if three then 3 else 2
  if t ≤ k then 0
  else (List.range 16).foldl (fun acc i =>
    if t * i + k ≤ 31 ∧ a.testBit (t * i + k) then acc + 2 ^ i else acc) 0

/-- LEA (R111): a 64-bit base plus a shifted n32 index. -/
def leaV (k a b : Nat) : Nat := (a + b % 2 ^ 32 * 2 ^ k) % 2 ^ 64

/-- A source byte under the byte mode of a PRMT control (R112): copied, zero, all ones, or filled with its top bit. -/
def byteMode (m v : Nat) : Nat := if m = 0 then v else if m = 1 then 0 else if m = 2 then 255 else if 128 ≤ v then 255 else 0

/-- Byte k of the pool of two sources (R112). -/
def poolByte (a b k : Nat) : Nat := if k < 4 then a / 2 ^ (8 * k) % 256 else b / 2 ^ (8 * (k - 4)) % 256

/-- PRMT (R112): a byte permutation under a control word. -/
def prmtV (a b sel : Nat) : Nat :=
  (List.range 4).foldl (fun acc i =>
    let c := sel / 2 ^ (8 * i) % 256
    acc + byteMode (c / 8 % 4) (poolByte a b (c % 8)) * 2 ^ (8 * i)) 0

/-- The source element of CVTI's subform (R114, R86). -/
def cvtiElem (sub : Nat) : Elem :=
  match sub with
  | 0 => ⟨1, 8, false⟩
  | 1 => ⟨1, 8, true⟩
  | 2 => ⟨1, 16, false⟩
  | 3 => ⟨1, 16, true⟩
  | 4 => ⟨1, 32, false⟩
  | 5 => ⟨1, 32, true⟩
  | 6 => ⟨1, 64, false⟩
  | _ => ⟨1, 64, true⟩

/-- CVTI (R114). -/
def cvtiV (sub : Nat) (t : Ty) (dmod a : Nat) : Nat := resElem (Ty.elem t) dmod (elemOf (cvtiElem sub) a 0)

/-- IDIV (R115): quotient and remainder, truncating toward zero. -/
def idivV (t : Ty) (dmod a b : Nat) : Nat × Nat :=
  let e := Ty.elem t
  let x := elemOf e a 0
  let y := elemOf e b 0
  if y = 0 then (resElem e dmod (if e.signed then -1 else 2 ^ e.width - 1), wrapNat e.width x)
  else
    let q := Int.tdiv x y
    (resElem e dmod q, wrapNat e.width (x - q * y))

/-- The literal as a source value of a type (R58). -/
def litValue (t : Ty) (v : W32) : Nat :=
  match t with
  | .s64 => wrapNat 64 (signedOf 32 v.toNat)
  | .f16 | .bf16 => v.toNat % 2 ^ 16
  | _ => v.toNat

/-- The bits of inline constant k in a type (R67): in a packed type every element. -/
def constValue (t : Ty) (k : Nat) : Nat :=
  let fpOf (m : Nat) (tbl : List Nat) : Nat := (tbl.getD k 0) * m
  let f32 := [0, 0x3F800000, 0xBF800000, 0x3F000000, 0x3F800000, 0x40000000, 0x3E800000, 0x40800000]
  let f16 := [0, 0x3C00, 0xBC00, 0x3800, 0x3C00, 0x4000, 0x3400, 0x4400]
  let bf16 := [0, 0x3F80, 0xBF80, 0x3F00, 0x3F80, 0x4000, 0x3E80, 0x4080]
  match t with
  | .f32 => fpOf 1 f32
  | .f16 => fpOf 1 f16
  | .bf16 => fpOf 1 bf16
  | .f16x2 => fpOf 0x10001 f16
  | .bf16x2 => fpOf 0x10001 bf16
  | _ =>
    let e := Ty.elem t
    let x : Int := if k = 0 then 0 else if k = 1 then 1 else -1
    packElems e (List.replicate e.count (wrapNat e.width x))

/-- The bits a source type reads of a register value (R28, R98): 16-bit types ignore bits [31:16]. -/
def srcWidth (t : Ty) : Nat :=
  match t with
  | .n64 | .s64 => 64
  | .f16 | .bf16 => 16
  | .b1 => 1
  | _ => 32

/-- A source modifier on a register value: MOD 01 of an integer source inverts it (R98), MOD of a floating-point
source acts on the sign of each element (R33). -/
def applyMod (k : Kind) (t : Ty) (m : Nat) (v : Nat) : Nat :=
  match k with
  | .int => if m = 1 then notBits (if srcWidth t = 64 then 64 else 32) v else v
  | .fp =>
    let signs := match t with
      | .f16x2 | .bf16x2 => 0x80008000
      | .f16 | .bf16 => 0x8000
      | _ => 0x80000000
    match m with
    | 0 => v
    | 1 => v ^^^ signs
    | 2 => v &&& notBits 32 signs
    | _ => v ||| signs

end Sys2Proof.Machine
end

