-- ==== Sys2Proof/Machine/Flags.lean ====
section
/-! DEFINITION. Floating point: the encodings (R31, R32), the profile (R37), rounding (R35, R36), NaN results (R40),
minimum and maximum (R41), and the sticky flags each operation raises (R42). -/

namespace Sys2Proof.Machine

/-- A binary floating-point format: exponent bits and fraction bits (R31). -/
structure Fmt where
  eb : Nat
  fb : Nat
  deriving DecidableEq, Repr

def fmt32 : Fmt := ⟨8, 23⟩
def fmt16 : Fmt := ⟨5, 10⟩
def fmtB16 : Fmt := ⟨8, 7⟩

/-- The format of a floating-point lane type's elements (R28). -/
def Ty.fmt : Ty → Fmt
  | .f16 | .f16x2 => fmt16
  | .bf16 | .bf16x2 => fmtB16
  | _ => fmt32

def Fmt.bits (f : Fmt) : Nat := 1 + f.eb + f.fb
def Fmt.bias (f : Fmt) : Int := 2 ^ (f.eb - 1) - 1
def Fmt.emax (f : Fmt) : Int := f.bias
def Fmt.emin (f : Fmt) : Int := 1 - f.bias
/-- The exponent of the subnormal grid. -/
def Fmt.qmin (f : Fmt) : Int := f.emin - f.fb
def Fmt.signBit (f : Fmt) : Nat := 2 ^ (f.eb + f.fb)
def Fmt.infBits (f : Fmt) : Nat := (2 ^ f.eb - 1) * 2 ^ f.fb
/-- The canonical NaN (R31). -/
def Fmt.canonNaN (f : Fmt) : Nat := f.infBits + 2 ^ (f.fb - 1)
def Fmt.maxBits (f : Fmt) : Nat := f.infBits - 1
def Fmt.signed (f : Fmt) (neg : Bool) (mag : Nat) : Nat := if neg then f.signBit + mag else mag

/-- A value read from an encoding: a NaN with its fraction as quieted and the width of that fraction; an infinity; or
(-1)^neg * m * 2^e, zeros with m = 0. -/
inductive FVal where
  | nan (neg : Bool) (fb frac : Nat)
  | inf (neg : Bool)
  | fin (neg : Bool) (m : Nat) (e : Int)
  deriving DecidableEq, Repr

/-- The five sticky flags (R42). -/
structure FFlags where
  nv : Bool
  dz : Bool
  of : Bool
  uf : Bool
  nx : Bool
  deriving DecidableEq, Repr

def FFlags.none : FFlags := ⟨false, false, false, false, false⟩
def FFlags.invalid : FFlags := ⟨true, false, false, false, false⟩
def FFlags.divZero : FFlags := ⟨false, true, false, false, false⟩
def FFlags.inexact : FFlags := ⟨false, false, false, false, true⟩
def FFlags.overflow : FFlags := ⟨false, false, true, false, true⟩
def FFlags.underflow : FFlags := ⟨false, false, false, true, true⟩
def FFlags.or (a b : FFlags) : FFlags := ⟨a.nv || b.nv, a.dz || b.dz, a.of || b.of, a.uf || b.uf, a.nx || b.nx⟩

/-- The four rounding modes (R35). -/
inductive RMode where
  | rne | rz | rd | ru
  deriving DecidableEq, Repr

/-- The arithmetic profile (R37). -/
structure Profile where
  num : Bool
  rm : RMode
  propagate : Bool
  flush : Bool
  deriving DecidableEq, Repr

/-- The profile of its byte (R37). -/
def Profile.ofByte (b : Nat) : Profile :=
  ⟨b.testBit 4, (match b / 4 % 4 with | 0 => .rne | 1 => .rz | 2 => .rd | _ => .ru), b.testBit 1, b.testBit 0⟩

/-- The mode that a rounding selector names under a profile (R35). -/
def Profile.mode (p : Profile) (rs : Nat) : RMode :=
  match rs with
  | 4 => .rne
  | 5 => .rz
  | 6 => .rd
  | 7 => .ru
  | _ => p.rm

/-- The value of an encoding of a format, without any flush or flag (R31). -/
def decodeF (f : Fmt) (v : Nat) : FVal :=
  let v := v % 2 ^ f.bits
  let neg := decide (f.signBit ≤ v)
  let ex := v / 2 ^ f.fb % 2 ^ f.eb
  let fr := v % 2 ^ f.fb
  if ex = 2 ^ f.eb - 1 then
    if fr = 0 then .inf neg else .nan neg f.fb (if fr < 2 ^ (f.fb - 1) then fr + 2 ^ (f.fb - 1) else fr)
  else if ex = 0 then .fin neg fr f.qmin
  else .fin neg (fr + 2 ^ f.fb) (f.qmin + ex - 1)

/-- A signalling NaN: the top fraction bit is 0 (R32). -/
def isSignalling (f : Fmt) (v : Nat) : Bool :=
  let fr := v % 2 ^ f.fb
  v / 2 ^ f.fb % 2 ^ f.eb == 2 ^ f.eb - 1 && fr != 0 && decide (fr < 2 ^ (f.fb - 1))

/-- A subnormal encoding. -/
def isSubnormal (f : Fmt) (v : Nat) : Bool := v / 2 ^ f.fb % 2 ^ f.eb == 0 && v % 2 ^ f.fb != 0

/-- Reading a source element after its modifier: flushed under DN, a signalling NaN raising nv (R117, R39). -/
def readF (p : Profile) (f : Fmt) (v : Nat) : FVal × FFlags :=
  if p.flush && isSubnormal f v then (.fin (v.testBit (f.eb + f.fb)) 0 f.qmin, .none)
  else (decodeF f v, if isSignalling f v then .invalid else .none)

def FVal.isNaN : FVal → Bool
  | .nan _ _ _ => true
  | _ => false
def FVal.isInf : FVal → Bool
  | .inf _ => true
  | _ => false
def FVal.isZero : FVal → Bool
  | .fin _ m _ => m == 0
  | _ => false
def FVal.neg : FVal → Bool
  | .nan s _ _ | .inf s | .fin s _ _ => s

/-- The number of significant bits of a natural number. -/
def bitLen (m : Nat) : Nat := if m = 0 then 0 else Nat.log2 m + 1

/-- Whether a magnitude between k and k+1 grid steps rounds up: `odd`: k is odd; `above`, `tie`: the remainder lies above or
at half a step; `ix`: it is not zero (R35). -/
def roundsUp (mode : RMode) (neg odd above tie ix : Bool) : Bool :=
  match mode with
  | .rne => above || (tie && odd)
  | .rz => false
  | .rd => ix && neg
  | .ru => ix && !neg

/-- The magnitude m * 2^e (more by less than one unit of m where sticky) rounded to a multiple of 2^q: the multiple, and
whether it is inexact. With sticky, q must lie above e. -/
def roundGrid (mode : RMode) (neg : Bool) (m : Nat) (e : Int) (sticky : Bool) (q : Int) : Nat × Bool :=
  if q ≤ e then (m * 2 ^ (e - q).toNat, sticky)
  else
    let s := (q - e).toNat
    let k := m / 2 ^ s
    let r := m % 2 ^ s
    let half := 2 ^ (s - 1)
    let ix := r != 0 || sticky
    let up := roundsUp mode neg (k % 2 == 1) (decide (half < r) || (r == half && sticky)) (r == half && !sticky) ix
    (if up then k + 1 else k, ix)

/-- The encoding of the magnitude k * 2^q in a format that holds it (k below 2^(fb+1)). -/
def encodeMag (f : Fmt) (k : Nat) (q : Int) : Nat :=
  if k = 0 then 0
  else
    -- brought to exactly fb + 1 bits, or to the subnormal grid
    let lift := min (f.fb + 1 - bitLen k : Nat) (q - f.qmin).toNat
    let k := k * 2 ^ lift
    let q := q - lift
    if k < 2 ^ f.fb then k else (q - f.qmin).toNat * 2 ^ f.fb + k

/-- round of R36 for a nonzero magnitude m * 2^e, with sticky as in roundGrid: the encoding and its flags. A value that the
format holds exactly is the result in every profile (step 1); a flush replaces what step 4 rounded (step 5). -/
def roundF (f : Fmt) (mode : RMode) (flush : Bool) (neg : Bool) (m : Nat) (e : Int) (sticky : Bool) : Nat × FFlags :=
  if m = 0 && !sticky then (f.signed neg 0, .none)
  else
    let q := e + bitLen m - (f.fb + 1 : Nat)
    let (k, ix) := roundGrid mode neg m e sticky q
    let top := q + bitLen k - 1
    if f.emax < top then
      let toMax := match mode with
        | .rne => false
        | .rz => true
        | .rd => !neg
        | .ru => neg
      (f.signed neg (if toMax then f.maxBits else f.infBits), .overflow)
    else if top < f.emin then
      let (k', ix') := roundGrid mode neg m e sticky f.qmin
      if !ix' then (f.signed neg (encodeMag f k' f.qmin), .none)
      else (f.signed neg (if flush then 0 else encodeMag f k' f.qmin), .underflow)
    else
      let (k, q) := if bitLen k > f.fb + 1 then (k / 2, q + 1) else (k, q)
      (f.signed neg (encodeMag f k q), if ix then .inexact else .none)

/-- A NaN in a format, its fraction narrowed or widened (R40). -/
def nanBits (f : Fmt) (neg : Bool) (fb frac : Nat) : Nat :=
  let fr := if f.fb ≤ fb then frac / 2 ^ (fb - f.fb) else frac * 2 ^ (f.fb - fb)
  f.signed neg (f.infBits + fr)

/-- A NaN result from its sources in order (R40). -/
def nanResult (p : Profile) (f : Fmt) (srcs : List FVal) : Nat :=
  if p.propagate then
    match srcs.find? FVal.isNaN with
    | some (.nan s fb fr) => nanBits f s fb fr
    | _ => f.canonNaN
  else f.canonNaN

/-- The exact sum of finite terms: a signed multiple of the least exponent. -/
def exactSum (l : List FVal) : Int × Int :=
  let e := l.foldl (fun acc x => match x with | .fin _ m e => if m = 0 then acc else min acc e | _ => acc) 10000
  (l.foldl (fun acc x => match x with
    | .fin s m ex => if m = 0 then acc else
        let v : Int := (m * 2 ^ (ex - e).toNat : Nat)
        if s then acc - v else acc + v
    | _ => acc) 0, e)

/-- The sign of an exact zero sum: minus in RD and where every term is a negative zero (R36). -/
def zeroSumNeg (mode : RMode) (l : List FVal) : Bool :=
  (l.all fun x => match x with | .fin s m _ => s && m == 0 | _ => false) || mode == .rd

/-- The exact product of two values; none where it is invalid. A NaN is the caller's. -/
def mulF (x y : FVal) : Option FVal :=
  match x, y with
  | .inf a, .inf b => some (.inf (a != b))
  | .inf a, .fin b m _ => if m = 0 then none else some (.inf (a != b))
  | .fin a m _, .inf b => if m = 0 then none else some (.inf (a != b))
  | .fin a m e, .fin b n e' => some (.fin (a != b) (m * n) (e + e'))
  | .nan s fb fr, _ => some (.nan s fb fr)
  | _, .nan s fb fr => some (.nan s fb fr)

/-- Whether the sum of terms is invalid: a product of 0 and an infinity (no term), or opposite infinities among them (R42). -/
def invalidSum (terms : List (Option FVal)) : Bool :=
  terms.any (fun t => t == none) || (terms.any (fun t => t == some (.inf true)) && terms.any fun t => t == some (.inf false))

/-- The sum of terms rounded once: `srcs` are the sources in order for a NaN result, `fl` the flags they raised, `terms` the
terms (none: an invalid product). An invalid sum raises nv beside a NaN source too (R121, R122). -/
def sumF (p : Profile) (f : Fmt) (mode : RMode) (srcs : List FVal) (fl : FFlags) (terms : List (Option FVal)) :
    Nat × FFlags :=
  let ts := terms.filterMap id
  let fl := if invalidSum terms then fl.or .invalid else fl
  if srcs.any FVal.isNaN then (nanResult p f srcs, fl)
  else if invalidSum terms then (f.canonNaN, fl)
  else match ts.filter FVal.isInf with
  | x :: _ => (f.signed (FVal.neg x) f.infBits, fl)
  | [] =>
    let (v, e) := exactSum ts
    if v = 0 then (f.signed (zeroSumNeg mode ts) 0, fl)
    else
      let (b, fl') := roundF f mode p.flush (decide (v < 0)) v.natAbs e false
      (b, fl.or fl')

/-- A destination modifier on a floating-point element, after rounding (R34). -/
def clampF (f : Fmt) (dmod : Nat) (v : Nat) : Nat :=
  match dmod with
  | 1 =>
    match decodeF f v with
    | .nan _ _ _ => 0
    | _ => if v / f.signBit % 2 = 1 then 0
      else if f.bias.toNat * 2 ^ f.fb < v then f.bias.toNat * 2 ^ f.fb else v
  | 2 =>
    match decodeF f v with
    | .inf s => f.signed s f.maxBits
    | _ => v
  | _ => v

/-- FADD, FSUB (R121). -/
def faddE (p : Profile) (f : Fmt) (mode : RMode) (a b : Nat) : Nat × FFlags :=
  let (x, fx) := readF p f a
  let (y, fy) := readF p f b
  sumF p f mode [x, y] (fx.or fy) [some x, some y]

/-- The sign of a value inverted. -/
def FVal.negate : FVal → FVal
  | .nan s fb fr => .nan s fb fr
  | .inf s => .inf (!s)
  | .fin s m e => .fin (!s) m e

def fsubE (p : Profile) (f : Fmt) (mode : RMode) (a b : Nat) : Nat × FFlags :=
  let (x, fx) := readF p f a
  let (y, fy) := readF p f b
  sumF p f mode [x, y] (fx.or fy) [some x, some (FVal.negate y)]

/-- FMUL (R121). -/
def fmulE (p : Profile) (f : Fmt) (mode : RMode) (a b : Nat) : Nat × FFlags :=
  let (x, fx) := readF p f a
  let (y, fy) := readF p f b
  let fl := fx.or fy
  if FVal.isNaN x || FVal.isNaN y then (nanResult p f [x, y], fl)
  else match mulF x y with
  | none => (f.canonNaN, fl.or .invalid)
  | some (.fin s m e) =>
    let (r, fl') := roundF f mode p.flush s m e false
    (r, fl.or fl')
  | some v => (f.signed (FVal.neg v) f.infBits, fl)

/-- FFMA (R121): one rounding of the exact value. -/
def ffmaE (p : Profile) (f : Fmt) (mode : RMode) (a b c : Nat) : Nat × FFlags :=
  let (x, fx) := readF p f a
  let (y, fy) := readF p f b
  let (z, fz) := readF p f c
  sumF p f mode [x, y, z] ((fx.or fy).or fz) [mulF x y, some z]

/-- FDOT2 (R122): two products and a binary32 term, rounded once. Of two NaN elements of one source, element 0 counts first
for R40, which orders the sources alone (the model's choice, log entry 118). -/
def fdot2E (p : Profile) (f : Fmt) (mode : RMode) (a b c : Nat) : Nat × FFlags :=
  let w := 2 ^ f.bits
  let (x0, f0) := readF p f (a % w)
  let (x1, f1) := readF p f (a / w)
  let (y0, f2) := readF p f (b % w)
  let (y1, f3) := readF p f (b / w)
  let (z, f4) := readF p fmt32 c
  sumF p fmt32 mode [x0, x1, y0, y1, z] ((((f0.or f1).or f2).or f3).or f4) [mulF x0 y0, mulF x1 y1, some z]

/-- FSCALE (R123); a count beyond 1000 in magnitude over- or underflows like 1000. -/
def fscaleE (p : Profile) (f : Fmt) (mode : RMode) (a : Nat) (k : Int) : Nat × FFlags :=
  let (x, fl) := readF p f a
  match x with
  | .nan _ _ _ => (nanResult p f [x], fl)
  | .inf s => (f.signed s f.infBits, fl)
  | .fin s m e =>
    if m = 0 then (f.signed s 0, fl)
    else
      let (r, fl') := roundF f mode p.flush s m (e + clampInt (-1000) 1000 k) false
      (r, fl.or fl')

/-- x < y for values that are not NaN. -/
def ltF (x y : FVal) : Bool :=
  match x, y with
  | .inf a, .inf b => a && !b
  | .inf a, _ => a
  | _, .inf b => !b
  | _, _ => decide ((exactSum [x, FVal.negate y]).1 < 0)

/-- x = y for values that are not NaN; the zeros are equal. -/
def eqF (x y : FVal) : Bool := !ltF x y && !ltF y x

/-- The bits of a value read from a format, as it was read. -/
def rebits (f : Fmt) (x : FVal) : Nat :=
  match x with
  | .nan s fb fr => nanBits f s fb fr
  | .inf s => f.signed s f.infBits
  | .fin s m e => f.signed s (encodeMag f m e)

/-- The lesser or greater of two numbers, -0 below +0 (R41, R124). -/
def pickF (isMax : Bool) (x y : FVal) : FVal :=
  if eqF x y then (if isMax then (if FVal.neg x then y else x) else (if FVal.neg x then x else y))
  else if ltF x y != isMax then x else y

/-- FMIN, FMAX (R41, R124). -/
def fminmaxE (p : Profile) (f : Fmt) (isMax num : Bool) (a b : Nat) : Nat × FFlags :=
  let (x, fx) := readF p f a
  let (y, fy) := readF p f b
  let fl := fx.or fy
  match FVal.isNaN x, FVal.isNaN y with
  | false, false => (rebits f (pickF isMax x y), fl)
  | true, false => (if num then rebits f y else nanResult p f [x, y], fl)
  | false, true => (if num then rebits f x else nanResult p f [x, y], fl)
  | true, true => (nanResult p f [x, y], fl)

/-- FCMP (R125). -/
def fcmpE (p : Profile) (f : Fmt) (cc : Nat) (sig : Bool) (a b : Nat) : Bool × FFlags :=
  let (x, fx) := readF p f a
  let (y, fy) := readF p f b
  let fl := fx.or fy
  if FVal.isNaN x || FVal.isNaN y then
    (cc == 1 || cc == 7, if sig then fl.or .invalid else fl)
  else
    (match cc with
     | 0 => eqF x y
     | 1 => !eqF x y
     | 2 => ltF x y
     | 3 => ltF x y || eqF x y
     | 4 => ltF y x
     | 5 => ltF y x || eqF x y
     | 6 => true
     | _ => false, fl)

/-- FCLASS (R126), from the encoding. -/
def fclassE (f : Fmt) (v : Nat) : Nat :=
  let s := v.testBit (f.eb + f.fb)
  let ex := v / 2 ^ f.fb % 2 ^ f.eb
  let fr := v % 2 ^ f.fb
  if ex = 2 ^ f.eb - 1 then
    if fr = 0 then (if s then 1 else 2 ^ 7)
    else if fr < 2 ^ (f.fb - 1) then 2 ^ 8 else 2 ^ 9
  else if ex = 0 then
    if fr = 0 then (if s then 2 ^ 3 else 2 ^ 4) else (if s then 2 ^ 2 else 2 ^ 5)
  else if s then 2 else 2 ^ 6

/-- FRND (R127). -/
def frndE (p : Profile) (f : Fmt) (mode : RMode) (a : Nat) : Nat × FFlags :=
  let (x, fl) := readF p f a
  match x with
  | .nan _ _ _ => (nanResult p f [x], fl)
  | .inf s => (f.signed s f.infBits, fl)
  | .fin s m e =>
    if 0 ≤ e then (rebits f x, fl)
    else
      let (k, _) := roundGrid mode s m e false 0
      ((roundF f .rz false s k 0 false).1, fl)

/-- A value of one format rounded to another (R50, R128). -/
def convF (p : Profile) (dst : Fmt) (mode : RMode) (x : FVal) : Nat × FFlags :=
  match x with
  | .nan _ _ _ => (nanResult p dst [x], .none)
  | .inf s => (dst.signed s dst.infBits, .none)
  | .fin s m e => if m = 0 then (dst.signed s 0, .none) else roundF dst mode p.flush s m e false

/-- FCVT (R128): one element. -/
def fcvtE (p : Profile) (src dst : Fmt) (mode : RMode) (a : Nat) : Nat × FFlags :=
  let (x, fl) := readF p src a
  let (r, fl') := convF p dst mode x
  (r, fl.or fl')

/-- F2I (R129). -/
def f2iE (p : Profile) (src : Fmt) (e : Elem) (mode : RMode) (a : Nat) : Nat × FFlags :=
  let (x, _) := readF p src a
  match x with
  | .nan _ _ _ => (0, .invalid)
  | .inf s => (wrapNat e.width (if s then elemLo e else elemHi e), .invalid)
  | .fin s m ex =>
    let (k, ix) := roundGrid mode s m ex false 0
    let v : Int := if s then -(k : Int) else k
    if elemHi e < v then (wrapNat e.width (elemHi e), .invalid)
    else if v < elemLo e then (wrapNat e.width (elemLo e), .invalid)
    else (wrapNat e.width v, if ix then .inexact else .none)

/-- I2F (R130). -/
def i2fE (p : Profile) (dst : Fmt) (mode : RMode) (v : Int) : Nat × FFlags :=
  roundF dst mode p.flush (decide (v < 0)) v.natAbs 0 false

/-- The quotient of two nonzero magnitudes with enough bits and a sticky bit. -/
def quotF (m : Nat) (e : Int) (n : Nat) (e' : Int) : Nat × Int × Bool :=
  let s := 70 + bitLen n
  (m * 2 ^ s / n, e - e' - s, m * 2 ^ s % n != 0)

/-- FDIV (R131). -/
def fdivE (p : Profile) (f : Fmt) (mode : RMode) (a b : Nat) : Nat × FFlags :=
  let (x, fx) := readF p f a
  let (y, fy) := readF p f b
  let fl := fx.or fy
  let s := FVal.neg x != FVal.neg y
  match x, y with
  | .nan _ _ _, _ | _, .nan _ _ _ => (nanResult p f [x, y], fl)
  | .inf _, .inf _ => (f.canonNaN, fl.or .invalid)
  | .inf _, _ => (f.signed s f.infBits, fl)
  | _, .inf _ => (f.signed s 0, fl)
  | .fin _ m e, .fin _ n e' =>
    if n = 0 then
      if m = 0 then (f.canonNaN, fl.or .invalid) else (f.signed s f.infBits, fl.or .divZero)
    else if m = 0 then (f.signed s 0, fl)
    else
      let (q, ex, st) := quotF m e n e'
      let (r, fl') := roundF f mode p.flush s q ex st
      (r, fl.or fl')

/-- The integer square root, bit by bit. -/
def isqrt (n : Nat) : Nat :=
  (List.range (bitLen n / 2 + 1)).foldr (fun k r =>
    let t := r + 2 ^ k
    if t * t ≤ n then t else r) 0

/-- FSQRT (R131). -/
def fsqrtE (p : Profile) (f : Fmt) (mode : RMode) (a : Nat) : Nat × FFlags :=
  let (x, fl) := readF p f a
  match x with
  | .nan _ _ _ => (nanResult p f [x], fl)
  | .inf s => if s then (f.canonNaN, fl.or .invalid) else (f.infBits, fl)
  | .fin s m e =>
    if m = 0 then (f.signed s 0, fl)
    else if s then (f.canonNaN, fl.or .invalid)
    else
      let sh : Nat := if e % 2 = 0 then 80 else 81
      let n := m * 2 ^ sh
      let r := isqrt n
      let (b, fl') := roundF f mode p.flush false r ((e - sh) / 2) (r * r != n)
      (b, fl.or fl')

end Sys2Proof.Machine
end

