-- ==== Sys2Proof/Machine/Elementary.lean ====
section
/-! DEFINITION. The special functions (R132, R133): reciprocals exactly, and 2^x, log2 x, sin(pi x), cos(pi x) as a
truncated 400-bit fixed-point value that is then rounded toward zero (log entry 15). -/

namespace Sys2Proof.Machine

/-- roundz of R132 for a nonzero magnitude. -/
def roundzF (f : Fmt) (flush neg : Bool) (m : Nat) (e : Int) (sticky : Bool) : Nat × FFlags :=
  if f.emax + 1 ≤ e + bitLen m - 1 then (f.signed neg f.infBits, .overflow)
  else roundF f .rz flush neg m e sticky

/-- FRCP. -/
def frcpE (p : Profile) (f : Fmt) (a : Nat) : Nat × FFlags :=
  let (x, fl) := readF p f a
  match x with
  | .nan _ _ _ => (nanResult p f [x], fl)
  | .inf s => (f.signed s 0, fl)
  | .fin s m e =>
    if m = 0 then (f.signed s f.infBits, fl.or .divZero)
    else
      let (q, ex, st) := quotF 1 0 m e
      let (r, fl') := roundzF f p.flush s q ex st
      (r, fl.or fl')

/-- FRSQ: 1/sqrt(m * 2^e) as isqrt(2^(2t-e) / m) * 2^-t. -/
def frsqE (p : Profile) (f : Fmt) (a : Nat) : Nat × FFlags :=
  let (x, fl) := readF p f a
  match x with
  | .nan _ _ _ => (nanResult p f [x], fl)
  | .inf s => if s then (f.canonNaN, fl.or .invalid) else (0, fl)
  | .fin s m e =>
    if m = 0 then (f.signed s f.infBits, fl.or .divZero)
    else if s then (f.canonNaN, fl.or .invalid)
    else
      let t : Nat := (e.natAbs + bitLen m + 80)
      let num := 2 ^ (2 * (t : Int) - e).toNat
      let r := isqrt (num / m)
      let (b, fl') := roundzF f p.flush false r (-(t : Int)) (r * r * m != num)
      (b, fl.or fl')

/-- Fraction bits of the fixed-point values. -/
def fxP : Nat := 432

/-- The series sum of t(k) for k below n, each term made from the last: `next k t`. -/
def fxSeries (n : Nat) (t0 : Int) (next : Nat → Int → Int) (weight : Nat → Int → Int) : Int :=
  ((List.range n).foldl (fun (acc : Int × Int) k =>
    (acc.1 + weight k acc.2, next k acc.2)) (0, t0)).1

/-- atanh z for a fixed-point z: the sum of z^(2k+1)/(2k+1). -/
def fxAtanh (z : Int) : Int :=
  let z2 := z * z / 2 ^ fxP
  fxSeries 150 z (fun _ t => t * z2 / 2 ^ fxP) (fun k t => t / (2 * k + 1))

/-- ln 2 = 2 atanh(1/3). -/
def fxLn2 : Int := 2 * fxAtanh (2 ^ fxP / 3)

/-- arctan(1/n): the alternating series. -/
def fxAtanInv (n : Int) : Int :=
  fxSeries 320 (2 ^ fxP / n) (fun _ t => -(t / (n * n))) (fun k t => t / (2 * k + 1))

/-- pi by Machin's formula. -/
def fxPi : Int := 4 * (4 * fxAtanInv 5 - fxAtanInv 239)

/-- e^y for a fixed-point y in [0, 1). -/
def fxExp (y : Int) : Int :=
  fxSeries 110 (2 ^ fxP) (fun k t => t * y / 2 ^ fxP / (k + 1)) (fun _ t => t)

/-- sin y for a fixed-point y in [0, 2). -/
def fxSin (y : Int) : Int :=
  let y2 := y * y / 2 ^ fxP
  fxSeries 70 y (fun k t => -(t * y2 / 2 ^ fxP / ((2 * k + 2) * (2 * k + 3)))) (fun _ t => t)

/-- A fixed-point value whose last 32 bits are guard bits: the magnitude truncated to 400 fraction bits, with sticky. -/
def fxRoundz (f : Fmt) (flush neg : Bool) (v : Int) (shift : Int) : Nat × FFlags :=
  roundzF f flush neg (v.toNat / 2 ^ 32) (shift - (fxP - 32 : Nat)) true

/-- m * 2^e as an integer part and a fixed-point fraction, for e at least -fxP. -/
def fxSplit (m : Nat) (e : Int) : Int × Int :=
  if 0 ≤ e then ((m * 2 ^ e.toNat : Nat), 0)
  else
    let k := (-e).toNat
    ((m / 2 ^ k : Nat), (((m % 2 ^ k) * 2 ^ fxP / 2 ^ k : Nat) : Int))

/-- EXP2. -/
def exp2E (p : Profile) (f : Fmt) (a : Nat) : Nat × FFlags :=
  let (x, fl) := readF p f a
  match x with
  | .nan _ _ _ => (nanResult p f [x], fl)
  | .inf s => (if s then 0 else f.infBits, fl)
  | .fin s m e =>
    if m = 0 then (f.bias.toNat * 2 ^ f.fb, fl)
    else if 12 < e + bitLen m then
      -- a magnitude of 2048 or more over- or underflows every format
      let (r, fl') := roundzF f p.flush false 1 (if s then -4096 else 4096) false
      (r, fl.or fl')
    else
      let (n, fr) := fxSplit m e
      if fr = 0 ∧ (-(e) ≤ 0 ∨ m % 2 ^ (-e).toNat = 0) then
        let (r, fl') := roundzF f p.flush false 1 (if s then -n else n) false
        (r, fl.or fl')
      else
        let (n, fr) := if s then (-n - 1, 2 ^ fxP - fr) else (n, fr)
        let y := fr * fxLn2 / 2 ^ fxP
        let (r, fl') := fxRoundz f p.flush false (fxExp y) n
        (r, fl.or fl')

/-- LOG2. -/
def log2E (p : Profile) (f : Fmt) (a : Nat) : Nat × FFlags :=
  let (x, fl) := readF p f a
  match x with
  | .nan _ _ _ => (nanResult p f [x], fl)
  | .inf s => if s then (f.canonNaN, fl.or .invalid) else (f.infBits, fl)
  | .fin s m e =>
    if m = 0 then (f.signed true f.infBits, fl.or .divZero)
    else if s then (f.canonNaN, fl.or .invalid)
    else
      let l := bitLen m - 1
      let n : Int := e + l
      if m = 2 ^ l then
        let (r, fl') := roundzF f p.flush (decide (n < 0)) n.natAbs 0 false
        (if n = 0 then (0, fl) else (r, fl.or fl'))
      else
        -- log2 (m / 2^l) = 2 atanh ((m - 2^l) / (m + 2^l)) / ln 2
        let z : Int := (((m - 2 ^ l) * 2 ^ fxP / (m + 2 ^ l) : Nat) : Int)
        let g := 2 * fxAtanh z * 2 ^ fxP / fxLn2
        let v := n * 2 ^ fxP + g
        let (r, fl') := fxRoundz f p.flush (decide (v < 0)) v.natAbs 0
        (r, fl.or fl')

/-- sin(pi t) for t = n + fr with n a natural number and fr in [0, 1) fixed-point, not an exact multiple of 1/2: the sign and
the magnitude. -/
def fxSinPi (n fr : Int) : Bool × Int :=
  let half : Int := 2 ^ (fxP - 1)
  let u := if fr ≤ half then fr else 2 ^ fxP - fr
  (n % 2 = 1, fxSin (u * fxPi / 2 ^ fxP))

/-- The exact part of SINPI and COSPI: whether 2x is an integer, and then 2x. -/
def twiceInt (m : Nat) (e : Int) : Option Nat :=
  if -1 ≤ e then some (m * 2 ^ (e + 1).toNat)
  else if m % 2 ^ (-(e + 1)).toNat = 0 then some (m / 2 ^ (-(e + 1)).toNat)
  else none

/-- SINPI. -/
def sinpiE (p : Profile) (f : Fmt) (a : Nat) : Nat × FFlags :=
  let (x, fl) := readF p f a
  let one := f.bias.toNat * 2 ^ f.fb
  match x with
  | .nan _ _ _ => (nanResult p f [x], fl)
  | .inf _ => (f.canonNaN, fl.or .invalid)
  | .fin s m e =>
    match twiceInt m e with
    | some k =>
      if k % 2 = 0 then (f.signed s 0, fl) else (f.signed (s != (k % 4 == 3)) one, fl)
    | none =>
      let (n, fr) := fxSplit m e
      let (neg, v) := fxSinPi n fr
      let (r, fl') := fxRoundz f p.flush (s != neg) v 0
      (r, fl.or fl')

/-- COSPI: cos(pi x) = sin(pi (|x| + 1/2)). -/
def cospiE (p : Profile) (f : Fmt) (a : Nat) : Nat × FFlags :=
  let (x, fl) := readF p f a
  let one := f.bias.toNat * 2 ^ f.fb
  match x with
  | .nan _ _ _ => (nanResult p f [x], fl)
  | .inf _ => (f.canonNaN, fl.or .invalid)
  | .fin _ m e =>
    match twiceInt m e with
    | some k =>
      if k % 2 = 1 then (0, fl) else (f.signed (k % 4 == 2) one, fl)
    | none =>
      let (n, fr) := fxSplit m e
      let half : Int := 2 ^ (fxP - 1)
      let (n, fr) := if fr < half then (n, fr + half) else (n + 1, fr - half)
      let (neg, v) := fxSinPi n fr
      let (r, fl') := fxRoundz f p.flush neg v 0
      (r, fl.or fl')

end Sys2Proof.Machine
end

