-- ==== Sys2Proof/Machine/Floats.lean ====
section
/-! DEFINITION. The value functions of the floating-point class on register values (R121-R136): packed elements
(R29), destination modifiers (R34), the running statistics (R135, R136), and block tags and quantisation (R47-R53). -/

namespace Sys2Proof.Machine

/-- The elements of a floating-point type within a register: their count and width (R28). -/
def fpCount (t : Ty) : Nat := match t with | .f16x2 | .bf16x2 => 2 | _ => 1

/-- Element i of a floating-point register value. -/
def fpElem (t : Ty) (v i : Nat) : Nat := v / 2 ^ ((Ty.fmt t).bits * i) % 2 ^ (Ty.fmt t).bits

/-- A function of element indices delivered to each element of a register, clamped by the destination modifier. -/
def fpMap (t : Ty) (dmod : Nat) (g : Nat → Nat × FFlags) : Nat × FFlags :=
  (List.range (fpCount t)).foldl (fun (acc : Nat × FFlags) i =>
    let (b, fl) := g i
    (acc.1 + clampF (Ty.fmt t) dmod b * 2 ^ ((Ty.fmt t).bits * i), acc.2.or fl)) (0, .none)

def faddV (p : Profile) (t : Ty) (rs dmod a b : Nat) : Nat × FFlags :=
  fpMap t dmod fun i => faddE p (Ty.fmt t) (p.mode rs) (fpElem t a i) (fpElem t b i)
def fsubV (p : Profile) (t : Ty) (rs dmod a b : Nat) : Nat × FFlags :=
  fpMap t dmod fun i => fsubE p (Ty.fmt t) (p.mode rs) (fpElem t a i) (fpElem t b i)
def fmulV (p : Profile) (t : Ty) (rs dmod a b : Nat) : Nat × FFlags :=
  fpMap t dmod fun i => fmulE p (Ty.fmt t) (p.mode rs) (fpElem t a i) (fpElem t b i)
def ffmaV (p : Profile) (t : Ty) (rs dmod a b c : Nat) : Nat × FFlags :=
  fpMap t dmod fun i => ffmaE p (Ty.fmt t) (p.mode rs) (fpElem t a i) (fpElem t b i) (fpElem t c i)
def fdivV (p : Profile) (t : Ty) (rs dmod a b : Nat) : Nat × FFlags :=
  fpMap t dmod fun i => fdivE p (Ty.fmt t) (p.mode rs) (fpElem t a i) (fpElem t b i)
def fsqrtV (p : Profile) (t : Ty) (rs dmod a : Nat) : Nat × FFlags :=
  fpMap t dmod fun i => fsqrtE p (Ty.fmt t) (p.mode rs) (fpElem t a i)
def frndV (p : Profile) (t : Ty) (rs dmod a : Nat) : Nat × FFlags :=
  fpMap t dmod fun i => frndE p (Ty.fmt t) (p.mode rs) (fpElem t a i)
/-- FMIN, FMAX with SUB 0 by MM, 1 IEEE, 2 number (R124). -/
def fminmaxV (p : Profile) (t : Ty) (isMax : Bool) (sub dmod a b : Nat) : Nat × FFlags :=
  let num := if sub = 0 then p.num else sub == 2
  fpMap t dmod fun i => fminmaxE p (Ty.fmt t) isMax num (fpElem t a i) (fpElem t b i)
/-- A special function (R132). -/
def fspecV (g : Profile → Fmt → Nat → Nat × FFlags) (p : Profile) (t : Ty) (dmod a : Nat) : Nat × FFlags :=
  fpMap t dmod fun i => g p (Ty.fmt t) (fpElem t a i)
/-- FCVT (R128): `sub` holds RS and the bfloat16-source bit. -/
def fcvtV (p : Profile) (t : Ty) (sub dmod a b : Nat) : Nat × FFlags :=
  match t with
  | .f32 => fpMap t dmod fun _ => fcvtE p (if 8 ≤ sub then fmtB16 else fmt16) fmt32 .rne a
  | _ => fpMap t dmod fun i => fcvtE p fmt32 (Ty.fmt t) (p.mode (sub % 8)) (if i = 0 then a else b)
/-- F2I (R129). -/
def f2iV (p : Profile) (t : Ty) (sub a : Nat) : Nat × FFlags :=
  f2iE p (if 8 ≤ sub then fmt16 else fmt32) (Ty.elem t) (p.mode (sub % 8)) a
/-- I2F (R130). -/
def i2fV (p : Profile) (t : Ty) (sub dmod a : Nat) : Nat × FFlags :=
  let f := if 8 ≤ sub then fmt16 else fmt32
  let (b, fl) := i2fE p f (p.mode (sub % 8)) (elemOf (Ty.elem t) a 0)
  (clampF f dmod b, fl)
/-- FDOT2 (R122). -/
def fdot2V (p : Profile) (t : Ty) (rs dmod a b c : Nat) : Nat × FFlags :=
  let (r, fl) := fdot2E p (Ty.fmt t) (p.mode rs) a b c
  (clampF fmt32 dmod r, fl)
/-- FSCALE (R123). -/
def fscaleV (p : Profile) (t : Ty) (rs dmod a k : Nat) : Nat × FFlags :=
  fpMap t dmod fun i => fscaleE p (Ty.fmt t) (p.mode rs) (fpElem t a i) (signedOf 32 k)

/-- An n32 count as an exact value (R135, R136). -/
def natF (n : Nat) : FVal := .fin false n 0

/-- A sum of exact terms rounded in RNE to binary32, its NaN by R40 from `srcs`. -/
def stepSum (p : Profile) (srcs : List FVal) (terms : List (Option FVal)) : FVal × FFlags :=
  let (b, fl) := sumF p fmt32 .rne srcs .none terms
  (decodeF fmt32 b, fl)

/-- The quotient of an exact value by a nonzero count, rounded once in RNE to binary32. -/
def stepQuot (p : Profile) (x : FVal) (n : Nat) : FVal × FFlags :=
  match x with
  | .nan _ _ _ => (decodeF fmt32 (nanResult p fmt32 [x]), .none)
  | .inf s => (.inf s, .none)
  | .fin s m e =>
    if m = 0 then (.fin s 0 e, .none)
    else
      let (q, ex, st) := quotF m e n 0
      let (b, fl) := roundF fmt32 .rne p.flush s q ex st
      (decodeF fmt32 b, fl)

/-- WELF (R135): the updated count, mean and M2, and the flags. -/
def welfV (p : Profile) (n mu m2 x : Nat) : (Nat × Nat × Nat) × FFlags :=
  let (vmu, f1) := readF p fmt32 mu
  let (vm, f2) := readF p fmt32 m2
  let (vx, f3) := readF p fmt32 x
  let n1 := min (n + 1) (2 ^ 32 - 1)
  let (d, f4) := stepSum p [vx, vmu] [some vx, some (FVal.negate vmu)]
  let (q, f5) := stepQuot p d n1
  let (mu1, f6) := stepSum p [vmu, q] [some vmu, some q]
  let (e, f7) := stepSum p [vx, mu1] [some vx, some (FVal.negate mu1)]
  let (m1, f8) := stepSum p [vm, d, e] [some vm, mulF d e]
  ((n1, rebits fmt32 mu1, rebits fmt32 m1),
    [f1, f2, f3, f4, f5, f6, f7, f8].foldl FFlags.or .none)

/-- WMRG (R136): two triples merged. The operands of a step count for R40 in the order in which the step is written, those of
d as mb, ma; with s = 0 no float is read and no flag raised (the model's choices, log entry 119). -/
def wmrgV (p : Profile) (na ma m2a nb mb m2b : Nat) : (Nat × Nat × Nat) × FFlags :=
  let s := na + nb
  if s = 0 then ((0, 0, 0), .none)
  else
    let (va, f1) := readF p fmt32 ma
    let (vb, f2) := readF p fmt32 mb
    let (qa, f3) := readF p fmt32 m2a
    let (qb, f4) := readF p fmt32 m2b
    let (d, f5) := stepSum p [vb, va] [some vb, some (FVal.negate va)]
    let (w, f6) := stepQuot p (natF nb) s
    let (m, f7) := stepSum p [va, d, w] [some va, mulF d w]
    let (c, f8) := stepQuot p (natF (na * nb)) s
    let (t, f9) := stepSum p [d, d] [mulF d d]
    let (mm, f10) := stepSum p [qa, qb] [some qa, some qb]
    let (r, f11) := stepSum p [mm, t, c] [some mm, mulF t c]
    ((min s (2 ^ 32 - 1), rebits fmt32 m, rebits fmt32 r),
      [f1, f2, f3, f4, f5, f6, f7, f8, f9, f10, f11].foldl FFlags.or .none)

/-- The exact sum of binary32 values rounded once, NaN from the first (R181): `vals` lowest lane first. -/
def fsumList (p : Profile) (mode : RMode) (vals : List Nat) : Nat × FFlags :=
  let rs := vals.map (readF p fmt32)
  let xs := rs.map Prod.fst
  let fl := (rs.map Prod.snd).foldl FFlags.or .none
  sumF p fmt32 mode xs fl (xs.map some)

/-- The minimum or maximum of a nonempty list of binary32 values by R41. -/
def fpickList (p : Profile) (isMax : Bool) (vals : List Nat) : Nat × FFlags :=
  let rs := vals.map (readF p fmt32)
  let xs := rs.map Prod.fst
  let fl := (rs.map Prod.snd).foldl FFlags.or .none
  let nums := xs.filter fun x => !FVal.isNaN x
  if (nums.length < xs.length && !p.num) || nums.isEmpty then (nanResult p fmt32 xs, fl)
  else match nums with
  | [] => (nanResult p fmt32 xs, fl)
  | y :: ys => (rebits fmt32 (ys.foldl (fun acc x => pickF isMax acc x) y), fl)

/-- The nearest integer to m * 2^e, ties to even (rne_int of R52). -/
def rneMag (m : Nat) (e : Int) : Nat := (roundGrid .rne false m e false 0).1

/-- need of R52: the smallest scale that holds the magnitude m * 2^e, for the bound M and bias B. -/
def bxNeed (M : Nat) (B : Int) (m : Nat) (e : Int) : Nat :=
  (List.range 255).findIdx fun (t : Nat) => decide (rneMag m (e + B - (t : Int)) ≤ M)

/-- The block of quantised codes and its tag (R52, R53, R47); `vals` are exact values, 64 for BX8 and 128 for BX4. -/
def quantise (bx4 : Bool) (vals : List FVal) : List Nat × Nat :=
  let M : Nat := if bx4 then 3 else 63
  let B : Int := if bx4 then 128 else 133
  let sh := if bx4 then 4 else 64     -- the weight of s above m
  let fmtc := if bx4 then 2 else 1
  if vals.any FVal.isNaN then (vals.map fun _ => 0, fmtc * 4096 + 255)
  else
    let needOf (x : FVal) : Option Nat := match x with
      | .inf _ => some 255
      | .fin _ m e => if m = 0 then none else some (bxNeed M B m e)
      | _ => none
    let needs := vals.map needOf
    let e := needs.foldl (fun acc n => match n with | some n => max acc (min 254 n) | none => acc) 0
    let e2 := needs.foldl (fun (acc : Option Nat) n => match n with
      | some n => if n + 3 ≤ e then some (max (acc.getD 0) n) else acc
      | none => acc) none
    let d := match e2 with | none => 0 | some k => min 15 (e - k)
    let code (x : FVal) : Nat :=
      let s := (FVal.neg x).toNat
      match x with
      | .fin _ m ex =>
        if m = 0 then sh * s
        else
          let fine := rneMag m (ex + B - ((e - d : Nat) : Int))
          if 0 < d ∧ fine ≤ M then sh * (2 + s) + fine
          else sh * s + min M (rneMag m (ex + B - (e : Int)))
      | _ => sh * s + M
    (vals.map code, fmtc * 4096 + d * 256 + e)

/-- Element i of a BX8 or BX4 block under its tag (R48, R49). -/
def bxValue (bx4 : Bool) (tag code : Nat) : FVal :=
  let e := tag % 256
  let d := tag / 256 % 16
  if e = 255 then .nan false 23 (2 ^ 22)
  else
    let sh := if bx4 then 4 else 64
    let m := code % sh
    let s := code / sh % 2 = 1
    let S := code / sh / 2 % 2 = 1
    let E : Int := if S then (e : Int) - d else e
    .fin s m (E - (if bx4 then 128 else 133))

/-- A value scaled by 2^k. -/
def FVal.scale (x : FVal) (k : Int) : FVal :=
  match x with
  | .fin s m e => .fin s m (e + k)
  | v => v

/-- A subnormal encoding replaced by a zero of its sign where the profile flushes. -/
def flushBits (f : Fmt) (flush : Bool) (v : Nat) : Nat := if flush && isSubnormal f v then v / f.signBit * f.signBit else v

/-- An exact value delivered to a format: rounded in RNE, no flag, every subnormal result flushed by DN, a NaN canonical
(R50). -/
def deliverF (f : Fmt) (flush : Bool) (x : FVal) : Nat :=
  match x with
  | .nan _ _ _ => f.canonNaN
  | .inf s => f.signed s f.infBits
  | .fin s m e => flushBits f flush (roundF f .rne false s m e false).1

end Sys2Proof.Machine
end

