-- ==== Sys2Proof/Machine/Kv.lean ====
section
/-! DEFINITION. Maps kept as sorted lists, byte memory in its one canonical form, and lane masks. -/

namespace Sys2Proof.Machine

/-- The value under a key. -/
def kvGet {α : Type} : KV α → Nat → Option α
  | [], _ => none
  | (k, v) :: t, x => if k = x then some v else if x < k then none else kvGet t x

/-- The value under a key, or d. -/
def kvD {α : Type} (m : KV α) (x : Nat) (d : α) : α := (kvGet m x).getD d

/-- Sets the value under a key, keeping the keys rising. -/
def kvSet {α : Type} : KV α → Nat → α → KV α
  | [], x, v => [(x, v)]
  | (k, w) :: t, x, v => if k = x then (x, v) :: t else if x < k then (x, v) :: (k, w) :: t else (k, w) :: kvSet t x v

/-- Removes a key. -/
def kvDel {α : Type} : KV α → Nat → KV α
  | [], _ => []
  | (k, w) :: t, x => if k = x then t else if x < k then (k, w) :: t else (k, w) :: kvDel t x

/-- Applies f to the value under a key that is present. -/
def kvMod {α : Type} (m : KV α) (x : Nat) (f : α → α) : KV α :=
  m.map fun (k, v) => if k = x then (k, f v) else (k, v)

/-- Applies f to every key and value. -/
def kvMap {α : Type} (m : KV α) (f : Nat → α → α) : KV α := m.map fun (k, v) => (k, f k v)

/-- The entries for which f holds. -/
def kvFilter {α : Type} (m : KV α) (f : Nat → α → Bool) : KV α := m.filter fun (k, v) => f k v

/-- Adds to a wrapping counter under a key. -/
def kvAdd {n : Nat} (m : KV (BitVec n)) (x : Nat) (v : Nat) : KV (BitVec n) :=
  kvSet m x (kvD m x 0 + BitVec.ofNat n v)

/-- Puts a number into a sorted list without repeats. -/
def setIns : List Nat → Nat → List Nat
  | [], x => [x]
  | k :: t, x => if k = x then k :: t else if x < k then x :: k :: t else k :: setIns t x

/-- Takes a number out of a sorted list. -/
def setDel (m : List Nat) (x : Nat) : List Nat := m.filter fun k => k != x

/-- The least number below n that a predicate holds of. -/
def leastIn (n : Nat) (f : Nat → Bool) : Option Nat := (List.range n).find? f

/-- The element of a list that comes before every other under a strict order; the first of equals. -/
def pickMin {α : Type} (lt : α → α → Bool) : List α → Option α
  | [] => none
  | x :: t =>
    match pickMin lt t with
    | none => some x
    | some y => if lt y x then some y else some x

/-! ### Byte memory -/

/-- What an unlisted address reads as. -/
def cellDefault : Byte := 0

/-- The byte at an address. -/
def cellGet (m : List Host.Cell) (a : Nat) : Byte := (kvGet m a).getD cellDefault

/-- Writes a byte; a byte equal to the default is not listed. -/
def cellSet (m : List Host.Cell) (a : Nat) (b : Byte) : List Host.Cell :=
  if b = cellDefault then kvDel m a else kvSet m a b

/-- n bytes from an address up. -/
def cellsGet (m : List Host.Cell) (a n : Nat) : List Byte := (List.range n).map fun k => cellGet m (a + k)

/-- Writes bytes from an address up. -/
def cellsSet (m : List Host.Cell) (a : Nat) : List Byte → List Host.Cell
  | [] => m
  | b :: t => cellsSet (cellSet m a b) (a + 1) t

/-- Forgets the bytes of [lo, hi), which then read as the default. -/
def cellsClear (m : List Host.Cell) (lo hi : Nat) : List Host.Cell :=
  m.filter fun c => decide (c.1 < lo) || decide (hi ≤ c.1)

/-- Forgets the keys of [lo, hi). -/
def kvClear {α : Type} (m : KV α) (lo hi : Nat) : KV α :=
  m.filter fun c => decide (c.1 < lo) || decide (hi ≤ c.1)

/-- The canonical form of a byte memory: addresses strictly rising, no entry equal to the default. -/
abbrev Memory.wf (m : List Host.Cell) : Prop :=
  m.Pairwise (fun a b => a.1 < b.1) ∧ ∀ c ∈ m, c.2 ≠ cellDefault

/-! ### Numbers and masks -/

/-- The field of x from bit lo, n bits wide. -/
def bitsAt (x lo n : Nat) : Nat := x / 2 ^ lo % 2 ^ n

/-- x rounded down to a multiple of n. -/
def alignDown (x n : Nat) : Nat := x / n * n
/-- x rounded up to a multiple of n. -/
def alignUp (x n : Nat) : Nat := (x + n - 1) / n * n

/-- The lanes of a mask in ascending order. -/
def lanesOf (m : Mask) : List Nat := (List.range 64).filter fun l => m.getLsbD l

/-- The mask of the first w lanes. -/
def maskBelow (w : Nat) : Mask := BitVec.ofNat 64 (2 ^ w - 1)

/-- The mask of one lane. -/
def laneBit (l : Nat) : Mask := BitVec.ofNat 64 (2 ^ l)

/-- The mask of a list of lanes. -/
def maskOf (ls : List Nat) : Mask := ls.foldl (fun m l => m ||| laneBit l) 0

/-- The lanes below w for which f holds. -/
def maskWhere (w : Nat) (f : Nat → Bool) : Mask := maskOf ((List.range w).filter f)

/-- The lowest lane of a mask. -/
def lowLane (m : Mask) : Nat := (lanesOf m).headD 64

/-- The number of lanes of a mask. -/
def maskCount (m : Mask) : Nat := (lanesOf m).length

/-- The mask with the lanes of sel taken from new and the others from old. -/
def maskMerge (sel new old : Mask) : Mask := (new &&& sel) ||| (old &&& ~~~sel)

/-- A low word and a high word of a 64-bit value. -/
def lowWord (x : Nat) : W32 := BitVec.ofNat 32 x
def highWord (x : Nat) : W32 := BitVec.ofNat 32 (x / 2 ^ 32)

end Sys2Proof.Machine
end

