-- ==== Sys2Proof/Machine/State.lean ====
section
/-! DEFINITION. The state of the device as plain data, its faults and refusals, and its reset value. A value that stands
for a time counts core cycles of the device clock (R25); a fabric cycle is half of one. -/

namespace Sys2Proof.Machine

/-- Why a step stops. -/
inductive Fault where
  /-- exec was asked for a Zorsis instruction while no issue slot is issuing one; step never does that. Safe: the device
  has no such step. -/
  | noIssuingWarp
  deriving DecidableEq, Repr

/-- Why an instruction has no meaning here. -/
inductive Refusal where
  /-- the instruction's arm in exec has no meaning yet; raised by exec alone. Safe: nothing is claimed of it. -/
  | notModelled (mnemonic : String)
  deriving DecidableEq, Repr

/-- What a request at a stack is for, by the rows of R426. -/
inductive RequestKind where
  /-- RT: Damson and Quince reads, and view units -/
  | damson | quince | viewUnit
  /-- LATENCY: loads, atomics and reductions; fetch and LDK; walks; BRX tables and call-stack reloads; recalls and placements -/
  | laneRead | code | walk | table | place
  /-- BULK: stores and write-backs; commands of classes cp, mx and cl; PFETCH; pool, continuation and spill lines; the traffic of
  queues, item queues and frame rings -/
  | laneWrite | command | prefetch | rayLine | queueLine
  /-- MAINT: evictions, RMOVE and RCMPT, start-gap copies, scrubbing and refresh bookkeeping -/
  | upkeep
  deriving DecidableEq, Repr, Inhabited

/-- What happens next: the order of the moves of the device's agents, which the spec leaves open between agents. -/
inductive Move where
  /-- the issue slot issues the next instruction of the run it holds -/
  | issue (core part slot : Nat)
  /-- a step of another agent -/
  | event (i : Instr)
  /-- n core cycles pass -/
  | wait (n : Nat)
  /-- the core's L1 evicts the sector of a physical address (R191, R195) -/
  | l1Drop (core pa : Nat)
  /-- the core's instruction cache drops a block -/
  | codeDrop (core blk : Nat)
  /-- a lane of the load or store-queue entry of a number, of the warp in a device warp slot, is performed ahead of the others
  (R202, R224, R226) -/
  | laneAccess (dws seq lane : Nat)
  /-- the core goes on with its oldest CSPLIT (R218) -/
  | splitWays (core : Nat)
  /-- the core's k-th access to a treelet-table entry is made (R321) -/
  | tableOp (core k : Nat)
  /-- the core's k-th SYSRD reads its register (R459) -/
  | sysRead (core k : Nat)
  /-- the core's range table drops its k-th entry (R405) -/
  | rangeDrop (core k : Nat)
  /-- a view unit sends its next camera ray (R327-R329) -/
  | viewRay (view vunit : Nat)
  /-- the range unit starts an eviction for a frame ring (R412) -/
  | evictStart (ring : Nat)
  /-- a recall or first touch that waits for a frame is tried again (R410, R411) -/
  | frameRetry (k : Nat)
  /-- the range unit goes on with its oldest request (R415, R420, R423, R424) -/
  | rangeBegin
  /-- a queue's status block, whose write waited, is written (R356) -/
  | statusWrite (queue : Nat)
  /-- a context's record area takes the writes that waited (R345) -/
  | areaWrite (ctx : Nat)
  /-- a port sends the frames that its state and credits let it send (R465, R467) -/
  | sendPort (port : Nat)
  /-- a port's FEC corrects some codewords and fails on others (R468) -/
  | codewords (port corrected failed : Nat)
  /-- a crew whose touch waits on a move is saved for a crew that then fits (R411) -/
  | recallSave (crew : Nat)
  /-- a stack that is drained recalls its next unit (R484) -/
  | drainNext (pstack : Nat)
  /-- a command processor has been replaced by the staged image (R485) -/
  | swapNext
  /-- a request of a kind for the block of a physical address, or of a tier address, that left its source at a fabric cycle
  reaches a pseudo-channel, or a persistent stack (R426-R428): channel, bank, the crew that it is made for, the core that issued
  it, and whether the hub did -/
  | request (kind : RequestKind) (tier : Bool) (addr channel bank left : Nat) (crew core : Option Nat) (hub : Bool)
  deriving DecidableEq, Repr, Inhabited

/-! ### Warps -/

/-- The register files of a warp (R63, R64). Keys of lane registers are 64 * register + lane. -/
structure Regs where
  v : KV W32 := []
  vempty : List Nat := []
  vpoison : List Nat := []
  s : KV W32 := []
  sempty : List Nat := []
  spoison : List Nat := []
  /-- p0-p15 under 0-15, j0-j7 under 16-23 -/
  p : KV Mask := []
  pempty : List Nat := []
  fnv : Mask := 0
  fdz : Mask := 0
  fof : Mask := 0
  fuf : Mask := 0
  fnx : Mask := 0
  deriving DecidableEq, Repr

/-- The item values of a lane (R66, R137): index, sequence number, and how many TRACEs its item executed (R287). -/
structure LaneItem where
  idx : Nat := 0
  seq : W32 := 0
  traces : Nat := 0
  deriving DecidableEq, Repr

/-- A lane's return stack (R167): code offsets on chip, newest first, and how many are spilled. -/
structure LaneStack where
  chip : List W32 := []
  spilled : Nat := 0
  deriving DecidableEq, Repr

/-- A run stopped part way, with its files (R65, R75): instructions executed, o0-o7 and h0-h3 (keys 64 * entry + lane). -/
structure SavedRun where
  count : Nat := 0
  opf : KV W32 := []
  lastf : KV W32 := []
  deriving DecidableEq, Repr

/-- The state of a path-table entry (R158); `noEntry`: it waits for a free entry of the table (R160); `atTret`: parked at a
TRAP.tret (R446). -/
inductive PathState where
  | ready
  | running
  | parkedJoin (j : Nat)
  | parkedWait (j : Nat)
  | reconverge
  | noEntry
  | atTret
  deriving DecidableEq, Repr

/-- What a path waits for at a barrier (R400): the recording of an arrival that stands in its store queue, or the end of a phase;
`released`: that phase has completed, with the scope of its acquire (R395, R396). `again`: the path has yet to arrive itself. -/
inductive BarWait where
  | arriving (seq : Nat) (again : Bool)
  | phase (n : W32) (again : Bool)
  | released (scope : Nat) (again : Bool)
  deriving DecidableEq, Repr

/-- A path-table entry (R158). `reconv`: reconverged for the warp-wide instruction at its PC (R178). `only`: the lanes over
which its next instruction issues, when R446 restricts them. -/
structure Path where
  pc : W64 := 0
  mask : Mask := 0
  st : PathState := .ready
  resume : Option SavedRun := none
  reconv : Bool := false
  only : Option Mask := none
  barWait : Option BarWait := none
  /-- that barrier is a group's, and its number: the group's entry index, or K -/
  barGroup : Bool := false
  barNum : Nat := 0
  /-- a group of lanes that R160 left at its branch for want of entries; the branch that split this path off while it left such
  a group behind (R158) -/
  stay : Bool := false
  splitFrom : Option W64 := none
  /-- rebuild stores the core holds for a drawn path (R174): lane, row, code offset -/
  rebuild : List (Nat × Nat × W32) := []
  deriving DecidableEq, Repr

/-- The run a warp executes in an issue slot (R75): the slot, the path, the files, and since when it is STALLED (R141). -/
structure Run where
  slot : Nat := 0
  path : Nat := 0
  files : SavedRun := {}
  stalled : Option Nat := none
  deriving DecidableEq, Repr

/-- Where one lane's access goes: a byte of memory, or a byte of a crew's scratch. -/
inductive Loc where
  | mem (pa : Nat)
  | scratch (crew off : Nat)
  deriving DecidableEq, Repr

/-- One lane's part of a load, store or atomic. -/
structure LaneAccess where
  lane : Nat := 0
  va : Nat := 0
  loc : Loc := .mem 0
  /-- store value, atomic operand, compare value -/
  x : Nat := 0
  /-- new value of a compare and swap -/
  y : Nat := 0
  /-- performed, or served from the queue or a version: x is then a load's value, and y is 1 where it was poisoned -/
  done : Bool := false
  deriving DecidableEq, Repr

/-- What a store-queue entry does when it leaves (R204, R400). -/
inductive StoreKind where
  | store (sc : Nat) (rel : Bool)
  /-- a spill store of the return stack (R167) -/
  | spill
  | atomic (code : Nat) (ty : Ty) (isRed : Bool)
  | zero
  | flush (inval llc : Bool)
  | arrive (group : Bool) (bar : Nat) (mask : Mask)
  deriving DecidableEq, Repr

/-- A destination that a result in flight fills: a main or scalar register, or nothing. -/
inductive Dest where
  | none
  | main (reg : Nat) (wide : Bool)
  | scalar (reg : Nat) (wide : Bool)
  deriving DecidableEq, Repr

/-- An entry of a warp's store queue (R204). `seq` orders it among the warp's loads and entries. -/
structure StoreEntry where
  seq : Nat := 0
  kind : StoreKind := .zero
  width : Nat := 4
  lanes : List LaneAccess := []
  dst : Dest := .none
  /-- the code offset of the instruction, its path and run position, for a trap found when it leaves (R213) -/
  pc : W32 := 0
  /-- core cycles the warp waited on its destination (R205) -/
  waited : Nat := 0
  deriving DecidableEq, Repr

/-- A load in flight (R206, R221): it is performed when its data returns. -/
structure LoadEntry where
  seq : Nat := 0
  ty : Ty := .b32
  width : Nat := 4
  sc : Nat := 0
  acq : Bool := false
  code : Bool := false
  lanes : List LaneAccess := []
  dst : Dest := .none
  waited : Nat := 0
  deriving DecidableEq, Repr

/-- What R441's record holds of a trap before its delivery. -/
structure TrapInfo where
  code : Nat := 0
  tx : W32 := 0
  mask : Mask := 0
  va : Nat := 0
  tpc : W32 := 0
  trun : Nat := 0
  kind : Nat := 0
  /-- the reason of RESIDENCY, where the extra word does not hold it (R262, R408) -/
  why : Option Nat := none
  /-- the entry of the store queue that raised it when it left (R213), with the lanes to be issued again -/
  entry : Option StoreEntry := none
  deriving DecidableEq, Repr

/-- A trap record: sixteen words (R442). -/
abbrev TrapRecord := List W32

/-- Handler mode (R445): the set-aside path table, the trapping path, its code and the lanes an atomic is issued again over. -/
structure Handler where
  paths : KV Path := []
  path : Nat := 0
  code : Nat := 0
  tpc : W64 := 0
  again : Option Mask := none
  /-- an atomic whose poisoned lanes are issued again from the store queue (R213, R446) -/
  entry : Option StoreEntry := none
  deriving DecidableEq, Repr

/-- A retired command fault that awaits its WAITC (R261, R262). -/
structure CmdFault where
  code : Nat := 0
  va : Nat := 0
  blocks : Nat := 0
  reason : Nat := 0
  deriving DecidableEq, Repr

/-- One engine class of a warp (R259, R260, R262): counter, status bits, and faults in retire order. -/
structure EngClass where
  count : Nat := 0
  status : BitVec 8 := 0
  faults : List CmdFault := []
  /-- the widest completion scope of the commands that have retired (R263) -/
  acq : Nat := 0
  deriving DecidableEq, Repr

/-- A lane's ray in flight (R292, R297): its pool id once it has one, .cand, hit block, and the candidate at the core. -/
structure LaneRay where
  id : Option Nat := none
  cand : Bool := false
  hit : Nat := 0
  /-- a candidate delivered and unanswered: its four words -/
  offer : Option (List W32) := none
  /-- CAND.gets that wait for a candidate: block register and predicate -/
  get : List (Nat × Nat) := []
  abandoned : Bool := false
  deriving DecidableEq, Repr

/-- A lane's held write of a versioned task (R376): a 128-byte line with the bytes and tags written. -/
structure VersionLine where
  line : Nat := 0
  /-- the stack of its home -/
  home : Nat := 0
  mask : BitVec 128 := 0
  data : List Host.Cell := []
  tags : KV W16 := []
  deriving DecidableEq, Repr

/-- A PUTN (kind 0), GETN (1) or SIGNAL (2) (R472-R474): the device, the VA there, the length and the local offset, or the
operand of a SIGNAL and whether it adds; the bytes of a put that a version holds; the barrier slot and the code offset. -/
structure RemoteJob where
  kind : Nat := 0
  dev : Nat := 0
  va : Nat := 0
  len : Nat := 0
  lo : Nat := 0
  value : Nat := 0
  add : Bool := false
  data : Option (List Byte) := none
  arv : Option Nat := none
  tpc : W32 := 0
  /-- it was held by a version, and is sent in issue order (R376) -/
  held : Bool := false
  deriving DecidableEq, Repr

/-- A lane's version (R376). -/
structure Version where
  lines : List VersionLine := []
  /-- puts and signals held until publication, in issue order -/
  remotes : List RemoteJob := []
  deriving DecidableEq, Repr

/-- A warp's GROW request (R154): the target, and its place among the requests. -/
structure GrowReq where
  n : Nat := 0
  order : Nat := 0
  /-- it can never be granted (R156) -/
  failed : Bool := false
  deriving DecidableEq, Repr

/-- A GRED whose result is in flight (R388): the scalar, the group, the lanes that take the flags, the destination modifier,
and the result of a phase that completed while the crew was saved (R389). -/
structure GredWait where
  sd : Nat := 0
  wide : Bool := false
  group : Nat := 0
  mask : Mask := 0
  dmod : Nat := 0
  /-- its type is f32, so that it sets flags (R44) -/
  flags : Bool := false
  result : Option (Nat × Nat) := none
  deriving DecidableEq, Repr

/-- A debugger halt (R453, R454): the halt record, the path that was halted, and the pending fault with the lanes over which an
atomic is issued again and whether a TRAP.call raised it. -/
structure Halt where
  record : TrapRecord := []
  path : Nat := 0
  pending : Option TrapInfo := none
  again : Option Mask := none
  isCall : Bool := false
  deriving DecidableEq, Repr

/-- A thread as a reform bin holds it (R146, R174). -/
structure BinThread where
  regs : List W32 := []
  /-- return-stack entries: on chip, newest first, and spilled, oldest first -/
  chip : List W32 := []
  spill : List W32 := []
  fnv : Bool := false
  fdz : Bool := false
  fof : Bool := false
  fuf : Bool := false
  fnx : Bool := false
  item : LaneItem := {}
  version : Option Version := none
  deriving DecidableEq, Repr

/-- A warp of a crew (R138-R149, R158). -/
structure Warp where
  /-- partition and warp slot, while resident (R140) -/
  part : Nat := 0
  wslot : Nat := 0
  /-- register count N (R142) -/
  n : Nat := 8
  regs : Regs := {}
  live : Mask := 0
  items : KV LaneItem := []
  stackTab : KV LaneStack := []
  /-- %spill (R167) -/
  spill : Nat := 0
  paths : KV Path := []
  run : Option Run := none
  /-- the lowest lane of the path that ran last, and the paths of a split just made (R159) -/
  lastLow : Option Nat := none
  afterSplit : List Nat := []
  /-- PH and YH of the last run's end (R144) -/
  hintPh : Bool := false
  hintYh : Bool := false
  readySince : Option Nat := none
  /-- the PC of the last REFILL executed (R149) -/
  refillPc : Option W64 := none
  storeQ : List StoreEntry := []
  loads : List LoadEntry := []
  nextSeq : Nat := 0
  /-- %lat, %sealst (R205, R245) -/
  lat : W32 := 0
  sealst : W32 := 0
  /-- the trap record and %tcode, %tpc, %tmask, %tva (R443) -/
  record : TrapRecord := List.replicate 16 0
  tcode : W32 := 0
  tpc : W32 := 0
  tmask : W64 := 0
  tva : W64 := 0
  handler : Option Handler := none
  halt : Option Halt := none
  /-- a halt that takes effect at the next instruction boundary (R453) -/
  haltAsked : Bool := false
  /-- the path that an eviction or a halt stopped inside its run, which goes on first (R141) -/
  resumeAt : Option Nat := none
  grow : Option GrowReq := none
  /-- the engine classes cp, mx, cl, tr, fl (R238, R259) -/
  eng : KV EngClass := []
  rays : KV LaneRay := []
  /-- lanes whose FILT results are in flight, with the result blocks (R343) -/
  versions : KV Version := []
  /-- the last treelet refusal word (R322) -/
  tlRefusal : W32 := 0
  /-- GRED results in flight (R388, R389) -/
  greds : List GredWait := []
  retired : Bool := false
  /-- its last live lanes left by REFORM: it is not idle, and a bin or the placement of items ends that (R149) -/
  reformed : Bool := false
  /-- when it last took a trap (R351) -/
  trapAt : Option Nat := none
  /-- the threads of a REFORM that wait for a bin, in lane order: lane, PC, first register and length of the block (R146) -/
  filing : List (Nat × W64 × Nat × Nat × BinThread) := []
  /-- the move that its touch waits on, and once that move has failed the reason of RESIDENCY and the unit (R410, R411) -/
  touchWait : Option Nat := none
  touchFail : Option (Nat × Nat × Nat) := none
  /-- the crew image holds this warp's trap as pending for RESIDENCY or a fatal trap (R408, R447) -/
  pendingTrap : Option TrapInfo := none
  deriving DecidableEq, Repr

/-! ### Bins, crews and launches -/

/-- A reform bin (R146): its key and its threads in filing order. -/
structure Bin where
  launch : Nat := 0
  pc : W64 := 0
  vb : Nat := 0
  n : Nat := 0
  threads : List BinThread := []
  firstAt : Nat := 0
  /-- when it became drawable -/
  drawableAt : Option Nat := none
  aged : Bool := false
  deriving DecidableEq, Repr

/-- A bound barrier of a crew or a group barrier (R392, R393). Arrived masks and the counted set are by warp. -/
structure Barrier where
  mask : W32 := 0
  cexp : Nat := 0
  phase : W32 := 0
  counted : List Nat := []
  carr : Nat := 0
  arrived : KV Mask := []
  /-- the widest completion scope of the commands that arrived in the open phase (R396) -/
  scope : Nat := 0
  /-- the completion scopes of command arrivals that belong to later phases, in order (R395) -/
  late : List Nat := []
  deriving DecidableEq, Repr

/-- Why a crew's save was asked for (R349, R350, R408, R447, R346, R156, R411, R482). -/
inductive SaveWhy where
  | slice | migration | residency | fatal | suspend | registers | recall | fencing
  deriving DecidableEq, Repr

/-- Where a crew stands (R152, R352, R374). -/
inductive CrewPhase where
  | unplaced | resident | stopped | saved | retired
  deriving DecidableEq, Repr

/-- Why a saved crew may not be placed yet: a move in progress, or RREADY (R408, R411). -/
inductive SaveHold where
  | none | move | rready
  deriving DecidableEq, Repr

/-- A crew: its warps and what it owns on its core (R189, R266, R352, R392). -/
structure Crew where
  launch : Nat := 0
  num : Nat := 0
  ctx : Nat := 0
  phase : CrewPhase := .unplaced
  core : Nat := 0
  /-- order of placements and saves: younger is larger -/
  placedAt : Nat := 0
  warps : KV Warp := []
  /-- the kernel's .scratch size, the bytes (zero where not listed), the poisoned bytes, and the L1 ways held (R189, R218) -/
  scr : Nat := 0
  scratch : List Host.Cell := []
  scrPoison : List Nat := []
  ways : List Nat := []
  /-- tiles: count, elements (key 4096 * tile + 64 * row + column, +0 where not listed), poison flags (R266) -/
  acc : Nat := 0
  tiles : KV W32 := []
  tilePoison : List Nat := []
  bars : KV Barrier := []
  /-- when the open non-preemptible region closes (R176) -/
  npreg : Option Nat := none
  /-- when %ydl reaches 0, for a picked crew (R349) -/
  ydl : Option Nat := none
  ydlExpired : Bool := false
  saveWhy : Option SaveWhy := none
  hold : SaveHold := .none
  /-- requeued ahead of unplaced crews (R156) -/
  savedOrder : Nat := 0
  /-- cores that a migration bars, until the crew is placed again (R350) -/
  barred : List Nat := []
  /-- reruns and poisonings since placement, the last MXACQ refusal, and array holds: own, pair (R282, R285, R286) -/
  reruns : Nat := 0
  poisonings : Nat := 0
  mxRefusal : Nat := 0
  holdsArray : Bool := false
  holdsPair : Bool := false
  /-- commands in its matrix queue, in entry order (R284) -/
  mxQueue : List Nat := []
  /-- image place in the save area, while saved (R352), and the bins it holds (R147) -/
  imageAt : Nat := 0
  imageSize : Nat := 0
  bins : List Bin := []
  deriving DecidableEq, Repr

/-- What a kernel's attribute block gives a launch (R362). -/
structure Kernel where
  kva : Nat := 0
  codeVa : Nat := 0
  codeSz : Nat := 16
  entry : Nat := 0
  trape : Nat := 0xFFFFFFFF
  binAge : Nat := 2048
  scr : Nat := 0
  regs : Nat := 8
  guse : Nat := 0
  prof : Nat := 0
  acc : Nat := 0
  crew : Nat := 1
  width : Nat := 16
  /-- entries in use: source and register (R364) -/
  rmap : List (Nat × Nat) := []
  deriving DecidableEq, Repr

/-- An open reduction phase of a group (R387): operation, type, and contributions by 64 * crew + warp. -/
structure GredPhase where
  sub : Nat := 0
  ty : Ty := .n32
  contribs : KV (List Nat) := []
  deriving DecidableEq, Repr

/-- A group of a launch (R380-R391). -/
structure Group where
  members : List Nat := []
  flags : Nat := 0
  bar : Barrier := {}
  open_ : Option GredPhase := none
  phases : W32 := 0
  deriving DecidableEq, Repr

/-- A launch (R362-R379). -/
structure Launch where
  ctx : Nat := 0
  queue : Nat := 0
  tag : W32 := 0
  note : Bool := false
  prio : Nat := 0
  startOrder : Nat := 0
  kernel : Kernel := {}
  argva : Nat := 0
  csva : Nat := 0
  csrows : Nat := 0
  vers : Bool := false
  groups : KV Group := []
  /-- crews of the command, and the next one not yet placed -/
  crews : Nat := 0
  nextCrew : Nat := 0
  /-- item queue, or the generated items and the next one -/
  itemQueue : Option Nat := none
  items : Nat := 0
  nextItem : Nat := 0
  /-- outstanding stores, puts and signals by core (R375) -/
  outS : KV Nat := []
  outP : KV Nat := []
  outG : KV Nat := []
  commits : W32 := 0
  discards : W32 := 0
  done : Bool := false
  deriving DecidableEq, Repr

/-! ### Cores -/

/-- A sector of an L1 (R191). -/
structure Sector where
  data : List Byte := List.replicate 64 0
  valid : Mask := 0
  dirty : Mask := 0
  tag : W16 := 0
  /-- the tag was set by this core's stores and goes home with the next write-back (R198) -/
  tagDirty : Bool := false
  scope : Nat := 0
  zero : Bool := false
  way : Nat := 0
  deriving DecidableEq, Repr

/-- A range piece descriptor (R401). -/
structure Piece where
  base : Nat := 0
  lim : Nat := 0
  ofs : W64 := 0
  next : W16 := 0
  perm : BitVec 8 := 0
  attr : BitVec 8 := 0
  back : Nat := 0
  deriving DecidableEq, Repr

/-- The service state of a core (R482, R483); a DRAINING core on which no crew is left is TESTING. -/
inductive FenceState where
  | inService | draining | out
  deriving DecidableEq, Repr

/-- A CSPLIT whose predicate is not yet written (R218): the warp, the count, the predicate and the lanes that take it. -/
structure SplitReq where
  crew : Nat := 0
  warp : Nat := 0
  n : Nat := 0
  pd : Nat := 0
  mask : Mask := 0
  deriving DecidableEq, Repr

/-- A SYSRD that has not read its register yet (R459): the warp, the register, and the scalar that takes its value. -/
structure SysRead where
  crew : Nat := 0
  warp : Nat := 0
  num : Nat := 0
  reg : Nat := 0
  deriving DecidableEq, Repr

/-- The descriptor block of TLPOST (R321). -/
structure TDescriptor where
  va : Nat := 0
  size : Nat := 0
  home : Nat := 0
  root : Bool := false
  bad : Bool := false
  deriving DecidableEq, Repr

/-- A TLSHUT (kind 0), TLPOST (1) or TLQRY (2) whose entry has not been accessed yet (R321): the warp, the entry, TLQRY's k, the
predicate or scalar register that it answers in, and the lanes of the predicate. -/
structure TableReq where
  crew : Nat := 0
  warp : Nat := 0
  ctx : Nat := 0
  kind : Nat := 0
  id : Nat := 0
  k : Nat := 0
  reg : Nat := 0
  mask : Mask := 0
  desc : TDescriptor := {}
  deriving DecidableEq, Repr

/-- A core (R20). -/
structure Core where
  l1 : KV Sector := []
  fills : Nat := 0
  /-- the instruction cache: 64-byte blocks by physical address / 64, and the blocks in the order of their last use (R20, R209) -/
  icache : KV (List Byte) := []
  icacheUse : List Nat := []
  /-- CSPLITs in issue order (R218) -/
  splits : List SplitReq := []
  /-- accesses to treelet tables in issue order (R321) -/
  tableOps : List TableReq := []
  /-- SYSRDs under way (R459) -/
  sysReads : List SysRead := []
  /-- cached pieces with their contexts, most recently used first (R405) -/
  table : List (Nat × Piece) := []
  /-- when %clk was last zero -/
  clkBase : Nat := 0
  bins : KV Bin := []
  /-- mid-run stall cycles by partition, corrected errors, missed deadlines by class (R141, R429, R458) -/
  pstall : KV W32 := []
  ccorr : W32 := 0
  cmiss : KV W32 := []
  /-- since when each context has held the core (R348) -/
  sliceSince : KV Nat := []
  /-- the context whose count expired here and the context that its room went to, until that one is placed (R1, R348) -/
  incoming : Option (Nat × Nat) := none
  fence : FenceState := .inService
  /-- bit 4 of FSTAT: taken out of service beyond its spares (R483) -/
  beyondSpares : Bool := false
  /-- the MMAP that the array runs, its own core's or its partner's (R276); the placement order of the crew served last (R284) -/
  serving : Option Nat := none
  mxTurn : Nat := 0
  /-- since when every resident warp waits as R156 says -/
  regStallSince : Option Nat := none
  deriving DecidableEq, Repr

/-! ### Contexts, queues, ranges and commands -/

/-- The states of a context (R346). -/
inductive CtxState where
  | free | loading | ready | running | suspending | suspended | faulted | draining | dead
  deriving DecidableEq, Repr

/-- A record-table slot (R244, R248): the sealed copy, its generation, and whether it is sealed. -/
structure RecSlot where
  gen : Nat := 1
  isSealed : Bool := false
  data : List Byte := []
  deriving DecidableEq, Repr

/-- A watch (R455): base, log2 of the length, kind bits (1 read, 2 write). -/
structure Watch where
  base : Nat := 0
  m : Nat := 6
  kind : Nat := 0
  deriving DecidableEq, Repr

/-- A context (R344-R349, R425, R448). -/
structure Context where
  st : CtxState := .free
  /-- the 128 bytes of its descriptor -/
  desc : List Byte := []
  recs : KV RecSlot := []
  step : W16 := 0
  errcnt : W32 := 0
  errlog : KV TrapRecord := []
  cforced : W32 := 0
  watches : KV Watch := []
  /-- item-queue registrations: header VAs (R369) -/
  iq : KV Nat := []
  /-- the attached debugger's catch mask (R453) -/
  attached : Bool := false
  catchMask : W32 := 0
  /-- the matrix mode while a matrix command of the context is in flight: reserved (R283) -/
  mxMode : Bool := false
  /-- ray-pool ids in use (R289) -/
  poolUsed : List Nat := []
  /-- writes of the record area that wait for its pieces: offset and bytes, oldest first (R345) -/
  areaDue : List (Nat × List Byte) := []
  deriving DecidableEq, Repr

/-- The states of a queue (R357). -/
inductive QueueState where
  | disabled | idle | active | blocked | faulted
  deriving DecidableEq, Repr

/-- What a command that has started and not completed is (R359): a launch, a view, a SEMWAIT, or a range request. -/
inductive Started where
  | launch (id : Nat)
  | view (id : Nat)
  | wait
  | range (id : Nat)
  deriving DecidableEq, Repr

/-- A queue (R354-R361). `started`: commands started and not complete, by index. `pending`: the 64 bytes of a SEMWAIT that
waits. `faultHere`: head stands at the command that put the queue into FAULTED. -/
structure Queue where
  st : QueueState := .disabled
  ctx : Nat := 0
  prio : Nat := 0
  logn : Nat := 6
  ringva : Nat := 0
  headva : Nat := 0
  head : W32 := 0
  tail : W32 := 0
  completed : W32 := 0
  faultWord : W32 := 0
  faultTag : W32 := 0
  started : List (Nat × Started) := []
  pending : Option (List Byte) := none
  faultHere : Bool := false
  /-- a write of the status block that waits for its piece -/
  statusDue : Bool := false
  /-- a fault found while the context was in none of its queues' states: fault word, TAG, and whether head stands at the command
  (R357, R361) -/
  dueFault : Option (W32 × W32 × Bool) := none
  deriving DecidableEq, Repr

/-- A view unit's part of a view (R327, R332): tiles generated and samples sent of the next one, tiles emitted and items of the
next one appended, the item-queue index it has reserved, whether a full queue holds it, and the hit words of written samples by
tile and sample number. -/
structure ViewUnit where
  gen : Nat := 0
  sample : Nat := 0
  emit : Nat := 0
  items : Nat := 0
  resv : Option Nat := none
  hold : Bool := false
  written : KV (KV (List W32)) := []
  deriving DecidableEq, Repr

/-- A view launch (R325-R333): its queue and command, its record, its units, the rays in flight (unit, tile, sample number), and
the tiles emitted by all units. -/
structure View where
  ctx : Nat := 0
  queue : Nat := 0
  index : Nat := 0
  tag : W32 := 0
  note : Bool := false
  record : List Byte := []
  units : KV ViewUnit := []
  rays : KV (Nat × Nat × Nat) := []
  emitted : Nat := 0
  stopped : Bool := false
  deriving DecidableEq, Repr

/-- A region a command names on its local side (R238, R277). -/
inductive Region where
  | bytes (crew lo hi : Nat)
  | tile (crew n : Nat)
  deriving DecidableEq, Repr

/-- A CPY (kind 0), GATH (1) or SCAT (2) as its issue captures it (R250-R256): the TENSOR's fields, the box, the local image
at offset `lo` of the crew's scratch with pitch P, and the index list's offset. -/
structure CopyJob where
  kind : Nat := 0
  out : Bool := false
  flush : Bool := false
  rank : Nat := 1
  tagged : Bool := false
  et : Nat := 0
  base : Nat := 0
  ext : List Nat := []
  str : List Nat := []
  c : List Nat := []
  b : List Nat := []
  lf : Nat := 0
  pitch : Nat := 0
  lo : Nat := 0
  x : Nat := 0
  deriving DecidableEq, Repr

/-- An MMA (kind 0), MMAP (1) or MMAG (2) as its issue captures it (R269-R276): the local format of R251, scratch offsets of
the images, their pitches in bytes, the rows of the A image, ZA, the offset of the index vector, the follower crew, the image
row of every row of A (none: a row of +0) once it has started, the K-blocks done, the first run of a block seen to mismatch,
and for both tiles whether it is poisoned and whether its remaining blocks are skipped (R282). -/
structure MxJob where
  kind : Nat := 0
  flush : Bool := false
  fmt : Nat := 2
  tile : Nat := 0
  a : Nat := 0
  b : Nat := 0
  k : Nat := 0
  pa : Nat := 0
  pb : Nat := 0
  rows : Nat := 64
  za : Bool := false
  x : Nat := 0
  follower : Option Nat := none
  idx : List (Option Nat) := []
  done : Nat := 0
  bad : Bool := false
  badF : Bool := false
  skip : Bool := false
  skipF : Bool := false
  deriving DecidableEq, Repr

/-- What a command does, with the operands captured at issue (R252, R272, R292, R341, R472). -/
inductive CmdOp where
  | copy (job : CopyJob)
  | matrix (job : MxJob)
  | tileMove (store : Bool) (fmt tile addr pitch : Nat)
  /-- the hit block, and the lanes not yet sent with the first 60 bytes of their records and their sequences (R292) -/
  | trace (root hit : Nat) (lanes : List (Nat × List Byte × Nat))
  /-- a filter (R342): the record, the result block, and the lanes whose requests have not ended, with their coordinates -/
  | filter (grid : Bool) (record : List Byte) (dst : Nat) (lanes : List (Nat × List W32))
  | remote (job : RemoteJob)
  /-- a collective (R476): code, type, set, local offset, element count, and its sequence number once it has one -/
  | coll (kind : Nat) (ty : Ty) (set lo count : Nat) (seq : Option Nat)
  deriving DecidableEq, Repr

/-- How far a command is (R257-R261). -/
inductive CmdPhase where
  | waiting | started | accessed | completed
  deriving DecidableEq, Repr

/-- An engine command (R238-R265). Its key is its issue order. -/
structure Command where
  crew : Nat := 0
  warp : Nat := 0
  core : Nat := 0
  cls : Nat := 0
  op : CmdOp := .tileMove false 0 0 0 0
  scope : Nat := 1
  arv : Option Nat := none
  lanes : Mask := 0
  preds : List Nat := []
  reads : List Region := []
  writes : List Region := []
  phase : CmdPhase := .waiting
  status : BitVec 8 := 0
  fault : Option CmdFault := none
  cancelled : Bool := false
  /-- the record-table slot whose sealed copy it uses (R248) -/
  slot : Option Nat := none
  /-- code offset of the instruction, and the lane whose version takes its writes -/
  tpc : W32 := 0
  lane : Nat := 0
  blocks : Nat := 0
  /-- the follower's core of an MMAP (R276) -/
  pair : Option Nat := none
  /-- scratch bytes, under 2^20 * crew + offset: of the regions it reads, as they were before lanes stored there while it was in
  flight; of those it writes, as they were before it wrote there (R234) -/
  was : KV Byte := []
  /-- bytes of a GETN that have landed (R474) -/
  acked : Nat := 0
  /-- a remote command that has been performed at its target, or is known to have failed (R475) -/
  performed : Bool := false
  outCounted : Bool := false
  deriving DecidableEq, Repr

/-- A move of a unit (R407-R412, R423, R424). -/
inductive MoveKind where
  | place | recall | evict (ring : Nat) | rmove (dst : Nat)
  deriving DecidableEq, Repr

structure UnitMove where
  ctx : Nat := 0
  vbase : Nat := 0
  vlim : Nat := 0
  kind : MoveKind := .recall
  /-- a frame once it has one -/
  frame : Option Nat := none
  since : Nat := 0
  ring : Nat := 0
  deriving DecidableEq, Repr

/-- Who asked the range unit for an operation: a warp's scalar, or a queue command. -/
inductive RangeAsker where
  | warp (crew warp sd : Nat)
  | queue (q : Nat) (tag : W32) (note : Bool)
  | release (ctx : Nat)
  deriving DecidableEq, Repr

/-- A request at the range unit (R415, R417), in arrival order. `code`: 1 RSPLIT, 2 RMERGE, 3 RINV, 4 RHINT, 5 RMOVE, 6 RCMPT,
7 RPROBE, 8 STEP. -/
structure RangeReq where
  id : Nat := 0
  ctx : Nat := 0
  core : Nat := 0
  code : Nat := 0
  a : Nat := 0
  b : Nat := 0
  c : Nat := 0
  asker : RangeAsker := .queue 0 0 false
  sys : Bool := true
  /-- since when it has waited for a frame -/
  since : Nat := 0
  begun : Bool := false
  /-- once begun: the VAs it works on, the physical extents it invalidates (R413), and a status other than 0 -/
  lo : Nat := 0
  hi : Nat := 0
  extents : List (Nat × Nat) := []
  status : Nat := 0
  deriving DecidableEq, Repr

/-! ### Rays and treelets -/

/-- An intersection (R293, R311): the bits of t, ids, UV, FRONT, and the keys from the treelet id on. -/
structure RayHit where
  t : W32 := 0
  prim : Nat := 0xFFFFFFFF
  inst : Nat := 0xFFFFFF
  uv : Nat := 0
  front : Bool := false
  keys : List Nat := []
  deriving DecidableEq, Repr

/-- A binding to a version of a treelet (R315), with the size of its storage in 64-byte units. -/
structure RayBind where
  tid : Nat := 0
  ver : Nat := 0
  size : Nat := 0
  deriving DecidableEq, Repr

/-- A continuation entry (R313): the binding left, its short stack (top first: node and pending children), and the far record
entered: its offset / 64 and its bytes. -/
structure RayCont where
  bind : RayBind := {}
  stk : List (Nat × Nat) := []
  far : Nat := 0
  record : List Byte := []
  deriving DecidableEq, Repr

/-- A ray on the memory side (R294-R296, R310-R313): its context and pool id, the stack where it stands, what its record held
at issue, and its progress. -/
structure Ray where
  ctx : Nat := 0
  id : Nat := 0
  stack : Nat := 0
  org : List W32 := []
  dir : List W32 := []
  tmin : W32 := 0
  tmax0 : W32 := 0
  flags : Nat := 0
  tmax : W32 := 0
  best : Option RayHit := none
  /-- the treelet it enters, or visits when bound -/
  tid : Nat := 0
  bind : Option RayBind := none
  /-- the visit of the bound treelet has not begun -/
  fresh : Bool := true
  stk : List (Nat × Nat) := []
  /-- a triangle run under way: the next record's offset and the records left -/
  tri : Option (Nat × Nat) := none
  /-- candidates gathered under .ordered, those to be offered, and the one offered (R296, R319) -/
  gath : List RayHit := []
  offers : List RayHit := []
  cand : Option RayHit := none
  /-- the OTAG its candidate was sent to; whether the stack holds the candidate (R302) -/
  sentTo : W32 := 0
  held : Bool := false
  cont : List RayCont := []
  deriving DecidableEq, Repr

/-- What a ray message is for: a first entry into a treelet, a second admission of a held ray, which may have to be read from a
spill line first (R316, R320), a return to a bound treelet, a return still to be made, or a completion that waits. -/
inductive RayGo where
  | enter
  | again (line : Option Nat)
  | back
  | leave
  | finish (st : Option Nat)
  deriving DecidableEq, Repr

/-- Messages about rays between the stacks, the cores and the view units (R294, R297, R298, R302). Rays by 2^28 * context +
pool id. -/
inductive RayMsg where
  | go (ray : Nat) (what : RayGo)
  | result (ray : Nat) (otag : W32) (words : List W32)
  | candidate (ray : Nat) (otag : W32) (words : List W32)
  | giveBack (ray : Nat) (otag : W32) (words : List W32)
  /-- 1 accept, 2 reject, 3 term -/
  | answer (ray : Nat) (kind : Nat)
  deriving DecidableEq, Repr

/-- An entry of a Damson queue (R318): the ray, whether it is held, and when it arrived. -/
structure QEntry where
  ray : Nat := 0
  held : Bool := false
  since : Nat := 0
  deriving DecidableEq, Repr

/-- The queue of a treelet at a stack (R318): in SRAM, and spilled, each with its spill line and place. -/
structure TQueue where
  entries : List QEntry := []
  spilled : List (Nat × Nat × QEntry) := []
  deriving DecidableEq, Repr

/-- A stack's replica of a root treelet (R317): the version, and its blocks: bytes and whether poisoned, none where the block
did not translate. -/
structure Replica where
  ver : Nat := 0
  blocks : List (Option (List Byte × Bool)) := []
  deriving DecidableEq, Repr

/-! ### Links, stacks and service -/

/-- The states of a port (R467). -/
inductive PortState where
  | down | training | up | degraded | draining
  deriving DecidableEq, Repr

/-- A port of the hub (R461-R468). Times count core cycles. -/
structure Port where
  st : PortState := .down
  /-- when the state was entered -/
  since : Nat := 0
  /-- frames not yet sent, with the times they began to wait, oldest first -/
  waiting : List (Nat × Frame) := []
  /-- frames sent and not acknowledged, in SEQ order -/
  unacked : List Frame := []
  /-- the frames the last step put on the wire -/
  sent : List Frame := []
  txSeq : W16 := 0
  rxSeq : W16 := 0
  /-- credits held, and flits to return, by virtual channel (R465) -/
  credits : List Nat := [0, 0, 0, 0]
  owed : List Nat := [0, 0, 0, 0]
  /-- when ACK last made progress (R466) -/
  ackAt : Nat := 0
  fecc : W32 := 0
  fecu : W32 := 0
  retx : W32 := 0
  drop : W32 := 0
  train : W32 := 0
  /-- the window of R467: when it began, and the counters then -/
  winAt : Nat := 0
  winFecu : W32 := 0
  winRetx : W32 := 0
  deriving DecidableEq, Repr

/-- A series of messages with one token of which the last has not come (R464), by 2^32 * source + token: where its data began,
the bytes performed, and a fault: code and VA. -/
structure Partial where
  va : Nat := 0
  bytes : Nat := 0
  fault : Option (Nat × Nat) := none
  deriving DecidableEq, Repr

/-- A collective that this device has heard of (R476): its set and sequence number, its own command, and of every rank the
operation and count it named and the elements that have come. -/
structure Collective where
  ctx : Nat := 0
  set : Nat := 0
  seq : Nat := 0
  cmd : Option Nat := none
  heads : KV (Nat × Nat) := []
  parts : KV (KV W32) := []
  deriving DecidableEq, Repr

/-- The power states of an HBM4 stack (R438). -/
inductive PowerState where
  | active | self | retention
  deriving DecidableEq, Repr

/-- A request at a channel controller or persistent stack (R426-R428). -/
structure StackReq where
  cls : Nat := 0
  stamp : Nat := 0
  block : Nat := 0
  bank : Nat := 0
  arrived : Nat := 0
  /-- the core that issued it, or none for the stack's own units, or the hub -/
  core : Option Nat := none
  hub : Bool := false
  deriving DecidableEq, Repr

/-- A pseudo-channel (R428, R431, R432): requests in order of arrival, and the bank whose refresh falls due next. -/
structure Channel where
  queue : List StackReq := []
  bank : Nat := 0
  /-- the postponed refreshes of each bank -/
  owed : KV Nat := []
  /-- the banks that a refresh has closed, and when they open -/
  closed : KV Nat := []
  /-- when a forced refresh of all banks ends -/
  forced : Option Nat := none
  lastDue : Nat := 0
  deriving DecidableEq, Repr

/-- An HBM4 stack (R429-R433, R438, R439). -/
structure Stack where
  power : PowerState := .active
  gated : Bool := false
  channels : KV Channel := []
  miss : KV W32 := []
  forced : W32 := 0
  postponed : KV W32 := []
  lastReq : Nat := 0
  /-- when a wake under way ends -/
  waking : Option Nat := none
  /-- the state to go back to after a debugger's wake, and its last access -/
  debugFrom : Option (PowerState × Bool) := none
  debugAt : Nat := 0
  deriving DecidableEq, Repr

/-- A start-gap region's wear state (R435, R436): start, gap, line writes, and the gap moves that are due, of which the first
is being copied. -/
structure Wear where
  start : Nat := 0
  gap : Nat := 65536
  writes : Nat := 0
  due : Nat := 0
  deriving DecidableEq, Repr

/-- A persistent stack (R434-R440, R484). -/
structure PStack where
  online : Bool := true
  draining : Option W32 := none
  queue : List StackReq := []
  wear : KV Wear := []
  deriving DecidableEq, Repr

/-- Where the boot stands (R477): not begun, stopped at a step, or finished. -/
inductive BootState where
  | off | failed (step : Nat) | done
  deriving DecidableEq, Repr

/-- The training record of a stack (R478): its serial number, the settings of its PHY, and the digest over both. -/
structure Training where
  serial : List Byte := []
  settings : List Byte := []
  digest : List Byte := []
  deriving DecidableEq, Repr

/-- The management controller's state (R477-R486). -/
structure Service where
  boot : BootState := .off
  /-- the reserved regions' images: the controller's firmware, the command processors' and the configuration (R19, R479) -/
  firmware : List Byte := []
  processors : List Byte := []
  config : List Byte := []
  /-- a command-processor image staged for FWSWAP -/
  staged : Option (List Byte) := none
  /-- the update under way: its token, the command processor that is being replaced, and the image (R485) -/
  swap : Option (W32 × Nat × List Byte) := none
  /-- the training record in the reserved regions, by stack, the persistent ones under 8 and up (R478) -/
  training : KV Training := []
  /-- the settings that the stacks' PHYs work with (R477, R478) -/
  phys : KV (List Byte) := []
  /-- port 0 is authorised for SYS (R480) -/
  sysPort : Bool := false
  deviceKey : Bool := false
  chain : List (List Byte) := []
  digests : List (List Byte) := []
  /-- where the nine frame rings lie (R409) -/
  rings : KV Nat := []
  deviceId : Nat := 0
  /-- the route table: the port and the MAC address of a device id (R461) -/
  routes : KV Nat := []
  macs : KV Nat := []
  letype : W16 := 0x88B5
  /-- power registers (R481) -/
  pproj : W32 := 0
  penv : W32 := 2200
  plim : KV W32 := []
  limited : Nat := 0
  projAt : Nat := 0
  fsel : W32 := 0
  /-- fences asked for, the first of them under way (R482): cores, token -/
  fences : List (List Nat × W32) := []
  hmiss : KV W32 := []
  deriving DecidableEq, Repr

/-- The debugger's session (R453, R486): the attached context, and the last answer: status word and result words. -/
structure Debugger where
  ctx : Option Nat := none
  status : W32 := 0
  result : List W32 := []
  deriving DecidableEq, Repr

/-- The issuing warp of the instruction under way. -/
structure IssueRef where
  core : Nat := 0
  crew : Nat := 0
  warp : Nat := 0
  deriving DecidableEq, Repr

/-- A device. -/
structure State where
  /-- core cycles since the device's last reset (R25, R460) -/
  now : Nat := 0
  /-- the model's own: steps taken, which select the free values; the moves to come; the instruction being issued -/
  tick : Nat := 0
  agenda : List Move := []
  issuing : Option IssueRef := none
  /-- LLC and DRAM: bytes and block tags by physical address (R197, R198) -/
  mem : List Host.Cell := []
  tags : KV W16 := []
  /-- the capacity tier: bytes and tags by tier byte address (R434, R437) -/
  tier : List Host.Cell := []
  tierTags : KV W16 := []
  /-- the context whose eviction wrote a 2 MiB unit of the tier last (R437) -/
  tierOwner : KV Nat := []
  cores : KV Core := []
  crews : KV Crew := []
  launches : KV Launch := []
  ctxs : KV Context := []
  queues : KV Queue := []
  /-- the queue that a command processor served last at a priority, by 8 * processor + priority, and when it last started a
  command (R360) -/
  cpTurn : KV Nat := []
  cpAt : KV Nat := []
  cmds : KV Command := []
  views : KV View := []
  /-- the core of its 48 that a view unit draws its next record from (R329) -/
  viewTurn : KV Nat := []
  moves : KV UnitMove := []
  /-- the unit whose recall or placement has just failed, while the commands that wait on it are told (R411) -/
  failedUnit : Option (Nat × Nat × Nat) := none
  /-- the placed pieces that were RESIDENT when time last passed, or became so since: context, bounds, and since when (R412) -/
  residentAt : List (Nat × Nat × Nat × Nat) := []
  /-- returned frames whose ring entry is not empty yet: ring, index, frame (R409) -/
  gives : List (Nat × Nat × Nat) := []
  /-- ring entries whose frames a compaction has withdrawn: ring, index (R415, R424) -/
  withdrawn : List (Nat × Nat) := []
  /-- the last moment at which a context was RUNNING (R438) -/
  lastRunning : Nat := 0
  rangeReqs : List RangeReq := []
  /-- rays on the memory side by 2^28 * context + pool id; the messages about them; Damson queues and replicas by
  2^40 * stack + 2^20 * context + treelet; rays ABORTED by R309 by 2^20 * context + treelet -/
  rays : KV Ray := []
  rayMsgs : KV RayMsg := []
  tqueues : KV TQueue := []
  replicas : KV Replica := []
  aborts : KV W32 := []
  ports : KV Port := []
  partials : KV Partial := []
  collectives : List Collective := []
  /-- collective sets by 16 * context + set: device ids in rank order (R476) -/
  collSets : KV (List Nat) := []
  collSeq : KV Nat := []
  stackTab : KV Stack := []
  pstacks : KV PStack := []
  service : Service := {}
  debugger : Debugger := {}
  /-- fresh identifiers: crews, commands, launches, placements and requests -/
  fresh : Nat := 0
  deriving DecidableEq, Repr

/-- The device right after reset. -/
def State.reset : State := {}

end Sys2Proof.Machine
end

