-- ==== Sys2Proof/Machine/Operands.lean ====
section
/-! DEFINITION. The issuing warp, its register files, and every operand form: reading a source (R59-R67), the guard and the
active lanes (R68), full and empty bits (R70-R72), writing a destination and the last-result file (R65). -/

namespace Sys2Proof.Machine

/-! ### Finding a warp -/

/-- A warp of a crew. -/
def getWarp (s : State) (crew warp : Nat) : Option Warp := (kvGet s.crews crew).bind fun c => kvGet c.warps warp

/-- Puts a warp back. -/
def setWarp (s : State) (crew warp : Nat) (wp : Warp) : State :=
  { s with crews := kvMod s.crews crew fun c => { c with warps := kvSet c.warps warp wp } }

def getLaunch (s : State) (id : Nat) : Launch := kvD s.launches id {}
def getCtx (s : State) (id : Nat) : Context := kvD s.ctxs id {}
def getCore (s : State) (id : Nat) : Core := kvD s.cores id {}
def setCore (s : State) (id : Nat) (c : Core) : State := { s with cores := kvSet s.cores id c }
def setCtx (s : State) (id : Nat) (c : Context) : State := { s with ctxs := kvSet s.ctxs id c }
def setLaunch (s : State) (id : Nat) (l : Launch) : State := { s with launches := kvSet s.launches id l }
def modCrew (s : State) (id : Nat) (f : Crew → Crew) : State := { s with crews := kvMod s.crews id f }

/-- The warp that issues an instruction, with its crew, run, path, kernel and active lanes. -/
structure Site where
  ref : IssueRef
  cr : Crew
  wp : Warp
  rn : Run
  pa : Path
  k : Kernel
  act : Mask
  deriving DecidableEq, Repr

/-- The warp that the state's issuing slot names. -/
def siteOf (s : State) : Option Site :=
  match s.issuing with
  | none => none
  | some r =>
    match kvGet s.crews r.crew with
    | none => none
    | some cr =>
      match kvGet cr.warps r.warp with
      | none => none
      | some wp =>
        match wp.run with
        | none => none
        | some rn =>
          match kvGet wp.paths rn.path with
          | none => none
          | some pa => some ⟨r, cr, wp, rn, pa, (getLaunch s cr.launch).kernel, 0⟩

def Site.width (x : Site) : Nat := x.k.width
def Site.prof (x : Site) : Profile := Profile.ofByte x.k.prof
/-- The code offset of the instruction (R161). -/
def Site.tpc (x : Site) : W32 := BitVec.ofNat 32 (x.pa.pc.toNat + 2 ^ 64 - x.k.codeVa)

/-! ### Predicates and guards -/

/-- The mask of a name of the predicate namespace (R64). -/
def predMask (width : Nat) (wp : Warp) (i : Nat) : Mask :=
  if i < 24 then kvD wp.regs.p i 0
  else match i with
  | 24 => wp.regs.fnv
  | 25 => wp.regs.fdz
  | 26 => wp.regs.fof
  | 27 => wp.regs.fuf
  | 28 => wp.regs.fnx
  | 29 => maskBelow width &&& ~~~wp.live
  | 30 => wp.live
  | _ => maskBelow width

/-- The lanes in which a guard is true (R68). -/
def guardMask (width : Nat) (wp : Warp) (g : Guard) : Mask :=
  let side (i : Nat) (n : Bool) : Mask := if n then ~~~(predMask width wp i) else predMask width wp i
  let a := side g.ga.toNat g.gan
  let b := side g.gb.toNat g.gbn
  (if g.gc then a ||| b else a &&& b) &&& maskBelow width

/-- A predicate is empty; only p0-p15 have an empty state (R63, R72). -/
def predEmpty (wp : Warp) (i : Nat) : Bool := wp.regs.pempty.contains i

/-- A name of the predicate namespace is a flag, and an earlier instruction of the warp has yet to write its flags (R44): an
f32 GRED, whose flags are known when its phase completes (R388). -/
def flagPending (wp : Warp) (i : Nat) : Bool := decide (24 ≤ i) && decide (i ≤ 28) && wp.greds.any (·.flags)

/-- A guard waits: a predicate that it names is empty, or a flag pending (R44, R72). -/
def guardEmpty (wp : Warp) (g : Guard) : Bool :=
  [g.ga.toNat, g.gb.toNat].any fun i => predEmpty wp i || flagPending wp i

/-- The lanes of the path that issue its next instruction, before the guard (R68, R446). -/
def pathLanes (wp : Warp) (pa : Path) : Mask := wp.live &&& pa.mask &&& pa.only.getD (~~~0)

/-! ### Reading sources -/

/-- The value that a push gives %spill: the next row above the spilled entries of every live lane (R167). -/
def spillOffset (width : Nat) (wp : Warp) : Nat :=
  4 * width * ((lanesOf wp.live).map fun l => (kvD wp.stackTab l {}).spilled).foldl max 0

/-- A special register's value in a lane (R66). -/
def specialValue (s : State) (x : Site) (n lane : Nat) : Nat :=
  let wp := x.wp
  let it := kvD wp.items lane {}
  match n with
  | 0 => lane
  | 1 => x.width
  | 2 => x.ref.warp
  | 3 => x.cr.num
  | 4 => x.ref.core
  | 5 => x.ref.core / 4
  | 6 => wp.part
  | 7 => it.idx % 2 ^ 32
  | 8 => it.idx / 2 ^ 32 % 256
  | 9 => it.seq.toNat
  | 10 => x.cr.launch % 2 ^ 32
  | 11 => x.cr.ctx
  | 12 => (getCtx s x.cr.ctx).step.toNat
  | 13 => (match x.cr.ydl with | some t => min (t - s.now) 0xFFFFFFFF | none => 0xFFFFFFFF)
  | 14 => (s.now - (getCore s x.ref.core).clkBase) % 2 ^ 64
  | 15 => (let st := kvD wp.stackTab lane {}; st.chip.length + st.spilled)
  | 16 => wp.spill
  | 17 => wp.tcode.toNat
  | 18 => wp.tpc.toNat
  | 19 => wp.tmask.toNat
  | 20 => wp.tva.toNat
  | 21 => wp.sealst.toNat
  | 22 => wp.lat.toNat
  | _ => 0

/-- A 32-bit register of a keyed file, or a pair (R29). -/
def fileValue (m : KV W32) (key next : Nat) (wide : Bool) : Nat :=
  (kvD m key 0).toNat + (if wide then (kvD m next 0).toNat * 2 ^ 32 else 0)

/-- The main register of a lane, or the pair from it. -/
def mainValue (wp : Warp) (r lane : Nat) (wide : Bool) : Nat := fileValue wp.regs.v (64 * r + lane) (64 * (r + 1) + lane) wide
/-- The scalar register, or the pair from it. -/
def scalarValue (wp : Warp) (r : Nat) (wide : Bool) : Nat := fileValue wp.regs.s r (r + 1) wide

/-- The value an operand field names in a lane, before modifiers (R59-R67). -/
def rawValue (s : State) (x : Site) (t : Ty) (wide : Bool) (o : Operand) (lane : Nat) : Nat :=
  let l := if o.lsel = 1 then 0 else lane
  match o.file with
  | .main => mainValue x.wp o.idx.toNat l wide
  | .scalar => scalarValue x.wp o.idx.toNat wide
  | .pred => ((predMask x.width x.wp o.idx.toNat).getLsbD lane).toNat
  | .side =>
    let e := Operand.entry o
    match Operand.side o with
    | 0 => fileValue x.rn.files.opf (64 * e + l) (64 * (e + 1) + l) wide
    | 1 => fileValue x.rn.files.lastf (64 * e + l) (64 * (e + 1) + l) wide
    | 2 => (let v := specialValue s x e lane; if wide then v else v % 2 ^ 32)
    | _ => constValue t e

/-- A source of type t in a lane, with its modifier (R33, R59, R98). -/
def srcValue (s : State) (x : Site) (t : Ty) (o : Operand) (lane : Nat) : Nat :=
  applyMod (Ty.kind t) t o.mod.toNat (rawValue s x t (Ty.wide t) o lane) % 2 ^ srcWidth t

/-- Source B in a lane: the literal when L is 1 (R58). -/
def srcB (s : State) (x : Site) (t : Ty) (w : Enc) (lane : Nat) : Nat :=
  match w.lit with
  | some v => litValue t v
  | none => srcValue s x t w.b lane

/-- Source C in a lane: read from E when L is 1 (R58). -/
def srcC (s : State) (x : Site) (t : Ty) (w : Enc) (lane : Nat) : Nat :=
  srcValue s x t (if w.lit.isSome then w.e else w.c) lane

/-- A warp-wide source B: a scalar, a constant or the literal, read as n32. -/
def uB (s : State) (x : Site) (w : Enc) : Nat := srcB s x .n32 w 0

/-- A predicate source in a lane; MOD 01 inverts it (R98). -/
def predValue (x : Site) (o : Operand) (lane : Nat) : Bool :=
  let b := (predMask x.width x.wp o.idx.toNat).getLsbD lane
  if o.mod = 1 then !b else b

/-- A predicate source's mask over the lanes of the warp. -/
def predSrcMask (x : Site) (o : Operand) : Mask :=
  let m := predMask x.width x.wp o.idx.toNat
  (if o.mod = 1 then ~~~m else m) &&& maskBelow x.width

/-! ### Full and empty bits -/

/-- How many registers of its file a field of a role names, from its index up. -/
def roleCount (width nE : Nat) (r : Role) : Nat :=
  match r with
  | .dst p _ | .src _ p _ => if p then 2 else 1
  | .sdst p => if p.at width then 2 else 1
  | .mdst n p => if p.at width then 2 else n
  | .mblk n _ _ | .sblk n => n
  | .bxBlock four => (if four then 128 else 64) / width
  | .reformBlock => nE
  | .base64 | .spair _ => 2
  | .smask => if width = 64 then 2 else 1
  | _ => 1

/-- The keys of n registers from r in the given lanes. -/
def mainKeys (r n : Nat) (lanes : Mask) : List Nat :=
  ((List.range n).map fun k => (lanesOf lanes).map fun l => 64 * (r + k) + l).flatten

/-- The source lane of SHFL (R180). -/
def shflLane (sub width lane b : Nat) : Nat :=
  let k : Int := match sub with
    | 0 => b
    | 1 => (lane : Int) - b
    | 2 => lane + b
    | _ => (lane ^^^ b : Nat)
  if k < 0 ∨ (width : Int) ≤ k then lane else k.toNat

/-- The source lanes of SHFL's active lanes, by the values that B holds as they stand (R180). -/
def shflLanes (s : State) (x : Site) (w : Enc) : Mask :=
  maskOf ((lanesOf x.act).map fun l => shflLane w.sub.toNat x.width l (srcB s x .n32 w l))

/-- The lanes whose registers a read of operand number k takes: lane 0 for a broadcast (R61), the source lanes for SHFL's A
(R180), else the active lanes. -/
def takenLanes (s : State) (x : Site) (i : Instr) (k : Nat) (o : Operand) : Mask :=
  if o.lsel = 1 then laneBit 0
  else match i with
  | .shfl w => if k = 1 then shflLanes s x w else x.act
  | _ => x.act

/-- The lanes that a read of an operand concerns for full and empty: no vacant lane blocks (R71, R139). -/
def readLanes (s : State) (x : Site) (i : Instr) (k : Nat) (o : Operand) : Mask := takenLanes s x i k o &&& x.wp.live

/-- A field's register is empty in a lane that concerns it. -/
def fieldEmpty (x : Site) (nE : Nat) (r : Role) (o : Operand) (lanes : Mask) : Bool :=
  let n := roleCount x.width nE r
  let i := o.idx.toNat
  match o.file with
  | .main => (mainKeys i n lanes).any fun k => x.wp.regs.vempty.contains k
  | .scalar => (List.range n).any fun k => x.wp.regs.sempty.contains (i + k)
  | .pred => predEmpty x.wp i
  | .side => false

/-- The first register of a field that an uncorrectable error has poisoned (R450): location code and index. -/
def fieldPoison (x : Site) (nE : Nat) (r : Role) (o : Operand) (lanes : Mask) : Option (Nat × Nat) :=
  let n := roleCount x.width nE r
  let i := o.idx.toNat
  match o.file with
  | .main => ((mainKeys i n lanes).find? fun k => x.wp.regs.vpoison.contains k).map fun k => (1, k / 64)
  | .scalar => ((List.range n).find? fun k => x.wp.regs.spoison.contains (i + k)).map fun k => (2, i + k)
  | _ => none

/-- The fields in force for a word, numbered from D. -/
def wordFields (i : Instr) (w : Enc) : List (Nat × Role × Operand) :=
  match shapeOf i with
  | none => []
  | some s => ((fieldsOf (s.eff w.lit.isSome) w).zipIdx).map fun ((r, o, _), k) => (k, r, o)

/-- A tile name is no register (R266). -/
def isRegField (r : Role) (o : Operand) : Bool := r != .tile && o.file != .side

/-- An instruction reads or clears a flag that is still pending (R44, R134). -/
def awaitsFlags (i : Instr) (w : Enc) (x : Site) : Bool :=
  (match i with | .flgclr _ => flagPending x.wp 24 | _ => false) ||
  (wordFields i w).any fun (_, r, o) => r.isSrc && o.file == .pred && flagPending x.wp o.idx.toNat

/-- A source with FEP 0 is empty, a flag it reads is pending, or a destination is empty (R44, R70, R71). -/
def mustWait (i : Instr) (w : Enc) (s : State) (x : Site) : Bool :=
  let nE := (Operand.bits w.e).toNat
  awaitsFlags i w x || (wordFields i w).any fun (k, r, o) =>
    (r.isSrc && !o.fep && isRegField r o && fieldEmpty x nE r o (readLanes s x i k o)) ||
    (r.isDst && isRegField r o && fieldEmpty x nE r o x.act)

/-- The trap of the first source, D to E, that is read while empty with FEP 1, or is poisoned in a lane it is taken from,
vacant or not (R12 step 4, R61, R71, R450). Its mask holds every active lane (the model's choice, log entry 122). -/
def sourceTrap (i : Instr) (w : Enc) (s : State) (x : Site) : Option TrapInfo :=
  let nE := (Operand.bits w.e).toNat
  (wordFields i w).findSome? fun (k, r, o) =>
    if !(r.isSrc && isRegField r o) then none
    else if o.fep && fieldEmpty x nE r o (readLanes s x i k o) then
      some { code := 0x03, tx := BitVec.ofNat 32 k, mask := x.act }
    else match fieldPoison x nE r o (takenLanes s x i k o) with
      | some (loc, n) => some { code := 0x11, tx := BitVec.ofNat 32 (2 ^ 31 + loc * 2 ^ 28 + n), mask := x.act }
      | none => none

/-! ### Writing registers -/

/-- Writes a main register of a lane; the write fills it and clears its poison (R70, R450). -/
def Regs.putMain (r : Regs) (reg lane : Nat) (v : W32) : Regs :=
  { r with v := kvSet r.v (64 * reg + lane) v, vempty := setDel r.vempty (64 * reg + lane),
           vpoison := setDel r.vpoison (64 * reg + lane) }

/-- Writes a scalar register. -/
def Regs.putScalar (r : Regs) (reg : Nat) (v : W32) : Regs :=
  { r with s := kvSet r.s reg v, sempty := setDel r.sempty reg, spoison := setDel r.spoison reg }

/-- Writes a predicate or j mask in the lanes of sel. -/
def Regs.putPred (r : Regs) (i : Nat) (sel v : Mask) : Regs :=
  { r with p := kvSet r.p i (maskMerge sel v (kvD r.p i 0)), pempty := setDel r.pempty i }

/-- Writes a main register or pair of a lane. -/
def Regs.putMainV (r : Regs) (reg lane : Nat) (wide : Bool) (v : Nat) : Regs :=
  let r := r.putMain reg lane (lowWord v)
  if wide then r.putMain (reg + 1) lane (highWord v) else r

/-- Writes a scalar register or pair. -/
def Regs.putScalarV (r : Regs) (reg : Nat) (wide : Bool) (v : Nat) : Regs :=
  let r := r.putScalar reg (lowWord v)
  if wide then r.putScalar (reg + 1) (highWord v) else r

/-- Marks n main registers empty in the given lanes. -/
def Regs.emptyMain (r : Regs) (reg n : Nat) (lanes : Mask) : Regs :=
  { r with vempty := (mainKeys reg n lanes).foldl setIns r.vempty }

/-- Marks n scalar registers empty. -/
def Regs.emptyScalar (r : Regs) (reg n : Nat) : Regs :=
  { r with sempty := (List.range n).foldl (fun m k => setIns m (reg + k)) r.sempty }

def Regs.emptyPred (r : Regs) (i : Nat) : Regs := { r with pempty := setIns r.pempty i }

/-- Ors flags into a lane's sticky flags (R42). -/
def Regs.addFlags (r : Regs) (lane : Nat) (f : FFlags) : Regs :=
  let set (b : Bool) (m : Mask) : Mask := if b then m ||| laneBit lane else m
  { r with fnv := set f.nv r.fnv, fdz := set f.dz r.fdz, fof := set f.of r.fof, fuf := set f.uf r.fuf,
           fnx := set f.nx r.fnx }

def Site.mapRegs (x : Site) (f : Regs → Regs) : Site := { x with wp := { x.wp with regs := f x.wp.regs } }

/-- One shift of the last-result file: f gives every lane's new h0 (R65). -/
def SavedRun.shift (r : SavedRun) (width : Nat) (f : Nat → W32) : SavedRun :=
  { r with lastf := (List.range width).foldl (fun m l =>
      let h (k : Nat) : W32 := kvD r.lastf (64 * k + l) 0
      kvSet (kvSet (kvSet (kvSet m l (f l)) (64 + l) (h 0)) (128 + l) (h 1)) (192 + l) (h 2)) r.lastf }

/-- The last-result file shifts by the content of a per-lane destination: high word first for a pair (R65). -/
def Site.shiftDst (x : Site) (o : Operand) (wide : Bool) : Site :=
  let content (k l : Nat) : W32 :=
    match o.file with
    | .main => kvD x.wp.regs.v (64 * (o.idx.toNat + k) + l) 0
    | _ => kvD x.rn.files.opf (64 * (Operand.entry o + k) + l) 0
  let f := if wide then x.rn.files.shift x.width (content 1) else x.rn.files
  { x with rn := { x.rn with files := f.shift x.width (content 0) } }

/-- Writes the values of lanes to a main, scalar or operand-file destination: a scalar takes the first one (R69). -/
def Site.writeDst (x : Site) (o : Operand) (wide : Bool) (vals : List (Nat × Nat)) : Site :=
  match o.file with
  | .scalar => (match vals with
    | [] => x
    | (_, v) :: _ => x.mapRegs fun r => r.putScalarV o.idx.toNat wide v)
  | .main => x.mapRegs fun r => vals.foldl (fun r (l, v) => r.putMainV o.idx.toNat l wide v) r
  | .side =>
    let e := Operand.entry o
    let opf := vals.foldl (fun m (l, v) =>
      let m := kvSet m (64 * e + l) (lowWord v)
      if wide then kvSet m (64 * (e + 1) + l) (highWord v) else m) x.rn.files.opf
    { x with rn := { x.rn with files := { x.rn.files with opf := opf } } }
  | .pred => x

/-- Writes a destination of an instruction whose results land at issue, and shifts the last-result file (R65). -/
def Site.putDst (x : Site) (o : Operand) (wide : Bool) (vals : List (Nat × Nat)) : Site :=
  let x := x.writeDst o wide vals
  if o.file = .scalar ∨ o.file = .pred then x else x.shiftDst o wide

/-- Writes a predicate destination in every active lane (R72). -/
def Site.putPred (x : Site) (o : Operand) (v : Mask) : Site := x.mapRegs fun r => r.putPred o.idx.toNat x.act v

/-- Writes one truth value to a predicate in every active lane. -/
def Site.putBit (x : Site) (o : Operand) (b : Bool) : Site := x.putPred o (if b then ~~~0 else 0)

/-- A destination that an access in flight will fill. -/
def destOf (o : Operand) (wide : Bool) : Dest :=
  match o.file with
  | .scalar => .scalar o.idx.toNat wide
  | _ => .main o.idx.toNat wide

/-- Marks a destination in flight empty (R70). -/
def Regs.emptyDest (r : Regs) (d : Dest) (lanes : Mask) : Regs :=
  match d with
  | .none => r
  | .main reg wide => r.emptyMain reg (if wide then 2 else 1) lanes
  | .scalar reg wide => r.emptyScalar reg (if wide then 2 else 1)

/-- Fills a destination in flight: a lane's value, or the scalar's. -/
def Regs.fillDest (r : Regs) (d : Dest) (lane : Nat) (v : Nat) : Regs :=
  match d with
  | .none => r
  | .main reg wide => r.putMainV reg lane wide v
  | .scalar reg wide => r.putScalarV reg wide v

end Sys2Proof.Machine
end

