-- ==== Sys2Proof/Machine/Paths.lean ====
section
/-! DEFINITION. The path table of a warp (R158): merging at JOIN, at the release of JWAIT and at forced reconvergence
(R170, R171, R178), splitting (R160), lanes that become vacant, and the return from a trap entry (R446). -/

namespace Sys2Proof.Machine

/-- Entries of a path table (R158). -/
def maxPaths : Nat := 16

/-- The lanes of some paths. -/
def unionMask (l : List (Nat × Path)) : Mask := l.foldl (fun m e => m ||| e.2.mask) 0

/-- Merges paths into the entry of the one that holds the lowest lane. -/
def mergePaths (ps : KV Path) (l : List (Nat × Path)) (f : Path → Path) : KV Path :=
  match pickMin (fun a b => decide (lowLane a.2.mask < lowLane b.2.mask)) l with
  | none => ps
  | some (k, p) => kvSet (l.foldl (fun m e => kvDel m e.1) ps) k (f { p with mask := unionMask l })

/-- A path released from a JOIN or JWAIT: READY after it. -/
def releasedPath (p : Path) : Path := { p with pc := p.pc + 16, st := .ready, resume := none }

/-- The PCs of some paths, without repeats. -/
def pathPcs (l : List (Nat × Path)) : List Nat := l.foldl (fun m e => setIns m e.2.pc.toNat) []

def atPc (l : List (Nat × Path)) (pc : Nat) : List (Nat × Path) := l.filter fun e => e.2.pc.toNat == pc

/-- The live lanes of a j mask. -/
def liveJ (wp : Warp) (j : Nat) : Mask := kvD wp.regs.p (16 + j) 0 &&& wp.live

/-- The merge at a JOIN on j that is due, if any (R170). -/
def joinDue (wp : Warp) (j : Nat) : Option (KV Path) :=
  let parked := wp.paths.filter fun e => e.2.st == .parkedJoin j
  ((pathPcs parked).find? fun pc => unionMask (atPc parked pc) == liveJ wp j).map fun pc =>
    mergePaths wp.paths (atPc parked pc) releasedPath

/-- The release of the paths parked at a JWAIT on j, if due (R171). -/
def jwaitDue (wp : Warp) (j : Nat) : Option (KV Path) :=
  let rel := wp.paths.filter fun e => e.2.st == .parkedWait j
  let all := wp.paths.filter fun e => e.2.st == .parkedWait j || e.2.st == .parkedJoin j
  if !rel.isEmpty && (liveJ wp j &&& ~~~unionMask all) == 0 then
    some ((pathPcs rel).foldl (fun ps pc => mergePaths ps (atPc rel pc) releasedPath) wp.paths)
  else none

/-- Tests every JOIN and JWAIT of a warp until none is due. -/
def settleJoins : Nat → Warp → Warp
  | 0, wp => wp
  | fuel + 1, wp =>
    match (List.range 8).findSome? fun j => (joinDue wp j).orElse fun _ => jwaitDue wp j with
    | some ps => settleJoins fuel { wp with paths := ps }
    | none => wp

/-- A path that a split made while R160 left a group at the branch, and that stands at that branch again between two runs. -/
def backAtBranch (wp : Warp) (e : Nat × Path) (q : Nat × Path) : Bool :=
  q.2.stay && e.1 != q.1 && e.2.pc == q.2.pc && e.2.splitFrom == some q.2.pc && (e.2.st == .ready || e.2.st == .noEntry) &&
  e.2.resume.isNone && (match wp.run with | some r => r.path != e.1 && r.path != q.1 | none => true)

/-- A split path that re-reaches the branch merges with the group left there (R158; log entry 121). -/
def settleStays (wp : Warp) : Warp :=
  { wp with paths := (wp.paths.filter fun q => q.2.stay).foldl (fun ps q =>
      let back := wp.paths.filter fun e => (kvGet ps e.1).isSome && backAtBranch wp e q
      if back.isEmpty then ps
      else kvMod (back.foldl (fun m e => kvDel m e.1) ps) q.1 fun p => { p with mask := p.mask ||| unionMask back }) wp.paths }

/-- A path that waits for a free entry is READY once there is one (R160). -/
def settleEntries (wp : Warp) : Warp :=
  if wp.paths.length < maxPaths then
    { wp with paths := kvMap wp.paths fun _ (p : Path) => if p.st = PathState.noEntry then { p with st := .ready } else p }
  else wp

/-- A path that does not hold back a warp-wide instruction (R178). -/
def PathState.still : PathState → Bool
  | .parkedJoin _ | .parkedWait _ | .reconverge | .atTret => true
  | _ => false

/-- The release at a warp-wide instruction: the paths that wait at one PC merge, and execute in ascending order (R178). -/
def settleReconverge (wp : Warp) : Warp :=
  let waiting := wp.paths.filter fun e => e.2.st == .reconverge
  if !waiting.isEmpty && wp.paths.all fun e => e.2.st.still then
    { wp with
      paths := (pathPcs waiting).foldl (fun ps pc =>
        mergePaths ps (atPc waiting pc) fun p => { p with st := .ready, reconv := true }) wp.paths
      lastLow := none, afterSplit := [], readySince := none }
  else wp

/-- The lanes that an atomic left on POISON blocks are issued again, those still live: the entry stands first in the store queue
and their destinations are empty (R213, R446). -/
def Warp.againEntry (wp : Warp) (e : StoreEntry) : Warp :=
  let lanes := e.lanes.filter fun a => wp.live.getLsbD a.lane
  if lanes.isEmpty then wp
  else { wp with storeQ := { e with lanes := lanes } :: wp.storeQ
                 regs := wp.regs.emptyDest e.dst (maskOf (lanes.map (·.lane))) }

/-- The warp after TRAP.tret (R446): the set-aside table is active again, with the lanes still live; a live lane of no
set-aside path joins the trapping path. The path that ran last is the handler's (R159). -/
def leaveHandler (wp : Warp) (h : Handler) : Warp :=
  let kept := kvMap h.paths fun _ (p : Path) => { p with mask := p.mask &&& wp.live }
  let joined := wp.live &&& ~~~unionMask kept
  let kept := kvMod kept h.path fun (p : Path) => { p with mask := p.mask ||| joined }
  let wp := { wp with paths := kvFilter kept fun _ p => p.mask != 0
                      handler := none, run := none, afterSplit := [], readySince := none }
  match h.entry with
  | none => wp
  | some e => wp.againEntry e

/-- The return of a handler all of whose paths wait at a TRAP.tret (R446). -/
def settleTret (wp : Warp) : Warp :=
  match wp.handler with
  | none => wp
  | some h =>
    if !wp.paths.isEmpty && wp.paths.all fun e => e.2.st == .atTret then settleJoins 20 (leaveHandler wp h) else wp

/-- Tests every wait of a warp's paths. -/
def settlePaths (wp : Warp) : Warp := settleReconverge (settleEntries (settleStays (settleTret (settleJoins 20 wp))))

/-- Whether a warp-wide instruction of a path must wait for the other paths (R178): none of them may be running, ready or
waiting for reconvergence, unless the path was just released. -/
def mustReconverge (wp : Warp) (k : Nat) (p : Path) : Bool :=
  !p.reconv && wp.paths.any fun e => e.1 != k && !(match e.2.st with
    | .parkedJoin _ | .parkedWait _ => true
    | _ => false)

/-! ### Vacancy -/

/-- Removes lanes from every path of a table; an entry left without lanes is freed (R158). -/
def dropLanes (ps : KV Path) (m : Mask) : KV Path :=
  kvFilter (kvMap ps fun _ (p : Path) => { p with mask := p.mask &&& ~~~m }) fun _ p => p.mask != 0

/-- Makes lanes vacant: they leave their paths, the set-aside paths too, and a wholly vacant warp leaves handler mode
(R148, R158, R445). -/
def vacate (wp : Warp) (m : Mask) : Warp :=
  let live := wp.live &&& ~~~m
  { wp with
    live := live
    paths := dropLanes wp.paths m
    stackTab := (lanesOf m).foldl kvDel wp.stackTab
    handler := if live = 0 then none else wp.handler.map fun h =>
      { h with paths := kvMap h.paths fun _ (p : Path) => { p with mask := p.mask &&& ~~~m } } }

/-! ### Splitting -/

/-- The groups of a control transfer, in the order of their lowest lane (R160): the active lanes by target, and the others
to the fall-through; lanes that all go to one place are one group. -/
def splitGroups (targets : List (Nat × W64)) (rest : Mask) (fall : W64) : List (W64 × Mask) :=
  let add (gs : List (W64 × Mask)) (e : Nat × W64) : List (W64 × Mask) :=
    if gs.any fun g => g.1 == e.2 then gs.map fun g => if g.1 = e.2 then (g.1, g.2 ||| laneBit e.1) else g
    else gs ++ [(e.2, laneBit e.1)]
  let gs := targets.foldl add []
  if rest = 0 then gs
  else if gs.all fun g => g.1 == fall then [(fall, gs.foldl (fun m g => m ||| g.2) rest)]
  else
    let low := lowLane rest
    gs.filter (fun g => decide (lowLane g.2 < low)) ++ [(fall, rest)] ++ gs.filter (fun g => decide (low < lowLane g.2))

/-- What R160 makes of the groups with F free entries: the groups that become paths, and the lanes that stay. -/
def splitPlan (gs : List (W64 × Mask)) (free : Nat) : List (W64 × Mask) × Mask :=
  if gs.length ≤ free + 1 then (gs, 0)
  else (gs.take free, (gs.drop free).foldl (fun m g => m ||| g.2) 0)

/-- The free entries of a path table, ascending. -/
def freeEntries (ps : KV Path) : List Nat := (List.range maxPaths).filter fun k => (kvGet ps k).isNone

/-- The path table after a plan is carried out on entry k at a PC, with the entries made. A path keeps the branch it was split
from until a later branch leaves lanes behind. -/
def applyPlan (ps : KV Path) (k : Nat) (pc : W64) (plan : List (W64 × Mask) × Mask) : KV Path × List Nat :=
  let since := if plan.2 = 0 then (kvGet ps k).bind (·.splitFrom) else some pc
  let mk (g : W64 × Mask) : Path := { pc := g.1, mask := g.2, splitFrom := since }
  let free := freeEntries ps
  if plan.2 = 0 then
    match plan.1 with
    | [] => (ps, [])
    | g :: rest =>
      let es := free.zip rest
      (es.foldl (fun m e => kvSet m e.1 (mk e.2)) (kvSet ps k (mk g)), k :: es.map (·.1))
  else
    let es := free.zip plan.1
    let stay : Path := { pc := pc, mask := plan.2, st := if es.isEmpty then .noEntry else .ready, stay := true }
    (es.foldl (fun m e => kvSet m e.1 (mk e.2)) (kvSet ps k stay), k :: es.map (·.1))

end Sys2Proof.Machine
end

