-- ==== Sys2Proof/Config.lean ====
section
/-! DEFINITION. What an implementation fixes and the values the spec leaves open. Every constant here is opaque: nothing
can evaluate it, so a statement holds whatever it is. -/

namespace Sys2Proof.Config

open Sys2Proof.Machine

/-- The move that comes next when no move is listed: which agent acts when is left open (R145, R222). -/
opaque environment : Nat → Move

/-- The L1 way that takes a new sector, by the number of fills of the core (R191, R195). -/
opaque fillWay : Nat → Nat

/-- A value the spec does not state, by the free-value counter. -/
opaque freeWord : Nat → W32

/-- Whether the old value of a word is met: of an aligned 8-byte word of scratch that a lane and a command in flight access (R234),
of an aligned 4-byte word of code that was written since it was fetched (R209). By the free-value counter and the word. -/
opaque meetsOld : Nat → Nat → Bool

/-- The level of detail where R337 clamps to an empty interval, by the record and the coordinates. -/
opaque emptyClamp : List Byte → List W32 → Nat

/-- SHAKE256 to 64 bytes (R479, R480). -/
opaque shake256 : List Byte → List Byte

/-- Falcon-1024 (R479, R480): a signature of a digest verifies under the vendor key; the device key's signature. -/
opaque falconVerify : List Byte → List Byte → Bool
opaque falconSign : List Byte → List Byte

/-- The header of a firmware image (R479), whose layout the spec does not give: kind (0 controller, 1 command processor,
2 configuration), version, body, the digest and signature the header carries, and the vendor key's match. -/
opaque imageKind : List Byte → Nat
opaque imageVersion : List Byte → Nat
opaque imageBody : List Byte → List Byte
opaque imageDigest : List Byte → List Byte
opaque imageSignature : List Byte → List Byte
opaque imageKeyMatches : List Byte → Bool
/-- Whether a configuration names port 0 as authorised for SYS (R480). -/
opaque configNamesPort0 : List Byte → Bool
/-- The fused minimum version of an image kind, the ROM identity and the device's serial (R479, R480). -/
opaque fusedMinimum : Nat → Nat
opaque romIdentity : List Byte
opaque serial : List Byte
/-- The device id and the route table that bring-up sets (R461): the port of a device id. -/
opaque deviceId : Nat
opaque routePort : Nat → Option Nat
/-- The MAC address that the route table gives a device id (R461). -/
opaque routeMac : Nat → Nat
/-- A stack's serial number, the settings that a full training of its PHY finds at a moment, and whether its restored link passes its
first check pattern (R478). The persistent stacks stand under 8 and up. -/
opaque stackSerial : Nat → List Byte
opaque phySettings : Nat → Nat → List Byte
opaque patternPasses : Nat → Nat → Bool
/-- The host's id on port 0, which the spec does not give. -/
opaque hostId : Nat
/-- The message type of an empty frame that is no NAK, which R462 and R466 do not give. -/
opaque emptyType : Nat
/-- The reason byte of a host operation refused by a check whose reason the spec does not give, by its code (R471). -/
opaque refusalReason : Nat → Nat
/-- The banks of a pseudo-channel, which the spec does not count (R431). -/
opaque banks : Nat
/-- The images of the reserved region as shipped (R480, R485): command processors and configuration. -/
opaque shippedProcessors : List Byte
opaque shippedConfig : List Byte
/-- Whether a step of the boot other than an image check passes (R477). -/
opaque bootStepPasses : Nat → Nat → Bool
/-- Where the management controller places the frames of the rings at boot (R409, R477): ring, then the frames' PAs; and the
rings' own place. -/
opaque ringFrames : Nat → List Nat
opaque ringBase : Nat → Nat

end Sys2Proof.Config
end

