-- ==== Sys2Proof/Machine/Wire.lean ====
section
/-! DEFINITION. Sending frames on a port (R462-R466), the notices and answers to the host (R470, R471), and the posting of
asynchronous records (R448). -/

namespace Sys2Proof.Machine

def getPort (s : State) (p : Nat) : Port := kvD s.ports p {}
def setPort (s : State) (p : Nat) (x : Port) : State := { s with ports := kvSet s.ports p x }

/-- A frame with no content. -/
def emptyFrame : Frame :=
  { mtype := 0, vc := 0, src := 0, dst := 0, nfl := 0, seq := 0, ack := 0, crd := [0, 0, 0, 0], raux := [], raddr := 0,
    rlen := 0, rtok := 0, rset := 0, rop := 0, rphys := false, rlast := true, rctx := 0, rsrc := 0, reservedZero := true,
    data := [] }

/-- The virtual channel of a message type (R463). -/
def vcOf (t : Nat) : Nat :=
  if t = 3 ∨ t = 5 ∨ t = 6 ∨ t = 10 then 1 else if t = 7 then 2 else if 11 ≤ t then 3 else 0

/-- Flits of a message: types 1-10 have a first flit before their data; the others are their data (R464, R470, R471). -/
def flitsOf (t len : Nat) : Nat := if t ≤ 10 then 1 + (len + 63) / 64 else (len + 63) / 64

/-- Pads a list of bytes with zeros to n. -/
def padTo (n : Nat) (l : List Byte) : List Byte := l ++ List.replicate (n - l.length) 0

/-! ### The layout of a frame (R462, R464) -/

/-- The 16-byte header. -/
def frameHeader (f : Frame) : List Byte :=
  leBytes 1 1 ++ leBytes 1 0 ++ leBytes 1 (f.vc + 4 * f.mtype) ++ leBytes 1 f.nfl ++ leBytes 2 f.src ++ leBytes 2 f.dst ++
    leBytes 2 f.seq.toNat ++ leBytes 2 f.ack.toNat ++ ((List.range 4).map fun v => leBytes 1 (f.crd.getD v 0)).flatten

/-- The first flit of a message of types 1 to 10. -/
def firstFlit (f : Frame) : List Byte :=
  leBytes 4 f.rsrc ++ leBytes 4 f.rctx ++ leBytes 8 0 ++ leBytes 1 (f.rphys.toNat + 2 * f.rlast.toNat) ++ leBytes 1 f.rop ++
    leBytes 2 f.rset ++ leBytes 4 0 ++ leBytes 4 f.rtok.toNat ++ leBytes 4 f.rlen ++ leBytes 8 f.raddr ++ leBytes 8 0 ++
    padTo 16 (f.raux.take 16)

/-- The payload of the Ethernet frame. -/
def frameBytes (f : Frame) : List Byte :=
  frameHeader f ++ if f.nfl = 0 then [] else
    (if f.mtype ≤ 10 then firstFlit f else []) ++ padTo ((f.data.length + 63) / 64 * 64) f.data

/-- Whether a first flit has zero in every byte and bit that R464 leaves zero for its type. -/
def flitReserved (t : Nat) (b : List Byte) : Bool :=
  let n (lo k : Nat) : Nat := leNat ((b.drop lo).take k)
  decide (n 0 4 < 4096) && decide (n 4 4 < 64) && n 8 8 == 0 && decide (n 16 1 < 4) && n 20 4 == 0 && n 40 8 == 0 &&
  (if t = 4 then decide (n 17 1 < 2) && n 56 8 == 0
   else if t = 6 then n 17 1 == 0 && n 49 3 == 0
   else if t = 7 then n 17 1 / 8 % 2 == 0 && n 60 4 == 0
   else n 17 1 == 0 && n 48 16 == 0) &&
  (if t = 7 then decide (n 18 2 < 16) else n 18 2 == 0) &&
  ((t != 3 && t != 5 && t != 6 && t != 7 && t != 10) || n 32 8 == 0) && ((t != 4 && t != 5 && t != 6) || n 28 4 == 0)

/-- The frame that the bytes of a payload hold. A message's data ends with its byte count, where it has one. -/
def frameOfBytes (b : List Byte) : Frame :=
  let n (lo k : Nat) : Nat := leNat ((b.drop lo).take k)
  let t := n 2 1 / 4
  let head := decide (1 ≤ t ∧ t ≤ 10 ∧ n 3 1 % 32 ≠ 0)
  let m (lo k : Nat) : Nat := if head then n (16 + lo) k else 0
  let data := (b.drop (if head then 80 else 16)).take (64 * (n 3 1 % 32 - head.toNat))
  { mtype := t, vc := n 2 1 % 4, src := n 4 2 % 4096, dst := n 6 2 % 4096, nfl := n 3 1 % 32
    seq := BitVec.ofNat 16 (n 8 2), ack := BitVec.ofNat 16 (n 10 2), crd := (List.range 4).map fun v => n (12 + v) 1
    raux := if head then (b.drop 64).take 16 else [], raddr := m 32 8, rlen := m 28 4, rtok := BitVec.ofNat 32 (m 24 4)
    rset := m 18 2, rop := m 17 1, rphys := (m 16 1).testBit 0, rlast := (m 16 1).testBit 1, rctx := m 4 4 % 64, rsrc := m 0 4 % 4096
    reservedZero := !head || flitReserved t (b.drop 16)
    data := if [1, 3, 7, 8, 10].contains t then data.take (m 28 4) else data }

/-- Whether a port carries traffic (R467). -/
def PortState.flows : PortState → Bool
  | .up | .degraded => true
  | _ => false

/-- The credits that a frame returns: a byte for each virtual channel (R462). -/
def Port.returns (p : Port) : List Nat := p.owed.map fun n => min n 255

/-- A port whose credits of a frame have been returned. -/
def Port.returned (p : Port) : Port := { p with owed := p.owed.map fun n => n - 255 }

/-- Sends the waiting frames that the credits allow, in order on each virtual channel: (still waiting, sent, port) (R465). -/
def sendWaiting : List (Nat × Frame) → List Nat → Port → List (Nat × Frame) × List Frame × Port
  | [], _, p => ([], [], p)
  | (t, f) :: rest, held, p =>
    let c := p.credits.getD f.vc 0
    if held.contains f.vc || decide (c < f.nfl) then
      let (wt, sent, p) := sendWaiting rest (f.vc :: held) p
      ((t, f) :: wt, sent, p)
    else
      let seq := p.txSeq + 1
      let f := { f with seq := seq, ack := p.rxSeq, crd := p.returns }
      let (wt, sent, p) := sendWaiting rest held { p.returned with txSeq := seq, credits := p.credits.set f.vc (c - f.nfl) }
      (wt, f :: sent, p)

/-- Sends what a port can send now. -/
def pumpPort (s : State) (n : Nat) : State :=
  let p := getPort s n
  if p.st.flows then
    let (wt, sent, p) := sendWaiting p.waiting [] p
    let p := { p with waiting := wt, sent := p.sent ++ sent, unacked := p.unacked ++ sent,
                      ackAt := if p.unacked.isEmpty then s.now else p.ackAt }
    setPort s n p
  else s

/-- A frame as this device addresses it (R461). -/
def addressed (s : State) (f : Frame) : Frame :=
  { f with src := s.service.deviceId, etype := s.service.letype.toNat, mac := kvD s.service.macs f.dst 0 }

/-- Gives a frame to a port. -/
def sendFrame (s : State) (n : Nat) (f : Frame) : State :=
  let p := getPort s n
  let f := addressed s { f with vc := vcOf f.mtype, nfl := flitsOf f.mtype f.data.length }
  pumpPort (setPort s n { p with waiting := p.waiting ++ [(s.now, f)] }) n

/-- Sends an empty frame of a type, which carries ACK and CRD and takes no SEQ (R462); a NAK has type 0 (R466). -/
def sendEmpty (s : State) (n t : Nat) : State :=
  let p := getPort s n
  let f := addressed s { emptyFrame with mtype := t, ack := p.rxSeq, crd := p.returns }
  setPort s n { p.returned with sent := p.sent ++ [f] }

/-- A port that receives frames (R467). -/
def PortState.hears : PortState → Bool
  | .up | .degraded | .draining => true
  | _ => false

/-- Acts on good frames in their turn: SEQ advances, their flits are owed as credits, and an acknowledgement goes out
(R462, R465, R466). -/
def takeFrames (s : State) (n frames vc flits : Nat) : State :=
  let p := getPort s n
  let p := { p with rxSeq := p.rxSeq + BitVec.ofNat 16 frames, owed := p.owed.set vc (p.owed.getD vc 0 + flits) }
  let s := pumpPort (setPort s n p) n
  if (getPort s n).owed.all (· == 0) then s else sendEmpty s n (Config.emptyType % 64)

/-- Sends a message of one flit or more to the host. -/
def sendHost (s : State) (t : Nat) (bytes : List Byte) : State :=
  sendFrame s 0 { emptyFrame with mtype := t, dst := Config.hostId % 4096, data := bytes }

/-- The first flit of a notice: kind, context, and the bytes from 5 up (R470). -/
def noticeFlit (kind ctx : Nat) (rest : List Byte) : List Byte :=
  padTo 64 (leBytes 4 kind ++ leBytes 1 ctx ++ rest)

/-- A completion notice (R470). -/
def noticeDone (s : State) (ctx queue : Nat) (tag completed : W32) : State :=
  sendHost s 14 (noticeFlit 1 ctx ([0] ++ leBytes 2 queue ++ leBytes 4 tag.toNat ++ leBytes 4 completed.toNat))

/-- A residency notice (R470). -/
def noticeResidency (s : State) (ctx launch crew va reason : Nat) : State :=
  sendHost s 14 (noticeFlit 2 ctx ([0, 0, 0] ++ leBytes 4 launch ++ leBytes 2 crew ++ [0, 0] ++ leBytes 8 va ++
    leBytes 1 reason))

/-- The answer to a host control operation (R471). -/
def answer (s : State) (op status reason : Nat) (tok : W32) (result : List Byte) : State :=
  sendHost s 12 (padTo 64 (leBytes 2 op ++ leBytes 1 status ++ leBytes 1 reason ++ leBytes 4 tok.toNat ++ result))

/-- What the message of an operation comes to: it is acted on, or what it names must be waited for and it is not yet accepted. -/
inductive Arrival where
  | taken (s : State)
  | later (s : State)
  deriving DecidableEq, Repr

/-- A host message of so many flits arrives on port 0. After a failed boot every control operation is answered with status 2 and
the step (R477); `who`: its code and token. -/
def hostTry (s : State) (flits : Nat) (who : Option (Nat × W32)) (op : State → Arrival) : State :=
  if !PortState.hears (getPort s 0).st then s
  else
    let take (s : State) : State := takeFrames s 0 ((flits + 15) / 16) 3 flits
    match s.service.boot, who with
    | .failed step, some (code, tok) => take (answer s code 2 step tok [])
    | _, _ => (match op s with
      | .taken s => take s
      | .later s => s)

/-- A host operation that never waits (R469, R471). -/
def hostOp (s : State) (flits : Nat) (who : Option (Nat × W32)) (op : State → State) : State :=
  hostTry s flits who fun s => .taken (op s)

/-- The 64 bytes of a record. -/
def recordBytes (r : TrapRecord) : List Byte := (r.map fun w => leBytes 4 w.toNat).flatten

/-- Posts an asynchronous record of a context: its error log and the notice to the host (R448). -/
def postRecord (s : State) (ctx : Nat) (r : TrapRecord) : State :=
  let c := kvD s.ctxs ctx {}
  let c := { c with errlog := kvSet c.errlog (c.errcnt.toNat % 16) r, errcnt := c.errcnt + 1 }
  sendHost { s with ctxs := kvSet s.ctxs ctx c } 14 (noticeFlit 3 ctx [] ++ recordBytes r)

/-- The fields of a trap record (R442). -/
structure RecordFields where
  code : Nat := 0
  kind : Nat := 0
  tx : W32 := 0
  tpc : W32 := 0
  mask : Mask := 0
  va : Nat := 0
  pend : Nat := 0
  flg : Nat := 0
  trun : Nat := 0
  core : Nat := 0xFFFF
  ctx : Nat := 0
  warp : Nat := 0
  crew : Nat := 0
  launch : Nat := 0
  clk : Nat := 0
  deriving DecidableEq, Repr

/-- The sixteen words of a trap record (R442). -/
def RecordFields.words (f : RecordFields) : TrapRecord :=
  let w (n : Nat) : W32 := BitVec.ofNat 32 n
  [w (f.code + 256 * f.kind), 0, f.tx, f.tpc, lowWord f.mask.toNat, highWord f.mask.toNat, lowWord f.va, highWord f.va,
   w f.pend, w (f.flg + 2 ^ 8 * f.trun + 2 ^ 16 * f.core), w (f.ctx + 2 ^ 8 * f.warp + 2 ^ 16 * f.crew), w f.launch,
   0, 0, lowWord f.clk, highWord f.clk]

/-- Posts a record of an agent that is no core (R449). -/
def postAgent (s : State) (ctx kind code va : Nat) (tx : Nat) (warp : Nat := 0) : State :=
  postRecord s ctx
    ({ code := code, kind := kind, tx := BitVec.ofNat 32 tx, va := va, flg := 1, ctx := ctx, warp := warp } : RecordFields).words

end Sys2Proof.Machine
end

