-- ==== Sys2Proof/Machine/Ops.lean ====
section
/-! DEFINITION. What every Zorsis instruction shares: the checks before its meaning (R12, R68-R72), how it advances, waits
and ends its run (R74, R75, R141), taking a trap (R441-R447) and returning from one (R446). -/

namespace Sys2Proof.Machine

/-! ### Trap records and routes -/

/-- The record of a trap on a warp (R442). -/
def trapRecord (s : State) (x : Site) (t : TrapInfo) (flg : Nat) : TrapRecord :=
  ({ code := t.code, kind := t.kind, tx := t.tx, tpc := t.tpc, mask := t.mask, va := t.va, flg := flg,
     trun := t.trun, core := x.ref.core, ctx := x.cr.ctx, warp := x.ref.warp, crew := x.cr.num, launch := x.cr.launch,
     clk := s.now - (getCore s x.ref.core).clkBase } : RecordFields).words

/-- Saves that a non-preemptible region holds back (R176). -/
def SaveWhy.waits : SaveWhy → Bool
  | .slice | .migration | .suspend | .fencing => true
  | _ => false

/-- A resident crew with one more reason to be saved: the first stands, but one that a region holds back gives way to one that no
region does (R176, R408, R411). -/
def Crew.ask (c : Crew) (why : SaveWhy) : Crew :=
  let stands := match c.saveWhy with
    | none => false
    | some w => !(w.waits && !why.waits)
  if c.phase = .resident ∧ stands = false then { c with saveWhy := some why } else c

/-- Asks for a crew to be saved. -/
def askSave (s : State) (crew : Nat) (why : SaveWhy) : State := modCrew s crew fun c => c.ask why

/-- The threads of a warp that hold a version (R376): the live ones, but those whose pending trap has discarded theirs. -/
def Warp.versionLanes (wp : Warp) : Mask :=
  match wp.pendingTrap with
  | some t => if t.code = 0x03 then wp.live else wp.live &&& ~~~t.mask
  | none => wp.live

/-- A filed thread without its version. -/
def BinThread.unversioned (t : BinThread) : BinThread := { t with version := none }
def Bin.unversioned (b : Bin) : Bin := { b with threads := b.threads.map BinThread.unversioned }

def Warp.unversioned (wp : Warp) : Warp :=
  { wp with versions := [], filing := wp.filing.map fun (l, pc, vb, n, t) => (l, pc, vb, n, t.unversioned) }

/-- The threads of a launch that hold versions: in its crews, in the images of their bins, and in the bins of cores. -/
def versionCount (s : State) (launch : Nat) : Nat :=
  let bin (n : Nat) (b : Bin) : Nat := if b.launch = launch then n + b.threads.length else n
  let n := s.crews.foldl (fun n (_, c) =>
    if c.launch = launch ∧ c.phase ≠ CrewPhase.retired then
      c.bins.foldl bin (c.warps.foldl (fun n (_, wp) => n + maskCount wp.versionLanes) n)
    else n) 0
  s.cores.foldl (fun n (_, c) => c.bins.foldl (fun n e => bin n e.2) n) n

/-- The versions of every versioned launch of a context are discarded and counted: its launches have stopped (R378, R451). -/
def dropVersions (s : State) (ctx : Nat) : State :=
  let mine (k : Nat) : Bool := let l := getLaunch s k; l.vers && l.ctx == ctx
  { s with
    launches := kvMap s.launches fun k (l : Launch) =>
      if mine k then { l with discards := l.discards + BitVec.ofNat 32 (versionCount s k) } else l
    crews := kvMap s.crews fun _ (c : Crew) =>
      if mine c.launch then { c with warps := kvMap c.warps fun _ (wp : Warp) => wp.unversioned, bins := c.bins.map Bin.unversioned } else c
    cores := kvMap s.cores fun _ (c : Core) =>
      { c with bins := kvMap c.bins fun _ (b : Bin) => if mine b.launch then b.unversioned else b } }

/-- A queue whose context has become FAULTED, whatever its state (R357). -/
def Queue.ctxFaulted (q : Queue) : Queue :=
  { q with st := .faulted, faultWord := 8, faultHere := false, statusDue := true, dueFault := none }

/-- A context becomes FAULTED: every crew is saved, and every queue bound to it enters FAULTED with reason 8. Versions stay with
their threads (R346, R357, R451). -/
def faultContext (s : State) (ctx : Nat) : State :=
  let c := getCtx s ctx
  if c.st = .running ∨ c.st = .suspending ∨ c.st = .draining ∨ c.st = .ready then
    let s := setCtx s ctx { c with st := .faulted }
    { s with
      queues := kvMap s.queues fun _ (q : Queue) => if q.ctx = ctx then q.ctxFaulted else q
      crews := kvMap s.crews fun _ (cr : Crew) => if cr.ctx = ctx then cr.ask .fatal else cr }
  else s

/-- Discards the versions of the lanes of a mask in a versioned launch (R378): the warp, the state, and whether any was. -/
def discardVersions (s : State) (launch : Nat) (wp : Warp) (m : Mask) : State × Warp × Bool :=
  let l := getLaunch s launch
  let lanes := lanesOf (m &&& wp.live)
  if l.vers && !lanes.isEmpty then
    (setLaunch s launch { l with discards := l.discards + BitVec.ofNat 32 lanes.length },
     { wp with versions := lanes.foldl kvDel wp.versions }, true)
  else (s, wp, false)

/-- The path of a warp is left where it stands, its files kept (R75, R453). -/
def Site.leavePath (x : Site) : Path :=
  { x.pa with st := .ready, resume := if x.rn.files.count = 0 then none else some x.rn.files }

/-- The entry of the path table that a trap leaves behind: a BREAK ended its run, any other trap resumes at its
instruction with its files (R446). A trap of an entry that left the store queue finds the warp where it stands (R213). -/
def trappedPath (x : Site) (t : TrapInfo) (again : Option Mask) : Path :=
  if t.entry.isSome then (if x.wp.run.isSome then x.leavePath else x.pa)
  else if t.code = 0x13 then { x.pa with pc := x.pa.pc + 16, st := .ready, resume := none, only := none }
  else { x.pa with st := .ready, resume := some x.rn.files, only := again.orElse fun _ => x.pa.only }

/-- Whether a debugger attached to the context catches a code (R453). -/
def debugCatches (s : State) (ctx code : Nat) : Bool :=
  let c := getCtx s ctx
  c.attached && c.catchMask.getLsbD code

/-- The warp after a trap is delivered to the trap entry (R445): its table set aside, one path of every live lane at the
entry. -/
def enterHandler (x : Site) (wp : Warp) (t : TrapInfo) (record : TrapRecord) (again : Option Mask) : Warp :=
  let old := kvSet wp.paths x.rn.path (trappedPath x t again)
  { wp with
    paths := [(0, { pc := BitVec.ofNat 64 (x.k.codeVa + x.k.trape), mask := wp.live })]
    run := none
    handler := some { paths := old, path := x.rn.path, code := t.code, tpc := x.pa.pc, again := again, entry := t.entry }
    record := record
    tcode := BitVec.ofNat 32 t.code
    tpc := t.tpc
    tmask := t.mask
    tva := BitVec.ofNat 64 t.va
    lastLow := none, afterSplit := [], readySince := none, resumeAt := none }

/-- The asynchronous record of a fatal trap: the trap's own, of kind 7 (R447, R449). -/
def fatalRecord (r : TrapRecord) : TrapRecord := (r.set 0 (r.headD 0 ||| 0x700)).set 9 (r.getD 9 0 ||| 1)

/-- The halt record of a halt by request, with the code of a pending fault (R454). -/
def haltRecord (s : State) (x : Site) (pend : Nat) : TrapRecord :=
  ({ pend := pend, tpc := x.tpc, trun := x.rn.files.count, mask := x.pa.mask &&& x.wp.live
     flg := (if pend = 0 then 0 else 2) + (if x.rn.files.count = 0 ∧ pend = 0 then 0 else 4) + (if x.wp.handler.isSome then 16 else 0)
     core := x.ref.core, ctx := x.cr.ctx, warp := x.ref.warp, crew := x.cr.num, launch := x.cr.launch
     clk := s.now - (getCore s x.ref.core).clkBase } : RecordFields).words

/-- The warp of a site halted by request (R453, R454). -/
def Site.haltedWarp (x : Site) (s : State) (wp : Warp) : Warp :=
  { wp with
    paths := kvSet wp.paths x.rn.path x.leavePath, run := none, readySince := none, haltAsked := false
    resumeAt := if x.rn.files.count = 0 then wp.resumeAt else some x.rn.path
    halt := some { record := haltRecord s x 0, path := x.rn.path } }

/-- The route of a raised trap whose record is made (R444). -/
def routeTrap (s : State) (x : Site) (wp : Warp) (t : TrapInfo) (record : TrapRecord) (isCall : Bool) (again : Option Mask) :
    State :=
  let stopped := { wp with paths := kvSet wp.paths x.rn.path (trappedPath x t again), run := none,
                           readySince := none, resumeAt := none }
  let put (s : State) (wp : Warp) : State := setWarp s x.ref.crew x.ref.warp wp
  if debugCatches s x.cr.ctx t.code && !isCall then
    let stopped := match t.entry with | some e => stopped.againEntry e | none => stopped
    put s { stopped with halt := some { record := record, path := x.rn.path } }
  else if t.code = 0x0B then
    let s := put s { stopped with pendingTrap := some t }
    let s := modCrew (askSave s x.ref.crew .residency) x.ref.crew fun c => { c with hold := .rready }
    noticeResidency s x.cr.ctx x.cr.launch x.cr.num t.va (t.why.getD t.tx.toNat)
  else if wp.handler.isSome || x.k.trape = 0xFFFFFFFF then
    let s := put s { stopped with pendingTrap := some t, record := record }
    let s := askSave s x.ref.crew .fatal
    faultContext (postRecord s x.cr.ctx (fatalRecord record)) x.cr.ctx
  else put s (enterHandler x wp t record again)

/-- Taking a trap at an instruction of a warp (R444-R447). `isCall`: a BREAK of TRAP.call. `again`: the lanes over which an
atomic is issued again; such a trap is not precise. A halt that is asked for wins, and the trap is pending (R351, R456). -/
def takeTrap (s : State) (x : Site) (t : TrapInfo) (isCall : Bool := false) (again : Option Mask := none) : State :=
  let t := if t.entry.isSome then t else { t with tpc := x.tpc, trun := x.rn.files.count }
  let x := { x with wp := { x.wp with trapAt := some s.now } }
  let (s, wp, dropped) := if again.isNone && t.code != 0x03 then discardVersions s x.cr.launch x.wp t.mask else (s, x.wp, false)
  let flg := 4 + (if dropped then 8 else 0) + (if wp.handler.isSome then 16 else 0)
  let record := trapRecord s x t flg
  if wp.haltAsked then
    let h : Halt := { record := haltRecord s x t.code, path := x.rn.path, pending := some t, again := again, isCall := isCall }
    setWarp s x.ref.crew x.ref.warp { x.haltedWarp s wp with record := record, halt := some h }
  else routeTrap s x wp t record isCall again

/-! ### Rays that a lane abandons -/

/-- A fresh identifier. -/
def State.newId (s : State) : Nat × State := (s.fresh, { s with fresh := s.fresh + 1 })

/-- A lane's ray as the memory side knows it. -/
def rayKey (ctx id : Nat) : Nat := 2 ^ 28 * ctx + id

/-- Sends a message about a ray. -/
def postMsg (s : State) (m : RayMsg) : State :=
  let (k, s) := s.newId
  { s with rayMsgs := kvSet s.rayMsgs k m }

/-- The lanes abandon their `.cand` rays (R299): an unanswered candidate is answered with reject, and so will be later ones. -/
def abandonRays (s : State) (ctx : Nat) (wp : Warp) (m : Mask) : State × Warp :=
  let mine (l : Nat) (r : LaneRay) : Bool := m.getLsbD l && r.cand
  (wp.rays.foldl (fun s (l, r) => match r.id, r.offer with
      | some id, some _ => if mine l r then postMsg s (.answer (rayKey ctx id) 2) else s
      | _, _ => s) s,
   { wp with rays := kvMap wp.rays fun l r => if mine l r then { r with abandoned := true, offer := none } else r })

/-! ### Issue -/

/-- What comes of the checks made before an instruction's meaning. -/
inductive Gate where
  | noWarp
  | wait (x : Site)
  /-- the path waits for the other paths of its warp (R178) -/
  | reconverge (x : Site)
  | trap (x : Site) (t : TrapInfo)
  | go (x : Site)
  deriving DecidableEq, Repr

/-- Whether the instruction raises PRIVILEGED in a context without SYS (R94, R458). A register number that is still empty names no
register yet. -/
def needsSys (s : State) (x : Site) (i : Instr) : Bool :=
  match i with
  | .syswr _ | .rmove _ | .rcmpt _ => true
  | .sysrd w => !(w.b.file == .scalar && x.wp.regs.sempty.contains w.b.idx.toNat) && decide (0x0300 ≤ uB s x w ∧ (uB s x w ≤ 0x0303 ∨ (0x0310 ≤ uB s x w ∧ uB s x w ≤ 0x0317) ∨
      uB s x w = 0x0320 ∨ (0x0400 ≤ uB s x w ∧ uB s x w ≤ 0x0447) ∨ (0x0450 ≤ uB s x w ∧ uB s x w ≤ 0x0453) ∨
      (0x0500 ≤ uB s x w ∧ uB s x w ≤ 0x05FF) ∨ (0x0700 ≤ uB s x w ∧ uB s x w ≤ 0x070F)))
  | _ => false

/-- A field of a context's descriptor: n bytes from byte lo (R344). -/
def descField (s : State) (ctx lo n : Nat) : Nat := leNat (((getCtx s ctx).desc.drop lo).take n)
/-- CFLG of a context: SYS is bit 0 (R344). -/
def ctxFlags (s : State) (ctx : Nat) : Nat := descField s ctx 4 4
def ctxSys (s : State) (ctx : Nat) : Bool := (ctxFlags s ctx).testBit 0

/-- The warp-wide instructions: they force reconvergence (R178, R271, R387). -/
def warpWide (i : Instr) : Bool :=
  match i with
  | .vote _ | .shfl _ | .wred _ | .wscan _ | .laneMatch _ | .elect _ | .bxq _ | .gred _
  | .mma _ | .mmap _ | .mmag _ | .accz _ | .accld _ | .accst _ | .accrd _ | .accwr _ => true
  | _ => false

/-- BRAU reads its guard and its target in every live lane of the path (R165). -/
def isBrau (i : Instr) : Bool := match i with | .brau _ => true | _ => false

/-- The order of R12 before the entry's own conditions. An instruction with no active lane reads nothing. For BRAU the active
lanes are all of the path's. -/
def gate (i : Instr) (w : Enc) (s : State) : Gate :=
  match siteOf s with
  | none => .noWarp
  | some x =>
    if warpWide i && mustReconverge x.wp x.rn.path x.pa then .reconverge x
    else if guardEmpty x.wp w.guard then .wait x
    else
      let x := { x with act := pathLanes x.wp x.pa &&& (if isBrau i then ~~~0 else guardMask x.width x.wp w.guard) }
      if x.act = 0 then .go x
      else if needsSys s x i && !ctxSys s x.cr.ctx then
        .trap x { code := 0x02, tx := BitVec.ofNat 32 (match Instr.word? i with | some (op, _) => op | none => 0),
                  mask := x.act }
      else if mustWait i w s x then .wait x
      else match sourceTrap i w s x with
        | some t => .trap x t
        | none => .go x

/-- A site that waits at TRACE, EXIT or REFORM has abandoned the `.cand` rays of its active lanes (R292, R299). -/
def Site.abandoning (x : Site) (i : Instr) (s : State) : Site × State :=
  let go : Bool := match i with
    | .trace _ => decide ((kvD x.wp.eng 3 {}).count < 63)
    | .exit _ | .reform _ => true
    | _ => false
  if go then (let r := abandonRays s x.cr.ctx x.wp x.act; ({ x with wp := r.2 }, r.1)) else (x, s)

/-- What a meaning answers. -/
inductive Act where
  /-- the instruction took effect; the path goes on to the next word -/
  | done (x : Site) (s : State)
  /-- the meaning placed the warp's paths itself; the run has ended -/
  | ended (s : State)
  /-- the instruction waits and is issued again -/
  | block (x : Site) (s : State)
  | trap (x : Site) (t : TrapInfo) (s : State)
  deriving DecidableEq, Repr

/-- A path whose run has ended, at pc. -/
def Path.endedAt (p : Path) (pc : W64) : Path :=
  { p with pc := pc, st := .ready, resume := none, only := none, barWait := none, reconv := false, stay := false }

/-- The warp after its run has ended with the executing path at pc (R74, R159). -/
def Site.endRun (x : Site) (w : Enc) (pc : W64) : Warp :=
  { x.wp with
    run := none
    paths := kvSet x.wp.paths x.rn.path (x.pa.endedAt pc)
    lastLow := some (lowLane (x.pa.mask &&& x.wp.live)), afterSplit := []
    hintPh := w.ph, hintYh := w.yh, readySince := none }

/-- The warp after an instruction that is no control transfer: the run goes on, or ends at BND (R74). -/
def Site.advance (x : Site) (w : Enc) : Warp :=
  if w.bnd then x.endRun w (x.pa.pc + 16)
  else { x.wp with
    run := some { x.rn with files := { x.rn.files with count := x.rn.files.count + 1 }, stalled := none }
    paths := kvSet x.wp.paths x.rn.path { x.pa with pc := x.pa.pc + 16, only := none, barWait := none, reconv := false } }

/-- The warp whose path waits for reconvergence: its run ends before the instruction (R65, R178). -/
def Site.park (x : Site) : Warp :=
  settlePaths { x.wp with
    run := none
    paths := kvSet x.wp.paths x.rn.path { x.pa with st := .reconverge, resume := none }
    lastLow := some (lowLane (x.pa.mask &&& x.wp.live)), afterSplit := [], readySince := none }

/-- The warp that waits at an instruction: at a run head it gives up the slot; inside a run it stalls (R71, R141). -/
def Site.hold (x : Site) (now : Nat) : Warp :=
  if x.rn.files.count = 0 then
    { x.wp with run := none, paths := kvSet x.wp.paths x.rn.path { x.pa with st := .ready, resume := none },
                readySince := none }
  else { x.wp with run := some { x.rn with stalled := some (x.rn.stalled.getD now) },
                   paths := kvSet x.wp.paths x.rn.path x.pa }

def Site.put (x : Site) (s : State) (wp : Warp) : State := setWarp s x.ref.crew x.ref.warp wp

/-- The state after a meaning's answer. -/
def Act.state (w : Enc) : Act → State
  | .done x s => x.put s (x.advance w)
  | .ended s => s
  | .block x s => x.put s (x.hold s.now)
  | .trap x t s => takeTrap s x t

/-- Issues one Zorsis instruction: the checks all instructions share, then its meaning. -/
def issueInstr (i : Instr) (w : Enc) (s : State) (body : Site → State → Act) : Host.Outcome State Fault Refusal :=
  match gate i w s with
  | .noWarp => .fault .noIssuingWarp
  | .wait x => (let r := x.abandoning i s; .next ((Act.block r.1 r.2).state w))
  | .reconverge x => .next (x.put s x.park)
  | .trap x t => .next (takeTrap s x t)
  | .go x => .next ((body x s).state w)

/-- A meaning that changes the warp alone and always completes. -/
def onSite (f : State → Site → Site) : Site → State → Act := fun x s => .done (f s x) s

/-! ### Shapes of lane arithmetic -/

/-- The destination value of every active lane. -/
def Site.lanes (x : Site) (f : Nat → Nat) : List (Nat × Nat) := (lanesOf x.act).map fun l => (l, f l)

/-- An instruction whose one result goes to D (R10, R65). -/
def aluD (i : Instr) (w : Enc) (s : State) (wide : Bool) (f : Site → Nat → Nat) : Host.Outcome State Fault Refusal :=
  issueInstr i w s (onSite fun _ x => x.putDst w.d wide (x.lanes (f x)))

/-- An instruction whose one result is a predicate in D (R72). -/
def aluP (i : Instr) (w : Enc) (s : State) (f : Site → Nat → Bool) : Host.Outcome State Fault Refusal :=
  issueInstr i w s (onSite fun _ x => if x.act = 0 then x else x.putPred w.d (maskWhere x.width (f x)))

/-- A floating-point instruction: a result to D and flags in every active lane (R42). -/
def fpuD (i : Instr) (w : Enc) (s : State) (f : Site → Nat → Nat × FFlags) : Host.Outcome State Fault Refusal :=
  issueInstr i w s (onSite fun _ x =>
    let rs := (lanesOf x.act).map fun l => (l, f x l)
    let x := x.putDst w.d false (rs.map fun (l, r) => (l, r.1))
    x.mapRegs fun g => rs.foldl (fun g (l, r) => g.addFlags l r.2) g)

end Sys2Proof.Machine
end

