-- ==== Sys2Proof/Machine/Integer.lean ====
section
/-! DEFINITION. The integer and bit instructions (R98-R115). -/

namespace Sys2Proof.Machine

/-- Sources of the instruction's type: A, B and C in a lane. -/
def tA (s : State) (x : Site) (w : Enc) (l : Nat) : Nat := srcValue s x w.ty w.a l
def tB (s : State) (x : Site) (w : Enc) (l : Nat) : Nat := srcB s x w.ty w l
def tC (s : State) (x : Site) (w : Enc) (l : Nat) : Nat := srcC s x w.ty w l
/-- Source B read as n32. -/
def nB (s : State) (x : Site) (w : Enc) (l : Nat) : Nat := srcB s x .n32 w l
/-- Source C read as n32. -/
def nC (s : State) (x : Site) (w : Enc) (l : Nat) : Nat := srcC s x .n32 w l
/-- The destination modifier. -/
def dMod (w : Enc) : Nat := w.d.mod.toNat

/-- A move delivers the source through the destination modifier alone (R113). -/
def movV (t : Ty) (dmod v : Nat) : Nat :=
  if Ty.isFp t then (fpMap t dmod fun i => (fpElem t v i, .none)).1
  else mapElems2 (Ty.elem t) dmod (fun a _ => a) v 0

/-- IADD (R102). -/
def execIadd (w : Enc) (s : State) : Host.Outcome State Fault Refusal :=
  aluD (.iadd w) w s (Ty.wide w.ty) fun x l => addV w.ty (dMod w) (tA s x w l) (tB s x w l)

/-- ISUB (R102). -/
def execIsub (w : Enc) (s : State) : Host.Outcome State Fault Refusal :=
  aluD (.isub w) w s (Ty.wide w.ty) fun x l => subV w.ty (dMod w) (tA s x w l) (tB s x w l)

/-- IADDC (R102): the carry goes to E. -/
def execIaddc (w : Enc) (s : State) : Host.Outcome State Fault Refusal :=
  issueInstr (.iaddc w) w s (onSite fun _ x =>
    let r (l : Nat) : Nat × Bool := addcV w.ty (tA s x w l) (tB s x w l) (predValue x w.c l)
    if x.act = 0 then x.putDst w.d (Ty.wide w.ty) []
    else (x.putDst w.d (Ty.wide w.ty) (x.lanes fun l => (r l).1)).putPred w.e (maskWhere x.width fun l => (r l).2))

/-- ISUBB (R102): the borrow goes to E. -/
def execIsubb (w : Enc) (s : State) : Host.Outcome State Fault Refusal :=
  issueInstr (.isubb w) w s (onSite fun _ x =>
    let r (l : Nat) : Nat × Bool := subbV w.ty (tA s x w l) (tB s x w l) (predValue x w.c l)
    if x.act = 0 then x.putDst w.d (Ty.wide w.ty) []
    else (x.putDst w.d (Ty.wide w.ty) (x.lanes fun l => (r l).1)).putPred w.e (maskWhere x.width fun l => (r l).2))

/-- IMUL (R103). -/
def execImul (w : Enc) (s : State) : Host.Outcome State Fault Refusal :=
  aluD (.imul w) w s (Ty.wide w.ty) fun x l => mulV w.ty (dMod w) (tA s x w l) (tB s x w l)

/-- IMULH (R103). -/
def execImulh (w : Enc) (s : State) : Host.Outcome State Fault Refusal :=
  aluD (.imulh w) w s (Ty.wide w.ty) fun x l => mulhV w.ty (tA s x w l) (tB s x w l)

/-- IMAD (R103). -/
def execImad (w : Enc) (s : State) : Host.Outcome State Fault Refusal :=
  aluD (.imad w) w s false fun x l => madV w.ty (dMod w) (tA s x w l) (tB s x w l) (tC s x w l)

/-- IMADW (R103): C and D are pairs. -/
def execImadw (w : Enc) (s : State) : Host.Outcome State Fault Refusal :=
  aluD (.imadw w) w s true fun x l => madwV w.ty (dMod w) (tA s x w l) (tB s x w l) (srcC s x .n64 w l)

/-- IMIN (R104). -/
def execImin (w : Enc) (s : State) : Host.Outcome State Fault Refusal :=
  aluD (.imin w) w s (Ty.wide w.ty) fun x l => minV w.ty (tA s x w l) (tB s x w l)

/-- IMAX (R104). -/
def execImax (w : Enc) (s : State) : Host.Outcome State Fault Refusal :=
  aluD (.imax w) w s (Ty.wide w.ty) fun x l => maxV w.ty (tA s x w l) (tB s x w l)

/-- IABS (R104). -/
def execIabs (w : Enc) (s : State) : Host.Outcome State Fault Refusal :=
  aluD (.iabs w) w s (Ty.wide w.ty) fun x l => absV w.ty (dMod w) (tA s x w l)

/-- ISAD (R104). -/
def execIsad (w : Enc) (s : State) : Host.Outcome State Fault Refusal :=
  aluD (.isad w) w s false fun x l => sadV w.ty (dMod w) (tA s x w l) (tB s x w l) (nC s x w l)

/-- ICMP (R105). -/
def execIcmp (w : Enc) (s : State) : Host.Outcome State Fault Refusal :=
  aluP (.icmp w) w s fun x l => icmpV w.ty w.sub.toNat (tA s x w l) (tB s x w l)

/-- ISEL (R105): the predicate is E when L is 1. -/
def execIsel (w : Enc) (s : State) : Host.Outcome State Fault Refusal :=
  aluD (.isel w) w s (Ty.wide w.ty) fun x l => if predValue x (if w.lit.isSome then w.e else w.c) l then tA s x w l else tB s x w l

/-- AND (R106). -/
def execAnd (w : Enc) (s : State) : Host.Outcome State Fault Refusal :=
  aluD (.and w) w s (Ty.wide w.ty) fun x l => andV w.ty (tA s x w l) (tB s x w l)

/-- OR (R106). -/
def execOr (w : Enc) (s : State) : Host.Outcome State Fault Refusal :=
  aluD (.or w) w s (Ty.wide w.ty) fun x l => orV w.ty (tA s x w l) (tB s x w l)

/-- XOR (R106). -/
def execXor (w : Enc) (s : State) : Host.Outcome State Fault Refusal :=
  aluD (.xor w) w s (Ty.wide w.ty) fun x l => xorV w.ty (tA s x w l) (tB s x w l)

/-- ANDN (R106). -/
def execAndn (w : Enc) (s : State) : Host.Outcome State Fault Refusal :=
  aluD (.andn w) w s (Ty.wide w.ty) fun x l => andnV w.ty (tA s x w l) (tB s x w l)

/-- LOP3 (R106): E holds the truth table. -/
def execLop3 (w : Enc) (s : State) : Host.Outcome State Fault Refusal :=
  aluD (.lop3 w) w s false fun x l => lop3V (Operand.bits w.e).toNat (tA s x w l) (tB s x w l) (tC s x w l)

/-- SHL (R107). -/
def execShl (w : Enc) (s : State) : Host.Outcome State Fault Refusal :=
  aluD (.shl w) w s (Ty.wide w.ty) fun x l => shlV w.ty (tA s x w l) (nB s x w l)

/-- SHR (R107). -/
def execShr (w : Enc) (s : State) : Host.Outcome State Fault Refusal :=
  aluD (.shr w) w s (Ty.wide w.ty) fun x l => shrV w.ty (tA s x w l) (nB s x w l)

/-- SAR (R107). -/
def execSar (w : Enc) (s : State) : Host.Outcome State Fault Refusal :=
  aluD (.sar w) w s (Ty.wide w.ty) fun x l => sarV w.ty (tA s x w l) (nB s x w l)

/-- ROTL (R107). -/
def execRotl (w : Enc) (s : State) : Host.Outcome State Fault Refusal :=
  aluD (.rotl w) w s (Ty.wide w.ty) fun x l => rotlV (tA s x w l) (nB s x w l)

/-- FSHF (R107). -/
def execFshf (w : Enc) (s : State) : Host.Outcome State Fault Refusal :=
  aluD (.fshf w) w s false fun x l => fshfV (w.sub == 1) (tA s x w l) (tB s x w l) (nC s x w l)

/-- BFX (R108). -/
def execBfx (w : Enc) (s : State) : Host.Outcome State Fault Refusal :=
  aluD (.bfx w) w s false fun x l => bfxV w.ty (tA s x w l) (nB s x w l)

/-- BFI (R108). -/
def execBfi (w : Enc) (s : State) : Host.Outcome State Fault Refusal :=
  aluD (.bfi w) w s false fun x l => bfiV (tA s x w l) (nB s x w l) (tC s x w l)

/-- POPC (R109). -/
def execPopc (w : Enc) (s : State) : Host.Outcome State Fault Refusal :=
  aluD (.popc w) w s false fun x l => popcV w.ty (tA s x w l)

/-- CLZ (R109). -/
def execClz (w : Enc) (s : State) : Host.Outcome State Fault Refusal :=
  aluD (.clz w) w s false fun x l => clzV w.ty (tA s x w l)

/-- CTZ (R109). -/
def execCtz (w : Enc) (s : State) : Host.Outcome State Fault Refusal :=
  aluD (.ctz w) w s false fun x l => ctzV w.ty (tA s x w l)

/-- BREV (R109). -/
def execBrev (w : Enc) (s : State) : Host.Outcome State Fault Refusal :=
  aluD (.brev w) w s (Ty.wide w.ty) fun x l => brevV w.ty (tA s x w l)

/-- BLV (R110). -/
def execBlv (w : Enc) (s : State) : Host.Outcome State Fault Refusal :=
  aluD (.blv w) w s false fun x l => blvV (w.sub == 1) (tA s x w l) (tB s x w l) (if w.sub = 1 then tC s x w l else 0)

/-- BDLV (R110). -/
def execBdlv (w : Enc) (s : State) : Host.Outcome State Fault Refusal :=
  aluD (.bdlv w) w s false fun x l => bdlvV (w.sub == 1) (tA s x w l) (nB s x w l)

/-- LEA (R111). -/
def execLea (w : Enc) (s : State) : Host.Outcome State Fault Refusal :=
  aluD (.lea w) w s true fun x l => leaV w.sub.toNat (srcValue s x .n64 w.a l) (nB s x w l)

/-- PRMT (R112). -/
def execPrmt (w : Enc) (s : State) : Host.Outcome State Fault Refusal :=
  aluD (.prmt w) w s false fun x l => prmtV (tA s x w l) (tB s x w l) (tC s x w l)

/-- MOV (R113). -/
def execMov (w : Enc) (s : State) : Host.Outcome State Fault Refusal :=
  aluD (.mov w) w s (Ty.wide w.ty) fun x l => movV w.ty (dMod w) (tA s x w l)

/-- MOVL (R113). -/
def execMovl (w : Enc) (s : State) : Host.Outcome State Fault Refusal :=
  aluD (.movl w) w s (Ty.wide w.ty) fun x _ => if w.ty = .n64 then (x.k.codeVa + (w.lit.getD 0).toNat) % 2 ^ 64 else (w.lit.getD 0).toNat

/-- CVTI (R114). -/
def execCvti (w : Enc) (s : State) : Host.Outcome State Fault Refusal :=
  aluD (.cvti w) w s (Ty.wide w.ty) fun x l => cvtiV w.sub.toNat w.ty (dMod w) (srcValue s x (if 6 ≤ w.sub.toNat then .n64 else .n32) w.a l)

/-- IDIV (R115): quotient, remainder, or both, E written last. -/
def execIdiv (w : Enc) (s : State) : Host.Outcome State Fault Refusal :=
  issueInstr (.idiv w) w s (onSite fun _ x =>
    let r (l : Nat) : Nat × Nat := idivV w.ty (if w.sub = 1 then 0 else dMod w) (tA s x w l) (tB s x w l)
    let y := x.writeDst w.d (Ty.wide w.ty) (x.lanes fun l => if w.sub = 1 then (r l).2 else (r l).1)
    let y := if w.sub = 2 then y.writeDst w.e (Ty.wide w.ty) (x.lanes fun l => (r l).2) else y
    let y := if w.d.file = .scalar then y else y.shiftDst w.d (Ty.wide w.ty)
    if w.sub = 2 then y.shiftDst w.e (Ty.wide w.ty) else y)

end Sys2Proof.Machine
end

