-- ==== Sys2Proof/Machine/Directory.lean ====
section
/-! DEFINITION. Home memory with its block tags (R197, R198, R403), range directories and walks (R401-R404), the frame rings
(R409), splitting pieces (R410, R418), and the start of placements and recalls (R410, R411). -/

namespace Sys2Proof.Machine

/-! ### Homes and block tags -/

/-- What the tag of an unlisted block reads as: ZERO (R47, R437). -/
def tagDefault : W16 := 0x7000

def tagGet (m : KV W16) (blk : Nat) : W16 := kvD m blk tagDefault
def tagSet (m : KV W16) (blk : Nat) (t : W16) : KV W16 := if t = tagDefault then kvDel m blk else kvSet m blk t

/-- The format code of a tag (R47). -/
def tagFormat (t : W16) : Nat := t.toNat / 4096
def poisonTag : W16 := 0xF000
def isZeroTag (t : W16) : Bool := tagFormat t == 7
def isPoisonTag (t : W16) : Bool := tagFormat t == 15

def homeTag (s : State) (pa : Nat) : W16 := tagGet s.tags (pa / 64)

/-- A byte as a lane access reads it at its home: zero in a ZERO block (R198). -/
def homeByte (s : State) (pa : Nat) : Byte := if isZeroTag (homeTag s pa) then 0 else cellGet s.mem pa

def homeBytes (s : State) (pa n : Nat) : List Byte := (List.range n).map fun k => homeByte s (pa + k)
def homeNat (s : State) (pa n : Nat) : Nat := leNat (homeBytes s pa n)

/-- Sets a block's tag. -/
def setTag (s : State) (blk : Nat) (t : W16) : State := { s with tags := tagSet s.tags blk t }

/-- Writes one byte at its home: a ZERO block becomes tag 0 with its other bytes zero; any other tag stays (R198). -/
def homePut (s : State) (pa : Nat) (b : Byte) : State :=
  let s := if isZeroTag (homeTag s pa) then
      setTag { s with mem := cellsClear s.mem (pa / 64 * 64) (pa / 64 * 64 + 64) } (pa / 64) 0 else s
  { s with mem := cellSet s.mem pa b }

/-- Writes bytes at consecutive addresses. -/
def homePuts (s : State) (pa : Nat) : List Byte → State
  | [] => s
  | b :: t => homePuts (homePut s pa b) (pa + 1) t

/-- Writes the stored byte of a block whatever its tag: the bytes under a ZERO tag that a command copies (R253, R255). -/
def homeRaw (s : State) (pa : Nat) (b : Byte) : State := { s with mem := cellSet s.mem pa b }

/-- Declares blocks zero: bytes zero, tag 0x7000 (R215, R410). -/
def homeZero (s : State) (lo hi : Nat) : State :=
  { s with mem := cellsClear s.mem lo hi, tags := kvClear s.tags (lo / 64) (hi / 64) }

/-- Copies the cells of [src, src + n) to dst. -/
def cellsMove (m from_ : List Host.Cell) (src dst n : Nat) : List Host.Cell :=
  (from_.filter fun c => decide (src ≤ c.1) && decide (c.1 < src + n)).foldl
    (fun m c => cellSet m (c.1 - src + dst) c.2) (cellsClear m dst (dst + n))

/-- Copies the tags of n blocks from src to dst. -/
def tagsMove (m from_ : KV W16) (src dst n : Nat) : KV W16 :=
  (from_.filter fun c => decide (src ≤ c.1) && decide (c.1 < src + n)).foldl
    (fun m c => tagSet m (c.1 - src + dst) c.2) (kvClear m dst (dst + n))

/-- A device physical address that exists (R403). -/
def validPa (pa : Nat) : Bool :=
  (decide (pa / 2 ^ 39 = 0) && decide (pa % 2 ^ 36 < 2 ^ 35)) || decide (pa / 2 ^ 37 = 4)

/-- The PA lies in the interleave space. -/
def paInterleaved (pa : Nat) : Bool := decide (pa / 2 ^ 37 = 4)

/-- The home stack of a PA (R403). -/
def homeStack (pa : Nat) : Nat :=
  if paInterleaved pa then
    let b := pa % 2 ^ 37 / 4096
    (b % 8) ^^^ (b / 8 % 8) ^^^ (b / 64 % 8)
  else pa / 2 ^ 36 % 8

/-- The byte of a PA within its home stack (R403). -/
def stackByte (pa : Nat) : Nat :=
  if paInterleaved pa then 2 ^ 35 + 4096 * (pa % 2 ^ 37 / 4096 / 8) + pa % 4096 else pa % 2 ^ 36

/-- The nearest stack of a core (R18). -/
def nearestStack (core : Nat) : Nat := 2 * (core / 48) + (if core % 48 / 4 < 6 then 0 else 1)

/-! ### Piece descriptors -/

def Piece.rst (p : Piece) : Nat := p.attr.toNat % 4
def Piece.inter (p : Piece) : Bool := p.attr.getLsbD 2
def Piece.tier (p : Piece) : Bool := p.attr.getLsbD 3
def Piece.unpl (p : Piece) : Bool := p.attr.getLsbD 4
def Piece.prio (p : Piece) : Nat := p.attr.toNat / 32
def Piece.setRst (p : Piece) (r : Nat) : Piece := { p with attr := p.attr &&& 0xFC ||| BitVec.ofNat 8 r }
def Piece.pa (p : Piece) (va : Nat) : Nat := (va + p.ofs.toNat) % 2 ^ 64

def absent : Nat := 0
def resident : Nat := 1
def away : Nat := 2
def moving : Nat := 3

/-- 2 MiB, and 64 KiB. -/
def unit2M : Nat := 2 ^ 21
def unit64K : Nat := 2 ^ 16

/-- The piece that a 64-byte descriptor holds (R401). -/
def pieceOf (b : List Byte) : Piece :=
  let f (lo n : Nat) : Nat := leNat ((b.drop lo).take n)
  { base := f 0 8, lim := f 8 8, ofs := BitVec.ofNat 64 (f 16 8), next := BitVec.ofNat 16 (f 24 2),
    perm := BitVec.ofNat 8 (f 26 1), attr := BitVec.ofNat 8 (f 27 1), back := f 32 8 }

/-- The descriptor of a piece (R401). -/
def pieceBytes (p : Piece) : List Byte :=
  leBytes 8 p.base ++ leBytes 8 p.lim ++ leBytes 8 p.ofs.toNat ++ leBytes 2 p.next.toNat ++ [p.perm, p.attr] ++
    leBytes 4 0 ++ leBytes 8 p.back ++ leBytes 24 0

/-- The PAs of a piece lie in one space of R403. -/
def pieceSpaceOk (p : Piece) : Bool :=
  let lo := Piece.pa p p.base
  let hi := lo + (p.lim - p.base) - 1
  if p.inter then paInterleaved lo && paInterleaved hi
  else decide (lo / 2 ^ 39 = 0) && decide (lo % 2 ^ 36 < 2 ^ 35) && decide (hi / 2 ^ 35 = lo / 2 ^ 35)

/-- A well-formed descriptor (R402). -/
def pieceOk (b : List Byte) : Bool :=
  let p := pieceOf b
  let al (n m : Nat) : Bool := n % m == 0
  leNat ((b.drop 28).take 4) == 0 && leNat ((b.drop 40).take 24) == 0 && decide (p.perm.toNat < 32) &&
  decide (p.base < p.lim) && decide (p.lim ≤ 2 ^ 56) && al p.base unit64K && al p.lim unit64K &&
  (if p.tier then al p.base unit2M && al p.lim unit2M && al p.ofs.toNat unit2M && al p.back unit2M &&
      decide (p.back + (p.lim - p.base) ≤ 2047 * 2 ^ 30)
    else p.back == 0) &&
  (!p.unpl || (!p.inter && p.rst == resident)) &&
  (p.rst != resident || p.unpl || pieceSpaceOk p)

/-! ### The directory -/

/-- A place in a leaf: the leaf's PA and the entry index, with the piece. -/
structure Slot where
  leaf : Nat := 0
  idx : Nat := 0
  piece : Piece := {}
  deriving DecidableEq, Repr

/-- What a walk gives (R404). -/
inductive Walk where
  | found (x : Slot)
  | miss
  | malformed
  | locked
  deriving DecidableEq, Repr

def nodeCount (s : State) (pa : Nat) : Nat := homeNat s pa 2
def nodeLevel (s : State) (pa : Nat) : Nat := homeNat s (pa + 2) 1
def nodeLock (s : State) (pa : Nat) : Nat := homeNat s (pa + 4) 4

/-- The node is well formed: aligned, count and level in range, reserved bytes zero (R404). -/
def nodeOk (s : State) (pa : Nat) : Bool :=
  let n := nodeCount s pa
  pa % 512 == 0 && validPa pa && homeNat s (pa + 3) 1 == 0 && homeNat s (pa + 8) 56 == 0 &&
  decide (nodeLevel s pa < 8) && (if nodeLevel s pa = 0 then decide (n ≤ 7) else decide (n ≤ 28))

def leafBytes (s : State) (pa i : Nat) : List Byte := homeBytes s (pa + 64 + 64 * i) 64
def leafPieces (s : State) (pa : Nat) : List Piece := (List.range (nodeCount s pa)).map fun i => pieceOf (leafBytes s pa i)

/-- The walk below a node, with fuel for its depth. -/
def walkFrom (s : State) (va : Nat) : Nat → Nat → Walk
  | 0, _ => .malformed
  | fuel + 1, node =>
    if !nodeOk s node then .malformed
    else if nodeLevel s node = 0 then
      match (List.range (nodeCount s node)).find? fun i =>
        let p := pieceOf (leafBytes s node i)
        decide (p.base ≤ va) && decide (va < p.lim) with
      | none => .miss
      | some i => if pieceOk (leafBytes s node i) then .found ⟨node, i, pieceOf (leafBytes s node i)⟩ else .malformed
    else
      let key (i : Nat) : Nat := homeNat s (node + 64 + 16 * i) 8
      match ((List.range (nodeCount s node)).filter fun i => decide (key i ≤ va)).getLast? with
      | none => .miss
      | some i => walkFrom s va fuel (homeNat s (node + 64 + 16 * i + 8) 8)

def rootOf (s : State) (ctx : Nat) : Nat := descField s ctx 96 8

/-- A walk for a VA in a context; while software holds LOCK it waits (R404). -/
def walk (s : State) (ctx va : Nat) : Walk :=
  let root := rootOf s ctx
  if validPa root && nodeLock s root == 2 then .locked else walkFrom s va 8 root

/-- Every leaf below a node, in key order. -/
def leavesFrom (s : State) : Nat → Nat → List Nat
  | 0, _ => []
  | fuel + 1, node =>
    if !nodeOk s node then []
    else if nodeLevel s node = 0 then [node]
    else ((List.range (nodeCount s node)).map fun i => leavesFrom s fuel (homeNat s (node + 64 + 16 * i + 8) 8)).flatten

def leavesOf (s : State) (ctx : Nat) : List Nat := leavesFrom s 8 (rootOf s ctx)

/-- Writes a leaf's descriptors and count. -/
def writeLeaf (s : State) (leaf : Nat) (ps : List Piece) : State :=
  let s := homePuts s leaf (leBytes 2 ps.length)
  homePuts s (leaf + 64) ((ps.map pieceBytes).flatten)

/-- Replaces one entry of a leaf by others; none when they do not fit (R410, R418). -/
def replaceSlot (s : State) (x : Slot) (ps : List Piece) : Option State :=
  let all := leafPieces s x.leaf
  let new := all.take x.idx ++ ps ++ all.drop (x.idx + 1)
  if new.length ≤ 7 then some (writeLeaf s x.leaf new) else none

/-- Overwrites one entry of a leaf. -/
def setSlot (s : State) (x : Slot) (p : Piece) : State := (replaceSlot s x [p]).getD s

/-- A piece cut to [lo, hi): OFS is unchanged, BACK moves with the base (R418). -/
def cutPiece (p : Piece) (lo hi : Nat) : Piece :=
  { p with base := lo, lim := hi, back := if p.tier then p.back + (lo - p.base) else p.back }

/-- The parts of a piece around [lo, hi), empty parts left out. -/
def partsOf (p : Piece) (lo hi : Nat) (mid : Piece → Piece) : List Piece :=
  (if p.base < lo then [cutPiece p p.base lo] else []) ++ [mid (cutPiece p lo hi)] ++
    (if hi < p.lim then [cutPiece p hi p.lim] else [])

/-- The 2 MiB unit of a VA, clipped to its piece (R410). -/
def unitLo (p : Piece) (va : Nat) : Nat := max p.base (alignDown va unit2M)
def unitHi (p : Piece) (va : Nat) : Nat := min p.lim (alignDown va unit2M + unit2M)

/-- Splits the unit of a VA off its piece, changed by f; the whole piece when the leaf is full and it spans at most 2 MiB:
the bounds and the state (R410). -/
def splitUnit (s : State) (x : Slot) (va : Nat) (f : Piece → Piece) : Option (Nat × Nat × State) :=
  let p := x.piece
  let lo := unitLo p va
  let hi := unitHi p va
  match replaceSlot s x (partsOf p lo hi f) with
  | some s' => some (lo, hi, s')
  | none => if p.lim - p.base ≤ unit2M then some (p.base, p.lim, setSlot s x (f p)) else none

/-- Whether splitUnit can be done. -/
def canSplit (s : State) (x : Slot) (va : Nat) : Bool :=
  let p := x.piece
  decide (nodeCount s x.leaf - 1 + (partsOf p (unitLo p va) (unitHi p va) id).length ≤ 7) ||
    decide (p.lim - p.base ≤ unit2M)

/-! ### Frame rings -/

def ringBase (s : State) (r : Nat) : Option Nat := kvGet s.service.rings r
def ringEntry (b i : Nat) : Nat := b + 64 + 8 * (i % 65536)

/-- The window that a compaction under way empties (R415, R424). -/
def compacted (s : State) : Option (Nat × Nat) :=
  s.rangeReqs.head?.bind fun r => if r.code = 6 ∧ r.begun then some (r.a, r.a + unit2M * r.b) else none

/-- A PA lies in the window of a compaction under way. -/
def inCompacted (s : State) (pa : Nat) : Bool :=
  match compacted s with
  | some (lo, hi) => decide (lo ≤ pa ∧ pa < hi)
  | none => false

/-- A ring's entry holds a frame that may be taken: it is stored, and no compaction has withdrawn it. -/
def frameThere (s : State) (r b i : Nat) : Bool :=
  let e := homeNat s (ringEntry b i) 8
  e % 2 == 1 && !s.withdrawn.contains (r, i) && !inCompacted s (e - 1)

/-- The indices of a ring that are reserved and not taken. -/
def ringIndices (s : State) (b : Nat) : List Nat :=
  let take_ := homeNat s (b + 8) 8
  (List.range (min 65536 (homeNat s b 8 - take_))).map fun k => take_ + k

/-- Frames a ring holds. -/
def ringCount (s : State) (r : Nat) : Nat :=
  match ringBase s r with
  | none => 0
  | some b => ((ringIndices s b).filter (frameThere s r b)).length

/-- Takes the next frame at a ring's base; withdrawn ones are passed over. -/
def takeFrom (r b : Nat) : Nat → State → Option (Nat × State)
  | 0, _ => none
  | fuel + 1, s =>
    let i := homeNat s (b + 8) 8
    let e := homeNat s (ringEntry b i) 8
    if e % 2 = 1 then
      let t := homePuts (homePuts s (ringEntry b i) (leBytes 8 0)) (b + 8) (leBytes 8 (i + 1))
      if frameThere s r b i then some (e - 1, t)
      else takeFrom r b fuel { t with withdrawn := t.withdrawn.filter fun x => x != (r, i) }
    else none

/-- Takes the next frame of a ring (R409). -/
def takeFrame (s : State) (r : Nat) : Option (Nat × State) :=
  match ringBase s r with
  | none => none
  | some b => takeFrom r b ((ringIndices s b).length + 1) s

/-- A returned frame is stored in its entry once that is empty (R409). -/
def storeGive (s : State) (g : Nat × Nat × Nat) : State :=
  match ringBase s g.1 with
  | none => s
  | some b =>
    if homeNat s (ringEntry b g.2.1) 8 = 0 then homePuts s (ringEntry b g.2.1) (leBytes 8 (g.2.2 + 1))
    else { s with gives := s.gives ++ [g] }

def settleGives (s : State) : State := s.gives.foldl storeGive { s with gives := [] }

/-- Appends a frame to a ring: an index is reserved, and the frame stored when its entry is empty (R409). -/
def giveFrame (s : State) (r pa : Nat) : State :=
  match ringBase s r with
  | none => s
  | some b =>
    let i := homeNat s b 8
    let s := homePuts s b (leBytes 8 (i + 1))
    settleGives { s with gives := s.gives ++ [(r, i, pa)] }

/-- The first frame of rings r, r+1, ... of the local rings, wrapping (R410). -/
def takeLocal (s : State) (r : Nat) : Option (Nat × State) :=
  (List.range 8).findSome? fun k => takeFrame s ((r + k) % 8)

/-- The ring a piece's frames come from and return to (R410-R412). -/
def ringOfPiece (p : Piece) : Nat := if p.inter then 8 else homeStack (Piece.pa p p.base)

/-! ### Placement and recall -/

/-- Drops every cached entry that overlaps [lo, hi) of a context at every core (R413 step 1). -/
def dropTables (s : State) (ctx lo hi : Nat) : State :=
  { s with cores := kvMap s.cores fun _ (c : Core) =>
      { c with table := c.table.filter fun (k, p) => k != ctx || decide (hi ≤ p.base) || decide (p.lim ≤ lo) } }

/-- A note without the VAs of [lo, hi) of a context. -/
def cutNote (ctx lo hi : Nat) (e : Nat × Nat × Nat × Nat) : List (Nat × Nat × Nat × Nat) :=
  let (c, a, b, t) := e
  if c ≠ ctx ∨ hi ≤ a ∨ b ≤ lo then [e]
  else (if a < lo then [(c, a, lo, t)] else []) ++ if hi < b then [(c, hi, b, t)] else []

/-- Notes that a unit is RESIDENT from now on (R412). -/
def noteResident (s : State) (ctx lo hi : Nat) : State :=
  { s with residentAt := (s.residentAt.map (cutNote ctx lo hi)).flatten ++ [(ctx, lo, hi, s.now)] }

/-- Places the unit of a first touch in a frame: OFS, UNPL cleared, blocks declared ZERO (R410). -/
def placeAt (s : State) (ctx : Nat) (x : Slot) (va frame : Nat) : Option State :=
  let f (p : Piece) : Piece :=
    { p with ofs := BitVec.ofNat 64 (frame + 2 ^ 64 - alignDown p.base unit2M), attr := p.attr &&& 0xEF }
  match splitUnit s x va f with
  | none => none
  | some (lo, hi, s) => some (homeZero (noteResident s ctx lo hi) (frame + lo % unit2M) (frame + lo % unit2M + (hi - lo)))

/-- The move under way of the unit that holds a VA. -/
def moveAt (s : State) (ctx va : Nat) : Option Nat :=
  (s.moves.find? fun (_, m) => m.ctx == ctx && decide (m.vbase ≤ va) && decide (va < m.vlim)).map (·.1)

/-- What a touch of a piece that has no translation yet leads to: the move it waits for, or the reason of RESIDENCY. -/
inductive Await where
  | again (s : State)
  | on (s : State) (move : Nat)
  | fails (reason : Nat)
  deriving DecidableEq, Repr

/-- The first touch of an unplaced unit (R410); `ring`: the ring of the touching agent. -/
def firstTouch (s : State) (ctx va ring : Nat) (x : Slot) : Await :=
  if !canSplit s x va then .fails 3
  else match moveAt s ctx va with
  | some k => .on s k
  | none =>
    match takeLocal s ring with
    | some (frame, s') => (match placeAt s' ctx x va frame with
      | some s'' => .again s''
      | none => .fails 3)
    | none =>
      let (k, s) := s.newId
      let m : UnitMove := { ctx := ctx, vbase := unitLo x.piece va, vlim := unitHi x.piece va, kind := .place,
                            since := s.now, ring := ring }
      .on { s with moves := kvSet s.moves k m } k

/-- The touch of an AWAY unit starts its recall (R411). -/
def startRecall (s : State) (ctx va ring : Nat) (x : Slot) : Await :=
  let ring := if x.piece.inter then 8 else ring
  match splitUnit s x va fun p => p.setRst moving with
  | none => .fails 3
  | some (lo, hi, s) =>
    let (k, s) := s.newId
    let (frame, s) := match (if ring = 8 then takeFrame s 8 else takeLocal s ring) with
      | some (f, s') => (some f, s')
      | none => (none, s)
    let m : UnitMove := { ctx := ctx, vbase := lo, vlim := hi, kind := .recall, frame := frame, since := s.now,
                          ring := ring }
    .on { s with moves := kvSet s.moves k m } k

end Sys2Proof.Machine
end

