-- ==== Sys2Proof/Machine/Memory.lean ====
section
/-! DEFINITION. Memory as cores and other agents reach it: the L1 (R191-R196), release and acquire steps (R193), translation
and its conditions (R203, R405, R406), scratch addresses (R189), and the versions of versioned tasks (R236, R376). -/

namespace Sys2Proof.Machine

/-! ### The L1 -/

/-- The L1 scope tag of a scope code (R191). -/
def scopeTag (sc : Nat) : Nat := min sc 3

def sectorAt (s : State) (core blk : Nat) : Option Sector := kvGet (getCore s core).l1 blk
def putSector (s : State) (core blk : Nat) (x : Sector) : State :=
  let c := getCore s core
  setCore s core { c with l1 := kvSet c.l1 blk x }
def dropSector (s : State) (core blk : Nat) : State :=
  let c := getCore s core
  setCore s core { c with l1 := kvDel c.l1 blk }

/-- The mask of n bytes from an offset of a sector. -/
def byteMask (off n : Nat) : Mask := BitVec.ofNat 64 ((2 ^ n - 1) * 2 ^ off)

/-- Writes a sector's dirty bytes back to its home; a store that wrote the whole of a POISON block clears its tag (R193,
R198). -/
def writeBack (s : State) (core blk : Nat) : State :=
  match sectorAt s core blk with
  | none => s
  | some x =>
    let s := (lanesOf x.dirty).foldl (fun s k => homePut s (64 * blk + k) (x.data.getD k 0)) s
    let s := if x.tagDirty && isPoisonTag (homeTag s (64 * blk)) then setTag s blk 0 else s
    putSector s core blk { x with dirty := 0, tagDirty := false }

/-- Writes back and invalidates one sector of a core (R211, R231). -/
def flushSector (s : State) (core blk : Nat) : State := dropSector (writeBack s core blk) core blk

/-- The sectors of a core that hold dirty bytes under a scope tag narrower than a scope. -/
def dirtySectors (s : State) (core sc : Nat) : List Nat :=
  ((getCore s core).l1.filter fun (_, x) => x.dirty != 0 && decide (x.scope < scopeTag sc)).map (·.1)

/-- The release step at a scope (R193). -/
def releaseStep (s : State) (core sc : Nat) : State := (dirtySectors s core sc).foldl (fun s b => writeBack s core b) s

/-- The acquire step at a scope (R193): clean bytes under narrower tags are invalidated. -/
def acquireStep (s : State) (core sc : Nat) : State :=
  let c := getCore s core
  let l1 := kvMap c.l1 fun _ (x : Sector) =>
    if x.scope < scopeTag sc then { x with valid := x.dirty, zero := false } else x
  setCore s core { c with l1 := kvFilter l1 fun _ x => x.valid != 0 }

/-- The L1 ways of a core that crews hold as scratch (R218). -/
def convertedWays (s : State) (core : Nat) : List Nat :=
  (s.crews.map fun (_, c) => if c.core = core ∧ (c.phase = .resident ∨ c.phase = .stopped) then c.ways else []).flatten

/-- The set of a block: PA[14:7] (R191). -/
def setOf (blk : Nat) : Nat := blk / 2 % 256

/-- The way of the set that takes a block: the one that holds its line; else one of those that are not converted, which the
spec leaves open, and from which another line is evicted (R191, R195, R218). -/
def allocWay (s : State) (core blk : Nat) : State × Nat :=
  match (sectorAt s core blk).orElse fun _ => sectorAt s core (blk ^^^ 1) with
  | some y => (s, y.way)
  | none =>
    let used := convertedWays s core
    let ways := (List.range 16).filter fun k => !used.contains k
    let c := getCore s core
    let way := ways.getD (Config.fillWay c.fills % ways.length) 0
    let out := (c.l1.filter fun (b, y) => setOf b == setOf blk && y.way == way).map (·.1)
    let s := out.foldl (fun s b => flushSector s core b) (setCore s core { c with fills := c.fills + 1 })
    (s, way)

/-- The sector of a block, or a new one in the way that takes it. -/
def takeSector (s : State) (core blk : Nat) (tag : W16) : State × Sector :=
  let (s, way) := allocWay s core blk
  (s, (sectorAt s core blk).getD { way := way, tag := tag })

/-- The sector after a fill from its home: bytes that are not dirty take the home's; the tag of an unwritten sector is
the home's; the scope tag is the filler's, but stays as it is at quad scope and wider while bytes are dirty (R191, R192). -/
def filled (s : State) (core blk sc : Nat) : State × Sector :=
  let (s, x) := takeSector s core blk 0
  let home := homeBytes s (64 * blk) 64
  let data := (List.range 64).map fun k => if x.dirty.getLsbD k then x.data.getD k 0 else home.getD k 0
  let ht := homeTag s (64 * blk)
  let tag := if x.dirty = 0 then ht else if isZeroTag ht || (x.tagDirty && isPoisonTag ht) then 0 else ht
  let x := { x with data := data, valid := ~~~0, tag := tag, scope := if x.dirty = 0 ∨ sc < 2 then scopeTag sc else x.scope,
                    zero := data.all (· == 0) }
  (putSector s core blk x, x)

/-- A load of n bytes of one block through the L1 (R192): the bytes, and whether the block is POISON. -/
def l1Load (s : State) (core sc pa n : Nat) : State × List Byte × Bool :=
  let blk := pa / 64
  let m := byteMask (pa % 64) n
  let (s, x) := match sectorAt s core blk with
    | some x => if sc < 2 ∧ (m &&& ~~~x.valid) = (0 : Mask) then (s, x) else filled s core blk sc
    | none => filled s core blk sc
  (s, (x.data.drop (pa % 64)).take n, isPoisonTag x.tag)

/-- A lane store of bytes of one block (R192, R198). `whole`: the active lanes of the instruction write all 64 bytes. -/
def l1Store (s : State) (core sc pa : Nat) (bs : List Byte) (whole : Bool) : State :=
  let blk := pa / 64
  let off := pa % 64
  let m := byteMask off bs.length
  let put (x : Sector) : Sector :=
    { x with data := x.data.take off ++ bs ++ x.data.drop (off + bs.length), valid := x.valid ||| m, zero := false }
  if sc < 2 then
    let (s, x) := takeSector s core blk (homeTag s pa)
    let clear := isPoisonTag x.tag && whole
    let x := put x
    putSector s core blk { x with dirty := x.dirty ||| m, scope := sc, tagDirty := x.tagDirty || clear,
                                  tag := if isZeroTag x.tag || clear then 0 else x.tag }
  else
    let s := homePuts s pa bs
    let s := if whole && isPoisonTag (homeTag s pa) then setTag s blk 0 else s
    match sectorAt s core blk with
    | none => s
    | some x =>
      let x := put x
      let x := { x with dirty := x.dirty &&& ~~~m }
      putSector s core blk (if x.dirty = (0 : Mask) then { x with scope := scopeTag sc, tag := homeTag s pa, tagDirty := false }
        else { x with tag := if isZeroTag x.tag then 0 else x.tag })

/-- Writes back and invalidates, at every core, the sectors of [lo, hi) (R413 step 3); nor does an instruction cache keep them. -/
def flushExtent (s : State) (lo hi : Nat) : State :=
  let s := { s with cores := kvMap s.cores fun _ (c : Core) =>
    { c with icache := kvFilter c.icache fun b _ => decide (64 * b + 64 ≤ lo) || decide (hi ≤ 64 * b) } }
  s.cores.foldl (fun s (k, c) =>
    (c.l1.filter fun (b, _) => decide (lo < 64 * b + 64) && decide (64 * b < hi)).foldl
      (fun s (b, _) => flushSector s k b) s) s

/-- What a command or the L1's own core sees at a home: the home's bytes merged with the core's dirty bytes (R231). -/
def mergedByte (s : State) (core pa : Nat) : Byte :=
  match sectorAt s core (pa / 64) with
  | some x => if x.dirty.getLsbD (pa % 64) then x.data.getD (pa % 64) 0 else homeByte s pa
  | none => homeByte s pa

def mergedBytes (s : State) (core pa n : Nat) : List Byte := (List.range n).map fun k => mergedByte s core (pa + k)

/-! ### Translation -/

/-- The permission bits of a piece (R401): read, write, execute, atomic, trace. -/
def permRead : Nat := 0
def permWrite : Nat := 1
def permExec : Nat := 2
def permAtomic : Nat := 3
def permTrace : Nat := 4
/-- No permission is needed: a load of the code range (R209). -/
def permNone : Nat := 8

/-- A piece grants a permission. -/
def Piece.grants (p : Piece) (perm : Nat) : Bool := perm == permNone || p.perm.getLsbD perm

/-- The extra word of RANGE_PERM for a permission bit (R203, R406). -/
def permCode (p : Nat) : Nat :=
  match p with
  | 0 => 1
  | 1 => 2
  | 2 => 5
  | 3 => 3
  | _ => 6

/-- What an address translates to, by the conditions of R203 and the states of R407. -/
inductive Trans where
  | ok (pa : Nat) (p : Piece)
  | miss (tx : Nat)
  | perm (tx : Nat)
  | absent
  | place (x : Slot)
  | recall (x : Slot)
  | moving
  | locked
  deriving DecidableEq, Repr

/-- The cached piece of a core that covers a VA (R405). -/
def cachedPiece (s : State) (core ctx va : Nat) : Option Piece :=
  ((getCore s core).table.find? fun (k, p) => k == ctx && decide (p.base ≤ va) && decide (va < p.lim)).map (·.2)

/-- Notes a use of a piece in the core's table: most recently used first, 64 at most (R405). -/
def notePiece (s : State) (core ctx : Nat) (p : Piece) : State :=
  let c := getCore s core
  setCore s core { c with table := ((ctx, p) :: c.table.filter fun e => e != (ctx, p)).take 64 }

/-- Translates a VA for an agent: a core, or another agent, which always walks. -/
def translate (s : State) (core : Option Nat) (ctx perm va : Nat) : Trans :=
  if 2 ^ 56 ≤ va then .miss 1
  else
    match core.bind fun c => cachedPiece s c ctx va with
    | some p => if p.grants perm then .ok (Piece.pa p va) p else .perm (permCode perm)
    | none =>
      match walk s ctx va with
      | .locked => .locked
      | .miss => .miss 0
      | .malformed => .miss 8
      | .found x =>
        if !x.piece.grants perm then .perm (permCode perm)
        else if x.piece.rst = absent then .absent
        else if x.piece.rst = away then .recall x
        else if x.piece.rst = moving then .moving
        else if x.piece.unpl then .place x
        else .ok (Piece.pa x.piece va) x.piece

/-- The ring of an agent's first touches (R410). -/
def agentRing (core : Option Nat) : Nat := match core with | some c => nearestStack c | none => 0

/-- What the touch of one address by an agent other than a warp comes to. -/
inductive Touch where
  | ok (s : State) (pa : Nat)
  | fault (code tx : Nat)
  | wait (s : State)
  deriving DecidableEq, Repr

/-- Touches one address: translates it, places a unit that is unplaced, starts a recall (R407). -/
def touch (s : State) (core : Option Nat) (ctx perm va ring : Nat) : Touch :=
  let hit (s : State) (pa : Nat) (p : Piece) : Touch :=
    match core with | some c => .ok (notePiece s c ctx p) pa | none => .ok s pa
  let await (a : Await) : Touch :=
    match a with
    | .again s' => (match translate s' core ctx perm va with
      | .ok pa p => hit s' pa p
      | _ => .wait s')
    | .on s' _ => .wait s'
    | .fails r => .fault 0x0B r
  let failed : Bool := match s.failedUnit with
    | some (c, lo, hi) => c == ctx && decide (lo ≤ va) && decide (va < hi)
    | none => false
  if failed then .fault 0x0B 2
  else match translate s core ctx perm va with
  | .ok pa p => hit s pa p
  | .miss tx => .fault 0x09 tx
  | .perm tx => .fault 0x0A tx
  | .absent => .fault 0x0B 1
  | .place x => await (firstTouch s ctx va ring x)
  | .recall x => await (startRecall s ctx va ring x)
  | .moving => .wait s
  | .locked => .wait s

/-- Touches n bytes from a VA, block by block of 4 KiB at most one piece each; the PAs of its 64-byte blocks in order. -/
def touchSpan (s : State) (core : Option Nat) (ctx perm ring : Nat) : List Nat → Touch × List Nat
  | [] => (.ok s 0, [])
  | va :: rest =>
    match touch s core ctx perm va ring with
    | .ok s' pa => (match touchSpan s' core ctx perm ring rest with
      | (t, pas) => (t, pa :: pas))
    | t => (t, [])

/-- The VAs at which the 64-byte blocks of [va, va + n) begin, the first being va itself. -/
def blockStarts (va n : Nat) : List Nat :=
  if n = 0 then [] else va :: (List.range ((va + n - 1) / 64 - va / 64)).map fun k => (va / 64 + 1 + k) * 64

/-- Bytes of code at a home; those of a POISON block are no stated value (R51, R209). -/
def codeBytes (s : State) (pa n : Nat) : List Byte :=
  (List.range n).map fun k =>
    if isPoisonTag (homeTag s (pa + k)) then (Config.freeWord (64 * s.tick + k)).setWidth 8 else homeByte s (pa + k)

/-- Blocks of the instruction cache: 128 KiB (R20). -/
def codeBlocks : Nat := 2048

/-- The instruction cache with a block used last; the block used longest ago leaves a full cache. -/
def Core.useCode (c : Core) (blk : Nat) (bytes : List Byte) : Core :=
  let order := blk :: c.icacheUse.filter fun b => b != blk && (kvGet c.icache b).isSome
  { c with icache := kvFilter (kvSet c.icache blk bytes) fun b _ => (order.take codeBlocks).contains b
           icacheUse := order.take codeBlocks }

/-- A block of code as it is met where a cache holds an older copy: of each aligned 4-byte word the old or the new bytes (R209). -/
def staleCode (tick blk : Nat) (held home : List Byte) : List Byte :=
  home.zipIdx.map fun (b, k) =>
    let old := held.getD k b
    if old = b then b else if Config.meetsOld tick (2 ^ 100 + 16 * blk + k / 4) then old else b

/-- Reads code through a core's instruction cache (R20, R209), which keeps the block that it has or takes the home's. The bytes lie
in one block. -/
def readCode (s : State) (core pa n : Nat) : State × List Byte :=
  let blk := pa / 64
  let c := getCore s core
  let home := codeBytes s (64 * blk) 64
  let (held, met) := match kvGet c.icache blk with
    | some b => (b, staleCode s.tick blk b home)
    | none => (home, home)
  (setCore s core (c.useCode blk held), (met.drop (pa % 64)).take n)

/-- A core's instruction cache drops a block. -/
def dropCode (s : State) (core blk : Nat) : State :=
  let c := getCore s core
  setCore s core { c with icache := kvDel c.icache blk }

/-- No core's instruction cache holds anything: a launch begins with the code that memory holds (the model's choice, log entry
31). -/
def clearCode (s : State) : State :=
  { s with cores := kvMap s.cores fun _ (c : Core) => { c with icache := [], icacheUse := [] } }

/-- A watch whose length and base R455 admits. -/
def Watch.ok (w : Watch) : Bool := decide (6 ≤ w.m ∧ w.m ≤ 30) && w.base % 2 ^ w.m == 0

/-- A watch of the context that overlaps an access (R455); kind 1 read, 2 write. -/
def watchHit (s : State) (ctx kind va n : Nat) : Option Nat :=
  let c := getCtx s ctx
  if !c.attached then none
  else (c.watches.find? fun (_, w) =>
    w.ok && w.kind.testBit (kind - 1) && decide (w.base < va + n) && decide (va < w.base + 2 ^ w.m)).map (·.1)

/-! ### Scratch -/

/-- The byte of a crew's allocation, and its size (R189, R218). -/
def scratchSize (c : Crew) : Nat := c.scr + 32768 * c.ways.length

/-- Resolves a scratch access: the crew and offset, or the reason of SCRATCH_BOUND (R189). `members`: the crews of the
lowest group slot whose group has a pooled window with a member on the column. -/
def resolveScratch (s : State) (core crew : Nat) (member : Nat → Option Nat) (sa n : Nat) : Except Nat (Nat × Nat) :=
  if 2 ^ 22 ≤ sa then .error 1
  else
    let col := sa / 2 ^ 20
    let off := sa % 2 ^ 20
    if col = core % 4 then
      if scratchSize (kvD s.crews crew {}) < off + n then .error 2 else .ok (crew, off)
    else match member col with
      | none => .error 3
      | some m => if scratchSize (kvD s.crews m {}) < off + n then .error 4 else .ok (m, off)

/-- The group in slot k of a crew of a launch, with its entry number: slots fill in ascending entry order (R382). -/
def groupInSlot (l : Launch) (num k : Nat) : Option (Nat × Group) :=
  (kvFilter l.groups fun _ g => g.members.contains num)[k]?

/-- The crew that a column reaches through the lowest group slot of the issuing crew whose group has a pooled window with
a member there (R189, R384). -/
def windowMember (s : State) (crew col : Nat) : Option Nat :=
  let c := kvD s.crews crew {}
  let l := getLaunch s c.launch
  (List.range 4).findSome? fun k =>
    match groupInSlot l c.num k with
    | none => none
    | some (_, g) =>
      if g.flags.testBit 2 then
        (s.crews.find? fun (_, d) => d.launch == c.launch && g.members.contains d.num && (d.phase == .resident || d.phase == .stopped) &&
          decide (d.core % 4 = col) && decide (d.core / 4 = c.core / 4)).map (·.1)
      else none

def scratchBytes (c : Crew) (off n : Nat) : List Byte := cellsGet c.scratch off n

/-- Writes scratch bytes of a crew; the write clears their poison (R450). -/
def scratchPut (s : State) (crew off : Nat) (bs : List Byte) : State :=
  modCrew s crew fun c => { c with
    scratch := cellsSet c.scratch off bs
    scrPoison := c.scrPoison.filter fun k => decide (k < off) || decide (off + bs.length ≤ k) }

/-- Poison in a span of scratch: the lowest poisoned offset. -/
def scratchPoison (c : Crew) (off n : Nat) : Option Nat :=
  c.scrPoison.find? fun k => decide (off ≤ k) && decide (k < off + n)

/-! ### Lanes and commands that meet in scratch (R234) -/

/-- The key of a byte of a crew's scratch in Command.was. -/
def wasKey (crew off : Nat) : Nat := 2 ^ 20 * crew + off

/-- A byte of a crew's scratch lies in one of the regions. -/
def regionsHold (rs : List Region) (crew off : Nat) : Bool :=
  rs.any fun r => match r with
    | .bytes c lo hi => c == crew && decide (lo ≤ off) && decide (off < hi)
    | .tile _ _ => false

/-- A byte as an access meets it: of each aligned 8-byte word the value in place, or the old one. -/
def meetByte (tick : Nat) (was : KV Byte) (crew off : Nat) (b : Byte) : Byte :=
  let k := wasKey crew off
  if Config.meetsOld tick (k / 8) then (kvGet was k).getD b else b

/-- Scratch bytes as a lane's load sees them beside the commands in flight that have written there. -/
def meetCommands (s : State) (crew off : Nat) (bs : List Byte) : List Byte :=
  s.cmds.foldl (fun bs e => if e.2.was.isEmpty then bs else bs.zipIdx.map fun b =>
    if regionsHold e.2.writes crew (off + b.2) then meetByte s.tick e.2.was crew (off + b.2) b.1 else b.1) bs

/-- A command before whose read, or after whose write, a lane stores to a byte that held `old`. -/
def Command.noteStore (c : Command) (crew off : Nat) (old : Byte) : Command :=
  let k := wasKey crew off
  let reading := regionsHold c.reads crew off
  if regionsHold c.writes crew off && (!reading || c.phase != .waiting) then { c with was := kvDel c.was k }
  else if reading && (c.phase == .waiting || c.phase == .started) && (kvGet c.was k).isNone then
    { c with was := kvSet c.was k old }
  else c

/-- A lane's store to a crew's scratch. -/
def lanePut (s : State) (crew off : Nat) (bs : List Byte) : State :=
  let olds := (scratchBytes (kvD s.crews crew {}) off bs.length).zipIdx
  let note (c : Command) : Command := olds.foldl (fun c e => c.noteStore crew (off + e.2) e.1) c
  scratchPut { s with cmds := kvMap s.cmds fun _ c => if c.phase = .completed then c else note c } crew off bs

/-- The scratch as a command reads it: a lane's store to a word it reads reaches it whole or not at all. -/
def overlayOld (s : State) (c : Command) : State :=
  c.was.foldl (fun s (k, _) =>
    let (crew, off) := (k / 2 ^ 20, k % 2 ^ 20)
    modCrew s crew fun d => { d with scratch := cellSet d.scratch off (meetByte s.tick c.was crew off (cellGet d.scratch off)) }) s

/-- The scratch after a command has read it: a byte that the command left as it read it is what the lanes stored. -/
def underlayNew (before read after : State) (c : Command) : State :=
  c.was.foldl (fun s (k, _) =>
    let (crew, off) := (k / 2 ^ 20, k % 2 ^ 20)
    let byte (t : State) : Byte := cellGet (kvD t.crews crew {}).scratch off
    if byte after = byte read then modCrew s crew fun d => { d with scratch := cellSet d.scratch off (byte before) } else s) after

/-- The bytes of a region that differ after a command's writes, as they were before. -/
def changedBytes (before after : State) (r : Region) : KV Byte :=
  match r with
  | .tile _ _ => []
  | .bytes crew lo hi =>
    let cells (s : State) : List Host.Cell := (kvD s.crews crew {}).scratch.filter fun c => decide (lo ≤ c.1) && decide (c.1 < hi)
    let (old, new) := (cells before, cells after)
    (old ++ new).foldl (fun m c =>
      let b := cellGet old c.1
      if b = cellGet new c.1 then m else kvSet m (wasKey crew c.1) b) []

/-- Notes, under a command that is still in flight, the bytes that its writes have changed. -/
def noteWrites (before after : State) (cmd : Nat) : State :=
  { after with cmds := kvMod after.cmds cmd fun c =>
      let kept := kvFilter c.was fun k _ => regionsHold c.writes (k / 2 ^ 20) (k % 2 ^ 20) &&
        !regionsHold c.reads (k / 2 ^ 20) (k % 2 ^ 20)
      { c with was := ((c.writes.map (changedBytes before after)).flatten).foldl (fun m e => kvSet m e.1 e.2) kept } }

/-! ### Versions -/

/-- The bytes a version holds of a block, merged over other bytes (R236). -/
def versionByte (v : Version) (va : Nat) : Option Byte :=
  (v.lines.find? fun l => l.line == va / 128).bind fun l =>
    if l.mask.getLsbD (va % 128) then some (cellGet l.data (va % 128)) else none

/-- Writes a byte into a version, its line at a home stack (R376); a block declared zero before becomes tag 0 (R198). -/
def versionPut (v : Version) (va home : Nat) (b : Byte) : Version :=
  let upd (l : VersionLine) : VersionLine :=
    { l with mask := l.mask ||| BitVec.ofNat 128 (2 ^ (va % 128)), data := cellSet l.data (va % 128) b,
             tags := if (kvGet l.tags (va / 64 % 2)).isSome then kvSet l.tags (va / 64 % 2) 0 else l.tags }
  if v.lines.any fun l => l.line == va / 128 then
    { v with lines := v.lines.map fun l => if l.line = va / 128 then upd l else l }
  else { v with lines := v.lines ++ [upd { line := va / 128, home := home }] }

/-- The version lines of some bins at a stack. -/
def binLines (stack : Nat) (bins : List Bin) : Nat :=
  bins.foldl (fun n b => b.threads.foldl (fun n t => match t.version with
    | some v => n + (v.lines.filter fun l => l.home == stack).length
    | none => n) n) 0

/-- The version lines that the device holds at a stack: those of lanes, and of threads in bins, in cores and in images (R376). -/
def sliceLines (s : State) (stack : Nat) : Nat :=
  let lanes := s.crews.foldl (fun n (_, c) => c.warps.foldl (fun n (_, w) => w.versions.foldl (fun n (_, v) =>
    n + (v.lines.filter fun l => l.home == stack).length) n) (n + binLines stack c.bins)) 0
  s.cores.foldl (fun n (_, c) => n + binLines stack (c.bins.map (·.2))) lanes

/-- The lines that a stack's slice holds at most for versions: 256 MiB (R376). -/
def sliceShare : Nat := 2 ^ 21

/-- The number of lines a version would hold after writes to the given VAs. -/
def versionLines (v : Version) (vas : List Nat) : Nat :=
  (vas.foldl (fun m va => setIns m (va / 128)) (v.lines.foldl (fun m l => setIns m l.line) [])).length

end Sys2Proof.Machine
end

