-- ==== Sys2Proof/Machine/Access.lean ====
section
/-! DEFINITION. The checks on lane addresses (R200-R203), loads in flight and the store queue (R204-R208), the atomics
(R210-R213), and what each does when it is performed. -/

namespace Sys2Proof.Machine

/-- A 64-bit base plus index, or literal offset (R200). -/
def addrVA (s : State) (x : Site) (w : Enc) (l : Nat) : Nat :=
  let base := rawValue s x .n64 true w.a l
  let idx := match w.lit with
    | some v => wrapNat 64 (signedOf 32 v.toNat)
    | none => rawValue s x .n32 false w.b l
  (base + idx) % 2 ^ 64

/-- A 32-bit base plus index or literal (R200). -/
def addr32 (s : State) (x : Site) (w : Enc) (l : Nat) : Nat :=
  let idx := match w.lit with
    | some v => v.toNat
    | none => rawValue s x .n32 false w.b l
  (rawValue s x .n32 false w.a l + idx) % 2 ^ 32

/-- The width of an access in bytes (R201). -/
def accessWidth (t : Ty) : Nat :=
  match t with
  | .f16 | .bf16 => 2
  | .n64 | .s64 => 8
  | _ => 4

/-- A space that lane accesses reach (R188). -/
inductive Space where
  | global (perm kind : Nat)
  | scratch
  | code
  | fetch
  deriving DecidableEq, Repr

/-- The first condition of R203 that an address meets: its order number, trap code and extra word. -/
structure LaneFault where
  order : Nat := 0
  code : Nat := 0
  tx : Nat := 0
  deriving DecidableEq, Repr

/-- The outcome of the checks on one lane's address. -/
inductive LaneCheck where
  | ok (loc : Loc)
  | fault (f : LaneFault)
  /-- the piece must be touched first -/
  | pend
  deriving DecidableEq, Repr

/-- The site's launch is versioned (R376). -/
def versioned (s : State) (x : Site) : Bool := (getLaunch s x.cr.launch).vers

/-- R203 for one lane; an atomic in a versioned launch lacks its permission (R212). -/
def checkLane (s : State) (x : Site) (sp : Space) (w a : Nat) : LaneCheck :=
  if a % w != 0 then .fault { order := 1, code := 0x08, tx := w }
  else match sp with
  | .scratch =>
    match resolveScratch s x.ref.core x.ref.crew (windowMember s x.ref.crew) a w with
    | .error r => .fault { order := 2, code := 0x0D, tx := a % 2 ^ 22 + 2 ^ 24 * r }
    | .ok (c, o) => .ok (.scratch c o)
  | .code =>
    if x.k.codeSz < a + w then .fault { order := 2, code := 0x09, tx := 0 }
    else
      match translate s (some x.ref.core) x.cr.ctx permNone (x.k.codeVa + a) with
      | .ok pa _ => .ok (.mem pa)
      | .miss tx => .fault { order := 2, code := 0x09, tx := tx }
      | .absent => .fault { order := 5, code := 0x0B, tx := 1 }
      | _ => .pend
  | .fetch =>
    match translate s (some x.ref.core) x.cr.ctx permExec a with
    | .miss tx => .fault { order := 2, code := 0x09, tx := tx }
    | .perm tx => .fault { order := 3, code := 0x0A, tx := tx }
    | .absent => .fault { order := 5, code := 0x0B, tx := 1 }
    | .ok pa _ => .ok (.mem pa)
    | _ => .pend
  | .global perm kind =>
    match translate s (some x.ref.core) x.cr.ctx perm a with
    | .miss tx => .fault { order := 2, code := 0x09, tx := tx }
    | .perm tx => .fault { order := 3, code := 0x0A, tx := if kind = 3 ∧ versioned s x then 4 else tx }
    | t =>
      if kind = 3 ∧ versioned s x then .fault { order := 3, code := 0x0A, tx := 4 }
      else match watchHit s x.cr.ctx kind a w with
      | some k => .fault { order := 4, code := 0x12, tx := k }
      | none =>
        match t with
        | .absent => .fault { order := 5, code := 0x0B, tx := 1 }
        | .ok pa _ => .ok (.mem pa)
        | _ => .pend

/-- The VA that a trap on an address records (R203). -/
def faultVa (x : Site) (sp : Space) (a : Nat) : Nat :=
  match sp with
  | .scratch => 0
  | .code => (x.k.codeVa + a) % 2 ^ 56
  | .global _ _ | .fetch => a % 2 ^ 56

/-- The one trap that the lanes raise: the first condition any lane meets, over every lane that meets it (R203). A misaligned
scratch address is recorded as it is (DEDUCED: R203 says VA 0 of SCRATCH_BOUND alone). -/
def laneTrap (x : Site) (sp : Space) (cs : List (Nat × Nat × LaneCheck)) : Option TrapInfo :=
  let fs := cs.filterMap fun (l, a, c) => match c with | .fault f => some (l, a, f) | _ => none
  match pickMin (fun p q => decide (p.2.2.order < q.2.2.order)) fs with
  | none => none
  | some (_, a, f) =>
    some { code := f.code, tx := BitVec.ofNat 32 f.tx, va := if f.code = 0x08 ∧ sp = .scratch then a else faultVa x sp a,
           mask := maskOf ((fs.filter fun p => p.2.2.order == f.order && p.2.2.code == f.code).map (·.1)) }

/-- What the checks on the lanes of one instruction come to. -/
inductive Checked where
  | ok (s : State) (locs : List (Nat × Nat × Loc))
  | trap (t : TrapInfo)
  | wait (s : State) (move : Option Nat)
  deriving DecidableEq, Repr

/-- Touches the pieces of the lanes that have no translation yet: the state, whether any still waits, its move, and the
lanes whose touch fails with a reason. -/
def touchLanes (s : State) (x : Site) (sp : Space) : List (Nat × Nat) → State × Bool × Option Nat × List (Nat × Nat × Nat)
  | [] => (s, false, none, [])
  | (l, a) :: rest =>
    let perm := match sp with | .global p _ => p | .code => permNone | _ => permExec
    let va := match sp with | .code => x.k.codeVa + a | _ => a
    let ring := nearestStack x.ref.core
    let next (s : State) (w : Bool) (m : Option Nat) (f : List (Nat × Nat × Nat)) :=
      let (s, w', m', f') := touchLanes s x sp rest
      (s, w || w', m.orElse fun _ => m', f ++ f')
    let await (a' : Await) := match a' with
      | .again s => next s false none []
      | .on s k => next s true (some k) []
      | .fails r => next s false none [(l, a, r)]
    match translate s (some x.ref.core) x.cr.ctx perm va with
    | .place y => await (firstTouch s x.cr.ctx va ring y)
    | .recall y => await (startRecall s x.cr.ctx va ring y)
    | .moving => next s true (moveAt s x.cr.ctx va) []
    | .locked => next s true none []
    | _ => next s false none []

/-- The locations of lanes whose checks all pass. -/
def okLocs (cs : List (Nat × Nat × LaneCheck)) : Option (List (Nat × Nat × Loc)) :=
  if cs.all fun (_, _, c) => match c with | .ok _ => true | _ => false then
    some (cs.filterMap fun (l, a, c) => match c with | .ok loc => some (l, a, loc) | _ => none)
  else none

/-- Notes the pieces the lanes used in the core's range table (R405). -/
def noteLanes (s : State) (x : Site) (sp : Space) (as : List (Nat × Nat)) : State :=
  let note (perm base : Nat) : State := as.foldl (fun s (_, a) =>
    match translate s (some x.ref.core) x.cr.ctx perm (base + a) with
    | .ok _ p => notePiece s x.ref.core x.cr.ctx p
    | _ => s) s
  match sp with
  | .global perm _ => note perm 0
  | .fetch => note permExec 0
  | .code => note permNone x.k.codeVa
  | .scratch => s

/-- The lanes that lie in the unit whose move has failed, with the reason (R410, R411). -/
def failedLanes (x : Site) (sp : Space) (as : List (Nat × Nat)) : Option (Nat × List (Nat × Nat)) :=
  match x.wp.touchFail with
  | none => none
  | some (r, lo, hi) =>
    let base := match sp with | .code => x.k.codeVa | _ => 0
    match as.filter fun (_, a) => decide (lo ≤ base + a) && decide (base + a < hi) with
    | [] => none
    | bad => some (r, bad)

/-- The RESIDENCY of lanes whose touch fails with a reason; the lowest gives the VA (R203, R408). -/
def residencyTrap (x : Site) (sp : Space) (r : Nat) (bad : List (Nat × Nat)) : TrapInfo :=
  { code := 0x0B, tx := BitVec.ofNat 32 r, mask := maskOf (bad.map (·.1)), va := faultVa x sp ((bad.headD (0, 0)).2) }

/-- The checks of R203 over the lanes of one instruction, with first touches and recalls (R407). -/
def checkLanes (s : State) (x : Site) (sp : Space) (w : Nat) (as : List (Nat × Nat)) : Checked :=
  let run (s : State) := as.map fun (l, a) => (l, a, checkLane s x sp w a)
  match laneTrap x sp (run s) with
  | some t => .trap t
  | none =>
    match okLocs (run s) with
    | some locs => .ok (noteLanes s x sp as) locs
    | none =>
      match failedLanes x sp (as.filter fun (_, a) => checkLane s x sp w a == .pend) with
      | some (r, bad) => .trap (residencyTrap x sp r bad)
      | none =>
        match touchLanes s x sp as with
        | (s', false, _, []) => (match okLocs (run s') with
          | some locs => .ok (noteLanes s' x sp as) locs
          | none => .wait s' none)
        | (s', _, m, []) => .wait s' m
        | (_, _, _, f :: fs) =>
          .trap (residencyTrap x sp f.2.2 (((f :: fs).filter fun e => e.2.2 == f.2.2).map fun e => (e.1, e.2.1)))

/-- Waiting on a move: the warp notes it (R411). -/
def Site.waitOn (x : Site) (m : Option Nat) : Site := { x with wp := { x.wp with touchWait := m, touchFail := none } }
/-- A trap of a failed touch forgets the failure. -/
def Site.touched (x : Site) : Site := { x with wp := { x.wp with touchWait := none, touchFail := none } }

/-- The active lanes with an address each. -/
def laneAddrs (x : Site) (f : Nat → Nat) : List (Nat × Nat) := (lanesOf x.act).map fun l => (l, f l)

/-! ### Loads in flight -/

/-- Bytes that a queued store of the warp holds for a location byte: the newest wins (R204). -/
def queuedByte (q : List StoreEntry) (loc : Loc) (k : Nat) : Option Byte :=
  q.foldl (fun r e =>
    match e.kind with
    | .store _ _ | .spill | .zero =>
      e.lanes.foldl (fun r a =>
        let hit (b d : Nat) : Option Byte :=
          if b ≤ d + k ∧ d + k < b + e.width then some (BitVec.ofNat 8 (a.x / 256 ^ (d + k - b))) else r
        match a.loc, loc with
        | .mem p, .mem p' => hit p p'
        | .scratch c o, .scratch c' o' => if c = c' then hit o o' else r
        | _, _ => r) r
    | _ => r) none

/-- Two accesses share a byte. -/
def locsOverlap (a : Loc) (n : Nat) (b : Loc) (m : Nat) : Bool :=
  match a, b with
  | .mem p, .mem q => decide (p < q + m) && decide (q < p + n)
  | .scratch c o, .scratch d r => c == d && decide (o < r + m) && decide (r < o + n)
  | _, _ => false

/-- The bytes a queue entry touches at a location. -/
def entryTouches (e : StoreEntry) (loc : Loc) (n : Nat) : Bool := e.lanes.any fun a => locsOverlap a.loc e.width loc n

/-- Two locations lie in one column's scratch, as one warp reaches it (R189, R190). -/
def sameColumn (a b : Loc) : Bool :=
  match a, b with
  | .scratch c _, .scratch d _ => c == d
  | _, _ => false

/-- The queue as a lane's load sees it: in a versioned launch a global store enters the version of its own lane, and no other
lane sees it (R236, R376). -/
def queueOf (vers : Bool) (lane : Nat) (q : List StoreEntry) : List StoreEntry :=
  if vers then q.map fun e => { e with lanes := e.lanes.filter fun a => a.lane == lane || (match a.loc with
    | .scratch _ _ => true
    | .mem _ => false) }
  else q

/-- How a load's lane can be served: from the queue, from memory, or not yet (R204, R225). -/
inductive Serve where
  | queue (bs : List Byte)
  | memory
  | wait
  deriving DecidableEq, Repr

def serveLane (vers : Bool) (lane : Nat) (q : List StoreEntry) (loc : Loc) (n : Nat) : Serve :=
  let q := queueOf vers lane q
  if q.any fun e => entryTouches e loc n then
    let bs := (List.range n).map fun k => queuedByte q loc k
    let soft := q.all fun e => !entryTouches e loc n || (match e.kind with | .store _ _ | .spill | .zero => true | _ => false)
    if soft && bs.all (·.isSome) then .queue (bs.map (·.getD 0)) else .wait
  else .memory

/-- The value that a load's bytes deliver to a register (R201). -/
def loadValue (bs : List Byte) : Nat := leNat bs

/-- Marks a destination in flight poisoned (R450). -/
def Regs.poisonDest (r : Regs) (d : Dest) (lane : Nat) : Regs :=
  match d with
  | .none => r
  | .main reg _ => { r with vpoison := setIns r.vpoison (64 * reg + lane) }
  | .scalar reg _ => { r with spoison := setIns r.spoison reg }

/-- The ray pool of a context: its base and its size (R289, R344). -/
def poolVa (s : State) (ctx : Nat) : Nat := descField s ctx 40 8
def poolSize (s : State) (ctx : Nat) : Nat := descField s ctx 32 8

/-- A VA of a context lies in its ray pool, whose lines no L1 holds (R290). -/
def inPool (s : State) (ctx va : Nat) : Bool := decide (poolVa s ctx ≤ va) && decide (va < poolVa s ctx + poolSize s ctx)

/-- Reads a load's lane from memory or scratch: the state, the bytes, and whether they are poisoned. A line of the pool is read
at its home (R290). -/
def readLoc (s : State) (core sc : Nat) (pool : Bool) (loc : Loc) (n : Nat) : State × List Byte × Bool :=
  match loc with
  | .mem pa => if pool then (s, homeBytes s pa n, isPoisonTag (homeTag s pa)) else l1Load s core sc pa n
  | .scratch c o => (s, meetCommands s c o (scratchBytes (kvD s.crews c {}) o n), (scratchPoison (kvD s.crews c {}) o n).isSome)

/-- The version of a lane in a versioned launch takes precedence over memory (R236). -/
def overVersion (vers : Bool) (wp : Warp) (a : LaneAccess) (bs : List Byte) : List Byte :=
  match vers, a.loc with
  | true, .mem _ => bs.zipIdx.map fun (b, k) => ((versionByte (kvD wp.versions a.lane {}) (a.va + k))).getD b
  | _, _ => bs

/-- The bytes of a lane's load that its version holds, when it holds them all. -/
def versionBytes (vers : Bool) (wp : Warp) (a : LaneAccess) (n : Nat) : Option (List Byte) :=
  match vers, a.loc with
  | true, .mem _ => (List.range n).mapM fun k => versionByte (kvD wp.versions a.lane {}) (a.va + k)
  | _, _ => none

/-- A lane of a load as it is issued: served at once when the queue, or else its version, holds all its bytes (R204, R236). -/
def takeEarly (vers : Bool) (wp : Warp) (n : Nat) (a : LaneAccess) : LaneAccess :=
  match serveLane vers a.lane wp.storeQ a.loc n with
  | .queue bs => { a with x := leNat bs, done := true }
  | .wait => a
  | .memory => match versionBytes vers wp a n with
    | some bs => { a with x := leNat bs, done := true }
    | none => a

/-- The saturating %lat of a load (R205). -/
def latOf (n : Nat) : W32 := BitVec.ofNat 32 (min n 0xFFFFFFFF)

/-- A warp's identity among the resident warps: the device warp slot (R287). -/
def dwsOf (core part slot : Nat) : Nat := 192 * core + 24 * part + slot

/-- The resident warp in a device warp slot: core, crew and warp number. -/
def warpAt (s : State) (dws : Nat) : Option IssueRef :=
  s.crews.findSome? fun (ck, c) =>
    if c.phase = .resident ∨ c.phase = .stopped then
      (c.warps.find? fun (_, w) => !w.retired && dwsOf c.core w.part w.wslot == dws).map fun (wk, _) => ⟨c.core, ck, wk⟩
    else none

/-! ### Stores and atomics as they are performed -/

/-- The operation of R83 on a location's old value: x the operand, y the new value of a compare and swap. -/
def atomicNew (p : Profile) (code : Nat) (t : Ty) (old x y : Nat) : Nat :=
  let w := 8 * accessWidth t
  match code with
  | 0 => if t = .f32 then (faddE p fmt32 .rne old x).1 else (old + x) % 2 ^ w
  | 1 => if t = .f32 then (fminmaxE p fmt32 false p.num old x).1 else minV t old x
  | 2 => if t = .f32 then (fminmaxE p fmt32 true p.num old x).1 else maxV t old x
  | 3 => old &&& x
  | 4 => old ||| x
  | 5 => old ^^^ x
  | 6 => x
  | 7 => if old = x then y else old
  | 8 => if x ≤ old then 0 else old + 1
  | _ => if old = 0 ∨ x < old then x else old - 1

/-- The blocks that the lanes of one store write wholly (R198). -/
def wholeBlocks (w : Nat) (lanes : List LaneAccess) : List Nat :=
  let pas := lanes.filterMap fun a => match a.loc with | .mem p => some p | _ => none
  (pas.foldl (fun m p => setIns m (p / 64)) []).filter fun b =>
    (List.range (64 / w)).all fun k => pas.contains (64 * b + w * k)

/-- One lane of a store that leaves its queue (R207). -/
def storeLane (s : State) (r : IssueRef) (sc w : Nat) (vers : Bool) (whole : List Nat) (a : LaneAccess) : State :=
  let bs := leBytes w a.x
  match a.loc with
  | .scratch c o => lanePut s c o bs
  | .mem pa =>
    if vers then
      match getWarp s r.crew r.warp with
      | none => s
      | some wp =>
        let v := bs.zipIdx.foldl (fun v (b, k) => versionPut v (a.va + k) (homeStack pa) b) (kvD wp.versions a.lane {})
        setWarp s r.crew r.warp { wp with versions := kvSet wp.versions a.lane v }
    else if inPool s (kvD s.crews r.crew {}).ctx a.va then homePuts s pa bs
    else l1Store s r.core sc pa bs (whole.contains (pa / 64))

/-- One lane of an atomic or reduction at its home or bank (R210, R211): the state and the old value, none on a POISON
block. -/
def atomicLane (s : State) (core : Nat) (p : Profile) (code : Nat) (t : Ty) (a : LaneAccess) : State × Option Nat :=
  let w := accessWidth t
  match a.loc with
  | .scratch c o =>
    let old := leNat (scratchBytes (kvD s.crews c {}) o w)
    (lanePut s c o (leBytes w (atomicNew p code t old a.x a.y)), some old)
  | .mem pa =>
    let s := flushSector s core (pa / 64)
    if isPoisonTag (homeTag s pa) then (s, none)
    else
      let old := homeNat s pa w
      (homePuts s pa (leBytes w (atomicNew p code t old a.x a.y)), some old)

/-- One lane of an atomic is performed: its destination is filled; on a POISON block it is left as it is (R202, R213). -/
def atomicAt (s : State) (r : IssueRef) (p : Profile) (code : Nat) (t : Ty) (dst : Dest) (a : LaneAccess) : State × Bool :=
  match atomicLane s r.core p code t a with
  | (s, none) => (s, false)
  | (s, some v) => match getWarp s r.crew r.warp with
    | none => (s, true)
    | some wp => (setWarp s r.crew r.warp { wp with regs := wp.regs.fillDest dst a.lane v }, true)

/-- The lanes of an atomic, in ascending order; with the state, those left on POISON blocks. -/
def atomicLanes (s : State) (r : IssueRef) (p : Profile) (code : Nat) (t : Ty) (dst : Dest) :
    List LaneAccess → State × List LaneAccess
  | [] => (s, [])
  | a :: rest =>
    let (s, ok) := if a.done then (s, true) else atomicAt s r p code t dst a
    let (s, bad) := atomicLanes s r p code t dst rest
    (s, if ok then bad else a :: bad)

/-- A zero declaration of one block: at the home, and a present L1 sector becomes a clean zero sector (R215). -/
def zeroLane (s : State) (r : IssueRef) (vers : Bool) (a : LaneAccess) : State :=
  match a.loc with
  | .scratch _ _ => s
  | .mem pa =>
    if vers then
      match getWarp s r.crew r.warp with
      | none => s
      | some wp =>
        let v := (List.range 64).foldl (fun v k => versionPut v (a.va + k) (homeStack pa) 0) (kvD wp.versions a.lane {})
        let v := { v with lines := v.lines.map fun l =>
          if l.line = a.va / 128 then { l with tags := kvSet l.tags (a.va / 64 % 2) 0x7000 } else l }
        setWarp s r.crew r.warp { wp with versions := kvSet wp.versions a.lane v }
    else
      let s := homeZero s (alignDown pa 64) (alignDown pa 64 + 64)
      match sectorAt s r.core (pa / 64) with
      | none => s
      | some x => putSector s r.core (pa / 64) { x with data := List.replicate 64 0, valid := ~~~0, dirty := 0,
                                                        tag := 0x7000, tagDirty := false, scope := 3, zero := true }

/-- Cache maintenance of one line of the issuing core (R216). -/
def flushLane (s : State) (core : Nat) (inval : Bool) (a : LaneAccess) : State :=
  match a.loc with
  | .scratch _ _ => s
  | .mem pa =>
    let b := pa / 128 * 2
    if inval then flushSector (flushSector s core b) core (b + 1) else writeBack (writeBack s core b) core (b + 1)

end Sys2Proof.Machine
end

