-- ==== Sys2Proof/Machine/MemInstr.lean ====
section
/-! DEFINITION. The memory instructions (R199-R218) and the return of a load's data (R206). -/

namespace Sys2Proof.Machine

/-- The block of a location, as the core reads it at a scope, is POISON (R51, R198), or the scratch word is poisoned (R450). -/
def poisonedLoc (s : State) (core sc : Nat) (loc : Loc) (n : Nat) : Bool :=
  match loc with
  | .mem pa =>
    isPoisonTag (match sectorAt s core (pa / 64) with
      | some y => if sc < 2 ∨ y.dirty ≠ (0 : Mask) then y.tag else homeTag s pa
      | none => homeTag s pa)
  | .scratch c o => (scratchPoison (kvD s.crews c {}) o n).isSome

/-- The lanes of an access that would read poison; a lane served from the queue or a version reads none. -/
def poisonedLanes (s : State) (x : Site) (sc n : Nat) (las : List LaneAccess) : List LaneAccess :=
  las.filter fun a => !a.done && poisonedLoc s x.ref.core sc a.loc n

/-- Some lane that would read poison has bytes in the store queue, which may take the poison away: it waits (R198, R204). -/
def poisonWaits (s : State) (x : Site) (sc n : Nat) (las : List LaneAccess) : Bool :=
  (poisonedLanes s x sc n las).any fun a => serveLane (versioned s x) a.lane x.wp.storeQ a.loc n != .memory

/-- The POISON_CONSUMED of the lanes that would read poison: of scratch words (R450), or of POISON blocks (R203 order 5). -/
def poisonTrap (s : State) (x : Site) (sp : Space) (sc n : Nat) (las : List LaneAccess) : Option TrapInfo :=
  match poisonedLanes s x sc n las with
  | [] => none
  | a :: rest =>
    let m := maskOf ((a :: rest).map (·.lane))
    match a.loc with
    | .scratch c o =>
      let k := (scratchPoison (kvD s.crews c {}) o n).getD 0
      some { code := 0x11, tx := BitVec.ofNat 32 (2 ^ 31 + 3 * 2 ^ 28 + k), mask := m }
    | .mem _ => some { code := 0x11, mask := m, va := faultVa x sp a.va }

/-- A lane part of an access: scratch lanes hold their scratch address as va. -/
def laneAccess (loc : Nat × Nat × Loc) (x y : Nat) : LaneAccess := { lane := loc.1, va := loc.2.1, loc := loc.2.2, x := x, y := y }

/-- Whether a destination is a scalar. -/
def Dest.isScalar : Dest → Bool
  | .scalar _ _ => true
  | _ => false

/-- The lanes of a load as it is issued: those that the queue or a version serves have their values, unless an earlier .acq of
the warp holds every later load back (R204, R208, R236). -/
def loadLanes (s : State) (x : Site) (sp : Space) (n : Nat) (locs : List (Nat × Nat × Loc)) : List LaneAccess :=
  let las := locs.map fun a => laneAccess a 0 0
  if sp = .code ∨ x.wp.loads.any (·.acq) then las else las.map (takeEarly (versioned s x) x.wp n)

/-- A load (R206, R209): its destination is empty until its data returns. In scalar form one access serves the warp and
every active lane meets its conditions (R69, R203). -/
def loadBody (w : Enc) (sp : Space) (sc : Nat) (acq : Bool) (addr : State → Site → Nat → Nat) (x : Site) (s : State) : Act :=
  if x.act = 0 then .done x s
  else
    let n := accessWidth w.ty
    let dst := destOf w.d (Ty.wide w.ty)
    match checkLanes s x sp n (laneAddrs x (addr s x)) with
    | .trap t => .trap x.touched t s
    | .wait s' m => .block (x.waitOn m) s'
    | .ok s' locs =>
      let las := loadLanes s' x sp n locs
      if sp ≠ .code ∧ poisonWaits s' x sc n las then .block x.touched s'
      else match (if sp = .code then none else poisonTrap s' x sp sc n las) with
      | some t => .trap x.touched t s'
      | none =>
        let e : LoadEntry := { seq := x.wp.nextSeq, ty := w.ty, width := n, sc := sc, acq := acq, code := sp == .code,
                               lanes := if Dest.isScalar dst then las.take 1 else las, dst := dst }
        let x := x.touched.mapRegs fun r => r.emptyDest dst x.act
        .done { x with wp := { x.wp with loads := x.wp.loads ++ [e], nextSeq := x.wp.nextSeq + 1 } } s'

/-- LD (R206). -/
def execLd (w : Enc) (s : State) : Host.Outcome State Fault Refusal :=
  issueInstr (.ld w) w s fun x s => loadBody w (.global permRead 1) (w.sub.toNat % 8) (w.sub.getLsbD 3) (fun s x => addrVA s x w) x s

/-- LDS (R206). -/
def execLds (w : Enc) (s : State) : Host.Outcome State Fault Refusal :=
  issueInstr (.lds w) w s fun x s => loadBody w .scratch (w.sub.toNat % 8) (w.sub.getLsbD 3) (fun s x => addr32 s x w) x s

/-- LDK (R209). -/
def execLdk (w : Enc) (s : State) : Host.Outcome State Fault Refusal :=
  issueInstr (.ldk w) w s fun x s => loadBody w .code 0 false (fun s x => addr32 s x w) x s

/-- Whether a lane of a load can be performed now: no earlier load of the warp with .acq, on the same bytes or in the same
column of scratch is pending, no earlier entry of the queue on that column is, and the lane's bytes are in the queue or in
memory (R190, R204, R208, R225). -/
def laneReady (vers : Bool) (wp : Warp) (e : LoadEntry) (a : LaneAccess) : Bool :=
  let after (b : LaneAccess) (n : Nat) : Bool := !b.done && (locsOverlap a.loc e.width b.loc n || sameColumn a.loc b.loc)
  let queue := wp.storeQ.filter fun q => decide (q.seq < e.seq)
  a.done || ((wp.loads.all fun f => decide (e.seq ≤ f.seq) || (!f.acq && !(f.lanes.any fun b => after b f.width))) &&
    match serveLane vers a.lane queue a.loc e.width with
    | .wait => false
    | .queue _ => true
    | .memory => !(queue.any fun q => q.lanes.any fun b => !b.done && sameColumn a.loc b.loc))

/-- Whether a load's data can return now. -/
def loadReady (vers : Bool) (wp : Warp) (e : LoadEntry) : Bool := e.lanes.all (laneReady vers wp e)

/-- A lane of a load is performed (R206, R221): its value, from the queue, its version, the instruction cache, memory or
scratch, and whether it read poison. -/
def performLane (s : State) (r : IssueRef) (wp : Warp) (e : LoadEntry) (vers : Bool) (a : LaneAccess) : State × LaneAccess :=
  if e.code then match a.loc with
    | .mem pa => (let (s, bs) := readCode s r.core pa e.width; (s, { a with x := leNat bs, done := true }))
    | .scratch _ _ => (s, { a with done := true })
  else
    let b := takeEarly vers { wp with storeQ := wp.storeQ.filter fun q => decide (q.seq < e.seq) } e.width a
    if b.done then (s, b)
    else
      let (s, bs, bad) := readLoc s r.core e.sc (inPool s (kvD s.crews r.crew {}).ctx a.va) a.loc e.width
      (s, { a with x := loadValue (overVersion vers wp a bs), y := if bad then 1 else 0, done := true })

/-- Performs the lanes of a load that are not performed yet, filling the destination (R206, R221). -/
def performLanes (s : State) (r : IssueRef) (e : LoadEntry) (vers : Bool) : List LaneAccess → State
  | [] => s
  | a :: rest =>
    match getWarp s r.crew r.warp with
    | none => s
    | some wp =>
      let (s, b) := if a.done then (s, a) else performLane s r wp e vers a
      let regs := wp.regs.fillDest e.dst a.lane (if b.y = 0 then b.x else 0)
      let regs := if b.y = 0 then regs else regs.poisonDest e.dst a.lane
      performLanes (setWarp s r.crew r.warp { wp with regs := regs }) r e vers rest

/-- The launch of a crew is versioned. -/
def crewVersioned (s : State) (crew : Nat) : Bool := (getLaunch s (kvD s.crews crew {}).launch).vers

/-- LOAD_DATA_RETURN (R206): the k-th load in flight of the warp in a device warp slot is performed, with the acquire step
of .acq (R208). -/
def execLoadDataReturn (dws k : Nat) (s : State) : Host.Outcome State Fault Refusal :=
  .next (match warpAt s dws with
    | none => s
    | some r =>
      match getWarp s r.crew r.warp with
      | none => s
      | some wp =>
        match wp.loads[k]? with
        | none => s
        | some e =>
          if !loadReady (crewVersioned s r.crew) wp e then s
          else
            let s := performLanes s r e (crewVersioned s r.crew) e.lanes
            let s := if e.acq then acquireStep s r.core e.sc else s
            match getWarp s r.crew r.warp with
            | none => s
            | some wp =>
              setWarp s r.crew r.warp { wp with loads := wp.loads.filter (fun f => f.seq != e.seq), lat := latOf e.waited })

/-! ### Stores -/

/-- The store queue has room (R204). -/
def queueRoom (x : Site) : Bool := decide (x.wp.storeQ.length < 16)

/-- Puts an entry into the store queue. -/
def Site.enqueue (x : Site) (e : StoreEntry) : Site :=
  { x with wp := { x.wp with storeQ := x.wp.storeQ ++ [{ e with seq := x.wp.nextSeq, pc := x.tpc }],
                             nextSeq := x.wp.nextSeq + 1 } }

/-- VERSION_OVERFLOW of the lanes whose version, with what the queue holds for it, would need a 513th line or find its
slice share full (R376, R378). -/
def versionTrap (s : State) (x : Site) (locs : List LaneAccess) : Option TrapInfo :=
  if !(getLaunch s x.cr.launch).vers then none
  else
    let global (a : LaneAccess) : Bool := match a.loc with | .mem _ => true | _ => false
    let enters (e : StoreEntry) : Bool := match e.kind with | .store _ _ | .zero => true | _ => false
    let held (l : Nat) : List Nat :=
      ((x.wp.storeQ.filter enters).map fun e => (e.lanes.filter fun a => a.lane == l && global a).map (·.va)).flatten
    let lines (a : LaneAccess) (more : List Nat) : Nat := versionLines (kvD x.wp.versions a.lane {}) (held a.lane ++ more)
    let trap (r : Nat) (bad : List LaneAccess) : Option TrapInfo :=
      match bad with
      | [] => none
      | a :: _ => some { code := 0x10, tx := BitVec.ofNat 32 (r + 2 ^ 16 * lines a []),
                         mask := maskOf (bad.map (·.lane)), va := a.va % 2 ^ 56 }
    let gl := locs.filter global
    (trap 1 (gl.filter fun a => decide (512 < lines a [a.va]))).orElse fun _ =>
      trap 2 (gl.filter fun a => lines a [a.va] != lines a [] &&
        decide (sliceShare ≤ sliceLines s (match a.loc with | .mem pa => homeStack pa | _ => 0)))

/-- An instruction without a destination that reads no per-lane source runs once for the warp (R69). -/
def onceForm (i : Instr) (w : Enc) : Bool :=
  !((wordFields i w).any fun (_, r, o) => r.isSrc && Operand.perLane o)

/-- A store: checked at issue, performed when it leaves the queue (R204, R207). -/
def storeBody (i : Instr) (w : Enc) (sp : Space) (n : Nat) (kind : StoreKind) (dst : Dest) (addr : State → Site → Nat → Nat)
    (val new : Nat → Nat) (x : Site) (s : State) : Act :=
  if x.act = 0 then .done x s
  else if !queueRoom x then .block x s
  else
    match checkLanes s x sp n (laneAddrs x (addr s x)) with
    | .trap t => .trap x.touched t s
    | .wait s' m => .block (x.waitOn m) s'
    | .ok s' locs =>
      let las := (if onceForm i w then locs.take 1 else locs).map fun a => laneAccess a (val a.1) (new a.1)
      match (match kind with | .flush _ _ => none | _ => versionTrap s' x las) with
      | some t => .trap x.touched t s'
      | none =>
        let x := x.touched.mapRegs fun r => r.emptyDest dst x.act
        .done (x.enqueue { kind := kind, width := n, lanes := las, dst := dst }) s'

/-- The value operand of a store in a lane: C, or E when L is 1 (R58, R199). -/
def storeValue (s : State) (x : Site) (w : Enc) (l : Nat) : Nat :=
  srcC s x w.ty w l

/-- ST (R207). -/
def execSt (w : Enc) (s : State) : Host.Outcome State Fault Refusal :=
  issueInstr (.st w) w s fun x s =>
    storeBody (.st w) w (.global permWrite 2) (accessWidth w.ty) (.store (w.sub.toNat % 8) (w.sub.getLsbD 3)) .none
      (fun s x => addrVA s x w) (storeValue s x w) (fun _ => 0) x s

/-- STS (R207). -/
def execSts (w : Enc) (s : State) : Host.Outcome State Fault Refusal :=
  issueInstr (.sts w) w s fun x s =>
    storeBody (.sts w) w .scratch (accessWidth w.ty) (.store (w.sub.toNat % 8) (w.sub.getLsbD 3)) .none
      (fun s x => addr32 s x w) (storeValue s x w) (fun _ => 0) x s

/-- The new value of a compare and swap: E (R210). -/
def casNew (s : State) (x : Site) (w : Enc) (l : Nat) : Nat := if w.sub = 7 then srcValue s x w.ty w.e l else 0

/-- An atomic or reduction on a POISON block: once the warp's earlier accesses are done, the other lanes are performed and
the trap is raised over the poisoned lanes (R213). -/
def poisonAtomic (w : Enc) (x : Site) (s : State) (dst : Dest) (las bad : List LaneAccess) : Act :=
  if !(x.wp.storeQ.isEmpty && x.wp.loads.isEmpty) then .block x s
  else
    let good := las.filter fun a => !bad.contains a
    let s := (atomicLanes s x.ref x.prof w.sub.toNat w.ty dst good).1
    match getWarp s x.ref.crew x.ref.warp with
    | none => .ended s
    | some wp =>
      let m := maskOf (bad.map (·.lane))
      .ended (takeTrap s { x with wp := { wp with touchWait := none, touchFail := none } }
        { code := 0x11, mask := m, va := ((bad.headD {}).va) % 2 ^ 56 } false (some m))

/-- ATOM and RED (R210-R213). -/
def atomBody (w : Enc) (dst : Dest) (isRed : Bool) (x : Site) (s : State) : Act :=
  if x.act = 0 then .done x s
  else
    let n := accessWidth w.ty
    match checkLanes s x (.global permAtomic 3) n (laneAddrs x fun l => addrVA s x w l) with
    | .trap t => .trap x.touched t s
    | .wait s' m => .block (x.waitOn m) s'
    | .ok s' locs =>
      let las := locs.map fun a => laneAccess a (storeValue s x w a.1) (casNew s x w a.1)
      let las := if Dest.isScalar dst || (isRed && onceForm (.red w) w) then las.take 1 else las
      match poisonedLanes s' x 3 n las with
      | [] =>
        if !queueRoom x then .block x s'
        else
          let x := x.touched.mapRegs fun r => r.emptyDest dst x.act
          .done (x.enqueue { kind := .atomic w.sub.toNat w.ty isRed, width := n, lanes := las, dst := dst }) s'
      | bad => poisonAtomic w x s' dst las bad

/-- ATOM (R210). -/
def execAtom (w : Enc) (s : State) : Host.Outcome State Fault Refusal :=
  issueInstr (.atom w) w s fun x s => atomBody w (destOf w.d (Ty.wide w.ty)) false x s

/-- RED (R210). -/
def execRed (w : Enc) (s : State) : Host.Outcome State Fault Refusal :=
  issueInstr (.red w) w s fun x s => atomBody w .none true x s

/-- ATOMS (R210): at the bank of the resolved column. -/
def execAtoms (w : Enc) (s : State) : Host.Outcome State Fault Refusal :=
  issueInstr (.atoms w) w s fun x s =>
    if x.act = 0 then .done x s
    else if !queueRoom x then .block x s
    else
      let n := accessWidth w.ty
      let dst := destOf w.d (Ty.wide w.ty)
      match checkLanes s x .scratch n (laneAddrs x fun l => addr32 s x w l) with
      | .trap t => .trap x t s
      | .wait s' m => .block (x.waitOn m) s'
      | .ok s' locs =>
        let las := locs.map fun a => laneAccess a (storeValue s x w a.1) (casNew s x w a.1)
        if poisonWaits s' x 3 n las then .block x s'
        else match poisonTrap s' x .scratch 3 n las with
        | some t => .trap x t s'
        | none =>
          let las := if Dest.isScalar dst then las.take 1 else las
          let x := x.mapRegs fun r => r.emptyDest dst x.act
          .done (x.enqueue { kind := .atomic w.sub.toNat w.ty false, width := n, lanes := las, dst := dst }) s'

/-! ### Prefetch, maintenance, fences -/

/-- PFETCH.l1 fills the line into the L1; a lane whose address would fault is dropped (R214). A line that the L1 holds already is
filled again, its scope tag 00 (the model's choice, log entry 125). -/
def execPfetch (w : Enc) (s : State) : Host.Outcome State Fault Refusal :=
  issueInstr (.pfetch w) w s fun x s =>
    .done x (if w.sub = 0 then
        (laneAddrs x fun l => addrVA s x w l).foldl (fun s (_, a) =>
          match translate s (some x.ref.core) x.cr.ctx permRead a with
          | .ok pa _ => (filled (filled s x.ref.core (pa / 128 * 2) 0).1 x.ref.core (pa / 128 * 2 + 1) 0).1
          | _ => s) s
      else s)

/-- PFETCH.zero (R215). -/
def execPfetchZero (w : Enc) (s : State) : Host.Outcome State Fault Refusal :=
  issueInstr (.pfetchZero w) w s fun x s =>
    storeBody (.pfetchZero w) w (.global permWrite 2) 64 .zero .none (fun s x => addrVA s x w) (fun _ => 0) (fun _ => 0) x s

/-- A lane address rounded down to its 128-byte line; no alignment is asked of it (R216). -/
def flushBody (i : Instr) (w : Enc) (inval : Bool) (x : Site) (s : State) : Act :=
  storeBody i w (.global permRead 1) 1 (.flush inval (w.sub == 1)) .none (fun s x => addrVA s x w) (fun _ => 0) (fun _ => 0) x s

/-- CFLUSH (R216). -/
def execCflush (w : Enc) (s : State) : Host.Outcome State Fault Refusal :=
  issueInstr (.cflush w) w s fun x s => flushBody (.cflush w) w false x s

/-- CINV (R216). -/
def execCinv (w : Enc) (s : State) : Host.Outcome State Fault Refusal :=
  issueInstr (.cinv w) w s fun x s => flushBody (.cinv w) w true x s

/-- Commands of the warp that name another device and are not yet known as performed (R475). -/
def remotePending (s : State) (x : Site) : Bool :=
  s.cmds.any fun (_, c) => c.crew == x.ref.crew && c.warp == x.ref.warp && !c.performed && (match c.op with
    | .remote _ | .coll .. => true
    | _ => false)

/-- FENCE (R217, R475). -/
def execFence (w : Enc) (s : State) : Host.Outcome State Fault Refusal :=
  issueInstr (.fence w) w s fun x s =>
    if x.act = 0 then .done x s
    else if !(x.wp.storeQ.isEmpty && x.wp.loads.isEmpty) || (w.sub == 4 && remotePending s x) then .block x s
    else .done x (acquireStep (releaseStep s x.ref.core w.sub.toNat) x.ref.core w.sub.toNat)

/-- Accesses of a crew's scratch at or above an offset are outstanding, a command's among them (R218). -/
def scratchBusy (s : State) (crew off : Nat) : Bool :=
  let meets (n : Nat) (a : LaneAccess) : Bool := !a.done && match a.loc with
    | .scratch k o => k == crew && decide (off < o + n)
    | _ => false
  let region (g : Region) : Bool := match g with
    | .bytes k _ hi => k == crew && decide (off < hi)
    | .tile _ _ => false
  (s.crews.any fun (_, c) => c.warps.any fun (_, wp) =>
    (wp.loads.any fun e => e.lanes.any (meets e.width)) || wp.storeQ.any fun e => e.lanes.any (meets e.width)) ||
  s.cmds.any fun (_, c) => c.phase != .completed && (c.reads ++ c.writes).any region

/-- The warp with the predicate of a CSPLIT written. -/
def SplitReq.answer (q : SplitReq) (s : State) (b : Bool) : State :=
  match getWarp s q.crew q.warp with
  | none => s
  | some wp => setWarp s q.crew q.warp { wp with regs := wp.regs.putPred q.pd q.mask (if b then ~~~0 else 0) }

/-- A core's oldest CSPLIT takes effect, unless it must wait (R218). -/
def serveSplit (s : State) (core : Nat) (q : SplitReq) : Option State :=
  let cr := kvD s.crews q.crew {}
  let n := q.n
  let c := cr.ways.length
  let used := convertedWays s core
  if 8 < n ∨ 1048576 < cr.scr + 32768 * n ∨ (c < n ∧ 8 - used.length < n - c) then some (q.answer s false)
  else if c < n then
    let take := (((List.range 16).reverse.filter fun k => !used.contains k).take (n - c))
    let blks := ((getCore s core).l1.filter fun (_, y) => take.contains y.way).map (·.1)
    let s := blks.foldl (fun s b => flushSector s core b) s
    some (q.answer (modCrew s q.crew fun cr =>
      { cr with ways := cr.ways ++ take
                scratch := cellsClear cr.scratch (cr.scr + 32768 * c) (cr.scr + 32768 * n) }) true)
  else if n < c ∧ scratchBusy s q.crew (cr.scr + 32768 * n) then none
  else some (q.answer (modCrew s q.crew fun cr =>
      { cr with ways := cr.ways.take n
                scratch := cellsClear cr.scratch (cr.scr + 32768 * n) (cr.scr + 32768 * c)
                scrPoison := cr.scrPoison.filter fun k => decide (k < cr.scr + 32768 * n) }) true)

/-- A core's CSPLITs take effect in issue order, as far as they can (R218). -/
def serveSplits (core : Nat) : Nat → State → State
  | 0, s => s
  | fuel + 1, s =>
    match (getCore s core).splits with
    | [] => s
    | q :: rest => match serveSplit s core q with
      | none => s
      | some s => serveSplits core fuel (setCore s core { getCore s core with splits := rest })

/-- CSPLIT (R218): its predicate is empty until it takes effect. -/
def execCsplit (w : Enc) (s : State) : Host.Outcome State Fault Refusal :=
  issueInstr (.csplit w) w s fun x s =>
    if x.act = 0 then .done x s
    else
      let q : SplitReq := { crew := x.ref.crew, warp := x.ref.warp, n := uB s x w, pd := w.e.idx.toNat, mask := x.act }
      let x := x.mapRegs fun r => r.emptyPred w.e.idx.toNat
      let s := x.put s (x.advance w)
      let co := getCore s x.ref.core
      .ended (serveSplits x.ref.core (co.splits.length + 1) (setCore s x.ref.core { co with splits := co.splits ++ [q] }))

end Sys2Proof.Machine
end

