-- ==== Sys2Proof/Machine/Reduce.lean ====
section
/-! DEFINITION. Reductions over lanes (R181, R182, R388) and the barriers and reduction phases they and other events
complete (R387-R395). -/

namespace Sys2Proof.Machine

/-! ### Reductions -/

/-- An integer reduction of a list of elements by an operation code of R83; the identity for an empty one (R182). -/
def reduceInt (e : Elem) (op : Nat) (vals : List Int) : Int :=
  match vals with
  | [] => if op = 1 ∨ op = 3 then (if op = 1 then elemHi e else if e.signed then -1 else 2 ^ e.width - 1) else if op = 2 then elemLo e else 0
  | v :: vs =>
    let bit (f : Nat → Nat → Nat) (a b : Int) : Int :=
      let r := f (wrapNat e.width a) (wrapNat e.width b)
      if e.signed then signedOf e.width r else r
    match op with
    | 0 => vs.foldl (· + ·) v
    | 1 => vs.foldl min v
    | 2 => vs.foldl max v
    | 3 => vs.foldl (bit (· &&& ·)) v
    | 4 => vs.foldl (bit (· ||| ·)) v
    | _ => vs.foldl (bit (· ^^^ ·)) v

/-- A reduction of lane values, lowest lane first, before the destination modifier of a floating-point type. -/
def reduceV (p : Profile) (t : Ty) (op dmod : Nat) (vals : List Nat) : Nat × FFlags :=
  match t with
  | .f32 =>
    let r : Nat × FFlags :=
      match vals, op with
      | [], 0 => (0, .none)
      | [], 1 => (fmt32.infBits, .none)
      | [], _ => (fmt32.signed true fmt32.infBits, .none)
      | vs, 0 => fsumList p (p.mode 0) vs
      | vs, 1 => fpickList p false vs
      | vs, _ => fpickList p true vs
    (clampF fmt32 dmod r.1, r.2)
  | .b1 => (resElem (Ty.elem .n32) dmod (reduceInt ⟨1, 1, false⟩ op (vals.map Int.ofNat)), .none)
  | t => (resElem (Ty.elem t) dmod (reduceInt (Ty.elem t) op (vals.map fun v => elemOf (Ty.elem t) v 0)), .none)

/-! ### Crews by number -/

/-- The crew of a launch with a number, and its identifier; a member not yet placed has none. -/
def crewOf (s : State) (launch num : Nat) : Option (Nat × Crew) :=
  s.crews.find? fun (_, c) => c.launch == launch && c.num == num

/-- Whether a warp's arrived lanes together with its vacant ones cover the warp (R394). -/
def warpCovered (width : Nat) (wp : Warp) (arrived : Mask) : Bool :=
  ((arrived ||| ~~~wp.live) &&& maskBelow width) == maskBelow width

/-! ### Bound barriers -/

/-- The warps of a bound barrier that are counted now (R394). -/
def countBar (cr : Crew) (width : Nat) (b : Barrier) : Barrier :=
  { b with counted := cr.warps.foldl (fun m (k, wp) =>
      if b.mask.getLsbD k && warpCovered width wp (kvD b.arrived k 0) then setIns m k else m) b.counted }

/-- A phase that can complete does; the warps that are wholly vacant or retired are counted again in the next one, and
command arrivals that came too early belong to it (R395). With the barrier, the numbers of the phases that completed and the
scopes at which their paths acquire (R396). -/
def testBar (cr : Crew) (width : Nat) : Nat → Barrier → Barrier × List (W32 × Nat)
  | fuel, b =>
    let b := countBar cr width b
    let all := cr.warps.all fun (k, _) => !b.mask.getLsbD k || b.counted.contains k
    if all && b.carr == b.cexp then
      let early := b.late.take b.cexp
      let next : Barrier := countBar cr width
        { b with phase := b.phase + 1, counted := [], carr := early.length, late := b.late.drop b.cexp, arrived := [],
                 scope := early.foldl max 0 }
      match fuel with
      | 0 => (next, [(b.phase, b.scope)])
      | f + 1 =>
        if early.isEmpty then (next, [(b.phase, b.scope)])
        else (let r := testBar cr width f next; (r.1, (b.phase, b.scope) :: r.2))
    else (b, [])

/-- A command's arrival (R250, R395): one that finds CARR equal to CEXP belongs to the next phase. -/
def arriveCommand (b : Barrier) (scope : Nat) : Barrier :=
  if b.carr = b.cexp then { b with late := b.late ++ [scope] } else { b with carr := b.carr + 1, scope := max b.scope scope }

/-- A path that waits for the end of phase n of a barrier is released, to acquire at a scope (R395, R396). -/
def Path.release (group : Bool) (num : Nat) (n : W32) (scope : Nat) (p : Path) : Path :=
  match p.barWait with
  | some (.phase m again) =>
    if m = n ∧ p.barGroup = group ∧ p.barNum = num then { p with barWait := some (.released scope again) } else p
  | _ => p

/-- A warp's paths, those set aside too, are released. -/
def Warp.release (group : Bool) (num : Nat) (n : W32) (scope : Nat) (wp : Warp) : Warp :=
  let f (ps : KV Path) : KV Path := kvMap ps fun _ p => p.release group num n scope
  { wp with paths := f wp.paths, handler := wp.handler.map fun h => { h with paths := f h.paths } }

def Crew.release (group : Bool) (num : Nat) (c : Crew) (e : W32 × Nat) : Crew :=
  { c with warps := kvMap c.warps fun _ wp => wp.release group num e.1 e.2 }

/-- Tests one bound barrier of a crew. -/
def Crew.testBar (width : Nat) (c : Crew) (k : Nat) : Crew :=
  match kvGet c.bars k with
  | none => c
  | some b =>
    let r := Sys2Proof.Machine.testBar c width b.late.length b
    r.2.foldl (Crew.release false k) { c with bars := kvSet c.bars k r.1 }

/-- Tests every bound barrier of a crew. -/
def testBars (s : State) (crew : Nat) : State :=
  modCrew s crew fun c =>
    (c.bars.map (·.1)).foldl (Crew.testBar (getLaunch s c.launch).kernel.width) c

/-! ### Group barriers and reductions -/

/-- Every warp of a group's non-retired members satisfies a test; a member not yet placed is waited for (R387, R395). -/
def membersAll (s : State) (launch : Nat) (g : Group) (f : Nat → Warp → Bool) : Bool :=
  g.members.all fun num => match crewOf s launch num with
    | none => false
    | some (_, c) => c.phase == .retired || c.warps.all fun (k, wp) => wp.retired || f (64 * num + k) wp

/-- The warps of a group that are counted now. -/
def countGroup (s : State) (launch : Nat) (g : Group) : Group :=
  let width := (getLaunch s launch).kernel.width
  let add (m : List Nat) (num : Nat) : List Nat := match crewOf s launch num with
    | none => m
    | some (_, c) => c.warps.foldl (fun m (k, wp) =>
      if warpCovered width wp (kvD g.bar.arrived (64 * num + k) 0) then setIns m (64 * num + k) else m) m
  { g with bar := { g.bar with counted := g.members.foldl add g.bar.counted } }

/-- The barrier of a group can complete its open phase (R395). -/
def groupBarDue (s : State) (launch : Nat) (g : Group) : Bool :=
  g.flags.testBit 0 && membersAll s launch g fun k _ => (countGroup s launch g).bar.counted.contains k

/-- Tests a group's barrier (R395): the paths of every member that wait for the phase are released. -/
def testGroupBar (s : State) (launch e : Nat) : State :=
  let l := getLaunch s launch
  match kvGet l.groups e with
  | none => s
  | some g =>
    let put (g : Group) (s : State) : State := setLaunch s launch { l with groups := kvSet l.groups e g }
    if !g.flags.testBit 0 then s
    else if groupBarDue s launch g then
      let next := countGroup s launch { g with bar := { g.bar with phase := g.bar.phase + 1, counted := [], arrived := [] } }
      put next { s with crews := kvMap s.crews fun _ (c : Crew) =>
        if c.launch == launch && g.members.contains c.num then c.release true e (g.bar.phase, 3) else c }
    else put (countGroup s launch g) s

/-! ### Drawable bins (R147) -/

/-- The spilled entries of every thread of a bin fit the warp's call-stack range (R174). -/
def Bin.spillFits (b : Bin) (rows : Nat) : Bool := b.threads.all fun t => decide (t.spill.length ≤ rows)

/-- The bin that a warp of a crew draws: full ones first, then the one that became drawable earliest (R147). Of two that became
drawable at one moment the lower number goes first (the model's choice, log entry 124). -/
def drawBin (s : State) (c : Crew) (wp : Warp) : Option (Nat × Bin) :=
  let l := getLaunch s c.launch
  let mine := (getCore s c.core).bins.filter fun (_, b) =>
    b.launch == c.launch && b.drawableAt.isSome && decide (b.vb + b.n ≤ wp.n) && b.spillFits l.csrows
  pickMin (fun a b => if a.2.aged != b.2.aged then !a.2.aged
    else decide (a.2.drawableAt.getD 0 < b.2.drawableAt.getD 0)) mine

/-- The five flags as a number, `f.nv` lowest. -/
def flagBits (f : FFlags) : Nat := f.nv.toNat + 2 * f.dz.toNat + 4 * f.of.toNat + 8 * f.uf.toNat + 16 * f.nx.toNat
def bitsFlags (n : Nat) : FFlags := ⟨n.testBit 0, n.testBit 1, n.testBit 2, n.testBit 3, n.testBit 4⟩

/-- Delivers a reduction's result to a warp: the scalar full, the flags in its lanes (R388). -/
def deliverGred (wp : Warp) (w : GredWait) (v flags : Nat) : Warp :=
  let regs := wp.regs.putScalarV w.sd w.wide v
  { wp with regs := (lanesOf w.mask).foldl (fun r l => r.addFlags l (bitsFlags flags)) regs }

/-- The values that a phase combines: the contributed lane values and, for a minimum or maximum of floats, the identity that a
warp without active lanes, an idle warp or a retired one contributes (R387, R388). An integer identity changes nothing, and a
sum of floats is one of lane values. -/
def gredValues (ph : GredPhase) (ident : Bool) : List Nat :=
  let vals := (ph.contribs.map (·.2)).flatten
  if ident && ph.ty == .f32 && ph.sub != 0 then vals ++ [(reduceV (Profile.ofByte 0) .f32 ph.sub 0 []).1] else vals

/-- The result of a completed phase reaches a warp: at once, or at its restore (R388, R389). -/
def gredResult (p : Profile) (ph : GredPhase) (vals : List Nat) (g : Nat) (saved : Bool) (wp : Warp) : Warp :=
  match wp.greds.find? fun w => w.group == g && w.result.isNone with
  | none => wp
  | some w =>
    let r := reduceV p ph.ty ph.sub w.dmod vals
    if saved then
      { wp with greds := wp.greds.map fun v => if v = w then { v with result := some (r.1, flagBits r.2) } else v }
    else deliverGred { wp with greds := wp.greds.filter fun v => v != w } w r.1 (flagBits r.2)

/-- Tests the open reduction phase of group g (R387). -/
def testGred (s : State) (launch g : Nat) : State :=
  let l := getLaunch s launch
  match kvGet l.groups g with
  | none => s
  | some gr =>
    match gr.open_ with
    | none => s
    | some ph =>
      let idle (k : Nat) (wp : Warp) : Bool := wp.live == 0 && !wp.reformed && match crewOf s launch (k / 64) with
        | some (_, c) => (drawBin s c wp).isNone
        | none => false
      if membersAll s launch gr (fun k wp => (kvGet ph.contribs k).isSome || idle k wp) then
        let p := Profile.ofByte l.kernel.prof
        let ident := (ph.contribs.any fun e => e.2.isEmpty) || decide (ph.contribs.length < gr.members.length * l.kernel.crew)
        let vals := gredValues ph ident
        let s := setLaunch s launch { l with groups := kvSet l.groups g { gr with open_ := none, phases := gr.phases + 1 } }
        { s with crews := kvMap s.crews fun _ (c : Crew) =>
            if c.launch == launch && gr.members.contains c.num then
              let saved := c.phase == .saved
              { c with warps := kvMap c.warps fun k (wp : Warp) =>
                  if (kvGet ph.contribs (64 * c.num + k)).isSome then gredResult p ph vals g saved wp else wp }
            else c }
      else s

/-- Lanes that take a new item have not arrived in an open phase that does not yet count their warp (R394). -/
def Barrier.unarrive (b : Barrier) (key : Nat) (m : Mask) : Barrier :=
  if b.counted.contains key then b else { b with arrived := kvMod b.arrived key fun a => a &&& ~~~m }

def unarrive (s : State) (crew warp : Nat) (m : Mask) : State :=
  let c := kvD s.crews crew {}
  let l := getLaunch s c.launch
  let s := modCrew s crew fun c => { c with bars := kvMap c.bars fun _ (b : Barrier) => b.unarrive warp m }
  if l.groups.any fun (_, g) => g.members.contains c.num then
    setLaunch s c.launch { l with groups := kvMap l.groups fun _ (g : Group) =>
      { g with bar := g.bar.unarrive (64 * c.num + warp) m } }
  else s

/-- Nor do arrivals of such lanes that still stand in the store queue count. -/
def Warp.unarrive (wp : Warp) (m : Mask) : Warp :=
  { wp with storeQ := wp.storeQ.map fun e => match e.kind with
      | .arrive g b k => { e with kind := .arrive g b (k &&& ~~~m) }
      | _ => e }

/-- Tests the barriers and phases that a crew's warps can complete. -/
def testSync (s : State) (crew : Nat) : State :=
  match kvGet s.crews crew with
  | none => s
  | some c =>
    let s := testBars s crew
    let l := getLaunch s c.launch
    let mine := (l.groups.filter fun (_, g) => g.members.contains c.num).map (·.1)
    let s := mine.foldl (fun s g => testGroupBar s c.launch g) s
    mine.foldl (fun s g => testGred s c.launch g) s

end Sys2Proof.Machine
end

