-- ==== Sys2Proof/Machine/Items.lean ====
section
/-! DEFINITION. Accesses of the device's own agents to memory at device scope, item sources (R137, R368-R372), filling
lanes with items (R148-R151, R173), and the call-stack range (R167, R367). -/

namespace Sys2Proof.Machine

/-! ### Memory as an agent reaches it -/

/-- What an agent's access comes to. -/
inductive AgentTouch where
  /-- the PA of every byte -/
  | ok (s : State) (pas : List Nat)
  | fault (code tx va : Nat)
  | wait (s : State)
  deriving DecidableEq, Repr

/-- The PAs of the bytes of [va, va + n), from those of its blocks. -/
def bytePas (va n : Nat) (blocks : List Nat) : List Nat :=
  (List.range n).map fun k =>
    let i := (va + k) / 64 - va / 64
    if i = 0 then blocks.getD 0 0 + k else blocks.getD i 0 + (va + k) % 64

/-- Touches n bytes for an agent. -/
def agentTouch (s : State) (core : Option Nat) (ctx perm ring va n : Nat) : AgentTouch :=
  match touchSpan s core ctx perm ring (blockStarts va n) with
  | (.ok s' _, pas) => .ok s' (bytePas va n pas)
  | (.fault code tx, pas) => .fault code tx ((blockStarts va n).getD pas.length va)
  | (.wait s', _) => .wait s'

/-- What an agent's read comes to. -/
inductive AgentRead where
  | ok (s : State) (bytes : List Byte)
  | fault (code tx va : Nat)
  | wait (s : State)
  deriving DecidableEq, Repr

/-- Reads n bytes at their homes at device scope; a POISON block is consumed (R51). -/
def agentRead (s : State) (ctx va n : Nat) : AgentRead :=
  match agentTouch s none ctx permRead 0 va n with
  | .ok s' pas =>
    match pas.findIdx? fun pa => isPoisonTag (homeTag s' pa) with
    | some k => .fault 0x11 0 (va + k)
    | none => .ok s' (pas.map fun pa => homeByte s' pa)
  | .fault c t a => .fault c t a
  | .wait s' => .wait s'

/-- Writes bytes at their homes. -/
def putBytes (s : State) (pas : List Nat) (bs : List Byte) : State :=
  (pas.zip bs).foldl (fun s e => homePut s e.1 e.2) s

/-- The bytes at a VA as they stand, with no touch; none where the VA has no translation now. -/
def peekBytes (s : State) (ctx perm va n : Nat) : Option (List Byte) :=
  match translate s none ctx perm va with
  | .ok pa _ => some ((List.range n).map fun k => homeByte s (pa + k))
  | _ => none

/-! ### Item sources -/

/-- An item as it leaves its source (R137, R368, R370): index, sequence number, payload words. -/
structure Item where
  idx : Nat
  seq : W32
  words : List W32
  deriving DecidableEq, Repr

/-- The fields of an item-queue header (R369). -/
structure QueueHeader where
  ringva : Nat
  tagva : Nat
  head : Nat
  resv : Nat
  closeat : Nat
  logn : Nat
  deriving DecidableEq, Repr

def queueHeader (b : List Byte) : QueueHeader :=
  let f (lo n : Nat) : Nat := leNat ((b.drop lo).take n)
  { ringva := f 0 8, tagva := f 8 8, head := f 16 8, resv := f 24 8, closeat := f 32 8, logn := f 40 1 % 32 }

/-- The lap of a ring index (R369). -/
def lapOf (i n : Nat) : Nat := i / n % (2 ^ 24 - 1) + 1

/-- All ones: an open queue. -/
def openQueue : Nat := 2 ^ 64 - 1

/-- Takes the next item of an item queue, if it has one now (R370). A queue that cannot be read now gives none. -/
def queueItem (s : State) (ctx iq : Nat) : State × Option Item :=
  match kvGet (getCtx s ctx).iq iq with
  | none => (s, none)
  | some hva =>
    match agentTouch s none ctx permWrite 0 hva 64 with
    | .ok s hp =>
      let h := queueHeader (hp.map fun pa => homeByte s pa)
      let n := 2 ^ h.logn
      match agentRead s ctx (h.tagva + 8 * (h.head % n)) 8 with
      | .ok s tb =>
        let tag := leNat tb
        if tag / 2 ^ 40 = lapOf h.head n ∧ h.head < h.closeat then
          match agentRead s ctx (h.ringva + 32 * (h.head % n)) 32 with
          | .ok s pb =>
            let s := putBytes s ((hp.drop 16).take 8) (leBytes 8 (h.head + 1))
            (s, some { idx := tag % 2 ^ 40, seq := BitVec.ofNat 32 h.head,
                       words := (List.range 8).map fun k => BitVec.ofNat 32 (leNat ((pb.drop (4 * k)).take 4)) })
          | .wait s => (s, none)
          | .fault _ _ _ => (s, none)
        else (s, none)
      | .wait s => (s, none)
      | .fault _ _ _ => (s, none)
    | .wait s => (s, none)
    | .fault _ _ _ => (s, none)

/-- The next item of a launch's source. -/
def nextItem (s : State) (launch : Nat) : State × Option Item :=
  let l := getLaunch s launch
  match l.itemQueue with
  | some q => queueItem s l.ctx q
  | none =>
    if l.nextItem < l.items then
      let i := l.nextItem
      (setLaunch s launch { l with nextItem := i + 1 },
       some { idx := i, seq := BitVec.ofNat 32 i,
              words := [lowWord i, BitVec.ofNat 32 (i / 2 ^ 32 % 256)] ++ List.replicate 6 0 })
    else (s, none)

/-- The source of a launch has given its last item (R150, R372). -/
def sourceDrained (s : State) (l : Launch) : Bool :=
  match l.itemQueue with
  | none => decide (l.items ≤ l.nextItem)
  | some q =>
    match (kvGet (getCtx s l.ctx).iq q).bind fun hva => peekBytes s l.ctx permWrite hva 64 with
    | none => false
    | some b => let h := queueHeader b; h.closeat != openQueue && decide (h.closeat ≤ h.head)

/-- The device looks at whether a launch's source is drained: it touches an item queue's header, so that a unit that is away is
recalled (R372, R407). -/
def touchSource (s : State) (l : Launch) : State :=
  match l.itemQueue.bind fun q => kvGet (getCtx s l.ctx).iq q with
  | none => s
  | some hva => match agentTouch s none l.ctx permWrite 0 hva 64 with
    | .ok s _ => s
    | .wait s => s
    | .fault _ _ _ => s

/-! ### Filling lanes -/

/-- The value of a refill-map source (R364). -/
def mapSource (it : Item) (src : Nat) : W32 :=
  match src with
  | 0 => lowWord it.idx
  | 1 => BitVec.ofNat 32 (it.idx / 2 ^ 32 % 256)
  | 2 => it.seq
  | k => it.words.getD (k - 3) 0

/-- A lane cleared of flags and of its bits in the j masks. -/
def Regs.freshLane (r : Regs) (l : Nat) : Regs :=
  let off (m : Mask) : Mask := m &&& ~~~(laneBit l)
  { r with fnv := off r.fnv, fdz := off r.fdz, fof := off r.fof, fuf := off r.fuf, fnx := off r.fnx
           p := kvMap r.p fun k m => if 16 ≤ k then off m else m
           vempty := r.vempty.filter fun k => k % 64 != l }

/-- Places an item in a vacant lane, which joins a path (R173). -/
def fillLane (k : Kernel) (wp : Warp) (path l : Nat) (it : Item) : Warp :=
  let regs := k.rmap.foldl (fun r (src, reg) => r.putMain reg l (mapSource it src)) (wp.regs.freshLane l)
  { wp with
    regs := regs
    live := wp.live ||| laneBit l
    items := kvSet wp.items l { idx := it.idx, seq := it.seq }
    stackTab := kvDel wp.stackTab l
    versions := kvDel wp.versions l
    rays := kvDel wp.rays l
    paths := kvMod wp.paths path fun p => { p with mask := p.mask ||| laneBit l } }

/-- Fills vacant lanes in ascending order until the source has nothing to give (R173). -/
def fillLanes (launch core path : Nat) : List Nat → State → Warp → State × Warp
  | [], s, wp => (s, wp)
  | l :: rest, s, wp =>
    match nextItem s launch with
    | (s, none) => (s, wp)
    | (s, some it) =>
      let s := if (getLaunch s launch).itemQueue.isSome then acquireStep s core 3 else s
      fillLanes launch core path rest s (fillLane (getLaunch s launch).kernel wp path l it)

/-- The vacant lanes of a warp, ascending. -/
def vacantLanes (width : Nat) (wp : Warp) : List Nat := lanesOf (~~~wp.live &&& maskBelow width)

/-! ### The call-stack range -/

/-- Where a warp's call-stack range begins (R367). -/
def stackBase (l : Launch) (num warp : Nat) : Nat :=
  l.csva + 4 * l.kernel.width * l.csrows * (num * l.kernel.crew + warp)

/-- The VA of a lane's spilled entry in a row (R167). -/
def stackVa (l : Launch) (num warp lane row : Nat) : Nat :=
  stackBase l num warp + 4 * (row * l.kernel.width + lane)

def Site.stackVa (x : Site) (s : State) (lane row : Nat) : Nat :=
  Sys2Proof.Machine.stackVa (getLaunch s x.cr.launch) x.cr.num x.ref.warp lane row

/-! ### Loads performed at issue -/

/-- What a load that is performed at issue comes to. -/
inductive SyncLoad where
  | ok (s : State) (vals : List (Nat × Nat))
  | trap (t : TrapInfo)
  | wait (x : Site) (s : State)
  deriving DecidableEq, Repr

/-- The lanes of a load that is performed at issue, with the values that the queue or a version gives (R204, R236). -/
def syncAccess (s : State) (x : Site) (n : Nat) (locs : List (Nat × Nat × Loc)) : List LaneAccess :=
  locs.map fun a => takeEarly (versioned s x) x.wp n { lane := a.1, va := a.2.1, loc := a.2.2 }

/-- Whether a load can be performed now, in warp order: no load in flight has .acq or names its bytes, and the queue does not
hold part of them (R204, R225). -/
def syncReady (s : State) (x : Site) (n : Nat) (las : List LaneAccess) : Bool :=
  las.all (laneReady (versioned s x) x.wp { seq := x.wp.nextSeq, width := n }) && !(x.wp.loads.any (·.acq))

/-- Reads the lanes of a load at crew scope. -/
def syncLanes (x : Site) (n : Nat) : List LaneAccess → State → State × List (Nat × Nat)
  | [], s => (s, [])
  | a :: rest, s =>
    let (s, b) := if a.done then (s, a) else performLane s x.ref x.wp { seq := x.wp.nextSeq, width := n } (versioned s x) a
    let (s, vs) := syncLanes x n rest s
    (s, (a.lane, b.x) :: vs)

end Sys2Proof.Machine
end

