-- ==== Sys2Proof/Machine/Control.lean ====
section
/-! DEFINITION. Control flow (R158-R178), COMMIT and the publication of versions (R377, R379). -/

namespace Sys2Proof.Machine

/-! ### Shared pieces -/

/-- The warp after a control transfer whose active lanes go to the given targets and whose other lanes fall through (R160),
with the lanes that stay at the instruction. A path split off while R160 left a group at this branch ends its run here, and
merges with that group (R158; log entry 121). -/
def Site.transfer (x : Site) (w : Enc) (targets : List (Nat × W64)) : Warp × Mask :=
  let all := x.pa.mask &&& x.wp.live
  let back := x.pa.splitFrom == some x.pa.pc && x.wp.paths.any fun q => q.1 != x.rn.path && q.2.stay && q.2.pc == x.pa.pc
  if back then (x.endRun w x.pa.pc, x.act)
  else
  let gs := splitGroups targets (all &&& ~~~x.act) (x.pa.pc + 16)
  let plan := splitPlan gs (maxPaths - x.wp.paths.length)
  let wp := x.endRun w x.pa.pc
  let (ps, made) := applyPlan wp.paths x.rn.path x.pa.pc plan
  ({ wp with paths := ps, afterSplit := if 1 < made.length then made else [] }, plan.2)

/-- The state after a control transfer, with the waits of the warp's paths tested. -/
def Site.finish (x : Site) (s : State) (wp : Warp) : Act := .ended (x.put s (settlePaths wp))

/-- The whole path goes on to the next word and its run ends. -/
def Site.fallThrough (x : Site) (w : Enc) (s : State) : Act := x.finish s (x.endRun w (x.pa.pc + 16))

/-- The code offset of the next word (R164). -/
def Site.returnOffset (x : Site) : W32 := x.tpc + 16

/-- The PC of a code offset (R161). -/
def Site.codePc (x : Site) (t : Nat) : W64 := BitVec.ofNat 64 (x.k.codeVa + t)

/-- MISALIGNED of code offsets (R161). -/
def Site.misaligned (x : Site) (ts : List (Nat × Nat)) : Option TrapInfo :=
  match ts.filter fun e => e.2 % 16 != 0 with
  | [] => none
  | bad => some { code := 0x08, tx := 16, mask := maskOf (bad.map (·.1)),
                  va := (x.k.codeVa + (bad.headD (0, 0)).2) % 2 ^ 56 }

/-- A load performed at issue: checked, in warp order, at crew scope through the L1. -/
def syncLoad (s : State) (x : Site) (n : Nat) (as : List (Nat × Nat)) : SyncLoad :=
  match checkLanes s x (.global permRead 1) n as with
  | .trap t => .trap t
  | .wait s' m => .wait (x.waitOn m) s'
  | .ok s' locs =>
    let las := syncAccess s' x n locs
    if !syncReady s' x n las then .wait x s'
    else match poisonTrap s' x (.global permRead 1) 0 n las with
    | some t => .trap t
    | none => (let r := syncLanes x n las s'; .ok r.1 r.2)

/-- A spill store entry for some lanes and rows (R167). -/
def spillEntry (locs : List (Nat × Nat × Loc)) (vals : List Nat) : StoreEntry :=
  { kind := .spill, width := 4, lanes := (locs.zip vals).map fun e => laneAccess e.1 e.2 0 }

/-- What pushing return addresses comes to. -/
inductive Pushed where
  | ok (x : Site) (s : State)
  | trap (t : TrapInfo)
  | wait (x : Site) (s : State)
  deriving DecidableEq, Repr

/-- The lane stack after a push on chip; the oldest entry has left a full one. -/
def LaneStack.push (st : LaneStack) (v : W32) : LaneStack :=
  if 4 ≤ st.chip.length then { chip := v :: st.chip.take 3, spilled := st.spilled + 1 }
  else { st with chip := v :: st.chip }

/-- Pushes a return address on the lanes of a mask, spilling full lanes (R167, R367). -/
def Site.pushReturn (x : Site) (s : State) (lanes : Mask) (v : W32) : Pushed :=
  let stack (l : Nat) : LaneStack := kvD x.wp.stackTab l {}
  let full := (lanesOf lanes).filter fun l => decide (4 ≤ (stack l).chip.length)
  let rows := (getLaunch s x.cr.launch).csrows
  let va (l : Nat) : Nat := x.stackVa s l (stack l).spilled
  let push (x : Site) : Site :=
    let wp := { x.wp with stackTab := (lanesOf lanes).foldl (fun m l => kvSet m l ((kvD m l {}).push v)) x.wp.stackTab }
    { x with wp := if lanes = 0 then wp else { wp with spill := spillOffset x.width wp } }
  match full with
  | [] => .ok (push x) s
  | l0 :: _ =>
    match full.filter fun l => decide (rows ≤ (stack l).spilled) with
    | m0 :: ms => .trap { code := 0x09, tx := 2, mask := maskOf (m0 :: ms), va := va m0 % 2 ^ 56 }
    | [] =>
      if !queueRoom x then .wait x s
      else match checkLanes s x (.global permWrite 2) 4 (full.map fun l => (l, va l)) with
        | .trap t => .trap t
        | .wait s' m => .wait (x.waitOn m) s'
        | .ok s' locs =>
          let vals := full.map fun l => ((stack l).chip.getD 3 0).toNat
          let _ := l0
          .ok (push (x.touched.enqueue (spillEntry locs vals))) s'

/-- A call: the lanes that leave the branch PC push, then the path splits (R160, R164, R168). -/
def callBody (w : Enc) (targets : List (Nat × W64)) (x : Site) (s : State) : Act :=
  let stay := (x.transfer w targets).2
  match x.pushReturn s (x.act &&& ~~~stay) x.returnOffset with
  | .trap t => .trap x.touched t s
  | .wait x s => .block x s
  | .ok x s => x.finish s (x.transfer w targets).1

/-- The literal offset of a branch from its own PC (R161). -/
def Site.literalTarget (x : Site) (w : Enc) : W64 := x.pa.pc + (w.lit.getD 0).signExtend 64

/-! ### NOP and branches -/

/-- NOP (R177). -/
def execNop (w : Enc) (s : State) : Host.Outcome State Fault Refusal :=
  issueInstr (.nop w) w s (onSite fun _ x => x)

/-- BRA (R164). -/
def execBra (w : Enc) (s : State) : Host.Outcome State Fault Refusal :=
  issueInstr (.bra w) w s fun x s =>
    x.finish s (x.transfer w ((lanesOf x.act).map fun l => (l, x.literalTarget w))).1

/-- BRAU (R165). A misaligned target traps only where the branch is taken (the model's choice, log entry 127). -/
def execBrau (w : Enc) (s : State) : Host.Outcome State Fault Refusal :=
  issueInstr (.brau w) w s fun x s =>
    let g := guardMask x.width x.wp w.guard
    let off (l : Nat) : Nat := nB s x w l
    let lo := lowLane x.act
    let bad := (lanesOf x.act).filter fun l =>
      g.getLsbD l != g.getLsbD lo || (w.lit.isNone && off l != off lo)
    match bad with
    | b :: bs => .trap x { code := 0x04, mask := maskOf (b :: bs) } s
    | [] =>
      if !g.getLsbD lo then x.fallThrough w s
      else if w.lit.isSome then x.finish s (x.endRun w (x.literalTarget w))
      else match x.misaligned ((lanesOf x.act).map fun l => (l, off l)) with
        | some t => .trap x t s
        | none => x.finish s (x.endRun w (x.codePc (off lo)))

/-- BRX (R166). -/
def execBrx (w : Enc) (s : State) : Host.Outcome State Fault Refusal :=
  issueInstr (.brx w) w s fun x s =>
    if x.act = 0 then x.fallThrough w s
    else
      let idx (l : Nat) : Nat := srcValue s x .n32 w.a l
      let bound (l : Nat) : Nat := nB s x w l
      let lanes := lanesOf x.act
      match lanes.filter fun l => decide (bound l ≤ idx l) with
      | b :: bs => .trap x { code := 0x06, tx := BitVec.ofNat 32 (bound b), mask := maskOf (b :: bs) } s
      | [] =>
        let base := srcValue s x .n64 (if w.lit.isSome then w.e else w.c) 0
        match syncLoad s x 4 (lanes.map fun l => (l, (base + 4 * idx l) % 2 ^ 64)) with
        | .trap t => .trap x.touched t s
        | .wait x s => .block x s
        | .ok s ts =>
          match x.misaligned ts with
          | some t => .trap x.touched t s
          | none => x.touched.finish s (x.touched.transfer w (ts.map fun e => (e.1, x.codePc e.2))).1

/-- CALL (R164, R167). -/
def execCall (w : Enc) (s : State) : Host.Outcome State Fault Refusal :=
  issueInstr (.call w) w s fun x s =>
    if x.act = 0 then x.fallThrough w s
    else callBody w ((lanesOf x.act).map fun l => (l, x.literalTarget w)) x s

/-- CALLI (R168). -/
def execCalli (w : Enc) (s : State) : Host.Outcome State Fault Refusal :=
  issueInstr (.calli w) w s fun x s =>
    if x.act = 0 then x.fallThrough w s
    else
      let ts := (lanesOf x.act).map fun l => (l, srcValue s x .n32 w.a l)
      match x.misaligned ts with
      | some t => .trap x t s
      | none => callBody w (ts.map fun e => (e.1, x.codePc e.2)) x s

/-- A lane's stack after a pop: the newest on-chip entry, or the last spilled one, has left (R167). -/
def LaneStack.pop (st : LaneStack) : LaneStack :=
  match st.chip with
  | _ :: rest => { st with chip := rest }
  | [] => { st with spilled := st.spilled - 1 }

/-- RET with every lane's return address known (R168): lanes that leave pop. -/
def retBody (w : Enc) (ts : List (Nat × Nat)) (x : Site) (s : State) : Act :=
  match x.misaligned ts with
  | some t => .trap x.touched t s
  | none =>
    let x := x.touched
    let (wp, stay) := x.transfer w (ts.map fun e => (e.1, x.codePc e.2))
    x.finish s { wp with stackTab := (lanesOf (x.act &&& ~~~stay)).foldl (fun m l => kvSet m l (kvD m l {}).pop) wp.stackTab }

/-- RET (R168). -/
def execRet (w : Enc) (s : State) : Host.Outcome State Fault Refusal :=
  issueInstr (.ret w) w s fun x s =>
    if x.act = 0 then x.fallThrough w s
    else
      let stack (l : Nat) : LaneStack := kvD x.wp.stackTab l {}
      let lanes := lanesOf x.act
      match lanes.filter fun l => (stack l).chip.isEmpty && (stack l).spilled == 0 with
      | b :: bs => .trap x { code := 0x05, mask := maskOf (b :: bs) } s
      | [] =>
        let far := lanes.filter fun l => (stack l).chip.isEmpty
        let value (vs : List (Nat × Nat)) (l : Nat) : Nat :=
          match (stack l).chip with
          | v :: _ => v.toNat
          | [] => ((vs.find? fun e => e.1 == l).map (·.2)).getD 0
        if far.isEmpty then retBody w (lanes.map fun l => (l, value [] l)) x s
        else match syncLoad s x 4 (far.map fun l => (l, x.stackVa s l ((stack l).spilled - 1))) with
          | .trap t => .trap x.touched t s
          | .wait x s => .block x s
          | .ok s vs => retBody w (lanes.map fun l => (l, value vs l)) x s

/-! ### Rejoining -/

/-- JSAVE (R169): takes effect at once for the tests of JOIN and JWAIT. -/
def execJsave (w : Enc) (s : State) : Host.Outcome State Fault Refusal :=
  issueInstr (.jsave w) w s fun x s =>
    let x := x.mapRegs fun r => r.putPred w.d.idx.toNat (~~~0) x.act
    .ended (x.put s (settlePaths (x.advance w)))

/-- The path that executes JOIN or JWAIT on j is divided (R160, R170, R171): its active lanes of j park, the others go on. -/
def parkBody (w : Enc) (park : Nat → PathState) (x : Site) (s : State) : Act :=
  let j := w.a.idx.toNat - 16
  let here := x.act &&& kvD x.wp.regs.p (16 + j) 0
  let all := x.pa.mask &&& x.wp.live
  let rest := all &&& ~~~here
  if here = 0 then x.fallThrough w s
  else
    let wp := x.endRun w x.pa.pc
    let stay (m : Mask) (st : PathState) : Path := { pc := x.pa.pc, mask := m, st := st }
    if rest = 0 then x.finish s { wp with paths := kvSet wp.paths x.rn.path (stay here (park j)) }
    else match freeEntries wp.paths with
      | [] => x.finish s { wp with paths := kvSet wp.paths x.rn.path (stay all .noEntry) }
      | f :: _ =>
        x.finish s { wp with paths := kvSet (kvSet wp.paths x.rn.path (stay here (park j))) f
                                        { pc := x.pa.pc + 16, mask := rest } }

/-- JOIN (R170). -/
def execJoin (w : Enc) (s : State) : Host.Outcome State Fault Refusal :=
  issueInstr (.join w) w s (parkBody w .parkedJoin)

/-- JWAIT (R171). -/
def execJwait (w : Enc) (s : State) : Host.Outcome State Fault Refusal :=
  issueInstr (.jwait w) w s (parkBody w .parkedWait)

/-! ### Versions -/

/-- Adds to an outstanding counter of a launch on a core (R375): 0 stores, 1 puts, 2 signals. -/
def countOut (s : State) (launch core which : Nat) (up : Bool) : State :=
  let l := getLaunch s launch
  let f (m : KV Nat) : KV Nat := kvSet m core (if up then kvD m core 0 + 1 else kvD m core 0 - 1)
  setLaunch s launch (match which with
    | 0 => { l with outS := f l.outS }
    | 1 => { l with outP := f l.outP }
    | _ => { l with outG := f l.outG })

/-- The remote commands that a lane's version holds are issued, in order (R376, R377). -/
def sendHeld (x : Site) (lane : Nat) : List RemoteJob → State → Site × State
  | [], s => (x, s)
  | j :: rest, s =>
    let (k, s) := s.newId
    let c : Command := { crew := x.ref.crew, warp := x.ref.warp, core := x.ref.core, cls := 2, op := .remote { j with held := true }, scope := 4,
                         arv := j.arv, lane := lane, tpc := j.tpc }
    let e := kvD x.wp.eng 2 {}
    let x := { x with wp := { x.wp with eng := kvSet x.wp.eng 2 { e with count := e.count + 1 } } }
    let s := countOut { s with cmds := kvSet s.cmds k c } x.cr.launch x.ref.core (if j.kind = 2 then 2 else 1) true
    sendHeld x lane rest s

/-- One lane's version takes its place in memory (R236, R377): every line at its home, as one event. -/
def publishVersion (s : State) (core ctx : Nat) (v : Version) : State :=
  let byte (s : State) (va : Nat) (b : Byte) : State :=
    match translate s (some core) ctx permWrite va with
    | .ok pa _ => homePut (flushSector s core (pa / 64)) pa b
    | _ => s
  v.lines.foldl (fun s l =>
    let s := ((List.range 128).filter fun k => l.mask.getLsbD k).foldl
      (fun s k => byte s (128 * l.line + k) (cellGet l.data k)) s
    l.tags.foldl (fun s (h, t) => match translate s (some core) ctx permWrite (128 * l.line + 64 * h) with
      | .ok pa _ => setTag s (pa / 64) t
      | _ => s) s) s

/-- Touches the lines of versions before they are published: the state, and whether a piece must be waited for (R407). -/
def touchLines (x : Site) : List VersionLine → State → State × Bool
  | [], s => (s, false)
  | l :: rest, s =>
    match touch s (some x.ref.core) x.cr.ctx permWrite (128 * l.line) (nearestStack x.ref.core) with
    | .ok s' _ => touchLines x rest s'
    | .wait s' => (s', true)
    | .fault _ _ => touchLines x rest s

/-- A command that names other devices (R472). -/
def CmdOp.isRemote : CmdOp → Bool
  | .remote _ | .coll .. => true
  | _ => false

/-- Commands of a warp whose writes enter the versions of some lanes and are not complete, stores that have not entered them, or
loads that precede the release of a publication (R227, R377). -/
def versionBusy (s : State) (x : Site) : Bool :=
  !(x.wp.storeQ.isEmpty && x.wp.loads.isEmpty) || s.cmds.any fun (_, c) =>
    c.crew == x.ref.crew && c.warp == x.ref.warp && c.phase != .completed && x.act.getLsbD c.lane && !c.op.isRemote

/-- What publication waits for: the store queue and commands, and pieces that are not resident. -/
def versionWait (s : State) (x : Site) : State × Bool :=
  if !(getLaunch s x.cr.launch).vers then (s, false)
  else if versionBusy s x then (s, true)
  else touchLines x ((lanesOf x.act).map fun k => (kvD x.wp.versions k {}).lines).flatten s

/-- Publishes the versions of the active lanes of a versioned launch (R377, R452). -/
def Site.publish (x : Site) (s : State) : Site × State :=
  let l := getLaunch s x.cr.launch
  if !l.vers then (x, s)
  else
    let s := releaseStep s x.ref.core 3
    let s := (lanesOf x.act).foldl (fun s k => publishVersion s x.ref.core x.cr.ctx (kvD x.wp.versions k {})) s
    let (x, s) := (lanesOf x.act).foldl (fun (r : Site × State) k => sendHeld r.1 k (kvD r.1.wp.versions k {}).remotes r.2) (x, s)
    let l := getLaunch s x.cr.launch
    ({ x with wp := { x.wp with versions := (lanesOf x.act).foldl kvDel x.wp.versions } },
     setLaunch s x.cr.launch { l with commits := l.commits + BitVec.ofNat 32 (maskCount x.act) })

/-- COMMIT (R379). -/
def execCommit (w : Enc) (s : State) : Host.Outcome State Fault Refusal :=
  issueInstr (.commit w) w s fun x s =>
    if x.act = 0 ∨ !(getLaunch s x.cr.launch).vers then .done x s
    else match versionWait s x with
      | (s, true) => .block x s
      | (s, false) => (let r := x.publish s; .done r.1 r.2)

/-! ### Leaving, refilling, reforming -/

/-- Some register of the given lanes waits for a write in flight (R172, R174). -/
def lanesInFlight (wp : Warp) (m : Mask) : Bool := wp.regs.vempty.any fun k => m.getLsbD (k % 64)

/-- After lanes became vacant: the waits, barriers and phases are tested. -/
def Site.vacated (x : Site) (s : State) (wp : Warp) : Act :=
  .ended (testSync (x.put s (settlePaths wp)) x.ref.crew)

/-- EXIT (R172). -/
def execExit (w : Enc) (s : State) : Host.Outcome State Fault Refusal :=
  issueInstr (.exit w) w s fun x s =>
    if x.act = 0 then x.fallThrough w s
    else
      let (s, wp) := abandonRays s x.cr.ctx x.wp x.act
      let x := { x with wp := wp }
      if lanesInFlight x.wp x.act then .block x s
      else match versionWait s x with
        | (s, true) => .block x s
        | (s, false) =>
          let (x, s) := x.publish s
          x.vacated s { vacate (x.endRun w (x.pa.pc + 16)) x.act with reformed := false }

/-- ILLEGAL of a refill map that names a register at or above N (R173). -/
def refillTrap (x : Site) : Option TrapInfo :=
  if x.k.rmap.any fun e => decide (x.wp.n ≤ e.2) then
    some { code := 0x01, tx := BitVec.ofNat 32 (5 + 2 ^ 16 * x.wp.n), mask := x.act } else none

/-- REFILL (R173). -/
def execRefill (w : Enc) (s : State) : Host.Outcome State Fault Refusal :=
  issueInstr (.refill w) w s fun x s =>
    if x.act = 0 then x.fallThrough w s
    else match refillTrap x with
      | some t => .trap x t s
      | none =>
        let wp := { x.endRun w (x.pa.pc + 16) with refillPc := some x.pa.pc }
        let (s, wp) := fillLanes x.cr.launch x.ref.core x.rn.path (vacantLanes x.width wp) s wp
        let new := wp.live &&& ~~~x.wp.live
        x.finish (unarrive s x.ref.crew x.ref.warp new) (wp.unarrive new)

/-- The bin that takes a thread (R146, R174): one bound to its launch, PC and block with room, or an empty one. -/
def binFor (bins : KV Bin) (width launch : Nat) (pc : W64) (vb n : Nat) : Option (Nat × Bin) :=
  match bins.find? fun (_, b) =>
      b.launch == launch && b.pc == pc && b.vb == vb && b.n == n && decide (b.threads.length < width) with
  | some e => some e
  | none => ((List.range 64).find? fun k => (kvGet bins k).isNone).map fun k => (k, { launch := launch, pc := pc, vb := vb, n := n })

/-- The thread of a lane as a bin holds it (R174). -/
def threadOf (wp : Warp) (l vb n : Nat) (spill : List W32) : BinThread :=
  { regs := (List.range n).map fun k => kvD wp.regs.v (64 * (vb + k) + l) 0
    chip := (kvD wp.stackTab l {}).chip
    spill := spill
    fnv := wp.regs.fnv.getLsbD l, fdz := wp.regs.fdz.getLsbD l, fof := wp.regs.fof.getLsbD l,
    fuf := wp.regs.fuf.getLsbD l, fnx := wp.regs.fnx.getLsbD l
    item := kvD wp.items l {}
    version := kvGet wp.versions l }

/-- A thread on its way into a bin: its lane, the PC, and the block's first register and length (R146). -/
abbrev Filing := Nat × W64 × Nat × Nat × BinThread

/-- A bin with one more thread (R147): the first starts its age, and the last makes it full. It became drawable then, or before
when its first thread had reached the bin age. -/
def Bin.file (b : Bin) (now width age : Nat) (th : BinThread) : Bin :=
  let b := { b with threads := b.threads ++ [th], firstAt := if b.threads.isEmpty then now else b.firstAt }
  if b.threads.length = width then
    { b with drawableAt := some (b.drawableAt.getD (min now (b.firstAt + age))), aged := false }
  else b

/-- Files threads in ascending lane order while bins accept them: the bins, and the threads that wait (R146). -/
def fileThreads (now width launch age : Nat) : List Filing → KV Bin → KV Bin × List Filing
  | [], bins => (bins, [])
  | (l, pc, vb, n, th) :: rest, bins =>
    match binFor bins width launch pc vb n with
    | none => (bins, (l, pc, vb, n, th) :: rest)
    | some (k, b) => fileThreads now width launch age rest (kvSet bins k (b.file now width age th))

/-- The lanes of some filings. -/
def filingLanes (fs : List Filing) : Mask := maskOf (fs.map (·.1))

/-- The warp some of whose lanes have been filed; the threads that wait keep it in WAITING (R146). -/
def Warp.filed (wp : Warp) (lanes : Mask) (rest : List Filing) : Warp :=
  let wp := vacate { wp with versions := (lanesOf lanes).foldl kvDel wp.versions, filing := rest } lanes
  { wp with reformed := wp.live == 0 }

/-- A warp of a core goes on filing (R146). -/
def settleFiling (core : Nat) (s : State) (r : Nat × Nat) : State :=
  match kvGet s.crews r.1, getWarp s r.1 r.2 with
  | some c, some wp =>
    let co := getCore s core
    let k := (getLaunch s c.launch).kernel
    let (bins, rest) := fileThreads s.now k.width c.launch k.binAge wp.filing co.bins
    let lanes := filingLanes wp.filing &&& ~~~filingLanes rest
    if lanes = 0 then s
    else testSync (setWarp (setCore s core { co with bins := bins }) r.1 r.2 (settlePaths (wp.filed lanes rest))) r.1
  | _, _ => s

/-- A bin of a core has become empty: the warps whose threads wait go on filing, the lowest crew and warp first (the model's
choice, log entry 126). -/
def settleFilings (s : State) (core : Nat) : State :=
  let waiting := (s.crews.map fun (k, c) =>
    if c.phase = .resident ∧ c.core = core then
      (c.warps.filter fun e => !e.2.filing.isEmpty).map fun e => (k, e.1)
    else []).flatten
  waiting.foldl (settleFiling core) s

/-- REFORM with the spilled entries of its lanes read (R174): the run ends, and lanes that no bin accepts yet wait (R146). -/
def reformBody (w : Enc) (spills : List (Nat × Nat)) (x : Site) (s : State) : Act :=
  let vb := w.b.idx.toNat
  let n := (Operand.bits w.e).toNat
  let co := getCore s x.ref.core
  let spill (l : Nat) : List W32 := (spills.filter fun e => e.1 == l).map fun e => BitVec.ofNat 32 e.2
  let ths := (lanesOf x.act).map fun l => (l, x.codePc (srcValue s x .n32 w.a l), vb, n, threadOf x.wp l vb n (spill l))
  let (bins, rest) := fileThreads s.now x.width x.cr.launch x.k.binAge ths co.bins
  x.vacated (setCore s x.ref.core { co with bins := bins })
    ((x.endRun w (x.pa.pc + 16)).filed (x.act &&& ~~~filingLanes rest) rest)

/-- REFORM (R174). -/
def execReform (w : Enc) (s : State) : Host.Outcome State Fault Refusal :=
  issueInstr (.reform w) w s fun x s =>
    if x.act = 0 then x.fallThrough w s
    else
      let (s, wp) := abandonRays s x.cr.ctx x.wp x.act
      let x := { x with wp := wp }
      if lanesInFlight x.wp x.act || (versioned s x && versionBusy s x) then .block x s
      else match x.misaligned ((lanesOf x.act).map fun l => (l, srcValue s x .n32 w.a l)) with
        | some t => .trap x t s
        | none =>
          let rows := ((lanesOf x.act).map fun l =>
            (List.range (kvD x.wp.stackTab l {}).spilled).map fun r => (l, x.stackVa s l r)).flatten
          if rows.isEmpty then reformBody w [] x s
          else match syncLoad s x 4 rows with
            | .trap t => .trap x.touched t s
            | .wait x s => .block x s
            | .ok s vs => reformBody w vs x.touched s

/-! ### Yielding, regions, traps -/

/-- YIELD (R175, R349): the warp ranks last next; a pending cooperative switch takes the crew, with no forced save counted, also
in the cycle in which its deadline expires. -/
def execYield (w : Enc) (s : State) : Host.Outcome State Fault Refusal :=
  issueInstr (.yield w) w s fun x s =>
    let s := x.put s (settlePaths { x.endRun w (x.pa.pc + 16) with hintYh := true })
    if x.act = 0 then .ended s
    else .ended (modCrew s x.ref.crew fun c => match c.ydl with
      | none => c
      | some t =>
        if s.now ≤ t then { c with saveWhy := some (c.saveWhy.getD .slice), ydlExpired := false }
        else { c with saveWhy := some (c.saveWhy.getD .slice) })

/-- The crew's non-preemptible region is open (R176). -/
def regionOpen (s : State) (c : Crew) : Bool := match c.npreg with | some t => decide (s.now < t) | none => false

/-- NPREG.enter (R176). -/
def execNpregEnter (w : Enc) (s : State) : Host.Outcome State Fault Refusal :=
  issueInstr (.npregEnter w) w s fun x s =>
    let b := min (uB s x w) 65536
    if x.act = 0 ∨ b = 0 ∨ regionOpen s x.cr then .done x s
    else .done x (modCrew s x.ref.crew fun c => { c with npreg := some (s.now + b) })

/-- NPREG.leave (R176). -/
def execNpregLeave (w : Enc) (s : State) : Host.Outcome State Fault Refusal :=
  issueInstr (.npregLeave w) w s fun x s =>
    if x.act = 0 then .done x s else .done x (modCrew s x.ref.crew fun c => { c with npreg := none })

/-- TRAP.brk (R177). -/
def execTrapBrk (w : Enc) (s : State) : Host.Outcome State Fault Refusal :=
  issueInstr (.trapBrk w) w s fun x s =>
    if x.act = 0 then x.fallThrough w s else .trap x { code := 0x13, mask := x.act } s

/-- TRAP.call (R177): no debugger halts it. -/
def execTrapCall (w : Enc) (s : State) : Host.Outcome State Fault Refusal :=
  issueInstr (.trapCall w) w s fun x s =>
    if x.act = 0 then x.fallThrough w s
    else .ended (takeTrap s x { code := 0x13, tx := BitVec.ofNat 32 (uB s x w), mask := x.act } true)

/-- TRAP.tret (R177, R446). -/
def execTrapTret (w : Enc) (s : State) : Host.Outcome State Fault Refusal :=
  issueInstr (.trapTret w) w s fun x s =>
    if x.act = 0 then x.fallThrough w s
    else match x.wp.handler with
      | none => .trap x { code := 0x13, tx := 0xFFFFFFFF, mask := x.act } s
      | some _ =>
        let wp := x.endRun w x.pa.pc
        x.finish s { wp with paths := kvMod wp.paths x.rn.path fun p => { p with st := .atTret } }

end Sys2Proof.Machine
end

