-- ==== Sys2Proof/Machine/Status.lean ====
section
/-! DEFINITION. Queues as other agents reach them: the status block (R356), faults (R361), and the completion of commands
(R357, R359). -/

namespace Sys2Proof.Machine

def getQueue (s : State) (q : Nat) : Queue := kvD s.queues q {}
def setQueue (s : State) (q : Nat) (x : Queue) : State := { s with queues := kvSet s.queues q x }

/-- The sixteen bytes of a status block (R356). -/
def statusBytes (q : Queue) : List Byte :=
  leBytes 4 q.head.toNat ++ leBytes 4 q.faultWord.toNat ++ leBytes 4 q.faultTag.toNat ++ leBytes 4 q.completed.toNat

/-- A queue's state that a fault can end (R357). -/
def QueueState.live : QueueState → Bool
  | .idle | .active | .blocked => true
  | _ => false

/-- A context whose queues are in their states (R357). -/
def ctxLive (s : State) (ctx : Nat) : Bool :=
  let st := (getCtx s ctx).st
  st == .ready || st == .running

/-- A cause of R361 on a queue: it enters FAULTED if it runs; while its context is in no state in which the queue's may change,
the first cause is kept for RESUME (R357). -/
def Queue.enterFault (x : Queue) (s : State) (word tag : W32) (here : Bool) : Queue :=
  if !QueueState.live x.st then x
  else if ctxLive s x.ctx then { x with st := .faulted, faultWord := word, faultTag := tag, faultHere := here }
  else { x with dueFault := some (x.dueFault.getD (word, tag, here)) }

/-- Writes the status block. A write that faults is not retried: the queue enters FAULTED with reason 9 (R356). -/
def writeStatus (s : State) (q : Nat) : State :=
  let x := getQueue s q
  match agentTouch s none x.ctx permWrite 0 x.headva 16 with
  | .ok s pas => putBytes (setQueue s q { x with statusDue := false }) pas (statusBytes x)
  | .wait s => setQueue s q { x with statusDue := true }
  | .fault code _ va =>
    let x' : Queue := { x with statusDue := false }
    postAgent (setQueue s q (x'.enterFault s (BitVec.ofNat 32 (9 + 2 ^ 8 * code)) x.faultTag false)) x.ctx 8 code va q

/-! ### The end of a context's work (R346) -/

/-- A context whose work has ended moves on: RUNNING or DRAINING to READY, SUSPENDING to SUSPENDED. -/
def settleContext (s : State) (ctx : Nat) : State :=
  let c := getCtx s ctx
  let set (s : State) (st : CtxState) : State := setCtx s ctx { c with st := st }
  let idle := !s.launches.any fun (_, l) => l.ctx == ctx
  match c.st with
  | .running => if idle then set s .ready else s
  | .draining =>
    if idle && !s.views.any (fun (_, v) => v.ctx == ctx) then
      set { s with queues := kvMap s.queues fun _ (q : Queue) =>
        if q.ctx = ctx then { q with st := .disabled, dueFault := none } else q } .ready
    else s
  | .suspending =>
    let still := s.crews.any fun (_, cr) => cr.ctx == ctx && (cr.phase == .resident || cr.phase == .stopped)
    let busy := s.cmds.any fun (_, cm) => (kvD s.crews cm.crew {}).ctx == ctx && cm.phase != .completed
    if still || busy || s.views.any (fun (_, v) => v.ctx == ctx && !v.rays.isEmpty) then s else set s .suspended
  | _ => s

/-- A command that has started holds every later one back (R359). -/
def Queue.heldBack (x : Queue) : Bool :=
  x.started.any fun e => match e.2 with
    | .wait => true
    | .range _ => true
    | _ => false

/-- IDLE, BLOCKED or ACTIVE by head and tail and what holds head back (R357). -/
def Queue.settled (x : Queue) : Queue :=
  { x with st := if x.head = x.tail then .idle else if x.heldBack then .blocked else .active }

/-- A queue whose context goes on (R346, R357): a fault found meanwhile is taken now, and a running queue is tested again. -/
def Queue.resumed (x : Queue) : Queue :=
  if !QueueState.live x.st then { x with dueFault := none }
  else match x.dueFault with
  | some (word, tag, here) =>
    { x with st := .faulted, faultWord := word, faultTag := tag, faultHere := here, statusDue := true, dueFault := none }
  | none => x.settled

/-- A BLOCKED queue whose head can start again: nothing that has started is left (R357, R359). -/
def Queue.unblocked (s : State) (x : Queue) : Queue :=
  if x.st = .blocked ∧ x.started.isEmpty = true ∧ ctxLive s x.ctx then x.settled else x

/-- A queue faults: reason, sub-reason, the TAG of the command, and whether head stands at it (R361). -/
def faultQueue (s : State) (q reason sub : Nat) (tag : W32) (here : Bool) : State :=
  let x := getQueue s q
  if QueueState.live x.st then
    let x := x.enterFault s (BitVec.ofNat 32 (reason + 2 ^ 8 * sub)) tag here
    if x.st = .faulted then writeStatus (setQueue s q x) q else setQueue s q x
  else s

/-- A command that has started faults: head goes back to it unless a later command has started (R361). -/
def faultStarted (s : State) (q : Nat) (e : Nat × Started) (reason sub : Nat) (tag : W32) : State :=
  let x := getQueue s q
  if x.started.contains e then
    let back := x.head == BitVec.ofNat 32 (e.1 + 1) && QueueState.live x.st
    let x := { x with started := x.started.filter fun d => d != e, head := if back then x.head - 1 else x.head
                      pending := if e.2 = .wait then none else x.pending }
    faultQueue (setQueue s q x) q reason sub tag back
  else s

/-- A started command completes: the count, the status block, and the notice of NOTE (R356, R358, R359). -/
def completeStarted (s : State) (q : Nat) (e : Nat × Started) (tag : W32) (note : Bool) : State :=
  let x := getQueue s q
  if x.started.contains e then
    let x : Queue := { x with started := x.started.filter fun d => d != e, completed := x.completed + 1
                              pending := if e.2 = .wait then none else x.pending }
    let x := x.unblocked s
    let s := writeStatus (setQueue s q x) q
    if note then noticeDone s x.ctx q tag x.completed else s
  else s

end Sys2Proof.Machine
end

