-- ==== Sys2Proof/Machine/Records.lean ====
section
/-! DEFINITION. Sealed records: the layouts of R240, R326, R334 and R339 and the checks of R242, R245 and R325. -/

namespace Sys2Proof.Machine

/-- n bytes of a record from byte lo, little-endian. -/
def recField (b : List Byte) (lo n : Nat) : Nat := leNat ((b.drop lo).take n)

/-- The bytes of [lo, hi) are zero. -/
def recZero (b : List Byte) (lo hi : Nat) : Bool := recField b lo (hi - lo) == 0

/-- The element size of an ET in nibbles (R241). -/
def etNibbles (et : Nat) : Nat :=
  match et with
  | 0 | 1 | 11 => 2
  | 2 | 3 | 8 | 9 => 4
  | 4 | 5 | 10 => 8
  | 6 | 7 => 16
  | _ => 1

/-- The element size in bytes, BX4 counted as one (R242). -/
def etBytes (et : Nat) : Nat := (etNibbles et + 1) / 2

/-- Elements in a 64-byte block of a tagged TENSOR (R243). -/
def etPerBlock (et : Nat) : Nat := 128 / etNibbles et

/-- A TENSOR's fields (R240). -/
structure Tensor where
  rank : Nat
  tagged : Bool
  et : Nat
  base : Nat
  ext : List Nat
  str : List Nat
  deriving DecidableEq, Repr

def tensorOf (b : List Byte) : Tensor :=
  { rank := recField b 2 1 % 8, tagged := (recField b 2 1).testBit 3, et := recField b 3 1, base := recField b 8 8,
    ext := (List.range 4).map fun k => recField b (16 + 4 * k) 4,
    str := (List.range 4).map fun k => recField b (32 + 8 * k) 8 }

/-- The refusal code of a TENSOR record, 4-8, or none (R242, R245). -/
def tensorFault (b : List Byte) : Option Nat :=
  let t := tensorOf b
  let e (k : Nat) : Nat := t.ext.getD k 0
  let st (k : Nat) : Nat := t.str.getD k 0
  let sz := etBytes t.et
  if !(recZero b 4 8 && recZero b 64 128) ∨ 16 ≤ recField b 2 1 then some 4
  else if t.rank = 0 ∨ 4 < t.rank ∨ 12 < t.et then some 5
  else if (List.range 4).any fun k => if k < t.rank then e k == 0 else e k != 1 || st k != 0 then some 6
  else if (if t.tagged then
        !([1, 8, 9, 10, 11, 12] : List Nat).contains t.et || t.base % 64 != 0 || st 1 % 64 != 0 || st 2 % 64 != 0 || st 3 % 64 != 0 ||
          st 0 != (if t.et = 12 then 0 else sz)
      else decide (11 ≤ t.et) || t.base % sz != 0 || (List.range 4).any fun k => st k % sz != 0) then some 7
  else if 2 ^ 56 < t.base + ((List.range 4).map fun k => (e k - 1) * st k).sum + sz then some 8
  else none

/-- Finite binary32. -/
def finite32 (v : Nat) : Bool := v / 2 ^ 23 % 256 != 255

/-- The first sub-reason of R325 among conditions in order. -/
def firstReason (cs : List (Nat × Bool)) : Option Nat := (cs.find? (·.2)).map (·.1)

/-- A VIEW record's reserved fields, code 4 of R245 (R326). -/
def viewReserved (b : List Byte) : Bool := !recZero b 84 96 || decide (32 ≤ recField b 2 1)

/-- A VIEW record's sub-reason (R325). -/
def viewReason (b : List Byte) : Option Nat :=
  let size (n : Nat) : Bool := decide (n = 0 ∨ 16384 < n)
  let spp := recField b 2 1 % 32
  let fl := ((List.range 12).map fun k => recField b (8 + 4 * k) 4) ++ [recField b 56 4, recField b 60 4]
  firstReason [
    (1, size (recField b 4 2) || size (recField b 6 2) || decide (spp = 0 ∨ 16 < spp)),
    (2, recField b 72 8 % 64 != 0 || decide (2 ^ 56 ≤ recField b 72 8)),
    (3, decide (8 ≤ recField b 3 1)),
    (6, !fl.all finite32 || ltF (decodeF fmt32 (recField b 60 4)) (decodeF fmt32 (recField b 56 4)))]

/-- A TEXTURE record's reserved fields (R334). -/
def textureReserved (b : List Byte) : Bool :=
  !(recZero b 52 128 && recZero b 24 28 && recZero b 12 16 && recZero b 6 8) || decide (32 ≤ recField b 5 1)

def textureReason (b : List Byte) : Option Nat :=
  let size (n : Nat) : Bool := decide (n = 0 ∨ 16384 < n)
  let wd := recField b 8 2
  let ht := recField b 10 2
  let lvl := recField b 5 1
  let tf := recField b 2 1
  firstReason [
    (1, size wd || size ht || decide (lvl = 0 ∨ 15 < lvl)),
    (2, recField b 16 8 % 256 != 0 || decide (2 ^ 56 ≤ recField b 16 8)),
    (3, tf == 0 || decide (18 ≤ tf) || decide (64 ≤ recField b 3 1) || decide (16 ≤ recField b 4 1)),
    (4, decide (Nat.log2 (max wd ht) + 1 < lvl)),
    (6, !(finite32 (recField b 44 4) && finite32 (recField b 48 4)))]

/-- Features per entry of a GRID (R339). -/
def gridF (b : List Byte) : Nat := 2 * 2 ^ (recField b 3 1 % 4)

def gridReserved (b : List Byte) : Bool :=
  !(recZero b 80 128 && recZero b 5 8) || decide (32 ≤ recField b 2 1) || decide (32 ≤ recField b 4 1)

def gridReason (b : List Byte) : Option Nat :=
  let lv := recField b 2 1
  let t := recField b 4 1
  let res (k : Nat) : Nat := recField b (16 + 4 * k) 4
  firstReason [
    (1, decide (lv = 0 ∨ 16 < lv ∨ t = 0 ∨ 24 < t) ||
        (List.range 16).any fun k => if k < lv then decide (res k = 0 ∨ 2 ^ 20 < res k) else res k != 0),
    (2, recField b 8 8 % 64 != 0 || decide (2 ^ 56 ≤ recField b 8 8)),
    (3, decide (3 ≤ recField b 3 1)),
    (5, decide (32 < lv * gridF b))]

/-- The code that SEAL writes to %sealst for a record it has read, or none; `room`: a free slot exists (R245). -/
def sealFault (b : List Byte) (room : Bool) : Option Nat :=
  let kind := recField b 0 1
  let late (sub : Option Nat) : Option Nat := if !room then some 9 else sub.map fun r => 10 + 256 * r
  if kind = 0 ∨ 4 < kind then some 2
  else if recField b 1 1 ≠ 1 then some 3
  else match kind with
  | 1 => (tensorFault b).orElse fun _ => late none
  | 2 => if gridReserved b then some 4 else late (gridReason b)
  | 3 => if textureReserved b then some 4 else late (textureReason b)
  | _ => if viewReserved b then some 4 else late (viewReason b)

/-! ### The record table -/

/-- The slot of a valid handle (R244). -/
def handleSlot (s : State) (ctx h : Nat) : Option (Nat × RecSlot) :=
  match kvGet (getCtx s ctx).recs (h % 1024) with
  | some r => if h ≠ 0 ∧ r.isSealed ∧ r.gen = h / 1024 then some (h % 1024, r) else none
  | none => none

/-- A slot that SEAL may take: not sealed, and no command in flight uses its copy (R248). -/
def slotFree (s : State) (ctx k : Nat) : Bool :=
  !(kvD (getCtx s ctx).recs k {}).isSealed &&
  !s.cmds.any fun (_, c) => c.slot == some k && c.phase != .completed && (kvD s.crews c.crew {}).ctx == ctx

/-! ### The record area (R345) -/

/-- Writes bytes of the record area at their homes, in order: those whose piece is not there yet wait, and one that faults is
dropped (log entry 137). -/
def areaPuts (ctx : Nat) : List (Nat × List Byte) → State → State
  | [], s => s
  | (off, bs) :: rest, s =>
    match touch s none ctx permWrite (descField s ctx 72 8 + off) 0 with
    | .ok s pa => areaPuts ctx rest (homePuts s pa bs)
    | .fault _ _ => areaPuts ctx rest s
    | .wait s => setCtx s ctx { getCtx s ctx with areaDue := (off, bs) :: rest }

/-- The writes of a context's record area that waited are tried again. -/
def areaWriteMove (s : State) (ctx : Nat) : State :=
  let c := getCtx s ctx
  if c.areaDue.isEmpty then s else areaPuts ctx c.areaDue (setCtx s ctx { c with areaDue := [] })

/-- Writes bytes of the record area, behind those that wait. -/
def recordAreaPut (s : State) (ctx off : Nat) (bs : List Byte) : State :=
  let c := getCtx s ctx
  if c.areaDue.isEmpty then areaPuts ctx [(off, bs)] s
  else setCtx s ctx { c with areaDue := c.areaDue ++ [(off, bs)] }

/-- The sixteen bytes of a slot's state word. -/
def slotWord (r : RecSlot) : List Byte := leBytes 16 (r.gen % 2 ^ 22 + if r.isSealed then 2 ^ 31 else 0)

/-- Sets a slot of the record table, with its copy and state word in the record area. -/
def setRecord (s : State) (ctx k : Nat) (r : RecSlot) : State :=
  let c := getCtx s ctx
  let s := setCtx s ctx { c with recs := kvSet c.recs k r }
  let s := if r.isSealed then recordAreaPut s ctx (128 * k) r.data else s
  recordAreaPut s ctx (131072 + 16 * k) (slotWord r)

end Sys2Proof.Machine
end

