-- ==== Sys2Proof/Machine/Transfer.lean ====
section
/-! DEFINITION. The accesses of engine commands to memory and scratch (R231, R261), tag decoding (R48-R51, R243), and the
copy, gather and scatter engine (R250-R256). -/

namespace Sys2Proof.Machine

/-! ### The global side -/

/-- Who a command accesses memory for: the core, the context, and the lane whose version holds its writes (R231, R376). -/
structure Bus where
  core : Nat
  ctx : Nat
  crew : Nat
  warp : Nat
  lane : Nat
  vers : Bool
  deriving DecidableEq, Repr

def Bus.of (s : State) (c : Command) : Bus :=
  let cr := kvD s.crews c.crew {}
  { core := c.core, ctx := cr.ctx, crew := c.crew, warp := c.warp, lane := c.lane, vers := (getLaunch s cr.launch).vers }

def Bus.version (s : State) (b : Bus) : Version :=
  if b.vers then match getWarp s b.crew b.warp with
    | some wp => kvD wp.versions b.lane {}
    | none => {}
  else {}

/-- The tag of a block as the command sees it: the home's, as the core's dirty bytes and the lane's version change it. -/
def busTag (s : State) (b : Bus) (pa va : Nat) : W16 :=
  let home := homeTag s pa
  let t := match sectorAt s b.core (pa / 64) with
    | some x => if x.dirty = (0 : Mask) then home
        else if isZeroTag home || (x.tagDirty && isPoisonTag home) then 0 else home
    | none => home
  match ((b.version s).lines.find? fun l => l.line == va / 128) with
  | none => t
  | some l => match kvGet l.tags (va / 64 % 2) with
    | some v => v
    | none => if isZeroTag t && (l.mask.toNat / 2 ^ (64 * (va / 64 % 2)) % 2 ^ 64) != 0 then 0 else t

/-- A byte as the command sees it. `raw`: the stored byte of a block that keeps the tag ZERO. -/
def busByte (s : State) (b : Bus) (raw : Bool) (pa va : Nat) : Byte :=
  match versionByte (b.version s) va with
  | some v => v
  | none =>
    let home : Byte := if raw && isZeroTag (busTag s b pa va) then cellGet s.mem pa else homeByte s pa
    match sectorAt s b.core (pa / 64) with
    | some x => if x.dirty.getLsbD (pa % 64) then x.data.getD (pa % 64) 0 else home
    | none => home

/-- Writes a byte for a command: at the home, after the core's L1 has written back and invalidated the sector, or in the
version. -/
def busPut (s : State) (b : Bus) (pa va : Nat) (v : Byte) : State :=
  if b.vers then match getWarp s b.crew b.warp with
    | none => s
    | some wp =>
      let nv := versionPut (kvD wp.versions b.lane {}) va (homeStack pa) v
      setWarp s b.crew b.warp { wp with versions := kvSet wp.versions b.lane nv }
  else homePut (flushSector s b.core (pa / 64)) pa v

/-- Writes a stored byte under the tag that its block has (R253, R255). -/
def busRaw (s : State) (b : Bus) (pa va : Nat) (v : Byte) : State :=
  if b.vers then busPut s b pa va v else homeRaw (flushSector s b.core (pa / 64)) pa v

/-- Some line that the lane's version does not hold would go to a slice whose share for versions is full (R376, R378). -/
def Bus.sliceFull (s : State) (b : Bus) (vas : List Nat) : Bool :=
  vas.any fun va => !((b.version s).lines.any fun l => l.line == va / 128) &&
    match translate s (some b.core) b.ctx permWrite va with
    | .ok pa _ => decide (sliceShare ≤ sliceLines s (homeStack pa))
    | _ => false

/-- Sets a block's tag for a command. -/
def busSetTag (s : State) (b : Bus) (pa va : Nat) (t : W16) : State :=
  if b.vers then match getWarp s b.crew b.warp with
    | none => s
    | some wp =>
      let v := kvD wp.versions b.lane {}
      let v := { v with lines := v.lines.map fun l =>
        if l.line = va / 128 then { l with tags := kvSet l.tags (va / 64 % 2) t } else l }
      setWarp s b.crew b.warp { wp with versions := kvSet wp.versions b.lane v }
  else setTag s (pa / 64) t

/-- What touching the blocks of a command comes to: the state and how many can be accessed, and why no more. -/
inductive BusTouch where
  | ok (s : State)
  | fault (s : State) (n : Nat) (f : CmdFault)
  | wait (s : State)
  deriving DecidableEq, Repr

/-- Touches spans (VA, bytes) in order for a command (R261: R203 conditions 2 to 4); kind 1 read, 2 write. -/
def busTouch (b : Bus) (perm kind : Nat) : List (Nat × Nat) → Nat → State → BusTouch
  | [], _, s => .ok s
  | (va, n) :: rest, done, s =>
    match touch s (some b.core) b.ctx perm va (nearestStack b.core) with
    | .wait s' => .wait s'
    | .fault code tx =>
      .fault s done { code := code, va := va % 2 ^ 56, blocks := done, reason := if code = 0x0B then tx else 0 }
    | .ok s' _ =>
      match watchHit s' b.ctx kind va n with
      | some _ => .fault s' done { code := 0x12, va := va % 2 ^ 56, blocks := done }
      | none => busTouch b perm kind rest (done + 1) s'

/-- The PA of a VA that has been touched. -/
def busPa (s : State) (b : Bus) (perm va : Nat) : Nat :=
  match translate s (some b.core) b.ctx perm va with
  | .ok pa _ => pa
  | _ => 0

/-! ### Elements -/

/-- The NaN that decoding produces (R50). -/
def quietF : FVal := .nan false 23 (2 ^ 22)

/-- The floating-point format of an ET. -/
def etFmt (et : Nat) : Option Fmt :=
  match et with
  | 8 => some fmt16
  | 9 => some fmtB16
  | 10 => some fmt32
  | _ => none

/-- The integer type of an ET: width and signedness. -/
def etInt (et : Nat) : Elem := ⟨1, 4 * etNibbles et, et % 2 == 1⟩

/-- An integer as an exact value. -/
def intF (v : Int) : FVal := .fin (decide (v < 0)) v.natAbs 0

/-- A floating-point element, a subnormal read as a zero of its sign where a conversion flushes (R39). -/
def readEl (flush : Bool) (f : Fmt) (bits : Nat) : FVal :=
  if flush && isSubnormal f bits then .fin (decide (f.signBit ≤ bits)) 0 0 else decodeF f bits

/-- An untagged element (R254). -/
def plainF (flush : Bool) (et bits : Nat) : FVal :=
  match etFmt et with
  | some f => readEl flush f bits
  | none => intF (elemOf (etInt et) bits 0)

/-- Status bits of a command (R260). -/
def stTagf : Nat := 1
def stPois : Nat := 2
def stClip : Nat := 4
def stOvf : Nat := 8
def stCanc : Nat := 16
def stFlt : Nat := 32

/-- An element of a box on its way: a value, bits to copy unchanged, an element of a POISON block, or one outside the
tensor. -/
inductive BoxElem where
  | val (x : FVal)
  | bits (n : Nat)
  | pois
  | out
  deriving DecidableEq, Repr

/-- An element of a block under a tag (R48, R49, R243): the value, and the status bits. -/
def taggedF (flush : Bool) (et : Nat) (tag : W16) (bits : Nat) : BoxElem × Nat :=
  let f := tagFormat tag
  let e := tag.toNat % 256
  let known : Bool := match et with
    | 10 => f == 0 || f == 5
    | 8 | 9 => f == 0 || f == 3 || f == 4
    | 1 => f == 0 || f == 1 || f == 6
    | 11 => f == 1
    | 12 => f == 2
    | _ => f == 0
  if f = 15 then (.pois, stPois)
  else if f = 7 then (.val (.fin false 0 0), 0)
  else if !known then (.val quietF, stTagf)
  else if f = 0 then (.val (plainF flush et bits), 0)
  else if f = 5 then (.val (readEl flush fmt32 bits), 0)
  else if e = 255 then (.val quietF, 0)
  else match f with
  | 1 => (.val (bxValue false tag.toNat bits), 0)
  | 2 => (.val (bxValue true tag.toNat bits), 0)
  | 3 => (.val (FVal.scale (readEl flush fmt16 bits) ((e : Int) - 127)), 0)
  | 4 => (.val (FVal.scale (readEl flush fmtB16 bits) ((e : Int) - 127)), 0)
  | _ => (.val (FVal.scale (intF (signedOf 8 bits)) ((e : Int) - 127)), 0)

/-- The value of an element for quantisation. -/
def BoxElem.value : BoxElem → FVal
  | .val x => x
  | .bits _ => quietF
  | .pois => quietF
  | .out => .fin false 0 0

/-- An element delivered to a floating-point format: the bits and the status (R50, R51, R254). -/
def toFloat (f : Fmt) (flush : Bool) (e : BoxElem) : Nat × Nat :=
  match e with
  | .bits n => (n, 0)
  | .pois => (f.canonNaN, 0)
  | .out => (0, 0)
  | .val x =>
    let r := deliverF f flush x
    let ovf := match x with | .fin _ _ _ => r % f.signBit == f.infBits | _ => false
    (r, if ovf then stOvf else 0)

/-- An element delivered to an integer type: RNE, saturated; a NaN gives 0 (R51, R254). -/
def toInteger (e : Elem) (x : BoxElem) : Nat × Nat :=
  match x with
  | .bits n => (n, 0)
  | .pois => (0, 0)
  | .out => (0, 0)
  | .val (.nan _ _ _) => (0, stOvf)
  | .val (.inf s) => (wrapNat e.width (if s then elemLo e else elemHi e), stOvf)
  | .val (.fin s m ex) =>
    let v : Int := (if s then -1 else 1) * (rneMag m ex : Int)
    let c := clampInt (elemLo e) (elemHi e) v
    (wrapNat e.width c, if c = v then 0 else stOvf)

/-! ### The copy engine -/

/-- The format an LF names, as an ET (R251). -/
def lfEt (j : CopyJob) : Nat :=
  match j.lf with
  | 1 => 10
  | 2 => 8
  | 3 => 9
  | 4 => 11
  | 5 => 12
  | _ => j.et

/-- The local element size in nibbles (R251). -/
def CopyJob.zn (j : CopyJob) : Nat := etNibbles (lfEt j)
def CopyJob.bk (j : CopyJob) (k : Nat) : Nat := j.b.getD k 1
def CopyJob.ck (j : CopyJob) (k : Nat) : Nat := j.c.getD k 0
def CopyJob.extk (j : CopyJob) (k : Nat) : Nat := j.ext.getD k 1
def CopyJob.strk (j : CopyJob) (k : Nat) : Nat := j.str.getD k 0

/-- The image carries a tag array (R251). -/
def CopyJob.localTags (j : CopyJob) : Bool := j.lf == 4 || j.lf == 5 || (j.lf == 0 && j.tagged)

/-- Rows of the local image (R251, R256). -/
def CopyJob.imageRows (j : CopyJob) : Nat :=
  match j.kind with
  | 0 => j.bk 1 * j.bk 2 * j.bk 3
  | 1 => j.bk 1
  | _ => j.bk 3

/-- The bytes of one local row's elements. -/
def CopyJob.rowBytes (j : CopyJob) : Nat := (j.bk 0 * j.zn + 1) / 2

/-- The bytes of the local image, its tag array included (R251). -/
def CopyJob.imageBytes (j : CopyJob) : Nat :=
  if j.localTags then j.pitch * j.imageRows + j.pitch * j.imageRows / 32
  else j.pitch * (j.imageRows - 1) + j.rowBytes

/-- Bytes travel unchanged (R253). -/
def CopyJob.unchanged (j : CopyJob) : Bool :=
  j.lf == 0 || ((j.lf == 4 || j.lf == 5) && lfEt j == j.et) || (!j.tagged && lfEt j == j.et)

/-- The conversions of a command flush subnormal sources: all but those to BX8 and BX4 (R39, R254). -/
def CopyJob.flushes (j : CopyJob) : Bool := j.flush && (if j.out then decide (j.et < 11) else j.lf != 4 && j.lf != 5)

/-- One row of the move: the local row and the tensor row's coordinates, none where the row lies outside (R253, R256). -/
structure RowTask where
  lr : Option Nat := none
  at_ : Option (Nat × Nat × Nat) := none
  deriving DecidableEq, Repr

/-- Coordinates 1 to 3 that lie in the tensor. -/
def CopyJob.rowIn (j : CopyJob) (c1 c2 c3 : Nat) : Option (Nat × Nat × Nat) :=
  if c1 < j.extk 1 ∧ c2 < j.extk 2 ∧ c3 < j.extk 3 then some (c1, c2, c3) else none

/-- The rows of a command in order; `list`: the index list of GATH and SCAT. -/
def CopyJob.rows (j : CopyJob) (list : List Nat) : List RowTask :=
  match j.kind with
  | 0 => (List.range (j.bk 1 * j.bk 2 * j.bk 3)).map fun r =>
      { lr := some r,
        at_ := j.rowIn (j.ck 1 + r % j.bk 1) (j.ck 2 + r / j.bk 1 % j.bk 2) (j.ck 3 + r / (j.bk 1 * j.bk 2)) }
  | 1 => (list.zipIdx).map fun (x, i) =>
      { lr := some i, at_ := j.rowIn x (j.ck 2) (j.ck 3) }
  | _ => (list.zipIdx).map fun (x, i) =>
      { lr := if x < j.bk 3 then some x else none, at_ := j.rowIn (j.ck 1 + i) (j.ck 2) (j.ck 3) }

/-- The VA of element c0 + k of a tensor row, with the nibble of a BX4 element. -/
def CopyJob.elemVa (j : CopyJob) (p : Nat × Nat × Nat) (k : Nat) : Nat :=
  let e := j.ck 0 + k
  j.base + (if j.et = 12 then e / 2 else e * j.strk 0) + p.1 * j.strk 1 + p.2.1 * j.strk 2 + p.2.2 * j.strk 3

/-- Elements of a row inside the tensor. -/
def CopyJob.inside (j : CopyJob) : Nat := min (j.bk 0) (j.extk 0 - j.ck 0)

/-- The spans of memory a row accesses, one per 64-byte block, ascending. -/
def CopyJob.rowSpans (j : CopyJob) (t : RowTask) : List (Nat × Nat) :=
  match t.at_ with
  | none => []
  | some p =>
    if t.lr.isNone then []
    else
      let sz := etBytes j.et
      let add (m : List Nat) (va : Nat) : List Nat := setIns (setIns m (va / 64)) ((va + sz - 1) / 64)
      let blks := (List.range j.inside).foldl (fun m k => add m (j.elemVa p k)) []
      let lo := j.elemVa p 0
      let hi := j.elemVa p (j.inside - 1) + sz
      blks.map fun q => (max (64 * q) lo, min (64 * q + 64) hi - max (64 * q) lo)

/-- The bits of tensor element k of a row, and the tag of its block. -/
def CopyJob.loadElem (j : CopyJob) (s : State) (b : Bus) (p : Nat × Nat × Nat) (k : Nat) : Nat × W16 :=
  let va := j.elemVa p k
  let byte (n : Nat) : Byte := busByte s b j.tagged (busPa s b permRead (va + n)) (va + n)
  let v := leNat ((List.range (etBytes j.et)).map byte)
  ((if j.et = 12 then v / 16 ^ ((j.ck 0 + k) % 2) % 16 else v), busTag s b (busPa s b permRead va) va)

/-- Element k of a row as `.in` reads it (R253, R254). -/
def CopyJob.sourceElem (j : CopyJob) (s : State) (b : Bus) (t : RowTask) (k : Nat) : BoxElem × Nat × W16 :=
  match t.at_ with
  | none => (.out, stClip, 0x7000)
  | some p =>
    if j.inside ≤ k then (.out, stClip, 0x7000)
    else
      let (v, tag) := j.loadElem s b p k
      let f := tagFormat tag
      if f = 15 then (.pois, stPois, 0xF000)
      else if j.unchanged then (.bits v, 0, tag)
      else if !j.tagged then (.val (plainF j.flushes j.et v), 0, tag)
      else if lfEt j = j.et ∧ (f = 0 ∨ (f = 5 ∧ j.et = 10)) then (.bits v, 0, tag)
      else let r := taggedF j.flushes j.et tag v; (r.1, r.2, tag)

/-- Or of status bits. -/
def orAll (l : List Nat) : Nat := l.foldl (fun a b => a ||| b) 0

/-- Elements of zn nibbles as bytes. -/
def packRow (zn : Nat) (l : List Nat) : List Byte :=
  leBytes ((l.length * zn + 1) / 2) (l.foldr (fun x acc => x % 16 ^ zn + 16 ^ zn * acc) 0)

/-- The elements of a list in runs of n. -/
def runsOf {α : Type} (n count : Nat) (l : List α) : List (List α) :=
  (List.range ((count + n - 1) / n)).map fun k => (l.drop (n * k)).take n

/-- A row of a local image as `.in` writes it: its bytes, its tag-array entries, and the status bits. -/
def CopyJob.rowIn' (j : CopyJob) (s : State) (b : Bus) (t : RowTask) : List Byte × List W16 × Nat :=
  let es := (List.range (j.bk 0)).map fun k => j.sourceElem s b t k
  let st := orAll (es.map fun e => e.2.1)
  let per := 128 / j.zn
  let allOut (l : List (BoxElem × Nat × W16)) : Bool := l.all fun e => e.1 == .out
  if j.unchanged then
    let bits (e : BoxElem × Nat × W16) : Nat := match e.1 with
      | .bits n => n
      | .pois => (match etFmt j.et with | some f => f.canonNaN | none => 0)
      | _ => 0
    let same4 := j.lf == 4 || j.lf == 5
    let tags := (runsOf per (j.bk 0) es).map fun l =>
      if allOut l then (0x7000 : W16)
      else match l.find? fun e => e.1 != .out with
        | some (.pois, _, _) => if same4 then BitVec.ofNat 16 ((if j.lf = 4 then 0x1000 else 0x2000) + 255) else 0xF000
        | some (_, _, tag) => tag
        | none => 0x7000
    (packRow j.zn (es.map bits), tags, st)
  else match j.lf with
  | 4 | 5 =>
    let qs := (runsOf per (j.bk 0) es).map fun l =>
      if allOut l then (List.replicate per 0, 0x7000) else quantise (j.lf == 5) (l.map fun e => e.1.value)
    (packRow j.zn (qs.map (·.1)).flatten, qs.map fun q => BitVec.ofNat 16 q.2, st)
  | _ =>
    let f := (etFmt (lfEt j)).getD fmt32
    let rs := es.map fun e => toFloat f j.flush e.1
    (packRow j.zn (rs.map (·.1)), [], st ||| orAll (rs.map (·.2)))

/-- Where a row's tag-array entries begin in the crew's scratch (R251). -/
def CopyJob.tagAt (j : CopyJob) (lr : Nat) : Nat := j.lo + j.pitch * j.imageRows + 2 * (lr * j.pitch / 64)

/-- Performs one row of an `.in` command: the state and its status bits. -/
def CopyJob.doIn (j : CopyJob) (b : Bus) (s : State) (t : RowTask) : State × Nat :=
  match t.lr with
  | none => (s, stClip)
  | some lr =>
    let (bytes, tags, st) := j.rowIn' s b t
    let s := scratchPut s b.crew (j.lo + lr * j.pitch) bytes
    let s := if j.localTags then scratchPut s b.crew (j.tagAt lr) (tags.map fun t => leBytes 2 t.toNat).flatten else s
    (s, st)

/-- A local row as `.out` reads it: each element that lies in the tensor, its block's tag-array entry, and the status bits. A
block of code 15 is POISON, also where bytes travel unchanged (R51, R254). -/
def CopyJob.localRow (j : CopyJob) (cr : Crew) (lr : Nat) : List (BoxElem × W16) × Nat :=
  let row := leNat (scratchBytes cr (j.lo + lr * j.pitch) j.rowBytes)
  let per := 128 / j.zn
  let tag (k : Nat) : W16 := if j.localTags then BitVec.ofNat 16 (leNat (scratchBytes cr (j.tagAt lr + 2 * (k / per)) 2)) else 0
  let es := (List.range (j.bk 0)).map fun k =>
    let v := row / 16 ^ (j.zn * k) % 16 ^ j.zn
    if j.unchanged then
      if j.localTags && isPoisonTag (tag k) then
        (BoxElem.pois, (if j.lf = 4 then (0x10FF : W16) else if j.lf = 5 then 0x20FF else tag k), stPois)
      else (BoxElem.bits v, tag k, 0)
    else if j.lf = 4 ∨ j.lf = 5 then let r := taggedF j.flushes (lfEt j) (tag k) v; (r.1, tag k, r.2)
    else (.val (plainF j.flushes (lfEt j) v), tag k, 0)
  let es := es.take j.inside
  (es.map fun e => (e.1, e.2.1), orAll (es.map fun e => e.2.2))

/-- The bits and the block tag that `.out` writes for each element of a row, with the status bits (R254, R255). -/
def CopyJob.outBits (j : CopyJob) (es : List (BoxElem × W16)) : List (Nat × W16) × Nat :=
  if j.unchanged then (es.map fun e => ((match e.1 with
    | .bits n => n
    | .pois => (match etFmt j.et with | some f => f.canonNaN | none => 0)
    | _ => 0), e.2), 0)
  else match etFmt j.et with
  | some f =>
    let rs := es.map fun e => toFloat f j.flush e.1
    (rs.map fun r => (r.1, 0), orAll (rs.map (·.2)))
  | none =>
    if 11 ≤ j.et then
      let per := etPerBlock j.et
      let qs := (runsOf per es.length es).map fun l => quantise (j.et == 12) (l.map fun e => e.1.value)
      (((qs.map fun q => q.1.map fun c => (c, BitVec.ofNat 16 q.2)).flatten).take es.length, 0)
    else
      let rs := es.map fun e => toInteger (etInt j.et) e.1
      (rs.map fun r => (r.1, 0), orAll (rs.map (·.2)))

/-- Writes tensor element k of a row; in a tagged tensor whose block becomes ZERO, the stored bytes (R255). -/
def CopyJob.storeElem (j : CopyJob) (b : Bus) (p : Nat × Nat × Nat) (k bits : Nat) (tag : W16) (s : State) : State :=
  let va := j.elemVa p k
  let pa (n : Nat) : Nat := busPa s b permWrite (va + n)
  let raw := j.tagged && isZeroTag tag
  let v := if j.et = 12 then
      let old := (busByte s b raw (pa 0) va).toNat
      let sh := 16 ^ ((j.ck 0 + k) % 2)
      old - old / sh % 16 * sh + bits % 16 * sh
    else bits
  ((leBytes (etBytes j.et) v).zipIdx).foldl (fun s e =>
    if raw then busRaw s b (pa e.2) (va + e.2) e.1 else busPut s b (pa e.2) (va + e.2) e.1) s

/-- The tag of the block of tensor element k of a row, set once the row is written (R255). -/
def CopyJob.storeTag (j : CopyJob) (b : Bus) (p : Nat × Nat × Nat) (k : Nat) (tag : W16) (s : State) : State :=
  if j.tagged then busSetTag s b (busPa s b permWrite (j.elemVa p k)) (j.elemVa p k) tag else s

/-- Performs one row of an `.out` command. -/
def CopyJob.doOut (j : CopyJob) (b : Bus) (s : State) (t : RowTask) : State × Nat :=
  match t.lr, t.at_ with
  | some lr, some p =>
    let (es, st) := j.localRow (kvD s.crews b.crew {}) lr
    let (bs, st2) := j.outBits es
    let s := bs.zipIdx.foldl (fun s e => j.storeElem b p e.2 e.1.1 e.1.2 s) s
    let s := bs.zipIdx.foldl (fun s e => j.storeTag b p e.2 e.1.2 s) s
    (s, st ||| st2 ||| (if j.inside < j.bk 0 then stClip else 0))
  | _, _ => (s, stClip)

/-- Blocks tagged POISON of which a command wrote every byte become tag 0 (R255). -/
def CopyJob.clearPoison (j : CopyJob) (b : Bus) (rows : List RowTask) (s : State) : State :=
  if j.tagged then s
  else
    let vas := (rows.map fun t => match t.lr, t.at_ with
      | some _, some p => ((List.range j.inside).map fun k =>
          (List.range (etBytes j.et)).map fun n => j.elemVa p k + n).flatten
      | _, _ => []).flatten
    (vas.foldl (fun m va => setIns m (va / 64)) []).foldl (fun s q =>
      let pa := busPa s b permWrite (64 * q)
      if isPoisonTag (busTag s b pa (64 * q)) && (List.range 64).all fun k => vas.contains (64 * q + k) then
        busSetTag s b pa (64 * q) 0 else s) s

/-- The rows whose every block can be accessed when n spans can. -/
def rowsWithin (j : CopyJob) : List RowTask → Nat → List RowTask
  | [], _ => []
  | t :: rest, n =>
    let k := (j.rowSpans t).length
    if k ≤ n then t :: rowsWithin j rest (n - k) else []

/-- What the performance of a command comes to. -/
inductive Performed where
  | done (s : State) (status : Nat) (fault : Option CmdFault)
  | wait (s : State)
  deriving DecidableEq, Repr

/-- The index list of GATH and SCAT, read once (R256). -/
def CopyJob.list (j : CopyJob) (cr : Crew) : List Nat :=
  if j.kind = 0 then [] else (List.range (j.bk 1)).map fun i => leNat (scratchBytes cr (j.x + 4 * i) 4)

/-- Performs a copy, gather or scatter (R253-R256, R261). -/
def CopyJob.perform (j : CopyJob) (b : Bus) (s : State) : Performed :=
  let rows := j.rows (j.list (kvD s.crews b.crew {}))
  let spans := (rows.map j.rowSpans).flatten
  let go (rows : List RowTask) (s : State) : State × Nat :=
    let r := rows.foldl (fun (s, st) t => let q := if j.out then j.doOut b s t else j.doIn b s t; (q.1, st ||| q.2)) (s, 0)
    (if j.out then j.clearPoison b rows r.1 else r.1, r.2)
  let overflow (r : Nat) : Performed := .done s 0 (some { code := 0x10, va := (spans.headD (0, 0)).1 % 2 ^ 56, reason := r })
  if j.out && b.vers && decide (512 < versionLines (b.version s) (spans.map (·.1))) then overflow 1
  else if j.out && b.vers && b.sliceFull s (spans.map (·.1)) then overflow 2
  else match (if j.out then busTouch b permWrite 2 spans 0 s else busTouch b permRead 1 spans 0 s) with
  | .wait s' => .wait s'
  | .ok s' => let r := go rows s'; .done r.1 r.2 none
  | .fault s' n f =>
    let rows := rowsWithin j rows n
    let r := go rows s'
    .done r.1 r.2 (some { f with blocks := ((rows.map j.rowSpans).flatten).length })

end Sys2Proof.Machine
end

