-- ==== Sys2Proof/Machine/Commands.lean ====
section
/-! DEFINITION. Commands: sealed records, issue and the scoreboard, completion and retirement, and the instructions that
wait for commands and read their status (R238-R265). -/

namespace Sys2Proof.Machine

/-! ### Records -/

/-- The reason of R189 or R252 that a span of scratch is not the issuing core's own, or its offset in the crew's scratch. -/
def ownScratch (x : Site) (sa n : Nat) : Except Nat Nat :=
  if 2 ^ 22 ≤ sa then .error 1
  else if sa / 2 ^ 20 ≠ x.ref.core % 4 then .error 5
  else if scratchSize x.cr < sa % 2 ^ 20 + n then .error 2
  else .ok (sa % 2 ^ 20)

/-- SEAL's answer: the handle to sd, and pd (R247). -/
def Site.sealed (x : Site) (w : Enc) (h : Nat) (ok : Bool) : Site := (x.putBit w.e ok).writeDst w.d false [(0, h)]

/-- SEAL (R245, R247). -/
def execSealRec (w : Enc) (s : State) : Host.Outcome State Fault Refusal :=
  issueInstr (.sealRec w) w s fun x s =>
    if x.act = 0 then .done x s
    else
      let refuse (x : Site) (code : Nat) : Act :=
        .done ({ x with wp := { x.wp with sealst := BitVec.ofNat 32 code } }.sealed w 0 false) s
      let sa := uB s x w
      match (if sa % 128 = 0 then ownScratch x sa 128 else .error 1) with
      | .error _ => refuse x 1
      | .ok off =>
        let loc : Loc := .scratch x.ref.crew off
        let a := takeEarly false x.wp 128 { lane := lowLane x.act, va := off, loc := loc }
        if !syncReady s x 128 [a] then .block x s
        else match poisonTrap s x .scratch 3 128 [a] with
          | some t => .trap x { t with mask := x.act } s
          | none =>
            let rec_ := if a.done then leBytes 128 a.x else scratchBytes x.cr off 128
            let free := (List.range 1024).find? fun k => slotFree s x.cr.ctx k
            match sealFault rec_ free.isSome, free with
            | some code, _ => refuse x code
            | none, none => refuse x 9
            | none, some k =>
              let c := getCtx s x.cr.ctx
              let r := kvD c.recs k {}
              .done (x.sealed w (r.gen * 1024 + k) true) (setRecord s x.cr.ctx k { r with isSealed := true, data := rec_ })

/-- SEAL_INVALID (R248, R252, R342). -/
def sealInvalid (x : Site) (n : Nat) : TrapInfo := { code := 0x0C, tx := BitVec.ofNat 32 n, mask := x.act }

/-- A scalar source read as n32. -/
def sA (x : Site) (w : Enc) : Nat := scalarValue x.wp w.a.idx.toNat false

/-- UNSEAL (R248). -/
def execUnsealRec (w : Enc) (s : State) : Host.Outcome State Fault Refusal :=
  issueInstr (.unsealRec w) w s fun x s =>
    if x.act = 0 then .done x s
    else match handleSlot s x.cr.ctx (sA x w) with
      | none => .trap x (sealInvalid x 1) s
      | some (k, r) =>
        let g := if r.gen = 2 ^ 22 - 1 then 1 else r.gen + 1
        .done x (setRecord s x.cr.ctx k { r with isSealed := false, gen := g })

/-- HQRY (R249). -/
def execHqry (w : Enc) (s : State) : Host.Outcome State Fault Refusal :=
  issueInstr (.hqry w) w s fun x s =>
    if x.act = 0 then .done x s
    else match handleSlot s x.cr.ctx (sA x w) with
      | none => .done (x.sealed w 0 false) s
      | some (_, r) => .done (x.sealed w (recField r.data (4 * (uB s x w % 32)) 4) true) s

/-! ### The scoreboard -/

def regionsMeet (a b : List Region) : Bool :=
  a.any fun p => b.any fun q => match p, q with
    | .bytes c lo hi, .bytes d lo' hi' => c == d && decide (lo < hi') && decide (lo' < hi)
    | .tile c n, .tile d m => c == d && n == m
    | _, _ => false

/-- Commands of a core that hold a scoreboard entry (R238, R257). -/
def boardEntries (s : State) (core : Nat) : KV Command :=
  kvFilter s.cmds fun _ c => (c.core == core || c.pair == some core) && c.phase != .completed && !(c.reads.isEmpty && c.writes.isEmpty)

/-- RAW, WAR or WAW (R257). -/
def mustFollow (p c : Command) : Bool :=
  regionsMeet p.writes c.reads || regionsMeet p.reads c.writes || regionsMeet p.writes c.writes

def engClass (wp : Warp) (cls : Nat) : EngClass := kvD wp.eng cls {}
def Site.setClass (x : Site) (cls : Nat) (e : EngClass) : Site := { x with wp := { x.wp with eng := kvSet x.wp.eng cls e } }

/-- A command waits at issue: counter, scoreboard, and the release of its scope (R230, R252, R259). -/
def commandWaits (s : State) (x : Site) (c : Command) : Bool :=
  decide (63 ≤ (engClass x.wp c.cls).count) ||
  (!(c.reads.isEmpty && c.writes.isEmpty) && (x.ref.core :: c.pair.toList).any fun k => decide (64 ≤ (boardEntries s k).length)) ||
  !(x.wp.storeQ.isEmpty && x.wp.loads.isEmpty)

/-- The scope of the release that issuing a command makes: its completion scope, and device scope for TRACE and FILT (R230,
R232). -/
def Command.issueScope (c : Command) : Nat := if c.cls = 3 ∨ c.cls = 4 then 3 else c.scope

/-- Enters a checked command: the release of its issue, its predecessors, the counter (R230, R252, R257). -/
def enterCommand (x : Site) (s : State) (c : Command) : Site × State × Nat :=
  let s := releaseStep s x.ref.core c.issueScope
  let (k, s) := s.newId
  let c := { c with crew := x.ref.crew, warp := x.ref.warp, core := x.ref.core, tpc := x.tpc, lane := lowLane x.act }
  let c := { c with preds := (((x.ref.core :: c.pair.toList).map fun k => boardEntries s k).flatten.filter fun (_, p) =>
    mustFollow p c).foldl (fun m e => setIns m e.1) [] }
  let e := engClass x.wp c.cls
  (x.setClass c.cls { e with count := e.count + 1 }, { s with cmds := kvSet s.cmds k c }, k)

/-! ### Copy, gather and scatter -/

/-- The control word of a shape block (R250). -/
structure CopyControl where
  pitch8 : Nat
  arv : Option Nat
  lf : Nat
  reservedOk : Bool
  deriving DecidableEq, Repr

def copyControl (v : Nat) : CopyControl :=
  { pitch8 := v / 2 ^ 16, arv := if v.testBit 13 then some (bitsAt v 7 6) else none, lf := v % 16,
    reservedOk := bitsAt v 14 2 == 0 && bitsAt v 4 3 == 0 }

/-- The job that an origin block, a shape block and a TENSOR name (R250, R251); lo and x are still scratch addresses. -/
def copyJob (x : Site) (w : Enc) (kind : Nat) (t : Tensor) (addr : Nat) : CopyJob × CopyControl :=
  let sc (k : Nat) : Nat := scalarValue x.wp k false
  let e := w.e.idx.toNat
  let ctl := copyControl (sc (e + 2))
  let j : CopyJob := {
    kind := kind, out := w.sub.getLsbD 0, flush := x.prof.flush, rank := t.rank, tagged := t.tagged, et := t.et,
    base := t.base, ext := t.ext, str := t.str,
    c := (List.range 4).map fun k => sc (w.c.idx.toNat + k),
    b := [sc e % 2 ^ 16, sc e / 2 ^ 16, sc (e + 1) % 2 ^ 16, sc (e + 1) / 2 ^ 16],
    lf := ctl.lf, lo := addr, x := if kind = 0 then 0 else sc (e + 3) }
  ({ j with pitch := if ctl.pitch8 = 0 then alignUp j.rowBytes 8 else 8 * ctl.pitch8 }, ctl)

/-- The conditions of SEAL_INVALID, extra 3 (R252). -/
def copyShapeBad (j : CopyJob) (ctl : CopyControl) : Bool :=
  let per := if j.lf = 4 then 64 else if j.lf = 5 then 128 else etPerBlock j.et
  j.b.any (· == 0) || decide (6 ≤ j.lf) || !ctl.reservedOk || decide (j.pitch < alignUp j.rowBytes 8) ||
  ((List.range 4).any fun k => decide (j.rank ≤ k) && (j.ck k != 0 || (j.bk k != 1 && !(j.kind == 2 && k == 3)))) ||
  (j.localTags && (j.ck 0 % per != 0 || j.bk 0 % per != 0 || j.pitch % 64 != 0 || j.lo % 64 != 0)) ||
  (decide (11 ≤ j.et) && (j.ck 0 % etPerBlock j.et != 0 || j.bk 0 % etPerBlock j.et != 0)) ||
  (j.kind == 1 && (decide (j.rank < 2) || j.bk 2 != 1 || j.bk 3 != 1)) ||
  (j.kind == 2 && (decide (j.rank < 2) || j.bk 2 != 1)) ||
  (j.kind != 0 && j.x % 4 != 0)

/-- BARRIER_INVALID of a command's ARV slot (R252, R441). -/
def arvTrap (x : Site) (arv : Option Nat) : Option TrapInfo :=
  match arv with
  | none => none
  | some k => if (kvGet x.cr.bars k).isSome then none
    else some { code := 0x15, tx := BitVec.ofNat 32 (k + 2 ^ 8 * 3), mask := x.act }

/-- SCRATCH_BOUND of a command's region (R203, R252). -/
def regionTrap (x : Site) (sa r : Nat) : TrapInfo :=
  { code := 0x0D, tx := BitVec.ofNat 32 (sa % 2 ^ 22 + 2 ^ 24 * r), mask := x.act }

/-- Issues a checked command, or waits. -/
def issueCommand (x : Site) (s : State) (c : Command) : Act :=
  if commandWaits s x c then .block x s
  else (let r := enterCommand x s c; .done r.1 r.2.1)

/-- CPY, GATH and SCAT (R252). -/
def copyBody (w : Enc) (kind : Nat) (x : Site) (s : State) : Act :=
  if x.act = 0 then .done x s
  else match handleSlot s x.cr.ctx (sA x w) with
  | none => .trap x (sealInvalid x 1) s
  | some (slot, r) =>
    if recField r.data 0 1 ≠ 1 then .trap x (sealInvalid x 2) s
    else
      let (j, ctl) := copyJob x w kind (tensorOf r.data) (uB s x w)
      if copyShapeBad j ctl then .trap x (sealInvalid x 3) s
      else match arvTrap x ctl.arv with
      | some t => .trap x t s
      | none =>
        match (if kind = 0 then .ok 0 else ownScratch x j.x (4 * j.bk 1)) with
        | .error e => .trap x (regionTrap x j.x e) s
        | .ok xo =>
          match ownScratch x j.lo j.imageBytes with
          | .error e => .trap x (regionTrap x j.lo e) s
          | .ok lo =>
            let image := Region.bytes x.ref.crew lo (lo + j.imageBytes)
            let list := if kind = 0 then [] else [Region.bytes x.ref.crew xo (xo + 4 * j.bk 1)]
            let c : Command := { cls := 0, op := .copy { j with lo := lo, x := xo }, scope := w.sub.toNat / 2 + 1,
                                 arv := ctl.arv, reads := if j.out then list ++ [image] else list,
                                 writes := if j.out then [] else [image], slot := some slot, outCounted := j.out }
            if commandWaits s x c then .block x s
            else
              let r := enterCommand x s c
              .done r.1 (if j.out then countOut r.2.1 x.cr.launch x.ref.core 0 true else r.2.1)

/-- CPY (R253). -/
def execCpy (w : Enc) (s : State) : Host.Outcome State Fault Refusal := issueInstr (.cpy w) w s (copyBody w 0)
/-- GATH (R256). -/
def execGath (w : Enc) (s : State) : Host.Outcome State Fault Refusal := issueInstr (.gath w) w s (copyBody w 1)
/-- SCAT (R256). -/
def execScat (w : Enc) (s : State) : Host.Outcome State Fault Refusal := issueInstr (.scat w) w s (copyBody w 2)

/-! ### Waiting and reading counters -/

/-- The extra word of a command fault of a class (R262, R474). -/
def CmdFault.tx (f : CmdFault) (cls : Nat) : Nat :=
  cls + (if f.code = 0x17 then 2 ^ 3 * f.reason else 0) + 2 ^ 8 * min f.blocks (2 ^ 24 - 1)

/-- WAITC (R262, R263). The extra word of LINK_FAIL has its reason and the device id (R474). -/
def execWaitc (w : Enc) (s : State) : Host.Outcome State Fault Refusal :=
  issueInstr (.waitc w) w s fun x s =>
    if x.act = 0 then .done x s
    else
      let cls := w.sub.toNat
      let e := engClass x.wp cls
      match e.faults with
      | f :: rest =>
        let st := if rest.isEmpty then e.status &&& ~~~(BitVec.ofNat 8 stFlt) else e.status
        .trap (x.setClass cls { e with faults := rest, status := st })
          { code := f.code, va := f.va, mask := x.act,
            tx := BitVec.ofNat 32 (f.tx cls),
            why := some f.reason } s
      | [] =>
        if uB s x w < e.count then .block x s
        else .done x (if e.acq = 0 then s else acquireStep s x.ref.core e.acq)

/-- CNTRD (R264). -/
def execCntrd (w : Enc) (s : State) : Host.Outcome State Fault Refusal :=
  issueInstr (.cntrd w) w s (onSite fun _ x =>
    if x.act = 0 then x
    else
      let cls := w.sub.toNat
      let e := engClass x.wp cls
      (x.setClass cls { e with status := e.status &&& BitVec.ofNat 8 stFlt }).writeDst w.d false
        [(0, min e.count 63 + 2 ^ 8 * e.status.toNat)])

/-! ### Completion -/

/-- A command whose accesses are performed completes: its barrier arrival, its successors' counts, its entry, its counter of
stores (R250, R257, R261, R265). -/
def completeCommand (s : State) (k : Nat) (c : Command) : State :=
  let bad := c.fault.isSome || c.cancelled
  let drop (d : Command) : Command :=
    if d.preds.contains k then { d with preds := setDel d.preds k, cancelled := d.cancelled || bad } else d
  let s := { s with cmds := kvMap s.cmds fun n d => if n = k then { c with phase := .completed, was := [] } else drop d }
  let s := match c.arv with
    | none => s
    | some b => testSync (modCrew s c.crew fun cr => { cr with bars := kvMod cr.bars b fun x => arriveCommand x c.scope }) c.crew
  let s := match c.op with
    | .copy j => if j.out then countOut s (kvD s.crews c.crew {}).launch c.core 0 false else s
    | _ => s
  settleContext s (kvD s.crews c.crew {}).ctx

/-- COMMAND_COMPLETE (R257). -/
def execCommandComplete (cmd : Nat) (s : State) : Host.Outcome State Fault Refusal :=
  .next (match kvGet s.cmds cmd with
    | none => s
    | some c => if c.phase = .accessed then completeCommand s cmd c else s)

end Sys2Proof.Machine
end

