-- ==== Sys2Proof/Machine/Barriers.lean ====
section
/-! DEFINITION. Barriers, group queries and reductions (R386-R400), and an entry leaving the store queue (R204). -/

namespace Sys2Proof.Machine

/-! ### The barrier an instruction names -/

/-- The barrier field E (R397): whether it names a group, and the number. -/
def barField (w : Enc) : Bool × Nat :=
  let e := (Operand.bits w.e).toNat
  (e.testBit 6, e % 64)

/-- GROUP_INVALID (R390). -/
def groupInvalid (x : Site) (slot reason : Nat) : TrapInfo :=
  { code := 0x14, tx := BitVec.ofNat 32 (slot + 2 ^ 8 * reason), mask := x.act }

/-- BARRIER_INVALID (R398). -/
def barInvalid (x : Site) (g : Bool) (n reason : Nat) : TrapInfo :=
  { code := 0x15, tx := BitVec.ofNat 32 (n + (if g then 64 else 0) + 2 ^ 8 * reason), mask := x.act }

/-- The group in a slot of the issuing crew, with its entry index. -/
def groupAt (s : State) (x : Site) (slot : Nat) : Option (Nat × Group) := groupInSlot (getLaunch s x.cr.launch) x.cr.num slot

/-- The group of slot k that has a GFLG bit, or the reason of GROUP_INVALID. -/
def groupWith (s : State) (x : Site) (slot bit : Nat) : Except Nat (Nat × Group) :=
  match groupAt s x slot with
  | none => .error 1
  | some (e, g) => if g.flags.testBit bit then .ok (e, g) else .error 2

/-- A barrier that an instruction names: a group's, or one of the crew's. The number is the group's entry index, or K. -/
structure NamedBar where
  group : Bool
  num : Nat
  key : Nat
  bar : Barrier
  deriving DecidableEq, Repr

/-- The barrier named, or the trap (R398). -/
def namedBar (s : State) (x : Site) (w : Enc) : Except TrapInfo NamedBar :=
  let (g, n) := barField w
  if g then
    match groupWith s x (n % 4) 0 with
    | .error r => .error (groupInvalid x (n % 4) r)
    | .ok (e, gr) => .ok ⟨true, e, 64 * x.cr.num + x.ref.warp, gr.bar⟩
  else
    match kvGet x.cr.bars n with
    | none => .error (barInvalid x false n 1)
    | some b => .ok ⟨false, n, x.ref.warp, b⟩

/-- The lanes of the warp whose arrival at a barrier stands in the store queue. -/
def queuedArrivals (wp : Warp) (group : Bool) (num : Nat) : Mask :=
  wp.storeQ.foldl (fun m e => match e.kind with
    | .arrive g b k => if g = group ∧ b = num then m ||| k else m
    | _ => m) 0

/-! ### BARI -/

/-- The open phase of a barrier holds an arrival, recorded or in a store queue of the crew, or a command in flight names it
(R398). -/
def barInUse (s : State) (x : Site) (n : Nat) (b : Barrier) : Bool :=
  (b.arrived.any fun e => e.2 != 0) || b.carr != 0 ||
  (x.cr.warps.any fun (_, wp) => queuedArrivals wp false n != 0) ||
  (s.cmds.any fun (_, c) => c.crew == x.ref.crew && c.arv == some n && c.phase != .completed)

/-- The physical barrier slots in use on a core (R392). -/
def slotsBound (s : State) (core : Nat) : Nat :=
  s.crews.foldl (fun n (_, c) =>
    if c.core = core ∧ (c.phase = .resident ∨ c.phase = .stopped) then n + c.bars.length else n) 0

/-- BARI (R399). -/
def execBari (w : Enc) (s : State) : Host.Outcome State Fault Refusal :=
  issueInstr (.bari w) w s fun x s =>
    if x.act = 0 then .done x s
    else
      let n := (barField w).2
      let mask := BitVec.ofNat 32 (rawValue s x .n32 false w.a 0 % 2 ^ x.k.crew)
      let cexp := min (uB s x w) 65535
      let old := kvGet x.cr.bars n
      let set (b : Barrier) : State :=
        testBars (modCrew s x.ref.crew fun c => { c with bars := kvSet c.bars n { b with mask := mask, cexp := cexp } }) x.ref.crew
      match old with
      | some b =>
        if barInUse s x n b then .trap x (barInvalid x false n 2) s
        else if mask = 0 ∧ cexp = 0 then
          .done (x.putBit w.d true) (modCrew s x.ref.crew fun c => { c with bars := kvDel c.bars n })
        else .done (x.putBit w.d true) (set b)
      | none =>
        if mask = 0 ∧ cexp = 0 then .done (x.putBit w.d true) s
        else if 64 ≤ slotsBound s x.ref.core then .done (x.putBit w.d false) s
        else .done (x.putBit w.d true) (set {})

/-! ### BARA, BARW, BARAW -/

/-- The path with what it waits for at a barrier. -/
def Site.setWait (x : Site) (nb : NamedBar) (b : BarWait) : Site :=
  { x with pa := { x.pa with barWait := some b, barGroup := nb.group, barNum := nb.num } }

/-- The youngest entry of a warp's store queue that is an arrival of some of the given lanes at a barrier. -/
def lastArrival (wp : Warp) (nb : NamedBar) (m : Mask) : Option Nat :=
  (wp.storeQ.reverse.find? fun e => match e.kind with
    | .arrive g b k => g == nb.group && b == nb.num && (k &&& m) != 0
    | _ => false).map (·.seq)

/-- What keeps some lanes from what they do at a barrier: an arrival of theirs in the open phase, or one still in the store
queue (R400). -/
def barHeld (x : Site) (nb : NamedBar) (m : Mask) (again : Bool) : Option BarWait :=
  match lastArrival x.wp nb m with
  | some q => some (.arriving q again)
  | none => if (kvD nb.bar.arrived nb.key 0 &&& m) = (0 : Mask) then none else some (.phase nb.bar.phase again)

/-- BARA's arrival: an entry of the store queue (R400). An active lane that has arrived in the open phase holds it until that
phase completes. -/
def barArrive (s : State) (x : Site) (nb : NamedBar) (wait : Bool) : Act :=
  match barHeld x nb x.act true with
  | some b => .block (x.setWait nb b) s
  | none =>
    if !queueRoom x then .block x s
    else
      let y := x.enqueue { kind := .arrive nb.group nb.num x.act, width := 0 }
      if wait then .block (y.setWait nb (.arriving x.wp.nextSeq false)) s else .done y s

/-- BARA (0), BARW (1) and BARAW (2) where the path does not wait yet (R400). -/
def barStart (w : Enc) (kind : Nat) (x : Site) (s : State) : Act :=
  match namedBar s x w with
  | .error t => .trap x t s
  | .ok nb =>
    if kind ≠ 1 then barArrive s x nb (kind == 2)
    else match barHeld x nb (~~~0) false with
      | some b => .block (x.setWait nb b) s
      | none => .done x s

/-- BARA (0), BARW (1) and BARAW (2) (R400). A path that waits goes on once its phase has completed, with the acquire step of
its release (R396). -/
def barBody (w : Enc) (kind : Nat) (x : Site) (s : State) : Act :=
  if x.act = 0 then .done x s
  else match x.pa.barWait with
  | some (.released scope again) =>
    let s := acquireStep s x.ref.core scope
    if again then barStart w kind { x with pa := { x.pa with barWait := none } } s else .done x s
  | some _ => .block x s
  | none => barStart w kind x s

/-- BARA (R400). -/
def execBara (w : Enc) (s : State) : Host.Outcome State Fault Refusal := issueInstr (.bara w) w s (barBody w 0)
/-- BARW (R400). -/
def execBarw (w : Enc) (s : State) : Host.Outcome State Fault Refusal := issueInstr (.barw w) w s (barBody w 1)
/-- BARAW (R400). -/
def execBaraw (w : Enc) (s : State) : Host.Outcome State Fault Refusal := issueInstr (.baraw w) w s (barBody w 2)

/-! ### GRPQ and GRED -/

/-- The slot that E names (R385). -/
def slotField (w : Enc) : Nat := (Operand.bits w.e).toNat % 4

/-- What GRPQ reads (R386). -/
def grpqWord (x : Site) (e : Nat) (g : Group) (k : Nat) : Nat :=
  match k with
  | 0 => e
  | 1 => g.members.length
  | 2 => g.members.findIdx (· == x.cr.num)
  | 3 => g.flags % 8 + (if g.flags.testBit 2 then 2 ^ 8 * (2 ^ g.members.length - 1) else 0)
  | 4 => g.phases.toNat
  | _ => 0

/-- GRPQ (R386). -/
def execGrpq (w : Enc) (s : State) : Host.Outcome State Fault Refusal :=
  issueInstr (.grpq w) w s fun x s =>
    if x.act = 0 then .done x s
    else .done (x.writeDst w.d false [(0, match groupAt s x (slotField w) with
      | none => 0xFFFFFFFF
      | some (e, g) => grpqWord x e g (uB s x w))]) s

/-- The destination of a GRED that waits, empty; an instruction without active lanes writes it too (R388). -/
def gredDestEmpty (x : Site) (w : Enc) : Bool :=
  (List.range (if Ty.wide w.ty then 2 else 1)).any fun k => x.wp.regs.sempty.contains (w.d.idx.toNat + k)

/-- GRED (R387-R390). A warp with no active lane contributes the identity. -/
def execGred (w : Enc) (s : State) : Host.Outcome State Fault Refusal :=
  issueInstr (.gred w) w s fun x s =>
    if gredDestEmpty x w then .block x s
    else match groupWith s x (slotField w) 1 with
    | .error r => .trap x (groupInvalid x (slotField w) r) s
    | .ok (e, g) =>
      let key := 64 * x.cr.num + x.ref.warp
      let ph := g.open_.getD { sub := w.sub.toNat, ty := w.ty }
      if (kvGet ph.contribs key).isSome then .block x s
      else if ph.sub ≠ w.sub.toNat ∨ ph.ty ≠ w.ty then .trap x (groupInvalid x (slotField w) 3) s
      else
        let vals := (lanesOf x.act).map fun l => srcValue s x w.ty w.a l
        let l := getLaunch s x.cr.launch
        let g := { g with open_ := some { ph with contribs := kvSet ph.contribs key vals } }
        let s := setLaunch s x.cr.launch { l with groups := kvSet l.groups e g }
        let x := x.mapRegs fun r => r.emptyScalar w.d.idx.toNat (if Ty.wide w.ty then 2 else 1)
        let q : GredWait := { sd := w.d.idx.toNat, wide := Ty.wide w.ty, group := e, mask := x.act, dmod := dMod w,
                              flags := w.ty == .f32 }
        let x := { x with wp := { x.wp with greds := x.wp.greds ++ [q] } }
        .ended (testGred (x.put s (x.advance w)) x.cr.launch e)

/-! ### Leaving the store queue -/

/-- The paths that waited for an arrival to be recorded wait for the phase it entered (R400). -/
def phaseOf (ps : KV Path) (seq : Nat) (n : W32) : KV Path :=
  kvMap ps fun _ (p : Path) => match p.barWait with
    | some (.arriving q again) => if q = seq then { p with barWait := some (.phase n again) } else p
    | _ => p

def Warp.entered (wp : Warp) (seq : Nat) (n : W32) : Warp :=
  { wp with paths := phaseOf wp.paths seq n, handler := wp.handler.map fun h => { h with paths := phaseOf h.paths seq n } }

/-- Records arriving lanes in a barrier's open phase (R394). -/
def Barrier.arrive (b : Barrier) (key : Nat) (m : Mask) : Barrier :=
  { b with arrived := kvSet b.arrived key (kvD b.arrived key 0 ||| m) }

/-- A warp's arrival is recorded, after the release step at the barrier's scope (R396, R400). -/
def recordArrival (s : State) (r : IssueRef) (seq : Nat) (group : Bool) (num : Nat) (m : Mask) : State :=
  let s := releaseStep s r.core (if group then 3 else 0)
  let c := kvD s.crews r.crew {}
  let l := getLaunch s c.launch
  let n := if group then (kvD l.groups num {}).bar.phase else (kvD c.bars num {}).phase
  let s := if group then
      setLaunch s c.launch { l with groups := kvMod l.groups num fun g => { g with bar := g.bar.arrive (64 * c.num + r.warp) m } }
    else modCrew s r.crew fun c => { c with bars := kvMod c.bars num fun b => b.arrive r.warp m }
  let s := match getWarp s r.crew r.warp with
    | none => s
    | some wp => setWarp s r.crew r.warp (wp.entered seq n)
  testSync s r.crew

/-- Performs one lane of an entry that moves no lane value to another place than its own. -/
def performStore (s : State) (r : IssueRef) (e : StoreEntry) (a : LaneAccess) : State :=
  let vers := crewVersioned s r.crew
  match e.kind with
  | .store sc _ => storeLane s r sc e.width vers (wholeBlocks e.width e.lanes) a
  | .spill => storeLane s r 0 e.width false [] a
  | .zero => zeroLane s r vers a
  | .flush inval _ => flushLane s r.core inval a
  | .atomic .. | .arrive .. => s

/-- An entry of the store queue is performed, in the lanes that are not performed yet (R207, R208, R210, R215, R216, R400); with
the state, the lanes of an atomic that POISON blocks left. -/
def performEntry (s : State) (r : IssueRef) (e : StoreEntry) : State × List LaneAccess :=
  let lanes := e.lanes.filter fun a => !a.done
  match e.kind with
  | .store sc rel => (lanes.foldl (fun s a => performStore s r e a) (if rel then releaseStep s r.core sc else s), [])
  | .spill | .zero | .flush .. => (lanes.foldl (fun s a => performStore s r e a) s, [])
  | .atomic code ty _ =>
    atomicLanes s r (Profile.ofByte (getLaunch s (kvD s.crews r.crew {}).launch).kernel.prof) code ty e.dst lanes
  | .arrive g b m => (recordArrival s r e.seq g b m, [])

/-- Registers of a destination in flight are full again, with what they held. -/
def Regs.unemptyDest (r : Regs) (d : Dest) (lanes : Mask) : Regs :=
  match d with
  | .none => r
  | .main reg wide => { r with vempty := r.vempty.filter fun k => !(mainKeys reg (if wide then 2 else 1) lanes).contains k }
  | .scalar reg wide => { r with sempty := r.sempty.filter fun k => k != reg && !(wide && k == reg + 1) }

/-- The POISON_CONSUMED of an atomic that finds POISON when it leaves (R213): the trap of its own instruction, over the lanes
still live. The warp stands where it is; TRAP.tret issues those lanes again. -/
def latePoison (s : State) (r : IssueRef) (e : StoreEntry) (bad : List LaneAccess) : State :=
  match kvGet s.crews r.crew, getWarp s r.crew r.warp with
  | some cr, some wp =>
    let wp := { wp with regs := wp.regs.unemptyDest e.dst (maskOf (bad.map (·.lane))) }
    let bad := bad.filter fun a => wp.live.getLsbD a.lane
    let m := maskOf (bad.map (·.lane))
    let at_ : Option (Run × Path) := match wp.run with
      | some rn => (kvGet wp.paths rn.path).map fun p => (rn, p)
      | none => (wp.paths.find? fun e => (e.2.mask &&& m) != 0).map fun (k, p) => ({ path := k, files := p.resume.getD {} }, p)
    match bad, at_ with
    | a :: _, some (rn, pa) =>
      takeTrap s ⟨r, cr, wp, rn, pa, (getLaunch s cr.launch).kernel, m⟩
        { code := 0x11, mask := m, va := a.va % 2 ^ 56, tpc := e.pc, entry := some { e with lanes := bad } }
    | _, _ => setWarp s r.crew r.warp wp
  | _, _ => s

/-- The oldest entry of a warp's store queue leaves, once every earlier load has its value (R204). An atomic on a POISON block
waits for the release of a warp that a debugger holds. -/
def leaveQueue (s : State) (r : IssueRef) : State :=
  match getWarp s r.crew r.warp with
  | none => s
  | some wp =>
    match wp.storeQ with
    | [] => s
    | e :: rest =>
      if wp.loads.any fun q => decide (q.seq < e.seq) then s
      else
        let lat := match e.dst with | .none => wp.lat | _ => latOf e.waited
        match performEntry (setWarp s r.crew r.warp { wp with storeQ := rest, lat := lat }) r e with
        | (t, []) => t
        | (t, bad) => if wp.halt.isSome then s else latePoison t r e bad

/-! ### One lane at a time (R202, R224, R226) -/

/-- A store that goes to its bank when it leaves: it orders the entries behind it on other columns no more (R226). -/
def StoreEntry.banked (e : StoreEntry) : Bool :=
  (match e.kind with | .store _ rel => !rel | _ => false) && e.lanes.all fun a => match a.loc with
    | .scratch _ _ => true
    | .mem _ => false

/-- A lane of a queued entry can be performed: it stands first, or only stores sent to banks of other columns stand before it;
and no lower lane that shares a byte of it is still to be performed (R202, R225, R226). -/
def storeLaneReady (wp : Warp) (e : StoreEntry) (a : LaneAccess) : Bool :=
  let before := wp.storeQ.takeWhile fun q => q.seq != e.seq
  let held := match e.kind with
    | .store _ rel => rel && !before.isEmpty
    | .zero | .spill | .atomic .. => false
    | .flush .. | .arrive .. => true
  !a.done && !held && before.all StoreEntry.banked &&
  (before.all fun q => q.lanes.all fun b => b.done || !sameColumn a.loc b.loc) &&
  (wp.loads.all fun q => decide (e.seq < q.seq)) &&
  e.lanes.all fun b => b.done || decide (a.lane ≤ b.lane) || !locsOverlap a.loc e.width b.loc e.width

/-- The warp with some lanes of an entry performed. -/
def Warp.lanesDone (wp : Warp) (seq : Nat) (m : Mask) : Warp :=
  { wp with storeQ := wp.storeQ.map fun e => if e.seq = seq then
      { e with lanes := e.lanes.map fun a => if m.getLsbD a.lane then { a with done := true } else a } else e }

/-- A lane of a queued entry is performed; the lanes of an atomic that name its address go with it (R202). -/
def performQueued (s : State) (r : IssueRef) (wp : Warp) (e : StoreEntry) (a : LaneAccess) : State :=
  let mark (s : State) (m : Mask) : State := match getWarp s r.crew r.warp with
    | none => s
    | some wp => setWarp s r.crew r.warp (wp.lanesDone e.seq m)
  if !storeLaneReady wp e a then s
  else match e.kind with
  | .atomic code ty _ =>
    let same := e.lanes.filter fun b => !b.done && b.loc == a.loc
    (match atomicLanes s r (Profile.ofByte (getLaunch s (kvD s.crews r.crew {}).launch).kernel.prof) code ty e.dst same with
    | (t, []) => mark t (maskOf (same.map (·.lane)))
    | _ => s)
  | .store sc true => mark (performStore (releaseStep s r.core sc) r e a) (laneBit a.lane)
  | _ => mark (performStore s r e a) (laneBit a.lane)

/-- A lane of a load in flight is performed. -/
def performLoading (s : State) (r : IssueRef) (wp : Warp) (e : LoadEntry) (a : LaneAccess) : State :=
  let vers := crewVersioned s r.crew
  if a.done || !laneReady vers wp e a then s
  else
    let (s, b) := performLane s r wp e vers a
    match getWarp s r.crew r.warp with
    | none => s
    | some wp => setWarp s r.crew r.warp { wp with loads := wp.loads.map fun f => if f.seq = e.seq then
        { f with lanes := f.lanes.map fun c => if c.lane = a.lane then b else c } else f }

/-- A lane of a load or of a queued entry of a resident warp is performed ahead of the others. -/
def laneAccessMove (s : State) (dws seq lane : Nat) : State :=
  match warpAt s dws with
  | none => s
  | some r =>
    match getWarp s r.crew r.warp with
    | none => s
    | some wp =>
      let pick (l : List LaneAccess) : Option LaneAccess := l.find? fun a => a.lane == lane
      match wp.loads.find? fun e => e.seq == seq, wp.storeQ.find? fun e => e.seq == seq with
      | some e, _ => (match pick e.lanes with
        | some a => performLoading s r wp e a
        | none => s)
      | none, some e => (match pick e.lanes with
        | some a => performQueued s r wp e a
        | none => s)
      | none, none => s

end Sys2Proof.Machine
end

