-- ==== Sys2Proof/Machine/Astc.lean ====
section
/-! DEFINITION. ASTC blocks under the LDR profile, 2D blocks only (R335). The rule names the Khronos Data Format Specification
1.3 for the decoding; what stands here is taken from that specification (PRESUMED, assumption 8). -/

namespace Sys2Proof.Machine

/-! ### Integer sequences -/

/-- The k-th of the 21 ranges, 2, 3, 4, 5, 6, 8, 10, ... 256 levels: plain bits (0), trits (1) or quints (2), and the bits. -/
def astcRange (q : Nat) : Nat × Nat :=
  if q = 0 then (0, 1)
  else match q % 3 with
    | 2 => (0, (q + 4) / 3)
    | 1 => (1, (q - 1) / 3)
    | _ => (2, (q - 3) / 3)

/-- The bits of a sequence of n values of a range. -/
def astcBits (q n : Nat) : Nat :=
  match astcRange q with
  | (1, b) => b * n + (8 * n + 4) / 5
  | (2, b) => b * n + (7 * n + 2) / 3
  | (_, b) => b * n

/-- A bit of a number. -/
def bitAt (x k : Nat) : Nat := x / 2 ^ k % 2

/-- The five trits of a packed byte. -/
def astcTrits (t : Nat) : List Nat :=
  let (c, high) := if bitsAt t 2 3 = 7 then (4 * bitsAt t 5 3 + bitsAt t 0 2, [2, 2])
    else (bitsAt t 0 5, if bitsAt t 5 2 = 3 then [bitAt t 7, 2] else [bitsAt t 5 2, bitAt t 7])
  let low := if bitsAt c 0 2 = 3 then [2 * bitAt c 3 + bitAt c 2 * (1 - bitAt c 3), bitAt c 4, 2]
    else if bitsAt c 2 2 = 3 then [bitsAt c 0 2, 2, 2]
    else [2 * bitAt c 1 + bitAt c 0 * (1 - bitAt c 1), bitsAt c 2 2, bitAt c 4]
  low ++ high

/-- The three quints of seven packed bits. -/
def astcQuints (q : Nat) : List Nat :=
  if bitsAt q 1 2 = 3 ∧ bitsAt q 5 2 = 0 then
    [4, 4, 4 * bitAt q 0 + 2 * (bitAt q 4 * (1 - bitAt q 0)) + bitAt q 3 * (1 - bitAt q 0)]
  else
    let (c, q2) := if bitsAt q 1 2 = 3 then (8 * bitsAt q 3 2 + 2 * (3 - bitsAt q 5 2) + bitAt q 0, 4)
      else (bitsAt q 0 5, bitsAt q 5 2)
    if bitsAt c 0 3 = 5 then [bitsAt c 3 2, 4, q2] else [bitsAt c 0 3, bitsAt c 3 2, q2]

/-- Value k of a sequence of n in a bit stream: its bits and its trit or quint. -/
def astcValue (stream q n k : Nat) : Nat × Nat :=
  let s := stream % 2 ^ astcBits q n
  match astcRange q with
  | (1, b) =>
    let g := s / 2 ^ (k / 5 * (8 + 5 * b))
    let t := bitsAt g b 2 + 4 * bitsAt g (2 * b + 2) 2 + 16 * bitsAt g (3 * b + 4) 1 + 32 * bitsAt g (4 * b + 5) 2 +
      128 * bitsAt g (5 * b + 7) 1
    (bitsAt g ([0, b + 2, 2 * b + 4, 3 * b + 5, 4 * b + 7].getD (k % 5) 0) b, (astcTrits t).getD (k % 5) 0)
  | (2, b) =>
    let g := s / 2 ^ (k / 3 * (7 + 3 * b))
    let t := bitsAt g b 3 + 8 * bitsAt g (2 * b + 3) 2 + 32 * bitsAt g (3 * b + 5) 2
    (bitsAt g ([0, b + 3, 2 * b + 5].getD (k % 3) 0) b, (astcQuints t).getD (k % 3) 0)
  | (_, b) => (bitsAt s (b * k) b, 0)

/-- The b bits of m repeated, cut to n bits. -/
def repeatBits (b n m : Nat) : Nat := ((List.range n).foldl (fun r i => r + m * 2 ^ (b * i)) 0) / 2 ^ (n * b - n)

/-- The 8-bit colour value of a value of a range. -/
def astcColour (q : Nat) (v : Nat × Nat) : Nat :=
  let x := v.1 / 2
  let a := v.1 % 2
  let mix (b c : Nat) : Nat :=
    let t := (v.2 * c + b) ^^^ (a * 0x1FF)
    (a * 0x80) ||| (t / 4)
  match astcRange q with
  | (1, 1) => mix 0 204
  | (2, 1) => mix 0 113
  | (1, 2) => mix (x * 278) 93
  | (2, 2) => mix (x * 268) 54
  | (1, 3) => mix (x * 133) 44
  | (2, 3) => mix (x * 130 + x / 2) 26
  | (1, 4) => mix (x * 65) 22
  | (2, 4) => mix (x * 64 + x / 2) 13
  | (1, 5) => mix (x * 32 + x / 4) 11
  | (2, 5) => mix (x * 32 + x / 8) 6
  | (1, 6) => mix (x * 16 + x / 16) 5
  | (_, b) => repeatBits b 8 v.1

/-- The weight, 0 to 64, of a value of a range. -/
def astcWeight (q : Nat) (v : Nat × Nat) : Nat :=
  let x := v.1 / 2
  let a := v.1 % 2
  let mix (b c : Nat) : Nat :=
    let t := (v.2 * c + b) ^^^ (a * 0x7F)
    (a * 0x20) ||| (t / 4)
  let w := match astcRange q with
    | (1, 0) => [0, 32, 63].getD v.2 0
    | (2, 0) => [0, 16, 32, 47, 63].getD v.2 0
    | (1, 1) => mix 0 50
    | (2, 1) => mix 0 28
    | (1, 2) => mix (x * 69) 23
    | (2, 2) => mix (x * 66) 13
    | (1, 3) => mix (x * 33) 11
    | (_, b) => repeatBits b 6 v.1
  if 32 < w then w + 1 else w

/-! ### The block mode -/

/-- The weight grid of a block: its sides, whether it has two planes, and the range of its weights. -/
structure AstcGrid where
  w : Nat
  h : Nat
  dual : Bool
  q : Nat
  deriving DecidableEq, Repr

def AstcGrid.count (g : AstcGrid) : Nat := g.w * g.h * (if g.dual then 2 else 1)

/-- The weight grid that a block mode names; none where it is reserved, or does not fit a block of the side. -/
def astcGrid (side m : Nat) : Option AstcGrid :=
  let a := bitsAt m 5 2
  let b := bitsAt m 7 2
  let h := bitAt m 9
  let d := bitAt m 10
  let low := m % 4
  let r := bitAt m 4 + 2 * (if low = 0 then bitsAt m 2 2 else low)
  let size : Option (Nat × Nat × Nat × Nat) :=
    if low ≠ 0 then match bitsAt m 2 2 with
      | 0 => some (b + 4, a + 2, d, h)
      | 1 => some (b + 8, a + 2, d, h)
      | 2 => some (a + 2, b + 8, d, h)
      | _ => some (if bitAt m 8 = 1 then (b % 2 + 2, a + 2, d, h) else (a + 2, b % 2 + 6, d, h))
    else if bitsAt m 2 2 = 0 then none
    else match b with
      | 0 => some (12, a + 2, d, h)
      | 1 => some (a + 2, 12, d, h)
      | 2 => some (a + 6, bitsAt m 9 2 + 6, 0, 0)
      | _ => if a = 0 then some (6, 10, d, h) else if a = 1 then some (10, 6, d, h) else none
  size.bind fun (w, h, d, hi) =>
    let g : AstcGrid := ⟨w, h, d == 1, r - 2 + 6 * hi⟩
    let n := astcBits g.q g.count
    if side < w ∨ side < h ∨ 64 < g.count ∨ n < 24 ∨ 96 < n then none else some g

/-! ### Partitions -/

/-- The hash of a partition seed. -/
def astcHash (p : Nat) : Nat :=
  let w (x : Nat) : Nat := x % 2 ^ 32
  let p := p ^^^ (p / 2 ^ 15)
  let p := w (p * 0xEEDE0891)
  let p := p ^^^ (p / 2 ^ 5)
  let p := w (p + p * 2 ^ 16)
  let p := p ^^^ (p / 2 ^ 7)
  let p := p ^^^ (p / 2 ^ 3)
  let p := p ^^^ w (p * 2 ^ 6)
  p ^^^ (p / 2 ^ 17)

/-- The partition, of n, to which a texel belongs. -/
def astcPartition (seed n side x y : Nat) : Nat :=
  if n = 1 then 0
  else
    let k := if side * side < 31 then 2 else 1
    let (x, y) := (k * x, k * y)
    let seed := seed + 1024 * (n - 1)
    let r := astcHash seed
    let five := if n = 3 then 6 else 5
    let four := if bitAt seed 1 = 1 then 4 else 5
    let (sh1, sh2) := if bitAt seed 0 = 1 then (four, five) else (five, four)
    let c (lo sh : Nat) : Nat := bitsAt r lo 4 ^ 2 / 2 ^ sh
    let a := (c 0 sh1 * x + c 4 sh2 * y + r / 2 ^ 14) % 64
    let b := (c 8 sh1 * x + c 12 sh2 * y + r / 2 ^ 10) % 64
    let e := if n ≤ 2 then 0 else (c 16 sh1 * x + c 20 sh2 * y + r / 2 ^ 6) % 64
    let d := if n ≤ 3 then 0 else (c 24 sh1 * x + c 28 sh2 * y + r / 2 ^ 2) % 64
    if b ≤ a ∧ e ≤ a ∧ d ≤ a then 0 else if e ≤ b ∧ d ≤ b then 1 else if d ≤ e then 2 else 3

/-! ### Endpoints -/

/-- A colour: red, green, blue, alpha. -/
abbrev AstcRgba := List Int

def blueContract (c : AstcRgba) : AstcRgba :=
  let g (k : Nat) : Int := c.getD k 0
  [(g 0 + g 2) / 2, (g 1 + g 2) / 2, g 2, g 3]

/-- The base and the signed offset that a pair of values holds. -/
def bitTransfer (a b : Nat) : Int × Int :=
  let o := a / 2 % 64
  ((b / 2 + a / 128 * 128 : Nat), if 32 ≤ o then (o : Int) - 64 else o)

/-- The two endpoints of a partition by its mode; none for the HDR modes. -/
def astcEnds (mode : Nat) (v : List Nat) : Option (AstcRgba × AstcRgba) :=
  let n (k : Nat) : Int := v.getD k 0
  let cl (c : AstcRgba) : AstcRgba := c.map fun x => max 0 (min 255 x)
  let p (k : Nat) : Int × Int := bitTransfer (v.getD (2 * k + 1) 0) (v.getD (2 * k) 0)
  let direct (a0 a1 : Int) : AstcRgba × AstcRgba :=
    if n 0 + n 2 + n 4 ≤ n 1 + n 3 + n 5 then ([n 0, n 2, n 4, a0], [n 1, n 3, n 5, a1])
    else (blueContract [n 1, n 3, n 5, a1], blueContract [n 0, n 2, n 4, a0])
  let offset (a0 a1 : Int) : AstcRgba × AstcRgba :=
    let base : AstcRgba := [(p 0).1, (p 1).1, (p 2).1, a0]
    let far : AstcRgba := [(p 0).1 + (p 0).2, (p 1).1 + (p 1).2, (p 2).1 + (p 2).2, a1]
    if 0 ≤ (p 0).2 + (p 1).2 + (p 2).2 then (cl base, cl far) else (cl (blueContract far), cl (blueContract base))
  let scaled (a0 a1 : Int) : AstcRgba × AstcRgba :=
    ([n 0 * n 3 / 256, n 1 * n 3 / 256, n 2 * n 3 / 256, a0], [n 0, n 1, n 2, a1])
  match mode with
  | 0 => some ([n 0, n 0, n 0, 255], [n 1, n 1, n 1, 255])
  | 1 =>
    let l0 := v.getD 0 0 / 4 + v.getD 1 0 / 64 * 64
    let l1 := min 255 (l0 + v.getD 1 0 % 64)
    some ([l0, l0, l0, 255], [l1, l1, l1, 255])
  | 4 => some ([n 0, n 0, n 0, n 2], [n 1, n 1, n 1, n 3])
  | 5 =>
    let l := (p 0).1 + (p 0).2
    some (cl [(p 0).1, (p 0).1, (p 0).1, (p 1).1], cl [l, l, l, (p 1).1 + (p 1).2])
  | 6 => some (scaled 255 255)
  | 8 => some (direct 255 255)
  | 9 => some (offset 255 255)
  | 10 => some (scaled (n 4) (n 5))
  | 12 => some (direct (n 6) (n 7))
  | 13 => some (offset (p 3).1 ((p 3).1 + (p 3).2))
  | _ => none

/-- The endpoint modes of a block's n partitions, and the bits below the weights that hold the rest of them. -/
def astcModes (blk n weightBits : Nat) : List Nat × Nat :=
  if n = 1 then ([bitsAt blk 13 4], 0)
  else
    let high := 3 * n - 4
    let t := bitsAt blk 23 6 + 64 * bitsAt blk (128 - weightBits - high) high
    if t % 4 = 0 then (List.replicate n (bitsAt t 2 4), 0)
    else ((List.range n).map fun i => 4 * (bitAt t (2 + i) + t % 4 - 1) + bitsAt t (2 + n + 2 * i) 2, high)

/-! ### Texels -/

/-- The bits of a block from the top down. -/
def astcReverse (blk : Nat) : Nat := (List.range 128).foldl (fun r k => 2 * r + bitAt blk k) 0

/-- The weight of a texel in a plane of the grid. -/
def astcInfill (side : Nat) (g : AstcGrid) (weight : Nat → Nat) (x y : Nat) : Nat :=
  let ds := (1024 + side / 2) / (side - 1)
  let gs := (ds * x * (g.w - 1) + 32) / 64
  let gt := (ds * y * (g.h - 1) + 32) / 64
  let (js, fs, jt, ft) := (gs / 16, gs % 16, gt / 16, gt % 16)
  let w11 := (fs * ft + 8) / 16
  let at_ (s t : Nat) : Nat := if s < g.w ∧ t < g.h then weight (s + t * g.w) else 0
  (at_ js jt * (16 + w11 - fs - ft) + at_ (js + 1) jt * (fs - w11) + at_ js (jt + 1) * (ft - w11) +
    at_ (js + 1) (jt + 1) * w11 + 8) / 16

/-- The 16-bit channels of a void-extent block; none where it is an error, or HDR. -/
def astcVoid (blk : Nat) : Option (List Nat) :=
  let e (k : Nat) : Nat := bitsAt blk (12 + 13 * k) 13
  let open_ := (List.range 4).all fun k => e k == 2 ^ 13 - 1
  if bitAt blk 9 = 1 ∨ bitsAt blk 10 2 ≠ 3 ∨ ¬ (open_ ∨ (e 0 < e 1 ∧ e 2 < e 3)) then none
  else some ((List.range 4).map fun k => bitsAt blk (64 + 16 * k) 16)

/-- The 16-bit channels of a texel of a block with a weight grid. -/
def astcGridTexel (side : Nat) (srgb : Bool) (blk : Nat) (g : AstcGrid) (x y : Nat) : Option (List Nat) :=
  let n := bitsAt blk 11 2 + 1
  let wbits := astcBits g.q g.count
  let (modes, high) := astcModes blk n wbits
  let ints := modes.foldl (fun m c => m + 2 * (c / 4 + 1)) 0
  let room := (if n = 1 then 111 else 99) - wbits - high - (if g.dual then 2 else 0)
  let fits := (List.range 21).filter fun q => decide (4 ≤ q) && decide (astcBits q ints ≤ room)
  match fits.getLast? with
  | none => none
  | some q =>
    if (g.dual ∧ n = 4) ∨ 18 < ints then none
    else
      let stream := blk / 2 ^ (if n = 1 then 17 else 29)
      let from_ (i : Nat) : Nat := (modes.take i).foldl (fun m c => m + 2 * (c / 4 + 1)) 0
      let ends (i c : Nat) : Option (AstcRgba × AstcRgba) :=
        astcEnds c ((List.range (2 * (c / 4 + 1))).map fun k => astcColour q (astcValue stream q ints (from_ i + k)))
      match modes.zipIdx.mapM fun e => ends e.2 e.1 with
      | none => none
      | some es =>
        let rev := astcReverse blk
        let part := astcPartition (bitsAt blk 13 10) n side x y
        let (e0, e1) := es.getD part ([], [])
        let plane (p : Nat) : Nat := astcInfill side g (fun k =>
          astcWeight g.q (astcValue rev g.q g.count (if g.dual then 2 * k + p else k))) x y
        let two := bitsAt blk (128 - wbits - high - 2) 2
        some ((List.range 4).map fun ch =>
          let w := if g.dual ∧ ch = two then plane 1 else plane 0
          let wide (c : Int) : Nat := c.toNat * 256 + (if srgb ∧ ch < 3 then 128 else c.toNat)
          (wide (e0.getD ch 0) * (64 - w) + wide (e1.getD ch 0) * w + 32) / 64)

/-- The 16-bit channels of texel (x, y) of a block of side × side texels; none for the blocks that give the error colour. -/
def astcTexel (side : Nat) (srgb : Bool) (blk x y : Nat) : Option (List Nat) :=
  if blk % 2 ^ 9 = 0x1FC then astcVoid blk
  else (astcGrid side (blk % 2 ^ 11)).bind fun g => astcGridTexel side srgb blk g x y

end Sys2Proof.Machine
end

