-- ==== Sys2Proof/Machine/Traversal.lean ====
section
/-! DEFINITION. The visit of a treelet by a ray, in exact arithmetic (R304-R313, R296, R319). -/

namespace Sys2Proof.Machine

/-! ### Exact values -/

/-- m * 2^e as a rational. -/
def scaleRat (m e : Int) : Rat := if 0 ≤ e then ((m * 2 ^ e.toNat : Int) : Rat) else mkRat m (2 ^ (-e).toNat)

/-- A finite value as a rational. -/
def FVal.rat : FVal → Option Rat
  | .fin s m e => some (scaleRat (if s then -(m : Int) else m) e)
  | _ => none

def ratOf32 (b : Nat) : Option Rat := (decodeF fmt32 b).rat

/-- A binary32 t; none stands for +infinity. -/
def timeOf (b : W32) : Option Rat := ratOf32 b.toNat

def timeLe (a b : Option Rat) : Bool :=
  match a, b with
  | _, none => true
  | none, some _ => false
  | some x, some y => decide (x ≤ y)

def timeMax (a b : Option Rat) : Option Rat := if timeLe a b then b else a
def timeMin (a b : Option Rat) : Option Rat := if timeLe a b then a else b

/-- A rational rounded to a format in RNE. -/
def roundRat (f : Fmt) (x : Rat) : Nat :=
  if x = 0 then 0
  else
    let (q, e, st) := quotF x.num.natAbs 0 x.den 0
    (roundF f .rne false (decide (x < 0)) q e st).1

/-- The nearest integer, ties to even. -/
def rneRat (x : Rat) : Int :=
  let f := x.floor
  let r := x - f
  if r < 1 / 2 then f else if 1 / 2 < r then f + 1 else if f % 2 = 0 then f else f + 1

structure Vec3 where
  x : Rat
  y : Rat
  z : Rat
  deriving DecidableEq, Repr

def Vec3.dot (a b : Vec3) : Rat := a.x * b.x + a.y * b.y + a.z * b.z
def Vec3.sub (a b : Vec3) : Vec3 := ⟨a.x - b.x, a.y - b.y, a.z - b.z⟩
def Vec3.cross (a b : Vec3) : Vec3 := ⟨a.y * b.z - a.z * b.y, a.z * b.x - a.x * b.z, a.x * b.y - a.y * b.x⟩
def Vec3.get (a : Vec3) (k : Nat) : Rat := match k with | 0 => a.x | 1 => a.y | _ => a.z

/-- Three binary32 values; none when one is a NaN or an infinity. -/
def vecOf (x y z : Nat) : Option Vec3 :=
  match ratOf32 x, ratOf32 y, ratOf32 z with
  | some a, some b, some c => some ⟨a, b, c⟩
  | _, _, _ => none

def vecAt (b : List Byte) (lo : Nat) : Option Vec3 := vecOf (recField b lo 4) (recField b (lo + 4) 4) (recField b (lo + 8) 4)

/-! ### Nodes, triangles and far records -/

/-- A node (R305, R306). -/
structure TNode where
  org : Vec3
  exp : List Nat
  nch : Nat
  child : List Nat
  nbase : Nat
  lbase : Nat
  qb : List Nat
  deriving DecidableEq, Repr

def TNode.kind (n : TNode) (i : Nat) : Nat := n.child.getD i 0 / 2 ^ 14
def TNode.count (n : TNode) (i : Nat) : Nat := n.child.getD i 0 % 16 + 1

/-- A well-formed node (R309). -/
def nodeOf (b : List Byte) : Option TNode :=
  let ch := (List.range 4).map fun i => recField b (16 + 2 * i) 2
  let nch := recField b 15 1
  let badChild (i c : Nat) : Bool :=
    c / 16 % 2 ^ 10 != 0 || (c / 2 ^ 14 != 2 && c % 16 != 0) || (decide (nch ≤ i) && c != 0)
  match vecAt b 0 with
  | none => none
  | some o =>
    if nch = 0 ∨ 4 < nch ∨ !recZero b 26 28 ∨ !recZero b 56 64 ∨ recField b 28 4 % 16 ≠ 0 ∨
        (ch.zipIdx.any fun e => badChild e.2 e.1) then none
    else some { org := o, exp := (List.range 3).map fun a => recField b (12 + a) 1, nch := nch, child := ch,
                nbase := recField b 24 2, lbase := recField b 28 4, qb := (List.range 24).map fun k => recField b (32 + k) 1 }

/-- The treelet offset of a leaf child (R306): LBASE names the first; padding stands before a later far record. -/
def TNode.leaf (n : TNode) (i : Nat) : Nat :=
  let align (o j : Nat) : Nat := if n.kind j = 3 ∧ o ≠ n.lbase then alignUp o 64 else o
  let off := (List.range i).foldl (fun o j =>
    if n.kind j = 2 then o + 48 * n.count j else if n.kind j = 3 then align o j + 64 else o) n.lbase
  align off i

/-- The node index of an inner child. -/
def TNode.inner (n : TNode) (i : Nat) : Nat := n.nbase + ((List.range i).filter fun j => n.kind j == 1).length

/-- The exact slab test of child i (R310 step 2): its entry value where it is hit. -/
def TNode.slab (n : TNode) (o d : Vec3) (tmin tmax : Option Rat) (i : Nat) : Option (Option Rat) :=
  let axis (acc : Option (Option Rat × Option Rat)) (a : Nat) : Option (Option Rat × Option Rat) :=
    let ql := n.qb.getD (6 * i + a) 0
    let qh := n.qb.getD (6 * i + 3 + a) 0
    let e : Int := (n.exp.getD a 0 : Int) - 127
    let lo := n.org.get a + scaleRat ql e
    let hi := n.org.get a + scaleRat qh e
    match acc with
    | none => none
    | some (near, far) =>
      if qh < ql then none
      else if d.get a = 0 then (if lo ≤ o.get a ∧ o.get a ≤ hi then some (near, far) else none)
      else
        let t1 := (lo - o.get a) / d.get a
        let t2 := (hi - o.get a) / d.get a
        some (timeMax near (some (min t1 t2)), timeMin far (some (max t1 t2)))
  match (List.range 3).foldl axis (some (tmin, tmax)) with
  | none => none
  | some (near, far) => if timeLe near far then some near else none

/-- What an intersection with a triangle gives: t rounded, UV, FRONT before FLIP (R311). -/
structure TriHit where
  t : W32
  uv : Nat
  front : Bool
  deriving DecidableEq, Repr

/-- A barycentric coordinate as UNORM16 (R293). -/
def bary16 (b : Rat) : Nat := (clampInt 0 65535 (rneRat (b * 65535))).toNat

/-- The intersection of a triangle (R311). -/
def intersect (o d : Vec3) (tmin tmax : Option Rat) (v0 v1 v2 : Vec3) : Option TriHit :=
  let e1 := v1.sub v0
  let e2 := v2.sub v0
  let dn := d.dot (e1.cross e2)
  if dn = 0 then none
  else
    let q := o.sub v0
    let t := -(q.dot (e1.cross e2)) / dn
    let u := d.dot (q.cross e2) / dn
    let v := d.dot (e1.cross q) / dn
    let tb := BitVec.ofNat 32 (roundRat fmt32 t)
    if u < 0 ∨ v < 0 ∨ 1 < u + v ∨ (t < 0 ∧ timeOf tb = none) ∨ !timeLe tmin (timeOf tb) ∨ !timeLe (timeOf tb) tmax then none
    else some ⟨tb, bary16 u + 2 ^ 16 * bary16 v, decide (dn < 0)⟩

/-- A far record's fields (R308). -/
def farKind (b : List Byte) : Nat := recField b 48 4 / 2 ^ 30
def farTarget (b : List Byte) : Nat := recField b 52 4

/-- A far record is well formed (R308, R309). -/
def farOk (b : List Byte) : Bool :=
  let ifl := recField b 48 4
  recZero b 56 64 && decide (farTarget b < 2 ^ 20) && bitsAt ifl 24 3 == 0 &&
  (farKind b == 1 || (farKind b == 2 && recZero b 0 48)) && !(farKind b == 1 && ifl.testBit 27 && ifl.testBit 28)

/-- The object-space ray of an instance (R312); none when it holds a NaN or an infinity. -/
def objectRay (b : List Byte) (o d : Vec3) : Option (Vec3 × Vec3) :=
  let m (k : Nat) : Option Rat := ratOf32 (recField b (4 * k) 4)
  let row (r : Nat) (v : Vec3) (w : Rat) : Option Rat :=
    match m (4 * r), m (4 * r + 1), m (4 * r + 2), m (4 * r + 3) with
    | some a, some b, some c, some t => ratOf32 (roundRat fmt32 (a * v.x + b * v.y + c * v.z + w * t))
    | _, _, _, _ => none
  match row 0 o 1, row 1 o 1, row 2 o 1, row 0 d 0, row 1 d 0, row 2 d 0 with
  | some a, some b, some c, some e, some f, some g => some (⟨a, b, c⟩, ⟨e, f, g⟩)
  | _, _, _, _, _, _ => none

/-! ### Hits -/

/-- Lexicographic order of key lists. -/
def keysLt : List Nat → List Nat → Bool
  | [], [] => false
  | [], _ :: _ => true
  | _ :: _, [] => false
  | a :: s, b :: t => decide (a < b) || (a == b && keysLt s t)

/-- Whether a hit replaces the best one: less t, or equal t and lower keys (R311). -/
def RayHit.beats (c : RayHit) (best : Option RayHit) : Bool :=
  match best with
  | none => true
  | some b =>
    let tc := timeOf c.t
    let tb := timeOf b.t
    !timeLe tb tc || (timeLe tc tb && keysLt (c.inst :: c.prim :: c.keys) (b.inst :: b.prim :: b.keys))

/-- The order in which gathered candidates are offered (R296). -/
def offerBefore (a b : RayHit) : Bool :=
  let ta := timeOf a.t
  let tb := timeOf b.t
  !timeLe tb ta || (timeLe ta tb && keysLt [a.inst, a.prim] [b.inst, b.prim])

/-- Puts a candidate into its place. -/
def insertOffer (c : RayHit) : List RayHit → List RayHit
  | [] => [c]
  | x :: t => if offerBefore c x then c :: x :: t else x :: insertOffer c t

def sortOffers (l : List RayHit) : List RayHit := l.foldl (fun m c => insertOffer c m) []

/-- The ray takes a hit as its best. -/
def Ray.take (r : Ray) (c : RayHit) : Ray := { r with best := some c, tmax := c.t }

/-- ANY, ORD, CND of the flag byte (R288). -/
def Ray.any (r : Ray) : Bool := r.flags.testBit 7
def Ray.ordered (r : Ray) : Bool := r.flags.testBit 6
def Ray.cands (r : Ray) : Bool := r.flags.testBit 5

/-! ### A visit -/

/-- What a visit reads and works with: storage bytes (or the status 3 or 4 that reading them gives the ray), DEPTH, the ray in
the space of the visit, and the enclosing instance: id, keys and flags. -/
structure VisitEnv where
  rd : Nat → Nat → Except Nat (List Byte)
  depth : Nat
  o : Vec3
  d : Vec3
  world : Vec3 × Vec3
  tid : Nat
  inst : Option (Nat × List Nat × Nat)

/-- Why a visit stops. -/
inductive VisitEnd where
  /-- the ray completes with ST 3 and poisons the version, or with ST 4 -/
  | bad (st : Nat)
  /-- the ray completes at once (.any) -/
  | done
  | ended
  | far (rec : List Byte) (off : Nat)
  | offer (c : RayHit)
  deriving DecidableEq, Repr

/-- One triangle of a run (R311). -/
def visitTri (v : VisitEnv) (r : Ray) (off n : Nat) : Ray × Option VisitEnd :=
  match v.rd off 48 with
  | .error st => (r, some (.bad st))
  | .ok b =>
    if 2 ≤ recField b 40 4 ∨ !recZero b 44 48 then (r, some (.bad 4))
    else
      let r := { r with tri := if n ≤ 1 then none else some (off + 48, n - 1) }
      match vecAt b 0, vecAt b 12, vecAt b 24 with
      | some v0, some v1, some v2 =>
        match intersect v.o v.d (timeOf r.tmin) (timeOf r.tmax) v0 v1 v2 with
        | none => (r, none)
        | some h =>
          let ifl := (v.inst.map fun e => e.2.2).getD 0
          let c : RayHit := { t := h.t, prim := recField b 36 4, inst := (v.inst.map (·.1)).getD 0, uv := h.uv,
                              front := h.front != ifl.testBit 29,
                              keys := [v.tid, off] ++ (v.inst.map fun e => e.2.1).getD [] }
          let soft := (recField b 40 4 == 1 && !ifl.testBit 27) || ifl.testBit 28
          if r.cands && soft then
            if !r.ordered then ({ r with offers := [c] }, none)
            else if r.gath.length = 63 then ({ r with offers := sortOffers (r.gath ++ [c]), gath := [] }, none)
            else ({ r with gath := r.gath ++ [c] }, none)
          else if c.beats r.best then (r.take c, if r.any then some .done else none)
          else (r, none)
      | _, _, _ => (r, none)

/-- The node at a node index. -/
def visitNode (v : VisitEnv) (k : Nat) : Except Nat TNode :=
  match v.rd (64 * k) 64 with
  | .error st => .error st
  | .ok b => match nodeOf b with | none => .error 4 | some n => .ok n

/-- The chosen child i of the top entry (R310 step 4): `pend` is what stays pending when i has been chosen. -/
def visitChild (v : VisitEnv) (r : Ray) (n : TNode) (k i pend : Nat) (rest : List (Nat × Nat)) : Ray × Option VisitEnd :=
  let chosen := { r with stk := (k, pend - 2 ^ i) :: rest }
  if n.kind i = 1 then
    if min v.depth 4 ≤ rest.length + 1 then (r, some (.bad 4))
    else match visitNode v (n.inner i) with
      | .error st => (r, some (.bad st))
      | .ok c => ({ chosen with stk := (n.inner i, 2 ^ c.nch - 1) :: chosen.stk }, none)
  else if n.kind i = 2 then ({ chosen with tri := some (n.leaf i, n.count i) }, none)
  else if n.leaf i % 64 ≠ 0 then (r, some (.bad 4))
  else match v.rd (n.leaf i) 64 with
    | .error st => (r, some (.bad st))
    | .ok b =>
      if !farOk b then (r, some (.bad 4))
      else if farKind b = 1 ∧ objectRay b v.world.1 v.world.2 = none then (chosen, none)
      else if !r.gath.isEmpty then ({ r with stk := (k, pend) :: rest, offers := sortOffers r.gath, gath := [] }, none)
      else if 4 ≤ r.cont.length then (r, some (.bad 4))
      else (chosen, some (.far b (n.leaf i)))

/-- The top entry of the short stack (R310 steps 2 to 5). -/
def visitTop (v : VisitEnv) (r : Ray) (k pend : Nat) (rest : List (Nat × Nat)) : Ray × Option VisitEnd :=
  match visitNode v k with
  | .error st => (r, some (.bad st))
  | .ok n =>
    let hits := (List.range n.nch).filterMap fun i =>
      if pend.testBit i ∧ n.kind i ≠ 0 then (n.slab v.o v.d (timeOf r.tmin) (timeOf r.tmax) i).map fun e => (e, i) else none
    match pickMin (fun (a b : Option Rat × Nat) => !timeLe b.1 a.1) hits with
    | none => ({ r with stk := rest }, none)
    | some (_, i) => visitChild v r n k i (hits.foldl (fun m e => m + 2 ^ e.2) 0) rest

/-- One step of a visit. -/
def visitStep (v : VisitEnv) (r : Ray) : Ray × Option VisitEnd :=
  match r.offers with
  | c :: more =>
    if timeLe (timeOf c.t) (timeOf r.tmax) then ({ r with offers := more, cand := some c }, some (.offer c))
    else ({ r with offers := more }, none)
  | [] =>
    match r.tri with
    | some (off, n) => visitTri v r off n
    | none =>
      match r.stk with
      | (k, pend) :: rest => visitTop v r k pend rest
      | [] => if r.gath.isEmpty then (r, some .ended) else ({ r with offers := sortOffers r.gath, gath := [] }, none)

/-- Steps of a visit until it stops. -/
def visitLoop (v : VisitEnv) : Nat → Ray → Ray × VisitEnd
  | 0, r => (r, .bad 4)
  | fuel + 1, r =>
    match visitStep v r with
    | (r, some e) => (r, e)
    | (r, none) => visitLoop v fuel r

/-- The topmost continuation entry whose far record is an instance (R313). -/
def Ray.instance_ (r : Ray) : Option RayCont := r.cont.find? fun c => farKind c.record == 1

/-- A visit of a bound treelet (R310): from its entry node, or from where the short stack stands. -/
def visitRun (rd : Nat → Nat → Except Nat (List Byte)) (b : RayBind) (r : Ray) : Ray × VisitEnd :=
  let w (l : List W32) (k : Nat) : Nat := (l.getD k 0).toNat
  match rd 0 64, vecOf (w r.org 0) (w r.org 1) (w r.org 2), vecOf (w r.dir 0) (w r.dir 1) (w r.dir 2) with
  | .error st, _, _ => (r, .bad st)
  | .ok h, some o, some d =>
    let depth := recField h 2 1
    let entry := recField h 0 2
    let inst := r.instance_
    let space := (inst.bind fun c => objectRay c.record o d).getD (o, d)
    let v : VisitEnv := {
      rd := rd, depth := depth, o := space.1, d := space.2, world := (o, d), tid := b.tid,
      inst := inst.map fun c => (recField c.record 48 4 % 2 ^ 24, [c.bind.tid, 64 * c.far], recField c.record 48 4) }
    if !recZero h 3 64 ∨ depth = 0 ∨ entry = 0 then (r, .bad 4)
    else if !r.fresh then visitLoop v 65536 r
    else match visitNode v entry with
      | .error st => (r, .bad st)
      | .ok n => visitLoop v 65536 { r with stk := [(entry, 2 ^ n.nch - 1)], fresh := false }
  | _, _, _ => (r, .bad 4)

end Sys2Proof.Machine
end

