-- ==== Sys2Proof/Machine/Filters.lean ====
section
/-! DEFINITION. The Quince units: texels and levels of detail (R334-R338), grid lookups (R339, R340), and FILT (R341-R343). -/

namespace Sys2Proof.Machine

/-! ### Exact sums -/

/-- The sign of a weighted value. -/
def weightedNeg (e : Rat × FVal) : Bool := FVal.neg e.2 != decide (e.1 < 0)

/-- The sum of weighted values, exact and rounded once by RNE, with the sign that an exact zero takes: an infinity of weight
zero or two opposite infinities give a NaN (R45, R338, R340). -/
def blendZ (zeroNeg : Bool) (f : Fmt) (ts : List (Rat × FVal)) : Nat :=
  let neg := weightedNeg
  let infs := ts.filter fun e => FVal.isInf e.2
  if (ts.any fun e => FVal.isNaN e.2) || (infs.any fun e => e.1 == 0) || (infs.any neg && infs.any fun e => !neg e) then f.canonNaN
  else match infs with
    | e :: _ => f.signed (neg e) f.infBits
    | [] =>
      let x := ts.foldl (fun a e => a + e.1 * (FVal.rat e.2).getD 0) 0
      if x = 0 then f.signed zeroNeg 0 else roundRat f x

/-- The sum of weighted values (R36, R338): a zero is -0 when every term is -0, as RNE has it. -/
def blend (f : Fmt) (ts : List (Rat × FVal)) : Nat :=
  blendZ (ts.all fun e => weightedNeg e && (e.1 == 0 || FVal.isZero e.2)) f ts

/-- A finite binary32 value; zero stands for any other. -/
def finiteRat (v : Nat) : Rat := (ratOf32 v).getD 0

/-! ### Texture records (R334-R336) -/

def texField (b : List Byte) (lo n : Nat) : Nat := recField b lo n
def texFormat (b : List Byte) : Nat := recField b 2 1
def texWidth (b : List Byte) : Nat := recField b 8 2
def texHeight (b : List Byte) : Nat := recField b 10 2
def texLevels (b : List Byte) : Nat := recField b 5 1 % 32
def texMode (b : List Byte) : Nat := recField b 3 1 % 4
def texAniso (b : List Byte) : Nat := recField b 3 1 / 4 % 16 + 1

/-- The side of an ASTC block; 1 for the other formats (R335). -/
def astcSide (tf : Nat) : Nat := if tf = 12 ∨ tf = 13 then 4 else if tf = 14 ∨ tf = 15 then 6 else if 16 ≤ tf then 8 else 1

/-- Bytes of a texel, or of an ASTC block (R335). -/
def texBytes (tf : Nat) : Nat :=
  match tf with
  | 1 | 4 => 1
  | 2 | 5 | 7 => 2
  | 3 | 6 | 8 | 10 => 4
  | 9 => 8
  | _ => 16

def levelW (b : List Byte) (i : Nat) : Nat := max 1 (texWidth b / 2 ^ i)
def levelH (b : List Byte) (i : Nat) : Nat := max 1 (texHeight b / 2 ^ i)

/-- Units of a row or column: texels, or ASTC blocks. -/
def unitsOf (tf n : Nat) : Nat := (n + astcSide tf - 1) / astcSide tf

/-- The row pitch of a level (R336). -/
def levelPitch (b : List Byte) (i : Nat) : Nat :=
  alignUp (unitsOf (texFormat b) (levelW b i) * texBytes (texFormat b)) 64

/-- Where a level begins (R336). -/
def levelVa (b : List Byte) (i : Nat) : Nat :=
  (List.range i).foldl (fun va k => alignUp (va + levelPitch b k * unitsOf (texFormat b) (levelH b k)) 256) (recField b 16 8)

/-! ### Decoding texels (R335) -/

/-- The greatest r below 2^64 with r^5 at most n. -/
def root5 (n : Nat) : Nat := (List.range 64).foldl (fun r k => if (r + 2 ^ (63 - k)) ^ 5 ≤ n then r + 2 ^ (63 - k) else r) 0

/-- The sRGB function of IEC 61966-2-1 at c/255, rounded once to binary32: c/255/12.92 up to 0.04045, else
((c/255 + 0.055)/1.055)^2.4, whose fifth power is a rational. -/
def srgb (c : Nat) : Nat :=
  if c ≤ 10 then roundRat fmt32 (mkRat (100 * c) (255 * 1292))
  else
    let n := (1000 * c + 14025) ^ 12 * 2 ^ 300
    let d := 269025 ^ 12
    let r := root5 (n / d)
    (roundF fmt32 .rne false false r (-60) (r ^ 5 * d != n)).1

/-- c/n as a binary32 value. -/
def unorm (c n : Nat) : FVal := decodeF fmt32 (roundRat fmt32 (mkRat c n))

/-- The four channels of a texel from the bytes of its texel or block; sub: its place in an ASTC block. -/
def decodeTexel (tf : Nat) (bs : List Byte) (sub : Nat × Nat) : List FVal :=
  let one : FVal := .fin false 1 0
  let zero : FVal := .fin false 0 0
  let fill (l : List FVal) : List FVal := (List.range 4).map fun k => l.getD k (if k = 3 then one else zero)
  let n (lo k : Nat) : Nat := leNat ((bs.drop lo).take k)
  if 12 ≤ tf then
    match astcTexel (astcSide tf) (tf % 2 == 1) (leNat bs) sub.1 sub.2 with
    | none => [one, zero, one, one]
    | some v => v.zipIdx.map fun (c, ch) =>
      if tf % 2 = 0 then unorm c 65535
      else if ch < 3 then decodeF fmt32 (srgb (c / 256)) else unorm (c / 256) 255
  else if 10 ≤ tf then fill ((List.range (texBytes tf / 4)).map fun k => decodeF fmt32 (n (4 * k) 4))
  else if 7 ≤ tf then fill ((List.range (texBytes tf / 2)).map fun k => decodeF fmt16 (n (2 * k) 2))
  else fill ((List.range (texBytes tf)).map fun k =>
    if 4 ≤ tf ∧ k < 3 then decodeF fmt32 (srgb (n k 1)) else unorm (n k 1) 255)

/-! ### Level of detail (R337) -/

/-- log2 of a natural number in fixed point. -/
def fxLog2Nat (m : Nat) : Int :=
  let l := bitLen m - 1
  (l : Int) * 2 ^ fxP + 2 * fxAtanh (((m - 2 ^ l) * 2 ^ fxP / (m + 2 ^ l) : Nat) : Int) * 2 ^ fxP / fxLn2

/-- How a lookup samples: the probes, their axis, and 256 times the rounded level of detail. -/
structure LodPlan where
  probes : Nat
  axis : Rat × Rat
  lod : Nat
  deriving DecidableEq, Repr

/-- The probes that anisotropic filtering takes for squared lengths M2 and m2: the least k with k^2 m2 at least M2, A at most. -/
def probeCount (a : Nat) (big small : Rat) : Nat :=
  if big = 0 then 1 else ((List.range a).find? fun k => decide (big ≤ ((k + 1) * (k + 1) : Nat) * small)).map (· + 1) |>.getD a

/-- 256 times the level of detail of a squared length, clamped and rounded. -/
def lodOf (b : List Byte) (co : List W32) (r2 : Rat) : Nat :=
  let hi := min (finiteRat (recField b 48 4)) ((texLevels b - 1 : Nat) : Rat)
  if hi < 0 then Config.emptyClamp b co % (256 * (texLevels b - 1) + 1)
  else if r2 = 0 then 0
  else
    let bias := finiteRat (recField b 44 4)
    let log := (fxLog2Nat r2.num.natAbs - fxLog2Nat r2.den) * 128
    let top := (hi * ((256 * 2 ^ fxP : Nat) : Rat)).floor
    let y := log + (bias * ((256 * 2 ^ fxP : Nat) : Rat)).floor
    (rneRat (mkRat (max 0 (min y top)) (2 ^ fxP))).toNat

def lodPlan (b : List Byte) (co : List W32) (d : Nat → Rat) : LodPlan :=
  let sq (x : Rat) : Rat := x * x
  let lx := sq (d 2 * texWidth b) + sq (d 3 * texHeight b)
  let ly := sq (d 4 * texWidth b) + sq (d 5 * texHeight b)
  let big := max lx ly
  if texMode b < 3 then ⟨1, (0, 0), lodOf b co big⟩
  else
    let n := probeCount (texAniso b) big (min lx ly)
    ⟨n, if ly ≤ lx then (d 2, d 3) else (d 4, d 5), lodOf b co (big / ((n * n : Nat) : Rat))⟩

/-- The levels read and their weights. -/
def lodLevels (b : List Byte) (lod : Nat) : List (Rat × Nat) :=
  if texMode b < 2 then [(1, (lod + 128) / 256)]
  else
    let fr := mkRat (lod % 256) 256
    [(1 - fr, lod / 256), (fr, min (lod / 256 + 1) (texLevels b - 1))]

/-! ### Sampling (R338) -/

/-- Where a texel is read: the border colour, or a texel's or block's VA with the place in an ASTC block. -/
inductive TexSrc where
  | border
  | texel (va : Nat) (sub : Nat × Nat)
  deriving DecidableEq, Repr

/-- An index of an axis resolved; none: the border. -/
def resolveIndex (mode n : Nat) (j : Int) : Option Nat :=
  match mode with
  | 0 => some (j % n).toNat
  | 1 => some (clampInt 0 (n - 1) j).toNat
  | 2 => (let q := (j % (2 * n)).toNat; some (if q < n then q else 2 * n - 1 - q))
  | _ => if 0 ≤ j ∧ j < n then some j.toNat else none

def texSrc (b : List Byte) (lv : Nat) (i j : Int) : TexSrc :=
  let am := recField b 4 1
  let tf := texFormat b
  match resolveIndex (am % 4) (levelW b lv) i, resolveIndex (am / 4 % 4) (levelH b lv) j with
  | some i, some j =>
    let k := astcSide tf
    .texel (levelVa b lv + j / k * levelPitch b lv + i / k * texBytes tf) (i % k, j % k)
  | _, _ => .border

/-- A fraction rounded to a multiple of 2^-8, ties to even. -/
def weight8 (x : Rat) : Rat := mkRat (rneRat (x * 256)) 256

/-- The weighted texels of one level at (u, v). -/
def levelTexels (b : List Byte) (lv : Nat) (u v : Rat) : List (Rat × TexSrc) :=
  let x := u * levelW b lv - 1 / 2
  let y := v * levelH b lv - 1 / 2
  if texMode b = 0 then [(1, texSrc b lv (x + 1 / 2).floor (y + 1 / 2).floor)]
  else
    let fx := weight8 (x - x.floor)
    let fy := weight8 (y - y.floor)
    [((1 - fx) * (1 - fy), texSrc b lv x.floor y.floor), (fx * (1 - fy), texSrc b lv (x.floor + 1) y.floor),
     ((1 - fx) * fy, texSrc b lv x.floor (y.floor + 1)), (fx * fy, texSrc b lv (x.floor + 1) (y.floor + 1))]

/-- Every texel of a lookup with its weight. -/
def texPlan (b : List Byte) (co : List W32) : List (Rat × TexSrc) :=
  let d (k : Nat) : Rat := finiteRat (co.getD k 0).toNat
  let p := lodPlan b co d
  ((List.range p.probes).map fun (k : Nat) =>
    let off := mkRat ((2 * k + 1 : Nat) : Int) (2 * p.probes) - 1 / 2
    ((lodLevels b p.lod).map fun (wl, lv) =>
      (levelTexels b lv (d 0 + off * p.axis.1) (d 1 + off * p.axis.2)).map fun (wt, t) =>
        (wl * wt / (p.probes : Rat), t)).flatten).flatten

/-- A block as a Quince unit reads it (R335, R339): its tag kind and n bytes. -/
inductive QRead where
  | zero
  | poison
  | bytes (bs : List Byte)
  deriving DecidableEq, Repr

def quinceRead (s : State) (pa n : Nat) : QRead :=
  let t := homeTag s pa
  if isZeroTag t then .zero else if isPoisonTag t then .poison else .bytes (homeBytes s pa n)

/-- The channels of a texel from what its block gives; the border colour as stored. -/
def texelChannels (b : List Byte) (t : TexSrc) (r : QRead) : List FVal :=
  match t, r with
  | .border, _ => (List.range 4).map fun k => decodeF fmt32 (recField b (28 + 4 * k) 4)
  | _, .zero => List.replicate 4 (.fin false 0 0)
  | _, .poison => List.replicate 4 quietF
  | .texel _ sub, .bytes bs => decodeTexel (texFormat b) bs sub

/-- A filter request's answer: the result registers, and the status bits. -/
abbrev FiltResult := List Nat × Nat

/-- The four registers of a lookup from the texels read. -/
def texResult (b : List Byte) (flush : Bool) (ts : List (Rat × TexSrc × QRead)) : FiltResult :=
  let cs := ts.map fun (w, t, r) => (w, texelChannels b t r)
  ((List.range 4).map fun k =>
      flushBits fmt32 flush (blend fmt32 (cs.map fun e => (e.1, e.2.getD k (.fin false 0 0)))),
   if ts.any fun e => e.2.2 == .poison then stPois else 0)

/-! ### Grid lookups (R339, R340) -/

def gridLevels (b : List Byte) : Nat := recField b 2 1 % 32
def gridT (b : List Byte) : Nat := recField b 4 1 % 32
def gridRes (b : List Byte) (k : Nat) : Nat := recField b (16 + 4 * k) 4

/-- Registers of a grid result block (R341). -/
def gridRegs (b : List Byte) : Nat := (gridLevels b * gridF b + 1) / 2

/-- A coordinate clamped to [0, 1]; a NaN reads as 0. -/
def gridCoord (v : Nat) : Rat :=
  match decodeF fmt32 v with
  | .nan _ _ _ => 0
  | .inf s => if s then 0 else 1
  | x => max 0 (min 1 ((FVal.rat x).getD 0))

/-- The cell index and the rounded fraction of a coordinate at a resolution. -/
def gridCell (x : Rat) (n : Nat) : Nat × FVal :=
  let p := x * (n : Rat)
  let i := min p.floor.toNat (n - 1)
  (i, decodeF fmt32 (roundRat fmt32 (p - (i : Rat))))

/-- The entry of a corner. -/
def gridEntry (b : List Byte) (k x y z : Nat) : Nat :=
  let n := gridRes b k
  let t := gridT b
  if (n + 1) ^ 3 ≤ 2 ^ t then x + y * (n + 1) + z * (n + 1) ^ 2
  else ((x ^^^ (y * 0x9E3779B1 % 2 ^ 32)) ^^^ (z * 0x85EBCA77 % 2 ^ 32)) % 2 ^ t

/-- The VA of an entry of a level's table. -/
def gridVa (b : List Byte) (k h : Nat) : Nat := recField b 8 8 + k * 2 ^ gridT b * gridF b * 2 + h * 2 * gridF b

/-- The VAs of the eight corners of every level, x fastest. -/
def gridPlan (b : List Byte) (co : List W32) : List Nat :=
  ((List.range (gridLevels b)).map fun k =>
    let c (a : Nat) : Nat := (gridCell (gridCoord (co.getD a 0).toNat) (gridRes b k)).1
    (List.range 8).map fun m => gridVa b k (gridEntry b k (c 0 + m % 2) (c 1 + m / 2 % 2) (c 2 + m / 4))).flatten

/-- a + f (b - a), rounded once to binary32. A zero is -0 where a is -0 and the product is (R36): f zero and b below 0. -/
def lerpF (f a b : FVal) : FVal :=
  let w := (FVal.rat f).getD 0
  decodeF fmt32 (blendZ (FVal.isZero a && FVal.neg a && FVal.neg b && !FVal.isZero b && w == 0) fmt32
    [(1, a), (w, b), (-w, a)])

/-- Feature j of an entry from what its block gives. -/
def gridFeature (r : QRead) (j : Nat) : FVal :=
  match r with
  | .zero => .fin false 0 0
  | .poison => quietF
  | .bytes bs => decodeF fmt16 (leNat ((bs.drop (2 * j)).take 2))

/-- Output j of level k: the bits and whether it overflowed. -/
def gridOutput (b : List Byte) (flush : Bool) (co : List W32) (rs : List QRead) (k j : Nat) : Nat × Bool :=
  let f (a : Nat) : FVal := (gridCell (gridCoord (co.getD a 0).toNat) (gridRes b k)).2
  let v (m : Nat) : FVal := gridFeature (rs.getD (8 * k + m) .zero) j
  let x (m : Nat) : FVal := lerpF (f 0) (v (2 * m)) (v (2 * m + 1))
  let y (m : Nat) : FVal := lerpF (f 1) (x (2 * m)) (x (2 * m + 1))
  let z := lerpF (f 2) (y 0) (y 1)
  let r := toFloat fmt16 flush (.val z)
  (r.1, r.2 != 0)

def gridResult (b : List Byte) (flush : Bool) (co : List W32) (rs : List QRead) : FiltResult :=
  let outs := ((List.range (gridLevels b)).map fun k =>
    (List.range (gridF b)).map fun j => gridOutput b flush co rs k j).flatten
  let half (q : Nat) : Nat := (outs.getD q (0, false)).1
  ((List.range (gridRegs b)).map fun r => half (2 * r) + 2 ^ 16 * half (2 * r + 1),
   (if (List.range 3).any fun a => FVal.isNaN (decodeF fmt32 (co.getD a 0).toNat) then stClip else 0) |||
   (if rs.any (· == .poison) then stPois else 0) ||| (if outs.any (·.2) then stOvf else 0))

/-! ### FILT -/

/-- FILT at issue (R342). -/
def filtBody (w : Enc) (grid : Bool) (x : Site) (s : State) : Act :=
  if x.act = 0 then .done x s
  else match handleSlot s x.cr.ctx (scalarValue x.wp w.b.idx.toNat false) with
  | none => .trap x (sealInvalid x 1) s
  | some (slot, r) =>
    if recField r.data 0 1 ≠ (if grid then 2 else 3) then .trap x (sealInvalid x 2) s
    else
      let d := w.d.idx.toNat
      let n := if grid then gridRegs r.data else 4
      if x.wp.n < d + n then
        .trap x { code := 0x01, tx := BitVec.ofNat 32 (5 + 2 ^ 16 * x.wp.n), mask := x.act } s
      else
        let coord (l : Nat) : List W32 := (List.range (if grid then 3 else 6)).map fun k =>
          BitVec.ofNat 32 (mainValue x.wp (w.a.idx.toNat + k) l false)
        let c : Command := { cls := 4, scope := 1, slot := some slot, lanes := x.act,
                             op := .filter grid r.data d ((lanesOf x.act).map fun l => (l, coord l)) }
        if commandWaits s x c || (mainKeys d n x.act).any fun k => x.wp.regs.vempty.contains k then .block x s
        else
          let (x, s, _) := enterCommand x s c
          .done (x.mapRegs fun g => g.emptyMain d n x.act) s

/-- FILT.tex (R341, R342). -/
def execFiltTex (w : Enc) (s : State) : Host.Outcome State Fault Refusal := issueInstr (.filtTex w) w s (filtBody w false)
/-- FILT.grid (R341, R342). -/
def execFiltGrid (w : Enc) (s : State) : Host.Outcome State Fault Refusal := issueInstr (.filtGrid w) w s (filtBody w true)

/-- Touches the texels or entries of a request in order; a watch of the context is met as a command's access meets it (R261,
R343, R455): the PAs. -/
inductive FiltTouch where
  | ok (s : State) (pas : List Nat)
  | fault (n : Nat) (f : CmdFault)
  | wait (s : State)
  deriving DecidableEq, Repr

def filtTouch (ctx ring n : Nat) : List Nat → Nat → State → List Nat → FiltTouch
  | [], _, s, pas => .ok s pas.reverse
  | va :: rest, k, s, pas =>
    match touch s none ctx permRead va ring with
    | .wait s => .wait s
    | .fault code tx =>
      .fault k { code := code, va := va % 2 ^ 56, blocks := k, reason := if code = 0x0B then tx else 0 }
    | .ok s pa =>
      match watchHit s ctx 1 va n with
      | some _ => .fault k { code := 0x12, va := va % 2 ^ 56, blocks := k }
      | none => filtTouch ctx ring n rest (k + 1) s (pa :: pas)

/-- A texture coordinate or derivative that is no finite number (R338). -/
def badCoords (co : List W32) : Bool := !co.all fun v => finite32 v.toNat

/-- The addresses that a request reads, and the bytes of each. -/
def filtReads (grid : Bool) (b : List Byte) (co : List W32) : List Nat :=
  if grid then gridPlan b co
  else if badCoords co then []
  else (texPlan b co).filterMap fun e => match e.2 with | .texel va _ => some va | .border => none

def filtUnit (grid : Bool) (b : List Byte) : Nat := if grid then 2 * gridF b else texBytes (texFormat b)

/-- The answer of a request from what its blocks give, in the order of filtReads. -/
def filtResult (grid : Bool) (b : List Byte) (flush : Bool) (co : List W32) (rs : List QRead) : FiltResult :=
  if grid then gridResult b flush co rs
  else if badCoords co then (List.replicate 4 0, stClip)
  else
    let pair (acc : List (Rat × TexSrc × QRead) × List QRead) (e : Rat × TexSrc) :=
      match e.2 with
      | .border => ((e.1, e.2, QRead.zero) :: acc.1, acc.2)
      | t => ((e.1, t, acc.2.headD .zero) :: acc.1, acc.2.drop 1)
    texResult b flush ((texPlan b co).foldl pair ([], rs)).1.reverse

/-- The registers of a request that faulted (R343). -/
def filtNaNs (grid : Bool) (b : List Byte) : List Nat :=
  if grid then List.replicate (gridRegs b) 0x7E007E00 else List.replicate 4 0x7FC00000

/-- A lane's request ends: its block becomes full; the last one ends the command's accesses (R342, R343). -/
def filtEnd (s : State) (k : Nat) (c : Command) (grid : Bool) (b : List Byte) (dst : Nat) (lanes : List (Nat × List W32))
    (lane : Nat) (r : FiltResult) : State :=
  let rest := lanes.filter fun e => e.1 != lane
  let s := match getWarp s c.crew c.warp with
    | none => s
    | some wp => setWarp s c.crew c.warp
        { wp with regs := (List.zipIdx r.1).foldl (fun g (e : Nat × Nat) => g.putMain (dst + e.2) lane (BitVec.ofNat 32 e.1)) wp.regs }
  { s with cmds := kvSet s.cmds k { c with
      op := .filter grid b dst rest
      status := c.status ||| BitVec.ofNat 8 r.2
      phase := if rest.isEmpty then .accessed else c.phase } }

/-- The stack whose Quince unit takes a request: the home of its first texel or entry (R342); the nearest stack of the core
where that has no PA yet, or there is none. -/
def quinceStack (s : State) (ctx core : Nat) (vas : List Nat) : Nat :=
  match vas.head?.map fun va => translate s none ctx permRead va with
  | some (.ok pa _) => homeStack pa
  | _ => nearestStack core

/-- FILTER_REQUEST_END (R343). -/
def execFilterRequestEnd (cmd lane : Nat) (s : State) : Host.Outcome State Fault Refusal :=
  .next (match kvGet s.cmds cmd with
    | none => s
    | some c =>
      match c.op, decide (c.phase = .started) with
      | .filter grid b dst lanes, true =>
        (match lanes.find? fun e => e.1 == lane with
        | none => s
        | some (_, co) =>
          let cr := kvD s.crews c.crew {}
          let flush := (Profile.ofByte (getLaunch s cr.launch).kernel.prof).flush
          let n := filtUnit grid b
          let vas := filtReads grid b co
          match filtTouch cr.ctx (quinceStack s cr.ctx c.core vas) n vas 0 s [] with
          | .wait s => s
          | .ok s pas =>
            filtEnd s cmd { c with blocks := c.blocks + pas.length } grid b dst lanes lane
              (filtResult grid b flush co (pas.map fun pa => quinceRead s pa n))
          | .fault m f =>
            filtEnd s cmd { c with blocks := c.blocks + m, fault := some (c.fault.getD { f with blocks := c.blocks + m }) }
              grid b dst lanes lane (filtNaNs grid b, 0))
      | _, _ => s)

end Sys2Proof.Machine
end

