-- ==== Sys2Proof/Machine/Matrix.lean ====
section
/-! DEFINITION. Tiles, the matrix commands and the arrays (R266-R286, R54, R55). -/

namespace Sys2Proof.Machine

/-! ### Tiles -/

/-- Element [row][column] of a tile: +0 where not listed (R266). -/
def tileGet (m : KV W32) (t r c : Nat) : Nat := (kvD m (4096 * t + 64 * r + c) 0).toNat

/-- Writes every element of a tile. -/
def tileFill (m : KV W32) (t : Nat) (f : Nat → Nat → Nat) : KV W32 :=
  let new := (List.range 4096).filterMap fun k =>
    let v := BitVec.ofNat 32 (f (k / 64) (k % 64))
    if v = 0 then none else some (4096 * t + k, v)
  (m.filter fun e => decide (e.1 < 4096 * t)) ++ new ++ m.filter fun e => decide (4096 * (t + 1) ≤ e.1)

/-- Writes one element of a tile. -/
def tilePut (m : KV W32) (t r c : Nat) (v : W32) : KV W32 :=
  if v = 0 then kvDel m (4096 * t + 64 * r + c) else kvSet m (4096 * t + 64 * r + c) v

def CmdOp.isMma : CmdOp → Bool
  | .matrix _ => true
  | _ => false

/-- A matrix command of a context is in flight. -/
def ctxMatrix (s : State) (ctx : Nat) : Bool :=
  s.cmds.any fun (_, c) => c.op.isMma && c.phase != .completed && (kvD s.crews c.crew {}).ctx == ctx

/-- The matrix mode of a context: reserved (CFLG bit 1, R344). It stays what it was while a matrix command is in flight (R283). -/
def mxReserved (s : State) (ctx : Nat) : Bool :=
  if ctxMatrix s ctx then (getCtx s ctx).mxMode else (ctxFlags s ctx).testBit 1

/-- The mode in which a matrix command is issued stands while one is in flight. -/
def noteMode (s : State) (ctx : Nat) : State := setCtx s ctx { getCtx s ctx with mxMode := mxReserved s ctx }

/-- A crew's MMA, MMAP and MMAG in flight. -/
def mxInFlight (s : State) (crew : Nat) : Nat :=
  (s.cmds.filter fun (_, c) => c.crew == crew && c.op.isMma && c.phase != .completed).length

/-- ACC_BOUND (R273). -/
def accTrap (m : Mask) (reason : Nat) (tile : Nat := 0) (follower : Bool := false) : TrapInfo :=
  { code := 0x0E, tx := BitVec.ofNat 32 (reason + 2 ^ 8 * tile + (if follower then 2 ^ 16 else 0)), mask := m }

/-- A command in flight names one of some tiles of the crew (R280). -/
def tilesBusy (s : State) (crew : Nat) (ts : List Nat) : Bool :=
  s.cmds.any fun (_, c) => c.phase != .completed &&
    (regionsMeet (ts.map fun t => Region.tile crew t) (c.reads ++ c.writes))

/-! ### Direct access -/

/-- ACCZ (R280). -/
def execAccz (w : Enc) (s : State) : Host.Outcome State Fault Refusal :=
  issueInstr (.accz w) w s fun x s =>
    let t := w.d.idx.toNat
    let n := uB s x w
    if x.act = 0 ∨ n = 0 then .done x s
    else if x.cr.acc < t + n then .trap x (accTrap x.act 1 (max t x.cr.acc)) s
    else
      let ts := (List.range n).map fun k => t + k
      if tilesBusy s x.ref.crew ts then .block x s
      else .done x (modCrew s x.ref.crew fun c =>
        { c with tiles := kvClear c.tiles (4096 * t) (4096 * (t + n))
                 tilePoison := c.tilePoison.filter fun k => !ts.contains k })

/-- The checks of ACCRD and ACCWR on a tile, a row and a column in every active lane (R273, R280). -/
def accCheck (s : State) (x : Site) (t : Nat) (r c : Nat → Nat) : Option (Option TrapInfo) :=
  if x.cr.acc ≤ t then some (some (accTrap x.act 1 t))
  else match (lanesOf x.act).filter fun l => decide (64 ≤ r l ∨ 64 ≤ c l) with
  | b :: bs => some (some (accTrap (maskOf (b :: bs)) 6))
  | [] =>
    if tilesBusy s x.ref.crew [t] then some none
    else if x.cr.tilePoison.contains t then
      some (some { code := 0x11, tx := BitVec.ofNat 32 t, mask := x.act })
    else none

/-- ACCRD (R280). -/
def execAccrd (w : Enc) (s : State) : Host.Outcome State Fault Refusal :=
  issueInstr (.accrd w) w s fun x s =>
    if x.act = 0 then .done (x.putDst w.d false []) s
    else
      let t := w.a.idx.toNat
      match accCheck s x t (nB s x w) (nC s x w) with
      | some (some tr) => .trap x tr s
      | some none => .block x s
      | none => .done (x.putDst w.d false (x.lanes fun l => tileGet x.cr.tiles t (nB s x w l) (nC s x w l))) s

/-- ACCWR (R280): of lanes that name one element the highest remains. -/
def execAccwr (w : Enc) (s : State) : Host.Outcome State Fault Refusal :=
  issueInstr (.accwr w) w s fun x s =>
    if x.act = 0 then .done x s
    else
      let t := w.d.idx.toNat
      let row (l : Nat) : Nat := srcValue s x .n32 w.a l
      match accCheck s x t row (nB s x w) with
      | some (some tr) => .trap x tr s
      | some none => .block x s
      | none => .done x (modCrew s x.ref.crew fun cr =>
          { cr with tiles := (lanesOf x.act).foldl (fun m l =>
              tilePut m t (row l) (nB s x w l) (BitVec.ofNat 32 (srcC s x .f32 w l))) cr.tiles })

/-! ### Issue of MMA, MMAP and MMAG -/

/-- The K-block of a local format (R54). -/
def mxKb (fmt : Nat) : Nat := if fmt = 4 then 64 else if fmt = 5 then 128 else 32

def MxJob.bx (j : MxJob) : Bool := decide (4 ≤ j.fmt)

/-- The bytes of one row of an image: 64 for every K-block (R269). -/
def MxJob.rowBytes (j : MxJob) : Nat := 64 * (j.k / mxKb j.fmt)

/-- The bytes of an image of some rows at a pitch, its tag array included (R251, R277). -/
def MxJob.imageBytes (j : MxJob) (pitch rows : Nat) : Nat :=
  if j.bx then pitch * rows + pitch * rows / 32 else pitch * (rows - 1) + j.rowBytes

/-- The command that a shape block names (R271), addresses not yet resolved, and whether its reserved fields are zero. -/
def mxJob (s : State) (x : Site) (w : Enc) (kind : Nat) : MxJob × Bool × Option Nat :=
  let sc (k : Nat) : Nat := scalarValue x.wp (w.c.idx.toNat + k) false
  let ctl := sc 2
  let j : MxJob := {
    kind := kind, flush := x.prof.flush, fmt := w.sub.toNat + 2, tile := w.d.idx.toNat,
    a := rawValue s x .n32 false w.a 0, b := rawValue s x .n32 false w.b 0, k := sc 0,
    rows := if kind = 2 then ctl / 2 ^ 16 else 64, za := ctl.testBit 0, x := if kind = 2 then sc 3 else 0 }
  let pitch (p8 : Nat) : Nat := if p8 = 0 then alignUp j.rowBytes 8 else 8 * p8
  ({ j with pa := pitch (sc 1 % 2 ^ 16), pb := pitch (sc 1 / 2 ^ 16) },
   bitsAt ctl 14 2 == 0 && bitsAt ctl 1 6 == 0 && (kind == 2 || ctl / 2 ^ 16 == 0),
   if ctl.testBit 13 then some (bitsAt ctl 7 6) else none)

/-- The reason of ACC_BOUND of a command's fields, 2 to 5 (R273). -/
def MxJob.reason (j : MxJob) (reservedOk : Bool) : Option Nat :=
  let dense := alignUp j.rowBytes 8
  let al := if j.bx then 64 else 8
  firstReason [
    (2, j.k == 0 || j.k % mxKb j.fmt != 0 || decide (65536 < j.k)),
    (3, decide (j.pa < dense ∨ j.pb < dense) || j.pa % al != 0 || j.pb % al != 0 ||
        (j.bx && (j.a % 64 != 0 || j.b % 64 != 0))),
    (4, !reservedOk),
    (5, j.kind == 2 && (j.rows == 0 || j.x % 8 != 0))]

/-- Where MMAP's follower stands (R276). -/
inductive Follow where
  | none
  | crew (k : Nat) (c : Crew)
  | waits
  deriving DecidableEq, Repr

/-- The follower crew of a crew on a core: the member on the follower's column of the lowest slot with a pooled window that has
one there. -/
def followerOf (s : State) (x : Site) : Follow :=
  let l := getLaunch s x.cr.launch
  let col := (x.ref.core ^^^ 1) % 4
  match (List.range 4).findSome? fun k =>
    match groupInSlot l x.cr.num k with
    | some (_, g) => if g.flags.testBit 2 then g.members[col]? else Option.none
    | Option.none => Option.none with
  | Option.none => .none
  | some num =>
    match crewOf s x.cr.launch num with
    | Option.none => .waits
    | some (k, c) =>
      if c.phase = .retired then .none
      else if c.phase = .resident ∨ c.phase = .stopped then .crew k c else .waits

/-- The crew holds what its command needs in reserved mode (R272, R285). -/
def mxHeld (c : Crew) (pair : Bool) : Bool := c.holdsPair || (!pair && c.holdsArray)

/-- Checks and enters a command (R272); an MMAP without a follower's slot traps with the regions, and waits for a follower that is
not resident (R276). -/
def mxIssue (x : Site) (s : State) (j : MxJob) (ok : Bool) (arv : Option Nat) (follow : Follow) : Act :=
  let fo : Option (Nat × Crew) := match follow with | .crew k c => some (k, c) | _ => none
  if x.cr.acc ≤ j.tile then .trap x (accTrap x.act 1 j.tile) s
  else if fo.any fun e => decide (e.2.acc ≤ j.tile) then .trap x (accTrap x.act 1 j.tile true) s
  else
    match j.reason ok with
    | some r => .trap x (accTrap x.act r) s
    | none =>
      match arvTrap x arv with
      | some t => .trap x t s
      | none =>
        let asz := j.imageBytes j.pa j.rows
        let bsz := j.imageBytes j.pb 64
        match (if j.kind = 2 then ownScratch x j.x 128 else .ok 0) with
        | .error r => .trap x (regionTrap x j.x r) s
        | .ok xo =>
          match ownScratch x j.a asz with
          | .error r => .trap x (regionTrap x j.a r) s
          | .ok ao =>
            match ownScratch x j.b bsz with
            | .error r => .trap x (regionTrap x j.b r) s
            | .ok bo =>
              if j.kind = 1 ∧ follow = .none then .trap x (regionTrap x j.a 3) s
              else if follow = .waits then .block x s
              else if fo.any fun e => decide (scratchSize e.2 < ao + asz) then .trap x (regionTrap x j.a 4) s
              else
                let j := { j with a := ao, b := bo, x := xo, follower := fo.map (·.1) }
                let tiles := (x.ref.crew :: (fo.map (·.1)).toList).map fun c => Region.tile c j.tile
                let own := (if j.kind = 2 then [Region.bytes x.ref.crew xo (xo + 128)] else []) ++
                  [Region.bytes x.ref.crew ao (ao + asz), Region.bytes x.ref.crew bo (bo + bsz)]
                let far := (fo.map fun e => Region.bytes e.1 ao (ao + asz)).toList
                let c : Command := { cls := 1, op := .matrix j, scope := 1, arv := arv,
                                     reads := own ++ far ++ (if j.za then [] else tiles), writes := tiles,
                                     pair := fo.map fun _ => x.ref.core ^^^ 1 }
                if 8 ≤ mxInFlight s x.ref.crew then .block x s else issueCommand x (noteMode s x.cr.ctx) c

/-- MMA, MMAP and MMAG (R272). -/
def mmaBody (w : Enc) (kind : Nat) (x : Site) (s : State) : Act :=
  if x.act = 0 then .done x s
  else if mxReserved s x.cr.ctx && !mxHeld x.cr (kind == 1) then
    .trap x { code := 0x0F, tx := if kind = 1 then 2 else 1, mask := x.act } s
  else
    let (j, ok, arv) := mxJob s x w kind
    mxIssue x s j ok arv (if kind = 1 then followerOf s x else .none)

/-- MMA (R274). -/
def execMma (w : Enc) (s : State) : Host.Outcome State Fault Refusal := issueInstr (.mma w) w s (mmaBody w 0)
/-- MMAP (R276). -/
def execMmap (w : Enc) (s : State) : Host.Outcome State Fault Refusal := issueInstr (.mmap w) w s (mmaBody w 1)
/-- MMAG (R275). -/
def execMmag (w : Enc) (s : State) : Host.Outcome State Fault Refusal := issueInstr (.mmag w) w s (mmaBody w 2)

/-! ### Tile transfer -/

/-- The bytes of one row of a tile image by SUB (R278, R279). -/
def tileRow (fmt : Nat) : Nat := if fmt = 0 then 256 else if fmt ≤ 2 then 128 else 64

/-- ACCLD and ACCST (R272, R278, R279). -/
def tileMoveBody (w : Enc) (store : Bool) (x : Site) (s : State) : Act :=
  if x.act = 0 then .done x s
  else
    let fmt := w.sub.toNat
    let bx := decide (3 ≤ fmt)
    let t := w.d.idx.toNat
    let ts := if fmt = 4 then [t, t + 1] else [t]
    let a := rawValue s x .n32 false w.a 0
    let ctl := scalarValue x.wp w.b.idx.toNat false
    let row := tileRow fmt
    let p := if ctl / 2 ^ 16 = 0 then row else 8 * (ctl / 2 ^ 16)
    let al := if bx then 64 else 8
    let arv := if ctl.testBit 13 then some (bitsAt ctl 7 6) else none
    match ts.find? fun k => decide (x.cr.acc ≤ k) with
    | some k => .trap x (accTrap x.act 1 k) s
    | none =>
      match firstReason [(3, decide (p < row) || p % al != 0 || a % al != 0),
                         (4, bitsAt ctl 14 2 != 0 || bitsAt ctl 0 7 != 0)] with
      | some r => .trap x (accTrap x.act r) s
      | none =>
        match arvTrap x arv with
        | some tr => .trap x tr s
        | none =>
          let n := if bx then 64 * p + 2 * p else 63 * p + row
          match ownScratch x a n with
          | .error r => .trap x (regionTrap x a r) s
          | .ok off =>
            let image := [Region.bytes x.ref.crew off (off + n)]
            let tiles := ts.map fun k => Region.tile x.ref.crew k
            issueCommand x s { cls := 1, op := .tileMove store fmt t off p, scope := 1, arv := arv,
                               reads := if store then tiles else image, writes := if store then image else tiles }

/-- ACCLD (R278). -/
def execAccld (w : Enc) (s : State) : Host.Outcome State Fault Refusal := issueInstr (.accld w) w s (tileMoveBody w false)
/-- ACCST (R279). -/
def execAccst (w : Enc) (s : State) : Host.Outcome State Fault Refusal := issueInstr (.accst w) w s (tileMoveBody w true)

/-- An element as ACCLD widens it: exactly, a subnormal read as zero under DN (R278). -/
def widenTile (fmt : Nat) (flush : Bool) (v : Nat) : Nat :=
  let f := if fmt = 1 then fmt16 else if fmt = 2 then fmtB16 else fmt32
  let neg := decide (f.signBit ≤ v)
  let fr := v % 2 ^ f.fb
  if v / 2 ^ f.fb % 2 ^ f.eb = 2 ^ f.eb - 1 then fmt32.signed neg (fmt32.infBits + fr * 2 ^ (23 - f.fb))
  else if flush && isSubnormal f v then fmt32.signed neg 0
  else rebits fmt32 (decodeF f v)

/-- Performs ACCLD. -/
def tileLoad (s : State) (crew fmt tile off pitch : Nat) (flush : Bool) : State :=
  modCrew s crew fun c =>
    let n := if fmt = 0 then 4 else 2
    { c with tiles := tileFill c.tiles tile fun i k => widenTile fmt flush (leNat (scratchBytes c (off + pitch * i + n * k) n))
             tilePoison := setDel c.tilePoison tile }

/-- One row of the image that ACCST writes: its bytes, its tag, and the status bits (R279). -/
def storeRow (c : Crew) (fmt tile : Nat) (flush : Bool) (r : Nat) : List Byte × Option W16 × Nat :=
  let row (t : Nat) : List Nat := (List.range 64).map fun k => tileGet c.tiles t r k
  match fmt with
  | 0 => (packRow 8 (row tile), none, 0)
  | 1 | 2 =>
    let f := if fmt = 1 then fmt16 else fmtB16
    let rs := (row tile).map fun v => toFloat f flush (.val (readEl flush fmt32 v))
    (packRow 4 (rs.map (·.1)), none, orAll (rs.map (·.2)))
  | _ =>
    let q := quantise (fmt == 4) ((row tile ++ (if fmt = 4 then row (tile + 1) else [])).map fun v => decodeF fmt32 v)
    (packRow (if fmt = 4 then 1 else 2) q.1, some (BitVec.ofNat 16 q.2), 0)

/-- Performs ACCST: the state and the status bits. -/
def tileStore (s : State) (crew fmt tile off pitch : Nat) (flush : Bool) : State × Nat :=
  (List.range 64).foldl (fun (s, st) r =>
    let (bs, tag, st') := storeRow (kvD s.crews crew {}) fmt tile flush r
    let s := scratchPut s crew (off + pitch * r) bs
    let s := match tag with
      | some t => scratchPut s crew (off + 64 * pitch + 2 * (r * pitch / 64)) (leBytes 2 t.toNat)
      | none => s
    (s, st ||| st')) (s, 0)

/-! ### The arrays -/

/-- One 64-byte block of a row of an operand image as exact values, whether it is poisoned, and the status bits (R269). -/
def mxBlock (j : MxJob) (c : Crew) (off pitch rows r b : Nat) : List FVal × Bool × Nat :=
  let bytes := leNat (scratchBytes c (off + pitch * r + 64 * b) 64)
  let nib := if j.fmt = 5 then 1 else if j.fmt = 4 then 2 else 4
  let code (k : Nat) : Nat := bytes / 16 ^ (nib * k) % 16 ^ nib
  if j.bx then
    let tag : W16 := BitVec.ofNat 16 (leNat (scratchBytes c (off + pitch * rows + 2 * (r * pitch / 64 + b)) 2))
    let es := (List.range (mxKb j.fmt)).map fun k => taggedF false (j.fmt + 7) tag (code k)
    (es.map fun e => e.1.value, es.any fun e => e.1 == .pois, orAll (es.map (·.2)))
  else
    let p : Profile := ⟨false, .rne, false, j.flush⟩
    ((List.range 32).map fun k => (readF p (if j.fmt = 2 then fmt16 else fmtB16) (code k)).1, false, 0)

/-- C + A x B over one K-block for one element (R54, R55); the block sum starts at +0. -/
def mxElem (flush : Bool) (c : Nat) (a b : List FVal) : Nat :=
  let p : Profile := ⟨false, .rne, false, flush⟩
  let vc := (readF p fmt32 c).1
  (sumF p fmt32 .rne (vc :: (a ++ b)) .none (some vc :: some (.fin false 0 0) :: List.zipWith mulF a b)).1

/-- What one K-block does to a tile (R54): the tiles, whether an operand block is poisoned, the status bits. -/
def mxStep (j : MxJob) (tiles : KV W32) (ca cb : Crew) (b : Nat) : KV W32 × Bool × Nat :=
  let zero : List FVal := List.replicate (mxKb j.fmt) (.fin false 0 0)
  let as := (List.range 64).map fun i => match j.idx.getD i (some i) with
    | some r => mxBlock j ca j.a j.pa j.rows r b
    | none => (zero, false, 0)
  let bs := (List.range 64).map fun i => mxBlock j cb j.b j.pb 64 i b
  (tileFill tiles j.tile fun r c =>
      mxElem j.flush (tileGet tiles j.tile r c) (as.getD r (zero, false, 0)).1 (bs.getD c (zero, false, 0)).1,
   (as ++ bs).any fun e => e.2.1, orAll ((as ++ bs).map fun e => e.2.2))

/-- A saturating 16-bit count. -/
def sat16 (n : Nat) : Nat := min (n + 1) 65535

/-- The record of a poisoned tile (R282, R449 kind 1). -/
def tileRecord (s : State) (k : Nat) (c : Command) (core : Nat) (tile : Nat) : TrapRecord :=
  let cr := kvD s.crews k {}
  ({ code := 0x11, kind := 1, tx := BitVec.ofNat 32 tile, tpc := c.tpc, flg := 1, core := core, ctx := cr.ctx, warp := c.warp,
     crew := cr.num, launch := cr.launch, clk := s.now - (getCore s core).clkBase } : RecordFields).words

/-- What a K-block does at one array (R282): `first`, `second`: the first run, and the rerun, mismatch. The state, whether the
tile is poisoned, whether its remaining blocks are skipped, and the status bits. -/
def mxServe (s : State) (c : Command) (j : MxJob) (crew core b : Nat) (first second : Bool) : State × Bool × Bool × Nat :=
  let cr := kvD s.crews crew {}
  let (tiles, pois, st) := mxStep j cr.tiles cr (kvD s.crews c.crew {}) b
  let s := if first then modCrew s c.crew fun d => { d with reruns := sat16 d.reruns } else s
  if first && second then
    let s := modCrew s crew fun d => { d with tilePoison := setIns d.tilePoison j.tile }
    (postRecord s cr.ctx (tileRecord s crew c core j.tile), true, true, st ||| stPois)
  else (modCrew s crew fun d => { d with tiles := tiles }, pois, false, if pois then st ||| stPois else st)

/-- A tile that a command of a crew poisons is counted, whatever poisons it (R286). -/
def countPoisoning (s : State) (crew : Nat) : State := modCrew s crew fun d => { d with poisonings := sat16 d.poisonings }

/-- The next K-block of a command at its array or arrays. -/
def mxBlockStep (errs : BitVec 32) (i : Nat) (s : State) (c : Command) (j : MxJob) : State × Command × MxJob :=
  let e (k : Nat) : Bool := errs.getLsbD k
  let (s, j, st) :=
    if j.skip then (s, j, 0)
    else
      let (s, p, k, st) := mxServe s c j c.crew c.core j.done (e i) (e (8 + i))
      (if p && !j.bad then countPoisoning s c.crew else s, { j with bad := j.bad || p, skip := k }, st)
  let (s, j, st') := match j.follower with
    | none => (s, j, 0)
    | some f =>
      if j.skipF then (s, j, 0)
      else
        let (s, p, k, st) := mxServe s c j f (c.core ^^^ 1) j.done (e (16 + i)) (e (24 + i))
        (if p && !j.badF then countPoisoning s c.crew else s, { j with badF := j.badF || p, skipF := k }, st)
  (s, { c with status := c.status ||| BitVec.ofNat 8 (st ||| st') }, { j with done := j.done + 1 })

/-- A command's K-blocks are all served or skipped. -/
def MxJob.finished (j : MxJob) : Bool :=
  decide (j.k / mxKb j.fmt ≤ j.done) || (j.skip && (j.follower.isNone || j.skipF))

/-- The next K-block of a command, whose images are read as R234 says. -/
def mxMeetStep (errs : BitVec 32) (i : Nat) (s : State) (c : Command) (j : MxJob) : State × Command × MxJob :=
  let read := overlayOld s c
  let (t, c, j) := mxBlockStep errs i read c j
  (underlayNew s read t c, c, j)

/-- Up to n K-blocks of a command. -/
def mxBlocks (errs : BitVec 32) : Nat → Nat → State → Command → MxJob → State × Command × MxJob
  | 0, _, s, c, j => (s, c, j)
  | n + 1, i, s, c, j =>
    if j.finished then (s, c, j)
    else
      let (s, c, j) := mxMeetStep errs i s c j
      mxBlocks errs n (i + 1) s c j

/-- The poison flag of a tile when its command leaves the array (R268, R274). -/
def mxFlag (s : State) (crew tile : Nat) (za bad : Bool) : State :=
  modCrew s crew fun c =>
    { c with tilePoison := if bad then setIns c.tilePoison tile else if za then setDel c.tilePoison tile else c.tilePoison }

/-- The command leaves the array with its tiles' flags set, and its accesses are done. -/
def mxLeave (s : State) (k : Nat) (c : Command) (j : MxJob) : State :=
  let s := mxFlag s c.crew j.tile j.za j.bad
  let s := match j.follower with
    | some f => mxFlag s f j.tile j.za j.badF
    | none => s
  let s := modCrew s c.crew fun d => { d with mxQueue := d.mxQueue.filter (· != k) }
  let s := (let co := getCore s c.core; setCore s c.core { co with serving := none })
  { s with cmds := kvSet s.cmds k { c with op := .matrix j, phase := .accessed } }

/-- The crew that holds a core's array (R285). -/
def arrayHolder (s : State) (core : Nat) : Option Nat :=
  (s.crews.find? fun (_, c) => (c.phase == .resident || c.phase == .stopped) &&
    ((c.core == core && c.holdsArray) || (c.holdsPair && (c.core == core || c.core == core ^^^ 1)))).map (·.1)

/-- The crew whose queue the array of a core serves next: round-robin in placement order (R284); a held array serves its
holder alone (R285). -/
def mxNextCrew (s : State) (core : Nat) : Option (Nat × Crew) :=
  let h := arrayHolder s core
  let cs := s.crews.filter fun (k, c) => (c.phase == .resident || c.phase == .stopped) && c.core == core &&
    !c.mxQueue.isEmpty && (h.isNone || h == some k)
  let least := pickMin fun (a b : Nat × Crew) => decide (a.2.placedAt < b.2.placedAt)
  let turn := (getCore s core).mxTurn
  (least (cs.filter fun e => decide (turn < e.2.placedAt))).orElse fun _ => least cs

/-- The arrays that run an MMAP (R276). -/
def setServing (s : State) (c : Command) (v : Option Nat) : State :=
  let set (s : State) (k : Nat) : State := (let co := getCore s k; setCore s k { co with serving := v })
  match c.pair with
  | none => s
  | some p => set (set s c.core) p

/-- Serves a tile step of a command. -/
def mxServeCmd (s : State) (core k : Nat) (errs : BitVec 32) : State :=
  match kvGet s.cmds k with
  | none => s
  | some c =>
    match c.op with
    | .matrix j =>
      if c.core ≠ core ∨ c.phase ≠ .started then s
      else
        let s := setServing s c (some k)
        let (s, c, j) := mxBlocks errs 8 0 s c j
        if j.finished then mxLeave s k c j
        else { s with cmds := kvSet s.cmds k { c with op := .matrix j } }
    | _ => s

/-- MATRIX_TILE_STEP (R284): bits 0-7 of errs say which of its K-blocks mismatch, bits 8-15 which of their reruns do; bits
16-31 say the same of an MMAP's follower (R282). -/
def execMatrixTileStep (core : Nat) (errs : BitVec 32) (s : State) : Host.Outcome State Fault Refusal :=
  .next (match (getCore s core).serving with
    | some k => mxServeCmd s core k errs
    | none =>
      match mxNextCrew s core with
      | none => s
      | some (_, cr) =>
        match cr.mxQueue with
        | [] => s
        | k :: _ =>
          let s := (let co := getCore s core; setCore s core { co with mxTurn := cr.placedAt })
          if ((kvD s.cmds k {}).pair.bind fun p => (getCore s p).serving).isSome then s else mxServeCmd s core k errs)

/-! ### Holding the arrays -/

/-- The reason of R286 that refuses MXACQ, or none. -/
def mxRefuses (s : State) (x : Site) (pair : Bool) : Option Nat :=
  let other (core : Nat) : Bool := (arrayHolder s core).any fun k => k != x.ref.crew
  if !mxReserved s x.cr.ctx then some 1
  else if other x.ref.core then some 2
  else if pair && (other (x.ref.core ^^^ 1) || (getCore s (x.ref.core ^^^ 1)).fence != .inService) then some 3
  else none

/-- MXACQ (R284, R285). -/
def execMxacq (w : Enc) (s : State) : Host.Outcome State Fault Refusal :=
  issueInstr (.mxacq w) w s fun x s =>
    if x.act = 0 then .done x s
    else
      let pair := w.sub == 1
      match mxRefuses s x pair with
      | some r => .done (x.putBit w.e false) (modCrew s x.ref.crew fun c => { c with mxRefusal := r })
      | none => .done (x.putBit w.e true) (modCrew s x.ref.crew fun c =>
          { c with holdsArray := true, holdsPair := c.holdsPair || pair })

/-- MXREL (R284, R285). -/
def execMxrel (w : Enc) (s : State) : Host.Outcome State Fault Refusal :=
  issueInstr (.mxrel w) w s fun x s =>
    if x.act = 0 ∨ !mxReserved s x.cr.ctx then .done x s
    else if 0 < mxInFlight s x.ref.crew then .block x s
    else .done x (modCrew s x.ref.crew fun c => { c with holdsArray := false, holdsPair := false })

/-- The word that MXSTAT reads (R286). -/
def mxstatWord (s : State) (x : Site) (k : Nat) : Nat :=
  let queued := (s.crews.filter fun (_, c) => (c.phase == .resident || c.phase == .stopped) && c.core == x.ref.core &&
    !c.mxQueue.isEmpty).length
  match k with
  | 0 => (mxReserved s x.cr.ctx).toNat + 2 * x.cr.holdsArray.toNat + 4 * x.cr.holdsPair.toNat +
      2 ^ 8 * mxInFlight s x.ref.crew + 2 ^ 16 * queued
  | 1 => x.cr.reruns + 2 ^ 16 * x.cr.poisonings
  | 2 => x.cr.mxRefusal
  | _ => 0

/-- MXSTAT (R286). -/
def execMxstat (w : Enc) (s : State) : Host.Outcome State Fault Refusal :=
  issueInstr (.mxstat w) w s fun x s =>
    if x.act = 0 then .done x s else .done (x.writeDst w.d false [(0, mxstatWord s x (uB s x w))]) s

end Sys2Proof.Machine
end

