-- ==== Sys2Proof/Machine/Treelets.lean ====
section
/-! DEFINITION. The Damson units: the ray pool's records, the treelet table, queues, replicas and the messages of rays between
stacks (R287-R290, R294, R296, R302, R313-R320), and TLSHUT, TLPOST and TLQRY (R321-R324). -/

namespace Sys2Proof.Machine

/-! ### The areas of a context (R344) -/

def spillVa (s : State) (ctx : Nat) : Nat := descField s ctx 64 8
def tableVa (s : State) (ctx : Nat) : Nat := descField s ctx 56 8
def tableLen (s : State) (ctx : Nat) : Nat := descField s ctx 52 4

def recordVa (s : State) (ctx id : Nat) : Nat := poolVa s ctx + 64 * id
def contVa (s : State) (ctx id : Nat) : Nat := spillVa s ctx + 64 * id

/-- A core's first pool id, and how many it owns (R289). -/
def poolShare (s : State) (ctx : Nat) : Nat := poolSize s ctx / 64 / 192

/-- The least number from lo up that a rising list lacks. -/
def firstFree : Nat → List Nat → Nat
  | lo, [] => lo
  | lo, k :: t => if k < lo then firstFree lo t else if k = lo then firstFree (lo + 1) t else lo

/-- The lowest free pool id of a core. -/
def freePoolId (s : State) (ctx core : Nat) : Option Nat :=
  let n := poolShare s ctx
  let k := firstFree (core * n) (getCtx s ctx).poolUsed
  if k < (core + 1) * n then some k else none

def takePoolId (s : State) (ctx id : Nat) : State :=
  let c := getCtx s ctx
  setCtx s ctx { c with poolUsed := setIns c.poolUsed id }

def freePool (s : State) (ctx id : Nat) : State :=
  let c := getCtx s ctx
  setCtx s ctx { c with poolUsed := setDel c.poolUsed id }

def getRay (s : State) (k : Nat) : Option Ray := kvGet s.rays k
def setRay (s : State) (r : Ray) : State := { s with rays := kvSet s.rays (rayKey r.ctx r.id) r }
def dropRay (s : State) (r : Ray) : State := { s with rays := kvDel s.rays (rayKey r.ctx r.id) }
def Ray.key (r : Ray) : Nat := rayKey r.ctx r.id

/-! ### Touches of the memory side -/

/-- A Damson unit's touch of one line with trace permission (R406). -/
def damsonTouch (s : State) (ctx stack va : Nat) : Touch := touch s none ctx permTrace va stack

/-- Several touches: the state, the PAs in order (none where one fails), and whether one must wait. -/
def damsonTouches (s : State) (ctx stack : Nat) : List Nat → State × List (Option Nat) × Bool
  | [] => (s, [], false)
  | va :: rest =>
    let (s, p, w) := match damsonTouch s ctx stack va with
      | .ok s pa => (s, some pa, false)
      | .fault _ _ => (s, none, false)
      | .wait s => (s, none, true)
    let (s, ps, w') := damsonTouches s ctx stack rest
    (s, p :: ps, w || w')

/-! ### The treelet table (R314) -/

/-- The eight words of an entry at its home. -/
structure TEntry where
  va : Nat
  oldVa : Nat
  readers : Nat
  oldRd : Nat
  ver : Nat
  size : Nat
  home : Nat
  root : Bool
  st : Nat
  oldP : Bool
  deriving DecidableEq, Repr

def tFree : Nat := 0
def tOpen : Nat := 1
def tShut : Nat := 2
def tPoisoned : Nat := 3

def tentryAt (s : State) (pa : Nat) : TEntry :=
  let b := homeBytes s pa 32
  let f := recField b 0 4
  { va := recField b 24 8, oldVa := recField b 16 8, readers := recField b 12 4, oldRd := recField b 8 4,
    ver := recField b 6 2, size := recField b 4 2 % 2 ^ 11, home := f % 8, root := f.testBit 3, st := bitsAt f 4 2,
    oldP := f.testBit 6 }

def TEntry.bytes (e : TEntry) : List Byte :=
  leBytes 4 (e.home + 8 * e.root.toNat + 16 * e.st + 64 * e.oldP.toNat) ++ leBytes 2 e.size ++ leBytes 2 e.ver ++
    leBytes 4 e.oldRd ++ leBytes 4 e.readers ++ leBytes 8 e.oldVa ++ leBytes 8 e.va

def putEntry (s : State) (pa : Nat) (e : TEntry) : State := homePuts s pa e.bytes

/-- The VA of an entry; none at or above the entry count. -/
def entryVa (s : State) (ctx tid : Nat) : Option Nat :=
  if tid < tableLen s ctx then some (tableVa s ctx + 32 * tid) else none

/-- Touches an entry. -/
def entryTouch (s : State) (ctx stack tid : Nat) : Touch :=
  match entryVa s ctx tid with
  | none => .fault 0x09 0
  | some va => damsonTouch s ctx stack va

/-- One binding to a version ends (R315). -/
def TEntry.unbind (e : TEntry) (ver : Nat) : TEntry :=
  if e.ver = ver then { e with readers := e.readers - 1 }
  else if e.oldP then { e with oldRd := e.oldRd - 1, oldP := decide (1 < e.oldRd) }
  else e

def unbindAt (s : State) (pa : Option Nat) (ver : Nat) : State :=
  match pa with
  | none => s
  | some p => putEntry s p ((tentryAt s p).unbind ver)

/-! ### Completion (R293, R294) -/

/-- The four hit words of a completed ray (R293). -/
def Ray.words (r : Ray) (st : Nat) : List W32 :=
  let w (n : Nat) : W32 := BitVec.ofNat 32 n
  match (if st = 2 then r.best else none) with
  | some h => [h.t, w h.prim, w (2 ^ 24 * (r.flags + 8 * h.front.toNat + 2) + h.inst), w h.uv]
  | none => [r.tmax0, 0xFFFFFFFF, w (2 ^ 24 * (r.flags + st) + 0xFFFFFF), 0]

/-- Writes bytes 28-31 and 36-47 of a record. -/
def putHit (s : State) (pa : Nat) (ws : List W32) : State :=
  match ws with
  | t :: more => homePuts (homePuts s (pa + 28) (leBytes 4 t.toNat)) (pa + 36) ((more.map fun v => leBytes 4 v.toNat).flatten)
  | [] => s

/-- Every binding of a ray. -/
def Ray.binds (r : Ray) : List RayBind := r.bind.toList ++ r.cont.map (·.bind)

/-- What an attempted action on a ray comes to. -/
inductive RayTry where
  | ok (s : State)
  | wait (s : State)
  deriving DecidableEq, Repr

/-- Completes a ray (R294, R315): with a status, or HIT or MISS by its best. A record that cannot be reached loses it (R290); an
entry that cannot be reached, in which a binding ends, gives ST 4 (R314). -/
def finishRay (s : State) (r : Ray) (st : Option Nat) : RayTry :=
  let st := st.getD (if r.best.isSome then 2 else 1)
  let vas := r.binds.filterMap fun b => entryVa s r.ctx b.tid
  let (s, pas, w) := damsonTouches s r.ctx r.stack (recordVa s r.ctx r.id :: vas)
  if w then .wait s
  else match pas with
  | some pa :: eps =>
    let ws := r.words (if eps.contains none && st != 3 then 4 else st)
    let s := putHit s pa ws
    let otag := BitVec.ofNat 32 (homeNat s (pa + 60) 4)
    let bs := r.binds.filter fun b => (entryVa s r.ctx b.tid).isSome
    let s := (eps.zip bs).foldl (fun s e => unbindAt s e.1 e.2.ver) s
    .ok (postMsg (dropRay s r) (.result r.key otag ws))
  | _ => .ok (dropRay s r)

/-- Completes a ray, or leaves a message that will. -/
def finishOr (s : State) (r : Ray) (st : Option Nat) : State :=
  match finishRay s r st with
  | .ok s => s
  | .wait s => postMsg (setRay s r) (.go r.key (.finish st))

/-! ### Records and continuation lines as the Damson units write them -/

/-- The short stack as SSTK holds it (R310). -/
def stackWord (stk : List (Nat × Nat)) : List Byte :=
  padTo 8 ((stk.reverse.map fun e => leBytes 2 (2 ^ 15 + 2 ^ 10 * e.2 + e.1)).flatten)

/-- Writes a ray's progress to its record (R294): bytes 28-31 and 36-59. -/
def putProgress (s : State) (pa : Nat) (r : Ray) : State :=
  let h := r.best.getD {}
  let ws : List W32 := [r.tmax, BitVec.ofNat 32 h.prim, BitVec.ofNat 32 (2 ^ 24 * (r.flags + 8 * h.front.toNat) + h.inst),
                        BitVec.ofNat 32 h.uv]
  homePuts (putHit s pa ws) (pa + 48) (leBytes 4 r.tid ++ stackWord r.stk)

/-- A continuation line (R313): entry 0 is the oldest. -/
def contBytes (cont : List RayCont) : List Byte :=
  padTo 64 ((cont.reverse.map fun c => leBytes 4 (c.bind.tid + 2 ^ 31) ++ leBytes 2 c.far ++ leBytes 2 c.bind.ver ++
    stackWord c.stk).flatten)

/-! ### Damson queues (R318) -/

def queueKey (stack ctx tid : Nat) : Nat := 2 ^ 40 * stack + 2 ^ 20 * ctx + tid
def queueStack (k : Nat) : Nat := k / 2 ^ 40
def queueCtx (k : Nat) : Nat := k / 2 ^ 20 % 2 ^ 20
def queueTid (k : Nat) : Nat := k % 2 ^ 20

/-- Entries in a stack's SRAM. -/
def sramCount (s : State) (stack : Nat) : Nat :=
  s.tqueues.foldl (fun n (k, q) => if queueStack k = stack then n + q.entries.length else n) 0

def sramSize : Nat := 65536

/-- Spill lines of a context in use at a stack. -/
def spillLines (s : State) (stack ctx : Nat) : List Nat :=
  s.tqueues.foldl (fun m (k, q) =>
    if queueStack k = stack ∧ queueCtx k = ctx then q.spilled.foldl (fun m e => setIns m e.1) m else m) []

/-- The VA of a stack's spill line: in its eighth of the second half of the spill area. -/
def spillLineVa (s : State) (ctx stack line : Nat) : Nat :=
  spillVa s ctx + poolSize s ctx + stack * (poolSize s ctx / 8) + 64 * line

/-- The binding code of a spilled entry: 00 held, 01 current, 10 previous. -/
def spillCode (s : State) (r : Ray) (held : Bool) : Nat :=
  if held then 0
  else match r.bind, (entryVa s r.ctx r.tid).map fun va => translate s none r.ctx permTrace va with
    | some b, some (.ok pa _) => if (tentryAt s pa).ver = b.ver then 1 else 2
    | _, _ => 1

/-- Where a queue entry is put: in the SRAM, or in a place of a spill line, whose PA is known, with the PA of the line that is to
link to it. -/
inductive QSpot where
  | sram
  | line (n pos pa : Nat) (link : Option Nat)
  deriving DecidableEq, Repr

/-- What looking for a queue entry's place comes to. -/
inductive QLook where
  | at_ (s : State) (p : QSpot)
  | wait (s : State)
  | fails (s : State)
  deriving DecidableEq, Repr

/-- The place of a ray's queue entry at its stack (R318): a full SRAM spills it into a line of the stack's own eighth. With no
line left there it waits (the model's choice, log entry 131). -/
def queueSpot (s : State) (r : Ray) : QLook :=
  let q := kvD s.tqueues (queueKey r.stack r.ctx r.tid) {}
  if q.spilled.isEmpty && decide (sramCount s r.stack < sramSize) then .at_ s .sram
  else
    let fresh := firstFree 0 (spillLines s r.stack r.ctx)
    let (n, pos, link) := match q.spilled.getLast? with
      | some (l, p, _) => if p < 14 then (l, p + 1, none) else (fresh, 0, some l)
      | none => (fresh, 0, none)
    if poolSize s r.ctx / 8 < 64 * (n + 1) then .wait s
    else match damsonTouches s r.ctx r.stack ((n :: link.toList).map (spillLineVa s r.ctx r.stack)) with
      | (s, _, true) => .wait s
      | (s, some pa :: ls, false) => if ls.contains none then .fails s else .at_ s (.line n pos pa ls.head?.join)
      | (s, _, false) => .fails s

/-- Puts a ray into the queue of its treelet at its stack (R318). -/
def putQueue (s : State) (r : Ray) (held : Bool) (p : QSpot) : State :=
  let s := setRay s r
  let k := queueKey r.stack r.ctx r.tid
  let q := kvD s.tqueues k {}
  let e : QEntry := { ray := r.key, held := held, since := s.now }
  match p with
  | .sram => { s with tqueues := kvSet s.tqueues k { q with entries := q.entries ++ [e] } }
  | .line n pos pa link =>
    let s := match link with
      | some l => homePuts s (l + 60) (leBytes 4 n)
      | none => s
    let s := homePuts s (pa + 4 * pos) (leBytes 4 (r.id + 2 ^ 28 * spillCode s r held))
    { s with tqueues := kvSet s.tqueues k { q with spilled := q.spilled ++ [(n, pos, e)] } }

/-- Enqueues a ray; one whose spill line cannot be reached completes with ST 4 (R406). -/
def enqueueRay (s : State) (r : Ray) (held : Bool) : RayTry :=
  match queueSpot s r with
  | .at_ s p => .ok (putQueue s r held p)
  | .wait s => .wait s
  | .fails s => finishRay s r (some 4)

/-- What reading back a spilled entry comes to: the state, and none while its line waits, or the status that an error gives its
ray (R320, R406). -/
def readSpill (s : State) (ctx stack line : Nat) : State × Option (Option Nat) :=
  match damsonTouch s ctx stack (spillLineVa s ctx stack line) with
  | .wait s => (s, none)
  | .fault _ _ => (s, some (some 4))
  | .ok s pa => (s, some (if isPoisonTag (homeTag s pa) then some 3 else none))

/-- The oldest spilled entry of a stack, with its queue. -/
def oldestSpilled (s : State) (stack : Nat) : Option (Nat × Nat × QEntry) :=
  (pickMin (fun (a b : Nat × Nat × QEntry) => decide (a.2.2.since < b.2.2.since))
    ((s.tqueues.filter fun e => queueStack e.1 == stack).filterMap fun (k, q) => q.spilled.head?.map fun e => (k, e.1, e.2.2)))

/-- The oldest spilled entry of a stack returns, where the SRAM has room and its line can be read; whether one has. -/
def refillOne (s : State) (stack : Nat) : State × Bool :=
  match (if sramCount s stack < sramSize then oldestSpilled s stack else none) with
  | none => (s, false)
  | some (k, line, e) =>
    match readSpill s (queueCtx k) stack line with
    | (s, none) => (s, false)
    | (s, some bad) =>
      let back (good : Bool) : State := { s with tqueues := kvMod s.tqueues k fun q =>
        { entries := if good then q.entries ++ [e] else q.entries, spilled := q.spilled.drop 1 } }
      match bad, getRay s e.ray with
      | some st, some r => (finishOr (back false) r (some st), true)
      | none, some _ => (back true, true)
      | _, none => (back false, true)

/-- Spilled entries of a stack's queues return in arrival order as room frees (R318, R320). -/
def refillLoop (stack : Nat) : Nat → State → State
  | 0, s => s
  | fuel + 1, s => match refillOne s stack with
    | (s, true) => refillLoop stack fuel s
    | (s, false) => s

def refillSram (s : State) (stack : Nat) : State :=
  refillLoop stack (s.tqueues.foldl (fun n e => if queueStack e.1 = stack then n + e.2.spilled.length else n) 0) s

/-! ### Admission (R316, R317) -/

/-- A ray whose visit is over, or that met an empty child, returns to where it came from, or completes (R313). Its binding has
ended. -/
def returnRay (s : State) (r : Ray) : RayTry :=
  match r.cont with
  | [] => .ok (finishOr s r none)
  | c :: rest =>
    let r' := { r with bind := some c.bind, tid := c.bind.tid, stk := c.stk, cont := rest, fresh := false, tri := none,
                       gath := [], offers := [] }
    match damsonTouch s r.ctx r.stack (contVa s r.ctx r.id) with
    | .wait s => .wait s
    | .fault _ _ => .ok (finishOr s r (some 4))
    | .ok s pa =>
      if isPoisonTag (homeTag s pa) then .ok (finishOr s r (some 3))
      else .ok (postMsg (setRay (homePuts s pa (contBytes rest)) r') (.go r.key .back))

/-- The message of a ray goes on to the home stack of its treelet, with its progress written (R294, R317). -/
def forwardRay (s : State) (k : Nat) (r : Ray) (home : Nat) (what : RayGo) : State :=
  match damsonTouch s r.ctx r.stack (recordVa s r.ctx r.id) with
  | .wait s => s
  | .fault _ _ => { dropRay s r with rayMsgs := kvDel s.rayMsgs k }
  | .ok s pa =>
    let s := setRay (putProgress s pa r) { r with stack := home }
    let what := match what with
      | .again _ => RayGo.again none
      | w => w
    { s with rayMsgs := kvSet s.rayMsgs k (.go r.key what) }

/-- The message is done with, where the attempt succeeded. -/
def settleMsg (k : Nat) : RayTry → State
  | .ok s => { s with rayMsgs := kvDel s.rayMsgs k }
  | .wait s => s

/-- A ray message arrives at a treelet whose entry lies at a PA (R316). -/
def admitAt (s : State) (k pa : Nat) (r : Ray) (what : RayGo) : State :=
  let e := tentryAt s pa
  if e.st = tPoisoned then settleMsg k (finishRay s r (some 3))
  else if e.st ≠ tFree ∧ !e.root ∧ e.home ≠ r.stack then forwardRay s k r e.home what
  else if what = .back then settleMsg k (enqueueRay s r false)
  else if e.st = tFree then settleMsg k (returnRay s { r with bind := none })
  else if e.st = tShut then settleMsg k (enqueueRay s { r with bind := none } true)
  else match queueSpot s r with
  | .wait s => s
  | .fails s => settleMsg k (finishRay s { r with bind := none } (some 4))
  | .at_ s p =>
    let s := putEntry s pa { e with readers := (e.readers + 1) % 2 ^ 32 }
    let r := { r with bind := some { tid := r.tid, ver := e.ver, size := e.size }, fresh := true, stk := [], tri := none,
                      gath := [], offers := [] }
    { putQueue s r false p with rayMsgs := kvDel s.rayMsgs k }

/-- An older re-admission of the same treelet stands before a message: held rays are re-admitted in arrival order (R316). -/
def againBefore (s : State) (k : Nat) (r : Ray) : Bool :=
  s.rayMsgs.any fun (n, m) => decide (n < k) && (match m with
    | .go ray (.again _) => (getRay s ray).any fun q => q.ctx == r.ctx && q.tid == r.tid
    | _ => false)

/-- A message that enters a treelet, or returns to one, arrives. -/
def arriveAt (s : State) (k : Nat) (r : Ray) (what : RayGo) : State :=
  match entryTouch s r.ctx r.stack r.tid with
  | .wait s => s
  | .fault _ _ => settleMsg k (finishRay s r (some 4))
  | .ok s pa => admitAt s k pa r what

/-- A held ray is admitted again, its spill line read first. -/
def readmitRay (s : State) (k : Nat) (r : Ray) (line : Option Nat) : State :=
  if againBefore s k r then s
  else match line with
  | none => arriveAt s k r (.again none)
  | some n => match readSpill s r.ctx r.stack n with
    | (s, none) => s
    | (s, some (some st)) => settleMsg k (finishRay s r (some st))
    | (s, some none) => arriveAt s k r (.again none)

/-- RAY_ADMIT (R316). -/
def execRayAdmit (k : Nat) (s : State) : Host.Outcome State Fault Refusal :=
  .next (match kvGet s.rayMsgs k with
    | some (.go ray what) =>
      match getRay s ray with
      | none => { s with rayMsgs := kvDel s.rayMsgs k }
      | some r =>
        match what with
        | .finish st => settleMsg k (finishRay s r st)
        | .leave => settleMsg k (returnRay s r)
        | .again line => readmitRay s k r line
        | what => arriveAt s k r what
    | _ => s)

/-! ### Service (R319) -/

/-- The servable entries of a queue. -/
def TQueue.servable (q : TQueue) : List QEntry := q.entries.filter fun e => !e.held

/-- The queue that a free pipeline of a stack takes (R319). -/
def nextBatch (s : State) (stack : Nat) : Option Nat :=
  let qs := (s.tqueues.filter fun (k, q) => queueStack k == stack && !q.servable.isEmpty).map fun (k, q) => (k, q.servable)
  let age (e : Nat × List QEntry) : Nat := (e.2.head?.map (·.since)).getD 0
  let tie (a b : Nat × List QEntry) : Bool := decide (queueTid a.1 < queueTid b.1 ∨ (queueTid a.1 = queueTid b.1 ∧ a.1 < b.1))
  let old := qs.filter fun e => decide (4096 ≤ s.now - age e)
  let pick := if old.isEmpty then
      pickMin (fun a b => decide (b.2.length < a.2.length) || (a.2.length == b.2.length && tie a b)) qs
    else pickMin (fun a b => decide (age a < age b) || (age a == age b && tie a b)) old
  pick.map (·.1)

/-- The blocks of a treelet's storage by 64 KiB granule of VA: the state, the granules' PAs, and whether one must wait. -/
def storageTouch (s : State) (ctx stack va size : Nat) : State × List (Nat × Option Nat) × Bool :=
  let g0 := va / unit64K
  let n := (va + 64 * size - 1) / unit64K - g0 + 1
  let vas := (List.range n).map fun k => max va ((g0 + k) * unit64K)
  let (s, pas, w) := damsonTouches s ctx stack vas
  (s, vas.zip pas, w)

/-- A block of storage: bytes and whether it is poisoned. -/
def storageBlock (s : State) (gs : List (Nat × Option Nat)) (a : Nat) : Option (List Byte × Bool) :=
  match gs.find? fun g => g.1 / unit64K == a / unit64K with
  | some (v, some pa) => some (homeBytes s (pa + (a - v)) 64, isPoisonTag (homeTag s (pa + (a - v))))
  | _ => none

/-- Reads bytes of a storage given by its blocks (R309, R320, R406). -/
def readStorage (size : Nat) (block : Nat → Option (List Byte × Bool)) (off n : Nat) : Except Nat (List Byte) :=
  if 64 * size < off + n then .error 4
  else
    let bs := (List.range ((off + n - 1) / 64 - off / 64 + 1)).map fun k => block (off / 64 + k)
    if bs.any fun b => b.isNone then .error 4
    else if bs.any fun b => (b.map (·.2)).getD false then .error 3
    else .ok ((((bs.map fun b => (b.map (·.1)).getD []).flatten).drop (off % 64)).take n)

/-- The storage that a bound ray reads (R315, R317): the state, a reader, and whether it must wait. -/
def boundStorage (s : State) (r : Ray) (e : TEntry) (b : RayBind) : State × (Nat → Option (List Byte × Bool)) × Bool :=
  let cur := e.ver == b.ver
  let key := queueKey r.stack r.ctx b.tid
  let kept := if e.root && cur then (kvGet s.replicas key).filter fun p => p.ver == b.ver else none
  match kept with
  | some p => (s, fun k => p.blocks.getD k none, false)
  | none =>
    let va := if cur then e.va else e.oldVa
    let (s, gs, w) := storageTouch s r.ctx r.stack va b.size
    if w then (s, fun _ => none, true)
    else
      let block (k : Nat) : Option (List Byte × Bool) := storageBlock s gs (va + 64 * k)
      let s' := if e.root && cur then
          { s with replicas := kvSet s.replicas key { ver := b.ver, blocks := (List.range b.size).map block } } else s
      (s', block, false)

/-- A version is poisoned: the entry and the record (R320). -/
def poisonVersion (s : State) (pa : Nat) (r : Ray) (b : RayBind) : State :=
  let e := tentryAt s pa
  if e.st = tPoisoned then s
  else postAgent (putEntry s pa { e with st := tPoisoned }) r.ctx 2 0x11 (b.ver + 2 ^ 32 * r.stack) b.tid

/-- A candidate goes to the lane that OTAG names (R297): the four words, with ST 2. -/
def candidateWords (r : Ray) (c : RayHit) : List W32 :=
  let w (n : Nat) : W32 := BitVec.ofNat 32 n
  [c.t, w c.prim, w (2 ^ 24 * (r.flags + 8 * c.front.toNat + 2) + c.inst), w c.uv]

/-- What a visit's end leads to; `ep`, `rp`, `cp`: the PAs of the entry, the record and the continuation line. The state, and
whether the ray has left the queue. -/
def afterVisit (s : State) (r : Ray) (b : RayBind) (ep : Nat) (rp cp : Option Nat) : VisitEnd → State × Bool
  | .bad st =>
    let s := if st = 3 then poisonVersion s ep r b else
      { s with aborts := kvAdd s.aborts (2 ^ 20 * r.ctx + b.tid) 1 }
    (finishOr s r (some st), true)
  | .done => (finishOr s r none, true)
  | .ended =>
    let s := unbindAt s (some ep) b.ver
    let r := { r with bind := none }
    (match returnRay s r with
      | .ok s => (s, true)
      | .wait s => (postMsg (setRay s r) (.go r.key .leave), true))
  | .far rec off =>
    match cp with
    | none => (finishOr s r (some 4), true)
    | some pa =>
      let cont := { bind := b, stk := r.stk, far := off / 64, record := rec : RayCont } :: r.cont
      let r := { r with cont := cont, bind := none, tid := farTarget rec, stk := [], tri := none, fresh := true }
      (postMsg (setRay (homePuts s pa (contBytes cont)) r) (.go r.key .enter), true)
  | .offer c =>
    match rp with
    | none => (dropRay s r, true)
    | some pa =>
      let otag := BitVec.ofNat 32 (homeNat s (pa + 60) 4)
      (postMsg (setRay s { r with sentTo := otag }) (.candidate r.key otag (candidateWords r c)), true)

/-- Serves one ray of a queue: the state, and whether it has left the queue. -/
def serveRay (s : State) (r : Ray) : State × Bool :=
  match r.bind with
  | none => (s, true)
  | some b =>
    let (s, pas, w) := damsonTouches s r.ctx r.stack
      ((entryVa s r.ctx r.tid).toList ++ [recordVa s r.ctx r.id, contVa s r.ctx r.id])
    if w then (s, false)
    else match pas with
    | [some ep, rp, cp] =>
      let e := tentryAt s ep
      if e.st = tPoisoned then (finishOr s r (some 3), true)
      else if r.cont.length > 0 ∧ (cp.map fun pa => isPoisonTag (homeTag s pa)) = some true then (finishOr s r (some 3), true)
      else
        let (s, block, w) := boundStorage s r e b
        if w then (s, false)
        else
          let (r, end_) := visitRun (readStorage b.size block) b r
          afterVisit s r b ep rp cp end_
    | _ => (finishOr s r (some 4), true)

/-- Serves entries of a queue in arrival order. -/
def serveBatch (k : Nat) : List QEntry → State → State
  | [], s => s
  | e :: rest, s =>
    match getRay s e.ray with
    | none => serveBatch k rest { s with tqueues := kvMod s.tqueues k fun q => { q with entries := q.entries.filter (· != e) } }
    | some r =>
      let (s, gone) := serveRay s r
      let s := if gone then { s with tqueues := kvMod s.tqueues k fun q => { q with entries := q.entries.filter (· != e) } } else s
      serveBatch k rest s

/-- TREELET_BATCH (R319). -/
def execTreeletBatch (stack ctx tid : Nat) (s : State) : Host.Outcome State Fault Refusal :=
  .next (
    let k := queueKey stack ctx tid
    if nextBatch s stack ≠ some k then refillSram s stack
    else refillSram (serveBatch k (((kvD s.tqueues k {}).servable).take 256) s) stack)

/-! ### Candidates at their stacks (R296, R298, R302) -/

/-- The record's flag byte with CANDW as given. -/
def putCandw (s : State) (pa : Nat) (on : Bool) : State :=
  homePut s (pa + 43) (if on then homeByte s (pa + 43) ||| 0x10 else homeByte s (pa + 43) &&& 0xEF)

/-- CANDIDATE_RETURN (R302): a candidate that found no match is held at the stack, or sent to the new OTAG. -/
def execCandidateReturn (k : Nat) (s : State) : Host.Outcome State Fault Refusal :=
  .next (match kvGet s.rayMsgs k with
    | some (.giveBack ray otag ws) =>
      match getRay s ray with
      | none => { s with rayMsgs := kvDel s.rayMsgs k }
      | some r =>
        match damsonTouch s r.ctx r.stack (recordVa s r.ctx r.id) with
        | .wait s => s
        | .fault _ _ => { dropRay s r with rayMsgs := kvDel s.rayMsgs k }
        | .ok s pa =>
          let new := BitVec.ofNat 32 (homeNat s (pa + 60) 4)
          let s := { s with rayMsgs := kvDel s.rayMsgs k }
          if new = otag then setRay (putCandw s pa true) { r with held := true }
          else postMsg (setRay (putCandw s pa false) { r with sentTo := new }) (.candidate ray new ws)
    | _ => s)

/-- The held candidate of a ray is sent to the OTAG its record now names (R303 step 4). -/
def resendCandidate (s : State) (r : Ray) (pa : Nat) : State :=
  match r.held, r.cand with
  | true, some c =>
    let otag := BitVec.ofNat 32 (homeNat s (pa + 60) 4)
    postMsg (setRay (putCandw s pa false) { r with held := false, sentTo := otag }) (.candidate r.key otag (candidateWords r c))
  | _, _ => s

/-- A ray with its candidate answered (R296, R298): whether it completes at once. -/
def Ray.answered (r : Ray) (c : RayHit) (kind : Nat) : Ray × Bool :=
  let r := { r with cand := none }
  if kind = 3 ∨ (kind = 1 ∧ r.any) then (r.take c, true)
  else if kind = 1 ∧ c.beats r.best then (r.take c, false)
  else (r, false)

/-- CANDIDATE_ANSWER (R296, R298): the ray goes on in its treelet's queue, or completes. -/
def execCandidateAnswer (k : Nat) (s : State) : Host.Outcome State Fault Refusal :=
  .next (match kvGet s.rayMsgs k with
    | some (.answer ray kind) =>
      let gone := { s with rayMsgs := kvDel s.rayMsgs k }
      match getRay s ray with
      | none => gone
      | some r =>
        match r.cand with
        | none => gone
        | some c =>
          let (r, ended) := r.answered c kind
          settleMsg k (if ended then finishRay s r none else enqueueRay s r false)
    | _ => s)

/-! ### TLSHUT, TLPOST, TLQRY (R321-R324) -/

/-- What a request finds at the entry it names: its PA, a refusal by reason 1, or a wait. -/
inductive EntryLook where
  | at_ (s : State) (pa : Nat)
  | refused (s : State)
  | wait (s : State)
  deriving DecidableEq, Repr

def lookEntry (s : State) (core ctx id : Nat) : EntryLook :=
  match entryVa s ctx id with
  | none => .refused s
  | some va =>
    match touch s (some core) ctx permTrace va (nearestStack core) with
    | .ok s pa => .at_ s pa
    | .fault _ _ => .refused s
    | .wait s => .wait s

def descriptorOf (x : Site) (w : Enc) : TDescriptor :=
  let sc (k : Nat) : Nat := scalarValue x.wp (w.a.idx.toNat + k) false
  let va := sc 0 + 2 ^ 32 * sc 1
  let f := sc 2
  let size := f % 2 ^ 11
  { va := va, size := size, home := bitsAt f 24 3, root := f.testBit 31,
    bad := bitsAt f 11 13 != 0 || bitsAt f 27 4 != 0 || va % 64 != 0 || decide (2 ^ 56 ≤ va) || decide (1024 < size) ||
      (size == 0 && va != 0) }

/-- Entries in the order in which they arrived. -/
def insertSince (e : QEntry × Option Nat) : List (QEntry × Option Nat) → List (QEntry × Option Nat)
  | [] => [e]
  | x :: t => if e.1.since < x.1.since then e :: x :: t else x :: insertSince e t

/-- The held rays of a treelet leave every queue, to be admitted again in arrival order (R316); room that this frees takes
spilled entries back. -/
def readmitHeld (s : State) (ctx tid : Nat) : State :=
  let mine (k : Nat) : Bool := queueCtx k == ctx && queueTid k == tid
  let held := ((s.tqueues.filter fun e => mine e.1).map fun (_, q) =>
    (q.entries.map fun e => (e, none)) ++ q.spilled.map fun e => (e.2.2, some e.1)).flatten.filter fun e => e.1.held
  let s := { s with tqueues := kvMap s.tqueues fun k (q : TQueue) => if mine k then
    { entries := q.entries.filter (fun e => !e.held), spilled := q.spilled.filter fun e => !e.2.2.held } else q }
  let s := (held.foldl (fun m e => insertSince e m) []).foldl (fun s e => postMsg s (.go e.1.ray (.again e.2))) s
  (List.range 8).foldl refillSram s

/-- Replicas of a treelet are dropped at every stack. -/
def dropReplicas (s : State) (ctx tid : Nat) : State :=
  { s with replicas := kvFilter s.replicas fun k _ => !(queueCtx k == ctx && queueTid k == tid) }

/-- The reason of R322 for which TLSHUT or TLPOST is refused at an entry, or 0. -/
def tableReason (kind : Nat) (e : TEntry) (d : TDescriptor) : Nat :=
  if kind = 0 then (if e.st = tOpen then 0 else 2)
  else if e.st = tOpen then 3
  else if e.oldP then 4
  else if d.bad then 5
  else 0

/-- The entry that TLPOST posts (R323). -/
def TEntry.posted (e : TEntry) (d : TDescriptor) : TEntry :=
  { va := d.va, oldVa := e.va, readers := 0, oldRd := e.readers, ver := if e.ver = 0xFFFF then 1 else e.ver + 1,
    size := d.size, home := d.home, root := d.root, st := if d.va = 0 ∧ d.size = 0 then tFree else tOpen,
    oldP := decide (0 < e.readers) }

/-- TLSHUT's and TLPOST's one access at the entry's home (R323). -/
def changeEntry (s : State) (core pa : Nat) (q : TableReq) : State :=
  let e := tentryAt s pa
  if q.kind = 0 then putEntry s pa { e with st := tShut }
  else
    let s := releaseStep s core 3
    dropReplicas (readmitHeld (putEntry s pa (e.posted q.desc)) q.ctx q.id) q.ctx q.id

/-- The warp of a request takes what it answers: a predicate with the last-refusal word, or a scalar (R321, R322, R324). -/
def TableReq.answer (q : TableReq) (s : State) (v : Nat) : State :=
  match getWarp s q.crew q.warp with
  | none => s
  | some wp => setWarp s q.crew q.warp (if q.kind = 2 then { wp with regs := wp.regs.putScalar q.reg (BitVec.ofNat 32 v) }
    else { wp with tlRefusal := BitVec.ofNat 32 v, regs := wp.regs.putPred q.reg q.mask (if v = 0 then ~~~0 else 0) })

/-- A request is carried out at the entry's home; none while it waits (R322-R324). -/
def tableAccess (s : State) (core : Nat) (q : TableReq) : State × Option State :=
  if q.kind = 2 ∧ 8 ≤ q.k then
    let last := ((getWarp s q.crew q.warp).map fun wp => wp.tlRefusal.toNat).getD 0
    (s, some (q.answer s (if q.k = 8 then last else 0)))
  else match lookEntry s core q.ctx q.id with
  | .wait s => (s, none)
  | .refused s => (s, some (q.answer s (if q.kind = 2 then 0 else 1)))
  | .at_ s pa =>
    if q.kind = 2 then (s, some (q.answer s (homeNat s (pa + 4 * q.k) 4)))
    else
      let r := tableReason q.kind (tentryAt s pa) q.desc
      (s, some (q.answer (if r = 0 then changeEntry s core pa q else s) r))

/-- A core's k-th request to a treelet table is carried out, after the earlier ones of its warp (R321). -/
def tableOpMove (s : State) (core k : Nat) : State :=
  let qs := (getCore s core).tableOps
  match qs[k]? with
  | none => s
  | some q =>
    if (qs.take k).any fun p => p.crew == q.crew && p.warp == q.warp then s
    else match tableAccess s core q with
    | (s, none) => s
    | (_, some s) => setCore s core { getCore s core with tableOps := (getCore s core).tableOps.eraseIdx k }

/-- The warp of a request as it issues: its predicate or scalar is empty until the entry has been accessed (R321). -/
def Site.ask (x : Site) (w : Enc) (s : State) (q : TableReq) : Act :=
  let q := { q with crew := x.ref.crew, warp := x.ref.warp, ctx := x.cr.ctx, id := uB s x w, mask := x.act,
                    reg := if q.kind = 2 then w.d.idx.toNat else w.e.idx.toNat }
  let c := getCore s x.ref.core
  .done (x.mapRegs fun r => if q.kind = 2 then r.emptyScalar q.reg 1 else r.emptyPred q.reg)
    (setCore s x.ref.core { c with tableOps := c.tableOps ++ [q] })

/-- TLSHUT (R322, R323). -/
def execTlshut (w : Enc) (s : State) : Host.Outcome State Fault Refusal :=
  issueInstr (.tlshut w) w s fun x s => if x.act = 0 then .done x s else x.ask w s {}

/-- TLPOST (R322, R323): it waits for the stores of its warp. -/
def execTlpost (w : Enc) (s : State) : Host.Outcome State Fault Refusal :=
  issueInstr (.tlpost w) w s fun x s =>
    if x.act = 0 then .done x s
    else if !x.wp.storeQ.isEmpty then .block x s
    else x.ask w s { kind := 1, desc := descriptorOf x w }

/-- TLQRY (R324): k is C, or E when L is 1. -/
def execTlqry (w : Enc) (s : State) : Host.Outcome State Fault Refusal :=
  issueInstr (.tlqry w) w s fun x s =>
    if x.act = 0 then .done x s else x.ask w s { kind := 2, k := srcC s x .n32 w 0 }

end Sys2Proof.Machine
end

