-- ==== Sys2Proof/Machine/Rays.lean ====
section
/-! DEFINITION. Rays at the core: TRACE, HITQ and the CAND instructions, and the delivery of hits and candidates (R291-R300). -/

namespace Sys2Proof.Machine

/-! ### TRACE -/

/-- A ray block is degenerate (R292). -/
def degenerate (v : List Nat) : Bool :=
  let f (k : Nat) : FVal := decodeF fmt32 (v.getD k 0)
  ((List.range 6).any fun k => FVal.isNaN (f k) || FVal.isInf (f k)) || ((List.range 3).all fun k => FVal.isZero (f (3 + k))) ||
  FVal.isNaN (f 6) || FVal.isNaN (f 7) || ltF (f 6) (.fin true 0 0) || ltF (f 7) (f 6)

/-- The ray flags of a TRACE's SUB (R288, R291). -/
def traceFlags (sub : Nat) : Nat := 32 * (sub % 2) + 64 * (sub / 2 % 2) + 128 * (sub / 4 % 2)

/-- Bytes 0-59 of a record (R287, R292). -/
def traceRecord (v : List Nat) (flags root : Nat) : List Byte :=
  (v.map fun x => leBytes 4 x).flatten ++ leBytes 4 0xFFFFFFFF ++ leBytes 4 (2 ^ 24 * flags + 0xFFFFFF) ++ leBytes 4 0 ++
    leBytes 4 root ++ leBytes 8 0

/-- Writes four words to a block of a lane, full. -/
def Regs.putBlock (r : Regs) (reg lane : Nat) (ws : List W32) : Regs :=
  ws.zipIdx.foldl (fun r e => r.putMain (reg + e.2) lane e.1) r

/-- The hit words of a ray that ends without a hit (R293). -/
def missWords (tmax flags st : Nat) : List W32 :=
  [BitVec.ofNat 32 tmax, 0xFFFFFFFF, BitVec.ofNat 32 (2 ^ 24 * (flags + st) + 0xFFFFFF), 0]

/-- TRACE at issue (R292): degenerate lanes are answered, the others' records go with the command. -/
def traceBody (w : Enc) (x : Site) (s : State) : Act :=
  if x.act = 0 then .done x s
  else
    let lanes := lanesOf x.act
    if 63 ≤ (engClass x.wp 3).count then .block x s
    else
      let (s, wp) := abandonRays s x.cr.ctx x.wp x.act
      let x := { x with wp := wp }
      let flags := traceFlags w.sub.toNat
      let root := uB s x w
      let h := w.d.idx.toNat
      let block (l : Nat) : List Nat := (List.range 9).map fun k => mainValue x.wp (w.a.idx.toNat + k) l false
      let seq (l : Nat) : Nat := (kvD x.wp.items l {}).traces % 1024
      let good := lanes.filter fun l => !degenerate (block l)
      let c : Command := { cls := 3, scope := 1, lanes := x.act,
                           op := .trace root h (good.map fun l => (l, traceRecord (block l) flags root, seq l)) }
      if (lanes.any fun l => (kvGet x.wp.rays l).isSome) || commandWaits s x c then .block x s
      else
        let (x, s, _) := enterCommand x s c
        let regs := x.wp.regs.emptyMain h 4 x.act
        let regs := (lanes.filter fun l => degenerate (block l)).foldl (fun r l =>
          r.putBlock h l (missWords ((block l).getD 7 0) flags 1)) regs
        .done { x with wp := { x.wp with
          regs := regs
          items := lanes.foldl (fun m l => (let it := kvD m l {}; kvSet m l { it with traces := it.traces + 1 })) x.wp.items
          rays := good.foldl (fun m l => kvSet m l { cand := w.sub.getLsbD 0, hit := h }) x.wp.rays } } s

/-- TRACE (R291, R292). -/
def execTrace (w : Enc) (s : State) : Host.Outcome State Fault Refusal := issueInstr (.trace w) w s (traceBody w)

/-! ### HITQ and CAND -/

/-- HITQ (R300). -/
def execHitq (w : Enc) (s : State) : Host.Outcome State Fault Refusal :=
  issueInstr (.hitq w) w s (onSite fun _ x =>
    x.putDst w.d false (x.lanes fun l =>
      let n := (kvD x.wp.items l {}).traces
      let st := match kvGet x.wp.rays l with
        | none => 0
        | some r => if r.offer.isSome then 2 else 1
      st + 8 * (if n = 0 then 0 else (n - 1) % 1024)))

/-- Writes bits of a predicate in some lanes, leaving its empty state as it is. -/
def Regs.putBits (r : Regs) (p : Nat) (sel v : Mask) : Regs := { r with p := kvSet r.p p (maskMerge sel v (kvD r.p p 0)) }

/-- A predicate that no CAND.get waits for any more becomes full (R297). -/
def settlePred (wp : Warp) (p : Nat) : Warp :=
  if wp.rays.any fun (_, r) => r.get.any fun g => g.2 == p then wp
  else { wp with regs := { wp.regs with pempty := setDel wp.regs.pempty p } }

/-- CAND.get (R297). -/
def candGetBody (w : Enc) (x : Site) (s : State) : Act :=
  if x.act = 0 then .done x s
  else
    let c := w.d.idx.toNat
    let p := w.e.idx.toNat
    let ray (l : Nat) : Option LaneRay := kvGet x.wp.rays l
    let offered (l : Nat) : Option (List W32) := (ray l).bind fun r => r.offer
    let lanes := lanesOf x.act
    let waits := lanes.filter fun l => (offered l).isNone && ((ray l).map fun r => r.cand).getD false
    let regs := lanes.foldl (fun r l => match offered l with | some ws => r.putBlock c l ws | none => r) x.wp.regs
    let regs := regs.emptyMain c 4 (maskOf waits)
    let regs := regs.putBits p (x.act &&& ~~~maskOf waits) (maskOf (lanes.filter fun l => (offered l).isSome))
    let wp := { x.wp with
      regs := if waits.isEmpty then regs else regs.emptyPred p
      rays := kvMap x.wp.rays fun l r => if waits.contains l then { r with get := r.get ++ [(c, p)] } else r }
    .done { x with wp := wp } s

/-- CAND.get (R297). -/
def execCandGet (w : Enc) (s : State) : Host.Outcome State Fault Refusal := issueInstr (.candGet w) w s (candGetBody w)

/-- The answers of R298, after every earlier access of the warp. -/
def candAnswer (kind : Nat) (x : Site) (s : State) : Act :=
  let has (l : Nat) : Option Nat := (kvGet x.wp.rays l).bind fun r => if r.offer.isSome then r.id else none
  let lanes := (lanesOf x.act).filter fun l => (has l).isSome
  if lanes.isEmpty then .done x s
  else if !(x.wp.storeQ.isEmpty && x.wp.loads.isEmpty) then .block x s
  else
    let s := lanes.foldl (fun s l => match has l with
      | some id => postMsg s (.answer (rayKey x.cr.ctx id) kind)
      | none => s) s
    let rays := kvMap x.wp.rays fun l (r : LaneRay) => if lanes.contains l then { r with offer := none } else r
    .done { x with wp := { x.wp with rays := rays } } s

/-- CAND.accept (R298). -/
def execCandAccept (w : Enc) (s : State) : Host.Outcome State Fault Refusal := issueInstr (.candAccept w) w s (candAnswer 1)
/-- CAND.reject (R298). -/
def execCandReject (w : Enc) (s : State) : Host.Outcome State Fault Refusal := issueInstr (.candReject w) w s (candAnswer 2)
/-- CAND.term (R298). -/
def execCandTerm (w : Enc) (s : State) : Host.Outcome State Fault Refusal := issueInstr (.candTerm w) w s (candAnswer 3)

/-! ### Delivery -/

/-- OTAG's device warp slot, lane and sequence (R287). -/
def tagSlot (o : W32) : Nat := o.toNat % 2 ^ 16
def tagLane (o : W32) : Nat := o.toNat / 2 ^ 16 % 64

/-- The lane that a message names, when its core holds the ray's id for it (R294). -/
def rayMatch (s : State) (ray : Nat) (o : W32) : Option (IssueRef × Warp × LaneRay) :=
  match warpAt s (tagSlot o) with
  | none => none
  | some ref =>
    match getWarp s ref.crew ref.warp with
    | none => none
    | some wp =>
      match kvGet wp.rays (tagLane o) with
      | none => none
      | some lr => if lr.id.map (rayKey (kvD s.crews ref.crew {}).ctx) = some ray then some (ref, wp, lr) else none

/-- The CAND.gets of a lane end with a bit each; with a candidate their blocks take it, else they are full, unchanged (R297). -/
def endGets (wp : Warp) (l : Nat) (gets : List (Nat × Nat)) (ws : Option (List W32)) : Warp :=
  let regs := gets.foldl (fun r g =>
    let r := match ws with
      | some ws => r.putBlock g.1 l ws
      | none => { r with vempty := (mainKeys g.1 4 (laneBit l)).foldl setDel r.vempty }
    r.putBits g.2 (laneBit l) (if ws.isSome then laneBit l else 0)) wp.regs
  let wp := { wp with regs := regs, rays := kvMod wp.rays l fun r => { r with get := [] } }
  gets.foldl (fun wp g => settlePred wp g.2) wp

/-- A hit lands in a lane: its block becomes full and the lane has no ray (R293, R297). -/
def landHit (wp : Warp) (l : Nat) (lr : LaneRay) (ws : List W32) : Warp :=
  let wp := endGets { wp with regs := wp.regs.putBlock lr.hit l ws } l lr.get none
  { wp with rays := kvDel wp.rays l }

/-- HIT_DELIVERY (R294): a result that no core holds a match for is dropped. -/
def execHitDelivery (k : Nat) (s : State) : Host.Outcome State Fault Refusal :=
  .next (match kvGet s.rayMsgs k with
    | some (.result ray o ws) =>
      if 0xFFFC ≤ tagSlot o then s
      else
        let s := { s with rayMsgs := kvDel s.rayMsgs k }
        match rayMatch s ray o with
        | none => s
        | some (ref, wp, lr) =>
          freePool (setWarp s ref.crew ref.warp (landHit wp (tagLane o) lr ws)) (ray / 2 ^ 28) (ray % 2 ^ 28)
    | _ => s)

/-- CANDIDATE_DELIVERY (R297, R299, R302). -/
def execCandidateDelivery (k : Nat) (s : State) : Host.Outcome State Fault Refusal :=
  .next (match kvGet s.rayMsgs k with
    | some (.candidate ray o ws) =>
      let s := { s with rayMsgs := kvDel s.rayMsgs k }
      match rayMatch s ray o with
      | none => postMsg s (.giveBack ray o ws)
      | some (ref, wp, lr) =>
        if lr.abandoned then postMsg s (.answer ray 2)
        else
          let wp := { wp with rays := kvMod wp.rays (tagLane o) fun r => { r with offer := some ws } }
          setWarp s ref.crew ref.warp (endGets wp (tagLane o) lr.get (some ws))
    | _ => s)

/-! ### The TRACE command -/

/-- Some lanes of a TRACE complete at once with a status (R292). -/
def traceEnds (s : State) (crew warp hit : Nat) (lanes : List (Nat × List Byte × Nat)) (st : Nat) : State :=
  match getWarp s crew warp with
  | none => s
  | some wp =>
    let land (wp : Warp) (e : Nat × List Byte × Nat) : Warp :=
      landHit wp e.1 ((kvGet wp.rays e.1).getD { hit := hit })
        (missWords (recField e.2.1 28 4) (recField e.2.1 43 1) st)
    setWarp s crew warp (lanes.foldl land wp)

/-- Whether a root is valid (R292): below 2^20 with an entry marked as a root. -/
inductive RootLook where
  | valid (s : State)
  | invalid (s : State)
  | wait (s : State)
  deriving DecidableEq, Repr

def lookRoot (s : State) (ctx stack root : Nat) : RootLook :=
  if 2 ^ 20 ≤ root then .invalid s
  else match entryTouch s ctx stack root with
  | .ok s pa => if (tentryAt s pa).root then .valid s else .invalid s
  | .fault _ _ => .invalid s
  | .wait s => .wait s

/-- A ray as its first stack takes it (R294). -/
def newRay (ctx id stack : Nat) (b : List Byte) : Ray :=
  let w (k : Nat) : W32 := BitVec.ofNat 32 (recField b k 4)
  { ctx := ctx, id := id, stack := stack, org := [w 0, w 4, w 8], dir := [w 12, w 16, w 20], tmin := w 24, tmax0 := w 28,
    tmax := w 28, flags := recField b 43 1, tid := recField b 48 4 }

/-- Sends the lanes of a TRACE in order, as far as pool ids and pieces allow: the state, the lanes not yet sent, and a fault
(R292). -/
def traceLanes (b : Bus) (root hit : Nat) : List (Nat × List Byte × Nat) → Nat → State →
    State × List (Nat × List Byte × Nat) × Option CmdFault
  | [], _, s => (s, [], none)
  | (l, rec_, seq) :: rest, done, s =>
    let stack := nearestStack b.core
    if poolSize s b.ctx = 0 then traceLanes b root hit rest done (traceEnds s b.crew b.warp hit [(l, rec_, seq)] 4)
    else match lookRoot s b.ctx stack root with
    | .wait s => (s, (l, rec_, seq) :: rest, none)
    | .invalid s => traceLanes b root hit rest done (traceEnds s b.crew b.warp hit [(l, rec_, seq)] 4)
    | .valid s =>
      match freePoolId s b.ctx b.core with
      | none => (s, (l, rec_, seq) :: rest, none)
      | some id =>
        match busTouch b permWrite 2 [(recordVa s b.ctx id, 64)] done s with
        | .wait s => (s, (l, rec_, seq) :: rest, none)
        | .fault s _ f => (traceEnds s b.crew b.warp hit ((l, rec_, seq) :: rest) 4, [], some f)
        | .ok s =>
          let slot := match getWarp s b.crew b.warp with
            | some wp => dwsOf b.core wp.part wp.wslot
            | none => 0
          let pa := busPa s b permWrite (recordVa s b.ctx id)
          let s := homePuts (setTag (flushSector s b.core (pa / 64)) (pa / 64) 0) pa (rec_ ++ leBytes 4 (slot + 2 ^ 16 * l + 2 ^ 22 * seq))
          let s := takePoolId s b.ctx id
          let s := match getWarp s b.crew b.warp with
            | some wp => setWarp s b.crew b.warp { wp with rays := kvMod wp.rays l fun r => { r with id := some id } }
            | none => s
          let r := newRay b.ctx id stack rec_
          traceLanes b root hit rest (done + 1) (postMsg (setRay s r) (.go r.key .enter))

end Sys2Proof.Machine
end

