-- ==== Sys2Proof/Machine/Remote.lean ====
section
/-! DEFINITION. Remote commands and collectives at the issuing device: PUTN, GETN, SIGNAL and COLL (R472, R473), sending their
requests (R464, R474), their ends (R474, R475), and what a collective computes (R476). -/

namespace Sys2Proof.Machine

/-! ### Issue (R473) -/

/-- RANGE_PERM with the extra word of an operation that a versioned launch does not admit. -/
def versPerm (x : Site) : TrapInfo := { code := 0x0A, tx := 4, mask := x.act }

/-- Whether every control word of R472 has its reserved bits zero. -/
def CopyControl.plain (c : CopyControl) : Bool := c.reservedOk && c.pitch8 == 0 && c.lf == 0

/-- The conditions of extra 3 for PUTN and GETN (0, 1) and SIGNAL (2). -/
def remoteBad (kind : Nat) (t : Tensor) (rec_ : List Byte) (dev off len sl : Nat) (ctl : CopyControl) : Bool :=
  let ext := t.ext.getD 0 0
  t.rank != 1 || t.tagged || t.et != (if kind = 2 then 6 else 0) || decide (2 ^ 12 ≤ dev) || !ctl.plain || rec_.isEmpty ||
  (if kind = 2 then decide (2 ≤ len) || decide (ext ≤ off)
   else off % 8 != 0 || len % 8 != 0 || sl % 8 != 0 || len == 0 || decide (2 ^ 20 < len) || decide (ext < off + len))

/-- Commands of the core that a read of a span of scratch must follow. -/
def spanBusy (s : State) (core : Nat) (r : Region) : Bool :=
  (boardEntries s core).any fun (_, c) => regionsMeet c.writes [r]

/-- PUTN (kind 0), GETN (1) and SIGNAL (2) (R473). In a versioned launch a put or a signal is held in the version of the lowest
active lane (R376). -/
def remoteBody (w : Enc) (kind : Nat) (x : Site) (s : State) : Act :=
  if x.act = 0 then .done x s
  else match handleSlot s x.cr.ctx (sA x w) with
  | none => .trap x (sealInvalid x 1) s
  | some (slot, r) =>
    if recField r.data 0 1 ≠ 1 then .trap x (sealInvalid x 2) s
    else
      let sc (k : Nat) : Nat := scalarValue x.wp (w.c.idx.toNat + k) false
      let t := tensorOf r.data
      let ctl := copyControl (sc 3)
      let sl := if kind = 2 then 0 else uB s x w
      if remoteBad kind t r.data (sc 0) (sc 1) (sc 2) sl ctl then .trap x (sealInvalid x 3) s
      else match arvTrap x ctl.arv with
      | some tr => .trap x tr s
      | none =>
        match (if kind = 2 then .ok 0 else ownScratch x sl (sc 2)) with
        | .error e => .trap x (regionTrap x sl e) s
        | .ok lo =>
          let job : RemoteJob := {
            kind := kind, dev := sc 0, va := t.base + (if kind = 2 then 8 * sc 1 else sc 1), len := if kind = 2 then 8 else sc 2,
            lo := lo, value := rawValue s x .n64 true w.b 0, add := kind == 2 && sc 2 == 1, arv := ctl.arv, tpc := x.tpc }
          let span := if kind = 2 then [] else [Region.bytes x.ref.crew lo (lo + sc 2)]
          if (getLaunch s x.cr.launch).vers && kind != 1 then
            if !(x.wp.storeQ.isEmpty && x.wp.loads.isEmpty) || span.any (spanBusy s x.ref.core) then .block x s
            else
              let l := lowLane x.act
              let v := kvD x.wp.versions l {}
              let job := { job with data := if kind = 0 then some (scratchBytes x.cr lo (sc 2)) else none }
              .done { x with wp := { x.wp with
                versions := kvSet x.wp.versions l { v with remotes := v.remotes ++ [job] } } } s
          else
            let c : Command := { cls := 2, op := .remote job, scope := 4, arv := ctl.arv, slot := some slot,
                                 reads := if kind = 0 then span else [], writes := if kind = 1 then span else [] }
            if commandWaits s x c then .block x s
            else
              let r := enterCommand x s c
              .done r.1 (if kind = 1 then r.2.1 else countOut r.2.1 x.cr.launch x.ref.core (if kind = 2 then 2 else 1) true)

/-- PUTN (R474). -/
def execPutn (w : Enc) (s : State) : Host.Outcome State Fault Refusal := issueInstr (.putn w) w s (remoteBody w 0)
/-- GETN (R474). -/
def execGetn (w : Enc) (s : State) : Host.Outcome State Fault Refusal := issueInstr (.getn w) w s (remoteBody w 1)
/-- SIGNAL (R474). -/
def execSignal (w : Enc) (s : State) : Host.Outcome State Fault Refusal := issueInstr (.signal w) w s (remoteBody w 2)

/-- The members of a collective set, and this device's rank (R476). -/
def collMembers (s : State) (ctx set : Nat) : List Nat := kvD s.collSets (16 * ctx + set) []
def collRank (s : State) (ms : List Nat) : Option Nat := ms.findIdx? (· == s.service.deviceId)

/-- COLL (R473). -/
def execColl (w : Enc) (s : State) : Host.Outcome State Fault Refusal :=
  issueInstr (.coll w) w s fun x s =>
    if x.act = 0 then .done x s
    else if (getLaunch s x.cr.launch).vers then .trap x (versPerm x) s
    else
      let set := rawValue s x .n32 false w.a 0
      let kind := w.sub.toNat
      let count := scalarValue x.wp w.c.idx.toNat false
      let ctl := copyControl (scalarValue x.wp (w.c.idx.toNat + 1) false)
      let ms := collMembers s x.cr.ctx set
      let split := kind == 3 || kind == 4 || kind == 6
      if 15 < set ∨ ms.isEmpty ∨ (collRank s ms).isNone ∨ count = 0 ∨ 262144 < count ∨ (split ∧ count % ms.length ≠ 0) ∨
          ctl.plain = false then .trap x (sealInvalid x 3) s
      else match arvTrap x ctl.arv with
      | some tr => .trap x tr s
      | none =>
        let sl := uB s x w
        match ownScratch x sl (4 * count) with
        | .error e => .trap x (regionTrap x sl e) s
        | .ok lo =>
          let span := [Region.bytes x.ref.crew lo (lo + 4 * count)]
          issueCommand x s { cls := 2, op := .coll kind w.ty set lo count none, scope := 4, arv := ctl.arv,
                             reads := span, writes := span }

/-! ### Ends of remote commands (R474, R475) -/

/-- Class cl's LINK_FAIL with a reason and a device (R474). -/
def linkFail (reason dev : Nat) : CmdFault := { code := 0x17, reason := reason, blocks := dev }

/-- The accesses of a remote command are done, or it is known to have failed; its outstanding counter falls (R375, R475). -/
def remoteEnds (s : State) (k : Nat) (c : Command) (f : Option CmdFault) : State :=
  let s := { s with cmds := kvSet s.cmds k { c with phase := .accessed, performed := true, fault := f } }
  match c.op with
  | .remote j => if j.kind = 1 then s
      else countOut s (kvD s.crews c.crew {}).launch c.core (if j.kind = 2 then 2 else 1) false
  | _ => s

/-- The command that a token names, while its request is out. -/
def tokenCmd (s : State) (tok : W32) : Option (Nat × Command) :=
  s.cmds.find? fun (k, c) => BitVec.ofNat 32 k == tok && c.phase == .started && c.op.isRemote

/-- The request of a token fails with a reason of R474; its frames no longer wait. -/
def failToken (s : State) (tok : W32) (reason dev : Nat) : State :=
  let mine (f : Frame) : Bool := f.rtok == tok && [1, 2, 4, 7].contains f.mtype
  let ports := kvMap s.ports fun _ (p : Port) => { p with waiting := p.waiting.filter fun e => !mine e.2 }
  let s := { s with ports := ports }
  match tokenCmd s tok with
  | none => s
  | some (k, c) => remoteEnds s k c (some (linkFail reason dev))

/-! ### Requests (R464) -/

/-- The data of a message in pieces of 960 bytes, with their offsets; one empty piece when there is none. -/
def piecesOf (bs : List Byte) : List (Nat × List Byte) :=
  if bs.isEmpty then [(0, [])]
  else (List.range ((bs.length + 959) / 960)).map fun k => (960 * k, (bs.drop (960 * k)).take 960)

/-- Sends a series of messages of one token on a port. -/
def sendSeries (s : State) (port : Nat) (f : Frame) (bs : List Byte) : State :=
  let ps := piecesOf bs
  ps.zipIdx.foldl (fun s (e : (Nat × List Byte) × Nat) =>
    sendFrame s port { f with data := e.1.2, rlen := e.1.2.length, rlast := decide (e.2 + 1 = ps.length),
                              raddr := if f.mtype = 1 ∨ f.mtype = 8 then f.raddr + e.1.1 else f.raddr }) s

/-- A request of this device. -/
def requestTo (s : State) (t dev ctx key : Nat) : Frame :=
  { emptyFrame with mtype := t, dst := dev, rtok := BitVec.ofNat 32 key, rctx := ctx, rsrc := s.service.deviceId }

/-- Sends the request of a PUTN, GETN or SIGNAL that starts; a device without a route fails it (R474). -/
def startRemote (s : State) (k : Nat) (c : Command) (j : RemoteJob) : State :=
  match kvGet s.service.routes j.dev with
  | none => remoteEnds s k c (some (linkFail 1 j.dev))
  | some port =>
    let cr := kvD s.crews c.crew {}
    let s := { s with cmds := kvSet s.cmds k { c with phase := .started } }
    match j.kind with
    | 0 =>
      let data := j.data.getD (scratchBytes cr j.lo j.len)
      sendSeries s port { requestTo s 1 j.dev cr.ctx k with raddr := j.va } data
    | 1 => sendFrame s port { requestTo s 2 j.dev cr.ctx k with raddr := j.va, rlen := j.len }
    | _ => sendFrame s port { requestTo s 4 j.dev cr.ctx k with
        raddr := j.va, rop := j.add.toNat, raux := leBytes 8 j.value ++ leBytes 8 0 }

/-- A SIGNAL follows the earlier PUTNs of its warp to its device (R235), and what a version held is sent in issue order (R376). -/
def signalWaits (s : State) (k : Nat) (c : Command) (j : RemoteJob) : Bool :=
  s.cmds.any fun (n, d) => decide (n < k) && d.crew == c.crew && d.warp == c.warp && d.phase == .waiting &&
    (match d.op with | .remote p => (j.held && p.held) || (j.kind == 2 && p.kind == 0 && p.dev == j.dev) | _ => false)

/-! ### Collectives (R476) -/

/-- What a member of rank r takes from rank j: the first element and how many, of a count c among m. -/
def collShare (kind m c j r : Nat) : Nat × Nat :=
  let q := c / m
  match kind with
  | 3 => (r * q, q)
  | 4 => (j * q, q)
  | 5 => (0, if j = 0 then c else 0)
  | 6 => (r * q, q)
  | _ => (0, c)

/-- One element reduced over the ranks, lowest first. -/
def collReduce (p : Profile) (kind : Nat) (t : Ty) (vals : List Nat) : Nat :=
  match t with
  | .f32 | .f16x2 | .bf16x2 =>
    (fpMap t 0 fun i =>
      let rs := vals.map fun v => readF p (Ty.fmt t) (fpElem t v i)
      let xs := rs.map Prod.fst
      if kind = 1 ∨ kind = 2 then
        let nums := xs.filter fun x => !FVal.isNaN x
        match decide (nums.length < xs.length) && !p.num, nums with
        | false, y :: ys => (rebits (Ty.fmt t) (ys.foldl (fun acc x => pickF (kind == 2) acc x) y), .none)
        | _, _ => (nanResult p (Ty.fmt t) xs, .none)
      else (sumF p (Ty.fmt t) .rne xs .none (xs.map some))).1
  | t =>
    match vals with
    | [] => 0
    | v :: vs => vs.foldl (fun a b => if kind = 1 then minV t a b else if kind = 2 then maxV t a b else (a + b) % 2 ^ 32) v

/-- The buffer of rank r after the collective (R476): `part j i` is element i as rank j sent it, `own` the buffer before. -/
def collResult (p : Profile) (kind : Nat) (t : Ty) (m c r : Nat) (own : List Nat) (part : Nat → Nat → Nat) : List Nat :=
  let q := c / m
  (List.range c).map fun i =>
    match kind with
    | 3 => if i / q = r then collReduce p 3 t ((List.range m).map fun j => part j i) else own.getD i 0
    | 4 => part (i / q) i
    | 5 => part 0 i
    | 6 => part (i / q) (r * q + i % q)
    | k => collReduce p k t ((List.range m).map fun j => part j i)

/-- The operation byte of a segment (R464). -/
def collRop (kind : Nat) (t : Ty) : Nat := kind + 16 * Ty.code t

def findColl (s : State) (ctx set seq : Nat) : Collective :=
  (s.collectives.find? fun c => c.ctx == ctx && c.set == set && c.seq == seq).getD { ctx := ctx, set := set, seq := seq }

def dropColl (s : State) (c : Collective) : State :=
  { s with collectives := s.collectives.filter fun d => !(d.ctx == c.ctx && d.set == c.set && d.seq == c.seq) }

def putColl (s : State) (c : Collective) : State :=
  let s := dropColl s c
  { s with collectives := s.collectives ++ [c] }

/-- Elements of a rank's part. -/
def Collective.put (c : Collective) (rank off : Nat) (ws : List W32) : Collective :=
  let m := ws.zipIdx.foldl (fun m (e : W32 × Nat) => kvSet m (off + e.2) e.1) (kvD c.parts rank [])
  { c with parts := kvSet c.parts rank m }

/-- Tests a collective that this device has joined: a mismatch fails its command, and when every rank's share has come its
result is written and the command's accesses are done, as an acquire at system scope. -/
def settleColl (s : State) (co : Collective) : State :=
  match co.cmd.bind fun k => (kvGet s.cmds k).map fun c => (k, c) with
  | none => s
  | some (k, c) =>
    match c.op with
    | .coll kind ty set lo count _ =>
      let cr := kvD s.crews c.crew {}
      let ms := collMembers s cr.ctx set
      let m := ms.length
      let r := (collRank s ms).getD 0
      match (List.range m).find? fun j => match kvGet co.heads j with
        | some h => h != (collRop kind ty, count)
        | none => false with
      | some j => remoteEnds (dropColl s co) k c (some (linkFail 4 (ms.getD j 0)))
      | none =>
        let got (j : Nat) : Bool := (kvGet co.heads j).isSome &&
          decide ((collShare kind m count j r).2 ≤ (kvD co.parts j []).length)
        if (List.range m).all got then
          let prof := Profile.ofByte (getLaunch s cr.launch).kernel.prof
          let own := (List.range count).map fun i => leNat (scratchBytes cr (lo + 4 * i) 4)
          let res := collResult prof kind ty m count r own fun j i => (kvD (kvD co.parts j []) i 0).toNat
          let s := noteWrites s (scratchPut s c.crew lo ((res.map fun v => leBytes 4 v).flatten)) k
          remoteEnds (acquireStep (dropColl s co) c.core 4) k (kvD s.cmds k c) none
        else s
    | _ => s

/-- Sends a member its share of this device's buffer, in segments of 240 elements. -/
def sendShare (s : State) (port : Nat) (f : Frame) (seq count off : Nat) (ws : List Byte) : State :=
  let ps := piecesOf ws
  ps.zipIdx.foldl (fun s (e : (Nat × List Byte) × Nat) =>
    sendFrame s port { f with
      data := e.1.2, rlen := e.1.2.length, rlast := decide (e.2 + 1 = ps.length)
      raux := leBytes 4 seq ++ leBytes 4 (off + e.1.1 / 4) ++ leBytes 4 count ++ leBytes 4 0 }) s

/-- A COLL starts: it takes its sequence number, contributes its own elements and sends every other member its share; a member
without a route fails it. -/
def startColl (s : State) (k : Nat) (c : Command) (kind : Nat) (ty : Ty) (set lo count : Nat) : State :=
  let cr := kvD s.crews c.crew {}
  let ms := collMembers s cr.ctx set
  let r := (collRank s ms).getD 0
  let key := 16 * cr.ctx + set
  let seq := kvD s.collSeq key 0
  let c := { c with phase := .started, op := .coll kind ty set lo count (some seq) }
  let s := { s with cmds := kvSet s.cmds k c, collSeq := kvSet s.collSeq key ((seq + 1) % 2 ^ 32) }
  match ms.find? fun d => d != s.service.deviceId && (kvGet s.service.routes d).isNone with
  | some d => remoteEnds s k c (some (linkFail 1 d))
  | none =>
    let bytes := scratchBytes cr lo (4 * count)
    let s := ms.zipIdx.foldl (fun s (d, j) =>
      if d = s.service.deviceId then s
      else match kvGet s.service.routes d with
      | none => s
      | some port =>
        let (off, n) := collShare kind ms.length count r j
        let f := { requestTo s 7 d cr.ctx k with rset := set, rop := collRop kind ty }
        sendShare s port f seq count off ((bytes.drop (4 * off)).take (4 * n))) s
    let (off, n) := collShare kind ms.length count r r
    let own := (List.range n).map fun i => BitVec.ofNat 32 (leNat ((bytes.drop (4 * (off + i))).take 4))
    let co := findColl s cr.ctx set seq
    let co := ({ co with cmd := some k, heads := kvSet co.heads r (collRop kind ty, count) } : Collective).put r off own
    settleColl (putColl s co) co

end Sys2Proof.Machine
end

