-- ==== Sys2Proof/Machine/Engines.lean ====
section
/-! DEFINITION. The start of engine commands (R252-R257, R261, R275, R278, R279, R292, R341, R472). -/

namespace Sys2Proof.Machine

/-- The accesses of a command are done: its status bits and its fault. -/
def commandDone (s : State) (k : Nat) (c : Command) (status : Nat) (fault : Option CmdFault) : State :=
  { s with cmds := kvSet s.cmds k { c with phase := .accessed, status := c.status ||| BitVec.ofNat 8 status, fault := fault } }

/-- A poisoned tile or byte that a command reads (R51, R255, R268): the fault, with the tile in place of a VA. -/
def readPoison (s : State) (rs : List Region) : Option CmdFault :=
  rs.findSome? fun r => match r with
    | .tile crew n => if (kvD s.crews crew {}).tilePoison.contains n then some { code := 0x11, va := n } else none
    | .bytes crew lo hi => if (scratchPoison (kvD s.crews crew {}) lo (hi - lo)).isSome then some { code := 0x11 } else none

/-- The index vector of an MMAG as rows of the A image, and whether one is out of range (R275). -/
def gatherRows (cr : Crew) (j : MxJob) : List (Option Nat) :=
  (List.range 64).map fun i =>
    let x := leNat (scratchBytes cr (j.x + 2 * i) 2)
    if x < j.rows then some x else none

/-- A matrix command enters its crew's queue (R274, R284): ZA zeroes its tiles. -/
def startMatrix (s : State) (k : Nat) (c : Command) (j : MxJob) : State :=
  let zero (s : State) (crew : Nat) : State :=
    modCrew s crew fun d => { d with tiles := kvClear d.tiles (4096 * j.tile) (4096 * (j.tile + 1)) }
  let s := if j.za then (c.crew :: j.follower.toList).foldl zero s else s
  let idx := if j.kind = 2 then gatherRows (kvD s.crews c.crew {}) j else []
  let st := if idx.contains none then stClip else 0
  let s := modCrew s c.crew fun d => { d with mxQueue := d.mxQueue ++ [k] }
  let c := { c with op := .matrix { j with idx := idx }, phase := .started, status := c.status ||| BitVec.ofNat 8 st }
  { s with cmds := kvSet s.cmds k c }

/-- Sends the lanes of a TRACE that can be sent; the command's accesses are done when none is left (R292). -/
def startTrace (s : State) (k : Nat) (c : Command) (root hit : Nat) (lanes : List (Nat × List Byte × Nat)) : State :=
  match traceLanes (Bus.of s c) root hit lanes c.blocks s with
  | (s, [], f) => commandDone s k { c with op := .trace root hit [] } 0 f
  | (s, rest, _) =>
    let c := { c with op := .trace root hit rest, phase := .started, blocks := c.blocks + (lanes.length - rest.length) }
    { s with cmds := kvSet s.cmds k c }

/-- A command whose predecessors have completed does what it does. -/
def startCommand (s : State) (k : Nat) (c : Command) : State :=
  let flush := (Profile.ofByte (getLaunch s (kvD s.crews c.crew {}).launch).kernel.prof).flush
  match c.op with
  | .copy j =>
    match j.perform (Bus.of s c) s with
    | .wait s => s
    | .done s st f => commandDone s k c st f
  | .matrix j => startMatrix s k c j
  | .tileMove false fmt tile addr pitch => commandDone (tileLoad s c.crew fmt tile addr pitch flush) k c 0 none
  | .tileMove true fmt tile addr pitch =>
    let r := tileStore s c.crew fmt tile addr pitch flush
    commandDone r.1 k c r.2 none
  | .trace root hit lanes => startTrace s k c root hit lanes
  | .filter .. => { s with cmds := kvSet s.cmds k { c with phase := .started } }
  | .remote j => if signalWaits s k c j then s else startRemote s k c j
  | .coll kind ty set lo count _ => startColl s k c kind ty set lo count

/-- A command starts on scratch as it meets the lanes' stores there, and what it writes lies beside what was there (R234). -/
def beginCommand (s : State) (k : Nat) (c : Command) : State :=
  let read := overlayOld s c
  let t := startCommand read k c
  noteWrites s (underlayNew s read t c) k

/-- A command that does none of its accesses (R261). -/
def skipCommand (s : State) (k : Nat) (c : Command) (f : Option CmdFault) : State :=
  match c.op with
  | .remote _ => remoteEnds s k c f
  | _ => commandDone s k c 0 f

/-- COMMAND_START (R257, R261): a command starts once it has no predecessor left; a TRACE whose lanes wait goes on. -/
def execCommandStart (cmd : Nat) (s : State) : Host.Outcome State Fault Refusal :=
  .next (match kvGet s.cmds cmd with
    | none => s
    | some c =>
      match c.phase, c.op with
      | .waiting, _ =>
        if !c.preds.isEmpty then s
        else if c.cancelled then skipCommand s cmd c none
        else match readPoison s c.reads with
        | some f => skipCommand s cmd c (some f)
        | none => beginCommand s cmd c
      | .started, .trace root hit lanes => startTrace s cmd c root hit lanes
      | _, _ => s)

end Sys2Proof.Machine
end

