-- ==== Sys2Proof/Machine/Links.lean ====
section
/-! DEFINITION. Frames that arrive on the ports, the requests and responses they carry, the host's accesses, and the states
of the ports (R461-R476). -/

namespace Sys2Proof.Machine

/-! ### The link layer -/

/-- The acknowledged frames leave the retransmission buffer, and returned credits are added (R462, R465, R466). -/
def Port.heard (p : Port) (now : Nat) (f : Frame) : Port :=
  let known := p.unacked.any fun u => u.seq == f.ack
  let rest := if known then (p.unacked.dropWhile fun u => u.seq != f.ack).drop 1 else p.unacked
  let credits := (List.range 4).map fun v => p.credits.getD v 0 + f.crd.getD v 0
  { p with unacked := rest, ackAt := if known then now else p.ackAt, credits := credits }

/-- A dropped frame is counted and answered by a NAK (R466). -/
def dropFrame (s : State) (port : Nat) : State :=
  let p := getPort s port
  sendEmpty (setPort s port { p with drop := p.drop + 1 }) port 0

/-- Every unacknowledged frame is sent again, in SEQ order (R466). -/
def resendAll (s : State) (port : Nat) : State :=
  let p := getPort s port
  let again := p.unacked.map fun f => { f with ack := p.rxSeq }
  let p := { p with sent := p.sent ++ again, retx := p.retx + BitVec.ofNat 32 again.length, ackAt := s.now }
  setPort s port p

/-- Message types of the host (R463). -/
def isHostType (t : Nat) : Bool := [8, 9, 11, 12, 13, 14].contains t

/-- A frame that R461 or R463 drops and counts. -/
def refusedFrame (port : Nat) (f : Frame) : Bool := decide (15 ≤ f.mtype) || (isHostType f.mtype && port != 0)

/-- A frame that carries a message arrives (R466): a frame out of its turn is dropped; a good one is acted on once. One that must
wait for a move is not yet accepted, and nothing of its header is heard. -/
def receive (s : State) (port t : Nat) (f : Frame) (act : State → Arrival) : State :=
  if 8 < port ∨ !PortState.hears (getPort s port).st ∨ f.mtype ≠ t ∨ f.nfl = 0 then s
  else if f.seq ≠ (getPort s port).rxSeq + 1 then dropFrame s port
  else
    let heard := setPort s port ((getPort s port).heard s.now f)
    if refusedFrame port f then
      let s := takeFrames heard port 1 f.vc f.nfl
      let p := getPort s port
      setPort s port { p with drop := p.drop + 1 }
    else match act heard with
      | .taken s => takeFrames s port 1 (vcOf t) f.nfl
      | .later _ => (match act s with
        | .taken s => s
        | .later s => s)

/-- A host control operation whose code R471 does not list. -/
def unknownOp (port : Nat) (f : Frame) : Bool :=
  let code := leNat (f.data.take 2)
  port == 0 && f.mtype == 11 && f.nfl != 0 && decide (code = 0 ∨ 18 < code)

/-- BAD_FRAME (R461, R463, R466); a message whose operation code is unknown is answered (R471). -/
def execBadFrame (port : Nat) (f : Frame) (s : State) : Host.Outcome State Fault Refusal :=
  .next (if 8 < port ∨ !PortState.hears (getPort s port).st then s
    else if unknownOp port f then
      receive s 0 11 f fun s =>
        .taken (answer s (leNat (f.data.take 2)) 2 0xFF (BitVec.ofNat 32 (leNat ((f.data.drop 4).take 4))) [])
    else if refusedFrame port f ∧ f.nfl ≠ 0 then receive s port f.mtype f fun s => .taken s
    else dropFrame s port)

/-- An empty frame: what it acknowledges and returns, and the frames that can now go (R462, R465). -/
def hearEmpty (s : State) (port : Nat) (f : Frame) : State :=
  pumpPort (setPort s port ((getPort s port).heard s.now f)) port

/-- NAK (R466). -/
def execNak (port : Nat) (f : Frame) (s : State) : Host.Outcome State Fault Refusal :=
  .next (if 8 < port ∨ !PortState.hears (getPort s port).st ∨ f.nfl ≠ 0 ∨ f.mtype ≠ 0 then s
    else resendAll (hearEmpty s port f) port)

/-- CREDIT_RETURN (R462, R465). -/
def execCreditReturn (port : Nat) (f : Frame) (s : State) : Host.Outcome State Fault Refusal :=
  .next (if 8 < port ∨ !PortState.hears (getPort s port).st ∨ f.nfl ≠ 0 ∨ f.mtype = 0 then s else hearEmpty s port f)

/-- RETRANSMIT_TIMEOUT (R466): 4,096 fabric cycles. -/
def execRetransmitTimeout (port : Nat) (s : State) : Host.Outcome State Fault Refusal :=
  let p := getPort s port
  .next (if PortState.hears p.st ∧ !p.unacked.isEmpty ∧ p.ackAt + 2048 ≤ s.now then resendAll s port else s)

/-! ### Port states (R467) -/

/-- Requests of this device, whose failure R474 reports. -/
def isRequest (t : Nat) : Bool := [1, 2, 4, 7].contains t

/-- Enters a state; where traffic stops, the waits of R467 begin. -/
def enterPort (s : State) (port : Nat) (st : PortState) : State :=
  let p := getPort s port
  let stops := PortState.flows p.st && !PortState.flows st
  setPort s port { p with
    st := st, since := s.now, train := if st = .training then p.train + 1 else p.train
    waiting := if stops then p.waiting.map fun e => (s.now, e.2) else p.waiting }

/-- Enters DOWN: the unacknowledged frames are discarded and their requests fail with reason 5. -/
def portDown (s : State) (port : Nat) : State :=
  let p := getPort s port
  let lost := p.unacked.filter fun f => isRequest f.mtype
  let p := { p with unacked := [], txSeq := 0, rxSeq := 0, credits := [0, 0, 0, 0], owed := [0, 0, 0, 0] }
  let s := enterPort (setPort s port p) port .down
  lost.foldl (fun s f => failToken s f.rtok 5 f.dst) s

/-- LINK_TRAINED (R465, R467). -/
def execLinkTrained (port : Nat) (credits : List Nat) (s : State) : Host.Outcome State Fault Refusal :=
  .next (if (getPort s port).st ≠ .training then s
    else
      let s := enterPort s port .up
      let p := getPort s port
      let p := { p with credits := (List.range 4).map fun v => credits.getD v 0, ackAt := s.now,
                        winAt := s.now, winFecu := p.fecu, winRetx := p.retx }
      pumpPort (setPort s port p) port)

/-- TRAINING_TIMEOUT (R467). -/
def execTrainingTimeout (port : Nat) (s : State) : Host.Outcome State Fault Refusal :=
  let p := getPort s port
  .next (if p.st = .training ∧ p.since + 2 ^ 24 ≤ s.now then portDown s port else s)

/-- ERROR_WINDOW_END (R467). -/
def execErrorWindowEnd (port : Nat) (s : State) : Host.Outcome State Fault Refusal :=
  let p := getPort s port
  .next (if !PortState.flows p.st ∨ s.now < p.winAt + 2 ^ 20 then s
    else
      let u := (p.fecu - p.winFecu).toNat
      let r := (p.retx - p.winRetx).toNat
      let q := { p with winAt := s.now, winFecu := p.fecu, winRetx := p.retx }
      let s := setPort s port q
      if p.st = .up ∧ (16 < u ∨ 64 < r) then enterPort s port .degraded
      else if p.st = .degraded ∧ u < 16 ∧ r < 64 then enterPort s port .up
      else s)

/-- DRAINING_END (R467). -/
def execDrainingEnd (port : Nat) (s : State) : Host.Outcome State Fault Refusal :=
  let p := getPort s port
  .next (if p.st = .draining ∧ (p.unacked.isEmpty ∨ p.since + 2 ^ 20 ≤ s.now) then enterPort s port .training else s)

/-- LOSS_OF_SIGNAL (R467). -/
def execLossOfSignal (port : Nat) (s : State) : Host.Outcome State Fault Refusal :=
  .next (if 8 < port then s else portDown s port)

/-- PORT_WAIT_TIMEOUT (R467): the oldest request that waits for the port fails with reason 2. -/
def execPortWaitTimeout (port : Nat) (s : State) : Host.Outcome State Fault Refusal :=
  let p := getPort s port
  .next (if PortState.flows p.st then s
    else match p.waiting.find? fun e => isRequest e.2.mtype && decide (e.1 + 2 ^ 24 ≤ s.now) with
      | some e => failToken s e.2.rtok 2 e.2.dst
      | none => s)

/-- A write of LCTL (R468). -/
def writeLctl (s : State) (port v : Nat) : State :=
  let st := (getPort s port).st
  if v = 1 ∧ PortState.flows st then enterPort s port .draining
  else if v = 2 ∧ st = .down ∧ port ≤ 8 then enterPort s port .training
  else s

/-- LCTL_RETRAIN (R467, R468). -/
def execLctlRetrain (port : Nat) (s : State) : Host.Outcome State Fault Refusal := .next (writeLctl s port 1)
/-- LCTL_START_TRAINING (R467, R468). -/
def execLctlStartTraining (port : Nat) (s : State) : Host.Outcome State Fault Refusal := .next (writeLctl s port 2)

/-! ### Requests at their target (R464, R474) -/

/-- A response to a request, on the port it came by. -/
def replyTo (s : State) (f : Frame) (t : Nat) : Frame :=
  { emptyFrame with mtype := t, dst := f.rsrc, rtok := f.rtok, rctx := f.rctx, rsrc := s.service.deviceId }

/-- A fault response: trap code, bytes performed, VA. -/
def sendFault (s : State) (port : Nat) (f : Frame) (code bytes va : Nat) : State :=
  sendFrame s port { replyTo s f 6 with raux := leBytes 4 code ++ leBytes 4 bytes ++ leBytes 8 va }

/-- A context that answers requests from other devices (R474). -/
def answersLinks (s : State) (ctx : Nat) : Bool :=
  let c := getCtx s ctx
  c.st == .ready || c.st == .running

/-- The reserved fields of a request that must be zero, and RPHYS where it is not admitted (R464). -/
def badRequest (port : Nat) (f : Frame) : Bool :=
  !f.reservedZero || (f.rphys && !(port == 0 && (f.mtype == 8 || f.mtype == 9)))

/-- The parts of [va, va + n) by 64-byte block, with their bytes. -/
def blockParts (va : Nat) (bs : List Byte) : List (Nat × List Byte) :=
  (blockStarts va bs.length).map fun a => (a, (bs.drop (a - va)).take (64 - a % 64))

/-- What the performance of a put comes to: the bytes performed, and a fault. -/
inductive PutEnd where
  | ended (s : State) (n : Nat) (fault : Option (Nat × Nat))
  | wait (s : State)
  deriving DecidableEq, Repr

/-- A POISON block that a write of [start, e) has covered wholly becomes tag 0 (R198, R255). -/
def clearWhole (s : State) (start e va pa : Nat) : State :=
  if start ≤ va / 64 * 64 ∧ va / 64 * 64 + 64 ≤ e ∧ isPoisonTag (homeTag s pa) then setTag s (pa / 64) 0 else s

/-- Performs a put's bytes block by block at system scope, up to a fault. -/
def putParts (ctx start : Nat) : List (Nat × List Byte) → Nat → State → PutEnd
  | [], n, s => .ended s n none
  | (va, bs) :: rest, n, s =>
    match touch s none ctx permWrite va 0 with
    | .wait s => .wait s
    | .fault code _ => .ended s n (some (code, va))
    | .ok s pa => putParts ctx start rest (n + bs.length) (clearWhole (homePuts s pa bs) start (va + bs.length) va pa)

/-- The next message of a put (R464, R474). -/
def takePut (port : Nat) (f : Frame) (s : State) : Arrival :=
  let key := 2 ^ 32 * f.rsrc + f.rtok.toNat
  let p := kvD s.partials key { va := f.raddr }
  let settle (s : State) (p : Partial) : Arrival :=
    if f.rlast then
      let s := { s with partials := kvDel s.partials key }
      .taken (match p.fault with
        | some (code, va) => sendFault s port f code p.bytes va
        | none => sendFrame s port (replyTo s f 5))
    else .taken { s with partials := kvSet s.partials key p }
  if p.fault.isSome then settle s p
  else if badRequest port f then settle s { p with fault := some (0x0A, f.raddr) }
  else if !answersLinks s f.rctx then settle s { p with fault := some (0x17, 0) }
  else match putParts f.rctx p.va (blockParts f.raddr f.data) 0 s with
    | .wait s => .later s
    | .ended s n fault => settle s { p with bytes := p.bytes + n, fault := fault }

/-- PUT_DATA (R464, R474). -/
def execPutData (port : Nat) (frame : Frame) (s : State) : Host.Outcome State Fault Refusal :=
  .next (receive s port 1 frame (takePut port frame))

/-- Bytes read for another device: POISON blocks read as zeros (R51). -/
def readBytes (s : State) (pas : List Nat) : List Byte :=
  pas.map fun pa => if isPoisonTag (homeTag s pa) then 0 else homeByte s pa

/-- A get request (R464, R474). -/
def takeGet (port : Nat) (f : Frame) (s : State) : Arrival :=
  if badRequest port f then .taken (sendFault s port f 0x0A 0 f.raddr)
  else if !answersLinks s f.rctx then .taken (sendFault s port f 0x17 0 0)
  else match agentTouch s none f.rctx permRead 0 f.raddr f.rlen with
    | .wait s => .later s
    | .fault code _ va => .taken (sendFault s port f code (va - f.raddr) va)
    | .ok s pas => .taken (sendSeries s port (replyTo s f 3) (readBytes s pas))

/-- GET_REQUEST (R464, R474). -/
def execGetRequest (port : Nat) (frame : Frame) (s : State) : Host.Outcome State Fault Refusal :=
  .next (receive s port 2 frame (takeGet port frame))

/-- A signal (R464, R474): one atomic on the n64 at its home. -/
def takeSignal (port : Nat) (f : Frame) (s : State) : Arrival :=
  if badRequest port f then .taken (sendFault s port f 0x0A 0 f.raddr)
  else if !answersLinks s f.rctx then .taken (sendFault s port f 0x17 0 0)
  else match touch s none f.rctx permAtomic f.raddr 0 with
    | .wait s => .later s
    | .fault code _ => .taken (sendFault s port f code 0 f.raddr)
    | .ok s pa =>
      if isPoisonTag (homeTag s pa) then .taken (sendFault s port f 0x11 0 f.raddr)
      else
        let v := leNat (f.raux.take 8)
        let new := if f.rop = 1 then (homeNat s pa 8 + v) % 2 ^ 64 else v
        .taken (sendFrame (homePuts s pa (leBytes 8 new)) port (replyTo s f 5))

/-- SIGNAL_MESSAGE (R464, R474). -/
def execSignalMessage (port : Nat) (frame : Frame) (s : State) : Host.Outcome State Fault Refusal :=
  .next (receive s port 4 frame (takeSignal port frame))

/-! ### Responses at the issuer -/

/-- Get data lands in the command's local region (R464, R474). -/
def takeGetData (f : Frame) (s : State) : Arrival :=
  .taken (match tokenCmd s f.rtok with
    | none => s
    | some (k, c) =>
      match c.op with
      | .remote j =>
        if j.kind ≠ 1 then s
        else
          let s := noteWrites s (scratchPut s c.crew (j.lo + c.acked) f.data) k
          let c := { kvD s.cmds k c with acked := c.acked + f.data.length }
          if f.rlast then remoteEnds s k c none else { s with cmds := kvSet s.cmds k c }
      | _ => s)

/-- GET_DATA (R474). -/
def execGetData (port : Nat) (frame : Frame) (s : State) : Host.Outcome State Fault Refusal :=
  .next (receive s port 3 frame (takeGetData frame))

/-- PERFORMED_ACKNOWLEDGEMENT (R474). -/
def execPerformedAcknowledgement (port : Nat) (frame : Frame) (s : State) : Host.Outcome State Fault Refusal :=
  .next (receive s port 5 frame fun s => .taken (match tokenCmd s frame.rtok with
    | none => s
    | some (k, c) => match c.op with
      | .remote j => if j.kind = 1 then s else remoteEnds s k c none
      | _ => s))

/-- FAULT_RESPONSE (R261, R474): trap code 0x17 says that the target has no such context. -/
def execFaultResponse (port : Nat) (frame : Frame) (s : State) : Host.Outcome State Fault Refusal :=
  .next (receive s port 6 frame fun s => .taken (match tokenCmd s frame.rtok with
    | none => s
    | some (k, c) =>
      let code := leNat (frame.raux.take 1)
      let bytes := leNat ((frame.raux.drop 4).take 4)
      let va := leNat ((frame.raux.drop 8).take 8)
      remoteEnds s k c (some (if code = 0x17 then linkFail 3 frame.rsrc else { code := code, va := va, blocks := bytes / 64 }))))

/-- The elements of a segment. -/
def wordsOf (bs : List Byte) : List W32 :=
  (List.range (bs.length / 4)).map fun k => BitVec.ofNat 32 (leNat ((bs.drop (4 * k)).take 4))

/-- COLLECTIVE_SEGMENT (R464, R476). -/
def execCollectiveSegment (port : Nat) (frame : Frame) (s : State) : Host.Outcome State Fault Refusal :=
  .next (receive s port 7 frame fun s =>
    .taken (
      if badRequest port frame then sendFault s port frame 0x0A 0 0
      else if !answersLinks s frame.rctx then sendFault s port frame 0x17 0 0
      else match (collMembers s frame.rctx frame.rset).findIdx? (· == frame.rsrc) with
        | none => s
        | some rank =>
          let word (k : Nat) : Nat := leNat ((frame.raux.drop (4 * k)).take 4)
          let co := findColl s frame.rctx frame.rset (word 0)
          let co := { co with heads := kvSet co.heads rank (frame.rop, word 2) }
          let co := Collective.put co rank (word 1) (wordsOf frame.data)
          settleColl (putColl s co) co))

/-! ### The host's accesses (R469) -/

/-- The PAs of the bytes that a host access names. -/
def hostTouch (s : State) (f : Frame) (perm : Nat) : AgentTouch :=
  if f.rphys then
    match (List.range f.rlen).find? fun k => !validPa (f.raddr + k) with
    | some k => .fault 0x09 0 (f.raddr + k)
    | none => .ok s ((List.range f.rlen).map fun k => f.raddr + k)
  else if (getCtx s f.rctx).st = .free ∨ (getCtx s f.rctx).st = .dead then .fault 0x09 0 f.raddr
  else agentTouch s none f.rctx perm 0 f.raddr f.rlen

/-- The next message of a host write. -/
def takeHostWrite (port : Nat) (f : Frame) (s : State) : Arrival :=
  let key := 2 ^ 32 * f.rsrc + f.rtok.toNat
  let p := kvD s.partials key { va := f.raddr }
  let settle (s : State) (p : Partial) : Arrival :=
    if f.rlast then
      let s := { s with partials := kvDel s.partials key }
      .taken (match p.fault with
        | some (code, va) => sendFault s port f code p.bytes va
        | none => sendFrame s port (replyTo s f 5))
    else .taken { s with partials := kvSet s.partials key p }
  if p.fault.isSome then settle s p
  else if badRequest port f then settle s { p with fault := some (0x0A, f.raddr) }
  else match hostTouch s f permWrite with
    | .wait s => .later s
    | .fault code _ va => settle s { p with fault := some (code, va) }
    | .ok s pas =>
      let s := putBytes s pas f.data
      let s := (pas.zipIdx).foldl (fun s (e : Nat × Nat) =>
        clearWhole s p.va (f.raddr + f.data.length) (f.raddr + e.2) e.1) s
      settle s { p with bytes := p.bytes + f.data.length }

/-- HOST_WRITE (R464, R469). -/
def execHostWrite (port : Nat) (frame : Frame) (s : State) : Host.Outcome State Fault Refusal :=
  .next (receive s port 8 frame (takeHostWrite port frame))

/-- HOST_READ (R464, R469). -/
def execHostRead (port : Nat) (frame : Frame) (s : State) : Host.Outcome State Fault Refusal :=
  .next (receive s port 9 frame fun s =>
    if badRequest port frame then .taken (sendFault s port frame 0x0A 0 frame.raddr)
    else match hostTouch s frame permRead with
      | .wait s => .later s
      | .fault code _ va => .taken (sendFault s port frame code 0 va)
      | .ok s pas =>
        match pas.findIdx? fun pa => isPoisonTag (homeTag s pa) with
        | some k => .taken (sendFault s port frame 0x11 0 (frame.raddr + k))
        | none => .taken (sendSeries s port (replyTo s frame 10) (pas.map fun pa => homeByte s pa)))

/-- COLLSET (R471, R476). -/
def execCollset (tok : W32) (ctx set : Nat) (ids : List Nat) (s : State) : Host.Outcome State Fault Refusal :=
  .next (hostOp s (1 + (2 * ids.length + 63) / 64) (some (18, tok)) fun s =>
    let st := (getCtx s ctx).st
    if 64 ≤ ctx then answer s 18 2 7 tok []
    else if 16 ≤ set ∨ ids.isEmpty ∨ 64 < ids.length ∨ ids.any fun d => decide (4096 ≤ d) then
      answer s 18 2 (Config.refusalReason 18 % 256) tok []
    else if st = .free ∨ st = .dead then answer s 18 1 0 tok []
    else answer { s with collSets := kvSet s.collSets (16 * ctx + set) ids } 18 0 0 tok [])

end Sys2Proof.Machine
end

