-- ==== Sys2Proof/Machine/Views.lean ====
section
/-! DEFINITION. View launches: tiles and camera rays (R326-R329), the visibility buffer (R330), shade items and their emission
(R331, R332), and stopping (R333). -/

namespace Sys2Proof.Machine

/-! ### Tiles and samples (R327) -/

def View.width (v : View) : Nat := recField v.record 4 2
def View.height (v : View) : Nat := recField v.record 6 2
def View.spp (v : View) : Nat := recField v.record 2 1 % 32
def View.tw (v : View) : Nat := (v.width + 15) / 16
def View.th (v : View) : Nat := (v.height + 15) / 16
def View.flag (v : View) (k : Nat) : Bool := (recField v.record 3 1).testBit k
def View.unit (v : View) (u : Nat) : ViewUnit := kvD v.units u {}
def View.setUnit (v : View) (u : Nat) (x : ViewUnit) : View := { v with units := kvSet v.units u x }

/-- Bits of an even place of a Morton code. -/
def mortonPart (c lo : Nat) : Nat := (List.range 10).foldl (fun n k => n + bitsAt c (2 * k + lo) 1 * 2 ^ k) 0

/-- The k-th tile. -/
def View.tile (v : View) (k : Nat) : Nat × Nat :=
  if v.flag 1 then
    let m := bitLen (max v.tw v.th - 1)
    (((List.range (4 ^ m)).map fun c => (mortonPart c 0, mortonPart c 1)).filter fun t =>
      decide (t.1 < v.tw ∧ t.2 < v.th)).getD k (0, 0)
  else (k % v.tw, k / v.tw)

/-- How many tiles a unit has. -/
def View.tilesOf (v : View) (u : Nat) : Nat := (v.tw * v.th + 3 - u) / 4

/-- The pixels of a unit's n-th tile that exist, row-major. -/
def View.pixels (v : View) (u n : Nat) : List (Nat × Nat) :=
  let t := v.tile (4 * n + u)
  ((List.range 256).map fun p => (16 * t.1 + p % 16, 16 * t.2 + p / 16)).filter fun p =>
    decide (p.1 < v.width ∧ p.2 < v.height)

/-- The k-th sample of a unit's n-th tile: x, y, s. -/
def View.sample (v : View) (u n k : Nat) : Option (Nat × Nat × Nat) :=
  ((v.pixels u n)[k / v.spp]?).map fun p => (p.1, p.2, k % v.spp)

/-- A sample's number within its tile (R329). -/
def View.number (v : View) (p : Nat × Nat × Nat) : Nat := (p.2.1 % 16 * 16 + p.1 % 16) * v.spp + p.2.2

/-! ### Camera rays (R328) -/

/-- sin (pi t) of a rational, in fixed point. -/
def fxSinRat (t : Rat) : Int :=
  let n := t.floor
  let r := fxSinPi n ((t - n) * ((2 ^ fxP : Nat) : Rat)).floor
  if r.1 then -r.2 else r.2

/-- A sum of fixed-point factors, rounded to the multiples of 2^-280 among which every tie of binary32 lies. -/
def snapRat (x : Rat) : Rat := mkRat (rneRat (x * ((2 ^ 280 : Nat) : Rat))) (2 ^ 280)

/-- The direction of a sample, each component rounded once. -/
def View.direction (v : View) (p : Nat × Nat × Nat) : List Nat :=
  let pat (k : Nat) : Rat := mkRat (2 * recField v.record (96 + 2 * p.2.2 + k) 1 + 1) 512
  let w : Rat := v.width
  let h : Rat := v.height
  let x : Rat := (p.1 : Rat) + pat 0
  let y : Rat := (p.2.1 : Rat) + pat 1
  let vec (lo c : Nat) : Rat := finiteRat (recField v.record (lo + 4 * c) 4)
  (List.range 3).map fun c =>
    let f := vec 20 c
    let r := vec 32 c
    let u := vec 44 c
    roundRat fmt32 (
      if v.flag 0 then
        let phi := 2 * x / w - 1
        let th := 1 / 2 - y / h
        let fx (t : Rat) : Rat := mkRat (fxSinRat t) (2 ^ fxP)
        snapRat (fx (th + 1 / 2) * fx phi * r + fx th * u + fx (th + 1 / 2) * fx (phi + 1 / 2) * f)
      else f + (2 * x / w - 1) * r + (1 - 2 * y / h) * u)

/-- The nine words of a camera ray: ORG, DIR, TMIN, TMAX, CONE. -/
def View.rayBlock (v : View) (p : Nat × Nat × Nat) : List Nat :=
  (List.range 3).map (fun c => recField v.record (8 + 4 * c) 4) ++ v.direction p ++
    [recField v.record 56 4, recField v.record 60 4, recField v.record 68 4]

/-! ### Stopping (R333) -/

def setView (s : State) (k : Nat) (v : View) : State := { s with views := kvSet s.views k v }

/-- A stopped view is gone once its rays have completed. -/
def settleView (s : State) (k : Nat) : State :=
  match kvGet s.views k with
  | some v => if v.stopped && v.rays.isEmpty then { s with views := kvDel s.views k } else s
  | none => s

/-- A fault on the view's own work stops it: the record of kind 3, and the queue. -/
def stopView (s : State) (k : Nat) (v : View) (unit code va : Nat) : State :=
  if v.stopped then s
  else
    let s := setView s k { v with stopped := true }
    let s := postAgent s v.ctx 3 code va v.emitted unit
    settleView (faultStarted s v.queue (v.index, .view k) 5 0xFF v.tag) k

/-! ### The visibility buffer (R330) -/

/-- What an attempt of a view's work comes to. -/
inductive ViewTry where
  | ok (s : State)
  | wait (s : State)
  deriving DecidableEq, Repr

def ViewTry.state : ViewTry → State
  | .ok s => s
  | .wait s => s

/-- Writes a sample's entry: hit words t, PRIM, INST, UV. -/
def putVis (s : State) (k : Nat) (v : View) (u n : Nat) (p : Nat × Nat × Nat) (ws : List W32) : ViewTry :=
  if v.stopped then .ok s
  else
    let va := recField v.record 72 8 + 16 * ((p.2.1 * v.width + p.1) * v.spp + p.2.2)
    match agentTouch s none v.ctx permWrite 0 va 16 with
    | .wait s => .wait s
    | .fault code _ a => .ok (stopView s k v u code a)
    | .ok s pas =>
      let w (i : Nat) : List Byte := leBytes 4 (ws.getD i 0).toNat
      let x := v.unit u
      let tile := kvSet (kvD x.written n []) (v.number p) ws
      .ok (setView (putBytes s pas (w 1 ++ w 2 ++ w 0 ++ w 3)) k (v.setUnit u { x with written := kvSet x.written n tile }))

/-! ### Sending rays (R329) -/

/-- The next core of a unit with a free pool id, from its turn on. -/
def viewDraw (s : State) (ctx u : Nat) : Option (Nat × Nat) :=
  let turn := kvD s.viewTurn u 0
  (List.range 48).findSome? fun k =>
    let c := 48 * u + (turn + k) % 48
    (freePoolId s ctx c).map fun id => (c, id)

/-- The unit has sent the sample it stood at. -/
def View.sent (v : View) (u : Nat) : View :=
  let x := v.unit u
  if x.sample + 1 < (v.pixels u x.gen).length * v.spp then v.setUnit u { x with sample := x.sample + 1 }
  else v.setUnit u { x with gen := x.gen + 1, sample := 0 }

/-- A sample that has no ray: its entry is written at once. -/
def noRay (s : State) (k : Nat) (v : View) (u n : Nat) (p : Nat × Nat × Nat) (st : Nat) : State :=
  match putVis s k v u n p (missWords (recField v.record 60 4) 0 st) with
  | .wait s => s
  | .ok s => (match kvGet s.views k with
    | some v => setView s k (v.sent u)
    | none => s)

/-- Sends one camera ray: its record in a drawn pool slot, and its message. -/
def sendViewRay (s : State) (k : Nat) (v : View) (u n : Nat) (p : Nat × Nat × Nat) : State :=
  let b := v.rayBlock p
  let root := recField v.record 64 4
  if degenerate b then noRay s k v u n p 1
  else if poolSize s v.ctx = 0 then noRay s k v u n p 4
  else match viewDraw s v.ctx u with
  | none => s
  | some (core, id) =>
    let stack := nearestStack core
    match lookRoot s v.ctx stack root with
    | .wait s => s
    | .invalid s => noRay s k v u n p 4
    | .valid s =>
      match agentTouch s none v.ctx permWrite 0 (recordVa s v.ctx id) 64 with
      | .wait s => s
      | .fault code _ a => stopView s k v u code a
      | .ok s pas =>
        let bytes := traceRecord b 0 root ++ leBytes 4 (0xFFFC + u + 2 ^ 16 * v.number p)
        let s := takePoolId (putBytes s pas bytes) v.ctx id
        let s := { s with viewTurn := kvSet s.viewTurn u ((core + 1) % 48) }
        let r := newRay v.ctx id stack (bytes.take 60)
        let s := setView s k ({ v with rays := kvSet v.rays r.key (u, n, (v.unit u).sample) }.sent u)
        postMsg (setRay s r) (.go r.key .enter)

/-- A context that lets its view units generate and emit (R346). -/
def viewsRun (s : State) (ctx : Nat) : Bool :=
  match (getCtx s ctx).st with
  | .suspending | .suspended => false
  | _ => true

/-- A view unit sends its next camera ray (R327-R329, R332). -/
def viewRayMove (s : State) (k u : Nat) : State :=
  match kvGet s.views k with
  | none => s
  | some v =>
    let x := v.unit u
    if v.stopped || !viewsRun s v.ctx || decide (v.tilesOf u ≤ x.gen) || (x.hold && x.sample == 0) || decide (4 ≤ u) then s
    else match v.sample u x.gen x.sample with
    | none => s
    | some p => sendViewRay s k v u x.gen p

/-- VIEW_SAMPLE_DELIVERY (R330): the entry is written and the record freed. -/
def execViewSampleDelivery (k : Nat) (s : State) : Host.Outcome State Fault Refusal :=
  .next (match kvGet s.rayMsgs k with
    | some (.result ray o ws) =>
      if tagSlot o < 0xFFFC then s
      else match s.views.find? fun (_, v) => (kvGet v.rays ray).isSome with
      | none => { s with rayMsgs := kvDel s.rayMsgs k }
      | some (vk, v) =>
        match kvGet v.rays ray with
        | none => s
        | some (u, n, i) =>
          let done (s : State) : State :=
            let s := freePool { s with rayMsgs := kvDel s.rayMsgs k } (ray / 2 ^ 28) (ray % 2 ^ 28)
            match kvGet s.views vk with
            | some v => settleContext (settleView (setView s vk { v with rays := kvDel v.rays ray }) vk) v.ctx
            | none => s
          match v.sample u n i with
          | none => done s
          | some p => (match putVis s vk v u n p ws with
            | .ok s => done s
            | .wait s => s)
    | _ => s)

/-! ### Shade items (R331) -/

/-- A sample's key: instance, primitive, ST. -/
def sampleKey (ws : List W32) : Nat × Nat × Nat :=
  let inst := (ws.getD 2 0).toNat
  (inst % 2 ^ 24, (ws.getD 1 0).toNat, bitsAt inst 24 3)

/-- The items of a pixel in key order: item index and payload words. -/
def pixelItems (v : View) (p : Nat × Nat) (hits : List (List W32)) : List (Nat × List W32) :=
  let keys := hits.foldl (fun m ws => if m.contains (sampleKey ws) then m else m ++ [sampleKey ws]) []
  let w (n : Nat) : W32 := BitVec.ofNat 32 n
  keys.zipIdx.map fun (key, i) =>
    let covered := (List.range hits.length).filter fun k => sampleKey (hits.getD k []) == key
    let rep_ := hits.getD (covered.headD 0) []
    let t := (rep_.getD 0 0).toNat
    let cone := recField v.record 68 4
    let width := blend fmt16 [(1, decodeF fmt16 (cone / 2 ^ 16)), (finiteRat t, decodeF fmt16 (cone % 2 ^ 16))]
    ((p.2 * v.width + p.1) * 16 + i,
     [w (2 ^ 16 * p.2 + p.1),
      w (2 ^ 28 * (keys.length - 1) + 2 ^ 24 * i + 2 ^ 16 * covered.length + (covered.foldl (fun m k => m + 2 ^ k) 0)),
      rep_.getD 2 0, rep_.getD 1 0, rep_.getD 0 0, rep_.getD 3 0, w width, 0])

/-- The items of a unit's n-th tile, none while a sample's entry is still to be written. -/
def View.tileItems (v : View) (u n : Nat) : Option (List (Nat × List W32)) :=
  let done := kvD (v.unit u).written n []
  let pixel (p : Nat × Nat) : Option (List (List W32)) :=
    (List.range v.spp).mapM fun k => kvGet done (v.number (p.1, p.2, k))
  ((v.pixels u n).mapM fun p => (pixel p).map fun hits => pixelItems v p hits).map List.flatten

/-! ### Emission (R332, R371) -/

/-- What appending an item comes to. -/
inductive Append where
  | done (s : State)
  /-- it stands at this state; the queue is full, or a piece is awaited -/
  | wait (s : State) (resv : Option Nat) (full : Bool)
  | fault (s : State) (code va : Nat)
  deriving DecidableEq, Repr

/-- The header of an item queue as an access to bytes [lo, lo + n) of it finds it, with a permission: the PAs of its bytes. A
POISON block is consumed (R51). -/
def headerTouch (s : State) (ctx perm hva lo n : Nat) : AgentTouch :=
  match agentTouch s none ctx perm 0 (hva + lo) n with
  | .ok s pas => if pas.any fun pa => isPoisonTag (homeTag s pa) then .fault 0x11 0 (hva + lo) else .ok s pas
  | t => t

/-- The word of a header. -/
def headerWord (s : State) (pas : List Nat) : Nat := leNat (pas.map fun pa => homeByte s pa)

/-- Steps 2 to 4 of R371 for index i: wait for a free slot, write the payload and then the tag word. -/
def appendAt (s : State) (ctx hva i : Nat) (item : Nat × List W32) : Append :=
  match headerTouch s ctx permRead hva 0 64 with
  | .wait s => .wait s (some i) false
  | .fault code _ va => .fault s code va
  | .ok s hp =>
    let h := queueHeader (hp.map fun pa => homeByte s pa)
    let n := 2 ^ h.logn
    if h.head + n ≤ i then .wait s (some i) true
    else match agentTouch s none ctx permWrite 0 (h.ringva + 32 * (i % n)) 32 with
    | .wait s => .wait s (some i) false
    | .fault code _ va => .fault s code va
    | .ok s pp =>
      let s := putBytes s pp ((item.2.map fun w => leBytes 4 w.toNat).flatten)
      match agentTouch s none ctx permWrite 0 (h.tagva + 8 * (i % n)) 8 with
      | .wait s => .wait s (some i) false
      | .fault code _ va => .fault s code va
      | .ok s tp => .done (putBytes s tp (leBytes 8 (item.1 % 2 ^ 40 + 2 ^ 40 * lapOf i n)))

/-- The append of R371: an index is taken with an atomic on RESV, and the item is written. -/
def appendItem (s : State) (ctx iq : Nat) (resv : Option Nat) (item : Nat × List W32) : Append :=
  match kvGet (getCtx s ctx).iq iq, resv with
  | none, _ => .wait s resv false
  | some hva, some i => appendAt s ctx hva i item
  | some hva, none =>
    match headerTouch s ctx permAtomic hva 24 8 with
    | .wait s => .wait s none false
    | .fault code _ va => .fault s code va
    | .ok s pas =>
      let i := headerWord s pas
      appendAt (putBytes s pas (leBytes 8 (i + 1))) ctx hva i item

/-- Appends a tile's items from where the unit stands. -/
def appendItems (k u : Nat) : List (Nat × List W32) → State → State
  | [], s =>
    (match kvGet s.views k with
    | none => s
    | some v =>
      let x := v.unit u
      setView s k { v.setUnit u { x with emit := x.emit + 1, items := 0, hold := false, written := kvDel x.written x.emit }
                    with emitted := v.emitted + 1 })
  | it :: rest, s =>
    match kvGet s.views k with
    | none => s
    | some v =>
      let x := v.unit u
      match appendItem s v.ctx (recField v.record 80 4) x.resv it with
      | .fault s code va => stopView s k v u code va
      | .wait s resv full => setView s k (v.setUnit u { x with resv := resv, hold := full })
      | .done s => appendItems k u rest (setView s k (v.setUnit u { x with resv := none, items := x.items + 1, hold := false }))

/-- TILE_EMISSION (R332): the entries are at their homes, so the release holds. -/
def execTileEmission (view vunit : Nat) (s : State) : Host.Outcome State Fault Refusal :=
  .next (match kvGet s.views view with
    | none => s
    | some v =>
      let x := v.unit vunit
      if v.stopped || !viewsRun s v.ctx || decide (v.tilesOf vunit ≤ x.emit) || decide (4 ≤ vunit) || decide (x.gen ≤ x.emit) then s
      else match v.tileItems vunit x.emit with
      | none => s
      | some items => appendItems view vunit (items.drop x.items) s)

/-- The close of a view's item queue: CLOSEAT becomes RESV (R332, R371). -/
def closeItems (s : State) (ctx iq : Nat) : AgentTouch :=
  match kvGet (getCtx s ctx).iq iq with
  | none => .ok s []
  | some hva =>
    match headerTouch s ctx permRead hva 24 8 with
    | .ok s rp =>
      match agentTouch s none ctx permWrite 0 (hva + 32) 8 with
      | .ok s cp => .ok (putBytes s cp (leBytes 8 (headerWord s rp))) []
      | t => t
    | t => t

/-- VIEW_COMPLETE (R332, R359). -/
def execViewComplete (view : Nat) (s : State) : Host.Outcome State Fault Refusal :=
  .next (match kvGet s.views view with
    | none => s
    | some v =>
      if v.stopped || !v.rays.isEmpty || !((List.range 4).all fun u => (v.unit u).emit == v.tilesOf u) then s
      else
        let finish (s : State) : State :=
          completeStarted { s with views := kvDel s.views view } v.queue (v.index, .view view) v.tag v.note
        if v.flag 2 then
          match closeItems s v.ctx (recField v.record 80 4) with
          | .wait s => s
          | .fault code _ va => stopView s view v 0 code va
          | .ok s _ => finish s
        else finish s)

end Sys2Proof.Machine
end

