-- ==== Sys2Proof/Machine/Lifecycle.lean ====
section
/-! DEFINITION. The lives of crews: room on cores (R140, R374), which waits first (R353, R360), placement and restore,
items for idle warps, bins (R146-R149), retirement (R152), saves (R352) and the completion of launches (R375). -/

namespace Sys2Proof.Machine

/-! ### Room on a core (R20, R140) -/

/-- A crew that holds its core's resources. -/
def Crew.on (c : Crew) (core : Nat) : Bool := c.core == core && (c.phase == .resident || c.phase == .stopped)

def crewsOn (s : State) (core : Nat) : KV Crew := kvFilter s.crews fun _ c => c.on core
def widthOf (s : State) (c : Crew) : Nat := (getLaunch s c.launch).kernel.width

def sumOf {α : Type} (l : List α) (f : α → Nat) : Nat := l.foldl (fun n a => n + f a) 0

/-- The warps of a core that hold slots: partition, warp slot, lane-registers. -/
def heldSlots (s : State) (core : Nat) : List (Nat × Nat × Nat) :=
  ((crewsOn s core).map fun (_, c) =>
    (c.warps.filter fun e => !e.2.retired).map fun (_, w) => (w.part, w.wslot, w.n * widthOf s c)).flatten

/-- By partition: free lane-registers and free warp slots. -/
abbrev Room := List (Nat × List Nat)

def coreRoom (s : State) (core : Nat) : Room :=
  let held := heldSlots s core
  (List.range 8).map fun p =>
    let mine := held.filter fun e => e.1 == p
    (65536 - sumOf mine fun e => e.2.2, (List.range 24).filter fun k => !mine.any fun e => e.2.1 == k)

/-- Binds one warp to the partition with the most free lane-registers that has a free slot (R140), and there to the lowest free
slot, which the spec leaves open (log entry 128). -/
def bindWarp (room : Room) (need : Nat) : Option ((Nat × Nat) × Room) :=
  match pickMin (fun (a b : (Nat × List Nat) × Nat) => decide (b.1.1 < a.1.1)) (room.zipIdx.filter fun e => !e.1.2.isEmpty) with
  | some ((free, slot :: slots), p) => if need ≤ free then some ((p, slot), room.set p (free - need, slots)) else none
  | _ => none

/-- Binds warps in turn: warp, partition, slot. -/
def bindWarps : List (Nat × Nat) → Room → Option (List (Nat × Nat × Nat))
  | [], _ => some []
  | (w, need) :: rest, room =>
    match bindWarp room need with
    | none => none
    | some ((p, slot), room) => (bindWarps rest room).map fun l => (w, p, slot) :: l

/-- What a crew needs of a core: its warps' lane-registers, and what it holds besides. -/
structure Needs where
  warps : List (Nat × Nat) := []
  scr : Nat := 0
  acc : Nat := 0
  bars : Nat := 0
  ways : Nat := 0
  own : Bool := false
  pair : Bool := false
  bins : Nat := 0
  deriving DecidableEq, Repr

def freshNeeds (k : Kernel) : Needs :=
  { warps := (List.range k.crew).map fun w => (w, k.regs * k.width), scr := k.scr, acc := k.acc }

def savedNeeds (s : State) (c : Crew) : Needs :=
  { warps := (c.warps.filter fun e => !e.2.retired).map fun (k, w) => (k, w.n * widthOf s c)
    scr := c.scr, acc := c.acc, bars := c.bars.length, ways := c.ways.length,
    own := c.holdsArray, pair := c.holdsPair, bins := c.bins.length }

/-- The binding of a crew's warps when everything it needs fits on a core (R140, R218, R285, R353, R392). -/
def fits (s : State) (core : Nat) (n : Needs) : Option (List (Nat × Nat × Nat)) :=
  let cs := crewsOn s core
  let array (k : Nat) : Bool := (arrayHolder s k).isNone
  if (getCore s core).fence = .inService ∧ sumOf cs (fun e => e.2.scr) + n.scr ≤ 1048576 ∧
      sumOf cs (fun e => e.2.acc) + n.acc ≤ 96 ∧ slotsBound s core + n.bars ≤ 64 ∧
      (convertedWays s core).length + n.ways ≤ 8 ∧ (!n.own || array core) ∧
      (!n.pair || (array core && array (core ^^^ 1) && (getCore s (core ^^^ 1)).fence == .inService)) ∧
      (getCore s core).bins.length + n.bins ≤ 64 then
    bindWarps n.warps (coreRoom s core)
  else none

/-! ### Who waits (R353, R360, R374, R384) -/

/-- The members of the pooled window that a crew sits in, by rank (R384). -/
def windowOf (l : Launch) (num : Nat) : Option (List Nat) :=
  l.groups.findSome? fun (_, g) => if g.flags.testBit 2 && g.members.contains num then some g.members else none

/-- A crew, or the crews of a pooled window, that await placement: columns with crew keys (saved) or numbers (unplaced). -/
structure Waiter where
  ctx : Nat
  launch : Nat
  prio : Nat
  saved : Bool
  /-- a phase waits on a saved member (R387, R395) -/
  awaited : Bool
  /-- the order of the save, or of the launch's start -/
  order : Nat
  window : Bool
  members : List (Nat × Nat)
  /-- its place among all that wait -/
  place : List Nat := []
  deriving DecidableEq, Repr

def placesCrews (s : State) (ctx : Nat) : Bool :=
  match (getCtx s ctx).st with
  | .ready | .running | .draining => true
  | _ => false

/-- The next crew of a launch that has never been placed. -/
def nextUnplaced (s : State) (id : Nat) (l : Launch) : Option Nat :=
  (List.range (l.crews - l.nextCrew)).findSome? fun k =>
    if (crewOf s id (l.nextCrew + k)).isNone then some (l.nextCrew + k) else none

/-- The waiter of a launch's unplaced crews. -/
def unplacedWaiter (s : State) (id : Nat) (l : Launch) : Option Waiter :=
  if !placesCrews s l.ctx then none
  else (nextUnplaced s id l).map fun num =>
    let w : Waiter := { ctx := l.ctx, launch := id, prio := l.prio, saved := false, awaited := false,
                        order := l.startOrder, window := false, members := [(0, num)] }
    match windowOf l num with
    | none => w
    | some ms => { w with window := true, members := ms.zipIdx.map fun (m, r) => (r, m) }

/-- The crews of a window that live, by column. -/
def windowCrews (s : State) (launch : Nat) (ms : List Nat) : List (Nat × Nat × Crew) :=
  ms.zipIdx.filterMap fun (m, r) => (crewOf s launch m).bind fun (k, c) => if c.phase = .retired then none else some (r, k, c)

/-- An open phase of a group that waits on a crew: one of its warps has not contributed, or is not counted (R387, R395). -/
def phaseAwaits (c : Crew) (l : Launch) : Bool :=
  let warps (f : Nat → Warp → Bool) : Bool := c.warps.any fun (k, wp) => !wp.retired && f (64 * c.num + k) wp
  l.groups.any fun (_, g) => g.members.contains c.num &&
    ((match g.open_ with
      | some ph => warps fun k wp => (kvGet ph.contribs k).isNone && !(wp.live == 0 && !wp.reformed)
      | none => false) ||
    (g.flags.testBit 0 && (g.bar.arrived.any fun e => e.2 != 0) && warps fun k _ => !g.bar.counted.contains k))

/-- The waiter of a saved crew; that of a window is listed once, by its lowest crew, and when all of it is saved. -/
def savedWaiter (s : State) (key : Nat) (c : Crew) : Option Waiter :=
  let l := getLaunch s c.launch
  if c.phase ≠ .saved ∨ !placesCrews s c.ctx then none
  else
    let w : Waiter := { ctx := c.ctx, launch := c.launch, prio := l.prio, saved := true, awaited := phaseAwaits c l,
                        order := c.savedOrder, window := false, members := [(0, key)] }
    match windowOf l c.num with
    | none => if c.hold = .none then some w else none
    | some ms =>
      let cs := windowCrews s c.launch ms
      if (cs.head?.map fun e => e.2.1) ≠ some key ∨ cs.any fun e => e.2.2.phase != .saved || e.2.2.hold != .none then none
      else some { w with window := true, members := cs.map fun e => (e.1, e.2.1)
                         awaited := cs.any fun e => phaseAwaits e.2.2 l
                         order := cs.foldl (fun m e => min m e.2.2.savedOrder) c.savedOrder }

/-- Puts an element into a list sorted by a strict order, behind its equals. -/
def insertBy {α : Type} (lt : α → α → Bool) (x : α) : List α → List α
  | [] => [x]
  | y :: t => if lt x y then x :: y :: t else y :: insertBy lt x t

def sortBy {α : Type} (lt : α → α → Bool) (l : List α) : List α := l.foldl (fun m x => insertBy lt x m) []

/-- Where a launch stands in the order of R360: highest priority first, then by the order of starts. -/
def launchPlace (s : State) (launch : Nat) : List Nat := let l := getLaunch s launch; [7 - l.prio, l.startOrder]

/-- The order in which a context's saved crews are taken: those that a phase awaits, then by priority, then the oldest save
(R353, R360, R387, R395). -/
def Waiter.savedKey (w : Waiter) : List Nat := [if w.awaited then 0 else 1, 7 - w.prio, w.order]

/-- The saved crews of one context take the places of their launches, in that order (log entry 129). -/
def rankSaved (s : State) (ws : List Waiter) : List Waiter :=
  let taken := sortBy (fun a b => keysLt a.savedKey b.savedKey) ws
  let places := sortBy keysLt (ws.map fun w => launchPlace s w.launch)
  (taken.zip places).zipIdx.map fun ((w, p), i) => { w with place := p ++ [0, i] }

/-- A launch's unplaced crews go at its place, and behind its saved ones (R156). -/
def Waiter.behind (w : Waiter) (s : State) (saved : List Waiter) : Waiter :=
  let own := launchPlace s w.launch ++ [1, 0]
  { w with place := saved.foldl (fun m v =>
      let after := v.place.set 2 1
      if v.launch = w.launch ∧ keysLt m after then after else m) own }

/-- Everything that awaits placement. -/
def waiters (s : State) : List Waiter :=
  let saved := s.crews.filterMap fun (k, c) => savedWaiter s k c
  let ctxs := saved.foldl (fun m w => setIns m w.ctx) []
  let saved := (ctxs.map fun k => rankSaved s (saved.filter fun w => w.ctx == k)).flatten
  saved ++ s.launches.filterMap fun (id, l) => (unplacedWaiter s id l).map fun w => w.behind s saved

/-- The order of placement. -/
def Waiter.ahead (a b : Waiter) : Bool := keysLt a.place b.place

/-- What a member of a waiter needs. -/
def memberNeeds (s : State) (w : Waiter) (m : Nat) : Needs :=
  if w.saved then savedNeeds s (kvD s.crews m {}) else freshNeeds (getLaunch s w.launch).kernel

/-- A core whose slice a context has used up waits for the context that its room went to, while a crew of that one waits at all
(R1, R348; log entry 129). -/
def keptOut (s : State) (ctx core : Nat) : Bool :=
  match (getCore s core).incoming with
  | some (spent, next) => spent == ctx && (waiters s).any fun w => w.ctx == next
  | none => false

/-- Whether a member of a waiter may not go to a core: a crew moved for heat leaves the cores that were hot (R350). -/
def barred (s : State) (w : Waiter) (m core : Nat) : Bool :=
  (w.saved && (kvD s.crews m {}).barred.contains core) || keptOut s w.ctx core

/-- The placement of a waiter at a core, or with a window on the quad of a core: member, core, binding. -/
def roomFor (s : State) (w : Waiter) (core : Nat) : Option (List (Nat × Nat × List (Nat × Nat × Nat))) :=
  if 192 ≤ core then none
  else w.members.mapM fun (col, m) =>
    let k := if w.window then core / 4 * 4 + col else core
    if barred s w m k then none else (fits s k (memberNeeds s w m)).map fun b => (m, k, b)

def placeable (s : State) (w : Waiter) : Bool := (List.range 192).any fun k => (roomFor s w k).isSome

/-- A waiter goes when no other that has room is ahead of it. -/
def mayGo (s : State) (w : Waiter) : Bool := !(waiters s).any fun v => v.ahead w && placeable s v

/-! ### Items for warps -/

/-- A wholly vacant warp takes items of its source into one path at a PC (R149, R151). -/
def fillWarp (s : State) (crew warp : Nat) (pc : W64) : State :=
  match kvGet s.crews crew, getWarp s crew warp with
  | some c, some wp =>
    let w0 := { wp with paths := [(0, { pc := pc })], run := none, lastLow := none, afterSplit := [], readySince := none, reformed := false }
    let (s, w1) := fillLanes c.launch c.core 0 (vacantLanes (widthOf s c) wp) s w0
    let new := w1.live &&& ~~~wp.live
    if new = 0 then s
    else unarrive (setWarp s crew warp (w1.unarrive new)) crew warp new
  | _, _ => s

/-- A wholly vacant warp that is not retired or halted. -/
def Warp.vacant (wp : Warp) : Bool := wp.live == 0 && !wp.retired && wp.halt.isNone

/-- A vacant warp that takes items of its source: REFORM did not leave it so (R149). -/
def Warp.idle (wp : Warp) : Bool := wp.vacant && !wp.reformed

/-- The kernel's entry PC (R149). -/
def Kernel.entryPc (k : Kernel) : W64 := BitVec.ofNat 64 (k.codeVa + k.entry)

/-! ### Crews that are to be saved (R176, R384) -/

/-- The other crews of a crew's window. -/
def mates (s : State) (key : Nat) (c : Crew) : List Crew :=
  match windowOf (getLaunch s c.launch) c.num with
  | none => []
  | some ms => ((windowCrews s c.launch ms).filter fun e => e.2.1 != key).map fun e => e.2.2

/-- Why a crew must be saved: its own reason, or its window's (R384). -/
def saveReason (s : State) (key : Nat) (c : Crew) : Option SaveWhy :=
  c.saveWhy.orElse fun _ => (mates s key c).findSome? fun m => if m.phase = .saved then some .fatal else m.saveWhy

def Crew.halted (c : Crew) : Bool := c.warps.any fun e => e.2.halt.isSome

/-- The crew's warps stop at their run boundaries. -/
def stopping (s : State) (key : Nat) (c : Crew) : Bool :=
  c.phase == .resident && !c.halted &&
  match saveReason s key c with
  | none => false
  | some why => !(why.waits && (c :: mates s key c).any fun m => regionOpen s m)

/-! ### Bins (R146, R147, R174) -/

/-- BIN_AGED (R147). -/
def execBinAged (core bin : Nat) (s : State) : Host.Outcome State Fault Refusal :=
  let co := getCore s core
  .next (match kvGet co.bins bin with
    | none => s
    | some b =>
      let at_ := b.firstAt + (getLaunch s b.launch).kernel.binAge
      if b.drawableAt.isSome ∨ s.now < at_ then s
      else setCore s core { co with bins := kvSet co.bins bin { b with aged := true, drawableAt := some at_ } })

/-- A thread takes a lane (R147, R174). -/
def drawThread (b : Bin) (wp : Warp) (l : Nat) (t : BinThread) : Warp :=
  let regs := t.regs.zipIdx.foldl (fun r (v, k) => r.putMain (b.vb + k) l v) (wp.regs.freshLane l)
  let put (on : Bool) (m : Mask) : Mask := if on then m ||| laneBit l else m
  { wp with
    regs := { regs with fnv := put t.fnv regs.fnv, fdz := put t.fdz regs.fdz, fof := put t.fof regs.fof,
                        fuf := put t.fuf regs.fuf, fnx := put t.fnx regs.fnx }
    live := wp.live ||| laneBit l
    items := kvSet wp.items l t.item
    stackTab := kvSet wp.stackTab l { chip := t.chip, spilled := t.spill.length }
    rays := kvDel wp.rays l
    versions := match t.version with
      | some v => kvSet wp.versions l v
      | none => kvDel wp.versions l }

/-- The warp with a bin's threads in lanes 0 upward, as one path whose spilled entries are still to be stored. -/
def Warp.drawn (wp : Warp) (b : Bin) : Warp :=
  let inBlock (k : Nat) : Bool := decide (b.vb ≤ k / 64) && decide (k / 64 < b.vb + b.n)
  let keep (l : List Nat) : List Nat := l.filter inBlock
  let clean := { wp.regs with v := kvFilter wp.regs.v fun k _ => inBlock k, vempty := keep wp.regs.vempty,
                              vpoison := keep wp.regs.vpoison }
  let wp := b.threads.zipIdx.foldl (fun w (t, l) => drawThread b w l t) { wp with regs := clean }
  let rebuild := (b.threads.zipIdx.map fun (t, l) => t.spill.zipIdx.map fun (v, r) => (l, r, v)).flatten
  { wp with paths := [(0, { pc := b.pc, mask := wp.live, rebuild := rebuild })], run := none, lastLow := none, afterSplit := [],
            readySince := none, reformed := false, spill := b.threads.foldl (fun n t => max n t.spill.length) wp.spill }

/-- The crews of a launch on a core have their phases tested: a bin has left it, so that vacant warps may have become idle (R149,
R387). -/
def testLaunch (s : State) (core launch : Nat) : State :=
  ((crewsOn s core).filter fun (_, c) => c.launch == launch).foldl (fun s (e : Nat × Crew) => testSync s e.1) s

/-- BIN_DRAW (R147, R174). -/
def execBinDraw (dws : Nat) (s : State) : Host.Outcome State Fault Refusal :=
  .next (match warpAt s dws with
    | none => s
    | some r =>
      match kvGet s.crews r.crew, getWarp s r.crew r.warp with
      | some c, some wp =>
        if !wp.vacant ∨ c.phase ≠ .resident ∨ stopping s r.crew c then s
        else match drawBin s c wp with
        | none => s
        | some (k, b) =>
          let co := getCore s c.core
          let s := setCore s c.core { co with bins := kvDel co.bins k }
          let wp := wp.drawn b
          let s := unarrive (setWarp s r.crew r.warp (wp.unarrive wp.live)) r.crew r.warp wp.live
          testLaunch (settleFilings s c.core) c.core c.launch
      | _, _ => s)

/-- Where an idle warp takes items: its REFILL, or none before it has executed one (R149). -/
def idleSite (r : IssueRef) (c : Crew) (wp : Warp) (k : Kernel) : Site :=
  ⟨r, c, wp, {}, { pc := wp.refillPc.getD k.entryPc }, k, 0⟩

/-- The REFILL of an idle warp traps (R149, R173). No lane is live to enter a handler: the trap is fatal, as without a trap entry
(R447; log entry 130). -/
def idleTrap (s : State) (x : Site) (t : TrapInfo) : State :=
  let record := trapRecord s x { t with tpc := x.tpc } 4
  let s := setWarp s x.ref.crew x.ref.warp { x.wp with record := record }
  faultContext (postRecord (askSave s x.ref.crew .fatal) x.cr.ctx (fatalRecord record)) x.cr.ctx

/-- The REFILL of an idle warp, once its source gives items. -/
def idleRefill (s : State) (x : Site) : State :=
  match refillTrap x with
  | none => fillWarp s x.ref.crew x.ref.warp (match x.wp.refillPc with | some pc => pc + 16 | none => x.k.entryPc)
  | some t => match nextItem s x.cr.launch with
    | (_, some _) => idleTrap s x t
    | (s, none) => s

/-- IDLE_WARP_REFILL (R149): with no drawable bin, items of the source go to the idle warp's refill point. -/
def execIdleWarpRefill (dws : Nat) (s : State) : Host.Outcome State Fault Refusal :=
  .next (match warpAt s dws with
    | none => s
    | some r =>
      match kvGet s.crews r.crew, getWarp s r.crew r.warp with
      | some c, some wp =>
        if !wp.idle ∨ c.phase ≠ .resident ∨ stopping s r.crew c ∨ (drawBin s c wp).isSome then s
        else idleRefill s (idleSite r c wp (getLaunch s c.launch).kernel)
      | _, _ => s)

/-! ### Retirement (R152) -/

/-- The record of a command fault that its warp never received (R262, R449 kind 4). -/
def lostFault (s : State) (crew warp cls : Nat) (f : CmdFault) : State :=
  let c := kvD s.crews crew {}
  postRecord s c.ctx ({ code := f.code, kind := 4, va := f.va, tx := BitVec.ofNat 32 (f.tx cls), flg := 1, core := c.core,
                        ctx := c.ctx, warp := warp, crew := c.num, launch := c.launch,
                        clk := s.now - (getCore s c.core).clkBase } : RecordFields).words

/-- A core without the CSPLITs of a crew. -/
def dropSplits (s : State) (core crew : Nat) : State :=
  let co := getCore s core
  setCore s core { co with splits := co.splits.filter fun q => q.crew != crew }

/-- A crew whose warps have all retired, whose store queues are empty and whose commands are done retires: it releases at device
scope and gives back what it held. -/
def retireCrew (s : State) (crew : Nat) : State :=
  match kvGet s.crews crew with
  | none => s
  | some c =>
    if (c.phase ≠ .resident ∧ c.phase ≠ .stopped) ∨ !c.warps.all (fun e => e.2.retired && e.2.storeQ.isEmpty) ∨
        s.cmds.any (fun (_, m) => m.crew == crew) then s
    else
      let s := dropSplits (releaseStep s c.core 3) c.core crew
      let c := { c with phase := .retired, scratch := [], scrPoison := [], ways := [], tiles := [], tilePoison := [], bars := [],
                        holdsArray := false, holdsPair := false, saveWhy := none, ydl := none, npreg := none }
      testSync { s with crews := kvSet s.crews crew c } crew

/-- Whether a warp meets the conditions of R152. -/
def mayRetire (s : State) (c : Crew) (wp : Warp) : Bool :=
  wp.vacant && sourceDrained s (getLaunch s c.launch) &&
  !(getCore s c.core).bins.any (fun (_, b) => b.launch == c.launch)

/-- A warp retires: its slot and registers are free, and its undelivered faults are posted. -/
def retireWarp (s : State) (crew warp : Nat) : State :=
  match kvGet s.crews crew, getWarp s crew warp with
  | some c, some wp =>
    if !mayRetire s c wp then s
    else
      let s := wp.eng.foldl (fun s (cls, e) => e.faults.foldl (fun s f => lostFault s crew warp cls f) s) s
      let eng := kvMap wp.eng fun _ (e : EngClass) => { e with faults := [] }
      let s := setWarp s crew warp { wp with retired := true, eng := eng, rays := [], loads := [], grow := none, reformed := false }
      retireCrew (testSync s crew) crew
  | _, _ => s

/-- WARP_RETIRE (R152). -/
def execWarpRetire (dws : Nat) (s : State) : Host.Outcome State Fault Refusal :=
  .next (match warpAt s dws with
    | none => s
    | some r =>
      let c := kvD s.crews r.crew {}
      match getWarp s r.crew r.warp with
      | some wp =>
        if c.phase = .resident ∧ wp.vacant = true then retireWarp (touchSource s (getLaunch s c.launch)) r.crew r.warp else s
      | none => s)

/-- The warp whose store queue a device warp slot serves: a retired one that has entries left goes first (R152; log entry 132). -/
def queueWarpAt (s : State) (dws : Nat) : Option IssueRef :=
  (s.crews.findSome? fun (ck, c) =>
    if c.phase = .resident ∨ c.phase = .stopped then
      (c.warps.find? fun (_, w) => w.retired && !w.storeQ.isEmpty && dwsOf c.core w.part w.wslot == dws).map fun (wk, _) =>
        ⟨c.core, ck, wk⟩
    else none).orElse fun _ => warpAt s dws

/-- STORE_QUEUE_LEAVE (R204): the last entry of a crew all of whose warps have retired lets it retire (R152). -/
def execStoreQueueLeave (dws : Nat) (s : State) : Host.Outcome State Fault Refusal :=
  .next (match queueWarpAt s dws with
    | none => s
    | some r => retireCrew (leaveQueue s r) r.crew)

/-- Whether an older command of the same warp and class is still to retire (R259). -/
def olderUnretired (s : State) (k : Nat) (c : Command) : Bool :=
  s.cmds.any fun (n, d) => decide (n < k) && d.crew == c.crew && d.warp == c.warp && d.cls == c.cls

/-- COMMAND_RETIRE (R259, R260, R262): a fault of a retired warp is posted. -/
def execCommandRetire (cmd : Nat) (s : State) : Host.Outcome State Fault Refusal :=
  .next (match kvGet s.cmds cmd with
    | none => s
    | some c =>
      if c.phase ≠ .completed ∨ olderUnretired s cmd c then s
      else
        let s' := { s with cmds := kvDel s.cmds cmd }
        -- the follower's array is free again (R276)
        let s' := match c.pair with
          | some p => (let co := getCore s' p; setCore s' p { co with serving := none })
          | none => s'
        match getWarp s' c.crew c.warp with
        | none => s'
        | some wp =>
          let e := engClass wp c.cls
          let st := e.status ||| c.status ||| (if c.fault.isSome then BitVec.ofNat 8 stFlt else 0) |||
            (if c.cancelled then BitVec.ofNat 8 stCanc else 0)
          let e := { e with count := e.count - 1, status := st, acq := max e.acq c.scope
                            faults := if wp.retired then e.faults else e.faults ++ c.fault.toList }
          let s' := setWarp s' c.crew c.warp { wp with eng := kvSet wp.eng c.cls e }
          let s' := match wp.retired, c.fault with
            | true, some f => lostFault s' c.crew c.warp c.cls f
            | _, _ => s'
          retireCrew s' c.crew)

/-! ### Placement (R151, R367, R374) -/

/-- The core of which a context takes the room that an expired slice gave it. -/
def Core.taken (co : Core) (ctx : Nat) : Core :=
  { co with incoming := match co.incoming with
      | some (spent, next) => if next = ctx then none else some (spent, next)
      | none => none }

/-- A context begins its count on a core that it now receives (R348). -/
def startCount (s : State) (core ctx : Nat) : State :=
  let co := (getCore s core).taken ctx
  let held := (crewsOn s core).any fun (_, c) => c.ctx == ctx
  setCore s core (if held && (kvGet co.sliceSince ctx).isSome then co else { co with sliceSince := kvSet co.sliceSince ctx s.now })

/-- The context of a crew just placed runs (R346). -/
def contextRuns (s : State) (ctx : Nat) : State :=
  let c := getCtx s ctx
  if c.st = .ready then setCtx s ctx { c with st := .running } else s

/-- Places a new crew at a binding: registers, items for each warp in turn, and retirement at once where there are none. -/
def placeNew (s : State) (launch num core : Nat) (b : List (Nat × Nat × Nat)) : State :=
  let l := getLaunch s launch
  let k := l.kernel
  let s := startCount s core l.ctx
  let (id, s) := s.newId
  let args := l.argva + 64
  let regs : Regs := { s := [(0, lowWord args), (1, highWord args)] }
  let warps : KV Warp := b.map fun (w, p, slot) => (w, { part := p, wslot := slot, n := k.regs, regs := regs })
  let c : Crew := { launch := launch, num := num, ctx := l.ctx, phase := .resident, core := core, placedAt := id,
                    warps := warps, scr := k.scr, acc := k.acc }
  let s := contextRuns { s with crews := kvSet s.crews id c } l.ctx
  let s := (List.range k.crew).foldl (fun s w => fillWarp s id w k.entryPc) s
  testSync ((List.range k.crew).foldl (fun s w => retireWarp s id w) s) id

/-- CREW_PLACEMENT (R374, R384): the core with room that holds the fewest crews of the launch, the lowest of equals. -/
def execCrewPlacement (launch : Nat) (s : State) : Host.Outcome State Fault Refusal :=
  .next (match (waiters s).find? fun w => !w.saved && w.launch == launch with
    | none => s
    | some w =>
      if !mayGo s w then s
      else
        let here (core : Nat) : Nat :=
          sumOf (if w.window then (List.range 4).map fun c => core / 4 * 4 + c else [core]) fun k =>
            ((crewsOn s k).filter fun (_, c) => c.launch == launch).length
        let rooms := (List.range 192).filterMap fun k => (roomFor s w k).map fun ps => (here k, ps)
        match pickMin (fun a b => decide (a.1 < b.1)) rooms with
        | none => s
        | some (_, ps) =>
          let s := ps.foldl (fun s (num, core, b) => placeNew s launch num core b) s
          let l := getLaunch s launch
          let s := if (kvGet s.launches launch).isSome then
              setLaunch s launch { l with nextCrew := (nextUnplaced s launch l).getD l.crews } else s
          s)

/-! ### Restore (R303, R353, R389) -/

/-- What re-arming the rays of a warp comes to. -/
structure Rearm where
  s : State
  wp : Warp

/-- Re-arms one lane's ray (R303): the new OTAG, and the hit, or the held candidate, if there is one. -/
def rearmLane (ctx core dws : Nat) (a : Rearm) (l : Nat) (lr : LaneRay) : Rearm :=
  match lr.id with
  | none => a
  | some id =>
    let dead (s : State) : Rearm :=
      { a with s := s, wp := landHit a.wp l lr (match getRay s (rayKey ctx id) with | some r => r.words 4 | none => missWords 0 0 4) }
    match touch a.s (some core) ctx permWrite (recordVa a.s ctx id) (nearestStack core) with
    | .wait s => { a with s := s }
    | .fault _ _ => dead a.s
    | .ok s pa =>
      let s := flushSector s core (pa / 64)
      let old := homeNat s (pa + 60) 4
      let s := homePuts s (pa + 60) (leBytes 4 (old / 2 ^ 16 * 2 ^ 16 + dws))
      let flag := homeNat s (pa + 43) 1
      if flag % 8 ≠ 0 then
        let w (k : Nat) : W32 := BitVec.ofNat 32 (homeNat s (pa + k) 4)
        { a with s := freePool s ctx id, wp := landHit a.wp l lr [w 28, w 36, w 40, w 44] }
      else match getRay s (rayKey ctx id) with
        | some r => { a with s := resendCandidate s r pa }
        | none => { a with s := s }

/-- The results of reductions that completed while the crew was saved (R389). -/
def takeGreds (wp : Warp) : Warp :=
  wp.greds.foldl (fun w g => match g.result with
    | some (v, f) => deliverGred { w with greds := w.greds.filter fun x => x != g } g v f
    | none => w) wp

/-- Restores one warp at its place. -/
def restoreWarp (ctx core : Nat) (a : Rearm) (wp : Warp) (part slot : Nat) : Rearm :=
  let wp := { wp with part := part, wslot := slot, run := none, grow := none, pendingTrap := none, readySince := none }
  let a := wp.rays.foldl (fun a e => rearmLane ctx core (dwsOf core part slot) a e.1 e.2) { a with wp := wp }
  { a with wp := settlePaths (takeGreds a.wp) }

/-- Takes L1 ways for a restored crew's scratch (R218): the highest-numbered unconverted ones. -/
def takeWays (s : State) (core n : Nat) : State × List Nat :=
  let used := convertedWays s core
  let ways := (((List.range 16).reverse.filter fun k => !used.contains k).take n)
  let blks := ((getCore s core).l1.filter fun (_, y) => ways.contains y.way).map (·.1)
  (blks.foldl (fun s b => flushSector s core b) s, ways)

/-- Puts the bins of an image into empty bins of the core (R147). -/
def placeBins (bins : KV Bin) : List Bin → KV Bin
  | [] => bins
  | b :: rest =>
    match (List.range 64).find? fun k => (kvGet bins k).isNone with
    | none => bins
    | some k => placeBins (kvSet bins k b) rest

/-- Restores a saved crew at a binding (R353). -/
def restoreCrew (s : State) (key core : Nat) (b : List (Nat × Nat × Nat)) : State :=
  match kvGet s.crews key with
  | none => s
  | some c =>
    let s1 := acquireStep (startCount s core c.ctx) core 3
    let step (a : Rearm × KV Warp) (e : Nat × Warp) : Rearm × KV Warp :=
      match b.find? fun x => x.1 == e.1 with
      | none => (a.1, kvSet a.2 e.1 e.2)
      | some (_, p, slot) => (let r := restoreWarp c.ctx core a.1 e.2 p slot; (r, kvSet a.2 e.1 r.wp))
    let (a, warps) := c.warps.foldl step ({ s := s1, wp := {} }, [])
    let (s2, ways) := takeWays a.s core c.ways.length
    let (id, s2) := s2.newId
    let co := getCore s2 core
    let s2 := setCore s2 core { co with bins := placeBins co.bins c.bins }
    let c := { c with warps := warps, ways := ways, bins := [], core := core, phase := .resident, placedAt := id, saveWhy := none,
                      ydl := none, ydlExpired := false, npreg := none, hold := .none, barred := [], imageAt := 0, imageSize := 0 }
    testSync (settleFilings (contextRuns { s2 with crews := kvSet s2.crews key c } c.ctx) core) key

/-- Whether every record that a restore re-arms can be reached now; recalls are begun for those that cannot. -/
def touchRecords (s : State) (key core : Nat) : State × Bool :=
  let c := kvD s.crews key {}
  let ids := (c.warps.map fun (_, wp) => wp.rays.filterMap fun e => e.2.id).flatten
  ids.foldl (fun (s, w) id => match touch s (some core) c.ctx permWrite (recordVa s c.ctx id) (nearestStack core) with
    | .ok s _ => (s, w)
    | .fault _ _ => (s, w)
    | .wait s => (s, true)) (s, false)

/-- CREW_RESTORE (R353, R384): the crew, with its window's others, at a core that has room. -/
def execCrewRestore (crew core : Nat) (s : State) : Host.Outcome State Fault Refusal :=
  .next (match (waiters s).find? fun w => w.saved && w.members.any fun m => m.2 == crew with
    | none => s
    | some w =>
      if !mayGo s w then s
      else match roomFor s w core with
      | none => s
      | some ps =>
        let (s, waits) := ps.foldl (fun (a : State × Bool) p => let r := touchRecords a.1 p.1 p.2.1; (r.1, a.2 || r.2)) (s, false)
        if waits then s else ps.foldl (fun s p => restoreCrew s p.1 p.2.1 p.2.2) s)

/-! ### Saves (R352, R384) -/

/-- A STALLED warp is evicted, its files kept (R141). -/
def Warp.evicted (wp : Warp) : Warp :=
  match wp.run with
  | none => wp
  | some r => { wp with run := none, readySince := none, resumeAt := some r.path
                        paths := kvMod wp.paths r.path fun p => { p with st := .ready, resume := some r.files } }

/-- A request of a warp at the range unit whose status has not come. -/
def rangePending (s : State) (crew : Nat) : Bool :=
  s.rangeReqs.any fun r => match r.asker with | .warp c _ _ => c == crew | _ => false

/-- A command in flight that a crew's save waits for: its own, and an MMAP that names it as its follower (R265, R276). -/
def commandHolds (s : State) (key : Nat) : Bool :=
  s.cmds.any fun (_, m) => m.phase != .completed && (m.crew == key || match m.op with
    | .matrix j => j.follower == some key
    | _ => false)

/-- A CSPLIT, an access to a treelet table or a SYSRD of a crew that has not answered yet. -/
def answerPending (s : State) (core key : Nat) : Bool :=
  let co := getCore s core
  (co.splits.any fun q => q.crew == key) || (co.tableOps.any fun q => q.crew == key) || co.sysReads.any fun q => q.crew == key

/-- Everything that a save waits for has happened (R73, R265). -/
def saveReady (s : State) (key : Nat) (c : Crew) : Bool :=
  stopping s key c && !rangePending s key && !answerPending s c.core key &&
  (c.warps.all fun (_, wp) => (match wp.run with | none => true | some r => r.stalled.isSome) &&
    wp.storeQ.isEmpty && wp.loads.isEmpty) &&
  !commandHolds s key

/-- The size of a crew's place in the save area (R352). -/
def imageBytes (s : State) (c : Crew) : Nat :=
  alignUp (8192 + (sumOf c.warps fun (_, w) => 2048 + w.n * widthOf s c * 33 / 8) + c.scr + 32768 * c.ways.length +
    16384 * c.acc) 4096

/-- The first free extent of a size, past the images in order. -/
def firstExtent (size limit : Nat) : List (Nat × Nat) → Nat → Option Nat
  | [], pos => if pos + size ≤ limit then some pos else none
  | (at_, n) :: rest, pos => if pos + size ≤ at_ then some pos else firstExtent size limit rest (max pos (at_ + n))

/-- Where a crew's image goes in its context's save area. -/
def imagePlace (s : State) (ctx size : Nat) : Option Nat :=
  let used := (s.crews.filter fun (_, c) => c.ctx == ctx && c.phase == .saved).foldl
    (fun (m : KV Nat) (_, c) => kvSet m c.imageAt c.imageSize) []
  firstExtent size (descField s ctx 80 8) used 0

/-- The crew with its warps stopped: STALLED ones evicted, pending GROWs withdrawn (R154). -/
def Crew.atRest (c : Crew) : Crew :=
  { c with warps := kvMap c.warps fun _ (wp : Warp) => { wp.evicted with grow := none }, npreg := none, ydl := none }

/-- The bins that leave with the last crew of a launch on a core (R147). -/
def binsOf (s : State) (key : Nat) (c : Crew) : List (Nat × Bin) :=
  if (crewsOn s c.core).any fun (k, d) => k != key && d.launch == c.launch then []
  else (getCore s c.core).bins.filter fun (_, b) => b.launch == c.launch

/-- A save that finds no room: the crew stays resident and stopped, and the context is FAULTED (R352). -/
def saveStops (s : State) (key : Nat) (c : Crew) : State :=
  let s := { s with crews := kvSet s.crews key { c.atRest with phase := .stopped, ydlExpired := false } }
  let s := faultContext s c.ctx
  postRecord s c.ctx ({ kind := 6, va := descField s c.ctx 88 8, flg := 1, core := c.core, ctx := c.ctx, crew := c.num,
                        launch := c.launch, clk := s.now - (getCore s c.core).clkBase } : RecordFields).words

/-- The VAs of the 4 KiB pages of an image. -/
def imagePages (va size : Nat) : List Nat := (List.range (size / 4096)).map fun k => va + 4096 * k

/-- A page of an image as it lies in memory: the device lays images out in a form of its own (R352). -/
def imagePage (s : State) (page : Nat) : List Byte :=
  (List.range 4096).map fun k => (Config.freeWord (2 ^ 64 * (s.tick + 1) + 4096 * page + k)).setWidth 8

/-- The bytes of an image are written at their homes (R352 step 4). -/
def writeImage (s : State) (pas : List Nat) : State := pas.zipIdx.foldl (fun s (pa, k) => homePuts s pa (imagePage s k)) s

/-- The crew leaves its core, with the bins that go with it. -/
def imageCrew (s : State) (key : Nat) (c : Crew) (at_ size : Nat) : State :=
  let (id, s) := s.newId
  let bins := binsOf s key c
  let co := getCore s c.core
  let s := setCore s c.core { co with bins := kvFilter co.bins fun k _ => !bins.any fun e => e.1 == k }
  let x := getCtx s c.ctx
  let s := if c.ydlExpired then setCtx s c.ctx { x with cforced := x.cforced + 1 } else s
  settleFilings { s with crews := kvSet s.crews key { c.atRest with
      phase := .saved, savedOrder := id, imageAt := at_, imageSize := size, bins := bins.map (·.2)
      saveWhy := some (c.saveWhy.getD .fatal), ydlExpired := false, mxQueue := [] } } c.core

/-- The save of a crew that has come to rest (R352). Where a piece of its place must be recalled or placed first, the save waits;
where an access to it faults, there is no room (log entry 133). -/
def saveCrew (s : State) (key : Nat) (c : Crew) : State :=
  let size := imageBytes s c
  match imagePlace s c.ctx size with
  | none => saveStops (releaseStep s c.core 3) key c
  | some at_ =>
    match touchSpan s none c.ctx permWrite (nearestStack c.core) (imagePages (descField s c.ctx 88 8 + at_) size) with
    | (.wait s, _) => s
    | (.fault _ _, _) => saveStops (releaseStep s c.core 3) key c
    | (.ok s _, pas) => imageCrew (writeImage (releaseStep s c.core 3) pas) key c at_ size

/-- CREW_SAVE (R237, R352). -/
def execCrewSave (crew : Nat) (s : State) : Host.Outcome State Fault Refusal :=
  .next (match kvGet s.crews crew with
    | none => s
    | some c => if saveReady s crew c then settleContext (saveCrew s crew c) c.ctx else s)

/-! ### Completion of a launch (R152, R375) -/

/-- Every condition of R375. -/
def launchOver (s : State) (id : Nat) (l : Launch) : Bool :=
  let cs := kvFilter s.crews fun _ c => c.launch == id
  sourceDrained s l && decide (cs.length = l.crews) && (cs.all fun (_, c) => c.phase == .retired) &&
  (l.outS ++ l.outP ++ l.outG).all fun e => e.2 == 0

/-- LAUNCH_COMPLETE (R359, R375). -/
def execLaunchComplete (launch : Nat) (s : State) : Host.Outcome State Fault Refusal :=
  .next (match kvGet s.launches launch with
    | none => s
    | some l =>
      let s := touchSource s l
      if !launchOver s launch l then s
      else
        let s := { s with launches := kvDel s.launches launch, crews := kvFilter s.crews fun _ c => c.launch != launch }
        let s := match (getQueue s l.queue).started.find? fun e => e.2 == .launch launch with
          | some e => completeStarted s l.queue e l.tag l.note
          | none => s
        settleContext s l.ctx)

end Sys2Proof.Machine
end

