-- ==== Sys2Proof/Machine/Queues.lean ====
section
/-! DEFINITION. Queues as the host moves them (R354-R357, R369), the service of the command processors (R359, R360), and
every queue command but LAUNCH (R358, R359, R361). -/

namespace Sys2Proof.Machine

/-! ### Operations of the host -/

/-- The fields of a queue descriptor (R354): HEADVA, RINGVA, QF, QCTX, and the fields that must hold what the table says. -/
def queueDescOk (b : List Byte) : Bool :=
  let qf := recField b 8 4
  recField b 24 8 % 16 == 0 && recField b 16 8 % 4096 == 0 && recField b 12 4 == 0 && decide (qf < 256) &&
  decide (6 ≤ qf / 8 ∧ qf / 8 ≤ 20) && decide (recField b 4 4 < 64) && recField b 0 4 == 1

/-- A queue set up from its descriptor (R354, R355). -/
def queueSetup (b : List Byte) : Queue :=
  { st := .idle, ctx := recField b 4 4, prio := recField b 8 4 % 8, logn := recField b 8 4 / 8 % 32, ringva := recField b 16 8,
    headva := recField b 24 8 }

/-- QSETUP (R354). -/
def qsetupOp (tok : W32) (queue ctx va : Nat) (s : State) : Arrival :=
  let refuse (s : State) (reason : Nat) : Arrival := .taken (answer s 6 2 reason tok [])
  if 4096 ≤ queue then refuse s 6
  else if 64 ≤ ctx then refuse s 7
  else if (getCtx s ctx).st = .free then refuse s 1
  else match agentRead s ctx va 32 with
  | .wait s => .later s
  | .fault _ _ _ => refuse s 1
  | .ok s b =>
    if !queueDescOk b then refuse s 2
    else if recField b 4 4 ≠ ctx then refuse s 3
    else if !ctxLive s ctx then refuse s 4
    else if (getQueue s queue).st ≠ .disabled then refuse s 5
    else .taken (answer (setQueue s queue (queueSetup b)) 6 0 0 tok [])

def execQsetup (tok : W32) (queue ctx va : Nat) (s : State) : Host.Outcome State Fault Refusal :=
  .next (hostTry s 1 (some (6, tok)) (qsetupOp tok queue ctx va))

/-- QDISABLE (R354, R357): a queue's state moves only while its context is READY or RUNNING. -/
def execQdisable (tok : W32) (queue : Nat) (s : State) : Host.Outcome State Fault Refusal :=
  .next (hostOp s 1 (some (7, tok)) fun s =>
    let x := getQueue s queue
    if 4096 ≤ queue then answer s 7 2 6 tok []
    else if x.st = .disabled ∨ !ctxLive s x.ctx then answer s 7 1 0 tok []
    else answer (setQueue s queue { x with st := .disabled, dueFault := none }) 7 0 0 tok [])

/-- QRESUME (R354, R357). -/
def execQresume (tok : W32) (queue : Nat) (skip : Bool) (s : State) : Host.Outcome State Fault Refusal :=
  .next (hostOp s 1 (some (8, tok)) fun s =>
    let x := getQueue s queue
    if 4096 ≤ queue then answer s 8 2 6 tok []
    else if x.st ≠ .faulted ∨ !ctxLive s x.ctx then answer s 8 1 0 tok []
    else
      let past := skip && x.faultHere
      let x := Queue.settled { x with head := if past then x.head + 1 else x.head, faultHere := false }
      let s := setQueue s queue x
      answer (if past then writeStatus s queue else s) 8 0 0 tok [])

/-- DOORBELL (R355, R357, R471). -/
def execDoorbell (queue : Nat) (tail : W32) (s : State) : Host.Outcome State Fault Refusal :=
  .next (hostOp s 1 none fun s =>
    let x := getQueue s queue
    if 4096 ≤ queue ∨ x.st = .disabled then s
    else
      let x := { x with tail := tail }
      setQueue s queue (if ctxLive s x.ctx ∧ (x.st = .idle ∨ x.st = .active) then x.settled else x))

/-- An item-queue number that a launch or a view of the context uses (R369). -/
def iqInUse (s : State) (ctx iq : Nat) : Bool :=
  (s.launches.any fun (_, l) => l.ctx == ctx && l.itemQueue == some iq) ||
  s.views.any fun (_, v) => v.ctx == ctx && recField v.record 80 4 == iq

/-- IQSETUP (R347, R369). -/
def iqsetupOp (tok : W32) (ctx iq va : Nat) (s : State) : Arrival :=
  let refuse (s : State) (reason : Nat) : Arrival := .taken (answer s 9 2 reason tok [])
  if 64 ≤ ctx then refuse s 7
  else if 256 ≤ iq then refuse s 4
  else if iqInUse s ctx iq then refuse s 1
  else if va % 64 ≠ 0 then refuse s 2
  else if (getCtx s ctx).st = .free then refuse s 3
  else match touch s none ctx permRead va 0 with
  | .wait s => .later s
  | .fault _ _ => refuse s 3
  | .ok s _ =>
    match touch s none ctx permWrite va 0 with
    | .wait s => .later s
    | .fault _ _ => refuse s 3
    | .ok s _ =>
      let c := getCtx s ctx
      .taken (answer (setCtx s ctx { c with iq := kvSet c.iq iq va }) 9 0 0 tok [])

def execIqsetup (tok : W32) (ctx iq va : Nat) (s : State) : Host.Outcome State Fault Refusal :=
  .next (hostTry s 1 (some (9, tok)) (iqsetupOp tok ctx iq va))

/-! ### Commands (R358) -/

def cmdKind (c : List Byte) : Nat := recField c 0 1
def cmdTag (c : List Byte) : W32 := BitVec.ofNat 32 (recField c 4 4)
def cmdNote (c : List Byte) : Bool := (recField c 1 1).testBit 1

/-- The spans of bytes 8-63 that a command leaves reserved. -/
def cmdReserved (kind : Nat) : List (Nat × Nat) :=
  match kind with
  | 1 => [(16, 24), (56, 64)]
  | 2 => [(16, 64)]
  | 5 => [(33, 64)]
  | _ => [(25, 64)]

/-- A reserved value in a command (R14, R358). -/
def cmdBad (c : List Byte) : Bool :=
  let k := cmdKind c
  decide (k = 0 ∨ 6 < k) || decide (4 ≤ recField c 1 1) || recField c 2 2 != 0 ||
  ((cmdReserved k).any fun e => !recZero c e.1 e.2) ||
  (decide (k = 3 ∨ k = 4 ∨ k = 6) && decide (1 < recField c 24 1)) ||
  (k == 5 && decide (recField c 32 1 = 0 ∨ 6 < recField c 32 1))

/-- A command that starts only when all earlier ones have completed (R359). -/
def cmdOrd (c : List Byte) : Bool := decide (3 ≤ cmdKind c) || (recField c 1 1).testBit 0

/-! ### The command processors (R359, R360) -/

/-- A queue whose head is to be looked at. -/
def startable (s : State) (x : Queue) : Bool :=
  QueueState.live x.st && ctxLive s x.ctx && !x.heldBack && x.head != x.tail

/-- The VA of the command at head (R355). -/
def Queue.headVa (x : Queue) : Nat := x.ringva + 64 * (x.head.toNat % 2 ^ x.logn)

/-- ORD holds a command back (R359). -/
def Queue.ordBlocked (x : Queue) (c : List Byte) : Bool := cmdOrd c && !x.started.isEmpty

/-- A queue that competes for its processor: its head can be read, or fails to be, and can start by R359. -/
def contends (s : State) (x : Queue) : Bool :=
  startable s x && match translate s none x.ctx permRead x.headVa with
    | .ok pa _ => !x.ordBlocked ((List.range 64).map fun k => homeByte s (pa + k))
    | .place _ => false
    | .recall _ => false
    | .moving => false
    | .locked => false
    | _ => true

/-- How far a queue's turn is among those of its priority. -/
def turnOf (s : State) (q : Nat) (x : Queue) : Nat := (q + 4095 - kvD s.cpTurn (8 * (q % 4) + x.prio) 4095) % 4096

/-- A command processor that is being replaced starts no command (R485). -/
def replacing (s : State) (k : Nat) : Bool := s.service.swap.any fun e => e.2.1 == k

/-- The processor serves this queue now: it is not being replaced, it has not started a command in this cycle, and no other queue
of it goes first. -/
def mayServe (s : State) (q : Nat) (x : Queue) : Bool :=
  !replacing s (q % 4) && kvGet s.cpAt (q % 4) != some s.now &&
  !s.queues.any fun (k, y) => k != q && k % 4 == q % 4 && contends s y &&
    (decide (x.prio < y.prio) || (y.prio == x.prio && decide (turnOf s k y < turnOf s q x)))

/-- What starting a command comes to: it stays in flight, it is done at once, it fails, or it waits for a piece. -/
inductive StartTry where
  | runs (s : State) (k : Started)
  | done (s : State)
  | fails (s : State) (reason sub : Nat)
  | wait (s : State)
  deriving DecidableEq, Repr

/-- Head rises past a command that has started (R355, R356, R360). -/
def markStarted (s : State) (q : Nat) (c : List Byte) (k : Started) : State :=
  let x := getQueue s q
  let y := Queue.settled { x with head := x.head + 1, started := x.started ++ [(x.head.toNat, k)]
                                  pending := if k = .wait then some c else x.pending }
  let s := { s with cpTurn := kvSet s.cpTurn (8 * (q % 4) + x.prio) q, cpAt := kvSet s.cpAt (q % 4) s.now }
  writeStatus (setQueue s q y) q

/-- The TAG of a command that cannot be read. -/
def unreadTag (s : State) : W32 := Config.freeWord s.tick

/-- Serves the head of a queue when it holds a command of a kind (R358-R361). -/
def serveQueue (s : State) (q kind : Nat) (start : State → Queue → List Byte → StartTry) : State :=
  let x := getQueue s q
  if !startable s x || !mayServe s q x then s
  else match agentRead s x.ctx x.headVa 64 with
  | .wait s => s
  | .fault code _ _ =>
    if 2 ^ x.logn < (x.tail - x.head).toNat then faultQueue s q 2 0 (unreadTag s) true
    else faultQueue s q 3 code (unreadTag s) true
  | .ok s c =>
    if 2 ^ x.logn < (x.tail - x.head).toNat then faultQueue s q 2 0 (cmdTag c) true
    else if cmdBad c then faultQueue s q 1 0 (cmdTag c) true
    else if cmdKind c ≠ kind then s
    else if x.ordBlocked c then setQueue s q { x with st := .blocked }
    else match start s x c with
    | .wait s => s
    | .fails s reason sub => faultQueue s q reason sub (cmdTag c) true
    | .runs s k => markStarted s q c k
    | .done s => completeStarted (markStarted s q c .wait) q (x.head.toNat, .wait) (cmdTag c) (cmdNote c)

/-! ### SEMWAIT, SEMSIGNAL, FENCE -/

def semVa (c : List Byte) : Nat := recField c 8 8
def semVal (c : List Byte) : Nat := recField c 16 8
def semMode (c : List Byte) : Nat := recField c 24 1

/-- What reading a SEMWAIT's word comes to. -/
inductive SemRead where
  | holds (s : State)
  | waits (s : State)
  /-- the word has no place yet: it is not read -/
  | later (s : State)
  | fault (code : Nat)
  deriving DecidableEq, Repr

/-- The word at its home against VAL (R358, R359). -/
def semRead (s : State) (ctx : Nat) (c : List Byte) : SemRead :=
  if semVa c % 8 ≠ 0 then .fault 0x08
  else match agentRead s ctx (semVa c) 8 with
  | .wait s => .later s
  | .fault code _ _ => .fault code
  | .ok s b =>
    let v := leNat b
    if (if semMode c = 0 then decide (semVal c ≤ v) else v == semVal c) then .holds s else .waits s

/-- SEMWAIT (R359): the word is read again later while the condition does not hold. -/
def execSemwait (queue : Nat) (s : State) : Host.Outcome State Fault Refusal :=
  .next (serveQueue s queue 3 fun s x c => match semRead s x.ctx c with
    | .holds s => .done s
    | .waits s => .runs s .wait
    | .later s => .wait s
    | .fault code => .fails s 7 code)

/-- SEMWAIT_RECHECK (R359, R361). -/
def execSemwaitRecheck (queue : Nat) (s : State) : Host.Outcome State Fault Refusal :=
  .next (
    let x := getQueue s queue
    match x.pending, x.started.find? fun e => e.2 == .wait with
    | some c, some e => (match semRead s x.ctx c with
      | .holds s => completeStarted s queue e (cmdTag c) (cmdNote c)
      | .waits s => s
      | .later s => s
      | .fault code => faultStarted s queue e 7 code (cmdTag c))
    | _, _ => s)

/-- An access of a command to its word at its home, which does `f` to it. -/
def semWord (perm : Nat) (f : State → Nat → State) (s : State) (x : Queue) (c : List Byte) : StartTry :=
  if semVa c % 8 ≠ 0 then .fails s 7 0x08
  else match touch s none x.ctx perm (semVa c) 0 with
  | .wait s => .wait s
  | .fault code _ => .fails s 7 code
  | .ok s pa => if perm = permAtomic ∧ isPoisonTag (homeTag s pa) then .fails s 7 0x11 else .done (f s pa)

/-- SEMSIGNAL (R359): the processors hold nothing that a release would have to write back. -/
def execSemsignal (queue : Nat) (s : State) : Host.Outcome State Fault Refusal :=
  .next (serveQueue s queue 4 fun s x c => semWord permAtomic (fun s pa =>
    let v := if semMode c = 0 then semVal c else (homeNat s pa 8 + semVal c) % 2 ^ 64
    homePuts s pa (leBytes 8 v)) s x c)

/-- FENCE (R359). -/
def execQueueFence (queue : Nat) (s : State) : Host.Outcome State Fault Refusal :=
  .next (serveQueue s queue 6 fun s x c =>
    if semVa c = 0 then .done s else semWord permWrite (fun s pa => homePuts s pa (leBytes 8 (semVal c))) s x c)

/-! ### RANGEOP and VIEW -/

/-- RANGEOP (R359, R361, R417): the request goes to the range unit. -/
def execRangeop (queue : Nat) (s : State) : Host.Outcome State Fault Refusal :=
  .next (serveQueue s queue 5 fun s x c =>
    let rop := recField c 32 1
    if 5 ≤ rop ∧ !ctxSys s x.ctx then .fails s 6 10
    else
      let (id, s) := s.newId
      let r : RangeReq := { id := id, ctx := x.ctx, core := 192, code := rop, a := recField c 8 8, b := recField c 16 8,
                            c := recField c 24 8, asker := .queue queue (cmdTag c) (cmdNote c), sys := ctxSys s x.ctx }
      .runs { s with rangeReqs := s.rangeReqs ++ [r] } (.range id))

/-- The sub-reason with which a VIEW's record fails at start (R325, R361). -/
def viewStartFault (s : State) (ctx : Nat) (b : List Byte) : Option Nat :=
  let qid := recField b 80 4
  if recField b 0 1 ≠ 4 then some 0x12
  else if recField b 1 1 ≠ 1 then some 0x13
  else if viewReserved b then some 0x14
  else (viewReason b).orElse fun _ =>
    if 255 < qid ∨ (kvGet (getCtx s ctx).iq qid).isNone then some 0x20 else none

/-- VIEW (R326, R359, R361). -/
def execView (queue : Nat) (s : State) : Host.Outcome State Fault Refusal :=
  .next (serveQueue s queue 2 fun s x c =>
    let va := recField c 8 8
    if va % 128 ≠ 0 then .fails s 5 0x11
    else match agentRead s x.ctx va 128 with
    | .wait s => .wait s
    | .fault code _ _ => .fails s 5 (0x40 + code)
    | .ok s b =>
      match viewStartFault s x.ctx b with
      | some sub => .fails s 5 sub
      | none =>
        let (id, s) := s.newId
        let v : View := { ctx := x.ctx, queue := queue, index := x.head.toNat, tag := cmdTag c, note := cmdNote c, record := b }
        .runs (setView s id v) (.view id))

end Sys2Proof.Machine
end

