-- ==== Sys2Proof/Machine/Launching.lean ====
section
/-! DEFINITION. The LAUNCH command: the attribute blocks, the argument header and the group table (R362-R366, R380-R383),
the selector (R365), the launch checks (R373), and the launch (R374). -/

namespace Sys2Proof.Machine

/-! ### What a LAUNCH reads -/

/-- What reads come to: the bytes of each, a fault's code, or a wait. -/
inductive Reads where
  | ok (s : State) (bs : List (List Byte))
  | fault (s : State) (code : Nat)
  | wait (s : State)
  deriving DecidableEq, Repr

/-- Reads spans of a context in turn: VA and length. -/
def readSpans (ctx : Nat) : List (Nat × Nat) → State → Reads
  | [], s => .ok s []
  | (va, n) :: rest, s =>
    match agentRead s ctx va n with
    | .wait s => .wait s
    | .fault code _ _ => .fault s code
    | .ok s b =>
      match readSpans ctx rest s with
      | .ok s bs => .ok s (b :: bs)
      | r => r

/-- VKVAn of variant 0's block (R362). -/
def variantVa (b0 : List Byte) (n : Nat) : Nat := recField b0 (64 + 8 * n) 8

/-- The present variants other than 0 (R365): number and VA of the block. -/
def otherVariants (b0 : List Byte) : List (Nat × Nat) :=
  (([1, 2, 3] : List Nat).map fun n => (n, variantVa b0 n)).filter fun e => e.2 != 0

/-- Everything that a LAUNCH checks: the blocks of the present variants by number with their VAs, the size, the argument
header, and the group table's entries. -/
structure LaunchInput where
  blocks : List (Nat × Nat × List Byte)
  size : Nat
  header : List Byte
  entries : List (List Byte)
  deriving DecidableEq, Repr

/-- The entries of the group table that are read: GTN of them, 256 at most. -/
def tableSpan (header : List Byte) : List (Nat × Nat) :=
  let n := min (recField header 24 2) 256
  if n = 0 then [] else [(recField header 16 8, 64 * n)]

inductive LaunchRead where
  | ok (s : State) (x : LaunchInput)
  | fault (s : State) (code : Nat)
  | wait (s : State)
  deriving DecidableEq, Repr

/-- Step 1 of R373: every present block, the size, the header and the group table. -/
def readLaunch (s : State) (ctx : Nat) (c : List Byte) : LaunchRead :=
  let kva := recField c 8 8
  let sizeVa := recField c 40 8
  match readSpans ctx [(kva, 128)] s with
  | .wait s => .wait s
  | .fault s code => .fault s code
  | .ok s b0s =>
    let b0 := b0s.headD []
    let vs := otherVariants b0
    let spans := (vs.map fun e => (e.2, 128)) ++ [(recField c 48 8, 64)] ++ (if sizeVa = 0 then [] else [(sizeVa, 8)])
    match readSpans ctx spans s with
    | .wait s => .wait s
    | .fault s code => .fault s code
    | .ok s bs =>
      let header := bs.getD vs.length []
      match readSpans ctx (tableSpan header) s with
      | .wait s => .wait s
      | .fault s code => .fault s code
      | .ok s ts =>
        let t := ts.headD []
        .ok s { blocks := (0, kva, b0) :: (vs.zip bs).map fun (e, b) => (e.1, e.2, b)
                size := leNat (bs.getD (vs.length + 1) [])
                header := header
                entries := (List.range (t.length / 64)).map fun k => (t.drop (64 * k)).take 64 }

/-! ### The checks of an attribute block (R362-R364) -/

def blockWidth (b : List Byte) : Nat := 16 * 2 ^ (recField b 12 1 % 4)
def blockCrew (b : List Byte) : Nat := recField b 13 1
def blockRegs (b : List Byte) : Nat := recField b 18 2

/-- Row 1 of R373; R383 gives the reserved bits of GUSE to row 7. -/
def blockReserved (b : List Byte) : Bool :=
  recField b 0 1 != 1 || decide (4 ≤ recField b 1 1) || !recZero b 2 4 || !recZero b 8 12 || decide (4 ≤ recField b 12 1) ||
  !recZero b 48 56 || (List.range 8).any fun k => bitsAt (recField b (56 + 2 * k) 2) 13 2 != 0

/-- Row 2 of R373 on a block at a VA; the VAs of the other variants count in variant 0's block. -/
def blockRange (n va : Nat) (b : List Byte) : Bool :=
  let f (lo k : Nat) : Nat := recField b lo k
  let size := f 36 4
  let outside (o : Nat) : Bool := o % 16 != 0 || decide (size ≤ o)
  va % 128 != 0 || f 12 1 % 4 == 3 || decide (blockCrew b = 0 ∨ 32 < blockCrew b) ||
  decide (blockRegs b < 8 ∨ 384 < blockRegs b) || blockRegs b % 8 != 0 || f 20 4 % 64 != 0 || decide (2 ^ 20 < f 20 4) ||
  f 40 8 % 16 != 0 || decide (2 ^ 56 ≤ f 40 8) || size % 16 != 0 || decide (size < 16 ∨ 2 ^ 30 < size) || outside (f 32 4) ||
  (f 28 4 != 0xFFFFFFFF && outside (f 28 4)) || decide (32 ≤ f 15 1) || decide (96 < f 14 1) ||
  (n == 0 && ([1, 2, 3] : List Nat).any fun k => decide (2 ^ 56 ≤ variantVa b k))

/-- Row 4 of R373: the crew's warps fit a core, and its tiles (R363). -/
def blockTooBig (b : List Byte) : Bool :=
  let per := (blockCrew b + 7) / 8
  decide (24 < per) || decide (65536 < per * blockRegs b * blockWidth b) || decide (2 ^ 20 < recField b 20 4) ||
  decide (96 < recField b 14 1)

/-- The entries of the refill map that are in use (R364): the words, in order. -/
def mapWords (b : List Byte) : List Nat := ((List.range 8).map fun k => recField b (56 + 2 * k) 2).filter fun e => decide (2 ^ 15 ≤ e)
/-- Their sources and registers. -/
def mapEntries (b : List Byte) : List (Nat × Nat) := (mapWords b).map fun e => (bitsAt e 9 4, bitsAt e 0 9)

/-- Row 5 of R373. -/
def blockMapBad (b : List Byte) : Bool :=
  let regs := (mapEntries b).map (·.2)
  (mapEntries b).any (fun e => decide (10 < e.1) || decide (blockRegs b ≤ e.2)) ||
  decide (regs.eraseDups.length < regs.length)

/-- A limit VLIMn of variant 0's block. -/
def variantLimit (b0 : List Byte) (n : Nat) : Nat := recField b0 (96 + 8 * n) 8

/-- Numbers rise strictly. -/
def risesStrictly : List Nat → Bool
  | a :: b :: t => decide (a < b) && risesStrictly (b :: t)
  | _ => true

/-- Row 3 of R373: the variant rules of R365. -/
def variantsBad (x : LaunchInput) : Bool :=
  let b0 := (x.blocks.headD (0, 0, [])).2.2
  x.blocks.any (fun (n, _, b) => recField b 1 1 % 4 != n || recField b 4 4 != recField b0 4 4 || recField b 15 1 != recField b0 15 1) ||
  !risesStrictly (x.blocks.map fun e => variantLimit b0 e.1)

/-- The variant that the phase runs: number, VA, block (R365). -/
def selectVariant (x : LaunchInput) : Nat × Nat × List Byte :=
  let b0 := (x.blocks.headD (0, 0, [])).2.2
  (x.blocks.find? fun e => decide (x.size ≤ variantLimit b0 e.1)).getD (x.blocks.getLastD (0, 0, []))

/-! ### The command, the header and the groups -/

/-- Row 6 of R373. -/
def commandBad (s : State) (ctx : Nat) (c : List Byte) : Bool :=
  let crews := recField c 36 4
  let items := recField c 24 8
  let src := recField c 32 4
  decide (crews = 0 ∨ 65535 < crews) || decide (2 ^ 40 ≤ items) ||
  (src != 0xFFFFFFFF && (items != 0 || decide (255 < src) || (kvGet (getCtx s ctx).iq src).isNone))

/-- The header part of row 7 (R366). -/
def headerBad (argva : Nat) (h : List Byte) : Bool :=
  let n := recField h 24 2
  let gtva := recField h 16 8
  let csva := recField h 0 8
  argva % 64 != 0 || !recZero h 26 64 || decide (2 ≤ recField h 12 4) || decide (256 < n) || gtva % 64 != 0 ||
  (n == 0 && gtva != 0) || csva % 4096 != 0 || (csva == 0 && recField h 8 4 != 0)

/-- The intervals in use of an entry (R380): first, count, stride. -/
def entryIntervals (e : List Byte) : List (Nat × Nat × Nat) :=
  ((List.range 4).map fun k => (recField e (8 + 12 * k) 4, recField e (12 + 12 * k) 4, recField e (16 + 12 * k) 4)).filter
    fun i => i.2.1 != 0

/-- The first conditions of R383 on an entry. -/
def entryBad (crews : Nat) (e : List Byte) : Bool :=
  !recZero e 4 8 || !recZero e 56 64 || decide (8 ≤ recField e 0 4) || (entryIntervals e).isEmpty ||
  (entryIntervals e).any fun (first, count, stride) => stride == 0 || decide (crews ≤ first + (count - 1) * stride)

/-- The member set of an entry, ascending (R381). -/
def entryMembers (e : List Byte) : List Nat :=
  (entryIntervals e).foldl (fun m (first, count, stride) =>
    (List.range count).foldl (fun m i => setIns m (first + i * stride)) m) []

/-- The groups of a launch by entry. -/
def groupsOf (es : List (List Byte)) : KV Group :=
  es.zipIdx.map fun (e, k) => (k, { members := entryMembers e, flags := recField e 0 4 % 8 })

/-- What GUSE declares for a slot. -/
def declares (guse slot : Nat) : Nat := bitsAt guse (3 * slot) 3

/-- What R383 asks of one crew's entries. -/
def crewGroupsBad (guse : Nat) (gs : KV Group) (crew : Nat) : Bool :=
  let mine := gs.filter fun (_, g) => g.members.contains crew
  decide (4 < mine.length) || decide (1 < (mine.filter fun (_, g) => g.flags.testBit 2).length) ||
  mine.zipIdx.any fun (e, k) => (List.range 3).any fun b => e.2.flags.testBit b && !(declares guse k).testBit b

/-- R383 on a GUSE, but for the entries' own fields. -/
def groupsBad (guse : Nat) (gs : KV Group) : Bool :=
  let all := gs.foldl (fun m (_, g) => g.members.foldl setIns m) []
  decide (4096 ≤ guse) || gs.any (fun (_, g) => g.flags.testBit 2 && decide (4 < g.members.length)) ||
  ((List.range 4).any fun k => declares guse k != 0 && decide (gs.length ≤ k)) || all.any (crewGroupsBad guse gs)

/-- The first failing row of R373: rows 1, 2, 4, 5 and the GUSE of row 7 on every present variant's block. -/
def launchFault (s : State) (ctx : Nat) (c : List Byte) (x : LaunchInput) : Option Nat :=
  let each (f : Nat → Nat → List Byte → Bool) : Bool := x.blocks.any fun (n, va, b) => f n va b
  if each fun _ _ b => blockReserved b then some 1
  else if each blockRange then some 2
  else if variantsBad x then some 3
  else if each fun _ _ b => blockTooBig b then some 4
  else if each fun _ _ b => blockMapBad b then some 5
  else if commandBad s ctx c then some 6
  else if headerBad (recField c 48 8) x.header || x.entries.any (entryBad (recField c 36 4)) then some 7
  else if each fun _ _ b => groupsBad (recField b 16 2) (groupsOf x.entries) then some 7
  else none

/-! ### The launch -/

/-- The kernel of a block at a VA; PROF is variant 0's (R38). -/
def kernelOf (kva : Nat) (b : List Byte) (prof : Nat) : Kernel :=
  let age := recField b 24 4
  { kva := kva, codeVa := recField b 40 8, codeSz := recField b 36 4, entry := recField b 32 4, trape := recField b 28 4,
    binAge := if age = 0 then 2048 else age, scr := recField b 20 4, regs := blockRegs b, guse := recField b 16 2, prof := prof,
    acc := recField b 14 1, crew := blockCrew b, width := blockWidth b, rmap := mapEntries b }

def launchOf (id q : Nat) (x : Queue) (c : List Byte) (i : LaunchInput) : Launch :=
  let (_, kva, b) := selectVariant i
  let src := recField c 32 4
  let b0 := (i.blocks.headD (0, 0, [])).2.2
  let k := kernelOf kva b (recField b0 15 1)
  { ctx := x.ctx, queue := q, tag := cmdTag c, note := cmdNote c, prio := x.prio, startOrder := id, kernel := k,
    argva := recField c 48 8, csva := recField i.header 0 8, csrows := recField i.header 8 4,
    vers := (recField i.header 12 4).testBit 0, groups := groupsOf i.entries, crews := recField c 36 4,
    itemQueue := if src = 0xFFFFFFFF then none else some src, items := recField c 24 8 }

/-- LAUNCH (R359, R365, R373, R374): the launch's crews await placement from here on. -/
def execLaunch (queue : Nat) (s : State) : Host.Outcome State Fault Refusal :=
  .next (serveQueue s queue 1 fun s x c =>
    match readLaunch s x.ctx c with
    | .wait s => .wait s
    | .fault s code => .fails s 4 (0x40 + code)
    | .ok s i =>
      match launchFault s x.ctx c i with
      | some row => .fails s 4 row
      | none =>
        let (id, s) := s.newId
        .runs (setLaunch (clearCode s) id (launchOf id queue x c i)) (.launch id))

end Sys2Proof.Machine
end

