-- ==== Sys2Proof/Machine/Contexts.lean ====
section
/-! DEFINITION. The host's operations on contexts (R344-R347, R408, R451): CREATE, SUSPEND, RESUME, DRAIN, DESTROY and RREADY,
and the release of a dead context. -/

namespace Sys2Proof.Machine

/-! ### Descriptors (R344, R347) -/

/-- The 128 bytes of a descriptor at a PA, none where R347 reason 6 holds. -/
def readDesc (s : State) (pa : Nat) : Option (List Byte) :=
  let blocks := blockStarts pa 128
  if (blocks ++ [pa + 127]).all (fun a => validPa a && !isPoisonTag (homeTag s a)) then some (homeBytes s pa 128) else none

/-- The first of reasons 1 to 5 that holds of a descriptor. -/
def descReason (s : State) (b : List Byte) : Option Nat :=
  let f (lo n : Nat) : Nat := recField b lo n
  let sz := f 32 8
  let out (v lo hi : Nat) : Bool := decide (v < lo ∨ hi < v)
  firstReason [
    (1, f 0 1 != 1),
    (2, !recZero b 1 4 || decide (8 ≤ f 4 4) || !recZero b 8 28 || !recZero b 104 128 || decide (2 ^ 48 ≤ f 96 8) ||
        ([40, 56, 64, 72, 88] : List Nat).any fun lo => decide (2 ^ 56 ≤ f lo 8)),
    (3, f 88 8 % 4096 != 0 || f 80 8 % 4096 != 0 || f 72 8 % 4096 != 0 || f 64 8 % 65536 != 0 || f 56 8 % 4096 != 0 ||
        f 40 8 % 65536 != 0),
    (4, (sz != 0 && (out sz (2 ^ 28) (2 ^ 34) || sz % 65536 != 0)) || decide (2 ^ 20 < f 52 4) || out (f 28 4) (2 ^ 14) (2 ^ 30) ||
        out (f 48 4) 256 (2 ^ 24) || decide (f 80 8 < 2 ^ 20)),
    (5, (f 4 4).testBit 0 && !s.service.sysPort)]

/-- The fields that RESUME may not change (R346). -/
def descFixed (b : List Byte) : List Nat :=
  [recField b 0 4, recField b 32 8, recField b 40 8, recField b 52 4, recField b 56 8, recField b 64 8, recField b 72 8,
   recField b 88 8, recField b 96 8]

/-- A host operation on a context: refused with reason 7 above 63, with status 1 in a state that does not list it. -/
def ctxOp (op : Nat) (tok : W32) (ctx : Nat) (sts : List CtxState) (act : State → State) (s : State) :
    Host.Outcome State Fault Refusal :=
  .next (hostOp s 1 (some (op, tok)) fun s =>
    if 64 ≤ ctx then answer s op 2 7 tok []
    else if !sts.contains (getCtx s ctx).st then answer s op 1 0 tok []
    else act s)

/-! ### The operations (R346) -/

/-- CREATE: LOADING is passed through at once. -/
def execCreate (tok : W32) (ctx pa : Nat) : State → Host.Outcome State Fault Refusal :=
  ctxOp 1 tok ctx [.free] fun s =>
    match readDesc s pa with
    | none => answer s 1 2 6 tok []
    | some b =>
      match descReason s b with
      | some r => answer s 1 2 r tok []
      | none =>
        let s := setCtx s ctx { st := .ready, desc := b }
        let s := (List.range 1024).foldl (fun s k => recordAreaPut s ctx (131072 + 16 * k) (slotWord {})) s
        answer s 1 0 0 tok []

/-- SUSPEND: every crew is to be saved. -/
def execSuspend (tok : W32) (ctx : Nat) : State → Host.Outcome State Fault Refusal :=
  ctxOp 2 tok ctx [.ready, .running] fun s =>
    let s := setCtx s ctx { getCtx s ctx with st := .suspending }
    let s := (s.crews.filter fun (_, c) => c.ctx == ctx).foldl (fun s (e : Nat × Crew) => askSave s e.1 .suspend) s
    settleContext (answer s 2 0 0 tok []) ctx

/-- A context goes on: crews left stopped run on where they stand. -/
def resumeContext (s : State) (ctx : Nat) (desc : List Byte) : State :=
  let s := setCtx s ctx { getCtx s ctx with st := .ready, desc := desc }
  { s with
    crews := kvMap s.crews fun _ (c : Crew) =>
      if c.ctx = ctx ∧ c.phase = .stopped then { c with phase := .resident, saveWhy := none, ydlExpired := false } else c
    queues := kvMap s.queues fun _ (q : Queue) => if q.ctx = ctx then q.resumed else q }

/-- RESUME. -/
def execResume (tok : W32) (ctx pa : Nat) : State → Host.Outcome State Fault Refusal :=
  ctxOp 3 tok ctx [.suspended, .faulted] fun s =>
    let old := (getCtx s ctx).desc
    if pa = 0 then answer (resumeContext s ctx old) 3 0 0 tok []
    else match readDesc s pa with
      | none => answer s 3 2 6 tok []
      | some b =>
        match descReason s b with
        | some r => answer s 3 2 r tok []
        | none =>
          if descFixed b ≠ descFixed old ∨ recField b 80 8 < recField old 80 8 then answer s 3 2 8 tok []
          else answer (resumeContext s ctx b) 3 0 0 tok []

/-- DRAIN. -/
def execDrain (tok : W32) (ctx : Nat) : State → Host.Outcome State Fault Refusal :=
  ctxOp 4 tok ctx [.running] fun s =>
    settleContext (answer (setCtx s ctx { getCtx s ctx with st := .draining }) 4 0 0 tok []) ctx

/-- DESTROY: the crews are discarded, with the unpublished versions of the launches (R451); the queues are DISABLED and bound to no
context, and item queues are registered no longer (R357, R369). -/
def execDestroy (tok : W32) (ctx : Nat) : State → Host.Outcome State Fault Refusal :=
  ctxOp 5 tok ctx [.suspended, .faulted, .ready] fun s =>
    let c := getCtx s ctx
    let s := setCtx (dropVersions s ctx) ctx { c with st := .dead, iq := [], areaDue := [] }
    let s := { s with
      queues := kvFilter s.queues fun _ q => q.ctx != ctx
      crews := kvMap s.crews fun _ (cr : Crew) => if cr.ctx = ctx then { cr with phase := .retired, saveWhy := none } else cr }
    answer s 5 0 0 tok []

/-- RREADY (R408, R471): crews saved for residency, or about to be, await placement again. -/
def execRready (tok : W32) (ctx : Nat) (s : State) : Host.Outcome State Fault Refusal :=
  .next (hostOp s 1 (some (10, tok)) fun s =>
    let st := (getCtx s ctx).st
    if 64 ≤ ctx then answer s 10 2 7 tok []
    else if st = .free ∨ st = .dead then answer s 10 1 0 tok []
    else
      let held (c : Crew) : Bool := c.ctx == ctx && c.hold == .rready
      let n := (s.crews.filter fun (_, c) => held c).length
      let s := { s with crews := kvMap s.crews fun _ (c : Crew) => if held c then { c with hold := .none } else c }
      answer s 10 0 0 tok (leBytes 4 n))

/-! ### Release (R346, R413, R437) -/

/-- The physical extents of the pieces of a context that have a place. -/
def placedExtents (s : State) (ctx : Nat) : List (Nat × Nat) :=
  let ps := ((leavesOf s ctx).map fun l => leafPieces s l).flatten
  let cached := (s.cores.map fun (_, c) => (c.table.filter fun e => e.1 == ctx).map (·.2)).flatten
  (cached ++ ps.filter fun p => (p.rst == resident || p.rst == moving) && !p.unpl).map fun p =>
    (Piece.pa p p.base, Piece.pa p p.base + (p.lim - p.base))

/-- Nothing of a dead context is under way any more. -/
def contextQuiet (s : State) (ctx : Nat) : Bool :=
  !(s.cmds.any fun (_, c) => (kvD s.crews c.crew {}).ctx == ctx && c.phase != .completed) &&
  !(s.moves.any fun (_, m) => m.ctx == ctx) && !s.rangeReqs.any fun r => r.ctx == ctx

/-- The context of a message about a ray. -/
def RayMsg.ctx : RayMsg → Nat
  | .go r _ => r / 2 ^ 28
  | .result r _ _ => r / 2 ^ 28
  | .candidate r _ _ => r / 2 ^ 28
  | .giveBack r _ _ => r / 2 ^ 28
  | .answer r _ => r / 2 ^ 28

/-- A core without what it held for a context. -/
def Core.forget (c : Core) (ctx : Nat) (launches crews cmds : List Nat) : Core :=
  { c with bins := kvFilter c.bins fun _ b => !launches.contains b.launch
           splits := c.splits.filter fun q => !crews.contains q.crew
           tableOps := c.tableOps.filter fun q => q.ctx != ctx
           sysReads := c.sysReads.filter fun q => !crews.contains q.crew
           incoming := c.incoming.filter fun e => e.1 != ctx && e.2 != ctx
           sliceSince := kvDel c.sliceSince ctx
           serving := c.serving.bind fun k => if cmds.contains k then none else some k }

/-- The tier lines that a context used read as zero again (R437). -/
def discardTier (s : State) (ctx : Nat) : State :=
  s.tierOwner.foldl (fun s (u, c) => if c = ctx then
    { s with tier := cellsClear s.tier (u * unit2M) ((u + 1) * unit2M)
             tierTags := kvClear s.tierTags (u * 32768) ((u + 1) * 32768), tierOwner := kvDel s.tierOwner u } else s) s

/-- The state without a context. -/
def forgetContext (s : State) (ctx : Nat) : State :=
  let mine := (s.crews.filter fun (_, c) => c.ctx == ctx).map (·.1)
  let launches := (s.launches.filter fun (_, l) => l.ctx == ctx).map (·.1)
  let cmds := (s.cmds.filter fun (_, c) => mine.contains c.crew).map (·.1)
  { s with
    crews := kvFilter s.crews fun _ c => c.ctx != ctx
    launches := kvFilter s.launches fun _ l => l.ctx != ctx
    cmds := kvFilter s.cmds fun _ c => !mine.contains c.crew
    views := kvFilter s.views fun _ v => v.ctx != ctx
    rays := kvFilter s.rays fun k _ => k / 2 ^ 28 != ctx
    rayMsgs := kvFilter s.rayMsgs fun _ m => m.ctx != ctx
    tqueues := kvFilter s.tqueues fun k _ => k / 2 ^ 20 % 2 ^ 20 != ctx
    replicas := kvFilter s.replicas fun k _ => k / 2 ^ 20 % 2 ^ 20 != ctx
    aborts := kvFilter s.aborts fun k _ => k / 2 ^ 20 != ctx
    collectives := s.collectives.filter fun c => c.ctx != ctx
    collSets := kvFilter s.collSets fun k _ => k / 16 != ctx
    collSeq := kvFilter s.collSeq fun k _ => k / 16 != ctx
    residentAt := s.residentAt.filter fun e => e.1 != ctx
    cores := kvMap s.cores fun _ (c : Core) => c.forget ctx launches mine cmds
    debugger := if s.debugger.ctx = some ctx then { s.debugger with ctx := none } else s.debugger
    ctxs := kvDel s.ctxs ctx }

/-- CONTEXT_RELEASE (R346): DEAD to FREE. -/
def execContextRelease (ctx : Nat) (s : State) : Host.Outcome State Fault Refusal :=
  .next (if (getCtx s ctx).st ≠ .dead ∨ !contextQuiet s ctx then s
    else
      let ext := placedExtents s ctx
      let s := dropTables s ctx 0 (2 ^ 56)
      let s := ext.foldl (fun s e => flushExtent s e.1 e.2) s
      forgetContext (discardTier s ctx) ctx)

end Sys2Proof.Machine
end

