-- ==== Sys2Proof/Machine/Issue.lean ====
section
/-! DEFINITION. Fetching an instruction's bytes and the checks on its encoding (R74, R76, R95, R406), and the spill stores that come before
a drawn path's first instruction (R174). -/

namespace Sys2Proof.Machine

/-- The resident warp that holds an issue slot (R144): crew, warp number. -/
def slotHolder (s : State) (core part slot : Nat) : Option IssueRef :=
  s.crews.findSome? fun (ck, c) =>
    if c.phase = .resident ∧ c.core = core then
      (c.warps.find? fun (_, w) => w.part == part && w.halt.isNone && (match w.run with
        | some r => r.slot == slot
        | none => false)).map fun (wk, _) => ⟨core, ck, wk⟩
    else none

/-- Whether an instruction ends its run (R74). -/
def endsRun (i : Instr) (w : Enc) : Bool :=
  w.bnd || (match i with
    | .bra _ | .brau _ | .brx _ | .call _ | .calli _ | .ret _ | .join _ | .jwait _ | .exit _ | .refill _ | .reform _
    | .yield _ | .trapBrk _ | .trapCall _ | .trapTret _ => true
    | _ => false)

/-- What an issue slot does with the run it holds. -/
inductive IssuePlan where
  | idle (s : State)
  | stopped (s : State)
  | run (s : State) (i : Instr)
  deriving DecidableEq, Repr

/-- The extra word of ILLEGAL (R76). -/
def illegalWordTx (c : IllegalCause) (n : Nat) : W32 :=
  BitVec.ofNat 32 (c.cause + (if c.cause = 4 then 2 ^ 8 * c.operand else 0) + (if c.cause = 5 then 2 ^ 16 * n else 0))

/-- The 16 bytes at a PA as an instruction word, through a core's instruction cache (R56, R209). -/
def wordAt (s : State) (core pa : Nat) : State × W128 :=
  let r := readCode s core pa 16
  (r.1, BitVec.ofNat 128 (leNat r.2))

/-- The checks on a fetched word, in the order of R12. The mask of these traps holds every live lane of the path, whatever the
guard (the model's choice, log entry 123). -/
def checkWord (s : State) (x : Site) (v : W128) : IssuePlan :=
  let stop (t : TrapInfo) : IssuePlan := .stopped (takeTrap s x { t with mask := x.act, va := 0 })
  match illegalWord x.width x.wp.n v with
  | some c => stop { code := 0x01, tx := illegalWordTx c x.wp.n }
  | none =>
    match decodeWord v with
    | .error _ => stop { code := 0x01, tx := 2 }
    | .ok i =>
      let ends := match Instr.word? i with | some (_, w) => endsRun i w | none => true
      if x.rn.files.count = 23 ∧ !ends then stop { code := 0x07 } else .run s i

/-- One row of a drawn path's spilled entries is put into the store queue (R167, R174). -/
def rebuildRow (s : State) (x : Site) (locs : List (Nat × Nat × Loc)) : State :=
  let row := (x.pa.rebuild.headD (0, 0, 0)).2.1
  let es := (x.pa.rebuild.zip locs).filter fun e => e.1.2.1 == row
  let y := x.touched.enqueue (spillEntry (es.map (·.2)) (es.map fun e => e.1.2.2.toNat))
  y.put s { y.wp with paths := kvSet y.wp.paths y.rn.path { y.pa with rebuild := y.pa.rebuild.filter fun e => e.2.1 != row } }

/-- The rebuild stores of a drawn path (R174). -/
def rebuildStacks (s : State) (x : Site) : IssuePlan :=
  match checkLanes s x (.global permWrite 2) 4 (x.pa.rebuild.map fun e => (e.1, x.stackVa s e.1 e.2.1)) with
  | .trap t => .stopped (takeTrap s x.touched t)
  | .wait s' m => (let y := x.waitOn m; .idle (y.put s' (y.hold s.now)))
  | .ok s' locs => if queueRoom x then .idle (rebuildRow s' x locs) else .idle (x.put s (x.hold s.now))

/-- The warp that is issuing fetches the next instruction of its run (R75, R406). -/
def planAt (s : State) : IssuePlan :=
  match siteOf s with
  | none => .idle s
  | some x =>
    let x := { x with act := pathLanes x.wp x.pa }
    if !x.pa.rebuild.isEmpty then rebuildStacks s x
    else
      match checkLanes s x .fetch 16 [(lowLane x.act, x.pa.pc.toNat)] with
      | .ok s' ((_, _, .mem pa) :: _) => (let r := wordAt s' x.ref.core pa; checkWord r.1 x.touched r.2)
      | .ok s' _ => .idle s'
      | .wait s' m => (let y := x.waitOn m; .idle (y.put s' (y.hold s.now)))
      | .trap t => .stopped (takeTrap s x.touched { t with mask := x.act })

/-- What an issue slot does: the warp that holds it, not halted, issues. -/
def issuePlan (s : State) (core part slot : Nat) : IssuePlan :=
  match slotHolder s core part slot with
  | none => .idle s
  | some r => planAt { s with issuing := some r }

end Sys2Proof.Machine
end

