-- ==== Sys2Proof/Machine/Float.lean ====
section
/-! DEFINITION. The floating-point instructions (R116-R136). -/

namespace Sys2Proof.Machine

/-- FADD (R121). -/
def execFadd (w : Enc) (s : State) : Host.Outcome State Fault Refusal :=
  fpuD (.fadd w) w s fun x l => faddV x.prof w.ty w.sub.toNat (dMod w) (tA s x w l) (tB s x w l)

/-- FSUB (R121). -/
def execFsub (w : Enc) (s : State) : Host.Outcome State Fault Refusal :=
  fpuD (.fsub w) w s fun x l => fsubV x.prof w.ty w.sub.toNat (dMod w) (tA s x w l) (tB s x w l)

/-- FMUL (R121). -/
def execFmul (w : Enc) (s : State) : Host.Outcome State Fault Refusal :=
  fpuD (.fmul w) w s fun x l => fmulV x.prof w.ty w.sub.toNat (dMod w) (tA s x w l) (tB s x w l)

/-- FFMA (R121). -/
def execFfma (w : Enc) (s : State) : Host.Outcome State Fault Refusal :=
  fpuD (.ffma w) w s fun x l => ffmaV x.prof w.ty w.sub.toNat (dMod w) (tA s x w l) (tB s x w l) (tC s x w l)

/-- FMIN (R124). -/
def execFmin (w : Enc) (s : State) : Host.Outcome State Fault Refusal :=
  fpuD (.fmin w) w s fun x l => fminmaxV x.prof w.ty false w.sub.toNat (dMod w) (tA s x w l) (tB s x w l)

/-- FMAX (R124). -/
def execFmax (w : Enc) (s : State) : Host.Outcome State Fault Refusal :=
  fpuD (.fmax w) w s fun x l => fminmaxV x.prof w.ty true w.sub.toNat (dMod w) (tA s x w l) (tB s x w l)

/-- FCMP (R125): a predicate, and the invalid flag. -/
def execFcmp (w : Enc) (s : State) : Host.Outcome State Fault Refusal :=
  issueInstr (.fcmp w) w s (onSite fun _ x =>
    let r (l : Nat) : Bool × FFlags :=
      fcmpE x.prof (Ty.fmt w.ty) (w.sub.toNat % 8) (w.sub.getLsbD 3) (tA s x w l) (tB s x w l)
    if x.act = 0 then x
    else (x.putPred w.d (maskWhere x.width fun l => (r l).1)).mapRegs fun g =>
      (lanesOf x.act).foldl (fun g l => g.addFlags l (r l).2) g)

/-- FCLASS (R126). -/
def execFclass (w : Enc) (s : State) : Host.Outcome State Fault Refusal :=
  aluD (.fclass w) w s false fun x l => fclassE (Ty.fmt w.ty) (tA s x w l)

/-- FRND (R127). -/
def execFrnd (w : Enc) (s : State) : Host.Outcome State Fault Refusal :=
  fpuD (.frnd w) w s fun x l => frndV x.prof w.ty w.sub.toNat (dMod w) (tA s x w l)

/-- The type of FCVT's sources (R128). -/
def fcvtSource (w : Enc) : Ty := if w.ty = .f32 then (if 8 ≤ w.sub.toNat then .bf16 else .f16) else .f32

/-- FCVT (R128): a binary16 or bfloat16 source takes its sign modifier in bit 15. -/
def execFcvt (w : Enc) (s : State) : Host.Outcome State Fault Refusal :=
  fpuD (.fcvt w) w s fun x l => fcvtV x.prof w.ty w.sub.toNat (dMod w) (srcValue s x (fcvtSource w) w.a l)
    (if w.ty = .f16x2 ∨ w.ty = .bf16x2 then srcB s x .f32 w l else 0)

/-- F2I (R129): the source is binary32, or binary16 with .h. -/
def execF2i (w : Enc) (s : State) : Host.Outcome State Fault Refusal :=
  issueInstr (.f2i w) w s (onSite fun _ x =>
    let r (l : Nat) : Nat × FFlags :=
      f2iV x.prof w.ty w.sub.toNat (srcValue s x (if 8 ≤ w.sub.toNat then .f16 else .f32) w.a l)
    (x.putDst w.d (Ty.wide w.ty) (x.lanes fun l => (r l).1)).mapRegs fun g =>
      (lanesOf x.act).foldl (fun g l => g.addFlags l (r l).2) g)

/-- I2F (R130). -/
def execI2f (w : Enc) (s : State) : Host.Outcome State Fault Refusal :=
  fpuD (.i2f w) w s fun x l => i2fV x.prof w.ty w.sub.toNat (dMod w) (tA s x w l)

/-- FDIV (R131). -/
def execFdiv (w : Enc) (s : State) : Host.Outcome State Fault Refusal :=
  fpuD (.fdiv w) w s fun x l => fdivV x.prof w.ty w.sub.toNat (dMod w) (tA s x w l) (tB s x w l)

/-- FSQRT (R131). -/
def execFsqrt (w : Enc) (s : State) : Host.Outcome State Fault Refusal :=
  fpuD (.fsqrt w) w s fun x l => fsqrtV x.prof w.ty w.sub.toNat (dMod w) (tA s x w l)

/-- FRCP (R132). -/
def execFrcp (w : Enc) (s : State) : Host.Outcome State Fault Refusal :=
  fpuD (.frcp w) w s fun x l => fspecV frcpE x.prof w.ty (dMod w) (tA s x w l)

/-- FRSQ (R132). -/
def execFrsq (w : Enc) (s : State) : Host.Outcome State Fault Refusal :=
  fpuD (.frsq w) w s fun x l => fspecV frsqE x.prof w.ty (dMod w) (tA s x w l)

/-- EXP2 (R132). -/
def execExp2 (w : Enc) (s : State) : Host.Outcome State Fault Refusal :=
  fpuD (.exp2 w) w s fun x l => fspecV exp2E x.prof w.ty (dMod w) (tA s x w l)

/-- LOG2 (R132). -/
def execLog2 (w : Enc) (s : State) : Host.Outcome State Fault Refusal :=
  fpuD (.log2 w) w s fun x l => fspecV log2E x.prof w.ty (dMod w) (tA s x w l)

/-- SINPI (R132). -/
def execSinpi (w : Enc) (s : State) : Host.Outcome State Fault Refusal :=
  fpuD (.sinpi w) w s fun x l => fspecV sinpiE x.prof w.ty (dMod w) (tA s x w l)

/-- COSPI (R132). -/
def execCospi (w : Enc) (s : State) : Host.Outcome State Fault Refusal :=
  fpuD (.cospi w) w s fun x l => fspecV cospiE x.prof w.ty (dMod w) (tA s x w l)

/-- FDOT2 (R122): C is binary32. -/
def execFdot2 (w : Enc) (s : State) : Host.Outcome State Fault Refusal :=
  fpuD (.fdot2 w) w s fun x l => fdot2V x.prof w.ty w.sub.toNat (dMod w) (tA s x w l) (tB s x w l) (srcC s x .f32 w l)

/-- FSCALE (R123): the count is s32. -/
def execFscale (w : Enc) (s : State) : Host.Outcome State Fault Refusal :=
  fpuD (.fscale w) w s fun x l => fscaleV x.prof w.ty w.sub.toNat (dMod w) (tA s x w l) (srcB s x .s32 w l)

/-- FLGCLR (R134): E holds the mask of the flags to clear in the active lanes. -/
def execFlgclr (w : Enc) (s : State) : Host.Outcome State Fault Refusal :=
  issueInstr (.flgclr w) w s (onSite fun _ x =>
    let k := (Operand.bits w.e).toNat
    let clr (b : Nat) (m : Mask) : Mask := if k.testBit b then m &&& ~~~x.act else m
    x.mapRegs fun r => { r with fnv := clr 0 r.fnv, fdz := clr 1 r.fdz, fof := clr 2 r.fof, fuf := clr 3 r.fuf,
                                fnx := clr 4 r.fnx })

/-- The operand naming the k-th register after a main-file operand. -/
def Operand.next (o : Operand) (k : Nat) : Operand := { o with idx := o.idx + BitVec.ofNat 9 k }

/-- Writes a triple and shifts the last-result file three times (R120). -/
def Site.putTriple (x : Site) (o : Operand) (rs : List (Nat × (Nat × Nat × Nat) × FFlags)) : Site :=
  let x := x.writeDst o false (rs.map fun (l, r, _) => (l, r.1))
  let x := x.writeDst (Operand.next o 1) false (rs.map fun (l, r, _) => (l, r.2.1))
  let x := x.writeDst (Operand.next o 2) false (rs.map fun (l, r, _) => (l, r.2.2))
  let x := x.mapRegs fun g => rs.foldl (fun g (l, _, f) => g.addFlags l f) g
  ((x.shiftDst o false).shiftDst (Operand.next o 1) false).shiftDst (Operand.next o 2) false

/-- WELF (R135). -/
def execWelf (w : Enc) (s : State) : Host.Outcome State Fault Refusal :=
  issueInstr (.welf w) w s (onSite fun _ x =>
    let k := w.a.idx.toNat
    x.putTriple w.d ((lanesOf x.act).map fun l =>
      (l, welfV x.prof (mainValue x.wp k l false) (mainValue x.wp (k + 1) l false) (mainValue x.wp (k + 2) l false)
        (srcB s x .f32 w l))))

/-- WMRG (R136). -/
def execWmrg (w : Enc) (s : State) : Host.Outcome State Fault Refusal :=
  issueInstr (.wmrg w) w s (onSite fun _ x =>
    let a (k l : Nat) : Nat := mainValue x.wp (w.a.idx.toNat + k) l false
    let b (k l : Nat) : Nat := mainValue x.wp (w.b.idx.toNat + k) l false
    x.putTriple w.d ((lanesOf x.act).map fun l => (l, wmrgV x.prof (a 0 l) (a 1 l) (a 2 l) (b 0 l) (b 1 l) (b 2 l))))

end Sys2Proof.Machine
end

