-- ==== Sys2Proof/Machine/Placement.lean ====
section
/-! DEFINITION. Moves of units between frames and the capacity tier: recalls, evictions and their ends (R407-R414, R437). -/

namespace Sys2Proof.Machine

/-- Software holds the lock of a context's directory (R404). -/
def dirLocked (s : State) (ctx : Nat) : Bool := validPa (rootOf s ctx) && nodeLock s (rootOf s ctx) == 2

/-- A load or store of some warp translated into [lo, hi) has not completed (R413 step 2). -/
def accessIn (s : State) (lo hi : Nat) : Bool :=
  let hits (w : Nat) (a : LaneAccess) : Bool := match a.loc with
    | .mem pa => decide (pa < hi) && decide (lo < pa + w)
    | .scratch _ _ => false
  s.crews.any fun (_, c) => c.warps.any fun (_, wp) =>
    (wp.loads.any fun e => e.lanes.any (hits e.width)) || wp.storeQ.any fun e => e.lanes.any (hits e.width)

/-- Puts a piece into MOVING: every core drops it (R407, R413 step 1). -/
def beginMove (s : State) (m : UnitMove) : State :=
  let (k, s) := (dropTables s m.ctx m.vbase m.vlim).newId
  { s with moves := kvSet s.moves k m }

/-! ### Frames (R409-R411) -/

/-- A frame for a recall or first touch: of ring 8, or of the local rings from one on. -/
def frameFor (s : State) (ring : Nat) : Option (Nat × State) := if ring = 8 then takeFrame s 8 else takeLocal s ring

/-- Returns a frame to a ring, unless a compaction empties the place where it lies. -/
def returnFrame (s : State) (ring pa : Nat) : State :=
  if inCompacted s pa then s else giveFrame s ring pa

/-- A move that waits for a frame tries again (R410, R411). -/
def frameRetryMove (s : State) (k : Nat) : State :=
  match kvGet s.moves k with
  | some m =>
    (match m.kind, m.frame with
    | .place, none => (match frameFor s m.ring with
      | some (f, s) => { s with moves := kvSet s.moves k { m with frame := some f, since := s.now } }
      | none => s)
    | .recall, none => (match frameFor s m.ring with
      | some (f, s) => { s with moves := kvSet s.moves k { m with frame := some f, since := s.now } }
      | none => s)
    | _, _ => s)
  | none => s

/-! ### The capacity tier (R434, R437) -/

/-- The data that a context finds in [back, back + n) of the tier: what it did not write itself reads as ZERO. -/
def tierToHome (s : State) (ctx back pa n : Nat) : State :=
  let mine (a : Nat) : Bool := kvGet s.tierOwner (a / unit2M) == some ctx
  let cells := s.tier.filter fun c => mine c.1
  let tags := s.tierTags.filter fun c => mine (64 * c.1)
  { s with mem := cellsMove s.mem cells back pa n, tags := tagsMove s.tags tags (back / 64) (pa / 64) (n / 64) }

/-- n line writes to a start-gap region (R435): every 128 move the gap once. -/
def Wear.write (w : Wear) (n : Nat) : Wear :=
  { w with writes := (w.writes + n) % 2 ^ 40, due := w.due + ((w.writes + n) / 128 - w.writes / 128) }

/-- The persistent stack of a tier unit, and its start-gap region there (R434). -/
def tierPlace (unit : Nat) : Nat × Nat := (unit / 128 % 4, unit / 128 / 4 + 1)

/-- A unit written to the tier is 512 line writes (R435). -/
def wearUnit (s : State) (unit : Nat) : State :=
  let (k, r) := tierPlace unit
  let x := kvD s.pstacks k {}
  { s with pstacks := kvSet s.pstacks k { x with wear := kvSet x.wear r (Wear.write (kvD x.wear r {}) 512) } }

/-- Writes [pa, pa + n) to the tier for a context. -/
def homeToTier (s : State) (ctx pa back n : Nat) : State :=
  let units := (List.range ((n + unit2M - 1) / unit2M)).map fun k => back / unit2M + k
  let s := units.foldl wearUnit s
  { s with tier := cellsMove s.tier s.mem pa back n
           tierTags := tagsMove s.tierTags s.tags (pa / 64) (back / 64) (n / 64)
           tierOwner := units.foldl (fun m u => kvSet m u ctx) s.tierOwner }

/-! ### The ends of moves -/

/-- Touches that wait on a move are issued again, and crews saved for it await placement (R411). `why`: the reason for which
they now fail. -/
def wakeMove (s : State) (k : Nat) (why : Option Nat) : State :=
  let waits (wp : Warp) : Bool := wp.touchWait == some k
  let fail := why.bind fun r => (kvGet s.moves k).map fun m => (r, m.vbase, m.vlim)
  { s with
    moves := kvDel s.moves k
    crews := kvMap s.crews fun _ (c : Crew) =>
      if c.warps.any fun e => waits e.2 then
        { c with warps := kvMap c.warps fun _ (wp : Warp) => if waits wp then { wp with touchWait := none, touchFail := fail } else wp
                 hold := if c.hold = .move then .none else c.hold }
      else c }

/-- A move of the data of a piece to a PA is done (R413, R414, R423). -/
def finishRmove (s : State) (k : Nat) (m : UnitMove) (x : Slot) (dst : Nat) : State :=
  let p := x.piece
  let old := Piece.pa p p.base
  let n := p.lim - p.base
  if accessIn s old (old + n) then s
  else
    let s := flushExtent s old (old + n)
    let s := { s with mem := cellsMove s.mem s.mem old dst n, tags := tagsMove s.tags s.tags (old / 64) (dst / 64) (n / 64) }
    let s := setSlot s x { p.setRst resident with ofs := BitVec.ofNat 64 (dst + 2 ^ 64 - p.base) }
    wakeMove (noteResident s m.ctx p.base p.lim) k none

/-- An eviction is done: the data is in the tier, and the frames go back to their ring (R412). A unit takes at least 10,066
core cycles (R436). -/
def finishEvict (s : State) (k : Nat) (x : Slot) (ring ctx since : Nat) : State :=
  let p := x.piece
  let old := Piece.pa p p.base
  let n := p.lim - p.base
  if accessIn s old (old + n) ∨ s.now < since + 10066 * (n / unit2M) then s
  else
    let s := homeToTier (flushExtent s old (old + n)) ctx old p.back n
    let s := setSlot s x (p.setRst away)
    let s := (List.range (n / unit2M)).foldl (fun s i => returnFrame s ring (old + unit2M * i)) s
    wakeMove s k none

/-- A recall has its frame, and its data is copied (R411). -/
def finishRecall (s : State) (k : Nat) (m : UnitMove) (x : Slot) (frame : Nat) : State :=
  let p := x.piece
  let lo := alignDown p.base unit2M
  let s := tierToHome s m.ctx p.back (frame + p.base % unit2M) (p.lim - p.base)
  let s := setSlot s x { p.setRst resident with ofs := BitVec.ofNat 64 (frame + 2 ^ 64 - lo) }
  wakeMove (noteResident s m.ctx p.base p.lim) k none

/-- MOVE_COMPLETE (R407, R410-R414, R423). A recalled unit takes at least 2,517 core cycles (R436). -/
def execMoveComplete (k : Nat) (s : State) : Host.Outcome State Fault Refusal :=
  .next (match kvGet s.moves k with
    | none => s
    | some m =>
      if dirLocked s m.ctx then s
      else match m.kind, m.frame, walk s m.ctx m.vbase with
      | .place, some f, .found x =>
        if x.piece.rst = resident ∧ x.piece.unpl then
          match placeAt s m.ctx x m.vbase f with
          | some s => wakeMove s k none
          | none => wakeMove (returnFrame s (homeStack f) f) k (some 3)
        else wakeMove (returnFrame s (homeStack f) f) k none
      | .recall, some f, .found x => if s.now < m.since + 2517 then s else finishRecall s k m x f
      | .evict ring, _, .found x => finishEvict s k x ring m.ctx m.since
      | .rmove dst, _, .found x => finishRmove s k m x dst
      | _, none, .found _ => s
      | _, _, _ => wakeMove s k none)

/-! ### A frame that does not come (R411) -/

/-- The state that an event leads to. -/
def nextState (o : Host.Outcome State Fault Refusal) (s : State) : State :=
  match o with
  | .next s => s
  | _ => s

/-- What an agent does where a unit is known to have failed, if that is not what it does otherwise: its touch raises RESIDENCY with
reason 2 (log entry 134). -/
def tryFailed (unit : Nat × Nat × Nat) (s : State) (act : State → State) : State :=
  let t := { act { s with failedUnit := some unit } with failedUnit := none }
  if t = act s then s else t

/-- What the commands of a context do next. -/
def commandTouches (s : State) (ctx : Nat) : List (State → State) :=
  (s.cmds.map fun (k, c) =>
    if (kvD s.crews c.crew {}).ctx ≠ ctx then []
    else match c.op, c.phase with
    | .filter _ _ _ lanes, .started => lanes.map fun l => fun s => nextState (execFilterRequestEnd k l.1 s) s
    | _, .accessed => []
    | _, .completed => []
    | _, _ => [fun s => nextState (execCommandStart k s) s]).flatten

/-- What the rays, the treelet queues and the accesses to the treelet table do next. -/
def rayTouches (s : State) (ctx : Nat) : List (State → State) :=
  ((s.rayMsgs.filter fun (_, m) => m.ctx == ctx).map fun (k, _) =>
    ([fun s => nextState (execRayAdmit k s) s, fun s => nextState (execHitDelivery k s) s,
      fun s => nextState (execCandidateDelivery k s) s, fun s => nextState (execCandidateReturn k s) s,
      fun s => nextState (execCandidateAnswer k s) s, fun s => nextState (execViewSampleDelivery k s) s] : List (State → State))).flatten ++
  ((s.tqueues.filter fun (k, _) => k / 2 ^ 20 % 2 ^ 20 == ctx).map fun (k, _) =>
    fun s => nextState (execTreeletBatch (k / 2 ^ 40) ctx (k % 2 ^ 20) s) s) ++
  (s.cores.map fun (core, co) => (List.range co.tableOps.length).map fun i => fun s => tableOpMove s core i).flatten

/-- What the views and the queues do next. -/
def queueTouches (s : State) (ctx : Nat) : List (State → State) :=
  ((s.views.filter fun (_, v) => v.ctx == ctx).map fun (k, _) =>
    (((List.range 4).map fun u => ([fun s => viewRayMove s k u, fun s => nextState (execTileEmission k u s) s] : List (State → State))).flatten ++
      [fun s => nextState (execViewComplete k s) s])).flatten ++
  ((s.queues.filter fun (_, q) => q.ctx == ctx).map fun (k, _) =>
    ([fun s => nextState (execLaunch k s) s, fun s => nextState (execView k s) s, fun s => nextState (execSemwait k s) s,
      fun s => nextState (execSemwaitRecheck k s) s, fun s => nextState (execSemsignal k s) s, fun s => nextState (execQueueFence k s) s,
      fun s => if (getQueue s k).statusDue then writeStatus s k else s] : List (State → State))).flatten ++
  [fun s => areaWriteMove s ctx] ++
  (s.crews.filter fun (_, c) => c.ctx == ctx).map fun (k, _) => fun s => nextState (execCrewSave k s) s

/-- Everything of a context that waits for a touch of a unit other than a warp is told that it has failed. -/
def failTouches (s : State) (ctx lo hi : Nat) : State :=
  (commandTouches s ctx ++ rayTouches s ctx ++ queueTouches s ctx).foldl (tryFailed (ctx, lo, hi)) s

/-- The oldest range request, if it recalls this unit, ends with status 7. -/
def failRequest (s : State) (m : UnitMove) : State :=
  match s.rangeReqs with
  | r :: rest =>
    if r.code = 5 ∧ r.begun ∧ r.ctx = m.ctx ∧ r.lo ≤ m.vbase ∧ m.vbase < r.hi then
      { s with rangeReqs := { r with status := 7 } :: rest }
    else s
  | [] => s

/-- A recall or first touch that has waited 2^20 core cycles for a frame fails (R410, R411). -/
def frameTimeout (s : State) (k : Nat) (m : UnitMove) : State :=
  if m.frame.isSome ∨ s.now < m.since + 2 ^ 20 ∨ dirLocked s m.ctx then s
  else match m.kind with
  | .place => failTouches (wakeMove s k (some 2)) m.ctx m.vbase m.vlim
  | .recall =>
    let s := match walk s m.ctx m.vbase with
      | .found x => if x.piece.rst = moving then setSlot s x (x.piece.setRst away) else s
      | _ => s
    failTouches (wakeMove (failRequest s m) k (some 2)) m.ctx m.vbase m.vlim
  | _ => s

/-! ### Eviction (R412) -/

/-- The persistent stack of a piece's tier data takes evictions: it is neither drained nor offline (R440, R484). -/
def tierOpen (s : State) (p : Piece) : Bool :=
  let x := kvD s.pstacks (tierPlace (p.back / unit2M)).1 {}
  x.online && x.draining.isNone

/-- A piece whose data lies in a ring's space. -/
def pieceInRing (ring : Nat) (p : Piece) : Bool :=
  if ring = 8 then p.inter else !p.inter && homeStack (Piece.pa p p.base) == ring

/-- Since when all of a piece has been RESIDENT, as far as it is known (R412). -/
def residentSince (s : State) (ctx : Nat) (p : Piece) : Option Nat :=
  let mine := s.residentAt.filter fun (c, lo, hi, _) => c == ctx && decide (lo < p.lim) && decide (p.base < hi)
  let covered := sumOf mine fun (_, lo, hi, _) => min hi p.lim - max lo p.base
  if p.lim - p.base ≤ covered then some (mine.foldl (fun m e => max m e.2.2.2) 0) else none

/-- A piece that has not been RESIDENT for 65,536 core cycles. -/
def recentlyResident (s : State) (ctx : Nat) (p : Piece) : Bool :=
  match residentSince s ctx p with
  | some t => decide (s.now < t + 65536)
  | none => true

/-- A victim: its context, its place, and its distance. -/
structure Victim where
  ctx : Nat
  slot : Slot
  dist : Nat
  deriving DecidableEq, Repr

def Victim.before (a b : Victim) : Bool :=
  let p := a.slot.piece
  let q := b.slot.piece
  if p.prio ≠ q.prio then decide (p.prio < q.prio)
  else if a.dist ≠ b.dist then decide (b.dist < a.dist)
  else if a.ctx ≠ b.ctx then decide (a.ctx < b.ctx)
  else decide (p.base < q.base)

/-- Contexts whose directories the range unit walks. -/
def livingCtxs (s : State) : List Nat := (s.ctxs.filter fun (_, c) => c.st != .free && c.st != .dead).map (·.1)

/-- The pieces of a context with their places. -/
def slotsOf (s : State) (ctx : Nat) : List Slot :=
  ((leavesOf s ctx).map fun leaf => (leafPieces s leaf).zipIdx.map fun (p, i) => ({ leaf := leaf, idx := i, piece := p } : Slot)).flatten

/-- The placed pieces that are RESIDENT now, and since when: those that were not before, or not all of them, since now (R412). -/
def noteResidents (s : State) : State :=
  { s with residentAt := ((livingCtxs s).map fun ctx =>
      ((slotsOf s ctx).filter fun x => x.piece.rst == resident && !x.piece.unpl).map fun x =>
        (ctx, x.piece.base, x.piece.lim, (residentSince s ctx x.piece).getD s.now)).flatten }

/-- The pieces that may be evicted for a ring. -/
def victims (s : State) (ring : Nat) : List Victim :=
  ((livingCtxs s).map fun ctx => ((slotsOf s ctx).filter fun x =>
    let p := x.piece
    p.tier && p.rst == resident && !p.unpl && pieceInRing ring p && tierOpen s p && !recentlyResident s ctx p &&
      !s.moves.any fun (_, m) => m.ctx == ctx && decide (m.vbase < p.lim) && decide (p.base < m.vlim)).map fun x =>
    ({ ctx := ctx, slot := x, dist := (x.piece.next - (getCtx s ctx).step).toNat } : Victim)).flatten

/-- A recall or first touch waits on a ring. -/
def ringAwaited (s : State) (ring : Nat) : Bool :=
  s.moves.any fun (_, m) => m.frame.isNone && (match m.kind with | .place => true | .recall => true | _ => false) &&
    (if ring = 8 then m.ring == 8 else m.ring != 8)

/-- Takes a victim: its highest 2 MiB unit, or all of it when its leaf is full. -/
def takeVictim (s : State) (ring : Nat) (v : Victim) : State :=
  let p := v.slot.piece
  let lo := max p.base (p.lim - unit2M)
  let (lo, s) := match replaceSlot s v.slot (partsOf p lo p.lim fun q => q.setRst moving) with
    | some s => (lo, s)
    | none => (p.base, setSlot s v.slot (p.setRst moving))
  beginMove s { ctx := v.ctx, vbase := lo, vlim := p.lim, kind := .evict ring, since := s.now, ring := ring }

/-- An eviction starts for a ring that is short of frames, one at a time (R412). -/
def evictStartMove (s : State) (ring : Nat) : State :=
  let busy := s.moves.any fun (_, m) => match m.kind with | .evict _ => true | _ => false
  if busy ∨ 8 < ring ∨ (livingCtxs s).any (dirLocked s) ∨ ¬ (ringCount s ring < 8 ∨ ringAwaited s ring) then s
  else match pickMin Victim.before (victims s ring) with
    | some v => takeVictim s ring v
    | none => s

end Sys2Proof.Machine
end

