-- ==== Sys2Proof/Machine/Ranges.lean ====
section
/-! DEFINITION. The range instructions and the range unit's requests (R415-R425). -/

namespace Sys2Proof.Machine

/-! ### Sending a request (R417) -/

/-- A range instruction: it waits for the warp's store queue, releases at device scope, and sends its request. -/
def sendRange (i : Instr) (w : Enc) (code : Nat) (args : Site → State → Nat × Nat × Nat) (s : State) :
    Host.Outcome State Fault Refusal :=
  issueInstr i w s fun x s =>
    if x.act = 0 then .done x s
    else if !x.wp.storeQ.isEmpty then .block x s
    else
      let (a, b, c) := args x s
      let (id, s) := (releaseStep s x.ref.core 3).newId
      let sd := w.d.idx.toNat
      let r : RangeReq := { id := id, ctx := x.cr.ctx, core := x.ref.core, code := code, a := a, b := b, c := c,
                            asker := .warp x.ref.crew x.ref.warp sd, sys := ctxSys s x.cr.ctx }
      .done (x.mapRegs fun g => g.emptyScalar sd 1) { s with rangeReqs := s.rangeReqs ++ [r] }

/-- The scalar pair A names. -/
def pairA (x : Site) (w : Enc) : Nat := scalarValue x.wp w.a.idx.toNat true
/-- The scalar pair that C, or E beside a literal, names. -/
def pairC (x : Site) (w : Enc) : Nat := scalarValue x.wp (if w.lit.isSome then w.e else w.c).idx.toNat true

/-- RSPLIT (R417, R418). -/
def execRsplit (w : Enc) : State → Host.Outcome State Fault Refusal :=
  sendRange (.rsplit w) w 1 fun x _ => (pairA x w, 0, 0)
/-- RMERGE (R417, R419). -/
def execRmerge (w : Enc) : State → Host.Outcome State Fault Refusal :=
  sendRange (.rmerge w) w 2 fun x _ => (pairA x w, 0, 0)
/-- RINV (R417, R420). -/
def execRinv (w : Enc) : State → Host.Outcome State Fault Refusal :=
  sendRange (.rinv w) w 3 fun x s => (pairA x w, uB s x w, 0)
/-- RHINT (R417, R422). -/
def execRhint (w : Enc) : State → Host.Outcome State Fault Refusal :=
  sendRange (.rhint w) w 4 fun x s => (pairA x w, uB s x w, srcC s x .n32 w 0)
/-- RMOVE (R417, R423). -/
def execRmove (w : Enc) : State → Host.Outcome State Fault Refusal :=
  sendRange (.rmove w) w 5 fun x s => (pairA x w, uB s x w, pairC x w)
/-- RCMPT (R417, R424). -/
def execRcmpt (w : Enc) : State → Host.Outcome State Fault Refusal :=
  sendRange (.rcmpt w) w 6 fun x s => (pairA x w, uB s x w, 0)
/-- RPROBE (R417, R421). -/
def execRprobe (w : Enc) : State → Host.Outcome State Fault Refusal :=
  sendRange (.rprobe w) w 7 fun x s => (pairA x w, uB s x w, 0)
/-- STEP (R417, R425). -/
def execStep (w : Enc) : State → Host.Outcome State Fault Refusal :=
  sendRange (.step w) w 8 fun x s => (uB s x w, 0, 0)

/-! ### What an operation comes to -/

/-- An operation is done with a result word, or must wait. -/
inductive RangeTry where
  | done (s : State) (result : W32)
  | wait
  deriving DecidableEq, Repr

def RangeTry.status (s : State) (n : Nat) : RangeTry := .done s (BitVec.ofNat 32 n)

/-- The status of an operation that the spec refuses without naming one. -/
def unnamedStatus (s : State) : W32 := Config.freeWord s.tick

/-- A bound that RSPLIT admits: 64 KiB, or 2 MiB in a TIER 1 piece. -/
def boundOk (p : Piece) (va : Nat) : Bool := va % (if p.tier then unit2M else unit64K) == 0

/-- A piece cut in two at a VA strictly inside it; none when its leaf is full (R418). -/
def splitAt (s : State) (ctx : Nat) (x : Slot) (va : Nat) : Option State :=
  let p := x.piece
  (replaceSlot s x [cutPiece p p.base va, cutPiece p va p.lim]).map fun s => dropTables s ctx p.base p.lim

/-- A walk for an operation: the place of the piece, or a status, or a wait for a piece that moves. -/
inductive Look where
  | found (x : Slot)
  | status (n : Nat)
  | wait
  deriving DecidableEq, Repr

def look (s : State) (ctx va : Nat) : Look :=
  match walk s ctx va with
  | .found x => if x.piece.rst = moving then .wait else .found x
  | .miss => .status 2
  | .malformed => .status 8
  | .locked => .wait

/-- RSPLIT at the range unit (R417, R418). -/
def rsplitOp (s : State) (r : RangeReq) : RangeTry :=
  if r.a % unit64K ≠ 0 ∨ 2 ^ 56 ≤ r.a then .status s 1
  else match look s r.ctx r.a with
  | .wait => .wait
  | .status n => .status s n
  | .found x =>
    if !boundOk x.piece r.a then .status s 1
    else if x.piece.base = r.a then .done s (unnamedStatus s)
    else match splitAt s r.ctx x r.a with
      | some s => .status s 0
      | none => .status s 3

/-- Two adjacent pieces that RMERGE joins (R419). -/
def joins (p q : Piece) : Bool :=
  p.lim == q.base && p.perm == q.perm && p.attr == q.attr && p.next == q.next &&
  (p.ofs == q.ofs || p.rst == absent || p.rst == away) && (!p.tier || q.back == p.back + (p.lim - p.base))

/-- RMERGE at the range unit (R417, R419). -/
def rmergeOp (s : State) (r : RangeReq) : RangeTry :=
  if r.a % unit64K ≠ 0 ∨ 2 ^ 56 ≤ r.a then .status s 1
  else if r.a = 0 then .status s 2
  else match look s r.ctx (r.a - 1), look s r.ctx r.a with
  | .found x, .found y =>
    if x.leaf ≠ y.leaf ∨ y.idx ≠ x.idx + 1 ∨ !joins x.piece y.piece then .status s 4
    else
      let ps := leafPieces s x.leaf
      let p := { x.piece with lim := y.piece.lim }
      .status (dropTables (writeLeaf s x.leaf (ps.take x.idx ++ [p] ++ ps.drop (y.idx + 1))) r.ctx p.base p.lim) 0
  | .wait, _ => .wait
  | _, .wait => .wait
  | .status n, _ => .status s n
  | _, .status n => .status s n

/-- The interval of RINV and RHINT, if it is one. -/
def intervalOk (r : RangeReq) : Bool := r.a % unit64K == 0 && r.b != 0 && decide (r.a + unit64K * r.b ≤ 2 ^ 56)

/-- The places of a context's pieces that overlap [lo, hi). -/
def slotsIn (s : State) (ctx lo hi : Nat) : List Slot :=
  (slotsOf s ctx).filter fun x => decide (x.piece.base < hi) && decide (lo < x.piece.lim)

/-- A node below here is malformed, or a descriptor in its leaves. -/
def brokenBelow (s : State) : Nat → Nat → Bool
  | 0, _ => true
  | fuel + 1, node =>
    if !nodeOk s node then true
    else if nodeLevel s node = 0 then (List.range (nodeCount s node)).any fun i => !pieceOk (leafBytes s node i)
    else (List.range (nodeCount s node)).any fun i => brokenBelow s fuel (homeNat s (node + 64 + 16 * i + 8) 8)

/-- Sets the hint of every piece within [va, hi), from va on, splitting at the bounds (R422). -/
def hintFrom (ctx hi hint : Nat) : Nat → Nat → State → State × Nat
  | 0, _, s => (s, 0)
  | fuel + 1, va, s =>
    match pickMin (fun (a b : Slot) => decide (a.piece.base < b.piece.base)) (slotsIn s ctx va hi) with
    | none => (s, 0)
    | some x =>
      let p := x.piece
      let cut (at_ : Nat) : State × Nat :=
        if !boundOk p at_ then (s, 1)
        else match splitAt s ctx x at_ with
          | none => (s, 3)
          | some s => hintFrom ctx hi hint fuel va s
      if p.base < va then cut va
      else if hi < p.lim then cut hi
      else
        let q := { p with next := BitVec.ofNat 16 hint, attr := (p.attr &&& 0x1F) ||| BitVec.ofNat 8 (32 * bitsAt hint 16 3) }
        hintFrom ctx hi hint fuel p.lim (dropTables (setSlot s x q) ctx p.base p.lim)

/-- RHINT at the range unit (R417, R422). -/
def rhintOp (s : State) (r : RangeReq) : RangeTry :=
  let hi := r.a + unit64K * r.b
  if !intervalOk r then .status s 1
  else if 2 ^ 19 ≤ r.c then .status s 9
  else if dirLocked s r.ctx ∨ (slotsIn s r.ctx r.a hi).any fun x => x.piece.rst == moving then .wait
  else if brokenBelow s 8 (rootOf s r.ctx) then .status s 8
  else
    let n := 3 * (slotsIn s r.ctx r.a hi).length + 3
    let (s, st) := hintFrom r.ctx hi r.c n r.a s
    .status s st

/-- RPROBE at the range unit (R421). -/
def rprobeOp (s : State) (r : RangeReq) : RangeTry :=
  let w := if 2 ^ 56 ≤ r.a then .miss else walk s r.ctx r.a
  match w with
  | .locked => .wait
  | w =>
    let found := match w with | .found x => some x.piece | _ => none
    let held := found.isSome && (cachedPiece s r.core r.ctx r.a).isSome
    .status s (
      if r.b < 16 then (match found with
        | some p => recField (pieceBytes p) (4 * r.b) 4
        | none => 0)
      else if r.b = 16 then found.isSome.toNat + 2 * held.toNat + (if w = .malformed then 4 else 0)
      else 0)

/-- STEP at the range unit (R425). -/
def stepOp (s : State) (r : RangeReq) : RangeTry :=
  let c := getCtx s r.ctx
  let n := c.step + BitVec.ofNat 16 r.a
  .done (setCtx s r.ctx { c with step := n }) (n.setWidth 32)

/-! ### Operations that go through moves and invalidations -/

/-- The head request, changed. -/
def setHead (s : State) (r : RangeReq) : State := { s with rangeReqs := r :: s.rangeReqs.drop 1 }

/-- Where the pieces that overlap [lo, hi) lie, with those that only a core's table still holds. -/
def oldExtents (s : State) (ctx lo hi : Nat) : List (Nat × Nat) :=
  let cached := (s.cores.map fun (_, c) => (c.table.filter fun e => e.1 == ctx).map (·.2)).flatten
  let ps := (cached ++ ((slotsIn s ctx lo hi).map fun x => x.piece)).filter fun p =>
    (p.rst == resident || p.rst == moving) && !p.unpl && decide (p.base < hi) && decide (lo < p.lim)
  ps.map fun p => (Piece.pa p p.base, Piece.pa p p.base + (p.lim - p.base))

/-- RINV begins (R413, R420). -/
def rinvBegin (s : State) (r : RangeReq) : State :=
  let hi := r.a + unit64K * r.b
  if !intervalOk r then setHead s { r with begun := true, status := 1 }
  else if dirLocked s r.ctx ∨ (slotsIn s r.ctx r.a hi).any fun x => x.piece.rst == moving then s
  else
    let ext := oldExtents s r.ctx r.a hi
    setHead (dropTables s r.ctx r.a hi) { r with begun := true, lo := r.a, hi := hi, extents := ext }

/-- RMOVE begins (R423). -/
def rmoveBegin (s : State) (r : RangeReq) : State :=
  let fail (n : Nat) : State := setHead s { r with begun := true, status := n }
  if 2 ^ 56 ≤ r.a then fail 1
  else if 3 ≤ r.b then fail 9
  else match look s r.ctx r.a with
  | .wait => s
  | .status n => fail n
  | .found x =>
    let p := x.piece
    let go (s : State) : State := setHead s { r with begun := true, lo := p.base, hi := p.lim }
    let m : UnitMove := { ctx := r.ctx, vbase := p.base, vlim := p.lim, since := s.now }
    if r.b = 0 then
      let q := { p with ofs := BitVec.ofNat 64 (r.c + 2 ^ 64 - p.base) }
      if p.rst ≠ resident ∨ p.unpl then fail 5
      else if !boundOk p r.c ∨ 2 ^ 48 ≤ r.c ∨ !pieceSpaceOk q then fail 6
      else go (beginMove (setSlot s x (p.setRst moving)) { m with kind := .rmove r.c })
    else if r.b = 1 then
      if p.rst ≠ resident ∨ p.unpl ∨ !p.tier ∨ !tierOpen s p then fail 5
      else
        let ring := ringOfPiece p
        go (beginMove (setSlot s x (p.setRst moving)) { m with kind := .evict ring, ring := ring })
    else if p.rst ≠ away then fail 5
    else go s

/-- The ring from which a request's recalls take their frames. -/
def requestRing (r : RangeReq) : Nat := if r.core < 192 then nearestStack r.core else 0

/-- A recall of RMOVE mode 2 starts for the next unit that is AWAY. -/
def rmoveNext (s : State) (r : RangeReq) : State :=
  if r.b ≠ 2 ∨ r.status ≠ 0 ∨ dirLocked s r.ctx ∨
      s.moves.any fun (_, m) => m.ctx == r.ctx && decide (m.vbase < r.hi) && decide (r.lo < m.vlim) then s
  else match (slotsIn s r.ctx r.lo r.hi).find? fun x => x.piece.rst == away with
  | none => s
  | some x =>
    match startRecall s r.ctx x.piece.base (requestRing r) x with
    | .on s _ => s
    | .again s => s
    | .fails n => setHead s { r with status := n }

/-! ### Compaction (R424) -/

/-- A window lies in one stack's local space or in the interleave space. -/
def windowOk (lo hi : Nat) : Bool :=
  lo % unit2M == 0 && decide (lo < hi) && validPa lo && validPa (hi - 1) &&
  (if paInterleaved lo then paInterleaved (hi - 1) else decide (lo / 2 ^ 35 = (hi - 1) / 2 ^ 35))

def windowRing (lo : Nat) : Nat := if paInterleaved lo then 8 else homeStack lo

/-- The entries of a ring whose frames lie in [lo, hi), or will once they are stored. -/
def ringInside (s : State) (lo hi ring : Nat) : List (Nat × Nat) :=
  let inside (pa : Nat) : Bool := decide (lo ≤ pa ∧ pa < hi)
  match ringBase s ring with
  | none => []
  | some b =>
    ((ringIndices s b).filter fun i => (let e := homeNat s (ringEntry b i) 8; e % 2 == 1 && inside (e - 1))).map (fun i => (ring, i)) ++
      (s.gives.filter fun g => g.1 == ring && inside g.2.2).map fun g => (ring, g.2.1)

/-- RCMPT begins: its ring frames are withdrawn. -/
def rcmptBegin (s : State) (r : RangeReq) : State :=
  let hi := r.a + unit2M * r.b
  if r.b = 0 then setHead s { r with begun := true, status := 1 }
  else if !windowOk r.a hi then setHead s { r with begun := true, status := 6 }
  else
    let s := { s with withdrawn := s.withdrawn ++ ((List.range 9).map (ringInside s r.a hi)).flatten }
    setHead s { r with begun := true, lo := r.a, hi := hi, since := s.now }

/-- A placed piece's physical extent. -/
def Slot.extent (x : Slot) : Nat × Nat := (Piece.pa x.piece x.piece.base, Piece.pa x.piece x.piece.base + (x.piece.lim - x.piece.base))

/-- The RESIDENT piece with data in [lo, hi) whose part there lies lowest: context, place. -/
def lowestIn (s : State) (lo hi : Nat) : Option (Nat × Slot) :=
  let all := ((livingCtxs s).map fun ctx => ((slotsOf s ctx).filter fun x =>
    (x.piece.rst == resident || x.piece.rst == moving) && !x.piece.unpl &&
      decide (max lo x.extent.1 < min hi x.extent.2)).map fun x => (ctx, x)).flatten
  pickMin (fun a b => decide (max lo a.2.extent.1 < max lo b.2.extent.1)) all

/-- A recall or a placement under way holds a frame inside [lo, hi): the compaction waits until its data has come (R415). -/
def frameHeld (s : State) (lo hi : Nat) : Bool :=
  s.moves.any fun (_, m) => match m.frame with
    | some f => decide (lo ≤ f ∧ f < hi)
    | none => false

/-- The next step of a compaction: the lowest piece in what is left of the window, up to a 2 MiB frame of it, goes to a frame of
the window's ring. -/
def rcmptNext (s : State) (r : RangeReq) : State :=
  match lowestIn s r.lo r.hi with
  | none => s
  | some (ctx, x) =>
    let p := x.piece
    let from_ := max r.lo x.extent.1
    let to_ := min (min r.hi x.extent.2) (alignDown from_ unit2M + unit2M)
    let va (pa : Nat) : Nat := p.base + (pa - x.extent.1)
    let skip (n : Nat) : State := setHead s { r with lo := to_, status := if r.status = 0 then n else r.status, since := s.now }
    if p.rst = moving ∨ dirLocked s ctx ∨ frameHeld s r.a r.hi then s
    else if va from_ % unit64K ≠ 0 ∨ va to_ % unit64K ≠ 0 then skip 5
    else match replaceSlot s x (partsOf p (va from_) (va to_) fun q => q.setRst moving) with
    | none => skip 3
    | some s' =>
      match takeFrame s' (windowRing r.a) with
      | some (f, s') =>
        let s' := setHead s' { r with lo := to_, since := s.now }
        beginMove s' { ctx := ctx, vbase := va from_, vlim := va to_, kind := .rmove (f + from_ % unit2M), since := s.now }
      | none => if r.since + 2 ^ 20 ≤ s.now then skip 7 else s

/-! ### The range unit's moves -/

/-- The range unit sets LOCK of a context's root (R404). -/
def setLock (s : State) (ctx v : Nat) : State := homePuts s (rootOf s ctx + 4) (leBytes 4 v)

/-- A directory change is begun: the range unit takes the free LOCK until it is done (R404; log entry 135). -/
def lockBegin (s : State) (r : RangeReq) : State :=
  if validPa (rootOf s r.ctx) ∧ nodeLock s (rootOf s r.ctx) = 0 then setLock (setHead s { r with begun := true }) r.ctx 1 else s

/-- LOCK is free again. -/
def lockEnd (s : State) (r : RangeReq) : State :=
  if r.begun ∧ (r.code = 1 ∨ r.code = 2 ∨ r.code = 4) ∧ nodeLock s (rootOf s r.ctx) = 1 then setLock s r.ctx 0 else s

/-- The range unit goes on with its oldest request (R415). -/
def rangeBeginMove (s : State) : State :=
  match s.rangeReqs with
  | [] => s
  | r :: _ =>
    match r.code, r.begun with
    | 1, false => lockBegin s r
    | 2, false => lockBegin s r
    | 4, false => lockBegin s r
    | 3, false => rinvBegin s r
    | 5, false => rmoveBegin s r
    | 5, true => rmoveNext s r
    | 6, false => rcmptBegin s r
    | 6, true => if r.lo < r.hi then rcmptNext s r else s
    | _, _ => s

/-- An operation that has begun has nothing left to wait for. -/
def rangeOver (s : State) (r : RangeReq) : Bool :=
  let still := s.moves.any fun (_, m) => m.ctx == r.ctx && decide (m.vbase < r.hi) && decide (r.lo < m.vlim)
  match r.code with
  | 3 => r.status != 0 || !r.extents.any fun e => accessIn s e.1 e.2
  | 5 => !still && (r.status != 0 || r.b != 2 || !(slotsIn s r.ctx r.lo r.hi).any fun x => x.piece.rst == away)
  | 6 => decide (r.hi ≤ r.a) || ((lowestIn s r.lo r.hi).isNone && !frameHeld s r.a r.hi && !s.moves.any fun (_, m) => match m.kind, walk s m.ctx m.vbase with
      | .rmove _, .found x => decide (x.extent.1 < r.hi) && decide (r.a < x.extent.2)
      | _, _ => false)
  | _ => false

/-- What the oldest request comes to now. -/
def rangeTry (s : State) (r : RangeReq) : RangeTry :=
  match r.code with
  | 1 => rsplitOp s r
  | 2 => rmergeOp s r
  | 4 => rhintOp s r
  | 7 => rprobeOp s r
  | 8 => stepOp s r
  | _ =>
    if !r.begun || !rangeOver s r then .wait
    else .status (r.extents.foldl (fun s e => flushExtent s e.1 e.2) s) r.status

/-- The result goes to the scalar, or ends the queue command (R361, R417). -/
def deliverRange (s : State) (r : RangeReq) (v : W32) : State :=
  match r.asker with
  | .warp crew warp sd =>
    (match getWarp s crew warp with
    | some wp => setWarp s crew warp { wp with regs := wp.regs.putScalar sd v }
    | none => s)
  | .queue q tag note =>
    (match (getQueue s q).started.find? fun e => e.2 == .range r.id with
    | some e => if v = 0 then completeStarted s q e tag note else faultStarted s q e 6 (v.toNat % 256) tag
    | none => s)
  | .release _ => s

/-- RANGE_OP_COMPLETE (R415, R417): the oldest request ends. -/
def execRangeOpComplete (k : Nat) (s : State) : Host.Outcome State Fault Refusal :=
  .next (match s.rangeReqs with
    | [] => s
    | r :: rest =>
      if r.id ≠ k then s
      else match rangeTry s r with
        | .wait => s
        | .done s v => deliverRange (lockEnd { s with rangeReqs := rest } r) r v)

end Sys2Proof.Machine
end

