-- ==== Sys2Proof/Machine/Scheduling.lean ====
section
/-! DEFINITION. Register counts (R153-R156), evictions from slots (R141), time slices and yield deadlines (R348-R350), and the
other causes for which crews leave cores (R350, R411). -/

namespace Sys2Proof.Machine

/-! ### GROW and SHRINK (R153-R155) -/

/-- The reason of GROW_OVER for a target, in table order (R155); SHRINK tests only the conditions that R153 gives it. -/
def growReason (width n have_ : Nat) (grow : Bool) : Option Nat :=
  firstReason [(1, n % 8 != 0 || n == 0), (2, grow && decide (384 < n)), (3, grow && decide (65536 < n * width)),
               (4, if grow then decide (n < have_) else decide (have_ < n))]

def growOver (x : Site) (reason n : Nat) : TrapInfo :=
  { code := 0x16, tx := BitVec.ofNat 32 (reason + 2 ^ 16 * (n % 2 ^ 16)), mask := x.act }

/-- The pending requests of a partition, oldest first: crew, warp, lane-registers, order (R154). -/
def growRequests (s : State) (core part : Nat) : List (Nat × Nat × Nat × Nat) :=
  let all := ((crewsOn s core).map fun (k, c) => c.warps.filterMap fun (w, wp) => match wp.grow with
    | some g => if wp.part = part ∧ !g.failed ∧ !wp.retired then some (k, w, (g.n - wp.n) * widthOf s c, g.order) else none
    | none => none).flatten
  (all.foldl (fun (m : KV (Nat × Nat × Nat × Nat)) e => kvSet m e.2.2.2 e) []).map (·.2)

def freeRegs (s : State) (core part : Nat) : Nat := ((coreRoom s core).getD part (0, [])).1

/-- The warp with more registers: the new ones zero and full in every lane. -/
def Warp.grown (wp : Warp) (n : Nat) : Warp :=
  let old (k : Nat) : Bool := decide (k / 64 < wp.n)
  { wp with n := n, grow := none
            regs := { wp.regs with v := kvFilter wp.regs.v fun k _ => old k, vempty := wp.regs.vempty.filter old
                                   vpoison := wp.regs.vpoison.filter old } }

/-- The warp with fewer registers. -/
def Warp.shrunk (wp : Warp) (n : Nat) : Warp :=
  let old (k : Nat) : Bool := decide (k / 64 < n)
  { wp with n := n, regs := { wp.regs with v := kvFilter wp.regs.v fun k _ => old k, vpoison := wp.regs.vpoison.filter old } }

/-- GROW (R153, R154): granted at once when no older request waits and the partition has the registers. -/
def execGrow (w : Enc) (s : State) : Host.Outcome State Fault Refusal :=
  issueInstr (.grow w) w s fun x s =>
    if x.act = 0 then .done x s
    else
      let n := uB s x w
      match x.wp.grow with
      | some g =>
        if g.failed then .trap { x with wp := { x.wp with grow := none } } (growOver x 5 n) s else .block x s
      | none =>
        match growReason x.width n x.wp.n true with
        | some r => .trap x (growOver x r n) s
        | none =>
          if n = x.wp.n then .done x s
          else if (growRequests s x.ref.core x.wp.part).isEmpty ∧ (n - x.wp.n) * x.width ≤ freeRegs s x.ref.core x.wp.part then
            .done { x with wp := x.wp.grown n } s
          else
            let (id, s) := s.newId
            .block { x with wp := { x.wp with grow := some { n := n, order := id } } } s

/-- SHRINK (R153, R154). -/
def execShrink (w : Enc) (s : State) : Host.Outcome State Fault Refusal :=
  issueInstr (.shrink w) w s fun x s =>
    if x.act = 0 then .done x s
    else
      let n := uB s x w
      match growReason x.width n x.wp.n false with
      | some r => .trap x (growOver x r n) s
      | none =>
        if x.wp.regs.vempty.any fun k => decide (n ≤ k / 64) then .block x s
        else .done { x with wp := x.wp.shrunk n } s

/-- GROW_GRANT (R154): the oldest request of a partition, when its free count holds it. -/
def execGrowGrant (core part : Nat) (s : State) : Host.Outcome State Fault Refusal :=
  .next (match growRequests s core part with
    | [] => s
    | (k, w, need, _) :: _ =>
      if freeRegs s core part < need then s
      else match getWarp s k w with
        | some wp => setWarp s k w (match wp.grow with | some g => wp.grown g.n | none => wp)
        | none => s)

/-! ### When every warp waits (R156) -/

/-- A warp's request that is still to be granted. -/
def Warp.growing (wp : Warp) : Bool := match wp.grow with | some g => !g.failed | none => false

/-- A path that waits in BARW or BARAW on a barrier slot of the core. -/
def Path.atSlot (p : Path) : Bool :=
  !p.barGroup && match p.barWait with
    | some (.arriving _ _) | some (.phase _ _) => true
    | _ => false

/-- A path that no other agent than its own warp's paths sets going. -/
def Path.parked (p : Path) : Bool := p.st.still || p.st == .noEntry

/-- A warp that waits on a request, or none of whose paths can run while some of them wait at slots of the core (R156). -/
def Warp.waitsHere (wp : Warp) : Bool :=
  wp.growing || ((wp.paths.any fun e => e.2.atSlot) && wp.paths.all fun e => e.2.atSlot || e.2.parked)

/-- The conditions of R156. -/
def regStalled (s : State) (core : Nat) : Bool :=
  let ws := ((crewsOn s core).map fun (_, c) => c.warps.map (·.2)).flatten
  (ws.all fun w => w.retired || w.waitsHere) &&
  (ws.any fun w => !w.retired && w.growing) &&
  !s.cmds.any fun (_, c) => c.core == core && c.phase != .completed

/-- The oldest request of a core: crew, warp, partition, lane-registers. -/
def oldestGrow (s : State) (core : Nat) : Option (Nat × Nat × Nat × Nat) :=
  let all := ((List.range 8).map fun p => (growRequests s core p).map fun e => (e.2.2.2, (e.1, e.2.1, p, e.2.2.1))).flatten
  (pickMin (fun a b => decide (a.1 < b.1)) all).map (·.2)

/-- The lane-registers of a partition that a crew holds. -/
def crewRegs (s : State) (c : Crew) (part : Nat) : Nat :=
  sumOf (c.warps.filter fun e => !e.2.retired && e.2.part == part) fun e => e.2.n * widthOf s c

/-- The youngest crews, until what they hold of a partition and what is free come to a need. -/
def stallVictims (s : State) (part need : Nat) : List (Nat × Crew) → Nat → Option (List Nat)
  | [], free => if need ≤ free then some [] else none
  | (k, c) :: rest, free =>
    if need ≤ free then some [] else (stallVictims s part need rest (free + crewRegs s c part)).map fun l => k :: l

/-- Crews of a core, youngest first. -/
def youngest (s : State) (core : Nat) : KV Crew :=
  ((crewsOn s core).foldl (fun (m : KV (Nat × Crew)) e => kvSet m e.2.placedAt e) []).reverse.map (·.2)

/-- REGISTER_STALL_RESOLUTION (R156). -/
def execRegisterStallResolution (core : Nat) (s : State) : Host.Outcome State Fault Refusal :=
  .next (match (getCore s core).regStallSince, oldestGrow s core with
    | some t, some (k, w, part, need) =>
      if s.now < t + 256 ∨ !regStalled s core then s
      else
        let s := (let co := getCore s core; setCore s core { co with regStallSince := none })
        let cand := (youngest s core).filter fun (j, c) => j != k && c.phase == .resident &&
          c.warps.any fun e => !e.2.retired && e.2.waitsHere
        match stallVictims s part need cand (freeRegs s core part) with
        | some vs => vs.foldl (fun s j => askSave s j .registers) s
        | none =>
          match getWarp s k w with
          | some wp => setWarp s k w { wp with grow := wp.grow.map fun g => { g with failed := true } }
          | none => s
    | _, _ => s)

/-! ### Eviction from a slot (R141) -/

/-- STALL_EVICTION (R141): a warp STALLED for 512 core cycles leaves its slot, its files saved. -/
def execStallEviction (dws : Nat) (s : State) : Host.Outcome State Fault Refusal :=
  .next (match warpAt s dws with
    | none => s
    | some r =>
      match getWarp s r.crew r.warp with
      | none => s
      | some wp =>
        match wp.run.bind fun q => q.stalled with
        | some t => if t + 512 ≤ s.now then setWarp s r.crew r.warp wp.evicted else s
        | none => s)

/-! ### Time slices (R348-R350) -/

/-- The device as it would be without some crews on their cores. -/
def without (s : State) (keys : List Nat) : State :=
  { s with crews := kvMap s.crews fun k (c : Crew) => if keys.contains k then { c with phase := .retired } else c }

/-- A crew with the other crews of its window, which leave with it (R384). -/
def windowKeys (s : State) (key : Nat) : List Nat :=
  let c := kvD s.crews key {}
  match windowOf (getLaunch s c.launch) c.num with
  | none => [key]
  | some ms => key :: ((windowCrews s c.launch ms).map fun e => e.2.1).filter fun k => k != key

def withWindows (s : State) (keys : List Nat) : List Nat := (keys.map (windowKeys s)).flatten

/-- Victims, youngest first, until a waiter would have room (R348, R384). -/
def sliceVictims (s : State) (w : Waiter) (core : Nat) : List Nat → List Nat → List Nat
  | [], gone => gone
  | k :: rest, gone =>
    if (roomFor (without s (withWindows s gone)) w core).isSome then gone else sliceVictims s w core rest (gone ++ [k])

/-- A picked crew's deadline (R349). -/
def pick (s : State) (key grace : Nat) : State :=
  modCrew s key fun c => if c.phase = .resident ∧ c.ydl.isNone ∧ c.saveWhy.isNone then { c with ydl := some (s.now + grace) } else c

/-- The crews of other contexts that would use a core without some crews, their windows with them (R348). -/
def wouldUse (s : State) (core ctx : Nat) (gone : List Nat) : List Waiter :=
  (waiters s).filter fun w => w.ctx != ctx && (roomFor (without s (withWindows s gone)) w core).isSome

/-- SLICE_EXPIRY (R348, R384). The room goes to the context of the crew that is placed first. -/
def execSliceExpiry (core ctx : Nat) (s : State) : Host.Outcome State Fault Refusal :=
  .next (
    let mine := (youngest s core).filter fun (_, c) => c.ctx == ctx && c.phase == .resident
    let leaving := (mine.filter fun e => e.2.ydl.isSome || e.2.saveWhy.isSome).map (·.1)
    let free := (mine.filter fun e => !(e.2.ydl.isSome || e.2.saveWhy.isSome)).map (·.1)
    match kvGet (getCore s core).sliceSince ctx, pickMin Waiter.ahead (wouldUse s core ctx (leaving ++ free)) with
    | some t, some w =>
      if s.now < t + descField s ctx 28 4 then s
      else
        let co := getCore s core
        let s := setCore s core { co with sliceSince := kvDel co.sliceSince ctx, incoming := some (ctx, w.ctx) }
        let picked := (sliceVictims s w core free leaving).filter fun k => !leaving.contains k
        (withWindows s picked).foldl (fun s j => pick s j (descField s ctx 48 4)) s
    | _, _ => s)

/-- YIELD_DEADLINE_EXPIRY (R349, R351): the forced save; a debugger halt holds it. -/
def execYieldDeadlineExpiry (crew : Nat) (s : State) : Host.Outcome State Fault Refusal :=
  .next (match kvGet s.crews crew with
    | none => s
    | some c =>
      match c.ydl with
      | some t =>
        if t ≤ s.now ∧ c.saveWhy.isNone ∧ !c.halted ∧ c.phase = .resident then
          modCrew s crew fun c => { c with ydlExpired := true, saveWhy := some .slice }
        else s
      | none => s)

/-- NPREG_BUDGET_EXPIRY (R176, R350). -/
def execNpregBudgetExpiry (crew : Nat) (s : State) : Host.Outcome State Fault Refusal :=
  .next (modCrew s crew fun c => match c.npreg with
    | some t => if t ≤ s.now then { c with npreg := none } else c
    | none => c)

/-- The cores that run hot: one, or those of a quad. -/
def hotCores : HotPlace → List Nat
  | .core n => [n]
  | .quad n => (List.range 4).map fun k => 4 * n + k

/-- THERMAL_MIGRATION (R350): the crews are placed again on other cores. -/
def execThermalMigration (hot : HotPlace) (s : State) : Host.Outcome State Fault Refusal :=
  .next { s with crews := kvMap s.crews fun _ (c : Crew) =>
    if c.phase = .resident ∧ (hotCores hot).contains c.core = true then { c.ask .migration with barred := hotCores hot } else c }

/-- A crew with a touch that waits on a move is saved when a waiting crew would fit in its place (R411). -/
def recallSaveMove (s : State) (crew : Nat) : State :=
  match kvGet s.crews crew with
  | none => s
  | some c =>
    let waits := c.warps.any fun e => match e.2.touchWait with
      | some m => (kvGet s.moves m).isSome
      | none => false
    let stays := match c.saveWhy with
      | none => true
      | some w => w.waits
    if c.phase = .resident ∧ stays = true ∧ !c.halted ∧ waits ∧
        (waiters s).any fun w => (roomFor (without s [crew]) w c.core).isSome then
      modCrew (askSave s crew .recall) crew fun c => { c with hold := .move }
    else s

end Sys2Proof.Machine
end

