-- ==== Sys2Proof/Machine/System.lean ====
section
/-! DEFINITION. SYSRD, SYSWR and CLK and the system registers (R452, R457-R460, R468, R481). -/

namespace Sys2Proof.Machine

/-! ### Registers of the ports (R468) -/

/-- The port and field of a link register. -/
def linkReg (n : Nat) : Option (Nat × Nat) := if 0x580 ≤ n ∧ n < 0x580 + 72 then some ((n - 0x580) / 8, (n - 0x580) % 8) else none

def PortState.code : PortState → Nat
  | .down => 0
  | .training => 1
  | .up => 2
  | .degraded => 3
  | .draining => 4

def readLink (s : State) (port k : Nat) : Nat :=
  let p := getPort s port
  match k with
  | 0 => PortState.code p.st
  | 2 => p.fecc.toNat
  | 3 => p.fecu.toNat
  | 4 => p.retx.toNat
  | 5 => p.drop.toNat
  | 6 => p.train.toNat
  | 7 => s.service.letype.toNat
  | _ => 0

def writeLink (s : State) (port k : Nat) (v : W32) : State :=
  let p := getPort s port
  match k with
  | 1 => writeLctl s port v.toNat
  | 2 => setPort s port { p with fecc := v }
  | 3 => setPort s port { p with fecu := v }
  | 4 => setPort s port { p with retx := v }
  | 5 => setPort s port { p with drop := v }
  | 6 => setPort s port { p with train := v }
  | 7 => if port = 0 then { s with service := { s.service with letype := BitVec.ofNat 16 v.toNat } } else s
  | _ => s

/-! ### Registers of the device and the context (R452, R458, R481) -/

/-- A DRAINING core on which no crew is left is TESTING (R482). -/
def fenceCode (s : State) (core : Nat) : Nat :=
  match (getCore s core).fence with
  | .inService => 0
  | .draining => if (crewsOn s core).isEmpty then 2 else 1
  | .out => 3

/-- FSTAT of the selected core (R481-R483); no core has a number of 192 or above. -/
def fstat (s : State) : Nat :=
  let n := s.service.fsel.toNat
  if 192 ≤ n then (Config.freeWord s.tick).toNat
  else
    fenceCode s n + if (getCore s n).beyondSpares then 16 else 0

/-- A word of a watch (R458). -/
def watchWord (w : Watch) (k : Nat) : Nat :=
  match k with
  | 0 => w.base % 2 ^ 32
  | 1 => w.base / 2 ^ 32 % 2 ^ 24
  | 2 => w.m % 32 + 256 * (w.kind % 4)
  | _ => 0

def putWatchWord (w : Watch) (k v : Nat) : Watch :=
  match k with
  | 0 => { w with base := w.base / 2 ^ 32 * 2 ^ 32 + v % 2 ^ 32 }
  | 1 => { w with base := w.base % 2 ^ 32 + v % 2 ^ 24 * 2 ^ 32 }
  | 2 => { w with m := v % 32, kind := bitsAt v 8 2 }
  | _ => w

/-- The value of a system register for a warp (R458). -/
def readSys (s : State) (x : Site) (n : Nat) : Nat :=
  let c := getCtx s x.cr.ctx
  let l := getLaunch s x.cr.launch
  let co := getCore s x.ref.core
  let v := s.service
  let w (m : KV W32) (k : Nat) : Nat := (kvD m k 0).toNat
  let stack (k : Nat) : Stack := kvD s.stackTab k {}
  if n < 16 then (x.wp.record.getD n 0).toNat
  else if n = 0x20 then c.errcnt.toNat
  else if 0x100 ≤ n ∧ n ≤ 0x1FF then ((kvD c.errlog ((n - 0x100) / 16) []).getD (n % 16) 0).toNat
  else if n = 0x200 then l.commits.toNat
  else if n = 0x201 then l.discards.toNat
  else if n = 0x202 then kvD l.outS x.ref.core 0
  else if n = 0x203 then kvD l.outP x.ref.core 0
  else if n = 0x204 then kvD l.outG x.ref.core 0
  else if n = 0x210 then c.cforced.toNat
  else if 0x300 ≤ n ∧ n ≤ 0x303 then w co.cmiss (n - 0x300)
  else if 0x310 ≤ n ∧ n ≤ 0x317 then w co.pstall (n - 0x310)
  else if n = 0x320 then co.ccorr.toNat
  else if 0x400 ≤ n ∧ n ≤ 0x41F then w (stack ((n - 0x400) / 4)).miss (n % 4)
  else if 0x420 ≤ n ∧ n ≤ 0x427 then (stack (n - 0x420)).forced.toNat
  else if 0x428 ≤ n ∧ n ≤ 0x447 then w (stack ((n - 0x428) / 4)).postponed (n % 4)
  else if 0x450 ≤ n ∧ n ≤ 0x453 then w v.hmiss (n - 0x450)
  else if n = 0x500 then v.pproj.toNat
  else if n = 0x501 then v.penv.toNat
  else if 0x504 ≤ n ∧ n ≤ 0x506 then w v.plim (n - 0x504)
  else if n = 0x510 then (Config.freeWord s.tick).toNat
  else if n = 0x520 then v.fsel.toNat
  else if n = 0x521 then fstat s
  else if n = 0x530 then v.chain.length
  else if 0x700 ≤ n ∧ n ≤ 0x70F then watchWord (kvD c.watches ((n - 0x700) / 4) {}) (n % 4)
  else match linkReg n with
    | some (p, k) => readLink s p k
    | none => 0

/-- A write of a system register for a warp; what is not writable keeps its value (R458). -/
def writeSys (s : State) (x : Site) (n : Nat) (v : W32) : State :=
  let c := getCtx s x.cr.ctx
  let co := getCore s x.ref.core
  let sv := s.service
  let stack (k : Nat) : Stack := kvD s.stackTab k {}
  let putStack (k : Nat) (y : Stack) : State := { s with stackTab := kvSet s.stackTab k y }
  let core (y : Core) : State := setCore s x.ref.core y
  if n = 0x210 then setCtx s x.cr.ctx { c with cforced := v }
  else if 0x300 ≤ n ∧ n ≤ 0x303 then core { co with cmiss := kvSet co.cmiss (n - 0x300) v }
  else if 0x310 ≤ n ∧ n ≤ 0x317 then core { co with pstall := kvSet co.pstall (n - 0x310) v }
  else if n = 0x320 then core { co with ccorr := v }
  else if 0x400 ≤ n ∧ n ≤ 0x41F then
    let y := stack ((n - 0x400) / 4)
    putStack ((n - 0x400) / 4) { y with miss := kvSet y.miss (n % 4) v }
  else if 0x420 ≤ n ∧ n ≤ 0x427 then putStack (n - 0x420) { stack (n - 0x420) with forced := v }
  else if 0x428 ≤ n ∧ n ≤ 0x447 then
    let y := stack ((n - 0x428) / 4)
    putStack ((n - 0x428) / 4) { y with postponed := kvSet y.postponed (n % 4) v }
  else if 0x450 ≤ n ∧ n ≤ 0x453 then { s with service := { sv with hmiss := kvSet sv.hmiss (n - 0x450) v } }
  else if n = 0x501 then
    { s with service := { sv with penv := BitVec.ofNat 32 (max 1000 (min 2200 v.toNat)) } }
  else if 0x504 ≤ n ∧ n ≤ 0x506 then { s with service := { sv with plim := kvSet sv.plim (n - 0x504) v } }
  else if n = 0x520 then { s with service := { sv with fsel := v &&& 0xFF } }
  else if 0x700 ≤ n ∧ n ≤ 0x70F then
    let k := (n - 0x700) / 4
    setCtx s x.cr.ctx { c with watches := kvSet c.watches k (putWatchWord (kvD c.watches k {}) (n % 4) v.toNat) }
  else match linkReg n with
    | some (p, k) => writeLink s p k v
    | none => s

/-- SYSRD (R458, R459): its scalar is empty until the register has been read. -/
def execSysrd (w : Enc) (s : State) : Host.Outcome State Fault Refusal :=
  issueInstr (.sysrd w) w s fun x s =>
    if x.act = 0 then .done x s
    else
      let c := getCore s x.ref.core
      let q : SysRead := { crew := x.ref.crew, warp := x.ref.warp, num := uB s x w, reg := w.d.idx.toNat }
      .done (x.mapRegs fun r => r.emptyScalar q.reg 1) (setCore s x.ref.core { c with sysReads := c.sysReads ++ [q] })

/-- A core's k-th SYSRD reads its register as it stands, and its scalar is full (R459). -/
def sysReadMove (s : State) (core k : Nat) : State :=
  let c := getCore s core
  match c.sysReads[k]? with
  | none => s
  | some q =>
    let s := setCore s core { c with sysReads := c.sysReads.eraseIdx k }
    match kvGet s.crews q.crew, getWarp s q.crew q.warp with
    | some cr, some wp =>
      let x : Site := ⟨⟨core, q.crew, q.warp⟩, cr, wp, {}, {}, (getLaunch s cr.launch).kernel, 0⟩
      setWarp s q.crew q.warp { wp with regs := wp.regs.putScalar q.reg (BitVec.ofNat 32 (readSys s x q.num)) }
    | _, _ => s

/-- SYSWR (R458, R459). -/
def execSyswr (w : Enc) (s : State) : Host.Outcome State Fault Refusal :=
  issueInstr (.syswr w) w s fun x s =>
    if x.act = 0 then .done x s
    else if !x.wp.storeQ.isEmpty then .block x s
    else .done x (writeSys (releaseStep s x.ref.core 3) x (uB s x w) (BitVec.ofNat 32 (srcC s x .n32 w 0)))

/-- The value of CLK (R460): %clk, or the fabric cycles since the last reset. -/
def clkValue (s : State) (x : Site) (k : Nat) : Nat :=
  match k with
  | 0 => (s.now - (getCore s x.ref.core).clkBase) % 2 ^ 64
  | 1 => 2 * s.now % 2 ^ 64
  | _ => 0

/-- CLK (R460). -/
def execClk (w : Enc) (s : State) : Host.Outcome State Fault Refusal :=
  issueInstr (.clk w) w s fun x s =>
    if x.act = 0 then .done x s else .done (x.writeDst w.d true [(0, clkValue s x (uB s x w))]) s

end Sys2Proof.Machine
end

