-- ==== Sys2Proof/Machine/Wide.lean ====
section
/-! DEFINITION. The warp-wide instructions, predicate logic and BXQ (R178-R186). -/

namespace Sys2Proof.Machine

/-- Lane masks are pairs at W = 64 (R163). -/
def Site.maskWide (x : Site) : Bool := x.width == 64

/-- VOTE (R179). -/
def execVote (w : Enc) (s : State) : Host.Outcome State Fault Refusal :=
  issueInstr (.vote w) w s (onSite fun _ x =>
    if x.act = 0 then x
    else
      let m := predSrcMask x w.a &&& x.act
      match w.sub.toNat with
      | 0 => x.putBit w.d (m == x.act)
      | 1 => x.putBit w.d (m != 0)
      | 2 => x.putBit w.d (m == x.act || m == 0)
      | 3 => x.putDst w.d x.maskWide [(0, m.toNat)]
      | _ => x.putDst w.d false [(0, maskCount m)])

/-- SHFL (R180). -/
def execShfl (w : Enc) (s : State) : Host.Outcome State Fault Refusal :=
  issueInstr (.shfl w) w s (onSite fun s x =>
    x.putDst w.d (Ty.wide w.ty) (x.lanes fun l => srcValue s x w.ty w.a (shflLane w.sub.toNat x.width l (nB s x w l))))

/-- The value of A in a lane for a reduction: a predicate's bit, or the source (R181). -/
def reduceSource (s : State) (x : Site) (w : Enc) (l : Nat) : Nat :=
  if w.ty = .b1 then (predValue x w.a l).toNat else srcValue s x w.ty w.a l

/-- Ors one set of flags into every lane of a mask. -/
def Site.flagLanes (x : Site) (m : Mask) (f : FFlags) : Site :=
  x.mapRegs fun r => (lanesOf m).foldl (fun r l => r.addFlags l f) r

/-- WRED (R181). -/
def execWred (w : Enc) (s : State) : Host.Outcome State Fault Refusal :=
  issueInstr (.wred w) w s (onSite fun s x =>
    if x.act = 0 then x
    else
      let r := reduceV x.prof w.ty w.sub.toNat (dMod w) ((lanesOf x.act).map fun l => reduceSource s x w l)
      (x.putDst w.d (Ty.wide w.ty) [(0, r.1)]).flagLanes x.act r.2)

/-- WSCAN (R182). Which prefix a scalar destination takes is not stated. -/
def execWscan (w : Enc) (s : State) : Host.Outcome State Fault Refusal :=
  issueInstr (.wscan w) w s (onSite fun s x =>
    let excl := w.sub.getLsbD 3
    let r (l : Nat) : Nat × FFlags :=
      reduceV x.prof w.ty (w.sub.toNat % 8) (dMod w)
        (((lanesOf x.act).filter fun k => decide (k < l) || (k == l && !excl)).map fun k => srcValue s x w.ty w.a k)
    let rs := (lanesOf x.act).map fun l => (l, r l)
    let free := (Config.freeWord (2 * s.tick)).toNat + 2 ^ 32 * (Config.freeWord (2 * s.tick + 1)).toNat
    let x := x.putDst w.d (Ty.wide w.ty) (rs.map fun (l, v) => (l, if w.d.file = .scalar then free else v.1))
    x.mapRegs fun g => rs.foldl (fun g (l, v) => g.addFlags l v.2) g)

/-- MATCH (R183). -/
def execLaneMatch (w : Enc) (s : State) : Host.Outcome State Fault Refusal :=
  issueInstr (.laneMatch w) w s (onSite fun s x =>
    let v (l : Nat) : Nat := srcValue s x w.ty w.a l
    let lanes := lanesOf x.act
    if w.sub = 0 then
      x.putDst w.d x.maskWide (x.lanes fun l => (maskOf (lanes.filter fun k => v k == v l)).toNat)
    else
      let same := lanes.all fun l => v l == v (lowLane x.act)
      let x := x.putDst w.d x.maskWide (x.lanes fun _ => if same then x.act.toNat else 0)
      if x.act = 0 then x else x.putBit w.e same)

/-- ELECT (R184). -/
def execElect (w : Enc) (s : State) : Host.Outcome State Fault Refusal :=
  issueInstr (.elect w) w s (onSite fun _ x =>
    if x.act = 0 then x else x.putPred w.d (laneBit (lowLane x.act)))

/-- A predicate or j destination; a j mask takes effect at once for JOIN and JWAIT (R185). -/
def predBody (w : Enc) (v : Site → State → Mask) (x : Site) (s : State) : Act :=
  if x.act = 0 then .done x s
  else
    let y := x.putPred w.d (v x s)
    if 16 ≤ w.d.idx.toNat then .ended (x.put s (settlePaths (y.advance w))) else .done y s

/-- PLOP (R185). -/
def execPlop (w : Enc) (s : State) : Host.Outcome State Fault Refusal :=
  issueInstr (.plop w) w s (predBody w fun x _ =>
    let a := predSrcMask x w.a
    let b := predSrcMask x w.b
    match w.sub.toNat with
    | 0 => a &&& b
    | 1 => a ||| b
    | 2 => a ^^^ b
    | _ => a &&& ~~~b)

/-- PMOV (R185). -/
def execPmov (w : Enc) (s : State) : Host.Outcome State Fault Refusal :=
  issueInstr (.pmov w) w s (onSite fun _ x =>
    if x.act = 0 then x else x.putDst w.d x.maskWide [(0, (predSrcMask x w.a).toNat)])

/-- The scalar of PMOV.set, or its inverse under MOD 01 (R59, R185). -/
def pmovMask (s : State) (x : Site) (o : Operand) : Mask :=
  let m : Mask := BitVec.ofNat 64 (rawValue s x .n64 x.maskWide o 0)
  if o.mod = 1 then ~~~m else m

/-- PMOV.set (R185). -/
def execPmovSet (w : Enc) (s : State) : Host.Outcome State Fault Refusal :=
  issueInstr (.pmovSet w) w s (predBody w fun x s => pmovMask s x w.a)

/-- An element of a BXQ block: read as encoded, through its modifier (R59, R186). -/
def bxqElem (x : Site) (w : Enc) (l j : Nat) : FVal :=
  let l' := if w.a.lsel = 1 then 0 else l
  decodeF fmt32 (applyMod .fp .f32 w.a.mod.toNat (mainValue x.wp (w.a.idx.toNat + j) l' false))

/-- BXQ (R186). -/
def execBxq (w : Enc) (s : State) : Host.Outcome State Fault Refusal :=
  issueInstr (.bxq w) w s (onSite fun _ x =>
    let bx4 := w.sub == 1
    let k := (if bx4 then 128 else 64) / x.width
    let elems := ((List.range x.width).map fun l => (List.range k).map fun j =>
      if x.act.getLsbD l then bxqElem x w l j else .fin false 0 0).flatten
    let (codes, tag) := quantise bx4 elems
    let nb := if bx4 then 4 else 8
    let x := x.putDst w.d false (x.lanes fun l =>
      (List.range k).foldl (fun v j => v + codes.getD (l * k + j) 0 % 2 ^ nb * 2 ^ (nb * j)) 0)
    if x.act = 0 then x else x.writeDst w.e false [(0, tag)])

end Sys2Proof.Machine
end

