-- ==== Sys2Proof/Machine/Zorsis.lean ====
section
/-! DEFINITION. The Zorsis instructions alone, for the agents that must know whether a warp's next instruction would wait
(R143) or that issue one by request (R486). -/

namespace Sys2Proof.Machine

/-- What issuing a Zorsis instruction comes to; the steps of the other agents have no word. -/
def issueWord (i : Instr) (s : State) : Host.Outcome State Fault Refusal :=
  match i with
  | .nop w => execNop w s
  | .bra w => execBra w s
  | .brau w => execBrau w s
  | .brx w => execBrx w s
  | .call w => execCall w s
  | .calli w => execCalli w s
  | .ret w => execRet w s
  | .jsave w => execJsave w s
  | .join w => execJoin w s
  | .jwait w => execJwait w s
  | .exit w => execExit w s
  | .refill w => execRefill w s
  | .reform w => execReform w s
  | .yield w => execYield w s
  | .npregEnter w => execNpregEnter w s
  | .npregLeave w => execNpregLeave w s
  | .trapBrk w => execTrapBrk w s
  | .trapCall w => execTrapCall w s
  | .trapTret w => execTrapTret w s
  | .iadd w => execIadd w s
  | .isub w => execIsub w s
  | .iaddc w => execIaddc w s
  | .isubb w => execIsubb w s
  | .imul w => execImul w s
  | .imulh w => execImulh w s
  | .imad w => execImad w s
  | .imadw w => execImadw w s
  | .imin w => execImin w s
  | .imax w => execImax w s
  | .iabs w => execIabs w s
  | .isad w => execIsad w s
  | .icmp w => execIcmp w s
  | .isel w => execIsel w s
  | .and w => execAnd w s
  | .or w => execOr w s
  | .xor w => execXor w s
  | .andn w => execAndn w s
  | .lop3 w => execLop3 w s
  | .shl w => execShl w s
  | .shr w => execShr w s
  | .sar w => execSar w s
  | .rotl w => execRotl w s
  | .fshf w => execFshf w s
  | .bfx w => execBfx w s
  | .bfi w => execBfi w s
  | .popc w => execPopc w s
  | .clz w => execClz w s
  | .ctz w => execCtz w s
  | .brev w => execBrev w s
  | .blv w => execBlv w s
  | .bdlv w => execBdlv w s
  | .lea w => execLea w s
  | .prmt w => execPrmt w s
  | .mov w => execMov w s
  | .movl w => execMovl w s
  | .cvti w => execCvti w s
  | .idiv w => execIdiv w s
  | .fadd w => execFadd w s
  | .fsub w => execFsub w s
  | .fmul w => execFmul w s
  | .ffma w => execFfma w s
  | .fmin w => execFmin w s
  | .fmax w => execFmax w s
  | .fcmp w => execFcmp w s
  | .fclass w => execFclass w s
  | .frnd w => execFrnd w s
  | .fcvt w => execFcvt w s
  | .f2i w => execF2i w s
  | .i2f w => execI2f w s
  | .fdiv w => execFdiv w s
  | .fsqrt w => execFsqrt w s
  | .frcp w => execFrcp w s
  | .frsq w => execFrsq w s
  | .exp2 w => execExp2 w s
  | .log2 w => execLog2 w s
  | .sinpi w => execSinpi w s
  | .cospi w => execCospi w s
  | .fdot2 w => execFdot2 w s
  | .fscale w => execFscale w s
  | .flgclr w => execFlgclr w s
  | .welf w => execWelf w s
  | .wmrg w => execWmrg w s
  | .vote w => execVote w s
  | .shfl w => execShfl w s
  | .wred w => execWred w s
  | .wscan w => execWscan w s
  | .laneMatch w => execLaneMatch w s
  | .elect w => execElect w s
  | .plop w => execPlop w s
  | .pmov w => execPmov w s
  | .pmovSet w => execPmovSet w s
  | .bxq w => execBxq w s
  | .ld w => execLd w s
  | .st w => execSt w s
  | .lds w => execLds w s
  | .sts w => execSts w s
  | .ldk w => execLdk w s
  | .atom w => execAtom w s
  | .atoms w => execAtoms w s
  | .red w => execRed w s
  | .pfetch w => execPfetch w s
  | .pfetchZero w => execPfetchZero w s
  | .fence w => execFence w s
  | .cflush w => execCflush w s
  | .cinv w => execCinv w s
  | .csplit w => execCsplit w s
  | .sealRec w => execSealRec w s
  | .unsealRec w => execUnsealRec w s
  | .hqry w => execHqry w s
  | .cpy w => execCpy w s
  | .gath w => execGath w s
  | .scat w => execScat w s
  | .coll w => execColl w s
  | .putn w => execPutn w s
  | .getn w => execGetn w s
  | .signal w => execSignal w s
  | .waitc w => execWaitc w s
  | .cntrd w => execCntrd w s
  | .mma w => execMma w s
  | .mmap w => execMmap w s
  | .mmag w => execMmag w s
  | .accz w => execAccz w s
  | .accld w => execAccld w s
  | .accst w => execAccst w s
  | .accrd w => execAccrd w s
  | .accwr w => execAccwr w s
  | .mxacq w => execMxacq w s
  | .mxrel w => execMxrel w s
  | .mxstat w => execMxstat w s
  | .trace w => execTrace w s
  | .hitq w => execHitq w s
  | .candGet w => execCandGet w s
  | .candAccept w => execCandAccept w s
  | .candReject w => execCandReject w s
  | .candTerm w => execCandTerm w s
  | .filtTex w => execFiltTex w s
  | .filtGrid w => execFiltGrid w s
  | .tlshut w => execTlshut w s
  | .tlpost w => execTlpost w s
  | .tlqry w => execTlqry w s
  | .bari w => execBari w s
  | .bara w => execBara w s
  | .barw w => execBarw w s
  | .baraw w => execBaraw w s
  | .grpq w => execGrpq w s
  | .gred w => execGred w s
  | .step w => execStep w s
  | .sysrd w => execSysrd w s
  | .syswr w => execSyswr w s
  | .clk w => execClk w s
  | .grow w => execGrow w s
  | .shrink w => execShrink w s
  | .rsplit w => execRsplit w s
  | .rmerge w => execRmerge w s
  | .rinv w => execRinv w s
  | .rprobe w => execRprobe w s
  | .rhint w => execRhint w s
  | .rmove w => execRmove w s
  | .rcmpt w => execRcmpt w s
  | .commit w => execCommit w s
  | _ => .next s

end Sys2Proof.Machine
end

