-- ==== Sys2Proof/Machine/Runs.lean ====
section
/-! DEFINITION. Which warp and which path begin a run in an issue slot (R143, R144, R159). -/

namespace Sys2Proof.Machine

/-! ### Paths (R159) -/

/-- Paths by their lowest lane. -/
def byLowLane (l : List (Nat × Path)) : List Nat :=
  (l.foldl (fun (m : KV Nat) e => kvSet m (lowLane e.2.mask) e.1) []).map (·.2)

/-- The READY paths of a warp in the order in which they are considered: a path stopped inside its run alone, the paths of a
split just made, then the others from the one after the path that ran last (R141, R159). -/
def Warp.pathOrder (wp : Warp) : List Nat :=
  match wp.resumeAt with
  | some k => [k]
  | none =>
    let ready := wp.paths.filter fun e => e.2.st == .ready
    let made := ready.filter fun e => wp.afterSplit.contains e.1
    let rest := ready.filter fun e => !wp.afterSplit.contains e.1
    let after (e : Nat × Path) : Bool := match wp.lastLow with | some l => decide (l < lowLane e.2.mask) | none => true
    byLowLane made ++ byLowLane (rest.filter after) ++ byLowLane (rest.filter fun e => !after e)

/-- The warp with a path begun, or gone on with, in a slot. -/
def Warp.running (wp : Warp) (slot k : Nat) : Warp :=
  match kvGet wp.paths k with
  | none => wp
  | some p =>
    { wp with run := some { slot := slot, path := k, files := p.resume.getD {} }, resumeAt := none, readySince := none
              paths := kvSet wp.paths k { p with st := .running, resume := none } }

/-! ### Readiness (R143) -/

/-- The device with a warp's path in a slot and issuing. -/
def inSlot (s : State) (r : IssueRef) (wp : Warp) (slot k : Nat) : State :=
  { setWarp s r.crew r.warp (wp.running slot k) with issuing := some r }

/-- The device with the issuing warp held at its instruction. -/
def heldState (s : State) : State :=
  match siteOf s with
  | none => { s with issuing := none }
  | some x => { x.put s (x.hold s.now) with issuing := none }

/-- What issuing comes to for the warp that is in its slot: the state after it, unless it can only wait. -/
def tryIssue (s : State) : Option State :=
  let moved (before t : State) : Option State :=
    if { t with issuing := none } = heldState s ∨ { t with issuing := none } = heldState before then none else some t
  match planAt s with
  | .idle t => moved s t
  | .stopped t => some t
  | .run t i => (match issueWord i t with
    | .next u => moved t u
    | _ => some t)

/-- The first path of a warp whose run head is ready: issuing it does something other than wait. -/
def readyPath (s : State) (r : IssueRef) (wp : Warp) : Option Nat :=
  wp.pathOrder.find? fun k => (tryIssue (inSlot s r wp 3 k)).isSome

/-! ### Selection (R144) -/

/-- A READY warp with what decides among READY warps. -/
structure Runner where
  ref : IssueRef
  path : Nat
  prio : Nat
  yields : Bool
  since : Nat
  slot : Nat
  deriving DecidableEq, Repr

/-- A warp that may be given a slot: no request of it is pending, and no thread of it waits for a bin (R143, R146, R154). -/
def Warp.mayRun (wp : Warp) : Bool :=
  wp.run.isNone && !wp.retired && wp.halt.isNone && wp.pendingTrap.isNone && wp.live != 0 && !wp.growing && wp.filing.isEmpty

/-- The READY warps of a partition. -/
def runners (s : State) (core part : Nat) : List Runner :=
  (s.crews.map fun (ck, c) =>
    if c.phase != .resident || c.core != core || stopping s ck c then []
    else c.warps.filterMap fun (wk, wp) =>
      if wp.part != part || !wp.mayRun then none
      else
        let r : IssueRef := ⟨core, ck, wk⟩
        (readyPath s r wp).map fun k =>
          { ref := r, path := k, prio := min 7 ((getLaunch s c.launch).prio + wp.hintPh.toNat), yields := wp.hintYh,
            since := wp.readySince.getD s.now, slot := wp.wslot }).flatten

/-- The order of R144. -/
def Runner.before (now : Nat) (a b : Runner) : Bool :=
  let old (r : Runner) : Bool := decide (r.since + 256 ≤ now)
  let age : Bool := decide (a.since < b.since) || (a.since == b.since && decide (a.slot < b.slot))
  if old a ≠ old b then old a
  else if old a then age
  else if a.yields ≠ b.yields then b.yields
  else if a.prio ≠ b.prio then decide (b.prio < a.prio)
  else age

/-- The slots of a partition that warps hold. -/
def slotsInUse (s : State) (core part : Nat) : List Nat :=
  ((crewsOn s core).map fun (_, c) => c.warps.filterMap fun (_, wp) =>
    if wp.part = part then wp.run.map (·.slot) else none).flatten

/-- RUN_START (R144, R159): the lowest free slot of a partition selects a warp; the hints of the warps it chose among are used. -/
def execRunStart (core part slot : Nat) (s : State) : Host.Outcome State Fault Refusal :=
  .next (
    let used := slotsInUse s core part
    if (List.range 3).find? (fun k => !used.contains k) ≠ some slot then s
    else
      let rs := runners s core part
      match pickMin (Runner.before s.now) rs with
      | none => s
      | some r =>
        let s := rs.foldl (fun s q => match getWarp s q.ref.crew q.ref.warp with
          | some wp => setWarp s q.ref.crew q.ref.warp
              { wp with hintPh := false, hintYh := false, readySince := some (wp.readySince.getD s.now) }
          | none => s) s
        match getWarp s r.ref.crew r.ref.warp with
        | some wp => setWarp s r.ref.crew r.ref.warp (wp.running slot r.path)
        | none => s)

/-- Whether the instruction at which a warp is STALLED can go on: its sources have become full (R141). -/
def stallOver (s : State) (r : IssueRef) (wp : Warp) : Bool :=
  match wp.run with
  | some q => q.stalled.isSome && (tryIssue { setWarp s r.crew r.warp wp with issuing := some r }).isSome
  | none => false

/-- The warps that are STALLED no more, before time passes (R141). -/
def noteStalls (s : State) : State :=
  { s with crews := kvMap s.crews fun ck (c : Crew) =>
      if c.phase != .resident then c
      else { c with warps := kvMap c.warps fun wk (wp : Warp) =>
        if stallOver s ⟨c.core, ck, wk⟩ wp then { wp with run := wp.run.map fun q => { q with stalled := none } } else wp } }

/-- Notes which warps are READY, before time passes (R144). -/
def noteReady (s : State) : State :=
  { s with crews := kvMap s.crews fun ck (c : Crew) =>
      if c.phase != .resident || stopping s ck c then c
      else { c with warps := kvMap c.warps fun wk (wp : Warp) =>
        if !wp.mayRun then wp
        else if (readyPath s ⟨c.core, ck, wk⟩ wp).isSome then { wp with readySince := some (wp.readySince.getD s.now) }
        else { wp with readySince := none } } }

end Sys2Proof.Machine
end

