-- ==== Sys2Proof/Machine/Stacks.lean ====
section
/-! DEFINITION. The stacks' own schedules, which change counters and time but no value: service classes (R426-R429), refresh
(R431-R433), start-gap wear levelling (R434-R436) and power states (R438, R439). Which accesses reach a stack, and when, is
left to the environment. -/

namespace Sys2Proof.Machine

def getStack (s : State) (k : Nat) : Stack := kvD s.stackTab k {}
def setStack (s : State) (k : Nat) (x : Stack) : State := { s with stackTab := kvSet s.stackTab k x }
def getPStack (s : State) (k : Nat) : PStack := kvD s.pstacks k {}
def setPStack (s : State) (k : Nat) (x : PStack) : State := { s with pstacks := kvSet s.pstacks k x }
def Stack.channel (x : Stack) (c : Nat) : Channel := kvD x.channels c {}
def Stack.putChannel (x : Stack) (c : Nat) (y : Channel) : Stack := { x with channels := kvSet x.channels c y }

/-- Stacks with DRAM, and pseudo-channels of each (R16, and the totals of the device). -/
def isStack (k c : Nat) : Bool := decide (k < 8 ∧ c < 96)

/-! ### Classes and deadlines (R426, R427) -/

/-- T8 at a fabric cycle. -/
def t8 (fabric : Nat) : Nat := fabric / 8 % 4096

/-- The budget of a class. -/
def classBudget (cls : Nat) : Nat :=
  match cls with
  | 0 => 32
  | 1 => 64
  | 2 => 512
  | _ => 1536

/-- wrap (b - a, 12) lies in [1, 2047]: a comes before b. -/
def stampBefore (a b : Nat) : Bool := let d := (b + 4096 - a % 4096) % 4096; decide (1 ≤ d ∧ d ≤ 2047)

/-- The class of a kind of request (R426); an access of a launch whose queue has priority 7 is RT. -/
def RequestKind.cls : RequestKind → Nat
  | .damson | .quince | .viewUnit => 0
  | .laneRead | .code | .walk | .table | .place => 1
  | .laneWrite | .command | .prefetch | .rayLine | .queueLine => 2
  | .upkeep => 3

/-- The class of a request that is made for a crew, or for none. -/
def requestClass (s : State) (k : RequestKind) (crew : Option Nat) : Nat :=
  match crew with
  | some c => if k.cls < 3 ∧ (getLaunch s (kvD s.crews c {}).launch).prio = 7 then 0 else k.cls
  | none => k.cls

/-- Whose counter a late request raises (R429): a read of a stack's own Damson or Quince unit its stack's, a view unit's the hub's, any
other its core's or the hub's. -/
def requestSource (k : RequestKind) (core : Option Nat) (hub : Bool) : Option Nat × Bool :=
  match k with
  | .damson | .quince => (none, false)
  | .viewUnit => (none, true)
  | _ => (core, hub)

/-- The request that left its source at a fabric cycle. -/
def requestOf (cls block bank left : Nat) (core : Option Nat) (hub : Bool) (now : Nat) : StackReq :=
  { cls := cls % 4, stamp := (t8 left + classBudget (cls % 4)) % 4096, block := block, bank := bank, arrived := 2 * now, core := core,
    hub := hub }

/-- A stack that is asked for something wakes (R438): from SELF after 96 fabric cycles, from RETENTION after a time that the
spec gives only roughly. -/
def wakeStack (s : State) (k : Nat) : State :=
  let x := getStack s k
  let x := { x with lastReq := s.now }
  setStack s k (match x.power, x.waking with
    | .active, _ => x
    | _, some _ => x
    | .self, none => { x with waking := some (s.now + 48), debugFrom := none }
    | .retention, none => { x with waking := some s.now, debugFrom := none })

/-- A request reaches a pseudo-channel of its block's home stack, or the persistent stack of a tier address (R403, R426-R428,
R434). -/
def requestMove (s : State) (kind : RequestKind) (tier : Bool) (a c bank left : Nat) (crew core : Option Nat) (hub : Bool) : State :=
  let source := requestSource kind core hub
  let r (block : Nat) : StackReq := requestOf (requestClass s kind crew) block bank left source.1 source.2 s.now
  if 2 * s.now < left then s
  else if tier then
    let k := (tierPlace (a / unit2M)).1
    let x := getPStack s k
    -- a 256 MiB region has 2^22 blocks; region 0 is the reserved one
    let block := 2 ^ 22 * (tierPlace (a / unit2M)).2 + a % 2 ^ 28 / 64
    if a < 2047 * 2 ^ 30 then setPStack s k { x with queue := x.queue ++ [r block] } else s
  else if validPa a && isStack (homeStack a) c then
    let k := homeStack a
    let s := wakeStack s k
    let x := getStack s k
    let y := x.channel c
    setStack s k (x.putChannel c { y with queue := y.queue ++ [r (stackByte a / 64)] })
  else s

/-! ### Channel scheduling (R428, R429) -/

/-- A request of a queue with its place, the class it is served with, and whether an earlier one to its block holds it back. -/
structure Ranked where
  place : Nat
  req : StackReq
  cls : Nat
  free : Bool
  deriving DecidableEq, Repr

/-- The queue ranked: a request has the class of any later one that it holds back. -/
def rankQueue (q : List StackReq) : List Ranked :=
  q.zipIdx.map fun (r, i) =>
    let later := (q.drop (i + 1)).filter fun x => x.block == r.block
    { place := i, req := r, cls := later.foldl (fun m x => min m x.cls) r.cls
      free := !(q.take i).any fun x => x.block == r.block }

/-- The order in which requests are served at a fabric cycle. -/
def Ranked.before (fabric : Nat) (a b : Ranked) : Bool :=
  let old (x : Ranked) : Bool := decide (x.req.arrived + 8192 ≤ fabric)
  if old a ≠ old b then old a
  else if old a then decide (a.place < b.place)
  else if a.cls ≠ b.cls then decide (a.cls < b.cls)
  else if a.req.stamp ≠ b.req.stamp then stampBefore a.req.stamp b.req.stamp
  else decide (a.place < b.place)

/-- The request to be served next among those that can be. -/
def nextRequest (q : List StackReq) (fabric : Nat) (can : StackReq → Bool) : Option Ranked :=
  pickMin (Ranked.before fabric) ((rankQueue q).filter fun r => r.free && can r.req)

/-- A request served late is counted once, for its source (R427, R429); `stack`: where it was served. -/
def countLate (s : State) (r : StackReq) (stack : Nat) : State :=
  if !stampBefore r.stamp (t8 (2 * s.now)) then s
  else match r.core with
    | some c => (let co := getCore s c; setCore s c { co with cmiss := kvAdd co.cmiss r.cls 1 })
    | none =>
      if r.hub then { s with service := { s.service with hmiss := kvAdd s.service.hmiss r.cls 1 } }
      else if stack < 8 then (let x := getStack s stack; setStack s stack { x with miss := kvAdd x.miss r.cls 1 })
      else s

/-- Requests that hold a bank's refresh back: RT and LATENCY. -/
def Channel.pressed (y : Channel) (bank : Nat) : Bool := y.queue.any fun r => r.bank == bank && decide (r.cls ≤ 1)

/-- The refreshes that a pseudo-channel has postponed (R431). -/
def Channel.debt (y : Channel) : Nat := y.owed.foldl (fun n e => n + e.2) 0

/-- A bank that no refresh closes. -/
def Channel.opens (y : Channel) (bank : Nat) : Bool := y.forced.isNone && (kvGet y.closed bank).isNone

/-- A bank can be refreshed now (R431): no RT or LATENCY request waits for it, and no refresh closes it yet. -/
def Channel.idle (y : Channel) (bank : Nat) : Bool := !y.pressed bank && y.opens bank

/-- A per-bank refresh is made: it closes its bank for 280 fabric cycles (R431). -/
def Channel.refreshBank (y : Channel) (bank now : Nat) : Channel := { y with closed := kvSet y.closed bank (now + 140) }

/-- Postponed refreshes are made where their banks are idle, one a bank (R431). -/
def Channel.catchUp (y : Channel) (now : Nat) : Channel :=
  y.owed.foldl (fun y e =>
    if 0 < e.2 ∧ y.idle e.1 = true then { y.refreshBank e.1 now with owed := kvSet y.owed e.1 (e.2 - 1) } else y) y

/-- Every bank closes for a forced refresh, which takes all that is owed (R432). -/
def Channel.force (y : Channel) (now : Nat) : Channel := { y with forced := some (now + 210), closed := [] }

/-! ### Start-gap regions (R434, R435) -/

/-- The physical line of a logical line. -/
def Wear.line (w : Wear) (l : Nat) : Nat := let p := (l + w.start) % 65536; if w.gap ≤ p then p + 1 else p

/-- The physical line that a gap move copies. -/
def Wear.copied (w : Wear) : Nat := if w.gap = 0 then 65536 else w.gap - 1

/-- A block of a persistent stack, counted from its region 0, whose line is being copied. -/
def PStack.copies (x : PStack) (block : Nat) : Bool :=
  let w := kvD x.wear (block / 2 ^ 22) {}
  decide (0 < w.due) && w.line (block / 64 % 65536) == w.copied

/-- The gap moves (R435). -/
def Wear.move (w : Wear) : Wear :=
  if 0 < w.gap then { w with gap := w.gap - 1, due := w.due - 1 }
  else { w with gap := 65536, start := (w.start + 1) % 65536, due := w.due - 1 }

/-- GAP_COPY_COMPLETE (R435). -/
def execGapCopyComplete (pstack region : Nat) (s : State) : Host.Outcome State Fault Refusal :=
  .next (
    let x := getPStack s pstack
    let w := kvD x.wear region {}
    if w.due = 0 then s else setPStack s pstack { x with wear := kvSet x.wear region w.move })

/-- CHANNEL_REQUEST_SERVE (R428, R429, R432, R435, R438). -/
def execChannelRequestServe (stack channel : Nat) (s : State) : Host.Outcome State Fault Refusal :=
  .next (
    if isStack stack channel then
      let x := getStack s stack
      let y := x.channel channel
      if x.power ≠ .active then s
      else match nextRequest y.queue (2 * s.now) fun r => y.opens r.bank with
      | none => s
      | some r =>
        let y := { y with queue := y.queue.eraseIdx r.place }
        countLate (setStack s stack (x.putChannel channel (y.catchUp s.now))) r.req stack
    else if 8 ≤ stack ∧ stack < 12 then
      let x := getPStack s (stack - 8)
      match nextRequest x.queue (2 * s.now) fun r => x.online && !x.copies r.block with
      | none => s
      | some r => countLate (setPStack s (stack - 8) { x with queue := x.queue.eraseIdx r.place }) r.req stack
    else s)

/-! ### Refresh (R431-R433) -/

/-- REFRESH_DUE: every 4,680 fabric cycles. -/
def execRefreshDue (stack channel : Nat) (s : State) : Host.Outcome State Fault Refusal :=
  .next (
    let x := getStack s stack
    let y := x.channel channel
    if !isStack stack channel ∨ s.now < y.lastDue + 2340 then s
    else
      let b := y.bank
      let y := { y with lastDue := y.lastDue + 2340, bank := (b + 1) % Config.banks }
      if x.power ≠ .active ∨ y.forced.isSome then setStack s stack (x.putChannel channel y)
      else if y.idle b then setStack s stack (x.putChannel channel (y.refreshBank b s.now))
      else
        let cls := (y.queue.filter fun r => r.bank == b).foldl (fun m r => min m r.cls) 3
        let x := if y.pressed b then { x with postponed := kvAdd x.postponed cls 1 } else x
        let y := { y with owed := kvSet y.owed b (kvD y.owed b 0 + 1) }
        if 8 ≤ y.debt then setStack s stack { x.putChannel channel (y.force s.now) with forced := x.forced + 1 }
        else setStack s stack (x.putChannel channel y))

/-- REFRESH_END: the banks whose refresh has ended open; a forced refresh leaves no debt. -/
def execRefreshEnd (stack channel : Nat) (s : State) : Host.Outcome State Fault Refusal :=
  .next (
    let x := getStack s stack
    let y := x.channel channel
    match y.forced with
    | some t => if s.now < t then s else setStack s stack (x.putChannel channel { y with forced := none, owed := [] })
    | none =>
      if y.closed.all fun e => decide (s.now < e.2) then s
      else
        let y := { y with closed := kvFilter y.closed fun _ t => decide (s.now < t) }
        setStack s stack (x.putChannel channel (y.catchUp s.now)))

/-! ### Power states (R438, R439) -/

/-- No request waits at a stack. -/
def Stack.quiet (x : Stack) : Bool := x.channels.all fun (_, y) => y.queue.isEmpty

/-- The stack in SELF: its debts are cleared; whether its cache die is gated is left open. -/
def Stack.toSelf (x : Stack) (gated : Bool) : Stack :=
  { x with power := .self, gated := gated, channels := kvMap x.channels fun _ (y : Channel) => { y with owed := [], closed := [], forced := none } }

/-- The rule by which a stack enters SELF: no request for 1,024 fabric cycles. -/
def Stack.mayRest (x : Stack) (s : State) : Bool := x.quiet && decide (x.lastReq + 512 ≤ s.now)

/-- The rule by which it enters RETENTION: no context RUNNING and no request for 600,000 core cycles. -/
def Stack.mayRetain (x : Stack) (s : State) : Bool :=
  x.quiet && decide (x.lastReq + 600000 ≤ s.now) && decide (s.lastRunning + 600000 ≤ s.now) && !s.ctxs.any fun (_, c) => c.st == .running

/-- SELF_REFRESH_ENTRY. -/
def execSelfRefreshEntry (stack : Nat) (s : State) : Host.Outcome State Fault Refusal :=
  .next (
    let x := getStack s stack
    if 8 ≤ stack ∨ x.power ≠ .active ∨ x.debugFrom.isSome ∨ x.mayRest s = false then s
    else setStack s stack (x.toSelf ((Config.freeWord s.tick).getLsbD 0)))

/-- RETENTION_ENTRY. -/
def execRetentionEntry (stack : Nat) (s : State) : Host.Outcome State Fault Refusal :=
  .next (
    let x := getStack s stack
    if 8 ≤ stack ∨ x.power = .retention ∨ x.waking.isSome ∨ x.debugFrom.isSome ∨ x.mayRetain s = false then s
    else setStack s stack { x.toSelf true with power := .retention })

/-- STACK_WAKE. -/
def execStackWake (stack : Nat) (s : State) : Host.Outcome State Fault Refusal :=
  .next (
    let x := getStack s stack
    match x.waking with
    | some t => if s.now < t then s else setStack s stack { x with power := .active, gated := false, waking := none }
    | none => s)

/-- DEBUG_WAKE_RETURN: 65,536 core cycles after the debugger's last access the stack goes back by the entry rule of its former state;
where that does not hold it is a stack like any other (R439). -/
def execDebugWakeReturn (stack : Nat) (s : State) : Host.Outcome State Fault Refusal :=
  .next (
    let x := getStack s stack
    match x.debugFrom with
    | some (power, gated) =>
      if s.now < x.debugAt + 65536 then s
      else if if power = .retention then x.mayRetain s else x.mayRest s then
        setStack s stack { x.toSelf gated with power := power, debugFrom := none }
      else setStack s stack { x with debugFrom := none }
    | none => s)

end Sys2Proof.Machine
end

