-- ==== Sys2Proof/Machine/Debug.lean ====
section
/-! DEFINITION. The debugger and its port (R351, R439, R453-R456, R486). -/

namespace Sys2Proof.Machine

/-! ### Answers (R439, R486) -/

/-- The status word: DONE, WOKE, ERR, DSTK. -/
def debugWord (woke err : Bool) (stack : Nat) : W32 :=
  BitVec.ofNat 32 (1 + (if woke then 2 else 0) + (if err then 4 else 0) + 256 * (stack % 16))

/-- An operation completes with a result. -/
def debugDone (s : State) (result : List W32) : State :=
  { s with debugger := { s.debugger with status := debugWord false false 0, result := result } }

/-- An operation completes with ERR and changes nothing else. -/
def debugError (s : State) : State := { s with debugger := { s.debugger with status := debugWord false true 0, result := [] } }

/-- The context to which the debugger is attached. -/
def attachedCtx (s : State) : Option Nat := s.debugger.ctx.bind fun c => if (getCtx s c).attached then some c else none

/-! ### Halts (R351, R453, R454) -/

/-- The site of a warp that is in no slot, at a path. -/
def restingSite (s : State) (r : IssueRef) (k : Nat) : Option Site :=
  match kvGet s.crews r.crew, getWarp s r.crew r.warp with
  | some c, some wp => (kvGet wp.paths k).map fun p =>
      { ref := r, cr := c, wp := wp, rn := { path := k, files := p.resume.getD {} }, pa := p
        k := (getLaunch s c.launch).kernel, act := pathLanes wp p }
  | _, _ => none

/-- Where a halted warp stands: the path in its slot, or the one that it would run next. -/
def haltSite (s : State) (r : IssueRef) : Option Site :=
  match siteOf { s with issuing := some r } with
  | some x => some x
  | none => (getWarp s r.crew r.warp).bind fun wp => wp.pathOrder.head?.bind fun k => restingSite s r k

/-- A warp halts at an instruction boundary. -/
def haltWarp (s : State) (r : IssueRef) : State :=
  match getWarp s r.crew r.warp with
  | none => s
  | some wp =>
    if wp.halt.isSome then s
    else match haltSite s r with
    | some x => setWarp s r.crew r.warp (x.haltedWarp s wp)
    | none => setWarp s r.crew r.warp { wp with haltAsked := false, halt := some {} }

/-- Every warp of the device that a predicate names. -/
def warpsWhere (s : State) (f : Nat → Crew → Nat → Warp → Bool) : List IssueRef :=
  (s.crews.map fun (ck, c) => (c.warps.filter fun e => f ck c e.1 e.2).map fun e => (⟨c.core, ck, e.1⟩ : IssueRef)).flatten

/-- The halts that were asked for take effect. -/
def takeHalts (s : State) : State := (warpsWhere s fun _ _ _ wp => wp.haltAsked).foldl haltWarp s

/-- The issuing slot is done with its instruction: a halt that was asked for takes effect (R453). -/
def finishIssue (s : State) : State :=
  match s.issuing with
  | none => s
  | some r =>
    let s := { s with issuing := none }
    match getWarp s r.crew r.warp with
    | some wp => if wp.haltAsked then haltWarp s r else s
    | none => s

/-- A warp that a target of R486 names, of the attached context. -/
def inTarget (who : HaltTarget) (ctx : Nat) (c : Crew) (wp : Warp) : Bool :=
  c.ctx == ctx && (c.phase == .resident || c.phase == .stopped) && !wp.retired &&
  match who with
  | .warp dws => dwsOf c.core wp.part wp.wslot == dws
  | .crew core num => c.core == core && c.num == num
  | .core core => c.core == core
  | .all => true

/-- A warp took a trap in this core cycle. A halt that falls in the same cycle would have come first (R351): none is taken now, and
the request is made in another cycle (log entry 136). -/
def trappedNow (s : State) (rs : List IssueRef) : Bool :=
  rs.any fun r => match getWarp s r.crew r.warp with
    | some wp => wp.trapAt == some s.now
    | none => false

/-- DHALT (R351, R453, R486): a warp inside its run halts at its next instruction boundary, any other at once. -/
def execDhalt (who : HaltTarget) (s : State) : Host.Outcome State Fault Refusal :=
  .next (match attachedCtx s with
    | none => debugError s
    | some ctx =>
      let rs := warpsWhere s fun _ c _ wp => inTarget who ctx c wp && wp.halt.isNone && !wp.haltAsked
      if trappedNow s rs then s else
      let s := rs.foldl (fun s r => match getWarp s r.crew r.warp with
        | some wp =>
          if wp.run.any fun q => q.stalled.isNone then setWarp s r.crew r.warp { wp with haltAsked := true } else haltWarp s r
        | none => s) s
      debugDone s [BitVec.ofNat 32 rs.length])

/-- Releases a halted warp: a pending fault is delivered before any run (R351, R454). -/
def releaseWarp (s : State) (r : IssueRef) : State :=
  match getWarp s r.crew r.warp with
  | none => s
  | some wp =>
    match wp.halt with
    | none => s
    | some h =>
      let s := setWarp s r.crew r.warp { wp with halt := none }
      match h.pending, restingSite s r h.path with
      | some t, some x => routeTrap s x { x.wp with resumeAt := none } t wp.record h.isCall h.again
      | _, _ => s

/-- DRELEASE (R351, R454, R486). -/
def execDrelease (who : HaltTarget) (s : State) : Host.Outcome State Fault Refusal :=
  .next (match attachedCtx s with
    | none => debugError s
    | some ctx =>
      let s := takeHalts s
      match warpsWhere s fun _ c _ wp => inTarget who ctx c wp && wp.halt.isSome with
      | [] => debugError s
      | rs => debugDone (rs.foldl releaseWarp s) [])

/-! ### Attachment, catches and watches (R453, R455) -/

/-- DATTACH. -/
def execDattach (ctx : Nat) (s : State) : Host.Outcome State Fault Refusal :=
  .next (
    let c := getCtx s ctx
    if 64 ≤ ctx ∨ (attachedCtx s).isSome ∨ (ctxFlags s ctx).testBit 2 then debugError s
    else
      let s := setCtx s ctx { c with attached := true }
      debugDone { s with debugger := { s.debugger with ctx := some ctx } } [])

/-- DDETACH: the catch mask and the watches are cleared, then every halt is released. -/
def execDdetach (s : State) : Host.Outcome State Fault Refusal :=
  .next (match attachedCtx s with
    | none => debugError s
    | some ctx =>
      let s := takeHalts s
      let s := setCtx s ctx { getCtx s ctx with attached := false, catchMask := 0, watches := [] }
      let s := { s with debugger := { s.debugger with ctx := none } }
      debugDone ((warpsWhere s fun _ c _ wp => inTarget .all ctx c wp && wp.halt.isSome).foldl releaseWarp s) [])

/-- DCATCH: bit c catches code c, from 0x01 to 0x17. -/
def execDcatch (catchMask : W32) (s : State) : Host.Outcome State Fault Refusal :=
  .next (match attachedCtx s with
    | none => debugError s
    | some ctx => debugDone (setCtx s ctx { getCtx s ctx with catchMask := catchMask &&& 0x00FFFFFE }) [])

def WatchKind.code : WatchKind → Nat
  | .disabled => 0
  | .read => 1
  | .write => 2
  | .both => 3

/-- DWATCH. -/
def execDwatch (k base m : Nat) (kind : WatchKind) (s : State) : Host.Outcome State Fault Refusal :=
  .next (match attachedCtx s with
    | none => debugError s
    | some ctx =>
      let c := getCtx s ctx
      if 4 ≤ k then debugError s
      else
        let w : Watch := { base := base % 2 ^ 56, m := m % 32, kind := WatchKind.code kind }
        debugDone (setCtx s ctx { c with watches := kvSet c.watches k w }) [])

/-! ### Stepping (R486) -/

/-- DSTEP: one instruction of a halted warp, or the trap it raises; an instruction that must wait is waited for. -/
def execDstep (dws : Nat) (s : State) : Host.Outcome State Fault Refusal :=
  .next (
    let s := takeHalts s
    match attachedCtx s, warpAt s dws with
    | some ctx, some r =>
      match kvGet s.crews r.crew, getWarp s r.crew r.warp with
      | some c, some wp =>
        if c.ctx ≠ ctx then debugError s
        else match wp.halt with
        | none => debugError s
        | some h =>
          let free := { wp with halt := none }
          let go (s : State) (r : IssueRef) : State :=
            let s := haltWarp { s with issuing := none } r
            debugDone s (((getWarp s r.crew r.warp).bind fun w => w.halt.map (·.record)).getD [])
          if h.pending.isSome then go (releaseWarp s r) r
          else match free.pathOrder.findSome? fun k => tryIssue (inSlot s r free 3 k) with
          | some t => go t r
          | none => s
      | _, _ => debugError s
    | _, _ => debugError s)

/-! ### Reading and writing halted state (R486) -/

/-- A halted warp of the attached context in a device warp slot. -/
def haltedAt (s : State) (dws : Nat) : Option (Site × Halt) :=
  match attachedCtx s, warpAt s dws with
  | some ctx, some r =>
    match kvGet s.crews r.crew, getWarp s r.crew r.warp with
    | some c, some wp =>
      if c.ctx ≠ ctx then none
      else wp.halt.map fun h =>
        ((restingSite s r h.path).getD { ref := r, cr := c, wp := wp, rn := {}, pa := {}, k := (getLaunch s c.launch).kernel, act := 0 }, h)
    | _, _ => none
  | _, _ => none

/-- The number of a path's state, with its j mask in bits 15 to 8. -/
def PathState.word : PathState → Nat
  | .ready => 0
  | .running => 1
  | .parkedJoin j => 2 + 256 * j
  | .parkedWait j => 3 + 256 * j
  | .reconverge => 4
  | .noEntry => 5
  | .atTret => 6

/-- The state of a number; no path of a halted warp is running. -/
def PathState.ofWord (n : Nat) : PathState :=
  let j := n / 256 % 8
  match n % 256 with
  | 2 => .parkedJoin j
  | 3 => .parkedWait j
  | 4 => .reconverge
  | 5 => .noEntry
  | 6 => .atTret
  | _ => .ready

/-- Word w of a path-table entry: PC, lane mask, state. -/
def pathWord (p : Path) (w : Nat) : W32 :=
  match w with
  | 0 => lowWord p.pc.toNat
  | 1 => highWord p.pc.toNat
  | 2 => lowWord p.mask.toNat
  | 3 => highWord p.mask.toNat
  | 4 => BitVec.ofNat 32 (PathState.word p.st)
  | _ => 0

/-- How many 32-bit places a file has; a path-table entry has eight. -/
def fileSize (x : Site) : DebugFile → Nat
  | .main => x.wp.n
  | .scalar => 64
  | .predicate => 16
  | .jmask => 8
  | .special => 23
  | .operand => 8
  | .lastResult => 4
  | .pathTable => 128
  | .haltRecord => 16

/-- The value of a place of a file in a lane, and whether it is full. -/
def debugPeek (s : State) (x : Site) (h : Halt) (file : DebugFile) (i lane : Nat) : W32 × Bool :=
  let g := x.wp.regs
  let bit (b : Bool) : W32 := if b then 1 else 0
  match file with
  | .main => (kvD g.v (64 * i + lane) 0, !g.vempty.contains (64 * i + lane))
  | .scalar => (kvD g.s i 0, !g.sempty.contains i)
  | .predicate => (bit ((predMask x.width x.wp i).getLsbD lane), !predEmpty x.wp i)
  | .jmask => (bit ((predMask x.width x.wp (16 + i)).getLsbD lane), true)
  | .special => (lowWord (specialValue s x i lane), true)
  | .operand => (kvD x.rn.files.opf (64 * i + lane) 0, true)
  | .lastResult => (kvD x.rn.files.lastf (64 * i + lane) 0, true)
  | .pathTable => ((match kvGet x.wp.paths (i / 8) with | some p => pathWord p (i % 8) | none => 0), true)
  | .haltRecord => (h.record.getD i 0, true)

/-- DREAD: the values of the named lanes, lowest first, then two words with their full bits. -/
def execDread (dws : Nat) (file : DebugFile) (index : Nat) (lanes : Mask) (s : State) : Host.Outcome State Fault Refusal :=
  .next (
    let s := takeHalts s
    match haltedAt s dws with
    | none => debugError s
    | some (x, h) =>
      if fileSize x file ≤ index then debugError s
      else
        let ls := lanesOf (lanes &&& maskBelow x.width)
        let full := maskOf (ls.filter fun l => (debugPeek s x h file index l).2)
        debugDone s ((ls.map fun l => (debugPeek s x h file index l).1) ++ [lowWord full.toNat, highWord full.toNat]))

/-- One word of a 64-bit field, its low one when `low`. -/
def putHalf (old : W64) (low : Bool) (v : W32) : W64 :=
  if low then BitVec.ofNat 64 (old.toNat / 2 ^ 32 * 2 ^ 32 + v.toNat) else BitVec.ofNat 64 (old.toNat % 2 ^ 32 + v.toNat * 2 ^ 32)

/-- The path with word w of its entry written. -/
def putPathWord (p : Path) (w : Nat) (v : W32) : Path :=
  match w with
  | 0 => { p with pc := putHalf p.pc true v }
  | 1 => { p with pc := putHalf p.pc false v }
  | 2 => { p with mask := putHalf p.mask true v }
  | 3 => { p with mask := putHalf p.mask false v }
  | 4 => { p with st := PathState.ofWord v.toNat }
  | _ => p

/-- The warp with a special register that it holds itself written in a lane; the others are not its own. -/
def Warp.putSpecial (wp : Warp) (i lane : Nat) (v : W32) : Warp :=
  let it := kvD wp.items lane {}
  match i with
  | 7 => { wp with items := kvSet wp.items lane { it with idx := it.idx / 2 ^ 32 * 2 ^ 32 + v.toNat } }
  | 8 => { wp with items := kvSet wp.items lane { it with idx := it.idx % 2 ^ 32 + v.toNat % 256 * 2 ^ 32 } }
  | 9 => { wp with items := kvSet wp.items lane { it with seq := v } }
  | 17 => { wp with tcode := v }
  | 18 => { wp with tpc := v }
  | 19 => { wp with tmask := putHalf wp.tmask true v }
  | 20 => { wp with tva := putHalf wp.tva true v }
  | 21 => { wp with sealst := v }
  | 22 => { wp with lat := v }
  | _ => wp

/-- The warp with the saved files of its halted path changed. -/
def Warp.mapFiles (wp : Warp) (k : Nat) (f : SavedRun → SavedRun) : Warp :=
  { wp with paths := kvMod wp.paths k fun (p : Path) => { p with resume := p.resume.map f } }

/-- The warp with a place of a file written in a lane; the register is full after it. -/
def debugPoke (wp : Warp) (h : Halt) (file : DebugFile) (i lane : Nat) (v : W32) : Warp :=
  let g := wp.regs
  let sel := laneBit lane
  let bits : Mask := if v.getLsbD 0 then ~~~0 else 0
  match file with
  | .main => { wp with regs := g.putMain i lane v }
  | .scalar => { wp with regs := g.putScalar i v }
  | .predicate => { wp with regs := g.putPred i sel bits }
  | .jmask => { wp with regs := g.putPred (16 + i) sel bits }
  | .special => wp.putSpecial i lane v
  | .operand => wp.mapFiles h.path fun r => { r with opf := kvSet r.opf (64 * i + lane) v }
  | .lastResult => wp.mapFiles h.path fun r => { r with lastf := kvSet r.lastf (64 * i + lane) v }
  | .pathTable => { wp with paths := kvMod wp.paths (i / 8) fun p => putPathWord p (i % 8) v }
  | .haltRecord => { wp with halt := some { h with record := h.record.set i v } }

/-- DWRITE: one value per named lane, lowest first. -/
def execDwrite (dws : Nat) (file : DebugFile) (index : Nat) (lanes : Mask) (values : List W32) (s : State) :
    Host.Outcome State Fault Refusal :=
  .next (
    let s := takeHalts s
    match haltedAt s dws with
    | none => debugError s
    | some (x, h) =>
      if fileSize x file ≤ index then debugError s
      else
        let ls := lanesOf (lanes &&& maskBelow x.width)
        let wp := (ls.zip values).foldl (fun w e => debugPoke w (w.halt.getD h) file index e.1 e.2) x.wp
        debugDone (setWarp s x.ref.crew x.ref.warp wp) [])

/-! ### Stack memory and wear (R435, R436, R439) -/

/-- Bytes as result words. -/
def debugWords (b : List Byte) : List W32 :=
  (List.range ((b.length + 3) / 4)).map fun k => BitVec.ofNat 32 (leNat ((b.drop (4 * k)).take 4))

/-- A debugger's access wakes a stack in RETENTION or with its cache die GATED: the stack, and whether it did. -/
def debugWake (s : State) (k : Nat) : State × Bool :=
  let x := getStack s k
  if x.power = .retention ∨ x.gated then
    (setStack s k { x with power := .active, gated := false, waking := none, debugFrom := some (x.power, x.gated), debugAt := s.now }, true)
  else if x.power = .self then (setStack s k { x with power := .active, debugFrom := none }, false)
  else (setStack s k { x with debugAt := s.now }, false)

/-- DMEM (R439): at device scope; an access that finds its stack waking waits with the request. -/
def execDmem (pa count : Nat) (wr : Option (List Byte)) (s : State) : Host.Outcome State Fault Refusal :=
  .next (
    let k := homeStack pa
    let put (s : State) (woke err : Bool) (result : List W32) : State :=
      { s with debugger := { s.debugger with status := debugWord woke err k, result := result } }
    if count = 0 ∨ 64 < count ∨ !validPa pa ∨ !validPa (pa + count - 1) then debugError s
    else if (getStack s k).waking.isSome then s
    else
      let (s, woke) := debugWake s k
      match wr with
      | some bytes => put (homePuts s pa (bytes.take count)) woke false []
      | none =>
        let bad := (List.range count).any fun i => isPoisonTag (homeTag s (pa + i))
        if bad then put s woke true [] else put s woke false (debugWords (homeBytes s pa count)))

/-- WEAR (R435, R436): S and G of a region, and its line writes. -/
def execWear (pstack region : Nat) (s : State) : Host.Outcome State Fault Refusal :=
  .next (
    if 4 ≤ pstack ∨ 2048 ≤ region then debugError s
    else
      let w := kvD (getPStack s pstack).wear region {}
      debugDone s [BitVec.ofNat 32 (w.start % 2 ^ 16 + 2 ^ 16 * w.gap), lowWord w.writes, BitVec.ofNat 32 (w.writes / 2 ^ 32 % 256)])

end Sys2Proof.Machine
end

