-- ==== Sys2Proof/Machine/Service.lean ====
section
/-! DEFINITION. The management controller: images and attestation (R479, R480), boot, reset and loss of power (R477, R478), the
power manager (R27, R481), fencing (R482, R483), the drain of persistent stacks (R484), updates (R485), and the errors that it
sees (R449, R450, R458). -/

namespace Sys2Proof.Machine

/-! ### Images (R479) -/

/-- SHAKE256 to the 64 bytes of R480. -/
def digest64 (b : List Byte) : List Byte := padTo 64 ((Config.shake256 b).take 64)

/-- An image that may run: its key, the signature over the digest of its body that its header carries, its version and its kind. -/
def imageRuns (kind : Nat) (image : List Byte) : Bool :=
  Config.imageKind image == kind && Config.imageKeyMatches image && Config.imageDigest image == digest64 (Config.imageBody image) &&
  Config.falconVerify (Config.imageDigest image) (Config.imageSignature image) &&
  decide (Config.fusedMinimum kind ≤ Config.imageVersion image)

/-- The chain extended by an image that runs (R480). -/
def measure (v : Service) (image : List Byte) : Service :=
  let d := digest64 (Config.imageBody image)
  { v with chain := v.chain ++ [digest64 (v.chain.getLastD [] ++ d)], digests := v.digests ++ [d] }

/-! ### Boot (R477, R478) -/

/-- What the reserved regions hold: it alone outlives a reset or a loss of power. -/
def reservedKept (v : Service) : Service :=
  { firmware := v.firmware, processors := v.processors, config := v.config, staged := v.staged,
    training := v.training, deviceKey := v.deviceKey }

/-- The device with nothing but its reserved regions: the wear of the tier stays (R435, R437). -/
def blankState (s : State) : State :=
  let worn := kvMap s.pstacks fun _ (x : PStack) => ({ wear := x.wear } : PStack)
  { tick := s.tick, agenda := s.agenda, pstacks := worn, service := reservedKept s.service }

/-- The first step of R477 that fails, if one does; the image of step 2 and those of step 5 are checked, the others depend on the
parts. -/
def bootFails (s : State) (firmware processors : List Byte) : Option Nat :=
  let passes (n : Nat) : Bool := Config.bootStepPasses n s.tick
  firstReason [(1, !passes 1), (2, !imageRuns 0 firmware), (3, !passes 3), (4, !passes 4), (5, !imageRuns 1 processors),
               (6, !passes 6)]

/-- Port p begins to train (R467). -/
def trainPort (s : State) (p : Nat) : State := enterPort s p .training

/-- A frame that a ring may hold. -/
def ringFrame (r f : Nat) : Bool :=
  f % unit2M == 0 && validPa f && (if r = 8 then paInterleaved f else !paInterleaved f && homeStack f == r)

/-- Places a frame ring with its free frames (R409). -/
def placeRing (s : State) (r : Nat) : State :=
  let b := alignDown (Config.ringBase r) 64
  let s := { s with service := { s.service with rings := kvSet s.service.rings r b } }
  ((Config.ringFrames r).filter (ringFrame r)).foldl (fun s f => giveFrame s r f) s

/-- The stored configuration, with the port it authorises when it passes (R480). -/
def configured (v : Service) (config : List Byte) : Service :=
  { v with config := config, sysPort := imageRuns 2 config && Config.configNamesPort0 config }

/-- Step 5: the device id, the route table and the frame rings. -/
def identify (v : Service) : Service :=
  { v with deviceId := Config.deviceId % 4096
           routes := (List.range 4096).filterMap fun d => (Config.routePort d).bind fun p => if p ≤ 8 then some (d, p) else none
           macs := (List.range 4096).filterMap fun d => (Config.routePort d).map fun _ => (d, Config.routeMac d % 2 ^ 48) }

/-- The record of a stack whose PHY is trained in full at a moment (R478). -/
def trained (tick k : Nat) : Training :=
  let settings := Config.phySettings k tick
  { serial := Config.stackSerial k, settings := settings, digest := digest64 (Config.stackSerial k ++ settings) }

/-- A record from which a stack's PHY can be restored: its serial number and digest match, and the restored link passes its first
check pattern (R478). -/
def restores (tick k : Nat) (e : Training) : Bool :=
  e.serial == Config.stackSerial k && e.digest == digest64 (e.serial ++ e.settings) && Config.patternPasses k tick

/-- Step 3: every PHY is trained, or in a warm reset restored from its record, which is rewritten where it is trained (R477, R478). -/
def trainPhys (v : Service) (warm : Bool) (tick : Nat) : Service :=
  let record := (List.range 12).map fun k => (k, match kvGet v.training k with
    | some e => if warm && restores tick k e then e else trained tick k
    | none => trained tick k)
  { v with training := record, phys := record.map fun e => (e.1, e.2.settings) }

/-- The steps of a boot: a warm one differs in step 3 alone (R477, R478). -/
def boot (s : State) (firmware : List Byte) (warm : Bool) : State :=
  let v := s.service
  let shipped (own given : List Byte) : List Byte := if own.isEmpty then given else own
  let fw := shipped v.firmware firmware
  let cp := shipped v.processors Config.shippedProcessors
  let cfg := shipped v.config Config.shippedConfig
  let s' := blankState s
  let base : Service := { s'.service with firmware := fw, processors := cp, config := cfg, deviceKey := true, penv := 2200,
                                          chain := [digest64 Config.romIdentity] }
  match bootFails s fw cp with
  | some step =>
    let ran := if step ≤ 2 then base else measure base fw
    let ran := if step ≤ 5 then ran else measure ran cp
    let ran := if step ≤ 3 then ran else trainPhys ran warm s.tick
    trainPort { s' with service := { ran with boot := .failed step } } 0
  | none =>
    let v := identify (configured (measure (measure (trainPhys base warm s.tick) fw) cp) cfg)
    let s' := { s' with service := { v with boot := .done } }
    (List.range 9).foldl trainPort ((List.range 9).foldl placeRing s')

/-- COLD_BOOT (R477): `firmware` is the controller's image where the reserved region holds none yet. -/
def execColdBoot (firmware : List Byte) (s : State) : Host.Outcome State Fault Refusal := .next (boot s firmware false)

/-- WARM_RESET (R478). -/
def execWarmReset (firmware : List Byte) (s : State) : Host.Outcome State Fault Refusal := .next (boot s firmware true)

/-- POWER_LOSS (R435, R437): a gap move that was under way stays due. -/
def execPowerLoss (s : State) : Host.Outcome State Fault Refusal := .next (blankState s)

/-! ### Updates and attestation (R480, R485) -/

/-- The flits of an operation with n bytes after its first flit: every message of the series begins with such a flit, and fifteen
more fit into it (R462, R471). -/
def longFlits (n : Nat) : Nat := max 1 ((n + 959) / 960) + (n + 63) / 64

/-- FWSTAGE: a processor image is staged, and a configuration takes effect at the next boot. -/
def execFwstage (tok : W32) (image : List Byte) (s : State) : Host.Outcome State Fault Refusal :=
  .next (hostOp s (longFlits image.length) (some (15, tok)) fun s =>
    if imageRuns 1 image then answer { s with service := { s.service with staged := some image } } 15 0 0 tok []
    else if imageRuns 2 image then answer { s with service := { s.service with config := image } } 15 0 0 tok []
    else answer s 15 2 (Config.refusalReason 15 % 256) tok [])

/-- FWSWAP: the command processors begin to be replaced by the staged image, one at a time. -/
def execFwswap (tok : W32) (s : State) : Host.Outcome State Fault Refusal :=
  .next (hostOp s 1 (some (16, tok)) fun s =>
    match s.service.staged, s.service.swap with
    | some image, none => { s with service := { s.service with staged := none, swap := some (tok, 0, image) } }
    | _, _ => answer s 16 1 0 tok [])

/-- A processor has been replaced: the next follows, and after the last of the four the operation is answered (R485). -/
def swapMove (s : State) : State :=
  match s.service.swap with
  | none => s
  | some (tok, k, image) =>
    if k < 3 then { s with service := { s.service with swap := some (tok, k + 1, image) } }
    else
      let v := { measure s.service image with processors := image, swap := none }
      answer { s with service := v } 16 0 0 tok []

/-- What ATTEST signs (R480). -/
def attested (v : Service) (nonce : List Byte) : List Byte :=
  leBytes 2 v.deviceId ++ padTo 16 (Config.serial.take 16) ++ leBytes 4 v.chain.length ++ v.chain.getLastD [] ++ v.digests.flatten ++
    padTo 32 nonce

/-- Sends a result that continues in further flits, at most fifteen to a message; each message but the last has status 3 (R471). -/
def answerLong (s : State) (op : Nat) (tok : W32) (first more : List Byte) : State :=
  let n := (more.length + 959) / 960
  (List.range (max n 1)).foldl (fun s k =>
    let st := if k + 1 < n then 3 else 0
    let head := padTo 64 (leBytes 2 op ++ leBytes 1 st ++ [0] ++ leBytes 4 tok.toNat ++ (if k = 0 then first else []))
    sendHost s 12 (head ++ (more.drop (960 * k)).take 960)) s

/-- ATTEST (R471, R480). -/
def execAttest (tok : W32) (nonce : List Byte) (s : State) : Host.Outcome State Fault Refusal :=
  .next (hostOp s 1 (some (17, tok)) fun s =>
    let v := s.service
    let sig := Config.falconSign (digest64 (attested v nonce))
    let whole (b : List Byte) : List Byte := padTo (alignUp b.length 64) b
    let first := leBytes 2 v.deviceId ++ leBytes 6 0 ++ padTo 16 (Config.serial.take 16) ++ leBytes 4 v.chain.length
    let more := v.chain.getLastD [] ++ v.digests.flatten ++ padTo 64 (nonce.take 32) ++ whole (leBytes 2 sig.length ++ sig)
    answerLong s 17 tok first more)

/-! ### Power (R27, R481) -/

/-- POWER_PROJECTION: every 1,024 core cycles a class more is limited above the envelope, and one less 50 W below it. -/
def execPowerProjection (draw : Nat) (s : State) : Host.Outcome State Fault Refusal :=
  .next (
    let v := s.service
    if s.now < v.projAt + 1024 ∨ v.boot ≠ .done then s
    else
      let plim := (List.range (min v.limited 3)).foldl (fun m k => kvAdd m k 1) v.plim
      let limited := if v.penv.toNat < draw then min 3 (v.limited + 1)
        else if draw + 50 < v.penv.toNat then v.limited - 1 else v.limited
      { s with service := { v with pproj := BitVec.ofNat 32 draw, plim := plim, limited := limited, projAt := s.now } })

/-! ### Fencing (R482, R483) -/

/-- The cores of a fence; none where the unit does not exist. -/
def fenceCores (unitNo : Nat) (isQuad : Bool) : Option (List Nat) :=
  if isQuad then (if unitNo < 48 then some ((List.range 4).map fun k => 4 * unitNo + k) else none)
  else if unitNo < 192 then some [unitNo] else none

/-- The first fence asked for begins: its cores take no crew any more, and their crews are to be saved. -/
def beginFence (s : State) : State :=
  match s.service.fences with
  | [] => s
  | (cores, _) :: _ =>
    cores.foldl (fun s k =>
      let c := getCore s k
      if c.fence ≠ .inService then s
      else
        let s := setCore s k { c with fence := .draining }
        (crewsOn s k).foldl (fun s (e : Nat × Crew) => askSave s e.1 .fencing) s) s

/-- HOST_FENCE: handled one at a time, and answered when the cores are OUT. -/
def execHostFence (tok : W32) (unitNo : Nat) (isQuad : Bool) (s : State) : Host.Outcome State Fault Refusal :=
  .next (hostOp s 1 (some (11, tok)) fun s =>
    match fenceCores unitNo isQuad with
    | none => answer s 11 2 (Config.refusalReason 11 % 256) tok []
    | some cores =>
      if cores.any fun k => (getCore s k).fence != .inService || s.service.fences.any fun f => f.1.contains k then
        answer s 11 1 0 tok []
      else
        let idle := s.service.fences.isEmpty
        let s := { s with service := { s.service with fences := s.service.fences ++ [(cores, tok)] } }
        if idle then beginFence s else s)

/-- A fence whose cores are all OUT is answered, and the next begins. -/
def endFence (s : State) : State :=
  match s.service.fences with
  | [] => s
  | (cores, tok) :: rest =>
    if cores.all fun k => (getCore s k).fence == .out then
      beginFence (answer { s with service := { s.service with fences := rest } } 11 0 0 tok [])
    else s

/-- TESTING_END (R482, R483): the tests leave nothing in the core's SRAM. -/
def execTestingEnd (core : Nat) (beyondSpares : Bool) (s : State) : Host.Outcome State Fault Refusal :=
  .next (if (getCore s core).fence ≠ .draining ∨ !(crewsOn s core).isEmpty then s
    else
      let s := ((getCore s core).l1.map (·.1)).foldl (fun s b => flushSector s core b) s
      endFence (setCore s core { getCore s core with
        fence := .out, beyondSpares := beyondSpares, cmiss := [], pstall := [], ccorr := 0, l1 := [], table := [],
        icache := [], icacheUse := [] }))

/-- UNFENCE (R482): a core with more failing rows than spares stays OUT. -/
def execUnfence (tok : W32) (unitNo : Nat) (isQuad : Bool) (s : State) : Host.Outcome State Fault Refusal :=
  .next (hostOp s 1 (some (12, tok)) fun s =>
    match fenceCores unitNo isQuad with
    | none => answer s 12 2 (Config.refusalReason 12 % 256) tok []
    | some cores =>
      if cores.all fun k => (getCore s k).fence == .out && !(getCore s k).beyondSpares then
        answer (cores.foldl (fun s k => setCore s k { getCore s k with fence := .inService }) s) 12 0 0 tok []
      else answer s 12 1 0 tok [])

/-! ### The drain of a persistent stack (R440, R484) -/

/-- A unit of an AWAY piece whose data lies on a persistent stack: a VA in it. -/
def unitOnStack (p : Piece) (k : Nat) : Option Nat :=
  ((List.range ((p.lim - p.base) / unit2M)).find? fun i => (tierPlace (p.back / unit2M + i)).1 == k).map fun i => p.base + unit2M * i

/-- The next unit that a drain recalls: context, place, VA. -/
def drainUnit (s : State) (k : Nat) : Option (Nat × Slot × Nat) :=
  (livingCtxs s).findSome? fun ctx => (slotsOf s ctx).findSome? fun x =>
    if x.piece.tier ∧ x.piece.rst = away then (unitOnStack x.piece k).map fun va => (ctx, x, va) else none

/-- A unit on the stack is on its way to or from it. -/
def drainMoving (s : State) (k : Nat) : Bool :=
  (livingCtxs s).any fun ctx => (slotsOf s ctx).any fun x => x.piece.tier && x.piece.rst == moving && (unitOnStack x.piece k).isSome

/-- A drain ends. -/
def endDrain (s : State) (k status : Nat) (online : Bool) : State :=
  let x := getPStack s k
  match x.draining with
  | none => s
  | some tok =>
    let reason := if status = 2 then Config.refusalReason 13 % 256 else 0
    answer (setPStack s k { x with draining := none, online := online }) 13 status reason tok []

/-- A drain goes on: the next unit is recalled, or with none left the stack goes offline. -/
def drainNextMove (s : State) (k : Nat) : State :=
  if (getPStack s k).draining.isNone ∨ (livingCtxs s).any (dirLocked s) ∨ drainMoving s k then s
  else match drainUnit s k with
  | none => endDrain s k 0 false
  | some (ctx, x, va) =>
    match startRecall s ctx va 0 x with
    | .on s _ => s
    | .again s => s
    | .fails _ => endDrain s k 2 true

/-- PDRAIN. -/
def execPdrain (tok : W32) (pstack : Nat) (s : State) : Host.Outcome State Fault Refusal :=
  .next (hostOp s 1 (some (13, tok)) fun s =>
    let x := getPStack s pstack
    if 4 ≤ pstack then answer s 13 2 (Config.refusalReason 13 % 256) tok []
    else if !x.online || x.draining.isSome then answer s 13 1 0 tok []
    else setPStack s pstack { x with draining := some tok })

/-- PRETURN. -/
def execPreturn (tok : W32) (pstack : Nat) (s : State) : Host.Outcome State Fault Refusal :=
  .next (hostOp s 1 (some (14, tok)) fun s =>
    let x := getPStack s pstack
    if 4 ≤ pstack then answer s 14 2 (Config.refusalReason 14 % 256) tok []
    else if x.online then answer s 14 1 0 tok []
    else answer (setPStack s pstack { x with online := true }) 14 0 0 tok [])

/-- FRAME_WAIT_TIMEOUT (R410, R411, R484): a recall that fails ends the drain of the stack that it reads from. -/
def execFrameWaitTimeout (k : Nat) (s : State) : Host.Outcome State Fault Refusal :=
  .next (match kvGet s.moves k with
    | none => s
    | some m =>
      let on := match m.kind, walk s m.ctx m.vbase with
        | .recall, .found x => if x.piece.tier then some (tierPlace (x.piece.back / unit2M)).1 else none
        | _, _ => none
      let s' := frameTimeout s k m
      match on with
      | some p => if (kvGet s'.moves k).isNone then endDrain s' p 2 true else s'
      | none => s')

/-! ### Errors (R449, R450, R458) -/

/-- CORRECTED_SOFT_ERROR. -/
def execCorrectedSoftError (core : Nat) (s : State) : Host.Outcome State Fault Refusal :=
  let c := getCore s core
  .next (if core < 192 then setCore s core { c with ccorr := c.ccorr + 1 } else s)

/-- The context that holds a physical address: the lowest one with a piece there. -/
def ownerOf (s : State) (pa : Nat) : Option Nat :=
  (livingCtxs s).find? fun ctx => (placedExtents s ctx).any fun e => decide (e.1 ≤ pa) && decide (pa < e.2)

/-- An uncorrectable error in a write-back with no requester (R449 kind 5): the block is written with tag POISON. -/
def poisonWriteBack (s : State) (core pa : Nat) : State :=
  match sectorAt s core (pa / 64) with
  | none => s
  | some x =>
    if x.dirty = 0 then s
    else
      let s := setTag (flushSector s core (pa / 64)) (pa / 64) poisonTag
      match ownerOf s pa with
      | some ctx => postAgent s ctx 5 0x11 (pa / 64 * 64) 0
      | none => s

/-- UNCORRECTABLE_ERROR (R449, R450). -/
def execUncorrectableError (at_ : ErrorPlace) (s : State) : Host.Outcome State Fault Refusal :=
  let onWarp (dws : Nat) (f : Warp → Regs → Regs) : State :=
    match warpAt s dws with
    | none => s
    | some r => (match getWarp s r.crew r.warp with
      | some wp => setWarp s r.crew r.warp { wp with regs := f wp wp.regs }
      | none => s)
  .next (match at_ with
    | .mainReg dws reg lane => onWarp dws fun wp g =>
        if reg < wp.n ∧ lane < 64 then { g with vpoison := setIns g.vpoison (64 * reg + lane) } else g
    | .scalarReg dws reg => onWarp dws fun _ g => if reg < 64 then { g with spoison := setIns g.spoison reg } else g
    | .scratch crew offset =>
      modCrew s crew fun c =>
        let lo := alignDown offset 4
        if lo + 4 ≤ scratchSize c then { c with scrPoison := (List.range 4).foldl (fun m k => setIns m (lo + k)) c.scrPoison } else c
    | .block pa => if validPa pa then setTag s (pa / 64) poisonTag else s
    | .writeBack core pa => poisonWriteBack s core pa)

end Sys2Proof.Machine
end

