-- ==== Sys2Proof/Machine/Dispatch.lean ====
section
/-! DEFINITION. One arm per constructor of Instr. -/

namespace Sys2Proof.Machine

def exec (i : Instr) (s : State) : Host.Outcome State Fault Refusal :=
  match i with
  | .nop w => Sys2Proof.Machine.execNop w s
  | .bra w => Sys2Proof.Machine.execBra w s
  | .brau w => Sys2Proof.Machine.execBrau w s
  | .brx w => Sys2Proof.Machine.execBrx w s
  | .call w => Sys2Proof.Machine.execCall w s
  | .calli w => Sys2Proof.Machine.execCalli w s
  | .ret w => Sys2Proof.Machine.execRet w s
  | .jsave w => Sys2Proof.Machine.execJsave w s
  | .join w => Sys2Proof.Machine.execJoin w s
  | .jwait w => Sys2Proof.Machine.execJwait w s
  | .exit w => Sys2Proof.Machine.execExit w s
  | .refill w => Sys2Proof.Machine.execRefill w s
  | .reform w => Sys2Proof.Machine.execReform w s
  | .yield w => Sys2Proof.Machine.execYield w s
  | .npregEnter w => Sys2Proof.Machine.execNpregEnter w s
  | .npregLeave w => Sys2Proof.Machine.execNpregLeave w s
  | .trapBrk w => Sys2Proof.Machine.execTrapBrk w s
  | .trapCall w => Sys2Proof.Machine.execTrapCall w s
  | .trapTret w => Sys2Proof.Machine.execTrapTret w s
  | .iadd w => Sys2Proof.Machine.execIadd w s
  | .isub w => Sys2Proof.Machine.execIsub w s
  | .iaddc w => Sys2Proof.Machine.execIaddc w s
  | .isubb w => Sys2Proof.Machine.execIsubb w s
  | .imul w => Sys2Proof.Machine.execImul w s
  | .imulh w => Sys2Proof.Machine.execImulh w s
  | .imad w => Sys2Proof.Machine.execImad w s
  | .imadw w => Sys2Proof.Machine.execImadw w s
  | .imin w => Sys2Proof.Machine.execImin w s
  | .imax w => Sys2Proof.Machine.execImax w s
  | .iabs w => Sys2Proof.Machine.execIabs w s
  | .isad w => Sys2Proof.Machine.execIsad w s
  | .icmp w => Sys2Proof.Machine.execIcmp w s
  | .isel w => Sys2Proof.Machine.execIsel w s
  | .and w => Sys2Proof.Machine.execAnd w s
  | .or w => Sys2Proof.Machine.execOr w s
  | .xor w => Sys2Proof.Machine.execXor w s
  | .andn w => Sys2Proof.Machine.execAndn w s
  | .lop3 w => Sys2Proof.Machine.execLop3 w s
  | .shl w => Sys2Proof.Machine.execShl w s
  | .shr w => Sys2Proof.Machine.execShr w s
  | .sar w => Sys2Proof.Machine.execSar w s
  | .rotl w => Sys2Proof.Machine.execRotl w s
  | .fshf w => Sys2Proof.Machine.execFshf w s
  | .bfx w => Sys2Proof.Machine.execBfx w s
  | .bfi w => Sys2Proof.Machine.execBfi w s
  | .popc w => Sys2Proof.Machine.execPopc w s
  | .clz w => Sys2Proof.Machine.execClz w s
  | .ctz w => Sys2Proof.Machine.execCtz w s
  | .brev w => Sys2Proof.Machine.execBrev w s
  | .blv w => Sys2Proof.Machine.execBlv w s
  | .bdlv w => Sys2Proof.Machine.execBdlv w s
  | .lea w => Sys2Proof.Machine.execLea w s
  | .prmt w => Sys2Proof.Machine.execPrmt w s
  | .mov w => Sys2Proof.Machine.execMov w s
  | .movl w => Sys2Proof.Machine.execMovl w s
  | .cvti w => Sys2Proof.Machine.execCvti w s
  | .idiv w => Sys2Proof.Machine.execIdiv w s
  | .fadd w => Sys2Proof.Machine.execFadd w s
  | .fsub w => Sys2Proof.Machine.execFsub w s
  | .fmul w => Sys2Proof.Machine.execFmul w s
  | .ffma w => Sys2Proof.Machine.execFfma w s
  | .fmin w => Sys2Proof.Machine.execFmin w s
  | .fmax w => Sys2Proof.Machine.execFmax w s
  | .fcmp w => Sys2Proof.Machine.execFcmp w s
  | .fclass w => Sys2Proof.Machine.execFclass w s
  | .frnd w => Sys2Proof.Machine.execFrnd w s
  | .fcvt w => Sys2Proof.Machine.execFcvt w s
  | .f2i w => Sys2Proof.Machine.execF2i w s
  | .i2f w => Sys2Proof.Machine.execI2f w s
  | .fdiv w => Sys2Proof.Machine.execFdiv w s
  | .fsqrt w => Sys2Proof.Machine.execFsqrt w s
  | .frcp w => Sys2Proof.Machine.execFrcp w s
  | .frsq w => Sys2Proof.Machine.execFrsq w s
  | .exp2 w => Sys2Proof.Machine.execExp2 w s
  | .log2 w => Sys2Proof.Machine.execLog2 w s
  | .sinpi w => Sys2Proof.Machine.execSinpi w s
  | .cospi w => Sys2Proof.Machine.execCospi w s
  | .fdot2 w => Sys2Proof.Machine.execFdot2 w s
  | .fscale w => Sys2Proof.Machine.execFscale w s
  | .flgclr w => Sys2Proof.Machine.execFlgclr w s
  | .welf w => Sys2Proof.Machine.execWelf w s
  | .wmrg w => Sys2Proof.Machine.execWmrg w s
  | .vote w => Sys2Proof.Machine.execVote w s
  | .shfl w => Sys2Proof.Machine.execShfl w s
  | .wred w => Sys2Proof.Machine.execWred w s
  | .wscan w => Sys2Proof.Machine.execWscan w s
  | .laneMatch w => Sys2Proof.Machine.execLaneMatch w s
  | .elect w => Sys2Proof.Machine.execElect w s
  | .plop w => Sys2Proof.Machine.execPlop w s
  | .pmov w => Sys2Proof.Machine.execPmov w s
  | .pmovSet w => Sys2Proof.Machine.execPmovSet w s
  | .bxq w => Sys2Proof.Machine.execBxq w s
  | .ld w => Sys2Proof.Machine.execLd w s
  | .st w => Sys2Proof.Machine.execSt w s
  | .lds w => Sys2Proof.Machine.execLds w s
  | .sts w => Sys2Proof.Machine.execSts w s
  | .ldk w => Sys2Proof.Machine.execLdk w s
  | .atom w => Sys2Proof.Machine.execAtom w s
  | .atoms w => Sys2Proof.Machine.execAtoms w s
  | .red w => Sys2Proof.Machine.execRed w s
  | .pfetch w => Sys2Proof.Machine.execPfetch w s
  | .pfetchZero w => Sys2Proof.Machine.execPfetchZero w s
  | .fence w => Sys2Proof.Machine.execFence w s
  | .cflush w => Sys2Proof.Machine.execCflush w s
  | .cinv w => Sys2Proof.Machine.execCinv w s
  | .csplit w => Sys2Proof.Machine.execCsplit w s
  | .sealRec w => Sys2Proof.Machine.execSealRec w s
  | .unsealRec w => Sys2Proof.Machine.execUnsealRec w s
  | .hqry w => Sys2Proof.Machine.execHqry w s
  | .cpy w => Sys2Proof.Machine.execCpy w s
  | .gath w => Sys2Proof.Machine.execGath w s
  | .scat w => Sys2Proof.Machine.execScat w s
  | .coll w => Sys2Proof.Machine.execColl w s
  | .putn w => Sys2Proof.Machine.execPutn w s
  | .getn w => Sys2Proof.Machine.execGetn w s
  | .signal w => Sys2Proof.Machine.execSignal w s
  | .waitc w => Sys2Proof.Machine.execWaitc w s
  | .cntrd w => Sys2Proof.Machine.execCntrd w s
  | .mma w => Sys2Proof.Machine.execMma w s
  | .mmap w => Sys2Proof.Machine.execMmap w s
  | .mmag w => Sys2Proof.Machine.execMmag w s
  | .accz w => Sys2Proof.Machine.execAccz w s
  | .accld w => Sys2Proof.Machine.execAccld w s
  | .accst w => Sys2Proof.Machine.execAccst w s
  | .accrd w => Sys2Proof.Machine.execAccrd w s
  | .accwr w => Sys2Proof.Machine.execAccwr w s
  | .mxacq w => Sys2Proof.Machine.execMxacq w s
  | .mxrel w => Sys2Proof.Machine.execMxrel w s
  | .mxstat w => Sys2Proof.Machine.execMxstat w s
  | .trace w => Sys2Proof.Machine.execTrace w s
  | .hitq w => Sys2Proof.Machine.execHitq w s
  | .candGet w => Sys2Proof.Machine.execCandGet w s
  | .candAccept w => Sys2Proof.Machine.execCandAccept w s
  | .candReject w => Sys2Proof.Machine.execCandReject w s
  | .candTerm w => Sys2Proof.Machine.execCandTerm w s
  | .filtTex w => Sys2Proof.Machine.execFiltTex w s
  | .filtGrid w => Sys2Proof.Machine.execFiltGrid w s
  | .tlshut w => Sys2Proof.Machine.execTlshut w s
  | .tlpost w => Sys2Proof.Machine.execTlpost w s
  | .tlqry w => Sys2Proof.Machine.execTlqry w s
  | .bari w => Sys2Proof.Machine.execBari w s
  | .bara w => Sys2Proof.Machine.execBara w s
  | .barw w => Sys2Proof.Machine.execBarw w s
  | .baraw w => Sys2Proof.Machine.execBaraw w s
  | .grpq w => Sys2Proof.Machine.execGrpq w s
  | .gred w => Sys2Proof.Machine.execGred w s
  | .step w => Sys2Proof.Machine.execStep w s
  | .sysrd w => Sys2Proof.Machine.execSysrd w s
  | .syswr w => Sys2Proof.Machine.execSyswr w s
  | .clk w => Sys2Proof.Machine.execClk w s
  | .grow w => Sys2Proof.Machine.execGrow w s
  | .shrink w => Sys2Proof.Machine.execShrink w s
  | .rsplit w => Sys2Proof.Machine.execRsplit w s
  | .rmerge w => Sys2Proof.Machine.execRmerge w s
  | .rinv w => Sys2Proof.Machine.execRinv w s
  | .rprobe w => Sys2Proof.Machine.execRprobe w s
  | .rhint w => Sys2Proof.Machine.execRhint w s
  | .rmove w => Sys2Proof.Machine.execRmove w s
  | .rcmpt w => Sys2Proof.Machine.execRcmpt w s
  | .commit w => Sys2Proof.Machine.execCommit w s
  | .runStart core part slot => Sys2Proof.Machine.execRunStart core part slot s
  | .stallEviction dws => Sys2Proof.Machine.execStallEviction dws s
  | .loadDataReturn dws k => Sys2Proof.Machine.execLoadDataReturn dws k s
  | .storeQueueLeave dws => Sys2Proof.Machine.execStoreQueueLeave dws s
  | .registerStallResolution core => Sys2Proof.Machine.execRegisterStallResolution core s
  | .growGrant core part => Sys2Proof.Machine.execGrowGrant core part s
  | .binAged core bin => Sys2Proof.Machine.execBinAged core bin s
  | .binDraw dws => Sys2Proof.Machine.execBinDraw dws s
  | .idleWarpRefill dws => Sys2Proof.Machine.execIdleWarpRefill dws s
  | .warpRetire dws => Sys2Proof.Machine.execWarpRetire dws s
  | .launchComplete launch => Sys2Proof.Machine.execLaunchComplete launch s
  | .commandStart cmd => Sys2Proof.Machine.execCommandStart cmd s
  | .commandComplete cmd => Sys2Proof.Machine.execCommandComplete cmd s
  | .commandRetire cmd => Sys2Proof.Machine.execCommandRetire cmd s
  | .matrixTileStep core errs => Sys2Proof.Machine.execMatrixTileStep core errs s
  | .rayAdmit k => Sys2Proof.Machine.execRayAdmit k s
  | .treeletBatch stack ctx tid => Sys2Proof.Machine.execTreeletBatch stack ctx tid s
  | .hitDelivery k => Sys2Proof.Machine.execHitDelivery k s
  | .candidateDelivery k => Sys2Proof.Machine.execCandidateDelivery k s
  | .candidateReturn k => Sys2Proof.Machine.execCandidateReturn k s
  | .candidateAnswer k => Sys2Proof.Machine.execCandidateAnswer k s
  | .filterRequestEnd cmd lane => Sys2Proof.Machine.execFilterRequestEnd cmd lane s
  | .viewSampleDelivery k => Sys2Proof.Machine.execViewSampleDelivery k s
  | .tileEmission view vunit => Sys2Proof.Machine.execTileEmission view vunit s
  | .viewComplete view => Sys2Proof.Machine.execViewComplete view s
  | .moveComplete k => Sys2Proof.Machine.execMoveComplete k s
  | .frameWaitTimeout k => Sys2Proof.Machine.execFrameWaitTimeout k s
  | .rangeOpComplete k => Sys2Proof.Machine.execRangeOpComplete k s
  | .sliceExpiry core ctx => Sys2Proof.Machine.execSliceExpiry core ctx s
  | .yieldDeadlineExpiry crew => Sys2Proof.Machine.execYieldDeadlineExpiry crew s
  | .npregBudgetExpiry crew => Sys2Proof.Machine.execNpregBudgetExpiry crew s
  | .crewSave crew => Sys2Proof.Machine.execCrewSave crew s
  | .crewPlacement launch => Sys2Proof.Machine.execCrewPlacement launch s
  | .crewRestore crew core => Sys2Proof.Machine.execCrewRestore crew core s
  | .thermalMigration hot => Sys2Proof.Machine.execThermalMigration hot s
  | .contextRelease ctx => Sys2Proof.Machine.execContextRelease ctx s
  | .doorbell queue tail => Sys2Proof.Machine.execDoorbell queue tail s
  | .launch queue => Sys2Proof.Machine.execLaunch queue s
  | .view queue => Sys2Proof.Machine.execView queue s
  | .semwait queue => Sys2Proof.Machine.execSemwait queue s
  | .semwaitRecheck queue => Sys2Proof.Machine.execSemwaitRecheck queue s
  | .semsignal queue => Sys2Proof.Machine.execSemsignal queue s
  | .rangeop queue => Sys2Proof.Machine.execRangeop queue s
  | .queueFence queue => Sys2Proof.Machine.execQueueFence queue s
  | .create tok ctx pa => Sys2Proof.Machine.execCreate tok ctx pa s
  | .suspend tok ctx => Sys2Proof.Machine.execSuspend tok ctx s
  | .resume tok ctx pa => Sys2Proof.Machine.execResume tok ctx pa s
  | .drain tok ctx => Sys2Proof.Machine.execDrain tok ctx s
  | .destroy tok ctx => Sys2Proof.Machine.execDestroy tok ctx s
  | .qsetup tok queue ctx va => Sys2Proof.Machine.execQsetup tok queue ctx va s
  | .qdisable tok queue => Sys2Proof.Machine.execQdisable tok queue s
  | .qresume tok queue skip => Sys2Proof.Machine.execQresume tok queue skip s
  | .iqsetup tok ctx iq va => Sys2Proof.Machine.execIqsetup tok ctx iq va s
  | .rready tok ctx => Sys2Proof.Machine.execRready tok ctx s
  | .hostFence tok unitNo isQuad => Sys2Proof.Machine.execHostFence tok unitNo isQuad s
  | .unfence tok unitNo isQuad => Sys2Proof.Machine.execUnfence tok unitNo isQuad s
  | .testingEnd core beyondSpares => Sys2Proof.Machine.execTestingEnd core beyondSpares s
  | .pdrain tok pstack => Sys2Proof.Machine.execPdrain tok pstack s
  | .preturn tok pstack => Sys2Proof.Machine.execPreturn tok pstack s
  | .fwstage tok image => Sys2Proof.Machine.execFwstage tok image s
  | .fwswap tok => Sys2Proof.Machine.execFwswap tok s
  | .attest tok nonce => Sys2Proof.Machine.execAttest tok nonce s
  | .collset tok ctx set ids => Sys2Proof.Machine.execCollset tok ctx set ids s
  | .putData port frame => Sys2Proof.Machine.execPutData port frame s
  | .getRequest port frame => Sys2Proof.Machine.execGetRequest port frame s
  | .signalMessage port frame => Sys2Proof.Machine.execSignalMessage port frame s
  | .getData port frame => Sys2Proof.Machine.execGetData port frame s
  | .performedAcknowledgement port frame => Sys2Proof.Machine.execPerformedAcknowledgement port frame s
  | .faultResponse port frame => Sys2Proof.Machine.execFaultResponse port frame s
  | .collectiveSegment port frame => Sys2Proof.Machine.execCollectiveSegment port frame s
  | .hostWrite port frame => Sys2Proof.Machine.execHostWrite port frame s
  | .hostRead port frame => Sys2Proof.Machine.execHostRead port frame s
  | .nak port frame => Sys2Proof.Machine.execNak port frame s
  | .badFrame port frame => Sys2Proof.Machine.execBadFrame port frame s
  | .retransmitTimeout port => Sys2Proof.Machine.execRetransmitTimeout port s
  | .linkTrained port credits => Sys2Proof.Machine.execLinkTrained port credits s
  | .trainingTimeout port => Sys2Proof.Machine.execTrainingTimeout port s
  | .errorWindowEnd port => Sys2Proof.Machine.execErrorWindowEnd port s
  | .drainingEnd port => Sys2Proof.Machine.execDrainingEnd port s
  | .lossOfSignal port => Sys2Proof.Machine.execLossOfSignal port s
  | .portWaitTimeout port => Sys2Proof.Machine.execPortWaitTimeout port s
  | .lctlRetrain port => Sys2Proof.Machine.execLctlRetrain port s
  | .lctlStartTraining port => Sys2Proof.Machine.execLctlStartTraining port s
  | .channelRequestServe stack channel => Sys2Proof.Machine.execChannelRequestServe stack channel s
  | .refreshDue stack channel => Sys2Proof.Machine.execRefreshDue stack channel s
  | .refreshEnd stack channel => Sys2Proof.Machine.execRefreshEnd stack channel s
  | .selfRefreshEntry stack => Sys2Proof.Machine.execSelfRefreshEntry stack s
  | .retentionEntry stack => Sys2Proof.Machine.execRetentionEntry stack s
  | .stackWake stack => Sys2Proof.Machine.execStackWake stack s
  | .debugWakeReturn stack => Sys2Proof.Machine.execDebugWakeReturn stack s
  | .gapCopyComplete pstack region => Sys2Proof.Machine.execGapCopyComplete pstack region s
  | .powerProjection draw => Sys2Proof.Machine.execPowerProjection draw s
  | .uncorrectableError at_ => Sys2Proof.Machine.execUncorrectableError at_ s
  | .coldBoot firmware => Sys2Proof.Machine.execColdBoot firmware s
  | .warmReset firmware => Sys2Proof.Machine.execWarmReset firmware s
  | .dattach ctx => Sys2Proof.Machine.execDattach ctx s
  | .ddetach => Sys2Proof.Machine.execDdetach s
  | .dcatch catchMask => Sys2Proof.Machine.execDcatch catchMask s
  | .dhalt who => Sys2Proof.Machine.execDhalt who s
  | .dstep dws => Sys2Proof.Machine.execDstep dws s
  | .dread dws file index lanes => Sys2Proof.Machine.execDread dws file index lanes s
  | .dwrite dws file index lanes values => Sys2Proof.Machine.execDwrite dws file index lanes values s
  | .dwatch k base m kind => Sys2Proof.Machine.execDwatch k base m kind s
  | .drelease who => Sys2Proof.Machine.execDrelease who s
  | .dmem pa count wr => Sys2Proof.Machine.execDmem pa count wr s
  | .wear pstack region => Sys2Proof.Machine.execWear pstack region s
  | .creditReturn port frame => Sys2Proof.Machine.execCreditReturn port frame s
  | .correctedSoftError core => Sys2Proof.Machine.execCorrectedSoftError core s
  | .powerLoss => Sys2Proof.Machine.execPowerLoss s

end Sys2Proof.Machine
end

