-- ==== Sys2Proof/Machine/Moves.lean ====
section
/-! DEFINITION. The moves of the device that have no row of the opcode table, and the passage of time. -/

namespace Sys2Proof.Machine

/-! ### Time (R141, R144, R156, R205) -/

/-- A field of a word names a register that a result in flight fills. -/
def fieldNames (x : Site) (nE : Nat) (d : Dest) (r : Role) (o : Operand) : Bool :=
  let n := roleCount x.width nE r
  let meets (reg : Nat) (wide : Bool) : Bool := decide (o.idx.toNat < reg + 1 + wide.toNat) && decide (reg < o.idx.toNat + n)
  match d, o.file with
  | .main reg wide, .main => meets reg wide
  | .scalar reg wide, .scalar => meets reg wide
  | _, _ => false

/-- The instruction that a warp waits at, with its place: that of its stalled run, or of its first READY path. -/
def waitingAt (s : State) (r : IssueRef) (wp : Warp) : Option (Instr × Site) :=
  let t := match wp.run, wp.pathOrder with
    | some _, _ => some { s with issuing := some r }
    | none, k :: _ => some (inSlot s r wp 3 k)
    | none, [] => none
  t.bind fun t => match planAt t with
    | .run t i => (siteOf t).map fun x => (i, { x with act := pathLanes x.wp x.pa })
    | _ => none

/-- A warp waits on a destination: the instruction it waits at names it while it is empty (R71, R205). -/
def waitsOn (s : State) (i : Instr) (x : Site) (d : Dest) : Bool :=
  match Instr.word? i with
  | none => false
  | some (_, w) => mustWait i w s x && (wordFields i w).any fun (_, r, o) => fieldNames x (Operand.bits w.e).toNat d r o

/-- The warp after n cycles: the loads on whose destinations it waited count them. -/
def Warp.wait (s : State) (n : Nat) (r : IssueRef) (wp : Warp) : Warp :=
  let still := match wp.run with
    | some q => q.stalled.isSome
    | none => wp.mayRun && wp.readySince.isNone
  match (if still && !(wp.loads.isEmpty && wp.storeQ.isEmpty) then waitingAt s r wp else none) with
  | none => wp
  | some (i, x) =>
    { wp with
      loads := wp.loads.map fun e => if waitsOn s i x e.dst then { e with waited := e.waited + n } else e
      storeQ := wp.storeQ.map fun e => if waitsOn s i x e.dst then { e with waited := e.waited + n } else e }

/-- The cores after n cycles: the stall counters of their partitions, which saturate, and since when each is stalled on
registers. -/
def Core.wait (s : State) (n core : Nat) (c : Core) : Core :=
  let stalls (p : Nat) : Nat := ((crewsOn s core).map fun (_, cr) => (cr.warps.filter fun (_, w) =>
    w.part == p && w.run.any fun q => q.stalled.isSome).length).foldl (· + ·) 0
  { c with
    pstall := (List.range 8).foldl (fun m p =>
      if stalls p = 0 then m else kvSet m p (BitVec.ofNat 32 (min 0xFFFFFFFF ((kvD m p 0).toNat + n * stalls p)))) c.pstall
    regStallSince := if regStalled s core then some (c.regStallSince.getD s.now) else none }

/-- n core cycles pass. -/
def passTime (s : State) (n : Nat) : State :=
  let s := settleGives (noteResidents (noteReady (noteStalls s)))
  let busy := (s.crews.filter fun (_, c) => c.phase == .resident || c.phase == .stopped).map fun (_, c) => c.core
  let cores := busy.foldl (fun (m : KV Core) k => kvSet m k (Core.wait s n k (getCore s k))) s.cores
  let crews := kvMap s.crews fun ck (c : Crew) =>
    if c.phase != .resident then c
    else { c with warps := kvMap c.warps fun wk (wp : Warp) => wp.wait s n ⟨c.core, ck, wk⟩ }
  { s with
    now := s.now + n, cores := cores, crews := crews
    lastRunning := if s.ctxs.any fun (_, c) => c.st == .running then s.now + n else s.lastRunning }

/-! ### The other moves -/

/-- A port's FEC corrects some codewords and fails on others (R468). -/
def countCodewords (s : State) (n corrected failed : Nat) : State :=
  let p := getPort s n
  if p.st.hears then
    setPort s n { p with fecc := p.fecc + BitVec.ofNat 32 corrected, fecu := p.fecu + BitVec.ofNat 32 failed }
  else s

/-- A core's range table drops its k-th entry (R405). -/
def dropPiece (s : State) (core k : Nat) : State :=
  let c := getCore s core
  setCore s core { c with table := c.table.eraseIdx k }

/-- The device after an internal move. -/
def internalMove (mv : Move) (s : State) : State :=
  match mv with
  | .issue _ _ _ | .event _ => s
  | .wait n => passTime s n
  | .l1Drop core pa => flushSector s core (pa / 64)
  | .codeDrop core blk => dropCode s core blk
  | .laneAccess dws seq lane => laneAccessMove s dws seq lane
  | .splitWays core => serveSplits core ((getCore s core).splits.length + 1) s
  | .tableOp core k => tableOpMove s core k
  | .sysRead core k => sysReadMove s core k
  | .rangeDrop core k => dropPiece s core k
  | .viewRay view vunit => viewRayMove s view vunit
  | .evictStart ring => evictStartMove s ring
  | .frameRetry k => frameRetryMove s k
  | .rangeBegin => rangeBeginMove s
  | .statusWrite queue => if (getQueue s queue).statusDue then writeStatus s queue else s
  | .areaWrite ctx => areaWriteMove s ctx
  | .sendPort port => pumpPort s port
  | .codewords port corrected failed => countCodewords s port corrected failed
  | .recallSave crew => recallSaveMove s crew
  | .drainNext pstack => drainNextMove s pstack
  | .swapNext => swapMove s
  | .request kind tier addr channel bank left crew core hub => requestMove s kind tier addr channel bank left crew core hub

/-- The state in which a step begins: a free value of its own, and nothing on the wires. -/
def beginStep (s : State) : State :=
  { s with tick := s.tick + 1, ports := kvMap s.ports fun _ (p : Port) => { p with sent := [] } }

end Sys2Proof.Machine
end

