-- ==== Sys2Proof/Machine/Drive.lean ====
section
/-! DEFINITION. One move of the device: the issue of the next instruction in a slot, a step of another agent, or a move that has no
row of the opcode table. -/

namespace Sys2Proof.Machine

/-- The outcome of exec once the issuing slot is done. -/
def settle (o : Host.Outcome State Fault Refusal) : Host.Outcome State Fault Refusal :=
  match o with
  | .next s => .next (finishIssue s)
  | .fault r => .fault r
  | .refused r => .refused r

/-- One move of the device. -/
def runMove (mv : Move) (s : State) : Host.Outcome State Fault Refusal :=
  match mv with
  | .issue core part slot =>
    match issuePlan s core part slot with
    | .idle s => .next (finishIssue s)
    | .stopped s => .next (finishIssue s)
    | .run s i => settle (exec i s)
  | .event i => if (Instr.word? i).isSome then .next s else settle (exec i s)
  | mv => .next (internalMove mv s)

end Sys2Proof.Machine
end

