-- ==== Sys2Proof/Machine/Probe.lean ====
section
/-! DEFINITION. A warp that stands in an issue slot, placed as a launch would place it, for running one given instruction. -/

namespace Sys2Proof.Machine

/-- The piece that holds the probe's code: the first 1 MiB, VA equal to PA, every permission. -/
def probePiece : Piece := { base := 0, lim := 2 ^ 20, ofs := 0, perm := 0x1F, attr := 1 }

/-- A state with a warp of one lane path holding issue slot 0 of partition 0 of core 0 at VA 0x10000, in a context with
system privilege. -/
def State.withProbe (s : State) : State :=
  let k : Kernel := { codeVa := 0x10000, codeSz := 0x10000, width := 64, regs := 384, scr := 65536, acc := 4, guse := 0x7 }
  let wp : Warp := { n := 384, live := ~~~0, paths := [(0, { pc := 0x10000, mask := ~~~0, st := .running })],
                     run := some { slot := 0, path := 0 } }
  let cr : Crew := { launch := s.fresh, ctx := 0, phase := .resident, core := 0, warps := [(0, wp)], scr := 65536, acc := 4 }
  let c := getCtx s 0
  let co := getCore s 0
  { s with
    fresh := s.fresh + 1
    launches := kvSet s.launches s.fresh { kernel := k, crews := 1, nextCrew := 1 }
    crews := kvSet s.crews s.fresh cr
    ctxs := kvSet s.ctxs 0 { c with st := .running, desc := leBytes 4 1 ++ leBytes 4 1 ++ List.replicate 120 0 }
    cores := kvSet s.cores 0 { co with table := [(0, probePiece)] } }

/-- The PA that the warp holding the slot fetches from, when it has a cached piece. -/
def fetchPa (s : State) (r : IssueRef) : Option Nat :=
  match siteOf { s with issuing := some r } with
  | none => none
  | some x => (cachedPiece s r.core x.cr.ctx x.pa.pc.toNat).map fun p => Piece.pa p x.pa.pc.toNat

/-- A 16-byte word of code placed where the warp in issue slot 0 of partition 0 of core 0 fetches next, or where a probe warp
placed there does. -/
def State.placeWord (s : State) (nbits w : Nat) : State :=
  let s := match (slotHolder s 0 0 0).bind (fetchPa s) with
    | some _ => s
    | none => s.withProbe
  match (slotHolder s 0 0 0).bind (fetchPa s) with
  | some pa => { dropCode (homePuts s pa (leBytes 16 (w % 2 ^ nbits))) 0 (pa / 64) with agenda := [.issue 0 0 0] }
  | none => s

end Sys2Proof.Machine
end

