-- ==== Sys2Proof/Machine/Step.lean ====
section
/-! DEFINITION. One step of the device, and the state in which a given instruction is issued next. -/

namespace Sys2Proof.Machine

/-- One step: the first move of the agenda, or the move that the environment makes. -/
def step (s : State) : Host.Outcome State Fault Refusal :=
  match s.agenda with
  | [] => runMove (Config.environment s.tick) (beginStep s)
  | mv :: rest => runMove mv (beginStep { s with agenda := rest })

/-- The state s with the instruction of bits w stored where the next step fetches. -/
def State.withFetchWord (s : State) (nbits w : Nat) : State := s.placeWord nbits w

end Sys2Proof.Machine
end

