-- ==== Sys2Proof/Safety.lean ====
section
/-! DEFINITION. The terms in which claims about the device are stated: safe outcomes and canonical memories, when an
instruction issues (R12, R68-R72), and what an instruction writes and leaves unchanged. -/

namespace Sys2Proof.Machine

/-! ### Safe runs -/

/-- The step went on: neither a fault nor a refusal. -/
def Runs (o : Host.Outcome State Fault Refusal) : Prop := ∃ t, o = .next t

/-- The memories of the device and of its crews are in canonical form. -/
def State.memoriesWf (s : State) : Prop :=
  Memory.wf s.mem ∧ Memory.wf s.tier ∧ ∀ e ∈ s.crews, Memory.wf e.2.scratch

/-- A step of a device with canonical memories is safe when it goes on to such a device. -/
def SafeStep (s : State) : Prop := ∃ t, step s = .next t ∧ t.memoriesWf

/-! ### When an instruction issues -/

/-- The active lanes of an instruction of a word on a path (R68, R165). -/
def activeLanes (i : Instr) (w : Enc) (x : Site) : Mask :=
  pathLanes x.wp x.pa &&& (if isBrau i then ~~~0 else guardMask x.width x.wp w.guard)

/-- The instruction passes the checks of R12 on the issuing warp, at the site x: no reconvergence is due (R178), its guard is not
empty (R72), and, when a lane is active, it is allowed (R94), no source or destination makes it wait (R70, R71) and no source
traps (R71, R450). -/
def Issues (i : Instr) (w : Enc) (s : State) (x : Site) : Prop :=
  ∃ y, siteOf s = some y ∧ (warpWide i && mustReconverge y.wp y.rn.path y.pa) = false ∧ guardEmpty y.wp w.guard = false ∧
    x = { y with act := activeLanes i w y } ∧
    (x.act = 0 ∨ ((needsSys s x i && !ctxSys s x.cr.ctx) = false ∧ mustWait i w s x = false ∧ sourceTrap i w s x = none))

/-- Exactly one warp changed. -/
def OnlyWarp (s t : State) (x : Site) (wp : Warp) : Prop := t = setWarp s x.ref.crew x.ref.warp wp

/-- The issuing warp keeps everything but its registers and flags, its run, its paths and the marks of R144 and R159: live lanes,
items, return stacks, store queue, loads, trap and handler registers, engine classes, rays, versions and the rest. -/
def KeepsWarp (a b : Warp) : Prop :=
  { b with regs := a.regs, run := a.run, paths := a.paths, lastLow := a.lastLow, afterSplit := a.afterSplit,
           hintPh := a.hintPh, hintYh := a.hintYh, readySince := a.readySince } = a

/-- The path goes on at the next word, the others stand; the run goes on with one more instruction executed, or ends at BND
(R74). -/
def GoesOn (w : Enc) (x : Site) (b : Warp) : Prop :=
  (∀ k, k ≠ x.rn.path → kvGet b.paths k = kvGet x.wp.paths k) ∧
  (∃ p, kvGet b.paths x.rn.path = some p ∧ p.pc = x.pa.pc + 16 ∧ p.mask = x.pa.mask) ∧
  (if w.bnd then b.run = none
   else ∃ r, b.run = some r ∧ r.slot = x.rn.slot ∧ r.path = x.rn.path ∧ r.files.count = x.rn.files.count + 1)

/-! ### Registers -/

/-- The main register r of a lane, the scalar register r, the predicate or j mask r. -/
def Regs.main (g : Regs) (r lane : Nat) : W32 := kvD g.v (64 * r + lane) 0
def Regs.scal (g : Regs) (r : Nat) : W32 := kvD g.s r 0
def Regs.pmask (g : Regs) (r : Nat) : Mask := kvD g.p r 0

/-- Word j of a result: the low word, or the high word of a pair (R29). -/
def resultWord (v j : Nat) : W32 := BitVec.ofNat 32 (v / 2 ^ (32 * j))

/-- The registers of a result: one, or the two of a pair. -/
def pairSize (wide : Bool) : Nat := if wide then 2 else 1

/-- In the lanes of m the n main registers from d take the words of val, full and unpoisoned (R70, R450); every other main
register keeps its value and its state. -/
def MainWritten (a b : Regs) (d n : Nat) (m : Mask) (val : Nat → Nat) : Prop :=
  (∀ l j, l < 64 → j < n → m.getLsbD l = true →
    b.main (d + j) l = resultWord (val l) j ∧ (64 * (d + j) + l) ∉ b.vempty ∧ (64 * (d + j) + l) ∉ b.vpoison) ∧
  (∀ r l, l < 64 → ¬(m.getLsbD l = true ∧ d ≤ r ∧ r < d + n) →
    b.main r l = a.main r l ∧ ((64 * r + l) ∈ b.vempty ↔ (64 * r + l) ∈ a.vempty) ∧
      ((64 * r + l) ∈ b.vpoison ↔ (64 * r + l) ∈ a.vpoison))

/-- The n scalar registers from d take the words of v; every other scalar register keeps its value and its state. -/
def ScalarWritten (a b : Regs) (d n : Nat) (v : Nat) : Prop :=
  (∀ j, j < n → b.scal (d + j) = resultWord v j ∧ (d + j) ∉ b.sempty ∧ (d + j) ∉ b.spoison) ∧
  (∀ r, ¬(d ≤ r ∧ r < d + n) →
    b.scal r = a.scal r ∧ (r ∈ b.sempty ↔ r ∈ a.sempty) ∧ (r ∈ b.spoison ↔ r ∈ a.spoison))

/-- The main registers, the scalar registers, the predicates and j masks, the flags are as they were. -/
def MainKept (a b : Regs) : Prop := b.v = a.v ∧ b.vempty = a.vempty ∧ b.vpoison = a.vpoison
def ScalarKept (a b : Regs) : Prop := b.s = a.s ∧ b.sempty = a.sempty ∧ b.spoison = a.spoison
def PredKept (a b : Regs) : Prop := b.p = a.p ∧ b.pempty = a.pempty
def FlagsKept (a b : Regs) : Prop := b.fnv = a.fnv ∧ b.fdz = a.fdz ∧ b.fof = a.fof ∧ b.fuf = a.fuf ∧ b.fnx = a.fnx

/-- A destination D of a lane result: main registers in the active lanes, scalar registers from the first active lane (R69), or
entries of the operand file, whose words in the active lanes are read in the run that goes on. -/
def DestWritten (x : Site) (w : Enc) (b : Warp) (o : Operand) (wide : Bool) (val : Nat → Nat) : Prop :=
  match o.file with
  | .main => MainWritten x.wp.regs b.regs o.idx.toNat (pairSize wide) x.act val ∧ ScalarKept x.wp.regs b.regs
  | .scalar => MainKept x.wp.regs b.regs ∧ (if x.act = 0 then ScalarKept x.wp.regs b.regs
      else ScalarWritten x.wp.regs b.regs o.idx.toNat (pairSize wide) (val (lowLane x.act)))
  | .side => MainKept x.wp.regs b.regs ∧ ScalarKept x.wp.regs b.regs ∧
      (w.bnd = false → ∀ r, b.run = some r → ∀ l j, l < 64 → j < pairSize wide → x.act.getLsbD l = true →
        kvD r.files.opf (64 * (Operand.entry o + j) + l) 0 = resultWord (val l) j)
  | .pred => MainKept x.wp.regs b.regs ∧ ScalarKept x.wp.regs b.regs

/-- A predicate destination takes the truth of f in the active lanes and keeps the others, full; with no active lane nothing is
written (R72). -/
def PredWritten (x : Site) (b : Warp) (o : Operand) (f : Nat → Bool) : Prop :=
  if x.act = 0 then PredKept x.wp.regs b.regs
  else (∀ l, l < x.width → x.act.getLsbD l = true → (b.regs.pmask o.idx.toNat).getLsbD l = f l) ∧
    (∀ l, x.act.getLsbD l = false → (b.regs.pmask o.idx.toNat).getLsbD l = (x.wp.regs.pmask o.idx.toNat).getLsbD l) ∧
    o.idx.toNat ∉ b.regs.pempty ∧
    (∀ r, r ≠ o.idx.toNat → b.regs.pmask r = x.wp.regs.pmask r ∧ (r ∈ b.regs.pempty ↔ r ∈ x.wp.regs.pempty))

/-- The sticky flags of the active lanes take what f raises; nothing is cleared, and no other lane changes (R42). -/
def FlagsRaised (x : Site) (b : Warp) (f : Nat → FFlags) : Prop :=
  ∀ l, l < 64 →
    b.regs.fnv.getLsbD l = (x.wp.regs.fnv.getLsbD l || (x.act.getLsbD l && (f l).nv)) ∧
    b.regs.fdz.getLsbD l = (x.wp.regs.fdz.getLsbD l || (x.act.getLsbD l && (f l).dz)) ∧
    b.regs.fof.getLsbD l = (x.wp.regs.fof.getLsbD l || (x.act.getLsbD l && (f l).of)) ∧
    b.regs.fuf.getLsbD l = (x.wp.regs.fuf.getLsbD l || (x.act.getLsbD l && (f l).uf)) ∧
    b.regs.fnx.getLsbD l = (x.wp.regs.fnx.getLsbD l || (x.act.getLsbD l && (f l).nx))

/-- The outcome of an instruction whose one result goes to D and that changes no flag: it answers a next state in which D holds the
result and all else stands. -/
def GivesD (o : Host.Outcome State Fault Refusal) (w : Enc) (s : State) (x : Site) (wide : Bool) (val : Nat → Nat) : Prop :=
  ∃ b, o = .next (setWarp s x.ref.crew x.ref.warp b) ∧ KeepsWarp x.wp b ∧ GoesOn w x b ∧
    DestWritten x w b w.d wide val ∧ PredKept x.wp.regs b.regs ∧ FlagsKept x.wp.regs b.regs

/-- The outcome of an instruction whose one result is a predicate in D. -/
def GivesP (o : Host.Outcome State Fault Refusal) (w : Enc) (s : State) (x : Site) (val : Nat → Bool) : Prop :=
  ∃ b, o = .next (setWarp s x.ref.crew x.ref.warp b) ∧ KeepsWarp x.wp b ∧ GoesOn w x b ∧
    PredWritten x b w.d val ∧ MainKept x.wp.regs b.regs ∧ ScalarKept x.wp.regs b.regs ∧ FlagsKept x.wp.regs b.regs

/-- The outcome of a floating-point instruction: a result in D, and flags raised (R42). -/
def GivesF (o : Host.Outcome State Fault Refusal) (w : Enc) (s : State) (x : Site) (wide : Bool) (val : Nat → Nat × FFlags) : Prop :=
  ∃ b, o = .next (setWarp s x.ref.crew x.ref.warp b) ∧ KeepsWarp x.wp b ∧ GoesOn w x b ∧
    DestWritten x w b w.d wide (fun l => (val l).1) ∧ PredKept x.wp.regs b.regs ∧ FlagsRaised x b fun l => (val l).2

/-- The outcome of an instruction with a result in D and a predicate in E. -/
def GivesDP (o : Host.Outcome State Fault Refusal) (w : Enc) (s : State) (x : Site) (wide : Bool) (val : Nat → Nat)
    (p : Nat → Bool) : Prop :=
  ∃ b, o = .next (setWarp s x.ref.crew x.ref.warp b) ∧ KeepsWarp x.wp b ∧ GoesOn w x b ∧
    DestWritten x w b w.d wide val ∧ PredWritten x b w.e p ∧ FlagsKept x.wp.regs b.regs

/-- The outcome of an instruction with a result in D and a second one in E, which is written last. -/
def GivesDE (o : Host.Outcome State Fault Refusal) (w : Enc) (s : State) (x : Site) (wide : Bool) (val snd : Nat → Nat) : Prop :=
  ∃ a b, o = .next (setWarp s x.ref.crew x.ref.warp b) ∧ KeepsWarp x.wp b ∧ GoesOn w x b ∧
    DestWritten x w a w.d wide val ∧ DestWritten { x with wp := a } w b w.e wide snd ∧
    PredKept x.wp.regs b.regs ∧ FlagsKept x.wp.regs b.regs

/-- The outcome of an instruction whose one result is a predicate or a j mask in D; a j mask takes effect at once for the tests of
JOIN and JWAIT (R185). -/
def GivesPJ (o : Host.Outcome State Fault Refusal) (w : Enc) (s : State) (x : Site) (val : Nat → Bool) : Prop :=
  ∃ b, o = .next (setWarp s x.ref.crew x.ref.warp (if x.act ≠ 0 ∧ 16 ≤ w.d.idx.toNat then settlePaths b else b)) ∧
    KeepsWarp x.wp b ∧ GoesOn w x b ∧
    PredWritten x b w.d val ∧ MainKept x.wp.regs b.regs ∧ ScalarKept x.wp.regs b.regs ∧ FlagsKept x.wp.regs b.regs

/-- The outcome of an instruction that takes its place in its run and otherwise makes the state t. -/
def GoesOnTo (o : Host.Outcome State Fault Refusal) (w : Enc) (x : Site) (t : State) : Prop :=
  ∃ b, o = .next (setWarp t x.ref.crew x.ref.warp b) ∧ KeepsWarp x.wp b ∧ GoesOn w x b ∧ b.regs = x.wp.regs

/-! ### Control transfers -/

/-- The live lanes of the executing path. -/
def ownLanes (x : Site) : Mask := x.pa.mask &&& x.wp.live

/-- Where a lane of the executing path goes: an active lane to its target, another one to the next word (R160). -/
def placeOf (x : Site) (tgt : Nat → W64) (l : Nat) : W64 := if x.act.getLsbD l then tgt l else x.pa.pc + 16

/-- Two lanes go as one group (R160): to one place, and both active or both not, unless the whole path goes to the next word. -/
def OneGroup (x : Site) (tgt : Nat → W64) (l m : Nat) : Prop :=
  placeOf x tgt l = placeOf x tgt m ∧
    (x.act.getLsbD l = x.act.getLsbD m ∨ ∀ k, (ownLanes x).getLsbD k = true → placeOf x tgt k = x.pa.pc + 16)

/-- The groups of a control transfer (R160). -/
def transferGroups (x : Site) (tgt : Nat → W64) : List (W64 × Mask) :=
  splitGroups ((lanesOf x.act).map fun l => (l, tgt l)) (ownLanes x &&& ~~~x.act) (x.pa.pc + 16)

/-- The free entries of the warp's path table: F of R160. -/
def freeCount (x : Site) : Nat := maxPaths - x.wp.paths.length

/-- The run has ended, the other paths stand, and of the rest of the warp only its marks changed, from base. -/
def RunEnded (x : Site) (base b : Warp) : Prop :=
  KeepsWarp base b ∧ b.regs = base.regs ∧ b.run = none ∧
    ∀ k p, k ≠ x.rn.path → kvGet x.wp.paths k = some p → kvGet b.paths k = some p

/-- The executing path was split off at this very branch while R160 left a group of lanes there, which still stands (R158). -/
def BackAtBranch (x : Site) : Prop :=
  x.pa.splitFrom = some x.pa.pc ∧ ∃ q ∈ x.wp.paths, q.1 ≠ x.rn.path ∧ q.2.stay = true ∧ q.2.pc = x.pa.pc

/-- The outcome of a control transfer (R160): each live lane of the path is on a READY path at its place that holds just its group,
or, when the groups outnumber the entries, on the executing path at the instruction's own PC. A path that is back at the branch
stands there, to merge with the group left (R158). -/
def Branched (o : Host.Outcome State Fault Refusal) (s : State) (x : Site) (base : Warp) (tgt : Nat → W64) : Prop :=
  ∃ b, o = .next (setWarp s x.ref.crew x.ref.warp (settlePaths b)) ∧ RunEnded x base b ∧
    ∀ l, (ownLanes x).getLsbD l = true → ∃ k p, kvGet b.paths k = some p ∧ p.mask.getLsbD l = true ∧
      ((BackAtBranch x ∧ k = x.rn.path ∧ p.pc = x.pa.pc ∧ p.st = .ready) ∨
       (¬BackAtBranch x ∧ p.pc = placeOf x tgt l ∧ p.st = .ready ∧
          ∀ m, p.mask.getLsbD m = true ↔ (ownLanes x).getLsbD m = true ∧ OneGroup x tgt l m) ∨
       (¬BackAtBranch x ∧ freeCount x + 1 < (transferGroups x tgt).length ∧ k = x.rn.path ∧ p.pc = x.pa.pc ∧
          p.st = if freeCount x = 0 then .noEntry else .ready))

/-- The outcome of an instruction after which the whole path stands at a PC and its run has ended. -/
def Stepped (o : Host.Outcome State Fault Refusal) (s : State) (x : Site) (pc : W64) : Prop :=
  ∃ b, o = .next (setWarp s x.ref.crew x.ref.warp (settlePaths b)) ∧ RunEnded x x.wp b ∧
    ∃ p, kvGet b.paths x.rn.path = some p ∧ p.pc = pc ∧ p.mask = x.pa.mask ∧ p.st = .ready

/-- Some lanes are vacant: they left every path, no path is without lanes, and a wholly vacant warp is in no handler (R148, R158,
R445). -/
def Vacated (a b : Warp) (m : Mask) : Prop :=
  b.live = a.live &&& ~~~m ∧ (∀ e ∈ b.paths, e.2.mask &&& m = 0 ∧ e.2.mask ≠ 0) ∧ (b.live = 0 → b.handler = none)

/-! ### Accesses -/

/-- A destination is empty in the lanes of m, and all else of the registers stands (R70, R206). -/
def Emptied (a b : Regs) (d : Dest) (m : Mask) : Prop :=
  b.v = a.v ∧ b.vpoison = a.vpoison ∧ b.s = a.s ∧ b.spoison = a.spoison ∧ PredKept a b ∧ FlagsKept a b ∧
  match d with
  | .none => b = a
  | .main r wide => b.sempty = a.sempty ∧ ∀ q l, l < 64 →
      (64 * q + l ∈ b.vempty ↔ 64 * q + l ∈ a.vempty ∨ (m.getLsbD l = true ∧ r ≤ q ∧ q < r + pairSize wide))
  | .scalar r wide => b.vempty = a.vempty ∧ ∀ q, q ∈ b.sempty ↔ q ∈ a.sempty ∨ (r ≤ q ∧ q < r + pairSize wide)

/-- The outcome of a load whose lanes passed their checks in the state t: it is in flight as the youngest, its destination is empty, and
nothing else changed. -/
def LoadIssued (o : Host.Outcome State Fault Refusal) (w : Enc) (x : Site) (t : State) (lanes : List LaneAccess)
    (sc : Nat) (acq code : Bool) : Prop :=
  ∃ b e, o = .next (setWarp t x.ref.crew x.ref.warp b) ∧ GoesOn w x b ∧
    Emptied x.wp.regs b.regs (destOf w.d (Ty.wide w.ty)) x.act ∧ b.loads = x.wp.loads ++ [e] ∧
    e.seq = x.wp.nextSeq ∧ e.ty = w.ty ∧ e.width = accessWidth w.ty ∧ e.sc = sc ∧ e.acq = acq ∧ e.code = code ∧
    e.dst = destOf w.d (Ty.wide w.ty) ∧ e.lanes = lanes ∧
    KeepsWarp { x.touched.wp with loads := b.loads, nextSeq := x.wp.nextSeq + 1 } b

/-- The outcome of an access that waits in the store queue: it is the queue's last entry, its destination is empty, and nothing else
changed; memory changes when the entry leaves (R204). -/
def StoreQueued (o : Host.Outcome State Fault Refusal) (w : Enc) (x : Site) (t : State) (locs : List (Nat × Nat × Loc))
    (kind : StoreKind) (n : Nat) (dst : Dest) (val new : Nat → Nat) : Prop :=
  ∃ b e, o = .next (setWarp t x.ref.crew x.ref.warp b) ∧ GoesOn w x b ∧ Emptied x.wp.regs b.regs dst x.act ∧
    b.storeQ = x.wp.storeQ ++ [e] ∧ e.seq = x.wp.nextSeq ∧ e.kind = kind ∧ e.width = n ∧ e.dst = dst ∧
    e.lanes = locs.map (fun a => laneAccess a (val a.1) (new a.1)) ∧
    KeepsWarp { x.touched.wp with storeQ := b.storeQ, nextSeq := x.wp.nextSeq + 1 } b

/-- From s to t, of memory at its homes, only dirty bytes of a core's L1 have been written back (R193, R195). -/
def WroteBack (s t : State) (core : Nat) : Prop :=
  ∀ p, homeByte t p = homeByte s p ∨ ∃ y, sectorAt s core (p / 64) = some y ∧ y.dirty.getLsbD (p % 64) = true ∧
    homeByte t p = y.data.getD (p % 64) 0

/-- A core's L1 lists its sectors once each. -/
def L1Rising (s : State) (core : Nat) : Prop := (getCore s core).l1.Pairwise fun a b => a.1 < b.1

/-- Whether a lane access covers a byte of memory. -/
def Covers (n : Nat) (a : LaneAccess) (pa : Nat) : Prop := ∃ p, a.loc = .mem p ∧ p ≤ pa ∧ pa < p + n

/-- In every state in which it issues, the instruction goes on, gives D a result that stands in relation r to the state, the site
and the lane, and changes nothing else. -/
def Computes (i : Instr) (w : Enc) (wide : Bool) (r : State → Site → Nat → Nat → Prop) : Prop :=
  ∀ s x, Issues i w s x → ∃ val, GivesD (exec i s) w s x wide val ∧ ∀ l, l < 64 → r s x l (val l)

/-- The outcome of an instruction whose checked command enters, or waits for a counter, a scoreboard entry or its warp's own accesses. -/
def EntersCommand (o : Host.Outcome State Fault Refusal) (w : Enc) (s : State) (x : Site) (c : Command) : Prop :=
  (commandWaits s x c = true → o = .next (setWarp s x.ref.crew x.ref.warp (x.hold s.now))) ∧
  (commandWaits s x c = false →
    o = .next (setWarp (enterCommand x s c).2.1 x.ref.crew x.ref.warp ((enterCommand x s c).1.advance w)))

/-- The outcome of an instruction that waits where it stands and is issued again. -/
def Waits (o : Host.Outcome State Fault Refusal) (s : State) (x : Site) : Prop :=
  o = .next (setWarp s x.ref.crew x.ref.warp (x.hold s.now))

/-- The outcome of an instruction that raises a trap. -/
def Traps (o : Host.Outcome State Fault Refusal) (s : State) (x : Site) (t : TrapInfo) : Prop := o = .next (takeTrap s x t)

/-! ### Rounding -/

/-- The number that a finite encoding of a format stands for (R31). -/
def finValue (f : Fmt) (b : Nat) : Option Rat :=
  match decodeF f b with
  | .fin s m e => some ((if s then -1 else 1) * m * 2 ^ e)
  | _ => none

/-- The encoding r is the nearest of a format to q from below: the greatest finite number not above q, or minus infinity. -/
def RoundsDown (f : Fmt) (q : ℝ) (r : Nat) : Prop :=
  match finValue f r with
  | some v => (v : ℝ) ≤ q ∧ ∀ b u, finValue f b = some u → (u : ℝ) ≤ q → u ≤ v
  | none => r = f.signed true f.infBits ∧ ∀ b u, finValue f b = some u → q < u

/-- The encoding r is the nearest of a format to q from above. -/
def RoundsUp (f : Fmt) (q : ℝ) (r : Nat) : Prop :=
  match finValue f r with
  | some v => q ≤ (v : ℝ) ∧ ∀ b u, finValue f b = some u → q ≤ (u : ℝ) → v ≤ u
  | none => r = f.infBits ∧ ∀ b u, finValue f b = some u → (u : ℝ) < q

/-- The encoding r is round(q, f, mode) of R36 for a nonzero q under a profile that preserves denormals: toward an end of the line, toward
zero, or to the nearest number, a tie to the even fraction, and from half a step beyond the largest one on to an infinity. The sign of
a zero is the sign of q. -/
def RoundOf (f : Fmt) (mode : RMode) (q : ℝ) (r : Nat) : Prop :=
  r < 2 ^ f.bits ∧ (f.signBit ≤ r ↔ q < 0) ∧
  match mode with
  | .rd => RoundsDown f q r
  | .ru => RoundsUp f q r
  | .rz => if q < 0 then RoundsUp f q r else RoundsDown f q r
  | .rne =>
    let edge : ℝ := 2 ^ (f.emax + 1) - 2 ^ (f.emax - f.fb - 1)
    match finValue f r with
    | some v => |q| < edge ∧ ∀ b u, finValue f b = some u →
        |(v : ℝ) - q| ≤ |(u : ℝ) - q| ∧ (|(v : ℝ) - q| = |(u : ℝ) - q| → u = v ∨ r % 2 = 0)
    | none => edge ≤ |q| ∧ r = f.signed (decide (f.signBit ≤ r)) f.infBits

/-! ### The host -/

/-- Port 0 hears the host, and the boot has not failed (R467, R477). -/
def HostHeard (s : State) : Prop := PortState.hears (getPort s 0).st = true ∧ ∀ n, s.service.boot ≠ .failed n

/-- The outcome of a message of the host that comes to the state t: its flits are taken and acknowledged there (R462, R465). -/
def HostMakes (o : Host.Outcome State Fault Refusal) (flits : Nat) (t : State) : Prop :=
  o = .next (takeFrames t 0 ((flits + 15) / 16) 3 flits)

/-! ### Values -/

/-- The pattern r holds in element i the value v of res (R98): reduced modulo 2^width into the element's range when the destination
has no modifier, clamped to the range with SAT, clamped to [0, 1] with SAT01. -/
def ElemHolds (e : Elem) (dmod : Nat) (r i : Nat) (v : Int) : Prop :=
  elemLo e ≤ elemOf e r i ∧ elemOf e r i ≤ elemHi e ∧
  (if dmod = 2 then elemOf e r i = max (elemLo e) (min (elemHi e) v)
   else if dmod = 1 then elemOf e r i = max 0 (min 1 v)
   else (2 ^ e.width : Int) ∣ elemOf e r i - v)

/-- Every element of a result holds f of the elements of two sources. -/
def Elementwise (t : Ty) (dmod : Nat) (f : Int → Int → Int) (a b r : Nat) : Prop :=
  r < 2 ^ ((Ty.elem t).count * (Ty.elem t).width) ∧
  ∀ i, i < (Ty.elem t).count → ElemHolds (Ty.elem t) dmod r i (f (elemOf (Ty.elem t) a i) (elemOf (Ty.elem t) b i))

end Sys2Proof.Machine
end

