-- ==== Sys2Proof/Certificates/Slice0/Obligations.lean ====
section
/-! DEFINITION. The statements for the provers, from the numbered rules of the spec. -/

open Sys2Proof Sys2Proof.Machine

/-! ### Integers and bits -/

/-- R102-R104: each element of D is the sum, difference, product, multiply-add, minimum, maximum or absolute value of the source
elements through res, for every integer type, register form and modifier; nothing else changes. -/
def Obligations.IntegerElementResults : Prop := ∀ w : Enc,
  (WellFormed (.iadd w) = true → Computes (.iadd w) w (Ty.wide w.ty) fun s x l r =>
    Elementwise w.ty (dMod w) (· + ·) (tA s x w l) (tB s x w l) r) ∧
  (WellFormed (.isub w) = true → Computes (.isub w) w (Ty.wide w.ty) fun s x l r =>
    Elementwise w.ty (dMod w) (· - ·) (tA s x w l) (tB s x w l) r) ∧
  (WellFormed (.imul w) = true → Computes (.imul w) w (Ty.wide w.ty) fun s x l r =>
    Elementwise w.ty (dMod w) (· * ·) (tA s x w l) (tB s x w l) r) ∧
  (WellFormed (.imin w) = true → Computes (.imin w) w (Ty.wide w.ty) fun s x l r =>
    Elementwise w.ty 0 min (tA s x w l) (tB s x w l) r) ∧
  (WellFormed (.imax w) = true → Computes (.imax w) w (Ty.wide w.ty) fun s x l r =>
    Elementwise w.ty 0 max (tA s x w l) (tB s x w l) r) ∧
  (WellFormed (.iabs w) = true → Computes (.iabs w) w (Ty.wide w.ty) fun s x l r =>
    Elementwise w.ty (dMod w) (fun a _ => |a|) (tA s x w l) 0 r) ∧
  (WellFormed (.imad w) = true → Computes (.imad w) w false fun s x l r =>
    ∀ i, i < (Ty.elem w.ty).count → ElemHolds (Ty.elem w.ty) (dMod w) r i
      (elemOf (Ty.elem w.ty) (tA s x w l) i * elemOf (Ty.elem w.ty) (tB s x w l) i + elemOf (Ty.elem w.ty) (tC s x w l) i))

/-- R102-R104, R111, R114, R115: the upper half of the exact product, the widening multiply-add, the sum of absolute differences, the
address sum and the width conversion; the sum and difference with a carry in C modulo 2^n to D and the carry or borrow out to E; division,
whose quotient truncates toward zero and whose remainder takes the dividend's sign, with a quotient of all ones by zero. -/
def Obligations.IntegerWideResults : Prop :=
  (∀ w : Enc,
  (WellFormed (.imulh w) = true → Computes (.imulh w) w (Ty.wide w.ty) fun s x l r =>
    ∃ low : Nat, low < 2 ^ (Ty.elem w.ty).width ∧
      elemOf (Ty.elem w.ty) (tA s x w l) 0 * elemOf (Ty.elem w.ty) (tB s x w l) 0 =
        2 ^ (Ty.elem w.ty).width * elemOf (Ty.elem w.ty) r 0 + low) ∧
  (WellFormed (.imadw w) = true → Computes (.imadw w) w true fun s x l r =>
    ElemHolds ⟨1, 64, (Ty.elem w.ty).signed⟩ (dMod w) r 0
      (elemOf (Ty.elem w.ty) (tA s x w l) 0 * elemOf (Ty.elem w.ty) (tB s x w l) 0 +
        elemOf ⟨1, 64, (Ty.elem w.ty).signed⟩ (srcC s x .n64 w l) 0)) ∧
  (WellFormed (.isad w) = true → Computes (.isad w) w false fun s x l r =>
    ElemHolds ⟨1, 32, false⟩ (dMod w) r 0
      (((List.range (Ty.elem w.ty).count).map fun i =>
        |elemOf (Ty.elem w.ty) (tA s x w l) i - elemOf (Ty.elem w.ty) (tB s x w l) i|).sum + nC s x w l)) ∧
  (WellFormed (.lea w) = true → Computes (.lea w) w true fun s x l r =>
    r < 2 ^ 64 ∧ (r : ZMod (2 ^ 64)) = srcValue s x .n64 w.a l + nB s x w l * 2 ^ w.sub.toNat) ∧
  (WellFormed (.cvti w) = true → Computes (.cvti w) w (Ty.wide w.ty) fun s x l r =>
    ElemHolds (Ty.elem w.ty) (dMod w) r 0
      (elemOf (cvtiElem w.sub.toNat) (srcValue s x (if 6 ≤ w.sub.toNat then .n64 else .n32) w.a l) 0))) ∧
  (∀ (w : Enc) (s : State) (x : Site),
  (WellFormed (.iaddc w) = true → Issues (.iaddc w) w s x → ∃ val c, GivesDP (exec (.iaddc w) s) w s x (Ty.wide w.ty) val c ∧
    ∀ l, l < 64 → val l < 2 ^ (Ty.elem w.ty).width ∧
      val l + (c l).toNat * 2 ^ (Ty.elem w.ty).width = tA s x w l + tB s x w l + (predValue x w.c l).toNat) ∧
  (WellFormed (.isubb w) = true → Issues (.isubb w) w s x → ∃ val c, GivesDP (exec (.isubb w) s) w s x (Ty.wide w.ty) val c ∧
    ∀ l, l < 64 → val l < 2 ^ (Ty.elem w.ty).width ∧
      val l + tB s x w l + (predValue x w.c l).toNat = tA s x w l + (c l).toNat * 2 ^ (Ty.elem w.ty).width)) ∧
  (∀ (w : Enc) (s : State) (x : Site), WellFormed (.idiv w) = true →
  Issues (.idiv w) w s x → ∃ q r : Nat → Nat,
    (w.sub = 0 → GivesD (exec (.idiv w) s) w s x (Ty.wide w.ty) q) ∧
    (w.sub = 1 → GivesD (exec (.idiv w) s) w s x (Ty.wide w.ty) r) ∧
    (w.sub = 2 → GivesDE (exec (.idiv w) s) w s x (Ty.wide w.ty) q r) ∧
    ∀ l, l < 64 →
      let e := Ty.elem w.ty
      let a := elemOf e (tA s x w l) 0
      let b := elemOf e (tB s x w l) 0
      (w.sub ≠ 1 → ElemHolds e (dMod w) (q l) 0 (if b = 0 then (if e.signed then -1 else 2 ^ e.width - 1) else a.tdiv b)) ∧
      elemOf e (r l) 0 = if b = 0 then a else a.tmod b)

/-- R106, R107: AND, OR, XOR, ANDN and LOP3 compute each bit of the result from the bits of the sources at its place; shifts, the
rotation and the funnel shift move bits by a count, the n32 value of B (of C for FSHF). -/
def Obligations.BitwiseResults : Prop :=
  (∀ w : Enc,
  (WellFormed (.and w) = true → Computes (.and w) w (Ty.wide w.ty) fun s x l r =>
    ∀ j, r.testBit j = (decide (j < (Ty.elem w.ty).width) && ((tA s x w l).testBit j && (tB s x w l).testBit j))) ∧
  (WellFormed (.or w) = true → Computes (.or w) w (Ty.wide w.ty) fun s x l r =>
    ∀ j, r.testBit j = (decide (j < (Ty.elem w.ty).width) && ((tA s x w l).testBit j || (tB s x w l).testBit j))) ∧
  (WellFormed (.xor w) = true → Computes (.xor w) w (Ty.wide w.ty) fun s x l r =>
    ∀ j, r.testBit j = (decide (j < (Ty.elem w.ty).width) && ((tA s x w l).testBit j ^^ (tB s x w l).testBit j))) ∧
  (WellFormed (.andn w) = true → Computes (.andn w) w (Ty.wide w.ty) fun s x l r =>
    ∀ j, r.testBit j = (decide (j < (Ty.elem w.ty).width) && ((tA s x w l).testBit j && !(tB s x w l).testBit j))) ∧
  (WellFormed (.lop3 w) = true → Computes (.lop3 w) w false fun s x l r =>
    ∀ j, r.testBit j = (decide (j < 32) && (Operand.bits w.e).toNat.testBit
      (((tA s x w l).testBit j).toNat + 2 * ((tB s x w l).testBit j).toNat + 4 * ((tC s x w l).testBit j).toNat)))) ∧
  (∀ w : Enc,
  (WellFormed (.shl w) = true → Computes (.shl w) w (Ty.wide w.ty) fun s x l r =>
    ∀ j, r.testBit j = (decide (j < (Ty.elem w.ty).width ∧ nB s x w l ≤ j) && (tA s x w l).testBit (j - nB s x w l))) ∧
  (WellFormed (.shr w) = true → Computes (.shr w) w (Ty.wide w.ty) fun s x l r =>
    ∀ j, r.testBit j = (decide (j + nB s x w l < (Ty.elem w.ty).width) && (tA s x w l).testBit (j + nB s x w l))) ∧
  (WellFormed (.sar w) = true → Computes (.sar w) w (Ty.wide w.ty) fun s x l r =>
    ∀ j, r.testBit j = (decide (j < (Ty.elem w.ty).width) &&
      (tA s x w l).testBit (min (j + nB s x w l) ((Ty.elem w.ty).width - 1)))) ∧
  (WellFormed (.rotl w) = true → Computes (.rotl w) w (Ty.wide w.ty) fun s x l r =>
    ∀ j, r.testBit j = (decide (j < 32) && (tA s x w l).testBit ((j + 32 - nB s x w l % 32) % 32))) ∧
  (WellFormed (.fshf w) = true → Computes (.fshf w) w false fun s x l r =>
    ∀ j, r.testBit j = (decide (j < 32) &&
      let k := if w.sub = 1 then j + min (nC s x w l) 32 else j + 32 - min (nC s x w l) 32
      if k < 32 then (tB s x w l).testBit k else decide (k < 64) && (tA s x w l).testBit (k - 32))))

/-- R108-R110, R112: BFX takes the bits of a field, zero- or sign-extended, and BFI replaces them, the field at ctl[7:0], of min(ctl[15:8],
32) bits; counts, reversal, interleaving and byte permutation. -/
def Obligations.BitFieldResults : Prop :=
  (∀ w : Enc,
  (WellFormed (.bfx w) = true → Computes (.bfx w) w false fun s x l r =>
    let a := tA s x w l
    let pos := nB s x w l % 256
    let len := min (nB s x w l / 256 % 256) 32
    let sgn := (Ty.elem w.ty).signed
    let ext (k : Nat) : Bool := if k < 32 then a.testBit k else sgn && a.testBit 31
    r < 2 ^ 32 ∧ (len = 0 → r = 0) ∧
    (0 < len → ∀ j, j < 32 → r.testBit j = if j < len then ext (pos + j) else sgn && ext (pos + len - 1))) ∧
  (WellFormed (.bfi w) = true → Computes (.bfi w) w false fun s x l r =>
    let pos := nB s x w l % 256
    let len := min (nB s x w l / 256 % 256) 32
    ∀ j, r.testBit j = (decide (j < 32) && if pos ≤ j ∧ j < pos + len then (tC s x w l).testBit (j - pos) else (tA s x w l).testBit j))) ∧
  (∀ w : Enc,
  (WellFormed (.popc w) = true → Computes (.popc w) w false fun s x l r =>
    r = ((List.range (Ty.elem w.ty).width).filter fun j => (tA s x w l).testBit j).length) ∧
  (WellFormed (.clz w) = true → Computes (.clz w) w false fun s x l r =>
    r ≤ (Ty.elem w.ty).width ∧ (∀ j, j < r → (tA s x w l).testBit ((Ty.elem w.ty).width - 1 - j) = false) ∧
    (r < (Ty.elem w.ty).width → (tA s x w l).testBit ((Ty.elem w.ty).width - 1 - r) = true)) ∧
  (WellFormed (.ctz w) = true → Computes (.ctz w) w false fun s x l r =>
    r ≤ (Ty.elem w.ty).width ∧ (∀ j, j < r → (tA s x w l).testBit j = false) ∧
    (r < (Ty.elem w.ty).width → (tA s x w l).testBit r = true)) ∧
  (WellFormed (.brev w) = true → Computes (.brev w) w (Ty.wide w.ty) fun s x l r =>
    ∀ j, r.testBit j = (decide (j < (Ty.elem w.ty).width) && (tA s x w l).testBit ((Ty.elem w.ty).width - 1 - j))) ∧
  (WellFormed (.blv w) = true → Computes (.blv w) w false fun s x l r =>
    if w.sub = 1 then r < 2 ^ 30 ∧ ∀ i, i < 10 → r.testBit (3 * i) = (tA s x w l).testBit i ∧
      r.testBit (3 * i + 1) = (tB s x w l).testBit i ∧ r.testBit (3 * i + 2) = (tC s x w l).testBit i
    else r < 2 ^ 32 ∧ ∀ i, i < 16 → r.testBit (2 * i) = (tA s x w l).testBit i ∧ r.testBit (2 * i + 1) = (tB s x w l).testBit i) ∧
  (WellFormed (.bdlv w) = true → Computes (.bdlv w) w false fun s x l r =>
    let t := if w.sub = 1 then 3 else 2
    ∀ i, r.testBit i = (decide (nB s x w l < t ∧ t * i + nB s x w l ≤ 31) && (tA s x w l).testBit (t * i + nB s x w l))) ∧
  (WellFormed (.prmt w) = true → Computes (.prmt w) w false fun s x l r =>
    r < 2 ^ 32 ∧ ∀ i, i < 4 →
      let c := tC s x w l / 256 ^ i % 256
      let v := if c % 8 < 4 then tA s x w l / 256 ^ (c % 8) % 256 else tB s x w l / 256 ^ (c % 8 - 4) % 256
      r / 256 ^ i % 256 = if c / 8 % 4 = 0 then v else if c / 8 % 4 = 1 then 0
        else if c / 8 % 4 = 2 then 255 else if 128 ≤ v then 255 else 0))

/-- R105, R113, R169, R184, R185: compare, select, move and literal move; predicate logic, ELECT, and j masks, each active lane's bit
written and the others kept. -/
def Obligations.SelectAndPredicateResults : Prop :=
  (∀ w : Enc,
  (WellFormed (.icmp w) = true → ∀ s x, Issues (.icmp w) w s x → GivesP (exec (.icmp w) s) w s x fun l =>
    let a := elemOf (Ty.elem w.ty) (tA s x w l) 0
    let b := elemOf (Ty.elem w.ty) (tB s x w l) 0
    if w.sub = 0 then decide (a = b) else if w.sub = 1 then decide (a ≠ b) else if w.sub = 2 then decide (a < b)
    else if w.sub = 3 then decide (a ≤ b) else if w.sub = 4 then decide (a > b) else decide (a ≥ b)) ∧
  (WellFormed (.isel w) = true → Computes (.isel w) w (Ty.wide w.ty) fun s x l r =>
    r = if predValue x (if w.lit.isSome then w.e else w.c) l then tA s x w l else tB s x w l) ∧
  (WellFormed (.mov w) = true → Computes (.mov w) w (Ty.wide w.ty) fun s x l r =>
    if Ty.isFp w.ty then r < 2 ^ (fpCount w.ty * (Ty.fmt w.ty).bits) ∧
      ∀ i, i < fpCount w.ty → fpElem w.ty r i = clampF (Ty.fmt w.ty) (dMod w) (fpElem w.ty (tA s x w l) i)
    else w.ty ≠ .b1 → Elementwise w.ty (dMod w) (fun a _ => a) (tA s x w l) 0 r) ∧
  (WellFormed (.movl w) = true → Computes (.movl w) w (Ty.wide w.ty) fun _ x _ r =>
    ∀ v, w.lit = some v → r = if w.ty = .n64 then (x.k.codeVa + v.toNat) % 2 ^ 64 else v.toNat)) ∧
  (∀ (w : Enc) (s : State) (x : Site),
  (WellFormed (.plop w) = true → Issues (.plop w) w s x → GivesPJ (exec (.plop w) s) w s x fun l =>
    let a := predValue x w.a l
    let b := predValue x w.b l
    if w.sub = 0 then a && b else if w.sub = 1 then a || b else if w.sub = 2 then a ^^ b else a && !b) ∧
  (WellFormed (.pmovSet w) = true → Issues (.pmovSet w) w s x → GivesPJ (exec (.pmovSet w) s) w s x fun l =>
    (rawValue s x .n64 (x.width == 64) w.a 0).testBit l ^^ w.a.mod == 1) ∧
  (WellFormed (.elect w) = true → Issues (.elect w) w s x → GivesP (exec (.elect w) s) w s x fun l => l == lowLane x.act) ∧
  (WellFormed (.jsave w) = true → Issues (.jsave w) w s x → ∃ b, exec (.jsave w) s =
      .next (setWarp s x.ref.crew x.ref.warp (settlePaths b)) ∧ KeepsWarp x.wp b ∧ GoesOn w x b ∧
    b.regs.pmask w.d.idx.toNat = x.act ∧ (∀ r, r ≠ w.d.idx.toNat → b.regs.pmask r = x.wp.regs.pmask r) ∧
    MainKept x.wp.regs b.regs ∧ ScalarKept x.wp.regs b.regs ∧ FlagsKept x.wp.regs b.regs))

/-- R179, R180, R183, R185: votes, SHFL, MATCH and PMOV. -/
def Obligations.LaneExchangeResults : Prop := ∀ (w : Enc) (s : State) (x : Site),
  let p (l : Nat) : Bool := x.act.getLsbD l && predValue x w.a l
  (WellFormed (.vote w) = true → Issues (.vote w) w s x → w.sub.toNat < 3 → GivesP (exec (.vote w) s) w s x fun _ =>
    let all := (List.range 64).all fun l => !x.act.getLsbD l || p l
    let none := (List.range 64).all fun l => !p l
    if w.sub = 0 then all else if w.sub = 1 then !none else all || none) ∧
  (WellFormed (.vote w) = true → Issues (.vote w) w s x → w.sub = 3 → ∃ m : Mask,
    GivesD (exec (.vote w) s) w s x (x.width == 64) (fun _ => m.toNat) ∧ ∀ l, l < x.width → m.getLsbD l = p l) ∧
  (WellFormed (.vote w) = true → Issues (.vote w) w s x → w.sub = 4 →
    GivesD (exec (.vote w) s) w s x false fun _ => ((List.range x.width).filter p).length) ∧
  (WellFormed (.pmov w) = true → Issues (.pmov w) w s x → ∃ m : Mask,
    GivesD (exec (.pmov w) s) w s x (x.width == 64) (fun _ => m.toNat) ∧
    ∀ l, l < 64 → m.getLsbD l = (decide (l < x.width) && predValue x w.a l)) ∧
  (WellFormed (.laneMatch w) = true → Issues (.laneMatch w) w s x → w.sub = 0 → ∃ m : Nat → Mask,
    GivesD (exec (.laneMatch w) s) w s x (x.width == 64) (fun l => (m l).toNat) ∧
    ∀ l k, k < 64 → (m l).getLsbD k = (x.act.getLsbD k && (srcValue s x w.ty w.a k == srcValue s x w.ty w.a l))) ∧
  (WellFormed (.laneMatch w) = true → Issues (.laneMatch w) w s x → w.sub = 1 → ∃ same : Bool,
    GivesDP (exec (.laneMatch w) s) w s x (x.width == 64) (fun _ => if same then x.act.toNat else 0) (fun _ => same) ∧
    (same = true ↔ ∀ l k, l < 64 → k < 64 → x.act.getLsbD l = true → x.act.getLsbD k = true →
      srcValue s x w.ty w.a l = srcValue s x w.ty w.a k)) ∧
  (WellFormed (.shfl w) = true → Issues (.shfl w) w s x →
    let src (l : Nat) : Nat :=
      let k : Int := if w.sub = 0 then nB s x w l else if w.sub = 1 then l - nB s x w l else if w.sub = 2 then l + nB s x w l
        else ((l ^^^ nB s x w l : Nat) : Int)
      if 0 ≤ k ∧ k < x.width then k.toNat else l
    GivesD (exec (.shfl w) s) w s x (Ty.wide w.ty) fun l => srcValue s x w.ty w.a (src l))

/-- R181, R182, R186: reductions, prefixes and block quantisation, lanes in ascending order. The prefix that a scalar destination
of WSCAN takes is not stated (log entry 24). -/
def Obligations.WarpReductionResults : Prop := ∀ (w : Enc) (s : State) (x : Site),
  (WellFormed (.wred w) = true → Issues (.wred w) w s x →
    let r := reduceV x.prof w.ty w.sub.toNat (dMod w) ((lanesOf x.act).map fun l => reduceSource s x w l)
    GivesF (exec (.wred w) s) w s x (Ty.wide w.ty) (fun _ => r) ∧
    (x.act ≠ 0 → w.sub = 0 → Ty.isFp w.ty = false → w.ty ≠ .b1 → ElemHolds (Ty.elem w.ty) (dMod w) r.1 0
      ((lanesOf x.act).map fun l => elemOf (Ty.elem w.ty) (reduceSource s x w l) 0).sum)) ∧
  (WellFormed (.wscan w) = true → Issues (.wscan w) w s x → ∃ val : Nat → Nat × FFlags,
    GivesF (exec (.wscan w) s) w s x (Ty.wide w.ty) val ∧ ∀ l, l < 64 →
      let r := reduceV x.prof w.ty (w.sub.toNat % 8) (dMod w)
        (((lanesOf x.act).filter fun k => if w.sub.toNat < 8 then decide (k ≤ l) else decide (k < l)).map fun k =>
          srcValue s x w.ty w.a k)
      (val l).2 = r.2 ∧ (w.d.file ≠ .scalar → (val l).1 = r.1)) ∧
  (WellFormed (.bxq w) = true → Issues (.bxq w) w s x →
    let k := (if w.sub = 1 then 128 else 64) / x.width
    let q := quantise (w.sub == 1) (((List.range x.width).map fun l => (List.range k).map fun j =>
      if x.act.getLsbD l then bxqElem x w l j else .fin false 0 0).flatten)
    GivesDE (exec (.bxq w) s) w s x false (fun l => (List.range k).foldl (fun v j =>
      v + q.1.getD (l * k + j) 0 % 2 ^ (if w.sub = 1 then 4 else 8) * 2 ^ ((if w.sub = 1 then 4 else 8) * j)) 0) fun _ => q.2)

/-! ### Control flow -/

/-- R160, R164, R165, R177: NOP, and branches by a literal offset, by a code offset and by agreement of all lanes. -/
def Obligations.BranchResults : Prop := ∀ (w : Enc) (s : State) (x : Site),
  (Issues (.nop w) w s x → GoesOnTo (exec (.nop w) s) w x s) ∧
  (Issues (.bra w) w s x → Branched (exec (.bra w) s) s x x.wp fun _ => x.pa.pc + (w.lit.getD 0).signExtend 64) ∧
  (Issues (.brau w) w s x →
    let g (l : Nat) : Bool := (guardMask x.width x.wp w.guard).getLsbD l
    let lo := lowLane x.act
    let differs (l : Nat) : Prop := g l ≠ g lo ∨ (w.lit = none ∧ nB s x w l ≠ nB s x w lo)
    ((∃ l, l < 64 ∧ x.act.getLsbD l = true ∧ differs l) → ∃ m : Mask,
      exec (.brau w) s = .next (takeTrap s x { code := 0x04, mask := m }) ∧
      ∀ l, m.getLsbD l = true ↔ x.act.getLsbD l = true ∧ differs l) ∧
    ((∀ l, x.act.getLsbD l = true → ¬differs l) → g lo = false → Stepped (exec (.brau w) s) s x (x.pa.pc + 16)) ∧
    ((∀ l, x.act.getLsbD l = true → ¬differs l) → g lo = true → ∀ v, w.lit = some v →
      Stepped (exec (.brau w) s) s x (x.pa.pc + v.signExtend 64)) ∧
    ((∀ l, x.act.getLsbD l = true → ¬differs l) → g lo = true → w.lit = none → nB s x w lo % 16 = 0 →
      Stepped (exec (.brau w) s) s x (BitVec.ofNat 64 (x.k.codeVa + nB s x w lo)))) ∧
  (Issues (.brx w) w s x → x.act ≠ 0 →
    ((∃ l, l < 64 ∧ x.act.getLsbD l = true ∧ nB s x w l ≤ srcValue s x .n32 w.a l) → ∃ (m : Mask) (b : Nat),
      exec (.brx w) s = .next (takeTrap s x { code := 0x06, tx := BitVec.ofNat 32 b, mask := m }) ∧ b = nB s x w (lowLane m) ∧
      ∀ l, m.getLsbD l = true ↔ x.act.getLsbD l = true ∧ nB s x w l ≤ srcValue s x .n32 w.a l) ∧
    ∀ (t : State) (f : Nat → Nat), (∀ l, x.act.getLsbD l = true → srcValue s x .n32 w.a l < nB s x w l) →
      syncLoad s x 4 ((lanesOf x.act).map fun l =>
        (l, (srcValue s x .n64 (if w.lit.isSome then w.e else w.c) 0 + 4 * srcValue s x .n32 w.a l) % 2 ^ 64)) =
        .ok t ((lanesOf x.act).map fun l => (l, f l)) →
      (∀ l, x.act.getLsbD l = true → f l % 16 = 0) →
      Branched (exec (.brx w) s) t x x.touched.wp fun l => BitVec.ofNat 64 (x.k.codeVa + f l))

/-- R160, R164, R167, R168: CALL and CALLI push the offset of the next word on the lanes that leave, RET pops it and goes there; a push on a
full stack sends its oldest entry to the lane's next row of the call-stack range, through the store queue, and traps with no row left;
a push alone writes %spill. -/
def Obligations.CallResults : Prop :=
  (∀ (w : Enc) (s : State) (x : Site),
  let chip (l : Nat) : List W32 := (kvD x.wp.stackTab l {}).chip
  let leaves (tgt : Nat → W64) (l : Nat) : Prop := x.act.getLsbD l = true ∧
    (x.transfer w ((lanesOf x.act).map fun l => (l, tgt l))).2.getLsbD l = false
  let called (o : Host.Outcome State Fault Refusal) (tgt : Nat → W64) : Prop :=
    (∀ l, leaves tgt l → (chip l).length < 4) → ∃ (st : KV LaneStack) (sp : Nat),
      Branched o s x { x.wp with stackTab := st, spill := sp } tgt ∧
      ((∃ l, leaves tgt l) → sp = spillOffset x.width { x.wp with stackTab := st }) ∧ ((∀ l, ¬leaves tgt l) → sp = x.wp.spill) ∧
      ∀ l, l < 64 → (leaves tgt l → (kvD st l {}).chip = x.returnOffset :: chip l ∧ (kvD st l {}).spilled = (kvD x.wp.stackTab l {}).spilled) ∧
        (¬leaves tgt l → kvD st l {} = kvD x.wp.stackTab l {})
  (Issues (.call w) w s x → (x.act ≠ 0 → called (exec (.call w) s) fun _ => x.pa.pc + (w.lit.getD 0).signExtend 64) ∧
    (x.act = 0 → Stepped (exec (.call w) s) s x (x.pa.pc + 16))) ∧
  (Issues (.calli w) w s x →
    ((∃ l, l < 64 ∧ x.act.getLsbD l = true ∧ srcValue s x .n32 w.a l % 16 ≠ 0) → ∃ (m : Mask) (va : Nat),
      exec (.calli w) s = .next (takeTrap s x { code := 0x08, tx := 16, mask := m, va := va }) ∧
      (∀ l, m.getLsbD l = true ↔ x.act.getLsbD l = true ∧ srcValue s x .n32 w.a l % 16 ≠ 0) ∧
      va = (x.k.codeVa + srcValue s x .n32 w.a (lowLane m)) % 2 ^ 56) ∧
    (x.act ≠ 0 → (∀ l, x.act.getLsbD l = true → srcValue s x .n32 w.a l % 16 = 0) →
      called (exec (.calli w) s) fun l => BitVec.ofNat 64 (x.k.codeVa + srcValue s x .n32 w.a l))) ∧
  (Issues (.ret w) w s x →
    ((∃ l, l < 64 ∧ x.act.getLsbD l = true ∧ chip l = [] ∧ (kvD x.wp.stackTab l {}).spilled = 0) → ∃ m : Mask,
      exec (.ret w) s = .next (takeTrap s x { code := 0x05, mask := m }) ∧
      ∀ l, m.getLsbD l = true ↔ x.act.getLsbD l = true ∧ chip l = [] ∧ (kvD x.wp.stackTab l {}).spilled = 0) ∧
    (x.act ≠ 0 → (∀ l, x.act.getLsbD l = true → ∃ v r, chip l = v :: r ∧ v.toNat % 16 = 0) →
      let tgt (l : Nat) : W64 := BitVec.ofNat 64 (x.k.codeVa + ((chip l).headD 0).toNat)
      ∃ st : KV LaneStack, Branched (exec (.ret w) s) s x { x.touched.wp with stackTab := st } tgt ∧
        ∀ l, l < 64 → (leaves tgt l → (kvD st l {}).chip = (chip l).tail) ∧ (¬leaves tgt l → kvD st l {} = kvD x.wp.stackTab l {})))) ∧
  (∀ (s : State) (x : Site) (m : Mask) (v : W32),
  let st (l : Nat) : LaneStack := kvD x.wp.stackTab l {}
  let full := (lanesOf m).filter fun l => decide (4 ≤ (st l).chip.length)
  let rows := (getLaunch s x.cr.launch).csrows
  ((∃ l ∈ full, rows ≤ (st l).spilled) → ∃ (k : Mask) (va : Nat), x.pushReturn s m v = .trap { code := 0x09, tx := 2, mask := k, va := va } ∧
    ∀ l, k.getLsbD l = true ↔ l ∈ full ∧ rows ≤ (st l).spilled) ∧
  (∀ (t : State) (locs : List (Nat × Nat × Loc)), full ≠ [] → (∀ l ∈ full, (st l).spilled < rows) → queueRoom x = true →
    checkLanes s x (.global permWrite 2) 4 (full.map fun l =>
      (l, stackVa (getLaunch s x.cr.launch) x.cr.num x.ref.warp l (st l).spilled)) = .ok t locs →
    ∃ y e, x.pushReturn s m v = .ok y t ∧ y.wp.storeQ = x.wp.storeQ ++ [e] ∧ e.kind = .spill ∧ e.width = 4 ∧
      y.wp.spill = spillOffset x.width y.wp ∧
      e.lanes = (locs.zip (full.map fun l => ((st l).chip.getD 3 0).toNat)).map (fun p => laneAccess p.1 p.2 0) ∧
      ∀ l, l < 64 → m.getLsbD l = true →
        (kvD y.wp.stackTab l {}).chip = v :: (st l).chip.take 3 ∧
        (kvD y.wp.stackTab l {}).spilled = (st l).spilled + if 4 ≤ (st l).chip.length then 1 else 0))

/-- R160, R170, R171, R175-R177, R349, R446: the active lanes of the j mask park at JOIN or JWAIT and the others go on in a free entry;
YIELD gives up the warp's turn and takes a pending switch, NPREG opens and closes the crew's region, and the forms of TRAP take the BREAK
trap or wait for the return. -/
def Obligations.RejoinAndYieldResults : Prop :=
  (∀ (w : Enc) (s : State) (x : Site),
  let j := w.a.idx.toNat - 16
  let here := x.act &&& x.wp.regs.pmask (16 + j)
  let rest := ownLanes x &&& ~~~here
  let parks (o : Host.Outcome State Fault Refusal) (st : PathState) : Prop :=
    (here = 0 → Stepped o s x (x.pa.pc + 16)) ∧
    (here ≠ 0 → ∃ b, o = .next (setWarp s x.ref.crew x.ref.warp (settlePaths b)) ∧ RunEnded x x.wp b ∧
      (rest = 0 → kvGet b.paths x.rn.path = some { pc := x.pa.pc, mask := here, st := st }) ∧
      (∀ f fs, rest ≠ 0 → freeEntries x.wp.paths = f :: fs →
        kvGet b.paths x.rn.path = some { pc := x.pa.pc, mask := here, st := st } ∧
        kvGet b.paths f = some { pc := x.pa.pc + 16, mask := rest }) ∧
      (rest ≠ 0 → freeEntries x.wp.paths = [] →
        kvGet b.paths x.rn.path = some { pc := x.pa.pc, mask := ownLanes x, st := .noEntry }))
  (Issues (.join w) w s x → parks (exec (.join w) s) (.parkedJoin j)) ∧
  (Issues (.jwait w) w s x → parks (exec (.jwait w) s) (.parkedWait j))) ∧
  (∀ (w : Enc) (s : State) (x : Site),
  (Issues (.yield w) w s x → ∃ b t, exec (.yield w) s = .next t ∧ RunEnded x x.wp b ∧ b.hintYh = true ∧
    (∃ p, kvGet b.paths x.rn.path = some p ∧ p.pc = x.pa.pc + 16 ∧ p.mask = x.pa.mask ∧ p.st = .ready) ∧
    (x.act = 0 → t = setWarp s x.ref.crew x.ref.warp (settlePaths b)) ∧
    (x.act ≠ 0 → t = modCrew (setWarp s x.ref.crew x.ref.warp (settlePaths b)) x.ref.crew fun c => match c.ydl with
      | none => c
      | some d => { c with saveWhy := some (c.saveWhy.getD .slice), ydlExpired := c.ydlExpired && decide (d < s.now) })) ∧
  (Issues (.npregEnter w) w s x →
    (x.act = 0 ∨ uB s x w = 0 ∨ (∃ t, x.cr.npreg = some t ∧ s.now < t) → GoesOnTo (exec (.npregEnter w) s) w x s) ∧
    (x.act ≠ 0 → uB s x w ≠ 0 → (∀ t, x.cr.npreg = some t → t ≤ s.now) → GoesOnTo (exec (.npregEnter w) s) w x
      (modCrew s x.ref.crew fun c => { c with npreg := some (s.now + min (uB s x w) 65536) }))) ∧
  (Issues (.npregLeave w) w s x → GoesOnTo (exec (.npregLeave w) s) w x
    (if x.act = 0 then s else modCrew s x.ref.crew fun c => { c with npreg := none })) ∧
  (Issues (.trapBrk w) w s x → (x.act = 0 → Stepped (exec (.trapBrk w) s) s x (x.pa.pc + 16)) ∧
    (x.act ≠ 0 → exec (.trapBrk w) s = .next (takeTrap s x { code := 0x13, mask := x.act }))) ∧
  (Issues (.trapCall w) w s x → (x.act = 0 → Stepped (exec (.trapCall w) s) s x (x.pa.pc + 16)) ∧
    (x.act ≠ 0 → exec (.trapCall w) s = .next (takeTrap s x { code := 0x13, tx := BitVec.ofNat 32 (uB s x w), mask := x.act } true))) ∧
  (Issues (.trapTret w) w s x → x.act ≠ 0 →
    (x.wp.handler = none → exec (.trapTret w) s = .next (takeTrap s x { code := 0x13, tx := 0xFFFFFFFF, mask := x.act })) ∧
    (x.wp.handler ≠ none → ∃ b, exec (.trapTret w) s = .next (setWarp s x.ref.crew x.ref.warp (settlePaths b)) ∧ RunEnded x x.wp b ∧
      ∃ p, kvGet b.paths x.rn.path = some p ∧ p.pc = x.pa.pc ∧ p.mask = x.pa.mask ∧ p.st = .atTret)))

/-- R146, R148, R172-R174: EXIT and REFORM leave their lanes vacant, REFORM after filing each in a bin of its launch, PC and block that has
room; the barriers are then tested. Threads that no bin accepts wait, and keep their lanes. A bin is full with the last thread of a
warp, and became drawable then or, earlier, at its age. -/
def Obligations.LeavingResults : Prop :=
  (∀ (w : Enc) (s : State) (x : Site),
  let gone := abandonRays s x.cr.ctx x.wp x.act
  (Issues (.exit w) w s x →
    (x.act = 0 → Stepped (exec (.exit w) s) s x (x.pa.pc + 16)) ∧
    (x.act ≠ 0 → lanesInFlight gone.2 x.act = false → (getLaunch gone.1 x.cr.launch).vers = false → ∃ b,
      exec (.exit w) s = .next (testSync (setWarp gone.1 x.ref.crew x.ref.warp (settlePaths b)) x.ref.crew) ∧
      Vacated x.wp b x.act ∧ b.regs = x.wp.regs ∧ b.run = none)) ∧
  (Issues (.reform w) w s x →
    (x.act = 0 → Stepped (exec (.reform w) s) s x (x.pa.pc + 16)) ∧
    (x.act ≠ 0 → lanesInFlight gone.2 x.act = false → (getLaunch gone.1 x.cr.launch).vers = false →
      (∀ l, x.act.getLsbD l = true → srcValue gone.1 { x with wp := gone.2 } .n32 w.a l % 16 = 0) →
      (∀ l, x.act.getLsbD l = true → (kvD x.wp.stackTab l {}).spilled = 0) →
      let vb := w.b.idx.toNat
      let n := (Operand.bits w.e).toNat
      let filed := fileThreads gone.1.now x.width x.cr.launch x.k.binAge ((lanesOf x.act).map fun l =>
        (l, BitVec.ofNat 64 (x.k.codeVa + srcValue gone.1 { x with wp := gone.2 } .n32 w.a l), vb, n, threadOf gone.2 l vb n []))
        (getCore gone.1 x.ref.core).bins
      ∃ b, exec (.reform w) s = .next (testSync (setWarp (setCore gone.1 x.ref.core { getCore gone.1 x.ref.core with bins := filed.1 })
          x.ref.crew x.ref.warp (settlePaths b)) x.ref.crew) ∧
        Vacated x.wp b (x.act &&& ~~~filingLanes filed.2) ∧ b.filing = filed.2 ∧ b.regs = x.wp.regs ∧ b.run = none ∧
        ∀ p, kvGet b.paths x.rn.path = some p → p.pc = x.pa.pc + 16))) ∧
  (∀ (now width launch age l : Nat) (pc : W64) (vb n : Nat) (th : BinThread) (bins : KV Bin),
  let accepts (b : Bin) : Prop := b.launch = launch ∧ b.pc = pc ∧ b.vb = vb ∧ b.n = n ∧ b.threads.length < width
  let r := fileThreads now width launch age [(l, pc, vb, n, th)] bins
  (r.2 = [(l, pc, vb, n, th)] ∧ r.1 = bins ∧ (∀ e ∈ bins, ¬accepts e.2) ∧ (∀ k, k < 64 → (kvGet bins k).isSome = true)) ∨
  (r.2 = [] ∧ ∃ k b, kvGet r.1 k = some b ∧ b.launch = launch ∧ b.pc = pc ∧ b.vb = vb ∧ b.n = n ∧
    b.threads.getLast? = some th ∧ (∀ m, m ≠ k → kvGet r.1 m = kvGet bins m) ∧
    ((∃ e ∈ bins, e.1 = k ∧ accepts e.2 ∧ b.threads = e.2.threads ++ [th] ∧
        b.firstAt = (if e.2.threads = [] then now else e.2.firstAt) ∧
        b.drawableAt = if b.threads.length = width then some (e.2.drawableAt.getD (min now (b.firstAt + age))) else e.2.drawableAt) ∨
     (k < 64 ∧ kvGet bins k = none ∧ b.threads = [th] ∧ b.firstAt = now ∧ b.drawableAt = if width = 1 then some now else none))))

/-- R137, R151, R173, R364: REFILL from a dense range gives the vacant lanes, in ascending order, the next items, loads their registers
by the refill map and adds them to the path, which goes on with them. -/
def Obligations.RefillResults : Prop := ∀ (w : Enc) (s : State) (x : Site), Issues (.refill w) w s x →
  let l := getLaunch s x.cr.launch
  (x.act = 0 → Stepped (exec (.refill w) s) s x (x.pa.pc + 16)) ∧
  (x.act ≠ 0 → (∃ e ∈ x.k.rmap, x.wp.n ≤ e.2) → exec (.refill w) s =
    .next (takeTrap s x { code := 0x01, tx := BitVec.ofNat 32 (5 + 2 ^ 16 * x.wp.n), mask := x.act })) ∧
  (x.act ≠ 0 → (∀ e ∈ x.k.rmap, e.2 < x.wp.n) → l.itemQueue = none →
    let vacant := lanesOf (~~~x.wp.live &&& maskBelow x.width)
    let n := min vacant.length (l.items - l.nextItem)
    ∃ t b, exec (.refill w) s = .next (setWarp t x.ref.crew x.ref.warp (settlePaths b)) ∧ b.run = none ∧
      b.refillPc = some x.pa.pc ∧ (getLaunch t x.cr.launch).nextItem = l.nextItem + n ∧
      (∀ k, k < 64 → (b.live.getLsbD k = true ↔ x.wp.live.getLsbD k = true ∨ k ∈ vacant.take n)) ∧
      (∃ p, kvGet b.paths x.rn.path = some p ∧ p.pc = x.pa.pc + 16 ∧
        ∀ k, k < 64 → (p.mask.getLsbD k = true ↔ x.pa.mask.getLsbD k = true ∨ k ∈ vacant.take n)) ∧
      ∀ i k, vacant[i]? = some k → i < n →
        kvGet b.items k = some { idx := l.nextItem + i, seq := BitVec.ofNat 32 (l.nextItem + i) } ∧
        (x.wp.stackTab.Pairwise (fun a b => a.1 < b.1) → kvGet b.stackTab k = none) ∧
        b.regs.fnv.getLsbD k = false ∧ b.regs.fnx.getLsbD k = false ∧
        ∀ src reg, (src, reg) ∈ x.k.rmap → (x.k.rmap.map (·.2)).Nodup → b.regs.main reg k =
          if src = 0 ∨ src = 3 then lowWord (l.nextItem + i) else if src = 1 ∨ src = 4 then BitVec.ofNat 32 ((l.nextItem + i) / 2 ^ 32 % 256)
          else if src = 2 then BitVec.ofNat 32 (l.nextItem + i) else 0)

/-! ### Memory -/

/-- R199, R200, R203, R204, R206, R209: a lane's address is the base plus the index or the literal, of 64 bits for global accesses and 32 for scratch and code;
lanes that all pass access their locations, and a misaligned lane traps first, over the
lanes that are misaligned. LD, LDS and LDK go in flight with their locations and leave their destination empty. -/
def Obligations.LoadsGoInFlight : Prop :=
  (∀ (s : State) (x : Site) (w : Enc) (l : Nat),
  (w.lit = none → addrVA s x w l = (rawValue s x .n64 true w.a l + rawValue s x .n32 false w.b l) % 2 ^ 64) ∧
  (∀ v, w.lit = some v → (addrVA s x w l : ZMod (2 ^ 64)) = rawValue s x .n64 true w.a l + (v.toInt : ZMod (2 ^ 64)) ∧
    addrVA s x w l < 2 ^ 64) ∧
  addr32 s x w l = (rawValue s x .n32 false w.a l + match w.lit with
    | some v => v.toNat
    | none => rawValue s x .n32 false w.b l) % 2 ^ 32) ∧
  (∀ (s : State) (x : Site) (sp : Space) (n : Nat) (as : List (Nat × Nat)) (f : Nat × Nat → Loc),
  ((∀ e ∈ as, checkLane s x sp n e.2 = .ok (f e)) → ∃ t, checkLanes s x sp n as = .ok t (as.map fun e => (e.1, e.2, f e)) ∧
    t.mem = s.mem ∧ t.tags = s.tags ∧ t.crews = s.crews ∧ t.ctxs = s.ctxs ∧ t.launches = s.launches) ∧
  ((∃ e ∈ as, e.1 < 64 ∧ e.2 % n ≠ 0) → (∀ e ∈ as, e.1 < 64) → ∃ q, checkLanes s x sp n as = .trap q ∧ q.code = 0x08 ∧
    q.tx = BitVec.ofNat 32 n ∧ ∀ l, q.mask.getLsbD l = true ↔ ∃ e ∈ as, e.1 = l ∧ e.2 % n ≠ 0) ∧
  (∀ a pa p, a % n = 0 → sp = .fetch → translate s (some x.ref.core) x.cr.ctx permExec a = .ok pa p →
    checkLane s x sp n a = .ok (.mem pa)) ∧
  (∀ perm kind a pa p, a % n = 0 → sp = .global perm kind → (getCtx s x.cr.ctx).attached = false →
    (kind = 3 → (getLaunch s x.cr.launch).vers = false) →
    translate s (some x.ref.core) x.cr.ctx perm a = .ok pa p → checkLane s x sp n a = .ok (.mem pa))) ∧
  (∀ (s : State) (x : Site) (sp : Space) (n : Nat) (locs : List (Nat × Nat × Loc)),
  x.wp.storeQ = [] → (getLaunch s x.cr.launch).vers = false → loadLanes s x sp n locs = locs.map fun a => laneAccess a 0 0) ∧
  (∀ (w : Enc) (s : State) (x : Site),
  let goes (o : Host.Outcome State Fault Refusal) (sp : Space) (sc : Nat) (acq : Bool) (addr : Nat → Nat) : Prop :=
    let as := laneAddrs x addr
    (x.act = 0 → GoesOnTo o w x s) ∧
    (x.act ≠ 0 → ∀ q, checkLanes s x sp (accessWidth w.ty) as = .trap q → o = .next (takeTrap s x.touched q)) ∧
    (x.act ≠ 0 → ∀ t locs, checkLanes s x sp (accessWidth w.ty) as = .ok t locs →
      let las := loadLanes t x sp (accessWidth w.ty) locs
      (sp ≠ .code → poisonWaits t x sc (accessWidth w.ty) las = false ∧ poisonTrap t x sp sc (accessWidth w.ty) las = none) →
      LoadIssued o w x t (if Dest.isScalar (destOf w.d (Ty.wide w.ty)) then las.take 1 else las) sc acq (sp == .code))
  (Issues (.ld w) w s x → goes (exec (.ld w) s) (.global permRead 1) (w.sub.toNat % 8) (w.sub.getLsbD 3) (addrVA s x w)) ∧
  (Issues (.lds w) w s x → goes (exec (.lds w) s) .scratch (w.sub.toNat % 8) (w.sub.getLsbD 3) (addr32 s x w)) ∧
  (Issues (.ldk w) w s x → goes (exec (.ldk w) s) .code 0 false (addr32 s x w)))

/-- R199, R204, R207, R215, R216: stores, zero declarations, CFLUSH and CINV wait in the store queue, and wait for room in it. -/
def Obligations.StoresWaitInQueue : Prop := ∀ (w : Enc) (s : State) (x : Site),
  let goes (i : Instr) (sp : Space) (n : Nat) (kind : StoreKind) (addr val : Nat → Nat) (vers : Bool) : Prop :=
    Issues i w s x →
    let as := laneAddrs x addr
    let taken (locs : List (Nat × Nat × Loc)) := if onceForm i w then locs.take 1 else locs
    (x.act = 0 → GoesOnTo (exec i s) w x s) ∧
    (x.act ≠ 0 → 16 ≤ x.wp.storeQ.length → exec i s = .next (setWarp s x.ref.crew x.ref.warp (x.hold s.now))) ∧
    (x.act ≠ 0 → x.wp.storeQ.length < 16 → ∀ q, checkLanes s x sp n as = .trap q → exec i s = .next (takeTrap s x.touched q)) ∧
    (x.act ≠ 0 → x.wp.storeQ.length < 16 → ∀ t locs, checkLanes s x sp n as = .ok t locs →
      (vers = true → versionTrap t x ((taken locs).map fun a => laneAccess a (val a.1) 0) = none) →
      StoreQueued (exec i s) w x t (taken locs) kind n .none val fun _ => 0)
  goes (.st w) (.global permWrite 2) (accessWidth w.ty) (.store (w.sub.toNat % 8) (w.sub.getLsbD 3)) (addrVA s x w) (storeValue s x w) true ∧
  goes (.sts w) .scratch (accessWidth w.ty) (.store (w.sub.toNat % 8) (w.sub.getLsbD 3)) (addr32 s x w) (storeValue s x w) true ∧
  goes (.pfetchZero w) (.global permWrite 2) 64 .zero (addrVA s x w) (fun _ => 0) true ∧
  goes (.cflush w) (.global permRead 1) 1 (.flush false (w.sub == 1)) (addrVA s x w) (fun _ => 0) false ∧
  goes (.cinv w) (.global permRead 1) 1 (.flush true (w.sub == 1)) (addrVA s x w) (fun _ => 0) false

/-- R83, R203, R204, R210-R213: ATOM, ATOMS and RED go into the store queue with operand and new value, or wait for room in it; ATOM and
RED lack their permission in a versioned launch; the new value of each atomic operation, over integers of the type's width. -/
def Obligations.AtomicsWaitInQueue : Prop :=
  (∀ (w : Enc) (s : State) (x : Site),
  let n := accessWidth w.ty
  let val (l : Nat) : Nat := srcC s x w.ty w l
  let new (l : Nat) : Nat := if w.sub = 7 then srcValue s x w.ty w.e l else 0
  let dst := destOf w.d (Ty.wide w.ty)
  let goes (o : Host.Outcome State Fault Refusal) (d : Dest) (isRed once : Bool) : Prop :=
    let checked := checkLanes s x (.global permAtomic 3) n (laneAddrs x (addrVA s x w))
    let taken (locs : List (Nat × Nat × Loc)) := if once then locs.take 1 else locs
    (x.act = 0 → GoesOnTo o w x s) ∧
    (x.act ≠ 0 → ∀ q, checked = .trap q → Traps o s x.touched q) ∧
    (x.act ≠ 0 → ∀ t locs, checked = .ok t locs →
      poisonedLanes t x 3 n ((taken locs).map fun a => laneAccess a (val a.1) (new a.1)) = [] →
      (16 ≤ x.wp.storeQ.length → Waits o t x) ∧
      (x.wp.storeQ.length < 16 → StoreQueued o w x t (taken locs) (.atomic w.sub.toNat w.ty isRed) n d val new))
  (∀ perm a, a % n = 0 → (getLaunch s x.cr.launch).vers = true →
    (∀ tx, translate s (some x.ref.core) x.cr.ctx perm a ≠ .miss tx) →
    checkLane s x (.global perm 3) n a = .fault { order := 3, code := 0x0A, tx := 4 }) ∧
  (Issues (.atom w) w s x → goes (exec (.atom w) s) dst false (Dest.isScalar dst)) ∧
  (Issues (.red w) w s x → goes (exec (.red w) s) .none true (onceForm (.red w) w)) ∧
  (Issues (.atoms w) w s x →
    (x.act = 0 → GoesOnTo (exec (.atoms w) s) w x s) ∧
    (x.act ≠ 0 → 16 ≤ x.wp.storeQ.length → Waits (exec (.atoms w) s) s x) ∧
    (x.act ≠ 0 → x.wp.storeQ.length < 16 → ∀ q, checkLanes s x .scratch n (laneAddrs x (addr32 s x w)) = .trap q →
      Traps (exec (.atoms w) s) s x q) ∧
    (x.act ≠ 0 → x.wp.storeQ.length < 16 → ∀ t locs, checkLanes s x .scratch n (laneAddrs x (addr32 s x w)) = .ok t locs →
      let las := locs.map fun a => laneAccess a (val a.1) (new a.1)
      poisonWaits t x 3 n las = false → poisonTrap t x .scratch 3 n las = none → ∃ b,
        exec (.atoms w) s = .next (setWarp t x.ref.crew x.ref.warp b) ∧ GoesOn w x b ∧
        Emptied x.wp.regs b.regs dst x.act ∧ KeepsWarp { x.wp with storeQ := b.storeQ, nextSeq := x.wp.nextSeq + 1 } b ∧
        ∃ e, b.storeQ = x.wp.storeQ ++ [e] ∧ e.kind = .atomic w.sub.toNat w.ty false ∧
          e.width = n ∧ e.dst = dst ∧ e.lanes = if Dest.isScalar dst then las.take 1 else las))) ∧
  (∀ (p : Profile) (t : Ty) (old x y : Nat),
  t = .n32 ∨ t = .s32 ∨ t = .n64 ∨ t = .s64 → old < 2 ^ (8 * accessWidth t) → x < 2 ^ (8 * accessWidth t) →
  atomicNew p 0 t old x y = (old + x) % 2 ^ (8 * accessWidth t) ∧
  elemOf (Ty.elem t) (atomicNew p 1 t old x y) 0 = min (elemOf (Ty.elem t) old 0) (elemOf (Ty.elem t) x 0) ∧
  elemOf (Ty.elem t) (atomicNew p 2 t old x y) 0 = max (elemOf (Ty.elem t) old 0) (elemOf (Ty.elem t) x 0) ∧
  (∀ k, (atomicNew p 3 t old x y).testBit k = (old.testBit k && x.testBit k)) ∧
  (∀ k, (atomicNew p 4 t old x y).testBit k = (old.testBit k || x.testBit k)) ∧
  (∀ k, (atomicNew p 5 t old x y).testBit k = (old.testBit k ^^ x.testBit k)) ∧
  atomicNew p 6 t old x y = x ∧
  atomicNew p 7 t old x y = (if old = x then y else old) ∧
  atomicNew p 8 t old x y = (if old ≥ x then 0 else old + 1) ∧
  atomicNew p 9 t old x y = (if old = 0 ∨ old > x then x else old - 1))

/-- R191-R193, R195, R204, R206, R221: a load whose data can return fills its destination from its location and is no longer in flight, and
memory keeps every byte but those of an evicted sector that were dirty; what a load of one block through the L1 reads, from the sector or
from what this core has written and the home. -/
def Obligations.LoadReturns : Prop :=
  (∀ (s : State) (dws k : Nat) (r : IssueRef) (wp : Warp) (e : LoadEntry) (a : LaneAccess),
  let vers := (getLaunch s (kvD s.crews r.crew {}).launch).vers
  warpAt s dws = some r → getWarp s r.crew r.warp = some wp → wp.loads[k]? = some e → loadReady vers wp e = true → e.code = false →
  e.acq = false → e.lanes = [a] → a.done = false →
  serveLane vers a.lane (wp.storeQ.filter fun q => decide (q.seq < e.seq)) a.loc e.width = .memory →
  let lands (v : Nat) (t : State) : Prop := exec (.loadDataReturn dws k) s = .next t ∧ getWarp t r.crew r.warp = some { wp with
    regs := wp.regs.fillDest e.dst a.lane v, loads := wp.loads.filter (fun f => f.seq != e.seq), lat := latOf e.waited }
  (∀ c o, a.loc = .scratch c o → scratchPoison (kvD s.crews c {}) o e.width = none → (∀ d ∈ s.cmds, d.2.was = []) → ∃ t,
    lands (leNat (scratchBytes (kvD s.crews c {}) o e.width)) t ∧ t.mem = s.mem ∧ t.tags = s.tags ∧
    ∀ d, (kvD t.crews d {}).scratch = (kvD s.crews d {}).scratch) ∧
  (∀ pa, a.loc = .mem pa → vers = false → inPool s (kvD s.crews r.crew {}).ctx a.va = false →
    (l1Load s r.core e.sc pa e.width).2.2 = false →
    ∃ t, lands (leNat (l1Load s r.core e.sc pa e.width).2.1) t ∧ (Memory.wf s.mem → L1Rising s r.core → WroteBack s t r.core) ∧
      (sectorAt s r.core (pa / 64) ≠ none → t.mem = s.mem ∧ t.tags = s.tags))) ∧
  (∀ (s : State) (core sc pa n k : Nat), Memory.wf s.mem → pa % 64 + n ≤ 64 → k < n →
  (∀ y, sectorAt s core (pa / 64) = some y → (∀ j, j < n → y.valid.getLsbD (pa % 64 + j) = true) → sc < 2 →
    (l1Load s core sc pa n).2.1[k]? = y.data[pa % 64 + k]?) ∧
  ((sectorAt s core (pa / 64) = none ∨ 2 ≤ sc) → (l1Load s core sc pa n).2.1[k]? = some (mergedByte s core (pa + k))))

/-- R193, R198, R204, R207, R211, R221: a store at device scope or wider that leaves the queue puts each lane's bytes, least significant
first, at their homes; an atomic reads its home, writes the new value there as one event and gives its destination the old value; every
byte of memory that no lane stores to reads as before. -/
def Obligations.StoreLeavesQueue : Prop :=
  (∀ (s : State) (dws sc : Nat) (r : IssueRef) (wp : Warp) (e : StoreEntry) (q : List StoreEntry),
  Memory.wf s.mem → queueWarpAt s dws = some r → getWarp s r.crew r.warp = some wp → wp.retired = false → wp.storeQ = e :: q →
  (∀ f ∈ wp.loads, e.seq ≤ f.seq) → e.kind = .store sc false → 2 ≤ sc → (getLaunch s (kvD s.crews r.crew {}).launch).vers = false →
  (∀ a ∈ e.lanes, a.done = false ∧ ∃ p, a.loc = .mem p) →
  ∃ t, exec (.storeQueueLeave dws) s = .next t ∧
    (∃ b, getWarp t r.crew r.warp = some b ∧ b.storeQ = q ∧ b.regs = wp.regs ∧ b.paths = wp.paths ∧ b.loads = wp.loads) ∧
    (∀ pa, (∀ a ∈ e.lanes, ¬Covers e.width a pa) → homeByte t pa = homeByte s pa) ∧
    (∀ a ∈ e.lanes, ∀ p k, a.loc = .mem p → k < e.width → (∀ c ∈ e.lanes, Covers e.width c (p + k) → c = a) →
      homeByte t (p + k) = BitVec.ofNat 8 (a.x / 256 ^ k))) ∧
  (∀ (s : State) (dws code pa : Nat) (ty : Ty) (isRed : Bool) (r : IssueRef) (wp : Warp)
    (e : StoreEntry) (q : List StoreEntry) (a : LaneAccess),
  Memory.wf s.mem → queueWarpAt s dws = some r → getWarp s r.crew r.warp = some wp → wp.retired = false → wp.storeQ = e :: q →
  (∀ f ∈ wp.loads, e.seq ≤ f.seq) → e.kind = .atomic code ty isRed → e.lanes = [a] → a.done = false → a.loc = .mem pa → sectorAt s r.core (pa / 64) = none → isPoisonTag (homeTag s pa) = false →
  let old := homeNat s pa (accessWidth ty)
  let prof := Profile.ofByte (getLaunch s (kvD s.crews r.crew {}).launch).kernel.prof
  ∃ t b, exec (.storeQueueLeave dws) s = .next t ∧ getWarp t r.crew r.warp = some b ∧ b.storeQ = q ∧
    b.regs = wp.regs.fillDest e.dst a.lane old ∧
    (∀ k, k < accessWidth ty → homeByte t (pa + k) = BitVec.ofNat 8 (atomicNew prof code ty old a.x a.y / 256 ^ k)) ∧
    (∀ p, p < pa ∨ pa + accessWidth ty ≤ p → homeByte t p = homeByte s p))

/-- R193, R195, R214, R217, R218: a prefetch changes no byte of memory but by writing back what it evicts, a fence with nothing outstanding
takes the release and the acquire step of its scope, and CSPLIT leaves its predicate empty until it sets the number of L1 ways that the
crew's scratch holds, or is refused, in the order of issue on its core. -/
def Obligations.CacheInstructions : Prop := ∀ (w : Enc) (s : State) (x : Site),
  (Issues (.pfetch w) w s x → ∃ t, GoesOnTo (exec (.pfetch w) s) w x t ∧ t.crews = s.crews ∧ (w.sub ≠ 0 → t = s) ∧
    (Memory.wf s.mem → L1Rising s x.ref.core → WroteBack s t x.ref.core)) ∧
  (Issues (.fence w) w s x →
    (x.act = 0 → GoesOnTo (exec (.fence w) s) w x s) ∧
    (x.act ≠ 0 → x.wp.storeQ = [] → x.wp.loads = [] → (w.sub = 4 → remotePending s x = false) →
      GoesOnTo (exec (.fence w) s) w x (acquireStep (releaseStep s x.ref.core w.sub.toNat) x.ref.core w.sub.toNat)) ∧
    (x.act ≠ 0 → x.wp.storeQ ≠ [] ∨ x.wp.loads ≠ [] → exec (.fence w) s = .next (setWarp s x.ref.crew x.ref.warp (x.hold s.now)))) ∧
  (Issues (.csplit w) w s x → x.act = 0 → GoesOnTo (exec (.csplit w) s) w x s) ∧
  (Issues (.csplit w) w s x → x.act ≠ 0 → (getCore s x.ref.core).splits = [] →
    let n := uB s x w
    let c := x.cr.ways.length
    let used := (convertedWays s x.ref.core).length
    let q : SplitReq := { crew := x.ref.crew, warp := x.ref.warp, n := n, pd := w.e.idx.toNat, mask := x.act }
    let co := getCore s x.ref.core
    let answers (t : State) (ok : Bool) : Prop := ∃ b, exec (.csplit w) s = .next (setWarp t x.ref.crew x.ref.warp b) ∧
      KeepsWarp x.wp b ∧ GoesOn w x b ∧ PredWritten x b w.e fun _ => ok
    let fits : Prop := n ≤ 8 ∧ x.cr.scr + 32768 * n ≤ 1048576
    (8 < n ∨ 1048576 < x.cr.scr + 32768 * n ∨ (c < n ∧ 8 - used < n - c) → answers (setCore s x.ref.core co) false) ∧
    (fits → n ≤ c → n = c ∨ scratchBusy s x.ref.crew (x.cr.scr + 32768 * n) = false →
      answers (modCrew (setCore s x.ref.core co) x.ref.crew fun cr => { cr with
        ways := cr.ways.take n
        scratch := cellsClear cr.scratch (x.cr.scr + 32768 * n) (x.cr.scr + 32768 * c)
        scrPoison := cr.scrPoison.filter fun k => decide (k < x.cr.scr + 32768 * n) }) true) ∧
    (fits → n < c → scratchBusy s x.ref.crew (x.cr.scr + 32768 * n) = true → ∃ b,
      exec (.csplit w) s = .next (setWarp (setCore s x.ref.core { co with splits := [q] }) x.ref.crew x.ref.warp b) ∧
      KeepsWarp x.wp b ∧ GoesOn w x b ∧ b.regs = x.wp.regs.emptyPred w.e.idx.toNat) ∧
    (fits → c < n → n - c ≤ 8 - used → ∃ t, answers t true ∧ ∃ cr, kvGet t.crews x.ref.crew = some cr ∧ cr.ways.length = n ∧
      ∀ o, x.cr.scr + 32768 * c ≤ o → o < x.cr.scr + 32768 * n → cellGet cr.scratch o = 0)) ∧
  (Issues (.csplit w) w s x → x.act ≠ 0 → ∀ q qs, (getCore s x.ref.core).splits = q :: qs → ∃ b,
    KeepsWarp x.wp b ∧ GoesOn w x b ∧ b.regs = x.wp.regs.emptyPred w.e.idx.toNat ∧
    let t := setWarp (setCore s x.ref.core { getCore s x.ref.core with splits := q :: qs ++
        [{ crew := x.ref.crew, warp := x.ref.warp, n := uB s x w, pd := w.e.idx.toNat, mask := x.act }] }) x.ref.crew x.ref.warp b
    serveSplit t x.ref.core q = none → exec (.csplit w) s = .next t)

/-! ### Records and commands -/

/-- R244, R245, R247-R249: SEAL copies a well-formed record into a free slot and answers its handle, or gives the code of what is wrong; UNSEAL
ends the handle and moves the slot's generation on; HQRY reads a word of a sealed record. A handle is valid while its slot is sealed in its
generation. -/
def Obligations.RecordResults : Prop :=
  (∀ (w : Enc) (s : State) (x : Site),
  let refused (code : Nat) : Prop := ∃ b, exec (.sealRec w) s = .next (setWarp s x.ref.crew x.ref.warp b) ∧
    KeepsWarp { x.wp with sealst := BitVec.ofNat 32 code } b ∧ GoesOn w x b ∧ (PredWritten x b w.e fun _ => false) ∧
    b.regs.scal w.d.idx.toNat = 0
  (Issues (.sealRec w) w s x → w.d.file = .scalar → x.act ≠ 0 →
    (uB s x w % 128 ≠ 0 → refused 1) ∧
    ∀ off, uB s x w % 128 = 0 → ownScratch x (uB s x w) 128 = .ok off → x.wp.loads = [] → x.wp.storeQ = [] →
      scratchPoison x.cr off 128 = none →
      let bytes := scratchBytes x.cr off 128
      let free := (List.range 1024).find? fun k => slotFree s x.cr.ctx k
      (∀ code, sealFault bytes free.isSome = some code → refused code) ∧
      (∀ k, sealFault bytes free.isSome = none → free = some k →
        let r := kvD (getCtx s x.cr.ctx).recs k {}
        ∃ b, exec (.sealRec w) s = .next (setWarp (setRecord s x.cr.ctx k { r with isSealed := true, data := bytes })
            x.ref.crew x.ref.warp b) ∧ KeepsWarp x.wp b ∧ GoesOn w x b ∧ (PredWritten x b w.e fun _ => true) ∧
          b.regs.scal w.d.idx.toNat = BitVec.ofNat 32 (r.gen * 1024 + k))) ∧
  (Issues (.unsealRec w) w s x → x.act ≠ 0 →
    (handleSlot s x.cr.ctx (sA x w) = none → exec (.unsealRec w) s =
      .next (takeTrap s x { code := 0x0C, tx := 1, mask := x.act })) ∧
    (∀ k r, handleSlot s x.cr.ctx (sA x w) = some (k, r) → GoesOnTo (exec (.unsealRec w) s) w x
      (setRecord s x.cr.ctx k { r with isSealed := false, gen := if r.gen = 2 ^ 22 - 1 then 1 else r.gen + 1 }))) ∧
  (Issues (.hqry w) w s x → w.d.file = .scalar → x.act ≠ 0 → ∃ b,
    exec (.hqry w) s = .next (setWarp s x.ref.crew x.ref.warp b) ∧ KeepsWarp x.wp b ∧ GoesOn w x b ∧
    (PredWritten x b w.e fun _ => (handleSlot s x.cr.ctx (sA x w)).isSome) ∧
    (handleSlot s x.cr.ctx (sA x w) = none → b.regs.scal w.d.idx.toNat = 0) ∧
    ∀ k r, handleSlot s x.cr.ctx (sA x w) = some (k, r) →
      b.regs.scal w.d.idx.toNat = BitVec.ofNat 32 (recField r.data (4 * (uB s x w % 32)) 4))) ∧
  (∀ (s : State) (ctx k : Nat) (r : RecSlot), k < 1024 → r.gen ≠ 0 →
  kvGet (getCtx s ctx).recs k = some r →
  (handleSlot s ctx (r.gen * 1024 + k) = if r.isSealed then some (k, r) else none) ∧
  ∀ g, g ≠ r.gen → handleSlot s ctx (g * 1024 + k) = none)

/-- R230, R232, R252, R257, R259-R264: a command that enters has had the release of its issue, holds a scoreboard entry with every earlier entry it
conflicts with as predecessor, and counts in its class; it starts without predecessors, completes, arrives at its barrier, releases its
successors and retires with its status and fault. WAITC raises the oldest pending fault or waits for the count; CNTRD reads and clears. -/
def Obligations.CommandLife : Prop :=
  (∀ (x : Site) (s : State) (c : Command),
  let r := enterCommand x s c
  let u := releaseStep s x.ref.core (if c.cls = 3 ∨ c.cls = 4 then 3 else c.scope)
  (∃ d, kvGet r.2.1.cmds r.2.2 = some d ∧ d.crew = x.ref.crew ∧ d.warp = x.ref.warp ∧ d.core = x.ref.core ∧ d.cls = c.cls ∧
    d.op = c.op ∧ d.reads = c.reads ∧ d.writes = c.writes ∧ d.scope = c.scope ∧ d.arv = c.arv ∧ d.lane = lowLane x.act ∧
    ∀ n, n ∈ d.preds ↔ ∃ k ∈ x.ref.core :: c.pair.toList, ∃ p, (n, p) ∈ boardEntries u k ∧
      (regionsMeet p.writes c.reads = true ∨ regionsMeet p.reads c.writes = true ∨ regionsMeet p.writes c.writes = true)) ∧
  (∀ n, n ≠ r.2.2 → kvGet r.2.1.cmds n = kvGet u.cmds n) ∧
  r.2.1.mem = u.mem ∧ r.2.1.crews = u.crews ∧
  (engClass r.1.wp c.cls).count = (engClass x.wp c.cls).count + 1 ∧
  (∀ k, k ≠ c.cls → engClass r.1.wp k = engClass x.wp k) ∧ r.1 = { x with wp := { x.wp with eng := r.1.wp.eng } }) ∧
  (∀ (w : Enc) (s : State) (x : Site),
  let e := engClass x.wp w.sub.toNat
  (Issues (.waitc w) w s x →
    (x.act = 0 → GoesOnTo (exec (.waitc w) s) w x s) ∧
    (x.act ≠ 0 → ∀ f rest, e.faults = f :: rest → ∃ y, exec (.waitc w) s = .next (takeTrap s y
        { code := f.code, va := f.va, mask := x.act, tx := BitVec.ofNat 32 (f.tx w.sub.toNat), why := some f.reason }) ∧
      (engClass y.wp w.sub.toNat).faults = rest ∧ y = { x with wp := { x.wp with eng := y.wp.eng } }) ∧
    (x.act ≠ 0 → e.faults = [] → uB s x w < e.count →
      exec (.waitc w) s = .next (setWarp s x.ref.crew x.ref.warp (x.hold s.now))) ∧
    (x.act ≠ 0 → e.faults = [] → e.count ≤ uB s x w →
      GoesOnTo (exec (.waitc w) s) w x (if e.acq = 0 then s else acquireStep s x.ref.core e.acq))) ∧
  (Issues (.cntrd w) w s x → w.d.file = .scalar → x.act ≠ 0 → ∃ b,
    exec (.cntrd w) s = .next (setWarp s x.ref.crew x.ref.warp b) ∧ GoesOn w x b ∧ MainKept x.wp.regs b.regs ∧
    ScalarWritten x.wp.regs b.regs w.d.idx.toNat 1 (min e.count 63 + 2 ^ 8 * e.status.toNat) ∧
    KeepsWarp { x.wp with eng := kvSet x.wp.eng w.sub.toNat { e with status := e.status &&& 32 } } b)) ∧
  (∀ (s : State) (k : Nat) (c : Command), kvGet s.cmds k = some c →
  (c.phase = .waiting → c.preds ≠ [] → exec (.commandStart k) s = .next s) ∧
  (c.phase = .waiting → c.preds = [] → c.cancelled = false → readPoison s c.reads = none →
    exec (.commandStart k) s = .next (beginCommand s k c)) ∧
  (∀ f, c.phase = .waiting → c.preds = [] → c.cancelled = false → readPoison s c.reads = some f → c.op.isRemote = false → ∃ t d,
    exec (.commandStart k) s = .next t ∧ kvGet t.cmds k = some d ∧ d.phase = .accessed ∧ d.fault = some f ∧ t.mem = s.mem ∧ t.crews = s.crews) ∧
  (∀ j t st f, c.op = .copy j → c.was = [] → j.perform (Bus.of s c) s = .done t st f → ∃ d, kvGet (beginCommand s k c).cmds k = some d ∧
    d.phase = .accessed ∧ d.status = c.status ||| BitVec.ofNat 8 st ∧ d.fault = f ∧ (beginCommand s k c).mem = t.mem) ∧
  (c.phase ≠ .accessed → exec (.commandComplete k) s = .next s) ∧
  (c.phase = .accessed → exec (.commandComplete k) s = .next (completeCommand s k c)) ∧
  (∀ n d, c.phase = .accessed → c.arv = none → n ≠ k → kvGet s.cmds n = some d → k ∈ d.preds →
    let stop := d.cancelled || (c.fault.isSome || c.cancelled)
    kvGet (completeCommand s k c).cmds n = some { d with preds := setDel d.preds k, cancelled := stop }) ∧
  (∀ wp, c.phase = .completed → olderUnretired s k c = false → c.pair = none → getWarp s c.crew c.warp = some wp → wp.retired = false → ∃ u b,
    exec (.commandRetire k) s = .next (retireCrew u c.crew) ∧ u.mem = s.mem ∧ u.cmds = kvDel s.cmds k ∧ getWarp u c.crew c.warp = some b ∧
    b.regs = wp.regs ∧ b.paths = wp.paths ∧ (∀ cls, cls ≠ c.cls → engClass b cls = engClass wp cls) ∧
    engClass b c.cls = { engClass wp c.cls with
      count := (engClass wp c.cls).count - 1
      status := (engClass wp c.cls).status ||| c.status ||| (if c.fault.isSome then 32 else 0) ||| (if c.cancelled then 16 else 0)
      acq := max (engClass wp c.cls).acq c.scope
      faults := (engClass wp c.cls).faults ++ c.fault.toList }) ∧
  (c.phase ≠ .completed ∨ olderUnretired s k c = true → exec (.commandRetire k) s = .next s))

/-- R250-R254: CPY, GATH and SCAT enter a copy command when the handle names a TENSOR, the shape is admitted and the scratch is the core's own,
else they trap; a row of an untagged box copied in unchanged holds the memory's bytes, and zero outside the tensor. -/
def Obligations.CopyCommands : Prop :=
  (∀ (w : Enc) (s : State) (x : Site),
  let enters (o : Host.Outcome State Fault Refusal) (kind : Nat) : Prop :=
    (x.act = 0 → GoesOnTo o w x s) ∧
    (x.act ≠ 0 → handleSlot s x.cr.ctx (sA x w) = none → o = .next (takeTrap s x { code := 0x0C, tx := 1, mask := x.act })) ∧
    (x.act ≠ 0 → ∀ slot r, handleSlot s x.cr.ctx (sA x w) = some (slot, r) →
      (recField r.data 0 1 ≠ 1 → o = .next (takeTrap s x { code := 0x0C, tx := 2, mask := x.act })) ∧
      (recField r.data 0 1 = 1 →
        let j := (copyJob x w kind (tensorOf r.data) (uB s x w)).1
        let ctl := (copyJob x w kind (tensorOf r.data) (uB s x w)).2
        (copyShapeBad j ctl = true → o = .next (takeTrap s x { code := 0x0C, tx := 3, mask := x.act })) ∧
        (copyShapeBad j ctl = false → (∀ k, ctl.arv = some k → (kvGet x.cr.bars k).isSome = true) →
          ∀ xo lo, (kind = 0 ∧ xo = 0 ∨ kind ≠ 0 ∧ ownScratch x j.x (4 * j.bk 1) = .ok xo) → ownScratch x j.lo j.imageBytes = .ok lo →
          ∃ c, c.cls = 0 ∧ c.op = .copy { j with lo := lo, x := xo } ∧ c.scope = w.sub.toNat / 2 + 1 ∧ c.arv = ctl.arv ∧
            (Region.bytes x.ref.crew lo (lo + j.imageBytes) ∈ if j.out then c.reads else c.writes) ∧
            (commandWaits s x c = true → o = .next (setWarp s x.ref.crew x.ref.warp (x.hold s.now))) ∧
            (commandWaits s x c = false → ∃ t, o = .next (setWarp t x.ref.crew x.ref.warp ((enterCommand x s c).1.advance w)) ∧
              t = if j.out then countOut (enterCommand x s c).2.1 x.cr.launch x.ref.core 0 true else (enterCommand x s c).2.1))))
  (Issues (.cpy w) w s x → enters (exec (.cpy w) s) 0) ∧
  (Issues (.gath w) w s x → enters (exec (.gath w) s) 1) ∧
  (Issues (.scat w) w s x → enters (exec (.scat w) s) 2)) ∧
  (∀ (j : CopyJob) (b : Bus) (s : State) (t : RowTask) (lr : Nat) (cr : Crew), kvGet s.crews b.crew = some cr →
  Memory.wf cr.scratch → t.lr = some lr → j.lf = 0 → j.tagged = false → j.et < 11 → 0 < j.bk 0 →
  ∃ s', j.doIn b s t = (s', (j.doIn b s t).2) ∧ s'.mem = s.mem ∧ s'.tags = s.tags ∧
    ∃ cr', kvGet s'.crews b.crew = some cr' ∧
    (∀ k n, k < j.bk 0 → n < etBytes j.et → cellGet cr'.scratch (j.lo + lr * j.pitch + k * etBytes j.et + n) =
      match t.at_ with
      | none => 0
      | some p => if j.inside ≤ k then 0
          else if tagFormat (busTag s b (busPa s b permRead (j.elemVa p k)) (j.elemVa p k)) = 15 then
            BitVec.ofNat 8 (((etFmt j.et).map (·.canonNaN)).getD 0 / 256 ^ n)
          else busByte s b false (busPa s b permRead (j.elemVa p k + n)) (j.elemVa p k + n)) ∧
    (∀ o, o < j.lo + lr * j.pitch ∨ j.lo + lr * j.pitch + j.bk 0 * etBytes j.et ≤ o → cellGet cr'.scratch o = cellGet cr.scratch o))

/-! ### Tiles and matrix commands -/

/-- R266, R273, R280, R285, R286: ACCZ, ACCRD and ACCWR clear, read and write elements of tiles, wait for commands on the tile, and trap
outside the crew's tiles; MXACQ holds the array unless refused, MXREL lets go once nothing is in flight, and MXSTAT reads the state. -/
def Obligations.TileAndArrayResults : Prop :=
  (∀ (w : Enc) (s : State) (x : Site),
  (Issues (.accz w) w s x → x.act ≠ 0 →
    let t := w.d.idx.toNat
    let n := uB s x w
    let ts := (List.range n).map fun k => t + k
    (n ≠ 0 → x.cr.acc < t + n → Traps (exec (.accz w) s) s x
      { code := 0x0E, tx := BitVec.ofNat 32 (1 + 2 ^ 8 * max t x.cr.acc), mask := x.act }) ∧
    (n = 0 → GoesOnTo (exec (.accz w) s) w x s) ∧
    (n ≠ 0 → t + n ≤ x.cr.acc → tilesBusy s x.ref.crew ts = true → Waits (exec (.accz w) s) s x) ∧
    (n ≠ 0 → t + n ≤ x.cr.acc → tilesBusy s x.ref.crew ts = false → GoesOnTo (exec (.accz w) s) w x
      (modCrew s x.ref.crew fun c => { c with tiles := kvClear c.tiles (4096 * t) (4096 * (t + n))
                                              tilePoison := c.tilePoison.filter fun k => !ts.contains k })) ∧
    ∀ (m : KV W32) k r c, t ≤ k → k < t + n → r < 64 → c < 64 → tileGet (kvClear m (4096 * t) (4096 * (t + n))) k r c = 0) ∧
  (Issues (.accrd w) w s x → x.act ≠ 0 →
    let t := w.a.idx.toNat
    (x.cr.acc ≤ t → Traps (exec (.accrd w) s) s x { code := 0x0E, tx := BitVec.ofNat 32 (1 + 2 ^ 8 * t), mask := x.act }) ∧
    (t < x.cr.acc → (∀ l, x.act.getLsbD l = true → nB s x w l < 64 ∧ nC s x w l < 64) → tilesBusy s x.ref.crew [t] = false →
      x.cr.tilePoison.contains t = false →
      GivesD (exec (.accrd w) s) w s x false fun l => tileGet x.cr.tiles t (nB s x w l) (nC s x w l))) ∧
  (Issues (.accwr w) w s x → x.act ≠ 0 →
    let t := w.d.idx.toNat
    (t < x.cr.acc → (∀ l, x.act.getLsbD l = true → srcValue s x .n32 w.a l < 64 ∧ nB s x w l < 64) → tilesBusy s x.ref.crew [t] = false →
      x.cr.tilePoison.contains t = false →
      GoesOnTo (exec (.accwr w) s) w x (modCrew s x.ref.crew fun cr => { cr with
        tiles := (lanesOf x.act).foldl (fun m l =>
          tilePut m t (srcValue s x .n32 w.a l) (nB s x w l) (BitVec.ofNat 32 (srcC s x .f32 w l))) cr.tiles })))) ∧
  (∀ (w : Enc) (s : State) (x : Site),
  (Issues (.mxacq w) w s x → x.act ≠ 0 →
    (∀ r, mxRefuses s x (w.sub == 1) = some r → ∃ b, exec (.mxacq w) s = .next (setWarp
        (modCrew s x.ref.crew fun c => { c with mxRefusal := r }) x.ref.crew x.ref.warp b) ∧ GoesOn w x b ∧ KeepsWarp x.wp b ∧
      PredWritten x b w.e fun _ => false) ∧
    (mxRefuses s x (w.sub == 1) = none → ∃ b, exec (.mxacq w) s = .next (setWarp
        (modCrew s x.ref.crew fun c => { c with holdsArray := true, holdsPair := c.holdsPair || w.sub == 1 }) x.ref.crew x.ref.warp b) ∧
      GoesOn w x b ∧ KeepsWarp x.wp b ∧ PredWritten x b w.e fun _ => true) ∧
    (mxReserved s x.cr.ctx = false → mxRefuses s x (w.sub == 1) = some 1)) ∧
  (Issues (.mxrel w) w s x → x.act ≠ 0 →
    (mxReserved s x.cr.ctx = false → GoesOnTo (exec (.mxrel w) s) w x s) ∧
    (mxReserved s x.cr.ctx = true → 0 < mxInFlight s x.ref.crew → Waits (exec (.mxrel w) s) s x) ∧
    (mxReserved s x.cr.ctx = true → mxInFlight s x.ref.crew = 0 → GoesOnTo (exec (.mxrel w) s) w x
      (modCrew s x.ref.crew fun c => { c with holdsArray := false, holdsPair := false }))) ∧
  (Issues (.mxstat w) w s x → w.d.file = .scalar → x.act ≠ 0 → ∃ b, exec (.mxstat w) s = .next (setWarp s x.ref.crew x.ref.warp b) ∧
    KeepsWarp x.wp b ∧ GoesOn w x b ∧ MainKept x.wp.regs b.regs ∧ PredKept x.wp.regs b.regs ∧
    ScalarWritten x.wp.regs b.regs w.d.idx.toNat 1 (mxstatWord s x (uB s x w))))

/-- R54, R271-R274, R278, R279, R284: MMA, MMAP and MMAG enter a matrix command over their operand images and tiles, ACCLD and ACCST one
between a scratch image and a tile or two; fields, tiles and scratch that are not admitted trap, and so does a command without the held
array in reserved mode. The step of an array puts into each element of its tile C plus the products of its row of A and column of B. -/
def Obligations.MatrixCommands : Prop :=
  (∀ (w : Enc) (s : State) (x : Site),
  let enters (o : Host.Outcome State Fault Refusal) (kind : Nat) (follow : Follow) : Prop :=
    let fo : Option (Nat × Crew) := match follow with | .crew k c => some (k, c) | _ => none
    let j := (mxJob s x w kind).1
    let ok := (mxJob s x w kind).2.1
    let arv := (mxJob s x w kind).2.2
    let asz := j.imageBytes j.pa j.rows
    let bsz := j.imageBytes j.pb 64
    (x.cr.acc ≤ j.tile → Traps o s x { code := 0x0E, tx := BitVec.ofNat 32 (1 + 2 ^ 8 * j.tile), mask := x.act }) ∧
    (j.tile < x.cr.acc → (∀ e, fo = some e → j.tile < e.2.acc) →
      (∀ r, j.reason ok = some r → Traps o s x { code := 0x0E, tx := BitVec.ofNat 32 r, mask := x.act }) ∧
      (j.reason ok = none → (∀ k, arv = some k → (kvGet x.cr.bars k).isSome = true) → ∀ ao bo xo,
        ownScratch x j.a asz = .ok ao → ownScratch x j.b bsz = .ok bo → (kind = 2 → ownScratch x j.x 128 = .ok xo) → (kind ≠ 2 → xo = 0) →
        (kind = 1 → follow = .none → Traps o s x (regionTrap x j.a 3)) ∧
        (follow = .waits → Waits o s x) ∧
        ((kind = 1 → follow ≠ .none) → follow ≠ .waits → (∀ e, fo = some e → ao + asz ≤ scratchSize e.2) →
        (8 ≤ mxInFlight s x.ref.crew → Waits o s x) ∧
        (mxInFlight s x.ref.crew < 8 → ∃ c, c.cls = 1 ∧ c.scope = 1 ∧ c.arv = arv ∧
          c.op = .matrix { j with a := ao, b := bo, x := xo, follower := fo.map (·.1) } ∧
          c.pair = (fo.map fun _ => x.ref.core ^^^ 1) ∧
          Region.tile x.ref.crew j.tile ∈ c.writes ∧ Region.bytes x.ref.crew ao (ao + asz) ∈ c.reads ∧
          Region.bytes x.ref.crew bo (bo + bsz) ∈ c.reads ∧ (∀ e, fo = some e → Region.tile e.1 j.tile ∈ c.writes) ∧
          EntersCommand o w (noteMode s x.cr.ctx) x c))))
  (Issues (.mma w) w s x → x.act ≠ 0 →
    (mxReserved s x.cr.ctx = true → mxHeld x.cr false = false →
      Traps (exec (.mma w) s) s x { code := 0x0F, tx := 1, mask := x.act }) ∧
    (mxReserved s x.cr.ctx = false ∨ mxHeld x.cr false = true → enters (exec (.mma w) s) 0 .none)) ∧
  (Issues (.mmag w) w s x → x.act ≠ 0 → (mxReserved s x.cr.ctx = false ∨ mxHeld x.cr false = true) → enters (exec (.mmag w) s) 2 .none) ∧
  (Issues (.mmap w) w s x → x.act ≠ 0 → (mxReserved s x.cr.ctx = false ∨ mxHeld x.cr true = true) →
    enters (exec (.mmap w) s) 1 (followerOf s x))) ∧
  (∀ (w : Enc) (s : State) (x : Site),
  let enters (o : Host.Outcome State Fault Refusal) (store : Bool) : Prop :=
    let fmt := w.sub.toNat
    let t := w.d.idx.toNat
    let ts := if fmt = 4 then [t, t + 1] else [t]
    let a := rawValue s x .n32 false w.a 0
    let ctl := scalarValue x.wp w.b.idx.toNat false
    let row := if fmt = 0 then 256 else if fmt ≤ 2 then 128 else 64
    let p := if ctl / 2 ^ 16 = 0 then row else 8 * (ctl / 2 ^ 16)
    let n := if 3 ≤ fmt then 64 * p + 2 * p else 63 * p + row
    (x.act = 0 → GoesOnTo o w x s) ∧
    (x.act ≠ 0 → (∀ k ∈ ts, k < x.cr.acc) → row ≤ p → p % (if 3 ≤ fmt then 64 else 8) = 0 → a % (if 3 ≤ fmt then 64 else 8) = 0 →
      bitsAt ctl 14 2 = 0 → bitsAt ctl 0 7 = 0 → ctl.testBit 13 = false → ∀ off, ownScratch x a n = .ok off →
      ∃ c, c.cls = 1 ∧ c.arv = none ∧ c.op = .tileMove store fmt t off p ∧ c.pair = none ∧
        (∀ k ∈ ts, Region.tile x.ref.crew k ∈ if store then c.reads else c.writes) ∧
        (Region.bytes x.ref.crew off (off + n) ∈ if store then c.writes else c.reads) ∧ EntersCommand o w s x c)
  (Issues (.accld w) w s x → enters (exec (.accld w) s) false) ∧ (Issues (.accst w) w s x → enters (exec (.accst w) s) true)) ∧
  (∀ (core k : Nat) (s : State) (c : Command) (j : MxJob) (cr : Crew),
  (getCore s core).serving = some k → kvGet s.cmds k = some c → c.op = .matrix j → c.core = core → c.phase = .started → c.pair = none →
  kvGet s.crews c.crew = some cr → j.follower = none → j.kind = 0 → j.idx = [] → j.rows = 64 → j.done = 0 → j.skip = false → j.bad = false →
  c.was = [] → j.k = mxKb j.fmt → ∃ t d cr', exec (.matrixTileStep core 0) s = .next t ∧ t.mem = s.mem ∧ t.tags = s.tags ∧
    (getCore t core).serving = none ∧ kvGet t.cmds k = some d ∧ d.phase = .accessed ∧ kvGet t.crews c.crew = some cr' ∧
    cr'.scratch = cr.scratch ∧ cr'.mxQueue = cr.mxQueue.filter (· != k) ∧
    (∀ e, e ∈ cr'.tiles → e ∈ cr.tiles ∨ 4096 * j.tile ≤ e.1 ∧ e.1 < 4096 * (j.tile + 1)) ∧
    (cr.tiles.Pairwise (fun a b => a.1 < b.1) → ∀ r q, r < 64 → q < 64 → tileGet cr'.tiles j.tile r q =
      mxElem j.flush (tileGet cr.tiles j.tile r q) (mxBlock j cr j.a j.pa 64 r 0).1 (mxBlock j cr j.b j.pb 64 q 0).1 % 2 ^ 32))

/-! ### Barriers and groups -/

/-- R394-R400: BARI binds, rebinds or removes a barrier of the crew; BARA queues an arrival, BARW waits for the phase its lanes arrived in,
BARAW does both; a barrier that is not there traps. A phase completes when every warp of the mask is counted and the command arrivals are
CEXP; it releases the paths that wait for it, which acquire at its scope and go on. -/
def Obligations.BarrierResults : Prop :=
  (∀ (w : Enc) (s : State) (x : Site),
  (Issues (.bari w) w s x → x.act ≠ 0 →
    let n := (barField w).2
    let mask := BitVec.ofNat 32 (rawValue s x .n32 false w.a 0 % 2 ^ x.k.crew)
    let cexp := min (uB s x w) 65535
    let bound (b : Barrier) : State := testBars (modCrew s x.ref.crew fun c =>
      { c with bars := kvSet c.bars n { b with mask := mask, cexp := cexp } }) x.ref.crew
    let answers (t : State) (ok : Bool) : Prop := ∃ b, exec (.bari w) s = .next (setWarp t x.ref.crew x.ref.warp b) ∧
      KeepsWarp x.wp b ∧ GoesOn w x b ∧ PredWritten x b w.d fun _ => ok
    (∀ b, kvGet x.cr.bars n = some b → barInUse s x n b = true → Traps (exec (.bari w) s) s x
      { code := 0x15, tx := BitVec.ofNat 32 (n + 2 ^ 8 * 2), mask := x.act }) ∧
    (∀ b, kvGet x.cr.bars n = some b → barInUse s x n b = false →
      if mask = 0 ∧ cexp = 0 then answers (modCrew s x.ref.crew fun c => { c with bars := kvDel c.bars n }) true
      else answers (bound b) true) ∧
    (kvGet x.cr.bars n = none →
      if mask = 0 ∧ cexp = 0 then answers s true
      else if 64 ≤ slotsBound s x.ref.core then answers s false else answers (bound {}) true)) ∧
  (∀ i kind, (i = Instr.bara w ∧ kind = 0) ∨ (i = Instr.barw w ∧ kind = 1) ∨ (i = Instr.baraw w ∧ kind = 2) → Issues i w s x → x.act ≠ 0 →
    x.pa.barWait = none →
    (∀ t, namedBar s x w = .error t → Traps (exec i s) s x t) ∧
    (∀ nb, namedBar s x w = .ok nb →
      let queued := queuedArrivals x.wp nb.group nb.num
      let here := kvD nb.bar.arrived nb.key 0 ||| queued
      let waits (again : Bool) (m : Mask) : Prop := ∃ b p bw, exec i s = .next (setWarp s x.ref.crew x.ref.warp b) ∧
        b.regs = x.wp.regs ∧ b.storeQ = x.wp.storeQ ∧ kvGet b.paths x.rn.path = some p ∧ p.pc = x.pa.pc ∧ p.barWait = some bw ∧
        p.barGroup = nb.group ∧ p.barNum = nb.num ∧ (queued &&& m = 0 → bw = .phase nb.bar.phase again) ∧
        (queued &&& m ≠ 0 → ∃ q, bw = .arriving q again)
      (kind ≠ 1 → here &&& x.act = 0 → x.wp.storeQ.length < 16 → ∃ b e, exec i s = .next (setWarp s x.ref.crew x.ref.warp b) ∧
        b.storeQ = x.wp.storeQ ++ [e] ∧ e.kind = .arrive nb.group nb.num x.act ∧ e.seq = x.wp.nextSeq ∧ b.regs = x.wp.regs ∧
        (kind = 0 → GoesOn w x b) ∧
        (kind = 2 → ∃ p, kvGet b.paths x.rn.path = some p ∧ p.pc = x.pa.pc ∧ p.barWait = some (.arriving x.wp.nextSeq false) ∧
          p.barGroup = nb.group ∧ p.barNum = nb.num)) ∧
      (kind ≠ 1 → here &&& x.act = 0 → 16 ≤ x.wp.storeQ.length → Waits (exec i s) s x) ∧
      (kind ≠ 1 → here &&& x.act ≠ 0 → waits true x.act) ∧
      (kind = 1 → here = 0 → GoesOnTo (exec i s) w x s) ∧
      (kind = 1 → here ≠ 0 → waits false (~~~0)))) ∧
  (∀ i kind, (i = Instr.bara w ∧ kind = 0) ∨ (i = Instr.barw w ∧ kind = 1) ∨ (i = Instr.baraw w ∧ kind = 2) → Issues i w s x → x.act ≠ 0 →
    (∀ n again, x.pa.barWait = some (.phase n again) → Waits (exec i s) s x) ∧
    (∀ q again, x.pa.barWait = some (.arriving q again) → Waits (exec i s) s x) ∧
    (∀ scope, x.pa.barWait = some (.released scope false) → GoesOnTo (exec i s) w x (acquireStep s x.ref.core scope)) ∧
    (∀ scope, x.pa.barWait = some (.released scope true) → exec i s =
      .next ((barStart w kind { x with pa := { x.pa with barWait := none } } (acquireStep s x.ref.core scope)).state w)))) ∧
  (∀ (cr : Crew) (width fuel k : Nat) (b : Barrier),
  let c := countBar cr width b
  let due : Prop := (∀ e ∈ cr.warps, b.mask.getLsbD e.1 = true → e.1 ∈ c.counted) ∧ b.carr = b.cexp
  (∀ n, n ∈ c.counted ↔ n ∈ b.counted ∨ ∃ wp, (n, wp) ∈ cr.warps ∧ b.mask.getLsbD n = true ∧
    ∀ l, l < width → l < 64 → (kvD b.arrived n 0).getLsbD l = true ∨ wp.live.getLsbD l = false) ∧
  (due → b.late = [] →
    let n := (testBar cr width fuel b).1
    (testBar cr width fuel b).2 = [(b.phase, b.scope)] ∧
    n.phase = b.phase + 1 ∧ n.arrived = [] ∧ n.carr = 0 ∧ n.mask = b.mask ∧ n.cexp = b.cexp ∧
    ∀ m, m ∈ n.counted ↔ ∃ wp, (m, wp) ∈ cr.warps ∧ b.mask.getLsbD m = true ∧ ∀ l, l < width → l < 64 → wp.live.getLsbD l = false) ∧
  (¬due → testBar cr width fuel b = (c, [])) ∧
  (due → b.late = [] → kvGet cr.bars k = some b → ∀ wk wp pk p again, kvGet cr.warps wk = some wp → kvGet wp.paths pk = some p →
    p.barWait = some (.phase b.phase again) → p.barGroup = false → p.barNum = k →
    ∃ wp', kvGet (Crew.testBar width cr k).warps wk = some wp' ∧
      kvGet wp'.paths pk = some { p with barWait := some (.released b.scope again) }))

/-- R386-R388, R390: GRPQ reads a word about the group in a slot; GRED adds its warp's contribution to the open phase and leaves its scalar
destination empty, and traps where the slot has no group with reductions or the phase is of another kind; when every warp has contributed
or is idle the phase completes, and each warp that waited reads the reduction; the identity that a warp without lanes contributes counts
where floats are compared. -/
def Obligations.GroupResults : Prop :=
  (∀ (w : Enc) (s : State) (x : Site),
  let slot := (Operand.bits w.e).toNat % 4
  (Issues (.grpq w) w s x → w.d.file = .scalar → x.act ≠ 0 → ∃ b, exec (.grpq w) s = .next (setWarp s x.ref.crew x.ref.warp b) ∧
    KeepsWarp x.wp b ∧ GoesOn w x b ∧ MainKept x.wp.regs b.regs ∧ PredKept x.wp.regs b.regs ∧
    ScalarWritten x.wp.regs b.regs w.d.idx.toNat 1 (match groupInSlot (getLaunch s x.cr.launch) x.cr.num slot with
      | none => 0xFFFFFFFF
      | some (e, g) => if uB s x w = 0 then e else if uB s x w = 1 then g.members.length
          else if uB s x w = 2 then g.members.findIdx (· == x.cr.num)
          else if uB s x w = 3 then g.flags % 8 + (if g.flags.testBit 2 then 2 ^ 8 * (2 ^ g.members.length - 1) else 0)
          else if uB s x w = 4 then g.phases.toNat else 0)) ∧
  (Issues (.gred w) w s x → gredDestEmpty x w = false →
    (∀ r, groupWith s x slot 1 = .error r → Traps (exec (.gred w) s) s x
      { code := 0x14, tx := BitVec.ofNat 32 (slot + 2 ^ 8 * r), mask := x.act }) ∧
    ∀ e g, groupWith s x slot 1 = .ok (e, g) →
      let ph := g.open_.getD { sub := w.sub.toNat, ty := w.ty }
      let key := 64 * x.cr.num + x.ref.warp
      ((kvGet ph.contribs key).isSome = true → Waits (exec (.gred w) s) s x) ∧
      (kvGet ph.contribs key = none → (ph.sub ≠ w.sub.toNat ∨ ph.ty ≠ w.ty) → Traps (exec (.gred w) s) s x
        { code := 0x14, tx := BitVec.ofNat 32 (slot + 2 ^ 8 * 3), mask := x.act }) ∧
      (kvGet ph.contribs key = none → ph.sub = w.sub.toNat → ph.ty = w.ty → ∃ b t,
        exec (.gred w) s = .next (testGred (setWarp t x.ref.crew x.ref.warp b) x.cr.launch e) ∧ GoesOn w x b ∧
        Emptied x.wp.regs b.regs (.scalar w.d.idx.toNat (Ty.wide w.ty)) x.act ∧
        (∃ q, b.greds = x.wp.greds ++ [q] ∧ q.group = e ∧ q.sd = w.d.idx.toNat ∧ q.mask = x.act ∧ q.result = none ∧
          q.flags = (w.ty == .f32)) ∧
        t = setLaunch s x.cr.launch { getLaunch s x.cr.launch with groups := kvSet (getLaunch s x.cr.launch).groups e { g with
          open_ := some { ph with contribs := kvSet ph.contribs key ((lanesOf x.act).map fun l => srcValue s x w.ty w.a l) } } }))) ∧
  (∀ (s : State) (launch g k wk : Nat) (gr : Group) (ph : GredPhase) (c : Crew) (wp : Warp)
    (q : GredWait),
  kvGet (getLaunch s launch).groups g = some gr → gr.open_ = some ph →
  membersAll s launch gr (fun n wp => (kvGet ph.contribs n).isSome || (wp.live == 0 && !wp.reformed && match crewOf s launch (n / 64) with
    | some (_, d) => (drawBin s d wp).isNone
    | none => false)) = true →
  kvGet s.crews k = some c → c.launch = launch → c.num ∈ gr.members → c.phase = .resident → kvGet c.warps wk = some wp →
  (kvGet ph.contribs (64 * c.num + wk)).isSome = true → (wp.greds.find? fun w => w.group == g && w.result.isNone) = some q →
  let vals := (ph.contribs.map (·.2)).flatten
  let identity : Prop := (∃ e ∈ ph.contribs, e.2 = []) ∨ ph.contribs.length < gr.members.length * (getLaunch s launch).kernel.crew
  ∃ more : List Nat, (ph.ty = .f32 → ph.sub = 1 → identity → more = [fmt32.infBits]) ∧
  (ph.ty = .f32 → 2 ≤ ph.sub → identity → more = [fmt32.signed true fmt32.infBits]) ∧
  (ph.ty ≠ .f32 ∨ ph.sub = 0 ∨ ¬identity → more = []) ∧
  let r := reduceV (Profile.ofByte (getLaunch s launch).kernel.prof) ph.ty ph.sub q.dmod (vals ++ more)
  let t := testGred s launch g
  (∃ gr', kvGet (getLaunch t launch).groups g = some gr' ∧ gr'.open_ = none ∧ gr'.phases = gr.phases + 1) ∧
  ∃ wp', getWarp t k wk = some wp' ∧ ScalarWritten wp.regs wp'.regs q.sd (pairSize q.wide) r.1 ∧ MainKept wp.regs wp'.regs ∧
    wp'.greds = wp.greds.filter (fun v => v != q) ∧ wp'.paths = wp.paths)

/-! ### Rays, treelets, filters and views -/

/-- R287, R291, R292, R297, R298, R300: TRACE gives each active lane without a ray a ray and its record to the command, leaving its hit block
empty; HITQ reads a lane's ray status; CAND.get takes an offered candidate or waits for one; the other forms answer the offered candidates. -/
def Obligations.RayInstructions : Prop :=
  (∀ (w : Enc) (s : State) (x : Site), Issues (.trace w) w s x →
  (x.act = 0 → GoesOnTo (exec (.trace w) s) w x s) ∧
  (x.act ≠ 0 → (∀ e ∈ x.wp.rays, x.act.getLsbD e.1 = false) →
    let h := w.d.idx.toNat
    let block (l : Nat) : List Nat := (List.range 9).map fun k => (x.wp.regs.main (w.a.idx.toNat + k) l).toNat
    let rs := ((lanesOf x.act).filter fun l => !degenerate (block l)).map fun l =>
      (l, traceRecord (block l) (traceFlags w.sub.toNat) (uB s x w), (kvD x.wp.items l {}).traces % 1024)
    let c : Command := { cls := 3, scope := 1, lanes := x.act, op := .trace (uB s x w) h rs }
    (commandWaits s x c = true → Waits (exec (.trace w) s) s x) ∧
    (commandWaits s x c = false → ∃ b, exec (.trace w) s = .next (setWarp (enterCommand x s c).2.1 x.ref.crew x.ref.warp b) ∧
      GoesOn w x b ∧ (engClass b 3).count = (engClass x.wp 3).count + 1 ∧
      (∀ l, l < 64 → x.act.getLsbD l = true → (kvD b.items l {}).traces = (kvD x.wp.items l {}).traces + 1) ∧
      (∀ l, l < 64 → x.act.getLsbD l = true → degenerate (block l) = false →
        kvGet b.rays l = some { cand := w.sub.getLsbD 0, hit := h } ∧ ∀ j, j < 4 → 64 * (h + j) + l ∈ b.regs.vempty) ∧
      (∀ l, l < 64 → x.act.getLsbD l = true → degenerate (block l) = true → kvGet b.rays l = none ∧
        ∀ j, j < 4 → 64 * (h + j) + l ∉ b.regs.vempty ∧
          some (b.regs.main (h + j) l) = (missWords ((block l).getD 7 0) (traceFlags w.sub.toNat) 1)[j]?) ∧
      ∀ r l, l < 64 → (x.act.getLsbD l = false ∨ r < h ∨ h + 4 ≤ r) → b.regs.main r l = x.wp.regs.main r l ∧
        (64 * r + l ∈ b.regs.vempty ↔ 64 * r + l ∈ x.wp.regs.vempty)))) ∧
  (∀ (w : Enc) (s : State) (x : Site),
  (Issues (.hitq w) w s x → GivesD (exec (.hitq w) s) w s x false fun l =>
    let n := (kvD x.wp.items l {}).traces
    (match kvGet x.wp.rays l with
      | none => 0
      | some r => if r.offer.isSome then 2 else 1) + 8 * (if n = 0 then 0 else (n - 1) % 1024)) ∧
  (Issues (.candGet w) w s x → x.act ≠ 0 → ∃ b, exec (.candGet w) s = .next (setWarp s x.ref.crew x.ref.warp b) ∧ GoesOn w x b ∧
    let c := w.d.idx.toNat
    let p := w.e.idx.toNat
    let pending (l : Nat) : Prop := ∃ r, kvGet x.wp.rays l = some r ∧ r.cand = true ∧ r.offer = none
    (∀ l, l < 64 → x.act.getLsbD l = true →
      (∀ r ws, kvGet x.wp.rays l = some r → r.offer = some ws → (b.regs.pmask p).getLsbD l = true ∧
        ∀ j v, ws[j]? = some v → b.regs.main (c + j) l = v ∧ 64 * (c + j) + l ∉ b.regs.vempty) ∧
      (pending l → ∀ j, j < 4 → 64 * (c + j) + l ∈ b.regs.vempty) ∧
      (¬pending l → (∀ r, kvGet x.wp.rays l = some r → r.offer = none) → (b.regs.pmask p).getLsbD l = false)) ∧
    (p ∈ b.regs.pempty ↔ p ∈ x.wp.regs.pempty ∨ ∃ l, l < 64 ∧ x.act.getLsbD l = true ∧ pending l) ∧
    (∀ l, x.act.getLsbD l = false → kvGet b.rays l = kvGet x.wp.rays l ∧ (b.regs.pmask p).getLsbD l = (x.wp.regs.pmask p).getLsbD l)) ∧
  (∀ i kind, (i = Instr.candAccept w ∧ kind = 1) ∨ (i = Instr.candReject w ∧ kind = 2) ∨ (i = Instr.candTerm w ∧ kind = 3) →
    Issues i w s x →
    let has (l : Nat) : Option Nat := (kvGet x.wp.rays l).bind fun r => if r.offer.isSome then r.id else none
    let lanes := (lanesOf x.act).filter fun l => (has l).isSome
    (lanes = [] → GoesOnTo (exec i s) w x s) ∧
    (lanes ≠ [] → (x.wp.storeQ ≠ [] ∨ x.wp.loads ≠ []) → Waits (exec i s) s x) ∧
    (lanes ≠ [] → x.wp.storeQ = [] → x.wp.loads = [] → ∃ b,
      exec i s = .next (setWarp (lanes.foldl (fun s l => match has l with
        | some id => postMsg s (.answer (rayKey x.cr.ctx id) kind)
        | none => s) s) x.ref.crew x.ref.warp b) ∧ GoesOn w x b ∧ b.regs = x.wp.regs ∧
      ∀ l r, kvGet x.wp.rays l = some r → kvGet b.rays l = some (if l ∈ lanes then { r with offer := none } else r))))

/-- R293, R294, R296-R299, R302: a result that reaches the lane holding its ray fills the hit block and frees its record; a candidate is offered
to the lane, rejected where the lane has abandoned its ray, and given back where no lane holds the ray; an answered candidate lets its ray
go on or complete. -/
def Obligations.RayMessages : Prop :=
  (∀ (s : State) (k ray : Nat) (o : W32) (ws : List W32),
  let gone : State := { s with rayMsgs := kvDel s.rayMsgs k }
  (kvGet s.rayMsgs k = some (.result ray o ws) → tagSlot o < 0xFFFC →
    (rayMatch gone ray o = none → exec (.hitDelivery k) s = .next gone) ∧
    (∀ ref wp lr, rayMatch gone ray o = some (ref, wp, lr) → ∃ b, exec (.hitDelivery k) s =
        .next (freePool (setWarp gone ref.crew ref.warp b) (ray / 2 ^ 28) (ray % 2 ^ 28)) ∧
      (∀ j v, ws[j]? = some v → b.regs.main (lr.hit + j) (tagLane o) = v ∧
        64 * (lr.hit + j) + tagLane o ∉ b.regs.vempty) ∧
      (wp.rays.Pairwise (fun a b => a.1 < b.1) → kvGet b.rays (tagLane o) = none) ∧ b.paths = wp.paths ∧ b.live = wp.live)) ∧
  (kvGet s.rayMsgs k = some (.candidate ray o ws) →
    (rayMatch gone ray o = none → exec (.candidateDelivery k) s = .next (postMsg gone (.giveBack ray o ws))) ∧
    (∀ ref wp lr, rayMatch gone ray o = some (ref, wp, lr) →
      (lr.abandoned = true → exec (.candidateDelivery k) s = .next (postMsg gone (.answer ray 2))) ∧
      (lr.abandoned = false → exec (.candidateDelivery k) s = .next (setWarp gone ref.crew ref.warp
        (endGets { wp with rays := kvMod wp.rays (tagLane o) fun r => { r with offer := some ws } } (tagLane o) lr.get (some ws))))))) ∧
  (∀ (s : State) (k ray kind : Nat) (o : W32) (ws : List W32) (r : Ray),
  kvGet s.rays ray = some r →
  (∀ c, kvGet s.rayMsgs k = some (.answer ray kind) → r.cand = some c →
    exec (.candidateAnswer k) s = .next (settleMsg k (
      if kind = 3 ∨ (kind = 1 ∧ r.any = true) then finishRay s { r with cand := none, best := some c, tmax := c.t } none
      else if kind = 1 ∧ c.beats r.best = true then enqueueRay s { r with cand := none, best := some c, tmax := c.t } false
      else enqueueRay s { r with cand := none } false))) ∧
  (∀ t, settleMsg k (.ok t) = { t with rayMsgs := kvDel t.rayMsgs k } ∧ settleMsg k (.wait t) = t) ∧
  (∀ t pa, kvGet s.rayMsgs k = some (.giveBack ray o ws) → damsonTouch s r.ctx r.stack (recordVa s r.ctx r.id) = .ok t pa →
    let new := BitVec.ofNat 32 (homeNat t (pa + 60) 4)
    let u : State := { t with rayMsgs := kvDel t.rayMsgs k }
    exec (.candidateReturn k) s = .next (if new = o then setRay (putCandw u pa true) { r with held := true }
      else postMsg (setRay (putCandw u pa false) { r with sentTo := new }) (.candidate ray new ws))))

/-- R293, R294, R313, R314, R316-R320: a ray that arrives at an open treelet of its stack is bound to the version, counted and queued; at a shut
one it is held, at a poisoned one it completes with ST 3, at a free one it returns, at another stack's it is sent on; one that returns to its
binding is queued again, a held one is admitted again in its turn. A ray completes with its hit words in its record and on their way. A free
pipeline takes the queue that the policy names and serves at most 256 of its entries that are not held. -/
def Obligations.TreeletEvents : Prop :=
  (∀ (s t : State) (k ray pa : Nat) (r : Ray) (what : RayGo), kvGet s.rayMsgs k = some (.go ray what) → kvGet s.rays ray = some r →
  (what = .enter ∨ what = .back ∨ (what = .again none ∧ againBefore s k r = false)) → entryTouch s r.ctx r.stack r.tid = .ok t pa →
  let e := tentryAt t pa
  (e.st = 3 → exec (.rayAdmit k) s = .next (settleMsg k (finishRay t r (some 3)))) ∧
  (e.st ≠ 0 → e.st ≠ 3 → e.root = false → e.home ≠ r.stack → exec (.rayAdmit k) s = .next (forwardRay t k r e.home what)) ∧
  (what = .back → e.st ≠ 3 → (e.st = 0 ∨ e.root = true ∨ e.home = r.stack) →
    exec (.rayAdmit k) s = .next (settleMsg k (enqueueRay t r false))) ∧
  (what ≠ .back → e.st = 0 → exec (.rayAdmit k) s = .next (settleMsg k (returnRay t { r with bind := none }))) ∧
  (what ≠ .back → e.st = 2 → (e.root = true ∨ e.home = r.stack) →
    exec (.rayAdmit k) s = .next (settleMsg k (enqueueRay t { r with bind := none } true))) ∧
  (what ≠ .back → e.st = 1 → (e.root = true ∨ e.home = r.stack) → (kvD t.tqueues (queueKey r.stack r.ctx r.tid) {}).spilled = [] →
    sramCount t r.stack < 65536 → ∃ u, exec (.rayAdmit k) s = .next u ∧
    (Memory.wf t.mem → ∀ q, q < pa ∨ pa + 32 ≤ q → homeByte u q = homeByte t q) ∧
    (Memory.wf t.mem → tentryAt u pa = { e with readers := (e.readers + 1) % 2 ^ 32 }) ∧ u.rayMsgs = kvDel t.rayMsgs k ∧
    (∃ q, kvGet u.tqueues (queueKey r.stack r.ctx r.tid) = some q ∧ q.entries = (kvD t.tqueues (queueKey r.stack r.ctx r.tid) {}).entries ++
        [{ ray := r.key, held := false, since := t.now }]) ∧
    (kvGet u.rays r.key).map (·.bind) = some (some { tid := r.tid, ver := e.ver, size := e.size }))) ∧
  (∀ (s : State) (k ray : Nat) (what : RayGo), kvGet s.rayMsgs k = some (.go ray what) →
  (kvGet s.rays ray = none → exec (.rayAdmit k) s = .next { s with rayMsgs := kvDel s.rayMsgs k }) ∧
  ∀ r, kvGet s.rays ray = some r →
    (∀ st, what = .finish st → exec (.rayAdmit k) s = .next (settleMsg k (finishRay s r st))) ∧
    (what = .leave → exec (.rayAdmit k) s = .next (settleMsg k (returnRay s r))) ∧
    (∀ line, what = .again line → againBefore s k r = true → exec (.rayAdmit k) s = .next s) ∧
    (∀ n t st, what = .again (some n) → againBefore s k r = false → readSpill s r.ctx r.stack n = (t, some (some st)) →
      exec (.rayAdmit k) s = .next (settleMsg k (finishRay t r (some st)))) ∧
    (∀ n c, what = .enter ∨ what = .back → entryTouch s r.ctx r.stack r.tid = .fault c n →
      exec (.rayAdmit k) s = .next (settleMsg k (finishRay s r (some 4))))) ∧
  (∀ (s t : State) (r : Ray) (st : Option Nat) (pa : Nat), r.bind = none → r.cont = [] →
  damsonTouch s r.ctx r.stack (recordVa s r.ctx r.id) = .ok t pa →
  let ws := r.words (st.getD (if r.best.isSome then 2 else 1))
  let u := putHit t pa ws
  finishRay s r st = .ok (postMsg (dropRay u r) (.result r.key (BitVec.ofNat 32 (homeNat u (pa + 60) 4)) ws)) ∧
  (∀ h, r.best = some h → r.words 2 = [h.t, BitVec.ofNat 32 h.prim, BitVec.ofNat 32 (2 ^ 24 * (r.flags + 8 * h.front.toNat + 2) + h.inst),
    BitVec.ofNat 32 h.uv]) ∧
  (∀ n, n ≠ 2 → r.words n = [r.tmax0, 0xFFFFFFFF, BitVec.ofNat 32 (2 ^ 24 * (r.flags + n) + 0xFFFFFF), 0])) ∧
  (∀ (s : State) (stack ctx tid : Nat),
  (nextBatch s stack ≠ some (queueKey stack ctx tid) → exec (.treeletBatch stack ctx tid) s = .next (refillSram s stack)) ∧
  ((∀ e ∈ s.tqueues, queueStack e.1 = stack → e.2.spilled = []) → refillSram s stack = s) ∧
  (nextBatch s stack = some (queueKey stack ctx tid) → ∃ es, exec (.treeletBatch stack ctx tid) s =
      .next (refillSram (serveBatch (queueKey stack ctx tid) es s) stack) ∧ es.length ≤ 256 ∧
    (∀ e ∈ es, e.held = false ∧ e ∈ (kvD s.tqueues (queueKey stack ctx tid) {}).entries)) ∧
  (∀ k, nextBatch s stack = some k → ∃ q, (k, q) ∈ s.tqueues ∧ queueStack k = stack ∧ ∃ e ∈ q.entries, e.held = false ∧
    ((∀ p ∈ s.tqueues, queueStack p.1 = stack → ∀ d, (TQueue.servable p.2).head? = some d → s.now < d.since + 4096) →
      ∀ p ∈ s.tqueues, queueStack p.1 = stack → (TQueue.servable p.2).length ≤ (TQueue.servable q).length) ∧
    ∀ p ∈ s.tqueues, queueStack p.1 = stack → ∀ d, (TQueue.servable p.2).head? = some d → d.since + 4096 ≤ s.now →
      ∃ h, (TQueue.servable q).head? = some h ∧ h.since ≤ d.since))

/-- R311: a hit lies on the ray and in the triangle, exactly; its t is that value rounded to binary32, and FRONT says on which side. -/
def Obligations.TriangleHit : Prop := ∀ (o d v0 v1 v2 : Vec3) (lo hi : Option Rat) (h : TriHit),
  intersect o d lo hi v0 v1 v2 = some h → ∃ t u v : Rat, 0 ≤ u ∧ 0 ≤ v ∧ u + v ≤ 1 ∧
    (∀ k, k < 3 → o.get k + t * d.get k = v0.get k + u * (v1.get k - v0.get k) + v * (v2.get k - v0.get k)) ∧
    h.t = BitVec.ofNat 32 (roundRat fmt32 t) ∧ timeLe lo (timeOf h.t) = true ∧ timeLe (timeOf h.t) hi = true ∧
    h.uv = bary16 u + 2 ^ 16 * bary16 v ∧
    (h.front = true ↔ d.dot ((v1.sub v0).cross (v2.sub v0)) < 0)

/-- R321-R324: TLSHUT, TLPOST and TLQRY leave their predicate or scalar empty and go to the treelet table in issue order; there TLSHUT
shuts an open treelet, TLPOST posts a new version of one that is not open, and each answers whether it did and notes the reason; TLQRY
reads a word of the entry, or the last reason. -/
def Obligations.TreeletInstructions : Prop :=
  (∀ (w : Enc) (s : State) (x : Site),
  let co := getCore s x.ref.core
  let q : TableReq := { crew := x.ref.crew, warp := x.ref.warp, ctx := x.cr.ctx, id := uB s x w, mask := x.act, reg := w.e.idx.toNat }
  let asks (o : Host.Outcome State Fault Refusal) (q : TableReq) (regs : Regs) : Prop := ∃ b, o = .next (setWarp (setCore s x.ref.core
    { co with tableOps := co.tableOps ++ [q] }) x.ref.crew x.ref.warp b) ∧ GoesOn w x b ∧ KeepsWarp x.wp b ∧ b.regs = regs
  (Issues (.tlshut w) w s x → (x.act = 0 → GoesOnTo (exec (.tlshut w) s) w x s) ∧
    (x.act ≠ 0 → asks (exec (.tlshut w) s) q (x.wp.regs.emptyPred w.e.idx.toNat))) ∧
  (Issues (.tlpost w) w s x → (x.act = 0 → GoesOnTo (exec (.tlpost w) s) w x s) ∧
    (x.act ≠ 0 → x.wp.storeQ ≠ [] → Waits (exec (.tlpost w) s) s x) ∧
    (x.act ≠ 0 → x.wp.storeQ = [] →
      asks (exec (.tlpost w) s) { q with kind := 1, desc := descriptorOf x w } (x.wp.regs.emptyPred w.e.idx.toNat))) ∧
  (Issues (.tlqry w) w s x → (x.act = 0 → GoesOnTo (exec (.tlqry w) s) w x s) ∧
    (x.act ≠ 0 → asks (exec (.tlqry w) s) { q with kind := 2, k := srcC s x .n32 w 0, reg := w.d.idx.toNat }
      (x.wp.regs.emptyScalar w.d.idx.toNat 1)))) ∧
  (∀ (s : State) (core n : Nat) (q : TableReq), (getCore s core).tableOps[n]? = some q →
    (∀ m p, m < n → (getCore s core).tableOps[m]? = some p → ¬(p.crew = q.crew ∧ p.warp = q.warp)) →
    let ends (t : State) (v : Nat) : Prop := tableOpMove s core n =
      setCore (q.answer t v) core { getCore (q.answer t v) core with tableOps := (getCore (q.answer t v) core).tableOps.eraseIdx n }
    let look := lookEntry s core q.ctx q.id
    (q.kind = 0 → (∀ t, look = .refused t → ends t 1) ∧
      (∀ t pa, look = .at_ t pa → (tentryAt t pa).st = 1 → ends (putEntry t pa { tentryAt t pa with st := 2 }) 0) ∧
      (∀ t pa, look = .at_ t pa → (tentryAt t pa).st ≠ 1 → ends t 2)) ∧
    (q.kind = 1 → (∀ t, look = .refused t → ends t 1) ∧ ∀ t pa, look = .at_ t pa →
      let e := tentryAt t pa
      let d := q.desc
      (e.st = 1 → ends t 3) ∧ (e.st ≠ 1 → e.oldP = true → ends t 4) ∧ (e.st ≠ 1 → e.oldP = false → d.bad = true → ends t 5) ∧
      (e.st ≠ 1 → e.oldP = false → d.bad = false → ends
        (dropReplicas (readmitHeld (putEntry (releaseStep t core 3) pa
          { va := d.va, oldVa := e.va, readers := 0, oldRd := e.readers, ver := if e.ver = 0xFFFF then 1 else e.ver + 1, size := d.size,
            home := d.home, root := d.root, st := if d.va = 0 ∧ d.size = 0 then 0 else 1, oldP := decide (0 < e.readers) })
          q.ctx q.id) q.ctx q.id) 0)) ∧
    (q.kind = 2 → (q.k = 8 → ∀ wp, getWarp s q.crew q.warp = some wp → ends s wp.tlRefusal.toNat) ∧ (8 < q.k → ends s 0) ∧
      (q.k < 8 → ∀ t, look = .refused t → ends t 0) ∧
      (q.k < 8 → ∀ t pa, look = .at_ t pa → ends t (homeNat t (pa + 4 * q.k) 4))) ∧
    ∀ t v wp, getWarp t q.crew q.warp = some wp → getWarp (q.answer t v) q.crew q.warp = some (
      if q.kind = 2 then { wp with regs := wp.regs.putScalar q.reg (BitVec.ofNat 32 v) }
      else { wp with tlRefusal := BitVec.ofNat 32 v, regs := wp.regs.putPred q.reg q.mask (if v = 0 then ~~~0 else 0) }))

/-- R341-R343: FILT enters a command for its lanes and leaves its result block empty, traps on a handle of another kind or a block past the
registers; the end of a lane's request fills the lane's block with the values of its reads. -/
def Obligations.FilterResults : Prop := ∀ (w : Enc) (s : State) (x : Site),
  let enters (o : Host.Outcome State Fault Refusal) (grid : Bool) : Prop :=
    let h := scalarValue x.wp w.b.idx.toNat false
    let kind := if grid then 2 else 3
    (handleSlot s x.cr.ctx h = none → Traps o s x { code := 0x0C, tx := 1, mask := x.act }) ∧
    (∀ slot r, handleSlot s x.cr.ctx h = some (slot, r) →
      let n := if grid then gridRegs r.data else 4
      (recField r.data 0 1 ≠ kind → Traps o s x { code := 0x0C, tx := 2, mask := x.act }) ∧
      (recField r.data 0 1 = kind → x.wp.n < w.d.idx.toNat + n → Traps o s x
        { code := 0x01, tx := BitVec.ofNat 32 (5 + 2 ^ 16 * x.wp.n), mask := x.act }) ∧
      (recField r.data 0 1 = kind → w.d.idx.toNat + n ≤ x.wp.n →
        let rs := (lanesOf x.act).map fun l => (l, (List.range (if grid then 3 else 6)).map fun k => x.wp.regs.main (w.a.idx.toNat + k) l)
        let c : Command := { cls := 4, scope := 1, slot := some slot, lanes := x.act, op := .filter grid r.data w.d.idx.toNat rs }
        commandWaits s x c = false → (∀ q l, q < n → x.act.getLsbD l = true → 64 * (w.d.idx.toNat + q) + l ∉ x.wp.regs.vempty) →
        ∃ b, o = .next (setWarp (enterCommand x s c).2.1 x.ref.crew x.ref.warp b) ∧ GoesOn w x b ∧ b.regs.v = x.wp.regs.v ∧
          ∀ q l, l < 64 → (64 * q + l ∈ b.regs.vempty ↔ 64 * q + l ∈ x.wp.regs.vempty ∨
            (x.act.getLsbD l = true ∧ w.d.idx.toNat ≤ q ∧ q < w.d.idx.toNat + n))))
  (Issues (.filtTex w) w s x → x.act ≠ 0 → enters (exec (.filtTex w) s) false) ∧
  (Issues (.filtGrid w) w s x → x.act ≠ 0 → enters (exec (.filtGrid w) s) true) ∧
  (∀ (cmd lane dst : Nat) (c : Command) (grid : Bool) (rec_ : List Byte) (lanes : List (Nat × List W32)) (co : List W32) (t : State)
      (pas : List Nat) (wp : Warp), kvGet s.cmds cmd = some c → c.op = .filter grid rec_ dst lanes → c.phase = .started → lane < 64 →
    lanes.find? (fun e => e.1 == lane) = some (lane, co) →
    let ctx := (kvD s.crews c.crew {}).ctx
    filtTouch ctx (quinceStack s ctx c.core (filtReads grid rec_ co)) (filtUnit grid rec_) (filtReads grid rec_ co) 0 s [] = .ok t pas →
    getWarp t c.crew c.warp = some wp →
    let r := filtResult grid rec_ (Profile.ofByte (getLaunch s (kvD s.crews c.crew {}).launch).kernel.prof).flush co
      (pas.map fun pa => quinceRead t pa (filtUnit grid rec_))
    ∃ u b d, exec (.filterRequestEnd cmd lane) s = .next u ∧ getWarp u c.crew c.warp = some b ∧ u.mem = t.mem ∧
      (∀ j v, r.1[j]? = some v → b.regs.main (dst + j) lane = BitVec.ofNat 32 v ∧ 64 * (dst + j) + lane ∉ b.regs.vempty) ∧
      kvGet u.cmds cmd = some d ∧ d.blocks = c.blocks + pas.length ∧
      (d.phase = .accessed ↔ lanes.filter (fun e => e.1 != lane) = []))

/-- R330-R333, R371: a sample's result is written to the visibility buffer and its record freed; a tile is emitted when all its samples are
written, each of its items with an index of its own, its payload and its tag word; a view whose four units have emitted every tile closes its
item queue where it is to, and completes its command; a stopped one does nothing more. -/
def Obligations.ViewResults : Prop := ∀ (s : State) (k vk : Nat) (v : View),
  (∀ ray o ws, kvGet s.rayMsgs k = some (.result ray o ws) → 0xFFFC ≤ tagSlot o →
    let gone (t : State) : State := { t with rayMsgs := kvDel t.rayMsgs k }
    let done (t : State) (z : View) : State :=
      settleContext (settleView (setView (freePool (gone t) (ray / 2 ^ 28) (ray % 2 ^ 28)) vk { z with rays := kvDel z.rays ray }) vk) z.ctx
    (s.views.find? (fun e => (kvGet e.2.rays ray).isSome) = none → exec (.viewSampleDelivery k) s = .next (gone s)) ∧
    ∀ u n i p, s.views.find? (fun e => (kvGet e.2.rays ray).isSome) = some (vk, v) → kvGet v.rays ray = some (u, n, i) →
      v.sample u n i = some p →
      (∀ t z, putVis s vk v u n p ws = .ok t → kvGet t.views vk = some z →
        exec (.viewSampleDelivery k) s = .next (done t z) ∧ (done t z).mem = t.mem ∧ (done t z).rayMsgs = kvDel t.rayMsgs k) ∧
      (∀ t, putVis s vk v u n p ws = .wait t → exec (.viewSampleDelivery k) s = .next t)) ∧
  (∀ u n p ws,
    let at_ := recField v.record 72 8 + 16 * ((p.2.1 * v.width + p.1) * v.spp + p.2.2)
    (v.stopped = true → putVis s k v u n p ws = .ok s) ∧
    (∀ c w a, v.stopped = false → agentTouch s none v.ctx permWrite 0 at_ 16 = .fault c w a →
      putVis s k v u n p ws = .ok (stopView s k v u c a)) ∧
    (∀ q pas, v.stopped = false → agentTouch s none v.ctx permWrite 0 at_ 16 = .ok q pas →
      ∃ t, putVis s k v u n p ws = .ok t ∧ t.mem = (putBytes q pas (leBytes 4 (ws.getD 1 0).toNat ++ leBytes 4 (ws.getD 2 0).toNat ++
        leBytes 4 (ws.getD 0 0).toNat ++ leBytes 4 (ws.getD 3 0).toNat)).mem)) ∧
  (∀ u, kvGet s.views vk = some v → u < 4 →
    (v.tileItems u (v.unit u).emit = none ∨ v.stopped = true ∨ viewsRun s v.ctx = false → exec (.tileEmission vk u) s = .next s) ∧
    (∀ items, v.stopped = false → viewsRun s v.ctx = true → (v.unit u).emit < v.tilesOf u → (v.unit u).emit < (v.unit u).gen →
      v.tileItems u (v.unit u).emit = some items →
      exec (.tileEmission vk u) s = .next (appendItems vk u (items.drop (v.unit u).items) s))) ∧
  (∀ u it rest, kvGet s.views vk = some v → let x := v.unit u
    let out : ViewUnit := { x with emit := x.emit + 1, items := 0, hold := false, written := kvDel x.written x.emit }
    (appendItems vk u [] s = setView s vk { v.setUnit u out with emitted := v.emitted + 1 }) ∧
    (∀ t, appendItem s v.ctx (recField v.record 80 4) x.resv it = .done t →
      appendItems vk u (it :: rest) s = appendItems vk u rest (setView t vk
        (v.setUnit u { x with resv := none, items := x.items + 1, hold := false }))) ∧
    (∀ t c a, appendItem s v.ctx (recField v.record 80 4) x.resv it = .fault t c a →
      appendItems vk u (it :: rest) s = stopView t vk v u c a) ∧
    (∀ t r full, appendItem s v.ctx (recField v.record 80 4) x.resv it = .wait t r full →
      appendItems vk u (it :: rest) s = setView t vk (v.setUnit u { x with resv := r, hold := full }))) ∧
  (∀ ctx iq hva it t pas, kvGet (getCtx s ctx).iq iq = some hva → headerTouch s ctx permAtomic hva 24 8 = .ok t pas →
    appendItem s ctx iq none it = appendAt (putBytes t pas (leBytes 8 (headerWord t pas + 1))) ctx hva (headerWord t pas) it) ∧
  (∀ ctx hva i it t hp, headerTouch s ctx permRead hva 0 64 = .ok t hp →
    let h := queueHeader (hp.map fun pa => homeByte t pa)
    let n := 2 ^ h.logn
    (h.head + n ≤ i → appendAt s ctx hva i it = .wait t (some i) true) ∧
    ∀ q pp z tp, i < h.head + n → agentTouch t none ctx permWrite 0 (h.ringva + 32 * (i % n)) 32 = .ok q pp →
      agentTouch (putBytes q pp ((it.2.map fun w => leBytes 4 w.toNat).flatten)) none ctx permWrite 0 (h.tagva + 8 * (i % n)) 8 = .ok z tp →
      appendAt s ctx hva i it = .done (putBytes z tp (leBytes 8 (it.1 % 2 ^ 40 + 2 ^ 40 * lapOf i n)))) ∧
  (kvGet s.views vk = some v →
    let ends (t : State) : State := completeStarted { t with views := kvDel t.views vk } v.queue (v.index, .view vk) v.tag v.note
    (v.stopped = true ∨ v.rays ≠ [] ∨ (∃ u, u < 4 ∧ (v.unit u).emit ≠ v.tilesOf u) → exec (.viewComplete vk) s = .next s) ∧
    (v.stopped = false → v.rays = [] → (∀ u, u < 4 → (v.unit u).emit = v.tilesOf u) →
      (v.flag 2 = false → exec (.viewComplete vk) s = .next (ends s)) ∧
      (v.flag 2 = true → ∀ hva t rp, kvGet (getCtx s v.ctx).iq (recField v.record 80 4) = some hva →
        headerTouch s v.ctx permRead hva 24 8 = .ok t rp →
        (∀ q cp, agentTouch t none v.ctx permWrite 0 (hva + 32) 8 = .ok q cp →
          exec (.viewComplete vk) s = .next (ends (putBytes q cp (leBytes 8 (headerWord q rp))))) ∧
        ∀ c w a, agentTouch t none v.ctx permWrite 0 (hva + 32) 8 = .fault c w a →
          exec (.viewComplete vk) s = .next (stopView s vk v 0 c a))))

/-! ### Remote commands -/

/-- R472, R473: in a launch that is not versioned, PUTN, GETN and SIGNAL enter a command for the device, address and scratch of their
blocks; a bad handle, a record of another kind and fields that are not admitted trap first. COLL traps in a versioned launch and on a set or
count that is not admitted, and else enters a command over its buffer. -/
def Obligations.RemoteCommandsEnter : Prop := ∀ (w : Enc) (s : State) (x : Site),
  let sc (k : Nat) : Nat := scalarValue x.wp (w.c.idx.toNat + k) false
  let enters (o : Host.Outcome State Fault Refusal) (kind : Nat) : Prop :=
    (handleSlot s x.cr.ctx (sA x w) = none → Traps o s x { code := 0x0C, tx := 1, mask := x.act }) ∧
    (∀ slot r, handleSlot s x.cr.ctx (sA x w) = some (slot, r) →
      let t := tensorOf r.data
      let ctl := copyControl (sc 3)
      let sl := if kind = 2 then 0 else uB s x w
      (recField r.data 0 1 ≠ 1 → Traps o s x { code := 0x0C, tx := 2, mask := x.act }) ∧
      (recField r.data 0 1 = 1 → remoteBad kind t r.data (sc 0) (sc 1) (sc 2) sl ctl = true →
        Traps o s x { code := 0x0C, tx := 3, mask := x.act }) ∧
      (recField r.data 0 1 = 1 → remoteBad kind t r.data (sc 0) (sc 1) (sc 2) sl ctl = false →
        (∀ k, ctl.arv = some k → (kvGet x.cr.bars k).isSome = true) → ∀ lo,
        (kind = 2 ∧ lo = 0 ∨ kind ≠ 2 ∧ ownScratch x sl (sc 2) = .ok lo) → (getLaunch s x.cr.launch).vers = false →
        ∃ c j, c.cls = 2 ∧ c.scope = 4 ∧ c.arv = ctl.arv ∧ c.op = .remote j ∧ j.kind = kind ∧ j.dev = sc 0 ∧ j.lo = lo ∧
          j.va = t.base + (if kind = 2 then 8 * sc 1 else sc 1) ∧ j.len = (if kind = 2 then 8 else sc 2) ∧
          (kind = 0 → c.reads = [Region.bytes x.ref.crew lo (lo + sc 2)]) ∧ (kind = 1 → c.writes = [Region.bytes x.ref.crew lo (lo + sc 2)]) ∧
          (kind = 2 → j.value = rawValue s x .n64 true w.b 0 ∧ j.add = (sc 2 == 1)) ∧
          (commandWaits s x c = true → Waits o s x) ∧
          (commandWaits s x c = false → o = .next (setWarp (if kind = 1 then (enterCommand x s c).2.1
            else countOut (enterCommand x s c).2.1 x.cr.launch x.ref.core (if kind = 2 then 2 else 1) true) x.ref.crew x.ref.warp
            ((enterCommand x s c).1.advance w)))))
  (Issues (.putn w) w s x → x.act ≠ 0 → enters (exec (.putn w) s) 0) ∧
  (Issues (.getn w) w s x → x.act ≠ 0 → enters (exec (.getn w) s) 1) ∧
  (Issues (.signal w) w s x → x.act ≠ 0 → enters (exec (.signal w) s) 2) ∧
  (Issues (.coll w) w s x → x.act ≠ 0 →
    ((getLaunch s x.cr.launch).vers = true → Traps (exec (.coll w) s) s x { code := 0x0A, tx := 4, mask := x.act }) ∧
    ((getLaunch s x.cr.launch).vers = false →
      let set := rawValue s x .n32 false w.a 0
      let kind := w.sub.toNat
      let count := sc 0
      let ctl := copyControl (sc 1)
      let ms := collMembers s x.cr.ctx set
      (15 < set ∨ ms = [] ∨ collRank s ms = none ∨ count = 0 ∨ 262144 < count →
        Traps (exec (.coll w) s) s x { code := 0x0C, tx := 3, mask := x.act }) ∧
      (set ≤ 15 → ms ≠ [] → collRank s ms ≠ none → 0 < count → count ≤ 262144 →
        (kind = 3 ∨ kind = 4 ∨ kind = 6 → count % ms.length = 0) → ctl.plain = true →
        (∀ k, ctl.arv = some k → (kvGet x.cr.bars k).isSome = true) → ∀ lo, ownScratch x (uB s x w) (4 * count) = .ok lo →
        ∃ c, c.cls = 2 ∧ c.arv = ctl.arv ∧ c.op = .coll kind w.ty set lo count none ∧
          c.reads = [Region.bytes x.ref.crew lo (lo + 4 * count)] ∧ c.writes = [Region.bytes x.ref.crew lo (lo + 4 * count)] ∧
          EntersCommand (exec (.coll w) s) w s x c)))

/-! ### Floating point -/

/-- R117, R120-R132, R134-R136: each floating-point instruction gives D, in the active lanes, the value of its function on the elements read
under the launch's profile, and raises that value's flags; FCMP writes a predicate, FLGCLR clears flags, and WELF and WMRG write the three
registers of a triple; nothing else changes. -/
def Obligations.FloatResults : Prop :=
  (∀ (w : Enc) (s : State) (x : Site),
  let a := tA s x w
  let b := tB s x w
  let gives (i : Instr) (val : Nat → Nat × FFlags) : Prop :=
    WellFormed i = true → Issues i w s x → GivesF (exec i s) w s x (Ty.wide w.ty) val
  gives (.fadd w) (fun l => faddV x.prof w.ty w.sub.toNat (dMod w) (a l) (b l)) ∧
  gives (.fsub w) (fun l => fsubV x.prof w.ty w.sub.toNat (dMod w) (a l) (b l)) ∧
  gives (.fmul w) (fun l => fmulV x.prof w.ty w.sub.toNat (dMod w) (a l) (b l)) ∧
  gives (.ffma w) (fun l => ffmaV x.prof w.ty w.sub.toNat (dMod w) (a l) (b l) (tC s x w l)) ∧
  gives (.fdot2 w) (fun l => fdot2V x.prof w.ty w.sub.toNat (dMod w) (a l) (b l) (srcC s x .f32 w l)) ∧
  gives (.fscale w) (fun l => fscaleV x.prof w.ty w.sub.toNat (dMod w) (a l) (srcB s x .s32 w l)) ∧
  gives (.fmin w) (fun l => fminmaxV x.prof w.ty false w.sub.toNat (dMod w) (a l) (b l)) ∧
  gives (.fmax w) (fun l => fminmaxV x.prof w.ty true w.sub.toNat (dMod w) (a l) (b l)) ∧
  gives (.fclass w) (fun l => (fclassE (Ty.fmt w.ty) (a l), .none)) ∧
  gives (.frnd w) (fun l => frndV x.prof w.ty w.sub.toNat (dMod w) (a l)) ∧
  gives (.fcvt w) (fun l => fcvtV x.prof w.ty w.sub.toNat (dMod w) (srcValue s x (fcvtSource w) w.a l)
    (if w.ty = .f16x2 ∨ w.ty = .bf16x2 then srcB s x .f32 w l else 0)) ∧
  gives (.f2i w) (fun l => f2iV x.prof w.ty w.sub.toNat (srcValue s x (if 8 ≤ w.sub.toNat then .f16 else .f32) w.a l)) ∧
  (WellFormed (.i2f w) = true → Issues (.i2f w) w s x → GivesF (exec (.i2f w) s) w s x false
    (fun l => i2fV x.prof w.ty w.sub.toNat (dMod w) (a l))) ∧
  gives (.fdiv w) (fun l => fdivV x.prof w.ty w.sub.toNat (dMod w) (a l) (b l)) ∧
  gives (.fsqrt w) (fun l => fsqrtV x.prof w.ty w.sub.toNat (dMod w) (a l)) ∧
  gives (.frcp w) (fun l => fspecV frcpE x.prof w.ty (dMod w) (a l)) ∧
  gives (.frsq w) (fun l => fspecV frsqE x.prof w.ty (dMod w) (a l)) ∧
  gives (.exp2 w) (fun l => fspecV exp2E x.prof w.ty (dMod w) (a l)) ∧
  gives (.log2 w) (fun l => fspecV log2E x.prof w.ty (dMod w) (a l)) ∧
  gives (.sinpi w) (fun l => fspecV sinpiE x.prof w.ty (dMod w) (a l)) ∧
  gives (.cospi w) (fun l => fspecV cospiE x.prof w.ty (dMod w) (a l))) ∧
  (∀ (w : Enc) (s : State) (x : Site),
  let m (k l : Nat) : Nat := mainValue x.wp k l false
  let triple (o : Host.Outcome State Fault Refusal) (val : Nat → (Nat × Nat × Nat) × FFlags) : Prop :=
    ∃ b, o = .next (setWarp s x.ref.crew x.ref.warp b) ∧ KeepsWarp x.wp b ∧ GoesOn w x b ∧
      MainWritten x.wp.regs b.regs w.d.idx.toNat 3 x.act (fun l =>
        (val l).1.1 % 2 ^ 32 + 2 ^ 32 * ((val l).1.2.1 % 2 ^ 32) + 2 ^ 64 * ((val l).1.2.2 % 2 ^ 32)) ∧
      ScalarKept x.wp.regs b.regs ∧ PredKept x.wp.regs b.regs ∧ FlagsRaised x b fun l => (val l).2
  (WellFormed (.fcmp w) = true → Issues (.fcmp w) w s x → ∃ b, exec (.fcmp w) s = .next (setWarp s x.ref.crew x.ref.warp b) ∧
    KeepsWarp x.wp b ∧ GoesOn w x b ∧ MainKept x.wp.regs b.regs ∧ ScalarKept x.wp.regs b.regs ∧
    let r (l : Nat) : Bool × FFlags := fcmpE x.prof (Ty.fmt w.ty) (w.sub.toNat % 8) (w.sub.getLsbD 3) (tA s x w l) (tB s x w l)
    (PredWritten x b w.d fun l => (r l).1) ∧ FlagsRaised x b fun l => (r l).2) ∧
  (WellFormed (.flgclr w) = true → Issues (.flgclr w) w s x → ∃ b, exec (.flgclr w) s = .next (setWarp s x.ref.crew x.ref.warp b) ∧
    KeepsWarp x.wp b ∧ GoesOn w x b ∧ MainKept x.wp.regs b.regs ∧ ScalarKept x.wp.regs b.regs ∧ PredKept x.wp.regs b.regs ∧
    let k := (Operand.bits w.e).toNat
    ∀ l, l < 64 →
      b.regs.fnv.getLsbD l = (x.wp.regs.fnv.getLsbD l && !(k.testBit 0 && x.act.getLsbD l)) ∧
      b.regs.fdz.getLsbD l = (x.wp.regs.fdz.getLsbD l && !(k.testBit 1 && x.act.getLsbD l)) ∧
      b.regs.fof.getLsbD l = (x.wp.regs.fof.getLsbD l && !(k.testBit 2 && x.act.getLsbD l)) ∧
      b.regs.fuf.getLsbD l = (x.wp.regs.fuf.getLsbD l && !(k.testBit 3 && x.act.getLsbD l)) ∧
      b.regs.fnx.getLsbD l = (x.wp.regs.fnx.getLsbD l && !(k.testBit 4 && x.act.getLsbD l))) ∧
  (WellFormed (.welf w) = true → Issues (.welf w) w s x → w.d.idx.toNat + 2 < 512 → triple (exec (.welf w) s) fun l =>
    welfV x.prof (m w.a.idx.toNat l) (m (w.a.idx.toNat + 1) l) (m (w.a.idx.toNat + 2) l) (srcB s x .f32 w l)) ∧
  (WellFormed (.wmrg w) = true → Issues (.wmrg w) w s x → w.d.idx.toNat + 2 < 512 → triple (exec (.wmrg w) s) fun l =>
    wmrgV x.prof (m w.a.idx.toNat l) (m (w.a.idx.toNat + 1) l) (m (w.a.idx.toNat + 2) l)
      (m w.b.idx.toNat l) (m (w.b.idx.toNat + 1) l) (m (w.b.idx.toNat + 2) l)))

/-- R36, R121-R123, R131: on finite operands, with denormals preserved, a nonzero exact sum, product, fused sum, scaled value, quotient or root
is delivered rounded once, with f.nx where it is inexact. -/
def Obligations.FloatRounding : Prop := ∀ (p : Profile) (f : Fmt) (mode : RMode) (a b c : Nat) (x y z : Rat),
  f = fmt32 ∨ f = fmt16 ∨ f = fmtB16 → p.flush = false → a < 2 ^ f.bits → b < 2 ^ f.bits → c < 2 ^ f.bits →
  finValue f a = some x → finValue f b = some y → finValue f c = some z →
  let rounded (q : ℝ) (r : Nat × FFlags) : Prop := q ≠ 0 → RoundOf f mode q r.1 ∧ r.2.nv = false ∧ r.2.dz = false ∧
    (r.2.nx = true ↔ ∀ v, finValue f r.1 = some v → (v : ℝ) ≠ q)
  rounded (x + y : Rat) (faddE p f mode a b) ∧ rounded (x - y : Rat) (fsubE p f mode a b) ∧
  rounded (x * y : Rat) (fmulE p f mode a b) ∧ rounded (x * y + z : Rat) (ffmaE p f mode a b c) ∧
  (∀ k : Int, rounded (x * 2 ^ k : Rat) (fscaleE p f mode a k)) ∧
  (y ≠ 0 → rounded (x / y : Rat) (fdivE p f mode a b)) ∧ (0 < x → rounded (Real.sqrt x) (fsqrtE p f mode a))

/-- R36, R41, R121, R124-R126, R129, R131, R133: the results that are not a rounding: invalid operations, the sign of a zero sum, minimum and
maximum, comparison, classes, and the special functions at their special values. -/
def Obligations.FloatSpecialValues : Prop := ∀ (p : Profile) (f : Fmt) (mode : RMode) (a b : Nat),
  f = fmt32 ∨ f = fmt16 ∨ f = fmtB16 → a < 2 ^ f.bits → b < 2 ^ f.bits →
  let inf := f.infBits
  let minus (v : Nat) : Nat := f.signBit + v
  let one := f.bias.toNat * 2 ^ f.fb
  (faddE p f mode inf (minus inf) = (f.canonNaN, .invalid) ∧ fsubE p f mode inf inf = (f.canonNaN, .invalid) ∧
    fmulE p f mode 0 inf = (f.canonNaN, .invalid) ∧ fdivE p f mode 0 0 = (f.canonNaN, .invalid) ∧
    fdivE p f mode inf inf = (f.canonNaN, .invalid)) ∧
  (finValue f a = finValue f b → p.flush = false → (finValue f a).isSome = true → finValue f a ≠ some 0 →
    fsubE p f mode a b = (if mode = .rd then f.signBit else 0, .none)) ∧
  (faddE p f mode f.signBit f.signBit = (f.signBit, .none) ∧ fsubE p f mode f.signBit 0 = (f.signBit, .none) ∧
    faddE p f mode 0 f.signBit = (if mode = .rd then f.signBit else 0, .none)) ∧
  (∀ x, finValue f a = some x → x ≠ 0 → p.flush = false →
    fdivE p f mode a 0 = (if x < 0 then minus inf else inf, .divZero) ∧
    (x < 0 → fsqrtE p f mode a = (f.canonNaN, .invalid) ∧ frsqE p f a = (f.canonNaN, .invalid) ∧ log2E p f a = (f.canonNaN, .invalid))) ∧
  (∀ x y, finValue f a = some x → finValue f b = some y → p.flush = false →
    (fminmaxE p f false true a b).1 = (if x < y ∨ (x = y ∧ f.signBit ≤ a) then a else b) ∧
    (fminmaxE p f true true a b).1 = (if y < x ∨ (x = y ∧ f.signBit ≤ b) then a else b) ∧
    (fcmpE p f 0 false a b).1 = decide (x = y) ∧ (fcmpE p f 1 false a b).1 = decide (x ≠ y) ∧
    (fcmpE p f 2 false a b).1 = decide (x < y) ∧ (fcmpE p f 3 false a b).1 = decide (x ≤ y) ∧
    (fcmpE p f 4 false a b).1 = decide (x > y) ∧ (fcmpE p f 5 false a b).1 = decide (x ≥ y) ∧
    (fcmpE p f 6 false a b).1 = true ∧ (fcmpE p f 7 false a b).1 = false) ∧
  ((decodeF f a).isNaN = true → (decodeF f b).isNaN = false → p.flush = false →
    fminmaxE p f false true a b = (b, if isSignalling f a then .invalid else .none) ∧
    fminmaxE p f false false a b = (nanResult p f [decodeF f a], if isSignalling f a then .invalid else .none) ∧
    ∀ cc sig, fcmpE p f cc sig a b = (cc == 1 || cc == 7, if isSignalling f a || sig then .invalid else .none)) ∧
  (∃ k, k < 10 ∧ fclassE f a = 2 ^ k) ∧
  (∀ e, (decodeF f a).isNaN = true → f2iE p f e mode a = (0, .invalid)) ∧
  (frcpE p f 0 = (inf, .divZero) ∧ frcpE p f f.signBit = (minus inf, .divZero) ∧ frcpE p f inf = (0, .none) ∧
    frcpE p f (minus inf) = (f.signBit, .none) ∧ frcpE p f one = (one, .none)) ∧
  (frsqE p f 0 = (inf, .divZero) ∧ frsqE p f f.signBit = (minus inf, .divZero) ∧ frsqE p f inf = (0, .none) ∧
    frsqE p f (minus inf) = (f.canonNaN, .invalid) ∧ frsqE p f one = (one, .none)) ∧
  (exp2E p f 0 = (one, .none) ∧ exp2E p f f.signBit = (one, .none) ∧ exp2E p f inf = (inf, .none) ∧ exp2E p f (minus inf) = (0, .none) ∧
    exp2E p f one = (one + 2 ^ f.fb, .none)) ∧
  (log2E p f 0 = (minus inf, .divZero) ∧ log2E p f f.signBit = (minus inf, .divZero) ∧ log2E p f inf = (inf, .none) ∧
    log2E p f (minus inf) = (f.canonNaN, .invalid) ∧ log2E p f one = (0, .none)) ∧
  (sinpiE p f 0 = (0, .none) ∧ sinpiE p f f.signBit = (f.signBit, .none) ∧ sinpiE p f inf = (f.canonNaN, .invalid) ∧
    sinpiE p f one = (0, .none) ∧ cospiE p f 0 = (one, .none) ∧ cospiE p f f.signBit = (one, .none) ∧
    cospiE p f inf = (f.canonNaN, .invalid) ∧ cospiE p f one = (minus one, .none))

/-! ### Register counts, system registers and ranges -/

/-- R153-R156: GROW and SHRINK change the register count of the warp, new registers zero and full, or trap with the reason; a GROW that finds no
room waits in order, is granted when the partition has the registers, and fails with reason 5 when a stalled core cannot be freed. -/
def Obligations.RegisterCountResults : Prop := ∀ (w : Enc) (s : State) (x : Site),
  let n := uB s x w
  let traps (o : Host.Outcome State Fault Refusal) (r : Nat) : Prop :=
    Traps o s x { code := 0x16, tx := BitVec.ofNat 32 (r + 2 ^ 16 * (n % 2 ^ 16)), mask := x.act }
  let has (o : Host.Outcome State Fault Refusal) (wp : Warp) : Prop := ∃ b, o = .next (setWarp s x.ref.crew x.ref.warp b) ∧
    GoesOn w x b ∧ b.regs = wp.regs ∧ b.n = n ∧ KeepsWarp wp b
  (Issues (.grow w) w s x → x.act ≠ 0 → x.wp.grow = none →
    (n % 8 ≠ 0 ∨ n = 0 → traps (exec (.grow w) s) 1) ∧
    (n % 8 = 0 → 384 < n → traps (exec (.grow w) s) 2) ∧
    (n % 8 = 0 → 0 < n → n ≤ 384 → 65536 < n * x.width → traps (exec (.grow w) s) 3) ∧
    (n % 8 = 0 → 0 < n → n ≤ 384 → n * x.width ≤ 65536 → n < x.wp.n → traps (exec (.grow w) s) 4) ∧
    (n % 8 = 0 → 0 < n → n ≤ 384 → n * x.width ≤ 65536 → x.wp.n ≤ n →
      (n = x.wp.n → GoesOnTo (exec (.grow w) s) w x s) ∧
      (x.wp.n < n → growRequests s x.ref.core x.wp.part = [] → (n - x.wp.n) * x.width ≤ freeRegs s x.ref.core x.wp.part →
        has (exec (.grow w) s) (x.wp.grown n)) ∧
      (x.wp.n < n → (growRequests s x.ref.core x.wp.part ≠ [] ∨ freeRegs s x.ref.core x.wp.part < (n - x.wp.n) * x.width) → ∃ b,
        exec (.grow w) s = .next (setWarp s.newId.2 x.ref.crew x.ref.warp b) ∧ b.grow = some { n := n, order := s.newId.1 } ∧
        b.regs = x.wp.regs ∧ b.n = x.wp.n))) ∧
  (∀ g, Issues (.grow w) w s x → x.act ≠ 0 → x.wp.grow = some g →
    (g.failed = false → Waits (exec (.grow w) s) s x) ∧
    (g.failed = true → Traps (exec (.grow w) s) s { x with wp := { x.wp with grow := none } }
      { code := 0x16, tx := BitVec.ofNat 32 (5 + 2 ^ 16 * (n % 2 ^ 16)), mask := x.act })) ∧
  (Issues (.shrink w) w s x → x.act ≠ 0 →
    (n % 8 ≠ 0 ∨ n = 0 → traps (exec (.shrink w) s) 1) ∧
    (n % 8 = 0 → 0 < n → x.wp.n < n → traps (exec (.shrink w) s) 4) ∧
    (n % 8 = 0 → 0 < n → n ≤ x.wp.n →
      ((∃ k ∈ x.wp.regs.vempty, n ≤ k / 64) → Waits (exec (.shrink w) s) s x) ∧
      ((∀ k ∈ x.wp.regs.vempty, k / 64 < n) → has (exec (.shrink w) s) (x.wp.shrunk n)))) ∧
  (x.wp.regs.v.Pairwise (fun a b => a.1 < b.1) → ∀ r l, l < 64 →
    (x.wp.grown n).regs.main r l = (if r < x.wp.n then x.wp.regs.main r l else 0) ∧
    (64 * r + l ∈ (x.wp.grown n).regs.vempty ↔ r < x.wp.n ∧ 64 * r + l ∈ x.wp.regs.vempty) ∧
    (r < n → (x.wp.shrunk n).regs.main r l = x.wp.regs.main r l)) ∧
  (∀ core part k wk need o rest wp g, growRequests s core part = (k, wk, need, o) :: rest → getWarp s k wk = some wp → wp.grow = some g →
    (freeRegs s core part < need → exec (.growGrant core part) s = .next s) ∧
    (need ≤ freeRegs s core part → exec (.growGrant core part) s = .next (setWarp s k wk (wp.grown g.n)))) ∧
  (∀ core, ((getCore s core).regStallSince = none ∨ (∃ t, (getCore s core).regStallSince = some t ∧ s.now < t + 256) ∨
      regStalled s core = false) → exec (.registerStallResolution core) s = .next s) ∧
  (∀ core t k wk part need wp, (getCore s core).regStallSince = some t → t + 256 ≤ s.now → regStalled s core = true →
    oldestGrow s core = some (k, wk, part, need) → (∀ e ∈ crewsOn s core, e.1 = k) → freeRegs s core part < need →
    getWarp s k wk = some wp → ∃ u, exec (.registerStallResolution core) s = .next (setWarp u k wk { wp with
      grow := wp.grow.map fun g => { g with failed := true } }) ∧ u = setCore s core { getCore s core with regStallSince := none })

/-- R379, R452, R458-R460, R468, R481: SYSRD leaves its scalar empty until its register has been read, SYSWR writes one, a number that names none reading as zero and a
read-only one keeping its value; CLK reads a clock; COMMIT publishes the versions of the active lanes of a versioned launch. -/
def Obligations.SystemRegisterResults : Prop := ∀ (w : Enc) (s : State) (x : Site),
  let reads (o : Host.Outcome State Fault Refusal) (n v : Nat) : Prop := ∃ b, o = .next (setWarp s x.ref.crew x.ref.warp b) ∧
    KeepsWarp x.wp b ∧ GoesOn w x b ∧ MainKept x.wp.regs b.regs ∧ PredKept x.wp.regs b.regs ∧ FlagsKept x.wp.regs b.regs ∧
    ScalarWritten x.wp.regs b.regs w.d.idx.toNat n v
  (Issues (.sysrd w) w s x → (x.act = 0 → GoesOnTo (exec (.sysrd w) s) w x s) ∧ (x.act ≠ 0 → ∃ b, exec (.sysrd w) s = .next (setWarp
      (setCore s x.ref.core { getCore s x.ref.core with sysReads := (getCore s x.ref.core).sysReads ++
        [{ crew := x.ref.crew, warp := x.ref.warp, num := uB s x w, reg := w.d.idx.toNat }] }) x.ref.crew x.ref.warp b) ∧
    KeepsWarp x.wp b ∧ GoesOn w x b ∧ b.regs = x.wp.regs.emptyScalar w.d.idx.toNat 1)) ∧
  (∀ core n q cr wp, (getCore s core).sysReads[n]? = some q → kvGet s.crews q.crew = some cr → getWarp s q.crew q.warp = some wp →
    let t := setCore s core { getCore s core with sysReads := (getCore s core).sysReads.eraseIdx n }
    let y : Site := { ref := ⟨core, q.crew, q.warp⟩, cr := cr, wp := wp, rn := {}, pa := {}, k := (getLaunch s cr.launch).kernel, act := 0 }
    sysReadMove s core n = setWarp t q.crew q.warp { wp with regs := wp.regs.putScalar q.reg (BitVec.ofNat 32 (readSys t y q.num)) }) ∧
  (Issues (.syswr w) w s x → x.act ≠ 0 → (x.wp.storeQ ≠ [] → Waits (exec (.syswr w) s) s x) ∧
    (x.wp.storeQ = [] → GoesOnTo (exec (.syswr w) s) w x
      (writeSys (releaseStep s x.ref.core 3) x (uB s x w) (BitVec.ofNat 32 (srcC s x .n32 w 0))))) ∧
  (Issues (.clk w) w s x → w.d.file = .scalar → x.act ≠ 0 →
    (uB s x w = 0 → reads (exec (.clk w) s) 2 ((s.now - (getCore s x.ref.core).clkBase) % 2 ^ 64)) ∧
    (uB s x w = 1 → reads (exec (.clk w) s) 2 (2 * s.now % 2 ^ 64))) ∧
  (∀ n, n < 16 → readSys s x n = (x.wp.record.getD n 0).toNat ∧ ∀ v, writeSys s x n v = s) ∧
  (readSys s x 0x20 = (getCtx s x.cr.ctx).errcnt.toNat ∧ readSys s x 0x200 = (getLaunch s x.cr.launch).commits.toNat ∧
    readSys s x 0x530 = s.service.chain.length ∧ ∀ n, 0x710 ≤ n → readSys s x n = 0 ∧ ∀ v, writeSys s x n v = s) ∧
  (∀ v, readSys (writeSys s x 0x501 v) x 0x501 = max 1000 (min 2200 v.toNat) ∧ readSys (writeSys s x 0x210 v) x 0x210 = v.toNat ∧
    ∀ k, k < 8 → readSys (writeSys s x (0x310 + k) v) x (0x310 + k) = v.toNat) ∧
  (Issues (.commit w) w s x →
    (x.act = 0 ∨ (getLaunch s x.cr.launch).vers = false → GoesOnTo (exec (.commit w) s) w x s) ∧
    (x.act ≠ 0 → (getLaunch s x.cr.launch).vers = true → versionBusy s x = true → Waits (exec (.commit w) s) s x) ∧
    (x.act ≠ 0 → (getLaunch s x.cr.launch).vers = true → ∀ t, versionWait s x = (t, false) → (getLaunch t x.cr.launch).vers = true →
      let r := x.publish t
      exec (.commit w) s = .next (setWarp r.2 x.ref.crew x.ref.warp (r.1.advance w)) ∧ r.1.wp.regs = x.wp.regs ∧
      (getLaunch r.2 x.cr.launch).commits = (getLaunch t x.cr.launch).commits + BitVec.ofNat 32 (maskCount x.act)))

/-- R415, R417-R425: a range instruction waits for the warp's stores, takes a release step and sends its request, leaving its scalar empty; the
oldest request that is over writes the scalar or ends its queue command, and a lock that the range unit took is free again; STEP adds to the context's step; a bound that is not aligned is
refused with status 1. -/
def Obligations.RangeInstructionResults : Prop := ∀ (w : Enc) (s : State) (x : Site),
  let sends (i : Instr) (code a b c : Nat) : Prop := Issues i w s x →
    (x.act = 0 → GoesOnTo (exec i s) w x s) ∧
    (x.act ≠ 0 → x.wp.storeQ ≠ [] → Waits (exec i s) s x) ∧
    (x.act ≠ 0 → x.wp.storeQ = [] →
      let n := (releaseStep s x.ref.core 3).newId
      let r : RangeReq := { id := n.1, ctx := x.cr.ctx, core := x.ref.core, code := code, a := a, b := b, c := c,
                            asker := .warp x.ref.crew x.ref.warp w.d.idx.toNat, sys := ctxSys (releaseStep s x.ref.core 3).newId.2 x.cr.ctx }
      ∃ wp, exec i s = .next (setWarp { n.2 with rangeReqs := n.2.rangeReqs ++ [r] } x.ref.crew x.ref.warp wp) ∧ KeepsWarp x.wp wp ∧
        GoesOn w x wp ∧ Emptied x.wp.regs wp.regs (.scalar w.d.idx.toNat false) x.act)
  (sends (.rsplit w) 1 (pairA x w) 0 0 ∧ sends (.rmerge w) 2 (pairA x w) 0 0 ∧ sends (.rinv w) 3 (pairA x w) (uB s x w) 0 ∧
    sends (.rhint w) 4 (pairA x w) (uB s x w) (srcC s x .n32 w 0) ∧ sends (.rmove w) 5 (pairA x w) (uB s x w) (pairC x w) ∧
    sends (.rcmpt w) 6 (pairA x w) (uB s x w) 0 ∧ sends (.rprobe w) 7 (pairA x w) (uB s x w) 0 ∧ sends (.step w) 8 (uB s x w) 0 0) ∧
  ∀ (r : RangeReq) (rest : List RangeReq), s.rangeReqs = r :: rest →
    (∀ k, k ≠ r.id → exec (.rangeOpComplete k) s = .next s) ∧
    (rangeTry s r = .wait → exec (.rangeOpComplete r.id) s = .next s) ∧
    (∀ t v crew warp sd wp, rangeTry s r = .done t v → r.asker = .warp crew warp sd → getWarp t crew warp = some wp → ∃ b,
      exec (.rangeOpComplete r.id) s = .next (setWarp (lockEnd { t with rangeReqs := rest } r) crew warp b) ∧
      ScalarWritten wp.regs b.regs sd 1 v.toNat ∧ MainKept wp.regs b.regs ∧ { b with regs := wp.regs } = wp) ∧
    (∀ t q tag note e, rangeTry s r = .done t 0 → r.asker = .queue q tag note →
      (getQueue t q).started.find? (fun e => e.2 == .range r.id) = some e →
      exec (.rangeOpComplete r.id) s = .next (completeStarted (lockEnd { t with rangeReqs := rest } r) q e tag note)) ∧
    (∀ t, r.begun = false ∨ (r.code ≠ 1 ∧ r.code ≠ 2 ∧ r.code ≠ 4) → lockEnd t r = t) ∧
    (r.code = 8 → ∃ t, rangeTry s r = .done t (((getCtx s r.ctx).step + BitVec.ofNat 16 r.a).setWidth 32) ∧
      (getCtx t r.ctx).step = (getCtx s r.ctx).step + BitVec.ofNat 16 r.a ∧ t.mem = s.mem ∧ t.crews = s.crews) ∧
    (r.code = 1 ∨ r.code = 2 → r.a % 65536 ≠ 0 → rangeTry s r = .done s 1) ∧
    (r.code = 2 → r.a = 0 → rangeTry s r = .done s 2) ∧
    (∀ y t, r.code = 1 → r.a % 65536 = 0 → r.a < 2 ^ 56 → look s r.ctx r.a = .found y → boundOk y.piece r.a = true → y.piece.base ≠ r.a →
      splitAt s r.ctx y r.a = some t → rangeTry s r = .done t 0) ∧
    (∀ y, r.code = 7 → r.a < 2 ^ 56 → walk s r.ctx r.a = .found y → r.b < 16 →
      rangeTry s r = .done s (BitVec.ofNat 32 (recField (pieceBytes y.piece) (4 * r.b) 4))) ∧
    (∀ y, r.code = 5 → r.begun = false → r.a < 2 ^ 56 → 3 ≤ r.b → look s r.ctx r.a = .found y →
      ∃ t, rangeBeginMove s = t ∧ t.rangeReqs = { r with begun := true, status := 9 } :: rest)

/-! ### Warps, bins and crews -/

/-- R141, R144, R159: RUN_START gives the lowest free slot of its partition to the warp that comes first, uses up the hints it was chosen by, and
sets the path running from its first instruction or from where it was stopped; a warp stalled for 512 cycles leaves its slot with its files. -/
def Obligations.RunStartResults : Prop := ∀ (s : State) (core part slot : Nat),
  let used := slotsInUse s core part
  ((slot ∈ used ∨ 3 ≤ slot ∨ (∃ k, k < slot ∧ k ∉ used)) → exec (.runStart core part slot) s = .next s) ∧
  (runners s core part = [] → exec (.runStart core part slot) s = .next s) ∧
  (∀ r wp c p, slot < 3 → slot ∉ used → (∀ k, k < slot → k ∈ used) → runners s core part = [r] → r.path ∈ wp.paths.map (·.1) →
    getWarp s r.ref.crew r.ref.warp = some wp → kvGet s.crews r.ref.crew = some c → kvGet wp.paths r.path = some p → ∃ b,
    exec (.runStart core part slot) s = .next (setWarp (setWarp s r.ref.crew r.ref.warp { wp with
      hintPh := false, hintYh := false, readySince := some (wp.readySince.getD s.now) }) r.ref.crew r.ref.warp b) ∧
    b.run = some { slot := slot, path := r.path, files := p.resume.getD {} } ∧ b.hintPh = false ∧ b.hintYh = false ∧
    b.resumeAt = none ∧ kvGet b.paths r.path = some { p with st := .running, resume := none } ∧
    (∀ k, k ≠ r.path → kvGet b.paths k = kvGet wp.paths k) ∧ b.regs = wp.regs ∧ b.live = wp.live) ∧
  (∀ a b : Runner, a.since + 256 > s.now → b.since + 256 > s.now → a.yields = b.yields → b.prio < a.prio → Runner.before s.now a b = true) ∧
  (∀ a b : Runner, a.since + 256 ≤ s.now → s.now < b.since + 256 → Runner.before s.now a b = true) ∧
  (∀ (wp : Warp) (k : Nat), wp.resumeAt = some k → wp.pathOrder = [k]) ∧
  (∀ dws r wp q, warpAt s dws = some r → getWarp s r.crew r.warp = some wp → wp.run = some q →
    (q.stalled = none ∨ (∃ t, q.stalled = some t ∧ s.now < t + 512) → exec (.stallEviction dws) s = .next s) ∧
    (∀ t, q.stalled = some t → t + 512 ≤ s.now → exec (.stallEviction dws) s = .next (setWarp s r.crew r.warp { wp with
      run := none, readySince := none, resumeAt := some q.path
      paths := kvMod wp.paths q.path fun p => { p with st := .ready, resume := some q.files } })))

/-- R146-R152, R173, R174, R375: a bin becomes drawable with age; a vacant warp draws a bin, its threads in lanes 0 upward; an idle one takes
items at its refill point, or traps where its map names a register at or above N (fatal, the model's choice: log entry 130); a vacant warp
with nothing left retires; a launch whose crews have all retired and whose source is drained completes. -/
def Obligations.BinAndRefillResults : Prop := ∀ s : State,
  (∀ core k b, kvGet (getCore s core).bins k = some b →
    let at_ := b.firstAt + (getLaunch s b.launch).kernel.binAge
    (b.drawableAt ≠ none ∨ s.now < at_ → exec (.binAged core k) s = .next s) ∧
    (b.drawableAt = none → at_ ≤ s.now → exec (.binAged core k) s = .next (setCore s core { getCore s core with
      bins := kvSet (getCore s core).bins k { b with aged := true, drawableAt := some at_ } }))) ∧
  (∀ dws r c wp, warpAt s dws = some r → kvGet s.crews r.crew = some c → getWarp s r.crew r.warp = some wp → c.phase = .resident →
    (wp.vacant = false → exec (.binDraw dws) s = .next s ∧ exec (.idleWarpRefill dws) s = .next s ∧ exec (.warpRetire dws) s = .next s) ∧
    (stopping s r.crew c = false → wp.vacant = true →
      (drawBin s c wp = none → exec (.binDraw dws) s = .next s) ∧
      (∀ k b, drawBin s c wp = some (k, b) → ∃ n,
        exec (.binDraw dws) s = .next (testLaunch (settleFilings (unarrive (setWarp (setCore s c.core { getCore s c.core with
          bins := kvDel (getCore s c.core).bins k }) r.crew r.warp (n.unarrive n.live)) r.crew r.warp n.live) c.core) c.core c.launch) ∧
        n = wp.drawn b ∧ n.run = none ∧ n.reformed = false ∧
        (b.threads.length ≤ 64 → (∀ l, l < 64 → (n.live.getLsbD l = true ↔ l < b.threads.length)) ∧
          (∃ p, n.paths = [(0, p)] ∧ p.pc = b.pc ∧ p.mask = n.live ∧ p.resume = none ∧
            ∀ l t q v, b.threads[l]? = some t → t.spill[q]? = some v → (l, q, v) ∈ p.rebuild) ∧
          ∀ l t, b.threads[l]? = some t → kvGet n.items l = some t.item ∧ n.regs.fnv.getLsbD l = t.fnv ∧ n.regs.fnx.getLsbD l = t.fnx ∧
            ∀ q v, q < b.n → t.regs[q]? = some v → n.regs.main (b.vb + q) l = v ∧ 64 * (b.vb + q) + l ∉ n.regs.vempty))) ∧
    (stopping s r.crew c = false → wp.idle = true → drawBin s c wp = none →
      let k := (getLaunch s c.launch).kernel
      let past : Bool := k.rmap.any fun e => decide (wp.n ≤ e.2)
      (past = false → exec (.idleWarpRefill dws) s = .next (fillWarp s r.crew r.warp (match wp.refillPc with
        | some pc => pc + 16
        | none => k.entryPc))) ∧
      (past = true → ∀ u i, nextItem s c.launch = (u, some i) → ∃ rec, exec (.idleWarpRefill dws) s =
        .next (faultContext (postRecord (askSave (setWarp s r.crew r.warp { wp with record := rec }) r.crew .fatal) c.ctx (fatalRecord rec)) c.ctx) ∧
        rec.getD 0 0 = 1 ∧ rec.getD 2 0 = BitVec.ofNat 32 (5 + 2 ^ 16 * wp.n)) ∧
      ((getLaunch s c.launch).itemQueue = none → (getLaunch s c.launch).items ≤ (getLaunch s c.launch).nextItem →
        exec (.idleWarpRefill dws) s = .next s)) ∧
    (mayRetire s c wp = true ↔ wp.vacant = true ∧ sourceDrained s (getLaunch s c.launch) = true ∧
      ∀ e ∈ (getCore s c.core).bins, e.2.launch ≠ c.launch) ∧
    (wp.vacant = true → ∀ d up, let u := touchSource s (getLaunch s c.launch)
      kvGet u.crews r.crew = some d → getWarp u r.crew r.warp = some up →
      (mayRetire u d up = false → exec (.warpRetire dws) s = .next u) ∧
      (mayRetire u d up = true → (∀ e ∈ up.eng, e.2.faults = []) → exec (.warpRetire dws) s = .next (retireCrew (testSync (setWarp u r.crew
        r.warp { up with retired := true, eng := kvMap up.eng fun _ (e : EngClass) => { e with faults := [] }, rays := [], loads := [],
                         grow := none, reformed := false }) r.crew) r.crew)))) ∧
  (∀ id l, kvGet s.launches id = some l → let u := touchSource s l
    (l.itemQueue = none → u = s) ∧
    (launchOver u id l = false → exec (.launchComplete id) s = .next u) ∧
    (∀ e, launchOver u id l = true → (getQueue u l.queue).started.find? (fun e => e.2 == .launch id) = some e →
      exec (.launchComplete id) s = .next (settleContext (completeStarted { u with
        launches := kvDel u.launches id, crews := kvFilter u.crews fun _ c => c.launch != id } l.queue e l.tag l.note) l.ctx)) ∧
    (launchOver u id l = true → sourceDrained u l = true ∧ (∀ e ∈ u.crews, e.2.launch = id → e.2.phase = .retired) ∧
      ∀ e ∈ l.outS ++ l.outP ++ l.outG, e.2 = 0))

/-- R348-R353, R374, R384: what asks crews to leave their cores, the save of a crew at rest, and the placement or restore of the waiter that
goes first where there is room. -/
def Obligations.CrewMoveResults : Prop := ∀ s : State,
  (∀ (c : Crew) (why : SaveWhy), c.phase = .resident → (c.ask why).saveWhy = match c.saveWhy with
    | none => some why
    | some v => if v.waits && !why.waits then some why else some v) ∧
  (∀ k c t, kvGet s.crews k = some c → c.ydl = some t →
    (s.now < t ∨ c.saveWhy ≠ none ∨ c.halted = true ∨ c.phase ≠ .resident → exec (.yieldDeadlineExpiry k) s = .next s) ∧
    (t ≤ s.now → c.saveWhy = none → c.halted = false → c.phase = .resident →
      exec (.yieldDeadlineExpiry k) s = .next (modCrew s k fun c => { c with ydlExpired := true, saveWhy := some .slice }))) ∧
  (∀ k c, kvGet s.crews k = some c → ∃ t d, exec (.npregBudgetExpiry k) s = .next t ∧ kvGet t.crews k = some d ∧
    d = { c with npreg := c.npreg.filter fun b => decide (s.now < b) } ∧ ∀ n, n ≠ k → kvGet t.crews n = kvGet s.crews n) ∧
  (∀ hot : HotPlace, ∃ t, exec (.thermalMigration hot) s = .next t ∧ { t with crews := s.crews } = s ∧
    ∀ k, kvGet t.crews k = (kvGet s.crews k).map fun c =>
      if c.phase = .resident ∧ (match hot with | .core n => c.core == n | .quad n => c.core / 4 == n) = true then
        { c.ask .migration with barred := match hot with | .core n => [n] | .quad n => (List.range 4).map fun q => 4 * n + q }
      else c) ∧
  (∀ core ctx, (kvGet (getCore s core).sliceSince ctx = none ∨
      (∃ t, kvGet (getCore s core).sliceSince ctx = some t ∧ s.now < t + descField s ctx 28 4)) → exec (.sliceExpiry core ctx) s = .next s) ∧
  (∀ core ctx t,
    let mine := (youngest s core).filter fun e => e.2.ctx == ctx && e.2.phase == .resident
    let leaving := (mine.filter fun e => e.2.ydl.isSome || e.2.saveWhy.isSome).map (·.1)
    let free := (mine.filter fun e => !(e.2.ydl.isSome || e.2.saveWhy.isSome)).map (·.1)
    let others := (waiters s).filter fun w => w.ctx != ctx && (roomFor (without s (withWindows s (leaving ++ free))) w core).isSome
    kvGet (getCore s core).sliceSince ctx = some t → t + descField s ctx 28 4 ≤ s.now →
    (others = [] → exec (.sliceExpiry core ctx) s = .next s) ∧
    ∀ w, pickMin Waiter.ahead others = some w →
      let v : State := setCore s core { getCore s core with
        sliceSince := kvDel (getCore s core).sliceSince ctx, incoming := some (ctx, w.ctx) }
      ∃ u, exec (.sliceExpiry core ctx) s = .next u ∧ getCore u core = getCore v core ∧ u.mem = s.mem ∧
        ∀ k c, kvGet s.crews k = some c → ∃ d, kvGet u.crews k = some d ∧
          (d = c ∨ (c.phase = .resident ∧ c.ydl = none ∧ c.saveWhy = none ∧ d = { c with ydl := some (s.now + descField s ctx 48 4) })) ∧
          (k ∈ sliceVictims v w core free leaving → k ∉ leaving → c.phase = .resident → c.ydl = none → c.saveWhy = none →
            d.ydl = some (s.now + descField s ctx 48 4))) ∧
  (∀ k c, kvGet s.crews k = some c → (saveReady s k c = false → exec (.crewSave k) s = .next s) ∧
    (saveReady s k c = true → exec (.crewSave k) s = .next (settleContext (saveCrew s k c) c.ctx)) ∧
    (imagePlace s c.ctx (imageBytes s c) = none → ∃ d, kvGet (saveCrew s k c).crews k = some d ∧ d.phase = .stopped) ∧
    (∀ at_, imagePlace s c.ctx (imageBytes s c) = some at_ →
      let pages := imagePages (descField s c.ctx 88 8 + at_) (imageBytes s c)
      (∀ u pas, touchSpan s none c.ctx permWrite (nearestStack c.core) pages = (.wait u, pas) → saveCrew s k c = u) ∧
      (∀ u x pas, touchSpan s none c.ctx permWrite (nearestStack c.core) pages = (.ok u x, pas) →
        (∀ e ∈ u.crews, ∀ wp ∈ e.2.warps, wp.2.filing = []) → ∃ d,
        kvGet (saveCrew s k c).crews k = some d ∧ d.phase = .saved ∧ d.imageAt = at_ ∧ d.scratch = c.scratch ∧ d.tiles = c.tiles ∧
        d.bars = c.bars ∧ (saveCrew s k c).mem = (writeImage (releaseStep u c.core 3) pas).mem ∧
        ∀ n wp, kvGet c.warps n = some wp → ∃ wp', kvGet d.warps n = some wp' ∧ wp'.regs = wp.regs ∧ wp'.run = none ∧
          wp'.grow = none ∧ wp'.live = wp.live))) ∧
  (∀ id, (waiters s).find? (fun w => !w.saved && w.launch == id) = none → exec (.crewPlacement id) s = .next s) ∧
  (∀ id w, (waiters s).find? (fun w => !w.saved && w.launch == id) = some w →
    (mayGo s w = false → exec (.crewPlacement id) s = .next s) ∧
    ((∀ core, core < 192 → roomFor s w core = none) → exec (.crewPlacement id) s = .next s) ∧
    (∀ core num b, mayGo s w = true → w.window = false → core < 192 → roomFor s w core = some [(num, core, b)] →
      (∀ n, n < 192 → n ≠ core → roomFor s w n = none) → ∃ t, exec (.crewPlacement id) s = .next t ∧ t.mem = (placeNew s id num core b).mem ∧
        t.crews = (placeNew s id num core b).crews)) ∧
  (∀ k core w ps, (waiters s).find? (fun w => w.saved && w.members.any fun m => m.2 == k) = some w →
    (mayGo s w = false ∨ roomFor s w core = none → exec (.crewRestore k core) s = .next s) ∧
    (mayGo s w = true → roomFor s w core = some ps → (∀ e ∈ ps, ∀ c, kvGet s.crews e.1 = some c → ∀ wp ∈ c.warps, wp.2.rays = []) →
      (∀ e ∈ ps, (kvGet s.crews e.1).isSome = true) →
      exec (.crewRestore k core) s = .next (ps.foldl (fun s p => restoreCrew s p.1 p.2.1 p.2.2) s)))

/-- R407, R410-R414, R423, R436: the end of a unit's move: data moved to another frame is found there byte for byte, an eviction and a recall take
their least times, nothing ends while the directory is locked, and a move that has waited too long for a frame is given up. -/
def Obligations.MoveResults : Prop := ∀ (s : State) (k : Nat),
  (kvGet s.moves k = none → exec (.moveComplete k) s = .next s ∧ exec (.frameWaitTimeout k) s = .next s) ∧
  (∀ m, kvGet s.moves k = some m → dirLocked s m.ctx = true ∨ (m.frame = none ∧ (m.kind = .place ∨ m.kind = .recall)) ∧
      (∃ x, walk s m.ctx m.vbase = .found x) → exec (.moveComplete k) s = .next s) ∧
  (∀ m x, kvGet s.moves k = some m → dirLocked s m.ctx = false → walk s m.ctx m.vbase = .found x →
    let p := x.piece
    let old := Piece.pa p p.base
    let n := p.lim - p.base
    (∀ dst, m.kind = .rmove dst →
      (accessIn s old (old + n) = true → exec (.moveComplete k) s = .next s) ∧
      (accessIn s old (old + n) = false → ∃ u, exec (.moveComplete k) s = .next (wakeMove u k none) ∧
        ∃ v, v.mem = cellsMove (flushExtent s old (old + n)).mem (flushExtent s old (old + n)).mem old dst n ∧
          u.mem = (setSlot v x { p.setRst resident with ofs := BitVec.ofNat 64 (dst + 2 ^ 64 - p.base) }).mem)) ∧
    (∀ ring, m.kind = .evict ring → s.now < m.since + 10066 * (n / 2097152) → exec (.moveComplete k) s = .next s) ∧
    (∀ f, m.kind = .recall → m.frame = some f → s.now < m.since + 2517 → exec (.moveComplete k) s = .next s) ∧
    (∀ f, m.kind = .recall → m.frame = some f → m.since + 2517 ≤ s.now → exec (.moveComplete k) s = .next (finishRecall s k m x f))) ∧
  (∀ (mem : List Host.Cell) (src dst n a : Nat), Memory.wf mem → cellGet (cellsMove mem mem src dst n) a =
    if dst ≤ a ∧ a < dst + n then cellGet mem (a - dst + src) else cellGet mem a) ∧
  (∀ m, kvGet s.moves k = some m →
    (m.frame ≠ none ∨ s.now < m.since + 2 ^ 20 ∨ dirLocked s m.ctx = true → exec (.frameWaitTimeout k) s = .next s) ∧
    (m.frame = none → m.since + 2 ^ 20 ≤ s.now → dirLocked s m.ctx = false → m.kind = .place →
      exec (.frameWaitTimeout k) s = .next (failTouches (wakeMove s k (some 2)) m.ctx m.vbase m.vlim)))

/-! ### Queues and contexts -/

/-- R354-R357, R369, R471: the operations of the host on queues, each answered with its status and reason; a doorbell sets the tail. -/
def Obligations.QueueOperationResults : Prop := ∀ (s : State) (tok : W32) (q ctx : Nat), HostHeard s →
  let x := getQueue s q
  (∀ va, let o := exec (.qsetup tok q ctx va) s
    let refused (t : State) (n : Nat) : Prop := HostMakes o 1 (answer t 6 2 n tok [])
    (4096 ≤ q → refused s 6) ∧ (q < 4096 → 64 ≤ ctx → refused s 7) ∧
    (q < 4096 → ctx < 64 → (getCtx s ctx).st = .free → refused s 1) ∧
    (∀ t b, q < 4096 → ctx < 64 → (getCtx s ctx).st ≠ .free → agentRead s ctx va 32 = .ok t b →
      (queueDescOk b = false → refused t 2) ∧ (queueDescOk b = true → recField b 4 4 ≠ ctx → refused t 3) ∧
      (queueDescOk b = true → recField b 4 4 = ctx → ctxLive t ctx = false → refused t 4) ∧
      (queueDescOk b = true → recField b 4 4 = ctx → ctxLive t ctx = true → (getQueue t q).st ≠ .disabled → refused t 5) ∧
      (queueDescOk b = true → recField b 4 4 = ctx → ctxLive t ctx = true → (getQueue t q).st = .disabled → HostMakes o 1
        (answer (setQueue t q { st := .idle, ctx := ctx, prio := recField b 8 4 % 8, logn := recField b 8 4 / 8 % 32,
                                ringva := recField b 16 8, headva := recField b 24 8 }) 6 0 0 tok [])))) ∧
  (q < 4096 →
    (x.st = .disabled ∨ ctxLive s x.ctx = false → HostMakes (exec (.qdisable tok q) s) 1 (answer s 7 1 0 tok [])) ∧
    (x.st ≠ .disabled → ctxLive s x.ctx = true →
      HostMakes (exec (.qdisable tok q) s) 1 (answer (setQueue s q { x with st := .disabled, dueFault := none }) 7 0 0 tok []))) ∧
  (∀ skip, q < 4096 →
    (x.st ≠ .faulted ∨ ctxLive s x.ctx = false → HostMakes (exec (.qresume tok q skip) s) 1 (answer s 8 1 0 tok [])) ∧
    (x.st = .faulted → ctxLive s x.ctx = true → (skip = false ∨ x.faultHere = false) →
      HostMakes (exec (.qresume tok q skip) s) 1 (answer (setQueue s q (Queue.settled { x with faultHere := false })) 8 0 0 tok [])) ∧
    (x.st = .faulted → ctxLive s x.ctx = true → skip = true → x.faultHere = true →
      HostMakes (exec (.qresume tok q skip) s) 1 (answer (writeStatus (setQueue s q
        (Queue.settled { x with head := x.head + 1, faultHere := false })) q) 8 0 0 tok []))) ∧
  (∀ tail, (4096 ≤ q ∨ x.st = .disabled → HostMakes (exec (.doorbell q tail) s) 1 s) ∧
    (q < 4096 → x.st = .idle → ctxLive s x.ctx = true →
      HostMakes (exec (.doorbell q tail) s) 1 (setQueue s q (Queue.settled { x with tail := tail })))) ∧
  (∀ iq va, (64 ≤ ctx → HostMakes (exec (.iqsetup tok ctx iq va) s) 1 (answer s 9 2 7 tok [])) ∧
    (ctx < 64 → 256 ≤ iq → HostMakes (exec (.iqsetup tok ctx iq va) s) 1 (answer s 9 2 4 tok [])) ∧
    (ctx < 64 → iq < 256 → iqInUse s ctx iq = true → HostMakes (exec (.iqsetup tok ctx iq va) s) 1 (answer s 9 2 1 tok [])) ∧
    (ctx < 64 → iq < 256 → iqInUse s ctx iq = false → va % 64 ≠ 0 →
      HostMakes (exec (.iqsetup tok ctx iq va) s) 1 (answer s 9 2 2 tok [])) ∧
    (∀ t pa u pb, ctx < 64 → iq < 256 → iqInUse s ctx iq = false → va % 64 = 0 → (getCtx s ctx).st ≠ .free →
      touch s none ctx permRead va 0 = .ok t pa → touch t none ctx permWrite va 0 = .ok u pb →
      HostMakes (exec (.iqsetup tok ctx iq va) s) 1
        (answer (setCtx u ctx { getCtx u ctx with iq := kvSet (getCtx u ctx).iq iq va }) 9 0 0 tok []))) ∧
  (∀ n, (Queue.settled { x with head := n }).st = if n = x.tail then .idle else if x.heldBack then .blocked else .active)

/-- R355, R358-R361, R374: what each queue command does when its processor serves it: it stays in flight, completes at once, or its queue faults;
head moves past a command that starts. -/
def Obligations.QueueCommandResults : Prop := ∀ (s t : State) (q kind : Nat) (c : List Byte),
  let x := getQueue s q
  let tag := cmdTag c
  startable s x = true → mayServe s q x = true → agentRead s x.ctx x.headVa 64 = .ok t c → (x.tail - x.head).toNat ≤ 2 ^ x.logn →
  let done (o : Host.Outcome State Fault Refusal) (u : State) : Prop :=
    o = .next (completeStarted (markStarted u q c .wait) q (x.head.toNat, .wait) tag (cmdNote c))
  let fails (o : Host.Outcome State Fault Refusal) (u : State) (reason sub : Nat) : Prop := o = .next (faultQueue u q reason sub tag true)
  let row (i : Instr) (n : Nat) : Prop :=
    (cmdBad c = true → fails (exec i s) t 1 0) ∧ (cmdBad c = false → cmdKind c ≠ n → exec i s = .next t) ∧
    (cmdBad c = false → cmdKind c = n → x.ordBlocked c = true → exec i s = .next (setQueue t q { x with st := .blocked }))
  (row (.launch q) 1 ∧ row (.view q) 2 ∧ row (.semwait q) 3 ∧ row (.semsignal q) 4 ∧ row (.rangeop q) 5 ∧ row (.queueFence q) 6) ∧
  (cmdBad c = false → x.ordBlocked c = false → cmdKind c = kind →
    let va := recField c 8 8
    (kind = 3 → (va % 8 ≠ 0 → fails (exec (.semwait q) s) t 7 8) ∧
      (∀ u b, va % 8 = 0 → agentRead t x.ctx va 8 = .ok u b →
        let holds := if recField c 24 1 = 0 then recField c 16 8 ≤ leNat b else leNat b = recField c 16 8
        (holds → done (exec (.semwait q) s) u) ∧ (¬holds → exec (.semwait q) s = .next (markStarted u q c .wait)))) ∧
    (kind = 4 → (va % 8 ≠ 0 → fails (exec (.semsignal q) s) t 7 8) ∧
      (∀ u pa, va % 8 = 0 → touch t none x.ctx permAtomic va 0 = .ok u pa → isPoisonTag (homeTag u pa) = false →
        done (exec (.semsignal q) s) (homePuts u pa (leBytes 8
          (if recField c 24 1 = 0 then recField c 16 8 else (homeNat u pa 8 + recField c 16 8) % 2 ^ 64))))) ∧
    (kind = 6 → (va = 0 → done (exec (.queueFence q) s) t) ∧
      (∀ u pa, va ≠ 0 → va % 8 = 0 → touch t none x.ctx permWrite va 0 = .ok u pa →
        done (exec (.queueFence q) s) (homePuts u pa (leBytes 8 (recField c 16 8))))) ∧
    (kind = 5 → (5 ≤ recField c 32 1 → ctxSys t x.ctx = false → fails (exec (.rangeop q) s) t 6 10) ∧
      (recField c 32 1 < 5 ∨ ctxSys t x.ctx = true → ∃ r : RangeReq, r.id = t.fresh ∧ r.code = recField c 32 1 ∧ r.a = va ∧
        r.b = recField c 16 8 ∧ r.c = recField c 24 8 ∧ r.ctx = x.ctx ∧ r.asker = .queue q tag (cmdNote c) ∧
        exec (.rangeop q) s = .next (markStarted { t with fresh := t.fresh + 1, rangeReqs := t.rangeReqs ++ [r] } q c (.range t.fresh)))) ∧
    (kind = 2 → (va % 128 ≠ 0 → fails (exec (.view q) s) t 5 0x11) ∧
      (∀ u b, va % 128 = 0 → agentRead t x.ctx va 128 = .ok u b →
        (∀ n, viewStartFault u x.ctx b = some n → fails (exec (.view q) s) u 5 n) ∧
        (viewStartFault u x.ctx b = none → exec (.view q) s = .next (markStarted (setView { u with fresh := u.fresh + 1 } u.fresh
          { ctx := x.ctx, queue := q, index := x.head.toNat, tag := tag, note := cmdNote c, record := b }) q c (.view u.fresh))))) ∧
    (kind = 1 → ∀ u i, readLaunch t x.ctx c = .ok u i →
      (∀ n, launchFault u x.ctx c i = some n → fails (exec (.launch q) s) u 4 n) ∧
      (launchFault u x.ctx c i = none → ∃ l, exec (.launch q) s =
          .next (markStarted (setLaunch (clearCode { u with fresh := u.fresh + 1 }) u.fresh l) q c (.launch u.fresh)) ∧ l.ctx = x.ctx ∧ l.prio = x.prio ∧ l.crews = recField c 36 4 ∧ l.items = recField c 24 8 ∧
        l.argva = recField c 48 8 ∧ l.nextCrew = 0 ∧ l.nextItem = 0 ∧ l.kernel.width = blockWidth (selectVariant i).2.2 ∧
        l.kernel.regs = blockRegs (selectVariant i).2.2 ∧ l.kernel.kva = (selectVariant i).2.1 ∧
        l.itemQueue = if recField c 32 4 = 0xFFFFFFFF then none else some (recField c 32 4)))) ∧
  (∀ e d u b, x.pending = some d → x.started.find? (fun e => e.2 == .wait) = some e → recField d 8 8 % 8 = 0 →
    agentRead s x.ctx (recField d 8 8) 8 = .ok u b →
    let holds := if recField d 24 1 = 0 then recField d 16 8 ≤ leNat b else leNat b = recField d 16 8
    (holds → exec (.semwaitRecheck q) s = .next (completeStarted u q e (cmdTag d) (cmdNote d))) ∧
    (¬holds → exec (.semwaitRecheck q) s = .next u)) ∧
  (∀ u k, k ≠ Started.wait → ∃ v, markStarted u q c k = writeStatus v q ∧
    (getQueue v q).head = (getQueue u q).head + 1 ∧ (getQueue v q).started = (getQueue u q).started ++ [((getQueue u q).head.toNat, k)])

/-- R344-R347, R369, R408, R413, R471, R476: the operations of the host on contexts, from the states that the spec lists, and the release of a
dead one. -/
def Obligations.ContextOperationResults : Prop := ∀ (s : State) (tok : W32) (ctx : Nat), HostHeard s → ctx < 64 →
  let c := getCtx s ctx
  let wrong (o : Host.Outcome State Fault Refusal) (op : Nat) (sts : List CtxState) : Prop :=
    c.st ∉ sts → HostMakes o 1 (answer s op 1 0 tok [])
  (∀ pa, wrong (exec (.create tok ctx pa) s) 1 [.free] ∧ (c.st = .free →
    (readDesc s pa = none → HostMakes (exec (.create tok ctx pa) s) 1 (answer s 1 2 6 tok [])) ∧
    (∀ b, readDesc s pa = some b →
      (∀ r, descReason s b = some r → HostMakes (exec (.create tok ctx pa) s) 1 (answer s 1 2 r tok [])) ∧
      (descReason s b = none → ∃ t, HostMakes (exec (.create tok ctx pa) s) 1 (answer t 1 0 0 tok []) ∧
        (getCtx t ctx).st = .ready ∧ (getCtx t ctx).desc = b ∧ (getCtx t ctx).errcnt = 0 ∧ (getCtx t ctx).attached = false ∧
        (getCtx t ctx).iq = [] ∧ t.crews = s.crews ∧ t.queues = s.queues)))) ∧
  (wrong (exec (.suspend tok ctx) s) 2 [.ready, .running] ∧ (c.st = .ready ∨ c.st = .running → ∃ t,
    HostMakes (exec (.suspend tok ctx) s) 1 (settleContext (answer t 2 0 0 tok []) ctx) ∧ (getCtx t ctx).st = .suspending ∧
    ((∀ e ∈ s.crews, e.2.ctx ≠ ctx) → t.crews = s.crews))) ∧
  (∀ pa, wrong (exec (.resume tok ctx pa) s) 3 [.suspended, .faulted] ∧ (c.st = .suspended ∨ c.st = .faulted →
    (pa = 0 → HostMakes (exec (.resume tok ctx pa) s) 1 (answer (resumeContext s ctx c.desc) 3 0 0 tok [])) ∧
    (∀ b, pa ≠ 0 → readDesc s pa = some b → descReason s b = none →
      (descFixed b ≠ descFixed c.desc ∨ recField b 80 8 < recField c.desc 80 8 →
        HostMakes (exec (.resume tok ctx pa) s) 1 (answer s 3 2 8 tok [])) ∧
      (descFixed b = descFixed c.desc → recField c.desc 80 8 ≤ recField b 80 8 →
        HostMakes (exec (.resume tok ctx pa) s) 1 (answer (resumeContext s ctx b) 3 0 0 tok []))))) ∧
  (∀ b, (getCtx (resumeContext s ctx b) ctx).st = .ready ∧ (getCtx (resumeContext s ctx b) ctx).desc = b ∧
    ∀ k cr, kvGet s.crews k = some cr → kvGet (resumeContext s ctx b).crews k =
      some (if cr.ctx = ctx ∧ cr.phase = .stopped then { cr with phase := .resident, saveWhy := none, ydlExpired := false } else cr)) ∧
  (∀ b q, kvGet (resumeContext s ctx b).queues q = (kvGet s.queues q).map fun x => if x.ctx = ctx then x.resumed else x) ∧
  (∀ x : Queue, (QueueState.live x.st = false → x.resumed = { x with dueFault := none }) ∧
    (QueueState.live x.st = true → x.dueFault = none → x.resumed = x.settled) ∧
    (∀ word tag here, QueueState.live x.st = true → x.dueFault = some (word, tag, here) →
      x.resumed.st = .faulted ∧ x.resumed.faultWord = word ∧ x.resumed.faultTag = tag)) ∧
  (wrong (exec (.drain tok ctx) s) 4 [.running] ∧ (c.st = .running →
    HostMakes (exec (.drain tok ctx) s) 1 (settleContext (answer (setCtx s ctx { c with st := .draining }) 4 0 0 tok []) ctx))) ∧
  (wrong (exec (.destroy tok ctx) s) 5 [.suspended, .faulted, .ready] ∧ (c.st = .suspended ∨ c.st = .faulted ∨ c.st = .ready → ∃ t,
    HostMakes (exec (.destroy tok ctx) s) 1 (answer t 5 0 0 tok []) ∧ getCtx t ctx = { c with st := .dead, iq := [], areaDue := [] } ∧
    (∀ e ∈ t.queues, e.2.ctx ≠ ctx) ∧
    ∀ k cr, kvGet s.crews k = some cr → cr.ctx = ctx → ∃ d, kvGet t.crews k = some d ∧ d.phase = .retired)) ∧
  ((c.st = .free ∨ c.st = .dead → HostMakes (exec (.rready tok ctx) s) 1 (answer s 10 1 0 tok [])) ∧
    (c.st ≠ .free → c.st ≠ .dead → ∃ t, HostMakes (exec (.rready tok ctx) s) 1 (answer t 10 0 0 tok (leBytes 4
        (s.crews.filter fun e => e.2.ctx == ctx && e.2.hold == .rready).length)) ∧
      ∀ k cr, kvGet s.crews k = some cr → kvGet t.crews k =
        some (if cr.ctx = ctx ∧ cr.hold = .rready then { cr with hold := .none } else cr))) ∧
  (∀ set ids, set < 16 → ids ≠ [] → ids.length ≤ 64 → (∀ d ∈ ids, d < 4096) →
    (c.st = .free ∨ c.st = .dead → HostMakes (exec (.collset tok ctx set ids) s) (1 + (2 * ids.length + 63) / 64) (answer s 18 1 0 tok [])) ∧
    (c.st ≠ .free → c.st ≠ .dead → HostMakes (exec (.collset tok ctx set ids) s) (1 + (2 * ids.length + 63) / 64)
      (answer { s with collSets := kvSet s.collSets (16 * ctx + set) ids } 18 0 0 tok []))) ∧
  (∀ k set ids, 64 ≤ k → HostMakes (exec (.collset tok k set ids) s) (1 + (2 * ids.length + 63) / 64) (answer s 18 2 7 tok [])) ∧
  (c.st ≠ .dead ∨ contextQuiet s ctx = false → exec (.contextRelease ctx) s = .next s) ∧
  (c.st = .dead → contextQuiet s ctx = true → ∃ t, exec (.contextRelease ctx) s = .next t ∧
    (s.ctxs.Pairwise (fun a b => a.1 < b.1) → (getCtx t ctx).st = .free) ∧ (∀ e ∈ t.crews, e.2.ctx ≠ ctx) ∧
    (∀ e ∈ t.launches, e.2.ctx ≠ ctx) ∧ ∀ n, n ≠ ctx → s.ctxs.Pairwise (fun a b => a.1 < b.1) → kvGet t.ctxs n = kvGet s.ctxs n)

/-! ### The management controller -/

/-- R27, R471, R480-R485: the host's operations on fences, persistent stacks and updates, each answered with its status; the end of a core's
testing; the projection of power, which moves the limit by one step. -/
def Obligations.ServiceOperationResults : Prop := ∀ (s : State) (tok : W32), HostHeard s →
  (∀ n quad cores, fenceCores n quad = some cores →
    let busy := ∃ k ∈ cores, (getCore s k).fence ≠ .inService ∨ ∃ f ∈ s.service.fences, k ∈ f.1
    (busy → HostMakes (exec (.hostFence tok n quad) s) 1 (answer s 11 1 0 tok [])) ∧
    (¬busy → s.service.fences ≠ [] → HostMakes (exec (.hostFence tok n quad) s) 1
      { s with service := { s.service with fences := s.service.fences ++ [(cores, tok)] } }) ∧
    (¬busy → s.service.fences = [] → ∃ t, HostMakes (exec (.hostFence tok n quad) s) 1 t ∧ t.service.fences = [(cores, tok)] ∧
      (∀ k ∈ cores, (getCore t k).fence = .draining) ∧ (∀ k, k ∉ cores → getCore t k = getCore s k)) ∧
    ((∀ k ∈ cores, (getCore s k).fence = .out ∧ (getCore s k).beyondSpares = false) → ∃ t,
      HostMakes (exec (.unfence tok n quad) s) 1 (answer t 12 0 0 tok []) ∧ (∀ k ∈ cores, (getCore t k).fence = .inService) ∧
      ∀ k, k ∉ cores → getCore t k = getCore s k) ∧
    ((∃ k ∈ cores, (getCore s k).fence ≠ .out ∨ (getCore s k).beyondSpares = true) →
      HostMakes (exec (.unfence tok n quad) s) 1 (answer s 12 1 0 tok []))) ∧
  (fenceCores 191 false = some [191] ∧ fenceCores 192 false = none ∧ fenceCores 47 true = some [188, 189, 190, 191] ∧ fenceCores 48 true = none) ∧
  (∀ core b, ((getCore s core).fence ≠ .draining ∨ crewsOn s core ≠ [] → exec (.testingEnd core b) s = .next s) ∧
    ((getCore s core).fence = .draining → crewsOn s core = [] → s.service.fences = [] → ∃ t, exec (.testingEnd core b) s = .next t ∧
      (getCore t core).fence = .out ∧ (getCore t core).beyondSpares = b ∧ (getCore t core).l1 = [] ∧ (getCore t core).icache = [] ∧ (getCore t core).cmiss = [] ∧
      (getCore t core).pstall = [] ∧ (getCore t core).ccorr = 0)) ∧
  (∀ k, k < 4 → let x := getPStack s k
    (x.online = false ∨ x.draining ≠ none → HostMakes (exec (.pdrain tok k) s) 1 (answer s 13 1 0 tok [])) ∧
    (x.online = true → x.draining = none → HostMakes (exec (.pdrain tok k) s) 1 (setPStack s k { x with draining := some tok })) ∧
    (x.online = true → HostMakes (exec (.preturn tok k) s) 1 (answer s 14 1 0 tok [])) ∧
    (x.online = false → HostMakes (exec (.preturn tok k) s) 1 (answer (setPStack s k { x with online := true }) 14 0 0 tok []))) ∧
  (∀ image, (imageRuns 1 image = true → HostMakes (exec (.fwstage tok image) s) (longFlits image.length)
      (answer { s with service := { s.service with staged := some image } } 15 0 0 tok [])) ∧
    (imageRuns 1 image = false → imageRuns 2 image = true → HostMakes (exec (.fwstage tok image) s) (longFlits image.length)
      (answer { s with service := { s.service with config := image } } 15 0 0 tok []))) ∧
  (s.service.staged = none ∨ s.service.swap ≠ none → HostMakes (exec (.fwswap tok) s) 1 (answer s 16 1 0 tok [])) ∧
  (∀ image, s.service.staged = some image → s.service.swap = none → HostMakes (exec (.fwswap tok) s) 1
    { s with service := { s.service with staged := none, swap := some (tok, 0, image) } }) ∧
  (∀ tok' k image, s.service.swap = some (tok', k, image) →
    (k < 3 → swapMove s = { s with service := { s.service with swap := some (tok', k + 1, image) } }) ∧
    (3 ≤ k → ∃ v, swapMove s = answer { s with service := v } 16 0 0 tok' [] ∧ v.processors = image ∧ v.swap = none ∧
      v.chain = s.service.chain ++ [digest64 (s.service.chain.getLastD [] ++ digest64 (Config.imageBody image))]) ∧
    ∀ q x, q % 4 = k → mayServe s q x = false) ∧
  (∀ nonce, ∃ first more, HostMakes (exec (.attest tok nonce) s) 1 (answerLong s 17 tok first more) ∧
    first.take 2 = leBytes 2 s.service.deviceId ∧
    more.take (s.service.chain.getLastD []).length = s.service.chain.getLastD []) ∧
  (∀ draw, let v := s.service
    (s.now < v.projAt + 1024 ∨ v.boot ≠ .done → exec (.powerProjection draw) s = .next s) ∧
    (v.projAt + 1024 ≤ s.now → v.boot = .done → ∃ n, exec (.powerProjection draw) s = .next { s with service := n } ∧
      n.pproj = BitVec.ofNat 32 draw ∧ n.projAt = s.now ∧ n.penv = v.penv ∧
      n.limited = (if v.penv.toNat < draw then min 3 (v.limited + 1) else if draw + 50 < v.penv.toNat then v.limited - 1 else v.limited)))

/-- R402, R437, R449, R450, R477-R480: loss of power empties memory and all that runs and keeps the wear; a boot, cold or warm, that passes
leaves no crew, context or queue, its images measured, every PHY trained or in a warm boot restored, and every port training, and one that fails stops at its step with port 0 training; an
error poisons what it strikes. -/
def Obligations.BootAndErrorResults : Prop := ∀ (s : State) (firmware : List Byte),
  let blank (t : State) : Prop := t.mem = [] ∧ t.tags = [] ∧ t.crews = [] ∧ t.ctxs = [] ∧ t.queues = [] ∧ t.launches = [] ∧ t.cmds = [] ∧
    t.now = 0 ∧ ∀ k, (getPStack t k).wear = (getPStack s k).wear
  (∃ t, exec .powerLoss s = .next t ∧ blank t ∧ t.ports = [] ∧ t.service.firmware = s.service.firmware ∧ t.service.chain = []) ∧
  (∀ i, i = Instr.coldBoot firmware ∨ i = Instr.warmReset firmware →
    let fw := if s.service.firmware.isEmpty then firmware else s.service.firmware
    let cp := if s.service.processors.isEmpty then Config.shippedProcessors else s.service.processors
    (∀ n, bootFails s fw cp = some n → ∃ t, exec i s = .next t ∧ blank t ∧ t.service.boot = .failed n ∧ (getPort t 0).st = .training) ∧
    (bootFails s fw cp = none → ∃ t, exec i s = .next t ∧ t.crews = [] ∧ t.ctxs = [] ∧ t.queues = [] ∧ t.service.boot = .done ∧
      t.service.firmware = fw ∧ t.service.penv = 2200 ∧ t.service.digests = [digest64 (Config.imageBody fw), digest64 (Config.imageBody cp)] ∧
      (∀ p, p < 9 → (getPort t p).st = .training) ∧
      ∀ k, k < 12 → ∃ e, kvGet t.service.training k = some e ∧ kvGet t.service.phys k = some e.settings ∧ e.serial = Config.stackSerial k ∧
        e.digest = digest64 (e.serial ++ e.settings) ∧
        ∀ old, i = .warmReset firmware → kvGet s.service.training k = some old → restores s.tick k old = true → e = old)) ∧
  (∀ core, (core < 192 → exec (.correctedSoftError core) s = .next
      (setCore s core { getCore s core with ccorr := (getCore s core).ccorr + 1 })) ∧
    (192 ≤ core → exec (.correctedSoftError core) s = .next s)) ∧
  (∀ pa, (validPa pa = true → exec (.uncorrectableError (.block pa)) s = .next (setTag s (pa / 64) poisonTag)) ∧
    (validPa pa = false → exec (.uncorrectableError (.block pa)) s = .next s)) ∧
  (∀ dws r wp reg lane, warpAt s dws = some r → getWarp s r.crew r.warp = some wp → reg < wp.n → lane < 64 → ∃ b,
    exec (.uncorrectableError (.mainReg dws reg lane)) s = .next (setWarp s r.crew r.warp b) ∧ b.regs.v = wp.regs.v ∧
    (∀ k, k ∈ b.regs.vpoison ↔ k = 64 * reg + lane ∨ k ∈ wp.regs.vpoison) ∧ { b with regs := wp.regs } = wp) ∧
  (∀ dws r wp reg, warpAt s dws = some r → getWarp s r.crew r.warp = some wp → reg < 64 → ∃ b,
    exec (.uncorrectableError (.scalarReg dws reg)) s = .next (setWarp s r.crew r.warp b) ∧ b.regs.s = wp.regs.s ∧
    ∀ k, k ∈ b.regs.spoison ↔ k = reg ∨ k ∈ wp.regs.spoison) ∧
  (∀ core pa, (sectorAt s core (pa / 64) = none ∨ (∃ x, sectorAt s core (pa / 64) = some x ∧ x.dirty = 0) →
      exec (.uncorrectableError (.writeBack core pa)) s = .next s) ∧
    (∀ x, sectorAt s core (pa / 64) = some x → x.dirty ≠ 0 → ownerOf (setTag (flushSector s core (pa / 64)) (pa / 64) poisonTag) pa = none →
      exec (.uncorrectableError (.writeBack core pa)) s = .next (setTag (flushSector s core (pa / 64)) (pa / 64) poisonTag)))

/-! ### Links -/

/-- R461-R464, R466, R469, R474, R476: a message frame is acted on once, in its turn, on a port that hears it: puts, gets, signals, segments and
the host's accesses at the target, data, acknowledgements and faults at the issuer; a frame out of its turn is dropped, counted and answered
by a NAK. -/
def Obligations.LinkMessageResults : Prop := ∀ (s : State) (port : Nat) (f : Frame), port ≤ 8 →
  let hears := PortState.hears (getPort s port).st
  let heard := setPort s port ((getPort s port).heard s.now f)
  let acts (i : Instr) (t : Nat) (act : State → Arrival) : Prop :=
    (hears = false ∨ f.mtype ≠ t ∨ f.nfl = 0 → exec i s = .next s) ∧
    (hears = true → f.mtype = t → f.nfl ≠ 0 → f.seq ≠ (getPort s port).rxSeq + 1 → exec i s = .next (dropFrame s port)) ∧
    (∀ u, hears = true → f.mtype = t → f.nfl ≠ 0 → f.seq = (getPort s port).rxSeq + 1 → refusedFrame port f = false →
      (act heard = .taken u → exec i s = .next (takeFrames u port 1 (vcOf t) f.nfl)) ∧
      (∀ v, act heard = .later v → act s = .later u → exec i s = .next u))
  (acts (.putData port f) 1 (takePut port f) ∧ acts (.getRequest port f) 2 (takeGet port f) ∧ acts (.getData port f) 3 (takeGetData f) ∧
    acts (.signalMessage port f) 4 (takeSignal port f) ∧ acts (.hostWrite port f) 8 (takeHostWrite port f)) ∧
  (hears = true → f.nfl ≠ 0 → f.seq = (getPort s port).rxSeq + 1 →
    (f.mtype = 5 → exec (.performedAcknowledgement port f) s = .next (takeFrames (match tokenCmd heard f.rtok with
      | some (k, c) => (match c.op with
        | .remote j => if j.kind = 1 then heard else remoteEnds heard k c none
        | _ => heard)
      | none => heard) port 1 1 f.nfl)) ∧
    (f.mtype = 6 → ∀ k c, tokenCmd heard f.rtok = some (k, c) → leNat (f.raux.take 1) ≠ 0x17 →
      let bytes := leNat ((f.raux.drop 4).take 4)
      let fault : CmdFault := { code := leNat (f.raux.take 1), va := leNat ((f.raux.drop 8).take 8), blocks := bytes / 64 }
      exec (.faultResponse port f) s = .next (takeFrames (remoteEnds heard k c (some fault)) port 1 1 f.nfl)) ∧
    (f.mtype = 7 → badRequest port f = true → exec (.collectiveSegment port f) s = .next
      (takeFrames (sendFault heard port f 0x0A 0 0) port 1 2 f.nfl)) ∧
    (f.mtype = 7 → badRequest port f = false → answersLinks heard f.rctx = false → exec (.collectiveSegment port f) s = .next
      (takeFrames (sendFault heard port f 0x17 0 0) port 1 2 f.nfl)) ∧
    (f.mtype = 7 → badRequest port f = false → answersLinks heard f.rctx = true →
      (collMembers heard f.rctx f.rset).findIdx? (· == f.rsrc) = none →
      exec (.collectiveSegment port f) s = .next (takeFrames heard port 1 2 f.nfl)) ∧
    (f.mtype = 9 → port = 0 → badRequest port f = false → ∀ t pas, hostTouch heard f permRead = .ok t pas →
      (∀ pa ∈ pas, isPoisonTag (homeTag t pa) = false) → exec (.hostRead port f) s = .next
        (takeFrames (sendSeries t port (replyTo t f 10) (pas.map fun pa => homeByte t pa)) port 1 0 f.nfl))) ∧
  (∀ t pa, badRequest port f = false → answersLinks s f.rctx = true → touch s none f.rctx permAtomic f.raddr 0 = .ok t pa →
    isPoisonTag (homeTag t pa) = false → takeSignal port f s = .taken (sendFrame (homePuts t pa (leBytes 8
      (if f.rop = 1 then (homeNat t pa 8 + leNat (f.raux.take 8)) % 2 ^ 64 else leNat (f.raux.take 8)))) port (replyTo t f 5))) ∧
  (∀ t pas, badRequest port f = false → answersLinks s f.rctx = true → agentTouch s none f.rctx permRead 0 f.raddr f.rlen = .ok t pas →
    takeGet port f s = .taken (sendSeries t port (replyTo t f 3) (readBytes t pas))) ∧
  (badRequest port f = true → takeGet port f s = .taken (sendFault s port f 0x0A 0 f.raddr) ∧
    takeSignal port f s = .taken (sendFault s port f 0x0A 0 f.raddr)) ∧
  (badRequest port f = false → answersLinks s f.rctx = false → takeGet port f s = .taken (sendFault s port f 0x17 0 0) ∧
    takeSignal port f s = .taken (sendFault s port f 0x17 0 0)) ∧
  (∀ k c j, tokenCmd s f.rtok = some (k, c) → c.op = .remote j → j.kind = 1 → f.rlast = false → ∃ t d, takeGetData f s = .taken t ∧
    t.mem = s.mem ∧ kvGet t.cmds k = some d ∧ d.acked = c.acked + f.data.length ∧ d.op = c.op ∧ d.phase = c.phase)

/-- R462, R465-R468: empty frames acknowledge and return credits, a NAK and a timeout send the unacknowledged frames again, and each port goes
through its states. -/
def Obligations.PortResults : Prop := ∀ (s : State) (port : Nat), port ≤ 8 →
  let p := getPort s port
  (∀ f, PortState.hears p.st = true → f.nfl = 0 →
    (f.mtype = 0 → exec (.nak port f) s = .next (resendAll (hearEmpty s port f) port)) ∧
    (f.mtype ≠ 0 → exec (.creditReturn port f) s = .next (hearEmpty s port f)) ∧
    (∀ a b u, p.unacked = a ++ u :: b → u.seq = f.ack → (∀ v ∈ a, v.seq ≠ f.ack) → (p.heard s.now f).unacked = b ∧
      (p.heard s.now f).ackAt = s.now ∧ ∀ v, v < 4 → (p.heard s.now f).credits[v]? = some (p.credits.getD v 0 + f.crd.getD v 0))) ∧
  (∀ f, (PortState.hears p.st = false → exec (.badFrame port f) s = .next s) ∧
    (PortState.hears p.st = true → refusedFrame port f = false → unknownOp port f = false → exec (.badFrame port f) s = .next (dropFrame s port))) ∧
  (let t := dropFrame s port;
    (getPort t port).drop = p.drop + 1 ∧ (getPort t port).unacked = p.unacked ∧ (getPort t port).rxSeq = p.rxSeq) ∧
  (PortState.hears p.st = true ∧ p.unacked ≠ [] ∧ p.ackAt + 2048 ≤ s.now → exec (.retransmitTimeout port) s = .next (resendAll s port)) ∧
  (PortState.hears p.st = false ∨ p.unacked = [] ∨ s.now < p.ackAt + 2048 → exec (.retransmitTimeout port) s = .next s) ∧
  (∃ fs, getPort (resendAll s port) port = { p with sent := p.sent ++ fs, retx := p.retx + BitVec.ofNat 32 p.unacked.length, ackAt := s.now } ∧
    fs = p.unacked.map fun f => { f with ack := p.rxSeq }) ∧
  (∀ cr, (p.st ≠ .training → exec (.linkTrained port cr) s = .next s) ∧
    (p.st = .training → ∃ t, exec (.linkTrained port cr) s = .next (pumpPort t port) ∧ (getPort t port).st = .up ∧
      ∀ v, v < 4 → (getPort t port).credits.getD v 0 = cr.getD v 0)) ∧
  (p.st = .training → p.since + 2 ^ 24 ≤ s.now → exec (.trainingTimeout port) s = .next (portDown s port)) ∧
  (p.st ≠ .training ∨ s.now < p.since + 2 ^ 24 → exec (.trainingTimeout port) s = .next s) ∧
  (exec (.lossOfSignal port) s = .next (portDown s port)) ∧
  ((∀ f ∈ p.unacked, isRequest f.mtype = false) → ∃ t, portDown s port = t ∧ (getPort t port).st = .down ∧ (getPort t port).unacked = [] ∧
    (getPort t port).txSeq = 0 ∧ (getPort t port).rxSeq = 0 ∧ t.mem = s.mem) ∧
  (let u := (p.fecu - p.winFecu).toNat
    let r := (p.retx - p.winRetx).toNat
    let q := { p with winAt := s.now, winFecu := p.fecu, winRetx := p.retx };
    (PortState.flows p.st = false ∨ s.now < p.winAt + 2 ^ 20 → exec (.errorWindowEnd port) s = .next s) ∧
    (p.st = .up → p.winAt + 2 ^ 20 ≤ s.now → (16 < u ∨ 64 < r) →
      exec (.errorWindowEnd port) s = .next (enterPort (setPort s port q) port .degraded)) ∧
    (p.st = .up → p.winAt + 2 ^ 20 ≤ s.now → u ≤ 16 → r ≤ 64 → exec (.errorWindowEnd port) s = .next (setPort s port q)) ∧
    (p.st = .degraded → p.winAt + 2 ^ 20 ≤ s.now → u < 16 → r < 64 →
      exec (.errorWindowEnd port) s = .next (enterPort (setPort s port q) port .up))) ∧
  (p.st = .draining → (p.unacked = [] ∨ p.since + 2 ^ 20 ≤ s.now) → exec (.drainingEnd port) s = .next (enterPort s port .training)) ∧
  (p.st ≠ .draining ∨ (p.unacked ≠ [] ∧ s.now < p.since + 2 ^ 20) → exec (.drainingEnd port) s = .next s) ∧
  (PortState.flows p.st = true → exec (.portWaitTimeout port) s = .next s) ∧
  (∀ e, PortState.flows p.st = false → p.waiting.find? (fun e => isRequest e.2.mtype && decide (e.1 + 2 ^ 24 ≤ s.now)) = some e →
    exec (.portWaitTimeout port) s = .next (failToken s e.2.rtok 2 e.2.dst)) ∧
  (PortState.flows p.st = true → exec (.lctlRetrain port) s = .next (enterPort s port .draining)) ∧
  (PortState.flows p.st = false → exec (.lctlRetrain port) s = .next s) ∧
  (p.st = .down → exec (.lctlStartTraining port) s = .next (enterPort s port .training)) ∧
  (p.st ≠ .down → exec (.lctlStartTraining port) s = .next s) ∧
  (∀ st, getPort (enterPort s port st) port = { p with st := st, since := s.now, train := if st = .training then p.train + 1 else p.train })

/-! ### Stacks -/

/-- R428-R435, R438, R439: a pseudo-channel serves the request that comes first, refreshes the bank whose turn it is or postpones that while RT or
LATENCY requests wait for the bank, and at eight postponed refreshes closes every bank; a stack
sleeps and wakes, and a start-gap region moves its gap. -/
def Obligations.StackResults : Prop := ∀ (s : State) (k ch : Nat), k < 8 → ch < 96 →
  let x := getStack s k
  let y := x.channel ch
  let put (y : Channel) : State := setStack s k (x.putChannel ch y)
  (x.power ≠ .active → exec (.channelRequestServe k ch) s = .next s) ∧
  (∀ r, x.power = .active → nextRequest y.queue (2 * s.now) (fun r => y.opens r.bank) = some r →
    exec (.channelRequestServe k ch) s = .next (countLate (put (({ y with queue := y.queue.eraseIdx r.place } : Channel).catchUp s.now)) r.req k)) ∧
  (∀ r, nextRequest y.queue (2 * s.now) (fun r => y.opens r.bank) = some r → y.queue[r.place]? = some r.req ∧ r.free = true ∧
    y.opens r.req.bank = true) ∧
  (∀ a b : Ranked, 2 * s.now < a.req.arrived + 8192 → 2 * s.now < b.req.arrived + 8192 → a.cls < b.cls → Ranked.before (2 * s.now) a b = true) ∧
  (s.now < y.lastDue + 2340 → exec (.refreshDue k ch) s = .next s) ∧
  (y.lastDue + 2340 ≤ s.now → x.power = .active → y.forced = none →
    let b := y.bank
    let z : Channel := { y with lastDue := y.lastDue + 2340, bank := (b + 1) % Config.banks }
    let owes : Channel := { z with owed := kvSet y.owed b (kvD y.owed b 0 + 1) }
    (y.pressed b = false → kvGet y.closed b = none →
      exec (.refreshDue k ch) s = .next (put { z with closed := kvSet y.closed b (s.now + 140) })) ∧
    (y.pressed b = true → owes.debt < 8 → ∃ p, exec (.refreshDue k ch) s = .next (setStack s k ({ x with postponed := p }.putChannel ch owes))) ∧
    (y.pressed b = true → 8 ≤ owes.debt → ∃ p, exec (.refreshDue k ch) s = .next (setStack s k { ({ x with postponed := p }.putChannel ch
      { owes with forced := some (s.now + 210), closed := [] }) with forced := x.forced + 1 }))) ∧
  (y.lastDue + 2340 ≤ s.now → y.forced ≠ none → exec (.refreshDue k ch) s =
    .next (put { y with lastDue := y.lastDue + 2340, bank := (y.bank + 1) % Config.banks })) ∧
  (∀ t, y.forced = some t → (s.now < t → exec (.refreshEnd k ch) s = .next s) ∧
    (t ≤ s.now → exec (.refreshEnd k ch) s = .next (put { y with forced := none, owed := [] })) ∧ ∀ b, y.opens b = false) ∧
  (y.forced = none → (∃ e ∈ y.closed, e.2 ≤ s.now) → exec (.refreshEnd k ch) s = .next
    (put (({ y with closed := kvFilter y.closed fun _ t => decide (s.now < t) } : Channel).catchUp s.now))) ∧
  (y.owed.Pairwise (fun a b => a.1 < b.1) → ∀ b, kvGet y.owed b = none ∨ y.pressed b = true → kvGet (y.catchUp s.now).owed b = kvGet y.owed b) ∧
  (x.power = .active → x.quiet = true → x.debugFrom = none → x.lastReq + 512 ≤ s.now → ∃ g,
    exec (.selfRefreshEntry k) s = .next (setStack s k (x.toSelf g))) ∧
  (x.power ≠ .active ∨ x.quiet = false ∨ s.now < x.lastReq + 512 → exec (.selfRefreshEntry k) s = .next s) ∧
  (∀ g, (x.toSelf g).power = .self ∧ ∀ n z, kvGet x.channels n = some z →
    kvGet (x.toSelf g).channels n = some { z with owed := [], closed := [], forced := none }) ∧
  (x.power ≠ .retention → x.quiet = true → x.waking = none → x.debugFrom = none → x.lastReq + 600000 ≤ s.now → s.lastRunning + 600000 ≤ s.now →
    (∀ e ∈ s.ctxs, e.2.st ≠ .running) → exec (.retentionEntry k) s = .next (setStack s k { x.toSelf true with power := .retention })) ∧
  ((∃ e ∈ s.ctxs, e.2.st = .running) → exec (.retentionEntry k) s = .next s) ∧
  (∀ t, x.waking = some t → (s.now < t → exec (.stackWake k) s = .next s) ∧
    (t ≤ s.now → exec (.stackWake k) s = .next (setStack s k { x with power := .active, gated := false, waking := none }))) ∧
  (∀ pw g, x.debugFrom = some (pw, g) → (s.now < x.debugAt + 65536 → exec (.debugWakeReturn k) s = .next s) ∧
    (x.debugAt + 65536 ≤ s.now → (pw = .self ∧ x.mayRest s = true) ∨ (pw = .retention ∧ x.mayRetain s = true) →
      exec (.debugWakeReturn k) s = .next (setStack s k { x.toSelf g with power := pw, debugFrom := none }))) ∧
  (∀ ps rg, let w := kvD (getPStack s ps).wear rg {}
    (w.due = 0 → exec (.gapCopyComplete ps rg) s = .next s) ∧
    (0 < w.due → ∃ n : Wear, exec (.gapCopyComplete ps rg) s = .next
        (setPStack s ps { getPStack s ps with wear := kvSet (getPStack s ps).wear rg n }) ∧ n.due = w.due - 1 ∧ n.writes = w.writes ∧
      (0 < w.gap → n.gap = w.gap - 1 ∧ n.start = w.start) ∧ (w.gap = 0 → n.gap = 65536 ∧ n.start = (w.start + 1) % 65536))) ∧
  (∀ w : Wear, w.gap ≤ 65536 → w.start < 65536 → 0 < w.due → ∀ l, l < 65536 →
    (w.line l ≠ w.copied → (w.move).line l = w.line l) ∧ (w.line l = w.copied → (w.move).line l = w.gap))

/-! ### The debugger -/

/-- R351, R435, R439, R453-R456, R486: operations of the debugger, each answered with its status word and result: attach and detach, catch
mask and watchpoints, a single step and the scalars of a halted warp, memory and wear; a halt or release where no warp of the context lives.
Without an attachment, or where it names nothing that it may act on, an operation answers ERR and changes nothing. -/
def Obligations.DebuggerResults : Prop := ∀ s : State,
  (attachedCtx s = none → ∀ i, i ∈ [Instr.ddetach, .dcatch 0, .dhalt .all, .drelease .all, .dwatch 0 0 0 .both] → exec i s = .next (debugError s)) ∧
  ((debugError s).debugger.status = 5 ∧ (debugError s).crews = s.crews ∧ (debugError s).mem = s.mem ∧ (debugError s).ctxs = s.ctxs) ∧
  (∀ ctx, (64 ≤ ctx ∨ (attachedCtx s).isSome = true ∨ (ctxFlags s ctx).testBit 2 = true → exec (.dattach ctx) s = .next (debugError s)) ∧
    (ctx < 64 → attachedCtx s = none → (ctxFlags s ctx).testBit 2 = false → ∃ t, exec (.dattach ctx) s = .next t ∧ t.debugger.ctx = some ctx ∧
      getCtx t ctx = { getCtx s ctx with attached := true } ∧ attachedCtx t = some ctx ∧ t.crews = s.crews)) ∧
  (∀ ctx, attachedCtx s = some ctx →
    (∀ m, exec (.dcatch m) s = .next (debugDone (setCtx s ctx { getCtx s ctx with catchMask := m &&& 0x00FFFFFE }) [])) ∧
    (∀ n base m kind, n < 4 → exec (.dwatch n base m kind) s = .next (debugDone (setCtx s ctx { getCtx s ctx with
      watches := kvSet (getCtx s ctx).watches n { base := base % 2 ^ 56, m := m % 32, kind := WatchKind.code kind } }) [])) ∧
    ((∀ e ∈ s.crews, e.2.ctx ≠ ctx) → (∀ e ∈ s.crews, ∀ w ∈ e.2.warps, w.2.haltAsked = false) →
      exec .ddetach s = .next (debugDone { setCtx s ctx { getCtx s ctx with attached := false, catchMask := 0, watches := [] } with
        debugger := { s.debugger with ctx := none } } []) ∧
      (∀ who, exec (.dhalt who) s = .next (debugDone s [0]) ∧ exec (.drelease who) s = .next (debugError s))) ∧
    (∀ dws r c wp, (∀ e ∈ s.crews, ∀ w ∈ e.2.warps, w.2.haltAsked = false) → warpAt s dws = some r → kvGet s.crews r.crew = some c →
      getWarp s r.crew r.warp = some wp → c.ctx = ctx →
      (wp.halt = none → exec (.dstep dws) s = .next (debugError s) ∧
        ∀ file n lanes vs, exec (.dread dws file n lanes) s = .next (debugError s) ∧ exec (.dwrite dws file n lanes vs) s = .next (debugError s)) ∧
      (∀ h, wp.halt = some h → h.pending = none → ({ wp with halt := none } : Warp).pathOrder = [] → exec (.dstep dws) s = .next s) ∧
      (∀ h k t, wp.halt = some h → h.pending = none → ({ wp with halt := none } : Warp).pathOrder = [k] →
        tryIssue (inSlot s r { wp with halt := none } 3 k) = some t → ∃ res,
        exec (.dstep dws) s = .next (debugDone (haltWarp { t with issuing := none } r) res)) ∧
      (∀ h p, wp.halt = some h → kvGet wp.paths h.path = some p →
        (∀ n lanes, n < 64 → ∃ l f, exec (.dread dws .scalar n lanes) s = .next (debugDone s (l ++ [lowWord f, highWord f])) ∧
          ∀ v ∈ l, v = wp.regs.scal n) ∧
        (∀ n l v, n < 64 → l < 64 → l < (getLaunch s c.launch).kernel.width → ∃ b, exec (.dwrite dws .scalar n (laneBit l) [v]) s = .next (debugDone (setWarp s r.crew r.warp b) []) ∧
          ScalarWritten wp.regs b.regs n 1 v.toNat ∧ MainKept wp.regs b.regs ∧ { b with regs := wp.regs } = wp)))) ∧
  (∀ pa n wr, n = 0 ∨ 64 < n ∨ validPa pa = false → exec (.dmem pa n wr) s = .next (debugError s)) ∧
  (∀ pa n, 0 < n → n ≤ 64 → validPa pa = true → validPa (pa + n - 1) = true → (getStack s (homeStack pa)).waking = none →
    (getStack s (homeStack pa)).power = .active → (getStack s (homeStack pa)).gated = false →
    (∀ bytes, ∃ t, exec (.dmem pa n (some bytes)) s = .next t ∧ t.debugger.status = BitVec.ofNat 32 (1 + 256 * (homeStack pa % 16)) ∧
      t.mem = (homePuts s pa (bytes.take n)).mem) ∧
    ((∀ i, i < n → isPoisonTag (homeTag s (pa + i)) = false) → ∃ t, exec (.dmem pa n none) s = .next t ∧ t.mem = s.mem ∧
      t.debugger.status = BitVec.ofNat 32 (1 + 256 * (homeStack pa % 16)) ∧ t.debugger.result = debugWords (homeBytes s pa n))) ∧
  (∀ ps rg, (4 ≤ ps ∨ 2048 ≤ rg → exec (.wear ps rg) s = .next (debugError s)) ∧
    (ps < 4 → rg < 2048 → let w := kvD (getPStack s ps).wear rg {}
      exec (.wear ps rg) s = .next (debugDone s [BitVec.ofNat 32 (w.start % 2 ^ 16 + 2 ^ 16 * w.gap), lowWord w.writes,
        BitVec.ofNat 32 (w.writes / 2 ^ 32 % 256)])))

/-! ### Encodings, steps, checks, traps and reset -/

/-- R56, R58, R59, R68: encoding and decoding agree: the word of a well-formed instruction decodes to it, with every operand at every value,
from the word and from its bytes; a word that decodes is the word of a well-formed instruction; fewer than 16 bytes are none. -/
def Obligations.DecodeEncode : Prop := ∀ (i : Instr) (v : W128) (rest : List Byte),
  (WellFormed i = true → encode i = some v → decodeWord v = .ok i ∧ decodeBytes (leBytes 16 v.toNat ++ rest) = .ok (i, rest)) ∧
  (decodeWord v = .ok i → WellFormed i = true ∧ encode i = some v) ∧
  (rest.length < 16 → decodeBytes rest = .error .truncated)

/-- R56-R68: words that the spec writes out beside their assembly lines decode to the instructions of those lines: `BRA` by 0x30 under `p1`,
`GROW 64`, `FDOT2` with literals, `BARAW b3`, `SYSRD s5, 0x0200`, `TRAP.tret`, `?p1 RET` and `CALLI`. -/
def Obligations.SpecWordsDecode : Prop :=
  let none : Guard := ⟨31, false, 31, false, false⟩
  let z : Operand := ⟨.main, 0, false, 0, 0⟩
  decodeWord 0x00010000000000300000000027C10001 = .ok (.bra
    ⟨0, .n32, ⟨1, false, 31, false, false⟩, 0, z, z, z, z, z, some 0x30, true, 0, false, false⟩) ∧
  decodeWord 0x00010000000000400000000027DF00F3 = .ok (.grow ⟨0, .n32, none, 0, z, z, z, z, z, some 0x40, true, 0, false, false⟩) ∧
  decodeWord 0x000000383A003A000010003027DF5454 = .ok (.fdot2
    ⟨4, .f16x2, none, 0, ⟨.main, 12, false, 0, 0⟩, ⟨.main, 4, false, 0, 0⟩, z, z, ⟨.main, 14, false, 0, 0⟩, some 0x3A003A00, false, 0, false, false⟩) ∧
  decodeWord 0x00010003000000000000000007DF00E3 = .ok (.baraw
    ⟨0, .n32, none, 0, z, z, z, z, ⟨.pred, 0, false, 0, 0⟩, Option.none, true, 0, false, false⟩) ∧
  decodeWord 0x00010000000002000000001527DF00F0 = .ok (.sysrd
    ⟨0, .n32, none, 0, ⟨.scalar, 5, false, 0, 0⟩, z, z, z, z, some 0x200, true, 0, false, false⟩) ∧
  decodeWord 0x00010000000000000000000007DF020F = .ok (.trapTret ⟨2, .n32, none, 0, z, z, z, z, z, Option.none, true, 0, false, false⟩) ∧
  decodeWord 0x00010000000000000000000007C10006 = .ok (.ret
    ⟨0, .n32, ⟨1, false, 31, false, false⟩, 0, z, z, z, z, z, Option.none, true, 0, false, false⟩) ∧
  decodeWord 0x00010000000000000024000007DF0005 = .ok (.calli
    ⟨0, .n32, none, 0, z, ⟨.main, 9, false, 0, 0⟩, z, z, z, Option.none, true, 0, false, false⟩)

/-- R56, R74, R75, R95, R141, R209, R406: where the slot named by the next move holds a warp whose fetch passes its checks and whose bytes, those
of memory, or where the core's instruction cache holds the block its or memory's for each aligned 4-byte word, decode to an instruction admitted there, a step is exec of it, after which the slot is done with it; a word with a cause of R76 and a 24th instruction
that does not end its run trap, over the lanes of the path. -/
def Obligations.StepRunsDecoded : Prop := ∀ (s t : State) (rest : List Move) (core part slot l a pa : Nat) (r : IssueRef) (y : Site)
    (i : Instr) (more : List Byte),
  let u : State := { beginStep { s with agenda := rest } with issuing := some r }
  let x : Site := { y with act := pathLanes y.wp y.pa }
  s.agenda = .issue core part slot :: rest → slotHolder (beginStep { s with agenda := rest }) core part slot = some r →
  siteOf u = some y → y.pa.rebuild = [] → checkLanes u x .fetch 16 [(lowLane x.act, y.pa.pc.toNat)] = .ok t [(l, a, .mem pa)] →
  let m : State := (readCode t y.ref.core pa 16).1
  let code : List Byte := (readCode t y.ref.core pa 16).2
  let v : W128 := BitVec.ofNat 128 (leNat code)
  (m.mem = t.mem ∧ m.crews = t.crews ∧
    (kvGet (getCore t y.ref.core).icache (pa / 64) = none → pa % 16 = 0 → isPoisonTag (homeTag t pa) = false → code = codeBytes t pa 16) ∧
    ∀ b, kvGet (getCore t y.ref.core).icache (pa / 64) = some b → pa % 16 = 0 → ∃ old : Nat → Bool,
      code = (List.range 16).map fun k => let home := (codeBytes t (64 * (pa / 64)) 64).getD (pa % 64 + k) 0
        if old (k / 4) then b.getD (pa % 64 + k) home else home) ∧
  (∀ c, illegalWord y.width y.wp.n v = some c → step s = .next (finishIssue (takeTrap m x.touched
    { code := 0x01, tx := BitVec.ofNat 32 (c.cause + (if c.cause = 4 then 2 ^ 8 * c.operand else 0) + if c.cause = 5 then 2 ^ 16 * y.wp.n else 0),
      mask := x.act }))) ∧
  (illegalWord y.width y.wp.n v = none → decodeBytes (code ++ more) = .ok (i, more) → ∀ op w, Instr.word? i = some (op, w) →
    (y.rn.files.count = 23 → endsRun i w = false → step s = .next (finishIssue (takeTrap m x.touched { code := 0x07, mask := x.act }))) ∧
    (y.rn.files.count ≠ 23 ∨ endsRun i w = true → step s = settle (exec i m) ∧ ∀ n, exec i m = .next n → step s = .next (finishIssue n)))

/-- R12, R68, R70-R72, R94, R178: before its meaning every instruction takes the same checks in the same order: reconvergence, an empty guard, and,
with a lane active, its privilege, its empty registers and its sources; it waits, parks its path or traps on the first that holds, with no
other effect, but that a TRACE, EXIT or REFORM that waits has abandoned the `.cand` rays of its active lanes (R292, R299). -/
def Obligations.IssueChecks : Prop := ∀ (i : Instr) (op : Nat) (w : Enc) (s : State) (y : Site), Instr.word? i = some (op, w) →
  siteOf s = some y →
  let x : Site := { y with act := activeLanes i w y }
  let aside : Bool := warpWide i && mustReconverge y.wp y.rn.path y.pa
  let priv : Bool := needsSys s x i && !ctxSys s x.cr.ctx
  (aside = true → ∃ b, exec i s = .next (setWarp s y.ref.crew y.ref.warp (settlePaths b)) ∧ RunEnded y y.wp b ∧
    kvGet b.paths y.rn.path = some { y.pa with st := .reconverge, resume := none }) ∧
  (aside = false → guardEmpty y.wp w.guard = true → Waits (exec i s) s y) ∧
  (aside = false → guardEmpty y.wp w.guard = false → x.act ≠ 0 → priv = true →
    Traps (exec i s) s x { code := 0x02, tx := BitVec.ofNat 32 op, mask := x.act }) ∧
  (aside = false → guardEmpty y.wp w.guard = false → x.act ≠ 0 → priv = false → mustWait i w s x = true →
    (∀ v, i ≠ .trace v ∧ i ≠ .exit v ∧ i ≠ .reform v) → Waits (exec i s) s x) ∧
  (aside = false → guardEmpty y.wp w.guard = false → x.act ≠ 0 → priv = false → mustWait i w s x = true →
    let r := x.abandoning i s
    Waits (exec i s) r.2 r.1 ∧ r.2.mem = s.mem ∧ r.1.wp.regs = x.wp.regs ∧ ∀ k q, kvGet x.wp.rays k = some q → kvGet r.1.wp.rays k = some q ∨
      (x.act.getLsbD k = true ∧ q.cand = true ∧ kvGet r.1.wp.rays k = some { q with abandoned := true, offer := none })) ∧
  (∀ t, aside = false → guardEmpty y.wp w.guard = false → x.act ≠ 0 → priv = false → mustWait i w s x = false → sourceTrap i w s x = some t →
    Traps (exec i s) s x t)

/-- R442-R447: a trap on a warp outside handler mode, of a kernel with a trap entry, is delivered there: the record and `%tcode`, `%tpc`,
`%tmask` and `%tva` are written, the path table is set aside and every live lane stands at the entry; a caught one halts the warp; one in
handler mode or without an entry is fatal; `RESIDENCY` asks for a save. A trap of an atomic that left the store queue leaves its path where it
stands (R213). `TRAP.tret` gives the table back with the lanes still live, and such an atomic's lanes go first in the store queue. -/
def Obligations.TrapDelivery : Prop := ∀ (s : State) (x : Site) (t : TrapInfo),
  let put (b : Warp) : State := setWarp s x.ref.crew x.ref.warp b
  let left : Bool := t.entry.isSome
  let resumed : Path := if left then (if x.wp.run.isSome then x.leavePath else x.pa)
    else if t.code = 0x13 then { x.pa with pc := x.pa.pc + 16, st := .ready, resume := none, only := none }
    else { x.pa with st := .ready, resume := some x.rn.files }
  let tpc := if left then t.tpc else x.tpc
  let record (flg : Nat) : TrapRecord := [BitVec.ofNat 32 (t.code + 2 ^ 8 * t.kind), 0, t.tx, tpc, lowWord t.mask.toNat, highWord t.mask.toNat,
    lowWord t.va, highWord t.va, 0, BitVec.ofNat 32 (flg + 2 ^ 8 * (if left then t.trun else x.rn.files.count) + 2 ^ 16 * x.ref.core),
    BitVec.ofNat 32 (x.cr.ctx + 2 ^ 8 * x.ref.warp + 2 ^ 16 * x.cr.num), BitVec.ofNat 32 x.cr.launch, 0, 0,
    lowWord (s.now - (getCore s x.ref.core).clkBase), highWord (s.now - (getCore s x.ref.core).clkBase)]
  let asked (why : SaveWhy) (u : State) : Prop := (kvD s.crews x.ref.crew {}).phase = .resident →
    (kvD u.crews x.ref.crew {}).saveWhy = match (kvD s.crews x.ref.crew {}).saveWhy with
      | some v => if v.waits then some why else some v
      | none => some why
  getWarp s x.ref.crew x.ref.warp = some x.wp → x.wp.haltAsked = false → (getLaunch s x.cr.launch).vers = false →
  (debugCatches s x.cr.ctx t.code = true → ∃ b, takeTrap s x t = put b ∧ (left = false → b.regs = x.wp.regs) ∧ b.run = none ∧
    b.halt = some { record := record (if x.wp.handler.isSome then 20 else 4), path := x.rn.path } ∧
    b.paths = kvSet x.wp.paths x.rn.path resumed) ∧
  (debugCatches s x.cr.ctx t.code = false → t.code = 0x0B → ∃ u b, takeTrap s x t = noticeResidency u x.cr.ctx x.cr.launch x.cr.num t.va
      (t.why.getD t.tx.toNat) ∧ u.mem = s.mem ∧ getWarp u x.ref.crew x.ref.warp = some b ∧ b.regs = x.wp.regs ∧
    b.paths = kvSet x.wp.paths x.rn.path resumed ∧ (∃ c, kvGet u.crews x.ref.crew = some c ∧ c.hold = .rready) ∧ asked .residency u) ∧
  (debugCatches s x.cr.ctx t.code = false → t.code ≠ 0x0B → x.wp.handler = none → x.k.trape ≠ 0xFFFFFFFF → ∃ b, takeTrap s x t = put b ∧
    b.paths = [(0, { pc := BitVec.ofNat 64 (x.k.codeVa + x.k.trape), mask := x.wp.live })] ∧ b.run = none ∧
    b.regs = x.wp.regs ∧ b.n = x.wp.n ∧ b.live = x.wp.live ∧ b.storeQ = x.wp.storeQ ∧ b.record = record 4 ∧
    b.tcode = BitVec.ofNat 32 t.code ∧ b.tpc = tpc ∧ b.tmask = t.mask ∧ b.tva = BitVec.ofNat 64 t.va ∧
    ∃ h, b.handler = some h ∧ h.path = x.rn.path ∧ h.paths = kvSet x.wp.paths x.rn.path resumed ∧ h.entry = t.entry) ∧
  (debugCatches s x.cr.ctx t.code = false → t.code ≠ 0x0B → (x.wp.handler.isSome = true ∨ x.k.trape = 0xFFFFFFFF) → ∃ u b,
    takeTrap s x t = faultContext (postRecord u x.cr.ctx (fatalRecord (record (if x.wp.handler.isSome then 20 else 4)))) x.cr.ctx ∧
    u.mem = s.mem ∧ u.ctxs = s.ctxs ∧ getWarp u x.ref.crew x.ref.warp = some b ∧ b.regs = x.wp.regs ∧
    b.record = record (if x.wp.handler.isSome then 20 else 4) ∧ b.paths = kvSet x.wp.paths x.rn.path resumed ∧ asked .fatal u ∧
    ((getCtx s x.cr.ctx).st = .running → (getCtx (takeTrap s x t) x.cr.ctx).st = .faulted ∧
      ∀ q ∈ (takeTrap s x t).queues, q.2.ctx = x.cr.ctx → q.2.st = .faulted ∧ q.2.faultWord = 8)) ∧
  (∀ (wp : Warp) (h : Handler), wp.handler = some h →
    ((∃ e ∈ wp.paths, e.2.st ≠ .atTret) → settleTret wp = wp) ∧
    (wp.paths ≠ [] → (∀ e ∈ wp.paths, e.2.st = .atTret) → settleTret wp = settleJoins 20 (leaveHandler wp h)) ∧
    (leaveHandler wp h).handler = none ∧ (leaveHandler wp h).live = wp.live ∧ (leaveHandler wp h).lastLow = wp.lastLow ∧
    (h.entry = none → (leaveHandler wp h).regs = wp.regs ∧ (leaveHandler wp h).storeQ = wp.storeQ) ∧
    (∀ e, h.entry = some e → (∃ a ∈ e.lanes, wp.live.getLsbD a.lane = true) →
      (leaveHandler wp h).storeQ = { e with lanes := e.lanes.filter fun a => wp.live.getLsbD a.lane } :: wp.storeQ) ∧
    (h.paths.Pairwise (fun a b => a.1 < b.1) → ∀ k, k ≠ h.path → kvGet (leaveHandler wp h).paths k =
      ((kvGet h.paths k).map fun p => { p with mask := p.mask &&& wp.live }).filter fun p => p.mask != 0) ∧
    (h.paths.Pairwise (fun a b => a.1 < b.1) → ∀ l, l < 64 → wp.live.getLsbD l = true →
      (∀ e ∈ h.paths, e.2.mask.getLsbD l = false) → ∀ p, kvGet h.paths h.path = some p →
      ∃ q, kvGet (leaveHandler wp h).paths h.path = some q ∧ q.mask.getLsbD l = true ∧ q.pc = p.pc ∧ q.st = p.st))

/-- R26, R344, R357, R458, R460, R467, R477, R482: right after reset every context is FREE, every queue DISABLED, every core IN SERVICE and
empty, every port DOWN with zero counters, the boot not begun, the envelope at 2,200 W and the clock zero; memory keeps its canonical form.
That every byte then reads as zero and that counters stand at zero is the model's choice (log entries 2 and 116). -/
def Obligations.ResetValues : Prop :=
  State.reset.memoriesWf ∧ (∀ a, homeByte State.reset a = 0) ∧ State.reset.now = 0 ∧ State.reset.crews = [] ∧ State.reset.cmds = [] ∧
  (∀ k, (getCtx State.reset k).st = .free ∧ (getCtx State.reset k).errcnt = 0 ∧ (getCtx State.reset k).attached = false) ∧
  (∀ q, (getQueue State.reset q).st = .disabled) ∧
  (∀ c, (getCore State.reset c).fence = .inService ∧ (getCore State.reset c).l1 = [] ∧ (getCore State.reset c).table = [] ∧
    (getCore State.reset c).ccorr = 0) ∧
  (∀ p, (getPort State.reset p).st = .down ∧ (getPort State.reset p).unacked = [] ∧ (getPort State.reset p).train = 0) ∧
  (∀ k, (getPStack State.reset k).online = true) ∧ State.reset.service.boot = .off ∧ State.reset.service.penv = 2200

/-- Every step goes on: no instruction, event or move of the device, in any state, ends in a fault or a refusal. -/
def Obligations.StepGoesOn : Prop := ∀ s : State, ∃ t, step s = .next t

/-- The memory of the device, of its capacity tier and of its crews' scratch keeps its canonical form, addresses strictly rising and no entry
listed that an unlisted address reads as, through every step, whatever instruction, event or move it makes. -/
def Obligations.MemoryFormKept : Prop := ∀ s t : State, s.memoriesWf → step s = .next t → t.memoriesWf
end

