-- ==== Sys2Proof/Laws/Values.lean ====
section
/-! SUPPORT. The value functions of the integer class: elements, packing, and res (R29, R98). -/

namespace Sys2Proof.Machine

/-- A bit pattern reduced modulo 2^n is below it. -/
theorem wrapNat_lt (n : Nat) (v : Int) : wrapNat n v < 2 ^ n := by
  have h : (0 : Int) < 2 ^ n := by positivity
  have h1 := Int.emod_nonneg v h.ne'
  have h2 := Int.emod_lt_of_pos v h
  have h3 : ((wrapNat n v : Nat) : Int) < (2 ^ n : Nat) := by
    rw [wrapNat, Int.toNat_of_nonneg h1]; push_cast; exact h2
  exact_mod_cast h3

theorem wrapNat_cast (n : Nat) (v : Int) : ((wrapNat n v : Nat) : Int) = v % 2 ^ n := by
  rw [wrapNat, Int.toNat_of_nonneg (Int.emod_nonneg v (by positivity))]

/-- The signed reading of a pattern is congruent to it and in range. -/
theorem signedOf_spec (n v : Nat) (hn : 0 < n) :
    (2 ^ n : Int) ∣ signedOf n v - v ∧ -(2 ^ (n - 1) : Int) ≤ signedOf n v ∧ signedOf n v ≤ 2 ^ (n - 1) - 1 := by
  obtain ⟨m, rfl⟩ : ∃ m, n = m + 1 := ⟨n - 1, by omega⟩
  have hp : (2 : Nat) ^ (m + 1) = 2 * 2 ^ m := by rw [pow_succ, mul_comm]
  have hlt : v % 2 ^ (m + 1) < 2 ^ (m + 1) := Nat.mod_lt _ (by positivity)
  have hdv : ((2 ^ (m + 1) : Nat) : Int) ∣ ((v % 2 ^ (m + 1) : Nat) : Int) - v := by
    have := Int.emod_emod_of_dvd (v : Int) (dvd_refl ((2 ^ (m + 1) : Nat) : Int))
    rw [Int.natCast_mod]
    exact Int.dvd_of_emod_eq_zero (by simp [Int.sub_emod])
  simp only [signedOf, Nat.add_sub_cancel]
  push_cast at hdv ⊢
  split
  · rename_i h
    refine ⟨?_, ?_, ?_⟩
    · have : ((v : Int) % 2 ^ (m + 1)) - 2 ^ (m + 1) - v = ((v : Int) % 2 ^ (m + 1) - v) - 2 ^ (m + 1) := by ring
      rw [this]; exact dvd_sub hdv (dvd_refl _)
    · have h1 : (2 ^ m : Nat) ≤ v % 2 ^ (m + 1) := h.2
      zify at h1 hp; linarith
    · zify at hlt hp; linarith [pow_pos (show (0 : Int) < 2 by norm_num) m]
  · rename_i h
    refine ⟨hdv, ?_, ?_⟩
    · have : (0 : Int) ≤ (v : Int) % 2 ^ (m + 1) := Int.emod_nonneg _ (by positivity)
      linarith [pow_pos (show (0 : Int) < 2 by norm_num) m]
    · have h1 : v % 2 ^ (m + 1) < 2 ^ m := by
        by_contra hc; exact h ⟨by omega, by omega⟩
      zify at h1; linarith

/-- The elements of a packed value. -/
theorem packElems_field (e : Elem) (l : List Nat) (i : Nat) (hi : i < l.length) :
    packElems e l / 2 ^ (e.width * i) % 2 ^ e.width = l.getD i 0 % 2 ^ e.width := by
  induction l generalizing i with
  | nil => simp at hi
  | cons x t ih =>
    have hp : packElems e (x :: t) = x % 2 ^ e.width + 2 ^ e.width * packElems e t := rfl
    have hpos : 0 < 2 ^ e.width := by positivity
    cases i with
    | zero => simp [hp]
    | succ k =>
      have : packElems e (x :: t) / 2 ^ (e.width * (k + 1)) = packElems e t / 2 ^ (e.width * k) := by
        rw [show e.width * (k + 1) = e.width + e.width * k by ring, pow_add, ← Nat.div_div_eq_div_mul, hp,
          Nat.add_mul_div_left _ _ hpos, Nat.div_eq_of_lt (Nat.mod_lt _ hpos), Nat.zero_add]
      rw [this, ih k (by simpa using hi)]
      simp

theorem packElems_lt (e : Elem) (l : List Nat) : packElems e l < 2 ^ (l.length * e.width) := by
  induction l with
  | nil => simp [packElems]
  | cons x t ih =>
    have hp : packElems e (x :: t) = x % 2 ^ e.width + 2 ^ e.width * packElems e t := rfl
    have hx : x % 2 ^ e.width < 2 ^ e.width := Nat.mod_lt _ (by positivity)
    rw [hp, List.length_cons, Nat.add_mul, one_mul, pow_add]
    calc x % 2 ^ e.width + 2 ^ e.width * packElems e t
        < 2 ^ e.width + 2 ^ e.width * packElems e t := by omega
      _ = 2 ^ e.width * (packElems e t + 1) := by ring
      _ ≤ 2 ^ e.width * 2 ^ (t.length * e.width) := Nat.mul_le_mul_left _ ih
      _ = _ := by ring

/-- An element whose field is the pattern of an integer: congruent to it and in range; equal to it when it is in range. -/
theorem elemOf_wrap (e : Elem) (he : 0 < e.width) (r i : Nat) (v : Int)
    (h : r / 2 ^ (e.width * i) % 2 ^ e.width = wrapNat e.width v) :
    elemLo e ≤ elemOf e r i ∧ elemOf e r i ≤ elemHi e ∧ (2 ^ e.width : Int) ∣ elemOf e r i - v ∧
      (elemLo e ≤ v → v ≤ elemHi e → elemOf e r i = v) := by
  have hc : (2 ^ e.width : Int) ∣ ((wrapNat e.width v : Nat) : Int) - v := by
    rw [wrapNat_cast]; exact Int.dvd_of_emod_eq_zero (by simp [Int.sub_emod])
  have hlt := wrapNat_lt e.width v
  have hpow : (2 : Int) ^ e.width = 2 * 2 ^ (e.width - 1) := by
    rw [← pow_succ']; congr 1; omega
  have uniq : ∀ a b : Int, (2 ^ e.width : Int) ∣ a - b → |a - b| < 2 ^ e.width → a = b := by
    intro a b hd hl
    have := Int.eq_zero_of_abs_lt_dvd hd hl
    omega
  simp only [elemOf, h, elemLo, elemHi]
  split
  · obtain ⟨h1, h2, h3⟩ := signedOf_spec e.width (wrapNat e.width v) he
    have hd : (2 ^ e.width : Int) ∣ signedOf e.width (wrapNat e.width v) - v := by
      have := dvd_add h1 hc; simpa using this
    refine ⟨h2, h3, hd, fun l u => uniq _ _ hd ?_⟩
    rw [abs_lt]; constructor <;> linarith
  · refine ⟨by positivity, by zify at hlt; linarith, hc, fun l u => uniq _ _ hc ?_⟩
    have : (0 : Int) ≤ (wrapNat e.width v : Nat) := by positivity
    zify at hlt
    rw [abs_lt]; constructor <;> linarith

/-- res of R98: an element that holds the pattern of resElem holds the value. -/
theorem resElem_holds (e : Elem) (he : 1 < e.width) (dmod r i : Nat) (v : Int)
    (h : r / 2 ^ (e.width * i) % 2 ^ e.width = resElem e dmod v) : ElemHolds e dmod r i v := by
  obtain ⟨h1, h2, h3, h4⟩ := elemOf_wrap e (by omega) r i _ h
  have hp : (2 : Int) ≤ 2 ^ (e.width - 1) := by
    calc (2 : Int) = 2 ^ 1 := by norm_num
      _ ≤ 2 ^ (e.width - 1) := pow_le_pow_right₀ (by norm_num) (by omega)
  have hpow : (2 : Int) ^ e.width = 2 * 2 ^ (e.width - 1) := by
    rw [← pow_succ']; congr 1; omega
  have hlo : elemLo e ≤ 0 := by simp only [elemLo]; split <;> linarith
  have hhi : 1 ≤ elemHi e := by simp only [elemHi]; split <;> linarith
  refine ⟨h1, h2, ?_⟩
  have cl : ∀ lo hi : Int, lo ≤ hi → clampInt lo hi v = max lo (min hi v) := by
    intro lo hi hle; simp only [clampInt]; split_ifs <;> omega
  split
  · rename_i hd
    simp only [hd, if_true] at h4
    rw [cl _ _ (by linarith)] at h4
    exact h4 (le_max_left _ _) (max_le (by linarith) (min_le_left _ _))
  · rename_i hd
    simp only [hd, if_false] at h4 h3
    split
    · rename_i hd
      simp only [hd, if_true] at h4
      rw [cl _ _ (by norm_num)] at h4
      exact h4 (by linarith [le_max_left (0 : Int) (min 1 v)]) (by
        have : max (0 : Int) (min 1 v) ≤ 1 := max_le (by norm_num) (min_le_left _ _)
        linarith)
    · rename_i hd
      simpa only [hd, if_false] using h3

theorem elem_width_pos (t : Ty) (ht : t ≠ .b1) : 1 < (Ty.elem t).width := by cases t <;> simp_all [Ty.elem]

/-- An element-wise function through res. -/
theorem mapElems2_elementwise (t : Ty) (ht : t ≠ .b1) (dmod : Nat) (f : Int → Int → Int) (a b : Nat) :
    Elementwise t dmod f a b (mapElems2 (Ty.elem t) dmod f a b) := by
  constructor
  · have := packElems_lt (Ty.elem t) ((List.range (Ty.elem t).count).map fun i =>
      resElem (Ty.elem t) dmod (f (elemOf (Ty.elem t) a i) (elemOf (Ty.elem t) b i)))
    simpa [mapElems2] using this
  · intro i hi
    refine resElem_holds _ (elem_width_pos t ht) _ _ _ _ ?_
    rw [mapElems2, packElems_field _ _ _ (by simpa using hi)]
    simp [hi, resElem, Nat.mod_eq_of_lt (wrapNat_lt _ _)]

theorem mapElems3_holds (t : Ty) (ht : t ≠ .b1) (dmod : Nat) (f : Int → Int → Int → Int) (a b c i : Nat)
    (hi : i < (Ty.elem t).count) :
    ElemHolds (Ty.elem t) dmod (mapElems3 (Ty.elem t) dmod f a b c) i
      (f (elemOf (Ty.elem t) a i) (elemOf (Ty.elem t) b i) (elemOf (Ty.elem t) c i)) := by
  refine resElem_holds _ (elem_width_pos t ht) _ _ _ _ ?_
  rw [mapElems3, packElems_field _ _ _ (by simpa using hi)]
  simp [hi, resElem, Nat.mod_eq_of_lt (wrapNat_lt _ _)]

theorem resElem_single (e : Elem) (he : 1 < e.width) (dmod : Nat) (v : Int) : ElemHolds e dmod (resElem e dmod v) 0 v := by
  refine resElem_holds e he dmod _ 0 v ?_
  simp [resElem, Nat.mod_eq_of_lt (wrapNat_lt _ _)]
/-- An element that holds the pattern of a value in range is that value. -/
theorem elemOf_small (e : Elem) (he : 0 < e.width) (r : Nat) (hr : r < 2 ^ e.width) (v : Int) (h : r = wrapNat e.width v)
    (h1 : elemLo e ≤ v) (h2 : v ≤ elemHi e) : elemOf e r 0 = v := by
  refine (elemOf_wrap e he r 0 v ?_).2.2.2 h1 h2
  rw [← h]; simp [Nat.mod_eq_of_lt hr]

/-- An element is in the range of its type. -/
theorem elemOf_range (e : Elem) (he : 0 < e.width) (r i : Nat) : elemLo e ≤ elemOf e r i ∧ elemOf e r i ≤ elemHi e := by
  have hx : r / 2 ^ (e.width * i) % 2 ^ e.width < 2 ^ e.width := Nat.mod_lt _ (by positivity)
  have := elemOf_wrap e he r i ((r / 2 ^ (e.width * i) % 2 ^ e.width : Nat) : Int) (by
    rw [wrapNat]
    rw [Int.emod_eq_of_lt (by positivity) (by exact_mod_cast hx), Int.toNat_natCast])
  exact ⟨this.1, this.2.1⟩

/-- A remainder of an element is in the range of its type. -/
theorem tmod_range (e : Elem) (a b : Int) (ha : elemLo e ≤ a ∧ a ≤ elemHi e) :
    elemLo e ≤ a.tmod b ∧ a.tmod b ≤ elemHi e := by
  have h1 : (a.tmod b).natAbs ≤ a.natAbs := by
    rw [Int.natAbs_tmod]; exact Nat.mod_le _ _
  have hlo : elemLo e ≤ 0 := by
    simp only [elemLo]; split
    · have : (0:Int) < 2 ^ (e.width - 1) := by positivity
      omega
    · omega
  have hhi : 0 ≤ elemHi e := by
    simp only [elemHi]; split
    · have : (0:Int) < 2 ^ (e.width - 1) := by positivity
      omega
    · have : (0:Int) < 2 ^ (e.width) := by positivity
      omega
  by_cases hs : 0 ≤ a
  · have := Int.tmod_nonneg b hs
    omega
  · have h3 : 0 ≤ (-a).tmod b := Int.tmod_nonneg b (by omega)
    rw [Int.neg_tmod] at h3
    omega

end Sys2Proof.Machine
end

