-- ==== Sys2Proof/Laws/Bits.lean ====
section
/-! SUPPORT. The bits and bytes of the integer functions (R106-R112): what each computes, place by place. -/

namespace Sys2Proof.Machine

/-- A number built bit by bit. -/
theorem bitSum_spec (p : Nat → Bool) (n : Nat) :
    (List.range n).foldl (fun acc j => if p j then acc + 2 ^ j else acc) 0 < 2 ^ n ∧
    ∀ k, ((List.range n).foldl (fun acc j => if p j then acc + 2 ^ j else acc) 0).testBit k = (decide (k < n) && p k) := by
  induction n with
  | zero => simp
  | succ n ih =>
    obtain ⟨h1, h2⟩ := ih
    rw [List.range_succ, List.foldl_append]
    simp only [List.foldl_cons, List.foldl_nil]
    generalize (List.range n).foldl (fun acc j => if p j then acc + 2 ^ j else acc) 0 = v at *
    have hp : 2 ^ (n + 1) = 2 ^ n + 2 ^ n := by rw [pow_succ]; omega
    cases hpn : p n
    · simp only [Bool.false_eq_true, if_false]
      refine ⟨by omega, fun k => ?_⟩
      rw [h2 k]
      rcases Nat.lt_trichotomy k n with h | h | h
      · simp [h, Nat.lt_succ_of_lt h]
      · subst h; simp [hpn]
      · simp [show ¬ k < n by omega, show ¬ k < n + 1 by omega]
    · simp only [if_true]
      refine ⟨by omega, fun k => ?_⟩
      rcases Nat.lt_trichotomy k n with h | h | h
      · rw [Nat.add_comm, Nat.testBit_two_pow_add_gt h, h2 k]
        simp [h, Nat.lt_succ_of_lt h]
      · subst h; rw [Nat.add_comm, Nat.testBit_two_pow_add_eq, Nat.testBit_lt_two_pow h1]; simp [hpn]
      · rw [Nat.testBit_lt_two_pow (lt_of_lt_of_le (show v + 2 ^ n < 2 ^ (n + 1) by omega) (Nat.pow_le_pow_right (by norm_num) h))]
        simp [show ¬ k < n + 1 by omega]

/-- Each source value is below two to its width. -/
theorem srcValue_lt (s : State) (x : Site) (t : Ty) (o : Operand) (l : Nat) : srcValue s x t o l < 2 ^ srcWidth t :=
  Nat.mod_lt _ (by positivity)

/-- A literal read as a source is below two to its width. -/
theorem litValue_lt (t : Ty) (v : W32) (h : t ≠ .b1) : litValue t v < 2 ^ srcWidth t := by
  have := v.isLt
  cases t <;> simp only [litValue, srcWidth] <;> first | omega | exact wrapNat_lt _ _ | contradiction

theorem srcB_lt (s : State) (x : Site) (t : Ty) (w : Enc) (l : Nat) (h : t ≠ .b1) : srcB s x t w l < 2 ^ srcWidth t := by
  unfold srcB; split
  · exact litValue_lt _ _ h
  · exact srcValue_lt _ _ _ _ _

theorem srcC_lt (s : State) (x : Site) (t : Ty) (w : Enc) (l : Nat) : srcC s x t w l < 2 ^ srcWidth t := srcValue_lt _ _ _ _ _

/-- The bits of a complement. -/
theorem testBit_notBits (n v j : Nat) : (notBits n v).testBit j = (decide (j < n) && !v.testBit j) := by
  unfold notBits
  have : 2 ^ n - 1 - v % 2 ^ n = 2 ^ n - (v % 2 ^ n + 1) := by omega
  rw [this, Nat.testBit_two_pow_sub_succ (Nat.mod_lt _ (by positivity)), Nat.testBit_mod_two_pow]
  cases decide (j < n) <;> simp

/-- The bits of an arithmetic shift to the right. -/
theorem sar_testBit (n a c j : Nat) (hn : 0 < n) (ha : a < 2 ^ n) :
    (wrapNat n (signedOf n a / (2 ^ min c (n - 1) : Int))).testBit j = (decide (j < n) && a.testBit (min (j + c) (n - 1))) := by
  set m := min c (n - 1) with hm
  have hp : (2 : Nat) ^ n = 2 * 2 ^ (n - 1) := by rw [← pow_succ']; congr 1; omega
  have hP : 0 < 2 ^ (n - 1) := by positivity
  have hQ : 0 < 2 ^ m := by positivity
  by_cases hs : a < 2 ^ (n - 1)
  · have e1 : signedOf n a = a := by
      simp only [signedOf, Nat.mod_eq_of_lt ha]
      rw [if_neg (by omega)]
    have e2 : wrapNat n ((a : Int) / 2 ^ m) = a / 2 ^ m := by
      have : ((a : Int) / 2 ^ m) = ((a / 2 ^ m : Nat) : Int) := by push_cast; rfl
      rw [this, wrapNat, Int.emod_eq_of_lt (by positivity)]
      · exact Int.toNat_natCast _
      · exact_mod_cast lt_of_le_of_lt (Nat.div_le_self _ _) ha
    rw [e1, e2, Nat.testBit_div_two_pow]
    by_cases hj : j < n
    · simp only [hj, decide_true, Bool.true_and]
      by_cases hc : j + c ≤ n - 1
      · rw [Nat.min_eq_left hc]; congr 1; omega
      · rw [Nat.min_eq_right (by omega), Nat.testBit_lt_two_pow hs, Nat.testBit_lt_two_pow]
        exact lt_of_lt_of_le hs (Nat.pow_le_pow_right (by norm_num) (by omega))
    · simp only [hj, decide_false, Bool.false_and]
      exact Nat.testBit_lt_two_pow (lt_of_lt_of_le ha (Nat.pow_le_pow_right (by norm_num) (by omega)))
  · have e1 : signedOf n a = Int.negSucc (2 ^ n - 1 - a) := by
      simp only [signedOf, Nat.mod_eq_of_lt ha]
      rw [if_pos ⟨by omega, by omega⟩, Int.negSucc_eq]
      have : ((2 ^ n - 1 - a : Nat) : Int) = (2 ^ n : Int) - 1 - a := by
        rw [Nat.cast_sub (by omega), Nat.cast_sub (by omega)]; push_cast; ring
      rw [this]; ring
    have hb : (2 ^ n - 1 - a) / 2 ^ m < 2 ^ n := lt_of_le_of_lt (Nat.div_le_self _ _) (by omega)
    have e2 : wrapNat n (Int.negSucc (2 ^ n - 1 - a) / 2 ^ m) = 2 ^ n - ((2 ^ n - 1 - a) / 2 ^ m + 1) := by
      have h1 : Int.negSucc (2 ^ n - 1 - a) / (2 ^ m : Int) = Int.negSucc ((2 ^ n - 1 - a) / 2 ^ m) := by
        have := Int.negSucc_ediv (2 ^ n - 1 - a) (b := (2 ^ m : Int)) (by positivity)
        rw [this, Int.negSucc_eq]; push_cast; rfl
      have h2 : (Int.negSucc ((2 ^ n - 1 - a) / 2 ^ m) : Int) % 2 ^ n = ((2 ^ n - ((2 ^ n - 1 - a) / 2 ^ m + 1) : Nat) : Int) := by
        rw [Nat.cast_sub (by omega), Int.negSucc_eq]
        generalize (2 ^ n - 1 - a) / 2 ^ m = b at *
        have hb' : (b : Int) < 2 ^ n := by exact_mod_cast hb
        push_cast
        rw [← Int.add_emod_right, Int.emod_eq_of_lt (by omega) (by omega)]; ring
      rw [h1, wrapNat, h2]; simp
    rw [e1, e2, Nat.testBit_two_pow_sub_succ hb, Nat.testBit_div_two_pow, show 2 ^ n - 1 - a = 2 ^ n - (a + 1) by omega,
      Nat.testBit_two_pow_sub_succ ha]
    by_cases hj : j < n
    · have top : a.testBit (n - 1) = true := by
        rw [Nat.testBit_eq_decide_div_mod_eq, decide_eq_true_eq]
        have : a / 2 ^ (n - 1) = 1 := by
          apply Nat.div_eq_of_lt_le <;> omega
        rw [this]
      simp only [hj, decide_true, Bool.true_and]
      by_cases hc : j + c ≤ n - 1
      · have : j + m = j + c := by omega
        rw [Nat.min_eq_left hc, show j + m = j + c by omega]
        simp [show j + c < n by omega]
      · rw [Nat.min_eq_right (by omega), top]
        by_cases hjm : j + m < n
        · have : j + m = n - 1 := by omega
          simp [this, top]
        · simp [hjm]
    · simp [hj]

/-- A one-element integer type is read at its own width. -/
theorem width_src (t : Ty) (h : t = .n32 ∨ t = .s32 ∨ t = .n64 ∨ t = .s64 ∨ t = .b32) : srcWidth t = (Ty.elem t).width := by
  rcases h with rfl | rfl | rfl | rfl | rfl <;> rfl

/-- The bits of a rotation. -/
theorem rotl_testBit (a c j : Nat) (ha : a < 2 ^ 32) :
    (rotlV a c).testBit j = (decide (j < 32) && a.testBit ((j + 32 - c % 32) % 32)) := by
  have hk : c % 32 < 32 := Nat.mod_lt _ (by norm_num)
  simp only [rotlV, Nat.mod_eq_of_lt ha]
  generalize c % 32 = k at *
  rw [Nat.testBit_mod_two_pow]
  by_cases hj : j < 32
  · simp only [hj, decide_true, Bool.true_and]
    have hlow : a / 2 ^ (32 - k) < 2 ^ k := by
      rw [Nat.div_lt_iff_lt_mul (by positivity), ← pow_add]
      exact lt_of_lt_of_le ha (Nat.pow_le_pow_right (by norm_num) (by omega))
    rw [Nat.mul_comm, Nat.testBit_two_pow_mul_add _ hlow]
    split
    · rw [Nat.testBit_div_two_pow]; congr 1; omega
    · congr 1; omega
  · simp [hj]

/-- The bits of a funnel shift. -/
theorem fshf_testBit (right : Bool) (hi lo c j : Nat) (hh : hi < 2 ^ 32) (hl : lo < 2 ^ 32) :
    (fshfV right hi lo c).testBit j = (decide (j < 32) &&
      let k := if right then j + min c 32 else j + 32 - min c 32
      if k < 32 then lo.testBit k else decide (k < 64) && hi.testBit (k - 32)) := by
  have hx : ∀ k, (hi * 2 ^ 32 + lo).testBit k = if k < 32 then lo.testBit k else hi.testBit (k - 32) := by
    intro k; rw [Nat.mul_comm, Nat.testBit_two_pow_mul_add _ hl]
  have hh' : ∀ k, ¬ k < 64 → hi.testBit (k - 32) = false := fun k hk =>
    Nat.testBit_lt_two_pow (lt_of_lt_of_le hh (Nat.pow_le_pow_right (by norm_num) (by omega)))
  simp only [fshfV, Nat.mod_eq_of_lt hh, Nat.mod_eq_of_lt hl]
  generalize hm : min c 32 = m
  have hm' : m ≤ 32 := by omega
  cases right
  · simp only [Bool.false_eq_true, if_false]
    rw [Nat.testBit_mod_two_pow, Nat.testBit_div_two_pow, Nat.mul_comm, Nat.testBit_two_pow_mul, hx]
    by_cases hj : j < 32
    · have : m ≤ j + 32 := by omega
      simp only [hj, this, decide_true, Bool.true_and]
      split
      · rfl
      · rw [show decide (j + 32 - m < 64) = true by simp; omega, Bool.true_and]
    · simp [hj]
  · simp only [if_true]
    rw [Nat.testBit_mod_two_pow, Nat.testBit_div_two_pow, hx]
    by_cases hj : j < 32
    · simp only [hj, decide_true, Bool.true_and]
      split
      · rfl
      · by_cases h64 : j + m < 64
        · simp [h64]
        · simp [h64, hh' _ h64]
    · simp [hj]

/-- Adding a power of two whose bit is clear sets that bit. -/
theorem testBit_add_clear (v e k : Nat) (h : v.testBit e = false) : (v + 2 ^ e).testBit k = (decide (k = e) || v.testBit k) := by
  have hlo : v % 2 ^ (e + 1) < 2 ^ e := by
    by_contra hc
    have h1 : v % 2 ^ (e + 1) / 2 ^ e = 1 := by
      have : v % 2 ^ (e + 1) < 2 ^ (e + 1) := Nat.mod_lt _ (by positivity)
      rw [pow_succ] at this
      apply Nat.div_eq_of_lt_le <;> omega
    have h2 : (v % 2 ^ (e + 1)).testBit e = false := by rw [Nat.testBit_mod_two_pow]; simp [h]
    rw [Nat.testBit_eq_decide_div_mod_eq, h1] at h2
    simp at h2
  have hv : v = 2 ^ (e + 1) * (v / 2 ^ (e + 1)) + v % 2 ^ (e + 1) := (Nat.div_add_mod _ _).symm
  generalize v / 2 ^ (e + 1) = hi at hv
  generalize v % 2 ^ (e + 1) = lo at hv hlo
  subst hv
  have hp : 2 ^ (e + 1) = 2 ^ e + 2 ^ e := by rw [pow_succ]; omega
  rw [Nat.add_assoc, Nat.testBit_two_pow_mul_add _ (show lo + 2 ^ e < 2 ^ (e + 1) by omega),
    Nat.testBit_two_pow_mul_add _ (show lo < 2 ^ (e + 1) by omega)]
  split
  · rename_i hk
    rcases Nat.lt_or_eq_of_le (Nat.le_of_lt_succ hk) with h1 | h1
    · rw [Nat.add_comm, Nat.testBit_two_pow_add_gt h1]; simp [show k ≠ e by omega]
    · subst h1; rw [Nat.add_comm, Nat.testBit_two_pow_add_eq, Nat.testBit_lt_two_pow hlo]; simp
  · simp [show k ≠ e by omega]

/-- A number built from bits at distinct places. -/
theorem placed_testBit {ι : Type} [DecidableEq ι] (ls : List ι) (b : ι → Bool) (e : ι → Nat) (hnd : (ls.map e).Nodup) (k : Nat) :
    (ls.foldl (fun acc i => acc + (b i).toNat * 2 ^ (e i)) 0).testBit k = decide (∃ i ∈ ls, b i = true ∧ e i = k) := by
  have key : ∀ (ls : List ι) (v : Nat), (ls.map e).Nodup → (∀ i ∈ ls, v.testBit (e i) = false) →
      (ls.foldl (fun acc i => acc + (b i).toNat * 2 ^ (e i)) v).testBit k = (v.testBit k || decide (∃ i ∈ ls, b i = true ∧ e i = k)) := by
    intro ls
    induction ls with
    | nil => intro v _ _; simp
    | cons a t ih =>
      intro v hnd hcl
      rw [List.map_cons, List.nodup_cons] at hnd
      rw [List.foldl_cons, ih _ hnd.2]
      · cases hb : b a
        · simp [hb]
        · simp only [Bool.toNat_true, one_mul, testBit_add_clear v (e a) k (hcl a (by simp))]
          by_cases hk : e a = k
          · subst hk; simp [hb]
          · simp [hk, Ne.symm hk]
      · intro i hi
        have hne : e i ≠ e a := fun h => hnd.1 (h ▸ List.mem_map_of_mem hi)
        cases hb : b a
        · simpa using hcl i (List.mem_cons_of_mem _ hi)
        · simp only [Bool.toNat_true, one_mul, testBit_add_clear v (e a) (e i) (hcl a (by simp))]
          simp [hne, hcl i (List.mem_cons_of_mem _ hi)]
  rw [key ls 0 hnd (by simp)]; simp

theorem lt_of_bits (v n : Nat) (h : ∀ k, n ≤ k → v.testBit k = false) : v < 2 ^ n := Nat.lt_pow_two_of_testBit v h

/-- A number built bit by bit, with a bit placed anywhere. -/
theorem wrapNat_testBit (n : Nat) (v : Int) (j : Nat) : (wrapNat n v).testBit j = (decide (j < n) && decide (v / 2 ^ j % 2 = 1)) := by
  by_cases hj : j < n
  · obtain ⟨k, rfl⟩ : ∃ k, n = j + 1 + k := ⟨n - j - 1, by omega⟩
    have h1 : ((wrapNat (j + 1 + k) v / 2 ^ j % 2 : Nat) : Int) = v / 2 ^ j % 2 := by
      push_cast
      rw [wrapNat_cast]
      have hv : v = v % 2 ^ (j + 1 + k) + 2 ^ j * (2 * (2 ^ k * (v / 2 ^ (j + 1 + k)))) := by
        have := Int.emod_add_mul_ediv v (2 ^ (j + 1 + k))
        rw [pow_add, pow_add, pow_one] at this ⊢
        linarith
      conv_rhs => rw [hv, Int.add_mul_ediv_left _ _ (by positivity : (2 : Int) ^ j ≠ 0), Int.add_mul_emod_self_left]
    rw [Nat.testBit_eq_decide_div_mod_eq]
    simp only [hj, decide_true, Bool.true_and]
    rw [← h1]
    congr 1
    exact propext ⟨fun h => by rw [h]; rfl, fun h => by exact_mod_cast h⟩
  · simp only [hj, decide_false, Bool.false_and]
    exact Nat.testBit_lt_two_pow (lt_of_lt_of_le (wrapNat_lt _ _) (Nat.pow_le_pow_right (by norm_num) (by omega)))

theorem natBit_int (a j : Nat) : decide ((a : Int) / 2 ^ j % 2 = 1) = a.testBit j := by
  rw [Nat.testBit_eq_decide_div_mod_eq]
  congr 1
  have : (a : Int) / 2 ^ j % 2 = ((a / 2 ^ j % 2 : Nat) : Int) := by push_cast; rfl
  rw [this]
  exact propext ⟨fun h => by exact_mod_cast h, fun h => by rw [h]; rfl⟩

theorem signedOf_bit (n a j : Nat) (hn : 0 < n) (ha : a < 2 ^ n) :
    decide (signedOf n a / 2 ^ j % 2 = 1) = a.testBit (min j (n - 1)) := by
  have hp : (2 : Nat) ^ n = 2 * 2 ^ (n - 1) := by rw [← pow_succ']; congr 1; omega
  by_cases hs : a < 2 ^ (n - 1)
  · have e1 : signedOf n a = a := by
      simp only [signedOf, Nat.mod_eq_of_lt ha]
      rw [if_neg (by omega)]
    rw [e1, natBit_int]
    by_cases hj : j ≤ n - 1
    · rw [Nat.min_eq_left hj]
    · rw [Nat.min_eq_right (by omega), Nat.testBit_lt_two_pow hs,
        Nat.testBit_lt_two_pow (lt_of_lt_of_le hs (Nat.pow_le_pow_right (by norm_num) (by omega)))]
  · have e1 : signedOf n a = (a : Int) - 2 ^ n := by
      simp only [signedOf, Nat.mod_eq_of_lt ha]
      rw [if_pos ⟨by omega, by omega⟩]
    by_cases hj : j ≤ n - 1
    · rw [Nat.min_eq_left hj, ← natBit_int, e1]
      obtain ⟨k, hk⟩ : ∃ k, n = j + 1 + k := ⟨n - j - 1, by omega⟩
      have h2 : (2 : Int) ^ n = 2 ^ j * (2 * 2 ^ k) := by rw [hk, pow_add, pow_add]; ring
      rw [h2, sub_eq_add_neg, ← mul_neg, Int.add_mul_ediv_left _ _ (by positivity : (2 : Int) ^ j ≠ 0), ← mul_neg,
        Int.add_mul_emod_self_left]
    · rw [Nat.min_eq_right (by omega), e1]
      have hle : (2 : Int) ^ n ≤ 2 ^ j := pow_le_pow_right₀ (by norm_num) (by omega)
      have haI : (a : Int) < 2 ^ n := by exact_mod_cast ha
      have h3 : ((a : Int) - 2 ^ n) / 2 ^ j = -1 := by
        rw [Int.ediv_eq_iff_of_pos (by positivity)]
        constructor <;> nlinarith
      rw [h3, Nat.testBit_eq_decide_div_mod_eq]
      have : a / 2 ^ (n - 1) = 1 := by apply Nat.div_eq_of_lt_le <;> omega
      rw [this]; rfl

/-- The bits of an extracted field. -/
theorem bfx_spec (t : Ty) (a ctl : Nat) (ha : a < 2 ^ 32) :
    let pos := ctl % 256
    let len := min (ctl / 256 % 256) 32
    let sgn := (Ty.elem t).signed
    let ext (k : Nat) : Bool := if k < 32 then a.testBit k else sgn && a.testBit 31
    bfxV t a ctl < 2 ^ 32 ∧ (len = 0 → bfxV t a ctl = 0) ∧
    (0 < len → ∀ j, j < 32 → (bfxV t a ctl).testBit j = if j < len then ext (pos + j) else sgn && ext (pos + len - 1)) := by
  intro pos len sgn ext
  have hlen : len ≤ 32 := Nat.min_le_right _ _
  have hext : ∀ k, decide ((if sgn then signedOf 32 a else (a % 2 ^ 32 : Nat) : Int) / 2 ^ k % 2 = 1) = ext k := by
    intro k
    simp only [ext]
    cases sgn
    · simp only [Bool.false_eq_true, if_false, Nat.mod_eq_of_lt ha, natBit_int, Bool.false_and]
      split
      · rfl
      · exact Nat.testBit_lt_two_pow (lt_of_lt_of_le ha (Nat.pow_le_pow_right (by norm_num) (by omega)))
    · simp only [if_true, signedOf_bit 32 a k (by norm_num) ha, Bool.true_and]
      split
      · rw [Nat.min_eq_left (by omega)]
      · rw [Nat.min_eq_right (by omega)]
  have hf : ∀ j, (wrapNat len ((if sgn then signedOf 32 a else (a % 2 ^ 32 : Nat) : Int) / 2 ^ pos)).testBit j =
      (decide (j < len) && ext (pos + j)) := by
    intro j
    rw [wrapNat_testBit, Int.ediv_ediv_of_nonneg (by positivity), ← pow_add, hext]
  have e : bfxV t a ctl = if len = 0 then 0 else
      if sgn then wrapNat 32 (signedOf len (wrapNat len ((if sgn then signedOf 32 a else (a % 2 ^ 32 : Nat) : Int) / 2 ^ pos)))
      else wrapNat len ((if sgn then signedOf 32 a else (a % 2 ^ 32 : Nat) : Int) / 2 ^ pos) := rfl
  rw [e]
  refine ⟨?_, fun h => if_pos h, fun h j hj => ?_⟩
  · split
    · norm_num
    · split
      · exact wrapNat_lt _ _
      · exact lt_of_lt_of_le (wrapNat_lt _ _) (Nat.pow_le_pow_right (by norm_num) hlen)
  · rw [if_neg (by omega)]
    generalize hF : wrapNat len ((if sgn then signedOf 32 a else (a % 2 ^ 32 : Nat) : Int) / 2 ^ pos) = f at hf ⊢
    have hfl : f < 2 ^ len := by rw [← hF]; exact wrapNat_lt _ _
    cases hsg : sgn
    · simp only [Bool.false_eq_true, if_false, hf, Bool.false_and]
      split <;> simp_all
    · simp only [if_true, wrapNat_testBit, hj, decide_true, Bool.true_and, signedOf_bit len f j h hfl, hf]
      split
      · rename_i hl
        rw [Nat.min_eq_left (by omega)]; simp [hl]
      · rw [Nat.min_eq_right (by omega)]
        simp only [show len - 1 < len by omega, decide_true, Bool.true_and]
        congr 1; omega

/-- The first number that a predicate holds of. -/
theorem firstBit_spec (n : Nat) (p : Nat → Bool) : let r := (List.range n).findIdx p
    r ≤ n ∧ (∀ j, j < r → p j = false) ∧ (r < n → p r = true) := by
  have hlen : (List.range n).length = n := List.length_range
  refine ⟨by simpa using List.findIdx_le_length (xs := List.range n) (p := p), fun j hj => ?_, fun hr => ?_⟩
  · have hjn : j < n := lt_of_lt_of_le hj (by simpa using List.findIdx_le_length (xs := List.range n) (p := p))
    have := List.not_of_lt_findIdx hj
    simpa [hjn] using this
  · have := List.findIdx_getElem (w := by rw [hlen]; exact hr) (xs := List.range n) (p := p)
    simpa using this

/-- The bits of a reversal. -/
theorem brev_testBit (n v j : Nat) : (revNat n v).testBit j = (decide (j < n) && v.testBit (n - 1 - j)) := by
  have e : revNat n v = (List.range n).foldl (fun acc i => acc + (v.testBit i).toNat * 2 ^ (n - 1 - i)) 0 := by
    unfold revNat; congr 1; funext acc i; cases v.testBit i <;> simp
  rw [e, placed_testBit _ (fun i => v.testBit i) (fun i => n - 1 - i)]
  · by_cases hj : j < n
    · simp only [hj, decide_true, Bool.true_and]
      cases hb : v.testBit (n - 1 - j)
      · simp only [decide_eq_false_iff_not, not_exists, not_and, List.mem_range]
        intro i hi hvi hij
        rw [show n - 1 - j = i by omega, hvi] at hb; cases hb
      · simp only [decide_eq_true_eq, List.mem_range]
        exact ⟨n - 1 - j, by omega, hb, by omega⟩
    · simp only [hj, decide_false, Bool.false_and, decide_eq_false_iff_not, not_exists, not_and, List.mem_range]
      intro i hi _ hij; omega
  · rw [List.nodup_map_iff_inj_on List.nodup_range]
    intro a ha b hb h
    simp only [List.mem_range] at ha hb
    omega

/-- The bits of an interleaving of two. -/
theorem blv2_spec (x y : Nat) : blvV false x y 0 < 2 ^ 32 ∧ ∀ i, i < 16 →
    (blvV false x y 0).testBit (2 * i) = x.testBit i ∧ (blvV false x y 0).testBit (2 * i + 1) = y.testBit i := by
  let ls := (List.range 16).flatMap fun i => [(i, 0), (i, 1)]
  have e : blvV false x y 0 = ls.foldl (fun acc (i : Nat × Nat) =>
      acc + (if i.2 = 0 then x.testBit i.1 else y.testBit i.1).toNat * 2 ^ (2 * i.1 + i.2)) 0 := by
    simp [blvV, ls, List.foldl_flatMap]
  have h := placed_testBit ls (fun i => if i.2 = 0 then x.testBit i.1 else y.testBit i.1) (fun i => 2 * i.1 + i.2) (by decide)
  have hm : ∀ i : Nat × Nat, i ∈ ls ↔ i.1 < 16 ∧ i.2 < 2 := by
    rintro ⟨a, b⟩
    simp only [ls, List.mem_flatMap, List.mem_range, List.mem_cons, Prod.mk.injEq, List.not_mem_nil, or_false]
    constructor
    · rintro ⟨c, hc, h⟩; omega
    · rintro ⟨h1, h2⟩; exact ⟨a, h1, by omega⟩
  rw [e]
  refine ⟨lt_of_bits _ _ fun k hk => ?_, fun i hi => ⟨?_, ?_⟩⟩
  · rw [h, decide_eq_false_iff_not]
    rintro ⟨j, hj, _, rfl⟩
    have := (hm j).1 hj; omega
  · rw [h]
    cases hb : x.testBit i
    · rw [decide_eq_false_iff_not]
      rintro ⟨⟨a, c⟩, hj, h1, h2⟩
      have := (hm _).1 hj
      simp only at this h1 h2
      obtain ⟨rfl, rfl⟩ : a = i ∧ c = 0 := by omega
      simp [hb] at h1
    · rw [decide_eq_true_eq]
      exact ⟨(i, 0), (hm _).2 ⟨hi, by norm_num⟩, by simp [hb], rfl⟩
  · rw [h]
    cases hb : y.testBit i
    · rw [decide_eq_false_iff_not]
      rintro ⟨⟨a, c⟩, hj, h1, h2⟩
      have := (hm _).1 hj
      simp only at this h1 h2
      obtain ⟨rfl, rfl⟩ : a = i ∧ c = 1 := by omega
      simp [hb] at h1
    · rw [decide_eq_true_eq]
      exact ⟨(i, 1), (hm _).2 ⟨hi, by norm_num⟩, by simp [hb], rfl⟩

/-- The bits of an interleaving of three. -/
theorem blv3_spec (x y z : Nat) : blvV true x y z < 2 ^ 30 ∧ ∀ i, i < 10 →
    (blvV true x y z).testBit (3 * i) = x.testBit i ∧ (blvV true x y z).testBit (3 * i + 1) = y.testBit i ∧
    (blvV true x y z).testBit (3 * i + 2) = z.testBit i := by
  let ls := (List.range 10).flatMap fun i => [(i, 0), (i, 1), (i, 2)]
  let f : Nat × Nat → Bool := fun i => if i.2 = 0 then x.testBit i.1 else if i.2 = 1 then y.testBit i.1 else z.testBit i.1
  have e : blvV true x y z = ls.foldl (fun acc (i : Nat × Nat) => acc + (f i).toNat * 2 ^ (3 * i.1 + i.2)) 0 := by
    simp [blvV, ls, f, List.foldl_flatMap]
  have h := placed_testBit ls f (fun i => 3 * i.1 + i.2) (by decide)
  have hm : ∀ i : Nat × Nat, i ∈ ls ↔ i.1 < 10 ∧ i.2 < 3 := by
    rintro ⟨a, b⟩
    simp only [ls, List.mem_flatMap, List.mem_range, List.mem_cons, Prod.mk.injEq, List.not_mem_nil, or_false]
    constructor
    · rintro ⟨c, hc, h⟩; omega
    · rintro ⟨h1, h2⟩; exact ⟨a, h1, by omega⟩
  have key : ∀ i c, i < 10 → c < 3 → (blvV true x y z).testBit (3 * i + c) = f (i, c) := by
    intro i c hi hc
    rw [e, h]
    cases hb : f (i, c)
    · rw [decide_eq_false_iff_not]
      rintro ⟨⟨a, d⟩, hj, h1, h2⟩
      have := (hm _).1 hj
      simp only at this h2
      obtain ⟨rfl, rfl⟩ : a = i ∧ d = c := by omega
      rw [h1] at hb; cases hb
    · rw [decide_eq_true_eq]
      exact ⟨(i, c), (hm _).2 ⟨hi, hc⟩, hb, rfl⟩
  refine ⟨?_, fun i hi => ⟨key i 0 hi (by norm_num), key i 1 hi (by norm_num), key i 2 hi (by norm_num)⟩⟩
  rw [e]
  refine lt_of_bits _ _ fun k hk => ?_
  rw [h, decide_eq_false_iff_not]
  rintro ⟨j, hj, _, rfl⟩
  have := (hm j).1 hj; omega

/-- The bits of a de-interleaving. -/
theorem bdlv_testBit (three : Bool) (a k i : Nat) : (bdlvV three a k).testBit i =
    (decide (k < (if three then 3 else 2) ∧ (if three then 3 else 2) * i + k ≤ 31) && a.testBit ((if three then 3 else 2) * i + k)) := by
  simp only [bdlvV]
  generalize ht : (if three = true then 3 else 2) = t
  have ht2 : 2 ≤ t := by cases three <;> simp at ht <;> omega
  split
  · rename_i h; simp [show ¬ k < t by omega]
  · rename_i h
    have := (bitSum_spec (fun i => decide (t * i + k ≤ 31) && a.testBit (t * i + k)) 16).2 i
    simp only [Bool.and_eq_true, decide_eq_true_eq] at this
    rw [this]
    by_cases hi : i < 16
    · simp [hi, show k < t by omega]
    · have : 32 ≤ t * i := by nlinarith
      simp [hi, show ¬ t * i + k ≤ 31 by omega]

theorem byteMode_lt (m v : Nat) (h : v < 256) : byteMode m v < 256 := by
  unfold byteMode; split_ifs <;> omega

theorem poolByte_lt (a b k : Nat) : poolByte a b k < 256 := by
  unfold poolByte; split <;> exact Nat.mod_lt _ (by norm_num)

/-- Four bytes stacked into a word are its bytes. -/
theorem stacked_bytes (r0 r1 r2 r3 i : Nat) (h0 : r0 < 256) (h1 : r1 < 256) (h2 : r2 < 256) (h3 : r3 < 256) (hi : i < 4) :
    (r0 * 2 ^ (8 * 0) + r1 * 2 ^ (8 * 1) + r2 * 2 ^ (8 * 2) + r3 * 2 ^ (8 * 3)) / 256 ^ i % 256 =
      (if i = 0 then r0 else if i = 1 then r1 else if i = 2 then r2 else r3) ∧
    r0 * 2 ^ (8 * 0) + r1 * 2 ^ (8 * 1) + r2 * 2 ^ (8 * 2) + r3 * 2 ^ (8 * 3) < 2 ^ 32 := by
  constructor
  · interval_cases i <;> norm_num <;> omega
  · omega

theorem unroll_four (f : Nat → Nat → Nat) (a : Nat) : (List.range 4).foldl f a = f (f (f (f a 0) 1) 2) 3 := rfl

theorem sum_four (r e : Nat → Nat) :
    (List.range 4).foldl (fun acc i => acc + r i * e i) 0 = r 0 * e 0 + r 1 * e 1 + r 2 * e 2 + r 3 * e 3 := by
  rw [unroll_four, Nat.zero_add]

/-- Four bytes added at their places into a word are its bytes. -/
theorem bytes_fold (r : Nat → Nat) (hr : ∀ i, r i < 256) :
    (List.range 4).foldl (fun acc i => acc + r i * 2 ^ (8 * i)) 0 < 2 ^ 32 ∧
    ∀ i, i < 4 → (List.range 4).foldl (fun acc i => acc + r i * 2 ^ (8 * i)) 0 / 256 ^ i % 256 = r i := by
  have e := sum_four r fun i => 2 ^ (8 * i)
  have key := fun i hi => stacked_bytes (r 0) (r 1) (r 2) (r 3) i (hr 0) (hr 1) (hr 2) (hr 3) hi
  rw [e]
  refine ⟨(key 0 (by norm_num)).2, fun i hi => (key i hi).1.trans ?_⟩
  clear key e
  rcases (by omega : i = 0 ∨ i = 1 ∨ i = 2 ∨ i = 3) with rfl | rfl | rfl | rfl <;> simp

/-- The bytes of a byte permutation. -/
theorem prmt_spec (a b sel : Nat) : prmtV a b sel < 2 ^ 32 ∧ ∀ i, i < 4 → prmtV a b sel / 256 ^ i % 256 =
    byteMode (sel / 2 ^ (8 * i) % 256 / 8 % 4) (poolByte a b (sel / 2 ^ (8 * i) % 256 % 8)) :=
  bytes_fold (fun i => byteMode (sel / 2 ^ (8 * i) % 256 / 8 % 4) (poolByte a b (sel / 2 ^ (8 * i) % 256 % 8)))
    fun _ => byteMode_lt _ _ (poolByte_lt _ _ _)

end Sys2Proof.Machine
end

