-- ==== Sys2Proof/Laws/Maps.lean ====
section
/-! SUPPORT. The laws of the keyed maps, sets, byte memories and lane masks that the state is made of: reading after writing,
and that every operation keeps the canonical form. -/

namespace Sys2Proof.Machine

variable {α : Type}

/-! ### Keyed maps -/

/-- Keys strictly rising. -/
abbrev Rising (m : KV α) : Prop := m.Pairwise fun a b => a.1 < b.1

theorem kvGet_none_of_lt {m : KV α} {x : Nat} (h : ∀ e ∈ m, x < e.1) : kvGet m x = none := by
  cases m with
  | nil => rfl
  | cons e t =>
    have := h e (by simp)
    obtain ⟨k, v⟩ := e
    simp only at this
    rw [kvGet, if_neg (by omega), if_pos this]

@[simp] theorem kvGet_kvSet_same (m : KV α) (x : Nat) (v : α) : kvGet (kvSet m x v) x = some v := by
  induction m with
  | nil => simp [kvSet, kvGet]
  | cons e t ih =>
    obtain ⟨k, w⟩ := e
    rw [kvSet]
    split
    · simp [kvGet]
    · split
      · simp [kvGet]
      · rw [kvGet, if_neg ‹_›, if_neg ‹_›, ih]

theorem kvGet_kvSet_ne {m : KV α} {x y : Nat} {v : α} (h : y ≠ x) : kvGet (kvSet m x v) y = kvGet m y := by
  induction m with
  | nil => simp [kvSet, kvGet]; omega
  | cons e t ih =>
    obtain ⟨k, w⟩ := e
    rw [kvSet]
    split
    · rename_i hk
      simp only [kvGet, hk, if_neg (Ne.symm h)]
    · split
      · rename_i h1 h2
        rw [kvGet, if_neg (Ne.symm h)]
        split
        · rw [kvGet, if_neg (by omega), if_pos (by omega)]
        · rfl
      · simp only [kvGet, ih]

theorem kvGet_kvSet (m : KV α) (x y : Nat) (v : α) :
    kvGet (kvSet m x v) y = if y = x then some v else kvGet m y := by
  split
  · subst_vars; simp
  · exact kvGet_kvSet_ne ‹_›

@[simp] theorem kvD_kvSet_same (m : KV α) (x : Nat) (v d : α) : kvD (kvSet m x v) x d = v := by simp [kvD]

theorem kvD_kvSet_ne {m : KV α} {x y : Nat} {v d : α} (h : y ≠ x) : kvD (kvSet m x v) y d = kvD m y d := by
  simp [kvD, kvGet_kvSet_ne h]

theorem kvD_kvSet (m : KV α) (x y : Nat) (v d : α) : kvD (kvSet m x v) y d = if y = x then v else kvD m y d := by
  split
  · subst_vars; simp
  · exact kvD_kvSet_ne ‹_›

theorem kvGet_kvMod (m : KV α) (x y : Nat) (f : α → α) :
    kvGet (kvMod m x f) y = if y = x then (kvGet m y).map f else kvGet m y := by
  induction m with
  | nil => simp [kvMod, kvGet]
  | cons e t ih =>
    obtain ⟨k, w⟩ := e
    simp only [kvMod, List.map_cons] at ih ⊢
    by_cases hk : k = x
    · subst hk
      simp only [if_true]
      by_cases hy : y = k
      · subst hy; simp [kvGet]
      · simp only [if_neg hy] at ih ⊢
        rw [kvGet, kvGet, if_neg (Ne.symm hy), if_neg (Ne.symm hy), ih]
    · simp only [if_neg hk]
      rw [kvGet, kvGet, ih]
      by_cases hky : k = y
      · subst hky; simp [hk]
      · simp only [if_neg hky]
        split <;> split <;> simp_all

@[simp] theorem kvGet_kvMod_same (m : KV α) (x : Nat) (f : α → α) : kvGet (kvMod m x f) x = (kvGet m x).map f := by
  simp [kvGet_kvMod]

theorem kvGet_kvMod_ne {m : KV α} {x y : Nat} {f : α → α} (h : y ≠ x) : kvGet (kvMod m x f) y = kvGet m y := by
  simp [kvGet_kvMod, h]

theorem kvGet_kvMap (m : KV α) (f : Nat → α → α) (x : Nat) : kvGet (kvMap m f) x = (kvGet m x).map (f x) := by
  induction m with
  | nil => rfl
  | cons e t ih =>
    obtain ⟨k, w⟩ := e
    simp only [kvMap, List.map_cons] at ih ⊢
    rw [kvGet, kvGet]
    split
    · subst_vars; rfl
    · split
      · rfl
      · exact ih

theorem kvGet_mem {m : KV α} {x : Nat} {v : α} (h : kvGet m x = some v) : (x, v) ∈ m := by
  induction m with
  | nil => simp [kvGet] at h
  | cons e t ih =>
    obtain ⟨k, w⟩ := e
    rw [kvGet] at h
    split at h
    · simp_all
    · split at h
      · simp at h
      · exact List.mem_cons_of_mem _ (ih h)

theorem kvSet_mem {m : KV α} {x : Nat} {v : α} {e : Nat × α} (h : e ∈ kvSet m x v) : e = (x, v) ∨ e ∈ m := by
  induction m with
  | nil => simp_all [kvSet]
  | cons c t ih =>
    obtain ⟨k, w⟩ := c
    rw [kvSet] at h
    split at h
    · simp only [List.mem_cons] at h ⊢
      exact h.elim .inl fun h => .inr (.inr h)
    · split at h
      · simpa using h
      · simp only [List.mem_cons] at h ⊢
        rcases h with h | h
        · exact .inr (.inl h)
        · exact (ih h).elim .inl fun h => .inr (.inr h)

theorem kvDel_mem {m : KV α} {x : Nat} {e : Nat × α} (h : e ∈ kvDel m x) : e ∈ m := by
  induction m with
  | nil => simp [kvDel] at h
  | cons c t ih =>
    obtain ⟨k, w⟩ := c
    rw [kvDel] at h
    split at h
    · exact List.mem_cons_of_mem _ h
    · split at h
      · exact h
      · simp only [List.mem_cons] at h ⊢
        exact h.elim .inl fun h => .inr (ih h)

theorem kvSet_rising {m : KV α} (h : Rising m) (x : Nat) (v : α) : Rising (kvSet m x v) := by
  induction m with
  | nil => simp [kvSet]
  | cons c t ih =>
    obtain ⟨k, w⟩ := c
    have ⟨h1, h2⟩ := List.pairwise_cons.1 h
    rw [kvSet]
    split
    · subst_vars; exact List.pairwise_cons.2 ⟨h1, h2⟩
    · split
      · refine List.pairwise_cons.2 ⟨?_, h⟩
        intro e he
        rcases List.mem_cons.1 he with rfl | he
        · assumption
        · have := h1 e he; simp only at this ⊢; omega
      · refine List.pairwise_cons.2 ⟨?_, ih h2⟩
        intro e he
        rcases kvSet_mem he with rfl | he
        · simp only; omega
        · exact h1 e he

theorem kvDel_rising {m : KV α} (h : Rising m) (x : Nat) : Rising (kvDel m x) := by
  induction m with
  | nil => simp [kvDel]
  | cons c t ih =>
    obtain ⟨k, w⟩ := c
    have ⟨h1, h2⟩ := List.pairwise_cons.1 h
    rw [kvDel]
    split
    · exact h2
    · split
      · exact h
      · exact List.pairwise_cons.2 ⟨fun e he => h1 e (kvDel_mem he), ih h2⟩

theorem kvGet_kvDel_same {m : KV α} (h : Rising m) (x : Nat) : kvGet (kvDel m x) x = none := by
  induction m with
  | nil => rfl
  | cons c t ih =>
    obtain ⟨k, w⟩ := c
    have ⟨h1, h2⟩ := List.pairwise_cons.1 h
    rw [kvDel]
    split
    · subst_vars; exact kvGet_none_of_lt h1
    · split
      · rw [kvGet, if_neg ‹_›, if_pos ‹_›]
      · rw [kvGet, if_neg ‹_›, if_neg ‹_›, ih h2]

theorem kvGet_kvDel_ne {m : KV α} (h : Rising m) {x y : Nat} (hy : y ≠ x) : kvGet (kvDel m x) y = kvGet m y := by
  induction m with
  | nil => rfl
  | cons c t ih =>
    obtain ⟨k, w⟩ := c
    have ⟨h1, h2⟩ := List.pairwise_cons.1 h
    rw [kvDel]
    split
    · subst_vars
      rw [kvGet, if_neg (Ne.symm hy)]
      split
      · exact kvGet_none_of_lt fun e he => by have := h1 e he; simp only at this; omega
      · rfl
    · split
      · rfl
      · rw [kvGet, kvGet, ih h2]

/-! ### Byte memory -/

theorem cellSet_wf {m : List Host.Cell} (h : Memory.wf m) (a : Nat) (b : Byte) : Memory.wf (cellSet m a b) := by
  rw [cellSet]
  split
  · exact ⟨kvDel_rising h.1 a, fun c hc => h.2 c (kvDel_mem hc)⟩
  · refine ⟨kvSet_rising h.1 a b, fun c hc => ?_⟩
    rcases kvSet_mem hc with rfl | hc
    · assumption
    · exact h.2 c hc

theorem cellsSet_wf {m : List Host.Cell} (h : Memory.wf m) (a : Nat) (l : List Byte) : Memory.wf (cellsSet m a l) := by
  induction l generalizing m a with
  | nil => exact h
  | cons b t ih => exact ih (cellSet_wf h a b) (a + 1)

theorem cellsClear_wf {m : List Host.Cell} (h : Memory.wf m) (lo hi : Nat) : Memory.wf (cellsClear m lo hi) :=
  ⟨h.1.filter _, fun c hc => h.2 c (List.mem_of_mem_filter hc)⟩

theorem cellGet_cellSet {m : List Host.Cell} (h : Memory.wf m) (a b : Nat) (v : Byte) :
    cellGet (cellSet m a v) b = if b = a then v else cellGet m b := by
  rw [cellSet]
  split
  · subst_vars
    split
    · subst_vars; simp [cellGet, kvGet_kvDel_same h.1]
    · simp [cellGet, kvGet_kvDel_ne h.1 ‹_›]
  · simp only [cellGet, kvGet_kvSet]
    split <;> simp

/-- Reading a byte after a write of bytes: the byte written there, or the one that was there. -/
theorem cellGet_cellsSet {m : List Host.Cell} (h : Memory.wf m) (a b : Nat) (l : List Byte) :
    cellGet (cellsSet m a l) b = if a ≤ b ∧ b < a + l.length then l.getD (b - a) 0 else cellGet m b := by
  induction l generalizing m a with
  | nil => simp [cellsSet]
  | cons v t ih =>
    rw [cellsSet, ih (cellSet_wf h a v), cellGet_cellSet h]
    by_cases hb : b = a
    · subst hb; simp
    · simp only [List.length_cons, if_neg hb]
      by_cases h1 : a + 1 ≤ b ∧ b < a + 1 + t.length
      · have h2 : a ≤ b ∧ b < a + (t.length + 1) := by omega
        rw [if_pos h1, if_pos h2]
        have : b - a = (b - (a + 1)) + 1 := by omega
        rw [this, List.getD_cons_succ]
      · rw [if_neg h1, if_neg (by omega)]

/-- Equal canonical memories are those that read the same everywhere. -/
theorem cell_ext {m n : List Host.Cell} (hm : Memory.wf m) (hn : Memory.wf n) (h : ∀ a, cellGet m a = cellGet n a) : m = n := by
  induction m generalizing n with
  | nil =>
    cases n with
    | nil => rfl
    | cons c t =>
      have := h c.1
      have hc := hn.2 c (by simp)
      simp [cellGet, kvGet] at this
      exact absurd this.symm hc
  | cons c t ih =>
    obtain ⟨k, v⟩ := c
    have ⟨h1, h2⟩ := List.pairwise_cons.1 hm.1
    have hv := hm.2 (k, v) (by simp)
    cases n with
    | nil =>
      have := h k
      simp [cellGet, kvGet] at this
      exact absurd this hv
    | cons d u =>
      obtain ⟨k', v'⟩ := d
      have ⟨g1, g2⟩ := List.pairwise_cons.1 hn.1
      have hv' := hn.2 (k', v') (by simp)
      have hk : k = k' := by
        by_contra hne
        rcases Nat.lt_or_gt_of_ne hne with hlt | hlt
        · have := h k
          simp [cellGet, kvGet, if_neg (Ne.symm hne), hlt] at this
          exact hv this
        · have := h k'
          simp [cellGet, kvGet, if_neg hne, hlt] at this
          exact hv' this.symm
      subst hk
      have hvv : v = v' := by simpa [cellGet, kvGet] using h k
      subst hvv
      congr 1
      refine ih ⟨h2, fun c hc => hm.2 c (List.mem_cons_of_mem _ hc)⟩ ⟨g2, fun c hc => hn.2 c (List.mem_cons_of_mem _ hc)⟩ fun a => ?_
      by_cases ha : a ≤ k
      · have e1 : kvGet t a = none := kvGet_none_of_lt fun e he => by have := h1 e he; simp only at this; omega
        have e2 : kvGet u a = none := kvGet_none_of_lt fun e he => by have := g1 e he; simp only at this; omega
        simp [cellGet, e1, e2]
      · have := h a
        simp only [cellGet, kvGet, if_neg (show ¬k = a by omega), if_neg (show ¬a < k by omega)] at this
        exact this

/-! ### Sets -/

theorem mem_setIns {m : List Nat} {x y : Nat} : y ∈ setIns m x ↔ y = x ∨ y ∈ m := by
  induction m with
  | nil => simp [setIns]
  | cons k t ih =>
    rw [setIns]
    split
    · subst_vars; simp
    · split
      · simp
      · simp only [List.mem_cons, ih]; tauto

theorem mem_setDel {m : List Nat} {x y : Nat} : y ∈ setDel m x ↔ y ∈ m ∧ y ≠ x := by simp [setDel]

@[simp] theorem contains_setDel_same (m : List Nat) (x : Nat) : (setDel m x).contains x = false := by
  simp [setDel]

/-! ### Masks -/

theorem mem_lanesOf {m : Mask} {l : Nat} : l ∈ lanesOf m ↔ l < 64 ∧ m.getLsbD l = true := by
  simp [lanesOf]

theorem lanesOf_nodup (m : Mask) : (lanesOf m).Nodup := List.Nodup.filter _ List.nodup_range

@[simp] theorem lanesOf_zero : lanesOf 0 = [] := by
  simp [lanesOf]

theorem lanesOf_eq_nil {m : Mask} : lanesOf m = [] ↔ m = 0 := by
  constructor
  · intro h
    ext i hi
    have : i ∉ lanesOf m := by simp [h]
    simp only [mem_lanesOf, not_and, Bool.not_eq_true] at this
    simpa [BitVec.getLsbD_eq_getElem hi] using this hi
  · rintro rfl; exact lanesOf_zero

theorem maskMerge_getLsbD (sel new old : Mask) (l : Nat) :
    (maskMerge sel new old).getLsbD l = if sel.getLsbD l then new.getLsbD l else old.getLsbD l := by
  by_cases hl : l < 64
  · simp only [maskMerge, BitVec.getLsbD_or, BitVec.getLsbD_and, BitVec.getLsbD_not, hl, decide_true, Bool.true_and]
    cases sel.getLsbD l <;> simp
  · simp [BitVec.getLsbD_of_ge _ _ (Nat.le_of_not_lt hl)]

theorem laneBit_getLsbD (k l : Nat) (hl : l < 64) : (laneBit k).getLsbD l = decide (l = k) := by
  simp only [laneBit, BitVec.getLsbD_ofNat, Nat.testBit_two_pow, hl, decide_true, Bool.true_and]
  exact decide_eq_decide.2 eq_comm

theorem maskOf_getLsbD (ls : List Nat) (l : Nat) (hl : l < 64) : (maskOf ls).getLsbD l = decide (l ∈ ls) := by
  have key : ∀ (m : Mask), (ls.foldl (fun m l => m ||| laneBit l) m).getLsbD l = (m.getLsbD l || decide (l ∈ ls)) := by
    induction ls with
    | nil => simp
    | cons a t ih =>
      intro m
      rw [List.foldl_cons, ih, BitVec.getLsbD_or, laneBit_getLsbD _ _ hl]
      simp [Bool.or_assoc]
  simp [maskOf, key]

theorem maskWhere_getLsbD (w : Nat) (f : Nat → Bool) (l : Nat) (hl : l < 64) :
    (maskWhere w f).getLsbD l = (decide (l < w) && f l) := by
  rw [maskWhere, maskOf_getLsbD _ _ hl]
  simp

theorem lt_of_getLsbD {m : Mask} {l : Nat} (h : m.getLsbD l = true) : l < 64 := by
  by_contra hc
  simp [BitVec.getLsbD_of_ge m l (Nat.le_of_not_lt hc)] at h

theorem maskBelow_getLsbD (w : Nat) (l : Nat) (hl : l < 64) : (maskBelow w).getLsbD l = decide (l < w) := by
  rw [maskBelow, BitVec.getLsbD_ofNat, Nat.testBit_two_pow_sub_one]
  simp [hl]

end Sys2Proof.Machine
end

