-- ==== Sys2Proof/Laws/Registers.lean ====
section
/-! SUPPORT. Register files after a write: one lemma per file for each way a destination is written (R65, R69-R72). -/

namespace Sys2Proof.Machine

/-! ### One register -/

@[simp] theorem putMain_s (r : Regs) (g l : Nat) (v : W32) : (r.putMain g l v).s = r.s := rfl
@[simp] theorem putMain_sempty (r : Regs) (g l : Nat) (v : W32) : (r.putMain g l v).sempty = r.sempty := rfl
@[simp] theorem putMain_spoison (r : Regs) (g l : Nat) (v : W32) : (r.putMain g l v).spoison = r.spoison := rfl
@[simp] theorem putMain_p (r : Regs) (g l : Nat) (v : W32) : (r.putMain g l v).p = r.p := rfl
@[simp] theorem putMain_pempty (r : Regs) (g l : Nat) (v : W32) : (r.putMain g l v).pempty = r.pempty := rfl
@[simp] theorem putMain_fnv (r : Regs) (g l : Nat) (v : W32) : (r.putMain g l v).fnv = r.fnv := rfl
@[simp] theorem putMain_fdz (r : Regs) (g l : Nat) (v : W32) : (r.putMain g l v).fdz = r.fdz := rfl
@[simp] theorem putMain_fof (r : Regs) (g l : Nat) (v : W32) : (r.putMain g l v).fof = r.fof := rfl
@[simp] theorem putMain_fuf (r : Regs) (g l : Nat) (v : W32) : (r.putMain g l v).fuf = r.fuf := rfl
@[simp] theorem putMain_fnx (r : Regs) (g l : Nat) (v : W32) : (r.putMain g l v).fnx = r.fnx := rfl
@[simp] theorem putScalar_v (r : Regs) (g : Nat) (v : W32) : (r.putScalar g v).v = r.v := rfl
@[simp] theorem putScalar_vempty (r : Regs) (g : Nat) (v : W32) : (r.putScalar g v).vempty = r.vempty := rfl
@[simp] theorem putScalar_vpoison (r : Regs) (g : Nat) (v : W32) : (r.putScalar g v).vpoison = r.vpoison := rfl
@[simp] theorem putScalar_p (r : Regs) (g : Nat) (v : W32) : (r.putScalar g v).p = r.p := rfl
@[simp] theorem putScalar_pempty (r : Regs) (g : Nat) (v : W32) : (r.putScalar g v).pempty = r.pempty := rfl
@[simp] theorem putScalar_fnv (r : Regs) (g : Nat) (v : W32) : (r.putScalar g v).fnv = r.fnv := rfl
@[simp] theorem putScalar_fdz (r : Regs) (g : Nat) (v : W32) : (r.putScalar g v).fdz = r.fdz := rfl
@[simp] theorem putScalar_fof (r : Regs) (g : Nat) (v : W32) : (r.putScalar g v).fof = r.fof := rfl
@[simp] theorem putScalar_fuf (r : Regs) (g : Nat) (v : W32) : (r.putScalar g v).fuf = r.fuf := rfl
@[simp] theorem putScalar_fnx (r : Regs) (g : Nat) (v : W32) : (r.putScalar g v).fnx = r.fnx := rfl

theorem putMain_main (r : Regs) (g l h k : Nat) (v : W32) (hl : l < 64) (hk : k < 64) :
    (r.putMain g l v).main h k = if h = g ∧ k = l then v else r.main h k := by
  have e : (64 * h + k = 64 * g + l) ↔ (h = g ∧ k = l) := by omega
  simp only [Regs.main, Regs.putMain, kvD_kvSet, e]

theorem putMain_vempty (r : Regs) (g l x : Nat) (v : W32) :
    x ∈ (r.putMain g l v).vempty ↔ x ∈ r.vempty ∧ x ≠ 64 * g + l := mem_setDel

theorem putMain_vpoison (r : Regs) (g l x : Nat) (v : W32) :
    x ∈ (r.putMain g l v).vpoison ↔ x ∈ r.vpoison ∧ x ≠ 64 * g + l := mem_setDel

/-- What a register write leaves of the other files. -/
theorem putMainV_others (r : Regs) (g l : Nat) (wide : Bool) (v : Nat) :
    ScalarKept r (r.putMainV g l wide v) ∧ PredKept r (r.putMainV g l wide v) ∧ FlagsKept r (r.putMainV g l wide v) := by
  cases wide <;> simp [Regs.putMainV, ScalarKept, PredKept, FlagsKept]

theorem putScalarV_others (r : Regs) (g : Nat) (wide : Bool) (v : Nat) :
    MainKept r (r.putScalarV g wide v) ∧ PredKept r (r.putScalarV g wide v) ∧ FlagsKept r (r.putScalarV g wide v) := by
  cases wide <;> simp [Regs.putScalarV, MainKept, PredKept, FlagsKept]

/-- A main register or pair after its write in one lane. -/
theorem putMainV_main (r : Regs) (g l h k : Nat) (wide : Bool) (v : Nat) (hl : l < 64) (hk : k < 64) :
    (r.putMainV g l wide v).main h k =
      if k = l ∧ g ≤ h ∧ h < g + pairSize wide then resultWord v (h - g) else r.main h k := by
  cases wide
  · simp only [Regs.putMainV, pairSize, Bool.false_eq_true, if_false, putMain_main _ _ _ _ _ _ hl hk]
    by_cases e : h = g ∧ k = l
    · obtain ⟨rfl, rfl⟩ := e; simp [resultWord, lowWord]
    · rw [if_neg e, if_neg (by omega)]
  · simp only [Regs.putMainV, pairSize, if_true, putMain_main _ _ _ _ _ _ hl hk]
    by_cases e : h = g + 1 ∧ k = l
    · obtain ⟨rfl, rfl⟩ := e; simp [resultWord, highWord]
    · rw [if_neg e]
      by_cases e' : h = g ∧ k = l
      · obtain ⟨rfl, rfl⟩ := e'; simp [resultWord, lowWord]
      · rw [if_neg e', if_neg (by omega)]

theorem putMainV_vempty (r : Regs) (g l x : Nat) (wide : Bool) (v : Nat) :
    x ∈ (r.putMainV g l wide v).vempty ↔ x ∈ r.vempty ∧ ∀ j, j < pairSize wide → x ≠ 64 * (g + j) + l := by
  cases wide
  · simp only [Regs.putMainV, pairSize, Bool.false_eq_true, if_false, putMain_vempty]
    exact and_congr_right fun _ => ⟨fun h j hj => by obtain rfl : j = 0 := by omega
                                                     exact h, fun h => h 0 (by omega)⟩
  · simp only [Regs.putMainV, pairSize, if_true, putMain_vempty, and_assoc]
    refine and_congr_right fun _ => ⟨fun ⟨h0, h1⟩ j hj => ?_, fun h => ⟨h 0 (by omega), h 1 (by omega)⟩⟩
    rcases (by omega : j = 0 ∨ j = 1) with rfl | rfl
    · exact h0
    · exact h1

theorem putMainV_vpoison (r : Regs) (g l x : Nat) (wide : Bool) (v : Nat) :
    x ∈ (r.putMainV g l wide v).vpoison ↔ x ∈ r.vpoison ∧ ∀ j, j < pairSize wide → x ≠ 64 * (g + j) + l := by
  cases wide
  · simp only [Regs.putMainV, pairSize, Bool.false_eq_true, if_false, putMain_vpoison]
    exact and_congr_right fun _ => ⟨fun h j hj => by obtain rfl : j = 0 := by omega
                                                     exact h, fun h => h 0 (by omega)⟩
  · simp only [Regs.putMainV, pairSize, if_true, putMain_vpoison, and_assoc]
    refine and_congr_right fun _ => ⟨fun ⟨h0, h1⟩ j hj => ?_, fun h => ⟨h 0 (by omega), h 1 (by omega)⟩⟩
    rcases (by omega : j = 0 ∨ j = 1) with rfl | rfl
    · exact h0
    · exact h1

/-- The write of a lane list to main registers. -/
def mainFold (g : Nat) (wide : Bool) (r : Regs) (vals : List (Nat × Nat)) : Regs :=
  vals.foldl (fun r (l, v) => r.putMainV g l wide v) r

theorem mainFold_others (g : Nat) (wide : Bool) (r : Regs) (vals : List (Nat × Nat)) :
    ScalarKept r (mainFold g wide r vals) ∧ PredKept r (mainFold g wide r vals) ∧ FlagsKept r (mainFold g wide r vals) := by
  induction vals generalizing r with
  | nil => simp [mainFold, ScalarKept, PredKept, FlagsKept]
  | cons e t ih =>
    have h1 := putMainV_others r g e.1 wide e.2
    have h2 := ih (r.putMainV g e.1 wide e.2)
    simp only [mainFold, List.foldl_cons, ScalarKept, PredKept, FlagsKept] at h1 h2 ⊢
    simp only [h2, h1, and_self]

/-- The write of a value in each of some lanes: those lanes take their words, full and unpoisoned; the rest stands. -/
theorem mainFold_written (g : Nat) (wide : Bool) (r : Regs) (m : Mask) (f : Nat → Nat) :
    MainWritten r (mainFold g wide r ((lanesOf m).map fun l => (l, f l))) g (pairSize wide) m f := by
  have key : ∀ (ls : List Nat) (r : Regs), (∀ l ∈ ls, l < 64) →
      (∀ h k, k < 64 → (mainFold g wide r (ls.map fun l => (l, f l))).main h k =
        if k ∈ ls ∧ g ≤ h ∧ h < g + pairSize wide then resultWord (f k) (h - g) else r.main h k) ∧
      (∀ x, x ∈ (mainFold g wide r (ls.map fun l => (l, f l))).vempty ↔
        x ∈ r.vempty ∧ ∀ l ∈ ls, ∀ j, j < pairSize wide → x ≠ 64 * (g + j) + l) ∧
      (∀ x, x ∈ (mainFold g wide r (ls.map fun l => (l, f l))).vpoison ↔
        x ∈ r.vpoison ∧ ∀ l ∈ ls, ∀ j, j < pairSize wide → x ≠ 64 * (g + j) + l) := by
    intro ls
    induction ls with
    | nil => intro r _; simp [mainFold]
    | cons a t ih =>
      intro r hlt
      have ha := hlt a (by simp)
      obtain ⟨h1, h2, h3⟩ := ih (r.putMainV g a wide (f a)) fun l hl => hlt l (List.mem_cons_of_mem _ hl)
      refine ⟨fun h k hk => ?_, fun x => ?_, fun x => ?_⟩
      · have := h1 h k hk
        simp only [mainFold, List.map_cons, List.foldl_cons] at this ⊢
        rw [this, putMainV_main _ _ _ _ _ _ _ ha hk]
        by_cases hr : g ≤ h ∧ h < g + pairSize wide
        · by_cases hka : k = a
          · subst hka; simp [hr]
          · simp [hr, hka]
        · simp only [hr, and_false, if_false]
      · have := h2 x
        simp only [mainFold, List.map_cons, List.foldl_cons] at this ⊢
        rw [this, putMainV_vempty]
        simp only [List.mem_cons, forall_eq_or_imp, and_assoc]
      · have := h3 x
        simp only [mainFold, List.map_cons, List.foldl_cons] at this ⊢
        rw [this, putMainV_vpoison]
        simp only [List.mem_cons, forall_eq_or_imp, and_assoc]
  obtain ⟨h1, h2, h3⟩ := key (lanesOf m) r fun l hl => (mem_lanesOf.1 hl).1
  refine ⟨fun l j hl hj hm => ⟨?_, ?_, ?_⟩, fun h l hl hn => ⟨?_, ?_, ?_⟩⟩
  · rw [h1 _ _ hl, if_pos ⟨mem_lanesOf.2 ⟨hl, hm⟩, by omega, by omega⟩]; congr 1; omega
  · rw [h2]; exact fun hx => hx.2 l (mem_lanesOf.2 ⟨hl, hm⟩) j hj rfl
  · rw [h3]; exact fun hx => hx.2 l (mem_lanesOf.2 ⟨hl, hm⟩) j hj rfl
  · rw [h1 _ _ hl, if_neg]; exact fun hx => hn ⟨(mem_lanesOf.1 hx.1).2, hx.2⟩
  · rw [h2]; exact ⟨fun hx => hx.1, fun hx => ⟨hx, fun k hk j hj e => hn (by
      have := (mem_lanesOf.1 hk)
      obtain ⟨rfl, rfl⟩ : l = k ∧ h = g + j := by omega
      exact ⟨this.2, by omega, by omega⟩)⟩⟩
  · rw [h3]; exact ⟨fun hx => hx.1, fun hx => ⟨hx, fun k hk j hj e => hn (by
      have := (mem_lanesOf.1 hk)
      obtain ⟨rfl, rfl⟩ : l = k ∧ h = g + j := by omega
      exact ⟨this.2, by omega, by omega⟩)⟩⟩

theorem putScalarV_written (r : Regs) (g : Nat) (wide : Bool) (v : Nat) :
    ScalarWritten r (r.putScalarV g wide v) g (pairSize wide) v := by
  cases wide
  · refine ⟨fun j hj => ?_, fun h hh => ?_⟩
    · obtain rfl : j = 0 := by simpa [pairSize] using hj
      simp [Regs.putScalarV, Regs.putScalar, Regs.scal, resultWord, lowWord, mem_setDel]
    · simp only [pairSize, Bool.false_eq_true, if_false] at hh
      have : h ≠ g := by omega
      simp [Regs.putScalarV, Regs.putScalar, Regs.scal, mem_setDel, kvD_kvSet_ne this, this]
  · refine ⟨fun j hj => ?_, fun h hh => ?_⟩
    · have hj : j < 2 := hj
      rcases (by omega : j = 0 ∨ j = 1) with rfl | rfl
      · have : g ≠ g + 1 := by omega
        simp [Regs.putScalarV, Regs.putScalar, Regs.scal, resultWord, lowWord, mem_setDel, kvD_kvSet_ne this]
      · simp [Regs.putScalarV, Regs.putScalar, Regs.scal, resultWord, highWord, mem_setDel]
    · simp only [pairSize, if_true] at hh
      have h1 : h ≠ g := by omega
      have h2 : h ≠ g + 1 := by omega
      simp [Regs.putScalarV, Regs.putScalar, Regs.scal, mem_setDel, kvD_kvSet_ne h1, kvD_kvSet_ne h2, h1, h2]

end Sys2Proof.Machine
end

