-- ==== Sys2Proof/Laws/Issue.lean ====
section
/-! SUPPORT. What every Zorsis instruction shares, said once: passing the checks of R12, and what an instruction that writes one
destination does to its warp. -/

namespace Sys2Proof.Machine

/-- The checks let an instruction that issues go on to its meaning. -/
theorem gate_of_issues {i : Instr} {w : Enc} {s : State} {x : Site} (h : Issues i w s x) : gate i w s = .go x := by
  obtain ⟨y, h1, h2, h3, rfl, h4⟩ := h
  simp only [gate, h1, h2, h3, Bool.false_eq_true, if_false]
  have hsite : ({ y with act := pathLanes y.wp y.pa &&& (if isBrau i then ~~~0 else guardMask y.width y.wp w.guard) } : Site) =
    { y with act := activeLanes i w y } := rfl
  simp only [hsite]
  by_cases ha : ({ y with act := activeLanes i w y } : Site).act = 0
  · exact if_pos ha
  · obtain ⟨h5, h6, h7⟩ := h4.resolve_left ha
    refine (if_neg ha).trans ?_
    simp only at h5
    simp only [h5, h6, h7, Bool.false_eq_true, if_false]

theorem issue_go {i : Instr} {w : Enc} {s : State} {x : Site} (h : Issues i w s x) (body : Site → State → Act) :
    issueInstr i w s body = .next ((body x s).state w) := by
  simp only [issueInstr, gate_of_issues h]

/-- A warp after a site's changes to registers and run files, when the instruction goes on. -/
theorem advance_keeps (x y : Site) (w : Enc) (hrn : y.rn.slot = x.rn.slot ∧ y.rn.path = x.rn.path ∧ y.rn.files.count = x.rn.files.count)
    (hpa : y.pa = x.pa) (hwp : KeepsWarp x.wp y.wp) (hpt : y.wp.paths = x.wp.paths) :
    KeepsWarp x.wp (y.advance w) ∧ GoesOn w x (y.advance w) := by
  obtain ⟨h1, h2, h3⟩ := hrn
  constructor
  · unfold KeepsWarp at hwp ⊢
    rw [← hwp]
    unfold Site.advance Site.endRun
    split <;> rfl
  · refine ⟨fun k hk => ?_, ?_, ?_⟩
    · unfold Site.advance Site.endRun
      split <;> simp only [kvGet_kvSet, h2, hpt, if_neg hk]
    · unfold Site.advance Site.endRun
      split <;> simp [h2, hpa, Path.endedAt]
    · unfold Site.advance Site.endRun
      split <;> simp_all

theorem keepsWarp_refl (a : Warp) : KeepsWarp a a := rfl

theorem keepsWarp_regs (a : Warp) (r : Regs) : KeepsWarp a { a with regs := r } := rfl

@[simp] theorem advance_regs (x : Site) (w : Enc) : (x.advance w).regs = x.wp.regs := by
  unfold Site.advance Site.endRun; split <;> rfl

theorem advance_run (x : Site) (w : Enc) (h : w.bnd = false) :
    (x.advance w).run = some { x.rn with files := { x.rn.files with count := x.rn.files.count + 1 }, stalled := none } := by
  simp [Site.advance, h]

/-! ### Destinations -/

@[simp] theorem shiftDst_wp (x : Site) (o : Operand) (wide : Bool) : (x.shiftDst o wide).wp = x.wp := rfl
@[simp] theorem shiftDst_pa (x : Site) (o : Operand) (wide : Bool) : (x.shiftDst o wide).pa = x.pa := rfl
@[simp] theorem shiftDst_act (x : Site) (o : Operand) (wide : Bool) : (x.shiftDst o wide).act = x.act := rfl
@[simp] theorem shiftDst_ref (x : Site) (o : Operand) (wide : Bool) : (x.shiftDst o wide).ref = x.ref := rfl
@[simp] theorem shiftDst_k (x : Site) (o : Operand) (wide : Bool) : (x.shiftDst o wide).k = x.k := rfl
@[simp] theorem shiftDst_slot (x : Site) (o : Operand) (wide : Bool) : (x.shiftDst o wide).rn.slot = x.rn.slot := rfl
@[simp] theorem shiftDst_path (x : Site) (o : Operand) (wide : Bool) : (x.shiftDst o wide).rn.path = x.rn.path := rfl
@[simp] theorem shiftDst_count (x : Site) (o : Operand) (wide : Bool) :
    (x.shiftDst o wide).rn.files.count = x.rn.files.count := by cases wide <;> rfl
@[simp] theorem shiftDst_opf (x : Site) (o : Operand) (wide : Bool) :
    (x.shiftDst o wide).rn.files.opf = x.rn.files.opf := by cases wide <;> rfl

@[simp] theorem mapRegs_regs (x : Site) (f : Regs → Regs) : (x.mapRegs f).wp.regs = f x.wp.regs := rfl
@[simp] theorem mapRegs_rn (x : Site) (f : Regs → Regs) : (x.mapRegs f).rn = x.rn := rfl
@[simp] theorem mapRegs_pa (x : Site) (f : Regs → Regs) : (x.mapRegs f).pa = x.pa := rfl
@[simp] theorem mapRegs_act (x : Site) (f : Regs → Regs) : (x.mapRegs f).act = x.act := rfl
@[simp] theorem mapRegs_ref (x : Site) (f : Regs → Regs) : (x.mapRegs f).ref = x.ref := rfl
@[simp] theorem mapRegs_k (x : Site) (f : Regs → Regs) : (x.mapRegs f).k = x.k := rfl
@[simp] theorem mapRegs_paths (x : Site) (f : Regs → Regs) : (x.mapRegs f).wp.paths = x.wp.paths := rfl

/-- What a site changes when only registers and run files are written: nothing of the warp but its registers. -/
def RegsOnly (x y : Site) : Prop :=
  y.ref = x.ref ∧ y.cr = x.cr ∧ y.pa = x.pa ∧ y.k = x.k ∧ y.act = x.act ∧ y.rn.slot = x.rn.slot ∧ y.rn.path = x.rn.path ∧
    y.rn.files.count = x.rn.files.count ∧ y.wp = { x.wp with regs := y.wp.regs }

theorem RegsOnly.refl (x : Site) : RegsOnly x x := ⟨rfl, rfl, rfl, rfl, rfl, rfl, rfl, rfl, rfl⟩

theorem RegsOnly.trans {x y z : Site} (h : RegsOnly x y) (g : RegsOnly y z) : RegsOnly x z := by
  obtain ⟨h1, h2, h3, h4, h5, h6, h7, h8, h9⟩ := h
  obtain ⟨g1, g2, g3, g4, g5, g6, g7, g8, g9⟩ := g
  refine ⟨g1.trans h1, g2.trans h2, g3.trans h3, g4.trans h4, g5.trans h5, g6.trans h6, g7.trans h7, g8.trans h8, ?_⟩
  rw [g9, h9]

theorem regsOnly_mapRegs (x : Site) (f : Regs → Regs) : RegsOnly x (x.mapRegs f) := ⟨rfl, rfl, rfl, rfl, rfl, rfl, rfl, rfl, rfl⟩

theorem regsOnly_putPred (x : Site) (o : Operand) (v : Mask) : RegsOnly x (x.putPred o v) := regsOnly_mapRegs x _

theorem regsOnly_shiftDst (x : Site) (o : Operand) (wide : Bool) : RegsOnly x (x.shiftDst o wide) :=
  ⟨rfl, rfl, rfl, rfl, rfl, rfl, rfl, by simp, rfl⟩

theorem regsOnly_writeDst (x : Site) (o : Operand) (wide : Bool) (vals : List (Nat × Nat)) : RegsOnly x (x.writeDst o wide vals) := by
  unfold Site.writeDst
  split
  · split
    · exact RegsOnly.refl x
    · exact regsOnly_mapRegs x _
  · exact regsOnly_mapRegs x _
  · exact ⟨rfl, rfl, rfl, rfl, rfl, rfl, rfl, rfl, rfl⟩
  · exact RegsOnly.refl x

theorem regsOnly_putDst (x : Site) (o : Operand) (wide : Bool) (vals : List (Nat × Nat)) : RegsOnly x (x.putDst o wide vals) := by
  unfold Site.putDst
  split
  · exact regsOnly_writeDst x o wide vals
  · exact (regsOnly_writeDst x o wide vals).trans (regsOnly_shiftDst _ o wide)

/-- The warp and the path after an instruction that wrote registers and run files only. -/
theorem RegsOnly.advance {x y : Site} (h : RegsOnly x y) (w : Enc) :
    KeepsWarp x.wp (y.advance w) ∧ GoesOn w x (y.advance w) := by
  obtain ⟨_, _, h3, _, _, h6, h7, h8, h9⟩ := h
  refine advance_keeps x y w ⟨h6, h7, h8⟩ h3 ?_ ?_
  · rw [h9]; exact keepsWarp_regs _ _
  · rw [h9]

@[simp] theorem writeDst_opf (x : Site) (o : Operand) (wide : Bool) (vals : List (Nat × Nat)) (h : o.file ≠ .side) :
    (x.writeDst o wide vals).rn = x.rn := by
  unfold Site.writeDst
  split
  · split <;> rfl
  · rfl
  · contradiction
  · rfl

/-- The operand file after the values of some lanes are written to it. -/
theorem opf_written (e : Nat) (wide : Bool) (m : Mask) (f : Nat → Nat) (o : KV W32) (l j : Nat) (hl : l < 64)
    (hj : j < pairSize wide) (hm : m.getLsbD l = true) :
    kvD (((lanesOf m).map fun l => (l, f l)).foldl (fun m (e' : Nat × Nat) =>
      let m := kvSet m (64 * e + e'.1) (lowWord e'.2)
      if wide then kvSet m (64 * (e + 1) + e'.1) (highWord e'.2) else m) o) (64 * (e + j) + l) 0 = resultWord (f l) j := by
  have key : ∀ (ls : List Nat) (o : KV W32), (∀ k ∈ ls, k < 64) → ls.Nodup →
      kvD ((ls.map fun l => (l, f l)).foldl (fun m (e' : Nat × Nat) =>
        let m := kvSet m (64 * e + e'.1) (lowWord e'.2)
        if wide then kvSet m (64 * (e + 1) + e'.1) (highWord e'.2) else m) o) (64 * (e + j) + l) 0 =
        if l ∈ ls then resultWord (f l) j else kvD o (64 * (e + j) + l) 0 := by
    intro ls
    induction ls with
    | nil => intro o _ _; simp
    | cons a t ih =>
      intro o hlt hnd
      have ha := hlt a (by simp)
      rw [List.map_cons, List.foldl_cons, ih _ (fun k hk => hlt k (List.mem_cons_of_mem _ hk)) (List.nodup_cons.1 hnd).2]
      by_cases hla : l = a
      · subst hla
        have : l ∉ t := (List.nodup_cons.1 hnd).1
        simp only [this, if_false, List.mem_cons, true_or, if_true]
        cases wide
        · obtain rfl : j = 0 := by simpa [pairSize] using hj
          simp [resultWord, lowWord]
        · have hj : j < 2 := hj
          rcases (by omega : j = 0 ∨ j = 1) with rfl | rfl
          · have : 64 * (e + 0) + l ≠ 64 * (e + 1) + l := by omega
            rw [if_pos rfl, kvD_kvSet_ne this, Nat.add_zero, kvD_kvSet_same]
            simp [resultWord, lowWord]
          · simp [resultWord, highWord]
      · have h1 : 64 * (e + j) + l ≠ 64 * e + a := by omega
        have h2 : 64 * (e + j) + l ≠ 64 * (e + 1) + a := by omega
        have e1 : (l ∈ a :: t) ↔ l ∈ t := by simp [hla]
        simp only [e1]
        split
        · rfl
        · cases wide <;> simp [kvD_kvSet_ne h1, kvD_kvSet_ne h2]
  rw [key _ _ (fun k hk => (mem_lanesOf.1 hk).1) (lanesOf_nodup m), if_pos (mem_lanesOf.2 ⟨hl, hm⟩)]

theorem writeDst_regs_main (x : Site) (o : Operand) (wide : Bool) (vals : List (Nat × Nat)) (h : o.file = .main) :
    (x.writeDst o wide vals).wp.regs = mainFold o.idx.toNat wide x.wp.regs vals := by
  simp only [Site.writeDst, h, mapRegs_regs, mainFold]

theorem writeDst_regs_side (x : Site) (o : Operand) (wide : Bool) (vals : List (Nat × Nat)) (h : o.file = .side) :
    (x.writeDst o wide vals).wp.regs = x.wp.regs := by
  simp only [Site.writeDst, h]

theorem lanes_nil (x : Site) (f : Nat → Nat) (h : x.act = 0) : x.lanes f = [] := by
  rw [Site.lanes, h, lanesOf_zero]; rfl

theorem lanes_head (x : Site) (f : Nat → Nat) (h : x.act ≠ 0) : ∃ t, x.lanes f = (lowLane x.act, f (lowLane x.act)) :: t := by
  have : lanesOf x.act ≠ [] := fun e => h (lanesOf_eq_nil.1 e)
  cases e : lanesOf x.act with
  | nil => exact absurd e this
  | cons a t => exact ⟨t.map fun l => (l, f l), by simp [Site.lanes, e, lowLane]⟩

/-- The registers after a destination is written in every active lane. -/
theorem putDst_regs (x : Site) (o : Operand) (wide : Bool) (vals : List (Nat × Nat)) :
    (x.putDst o wide vals).wp.regs = (x.writeDst o wide vals).wp.regs := by
  unfold Site.putDst; split <;> simp

theorem putDst_others (x : Site) (o : Operand) (wide : Bool) (vals : List (Nat × Nat)) :
    PredKept x.wp.regs (x.putDst o wide vals).wp.regs ∧ FlagsKept x.wp.regs (x.putDst o wide vals).wp.regs := by
  rw [putDst_regs]
  cases h : o.file with
  | main => rw [writeDst_regs_main _ _ _ _ h]; exact (mainFold_others _ _ _ _).2
  | side => rw [writeDst_regs_side _ _ _ _ h]; simp [PredKept, FlagsKept]
  | pred => simp [Site.writeDst, h, PredKept, FlagsKept]
  | scalar =>
    cases vals with
    | nil => simp [Site.writeDst, h, PredKept, FlagsKept]
    | cons e t => simp only [Site.writeDst, h, mapRegs_regs]; exact (putScalarV_others _ _ _ _).2

/-- A destination written in every active lane reads as DestWritten says, in any warp with those registers and files. -/
theorem putDst_written (x : Site) (w : Enc) (o : Operand) (wide : Bool) (f : Nat → Nat) (b : Warp)
    (hregs : MainKept (x.putDst o wide (x.lanes f)).wp.regs b.regs ∧ ScalarKept (x.putDst o wide (x.lanes f)).wp.regs b.regs)
    (hrun : w.bnd = false → ∀ r, b.run = some r → r.files.opf = (x.putDst o wide (x.lanes f)).rn.files.opf) :
    DestWritten x w b o wide f := by
  rw [putDst_regs] at hregs
  obtain ⟨⟨m1, m2, m3⟩, s1, s2, s3⟩ := hregs
  unfold DestWritten
  cases h : o.file with
  | main =>
    rw [writeDst_regs_main _ _ _ _ h] at m1 m2 m3 s1 s2 s3
    have key := mainFold_written o.idx.toNat wide x.wp.regs x.act f
    have oth := (mainFold_others o.idx.toNat wide x.wp.regs (x.lanes f)).1
    refine ⟨?_, ?_⟩
    · simpa only [MainWritten, Regs.main, Site.lanes, m1, m2, m3] using key
    · simpa only [ScalarKept, s1, s2, s3] using oth
  | side =>
    rw [writeDst_regs_side _ _ _ _ h] at m1 m2 m3 s1 s2 s3
    refine ⟨⟨m1, m2, m3⟩, ⟨s1, s2, s3⟩, fun hb r hr l j hl hj hm => ?_⟩
    have e : (x.putDst o wide (x.lanes f)).rn.files.opf = (x.writeDst o wide (x.lanes f)).rn.files.opf := by
      unfold Site.putDst; split <;> simp
    rw [hrun hb r hr, e]
    simp only [Site.writeDst, h, Site.lanes]
    exact opf_written _ wide x.act f _ l j hl hj hm
  | pred =>
    simp only [Site.writeDst, h] at m1 m2 m3 s1 s2 s3
    exact ⟨⟨m1, m2, m3⟩, s1, s2, s3⟩
  | scalar =>
    by_cases ha : x.act = 0
    · simp only [Site.writeDst, h, lanes_nil x f ha] at m1 m2 m3 s1 s2 s3
      rw [if_pos ha]
      exact ⟨⟨m1, m2, m3⟩, s1, s2, s3⟩
    · obtain ⟨t, ht⟩ := lanes_head x f ha
      simp only [Site.writeDst, h, ht, mapRegs_regs] at m1 m2 m3 s1 s2 s3
      rw [if_neg ha]
      have oth := (putScalarV_others x.wp.regs o.idx.toNat wide (f (lowLane x.act))).1
      have key := putScalarV_written x.wp.regs o.idx.toNat wide (f (lowLane x.act))
      refine ⟨?_, ?_⟩
      · simpa only [MainKept, m1, m2, m3] using oth
      · simpa only [ScalarWritten, Regs.scal, s1, s2, s3] using key

/-! ### Shapes of lane arithmetic -/

/-- An instruction whose one result goes to D gives it, and changes nothing else. -/
theorem aluD_gives {i : Instr} {w : Enc} {s : State} {x : Site} (h : Issues i w s x) (wide : Bool) (f : Site → Nat → Nat) :
    GivesD (aluD i w s wide f) w s x wide (f x) := by
  have hr := regsOnly_putDst x w.d wide (x.lanes (f x))
  refine ⟨(x.putDst w.d wide (x.lanes (f x))).advance w, ?_, (hr.advance w).1, (hr.advance w).2, ?_, ?_, ?_⟩
  · rw [aluD, issue_go h]
    simp only [onSite, Act.state, Site.put, hr.1]
  · refine putDst_written x w w.d wide (f x) _ (by simp [MainKept, ScalarKept]) fun hb r hrun => ?_
    rw [advance_run _ _ hb] at hrun
    cases hrun; rfl
  · rw [advance_regs]; exact (putDst_others x w.d wide _).1
  · rw [advance_regs]; exact (putDst_others x w.d wide _).2

/-- A predicate destination reads as PredWritten says. -/
theorem putPred_written (x : Site) (o : Operand) (f : Nat → Bool) (b : Warp) (ha : x.act ≠ 0)
    (hb : PredKept (x.putPred o (maskWhere x.width f)).wp.regs b.regs) : PredWritten x b o f := by
  obtain ⟨h1, h2⟩ := hb
  simp only [Site.putPred, mapRegs_regs, Regs.putPred] at h1 h2
  rw [PredWritten, if_neg ha]
  refine ⟨fun l hl hm => ?_, fun l hm => ?_, ?_, fun r hr => ⟨?_, ?_⟩⟩
  · simp [Regs.pmask, h1, maskMerge_getLsbD, hm, maskWhere_getLsbD _ _ _ (lt_of_getLsbD hm), hl]
  · simp [Regs.pmask, h1, maskMerge_getLsbD, hm]
  · simp [h2, mem_setDel]
  · simp [Regs.pmask, h1, kvD_kvSet_ne hr]
  · simp [h2, mem_setDel, hr]

/-- An instruction whose one result is a predicate gives it. -/
theorem aluP_gives {i : Instr} {w : Enc} {s : State} {x : Site} (h : Issues i w s x) (f : Site → Nat → Bool) :
    GivesP (aluP i w s f) w s x (f x) := by
  by_cases ha : x.act = 0
  · have hr := RegsOnly.refl x
    refine ⟨x.advance w, ?_, (hr.advance w).1, (hr.advance w).2, ?_, ?_⟩
    · rw [aluP, issue_go h]; simp only [onSite, Act.state, Site.put, if_pos ha]
    · rw [PredWritten, if_pos ha, advance_regs]; simp [PredKept]
    · simp [MainKept, ScalarKept, FlagsKept]
  · have hr := regsOnly_putPred x w.d (maskWhere x.width (f x))
    refine ⟨(x.putPred w.d (maskWhere x.width (f x))).advance w, ?_, (hr.advance w).1, (hr.advance w).2, ?_, ?_⟩
    · rw [aluP, issue_go h]; simp only [onSite, Act.state, Site.put, if_neg ha, hr.1]
    · exact putPred_written x w.d (f x) _ ha (by rw [advance_regs]; simp [PredKept])
    · simp [MainKept, ScalarKept, FlagsKept, Site.putPred, Regs.putPred]

/-- An instruction of the one-result shape computes what its value function computes. -/
theorem computes_aluD {i : Instr} {w : Enc} {wide : Bool} {f : State → Site → Nat → Nat} {r : State → Site → Nat → Nat → Prop}
    (he : ∀ s, exec i s = aluD i w s wide (f s)) (h : ∀ s x l, r s x l (f s x l)) : Computes i w wide r := by
  intro s x hi
  exact ⟨f s x, he s ▸ aluD_gives hi wide (f s), fun l _ => h s x l⟩

/-- An instruction with a result in D and a predicate in E gives both. -/
theorem issue_dp_gives {i : Instr} {w : Enc} {s : State} {x : Site} (h : Issues i w s x) (wide : Bool) (val : Site → Nat → Nat)
    (p : Site → Nat → Bool) :
    GivesDP (issueInstr i w s (onSite fun _ x => if x.act = 0 then x.putDst w.d wide [] else
      (x.putDst w.d wide (x.lanes (val x))).putPred w.e (maskWhere x.width (p x)))) w s x wide (val x) (p x) := by
  by_cases ha : x.act = 0
  · have hr := regsOnly_putDst x w.d wide []
    refine ⟨(x.putDst w.d wide []).advance w, ?_, (hr.advance w).1, (hr.advance w).2, ?_, ?_, ?_⟩
    · rw [issue_go h]; simp only [onSite, Act.state, Site.put, if_pos ha, hr.1]
    · rw [← lanes_nil x (val x) ha]
      refine putDst_written x w w.d wide (val x) _ (by simp [MainKept, ScalarKept]) fun hb r hrun => ?_
      rw [advance_run _ _ hb] at hrun
      cases hrun; rfl
    · rw [PredWritten, if_pos ha, advance_regs]; exact (putDst_others x w.d wide []).1
    · rw [advance_regs]; exact (putDst_others x w.d wide []).2
  · have hr0 := regsOnly_putDst x w.d wide (x.lanes (val x))
    have hr := hr0.trans (regsOnly_putPred _ w.e (maskWhere x.width (p x)))
    have ho := putDst_others x w.d wide (x.lanes (val x))
    refine ⟨_, ?_, (hr.advance w).1, (hr.advance w).2, ?_, ?_, ?_⟩
    · rw [issue_go h]; simp only [onSite, Act.state, Site.put, if_neg ha, hr.1]
    · refine putDst_written x w w.d wide (val x) _ ?_ fun hb r hrun => ?_
      · rw [advance_regs]; simp [MainKept, ScalarKept, Site.putPred, Regs.putPred]
      · rw [advance_run _ _ hb] at hrun
        cases hrun; rfl
    · obtain ⟨q1, q2⟩ := ho.1
      refine putPred_written x w.e (p x) _ ha ?_
      rw [advance_regs]
      have h5 := hr0.2.2.2.2.1
      simp [PredKept, Site.putPred, Regs.putPred, q1, q2, h5]
    · rw [advance_regs]; exact ho.2


/-- A meaning that ends in a site whose registers and operand file are those of a written D gives the result. -/
theorem givesD_of {w : Enc} {s : State} {x y : Site} {wide : Bool} {val : Nat → Nat} (hr : RegsOnly x y)
    (hregs : y.wp.regs = (x.writeDst w.d wide (x.lanes val)).wp.regs)
    (hopf : y.rn.files.opf = (x.writeDst w.d wide (x.lanes val)).rn.files.opf) :
    GivesD (.next ((Act.done y s).state w)) w s x wide val := by
  have h5 : (x.putDst w.d wide (x.lanes val)).rn.files.opf = (x.writeDst w.d wide (x.lanes val)).rn.files.opf := by
    unfold Site.putDst; split <;> simp
  have oth := putDst_others x w.d wide (x.lanes val)
  rw [putDst_regs, ← hregs] at oth
  refine ⟨y.advance w, ?_, (hr.advance w).1, (hr.advance w).2, ?_, ?_, ?_⟩
  · simp only [Act.state, Site.put, hr.1]
  · refine putDst_written x w w.d wide val _ (by rw [putDst_regs, ← hregs]; simp [MainKept, ScalarKept]) fun hb r hrun => ?_
    rw [advance_run _ _ hb] at hrun
    cases hrun
    rw [h5, ← hopf]
  · rw [advance_regs]; exact oth.1
  · rw [advance_regs]; exact oth.2

/-! ### Flags -/

theorem addFlags_getLsbD (g : Regs) (a l : Nat) (f : FFlags) (hl : l < 64) :
    (g.addFlags a f).fnv.getLsbD l = (g.fnv.getLsbD l || (decide (l = a) && f.nv)) ∧
    (g.addFlags a f).fdz.getLsbD l = (g.fdz.getLsbD l || (decide (l = a) && f.dz)) ∧
    (g.addFlags a f).fof.getLsbD l = (g.fof.getLsbD l || (decide (l = a) && f.of)) ∧
    (g.addFlags a f).fuf.getLsbD l = (g.fuf.getLsbD l || (decide (l = a) && f.uf)) ∧
    (g.addFlags a f).fnx.getLsbD l = (g.fnx.getLsbD l || (decide (l = a) && f.nx)) := by
  have key : ∀ (b : Bool) (m : Mask), (if b = true then m ||| laneBit a else m).getLsbD l = (m.getLsbD l || (decide (l = a) && b)) := by
    intro b m
    cases b <;> simp [laneBit_getLsbD a l hl]
  exact ⟨key _ _, key _ _, key _ _, key _ _, key _ _⟩

@[simp] theorem addFlags_main (g : Regs) (a : Nat) (f : FFlags) :
    (g.addFlags a f).v = g.v ∧ (g.addFlags a f).vempty = g.vempty ∧ (g.addFlags a f).vpoison = g.vpoison ∧
    (g.addFlags a f).s = g.s ∧ (g.addFlags a f).sempty = g.sempty ∧ (g.addFlags a f).spoison = g.spoison ∧
    (g.addFlags a f).p = g.p ∧ (g.addFlags a f).pempty = g.pempty := ⟨rfl, rfl, rfl, rfl, rfl, rfl, rfl, rfl⟩

/-- The flags of some lanes ored in, lane by lane. -/
def flagFold (g : Regs) (ls : List Nat) (f : Nat → FFlags) : Regs := ls.foldl (fun g l => g.addFlags l (f l)) g

theorem flagFold_others (g : Regs) (ls : List Nat) (f : Nat → FFlags) :
    MainKept g (flagFold g ls f) ∧ ScalarKept g (flagFold g ls f) ∧ PredKept g (flagFold g ls f) := by
  induction ls generalizing g with
  | nil => simp [flagFold, MainKept, ScalarKept, PredKept]
  | cons a t ih => exact ih (g.addFlags a (f a))

theorem flagFold_raised (g : Regs) (m : Mask) (f : Nat → FFlags) (l : Nat) (hl : l < 64) :
    (flagFold g (lanesOf m) f).fnv.getLsbD l = (g.fnv.getLsbD l || (m.getLsbD l && (f l).nv)) ∧
    (flagFold g (lanesOf m) f).fdz.getLsbD l = (g.fdz.getLsbD l || (m.getLsbD l && (f l).dz)) ∧
    (flagFold g (lanesOf m) f).fof.getLsbD l = (g.fof.getLsbD l || (m.getLsbD l && (f l).of)) ∧
    (flagFold g (lanesOf m) f).fuf.getLsbD l = (g.fuf.getLsbD l || (m.getLsbD l && (f l).uf)) ∧
    (flagFold g (lanesOf m) f).fnx.getLsbD l = (g.fnx.getLsbD l || (m.getLsbD l && (f l).nx)) := by
  have key : ∀ (ls : List Nat) (g : Regs), (∀ k ∈ ls, k < 64) →
      (flagFold g ls f).fnv.getLsbD l = (g.fnv.getLsbD l || (decide (l ∈ ls) && (f l).nv)) ∧
      (flagFold g ls f).fdz.getLsbD l = (g.fdz.getLsbD l || (decide (l ∈ ls) && (f l).dz)) ∧
      (flagFold g ls f).fof.getLsbD l = (g.fof.getLsbD l || (decide (l ∈ ls) && (f l).of)) ∧
      (flagFold g ls f).fuf.getLsbD l = (g.fuf.getLsbD l || (decide (l ∈ ls) && (f l).uf)) ∧
      (flagFold g ls f).fnx.getLsbD l = (g.fnx.getLsbD l || (decide (l ∈ ls) && (f l).nx)) := by
    intro ls
    induction ls with
    | nil => intro g _; simp [flagFold]
    | cons a t ih =>
      intro g hlt
      have h1 := addFlags_getLsbD g a l (f a) hl
      have h2 := ih (g.addFlags a (f a)) fun k hk => hlt k (List.mem_cons_of_mem _ hk)
      simp only [flagFold, List.foldl_cons] at h2 ⊢
      rw [h2.1, h2.2.1, h2.2.2.1, h2.2.2.2.1, h2.2.2.2.2, h1.1, h1.2.1, h1.2.2.1, h1.2.2.2.1, h1.2.2.2.2]
      by_cases e : l = a
      · subst e; simp [Bool.or_assoc]
        refine ⟨?_, ?_, ?_, ?_, ?_⟩ <;> (cases decide (l ∈ t) <;> simp)
      · simp [e]
  have hm : m.getLsbD l = decide (l ∈ lanesOf m) := by simp [mem_lanesOf, hl]
  simpa only [hm] using key (lanesOf m) g fun k hk => (mem_lanesOf.1 hk).1

/-- A floating-point instruction gives its result and raises its flags. -/
theorem fpuD_gives {i : Instr} {w : Enc} {s : State} {x : Site} (h : Issues i w s x) (f : Site → Nat → Nat × FFlags) :
    GivesF (fpuD i w s f) w s x false (f x) := by
  have e1 : (((lanesOf x.act).map fun l => (l, f x l)).map fun (l, r) => (l, r.1)) = x.lanes fun l => (f x l).1 := by
    simp [Site.lanes, Function.comp_def]
  have hr := (regsOnly_putDst x w.d false (x.lanes fun l => (f x l).1)).trans
    (regsOnly_mapRegs _ fun g => flagFold g (lanesOf x.act) fun l => (f x l).2)
  have oth := flagFold_others (x.putDst w.d false (x.lanes fun l => (f x l).1)).wp.regs (lanesOf x.act) fun l => (f x l).2
  have put := putDst_others x w.d false (x.lanes fun l => (f x l).1)
  refine ⟨_, ?_, (hr.advance w).1, (hr.advance w).2, ?_, ?_, ?_⟩
  · rw [fpuD, issue_go h]
    simp only [onSite, Act.state, Site.put, e1, List.foldl_map]
    rw [show (fun g => List.foldl (fun g l => g.addFlags l (f x l).2) g (lanesOf x.act)) =
      fun g => flagFold g (lanesOf x.act) fun l => (f x l).2 from rfl, hr.1]
  · refine putDst_written x w w.d false (fun l => (f x l).1) _ ?_ fun hb r hrun => ?_
    · rw [advance_regs, mapRegs_regs]; exact ⟨oth.1, oth.2.1⟩
    · rw [advance_run _ _ hb] at hrun
      cases hrun; rfl
  · rw [advance_regs, mapRegs_regs]
    exact ⟨oth.2.2.1.trans put.1.1, oth.2.2.2.trans put.1.2⟩
  · intro l hl
    rw [advance_regs, mapRegs_regs]
    have := flagFold_raised (x.putDst w.d false (x.lanes fun l => (f x l).1)).wp.regs x.act (fun l => (f x l).2) l hl
    obtain ⟨p1, p2, p3, p4, p5⟩ := put.2
    rw [p1, p2, p3, p4, p5] at this
    exact this

end Sys2Proof.Machine
end

