-- ==== Sys2Proof/Laws/Legal.lean ====
section
/-! SUPPORT. What well-formedness says of a word: its subform and type are assigned, and its literal is one the instruction
admits (R76). -/

namespace Sys2Proof.Machine

/-- A well-formed word is an instruction in a warp of some width. -/
theorem wellFormed_legal {i : Instr} {op : Nat} {w : Enc} (hw : Instr.word? i = some (op, w)) (h : WellFormed i = true) :
    ∃ width, illegalInstr width 384 i w = none := by
  simp only [WellFormed, hw, Bool.and_eq_true, wordLegal, Option.isNone_iff_eq_none] at h
  by_cases h64 : illegalInstr 64 384 i w = none
  · exact ⟨64, h64⟩
  · refine ⟨32, ?_⟩
    obtain ⟨c, hc⟩ := Option.ne_none_iff_exists'.1 h64
    simpa only [illegalAnywhere, hc] using h.2

theorem illegal_sub {width : Nat} {i : Instr} {w : Enc} (h : illegalInstr width 384 i w = none) : subOk i = true := by
  by_contra hc
  rw [Bool.not_eq_true] at hc
  simp [illegalInstr, hc] at h

theorem illegal_ty {width : Nat} {i : Instr} {w : Enc} (h : illegalInstr width 384 i w = none) : tyOk i = true := by
  have hs := illegal_sub h
  by_contra hc
  rw [Bool.not_eq_true] at hc
  simp [illegalInstr, hc, hs] at h

theorem wellFormed_sub {i : Instr} {op : Nat} {w : Enc} (hw : Instr.word? i = some (op, w)) (h : WellFormed i = true) :
    subOk i = true := (wellFormed_legal hw h).elim fun _ => illegal_sub

theorem wellFormed_ty {i : Instr} {op : Nat} {w : Enc} (hw : Instr.word? i = some (op, w)) (h : WellFormed i = true) :
    tyOk i = true := (wellFormed_legal hw h).elim fun _ => illegal_ty

theorem wellFormed_lit {i : Instr} {op : Nat} {w : Enc} {sh : Shape} (hw : Instr.word? i = some (op, w)) (h : WellFormed i = true)
    (hsh : shapeOf i = some sh) (hl : sh.lit = .no) : w.lit = none := by
  obtain ⟨width, h⟩ := wellFormed_legal hw h
  have hs := illegal_sub h
  have ht := illegal_ty h
  by_contra hc
  have : w.lit.isSome = true := Option.isSome_iff_ne_none.2 hc
  simp only [illegalInstr, hs, ht, hsh, hl, this, Bool.not_true, Bool.or_false, Bool.false_eq_true, if_false, decide_true] at h
  revert h
  split
  · simp
  · split
    · simp
    · split <;> simp

end Sys2Proof.Machine
end

