-- ==== Sys2Proof/Laws/State.lean ====
section
/-! SUPPORT. What each named update of the device's state writes, and that it writes nothing else. -/

namespace Sys2Proof.Machine

/-! setWarp -/

@[simp] theorem setWarp_now (s : State) (k n : Nat) (v : Warp) : (setWarp s k n v).now = s.now := rfl
@[simp] theorem setWarp_tick (s : State) (k n : Nat) (v : Warp) : (setWarp s k n v).tick = s.tick := rfl
@[simp] theorem setWarp_agenda (s : State) (k n : Nat) (v : Warp) : (setWarp s k n v).agenda = s.agenda := rfl
@[simp] theorem setWarp_issuing (s : State) (k n : Nat) (v : Warp) : (setWarp s k n v).issuing = s.issuing := rfl
@[simp] theorem setWarp_mem (s : State) (k n : Nat) (v : Warp) : (setWarp s k n v).mem = s.mem := rfl
@[simp] theorem setWarp_tags (s : State) (k n : Nat) (v : Warp) : (setWarp s k n v).tags = s.tags := rfl
@[simp] theorem setWarp_tier (s : State) (k n : Nat) (v : Warp) : (setWarp s k n v).tier = s.tier := rfl
@[simp] theorem setWarp_tierTags (s : State) (k n : Nat) (v : Warp) : (setWarp s k n v).tierTags = s.tierTags := rfl
@[simp] theorem setWarp_tierOwner (s : State) (k n : Nat) (v : Warp) : (setWarp s k n v).tierOwner = s.tierOwner := rfl
@[simp] theorem setWarp_cores (s : State) (k n : Nat) (v : Warp) : (setWarp s k n v).cores = s.cores := rfl
@[simp] theorem setWarp_crews (s : State) (k n : Nat) (v : Warp) : (setWarp s k n v).crews = kvMod s.crews k fun c => { c with warps := kvSet c.warps n v } := rfl
@[simp] theorem setWarp_launches (s : State) (k n : Nat) (v : Warp) : (setWarp s k n v).launches = s.launches := rfl
@[simp] theorem setWarp_ctxs (s : State) (k n : Nat) (v : Warp) : (setWarp s k n v).ctxs = s.ctxs := rfl
@[simp] theorem setWarp_queues (s : State) (k n : Nat) (v : Warp) : (setWarp s k n v).queues = s.queues := rfl
@[simp] theorem setWarp_cpTurn (s : State) (k n : Nat) (v : Warp) : (setWarp s k n v).cpTurn = s.cpTurn := rfl
@[simp] theorem setWarp_cpAt (s : State) (k n : Nat) (v : Warp) : (setWarp s k n v).cpAt = s.cpAt := rfl
@[simp] theorem setWarp_cmds (s : State) (k n : Nat) (v : Warp) : (setWarp s k n v).cmds = s.cmds := rfl
@[simp] theorem setWarp_views (s : State) (k n : Nat) (v : Warp) : (setWarp s k n v).views = s.views := rfl
@[simp] theorem setWarp_viewTurn (s : State) (k n : Nat) (v : Warp) : (setWarp s k n v).viewTurn = s.viewTurn := rfl
@[simp] theorem setWarp_moves (s : State) (k n : Nat) (v : Warp) : (setWarp s k n v).moves = s.moves := rfl
@[simp] theorem setWarp_failedUnit (s : State) (k n : Nat) (v : Warp) : (setWarp s k n v).failedUnit = s.failedUnit := rfl
@[simp] theorem setWarp_residentAt (s : State) (k n : Nat) (v : Warp) : (setWarp s k n v).residentAt = s.residentAt := rfl
@[simp] theorem setWarp_gives (s : State) (k n : Nat) (v : Warp) : (setWarp s k n v).gives = s.gives := rfl
@[simp] theorem setWarp_withdrawn (s : State) (k n : Nat) (v : Warp) : (setWarp s k n v).withdrawn = s.withdrawn := rfl
@[simp] theorem setWarp_lastRunning (s : State) (k n : Nat) (v : Warp) : (setWarp s k n v).lastRunning = s.lastRunning := rfl
@[simp] theorem setWarp_rangeReqs (s : State) (k n : Nat) (v : Warp) : (setWarp s k n v).rangeReqs = s.rangeReqs := rfl
@[simp] theorem setWarp_rays (s : State) (k n : Nat) (v : Warp) : (setWarp s k n v).rays = s.rays := rfl
@[simp] theorem setWarp_rayMsgs (s : State) (k n : Nat) (v : Warp) : (setWarp s k n v).rayMsgs = s.rayMsgs := rfl
@[simp] theorem setWarp_tqueues (s : State) (k n : Nat) (v : Warp) : (setWarp s k n v).tqueues = s.tqueues := rfl
@[simp] theorem setWarp_replicas (s : State) (k n : Nat) (v : Warp) : (setWarp s k n v).replicas = s.replicas := rfl
@[simp] theorem setWarp_aborts (s : State) (k n : Nat) (v : Warp) : (setWarp s k n v).aborts = s.aborts := rfl
@[simp] theorem setWarp_ports (s : State) (k n : Nat) (v : Warp) : (setWarp s k n v).ports = s.ports := rfl
@[simp] theorem setWarp_partials (s : State) (k n : Nat) (v : Warp) : (setWarp s k n v).partials = s.partials := rfl
@[simp] theorem setWarp_collectives (s : State) (k n : Nat) (v : Warp) : (setWarp s k n v).collectives = s.collectives := rfl
@[simp] theorem setWarp_collSets (s : State) (k n : Nat) (v : Warp) : (setWarp s k n v).collSets = s.collSets := rfl
@[simp] theorem setWarp_collSeq (s : State) (k n : Nat) (v : Warp) : (setWarp s k n v).collSeq = s.collSeq := rfl
@[simp] theorem setWarp_stackTab (s : State) (k n : Nat) (v : Warp) : (setWarp s k n v).stackTab = s.stackTab := rfl
@[simp] theorem setWarp_pstacks (s : State) (k n : Nat) (v : Warp) : (setWarp s k n v).pstacks = s.pstacks := rfl
@[simp] theorem setWarp_service (s : State) (k n : Nat) (v : Warp) : (setWarp s k n v).service = s.service := rfl
@[simp] theorem setWarp_debugger (s : State) (k n : Nat) (v : Warp) : (setWarp s k n v).debugger = s.debugger := rfl
@[simp] theorem setWarp_fresh (s : State) (k n : Nat) (v : Warp) : (setWarp s k n v).fresh = s.fresh := rfl

/-! modCrew -/

@[simp] theorem modCrew_now (s : State) (k : Nat) (f : Crew → Crew) : (modCrew s k f).now = s.now := rfl
@[simp] theorem modCrew_tick (s : State) (k : Nat) (f : Crew → Crew) : (modCrew s k f).tick = s.tick := rfl
@[simp] theorem modCrew_agenda (s : State) (k : Nat) (f : Crew → Crew) : (modCrew s k f).agenda = s.agenda := rfl
@[simp] theorem modCrew_issuing (s : State) (k : Nat) (f : Crew → Crew) : (modCrew s k f).issuing = s.issuing := rfl
@[simp] theorem modCrew_mem (s : State) (k : Nat) (f : Crew → Crew) : (modCrew s k f).mem = s.mem := rfl
@[simp] theorem modCrew_tags (s : State) (k : Nat) (f : Crew → Crew) : (modCrew s k f).tags = s.tags := rfl
@[simp] theorem modCrew_tier (s : State) (k : Nat) (f : Crew → Crew) : (modCrew s k f).tier = s.tier := rfl
@[simp] theorem modCrew_tierTags (s : State) (k : Nat) (f : Crew → Crew) : (modCrew s k f).tierTags = s.tierTags := rfl
@[simp] theorem modCrew_tierOwner (s : State) (k : Nat) (f : Crew → Crew) : (modCrew s k f).tierOwner = s.tierOwner := rfl
@[simp] theorem modCrew_cores (s : State) (k : Nat) (f : Crew → Crew) : (modCrew s k f).cores = s.cores := rfl
@[simp] theorem modCrew_crews (s : State) (k : Nat) (f : Crew → Crew) : (modCrew s k f).crews = kvMod s.crews k f := rfl
@[simp] theorem modCrew_launches (s : State) (k : Nat) (f : Crew → Crew) : (modCrew s k f).launches = s.launches := rfl
@[simp] theorem modCrew_ctxs (s : State) (k : Nat) (f : Crew → Crew) : (modCrew s k f).ctxs = s.ctxs := rfl
@[simp] theorem modCrew_queues (s : State) (k : Nat) (f : Crew → Crew) : (modCrew s k f).queues = s.queues := rfl
@[simp] theorem modCrew_cpTurn (s : State) (k : Nat) (f : Crew → Crew) : (modCrew s k f).cpTurn = s.cpTurn := rfl
@[simp] theorem modCrew_cpAt (s : State) (k : Nat) (f : Crew → Crew) : (modCrew s k f).cpAt = s.cpAt := rfl
@[simp] theorem modCrew_cmds (s : State) (k : Nat) (f : Crew → Crew) : (modCrew s k f).cmds = s.cmds := rfl
@[simp] theorem modCrew_views (s : State) (k : Nat) (f : Crew → Crew) : (modCrew s k f).views = s.views := rfl
@[simp] theorem modCrew_viewTurn (s : State) (k : Nat) (f : Crew → Crew) : (modCrew s k f).viewTurn = s.viewTurn := rfl
@[simp] theorem modCrew_moves (s : State) (k : Nat) (f : Crew → Crew) : (modCrew s k f).moves = s.moves := rfl
@[simp] theorem modCrew_failedUnit (s : State) (k : Nat) (f : Crew → Crew) : (modCrew s k f).failedUnit = s.failedUnit := rfl
@[simp] theorem modCrew_residentAt (s : State) (k : Nat) (f : Crew → Crew) : (modCrew s k f).residentAt = s.residentAt := rfl
@[simp] theorem modCrew_gives (s : State) (k : Nat) (f : Crew → Crew) : (modCrew s k f).gives = s.gives := rfl
@[simp] theorem modCrew_withdrawn (s : State) (k : Nat) (f : Crew → Crew) : (modCrew s k f).withdrawn = s.withdrawn := rfl
@[simp] theorem modCrew_lastRunning (s : State) (k : Nat) (f : Crew → Crew) : (modCrew s k f).lastRunning = s.lastRunning := rfl
@[simp] theorem modCrew_rangeReqs (s : State) (k : Nat) (f : Crew → Crew) : (modCrew s k f).rangeReqs = s.rangeReqs := rfl
@[simp] theorem modCrew_rays (s : State) (k : Nat) (f : Crew → Crew) : (modCrew s k f).rays = s.rays := rfl
@[simp] theorem modCrew_rayMsgs (s : State) (k : Nat) (f : Crew → Crew) : (modCrew s k f).rayMsgs = s.rayMsgs := rfl
@[simp] theorem modCrew_tqueues (s : State) (k : Nat) (f : Crew → Crew) : (modCrew s k f).tqueues = s.tqueues := rfl
@[simp] theorem modCrew_replicas (s : State) (k : Nat) (f : Crew → Crew) : (modCrew s k f).replicas = s.replicas := rfl
@[simp] theorem modCrew_aborts (s : State) (k : Nat) (f : Crew → Crew) : (modCrew s k f).aborts = s.aborts := rfl
@[simp] theorem modCrew_ports (s : State) (k : Nat) (f : Crew → Crew) : (modCrew s k f).ports = s.ports := rfl
@[simp] theorem modCrew_partials (s : State) (k : Nat) (f : Crew → Crew) : (modCrew s k f).partials = s.partials := rfl
@[simp] theorem modCrew_collectives (s : State) (k : Nat) (f : Crew → Crew) : (modCrew s k f).collectives = s.collectives := rfl
@[simp] theorem modCrew_collSets (s : State) (k : Nat) (f : Crew → Crew) : (modCrew s k f).collSets = s.collSets := rfl
@[simp] theorem modCrew_collSeq (s : State) (k : Nat) (f : Crew → Crew) : (modCrew s k f).collSeq = s.collSeq := rfl
@[simp] theorem modCrew_stackTab (s : State) (k : Nat) (f : Crew → Crew) : (modCrew s k f).stackTab = s.stackTab := rfl
@[simp] theorem modCrew_pstacks (s : State) (k : Nat) (f : Crew → Crew) : (modCrew s k f).pstacks = s.pstacks := rfl
@[simp] theorem modCrew_service (s : State) (k : Nat) (f : Crew → Crew) : (modCrew s k f).service = s.service := rfl
@[simp] theorem modCrew_debugger (s : State) (k : Nat) (f : Crew → Crew) : (modCrew s k f).debugger = s.debugger := rfl
@[simp] theorem modCrew_fresh (s : State) (k : Nat) (f : Crew → Crew) : (modCrew s k f).fresh = s.fresh := rfl

/-! setCore -/

@[simp] theorem setCore_now (s : State) (k : Nat) (v : Core) : (setCore s k v).now = s.now := rfl
@[simp] theorem setCore_tick (s : State) (k : Nat) (v : Core) : (setCore s k v).tick = s.tick := rfl
@[simp] theorem setCore_agenda (s : State) (k : Nat) (v : Core) : (setCore s k v).agenda = s.agenda := rfl
@[simp] theorem setCore_issuing (s : State) (k : Nat) (v : Core) : (setCore s k v).issuing = s.issuing := rfl
@[simp] theorem setCore_mem (s : State) (k : Nat) (v : Core) : (setCore s k v).mem = s.mem := rfl
@[simp] theorem setCore_tags (s : State) (k : Nat) (v : Core) : (setCore s k v).tags = s.tags := rfl
@[simp] theorem setCore_tier (s : State) (k : Nat) (v : Core) : (setCore s k v).tier = s.tier := rfl
@[simp] theorem setCore_tierTags (s : State) (k : Nat) (v : Core) : (setCore s k v).tierTags = s.tierTags := rfl
@[simp] theorem setCore_tierOwner (s : State) (k : Nat) (v : Core) : (setCore s k v).tierOwner = s.tierOwner := rfl
@[simp] theorem setCore_cores (s : State) (k : Nat) (v : Core) : (setCore s k v).cores = kvSet s.cores k v := rfl
@[simp] theorem setCore_crews (s : State) (k : Nat) (v : Core) : (setCore s k v).crews = s.crews := rfl
@[simp] theorem setCore_launches (s : State) (k : Nat) (v : Core) : (setCore s k v).launches = s.launches := rfl
@[simp] theorem setCore_ctxs (s : State) (k : Nat) (v : Core) : (setCore s k v).ctxs = s.ctxs := rfl
@[simp] theorem setCore_queues (s : State) (k : Nat) (v : Core) : (setCore s k v).queues = s.queues := rfl
@[simp] theorem setCore_cpTurn (s : State) (k : Nat) (v : Core) : (setCore s k v).cpTurn = s.cpTurn := rfl
@[simp] theorem setCore_cpAt (s : State) (k : Nat) (v : Core) : (setCore s k v).cpAt = s.cpAt := rfl
@[simp] theorem setCore_cmds (s : State) (k : Nat) (v : Core) : (setCore s k v).cmds = s.cmds := rfl
@[simp] theorem setCore_views (s : State) (k : Nat) (v : Core) : (setCore s k v).views = s.views := rfl
@[simp] theorem setCore_viewTurn (s : State) (k : Nat) (v : Core) : (setCore s k v).viewTurn = s.viewTurn := rfl
@[simp] theorem setCore_moves (s : State) (k : Nat) (v : Core) : (setCore s k v).moves = s.moves := rfl
@[simp] theorem setCore_failedUnit (s : State) (k : Nat) (v : Core) : (setCore s k v).failedUnit = s.failedUnit := rfl
@[simp] theorem setCore_residentAt (s : State) (k : Nat) (v : Core) : (setCore s k v).residentAt = s.residentAt := rfl
@[simp] theorem setCore_gives (s : State) (k : Nat) (v : Core) : (setCore s k v).gives = s.gives := rfl
@[simp] theorem setCore_withdrawn (s : State) (k : Nat) (v : Core) : (setCore s k v).withdrawn = s.withdrawn := rfl
@[simp] theorem setCore_lastRunning (s : State) (k : Nat) (v : Core) : (setCore s k v).lastRunning = s.lastRunning := rfl
@[simp] theorem setCore_rangeReqs (s : State) (k : Nat) (v : Core) : (setCore s k v).rangeReqs = s.rangeReqs := rfl
@[simp] theorem setCore_rays (s : State) (k : Nat) (v : Core) : (setCore s k v).rays = s.rays := rfl
@[simp] theorem setCore_rayMsgs (s : State) (k : Nat) (v : Core) : (setCore s k v).rayMsgs = s.rayMsgs := rfl
@[simp] theorem setCore_tqueues (s : State) (k : Nat) (v : Core) : (setCore s k v).tqueues = s.tqueues := rfl
@[simp] theorem setCore_replicas (s : State) (k : Nat) (v : Core) : (setCore s k v).replicas = s.replicas := rfl
@[simp] theorem setCore_aborts (s : State) (k : Nat) (v : Core) : (setCore s k v).aborts = s.aborts := rfl
@[simp] theorem setCore_ports (s : State) (k : Nat) (v : Core) : (setCore s k v).ports = s.ports := rfl
@[simp] theorem setCore_partials (s : State) (k : Nat) (v : Core) : (setCore s k v).partials = s.partials := rfl
@[simp] theorem setCore_collectives (s : State) (k : Nat) (v : Core) : (setCore s k v).collectives = s.collectives := rfl
@[simp] theorem setCore_collSets (s : State) (k : Nat) (v : Core) : (setCore s k v).collSets = s.collSets := rfl
@[simp] theorem setCore_collSeq (s : State) (k : Nat) (v : Core) : (setCore s k v).collSeq = s.collSeq := rfl
@[simp] theorem setCore_stackTab (s : State) (k : Nat) (v : Core) : (setCore s k v).stackTab = s.stackTab := rfl
@[simp] theorem setCore_pstacks (s : State) (k : Nat) (v : Core) : (setCore s k v).pstacks = s.pstacks := rfl
@[simp] theorem setCore_service (s : State) (k : Nat) (v : Core) : (setCore s k v).service = s.service := rfl
@[simp] theorem setCore_debugger (s : State) (k : Nat) (v : Core) : (setCore s k v).debugger = s.debugger := rfl
@[simp] theorem setCore_fresh (s : State) (k : Nat) (v : Core) : (setCore s k v).fresh = s.fresh := rfl

/-! setCtx -/

@[simp] theorem setCtx_now (s : State) (k : Nat) (v : Context) : (setCtx s k v).now = s.now := rfl
@[simp] theorem setCtx_tick (s : State) (k : Nat) (v : Context) : (setCtx s k v).tick = s.tick := rfl
@[simp] theorem setCtx_agenda (s : State) (k : Nat) (v : Context) : (setCtx s k v).agenda = s.agenda := rfl
@[simp] theorem setCtx_issuing (s : State) (k : Nat) (v : Context) : (setCtx s k v).issuing = s.issuing := rfl
@[simp] theorem setCtx_mem (s : State) (k : Nat) (v : Context) : (setCtx s k v).mem = s.mem := rfl
@[simp] theorem setCtx_tags (s : State) (k : Nat) (v : Context) : (setCtx s k v).tags = s.tags := rfl
@[simp] theorem setCtx_tier (s : State) (k : Nat) (v : Context) : (setCtx s k v).tier = s.tier := rfl
@[simp] theorem setCtx_tierTags (s : State) (k : Nat) (v : Context) : (setCtx s k v).tierTags = s.tierTags := rfl
@[simp] theorem setCtx_tierOwner (s : State) (k : Nat) (v : Context) : (setCtx s k v).tierOwner = s.tierOwner := rfl
@[simp] theorem setCtx_cores (s : State) (k : Nat) (v : Context) : (setCtx s k v).cores = s.cores := rfl
@[simp] theorem setCtx_crews (s : State) (k : Nat) (v : Context) : (setCtx s k v).crews = s.crews := rfl
@[simp] theorem setCtx_launches (s : State) (k : Nat) (v : Context) : (setCtx s k v).launches = s.launches := rfl
@[simp] theorem setCtx_ctxs (s : State) (k : Nat) (v : Context) : (setCtx s k v).ctxs = kvSet s.ctxs k v := rfl
@[simp] theorem setCtx_queues (s : State) (k : Nat) (v : Context) : (setCtx s k v).queues = s.queues := rfl
@[simp] theorem setCtx_cpTurn (s : State) (k : Nat) (v : Context) : (setCtx s k v).cpTurn = s.cpTurn := rfl
@[simp] theorem setCtx_cpAt (s : State) (k : Nat) (v : Context) : (setCtx s k v).cpAt = s.cpAt := rfl
@[simp] theorem setCtx_cmds (s : State) (k : Nat) (v : Context) : (setCtx s k v).cmds = s.cmds := rfl
@[simp] theorem setCtx_views (s : State) (k : Nat) (v : Context) : (setCtx s k v).views = s.views := rfl
@[simp] theorem setCtx_viewTurn (s : State) (k : Nat) (v : Context) : (setCtx s k v).viewTurn = s.viewTurn := rfl
@[simp] theorem setCtx_moves (s : State) (k : Nat) (v : Context) : (setCtx s k v).moves = s.moves := rfl
@[simp] theorem setCtx_failedUnit (s : State) (k : Nat) (v : Context) : (setCtx s k v).failedUnit = s.failedUnit := rfl
@[simp] theorem setCtx_residentAt (s : State) (k : Nat) (v : Context) : (setCtx s k v).residentAt = s.residentAt := rfl
@[simp] theorem setCtx_gives (s : State) (k : Nat) (v : Context) : (setCtx s k v).gives = s.gives := rfl
@[simp] theorem setCtx_withdrawn (s : State) (k : Nat) (v : Context) : (setCtx s k v).withdrawn = s.withdrawn := rfl
@[simp] theorem setCtx_lastRunning (s : State) (k : Nat) (v : Context) : (setCtx s k v).lastRunning = s.lastRunning := rfl
@[simp] theorem setCtx_rangeReqs (s : State) (k : Nat) (v : Context) : (setCtx s k v).rangeReqs = s.rangeReqs := rfl
@[simp] theorem setCtx_rays (s : State) (k : Nat) (v : Context) : (setCtx s k v).rays = s.rays := rfl
@[simp] theorem setCtx_rayMsgs (s : State) (k : Nat) (v : Context) : (setCtx s k v).rayMsgs = s.rayMsgs := rfl
@[simp] theorem setCtx_tqueues (s : State) (k : Nat) (v : Context) : (setCtx s k v).tqueues = s.tqueues := rfl
@[simp] theorem setCtx_replicas (s : State) (k : Nat) (v : Context) : (setCtx s k v).replicas = s.replicas := rfl
@[simp] theorem setCtx_aborts (s : State) (k : Nat) (v : Context) : (setCtx s k v).aborts = s.aborts := rfl
@[simp] theorem setCtx_ports (s : State) (k : Nat) (v : Context) : (setCtx s k v).ports = s.ports := rfl
@[simp] theorem setCtx_partials (s : State) (k : Nat) (v : Context) : (setCtx s k v).partials = s.partials := rfl
@[simp] theorem setCtx_collectives (s : State) (k : Nat) (v : Context) : (setCtx s k v).collectives = s.collectives := rfl
@[simp] theorem setCtx_collSets (s : State) (k : Nat) (v : Context) : (setCtx s k v).collSets = s.collSets := rfl
@[simp] theorem setCtx_collSeq (s : State) (k : Nat) (v : Context) : (setCtx s k v).collSeq = s.collSeq := rfl
@[simp] theorem setCtx_stackTab (s : State) (k : Nat) (v : Context) : (setCtx s k v).stackTab = s.stackTab := rfl
@[simp] theorem setCtx_pstacks (s : State) (k : Nat) (v : Context) : (setCtx s k v).pstacks = s.pstacks := rfl
@[simp] theorem setCtx_service (s : State) (k : Nat) (v : Context) : (setCtx s k v).service = s.service := rfl
@[simp] theorem setCtx_debugger (s : State) (k : Nat) (v : Context) : (setCtx s k v).debugger = s.debugger := rfl
@[simp] theorem setCtx_fresh (s : State) (k : Nat) (v : Context) : (setCtx s k v).fresh = s.fresh := rfl

/-! setLaunch -/

@[simp] theorem setLaunch_now (s : State) (k : Nat) (v : Launch) : (setLaunch s k v).now = s.now := rfl
@[simp] theorem setLaunch_tick (s : State) (k : Nat) (v : Launch) : (setLaunch s k v).tick = s.tick := rfl
@[simp] theorem setLaunch_agenda (s : State) (k : Nat) (v : Launch) : (setLaunch s k v).agenda = s.agenda := rfl
@[simp] theorem setLaunch_issuing (s : State) (k : Nat) (v : Launch) : (setLaunch s k v).issuing = s.issuing := rfl
@[simp] theorem setLaunch_mem (s : State) (k : Nat) (v : Launch) : (setLaunch s k v).mem = s.mem := rfl
@[simp] theorem setLaunch_tags (s : State) (k : Nat) (v : Launch) : (setLaunch s k v).tags = s.tags := rfl
@[simp] theorem setLaunch_tier (s : State) (k : Nat) (v : Launch) : (setLaunch s k v).tier = s.tier := rfl
@[simp] theorem setLaunch_tierTags (s : State) (k : Nat) (v : Launch) : (setLaunch s k v).tierTags = s.tierTags := rfl
@[simp] theorem setLaunch_tierOwner (s : State) (k : Nat) (v : Launch) : (setLaunch s k v).tierOwner = s.tierOwner := rfl
@[simp] theorem setLaunch_cores (s : State) (k : Nat) (v : Launch) : (setLaunch s k v).cores = s.cores := rfl
@[simp] theorem setLaunch_crews (s : State) (k : Nat) (v : Launch) : (setLaunch s k v).crews = s.crews := rfl
@[simp] theorem setLaunch_launches (s : State) (k : Nat) (v : Launch) : (setLaunch s k v).launches = kvSet s.launches k v := rfl
@[simp] theorem setLaunch_ctxs (s : State) (k : Nat) (v : Launch) : (setLaunch s k v).ctxs = s.ctxs := rfl
@[simp] theorem setLaunch_queues (s : State) (k : Nat) (v : Launch) : (setLaunch s k v).queues = s.queues := rfl
@[simp] theorem setLaunch_cpTurn (s : State) (k : Nat) (v : Launch) : (setLaunch s k v).cpTurn = s.cpTurn := rfl
@[simp] theorem setLaunch_cpAt (s : State) (k : Nat) (v : Launch) : (setLaunch s k v).cpAt = s.cpAt := rfl
@[simp] theorem setLaunch_cmds (s : State) (k : Nat) (v : Launch) : (setLaunch s k v).cmds = s.cmds := rfl
@[simp] theorem setLaunch_views (s : State) (k : Nat) (v : Launch) : (setLaunch s k v).views = s.views := rfl
@[simp] theorem setLaunch_viewTurn (s : State) (k : Nat) (v : Launch) : (setLaunch s k v).viewTurn = s.viewTurn := rfl
@[simp] theorem setLaunch_moves (s : State) (k : Nat) (v : Launch) : (setLaunch s k v).moves = s.moves := rfl
@[simp] theorem setLaunch_failedUnit (s : State) (k : Nat) (v : Launch) : (setLaunch s k v).failedUnit = s.failedUnit := rfl
@[simp] theorem setLaunch_residentAt (s : State) (k : Nat) (v : Launch) : (setLaunch s k v).residentAt = s.residentAt := rfl
@[simp] theorem setLaunch_gives (s : State) (k : Nat) (v : Launch) : (setLaunch s k v).gives = s.gives := rfl
@[simp] theorem setLaunch_withdrawn (s : State) (k : Nat) (v : Launch) : (setLaunch s k v).withdrawn = s.withdrawn := rfl
@[simp] theorem setLaunch_lastRunning (s : State) (k : Nat) (v : Launch) : (setLaunch s k v).lastRunning = s.lastRunning := rfl
@[simp] theorem setLaunch_rangeReqs (s : State) (k : Nat) (v : Launch) : (setLaunch s k v).rangeReqs = s.rangeReqs := rfl
@[simp] theorem setLaunch_rays (s : State) (k : Nat) (v : Launch) : (setLaunch s k v).rays = s.rays := rfl
@[simp] theorem setLaunch_rayMsgs (s : State) (k : Nat) (v : Launch) : (setLaunch s k v).rayMsgs = s.rayMsgs := rfl
@[simp] theorem setLaunch_tqueues (s : State) (k : Nat) (v : Launch) : (setLaunch s k v).tqueues = s.tqueues := rfl
@[simp] theorem setLaunch_replicas (s : State) (k : Nat) (v : Launch) : (setLaunch s k v).replicas = s.replicas := rfl
@[simp] theorem setLaunch_aborts (s : State) (k : Nat) (v : Launch) : (setLaunch s k v).aborts = s.aborts := rfl
@[simp] theorem setLaunch_ports (s : State) (k : Nat) (v : Launch) : (setLaunch s k v).ports = s.ports := rfl
@[simp] theorem setLaunch_partials (s : State) (k : Nat) (v : Launch) : (setLaunch s k v).partials = s.partials := rfl
@[simp] theorem setLaunch_collectives (s : State) (k : Nat) (v : Launch) : (setLaunch s k v).collectives = s.collectives := rfl
@[simp] theorem setLaunch_collSets (s : State) (k : Nat) (v : Launch) : (setLaunch s k v).collSets = s.collSets := rfl
@[simp] theorem setLaunch_collSeq (s : State) (k : Nat) (v : Launch) : (setLaunch s k v).collSeq = s.collSeq := rfl
@[simp] theorem setLaunch_stackTab (s : State) (k : Nat) (v : Launch) : (setLaunch s k v).stackTab = s.stackTab := rfl
@[simp] theorem setLaunch_pstacks (s : State) (k : Nat) (v : Launch) : (setLaunch s k v).pstacks = s.pstacks := rfl
@[simp] theorem setLaunch_service (s : State) (k : Nat) (v : Launch) : (setLaunch s k v).service = s.service := rfl
@[simp] theorem setLaunch_debugger (s : State) (k : Nat) (v : Launch) : (setLaunch s k v).debugger = s.debugger := rfl
@[simp] theorem setLaunch_fresh (s : State) (k : Nat) (v : Launch) : (setLaunch s k v).fresh = s.fresh := rfl

/-! setQueue -/

@[simp] theorem setQueue_now (s : State) (k : Nat) (v : Queue) : (setQueue s k v).now = s.now := rfl
@[simp] theorem setQueue_tick (s : State) (k : Nat) (v : Queue) : (setQueue s k v).tick = s.tick := rfl
@[simp] theorem setQueue_agenda (s : State) (k : Nat) (v : Queue) : (setQueue s k v).agenda = s.agenda := rfl
@[simp] theorem setQueue_issuing (s : State) (k : Nat) (v : Queue) : (setQueue s k v).issuing = s.issuing := rfl
@[simp] theorem setQueue_mem (s : State) (k : Nat) (v : Queue) : (setQueue s k v).mem = s.mem := rfl
@[simp] theorem setQueue_tags (s : State) (k : Nat) (v : Queue) : (setQueue s k v).tags = s.tags := rfl
@[simp] theorem setQueue_tier (s : State) (k : Nat) (v : Queue) : (setQueue s k v).tier = s.tier := rfl
@[simp] theorem setQueue_tierTags (s : State) (k : Nat) (v : Queue) : (setQueue s k v).tierTags = s.tierTags := rfl
@[simp] theorem setQueue_tierOwner (s : State) (k : Nat) (v : Queue) : (setQueue s k v).tierOwner = s.tierOwner := rfl
@[simp] theorem setQueue_cores (s : State) (k : Nat) (v : Queue) : (setQueue s k v).cores = s.cores := rfl
@[simp] theorem setQueue_crews (s : State) (k : Nat) (v : Queue) : (setQueue s k v).crews = s.crews := rfl
@[simp] theorem setQueue_launches (s : State) (k : Nat) (v : Queue) : (setQueue s k v).launches = s.launches := rfl
@[simp] theorem setQueue_ctxs (s : State) (k : Nat) (v : Queue) : (setQueue s k v).ctxs = s.ctxs := rfl
@[simp] theorem setQueue_queues (s : State) (k : Nat) (v : Queue) : (setQueue s k v).queues = kvSet s.queues k v := rfl
@[simp] theorem setQueue_cpTurn (s : State) (k : Nat) (v : Queue) : (setQueue s k v).cpTurn = s.cpTurn := rfl
@[simp] theorem setQueue_cpAt (s : State) (k : Nat) (v : Queue) : (setQueue s k v).cpAt = s.cpAt := rfl
@[simp] theorem setQueue_cmds (s : State) (k : Nat) (v : Queue) : (setQueue s k v).cmds = s.cmds := rfl
@[simp] theorem setQueue_views (s : State) (k : Nat) (v : Queue) : (setQueue s k v).views = s.views := rfl
@[simp] theorem setQueue_viewTurn (s : State) (k : Nat) (v : Queue) : (setQueue s k v).viewTurn = s.viewTurn := rfl
@[simp] theorem setQueue_moves (s : State) (k : Nat) (v : Queue) : (setQueue s k v).moves = s.moves := rfl
@[simp] theorem setQueue_failedUnit (s : State) (k : Nat) (v : Queue) : (setQueue s k v).failedUnit = s.failedUnit := rfl
@[simp] theorem setQueue_residentAt (s : State) (k : Nat) (v : Queue) : (setQueue s k v).residentAt = s.residentAt := rfl
@[simp] theorem setQueue_gives (s : State) (k : Nat) (v : Queue) : (setQueue s k v).gives = s.gives := rfl
@[simp] theorem setQueue_withdrawn (s : State) (k : Nat) (v : Queue) : (setQueue s k v).withdrawn = s.withdrawn := rfl
@[simp] theorem setQueue_lastRunning (s : State) (k : Nat) (v : Queue) : (setQueue s k v).lastRunning = s.lastRunning := rfl
@[simp] theorem setQueue_rangeReqs (s : State) (k : Nat) (v : Queue) : (setQueue s k v).rangeReqs = s.rangeReqs := rfl
@[simp] theorem setQueue_rays (s : State) (k : Nat) (v : Queue) : (setQueue s k v).rays = s.rays := rfl
@[simp] theorem setQueue_rayMsgs (s : State) (k : Nat) (v : Queue) : (setQueue s k v).rayMsgs = s.rayMsgs := rfl
@[simp] theorem setQueue_tqueues (s : State) (k : Nat) (v : Queue) : (setQueue s k v).tqueues = s.tqueues := rfl
@[simp] theorem setQueue_replicas (s : State) (k : Nat) (v : Queue) : (setQueue s k v).replicas = s.replicas := rfl
@[simp] theorem setQueue_aborts (s : State) (k : Nat) (v : Queue) : (setQueue s k v).aborts = s.aborts := rfl
@[simp] theorem setQueue_ports (s : State) (k : Nat) (v : Queue) : (setQueue s k v).ports = s.ports := rfl
@[simp] theorem setQueue_partials (s : State) (k : Nat) (v : Queue) : (setQueue s k v).partials = s.partials := rfl
@[simp] theorem setQueue_collectives (s : State) (k : Nat) (v : Queue) : (setQueue s k v).collectives = s.collectives := rfl
@[simp] theorem setQueue_collSets (s : State) (k : Nat) (v : Queue) : (setQueue s k v).collSets = s.collSets := rfl
@[simp] theorem setQueue_collSeq (s : State) (k : Nat) (v : Queue) : (setQueue s k v).collSeq = s.collSeq := rfl
@[simp] theorem setQueue_stackTab (s : State) (k : Nat) (v : Queue) : (setQueue s k v).stackTab = s.stackTab := rfl
@[simp] theorem setQueue_pstacks (s : State) (k : Nat) (v : Queue) : (setQueue s k v).pstacks = s.pstacks := rfl
@[simp] theorem setQueue_service (s : State) (k : Nat) (v : Queue) : (setQueue s k v).service = s.service := rfl
@[simp] theorem setQueue_debugger (s : State) (k : Nat) (v : Queue) : (setQueue s k v).debugger = s.debugger := rfl
@[simp] theorem setQueue_fresh (s : State) (k : Nat) (v : Queue) : (setQueue s k v).fresh = s.fresh := rfl

/-! setPort -/

@[simp] theorem setPort_now (s : State) (k : Nat) (v : Port) : (setPort s k v).now = s.now := rfl
@[simp] theorem setPort_tick (s : State) (k : Nat) (v : Port) : (setPort s k v).tick = s.tick := rfl
@[simp] theorem setPort_agenda (s : State) (k : Nat) (v : Port) : (setPort s k v).agenda = s.agenda := rfl
@[simp] theorem setPort_issuing (s : State) (k : Nat) (v : Port) : (setPort s k v).issuing = s.issuing := rfl
@[simp] theorem setPort_mem (s : State) (k : Nat) (v : Port) : (setPort s k v).mem = s.mem := rfl
@[simp] theorem setPort_tags (s : State) (k : Nat) (v : Port) : (setPort s k v).tags = s.tags := rfl
@[simp] theorem setPort_tier (s : State) (k : Nat) (v : Port) : (setPort s k v).tier = s.tier := rfl
@[simp] theorem setPort_tierTags (s : State) (k : Nat) (v : Port) : (setPort s k v).tierTags = s.tierTags := rfl
@[simp] theorem setPort_tierOwner (s : State) (k : Nat) (v : Port) : (setPort s k v).tierOwner = s.tierOwner := rfl
@[simp] theorem setPort_cores (s : State) (k : Nat) (v : Port) : (setPort s k v).cores = s.cores := rfl
@[simp] theorem setPort_crews (s : State) (k : Nat) (v : Port) : (setPort s k v).crews = s.crews := rfl
@[simp] theorem setPort_launches (s : State) (k : Nat) (v : Port) : (setPort s k v).launches = s.launches := rfl
@[simp] theorem setPort_ctxs (s : State) (k : Nat) (v : Port) : (setPort s k v).ctxs = s.ctxs := rfl
@[simp] theorem setPort_queues (s : State) (k : Nat) (v : Port) : (setPort s k v).queues = s.queues := rfl
@[simp] theorem setPort_cpTurn (s : State) (k : Nat) (v : Port) : (setPort s k v).cpTurn = s.cpTurn := rfl
@[simp] theorem setPort_cpAt (s : State) (k : Nat) (v : Port) : (setPort s k v).cpAt = s.cpAt := rfl
@[simp] theorem setPort_cmds (s : State) (k : Nat) (v : Port) : (setPort s k v).cmds = s.cmds := rfl
@[simp] theorem setPort_views (s : State) (k : Nat) (v : Port) : (setPort s k v).views = s.views := rfl
@[simp] theorem setPort_viewTurn (s : State) (k : Nat) (v : Port) : (setPort s k v).viewTurn = s.viewTurn := rfl
@[simp] theorem setPort_moves (s : State) (k : Nat) (v : Port) : (setPort s k v).moves = s.moves := rfl
@[simp] theorem setPort_failedUnit (s : State) (k : Nat) (v : Port) : (setPort s k v).failedUnit = s.failedUnit := rfl
@[simp] theorem setPort_residentAt (s : State) (k : Nat) (v : Port) : (setPort s k v).residentAt = s.residentAt := rfl
@[simp] theorem setPort_gives (s : State) (k : Nat) (v : Port) : (setPort s k v).gives = s.gives := rfl
@[simp] theorem setPort_withdrawn (s : State) (k : Nat) (v : Port) : (setPort s k v).withdrawn = s.withdrawn := rfl
@[simp] theorem setPort_lastRunning (s : State) (k : Nat) (v : Port) : (setPort s k v).lastRunning = s.lastRunning := rfl
@[simp] theorem setPort_rangeReqs (s : State) (k : Nat) (v : Port) : (setPort s k v).rangeReqs = s.rangeReqs := rfl
@[simp] theorem setPort_rays (s : State) (k : Nat) (v : Port) : (setPort s k v).rays = s.rays := rfl
@[simp] theorem setPort_rayMsgs (s : State) (k : Nat) (v : Port) : (setPort s k v).rayMsgs = s.rayMsgs := rfl
@[simp] theorem setPort_tqueues (s : State) (k : Nat) (v : Port) : (setPort s k v).tqueues = s.tqueues := rfl
@[simp] theorem setPort_replicas (s : State) (k : Nat) (v : Port) : (setPort s k v).replicas = s.replicas := rfl
@[simp] theorem setPort_aborts (s : State) (k : Nat) (v : Port) : (setPort s k v).aborts = s.aborts := rfl
@[simp] theorem setPort_ports (s : State) (k : Nat) (v : Port) : (setPort s k v).ports = kvSet s.ports k v := rfl
@[simp] theorem setPort_partials (s : State) (k : Nat) (v : Port) : (setPort s k v).partials = s.partials := rfl
@[simp] theorem setPort_collectives (s : State) (k : Nat) (v : Port) : (setPort s k v).collectives = s.collectives := rfl
@[simp] theorem setPort_collSets (s : State) (k : Nat) (v : Port) : (setPort s k v).collSets = s.collSets := rfl
@[simp] theorem setPort_collSeq (s : State) (k : Nat) (v : Port) : (setPort s k v).collSeq = s.collSeq := rfl
@[simp] theorem setPort_stackTab (s : State) (k : Nat) (v : Port) : (setPort s k v).stackTab = s.stackTab := rfl
@[simp] theorem setPort_pstacks (s : State) (k : Nat) (v : Port) : (setPort s k v).pstacks = s.pstacks := rfl
@[simp] theorem setPort_service (s : State) (k : Nat) (v : Port) : (setPort s k v).service = s.service := rfl
@[simp] theorem setPort_debugger (s : State) (k : Nat) (v : Port) : (setPort s k v).debugger = s.debugger := rfl
@[simp] theorem setPort_fresh (s : State) (k : Nat) (v : Port) : (setPort s k v).fresh = s.fresh := rfl

/-! setStack -/

@[simp] theorem setStack_now (s : State) (k : Nat) (v : Stack) : (setStack s k v).now = s.now := rfl
@[simp] theorem setStack_tick (s : State) (k : Nat) (v : Stack) : (setStack s k v).tick = s.tick := rfl
@[simp] theorem setStack_agenda (s : State) (k : Nat) (v : Stack) : (setStack s k v).agenda = s.agenda := rfl
@[simp] theorem setStack_issuing (s : State) (k : Nat) (v : Stack) : (setStack s k v).issuing = s.issuing := rfl
@[simp] theorem setStack_mem (s : State) (k : Nat) (v : Stack) : (setStack s k v).mem = s.mem := rfl
@[simp] theorem setStack_tags (s : State) (k : Nat) (v : Stack) : (setStack s k v).tags = s.tags := rfl
@[simp] theorem setStack_tier (s : State) (k : Nat) (v : Stack) : (setStack s k v).tier = s.tier := rfl
@[simp] theorem setStack_tierTags (s : State) (k : Nat) (v : Stack) : (setStack s k v).tierTags = s.tierTags := rfl
@[simp] theorem setStack_tierOwner (s : State) (k : Nat) (v : Stack) : (setStack s k v).tierOwner = s.tierOwner := rfl
@[simp] theorem setStack_cores (s : State) (k : Nat) (v : Stack) : (setStack s k v).cores = s.cores := rfl
@[simp] theorem setStack_crews (s : State) (k : Nat) (v : Stack) : (setStack s k v).crews = s.crews := rfl
@[simp] theorem setStack_launches (s : State) (k : Nat) (v : Stack) : (setStack s k v).launches = s.launches := rfl
@[simp] theorem setStack_ctxs (s : State) (k : Nat) (v : Stack) : (setStack s k v).ctxs = s.ctxs := rfl
@[simp] theorem setStack_queues (s : State) (k : Nat) (v : Stack) : (setStack s k v).queues = s.queues := rfl
@[simp] theorem setStack_cpTurn (s : State) (k : Nat) (v : Stack) : (setStack s k v).cpTurn = s.cpTurn := rfl
@[simp] theorem setStack_cpAt (s : State) (k : Nat) (v : Stack) : (setStack s k v).cpAt = s.cpAt := rfl
@[simp] theorem setStack_cmds (s : State) (k : Nat) (v : Stack) : (setStack s k v).cmds = s.cmds := rfl
@[simp] theorem setStack_views (s : State) (k : Nat) (v : Stack) : (setStack s k v).views = s.views := rfl
@[simp] theorem setStack_viewTurn (s : State) (k : Nat) (v : Stack) : (setStack s k v).viewTurn = s.viewTurn := rfl
@[simp] theorem setStack_moves (s : State) (k : Nat) (v : Stack) : (setStack s k v).moves = s.moves := rfl
@[simp] theorem setStack_failedUnit (s : State) (k : Nat) (v : Stack) : (setStack s k v).failedUnit = s.failedUnit := rfl
@[simp] theorem setStack_residentAt (s : State) (k : Nat) (v : Stack) : (setStack s k v).residentAt = s.residentAt := rfl
@[simp] theorem setStack_gives (s : State) (k : Nat) (v : Stack) : (setStack s k v).gives = s.gives := rfl
@[simp] theorem setStack_withdrawn (s : State) (k : Nat) (v : Stack) : (setStack s k v).withdrawn = s.withdrawn := rfl
@[simp] theorem setStack_lastRunning (s : State) (k : Nat) (v : Stack) : (setStack s k v).lastRunning = s.lastRunning := rfl
@[simp] theorem setStack_rangeReqs (s : State) (k : Nat) (v : Stack) : (setStack s k v).rangeReqs = s.rangeReqs := rfl
@[simp] theorem setStack_rays (s : State) (k : Nat) (v : Stack) : (setStack s k v).rays = s.rays := rfl
@[simp] theorem setStack_rayMsgs (s : State) (k : Nat) (v : Stack) : (setStack s k v).rayMsgs = s.rayMsgs := rfl
@[simp] theorem setStack_tqueues (s : State) (k : Nat) (v : Stack) : (setStack s k v).tqueues = s.tqueues := rfl
@[simp] theorem setStack_replicas (s : State) (k : Nat) (v : Stack) : (setStack s k v).replicas = s.replicas := rfl
@[simp] theorem setStack_aborts (s : State) (k : Nat) (v : Stack) : (setStack s k v).aborts = s.aborts := rfl
@[simp] theorem setStack_ports (s : State) (k : Nat) (v : Stack) : (setStack s k v).ports = s.ports := rfl
@[simp] theorem setStack_partials (s : State) (k : Nat) (v : Stack) : (setStack s k v).partials = s.partials := rfl
@[simp] theorem setStack_collectives (s : State) (k : Nat) (v : Stack) : (setStack s k v).collectives = s.collectives := rfl
@[simp] theorem setStack_collSets (s : State) (k : Nat) (v : Stack) : (setStack s k v).collSets = s.collSets := rfl
@[simp] theorem setStack_collSeq (s : State) (k : Nat) (v : Stack) : (setStack s k v).collSeq = s.collSeq := rfl
@[simp] theorem setStack_stackTab (s : State) (k : Nat) (v : Stack) : (setStack s k v).stackTab = kvSet s.stackTab k v := rfl
@[simp] theorem setStack_pstacks (s : State) (k : Nat) (v : Stack) : (setStack s k v).pstacks = s.pstacks := rfl
@[simp] theorem setStack_service (s : State) (k : Nat) (v : Stack) : (setStack s k v).service = s.service := rfl
@[simp] theorem setStack_debugger (s : State) (k : Nat) (v : Stack) : (setStack s k v).debugger = s.debugger := rfl
@[simp] theorem setStack_fresh (s : State) (k : Nat) (v : Stack) : (setStack s k v).fresh = s.fresh := rfl

/-! setPStack -/

@[simp] theorem setPStack_now (s : State) (k : Nat) (v : PStack) : (setPStack s k v).now = s.now := rfl
@[simp] theorem setPStack_tick (s : State) (k : Nat) (v : PStack) : (setPStack s k v).tick = s.tick := rfl
@[simp] theorem setPStack_agenda (s : State) (k : Nat) (v : PStack) : (setPStack s k v).agenda = s.agenda := rfl
@[simp] theorem setPStack_issuing (s : State) (k : Nat) (v : PStack) : (setPStack s k v).issuing = s.issuing := rfl
@[simp] theorem setPStack_mem (s : State) (k : Nat) (v : PStack) : (setPStack s k v).mem = s.mem := rfl
@[simp] theorem setPStack_tags (s : State) (k : Nat) (v : PStack) : (setPStack s k v).tags = s.tags := rfl
@[simp] theorem setPStack_tier (s : State) (k : Nat) (v : PStack) : (setPStack s k v).tier = s.tier := rfl
@[simp] theorem setPStack_tierTags (s : State) (k : Nat) (v : PStack) : (setPStack s k v).tierTags = s.tierTags := rfl
@[simp] theorem setPStack_tierOwner (s : State) (k : Nat) (v : PStack) : (setPStack s k v).tierOwner = s.tierOwner := rfl
@[simp] theorem setPStack_cores (s : State) (k : Nat) (v : PStack) : (setPStack s k v).cores = s.cores := rfl
@[simp] theorem setPStack_crews (s : State) (k : Nat) (v : PStack) : (setPStack s k v).crews = s.crews := rfl
@[simp] theorem setPStack_launches (s : State) (k : Nat) (v : PStack) : (setPStack s k v).launches = s.launches := rfl
@[simp] theorem setPStack_ctxs (s : State) (k : Nat) (v : PStack) : (setPStack s k v).ctxs = s.ctxs := rfl
@[simp] theorem setPStack_queues (s : State) (k : Nat) (v : PStack) : (setPStack s k v).queues = s.queues := rfl
@[simp] theorem setPStack_cpTurn (s : State) (k : Nat) (v : PStack) : (setPStack s k v).cpTurn = s.cpTurn := rfl
@[simp] theorem setPStack_cpAt (s : State) (k : Nat) (v : PStack) : (setPStack s k v).cpAt = s.cpAt := rfl
@[simp] theorem setPStack_cmds (s : State) (k : Nat) (v : PStack) : (setPStack s k v).cmds = s.cmds := rfl
@[simp] theorem setPStack_views (s : State) (k : Nat) (v : PStack) : (setPStack s k v).views = s.views := rfl
@[simp] theorem setPStack_viewTurn (s : State) (k : Nat) (v : PStack) : (setPStack s k v).viewTurn = s.viewTurn := rfl
@[simp] theorem setPStack_moves (s : State) (k : Nat) (v : PStack) : (setPStack s k v).moves = s.moves := rfl
@[simp] theorem setPStack_failedUnit (s : State) (k : Nat) (v : PStack) : (setPStack s k v).failedUnit = s.failedUnit := rfl
@[simp] theorem setPStack_residentAt (s : State) (k : Nat) (v : PStack) : (setPStack s k v).residentAt = s.residentAt := rfl
@[simp] theorem setPStack_gives (s : State) (k : Nat) (v : PStack) : (setPStack s k v).gives = s.gives := rfl
@[simp] theorem setPStack_withdrawn (s : State) (k : Nat) (v : PStack) : (setPStack s k v).withdrawn = s.withdrawn := rfl
@[simp] theorem setPStack_lastRunning (s : State) (k : Nat) (v : PStack) : (setPStack s k v).lastRunning = s.lastRunning := rfl
@[simp] theorem setPStack_rangeReqs (s : State) (k : Nat) (v : PStack) : (setPStack s k v).rangeReqs = s.rangeReqs := rfl
@[simp] theorem setPStack_rays (s : State) (k : Nat) (v : PStack) : (setPStack s k v).rays = s.rays := rfl
@[simp] theorem setPStack_rayMsgs (s : State) (k : Nat) (v : PStack) : (setPStack s k v).rayMsgs = s.rayMsgs := rfl
@[simp] theorem setPStack_tqueues (s : State) (k : Nat) (v : PStack) : (setPStack s k v).tqueues = s.tqueues := rfl
@[simp] theorem setPStack_replicas (s : State) (k : Nat) (v : PStack) : (setPStack s k v).replicas = s.replicas := rfl
@[simp] theorem setPStack_aborts (s : State) (k : Nat) (v : PStack) : (setPStack s k v).aborts = s.aborts := rfl
@[simp] theorem setPStack_ports (s : State) (k : Nat) (v : PStack) : (setPStack s k v).ports = s.ports := rfl
@[simp] theorem setPStack_partials (s : State) (k : Nat) (v : PStack) : (setPStack s k v).partials = s.partials := rfl
@[simp] theorem setPStack_collectives (s : State) (k : Nat) (v : PStack) : (setPStack s k v).collectives = s.collectives := rfl
@[simp] theorem setPStack_collSets (s : State) (k : Nat) (v : PStack) : (setPStack s k v).collSets = s.collSets := rfl
@[simp] theorem setPStack_collSeq (s : State) (k : Nat) (v : PStack) : (setPStack s k v).collSeq = s.collSeq := rfl
@[simp] theorem setPStack_stackTab (s : State) (k : Nat) (v : PStack) : (setPStack s k v).stackTab = s.stackTab := rfl
@[simp] theorem setPStack_pstacks (s : State) (k : Nat) (v : PStack) : (setPStack s k v).pstacks = kvSet s.pstacks k v := rfl
@[simp] theorem setPStack_service (s : State) (k : Nat) (v : PStack) : (setPStack s k v).service = s.service := rfl
@[simp] theorem setPStack_debugger (s : State) (k : Nat) (v : PStack) : (setPStack s k v).debugger = s.debugger := rfl
@[simp] theorem setPStack_fresh (s : State) (k : Nat) (v : PStack) : (setPStack s k v).fresh = s.fresh := rfl

/-! setRay -/

@[simp] theorem setRay_now (s : State) (v : Ray) : (setRay s v).now = s.now := rfl
@[simp] theorem setRay_tick (s : State) (v : Ray) : (setRay s v).tick = s.tick := rfl
@[simp] theorem setRay_agenda (s : State) (v : Ray) : (setRay s v).agenda = s.agenda := rfl
@[simp] theorem setRay_issuing (s : State) (v : Ray) : (setRay s v).issuing = s.issuing := rfl
@[simp] theorem setRay_mem (s : State) (v : Ray) : (setRay s v).mem = s.mem := rfl
@[simp] theorem setRay_tags (s : State) (v : Ray) : (setRay s v).tags = s.tags := rfl
@[simp] theorem setRay_tier (s : State) (v : Ray) : (setRay s v).tier = s.tier := rfl
@[simp] theorem setRay_tierTags (s : State) (v : Ray) : (setRay s v).tierTags = s.tierTags := rfl
@[simp] theorem setRay_tierOwner (s : State) (v : Ray) : (setRay s v).tierOwner = s.tierOwner := rfl
@[simp] theorem setRay_cores (s : State) (v : Ray) : (setRay s v).cores = s.cores := rfl
@[simp] theorem setRay_crews (s : State) (v : Ray) : (setRay s v).crews = s.crews := rfl
@[simp] theorem setRay_launches (s : State) (v : Ray) : (setRay s v).launches = s.launches := rfl
@[simp] theorem setRay_ctxs (s : State) (v : Ray) : (setRay s v).ctxs = s.ctxs := rfl
@[simp] theorem setRay_queues (s : State) (v : Ray) : (setRay s v).queues = s.queues := rfl
@[simp] theorem setRay_cpTurn (s : State) (v : Ray) : (setRay s v).cpTurn = s.cpTurn := rfl
@[simp] theorem setRay_cpAt (s : State) (v : Ray) : (setRay s v).cpAt = s.cpAt := rfl
@[simp] theorem setRay_cmds (s : State) (v : Ray) : (setRay s v).cmds = s.cmds := rfl
@[simp] theorem setRay_views (s : State) (v : Ray) : (setRay s v).views = s.views := rfl
@[simp] theorem setRay_viewTurn (s : State) (v : Ray) : (setRay s v).viewTurn = s.viewTurn := rfl
@[simp] theorem setRay_moves (s : State) (v : Ray) : (setRay s v).moves = s.moves := rfl
@[simp] theorem setRay_failedUnit (s : State) (v : Ray) : (setRay s v).failedUnit = s.failedUnit := rfl
@[simp] theorem setRay_residentAt (s : State) (v : Ray) : (setRay s v).residentAt = s.residentAt := rfl
@[simp] theorem setRay_gives (s : State) (v : Ray) : (setRay s v).gives = s.gives := rfl
@[simp] theorem setRay_withdrawn (s : State) (v : Ray) : (setRay s v).withdrawn = s.withdrawn := rfl
@[simp] theorem setRay_lastRunning (s : State) (v : Ray) : (setRay s v).lastRunning = s.lastRunning := rfl
@[simp] theorem setRay_rangeReqs (s : State) (v : Ray) : (setRay s v).rangeReqs = s.rangeReqs := rfl
@[simp] theorem setRay_rays (s : State) (v : Ray) : (setRay s v).rays = kvSet s.rays (rayKey v.ctx v.id) v := rfl
@[simp] theorem setRay_rayMsgs (s : State) (v : Ray) : (setRay s v).rayMsgs = s.rayMsgs := rfl
@[simp] theorem setRay_tqueues (s : State) (v : Ray) : (setRay s v).tqueues = s.tqueues := rfl
@[simp] theorem setRay_replicas (s : State) (v : Ray) : (setRay s v).replicas = s.replicas := rfl
@[simp] theorem setRay_aborts (s : State) (v : Ray) : (setRay s v).aborts = s.aborts := rfl
@[simp] theorem setRay_ports (s : State) (v : Ray) : (setRay s v).ports = s.ports := rfl
@[simp] theorem setRay_partials (s : State) (v : Ray) : (setRay s v).partials = s.partials := rfl
@[simp] theorem setRay_collectives (s : State) (v : Ray) : (setRay s v).collectives = s.collectives := rfl
@[simp] theorem setRay_collSets (s : State) (v : Ray) : (setRay s v).collSets = s.collSets := rfl
@[simp] theorem setRay_collSeq (s : State) (v : Ray) : (setRay s v).collSeq = s.collSeq := rfl
@[simp] theorem setRay_stackTab (s : State) (v : Ray) : (setRay s v).stackTab = s.stackTab := rfl
@[simp] theorem setRay_pstacks (s : State) (v : Ray) : (setRay s v).pstacks = s.pstacks := rfl
@[simp] theorem setRay_service (s : State) (v : Ray) : (setRay s v).service = s.service := rfl
@[simp] theorem setRay_debugger (s : State) (v : Ray) : (setRay s v).debugger = s.debugger := rfl
@[simp] theorem setRay_fresh (s : State) (v : Ray) : (setRay s v).fresh = s.fresh := rfl

/-! dropRay -/

@[simp] theorem dropRay_now (s : State) (v : Ray) : (dropRay s v).now = s.now := rfl
@[simp] theorem dropRay_tick (s : State) (v : Ray) : (dropRay s v).tick = s.tick := rfl
@[simp] theorem dropRay_agenda (s : State) (v : Ray) : (dropRay s v).agenda = s.agenda := rfl
@[simp] theorem dropRay_issuing (s : State) (v : Ray) : (dropRay s v).issuing = s.issuing := rfl
@[simp] theorem dropRay_mem (s : State) (v : Ray) : (dropRay s v).mem = s.mem := rfl
@[simp] theorem dropRay_tags (s : State) (v : Ray) : (dropRay s v).tags = s.tags := rfl
@[simp] theorem dropRay_tier (s : State) (v : Ray) : (dropRay s v).tier = s.tier := rfl
@[simp] theorem dropRay_tierTags (s : State) (v : Ray) : (dropRay s v).tierTags = s.tierTags := rfl
@[simp] theorem dropRay_tierOwner (s : State) (v : Ray) : (dropRay s v).tierOwner = s.tierOwner := rfl
@[simp] theorem dropRay_cores (s : State) (v : Ray) : (dropRay s v).cores = s.cores := rfl
@[simp] theorem dropRay_crews (s : State) (v : Ray) : (dropRay s v).crews = s.crews := rfl
@[simp] theorem dropRay_launches (s : State) (v : Ray) : (dropRay s v).launches = s.launches := rfl
@[simp] theorem dropRay_ctxs (s : State) (v : Ray) : (dropRay s v).ctxs = s.ctxs := rfl
@[simp] theorem dropRay_queues (s : State) (v : Ray) : (dropRay s v).queues = s.queues := rfl
@[simp] theorem dropRay_cpTurn (s : State) (v : Ray) : (dropRay s v).cpTurn = s.cpTurn := rfl
@[simp] theorem dropRay_cpAt (s : State) (v : Ray) : (dropRay s v).cpAt = s.cpAt := rfl
@[simp] theorem dropRay_cmds (s : State) (v : Ray) : (dropRay s v).cmds = s.cmds := rfl
@[simp] theorem dropRay_views (s : State) (v : Ray) : (dropRay s v).views = s.views := rfl
@[simp] theorem dropRay_viewTurn (s : State) (v : Ray) : (dropRay s v).viewTurn = s.viewTurn := rfl
@[simp] theorem dropRay_moves (s : State) (v : Ray) : (dropRay s v).moves = s.moves := rfl
@[simp] theorem dropRay_failedUnit (s : State) (v : Ray) : (dropRay s v).failedUnit = s.failedUnit := rfl
@[simp] theorem dropRay_residentAt (s : State) (v : Ray) : (dropRay s v).residentAt = s.residentAt := rfl
@[simp] theorem dropRay_gives (s : State) (v : Ray) : (dropRay s v).gives = s.gives := rfl
@[simp] theorem dropRay_withdrawn (s : State) (v : Ray) : (dropRay s v).withdrawn = s.withdrawn := rfl
@[simp] theorem dropRay_lastRunning (s : State) (v : Ray) : (dropRay s v).lastRunning = s.lastRunning := rfl
@[simp] theorem dropRay_rangeReqs (s : State) (v : Ray) : (dropRay s v).rangeReqs = s.rangeReqs := rfl
@[simp] theorem dropRay_rays (s : State) (v : Ray) : (dropRay s v).rays = kvDel s.rays (rayKey v.ctx v.id) := rfl
@[simp] theorem dropRay_rayMsgs (s : State) (v : Ray) : (dropRay s v).rayMsgs = s.rayMsgs := rfl
@[simp] theorem dropRay_tqueues (s : State) (v : Ray) : (dropRay s v).tqueues = s.tqueues := rfl
@[simp] theorem dropRay_replicas (s : State) (v : Ray) : (dropRay s v).replicas = s.replicas := rfl
@[simp] theorem dropRay_aborts (s : State) (v : Ray) : (dropRay s v).aborts = s.aborts := rfl
@[simp] theorem dropRay_ports (s : State) (v : Ray) : (dropRay s v).ports = s.ports := rfl
@[simp] theorem dropRay_partials (s : State) (v : Ray) : (dropRay s v).partials = s.partials := rfl
@[simp] theorem dropRay_collectives (s : State) (v : Ray) : (dropRay s v).collectives = s.collectives := rfl
@[simp] theorem dropRay_collSets (s : State) (v : Ray) : (dropRay s v).collSets = s.collSets := rfl
@[simp] theorem dropRay_collSeq (s : State) (v : Ray) : (dropRay s v).collSeq = s.collSeq := rfl
@[simp] theorem dropRay_stackTab (s : State) (v : Ray) : (dropRay s v).stackTab = s.stackTab := rfl
@[simp] theorem dropRay_pstacks (s : State) (v : Ray) : (dropRay s v).pstacks = s.pstacks := rfl
@[simp] theorem dropRay_service (s : State) (v : Ray) : (dropRay s v).service = s.service := rfl
@[simp] theorem dropRay_debugger (s : State) (v : Ray) : (dropRay s v).debugger = s.debugger := rfl
@[simp] theorem dropRay_fresh (s : State) (v : Ray) : (dropRay s v).fresh = s.fresh := rfl

/-! setView -/

@[simp] theorem setView_now (s : State) (k : Nat) (v : View) : (setView s k v).now = s.now := rfl
@[simp] theorem setView_tick (s : State) (k : Nat) (v : View) : (setView s k v).tick = s.tick := rfl
@[simp] theorem setView_agenda (s : State) (k : Nat) (v : View) : (setView s k v).agenda = s.agenda := rfl
@[simp] theorem setView_issuing (s : State) (k : Nat) (v : View) : (setView s k v).issuing = s.issuing := rfl
@[simp] theorem setView_mem (s : State) (k : Nat) (v : View) : (setView s k v).mem = s.mem := rfl
@[simp] theorem setView_tags (s : State) (k : Nat) (v : View) : (setView s k v).tags = s.tags := rfl
@[simp] theorem setView_tier (s : State) (k : Nat) (v : View) : (setView s k v).tier = s.tier := rfl
@[simp] theorem setView_tierTags (s : State) (k : Nat) (v : View) : (setView s k v).tierTags = s.tierTags := rfl
@[simp] theorem setView_tierOwner (s : State) (k : Nat) (v : View) : (setView s k v).tierOwner = s.tierOwner := rfl
@[simp] theorem setView_cores (s : State) (k : Nat) (v : View) : (setView s k v).cores = s.cores := rfl
@[simp] theorem setView_crews (s : State) (k : Nat) (v : View) : (setView s k v).crews = s.crews := rfl
@[simp] theorem setView_launches (s : State) (k : Nat) (v : View) : (setView s k v).launches = s.launches := rfl
@[simp] theorem setView_ctxs (s : State) (k : Nat) (v : View) : (setView s k v).ctxs = s.ctxs := rfl
@[simp] theorem setView_queues (s : State) (k : Nat) (v : View) : (setView s k v).queues = s.queues := rfl
@[simp] theorem setView_cpTurn (s : State) (k : Nat) (v : View) : (setView s k v).cpTurn = s.cpTurn := rfl
@[simp] theorem setView_cpAt (s : State) (k : Nat) (v : View) : (setView s k v).cpAt = s.cpAt := rfl
@[simp] theorem setView_cmds (s : State) (k : Nat) (v : View) : (setView s k v).cmds = s.cmds := rfl
@[simp] theorem setView_views (s : State) (k : Nat) (v : View) : (setView s k v).views = kvSet s.views k v := rfl
@[simp] theorem setView_viewTurn (s : State) (k : Nat) (v : View) : (setView s k v).viewTurn = s.viewTurn := rfl
@[simp] theorem setView_moves (s : State) (k : Nat) (v : View) : (setView s k v).moves = s.moves := rfl
@[simp] theorem setView_failedUnit (s : State) (k : Nat) (v : View) : (setView s k v).failedUnit = s.failedUnit := rfl
@[simp] theorem setView_residentAt (s : State) (k : Nat) (v : View) : (setView s k v).residentAt = s.residentAt := rfl
@[simp] theorem setView_gives (s : State) (k : Nat) (v : View) : (setView s k v).gives = s.gives := rfl
@[simp] theorem setView_withdrawn (s : State) (k : Nat) (v : View) : (setView s k v).withdrawn = s.withdrawn := rfl
@[simp] theorem setView_lastRunning (s : State) (k : Nat) (v : View) : (setView s k v).lastRunning = s.lastRunning := rfl
@[simp] theorem setView_rangeReqs (s : State) (k : Nat) (v : View) : (setView s k v).rangeReqs = s.rangeReqs := rfl
@[simp] theorem setView_rays (s : State) (k : Nat) (v : View) : (setView s k v).rays = s.rays := rfl
@[simp] theorem setView_rayMsgs (s : State) (k : Nat) (v : View) : (setView s k v).rayMsgs = s.rayMsgs := rfl
@[simp] theorem setView_tqueues (s : State) (k : Nat) (v : View) : (setView s k v).tqueues = s.tqueues := rfl
@[simp] theorem setView_replicas (s : State) (k : Nat) (v : View) : (setView s k v).replicas = s.replicas := rfl
@[simp] theorem setView_aborts (s : State) (k : Nat) (v : View) : (setView s k v).aborts = s.aborts := rfl
@[simp] theorem setView_ports (s : State) (k : Nat) (v : View) : (setView s k v).ports = s.ports := rfl
@[simp] theorem setView_partials (s : State) (k : Nat) (v : View) : (setView s k v).partials = s.partials := rfl
@[simp] theorem setView_collectives (s : State) (k : Nat) (v : View) : (setView s k v).collectives = s.collectives := rfl
@[simp] theorem setView_collSets (s : State) (k : Nat) (v : View) : (setView s k v).collSets = s.collSets := rfl
@[simp] theorem setView_collSeq (s : State) (k : Nat) (v : View) : (setView s k v).collSeq = s.collSeq := rfl
@[simp] theorem setView_stackTab (s : State) (k : Nat) (v : View) : (setView s k v).stackTab = s.stackTab := rfl
@[simp] theorem setView_pstacks (s : State) (k : Nat) (v : View) : (setView s k v).pstacks = s.pstacks := rfl
@[simp] theorem setView_service (s : State) (k : Nat) (v : View) : (setView s k v).service = s.service := rfl
@[simp] theorem setView_debugger (s : State) (k : Nat) (v : View) : (setView s k v).debugger = s.debugger := rfl
@[simp] theorem setView_fresh (s : State) (k : Nat) (v : View) : (setView s k v).fresh = s.fresh := rfl

/-! setTag -/

@[simp] theorem setTag_now (s : State) (k : Nat) (v : W16) : (setTag s k v).now = s.now := rfl
@[simp] theorem setTag_tick (s : State) (k : Nat) (v : W16) : (setTag s k v).tick = s.tick := rfl
@[simp] theorem setTag_agenda (s : State) (k : Nat) (v : W16) : (setTag s k v).agenda = s.agenda := rfl
@[simp] theorem setTag_issuing (s : State) (k : Nat) (v : W16) : (setTag s k v).issuing = s.issuing := rfl
@[simp] theorem setTag_mem (s : State) (k : Nat) (v : W16) : (setTag s k v).mem = s.mem := rfl
@[simp] theorem setTag_tags (s : State) (k : Nat) (v : W16) : (setTag s k v).tags = tagSet s.tags k v := rfl
@[simp] theorem setTag_tier (s : State) (k : Nat) (v : W16) : (setTag s k v).tier = s.tier := rfl
@[simp] theorem setTag_tierTags (s : State) (k : Nat) (v : W16) : (setTag s k v).tierTags = s.tierTags := rfl
@[simp] theorem setTag_tierOwner (s : State) (k : Nat) (v : W16) : (setTag s k v).tierOwner = s.tierOwner := rfl
@[simp] theorem setTag_cores (s : State) (k : Nat) (v : W16) : (setTag s k v).cores = s.cores := rfl
@[simp] theorem setTag_crews (s : State) (k : Nat) (v : W16) : (setTag s k v).crews = s.crews := rfl
@[simp] theorem setTag_launches (s : State) (k : Nat) (v : W16) : (setTag s k v).launches = s.launches := rfl
@[simp] theorem setTag_ctxs (s : State) (k : Nat) (v : W16) : (setTag s k v).ctxs = s.ctxs := rfl
@[simp] theorem setTag_queues (s : State) (k : Nat) (v : W16) : (setTag s k v).queues = s.queues := rfl
@[simp] theorem setTag_cpTurn (s : State) (k : Nat) (v : W16) : (setTag s k v).cpTurn = s.cpTurn := rfl
@[simp] theorem setTag_cpAt (s : State) (k : Nat) (v : W16) : (setTag s k v).cpAt = s.cpAt := rfl
@[simp] theorem setTag_cmds (s : State) (k : Nat) (v : W16) : (setTag s k v).cmds = s.cmds := rfl
@[simp] theorem setTag_views (s : State) (k : Nat) (v : W16) : (setTag s k v).views = s.views := rfl
@[simp] theorem setTag_viewTurn (s : State) (k : Nat) (v : W16) : (setTag s k v).viewTurn = s.viewTurn := rfl
@[simp] theorem setTag_moves (s : State) (k : Nat) (v : W16) : (setTag s k v).moves = s.moves := rfl
@[simp] theorem setTag_failedUnit (s : State) (k : Nat) (v : W16) : (setTag s k v).failedUnit = s.failedUnit := rfl
@[simp] theorem setTag_residentAt (s : State) (k : Nat) (v : W16) : (setTag s k v).residentAt = s.residentAt := rfl
@[simp] theorem setTag_gives (s : State) (k : Nat) (v : W16) : (setTag s k v).gives = s.gives := rfl
@[simp] theorem setTag_withdrawn (s : State) (k : Nat) (v : W16) : (setTag s k v).withdrawn = s.withdrawn := rfl
@[simp] theorem setTag_lastRunning (s : State) (k : Nat) (v : W16) : (setTag s k v).lastRunning = s.lastRunning := rfl
@[simp] theorem setTag_rangeReqs (s : State) (k : Nat) (v : W16) : (setTag s k v).rangeReqs = s.rangeReqs := rfl
@[simp] theorem setTag_rays (s : State) (k : Nat) (v : W16) : (setTag s k v).rays = s.rays := rfl
@[simp] theorem setTag_rayMsgs (s : State) (k : Nat) (v : W16) : (setTag s k v).rayMsgs = s.rayMsgs := rfl
@[simp] theorem setTag_tqueues (s : State) (k : Nat) (v : W16) : (setTag s k v).tqueues = s.tqueues := rfl
@[simp] theorem setTag_replicas (s : State) (k : Nat) (v : W16) : (setTag s k v).replicas = s.replicas := rfl
@[simp] theorem setTag_aborts (s : State) (k : Nat) (v : W16) : (setTag s k v).aborts = s.aborts := rfl
@[simp] theorem setTag_ports (s : State) (k : Nat) (v : W16) : (setTag s k v).ports = s.ports := rfl
@[simp] theorem setTag_partials (s : State) (k : Nat) (v : W16) : (setTag s k v).partials = s.partials := rfl
@[simp] theorem setTag_collectives (s : State) (k : Nat) (v : W16) : (setTag s k v).collectives = s.collectives := rfl
@[simp] theorem setTag_collSets (s : State) (k : Nat) (v : W16) : (setTag s k v).collSets = s.collSets := rfl
@[simp] theorem setTag_collSeq (s : State) (k : Nat) (v : W16) : (setTag s k v).collSeq = s.collSeq := rfl
@[simp] theorem setTag_stackTab (s : State) (k : Nat) (v : W16) : (setTag s k v).stackTab = s.stackTab := rfl
@[simp] theorem setTag_pstacks (s : State) (k : Nat) (v : W16) : (setTag s k v).pstacks = s.pstacks := rfl
@[simp] theorem setTag_service (s : State) (k : Nat) (v : W16) : (setTag s k v).service = s.service := rfl
@[simp] theorem setTag_debugger (s : State) (k : Nat) (v : W16) : (setTag s k v).debugger = s.debugger := rfl
@[simp] theorem setTag_fresh (s : State) (k : Nat) (v : W16) : (setTag s k v).fresh = s.fresh := rfl

/-! setHead -/

@[simp] theorem setHead_now (s : State) (v : RangeReq) : (setHead s v).now = s.now := rfl
@[simp] theorem setHead_tick (s : State) (v : RangeReq) : (setHead s v).tick = s.tick := rfl
@[simp] theorem setHead_agenda (s : State) (v : RangeReq) : (setHead s v).agenda = s.agenda := rfl
@[simp] theorem setHead_issuing (s : State) (v : RangeReq) : (setHead s v).issuing = s.issuing := rfl
@[simp] theorem setHead_mem (s : State) (v : RangeReq) : (setHead s v).mem = s.mem := rfl
@[simp] theorem setHead_tags (s : State) (v : RangeReq) : (setHead s v).tags = s.tags := rfl
@[simp] theorem setHead_tier (s : State) (v : RangeReq) : (setHead s v).tier = s.tier := rfl
@[simp] theorem setHead_tierTags (s : State) (v : RangeReq) : (setHead s v).tierTags = s.tierTags := rfl
@[simp] theorem setHead_tierOwner (s : State) (v : RangeReq) : (setHead s v).tierOwner = s.tierOwner := rfl
@[simp] theorem setHead_cores (s : State) (v : RangeReq) : (setHead s v).cores = s.cores := rfl
@[simp] theorem setHead_crews (s : State) (v : RangeReq) : (setHead s v).crews = s.crews := rfl
@[simp] theorem setHead_launches (s : State) (v : RangeReq) : (setHead s v).launches = s.launches := rfl
@[simp] theorem setHead_ctxs (s : State) (v : RangeReq) : (setHead s v).ctxs = s.ctxs := rfl
@[simp] theorem setHead_queues (s : State) (v : RangeReq) : (setHead s v).queues = s.queues := rfl
@[simp] theorem setHead_cpTurn (s : State) (v : RangeReq) : (setHead s v).cpTurn = s.cpTurn := rfl
@[simp] theorem setHead_cpAt (s : State) (v : RangeReq) : (setHead s v).cpAt = s.cpAt := rfl
@[simp] theorem setHead_cmds (s : State) (v : RangeReq) : (setHead s v).cmds = s.cmds := rfl
@[simp] theorem setHead_views (s : State) (v : RangeReq) : (setHead s v).views = s.views := rfl
@[simp] theorem setHead_viewTurn (s : State) (v : RangeReq) : (setHead s v).viewTurn = s.viewTurn := rfl
@[simp] theorem setHead_moves (s : State) (v : RangeReq) : (setHead s v).moves = s.moves := rfl
@[simp] theorem setHead_failedUnit (s : State) (v : RangeReq) : (setHead s v).failedUnit = s.failedUnit := rfl
@[simp] theorem setHead_residentAt (s : State) (v : RangeReq) : (setHead s v).residentAt = s.residentAt := rfl
@[simp] theorem setHead_gives (s : State) (v : RangeReq) : (setHead s v).gives = s.gives := rfl
@[simp] theorem setHead_withdrawn (s : State) (v : RangeReq) : (setHead s v).withdrawn = s.withdrawn := rfl
@[simp] theorem setHead_lastRunning (s : State) (v : RangeReq) : (setHead s v).lastRunning = s.lastRunning := rfl
@[simp] theorem setHead_rangeReqs (s : State) (v : RangeReq) : (setHead s v).rangeReqs = v :: s.rangeReqs.drop 1 := rfl
@[simp] theorem setHead_rays (s : State) (v : RangeReq) : (setHead s v).rays = s.rays := rfl
@[simp] theorem setHead_rayMsgs (s : State) (v : RangeReq) : (setHead s v).rayMsgs = s.rayMsgs := rfl
@[simp] theorem setHead_tqueues (s : State) (v : RangeReq) : (setHead s v).tqueues = s.tqueues := rfl
@[simp] theorem setHead_replicas (s : State) (v : RangeReq) : (setHead s v).replicas = s.replicas := rfl
@[simp] theorem setHead_aborts (s : State) (v : RangeReq) : (setHead s v).aborts = s.aborts := rfl
@[simp] theorem setHead_ports (s : State) (v : RangeReq) : (setHead s v).ports = s.ports := rfl
@[simp] theorem setHead_partials (s : State) (v : RangeReq) : (setHead s v).partials = s.partials := rfl
@[simp] theorem setHead_collectives (s : State) (v : RangeReq) : (setHead s v).collectives = s.collectives := rfl
@[simp] theorem setHead_collSets (s : State) (v : RangeReq) : (setHead s v).collSets = s.collSets := rfl
@[simp] theorem setHead_collSeq (s : State) (v : RangeReq) : (setHead s v).collSeq = s.collSeq := rfl
@[simp] theorem setHead_stackTab (s : State) (v : RangeReq) : (setHead s v).stackTab = s.stackTab := rfl
@[simp] theorem setHead_pstacks (s : State) (v : RangeReq) : (setHead s v).pstacks = s.pstacks := rfl
@[simp] theorem setHead_service (s : State) (v : RangeReq) : (setHead s v).service = s.service := rfl
@[simp] theorem setHead_debugger (s : State) (v : RangeReq) : (setHead s v).debugger = s.debugger := rfl
@[simp] theorem setHead_fresh (s : State) (v : RangeReq) : (setHead s v).fresh = s.fresh := rfl

/-! putSite -/

@[simp] theorem putSite_now (s : State) (x : Site) (v : Warp) : (x.put s v).now = s.now := rfl
@[simp] theorem putSite_tick (s : State) (x : Site) (v : Warp) : (x.put s v).tick = s.tick := rfl
@[simp] theorem putSite_agenda (s : State) (x : Site) (v : Warp) : (x.put s v).agenda = s.agenda := rfl
@[simp] theorem putSite_issuing (s : State) (x : Site) (v : Warp) : (x.put s v).issuing = s.issuing := rfl
@[simp] theorem putSite_mem (s : State) (x : Site) (v : Warp) : (x.put s v).mem = s.mem := rfl
@[simp] theorem putSite_tags (s : State) (x : Site) (v : Warp) : (x.put s v).tags = s.tags := rfl
@[simp] theorem putSite_tier (s : State) (x : Site) (v : Warp) : (x.put s v).tier = s.tier := rfl
@[simp] theorem putSite_tierTags (s : State) (x : Site) (v : Warp) : (x.put s v).tierTags = s.tierTags := rfl
@[simp] theorem putSite_tierOwner (s : State) (x : Site) (v : Warp) : (x.put s v).tierOwner = s.tierOwner := rfl
@[simp] theorem putSite_cores (s : State) (x : Site) (v : Warp) : (x.put s v).cores = s.cores := rfl
@[simp] theorem putSite_crews (s : State) (x : Site) (v : Warp) : (x.put s v).crews = kvMod s.crews x.ref.crew fun c => { c with warps := kvSet c.warps x.ref.warp v } := rfl
@[simp] theorem putSite_launches (s : State) (x : Site) (v : Warp) : (x.put s v).launches = s.launches := rfl
@[simp] theorem putSite_ctxs (s : State) (x : Site) (v : Warp) : (x.put s v).ctxs = s.ctxs := rfl
@[simp] theorem putSite_queues (s : State) (x : Site) (v : Warp) : (x.put s v).queues = s.queues := rfl
@[simp] theorem putSite_cpTurn (s : State) (x : Site) (v : Warp) : (x.put s v).cpTurn = s.cpTurn := rfl
@[simp] theorem putSite_cpAt (s : State) (x : Site) (v : Warp) : (x.put s v).cpAt = s.cpAt := rfl
@[simp] theorem putSite_cmds (s : State) (x : Site) (v : Warp) : (x.put s v).cmds = s.cmds := rfl
@[simp] theorem putSite_views (s : State) (x : Site) (v : Warp) : (x.put s v).views = s.views := rfl
@[simp] theorem putSite_viewTurn (s : State) (x : Site) (v : Warp) : (x.put s v).viewTurn = s.viewTurn := rfl
@[simp] theorem putSite_moves (s : State) (x : Site) (v : Warp) : (x.put s v).moves = s.moves := rfl
@[simp] theorem putSite_failedUnit (s : State) (x : Site) (v : Warp) : (x.put s v).failedUnit = s.failedUnit := rfl
@[simp] theorem putSite_residentAt (s : State) (x : Site) (v : Warp) : (x.put s v).residentAt = s.residentAt := rfl
@[simp] theorem putSite_gives (s : State) (x : Site) (v : Warp) : (x.put s v).gives = s.gives := rfl
@[simp] theorem putSite_withdrawn (s : State) (x : Site) (v : Warp) : (x.put s v).withdrawn = s.withdrawn := rfl
@[simp] theorem putSite_lastRunning (s : State) (x : Site) (v : Warp) : (x.put s v).lastRunning = s.lastRunning := rfl
@[simp] theorem putSite_rangeReqs (s : State) (x : Site) (v : Warp) : (x.put s v).rangeReqs = s.rangeReqs := rfl
@[simp] theorem putSite_rays (s : State) (x : Site) (v : Warp) : (x.put s v).rays = s.rays := rfl
@[simp] theorem putSite_rayMsgs (s : State) (x : Site) (v : Warp) : (x.put s v).rayMsgs = s.rayMsgs := rfl
@[simp] theorem putSite_tqueues (s : State) (x : Site) (v : Warp) : (x.put s v).tqueues = s.tqueues := rfl
@[simp] theorem putSite_replicas (s : State) (x : Site) (v : Warp) : (x.put s v).replicas = s.replicas := rfl
@[simp] theorem putSite_aborts (s : State) (x : Site) (v : Warp) : (x.put s v).aborts = s.aborts := rfl
@[simp] theorem putSite_ports (s : State) (x : Site) (v : Warp) : (x.put s v).ports = s.ports := rfl
@[simp] theorem putSite_partials (s : State) (x : Site) (v : Warp) : (x.put s v).partials = s.partials := rfl
@[simp] theorem putSite_collectives (s : State) (x : Site) (v : Warp) : (x.put s v).collectives = s.collectives := rfl
@[simp] theorem putSite_collSets (s : State) (x : Site) (v : Warp) : (x.put s v).collSets = s.collSets := rfl
@[simp] theorem putSite_collSeq (s : State) (x : Site) (v : Warp) : (x.put s v).collSeq = s.collSeq := rfl
@[simp] theorem putSite_stackTab (s : State) (x : Site) (v : Warp) : (x.put s v).stackTab = s.stackTab := rfl
@[simp] theorem putSite_pstacks (s : State) (x : Site) (v : Warp) : (x.put s v).pstacks = s.pstacks := rfl
@[simp] theorem putSite_service (s : State) (x : Site) (v : Warp) : (x.put s v).service = s.service := rfl
@[simp] theorem putSite_debugger (s : State) (x : Site) (v : Warp) : (x.put s v).debugger = s.debugger := rfl
@[simp] theorem putSite_fresh (s : State) (x : Site) (v : Warp) : (x.put s v).fresh = s.fresh := rfl

end Sys2Proof.Machine
end

