-- ==== Sys2Proof/Laws/Memory.lean ====
section
/-! SUPPORT. The operations over memory: each keeps the canonical form of the memory it changes, and what a byte reads as after it
(R3, R198, R215, R410). -/

namespace Sys2Proof.Machine

/-! ### The canonical form -/

theorem cellsFold_wf (g : Host.Cell → Nat) (l : List Host.Cell) {m : List Host.Cell} (h : Memory.wf m) :
    Memory.wf (l.foldl (fun m c => cellSet m (g c) c.2) m) := by
  induction l generalizing m with
  | nil => exact h
  | cons c t ih => exact ih (cellSet_wf h _ _)

/-- Copying a range of bytes keeps the form. -/
theorem cellsMove_wf {m : List Host.Cell} (h : Memory.wf m) (src : List Host.Cell) (a b n : Nat) : Memory.wf (cellsMove m src a b n) :=
  cellsFold_wf _ _ (cellsClear_wf h _ _)

/-- A byte written at its home keeps the form. -/
theorem homePut_wf {s : State} (h : Memory.wf s.mem) (pa : Nat) (b : Byte) : Memory.wf (homePut s pa b).mem := by
  unfold homePut
  split
  · exact cellSet_wf (by simpa using cellsClear_wf h _ _) _ _
  · exact cellSet_wf h _ _

/-- Bytes written at their homes keep the form. -/
theorem homePuts_wf {s : State} (h : Memory.wf s.mem) (pa : Nat) (l : List Byte) : Memory.wf (homePuts s pa l).mem := by
  induction l generalizing s pa with
  | nil => exact h
  | cons b t ih => exact ih (homePut_wf h pa b) (pa + 1)

/-- Declaring blocks zero keeps the form. -/
theorem homeZero_wf {s : State} (h : Memory.wf s.mem) (lo hi : Nat) : Memory.wf (homeZero s lo hi).mem := cellsClear_wf h lo hi

theorem mem_modCrew {s : State} {k : Nat} {f : Crew → Crew} {e : Nat × Crew} (h : e ∈ (modCrew s k f).crews) :
    e ∈ s.crews ∨ ∃ c, (k, c) ∈ s.crews ∧ e = (k, f c) := by
  rw [modCrew_crews, kvMod, List.mem_map] at h
  obtain ⟨c, hc, rfl⟩ := h
  by_cases hk : c.1 = k
  · simp only [hk, if_true]; exact .inr ⟨c.2, hk ▸ hc, rfl⟩
  · simp only [hk, if_false]; exact .inl hc

/-- A change of one crew that keeps the form of its scratch keeps that of all. -/
theorem modCrew_scratch_wf {s : State} (h : ∀ e ∈ s.crews, Memory.wf e.2.scratch) (k : Nat) (f : Crew → Crew)
    (hf : ∀ c, Memory.wf c.scratch → Memory.wf (f c).scratch) : ∀ e ∈ (modCrew s k f).crews, Memory.wf e.2.scratch := by
  intro e he
  rcases mem_modCrew he with he | ⟨c, hc, rfl⟩
  · exact h e he
  · exact hf c (h _ hc)

/-- Bytes written to scratch keep the form. -/
theorem scratchPut_wf {s : State} (h : ∀ e ∈ s.crews, Memory.wf e.2.scratch) (crew off : Nat) (l : List Byte) :
    ∀ e ∈ (scratchPut s crew off l).crews, Memory.wf e.2.scratch :=
  modCrew_scratch_wf h _ _ fun _ hc => cellsSet_wf hc _ _

/-- Putting a warp back keeps the form of every scratch. -/
theorem setWarp_scratch_wf {s : State} (h : ∀ e ∈ s.crews, Memory.wf e.2.scratch) (k n : Nat) (wp : Warp) :
    ∀ e ∈ (setWarp s k n wp).crews, Memory.wf e.2.scratch :=
  modCrew_scratch_wf h k (fun c => { c with warps := kvSet c.warps n wp }) fun _ hc => hc

/-! ### Reading back -/

theorem kvGet_filter_out {α : Type} (m : KV α) (hm : Rising m) (p : Nat → Bool) (x : Nat) :
    kvGet (m.filter fun c => p c.1) x = if p x = true then kvGet m x else none := by
  induction m with
  | nil => simp [kvGet]
  | cons c t ih =>
    obtain ⟨k, v⟩ := c
    have ⟨h1, h2⟩ := List.pairwise_cons.1 hm
    by_cases hk : p k
    · rw [List.filter_cons_of_pos (by simpa using hk), kvGet, kvGet, ih h2]
      by_cases hx : k = x
      · subst hx; simp [hk]
      · by_cases hlt : x < k <;> simp [hx, hlt]
    · rw [List.filter_cons_of_neg (by simpa using hk), ih h2, kvGet]
      by_cases hx : k = x
      · subst hx; simp [hk]
      · by_cases hlt : x < k
        · rw [kvGet_none_of_lt fun e he => by have := h1 e he; simp only at this; omega]; simp [hx, hlt]
        · simp [hx, hlt]

/-- Reading after forgetting a range of bytes. -/
theorem cellGet_cellsClear {m : List Host.Cell} (h : Memory.wf m) (lo hi a : Nat) :
    cellGet (cellsClear m lo hi) a = if lo ≤ a ∧ a < hi then 0 else cellGet m a := by
  have e : kvGet (cellsClear m lo hi) a = if (decide (a < lo) || decide (hi ≤ a)) = true then kvGet m a else none :=
    kvGet_filter_out m h.1 (fun k => decide (k < lo) || decide (hi ≤ k)) a
  unfold cellGet
  rw [e]
  by_cases hr : lo ≤ a ∧ a < hi
  · have : ¬ (decide (a < lo) || decide (hi ≤ a)) = true := by simp; omega
    simp [this, hr, cellDefault]
  · have : (decide (a < lo) || decide (hi ≤ a)) = true := by simp; omega
    rw [if_pos this, if_neg hr]

theorem tagGet_tagSet_zero (m : KV W16) (k b : Nat) : tagGet (tagSet m k 0) b = if b = k then 0 else tagGet m b := by
  have : (0 : W16) ≠ tagDefault := by decide
  simp only [tagSet, if_neg this, tagGet, kvD_kvSet]

/-- A byte after a byte was written at its home (R198). -/
theorem homeByte_homePut {s : State} (h : Memory.wf s.mem) (pa a : Nat) (b : Byte) :
    homeByte (homePut s pa b) a = if a = pa then b else homeByte s a := by
  have z0 : isZeroTag 0 = false := by decide
  by_cases hz : isZeroTag (homeTag s pa) = true
  · have ht : (homePut s pa b).tags = tagSet s.tags (pa / 64) 0 := by simp [homePut, hz]
    have hm : (homePut s pa b).mem = cellSet (cellsClear s.mem (pa / 64 * 64) (pa / 64 * 64 + 64)) pa b := by simp [homePut, hz]
    unfold homeByte homeTag
    rw [ht, hm, tagGet_tagSet_zero, cellGet_cellSet (cellsClear_wf h _ _), cellGet_cellsClear h]
    by_cases ha : a / 64 = pa / 64
    · have hr : pa / 64 * 64 ≤ a ∧ a < pa / 64 * 64 + 64 := by omega
      simp only [ha, if_true, z0, hr]
      simp only [homeTag] at hz
      by_cases hap : a = pa <;> simp [hap, hz]
    · have hr : ¬ (pa / 64 * 64 ≤ a ∧ a < pa / 64 * 64 + 64) := by omega
      have hap : a ≠ pa := by rintro rfl; exact ha rfl
      simp [ha, hr, hap]
  · have ht : (homePut s pa b).tags = s.tags := by simp [homePut, hz]
    have hm : (homePut s pa b).mem = cellSet s.mem pa b := by simp [homePut, hz]
    unfold homeByte homeTag
    rw [ht, hm, cellGet_cellSet h]
    by_cases hap : a = pa
    · subst hap
      simp only [homeTag] at hz
      simp [hz]
    · simp [hap]

/-- A byte after bytes were written at their homes: the one written there, or the one that was there. -/
theorem homeByte_homePuts {s : State} (h : Memory.wf s.mem) (pa a : Nat) (l : List Byte) :
    homeByte (homePuts s pa l) a = if pa ≤ a ∧ a < pa + l.length then l.getD (a - pa) 0 else homeByte s a := by
  induction l generalizing s pa with
  | nil => simp [homePuts]
  | cons b t ih =>
    rw [homePuts, ih (homePut_wf h pa b), homeByte_homePut h]
    by_cases ha : a = pa
    · subst ha; simp
    · simp only [List.length_cons, if_neg ha]
      by_cases h1 : pa + 1 ≤ a ∧ a < pa + 1 + t.length
      · rw [if_pos h1, if_pos (by omega), show a - pa = (a - (pa + 1)) + 1 by omega, List.getD_cons_succ]
      · rw [if_neg h1, if_neg (by omega)]

/-- Bytes written at their homes change memory and tags alone. -/
theorem homePuts_others (s : State) (pa : Nat) (l : List Byte) :
    { homePuts s pa l with mem := s.mem, tags := s.tags } = s := by
  induction l generalizing s pa with
  | nil => rfl
  | cons b t ih =>
    have h1 : ∀ c, { homePut s pa c with mem := s.mem, tags := s.tags } = s := by
      intro c; unfold homePut; split <;> rfl
    have h2 := ih (homePut s pa b) (pa + 1)
    have h3 : { homePuts (homePut s pa b) (pa + 1) t with mem := s.mem, tags := s.tags } =
        { ({ homePuts (homePut s pa b) (pa + 1) t with mem := (homePut s pa b).mem, tags := (homePut s pa b).tags } : State) with
          mem := s.mem, tags := s.tags } := rfl
    rw [homePuts, h3, h2, h1]

end Sys2Proof.Machine
end

