-- ==== Sys2Proof/Laws/PerInstr.lean ====
section
/-! SUPPORT. For every instruction, one constructor at a time: the fields of a well-formed instruction's word lead back to it. -/

namespace Sys2Proof.Laws.OpField

open Sys2Proof Sys2Proof.Machine

/-- The operation code of an instruction's word is a byte, and with the word's fields it gives the instruction back (R56, R85-R93);
a step of another agent has no word. -/
def Statement (i : Instr) : Prop :=
  WellFormed i = true → ∀ op w, Instr.word? i = some (op, w) → op < 256 ∧ ofOp op w = some i

theorem of_word {i : Instr} {op : Nat} {w : Enc} (hw : Instr.word? i = some (op, w)) (h : op < 256)
    (ho : subOk i = true → ofOp op w = some i) : Statement i := by
  intro hf op' w' hw'
  rw [hw] at hw'
  obtain ⟨rfl, rfl⟩ := Prod.mk.inj (Option.some.inj hw')
  exact ⟨h, ho (wellFormed_sub hw hf)⟩

theorem of_none {i : Instr} (hw : Instr.word? i = none) : Statement i := by
  intro _ op w h; rw [hw] at h; cases h

theorem sub_eq {w : Enc} {k : Nat} (h : (w.sub == BitVec.ofNat 4 k) = true) (hk : k < 16) : w.sub.toNat = k := by
  rw [beq_iff_eq.1 h]; simp; omega

theorem nop (w : Enc) : Statement (.nop w) := of_word rfl (by decide) fun _ => rfl
theorem bra (w : Enc) : Statement (.bra w) := of_word rfl (by decide) fun _ => rfl
theorem brau (w : Enc) : Statement (.brau w) := of_word rfl (by decide) fun _ => rfl
theorem brx (w : Enc) : Statement (.brx w) := of_word rfl (by decide) fun _ => rfl
theorem call (w : Enc) : Statement (.call w) := of_word rfl (by decide) fun _ => rfl
theorem calli (w : Enc) : Statement (.calli w) := of_word rfl (by decide) fun _ => rfl
theorem ret (w : Enc) : Statement (.ret w) := of_word rfl (by decide) fun _ => rfl
theorem jsave (w : Enc) : Statement (.jsave w) := of_word rfl (by decide) fun _ => rfl
theorem join (w : Enc) : Statement (.join w) := of_word rfl (by decide) fun _ => rfl
theorem jwait (w : Enc) : Statement (.jwait w) := of_word rfl (by decide) fun _ => rfl
theorem exit (w : Enc) : Statement (.exit w) := of_word rfl (by decide) fun _ => rfl
theorem refill (w : Enc) : Statement (.refill w) := of_word rfl (by decide) fun _ => rfl
theorem reform (w : Enc) : Statement (.reform w) := of_word rfl (by decide) fun _ => rfl
theorem yield (w : Enc) : Statement (.yield w) := of_word rfl (by decide) fun _ => rfl
theorem npregEnter (w : Enc) : Statement (.npregEnter w) :=
  of_word rfl (by decide) fun h => by have := sub_eq (k := 0) h (by decide); simp only [ofOp, this]
theorem npregLeave (w : Enc) : Statement (.npregLeave w) :=
  of_word rfl (by decide) fun h => by have := sub_eq (k := 1) h (by decide); simp only [ofOp, this]
theorem trapBrk (w : Enc) : Statement (.trapBrk w) :=
  of_word rfl (by decide) fun h => by have := sub_eq (k := 0) h (by decide); simp only [ofOp, this]
theorem trapCall (w : Enc) : Statement (.trapCall w) :=
  of_word rfl (by decide) fun h => by have := sub_eq (k := 1) h (by decide); simp only [ofOp, this]
theorem trapTret (w : Enc) : Statement (.trapTret w) :=
  of_word rfl (by decide) fun h => by have := sub_eq (k := 2) h (by decide); simp only [ofOp, this]
theorem iadd (w : Enc) : Statement (.iadd w) := of_word rfl (by decide) fun _ => rfl
theorem isub (w : Enc) : Statement (.isub w) := of_word rfl (by decide) fun _ => rfl
theorem iaddc (w : Enc) : Statement (.iaddc w) := of_word rfl (by decide) fun _ => rfl
theorem isubb (w : Enc) : Statement (.isubb w) := of_word rfl (by decide) fun _ => rfl
theorem imul (w : Enc) : Statement (.imul w) := of_word rfl (by decide) fun _ => rfl
theorem imulh (w : Enc) : Statement (.imulh w) := of_word rfl (by decide) fun _ => rfl
theorem imad (w : Enc) : Statement (.imad w) := of_word rfl (by decide) fun _ => rfl
theorem imadw (w : Enc) : Statement (.imadw w) := of_word rfl (by decide) fun _ => rfl
theorem imin (w : Enc) : Statement (.imin w) := of_word rfl (by decide) fun _ => rfl
theorem imax (w : Enc) : Statement (.imax w) := of_word rfl (by decide) fun _ => rfl
theorem iabs (w : Enc) : Statement (.iabs w) := of_word rfl (by decide) fun _ => rfl
theorem isad (w : Enc) : Statement (.isad w) := of_word rfl (by decide) fun _ => rfl
theorem icmp (w : Enc) : Statement (.icmp w) := of_word rfl (by decide) fun _ => rfl
theorem isel (w : Enc) : Statement (.isel w) := of_word rfl (by decide) fun _ => rfl
theorem and (w : Enc) : Statement (.and w) := of_word rfl (by decide) fun _ => rfl
theorem or (w : Enc) : Statement (.or w) := of_word rfl (by decide) fun _ => rfl
theorem xor (w : Enc) : Statement (.xor w) := of_word rfl (by decide) fun _ => rfl
theorem andn (w : Enc) : Statement (.andn w) := of_word rfl (by decide) fun _ => rfl
theorem lop3 (w : Enc) : Statement (.lop3 w) := of_word rfl (by decide) fun _ => rfl
theorem shl (w : Enc) : Statement (.shl w) := of_word rfl (by decide) fun _ => rfl
theorem shr (w : Enc) : Statement (.shr w) := of_word rfl (by decide) fun _ => rfl
theorem sar (w : Enc) : Statement (.sar w) := of_word rfl (by decide) fun _ => rfl
theorem rotl (w : Enc) : Statement (.rotl w) := of_word rfl (by decide) fun _ => rfl
theorem fshf (w : Enc) : Statement (.fshf w) := of_word rfl (by decide) fun _ => rfl
theorem bfx (w : Enc) : Statement (.bfx w) := of_word rfl (by decide) fun _ => rfl
theorem bfi (w : Enc) : Statement (.bfi w) := of_word rfl (by decide) fun _ => rfl
theorem popc (w : Enc) : Statement (.popc w) := of_word rfl (by decide) fun _ => rfl
theorem clz (w : Enc) : Statement (.clz w) := of_word rfl (by decide) fun _ => rfl
theorem ctz (w : Enc) : Statement (.ctz w) := of_word rfl (by decide) fun _ => rfl
theorem brev (w : Enc) : Statement (.brev w) := of_word rfl (by decide) fun _ => rfl
theorem blv (w : Enc) : Statement (.blv w) := of_word rfl (by decide) fun _ => rfl
theorem bdlv (w : Enc) : Statement (.bdlv w) := of_word rfl (by decide) fun _ => rfl
theorem lea (w : Enc) : Statement (.lea w) := of_word rfl (by decide) fun _ => rfl
theorem prmt (w : Enc) : Statement (.prmt w) := of_word rfl (by decide) fun _ => rfl
theorem mov (w : Enc) : Statement (.mov w) := of_word rfl (by decide) fun _ => rfl
theorem movl (w : Enc) : Statement (.movl w) := of_word rfl (by decide) fun _ => rfl
theorem cvti (w : Enc) : Statement (.cvti w) := of_word rfl (by decide) fun _ => rfl
theorem idiv (w : Enc) : Statement (.idiv w) := of_word rfl (by decide) fun _ => rfl
theorem fadd (w : Enc) : Statement (.fadd w) := of_word rfl (by decide) fun _ => rfl
theorem fsub (w : Enc) : Statement (.fsub w) := of_word rfl (by decide) fun _ => rfl
theorem fmul (w : Enc) : Statement (.fmul w) := of_word rfl (by decide) fun _ => rfl
theorem ffma (w : Enc) : Statement (.ffma w) := of_word rfl (by decide) fun _ => rfl
theorem fmin (w : Enc) : Statement (.fmin w) := of_word rfl (by decide) fun _ => rfl
theorem fmax (w : Enc) : Statement (.fmax w) := of_word rfl (by decide) fun _ => rfl
theorem fcmp (w : Enc) : Statement (.fcmp w) := of_word rfl (by decide) fun _ => rfl
theorem fclass (w : Enc) : Statement (.fclass w) := of_word rfl (by decide) fun _ => rfl
theorem frnd (w : Enc) : Statement (.frnd w) := of_word rfl (by decide) fun _ => rfl
theorem fcvt (w : Enc) : Statement (.fcvt w) := of_word rfl (by decide) fun _ => rfl
theorem f2i (w : Enc) : Statement (.f2i w) := of_word rfl (by decide) fun _ => rfl
theorem i2f (w : Enc) : Statement (.i2f w) := of_word rfl (by decide) fun _ => rfl
theorem fdiv (w : Enc) : Statement (.fdiv w) := of_word rfl (by decide) fun _ => rfl
theorem fsqrt (w : Enc) : Statement (.fsqrt w) := of_word rfl (by decide) fun _ => rfl
theorem frcp (w : Enc) : Statement (.frcp w) := of_word rfl (by decide) fun _ => rfl
theorem frsq (w : Enc) : Statement (.frsq w) := of_word rfl (by decide) fun _ => rfl
theorem exp2 (w : Enc) : Statement (.exp2 w) := of_word rfl (by decide) fun _ => rfl
theorem log2 (w : Enc) : Statement (.log2 w) := of_word rfl (by decide) fun _ => rfl
theorem sinpi (w : Enc) : Statement (.sinpi w) := of_word rfl (by decide) fun _ => rfl
theorem cospi (w : Enc) : Statement (.cospi w) := of_word rfl (by decide) fun _ => rfl
theorem fdot2 (w : Enc) : Statement (.fdot2 w) := of_word rfl (by decide) fun _ => rfl
theorem fscale (w : Enc) : Statement (.fscale w) := of_word rfl (by decide) fun _ => rfl
theorem flgclr (w : Enc) : Statement (.flgclr w) := of_word rfl (by decide) fun _ => rfl
theorem welf (w : Enc) : Statement (.welf w) := of_word rfl (by decide) fun _ => rfl
theorem wmrg (w : Enc) : Statement (.wmrg w) := of_word rfl (by decide) fun _ => rfl
theorem vote (w : Enc) : Statement (.vote w) := of_word rfl (by decide) fun _ => rfl
theorem shfl (w : Enc) : Statement (.shfl w) := of_word rfl (by decide) fun _ => rfl
theorem wred (w : Enc) : Statement (.wred w) := of_word rfl (by decide) fun _ => rfl
theorem wscan (w : Enc) : Statement (.wscan w) := of_word rfl (by decide) fun _ => rfl
theorem laneMatch (w : Enc) : Statement (.laneMatch w) := of_word rfl (by decide) fun _ => rfl
theorem elect (w : Enc) : Statement (.elect w) := of_word rfl (by decide) fun _ => rfl
theorem plop (w : Enc) : Statement (.plop w) := of_word rfl (by decide) fun _ => rfl
theorem pmov (w : Enc) : Statement (.pmov w) :=
  of_word rfl (by decide) fun h => by have := sub_eq (k := 0) h (by decide); simp only [ofOp, this]
theorem pmovSet (w : Enc) : Statement (.pmovSet w) :=
  of_word rfl (by decide) fun h => by have := sub_eq (k := 1) h (by decide); simp only [ofOp, this]
theorem bxq (w : Enc) : Statement (.bxq w) := of_word rfl (by decide) fun _ => rfl
theorem ld (w : Enc) : Statement (.ld w) := of_word rfl (by decide) fun _ => rfl
theorem st (w : Enc) : Statement (.st w) := of_word rfl (by decide) fun _ => rfl
theorem lds (w : Enc) : Statement (.lds w) := of_word rfl (by decide) fun _ => rfl
theorem sts (w : Enc) : Statement (.sts w) := of_word rfl (by decide) fun _ => rfl
theorem ldk (w : Enc) : Statement (.ldk w) := of_word rfl (by decide) fun _ => rfl
theorem atom (w : Enc) : Statement (.atom w) := of_word rfl (by decide) fun _ => rfl
theorem atoms (w : Enc) : Statement (.atoms w) := of_word rfl (by decide) fun _ => rfl
theorem red (w : Enc) : Statement (.red w) := of_word rfl (by decide) fun _ => rfl
theorem pfetch (w : Enc) : Statement (.pfetch w) :=
  of_word rfl (by decide) fun h => by
    have h2 : w.sub.toNat < 2 := of_decide_eq_true h
    simp only [ofOp]
    rcases (by omega : w.sub.toNat = 0 ∨ w.sub.toNat = 1) with h3 | h3 <;> simp only [h3]
theorem pfetchZero (w : Enc) : Statement (.pfetchZero w) :=
  of_word rfl (by decide) fun h => by have := sub_eq (k := 2) h (by decide); simp only [ofOp, this]
theorem fence (w : Enc) : Statement (.fence w) := of_word rfl (by decide) fun _ => rfl
theorem cflush (w : Enc) : Statement (.cflush w) := of_word rfl (by decide) fun _ => rfl
theorem cinv (w : Enc) : Statement (.cinv w) := of_word rfl (by decide) fun _ => rfl
theorem csplit (w : Enc) : Statement (.csplit w) := of_word rfl (by decide) fun _ => rfl
theorem sealRec (w : Enc) : Statement (.sealRec w) := of_word rfl (by decide) fun _ => rfl
theorem unsealRec (w : Enc) : Statement (.unsealRec w) := of_word rfl (by decide) fun _ => rfl
theorem hqry (w : Enc) : Statement (.hqry w) := of_word rfl (by decide) fun _ => rfl
theorem cpy (w : Enc) : Statement (.cpy w) := of_word rfl (by decide) fun _ => rfl
theorem gath (w : Enc) : Statement (.gath w) := of_word rfl (by decide) fun _ => rfl
theorem scat (w : Enc) : Statement (.scat w) := of_word rfl (by decide) fun _ => rfl
theorem coll (w : Enc) : Statement (.coll w) := of_word rfl (by decide) fun _ => rfl
theorem putn (w : Enc) : Statement (.putn w) := of_word rfl (by decide) fun _ => rfl
theorem getn (w : Enc) : Statement (.getn w) := of_word rfl (by decide) fun _ => rfl
theorem signal (w : Enc) : Statement (.signal w) := of_word rfl (by decide) fun _ => rfl
theorem waitc (w : Enc) : Statement (.waitc w) := of_word rfl (by decide) fun _ => rfl
theorem cntrd (w : Enc) : Statement (.cntrd w) := of_word rfl (by decide) fun _ => rfl
theorem mma (w : Enc) : Statement (.mma w) := of_word rfl (by decide) fun _ => rfl
theorem mmap (w : Enc) : Statement (.mmap w) := of_word rfl (by decide) fun _ => rfl
theorem mmag (w : Enc) : Statement (.mmag w) := of_word rfl (by decide) fun _ => rfl
theorem accz (w : Enc) : Statement (.accz w) := of_word rfl (by decide) fun _ => rfl
theorem accld (w : Enc) : Statement (.accld w) := of_word rfl (by decide) fun _ => rfl
theorem accst (w : Enc) : Statement (.accst w) := of_word rfl (by decide) fun _ => rfl
theorem accrd (w : Enc) : Statement (.accrd w) := of_word rfl (by decide) fun _ => rfl
theorem accwr (w : Enc) : Statement (.accwr w) := of_word rfl (by decide) fun _ => rfl
theorem mxacq (w : Enc) : Statement (.mxacq w) := of_word rfl (by decide) fun _ => rfl
theorem mxrel (w : Enc) : Statement (.mxrel w) := of_word rfl (by decide) fun _ => rfl
theorem mxstat (w : Enc) : Statement (.mxstat w) := of_word rfl (by decide) fun _ => rfl
theorem trace (w : Enc) : Statement (.trace w) := of_word rfl (by decide) fun _ => rfl
theorem hitq (w : Enc) : Statement (.hitq w) := of_word rfl (by decide) fun _ => rfl
theorem candGet (w : Enc) : Statement (.candGet w) :=
  of_word rfl (by decide) fun h => by have := sub_eq (k := 0) h (by decide); simp only [ofOp, this]
theorem candAccept (w : Enc) : Statement (.candAccept w) :=
  of_word rfl (by decide) fun h => by have := sub_eq (k := 1) h (by decide); simp only [ofOp, this]
theorem candReject (w : Enc) : Statement (.candReject w) :=
  of_word rfl (by decide) fun h => by have := sub_eq (k := 2) h (by decide); simp only [ofOp, this]
theorem candTerm (w : Enc) : Statement (.candTerm w) :=
  of_word rfl (by decide) fun h => by have := sub_eq (k := 3) h (by decide); simp only [ofOp, this]
theorem filtTex (w : Enc) : Statement (.filtTex w) :=
  of_word rfl (by decide) fun h => by have := sub_eq (k := 0) h (by decide); simp only [ofOp, this]
theorem filtGrid (w : Enc) : Statement (.filtGrid w) :=
  of_word rfl (by decide) fun h => by have := sub_eq (k := 1) h (by decide); simp only [ofOp, this]
theorem tlshut (w : Enc) : Statement (.tlshut w) := of_word rfl (by decide) fun _ => rfl
theorem tlpost (w : Enc) : Statement (.tlpost w) := of_word rfl (by decide) fun _ => rfl
theorem tlqry (w : Enc) : Statement (.tlqry w) := of_word rfl (by decide) fun _ => rfl
theorem bari (w : Enc) : Statement (.bari w) := of_word rfl (by decide) fun _ => rfl
theorem bara (w : Enc) : Statement (.bara w) := of_word rfl (by decide) fun _ => rfl
theorem barw (w : Enc) : Statement (.barw w) := of_word rfl (by decide) fun _ => rfl
theorem baraw (w : Enc) : Statement (.baraw w) := of_word rfl (by decide) fun _ => rfl
theorem grpq (w : Enc) : Statement (.grpq w) := of_word rfl (by decide) fun _ => rfl
theorem gred (w : Enc) : Statement (.gred w) := of_word rfl (by decide) fun _ => rfl
theorem step (w : Enc) : Statement (.step w) := of_word rfl (by decide) fun _ => rfl
theorem sysrd (w : Enc) : Statement (.sysrd w) := of_word rfl (by decide) fun _ => rfl
theorem syswr (w : Enc) : Statement (.syswr w) := of_word rfl (by decide) fun _ => rfl
theorem clk (w : Enc) : Statement (.clk w) := of_word rfl (by decide) fun _ => rfl
theorem grow (w : Enc) : Statement (.grow w) := of_word rfl (by decide) fun _ => rfl
theorem shrink (w : Enc) : Statement (.shrink w) := of_word rfl (by decide) fun _ => rfl
theorem rsplit (w : Enc) : Statement (.rsplit w) := of_word rfl (by decide) fun _ => rfl
theorem rmerge (w : Enc) : Statement (.rmerge w) := of_word rfl (by decide) fun _ => rfl
theorem rinv (w : Enc) : Statement (.rinv w) := of_word rfl (by decide) fun _ => rfl
theorem rprobe (w : Enc) : Statement (.rprobe w) := of_word rfl (by decide) fun _ => rfl
theorem rhint (w : Enc) : Statement (.rhint w) := of_word rfl (by decide) fun _ => rfl
theorem rmove (w : Enc) : Statement (.rmove w) := of_word rfl (by decide) fun _ => rfl
theorem rcmpt (w : Enc) : Statement (.rcmpt w) := of_word rfl (by decide) fun _ => rfl
theorem commit (w : Enc) : Statement (.commit w) := of_word rfl (by decide) fun _ => rfl
theorem runStart : ∀ a b c, Statement (.runStart a b c) := by intros; exact of_none rfl
theorem stallEviction : ∀ a, Statement (.stallEviction a) := by intros; exact of_none rfl
theorem loadDataReturn : ∀ a b, Statement (.loadDataReturn a b) := by intros; exact of_none rfl
theorem storeQueueLeave : ∀ a, Statement (.storeQueueLeave a) := by intros; exact of_none rfl
theorem registerStallResolution : ∀ a, Statement (.registerStallResolution a) := by intros; exact of_none rfl
theorem growGrant : ∀ a b, Statement (.growGrant a b) := by intros; exact of_none rfl
theorem binAged : ∀ a b, Statement (.binAged a b) := by intros; exact of_none rfl
theorem binDraw : ∀ a, Statement (.binDraw a) := by intros; exact of_none rfl
theorem idleWarpRefill : ∀ a, Statement (.idleWarpRefill a) := by intros; exact of_none rfl
theorem warpRetire : ∀ a, Statement (.warpRetire a) := by intros; exact of_none rfl
theorem launchComplete : ∀ a, Statement (.launchComplete a) := by intros; exact of_none rfl
theorem commandStart : ∀ a, Statement (.commandStart a) := by intros; exact of_none rfl
theorem commandComplete : ∀ a, Statement (.commandComplete a) := by intros; exact of_none rfl
theorem commandRetire : ∀ a, Statement (.commandRetire a) := by intros; exact of_none rfl
theorem matrixTileStep : ∀ a b, Statement (.matrixTileStep a b) := by intros; exact of_none rfl
theorem rayAdmit : ∀ a, Statement (.rayAdmit a) := by intros; exact of_none rfl
theorem treeletBatch : ∀ a b c, Statement (.treeletBatch a b c) := by intros; exact of_none rfl
theorem hitDelivery : ∀ a, Statement (.hitDelivery a) := by intros; exact of_none rfl
theorem candidateDelivery : ∀ a, Statement (.candidateDelivery a) := by intros; exact of_none rfl
theorem candidateReturn : ∀ a, Statement (.candidateReturn a) := by intros; exact of_none rfl
theorem candidateAnswer : ∀ a, Statement (.candidateAnswer a) := by intros; exact of_none rfl
theorem filterRequestEnd : ∀ a b, Statement (.filterRequestEnd a b) := by intros; exact of_none rfl
theorem viewSampleDelivery : ∀ a, Statement (.viewSampleDelivery a) := by intros; exact of_none rfl
theorem tileEmission : ∀ a b, Statement (.tileEmission a b) := by intros; exact of_none rfl
theorem viewComplete : ∀ a, Statement (.viewComplete a) := by intros; exact of_none rfl
theorem moveComplete : ∀ a, Statement (.moveComplete a) := by intros; exact of_none rfl
theorem frameWaitTimeout : ∀ a, Statement (.frameWaitTimeout a) := by intros; exact of_none rfl
theorem rangeOpComplete : ∀ a, Statement (.rangeOpComplete a) := by intros; exact of_none rfl
theorem sliceExpiry : ∀ a b, Statement (.sliceExpiry a b) := by intros; exact of_none rfl
theorem yieldDeadlineExpiry : ∀ a, Statement (.yieldDeadlineExpiry a) := by intros; exact of_none rfl
theorem npregBudgetExpiry : ∀ a, Statement (.npregBudgetExpiry a) := by intros; exact of_none rfl
theorem crewSave : ∀ a, Statement (.crewSave a) := by intros; exact of_none rfl
theorem crewPlacement : ∀ a, Statement (.crewPlacement a) := by intros; exact of_none rfl
theorem crewRestore : ∀ a b, Statement (.crewRestore a b) := by intros; exact of_none rfl
theorem thermalMigration : ∀ a, Statement (.thermalMigration a) := by intros; exact of_none rfl
theorem contextRelease : ∀ a, Statement (.contextRelease a) := by intros; exact of_none rfl
theorem doorbell : ∀ a b, Statement (.doorbell a b) := by intros; exact of_none rfl
theorem launch : ∀ a, Statement (.launch a) := by intros; exact of_none rfl
theorem view : ∀ a, Statement (.view a) := by intros; exact of_none rfl
theorem semwait : ∀ a, Statement (.semwait a) := by intros; exact of_none rfl
theorem semwaitRecheck : ∀ a, Statement (.semwaitRecheck a) := by intros; exact of_none rfl
theorem semsignal : ∀ a, Statement (.semsignal a) := by intros; exact of_none rfl
theorem rangeop : ∀ a, Statement (.rangeop a) := by intros; exact of_none rfl
theorem queueFence : ∀ a, Statement (.queueFence a) := by intros; exact of_none rfl
theorem create : ∀ a b c, Statement (.create a b c) := by intros; exact of_none rfl
theorem suspend : ∀ a b, Statement (.suspend a b) := by intros; exact of_none rfl
theorem resume : ∀ a b c, Statement (.resume a b c) := by intros; exact of_none rfl
theorem drain : ∀ a b, Statement (.drain a b) := by intros; exact of_none rfl
theorem destroy : ∀ a b, Statement (.destroy a b) := by intros; exact of_none rfl
theorem qsetup : ∀ a b c d, Statement (.qsetup a b c d) := by intros; exact of_none rfl
theorem qdisable : ∀ a b, Statement (.qdisable a b) := by intros; exact of_none rfl
theorem qresume : ∀ a b c, Statement (.qresume a b c) := by intros; exact of_none rfl
theorem iqsetup : ∀ a b c d, Statement (.iqsetup a b c d) := by intros; exact of_none rfl
theorem rready : ∀ a b, Statement (.rready a b) := by intros; exact of_none rfl
theorem hostFence : ∀ a b c, Statement (.hostFence a b c) := by intros; exact of_none rfl
theorem unfence : ∀ a b c, Statement (.unfence a b c) := by intros; exact of_none rfl
theorem testingEnd : ∀ a b, Statement (.testingEnd a b) := by intros; exact of_none rfl
theorem pdrain : ∀ a b, Statement (.pdrain a b) := by intros; exact of_none rfl
theorem preturn : ∀ a b, Statement (.preturn a b) := by intros; exact of_none rfl
theorem fwstage : ∀ a b, Statement (.fwstage a b) := by intros; exact of_none rfl
theorem fwswap : ∀ a, Statement (.fwswap a) := by intros; exact of_none rfl
theorem attest : ∀ a b, Statement (.attest a b) := by intros; exact of_none rfl
theorem collset : ∀ a b c d, Statement (.collset a b c d) := by intros; exact of_none rfl
theorem putData : ∀ a b, Statement (.putData a b) := by intros; exact of_none rfl
theorem getRequest : ∀ a b, Statement (.getRequest a b) := by intros; exact of_none rfl
theorem signalMessage : ∀ a b, Statement (.signalMessage a b) := by intros; exact of_none rfl
theorem getData : ∀ a b, Statement (.getData a b) := by intros; exact of_none rfl
theorem performedAcknowledgement : ∀ a b, Statement (.performedAcknowledgement a b) := by intros; exact of_none rfl
theorem faultResponse : ∀ a b, Statement (.faultResponse a b) := by intros; exact of_none rfl
theorem collectiveSegment : ∀ a b, Statement (.collectiveSegment a b) := by intros; exact of_none rfl
theorem hostWrite : ∀ a b, Statement (.hostWrite a b) := by intros; exact of_none rfl
theorem hostRead : ∀ a b, Statement (.hostRead a b) := by intros; exact of_none rfl
theorem nak : ∀ a b, Statement (.nak a b) := by intros; exact of_none rfl
theorem badFrame : ∀ a b, Statement (.badFrame a b) := by intros; exact of_none rfl
theorem retransmitTimeout : ∀ a, Statement (.retransmitTimeout a) := by intros; exact of_none rfl
theorem linkTrained : ∀ a b, Statement (.linkTrained a b) := by intros; exact of_none rfl
theorem trainingTimeout : ∀ a, Statement (.trainingTimeout a) := by intros; exact of_none rfl
theorem errorWindowEnd : ∀ a, Statement (.errorWindowEnd a) := by intros; exact of_none rfl
theorem drainingEnd : ∀ a, Statement (.drainingEnd a) := by intros; exact of_none rfl
theorem lossOfSignal : ∀ a, Statement (.lossOfSignal a) := by intros; exact of_none rfl
theorem portWaitTimeout : ∀ a, Statement (.portWaitTimeout a) := by intros; exact of_none rfl
theorem lctlRetrain : ∀ a, Statement (.lctlRetrain a) := by intros; exact of_none rfl
theorem lctlStartTraining : ∀ a, Statement (.lctlStartTraining a) := by intros; exact of_none rfl
theorem channelRequestServe : ∀ a b, Statement (.channelRequestServe a b) := by intros; exact of_none rfl
theorem refreshDue : ∀ a b, Statement (.refreshDue a b) := by intros; exact of_none rfl
theorem refreshEnd : ∀ a b, Statement (.refreshEnd a b) := by intros; exact of_none rfl
theorem selfRefreshEntry : ∀ a, Statement (.selfRefreshEntry a) := by intros; exact of_none rfl
theorem retentionEntry : ∀ a, Statement (.retentionEntry a) := by intros; exact of_none rfl
theorem stackWake : ∀ a, Statement (.stackWake a) := by intros; exact of_none rfl
theorem debugWakeReturn : ∀ a, Statement (.debugWakeReturn a) := by intros; exact of_none rfl
theorem gapCopyComplete : ∀ a b, Statement (.gapCopyComplete a b) := by intros; exact of_none rfl
theorem powerProjection : ∀ a, Statement (.powerProjection a) := by intros; exact of_none rfl
theorem uncorrectableError : ∀ a, Statement (.uncorrectableError a) := by intros; exact of_none rfl
theorem coldBoot : ∀ a, Statement (.coldBoot a) := by intros; exact of_none rfl
theorem warmReset : ∀ a, Statement (.warmReset a) := by intros; exact of_none rfl
theorem dattach : ∀ a, Statement (.dattach a) := by intros; exact of_none rfl
theorem ddetach : Statement .ddetach := of_none rfl
theorem dcatch : ∀ a, Statement (.dcatch a) := by intros; exact of_none rfl
theorem dhalt : ∀ a, Statement (.dhalt a) := by intros; exact of_none rfl
theorem dstep : ∀ a, Statement (.dstep a) := by intros; exact of_none rfl
theorem dread : ∀ a b c d, Statement (.dread a b c d) := by intros; exact of_none rfl
theorem dwrite : ∀ a b c d e, Statement (.dwrite a b c d e) := by intros; exact of_none rfl
theorem dwatch : ∀ a b c d, Statement (.dwatch a b c d) := by intros; exact of_none rfl
theorem drelease : ∀ a, Statement (.drelease a) := by intros; exact of_none rfl
theorem dmem : ∀ a b c, Statement (.dmem a b c) := by intros; exact of_none rfl
theorem wear : ∀ a b, Statement (.wear a b) := by intros; exact of_none rfl
theorem creditReturn : ∀ a b, Statement (.creditReturn a b) := by intros; exact of_none rfl
theorem correctedSoftError : ∀ a, Statement (.correctedSoftError a) := by intros; exact of_none rfl
theorem powerLoss : Statement .powerLoss := of_none rfl

end Sys2Proof.Laws.OpField
end

