-- ==== Sys2Proof/Tests/Slice0.lean ====
section
/-! SUPPORT. Tests: decoding of the words that the spec writes out, refusals of ill-formed terms, single steps with results from
the spec, and, for each statement for the provers, states and operands that meet its hypotheses. -/

namespace Sys2Proof.Tests
open Sys2Proof Sys2Proof.Machine

set_option maxRecDepth 40000
set_option Elab.async false

/-! ### Small states and operands -/

/-- A state with a warp of 64 lanes about to issue, in a context with system privilege. -/
def probe : State := { State.reset.withProbe with issuing := some ⟨0, 0, 0⟩ }
def mainR (n : Nat) : Operand := ⟨.main, BitVec.ofNat 9 n, false, 0, 0⟩
def scal (n : Nat) : Operand := ⟨.scalar, BitVec.ofNat 9 n, false, 0, 0⟩
def prd (n : Nat) : Operand := ⟨.pred, BitVec.ofNat 9 n, false, 0, 0⟩
def side (n : Nat) : Operand := ⟨.side, BitVec.ofNat 9 n, false, 0, 0⟩
def z : Operand := mainR 0
def raw (n : Nat) : Operand := Operand.ofBits (BitVec.ofNat 16 n)
def allLanes : Guard := ⟨31, false, 31, false, false⟩
def onP (n : Nat) : Guard := ⟨BitVec.ofNat 5 n, false, 31, false, false⟩
def notP (n : Nat) : Guard := ⟨BitVec.ofNat 5 n, true, 31, false, false⟩
def enc (sub : Nat) (ty : Ty) (d a b c e : Operand) (lit : Option W32 := none) (g : Guard := allLanes) : Enc :=
  ⟨BitVec.ofNat 4 sub, ty, g, 0, d, a, b, c, e, lit, false, 0, false, false⟩
def withWarp (f : Warp → Warp) (s : State := probe) : State :=
  match getWarp s 0 0 with
  | some wp => setWarp s 0 0 (f wp)
  | none => s
def withRegs (f : Regs → Regs) (s : State := probe) : State := withWarp (fun wp => { wp with regs := f wp.regs }) s
def withCrew (f : Crew → Crew) (s : State := probe) : State := modCrew s 0 f
def withLaunch (f : Launch → Launch) (s : State := probe) : State := setLaunch s 0 (f (getLaunch s 0))
def withKernel (f : Kernel → Kernel) (s : State := probe) : State := withLaunch (fun l => { l with kernel := f l.kernel }) s
def withCtx (f : Context → Context) (s : State := probe) : State := setCtx s 0 (f (getCtx s 0))
/-- Register r of lane l holding f l, as entries of the register file. -/
def laneV (f : Nat → Nat) (r : Nat) : KV W32 := (List.range 64).map fun l => (64 * r + l, BitVec.ofNat 32 (f l))
/-- Scalars set; p1 false and p5 true in lanes 0 to 3. -/
def sset (l : List (Nat × Nat)) (s : State := probe) : State :=
  withRegs (fun r => { r with s := l.foldl (fun m e => kvSet m e.1 (BitVec.ofNat 32 e.2)) r.s, p := [(1, 0), (5, 0xF)] }) s
def putAt (b : List Byte) (o : Nat) (v : List Byte) : List Byte := b.take o ++ v ++ b.drop (o + v.length)
def puts (b : List Byte) (l : List (Nat × List Byte)) : List Byte := l.foldl (fun b e => putAt b e.1 e.2) b
/-- A TENSOR record: element type, base, extents, strides. -/
def tens (et base : Nat) (ext str : List Nat) : List Byte :=
  [1, 1, BitVec.ofNat 8 ext.length, BitVec.ofNat 8 et, 0, 0, 0, 0] ++ leBytes 8 base ++
    ((List.range 4).map fun k => leBytes 4 (ext.getD k 1)).flatten ++ ((List.range 4).map fun k => leBytes 8 (str.getD k 0)).flatten ++
    List.replicate 64 0
def record (kind : Nat) : List Byte := [BitVec.ofNat 8 kind, 1] ++ List.replicate 126 0
/-- A record sealed in slot 3, of handle h3. -/
def rec0 (b : List Byte) (s : State := probe) : State := withCtx (fun c => { c with recs := [(3, { gen := 1, isSealed := true, data := b })] }) s
def h3 : Nat := 1027
def scrWith (b : List Byte) (s : State := probe) : State :=
  withCrew (fun c => { c with scratch := (b.zipIdx.filter fun e => e.1 != 0).map fun e => (e.2, e.1) }) s
/-- A context descriptor: ray pool, treelet table, records, spills and save area inside the first MiB. -/
def desc0 : List Byte := puts (leBytes 4 1 ++ List.replicate 124 0) [(4, leBytes 4 1), (28, leBytes 4 100), (32, leBytes 8 (2 ^ 20)),
  (40, leBytes 8 0x40000), (52, leBytes 4 16), (56, leBytes 8 0x30000), (64, leBytes 8 0x50000), (72, leBytes 8 0x60000),
  (80, leBytes 8 0x200000), (88, leBytes 8 0x70000), (96, leBytes 8 0x1000)]
/-- The state with a range directory of these pieces. -/
def withDir (ps : List Piece) (s : State) : State :=
  let s := withCtx (fun c => { c with desc := desc0 }) s
  homePuts (homePuts s 0x1000 (leBytes 2 ps.length)) 0x1040 ((ps.map pieceBytes).flatten)
def dir0 : State := withDir [probePiece] probe

/-! ### What issues -/

/-- Whether the instruction issues with a site that has a property. -/
def issuesAt (i : Instr) (w : Enc) (s : State) (p : Site → Bool) : Bool :=
  match siteOf s with
  | none => false
  | some y =>
    let x : Site := { y with act := activeLanes i w y }
    !(warpWide i && mustReconverge y.wp y.rn.path y.pa) && !guardEmpty y.wp w.guard &&
      (x.act == 0 || (!(needsSys s x i && !ctxSys s x.cr.ctx) && !mustWait i w s x && (sourceTrap i w s x).isNone)) && p x

theorem issuesAt_issues (i : Instr) (w : Enc) (s : State) (p : Site → Bool) (h : issuesAt i w s p = true) :
    ∃ x, Issues i w s x ∧ p x = true := by
  unfold issuesAt at h
  split at h
  · cases h
  · rename_i y hy
    simp only [Bool.and_eq_true, Bool.or_eq_true, Bool.not_eq_true', beq_iff_eq, Option.isNone_iff_eq_none] at h
    obtain ⟨⟨⟨h1, h2⟩, h3⟩, h4⟩ := h
    refine ⟨_, ⟨y, hy, h1, h2, rfl, ?_⟩, h4⟩
    rcases h3 with h3 | ⟨⟨h3, h5⟩, h6⟩
    · exact .inl h3
    · exact .inr ⟨h3, h5, h6⟩

/-- A well-formed instruction that issues in the state, with its fields and its site as the property says. -/
def meets (i : Instr) (s : State) (p : Enc → Site → Bool := fun _ _ => true) : Bool :=
  match Instr.word? i with
  | some (_, w) => WellFormed i && issuesAt i w s (p w)
  | none => false

theorem meets_issues (i : Instr) (s : State) (p : Enc → Site → Bool) (h : meets i s p = true) :
    ∃ op w x, Instr.word? i = some (op, w) ∧ WellFormed i = true ∧ Issues i w s x ∧ p w x = true := by
  unfold meets at h
  split at h
  · rename_i op w hw
    simp only [Bool.and_eq_true] at h
    obtain ⟨x, hx, hp⟩ := issuesAt_issues i w s (p w) h.2
    exact ⟨op, w, x, hw, h.1, hx, hp⟩
  · cases h

/-- Each of these holds: the hypotheses of the clauses of a statement, one entry each. -/
def all (l : List Bool) : Bool := l.all id
/-- The site of the probing warp with these lanes active. -/
def site (s : State) (m : Mask := ~~~0) : Site := { (siteOf s).getD ⟨⟨0, 0, 0⟩, {}, {}, {}, {}, {}, 0⟩ with act := m }
def anyAct (x : Site) : Bool := x.act != 0
def noAct (x : Site) : Bool := x.act == 0
def lanes (x : Site) (p : Nat → Bool) : Bool := (lanesOf x.act).all p

/-- A register written in six lanes. -/
def laneF (f : Nat → Nat) (r : Nat) : KV W32 := [0, 1, 2, 3, 62, 63].map fun l => (64 * r + l, BitVec.ofNat 32 (f l))
/-! ### Decoding -/

/-- The fields with BND set. -/
def ended (e : Enc) : Enc := { e with bnd := true }
/-- Whether a word decodes to the instruction. -/
def reads (v : W128) (i : Instr) : Bool := decide ((decodeWord v).toOption = some i)
/-- The cause of R76 and, for cause 4, the operand, in a warp of width 64 with 384 registers. -/
def refuses (v : W128) : Option (Nat × Nat) := (illegalWord 64 384 v).map fun c => (c.cause, c.operand)

/-- Words that the spec writes out: chapter 3 (FFMA with guards, a modifier and the side file), chapter 5, the radix tree program and
chapter 6. -/
theorem test_decode_words_alu : all [
    reads 0x0001_0000_000A_3014_0010_0028_0943_4543
      (.ffma { enc 5 .f32 (mainR 10) (mainR 4) (raw 0x3014) (raw 0x000A) z with guard := ⟨3, false, 5, true, false⟩, bnd := true }),
    reads 0x0000_0000_000C_0008_0004_0050_07DF_E12E (.blv (enc 1 .b32 (mainR 20) (mainR 1) (mainR 2) (mainR 3) z)),
    reads 0x0000_0000_0000_0002_00A4_00B4_27DF_E12F (.bdlv (enc 1 .b32 (mainR 45) (mainR 41) z z z (some 2))),
    reads 0x0000_0000_0055_0098_00BC_00A4_07DF_E031 (.prmt (enc 0 .b32 (mainR 41) (mainR 47) (mainR 38) (scal 21) z)),
    reads 0x0000_0038_3A00_3A00_0010_0030_27DF_5454 (.fdot2 (enc 4 .f16x2 (mainR 12) (mainR 4) z z (mainR 14) (some 0x3A003A00))),
    reads 0x0001_0000_0000_0000_0606_0088_07C3_0883
      (.wscan { enc 8 .n32 (mainR 34) (raw 0x0606) z z z with guard := ⟨3, false, 31, false, false⟩, bnd := true })] = true := by
  decide

/-- Operand words of R59: B of the first word is `-|v5|`, C is entry 2 of the o-file; 0x0602 is an inline constant. -/
theorem test_operand_fields : all [
    decide (raw 0x3014 = ⟨.main, 5, false, 3, 0⟩), decide (raw 0x000A = ⟨.side, 2, false, 0, 0⟩), decide (raw 0x0602 = ⟨.side, 0x180, false, 0, 0⟩),
    decide (raw 0x0051 = scal 20), decide (raw 0x0007 = prd 1), decide (raw 0x00A0 = mainR 40)] = true := by
  decide

/-- Words that the spec writes out, of control flow, memory, commands and the special families. -/
theorem test_decode_words_system : all [
    reads 0x0001_0000_0000_0030_0000_0000_27C1_0001 (.bra (ended (enc 0 .n32 z z z z z (some 0x30) (onP 1)))),
    reads 0x0001_0029_0000_0005_001C_0000_27DF_0003 (.brx (ended (enc 0 .n32 z (mainR 7) z z (scal 10) (some 5)))),
    reads 0x0001_0000_0000_0000_0024_0000_07DF_0005 (.calli (ended (enc 0 .n32 z (mainR 9) z z z))),
    reads 0x0001_0000_0000_0014_0021_0010_07DF_EB90 (.ld (ended (enc 11 .b32 (mainR 4) (scal 8) (mainR 5) z z))),
    reads 0x0001_0071_0061_0055_0051_0000_07DF_04B3 (.cpy (ended (enc 4 .n32 z (scal 20) (scal 21) (scal 24) (scal 28)))),
    reads 0x0001_0000_0061_0055_0051_0000_07DF_00B7 (.putn (ended (enc 0 .n32 z (scal 20) (scal 21) (scal 24) z))),
    reads 0x0000_0000_0051_0041_0602_0000_07DF_00C0 (.mma (enc 0 .n32 z (raw 0x0602) (scal 16) (scal 20) z)),
    reads 0x0001_0000_0041_002D_0029_0014_07DF_02C0 (.mma (ended (enc 2 .n32 (mainR 5) (scal 10) (scal 11) (scal 16) z))),
    reads 0x0001_0000_00A1_0041_0602_0000_07DF_02C2 (.mmag (ended (enc 2 .n32 z (raw 0x0602) (scal 16) (scal 40) z)))] = true := by
  decide

theorem test_decode_words_units : all [
    reads 0x0001_0000_0000_0031_0050_00A0_07DF_01D0 (.trace (ended (enc 1 .n32 (mainR 40) (mainR 20) (scal 12) z z))),
    reads 0x0001_0007_0000_004D_0051_0000_27DF_00D5 (.tlpost (ended (enc 0 .n32 z (scal 20) z z (prd 1) (some 77)))),
    reads 0x0001_0007_0000_0009_0000_0000_27DF_00D4 (.tlshut (ended (enc 0 .n32 z z z z (prd 1) (some 9)))),
    reads 0x0001_0000_0000_0039_00C8_00F0_07DF_01D3 (.filtGrid (ended (enc 1 .n32 (mainR 60) (mainR 50) (scal 14) z z))),
    reads 0x0001_0001_0000_0000_000C_0011_07DF_10E5 (.gred (ended (enc 0 .s32 (scal 4) (mainR 3) z z (raw 1)))),
    reads 0x0001_0040_0000_0000_0000_0000_07DF_00E3 (.baraw (ended (enc 0 .n32 z z z z (raw 0x40)))),
    reads 0x0001_0000_0000_0020_0021_0079_27DF_00F7 (.rinv (ended (enc 0 .n32 (scal 30) (scal 8) z z z (some 32)))),
    reads 0x0001_0000_0000_0000_0000_0000_07DF_00FC (.commit (ended (enc 0 .n32 z z z z z)))] = true := by
  decide
/-- The cases that the opcode map works out (R95): the lowest cause of R76. -/
theorem test_illegal_cases : all [
    refuses 0x07DF_4797 == some (2, 0), refuses 0x07DF_4395 == some (3, 0), refuses 0x07DF_4549 == some (3, 0),
    refuses 0x2000_0000_0000_0000_0000_0000_07DF_007A == some (1, 0), refuses 0x07DF_02D0 == some (2, 0)] = true := by
  decide

/-- One refusal for each cause of R76 from 2 to 7, and for a literal beside fields it replaces (R58). -/
theorem test_wellFormed_refuses : all [
    !WellFormed (.vote (enc 9 .b1 (prd 1) (prd 2) z z z)),
    !WellFormed (.iadd (enc 0 .f32 (mainR 4) (mainR 5) (mainR 6) z z)),
    !WellFormed (.iadd (enc 0 .r13 (mainR 4) (mainR 5) (mainR 6) z z)),
    !WellFormed (.iadd (enc 0 .n32 (prd 1) (mainR 5) (mainR 6) z z)),
    !WellFormed (.iadd (enc 0 .n32 (mainR 4) (prd 1) (mainR 6) z z)),
    !WellFormed (.iadd (enc 0 .n32 (mainR 384) (mainR 5) (mainR 6) z z)),
    !WellFormed (.iadd (enc 0 .n64 (mainR 383) (mainR 4) (mainR 6) z z)),
    !WellFormed (.nop (enc 0 .n32 z z z z z (some 1))),
    !WellFormed (.iadd (enc 0 .n32 (scal 4) (mainR 5) (scal 6) z z)),
    !WellFormed (.iadd (enc 0 .n32 (mainR 4) (mainR 5) (mainR 6) z z (some 1)))] = true := by
  decide

/-- Beside each of them a form that is admitted; the last register and the last scalar are. -/
theorem test_wellFormed_admits : all [
    WellFormed (.vote (enc 0 .b1 (prd 1) (prd 2) z z z)), WellFormed (.iadd (enc 0 .n32 (mainR 383) (mainR 5) (mainR 6) z z)),
    WellFormed (.iadd (enc 0 .n64 (mainR 382) (mainR 4) (mainR 6) z z)), WellFormed (.iadd (enc 0 .n32 (scal 63) (scal 5) (scal 6) z z)),
    WellFormed (.iadd (enc 0 .n32 (mainR 4) (mainR 5) z z z (some 1)))] = true := by
  decide

/-- Causes 4 and 5 on words: the operand number, and a register at the warp's count. -/
theorem test_illegal_operands : all [
    (illegalWord 64 384 (Enc.toWord 0x10 (enc 0 .n32 (prd 1) (mainR 5) (mainR 6) z z))).map (fun c => (c.cause, c.operand)) == some (4, 0),
    (illegalWord 64 384 (Enc.toWord 0x10 (enc 0 .n32 (mainR 4) (prd 1) (prd 2) z z))).map (fun c => (c.cause, c.operand)) == some (4, 1),
    (illegalWord 64 8 (Enc.toWord 0x10 (enc 0 .n32 (mainR 8) (mainR 5) (mainR 6) z z))).map (fun c => c.cause) == some 5,
    (illegalWord 64 8 (Enc.toWord 0x10 (enc 0 .n32 (mainR 7) (mainR 5) (mainR 6) z z))).isNone] = true := by
  decide

/-- The bytes of a word, first to last, as chapter 5 lists them; fewer than 16 are none. -/
theorem test_decodeBytes : all [
    decide (decodeBytes (leBytes 16 0x0000_0000_000C_0008_0004_0050_07DF_E12E ++ [1, 2]) =
      .ok (.blv (enc 1 .b32 (mainR 20) (mainR 1) (mainR 2) (mainR 3) z), [1, 2])),
    decide (leBytes 16 0x0000_0000_000C_0008_0004_0050_07DF_E12E =
      [0x2E, 0xE1, 0xDF, 0x07, 0x50, 0x00, 0x04, 0x00, 0x08, 0x00, 0x0C, 0x00, 0x00, 0x00, 0x00, 0x00]),
    decide (decodeBytes (List.replicate 15 0) = .error .truncated)] = true := by
  decide
/-! ### Single steps, with results worked out in the spec -/

/-- The warp of the probe after one step of the machine on a word, its registers set first. -/
def afterWord (v : Nat) (f : Regs → Regs := id) (g : State → State := id) : Option Warp :=
  match step (g (withRegs f (State.reset.withFetchWord 128 v))) with
  | .next t => getWarp t 0 0
  | _ => none
/-- A register of a lane after it. -/
def regAfter (v r l : Nat) (f : Regs → Regs) : Option W32 := (afterWord v f).map fun b => b.regs.main r l

/-- Chapter 5, the Morton code of 5, 3 and 6: BLV.x3 gives 0x173, from which BDLV.x3 with k = 2 gives 6 back. -/
theorem test_morton :
    regAfter 0x0000_0000_000C_0008_0004_0050_07DF_E12E 20 3 (fun r => { r with v := laneV (fun _ => 5) 1 ++ laneV (fun _ => 3) 2 ++ laneV (fun _ => 6) 3 }) = some 0x173 ∧
    regAfter 0x0000_0000_0000_0002_00A4_00B4_27DF_E12F 45 63 (fun r => { r with v := laneV (fun _ => 0x173) 41 }) = some 6 := by
  decide +kernel

/-- Chapter 8: `?p1 BRA neg` with p1 in lanes 1, 5 and 9 leaves two paths, at offset 0x30 from the branch and at the next word. -/
theorem test_bra_splits :
    (afterWord 0x0001_0000_0000_0030_0000_0000_27C1_0001 (fun r => { r with p := [(1, 0x222)] })).map (fun b =>
      (b.paths.map fun e => (e.2.pc, e.2.mask, e.2.st), b.run.isNone)) =
    some ([(0x10010, ~~~0x222, .ready), (0x10030, 0x222, .ready)], true) := by
  decide +kernel

/-- R75: a word that decodes runs and the path goes on at the next word; the file count of its run rises. -/
theorem test_step_advances :
    (afterWord 0x07DF_0000).map (fun b => (b.paths.map fun e => e.2.pc, b.run.map fun r => r.files.count)) = some ([0x10010], some 1) := by
  decide +kernel

/-- R95, R442: `OP` 0xD0 with `SUB` 2 raises ILLEGAL with cause 2, of which the record holds code, cause, offset and mask. -/
theorem test_illegal_traps :
    (afterWord 0x07DF_02D0).map (fun b => (b.record.take 6, b.run.isNone)) = some ([1, 0, 2, 0, 0xFFFFFFFF, 0xFFFFFFFF], true) := by
  decide +kernel

/-- R200, R204: `LD.acq.dev.b32 v4, [s8:s9 + v5]` with v5 odd in lanes 3 and 7 traps over those lanes: code 8, width 4. -/
theorem test_misaligned_load :
    (afterWord 0x0001_0000_0000_0014_0021_0010_07DF_EB90 (fun r => { r with
      s := [(8, 0x20000)], v := laneV (fun l => if l = 3 ∨ l = 7 then 4 * l + 1 else 4 * l) 5 })).map (fun b => b.record.take 7) =
    some [8, 0, 4, 0, 0x88, 0, 0x2000D] := by
  decide +kernel

/-- R442, R444, R445: with a trap entry the same trap is delivered: every live lane stands at the entry, in handler mode. -/
theorem test_trap_delivered :
    (afterWord 0x07DF_02D0 id fun s => withKernel (fun k => { k with trape := 0x80 }) s).map (fun b =>
      (b.paths.map fun e => (e.2.pc, e.2.mask), b.tcode, b.handler.isSome)) = some ([(0x10080, ~~~0)], 1, true) := by
  decide +kernel

/-- Chapter 5: the most negative value divided by -1 wraps, with remainder 0; a quotient by zero is all ones, with the dividend left. -/
theorem test_division :
    let f (r : Regs) : Regs := { r with v := laneV (fun l => if l = 0 then 0x80000000 else 7) 5 ++ laneV (fun l => if l = 0 then 0xFFFFFFFF else 0) 6 }
    let q (i : Instr) (l : Nat) : Option W32 := match exec i (withRegs f) with
      | .next t => (getWarp t 0 0).map fun b => b.regs.main 4 l
      | _ => none
    q (.idiv (enc 0 .s32 (mainR 4) (mainR 5) (mainR 6) z z)) 0 = some 0x80000000 ∧
    q (.idiv (enc 1 .s32 (mainR 4) (mainR 5) (mainR 6) z z)) 0 = some 0 ∧
    q (.idiv (enc 0 .s32 (mainR 4) (mainR 5) (mainR 6) z z)) 1 = some 0xFFFFFFFF ∧
    q (.idiv (enc 1 .n32 (mainR 4) (mainR 5) (mainR 6) z z)) 1 = some 7 := by
  decide +kernel

/-- Chapter 2, one BX8 block: 3.0, -0.75, 0.1 and 0.01 give bytes 0x30, 0x4C, 0xB3 and 0x85 under tag 0x1581. -/
theorem test_bx8_block :
    let q := quantise false (([0x40400000, 0xBF400000, 0x3DCCCCCD, 0x3C23D70A] ++ List.replicate 60 0).map (decodeF fmt32))
    (q.1.take 5, q.2) = ([0x30, 0x4C, 0xB3, 0x85, 0], 0x1581) := by
  decide +kernel

/-- Chapter 2, one rounding per block: 1.0 and 32 products of 2^-25 give 0x3F80_0008 on the array; one FFMA gives 1.0 back. -/
theorem test_matrix_block :
    mxElem false 0x3F800000 (List.replicate 32 (decodeF fmt16 0x0C00)) (List.replicate 32 (decodeF fmt16 0x0800)) = 0x3F800008 ∧
    (ffmaE (Profile.ofByte 0) fmt32 .rne 0x39800000 0x39000000 0x3F800000).1 = 0x3F800000 := by
  decide +kernel

/-- Chapter 6, three updates and a merge. -/
theorem test_moments :
    let p := Profile.ofByte 0
    (welfV p 0 0 0 0x40000000).1 = (1, 0x40000000, 0) ∧
    (welfV p 1 0x40000000 0 0x40800000).1 = (2, 0x40400000, 0x40000000) ∧
    (welfV p 2 0x40400000 0x40000000 0x41100000) = ((3, 0x40A00000, 0x41D00000), FFlags.none) ∧
    (wmrgV p 3 0x40A00000 0x41D00000 2 0x41000000 0x40000000).1 = (5, 0x40C66666, 0x421B3333) ∧
    (wmrgV p 3 0x40A00000 0x41D00000 2 0x41000000 0x40000000).2.nx = true := by
  decide +kernel
/-! ### The hypotheses of the statements are met -/

/-- Whether a word decodes to a well-formed instruction that issues on the probe with every lane active. -/
def wordIssues (v : W128) : Bool :=
  match decodeWord v with
  | .ok i => meets i probe fun _ x => x.act == ~~~0
  | .error _ => false

/-- A word of each instruction, in the order of the opcode map (1 of 4): it decodes, is well-formed and issues. -/
theorem witness_words_1 : ([
    0x7df0000, 0x100000000027df0001, 0x180000000007df0002, 0x2100180010000007df0003, 0x100000000027df0004, 0x10000007df0005,
    0x7df0006, 0x4707df0007, 0x47000007df0008, 0x47000007df0009, 0x7df000a, 0x7df000b, 0x10000000180010000007df000c, 0x7df000d,
    0x190000000007df000e, 0x7df010e, 0x7df000f, 0x190000000007df010f, 0x7df020f, 0x180010004007df0010, 0x180010004007df0011,
    0x17001300180010004007df0012, 0x17001300180010004007df0013, 0x180010004007df0014, 0x180010004007df0015, 0x2000180010004007df0016,
    0x2000180010004007df0017, 0x180010004007df0018, 0x180010004007df0019, 0x10004007df101a, 0x2000180010004007df001b,
    0x180010000707df001c, 0x1300180010004007df201d, 0x180010004007df201e, 0x180010004007df201f, 0x180010004007df2020,
    0x180010004007df2021, 0x50002000180010004007dfe022, 0x180010004007df2023, 0x180010004007df2024] : List W128).all wordIssues = true := by
  decide +kernel

/-- A word of each instruction, in the order of the opcode map (2 of 4): it decodes, is well-formed and issues. -/
theorem witness_words_2 : ([
    0x180010004007df1025, 0x180010004007dfe026, 0x2000180010004007dfe027, 0x180010004007df0028, 0x2000180010004007dfe029,
    0x10004007df202a, 0x10004007df202b, 0x10004007df202c, 0x10004007df202d, 0x180010004007dfe02e, 0x180010004007dfe02f,
    0x180010004007df2030, 0x2000180010004007dfe031, 0x10004007df0032, 0x100000004027df0033, 0x10004007df0034, 0x180010004007df0035,
    0x180010004007df4040, 0x180010004007df4041, 0x180010004007df4042, 0x2000180010004007df4043, 0x180010004007df4044,
    0x180010004007df4045, 0x180010000707df4046, 0x10004007df4047, 0x10004007df4048, 0x10004007df4049, 0x10004007df004a,
    0x10004007df004b, 0x180010004007df404c, 0x10004007df404d, 0x10004007df404e, 0x10004007df404f, 0x10004007df4050, 0x10004007df4051,
    0x10004007df4052, 0x10004007df4053, 0x2000180010004007df5054, 0x180010004007df4055, 0x17000000000000000007df0056] : List W128).all wordIssues = true := by
  decide +kernel

/-- A word of each instruction, in the order of the opcode map (3 of 4): it decodes, is well-formed and issues. -/
theorem witness_words_3 : ([
    0x180010004007df4057, 0x180010004007df4058, 0xb000707dff080, 0x180010004007df2081, 0x10004107df0082, 0x10004007df0083,
    0x10004007df2084, 0x707df0085, 0xf000b000707dff086, 0xb004107df0087, 0x11000707df0187, 0x29000000000010004007df4088,
    0x180010004007df0090, 0x2000180010000007df0091, 0x180010004007df0092, 0x2000180010000007df0093, 0x180010004007df0094,
    0x2000180010004007df0095, 0x2000180010004007df0096, 0x2000180010000007df0097, 0x180010000007df0098, 0x180010000007df0298,
    0x7df0099, 0x180010000007df009a, 0x180010000007df009b, 0x17000000190000000007df009c, 0x17000000190000004107df00b0,
    0x11000007df00b1, 0x17000000190011004107df00b2, 0x29002100190011000007df00b3, 0x29002100190011000007df00b4,
    0x29002100190011000007df00b5, 0x2100190011000007df00b6, 0x2100190011000007df00b7, 0x2100190011000007df00b8,
    0x2100190011000007df00b9, 0x190000000007df00ba, 0x4107df00bb, 0x2100190011004007df00c0, 0x2100190011004007df00c1] : List W128).all wordIssues = true := by
  decide +kernel

/-- A word of each instruction, in the order of the opcode map (4 of 4): it decodes, is well-formed and issues. -/
theorem witness_words_4 : ([
    0x2100190011004007df00c2, 0x190000004007df00c3, 0x190011004007df00c4, 0x190011004007df00c5, 0x2000180010004007df40c6,
    0x2000180010004007df40c7, 0x17000000000000000007df00c8, 0x7df00c9, 0x190000004107df00ca, 0x190010004007df00d0, 0x4007df00d1,
    0x17000000000000004007df00d2, 0x7df01d2, 0x7df02d2, 0x7df03d2, 0x190010004007df00d3, 0x190010004007df01d3,
    0x17000000190000000007df00d4, 0x17000000190011000007df00d5, 0x2100190000004107df00d6, 0x17000000190011000707df00e0,
    0x17000000000000000007df00e1, 0x17000000000000000007df00e2, 0x17000000000000000007df00e3, 0x190000004107df00e4, 0x10004107df00e5,
    0x190000004107df00e6, 0x190000004107df00f0, 0x2100190000000007df00f1, 0x190000004107df00f2, 0x190000000007df00f3,
    0x190000000007df00f4, 0x11004107df00f5, 0x11004107df00f6, 0x190011004107df00f7, 0x190011004107df00f8, 0x2100190011004107df00f9,
    0x2100190011004107df00fa, 0x190011004107df00fb, 0x7df00fc] : List W128).all wordIssues = true := by
  decide +kernel


/-- Numbers in v4, v5, v6 and v8 of every lane, p1 in lanes 0 to 7, j1 (number 17) in the lanes of m. -/
def nums (m : Mask := 0xFF) (s : State := probe) : State := withRegs (fun r => { r with
  v := laneF (fun l => 16 * (l % 3)) 4 ++ laneF (fun l => l) 5 ++ laneF (fun _ => 0xFFFFFFFF) 6 ++ laneF (fun l => 0x100 + l) 8
  p := [(1, 0xFF), (17, m)] }) s
/-- Two paths of 32 lanes; and a path of lanes 0 to 15 among sixteen, the path table full. -/
def two (s : State := probe) : State := withWarp (fun wp => { wp with
  paths := [(0, { pc := 0x10000, mask := 0xFFFFFFFF, st := .running }), (1, { pc := 0x10100, mask := ~~~0xFFFFFFFF, st := .ready })] }) s
def full16 (s : State := probe) : State := withWarp (fun wp => { wp with
  paths := (0, { pc := 0x10000, mask := 0xFFFF, st := .running }) ::
    (List.range 15).map fun k => (k + 1, { pc := 0x10100, mask := laneBit (16 + k), st := .ready }) }) s
def ins (f : Enc → Instr) (sub : Nat := 0) (g : Guard := allLanes) (lit : Option W32 := none) : Instr := f (enc sub .n32 z z z z z lit g)

/-- Forms of the integer and floating-point statements: pairs, the side file, a scalar, a saturated literal form, no lane active. -/
theorem witness_IntegerElementResults : all [
    meets (.iadd (enc 0 .n64 (mainR 382) (mainR 380) (mainR 4) z z)) probe, meets (.isub (enc 0 .n32 (raw 0x000A) (mainR 5) (mainR 6) z z)) nums,
    meets (.imul (enc 0 .s32 (scal 63) (scal 0) (scal 5) z z)) probe, meets (.iabs (enc 0 .s8x4 (mainR 0) (mainR 5) z z z)) probe,
    meets (.imad (enc 0 .s16x2 (mainR 0) (mainR 5) (mainR 6) (mainR 7) z)) probe,
    meets (.imin (enc 0 .n32 (mainR 0) (mainR 5) z z z (some 7) (onP 2))) probe fun _ x => noAct x,
    meets (.imax (enc 0 .n32 (mainR 4) (mainR 4) (mainR 4) z z none (onP 1))) nums fun _ x => x.act == 0xFF] = true := by
  decide +kernel

theorem witness_IntegerWideResults : all [
    meets (.imulh (enc 0 .s64 (mainR 4) (mainR 6) (mainR 8) z z)) probe, meets (.imadw (enc 0 .s32 (mainR 4) (mainR 6) (mainR 8) (mainR 10) z)) probe,
    meets (.isad (enc 0 .n8x4 (mainR 4) (mainR 6) (mainR 8) (mainR 10) z)) probe, meets (.lea (enc 4 .n64 (mainR 4) (mainR 6) (mainR 8) z z)) probe,
    meets (.cvti (enc 6 .s32 (mainR 4) (mainR 6) z z z)) probe, meets (.cvti (enc 0 .n64 (mainR 4) (mainR 6) z z z)) probe,
    meets (.iaddc (enc 0 .n32 (mainR 4) (mainR 5) (mainR 6) (prd 1) (prd 2))) nums, meets (.isubb (enc 0 .n64 (mainR 4) (mainR 6) (mainR 8) (prd 1) (prd 1))) nums,
    meets (.idiv (enc 0 .s64 (mainR 4) (mainR 6) (mainR 8) z z)) probe fun w _ => w.sub == 0,
    meets (.idiv (enc 1 .n32 (mainR 4) (mainR 6) (mainR 8) z z)) probe fun w _ => w.sub == 1,
    meets (.idiv (enc 2 .n32 (mainR 4) (mainR 5) (mainR 6) z (mainR 4))) probe fun w _ => w.sub == 2] = true := by
  decide +kernel

theorem witness_BitwiseResults : all [
    meets (.and (enc 0 .n64 (mainR 4) (mainR 6) (mainR 8) z z)) probe, meets (.lop3 (enc 0 .b32 (mainR 4) (mainR 5) (mainR 6) (mainR 8) (raw 0xFF))) probe,
    meets (.shl (enc 0 .n64 (mainR 4) (mainR 6) (mainR 8) z z)) probe, meets (.sar (enc 0 .s32 (mainR 4) (mainR 5) z z z (some 32))) probe,
    meets (.rotl (enc 0 .b32 (mainR 4) (mainR 5) z z z (some 33))) probe, meets (.fshf (enc 1 .b32 (mainR 4) (mainR 5) (mainR 6) (mainR 8) z)) probe,
    meets (.fshf (enc 0 .b32 (mainR 4) (mainR 5) (mainR 6) (mainR 8) z)) probe] = true := by
  decide +kernel

theorem witness_BitFieldResults : all [
    meets (.bfx (enc 0 .s32 (mainR 4) (mainR 5) z z z (some 0x2000))) probe, meets (.bfx (enc 0 .n32 (mainR 4) (mainR 5) z z z (some 0x001F))) probe,
    meets (.bfi (enc 0 .b32 (mainR 4) (mainR 5) (mainR 6) (mainR 8) z)) probe, meets (.popc (enc 0 .n64 (mainR 4) (mainR 6) z z z)) probe,
    meets (.blv (enc 0 .b32 (mainR 4) (mainR 5) (mainR 6) z z)) probe fun w _ => w.sub != 1,
    meets (.blv (enc 1 .b32 (mainR 4) (mainR 5) (mainR 6) (mainR 8) z)) probe fun w _ => w.sub == 1] = true := by
  decide +kernel

theorem witness_SelectAndPredicateResults : all [
    meets (.icmp (enc 5 .s64 (prd 15) (mainR 4) (mainR 6) z z)) probe, meets (.isel (enc 0 .n64 (mainR 4) (mainR 6) z z (prd 1) (some 3))) nums,
    meets (.mov (enc 0 .f16x2 (mainR 4) (mainR 5) z z z)) probe, meets (.mov (enc 0 .s32 (mainR 4) (mainR 5) z z z)) probe,
    meets (.movl (enc 0 .n64 (mainR 4) z z z z (some 0xFFFFFFFF))) probe fun w _ => w.lit == some 0xFFFFFFFF,
    meets (.plop (enc 3 .b1 (prd 2) (prd 1) (prd 31) z z)) nums, meets (.jsave (enc 0 .n32 (prd 17) z z z z)) (nums 0)] = true := by
  decide +kernel

theorem witness_LaneExchangeResults : all [
    meets (.vote (enc 2 .b1 (prd 1) (prd 1) z z z)) nums fun w _ => w.sub.toNat < 3,
    meets (.vote (enc 3 .b1 (scal 4) (prd 1) z z z)) nums fun w _ => w.sub == 3,
    meets (.vote (enc 4 .b1 (scal 4) (prd 1) z z z)) nums fun w _ => w.sub == 4,
    meets (.laneMatch (enc 0 .b32 (mainR 4) (mainR 8) z z z)) nums fun w _ => w.sub == 0,
    meets (.laneMatch (enc 1 .b32 (mainR 4) (mainR 8) z z (prd 2))) nums fun w _ => w.sub == 1,
    [0, 1, 2, 3].all fun k => meets (.shfl (enc k .b32 (mainR 10) (mainR 8) (mainR 5) z z)) nums] = true := by
  decide +kernel

theorem witness_WarpReductionResults : all [
    meets (.wred (enc 0 .s32 (scal 10) (mainR 8) z z z)) nums fun w x => anyAct x && w.sub == 0 && !Ty.isFp w.ty && w.ty != .b1,
    meets (.wred (enc 0 .f32 (scal 10) (mainR 8) z z z)) nums, meets (.wscan (enc 0 .n32 (mainR 10) (mainR 8) z z z)) nums fun w _ => w.d.file != .scalar,
    meets (.wscan (enc 8 .n32 (mainR 10) (mainR 8) z z z)) nums fun w _ => w.d.file != .scalar,
    meets (.bxq (enc 1 .f32 (mainR 10) (mainR 8) z z (scal 4))) probe] = true := by
  decide +kernel

/-- Distinct branch targets and, in lanes 0 to 3, table entries. -/
def tgts (s : State := probe) : State := withRegs (fun r => { r with v := laneV (fun l => 0x100 + 16 * (l % 3)) 4 ++ laneV (fun l => l % 4) 5
                                                                     s := [(4, 0x20000)], p := [(1, 0x0F0F0F0F0F0F0F0F)] }) s
def stk (s : State := probe) : State := withWarp (fun wp => { wp with
  stackTab := (List.range 64).map fun l => (l, { chip := [BitVec.ofNat 32 (16 * (l % 4)), 0x30] }) }) s
def stkFull (s : State := probe) : State := withWarp (fun wp => { wp with
  stackTab := (List.range 64).map fun l => (l, { chip := [0x10, 0x20, 0x30, 0x40], spilled := l % 2 }) }) s
def rows (n : Nat) (s : State) : State := withLaunch (fun l => { l with csva := 0x20000, csrows := n }) s

/-- BRAU: lanes that differ in the guard, none taken, a literal, a code offset. BRX: an index at the bound, and entries of the table. -/
theorem witness_BranchResults : all [
    meets (ins .nop) probe, meets (ins .bra 0 (onP 1) (some 0x40)) nums fun _ x => x.act == 0xFF, meets (ins .bra 0 (onP 1) (some 0x40)) full16,
    meets (.brau (enc 0 .n32 z z z z z (some 0x40) (onP 1))) tgts fun w x => (lanesOf x.act).any fun l =>
      (guardMask x.width x.wp w.guard).getLsbD l != (guardMask x.width x.wp w.guard).getLsbD (lowLane x.act),
    meets (.brau (enc 0 .n32 z z z z z (some 0x40) (notP 2))) (two tgts) fun w x => lanes x fun l => (guardMask x.width x.wp w.guard).getLsbD l,
    meets (.brau (enc 0 .n32 z z z z z (some 0x40) (onP 2))) tgts fun w x => lanes x fun l => !(guardMask x.width x.wp w.guard).getLsbD l,
    meets (.brau (enc 0 .n32 z z (mainR 4) z z)) tgts fun w x => (lanesOf x.act).any fun l => nB tgts x w l != nB tgts x w 0,
    meets (.brau (enc 0 .n32 z z (mainR 6) z z)) probe fun w x => w.lit == none && (lanes x fun l => nB probe x w l % 16 == 0 && nB probe x w l == nB probe x w 0),
    meets (.brx (enc 0 .n32 z (mainR 5) z z (scal 4) (some 3))) tgts fun w x => (lanesOf x.act).any fun l => nB tgts x w l == srcValue tgts x .n32 w.a l,
    meets (.brx (enc 0 .n32 z (mainR 5) z z (scal 4) (some 4))) tgts fun w x => (lanes x fun l => decide (srcValue tgts x .n32 w.a l < nB tgts x w l)) &&
      (match syncLoad tgts x 4 ((lanesOf x.act).map fun l =>
        (l, (rawValue tgts x .n64 true (if w.lit.isSome then w.e else w.c) 0 + 4 * srcValue tgts x .n32 w.a l) % 2 ^ 64)) with
        | .ok _ fs => fs.all fun e => e.2 % 16 == 0
        | _ => false)] = true := by
  decide +kernel

/-- CALL with room and with no lane; CALLI misaligned and aligned; RET on an empty stack and on an on-chip entry; a push on full stacks
with no row left for the odd lanes, and with rows. -/
theorem witness_CallResults : all [
    meets (ins .call 0 (onP 1) (some 0x40)) tgts fun _ x => lanes x fun l => decide ((kvD x.wp.stackTab l {}).chip.length < 4),
    meets (ins .call 0 (onP 2) (some 0x40)) probe fun _ x => noAct x,
    meets (ins .call 0 (onP 1) (some 0x40)) (full16 tgts) fun _ x => anyAct x,
    meets (.calli (enc 0 .n32 z (mainR 8) z z z)) nums fun w x => (lanesOf x.act).any fun l => srcValue nums x .n32 w.a l % 16 != 0,
    meets (.calli (enc 0 .n32 z (mainR 4) z z z)) tgts fun w x => lanes x fun l => srcValue tgts x .n32 w.a l % 16 == 0,
    meets (ins .ret) probe fun _ x => (lanesOf x.act).any fun l => (kvD x.wp.stackTab l {}).chip.isEmpty && (kvD x.wp.stackTab l {}).spilled == 0,
    meets (ins .ret) stk fun _ x => anyAct x && lanes x fun l => (match (kvD x.wp.stackTab l {}).chip with | v :: _ => v.toNat % 16 == 0 | [] => false),
    (let x := site (rows 1 stkFull); (lanesOf 0xFF).any fun l => decide (1 ≤ (kvD x.wp.stackTab l {}).spilled)),
    (let s := rows 2 stkFull
     let x := site s
     queueRoom x && (lanesOf 0xFF).all (fun l => decide ((kvD x.wp.stackTab l {}).spilled < 2)) &&
      (match checkLanes s x (.global permWrite 2) 4 ((lanesOf 0xFF).map fun l =>
        (l, stackVa (getLaunch s x.cr.launch) x.cr.num x.ref.warp l (kvD x.wp.stackTab l {}).spilled)) with | .ok _ _ => true | _ => false))] = true := by
  decide +kernel

/-- JOIN and JWAIT with no lane of the mask, every lane, some with a free entry, and some with the table full; the handler's return. -/
theorem witness_RejoinAndYieldResults : all [
    [Instr.join, Instr.jwait].all (fun f =>
      meets (f (enc 0 .n32 z (prd 17) z z z)) (nums 0) (fun _ x => (x.act &&& x.wp.regs.pmask 17) == 0) &&
      meets (f (enc 0 .n32 z (prd 17) z z z)) (nums (~~~0)) (fun _ x => (ownLanes x &&& ~~~(x.act &&& x.wp.regs.pmask 17)) == 0) &&
      meets (f (enc 0 .n32 z (prd 17) z z z)) (two (nums 0xF)) (fun _ x => (ownLanes x &&& ~~~(x.act &&& x.wp.regs.pmask 17)) != 0 && !(freeEntries x.wp.paths).isEmpty) &&
      meets (f (enc 0 .n32 z (prd 17) z z z)) (full16 (nums 0xF)) (fun _ x => (ownLanes x &&& ~~~(x.act &&& x.wp.regs.pmask 17)) != 0 && (freeEntries x.wp.paths).isEmpty)),
    meets (ins .yield) (withCrew fun c => { c with ydl := some 5 }) fun _ x => anyAct x, meets (ins .yield 0 (onP 2)) probe fun _ x => noAct x,
    meets (.npregEnter (enc 0 .n32 z z (scal 5) z z)) probe fun w x => uB probe x w == 0,
    (let s := sset [(5, 7)] (withCrew fun c => { c with npreg := some 9 })
     meets (.npregEnter (enc 0 .n32 z z (scal 5) z z)) s fun w x => anyAct x && uB s x w != 0 && x.cr.npreg == some 9),
    (let s := sset [(5, 100000)] (withCrew fun c => { c with npreg := some 0 })
     meets (.npregEnter (enc 0 .n32 z z (scal 5) z z)) s fun w x => anyAct x && uB s x w != 0 && x.cr.npreg == some s.now),
    meets (ins .npregLeave 1) probe, meets (ins .trapBrk) probe fun _ x => anyAct x, meets (ins .trapBrk 0 (onP 2)) probe fun _ x => noAct x,
    meets (.trapCall (enc 1 .n32 z z (scal 5) z z)) probe fun _ x => anyAct x, meets (.trapCall (enc 1 .n32 z z (scal 5) z z none (onP 2))) probe fun _ x => noAct x,
    meets (ins .trapTret 2) probe fun _ x => x.wp.handler.isNone,
    meets (ins .trapTret 2) (withWarp fun wp => { wp with handler := some {} }) fun _ x => x.wp.handler.isSome] = true := by
  decide +kernel

theorem witness_LeavingResults : all [
    meets (ins .exit 0 (onP 2)) probe fun _ x => noAct x,
    meets (ins .exit) nums fun _ x => anyAct x && !lanesInFlight (abandonRays nums x.cr.ctx x.wp x.act).2 x.act &&
      !(getLaunch (abandonRays nums x.cr.ctx x.wp x.act).1 x.cr.launch).vers,
    meets (.reform (enc 0 .n32 z (mainR 4) (mainR 8) z (raw 4) none (onP 2))) tgts fun _ x => noAct x,
    meets (.reform (enc 0 .n32 z (mainR 4) (mainR 8) z (raw 4))) tgts fun w x => let gone := abandonRays tgts x.cr.ctx x.wp x.act
      anyAct x && !lanesInFlight gone.2 x.act && !(getLaunch gone.1 x.cr.launch).vers &&
        lanes x fun l => srcValue gone.1 { x with wp := gone.2 } .n32 w.a l % 16 == 0 && (kvD x.wp.stackTab l {}).spilled == 0,
    (fileThreads 7 64 0 10 [(0, 0x10000, 4, 8, {})] []).2.isEmpty,
    !(fileThreads 7 64 0 10 [(0, 0x10000, 4, 8, {})] ((List.range 64).map fun k => (k, { launch := 1 }))).2.isEmpty] = true := by
  decide +kernel

/-- REFILL with no lane, with a map past the registers, and with 56 vacant lanes for more items and for the last four. -/
theorem witness_RefillResults :
    let gap (s : State) : State := withWarp (fun wp => { wp with
      live := 0xFF, paths := [(0, { pc := 0x10000, mask := 0xFF, st := .running })], stackTab := [(0, { chip := [1] }), (9, { chip := [2] })] }) s
    let src (a b : Nat) (s : State) : State := withLaunch (fun l => { l with
      items := b, nextItem := a, kernel := { l.kernel with rmap := [(0, 8), (1, 9), (2, 10), (3, 383)] } }) s
    all [meets (ins .refill 0 (onP 2)) probe fun _ x => noAct x,
      meets (ins .refill) (withKernel fun k => { k with rmap := [(0, 384)] }) fun _ x => x.k.rmap.any fun e => decide (x.wp.n ≤ e.2),
      [src 3 7 probe, src (2 ^ 32 - 1) (2 ^ 33) probe].all fun s => meets (ins .refill) (gap s) fun _ x => anyAct x && x.k.rmap.all (fun e => decide (e.2 < x.wp.n)) &&
        (getLaunch s x.cr.launch).itemQueue.isNone && decide ((getLaunch s x.cr.launch).nextItem < (getLaunch s x.cr.launch).items) &&
        decide ((lanesOf (~~~x.wp.live &&& maskBelow x.width)).length = 56)] = true := by
  decide +kernel

/-- Global addresses at a stride in v4:v5, an index in v6, data in v8 and v9; the same in scalars. -/
def glob (st : Nat) (s : State := probe) : State := withRegs (fun r => { r with
  v := laneV (fun l => 0x20000 + st * l) 4 ++ laneV (fun l => l * 3) 6 ++ laneF (fun l => 0x1234 * l) 8 ++ laneF (fun l => 7 * l) 9
  s := [(4, 0x20000), (6, 8)], p := [(1, 0xF0)] }) s
/-- Scratch addresses at a stride in v4. -/
def scr (st : Nat) (s : State := probe) : State := withRegs (fun r => { r with
  v := laneF (fun l => st * l) 4 ++ laneF (fun _ => 4) 6 ++ laneF (fun l => 0x1234 * l) 8, s := [(4, 64), (6, 8)] }) s
def queued (n : Nat) (s : State) : State := withWarp (fun wp => { wp with storeQ := List.replicate n {} }) s
/-- Whether the checks of an access pass or trap, over a form's lanes. -/
def checked (ok : Bool) (s : State) (x : Site) (sp : Space) (n : Nat) (as : List (Nat × Nat)) : Bool :=
  match checkLanes s x sp n as with
  | .ok _ _ => ok
  | .trap _ => !ok
  | .wait .. => false

/-- Whether the checks of an access pass and no lane of it reads poison. -/
def clean (s : State) (x : Site) (sp : Space) (sc n : Nat) (as : List (Nat × Nat)) : Bool :=
  match checkLanes s x sp n as with
  | .ok t locs => !poisonWaits t x sc n (loadLanes t x sp n locs) && (poisonTrap t x sp sc n (loadLanes t x sp n locs)).isNone
  | _ => false

/-- Each load where no lane is active, where its checks trap (a misaligned lane, a lane past the range) and where they pass. -/
theorem witness_LoadsGoInFlight : all [
    meets (.ld (enc 0 .n32 (mainR 16) (mainR 4) z z z (some 16))) (glob 4) fun w x => clean (glob 4) x (.global permRead 1) 1 4 (laneAddrs x (addrVA (glob 4) x w)),
    meets (.ld (enc 8 .n64 (mainR 16) (mainR 4) z z z (some 0xFFFFFFF8))) (glob 8) fun w x => w.sub.getLsbD 3 && clean (glob 8) x (.global permRead 1) 1 8 (laneAddrs x (addrVA (glob 8) x w)),
    meets (.ld (enc 0 .n32 (mainR 16) (mainR 4) (mainR 6) z z)) (glob 4) fun w x => w.lit.isNone && checked false (glob 4) x (.global permRead 1) 4 (laneAddrs x (addrVA (glob 4) x w)),
    meets (.ld (enc 0 .n32 (mainR 16) (mainR 4) z z z (some 0))) (glob 0x100000) fun w x => checked false (glob 0x100000) x (.global permRead 1) 4 (laneAddrs x (addrVA (glob 0x100000) x w)),
    meets (.ld (enc 0 .n32 (mainR 16) (mainR 4) z z z (some 0) (onP 2))) (glob 4) fun _ x => noAct x,
    meets (.ld (enc 0 .n32 (scal 16) (scal 4) z z z (some 0))) (glob 4) fun w x => clean (glob 4) x (.global permRead 1) 1 4 (laneAddrs x (addrVA (glob 4) x w)),
    meets (.lds (enc 0 .n32 (mainR 16) (mainR 4) (mainR 6) z z)) (scr 8) fun w x => clean (scr 8) x .scratch 1 4 (laneAddrs x (addr32 (scr 8) x w)),
    meets (.lds (enc 0 .n64 (mainR 16) (mainR 4) z z z (some 4))) (scr 8) fun w x => checked false (scr 8) x .scratch 8 (laneAddrs x (addr32 (scr 8) x w)),
    meets (.ldk (enc 0 .n32 (mainR 16) (mainR 4) z z z (some 0xC0))) (scr 1024) fun w x => checked true (scr 1024) x .code 4 (laneAddrs x (addr32 (scr 1024) x w)),
    meets (.ldk (enc 0 .n32 (mainR 16) (mainR 4) z z z (some 0x400))) (scr 1024) fun w x => checked false (scr 1024) x .code 4 (laneAddrs x (addr32 (scr 1024) x w)),
    (site probe).wp.storeQ.isEmpty, !(getLaunch probe 0).vers,
    (match checkLane probe (site probe) .fetch 16 0x10000 with | .ok l => l == .mem 0x10000 | _ => false),
    (match translate probe (some 0) 0 permRead 0xFFFFF with | .ok pa _ => pa == 0xFFFFF | _ => false),
    (match translate probe (some 0) 0 permRead 0x100000 with | .ok _ _ => false | _ => true)] = true := by
  decide +kernel

/-- Each store form passing, one trapping, one with the queue full and one with no lane; fifteen entries leave room. -/
theorem witness_StoresWaitInQueue :
    let st (g : Guard) : Instr := .st (enc 0 .n32 z (mainR 4) z z (mainR 8) (some 16) g)
    let sts : Instr := .sts (enc 0 .n32 z (mainR 4) (mainR 6) (mainR 8) z)
    let pz : Instr := .pfetchZero (enc 2 .n32 z (mainR 4) z z z (some 0))
    let cf : Instr := .cflush (enc 1 .n32 z (mainR 4) z z z (some 1))
    let ci : Instr := .cinv (enc 0 .n32 z (mainR 4) z z z (some 1))
    all [meets (st allLanes) (queued 15 (glob 4)) fun w x => decide (x.wp.storeQ.length = 15) && checked true (glob 4) x (.global permWrite 2) 4 (laneAddrs x (addrVA (glob 4) x w)) &&
        (match checkLanes (glob 4) x (.global permWrite 2) 4 (laneAddrs x (addrVA (glob 4) x w)) with
          | .ok t locs => (versionTrap t x (locs.map fun a => laneAccess a (storeValue (glob 4) x w a.1) 0)).isNone
          | _ => false),
      meets (st allLanes) (glob 2) fun w x => checked false (glob 2) x (.global permWrite 2) 4 (laneAddrs x (addrVA (glob 2) x w)),
      meets (st allLanes) (queued 16 (glob 4)) fun _ x => anyAct x && decide (16 ≤ x.wp.storeQ.length), meets (st (onP 2)) (glob 4) fun _ x => noAct x,
      meets sts (scr 8) fun w x => checked true (scr 8) x .scratch 4 (laneAddrs x (addr32 (scr 8) x w)),
      meets pz (glob 64) fun w x => checked true (glob 64) x (.global permWrite 2) 64 (laneAddrs x (addrVA (glob 64) x w)),
      meets pz (glob 32) fun w x => checked false (glob 32) x (.global permWrite 2) 64 (laneAddrs x (addrVA (glob 32) x w)),
      meets cf (glob 4) fun w x => checked true (glob 4) x (.global permRead 1) 1 (laneAddrs x (addrVA (glob 4) x w)),
      meets ci (glob 0x100000) fun w x => checked false (glob 0x100000) x (.global permRead 1) 1 (laneAddrs x (addrVA (glob 0x100000) x w))] = true := by
  decide +kernel

theorem witness_AtomicsWaitInQueue :
    let at1 : Instr := .atom (enc 7 .n32 (mainR 16) (mainR 4) (mainR 6) (mainR 8) (mainR 9))
    let at0 : Instr := .atom (enc 0 .n32 (mainR 16) (mainR 4) z z (mainR 8) (some 0))
    let rd : Instr := .red (enc 1 .s32 z (mainR 4) z z (mainR 8) (some 0))
    let ats (g : Guard) : Instr := .atoms (enc 0 .n32 (mainR 16) (mainR 4) z z (mainR 8) (some 0) g)
    let fine (s : State) (x : Site) (w : Enc) : Bool := match checkLanes s x (.global permAtomic 3) 4 (laneAddrs x (addrVA s x w)) with
      | .ok t locs => (poisonedLanes t x 3 4 (locs.map fun a => laneAccess a 0 0)).isEmpty
      | _ => false
    let traps (s : State) (x : Site) (w : Enc) : Bool := checked false s x (.global permAtomic 3) 4 (laneAddrs x (addrVA s x w))
    let own (s : State) : State := withLaunch (fun l => { l with vers := true }) s
    let sc (ok : Bool) (s : State) (x : Site) (w : Enc) : Bool := match checkLanes s x .scratch 4 (laneAddrs x (addr32 s x w)) with
      | .ok t locs =>
        let las := locs.map fun a => laneAccess a 0 0
        ok && !poisonWaits t x 3 4 las && (poisonTrap t x .scratch 3 4 las).isNone
      | .trap _ => !ok
      | _ => false
    all [meets at1 (glob 2) fun w x => w.sub == 7 && traps (glob 2) x w, meets at1 (glob 1) fun w x => w.sub == 7 && fine (glob 1) x w,
      meets at0 (queued 15 (glob 4)) fun w x => fine (queued 15 (glob 4)) x w && decide (x.wp.storeQ.length < 16),
      meets at0 (queued 16 (glob 4)) fun w x => fine (queued 16 (glob 4)) x w && decide (16 ≤ x.wp.storeQ.length),
      meets rd (glob 4) fun w x => fine (glob 4) x w, meets at0 (own (glob 4)) fun w x => traps (own (glob 4)) x w,
      (match translate (own probe) (some 0) 0 permAtomic 0x20000 with | .miss _ => false | _ => true) && (getLaunch (own probe) (site probe).cr.launch).vers,
      meets (ats allLanes) (scr 8) fun w x => sc true (scr 8) x w, meets (ats allLanes) (scr 2) fun w x => sc false (scr 2) x w,
      meets (ats allLanes) (queued 16 (scr 8)) fun _ x => decide (16 ≤ x.wp.storeQ.length), meets (ats (onP 2)) (scr 8) fun _ x => noAct x] = true := by
  decide +kernel

/-- A load in flight of lane 3 over eight bytes at a block's end, from memory or the crew's scratch; the sector of that block. -/
def loading (loc : Loc) (s : State := probe) : State := withWarp (fun wp => { wp with
  loads := [{ seq := 4, ty := .n64, width := 8, lanes := [{ lane := 3, va := 0, loc := loc, x := 0, y := 0 }], dst := .main 16 true, sc := 1 }] }) s
def sec : Sector := { data := (List.range 64).map fun k => BitVec.ofNat 8 (k + 1), valid := ~~~0, dirty := 0xFF }
def cached (s : State) : State := setCore s 0 { getCore s 0 with l1 := [(0x800, sec)] }

theorem witness_LoadReturns :
    let ready (s : State) : Bool := match getWarp s 0 0 with
      | some wp => (match wp.loads[0]? with
        | some e => loadReady false wp e && !e.code && !e.acq && e.lanes.all fun a => !a.done && !inPool s 0 a.va &&
          (match serveLane false a.lane (wp.storeQ.filter fun q => decide (q.seq < e.seq)) a.loc e.width with | .memory => true | _ => false)
        | none => false)
      | none => false
    all [warpAt probe 0 == some ⟨0, 0, 0⟩, !(getLaunch probe 0).vers, probe.cmds.isEmpty, ready (loading (.mem 0x20038)), ready (loading (.scratch 0 8)),
      !(l1Load probe 0 1 0x20038 8).2.2, !(l1Load (cached probe) 0 1 0x20038 8).2.2, (scratchPoison (kvD probe.crews 0 {}) 8 8).isNone,
      decide ((getCore (cached probe) 0).l1.Pairwise (fun a b => a.1 < b.1) ∧ Memory.wf (cached probe).mem), sectorAt (cached probe) 0 0x800 == some sec, decide (0x20038 % 64 + 8 ≤ 64),
      (List.range 8).all fun j => sec.valid.getLsbD (0x20038 % 64 + j), (sectorAt probe 0 0x800).isNone] = true := by
  decide +kernel

theorem witness_StoreLeavesQueue :
    let e1 : StoreEntry := { seq := 2, kind := .store 2 false, width := 4, lanes := [{ lane := 0, va := 0x20000, loc := .mem 0x20000, x := 0x11223344, y := 0 },
      { lane := 1, va := 0x20004, loc := .mem 0x20004, x := 5, y := 0 }] }
    let e2 : StoreEntry := { seq := 2, kind := .atomic 0 .n64 false, width := 8, lanes := [{ lane := 3, va := 0x20038, loc := .mem 0x20038, x := 7, y := 0 }], dst := .main 16 true }
    let s (e : StoreEntry) : State := withWarp (fun wp => { wp with storeQ := [e, {}], loads := [{ seq := 4 }] }) probe
    all [decide (Memory.wf (s e1).mem), [s e1, s e2].all fun t => queueWarpAt t 0 == some ⟨0, 0, 0⟩ &&
        (getWarp t 0 0).any (fun wp => !wp.retired && wp.storeQ.all (fun e => e.lanes.all (!·.done)) && wp.loads.all fun f => decide (2 ≤ f.seq)),
      !(getLaunch (s e1) 0).vers, (sectorAt (s e2) 0 (0x20038 / 64)).isNone, !isPoisonTag (homeTag (s e2) 0x20038)] = true := by
  decide +kernel

/-- CSPLIT past the scratch limit, at nine ways, giving ways back, keeping them and taking the last one. -/
theorem witness_CacheInstructions :
    let cs : Instr := .csplit (enc 0 .n32 z z (scal 6) z (prd 5))
    let ways (l : List Nat) (scr n : Nat) : State := withCrew (fun c => { c with ways := l, scr := scr }) (sset [(6, n)])
    let busy (s : State) : State := withWarp (fun wp => { wp with storeQ := [{ seq := 2, kind := .store 2 false, width := 4, lanes := [{ lane := 0, va := 100000, loc := .scratch 0 100000, x := 1, y := 0 }] }] }) s
    let q1 : SplitReq := { crew := 0, warp := 0, n := 1, pd := 5, mask := 3 }
    all [meets (.pfetch (enc 0 .n32 z (mainR 4) z z z (some 0))) (glob 64), meets (.pfetch (enc 1 .n32 z (mainR 4) z z z (some 0))) (glob 64) fun w _ => w.sub != 0,
      meets (ins .fence 4) probe fun w x => anyAct x && w.sub == 4 && !remotePending probe x, meets (ins .fence 2 (onP 2)) probe fun _ x => noAct x,
      meets (ins .fence 1) (queued 1 probe) fun _ x => !x.wp.storeQ.isEmpty,
      (getCore probe 0).splits.isEmpty, meets cs (ways [] 65536 9) fun w x => decide (8 < uB (ways [] 65536 9) x w),
      meets cs (busy (ways [0, 3] 65536 1)) fun w x => decide (uB (busy (ways [0, 3] 65536 1)) x w < x.cr.ways.length) && scratchBusy (busy (ways [0, 3] 65536 1)) 0 (x.cr.scr + 32768),
      meets cs (setCore (busy (ways [0, 3] 65536 1)) 0 { getCore probe 0 with splits := [q1] }) fun _ x => anyAct x,
      (serveSplit (setCore (busy (ways [0, 3] 65536 1)) 0 { getCore probe 0 with splits := [q1, q1] }) 0 q1).isNone,
      meets cs (ways [] 983040 3) fun w x => decide (1048576 < x.cr.scr + 32768 * uB (ways [] 983040 3) x w),
      meets cs (ways [0, 3] 65536 2) fun w x => decide (uB (ways [0, 3] 65536 2) x w ≤ x.cr.ways.length) && !scratchBusy (ways [0, 3] 65536 2) 0 (x.cr.scr + 65536),
      meets cs (ways [0, 3] 983040 0) fun w x => uB (ways [0, 3] 983040 0) x w == 0 && !scratchBusy (ways [0, 3] 983040 0) 0 x.cr.scr,
      meets cs (ways [] 65536 8) fun w x => decide (uB (ways [] 65536 8) x w = 8 ∧ (convertedWays (ways [] 65536 8) 0).length = 0)] = true := by
  decide +kernel

def okT : List Byte := tens 2 0x20000 [8, 4] [2, 64]

/-- SEAL at a misaligned offset, of a record, of an ill-formed one; handles of the slot's generation
(the last before it wraps), of another, and of a slot that is not sealed. -/
theorem witness_RecordResults :
    let i : Instr := .sealRec (enc 0 .n32 (scal 16) z (scal 6) z (prd 5))
    let u : Instr := .unsealRec (enc 0 .n32 z (scal 4) z z z)
    let h : Instr := .hqry (enc 0 .n32 (scal 16) (scal 4) (scal 6) z (prd 5))
    let g (k : Nat) : State := withCtx (fun c => { c with recs := [(3, { gen := 2 ^ 22 - 1, isSealed := true, data := okT }), (4, { gen := 2 })] }) (sset [(4, k), (6, 31)])
    let sealing (s : State) (code : Option Nat) : Bool := meets i s fun w x => anyAct x && w.d.file == .scalar && uB s x w % 128 == 0 &&
      (match ownScratch x (uB s x w) 128 with
        | .ok off => (scratchPoison x.cr off 128).isNone && x.wp.loads.isEmpty && x.wp.storeQ.isEmpty &&
          sealFault (scratchBytes x.cr off 128) ((List.range 1024).find? fun k => slotFree s x.cr.ctx k).isSome == code
        | _ => false)
    all [meets i (sset [(6, 127)]) fun w x => uB (sset [(6, 127)]) x w % 128 != 0, sealing (scrWith okT (sset [])) none,
      sealing (scrWith (record 7) (sset [])) (sealFault (record 7) true), (sealFault okT false).isSome, (sealFault (record 7) true).isSome,
      meets u (g 7) fun w x => (handleSlot (g 7) x.cr.ctx (sA x w)).isNone,
      meets u (g ((2 ^ 22 - 1) * 1024 + 3)) fun w x => (handleSlot (g ((2 ^ 22 - 1) * 1024 + 3)) x.cr.ctx (sA x w)).isSome,
      meets h (g ((2 ^ 22 - 1) * 1024 + 3)) fun w x => w.d.file == .scalar && (handleSlot (g ((2 ^ 22 - 1) * 1024 + 3)) x.cr.ctx (sA x w)).isSome,
      meets h (g 2052) fun w x => (handleSlot (g 2052) x.cr.ctx (sA x w)).isNone, (handleSlot (withCtx (fun c => { c with recs := [(1023, { isSealed := true })] }) probe) 0 2047).isSome] = true := by
  decide +kernel

def cmd (cls : Nat) (ph : CmdPhase) (f : Option CmdFault := none) (preds : List Nat := []) : Command :=
  { cls := cls, op := .tileMove false 0 0 0 0, phase := ph, fault := f, preds := preds, writes := [.bytes 0 0 64], reads := [.bytes 0 64 128], scope := 2 }
def eng3 (e : EngClass) (n : Nat) : State := withWarp (fun wp => { wp with eng := [(3, e)] }) (sset [(6, n)])

theorem witness_CommandLife :
    let wt (g : Guard) : Instr := .waitc (enc 3 .n32 z z (scal 6) z z none g)
    let st (c : Command) (o : KV Command := []) : State := { probe with cmds := kvSet o 7 c, fresh := 9 }
    let sp : State := withCrew (fun c => { c with scrPoison := [70] }) (st (cmd 1 .waiting))
    all [meets (wt allLanes) (eng3 { count := 3, acq := 2 } 3) fun w x => decide ((engClass x.wp w.sub.toNat).count ≤ uB (eng3 { count := 3, acq := 2 } 3) x w),
      meets (wt allLanes) (eng3 { count := 3 } 2) fun w x => decide (uB (eng3 { count := 3 } 2) x w < (engClass x.wp w.sub.toNat).count),
      meets (wt allLanes) (eng3 { faults := [{ code := 0x0A, va := 77 }] } 0) fun w x => !(engClass x.wp w.sub.toNat).faults.isEmpty,
      meets (wt (onP 1)) (eng3 {} 0) fun _ x => noAct x, meets (.cntrd (enc 3 .n32 (scal 16) z z z z)) (eng3 { count := 70, status := 0x2F } 0) fun w x => anyAct x && w.d.file == .scalar,
      (boardEntries { probe with cmds := [(1, cmd 0 .started)] } 0).any fun e => regionsMeet e.2.writes [.bytes 0 32 40],
      (kvGet (st (cmd 1 .waiting none [3])).cmds 7).any fun c => !c.preds.isEmpty, (readPoison (st (cmd 1 .waiting)) (cmd 1 .waiting).reads).isNone,
      (readPoison sp (cmd 1 .waiting).reads).isSome && !(cmd 1 .waiting).op.isRemote, (cmd 1 .started).phase != .accessed,
      (kvGet (st (cmd 1 .accessed) [(2, cmd 0 .waiting none [3, 7])]).cmds 2).any fun d => d.preds.contains 7,
      (match ({ kind := 0, rank := 2, et := 2, base := 0x20000, ext := [8, 4, 1, 1], str := [2, 64, 0, 0], c := [3, 0, 0, 0], b := [6, 4, 1, 1], lf := 0, pitch := 64, lo := 128 } : CopyJob).perform
          (Bus.of (st (cmd 0 .waiting)) (cmd 0 .waiting)) (st (cmd 0 .waiting)) with | .done .. => (cmd 0 .waiting).was.isEmpty | _ => false),
      !olderUnretired (st (cmd 1 .completed) [(9, cmd 0 .started)]) 7 (cmd 1 .completed), (getWarp (st (cmd 1 .completed)) 0 0).any fun w => !w.retired,
      olderUnretired (st (cmd 1 .completed) [(2, cmd 1 .started)]) 7 (cmd 1 .completed)] = true := by
  decide +kernel

/-- The handle in s4, the scratch offset in s6, the block of the shape from s12. -/
def cset (l : List (Nat × Nat)) : State := sset ([(4, h3), (6, 0), (12, 8 + 4 * 65536), (13, 1 + 65536), (14, 0), (15, 4096)] ++ l)

/-- Copies without a record, of another kind of record, of a shape not admitted, entering (with a barrier, and out of scratch), and
waiting for room; a row inside the tensor and one outside it. -/
theorem witness_CopyCommands :
    let i (f : Enc → Instr) (sub : Nat := 0) (g : Guard := allLanes) : Instr := f (enc sub .n32 z (scal 4) (scal 6) (scal 8) (scal 12) none g)
    let bar (s : State) : State := withCrew (fun c => { c with bars := [(3, {})] }) s
    let enters (kind : Nat) (s : State) (w : Enc) (x : Site) : Bool := match handleSlot s x.cr.ctx (sA x w) with
      | none => false
      | some (_, r) =>
        let q := copyJob x w kind (tensorOf r.data) (uB s x w)
        recField r.data 0 1 == 1 && !copyShapeBad q.1 q.2 && (match q.2.arv with | some k => (kvGet x.cr.bars k).isSome | none => true) &&
          (kind == 0 || (match ownScratch x q.1.x (4 * q.1.bk 1) with | .ok _ => true | _ => false)) &&
          (match ownScratch x q.1.lo q.1.imageBytes with | .ok _ => true | _ => false)
    let j : CopyJob := { kind := 0, rank := 2, et := 2, base := 0x20000, ext := [8, 4, 1, 1], str := [2, 64, 0, 0], c := [3, 0, 0, 0], b := [6, 4, 1, 1], lf := 0, pitch := 64, lo := 128 }
    all [meets (i .cpy) (cset []) fun w x => (handleSlot (cset []) x.cr.ctx (sA x w)).isNone,
      meets (i .gath) (rec0 (record 2) (cset [])) fun w x => (handleSlot (rec0 (record 2) (cset [])) x.cr.ctx (sA x w)).any fun e => recField e.2.data 0 1 != 1,
      meets (i .cpy) (rec0 okT (cset [(12, 0)])) fun w x => (handleSlot (rec0 okT (cset [(12, 0)])) x.cr.ctx (sA x w)).any fun e =>
        let q := copyJob x w 0 (tensorOf e.2.data) (uB (rec0 okT (cset [(12, 0)])) x w)
        copyShapeBad q.1 q.2,
      meets (i .cpy 5) (rec0 okT (cset [])) (enters 0 (rec0 okT (cset []))), meets (i .gath 2) (rec0 okT (cset [])) (enters 1 (rec0 okT (cset []))),
      meets (i .scat) (rec0 okT (cset [])) (enters 2 (rec0 okT (cset []))), meets (i .cpy) (bar (rec0 okT (cset [(14, 0x2000 + 3 * 128)]))) (enters 0 (bar (rec0 okT (cset [(14, 0x2000 + 3 * 128)])))),
      meets (i .cpy) (withWarp (fun wp => { wp with eng := [(0, { count := 63 })] }) (rec0 okT (cset []))) (enters 0 (rec0 okT (cset []))),
      meets (i .scat 0 (onP 1)) (cset []) fun _ x => noAct x, decide (0 < j.bk 0 ∧ j.et < 11 ∧ j.lf = 0 ∧ j.inside < j.bk 0), decide (Memory.wf (kvD probe.crews 0 {}).scratch)] = true := by
  decide +kernel

def busyT (n : Nat) (s : State) : State := { s with cmds := [(1, { core := 0, crew := 0, cls := 1, writes := [.tile 0 n], phase := .waiting, op := .matrix {} })] }
/-- A context whose matrix arrays are reserved. -/
def resv (s : State) : State := withCtx (fun c => { c with desc := leBytes 4 1 ++ leBytes 4 3 ++ List.replicate 120 0 }) s
/-- Rows and columns up to 63 in v4 and v6. -/
def rc (s : State := probe) : State := withRegs (fun r => { r with v := laneF (fun l => l) 4 ++ laneF (fun l => 63 - l) 6 ++ laneF (fun l => 0x3F800000 + l) 8 }) s

theorem witness_TileAndArrayResults :
    let az : Instr := .accz (enc 0 .n32 (mainR 1) z (scal 6) z z)
    let rd : Instr := .accrd (enc 0 .f32 (mainR 16) (mainR 2) (mainR 4) (mainR 6) z)
    let wr : Instr := .accwr (enc 0 .f32 (mainR 2) (mainR 4) (mainR 6) (mainR 8) z)
    let acq : Instr := .mxacq (enc 0 .n32 z z z z (prd 5))
    let rel : Instr := .mxrel (enc 0 .n32 z z z z z)
    all [meets az (sset [(6, 4)]) fun w x => decide (x.cr.acc < w.d.idx.toNat + uB (sset [(6, 4)]) x w), meets az probe fun w x => uB probe x w == 0,
      meets az (busyT 3 (sset [(6, 3)])) fun _ x => decide (1 + 3 ≤ x.cr.acc) && tilesBusy (busyT 3 (sset [(6, 3)])) 0 [1, 2, 3],
      meets az (sset [(6, 3)]) fun _ x => decide (1 + 3 = x.cr.acc) && !tilesBusy (sset [(6, 3)]) 0 [1, 2, 3],
      meets rd (withCrew (fun c => { c with acc := 2 }) rc) fun w x => decide (x.cr.acc ≤ w.a.idx.toNat),
      meets rd rc fun w x => decide (w.a.idx.toNat < x.cr.acc) && (lanes x fun l => decide (nB rc x w l < 64 ∧ nC rc x w l < 64)) && !tilesBusy rc 0 [2] && !x.cr.tilePoison.contains 2,
      meets wr rc fun w x => decide (w.d.idx.toNat < x.cr.acc) && (lanes x fun l => decide (srcValue rc x .n32 w.a l < 64 ∧ nB rc x w l < 64)) && !tilesBusy rc 0 [2],
      meets acq probe fun _ x => !mxReserved probe x.cr.ctx && mxRefuses probe x false == some 1, meets acq (resv probe) fun _ x => (mxRefuses (resv probe) x false).isNone,
      meets rel probe fun _ x => !mxReserved probe x.cr.ctx, meets rel (busyT 1 (resv probe)) fun _ x => mxReserved (resv probe) x.cr.ctx && decide (0 < mxInFlight (busyT 1 (resv probe)) 0),
      meets rel (resv probe) fun _ x => mxReserved (resv probe) x.cr.ctx && mxInFlight (resv probe) 0 == 0,
      meets (.mxstat (enc 0 .n32 (scal 16) z (scal 6) z z)) probe fun w x => anyAct x && w.d.file == .scalar] = true := by
  decide +kernel

def mset (l : List (Nat × Nat)) : State := sset ([(4, 0), (6, 4096), (8, 128), (9, 0), (10, 0), (11, 8192)] ++ l)
/-- Two crews of a group whose window pairs them. -/
def paired (s : State) : State :=
  let s := withLaunch (fun l => { l with groups := [(0, { members := [0, 1], flags := 7, bar := {} })], kernel := { l.kernel with guse := 7 } }) s
  { s with crews := kvSet s.crews 1 { (kvD s.crews 0 {}) with num := 1, core := 1, warps := [] } }

theorem witness_MatrixCommands :
    let mma (sub : Nat) : Instr := .mma (enc sub .n32 (mainR 1) (scal 4) (scal 6) (scal 8) z)
    let mmag : Instr := .mmag (enc 0 .n32 (mainR 1) (scal 4) (scal 6) (scal 8) z)
    let mmap : Instr := .mmap (enc 0 .n32 (mainR 1) (scal 4) (scal 6) (scal 8) z)
    let enters (kind : Nat) (s : State) (fo : Bool) (w : Enc) (x : Site) : Bool :=
      let q := mxJob s x w kind
      decide (q.1.tile < x.cr.acc) && (q.1.reason q.2.1).isNone && (match q.2.2 with | some k => (kvGet x.cr.bars k).isSome | none => true) &&
        (match ownScratch x q.1.a (q.1.imageBytes q.1.pa q.1.rows), ownScratch x q.1.b (q.1.imageBytes q.1.pb 64) with | .ok _, .ok _ => true | _, _ => false) &&
        (kind != 2 || (match ownScratch x q.1.x 128 with | .ok _ => true | _ => false)) &&
        (!fo || (match followerOf s x with | .crew _ c => decide (q.1.tile < c.acc) && decide (q.1.a + q.1.imageBytes q.1.pa q.1.rows ≤ scratchSize c) | _ => false))
    let eight : State := { mset [] with cmds := (List.range 8).map fun k => (k, { crew := 0, op := .matrix {}, cls := 1 }) }
    let accs (s : State) (fmt : Nat) (w : Enc) (x : Site) : Bool :=
      let ctl := scalarValue x.wp w.b.idx.toNat false
      let row := if fmt = 0 then 256 else if fmt ≤ 2 then 128 else 64
      anyAct x && decide (ctl = 0) && decide (w.d.idx.toNat + 1 < x.cr.acc) &&
        (match ownScratch x (rawValue s x .n32 false w.a 0) (if 3 ≤ fmt then 66 * row else 64 * row) with | .ok _ => true | _ => false)
    all [meets (mma 0) (mset []) (enters 0 (mset []) false), meets (mma 2) (mset []) (enters 0 (mset []) false), meets mmag (mset [(10, 4194304)]) (enters 2 (mset [(10, 4194304)]) false),
      meets mmap (paired (mset [])) (enters 1 (paired (mset [])) true), meets mmap (mset []) fun w x => followerOf (mset []) x == .none && enters 1 (mset []) false w x,
      (let alone : State := { paired (mset []) with crews := (mset []).crews }
       meets mmap alone fun w x => followerOf alone x == .waits && enters 1 alone false w x),
      meets (mma 0) (withCrew (fun c => { c with acc := 1 }) (mset [])) fun w x => decide (x.cr.acc ≤ w.d.idx.toNat),
      meets (mma 0) (mset [(8, 100)]) fun w x => let q := mxJob (mset [(8, 100)]) x w 0
        (q.1.reason q.2.1).isSome,
      meets (mma 0) eight fun w x => enters 0 eight false w x && decide (8 ≤ mxInFlight eight 0),
      meets (mma 0) (resv (mset [])) fun _ x => mxReserved (resv (mset [])) x.cr.ctx && !mxHeld x.cr false,
      meets (mma 0) (withCrew (fun c => { c with holdsArray := true }) (resv (mset []))) fun _ x => mxHeld x.cr false,
      meets (.accld (enc 0 .n32 (mainR 1) (scal 4) (scal 6) z z)) (mset [(6, 0)]) (accs (mset [(6, 0)]) 0),
      meets (.accst (enc 4 .n32 (mainR 1) (scal 4) (scal 6) z z)) (mset [(6, 0)]) (accs (mset [(6, 0)]) 4),
      (let j : MxJob := { fmt := 3, tile := 1, a := 0, b := 4096, k := mxKb 3, pa := 64, pb := 64, rows := 64 }
       let s := setCore { withCrew (fun c => { c with mxQueue := [3, 9] }) with cmds := [(3, { op := .matrix j, cls := 1, phase := .started })] } 0 { getCore probe 0 with serving := some 3 }
       (getCore s 0).serving == some 3 && (kvGet s.cmds 3).any (fun c => c.phase == .started && c.core == 0 && c.pair.isNone) && j.follower.isNone && j.kind == 0 && j.done == 0 && !j.skip && !j.bad && (kvGet s.cmds 3).any fun c => c.was.isEmpty)] = true := by
  decide +kernel

def bar (n : Nat) (b : Barrier) (s : State) : State := withCrew (fun c => { c with bars := kvSet c.bars n b }) s
def grp (g : Group) (s : State) : State := withLaunch (fun l => { l with groups := [(5, g)], kernel := { l.kernel with guse := 7 } }) s
/-- The paths of the probing warp waiting at barrier 3 of their crew. -/
def waitingAt (b : BarWait) (s : State) : State := withWarp (fun wp => { wp with
  paths := wp.paths.map fun e => (e.1, { e.2 with barWait := some b, barNum := 3 }) }) s

theorem witness_BarrierResults :
    let bi : Instr := .bari (enc 0 .n32 (prd 5) (scal 4) (scal 6) z (raw 3))
    let ba : Instr := .bara (enc 0 .n32 z z z z (raw 3))
    let bw : Instr := .barw (enc 0 .n32 z z z z (raw 3))
    let baw : Instr := .baraw (enc 0 .n32 z z z z (raw 3))
    let s (a b : Nat) : State := sset [(4, a), (6, b)]
    let half : State := bar 3 { mask := 1, arrived := [(0, 0xFF)] } (sset [])
    let full : State := (fun s : State => { s with crews := kvSet s.crews 1 { num := 1, core := 0, phase := .resident, bars := [(0, {})] } })
      ((List.range 64).foldl (fun s k => if k = 3 then s else bar k {} s) (s 1 0))
    let at_ (i : Instr) (s : State) (p : NamedBar → Site → Bool) : Bool := meets i s fun w x => anyAct x && (match namedBar s x w with
      | .ok nb => p nb x
      | .error _ => false)
    let cr : Crew := { warps := [(0, { live := 0xFF }), (1, { live := 0xF })] }
    let done : Barrier := { mask := 3, arrived := [(0, 0xFF), (1, 0xF)] }
    all [meets bi (bar 3 { mask := 1, arrived := [(0, 1)] } (s 1 0)) fun w x => (barField w).2 == 3 && barInUse (bar 3 { mask := 1, arrived := [(0, 1)] } (s 1 0)) x 3 { mask := 1, arrived := [(0, 1)] },
      meets bi (bar 3 {} (s 0 0)) fun _ x => (kvGet x.cr.bars 3).isSome && !barInUse (bar 3 {} (s 0 0)) x 3 {}, meets bi (bar 3 {} (s 3 70000)) fun _ x => !barInUse (bar 3 {} (s 3 70000)) x 3 {},
      meets bi (s 0 0) fun _ x => (kvGet x.cr.bars 3).isNone, meets bi (s 1 65535) fun _ x => (kvGet x.cr.bars 3).isNone && decide (slotsBound (s 1 65535) 0 < 64),
      meets bi full fun _ x => (kvGet x.cr.bars 3).isNone && decide (64 ≤ slotsBound full 0),
      meets bw (sset []) fun w x => anyAct x && (match namedBar (sset []) x w with | .error _ => true | .ok _ => false),
      at_ ba half fun nb x => kvD nb.bar.arrived nb.key 0 &&& x.act != 0, at_ ba (bar 3 { mask := 1 } (sset [])) fun nb x => kvD nb.bar.arrived nb.key 0 ||| queuedArrivals x.wp nb.group nb.num == 0,
      at_ baw (queued 15 (bar 3 { mask := 1 } (sset []))) fun nb x => kvD nb.bar.arrived nb.key 0 == 0 && decide (x.wp.storeQ.length < 16) && x.pa.barWait.isNone,
      at_ baw (queued 16 (bar 3 { mask := 1 } (sset []))) fun _ x => decide (16 ≤ x.wp.storeQ.length),
      at_ bw (bar 3 { mask := 1 } (sset [])) fun nb x => kvD nb.bar.arrived nb.key 0 ||| queuedArrivals x.wp nb.group nb.num == 0,
      at_ bw half fun nb x => queuedArrivals x.wp nb.group nb.num == 0 && kvD nb.bar.arrived nb.key 0 != 0,
      [BarWait.phase 0 false, .arriving 2 true, .released 1 false, .released 2 true].all fun b => [bw, ba, baw].all fun i =>
        meets i (waitingAt b half) fun _ x => anyAct x && x.pa.barWait == some b,
      (cr.warps.all fun e => !done.mask.getLsbD e.1 || (countBar cr 8 done).counted.contains e.1) && done.carr == done.cexp && done.late.isEmpty,
      (let c : Crew := { cr with bars := [(3, done)], warps := [(0, { live := 0xFF, paths := [(0, { mask := 0xFF, barWait := some (.phase 0 true), barNum := 3 })] }), (1, { live := 0xF })] }
       (c.warps.all fun e => !done.mask.getLsbD e.1 || (countBar c 8 done).counted.contains e.1) && (kvGet c.bars 3) == some done &&
        ((kvGet c.warps 0).bind fun w => kvGet w.paths 0).any fun p => p.barWait == some (.phase done.phase true) && !p.barGroup && p.barNum == 3),
      cr.warps.any fun e => !(countBar cr 8 { mask := 3, arrived := [(0, 0x7F)] }).counted.contains e.1] = true := by
  decide +kernel

theorem witness_GroupResults :
    let ask (k : Nat) : State := grp { members := [3, 0], flags := 7, phases := 9 } (sset [(6, k)])
    let g (ph : Option GredPhase) : State := grp { members := [0, 1], flags := 3, open_ := ph } (withRegs (fun r => { r with v := laneF (fun l => l + 1) 4 }) (sset []))
    let gred : Instr := .gred (enc 0 .n32 (scal 16) (mainR 4) z z (raw 0))
    let takes (s : State) (p : GredPhase → Nat → Bool) : Bool := meets gred s fun w x => !gredDestEmpty x w && (match groupWith s x 0 1 with
      | .ok (_, g) => p (g.open_.getD { sub := w.sub.toNat, ty := w.ty }) (64 * x.cr.num + x.ref.warp)
      | .error _ => false)
    let ends : State := grp { members := [0], flags := 3, phases := 0xFFFFFFFF, open_ := some { sub := 0, ty := .n32, contribs := [(0, [1, 2, 3])] } } (withWarp (fun wp => { wp with greds := [{ sd := 4, group := 5, mask := 7 }], regs := { wp.regs with sempty := [4] } }) (sset []))
    all [[0, 1, 2, 3, 4, 5].all fun k => meets (.grpq (enc 0 .n32 (scal 16) z (scal 6) z (raw 0))) (ask k) fun _ x => anyAct x && (groupInSlot (getLaunch (ask k) x.cr.launch) x.cr.num 0).isSome,
      meets (.grpq (enc 0 .n32 (scal 16) z (scal 6) z (raw 3))) (ask 0) fun _ x => (groupInSlot (getLaunch (ask 0) x.cr.launch) x.cr.num 3).isNone,
      meets gred (sset []) fun w x => !gredDestEmpty x w && (match groupWith (sset []) x 0 1 with | .error _ => true | .ok _ => false),
      takes (g (some { sub := 0, ty := .n32, contribs := [(0, [1])] })) fun ph k => (kvGet ph.contribs k).isSome,
      takes (g (some { sub := 1, ty := .n32 })) fun ph k => (kvGet ph.contribs k).isNone && ph.sub != 0,
      takes (g none) fun ph k => (kvGet ph.contribs k).isNone && ph.sub == 0 && ph.ty == .n32,
      membersAll ends 0 { members := [0], flags := 3, phases := 0xFFFFFFFF, open_ := some { sub := 0, ty := .n32, contribs := [(0, [1, 2, 3])] } }
          (fun n wp => (kvGet ([(0, [1, 2, 3])] : KV (List Nat)) n).isSome || wp.live == 0) && (getWarp ends 0 0).any fun wp => (wp.greds.find? fun w => w.group == 5 && w.result.isNone).isSome] = true := by
  decide +kernel

def rayRegs (s : State) : State := withRegs (fun r => { r with
  v := (List.range 9).foldl (fun v k => v ++ laneF (fun l => if l = 3 ∧ k ∈ [3, 4, 5] then 0 else 0x3F800000 + k * 0x100000 + l) (4 + k)) [] }) s
def raysOut : KV LaneRay := [(0, { id := some 1, cand := true, hit := 16 }), (1, { id := some 2, cand := true, hit := 16, offer := some [1, 2, 3, 4] }), (2, { id := some 3, hit := 16 }),
  (5, { id := some 9, cand := true, offer := some [7, 8, 9, 10] })]
def rays (s : State := sset []) : State := withWarp (fun wp => { wp with rays := raysOut, items := [(0, { traces := 1 }), (1, { traces := 1025 })] }) s

theorem witness_RayInstructions :
    let tr (g : Guard := allLanes) : Instr := .trace (enc 1 .n32 (mainR 16) (mainR 4) (scal 6) z z none g)
    let traced (s : State) (waits : Bool) : Bool := meets (tr (onP 5)) s fun w x =>
      let block (l : Nat) : List Nat := (List.range 9).map fun k => (x.wp.regs.main (w.a.idx.toNat + k) l).toNat
      let rs := ((lanesOf x.act).filter fun l => !degenerate (block l)).map fun l => (l, traceRecord (block l) (traceFlags w.sub.toNat) (uB s x w), (kvD x.wp.items l {}).traces % 1024)
      anyAct x && (x.wp.rays.all fun e => !x.act.getLsbD e.1) && degenerate (block 3) && !degenerate (block 0) &&
        commandWaits s x { cls := 3, scope := 1, lanes := x.act, op := .trace (uB s x w) w.d.idx.toNat rs } == waits
    let cd (k : Nat) : Instr := let e := enc k .n32 z z z z z; if k = 1 then .candAccept e else if k = 2 then .candReject e else .candTerm e
    let has (x : Site) : List Nat := (lanesOf x.act).filter fun l => ((kvGet x.wp.rays l).bind fun r => if r.offer.isSome then r.id else none).isSome
    all [meets (tr (onP 1)) (rayRegs (sset [(6, 2)])) fun _ x => noAct x, traced (rayRegs (sset [(6, 2)])) false,
      traced (withWarp (fun wp => { wp with eng := [(3, { count := 63 })] }) (rayRegs (sset [(6, 2)]))) true, meets (.hitq (enc 0 .n32 (mainR 16) z z z z)) rays,
      meets (.candGet (enc 0 .n32 (mainR 16) z z z (prd 6))) rays fun _ x => anyAct x && ((kvGet x.wp.rays 0).any fun r => r.cand && r.offer.isNone) && ((kvGet x.wp.rays 1).any fun r => r.offer.isSome),
      [1, 2, 3].all fun k => meets (cd k) (sset []) fun _ x => has x == [], [1, 2, 3].all fun k => meets (cd k) rays fun _ x => has x == [1, 5] && x.wp.storeQ.isEmpty && x.wp.loads.isEmpty,
      [1, 2, 3].all fun k => meets (cd k) (queued 1 rays) fun _ x => has x != [] && !x.wp.storeQ.isEmpty] = true := by
  decide +kernel

/-- A ray of the first context on stack 0, entering treelet 3. -/
def ray0 (id : Nat := 5) : Ray := { ctx := 0, id := id, tid := 3, org := [0, 0, 0], dir := [0x3F800000, 0, 0], tmax := 0x7F800000, tmax0 := 0x7F800000 }
def tent (st : Nat) (root : Bool) (home : Nat) (old : Bool := false) : TEntry :=
  { va := 0x70000, oldVa := 0, readers := 4, oldRd := if old then 2 else 0, ver := 9, size := 4, home := home, root := root, st := st, oldP := old }
def withEnt (e : TEntry) (s : State := dir0) : State := putEntry s (0x30000 + 96) e
def msgs (m : RayMsg) (s : State := dir0) : State := { s with rayMsgs := [(7, m)], rays := [((ray0).key, ray0)], fresh := 20, now := 77 }

theorem witness_RayMessages :
    let o (lane : Nat) : W32 := BitVec.ofNat 32 (2 ^ 16 * lane)
    let held : State := withWarp (fun wp => { wp with rays := [(3, { id := some 5, cand := true, hit := 16, get := [(20, 6)] }), (4, { id := some 6, cand := true, hit := 16, abandoned := true })] }) dir0
    let back (s : State) (same : Bool) : Bool := match damsonTouch s 0 0 (recordVa s 0 5) with
      | .ok t pa => (BitVec.ofNat 32 (homeNat t (pa + 60) 4) == o 3) == same
      | _ => false
    all [(rayMatch held (rayKey 0 5) (o 3)).isSome && decide (tagSlot (o 3) < 0xFFFC) && tagLane (o 3) == 3, (rayMatch held (rayKey 0 7) (o 3)).isNone,
      (rayMatch held (rayKey 0 5) (o 3)).any fun e => !e.2.2.abandoned, (rayMatch held (rayKey 0 6) (o 4)).any fun e => e.2.2.abandoned,
      (kvGet (msgs (.answer (ray0).key 1)).rays (ray0).key).isSome, ({ ray0 with flags := 128 } : Ray).any,
      !(ray0).any && RayHit.beats {} none, !RayHit.beats { t := 0x7F000000 } (some { t := 0 }), back (homePuts (msgs (.giveBack (ray0).key (o 3) [1, 2, 3, 4])) (0x40000 + 64 * 5 + 60) (leBytes 4 (o 3).toNat)) true,
      back (msgs (.giveBack (ray0).key (o 3) [1, 2, 3, 4])) false] = true := by
  decide +kernel

theorem witness_TreeletEvents :
    let e (t : TEntry) (p : TEntry → Bool) : Bool := match entryTouch (withEnt t (msgs (.go (ray0).key .enter))) 0 0 3 with
      | .ok u pa => p (tentryAt u pa) && (tentryAt u pa).st == t.st
      | _ => false
    let go (w : RayGo) (more : KV RayMsg := []) : State := { msgs (.go (ray0).key w) (withEnt (tent 1 false 0)) with rayMsgs := more ++ [(7, .go (ray0).key w)] }
    let bad : State := homePuts dir0 0 []
    let old (l : List Bool) (n : Nat) : State := { dir0 with now := n, tqueues := [(queueKey 0 0 3, { entries := l.map fun h => { ray := (ray0).key, held := h, since := 0 } })], rays := [((ray0).key, ray0)] }
    let q (l : List Bool) : State := { dir0 with tqueues := [(queueKey 0 0 3, { entries := l.map fun h => { ray := (ray0).key, held := h, since := 0 } })], rays := [((ray0).key, ray0)] }
    all [e (tent 3 false 0) fun t => t.st == 3, e (tent 1 false 2) fun t => !t.root && t.home != 0, e (tent 2 false 0) fun t => t.home == 0, e (tent 2 true 5) fun t => t.root, e (tent 1 false 0) fun t => t.home == 0,
      e (tent 1 true 5) fun t => t.root, (kvD (withEnt (tent 1 false 0)).tqueues (queueKey 0 0 3) {}).spilled.isEmpty && decide (sramCount (withEnt (tent 1 false 0)) 0 < 65536), (nextBatch (q [true]) 0).isNone,
      nextBatch (q [true, false]) 0 == some (queueKey 0 0 3),
      (q [true, false]).tqueues.all fun p => queueStack p.1 != 0 || ((TQueue.servable p.2).head?).all fun d => decide ((q [true, false]).now < d.since + 4096),
      nextBatch (old [true, false] 4096) 0 == some (queueKey 0 0 3) && (old [true, false] 4096).tqueues.any fun p => queueStack p.1 == 0 && ((TQueue.servable p.2).head?).any fun d => decide (d.since + 4096 ≤ 4096),
      !againBefore (go (.again none)) 7 ray0, againBefore (go (.again none) [(6, .go (ray0).key (.again none))]) 7 ray0, [RayGo.back, .finish (some 3), .leave, .again (some 2)].all fun w => kvGet (go w).rayMsgs 7 == some (.go (ray0).key w),
      (kvGet { go .leave with rays := [] }.rays (ray0).key).isNone, (match entryTouch (go .enter) 0 0 77 with | .fault _ _ => true | _ => false),
      (readSpill (withCtx (fun c => { c with desc := puts desc0 [(72, leBytes 8 (2 ^ 50))] }) (go .enter)) 0 0 2).2 == some (some 4),
      e (tent 2 false 0) fun t => t.st != 3, e (tent 0 false 0) fun t => t.st == 0, ray0.bind.isNone && ray0.cont.isEmpty && (match damsonTouch bad 0 0 (recordVa bad 0 5) with | .ok _ _ => true | _ => false)] = true := by
  decide +kernel

/-- A triangle in the plane x = 1 that the ray along x from the origin meets, from its front. -/
theorem witness_TriangleHit : all [
    (intersect ⟨0, 0, 0⟩ ⟨1, 0, 0⟩ (some 0) none ⟨1, -1, -1⟩ ⟨1, 0, 1⟩ ⟨1, 1, -1⟩).any (fun h => h.t == 0x3F800000 && h.front)] = true := by
  decide +kernel

theorem witness_TreeletInstructions :
    let sh : Instr := .tlshut (enc 0 .n32 z z (scal 6) z (prd 5))
    let post : Instr := .tlpost (enc 0 .n32 z (scal 8) (scal 6) z (prd 5))
    let qry : Instr := .tlqry (enc 0 .n32 (scal 16) z (scal 6) (scal 12) z)
    let st (l : List (Nat × Nat)) (e : TEntry) : State := sset ([(6, 3), (8, 0x70000), (9, 0), (10, 4)] ++ l) (withEnt e)
    let asked (q : TableReq) (l : List TableReq) (e : TEntry) : State := let s := st [] e
      setCore s 0 { getCore s 0 with tableOps := l ++ [q] }
    let q (k : Nat) (id : Nat := 3) (d : TDescriptor := { va := 0x70000, size := 4 }) : TableReq := { crew := 0, warp := 0, ctx := 0, id := id, kind := k, desc := d, k := 7 }
    let found (q : TableReq) (e : TEntry) (p : TEntry → Bool) : Bool := match lookEntry (asked q [] e) 0 q.ctx q.id with
      | .at_ t pa => p (tentryAt t pa)
      | _ => false
    let absent (q : TableReq) : Bool := match lookEntry (asked q [] (tent 1 false 0)) 0 q.ctx q.id with
      | .refused _ => true
      | _ => false
    all [[sh, post, qry].all fun i => meets i (st [(12, 7)] (tent 1 false 0)) fun _ x => anyAct x && x.wp.storeQ.isEmpty,
      meets post (queued 1 (st [] (tent 1 false 0))) fun _ x => anyAct x && !x.wp.storeQ.isEmpty,
      [(Instr.tlshut (enc 0 .n32 z z (scal 6) z (prd 5) none (onP 2))), .tlpost (enc 0 .n32 z (scal 8) (scal 6) z (prd 5) none (onP 2)),
        .tlqry (enc 0 .n32 (scal 16) z (scal 6) (scal 12) z none (onP 2))].all fun i => meets i (st [] (tent 1 false 0)) fun _ x => noAct x,
      (getCore (asked (q 0) [] (tent 1 false 0)) 0).tableOps[0]? == some (q 0),
      (getCore (asked (q 0) [{ q 0 with warp := 1 }] (tent 1 false 0)) 0).tableOps[1]? == some (q 0), [0, 1, 2].all fun k => absent (q k 16),
      found (q 0) (tent 1 false 0) fun e => e.st == 1, found (q 0) (tent 2 false 0) fun e => e.st != 1,
      found (q 1) (tent 1 false 0) fun e => e.st == 1, found (q 1) (tent 2 false 0 true) fun e => e.st != 1 && e.oldP,
      found (q 1 3 { va := 0x70001, bad := true }) (tent 2 false 0) fun e => e.st != 1 && !e.oldP, found (q 1) (tent 0 false 0) fun e => e.st != 1 && !e.oldP,
      found (q 2) (tent 1 false 0) fun _ => decide ((q 2).k < 8), (getWarp (asked { q 2 with k := 8 } [] (tent 1 false 0)) 0 0).isSome] = true := by
  decide +kernel

/-- The floating-point instructions of words that witness_words names issue there; those of a triple and the flags on more operands. -/
theorem witness_FloatResults :
    let one : State := withRegs (fun r => { r with v := laneF (fun l => 0x3F800000 + l) 4 ++ laneF (fun _ => 0x40000000) 5 ++ laneF (fun _ => 0x40400000) 6 ++ laneF (fun _ => 0x7FC00000) 8, fnv := 0xF, fnx := 0xFF }) probe
    all [([.fadd, .fsub, .fmul, .fdiv, .fmin, .fmax] : List (Enc → Instr)).all fun c => meets (c (enc 0 .f32 (mainR 16) (mainR 4) (mainR 5) z z)) one fun _ x => anyAct x,
      ([.fsqrt, .frcp, .frsq, .exp2, .log2, .sinpi, .cospi, .fclass, .frnd] : List (Enc → Instr)).all fun c => meets (c (enc 0 .f32 (mainR 16) (mainR 4) z z z)) one fun _ x => anyAct x,
      meets (.ffma (enc 0 .f32 (mainR 16) (mainR 4) (mainR 5) (mainR 6) z)) one, meets (.fscale (enc 0 .f32 (mainR 16) (mainR 4) (mainR 8) z z)) one,
      meets (.fcmp (enc 10 .f32 (prd 2) (mainR 4) (mainR 5) z z)) one fun w _ => w.sub.getLsbD 3, meets (.flgclr (enc 0 .n32 z z z z (raw 17))) one fun w _ => (Operand.bits w.e).toNat.testBit 4,
      meets (.welf (enc 0 .f32 (mainR 16) (mainR 4) (mainR 8) z z)) one fun w _ => decide (w.d.idx.toNat + 2 < 512),
      meets (.wmrg (enc 0 .f32 (mainR 381) (mainR 4) (mainR 4) z z)) one fun w _ => decide (w.d.idx.toNat + 2 < 512)] = true := by
  decide +kernel

def plain32 : Profile := ⟨false, .rne, false, false⟩

theorem witness_FloatRounding : all [
    plain32.flush == false, finValue fmt32 0x3F800000 == some 1, finValue fmt32 0x40400000 == some 3, finValue fmt32 1 != none, finValue fmt16 0x3C00 == some 1,
    finValue fmtB16 0x3F80 == some 1, decide ((1 : Rat) + 3 ≠ 0 ∧ (1 : Rat) / 3 ≠ 0 ∧ (0 : Rat) < 3), decide (0x7F7FFFFF < 2 ^ fmt32.bits)] = true := by
  decide +kernel

theorem witness_FloatSpecialValues : all [
    [fmt32, fmt16, fmtB16].all fun f => decide (f.signBit + f.infBits < 2 ^ f.bits) && (decodeF f f.canonNaN).isNaN && !(decodeF f 0).isNaN && isSignalling f (f.infBits + 1) && !isSignalling f f.canonNaN,
    finValue fmt32 0 == some 0, finValue fmt32 0x80000000 == some 0, finValue fmt32 0xBF800000 == some (-1), plain32.flush == false] = true := by
  decide +kernel

def sized (n g : Nat) (f : Warp → Warp := id) : State := withWarp (fun wp => f { wp with n := n }) (sset [(6, g)])
def full24 : KV Warp := ((List.range 3).map fun k => (k, { ((getWarp probe 0 0).getD {}) with n := 384, wslot := k, run := none, grow := some { n := 392, order := 3 + k } }))

theorem witness_RegisterCountResults :
    let gr : Instr := .grow (enc 0 .n32 z z (scal 6) z z)
    let sh : Instr := .shrink (enc 0 .n32 z z (scal 6) z z)
    let g (i : Instr) (n to_ : Nat) (p : Nat → Site → Bool) : Bool := meets i (sized n to_) fun w x => anyAct x && x.wp.grow.isNone && p (uB (sized n to_) x w) x
    let tight : State := withCrew (fun c => { c with warps := c.warps ++ [(1, { n := 384, wslot := 1, live := 1 }), (2, { n := 384, wslot := 2, live := 1 })] }) (sized 8 384)
    let old : State := sized 8 64 fun wp => { wp with grow := some { n := 64, order := 3 } }
    let stall : State := { setCore (withCrew (fun c => { c with warps := (0, { ((getWarp probe 0 0).getD {}) with n := 8, run := none, grow := some { n := 384, order := 2 } }) :: full24.drop 1 }) probe) 0 { getCore probe 0 with regStallSince := some 10 } with now := 266 }
    let vac (r : Nat) (s : State) : State := withRegs (fun q => { q with vempty := [64 * r] }) s
    all [g gr 8 12 fun n _ => n % 8 != 0, g gr 8 0 fun n _ => n == 0, g gr 8 392 fun n _ => decide (384 < n), g gr 8 4096 fun n x => decide (384 < n) && decide (65536 < n * x.width), g gr 64 56 fun n x => decide (n < x.wp.n),
      g gr 64 64 fun n x => n == x.wp.n, g gr 8 384 fun n x => decide (x.wp.n < n) && (growRequests (sized 8 384) x.ref.core x.wp.part).isEmpty && decide ((n - x.wp.n) * x.width ≤ freeRegs (sized 8 384) x.ref.core x.wp.part),
      meets gr tight fun w x => decide (x.wp.n < uB tight x w) && decide (freeRegs tight x.ref.core x.wp.part < (uB tight x w - x.wp.n) * x.width),
      meets gr old fun _ x => anyAct x && x.wp.grow == some { n := 64, order := 3 },
      meets gr (sized 8 64 fun wp => { wp with grow := some { n := 64, failed := true } }) fun _ x => x.wp.grow == some { n := 64, failed := true },
      g sh 64 9 fun n _ => n % 8 != 0, g sh 64 72 fun n x => decide (x.wp.n < n), meets sh (vac 40 (sized 64 40)) fun w x => decide (uB (vac 40 (sized 64 40)) x w ≤ 40) && x.wp.regs.vempty == [64 * 40],
      meets sh (vac 39 (sized 64 40)) fun w x => x.wp.regs.vempty.all fun k => decide (k / 64 < uB (vac 39 (sized 64 40)) x w),
      growRequests old 0 0 == [(0, 0, 56 * 64, 3)] && decide (56 * 64 ≤ freeRegs old 0 0),
      (growRequests stall 0 0).any fun e => decide (freeRegs stall 0 0 < e.2.2.1),
      regStalled stall 0 && (oldestGrow stall 0).any (fun e => e.1 == 0 && e.2.1 == 0 && decide (freeRegs stall 0 0 < e.2.2.2)) && (crewsOn stall 0).all fun e => e.1 == 0] = true := by
  decide +kernel

def versioned (s : State := probe) : State := withLaunch (fun l => { l with vers := true }) s

theorem witness_SystemRegisterResults :
    let rd : Instr := .sysrd (enc 0 .n32 (scal 16) z (scal 6) z z)
    let wr : Instr := .syswr (enc 0 .n32 z z (scal 6) (scal 8) z)
    let ck : Instr := .clk (enc 0 .n32 (scal 16) z (scal 6) z z)
    let co : Instr := .commit (enc 0 .n32 z z z z z)
    all [[0, 0x20, 0x200, 0x310, 0x501, 0x710].all fun k => meets rd (sset [(6, k)]) fun w x => anyAct x && w.d.file == .scalar && uB (sset [(6, k)]) x w == k, meets wr (sset [(6, 0x501), (8, 9)]) fun _ x => x.wp.storeQ.isEmpty,
      meets wr (queued 1 (sset [(6, 0x501)])) fun _ x => !x.wp.storeQ.isEmpty, meets ck (sset [(6, 0)]) fun w x => w.d.file == .scalar && uB (sset [(6, 0)]) x w == 0, meets ck (sset [(6, 1)]) fun w x => uB (sset [(6, 1)]) x w == 1,
      meets co probe fun _ x => !(getLaunch probe x.cr.launch).vers, meets co versioned fun _ x => anyAct x && !versionBusy versioned x && (versionWait versioned x).2 == false,
      meets co (queued 1 versioned) fun _ x => versionBusy (queued 1 versioned) x, meets (.sysrd (enc 0 .n32 (scal 16) z (scal 6) z z none (onP 2))) probe fun _ x => noAct x,
      (let s : State := setCore probe 0 { getCore probe 0 with sysReads := [{ num := 0x310, reg := 16 }] }
       (getCore s 0).sysReads[0]?.any fun q => (kvGet s.crews q.crew).isSome && (getWarp s q.crew q.warp).isSome)] = true := by
  decide +kernel

/-- A SYSRD leaves its scalar empty, and the core's read then fills it (R459). -/
theorem test_sysrdWaits :
    let s : State := setCore (withRegs (fun r => r.emptyScalar 16 1)) 0 { getCore probe 0 with sysReads := [{ num := 0x501, reg := 16 }] }
    let t : State := sysReadMove (writeSys s (site s) 0x501 1500) 0 0
    ((getWarp t 0 0).map fun wp => scalarValue wp 16 false) = some 1500 := by
  decide +kernel

def rq (code a b : Nat) : RangeReq := { id := 5, ctx := 0, code := code, a := a, b := b, asker := .warp 0 0 4 }
def asks (r : RangeReq) : State := { dir0 with rangeReqs := [r, { id := 6 }], fresh := 9 }

theorem witness_RangeInstructionResults :
    let rs : State := sset [(4, 0x20000), (5, 0), (6, 3), (8, 0x50), (9, 0)] dir0
    let e : Enc := enc 0 .n32 (scal 16) (scal 4) z z z
    let eb : Enc := enc 0 .n32 (scal 16) (scal 4) (scal 6) z z
    let ec : Enc := enc 0 .n32 (scal 16) (scal 4) (scal 6) (scal 8) z
    let is_ : List Instr := [.rsplit e, .rmerge e, .rinv eb, .rhint ec, .rmove ec, .rcmpt eb, .rprobe eb, .step (enc 0 .n32 (scal 16) z (scal 6) z z)]
    let over_ (r : RangeReq) (v : W32) : Bool := match rangeTry (asks r) r with
      | .done _ u => u == v
      | .wait => false
    let at_ (a : Nat) (p : Piece → Bool) : Bool := match look (asks (rq 1 a 0)) 0 a with
      | .found y => p y.piece
      | _ => false
    all [is_.all fun i => meets i rs fun _ x => anyAct x && x.wp.storeQ.isEmpty, is_.all fun i => meets i (queued 1 rs) fun _ x => anyAct x && !x.wp.storeQ.isEmpty, over_ (rq 1 0x20001 0) 1, over_ (rq 2 0 0) 2,
      over_ (rq 8 70000 0) (((getCtx dir0 0).step + 70000).setWidth 32), at_ 0x20000 fun p => boundOk p 0x20000 && p.base != 0x20000, (match walk (asks (rq 7 0x20000 15)) 0 0x20000 with | .found _ => true | _ => false),
      at_ 0x20000 fun _ => !(rq 5 0x20000 3).begun, (match rangeTry (asks (rq 1 0x20000 0)) (rq 1 0x20000 0) with | .done _ v => v == 0 | .wait => false),
      (match rangeTry (asks { rq 1 0x20000 0 with asker := .queue 2 77 true }) { rq 1 0x20000 0 with asker := .queue 2 77 true } with | .done _ v => v == 0 | .wait => false),
      !(rq 1 0 0).begun, (rq 7 0 0).code != 1 && (rq 7 0 0).code != 2 && (rq 7 0 0).code != 4] = true := by
  decide +kernel

/-- The probing warp off its slot. -/
def rdy (f : Warp → Warp := id) : State := { withWarp (fun wp => f { wp with run := none, paths := [(0, { pc := 0x10000, mask := ~~~0 })], readySince := some 5 }) with now := 100 }

theorem witness_RunStartResults :
    let st (t : Option Nat) : State := { withWarp (fun wp => { wp with run := some { slot := 0, path := 0, stalled := t } }) with now := 612 }
    let r (since yields prio : Nat) : Runner := { ref := ⟨0, 0, 0⟩, path := 0, since := since, yields := yields == 1, prio := prio, slot := 0 }
    all [(slotsInUse probe 0 0).contains 0, slotsInUse (rdy) 0 0 == [], (runners rdy 0 0).length == 1, (runners probe 0 0).isEmpty, (getWarp rdy 0 0).any fun w => w.paths.any fun e => e.1 == 0,
      warpAt (st none) 0 == some ⟨0, 0, 0⟩, (getWarp (st (some 100)) 0 0).any fun w => (w.run.bind (·.stalled)) == some 100, (getWarp (st (some 101)) 0 0).any fun w => (w.run.bind (·.stalled)) == some 101,
      decide ((r 5 0 2).since + 256 > 100 ∧ (r 5 0 2).yields = (r 9 0 1).yields ∧ (r 9 0 1).prio < (r 5 0 2).prio), ({ resumeAt := some 3 } : Warp).resumeAt == some 3,
      decide (100 < (r 5 0 2).since + 256 ∧ (r 5 0 2).since + 256 ≤ 300)] = true := by
  decide +kernel

def idleW (f : Warp → Warp := id) (s : State := probe) : State := withWarp (fun wp => f { wp with run := none, live := 0, paths := [] }) s
def bin0 : Bin := { launch := 0, pc := 0x10100, vb := 4, n := 2, threads := [{ regs := [5, 6], item := { idx := 9 }, fnx := true }, { regs := [7, 8], item := { idx := 10 }, fnv := true, chip := [3] }], firstAt := 10 }
def withBin (b : Bin) (s : State) : State := setCore s 0 { getCore s 0 with bins := [(2, b)] }
def queue0 (what : Started) : Queue := { st := .active, started := [(3, what)], head := 4, tail := 4, headva := 0x21000 }

theorem witness_BinAndRefillResults :
    let idle (s : State) (p : Crew → Warp → Bool) : Bool := warpAt s 0 == some ⟨0, 0, 0⟩ && (kvGet s.crews 0).any fun c => (getWarp s 0 0).any fun w => c.phase == .resident && !stopping s 0 c && w.idle && p c w
    let drawable : State := idleW (s := withBin { bin0 with drawableAt := some 5 } probe)
    let dry : State := idleW (s := withLaunch (fun l => { l with items := 3, nextItem := 3 }) probe)
    let past (s : State) : State := withKernel (fun k => { k with rmap := [(0, 384)] }) (withLaunch (fun l => { l with items := 5, nextItem := 1 }) s)
    let over_ : State := withCrew (fun c => { c with phase := .retired }) { withLaunch (fun l => { l with queue := 2, tag := 7, note := true }) dir0 with queues := [(2, queue0 (.launch 0))] }
    let source (s : State) : State := withLaunch (fun l => { l with itemQueue := some 1 }) s
    all [(kvGet (getCore (withBin bin0 { probe with now := 10 }) 0).bins 2).any fun b => b.drawableAt.isNone && decide (10 < b.firstAt + (getLaunch probe 0).kernel.binAge),
      (kvGet (getCore (withBin bin0 { probe with now := 5000 }) 0).bins 2).any fun b => b.drawableAt.isNone && decide (b.firstAt + (getLaunch probe 0).kernel.binAge ≤ 5000),
      (getWarp probe 0 0).any fun w => !w.vacant, idle drawable fun c w => w.vacant && (drawBin drawable c w).isSome && decide (bin0.threads.length ≤ 64),
      idle (withBin bin0 idleW) fun c w => w.vacant && (drawBin (withBin bin0 idleW) c w).isNone,
      idle idleW fun c w => (drawBin idleW c w).isNone && (getLaunch idleW 0).kernel.rmap.all fun e => decide (e.2 < w.n),
      idle (past idleW) fun c w => (drawBin (past idleW) c w).isNone && ((getLaunch (past idleW) 0).kernel.rmap.any fun e => decide (w.n ≤ e.2)) && (nextItem (past idleW) c.launch).2.isSome,
      idle dry fun c w => (drawBin dry c w).isNone && (getLaunch dry 0).itemQueue.isNone && decide ((getLaunch dry 0).items ≤ (getLaunch dry 0).nextItem) && mayRetire dry c w && w.eng.all (fun e => e.2.faults.isEmpty),
      idle drawable fun c w => w.vacant && !mayRetire drawable c w, (kvGet dir0.launches 0).any fun l => l.itemQueue.isNone && !launchOver dir0 0 l,
      (kvGet (source dir0).launches 0).any fun l => l.itemQueue.isSome && !launchOver (touchSource (source dir0) l) 0 l,
      (kvGet over_.launches 0).any fun l => launchOver over_ 0 l && ((getQueue over_ l.queue).started.find? (fun e => e.2 == .launch 0)).isSome] = true := by
  decide +kernel

/-- A crew that fills its core past its slice, and a crew of another context that waits for the core. -/
def sliced : State :=
  let s := setCore (withCrew (fun c => { c with warps := (List.range 16).map fun k => (k, { (((getWarp probe 0 0).getD {}) : Warp) with part := k % 8, wslot := k / 8, n := 384 }) }) dir0) 0 { getCore dir0 0 with sliceSince := [(0, 5)] }
  setCtx { s with now := 200, launches := kvSet s.launches 1 { getLaunch s 0 with ctx := 1, crews := 2, prio := 3 } } 1 { getCtx s 0 with st := .running }

theorem witness_CrewMoveResults :
    let yl (why : Option SaveWhy) (t : Nat) : State := withCrew (fun c => { c with ydl := some t, saveWhy := why }) { probe with now := 20 }
    let area : State := withCtx (fun c => { c with desc := puts desc0 [(80, leBytes 8 0x80000), (88, leBytes 8 0x70000)] }) dir0
    let saves : State := withCrew (fun c => { c with saveWhy := some .suspend, scratch := [(3, 4)], tiles := [(5, 6)] }) (withWarp (fun wp => { wp with run := none, grow := some {} }) area)
    let two : State := withLaunch (fun l => { l with crews := 2 }) dir0
    let busy : State := { two with launches := kvSet two.launches 1 { getLaunch two 0 with prio := 9 } }
    let saved : State := withCrew (fun c => { c with phase := .saved, imageAt := 0, imageSize := imageBytes saves c }) saves
    let image (s : State) (p : State → Nat → Bool) : Bool := (kvGet s.crews 0).any fun c => saveReady s 0 c && p s c.ctx && match imagePlace s c.ctx (imageBytes s c) with
      | some n => (match touchSpan s none c.ctx permWrite (nearestStack c.core) (imagePages (descField s c.ctx 88 8 + n) (imageBytes s c)) with
        | (.ok u _, _) => u.crews.all fun e => e.2.warps.all fun wp => wp.2.filing.isEmpty
        | _ => false)
      | none => false
    let ended : State := setCore sliced 0 { getCore sliced 0 with sliceSince := [], incoming := some (0, 1) }
    let others (s : State) : List Waiter := (waiters s).filter fun w => w.ctx != 0 && (roomFor (without s (withWindows s [0])) w 0).isSome
    all [[SaveWhy.slice, .residency].all fun v => ({ phase := .resident, saveWhy := some v } : Crew).phase == .resident,
      (kvGet (yl none 20).crews 0).any fun c => c.ydl == some 20 && c.saveWhy.isNone && !c.halted && c.phase == .resident, (kvGet (yl (some .recall) 20).crews 0).any fun c => c.saveWhy.isSome, decide ((yl none 21).now < 21),
      probe.crews.map (·.1) == [0] && (kvGet probe.crews 0).any (fun c => c.phase == .resident && c.core / 4 == 0), (kvGet (getCore dir0 0).sliceSince 0).isNone,
      (kvGet (getCore (setCore dir0 0 { getCore dir0 0 with sliceSince := [(0, 5)] }) 0).sliceSince 0).any fun t => decide (10 < t + descField dir0 0 28 4), (kvGet dir0.crews 0).any fun c => !saveReady dir0 0 c,
      image saves fun _ _ => true, (kvGet (withCtx (fun c => { c with desc := puts desc0 [(80, leBytes 8 64)] }) saves).crews 0).any fun c =>
        (imagePlace (withCtx (fun c => { c with desc := puts desc0 [(80, leBytes 8 64)] }) saves) c.ctx (imageBytes saves c)).isNone,
      ((waiters dir0).find? fun w => !w.saved && w.launch == 8).isNone,
      ((waiters two).find? fun w => !w.saved && w.launch == 0).any fun w => !w.window && mayGo two w && (roomFor two w 5).isSome,
      ((waiters busy).find? fun w => !w.saved && w.launch == 0).any fun w => !mayGo busy w,
      (kvGet (getCore sliced 0).sliceSince 0).any (fun t => decide (t + descField sliced 0 28 4 ≤ sliced.now)) && (pickMin Waiter.ahead (others sliced)).any fun w =>
        (sliceVictims ended w 0 [0] []).contains 0 && (youngest sliced 0).all fun e => e.1 == 0 && e.2.ctx == 0 && e.2.phase == .resident && e.2.ydl.isNone && e.2.saveWhy.isNone && !e.2.halted,
      ((waiters saved).find? (fun w => w.saved && w.members.any fun m => m.2 == 0)).any fun w => (List.range 12).any fun core => mayGo saved w && (roomFor saved w core).any fun ps =>
        ps.all fun e => (kvGet saved.crews e.1).any fun c => c.warps.all fun wp => wp.2.rays.isEmpty,
      (let shut : State := setCore saved 5 { getCore saved 5 with fence := .out }
       ((waiters shut).find? (fun w => w.saved && w.members.any fun m => m.2 == 0)).any fun w => (roomFor shut w 5).isNone)] = true := by
  decide +kernel

def ref2 : Piece := { probePiece with base := 0x80000, lim := 0x100000, attr := 1 }
def moving (kind : MoveKind) (frame : Option Nat) (now : Nat) : State :=
  { withDir [{ probePiece with lim := 0x80000 }, ref2] probe with now := now, moves := [(9, { ctx := 0, vbase := 0x80000, vlim := 0x100000, kind := kind, frame := frame, since := 50 })] }

theorem witness_MoveResults :
    let there (s : State) : Bool := !dirLocked s 0 && (match walk s 0 0x80000 with | .found _ => true | _ => false) && (kvGet s.moves 9).isSome
    let reading : State := withWarp (fun wp => { wp with storeQ := [{ width := 4, lanes := [{ lane := 0, loc := .mem 0x80010 }] }] }) (moving (.rmove 0x40000000) none 100)
    all [(kvGet (moving .place none 100).moves 4).isNone, there (moving .place none 100), there (moving (.rmove 0x40000000) none 100) && !accessIn (moving (.rmove 0x40000000) none 100) 0x80000 0x100000,
there reading && accessIn reading 0x80000 0x100000,
      there (moving (.evict 0) none 49), there (moving .recall (some 5) 2566) && decide (2566 < 50 + 2517), there (moving .recall (some 5) 2567), there (moving .place none 1048625) && decide (1048625 < 50 + 2 ^ 20),
      there (moving .place none 1048626) && decide (50 + 2 ^ 20 ≤ 1048626), (let s : State := { moving .place none 100 with rangeReqs := [{ id := 1, begun := true }] }; (kvGet s.moves 9).isSome),
      decide (Memory.wf ([(3, 1), (5, 2)] : List Host.Cell))] = true := by
  decide +kernel

def up0 (s : State := dir0) : State := setPort s 0 { getPort s 0 with st := .up, credits := [100, 100, 100, 100] }
def qdesc : List Byte := puts (List.replicate 32 0) [(0, leBytes 4 1), (8, leBytes 4 (1 + 8 * 6)), (16, leBytes 8 0x20000), (24, leBytes 8 0x21000)]
def qAt (x : Queue) (s : State) : State := { s with queues := [(3, x)] }

theorem witness_QueueOperationResults :
    let setup (b : List Byte) (f : State → State) (p : State → List Byte → Bool) : Bool := let s := f (homePuts up0 0x22000 b)
      (getCtx s 0).st != .free && (match agentRead s 0 0x22000 32 with | .ok t b => p t b | _ => false)
    let dead (s : State) : State := withCtx (fun c => { c with st := .dead }) s
    let twice (s : State) : Bool := match touch s none 0 permRead 0x22000 0 with
      | .ok t _ => (match touch t none 0 permWrite 0x22000 0 with | .ok _ _ => true | _ => false)
      | _ => false
    all [PortState.hears (getPort up0 0).st, (getCtx up0 5).st == .free, setup (putAt qdesc 0 (leBytes 4 7)) id fun _ b => !queueDescOk b, setup (putAt qdesc 4 (leBytes 4 9)) id fun _ b => queueDescOk b && recField b 4 4 != 0,
      setup qdesc dead fun t b => queueDescOk b && recField b 4 4 == 0 && !ctxLive t 0, setup qdesc (qAt { st := .idle }) fun t _ => ctxLive t 0 && (getQueue t 3).st != .disabled, setup qdesc id fun t _ => ctxLive t 0 && (getQueue t 3).st == .disabled,
      (getQueue (qAt { st := .idle } up0) 3).st != .disabled && ctxLive (qAt { st := .idle } up0) 0, !ctxLive (dead (qAt { st := .idle } up0)) 0, (getQueue (qAt { st := .faulted, faultHere := true } up0) 3).faultHere,
      iqInUse (withLaunch (fun l => { l with itemQueue := some 1 }) up0) 0 1, !iqInUse up0 0 255, decide (0x22004 % 64 ≠ 0), twice up0] = true := by
  decide +kernel

def qcmd (kind flags : Nat) (fs : List (Nat × List Byte)) : List Byte := puts (List.replicate 64 0) ([(0, [BitVec.ofNat 8 kind]), (1, [BitVec.ofNat 8 flags]), (4, leBytes 4 7)] ++ fs)
/-- A queue whose next command is this one. -/
def serves (c : List Byte) (s : State := dir0) : State :=
  { homePuts s (0x20000 + 64 * 3) c with queues := [(2, { st := .active, head := 3, tail := 6, headva := 0x21000, ringva := 0x20000, logn := 4 })] }
def argBlock : List Byte := puts (List.replicate 128 0)
  [(0, [1]), (12, [2]), (13, [1]), (18, leBytes 2 64), (20, leBytes 4 1024), (28, leBytes 4 0xFFFFFFFF), (36, leBytes 4 256), (40, leBytes 8 0x10000)]
def lcmd : List Byte := qcmd 1 0 [(8, leBytes 8 0x30000), (24, leBytes 8 1000), (32, leBytes 4 0xFFFFFFFF), (36, leBytes 4 3), (48, leBytes 8 0x31000)]

theorem witness_QueueCommandResults :
    let cmd (c : List Byte) (s : State) (p : State → Queue → Bool) : Bool := let s := serves c s
      let x := getQueue s 2
      startable s x && mayServe s 2 x && decide ((x.tail - x.head).toNat ≤ 2 ^ x.logn) && (match agentRead s x.ctx x.headVa 64 with
        | .ok t b => b == c && p t x
        | _ => false)
    let good (c : List Byte) (kind : Nat) (s : State) (p : State → Bool) : Bool := cmd c s fun t x => !cmdBad c && !x.ordBlocked c && cmdKind c == kind && p t
    let reads (t : State) (n : Nat) (p : State → List Byte → Bool) : Bool := match agentRead t 0 (recField lcmd 8 8 - 0x2E000) n with | .ok u b => p u b | _ => false
    let at2000 (k : Nat) (more : List (Nat × List Byte)) : List Byte := qcmd k 0 ([(8, leBytes 8 0x2000)] ++ more)
    let vrec : List Byte := puts (record 4) [(2, [1]), (4, leBytes 2 2), (6, leBytes 2 2), (20, leBytes 4 0x3F800000), (36, leBytes 4 0x3F800000), (52, leBytes 4 0x3F800000), (60, leBytes 4 0x7F7FFFFF), (72, leBytes 8 0x80000), (80, leBytes 4 2)]
    let nosys : State := withCtx (fun c => { c with desc := putAt desc0 4 (leBytes 4 0) }) dir0
    let wait (v : Nat) : State := { homePuts dir0 0x2000 [BitVec.ofNat 8 v] with
      queues := [(2, { st := .active, head := 4, tail := 6, headva := 0x21000, ringva := 0x20000, logn := 4, pending := some (at2000 3 [(16, leBytes 8 5)]), started := [(3, .wait)] })] }
    all [cmd (qcmd 9 0 []) dir0 fun _ _ => cmdBad (qcmd 9 0 []), cmd (at2000 3 []) dir0 fun _ _ => cmdKind (at2000 3 []) == 3,
      good (qcmd 3 0 [(8, leBytes 8 0x2004)]) 3 dir0 fun _ => true, good (at2000 3 []) 3 dir0 fun t => reads t 8 fun _ b => leNat b == 0, good (qcmd 4 0 [(8, leBytes 8 0x2001)]) 4 dir0 fun _ => true,
      good (at2000 4 [(16, leBytes 8 5), (24, [1])]) 4 (homePuts dir0 0x2000 [9]) fun t => (match touch t none 0 permAtomic 0x2000 0 with | .ok u pa => !isPoisonTag (homeTag u pa) | _ => false), good (qcmd 6 0 []) 6 dir0 fun _ => true,
      good (at2000 6 []) 6 dir0 fun t => (match touch t none 0 permWrite 0x2000 0 with | .ok _ _ => true | _ => false), good (at2000 5 [(32, [6])]) 5 nosys fun t => !ctxSys t 0, good (at2000 5 [(32, [6])]) 5 dir0 fun t => ctxSys t 0, good (at2000 5 [(32, [4])]) 5 nosys fun _ => true,
      good (qcmd 2 0 [(8, leBytes 8 0x2040)]) 2 dir0 fun _ => true, good (at2000 2 []) 2 dir0 fun t => reads t 128 fun u b => (viewStartFault u 0 b).isSome,
      good (at2000 2 []) 2 (withCtx (fun c => { c with iq := [(2, 0x90000)] }) (homePuts dir0 0x2000 vrec)) fun t => reads t 128 fun u b => (viewStartFault u 0 b).isNone,
      good lcmd 1 (homePuts dir0 0x30000 argBlock) fun t => (match readLaunch t 0 lcmd with | .ok u i => (launchFault u 0 lcmd i).isNone | _ => false),
      good lcmd 1 dir0 fun t => (match readLaunch t 0 lcmd with | .ok u i => (launchFault u 0 lcmd i).isSome | _ => false),
      [0, 5].all fun v => (match agentRead (wait v) 0 0x2000 8 with | .ok _ b => leNat b == v | _ => false) && (getQueue (wait v) 2).pending.isSome,
      (let c := qcmd 3 1 [(8, leBytes 8 0x2000)]
       let s : State := { serves c with queues := [(2, { st := .active, head := 3, tail := 6, headva := 0x21000, ringva := 0x20000, logn := 4, started := [(2, .range 4)] })] }
       (getQueue s 2).ordBlocked c || !mayServe s 2 (getQueue s 2))] = true := by
  decide +kernel

/-- A descriptor that CREATE accepts. -/
def desc1 : List Byte := puts desc0 [(4, leBytes 4 0), (28, leBytes 4 (2 ^ 14)), (32, leBytes 8 (2 ^ 28)), (48, leBytes 4 256)]

theorem witness_ContextOperationResults :
    let s : State := homePuts (homePuts (homePuts (withCtx (fun c => { c with desc := desc1 }) up0) 0x90000 desc1) 0x91000 (putAt desc1 80 (leBytes 8 (2 ^ 20)))) 0x92000 (putAt desc1 0 [2])
    let d (pa : Nat) (p : List Byte → Bool) : Bool := (readDesc s pa).any p
    let over_ (l : KV Crew) : State := { withCtx (fun c => { c with st := .dead }) up0 with queues := [], crews := l, launches := [] }
    let busy : State := { over_ dir0.crews with cmds := [(1, {})] }
    all [PortState.hears (getPort s 0).st && s.service.boot == .off, (readDesc s 0x1000000000000).isNone, d 0x92000 fun b => (descReason s b).isSome, d 0x90000 fun b => (descReason s b).isNone,
      d 0x91000 fun b => (descReason s b).isNone && recField b 80 8 < recField (getCtx s 0).desc 80 8, d 0x90000 fun b => descFixed b == descFixed (getCtx s 0).desc && decide (recField (getCtx s 0).desc 80 8 ≤ recField b 80 8),
      ([{ st := .disabled }, { st := .active }, { st := .idle, dueFault := some (3, 7, true) }] : List Queue).map (fun x => (QueueState.live x.st, x.dueFault)) ==
        [(false, none), (true, none), (true, some (3, 7, true))], contextQuiet (over_ []) 0 && (getCtx (over_ []) 0).st == .dead, !contextQuiet busy 0 && (getCtx busy 0).st == .dead] = true := by
  decide +kernel

theorem witness_ServiceOperationResults :
    let co (k : Nat) (f : FenceState) (b : Bool) (s : State) : State := setCore s k { getCore s k with fence := f, beyondSpares := b }
    let svc (f : Service → Service) : State := { up0 with service := f up0.service }
    all [fenceCores 4 false == some [4], (getCore (co 4 .draining false up0) 4).fence != .inService && (crewsOn (co 4 .draining false up0) 4).isEmpty && (co 4 .draining false up0).service.fences.isEmpty,
      (getCore up0 4).fence == .inService, (svc fun v => { v with fences := [([1], 5)] }).service.fences != [], (getCore (co 4 .out false up0) 4).fence == .out && !(getCore (co 4 .out false up0) 4).beyondSpares,
      (getCore (co 4 .out true up0) 4).beyondSpares, !(crewsOn up0 0).isEmpty, (getPStack up0 1).online && (getPStack up0 1).draining.isNone, (getPStack (setPStack up0 1 { getPStack up0 1 with online := false }) 1).online == false,
      up0.service.staged.isNone, (svc fun v => { v with staged := some [1, 2] }).service.staged == some [1, 2] && up0.service.swap.isNone, (svc fun v => { v with swap := some (9, 0, [1]) }).service.swap.isSome,
      [0, 2, 3].all fun k => (svc fun v => { v with swap := some (9, k, [1, 2]) }).service.swap == some (9, k, [1, 2]), decide (up0.now < up0.service.projAt + 1024),
      (svc fun v => { v with boot := .done }).service.boot == .done && decide (up0.service.projAt + 1024 ≤ 5000)] = true := by
  decide +kernel

theorem witness_BootAndErrorResults :
    let dirty (x : Sector) : State := setCore up0 0 { getCore up0 0 with l1 := [(0x4000, x)] }
    let held : State := dirty { dirty := 1, valid := 1, data := List.replicate 64 77 }
    all [validPa 0x12345, !validPa (2 ^ 50), warpAt up0 0 == some ⟨0, 0, 0⟩, (getWarp up0 0 0).any fun w => decide (383 < w.n), (sectorAt up0 0 0x4000).isNone, (sectorAt (dirty { valid := 5 }) 0 0x4000).any fun x => x.dirty == 0,
      (sectorAt held 0 0x4000).any (fun x => x.dirty != 0) && (ownerOf (setTag (flushSector held 0 0x4000) 0x4000 poisonTag) 0x100000).isNone] = true := by
  decide +kernel

/-- A GRID record and a TEXTURE record. -/
def gridRec : List Byte := puts (record 2) ([(2, [2]), (4, [4]), (8, leBytes 8 0x20000), (16, leBytes 4 4), (20, leBytes 4 8)])
def texRec : List Byte := puts (record 3) ([(2, [1]), (5, [1]), (8, leBytes 2 8), (10, leBytes 2 8), (16, leBytes 8 0x20000)])

theorem witness_FilterResults :
    let s (rc : List Byte) (h : Nat := h3) : State := withWarp (fun wp => { wp with n := 64 }) (withRegs (fun r => { r with v := (List.range 6).foldl (fun v k => v ++ laneF (fun l => 0x3E000000 + l * 0x10000 + k) (4 + k)) [] }) (rec0 rc (sset [(6, h)] dir0)))
    let tex (d : Nat) : Instr := .filtTex (enc 0 .n32 (mainR d) (mainR 4) (scal 6) z z)
    let grid (d : Nat) : Instr := .filtGrid (enc 1 .n32 (mainR d) (mainR 4) (scal 6) z z)
    let found (i : Instr) (s : State) (p : Enc → Site → Nat × RecSlot → Bool) : Bool := meets i s fun w x => anyAct x && (handleSlot s x.cr.ctx (scalarValue x.wp w.b.idx.toNat false)).any (p w x)
    let fits (g : Bool) (s : State) (w : Enc) (x : Site) (e : Nat × RecSlot) : Bool :=
      let n := if g then gridRegs e.2.data else 4
      let rs := (lanesOf x.act).map fun l => (l, (List.range (if g then 3 else 6)).map fun k => x.wp.regs.main (w.a.idx.toNat + k) l)
      recField e.2.data 0 1 == (if g then 2 else 3) && decide (w.d.idx.toNat + n ≤ x.wp.n) &&
        !commandWaits s x { cls := 4, scope := 1, slot := some e.1, lanes := x.act, op := .filter g e.2.data w.d.idx.toNat rs }
    let job : Command := { cls := 4, phase := .started, op := .filter false texRec 12 [(5, [0x3E000000, 0x3E100000, 0, 0, 0, 0])] }
    let ends : State := { s texRec with cmds := [(7, job)] }
    all [meets (tex 12) (s texRec 7) fun w x => anyAct x && (handleSlot (s texRec 7) x.cr.ctx (scalarValue x.wp w.b.idx.toNat false)).isNone, found (tex 12) (s gridRec) fun _ _ e => recField e.2.data 0 1 != 3,
      found (grid 12) (s texRec) fun _ _ e => recField e.2.data 0 1 != 2, found (tex 61) (s texRec) fun w x e => recField e.2.data 0 1 == 3 && decide (x.wp.n < w.d.idx.toNat + 4), found (tex 60) (s texRec) (fits false (s texRec)),
      found (grid 12) (s gridRec) (fits true (s gridRec)), (match filtTouch (kvD ends.crews 0 {}).ctx (quinceStack ends (kvD ends.crews 0 {}).ctx 0 (filtReads false texRec [0x3E000000, 0x3E100000, 0, 0, 0, 0])) (filtUnit false texRec) (filtReads false texRec [0x3E000000, 0x3E100000, 0, 0, 0, 0]) 0 ends [] with
        | .ok t pas => !pas.isEmpty && (getWarp t 0 0).isSome
        | _ => false)] = true := by
  decide +kernel

theorem witness_ViewResults :
    let vrec : List Byte := puts (record 4) [(2, [1]), (4, leBytes 2 2), (6, leBytes 2 2), (20, leBytes 4 0x3F800000), (36, leBytes 4 0x3F800000), (52, leBytes 4 0x3F800000), (60, leBytes 4 0x7F7FFFFF), (72, leBytes 8 0x80000), (80, leBytes 4 2)]
    let v0 : View := { ctx := 0, queue := 2, index := 0, tag := 9, record := vrec, rays := [(5, (0, 0, 1))], units := [(0, { gen := 1 })] }
    let base (v : View) : State := withCtx (fun c => { c with st := .running, poolUsed := [5] }) { dir0 with
      views := [(3, v)], queues := [(2, queue0 (.view 3))], rayMsgs := [(7, .result 5 0xFFFC [10, 11, 12, 13])], fresh := 30 }
    let ws : List W32 := [10, 11, 12, 13]
    let ve : View := { v0 with rays := [], units := [(0, { gen := 1, written := [(0, [(0, ws), (1, ws), (16, ws), (17, ws)])] })] }
    let vd : View := { ve with units := [(0, { emit := 1 })] }
    let it : Nat × List W32 := (6, List.replicate 8 5)
    let iqs : State := withCtx (fun c => { c with iq := [(2, 0x90000)] }) (homePuts dir0 0x90000 (puts (List.replicate 64 0) [(0, leBytes 8 0x91000), (8, leBytes 8 0x92000), (40, [2])]))
    all [decide (0xFFFC ≤ tagSlot 0xFFFC), ((base v0).views.find? (fun e => (kvGet e.2.rays 5).isSome)).any fun e => e.1 == 3, (v0.sample 0 0 1).any fun p => (match putVis (base v0) 3 v0 0 0 p ws with | .ok _ => true | _ => false) &&
        (match agentTouch (base v0) none v0.ctx permWrite 0 (recField v0.record 72 8 + 16 * ((p.2.1 * v0.width + p.1) * v0.spp + p.2.2)) 16 with | .ok _ _ => true | _ => false),
      (v0.tileItems 0 (v0.unit 0).emit).isNone, !ve.stopped && viewsRun (base ve) 0 && decide ((ve.unit 0).emit < ve.tilesOf 0 ∧ (ve.unit 0).emit < (ve.unit 0).gen) && (ve.tileItems 0 (ve.unit 0).emit).isSome,
      (List.range 4).all fun u => (vd.unit u).emit == vd.tilesOf u, !vd.flag 2 && vd.rays.isEmpty, (List.range 4).any fun u => (ve.unit u).emit != ve.tilesOf u,
      ({ v0 with stopped := true } : View).stopped, (match agentTouch dir0 none 0 permWrite 0 (2 ^ 40) 16 with | .fault .. => true | _ => false),
      (match appendItem iqs 0 2 none it with | .done _ => true | _ => false), (match appendItem iqs 0 2 (some 4) it with | .wait _ (some 4) true => true | _ => false),
      (match appendItem (withCtx (fun c => { c with iq := [(2, 2 ^ 40)] }) iqs) 0 2 none it with | .fault .. => true | _ => false),
      (match headerTouch iqs 0 permAtomic 0x90000 24 8, headerTouch iqs 0 permRead 0x90000 0 64 with
        | .ok t _, .ok _ hp => (match agentTouch t none 0 permWrite 0 0x91000 32 with | .ok _ _ => true | _ => false) &&
          (queueHeader (hp.map fun pa => homeByte iqs pa)).head == 0
        | _, _ => false),
      ({ vd with record := putAt vrec 3 [4] } : View).flag 2 && (match headerTouch iqs 0 permRead 0x90000 24 8 with | .ok t _ => (match agentTouch t none 0 permWrite 0 (0x90000 + 32) 8 with | .ok _ _ => true | _ => false) | _ => false)] = true := by
  decide +kernel

theorem witness_RemoteCommandsEnter :
    let i (k : Nat) : Instr := let e := enc 0 .n32 z (scal 4) (scal 6) (scal 8) z; if k = 0 then .putn e else if k = 1 then .getn e else .signal e
    let s (rc : List Byte) (b d : Nat := 64) (ctl : Nat := 0) : State := rec0 rc (sset [(4, h3), (6, 0), (7, 3), (8, 1), (9, b), (10, d), (11, ctl)])
    let bytes : List Byte := tens 0 0x20000 [4096] [1]
    let words : List Byte := tens 6 0x20000 [16] [8]
    let bad (k : Nat) (s : State) (want : Bool) (w : Enc) (x : Site) : Bool := let sc (n : Nat) : Nat := scalarValue x.wp (w.c.idx.toNat + n) false
      let sl := if k = 2 then 0 else uB s x w
      (handleSlot s x.cr.ctx (sA x w)).any fun e => recField e.2.data 0 1 == 1 && remoteBad k (tensorOf e.2.data) e.2.data (sc 0) (sc 1) (sc 2) sl (copyControl (sc 3)) == want &&
        (want || k == 2 || (match ownScratch x sl (sc 2) with | .ok _ => true | .error _ => false))
    let arv : State := withCrew (fun c => { c with bars := [(3, {})] }) (s bytes 64 64 0x2180)
    let full : State := withWarp (fun wp => { wp with eng := [(2, { count := 63 })] }) (s bytes)
    let set_ (c : Nat) (ids : List Nat) : State := { sset [(4, 3), (6, 0), (8, c), (9, 0)] with collSets := [(3, ids)] }
    let co (kind : Nat) : Instr := .coll (enc kind .n32 z (scal 4) (scal 6) (scal 8) z)
    let runs (c kind : Nat) : Bool := meets (co kind) (set_ c [0, 1]) fun w x => let ms := collMembers (set_ c [0, 1]) x.cr.ctx (rawValue (set_ c [0, 1]) x .n32 false w.a 0)
      anyAct x && ms.length == 2 && (collRank (set_ c [0, 1]) ms).isSome && (copyControl 0).plain && (match ownScratch x 0 (4 * c) with | .ok _ => true | .error _ => false)
    all [[0, 1, 2].all fun k => meets (i k) (sset [(4, 7)]) fun w x => anyAct x && (handleSlot (sset [(4, 7)]) x.cr.ctx (sA x w)).isNone,
      [0, 1, 2].all fun k => meets (i k) (s (record 2)) fun w x => (handleSlot (s (record 2)) x.cr.ctx (sA x w)).any fun e => recField e.2.data 0 1 != 1, [0, 1].all fun k => meets (i k) (s bytes) (bad k (s bytes) false),
      meets (i 2) (s words 1 1) (bad 2 (s words 1 1) false), [0, 1, 2].all fun k => meets (i k) (s (tens 4 0x20000 [16] [4]) 64 64 5) (bad k (s (tens 4 0x20000 [16] [4]) 64 64 5) true), meets (i 0) arv fun w x =>
        bad 0 arv false w x && (copyControl 0x2180).arv == some 3 && (kvGet x.cr.bars 3).isSome, meets (i 1) full (bad 1 full false), meets (i 0) (versioned (s bytes)) fun _ x => (getLaunch (versioned (s bytes)) x.cr.launch).vers,
      meets (co 0) (versioned (set_ 16 [0, 1])) fun _ x => anyAct x && (getLaunch (versioned (set_ 16 [0, 1])) x.cr.launch).vers, meets (co 0) (set_ 0 [0, 1]) fun _ x => anyAct x, meets (co 0) (set_ 262145 [0, 1]) fun _ x => anyAct x,
      meets (co 0) (set_ 16 [5, 1]) fun _ x => (collRank (set_ 16 [5, 1]) (collMembers (set_ 16 [5, 1]) x.cr.ctx 3)).isNone, meets (co 0) (sset [(4, 15), (8, 16)]) fun _ x => (collMembers (sset [(4, 15), (8, 16)]) x.cr.ctx 15).isEmpty,
      runs 16 0, runs 16 3, runs 15 1] = true := by
  decide +kernel

def frame (t : Nat) (nfl : Nat := 1) (seq : W16 := 1) (aux : List Byte := []) (data : List Byte := []) (last : Bool := true) (rz : Bool := true) (phys : Bool := false) (set : Nat := 0) (len : Nat := 8) : Frame :=
  ⟨0x88B5, 0, t, vcOf t, 3, 0, nfl, seq, 0, [1, 2, 3, 4], aux, 0x2000, len, 7, set, 0, phys, last, 0, 3, rz, data⟩
def ends (kind : Nat) (s : State) : State := { s with cmds := [(7, { op := .remote { kind := kind, dev := 3, va := 0x2000, len := 8, lo := 0x3000 }, cls := 2, phase := .started })] }
/-- R462 and R464: a frame that is laid out and read again is the same frame. -/
theorem test_frameLayout :
    let f : Frame := { frame 1 2 1 (List.replicate 16 0) (List.replicate 64 7) with src := 5, dst := 9, rsrc := 5, rlen := 64, nfl := 2 }
    frameOfBytes (frameBytes f) = f ∧ (frameBytes f).length = 144 ∧ ((frameBytes f).drop 2).head? = some 4 := by
  decide +kernel

def linked (s : State := dir0) : State :=
  withCtx (fun c => { c with st := .running }) (setPort (up0 s) 2 { getPort s 2 with st := .up, credits := [100, 100, 100, 100] })

theorem witness_LinkMessageResults :
    let heard (f : Frame) (s : State) : State := setPort s 2 ((getPort s 2).heard s.now f)
    let taken (a : Arrival) : Bool := match a with | .taken _ => true | .later _ => false
    let eight : List Byte := [1, 2, 3, 4, 5, 6, 7, 8]
    let answers (f : Frame) (s : State) : Bool := !badRequest 2 f && answersLinks s f.rctx
    all [!PortState.hears (getPort dir0 2).st, PortState.hears (getPort linked 2).st && (frame 1).seq == (getPort linked 2).rxSeq + 1 && !refusedFrame 2 (frame 1 2 1 [] eight), (frame 2 1 5).seq != (getPort linked 2).rxSeq + 1,
      taken (takePut 2 (frame 1 2 1 [] eight) (heard (frame 1 2 1 [] eight) linked)), taken (takeGet 2 (frame 2) (heard (frame 2) linked)), taken (takeGetData (frame 3 2 1 [] [1, 2, 3]) (heard (frame 3) (ends 1 linked))),
      taken (takeSignal 2 (frame 4 1 1 (leBytes 8 9)) (heard (frame 4) linked)), taken (takeHostWrite 0 (frame 8 2 1 [] eight) linked), (tokenCmd (heard (frame 5) (ends 0 linked)) 7).isSome, (tokenCmd linked 7).isNone,
      decide (leNat ((leBytes 4 2 ++ leBytes 4 128 ++ leBytes 8 0x2040).take 1) ≠ 0x17), badRequest 2 (frame 7 (rz := false)), !badRequest 2 (frame 7) && !answersLinks (up0 (withCtx (fun c => { c with st := .dead }) dir0)) 0,
      answers (frame 7) linked && ((collMembers linked 0 0).findIdx? (· == 3)).isNone, !badRequest 0 (frame 9) && (match hostTouch linked (frame 9) permRead with | .ok t pas => pas.all fun pa => !isPoisonTag (homeTag t pa) | _ => false),
      answers (frame 4) linked && (match touch linked none 0 permAtomic 0x2000 0 with | .ok t pa => !isPoisonTag (homeTag t pa) | _ => false), (match agentTouch linked none 0 permRead 0 0x2000 8 with | .ok _ _ => true | _ => false),
      badRequest 2 (frame 2 (rz := false)), (tokenCmd (ends 1 linked) 7).isSome && !(frame 3 2 1 [] [1, 2, 3] false).rlast] = true := by
  decide +kernel

theorem witness_PortResults :
    let p (st : PortState) : Port := { st := st, unacked := [frame 2 (seq := 5), frame 4 (seq := 6), frame 3 (seq := 7)], rxSeq := 9, waiting := [(50, frame 3), (60, frame 2)] }
    all [PortState.hears (p .up).st, !PortState.hears (p .down).st, (frame 0 0).nfl == 0 && (frame 0 0).mtype == 0, (frame 12 0).mtype != 0, ({ frame 12 0 with ack := 6 } : Frame).ack == 6 && (p .up).unacked.map (·.seq) == [5, 6, 7],
      !refusedFrame 2 (frame 3) && !unknownOp 2 (frame 3), decide ((p .up).ackAt + 2048 ≤ 2048), (p .training).st == .training && decide ((p .training).since + 2 ^ 24 ≤ 2 ^ 24), [frame 3, frame 5].all fun f => !isRequest f.mtype,
      PortState.flows (p .degraded).st, !PortState.flows (p .draining).st, ((p .draining).waiting.find? (fun e => isRequest e.2.mtype && decide (e.1 + 2 ^ 24 ≤ 60 + 2 ^ 24))).any fun e => e.1 == 60,
      decide (16 < (17 : W32).toNat ∧ ¬(16 < (16 : W32).toNat) ∧ 64 < (65 : W32).toNat ∧ ¬(64 < (64 : W32).toNat))] = true := by
  decide +kernel

theorem witness_StackResults :
    let y (q : List StackReq) (owed : KV Nat := []) (closed : KV Nat := []) (forced : Option Nat := none) : Channel :=
      { queue := q, owed := owed, closed := closed, forced := forced, lastDue := 60 }
    let r (cls stamp bank arrived : Nat) : StackReq := ⟨cls, stamp, 1, bank, arrived, none, true⟩
    let x (c : Channel) (pw : PowerState := .active) : Stack := { power := pw, channels := [(3, c)] }
    let at_ (t : Nat) : State := { probe with now := t, lastRunning := 0, ctxs := [] }
    let deb (pw : PowerState) : Stack := { x (y []) with debugFrom := some (pw, true) }
    let owes (z : Channel) : Nat := ({ z with owed := kvSet z.owed z.bank (kvD z.owed z.bank 0 + 1) } : Channel).debt
    let w : Wear := { gap := 0, due := 2, start := 65535 }
    all [(nextRequest (y [r 3 9 0 5, r 1 2 1 6]).queue 4800 (fun r => (y []).opens r.bank)).isSome, (x (y [])).power == .active && (y []).forced.isNone && !(y []).pressed 0 && (kvGet (y []).closed 0).isNone && decide ((y []).lastDue + 2340 ≤ 2400),
      (y [r 1 9 0 5] [(0, 6)]).pressed 0 && owes (y [r 1 9 0 5] [(0, 6)]) == 7, (y [r 1 9 0 5] [(0, 5), (3, 2)]).pressed 0 && owes (y [r 1 9 0 5] [(0, 5), (3, 2)]) == 8, (y [] [] [] (some 210)).forced == some 210 && decide (209 < 210),
      (y [] [] [(2, 140), (5, 141)]).closed.any (fun e => decide (e.2 ≤ 140)) && (y []).forced.isNone, (y [r 1 9 0 5] [(0, 1), (2, 1)]).owed.Pairwise (fun a b => a.1 < b.1) && (kvGet (y [r 1 9 0 5] [(0, 1), (2, 1)]).owed 1).isNone,
      (x (y [])).quiet && (x (y [])).debugFrom.isNone && (x (y [])).waking.isNone && decide ((x (y [])).lastReq + 512 ≤ 512), (x (y []) .self).power != .active, !(x (y [r 1 9 0 5])).quiet, (x (y []) .self).power != .retention && (at_ 600000).ctxs.isEmpty &&
        decide ((x (y [])).lastReq + 600000 ≤ 600000 ∧ (at_ 600000).lastRunning + 600000 ≤ 600000), (setCtx probe 3 { getCtx probe 3 with st := .running }).ctxs.any fun e => e.2.st == .running,
      ({ x (y []) with waking := some 600, debugFrom := some (.self, true) } : Stack).waking == some 600, (deb .self).mayRest (at_ 65536) && decide ((deb .self).debugAt + 65536 ≤ (at_ 65536).now),
      (deb .retention).mayRetain (at_ 600000) && decide ((deb .retention).debugAt + 65536 ≤ (at_ 600000).now), w.gap == 0 && decide (0 < w.due ∧ w.start < 65536), decide (w.line 7 ≠ w.copied),
      w.line 65535 == w.copied || (List.range 65536).any fun l => w.line l == w.copied] = true := by
  decide +kernel

/-- The debugger attached to the context, and the probing warp halted. -/
def attached (k : Nat := 0) : State := { setCtx probe k { getCtx probe k with attached := true } with debugger := { probe.debugger with ctx := some k } }
def haltedW : State := withWarp (fun wp => { wp with run := none, paths := kvMod wp.paths 0 fun p => { p with st := .ready }, halt := some {} }) attached

theorem witness_DebuggerResults :
    let locked : State := withCtx (fun c => { c with desc := putAt desc0 4 (leBytes 4 4) }) probe
    all [(attachedCtx probe).isNone, (attachedCtx (attached)).isSome, (ctxFlags locked 0).testBit 2, !(ctxFlags probe 0).testBit 2, (attached).crews.all fun e => e.2.warps.all fun w => !w.2.haltAsked, attachedCtx (attached 5) == some 5 && (attached 5).crews.all fun e => e.2.ctx != 5,
      warpAt haltedW 0 == some ⟨0, 0, 0⟩ && (getWarp haltedW 0 0).any fun w => w.halt.any (fun h => h.pending.isNone && (kvGet w.paths h.path).isSome) && ({ w with halt := none } : Warp).pathOrder == [0] &&
        (tryIssue (inSlot haltedW ⟨0, 0, 0⟩ { w with halt := none } 3 0)).isSome,
      (getWarp (withWarp (fun wp => { wp with paths := [] }) haltedW) 0 0).any fun w => ({ w with halt := none } : Warp).pathOrder == [], validPa 0x1000 && validPa (0x1000 + 63), !validPa (2 ^ 60),
      (getStack probe (homeStack 0x1000)).waking.isNone && (getStack probe (homeStack 0x1000)).power == .active && !(getStack probe (homeStack 0x1000)).gated, (List.range 64).all fun i => !isPoisonTag (homeTag probe (0x1000 + i))] = true := by
  decide +kernel

theorem witness_DecodeEncode :
    let i : Instr := .ffma (enc 0 .f32 (mainR 383) (mainR 1) (scal 63) (mainR 382) z)
    let more : List Byte := [0, 1, 2, 3, 4, 5, 6, 7, 8, 9, 10, 11, 12, 13, 14]
    all [WellFormed i && (encode i).isSome, (match decodeWord 0x180010004007df4040 with | .ok _ => true | .error _ => false), decide (more.length < 16)] = true := by
  decide +kernel

theorem witness_StepRunsDecoded :
    let at_ (v : W128) (count : Nat) (p : Option IllegalCause → List Byte → Bool) (f : State → State := id) : Bool := let s := f (State.reset.withFetchWord 128 v.toNat)
      let s := withWarp (fun wp => { wp with run := wp.run.map fun r => { r with files := { r.files with count := count } } }) s
      match s.agenda with
      | .issue core part slot :: rest => (match slotHolder (beginStep { s with agenda := rest }) core part slot with
        | some r => let u : State := { beginStep { s with agenda := rest } with issuing := some r }
          (match siteOf u with
          | some y => y.pa.rebuild.isEmpty && y.rn.files.count == count && (let x : Site := { y with act := pathLanes y.wp y.pa }
            match checkLanes u x .fetch 16 [(lowLane x.act, y.pa.pc.toNat)] with
            | .ok t [(_, _, .mem pa)] => p (illegalWord y.width y.wp.n (BitVec.ofNat 128 (leNat (codeBytes t pa 16)))) (codeBytes t pa 16)
            | _ => false)
          | none => false)
        | none => false)
      | _ => false
    let legal (ends : Bool) (c : Option IllegalCause) (b : List Byte) : Bool := c.isNone && (match decodeBytes (b ++ [1, 2]) with
      | .ok (i, [1, 2]) => (match Instr.word? i with | some (_, w) => endsRun i w == ends | none => false)
      | _ => false)
    all [(kvGet (getCore (State.reset.withFetchWord 128 0) 0).icache (0x10000 / 64)).isNone && !isPoisonTag (homeTag (State.reset.withFetchWord 128 0) 0x10000),
      (kvGet (getCore (readCode (State.reset.withFetchWord 128 0) 0 0x10000 16).1 0).icache (0x10000 / 64)).isSome,
      at_ 0x180010004007df0010 5 (legal false), at_ 0x180010004007df0010 5 (legal false) (fun s => (readCode s 0 0x10000 16).1), at_ 0x180010004007df0010 23 (legal false), at_ 0x00010000000000000000000007DF0000 23 (legal true), at_ 0xFF 0 fun c _ => c.isSome] = true := by
  decide +kernel

theorem witness_IssueChecks :
    let i : Instr := .iadd (enc 0 .n32 (mainR 16) (mainR 4) (scal 6) z z)
    let at_ (i : Instr) (s : State) (p : Enc → Site → Bool) : Bool := match Instr.word? i, siteOf s with
      | some (_, w), some y => !(warpWide i && mustReconverge y.wp y.rn.path y.pa) && !guardEmpty y.wp w.guard && p w { y with act := activeLanes i w y }
      | _, _ => false
    let split : State := withWarp fun wp => { wp with paths := kvSet (kvMod wp.paths 0 fun p => { p with mask := 0xF }) 2 { pc := 0x10100, mask := 0xF0 } }
    let user : State := withCtx (fun c => { c with desc := putAt desc0 4 (leBytes 4 0) }) probe
    let wide : Instr := .barw (enc 0 .n32 z z z z (raw 3))
    let held : State := withRegs fun r => { r with vempty := [64 * 16] }
    let sys : Instr := .syswr (enc 0 .n32 z z (scal 6) (scal 8) z)
    all [(siteOf split).any fun y => (warpWide (.wred (enc 0 .s32 (scal 10) (mainR 8) z z z)) || warpWide wide) && mustReconverge y.wp y.rn.path y.pa,
      (siteOf (withRegs fun r => { r with pempty := [1] })).any fun y => guardEmpty y.wp (onP 1),
      at_ sys (sset [(6, 0x501)] user) fun _ x => needsSys (sset [(6, 0x501)] user) x sys && !ctxSys (sset [(6, 0x501)] user) x.cr.ctx,
      at_ i (withRegs fun r => { r with sempty := [6] }) fun w x => x.act != 0 && mustWait i w (withRegs fun r => { r with sempty := [6] }) x,
      at_ i (withRegs fun r => { r with spoison := [6] }) fun w x => x.act != 0 && !mustWait i w (withRegs fun r => { r with spoison := [6] }) x && (sourceTrap i w (withRegs fun r => { r with spoison := [6] }) x).isSome,
      at_ (.trace (enc 1 .n32 (mainR 16) (mainR 4) (scal 6) z z)) (rays held) fun w x => x.act != 0 && mustWait (.trace w) w (rays held) x &&
        (x.wp.rays.any fun e => e.2.cand && x.act.getLsbD e.1)] = true := by
  decide +kernel

theorem witness_TrapDelivery :
    let mk (trape : Nat) (hd : Bool) (catch_ : W32) : State :=
      withCtx (fun c => { c with catchMask := catch_, attached := catch_ != 0, st := .running }) (withWarp (fun wp => { wp with handler := if hd then some { path := 0, paths := [(0, { pc := 0x10020, mask := 1 })] } else none })
        (withKernel (fun k => { k with trape := trape }) probe))
    let x (s : State) : Site := site s 5
    let same (s : State) : Bool := getWarp s 0 0 == some (x s).wp && !(x s).wp.haltAsked && !(getLaunch s 0).vers
    let h : Handler := { path := 0, paths := [(0, { pc := 0x10020, mask := 1 })] }
    all [same (mk 0x80 false 0x00FFFFFE) && debugCatches (mk 0x80 false 0x00FFFFFE) 0 1, same (mk 0x80 false 0) && !debugCatches (mk 0x80 false 0) 0 1 && (x (mk 0x80 false 0)).wp.handler.isNone && (x (mk 0x80 false 0)).k.trape == 0x80,
      (x (mk 0xFFFFFFFF false 0)).k.trape == 0xFFFFFFFF && (kvD (mk 0xFFFFFFFF false 0).crews 0 {}).phase == .resident && (getCtx (mk 0xFFFFFFFF false 0) 0).st == .running, (x (mk 0x80 true 0)).wp.handler.isSome,
      ([(0, { st := .atTret })] : KV Path).all fun e => e.2.st == .atTret, ([(0, { st := .atTret }), (3, {})] : KV Path).any fun e => e.2.st != .atTret, (kvGet h.paths h.path).isSome && h.paths.all fun e => !e.2.mask.getLsbD 7,
      h.entry.isNone && decide (h.paths.Pairwise fun a b => a.1 < b.1), ({ code := 0x12, entry := some {} } : TrapInfo).entry.isSome && !debugCatches (mk 0x80 false 0) 0 0x12,
      (({ h with entry := some { lanes := [{ lane := 3, loc := .mem 0 }, { lane := 9, loc := .mem 4 }] } } : Handler).entry.any fun e => e.lanes.any fun a => (0xF : Mask).getLsbD a.lane),
      !debugCatches (mk 0x80 false 0) 0 0x0B] = true := by
  decide +kernel

theorem witness_MemoryFormKept :
    (homePuts (withDir [probePiece] probe) 0x2000 [1, 0, 3]).memoriesWf ∧ (State.reset.withFetchWord 128 0x180010004007df0010).memoriesWf := by
  unfold State.memoriesWf
  decide +kernel

end Sys2Proof.Tests
end

section
/-! The form that exec gives every instruction: a Zorsis instruction issues by the shared checks of R12, and a step of another
agent answers a next state. -/

namespace Sys2Proof.Machine

/-- Every instruction of the opcode table issues through the shared checks, with a meaning of its own (R12, R56). -/
theorem exec_issues_word {i : Instr} {op : Nat} {w : Enc} (h : Instr.word? i = some (op, w)) (s : State) :
    ∃ body, exec i s = issueInstr i w s body := by
  cases i <;> cases h
  all_goals unfold exec; apply Exists.intro; rfl

/-- A step of another agent has no checks to fail: it answers a next state. -/
theorem exec_runs_of_no_word {i : Instr} (h : Instr.word? i = none) (s : State) : Runs (exec i s) := by
  cases i <;> cases h
  all_goals exact ⟨_, rfl⟩

/-- The checks miss a warp only where none stands in the issuing slot. -/
theorem gate_ne_noWarp {s : State} (hs : siteOf s ≠ none) (i : Instr) (w : Enc) : gate i w s ≠ .noWarp := by
  obtain ⟨y, hy⟩ := Option.ne_none_iff_exists'.1 hs
  simp only [gate, hy]
  repeat' split
  all_goals exact Gate.noConfusion

/-- An instruction that some warp issues goes on: it waits, parks, traps or takes effect. -/
theorem issueInstr_runs {s : State} (hs : siteOf s ≠ none) (i : Instr) (w : Enc) (body : Site → State → Act) :
    Runs (issueInstr i w s body) := by
  unfold issueInstr
  split
  case h_1 h => exact absurd h (gate_ne_noWarp hs i w)
  all_goals exact ⟨_, rfl⟩

/-- Where a warp stands in the issuing slot, every instruction goes on. -/
theorem exec_runs {s : State} (hs : siteOf s ≠ none) (i : Instr) : Runs (exec i s) := by
  cases hw : Instr.word? i with
  | none => exact exec_runs_of_no_word hw s
  | some opw =>
    obtain ⟨body, hb⟩ := exec_issues_word hw s
    exact hb ▸ issueInstr_runs hs i opw.2 body

theorem settle_runs {o : Host.Outcome State Fault Refusal} (h : Runs o) : Runs (settle o) := by
  obtain ⟨t, rfl⟩ := h
  exact ⟨finishIssue t, rfl⟩

end Sys2Proof.Machine
end

section
/-! What the fetch of an instruction leaves: translating its address, with first touches and recalls, and reading its bytes change
neither the issuing slot nor any warp (R209, R405, R407-R411). -/

namespace Sys2Proof.Machine

/-- The issuing slot, the crews with their warps, and the launches are as they were. -/
structure KeepsIssuing (s t : State) : Prop where
  issuing : t.issuing = s.issuing
  crews : t.crews = s.crews
  launches : t.launches = s.launches

theorem KeepsIssuing.refl (s : State) : KeepsIssuing s s := ⟨rfl, rfl, rfl⟩

theorem KeepsIssuing.trans {s t u : State} (h : KeepsIssuing s t) (g : KeepsIssuing t u) : KeepsIssuing s u :=
  ⟨g.issuing.trans h.issuing, g.crews.trans h.crews, g.launches.trans h.launches⟩

/-- The site of the issuing warp depends on nothing else. -/
theorem KeepsIssuing.siteOf_eq {s t : State} (h : KeepsIssuing s t) : siteOf t = siteOf s := by
  unfold siteOf getLaunch
  rw [h.issuing, h.crews, h.launches]

/-! ### Homes, leaves and frames -/

theorem keepsIssuing_homePuts (s : State) (pa : Nat) (l : List Byte) : KeepsIssuing s (homePuts s pa l) :=
  have h := homePuts_others s pa l
  ⟨(congrArg State.issuing h :), (congrArg State.crews h :), (congrArg State.launches h :)⟩

theorem keepsIssuing_writeLeaf (s : State) (leaf : Nat) (ps : List Piece) : KeepsIssuing s (writeLeaf s leaf ps) :=
  (keepsIssuing_homePuts _ _ _).trans (keepsIssuing_homePuts _ _ _)

theorem keepsIssuing_replaceSlot {s t : State} {x : Slot} {ps : List Piece} (h : replaceSlot s x ps = some t) :
    KeepsIssuing s t := by
  simp only [replaceSlot] at h
  split at h
  · cases h; exact keepsIssuing_writeLeaf _ _ _
  · cases h

theorem keepsIssuing_setSlot (s : State) (x : Slot) (p : Piece) : KeepsIssuing s (setSlot s x p) := by
  unfold setSlot
  cases h : replaceSlot s x [p] with
  | none => exact .refl s
  | some t => exact keepsIssuing_replaceSlot h

theorem keepsIssuing_splitUnit {s t : State} {x : Slot} {va lo hi : Nat} {f : Piece → Piece}
    (h : splitUnit s x va f = some (lo, hi, t)) : KeepsIssuing s t := by
  simp only [splitUnit] at h
  split at h
  next hr => cases h; exact keepsIssuing_replaceSlot hr
  · split at h
    · cases h; exact keepsIssuing_setSlot _ _ _
    · cases h

theorem keepsIssuing_takeFrom {r b fuel frame : Nat} {s t : State} (h : takeFrom r b fuel s = some (frame, t)) :
    KeepsIssuing s t := by
  induction fuel generalizing s with
  | zero => cases h
  | succ fuel ih =>
    simp only [takeFrom] at h
    have hput := (keepsIssuing_homePuts s (ringEntry b (homeNat s (b + 8) 8)) (leBytes 8 0)).trans
      (keepsIssuing_homePuts _ (b + 8) (leBytes 8 (homeNat s (b + 8) 8 + 1)))
    split at h
    · split at h
      · obtain ⟨-, rfl⟩ := Prod.mk.inj (Option.some.inj h)
        exact hput
      · refine KeepsIssuing.trans ?_ (ih h)
        exact ⟨hput.issuing, hput.crews, hput.launches⟩
    · cases h

theorem keepsIssuing_takeFrame {s t : State} {r frame : Nat} (h : takeFrame s r = some (frame, t)) : KeepsIssuing s t := by
  unfold takeFrame at h
  split at h
  · cases h
  · exact keepsIssuing_takeFrom h

theorem keepsIssuing_takeLocal {s t : State} {r frame : Nat} (h : takeLocal s r = some (frame, t)) : KeepsIssuing s t := by
  obtain ⟨k, -, hk⟩ := List.exists_of_findSome?_eq_some h
  exact keepsIssuing_takeFrame hk

/-! ### Placement and recall -/

theorem keepsIssuing_placeAt {s t : State} {ctx va frame : Nat} {x : Slot} (h : placeAt s ctx x va frame = some t) :
    KeepsIssuing s t := by
  simp only [placeAt] at h
  split at h
  · cases h
  next hu =>
    cases h
    have hsplit := keepsIssuing_splitUnit hu
    exact ⟨hsplit.issuing, hsplit.crews, hsplit.launches⟩

/-- A touch that finds a unit's frame, or starts or joins the move that will bring it, changes no warp. -/
def Await.Keeps (s : State) : Await → Prop
  | .again t => KeepsIssuing s t
  | .on t _ => KeepsIssuing s t
  | .fails _ => True

theorem Await.Keeps.of_eq {s : State} {o p : Await} (h : o = p) (k : o.Keeps s) : p.Keeps s := h ▸ k

theorem firstTouch_keeps (s : State) (ctx va ring : Nat) (x : Slot) : (firstTouch s ctx va ring x).Keeps s := by
  unfold firstTouch
  split
  · trivial
  split
  · exact .refl s
  split
  next hl =>
    split
    next hp => exact (keepsIssuing_takeLocal hl).trans (keepsIssuing_placeAt hp)
    · trivial
  · exact ⟨rfl, rfl, rfl⟩

/-- A recall takes its frame from the interleaved ring or from the local ones (R411). -/
theorem keepsIssuing_takeRing {s t : State} {ring frame : Nat}
    (h : (if ring = 8 then takeFrame s 8 else takeLocal s ring) = some (frame, t)) : KeepsIssuing s t := by
  split at h
  · exact keepsIssuing_takeFrame h
  · exact keepsIssuing_takeLocal h

theorem startRecall_keeps (s : State) (ctx va ring : Nat) (x : Slot) : (startRecall s ctx va ring x).Keeps s := by
  simp only [startRecall]
  split
  · trivial
  next lo hi u hu =>
    have hid : KeepsIssuing s u.newId.2 := (keepsIssuing_splitUnit hu).trans ⟨rfl, rfl, rfl⟩
    split
    next hf =>
      have hframe := hid.trans (keepsIssuing_takeRing hf)
      exact ⟨hframe.issuing, hframe.crews, hframe.launches⟩
    · exact ⟨hid.issuing, hid.crews, hid.launches⟩

theorem keepsIssuing_touchLanes (s : State) (x : Site) (sp : Space) (as : List (Nat × Nat)) :
    KeepsIssuing s (touchLanes s x sp as).1 := by
  induction as generalizing s with
  | nil => exact .refl s
  | cons e rest ih =>
    have hnext {t : State} (h : KeepsIssuing s t) : KeepsIssuing s (touchLanes t x sp rest).1 := h.trans (ih t)
    rw [touchLanes.eq_def]
    dsimp only
    split
    · split
      next hf => exact hnext (Await.Keeps.of_eq hf (firstTouch_keeps s _ _ _ _))
      next hf => exact hnext (Await.Keeps.of_eq hf (firstTouch_keeps s _ _ _ _))
      · exact hnext (.refl s)
    · split
      next hf => exact hnext (Await.Keeps.of_eq hf (startRecall_keeps s _ _ _ _))
      next hf => exact hnext (Await.Keeps.of_eq hf (startRecall_keeps s _ _ _ _))
      · exact hnext (.refl s)
    all_goals exact hnext (.refl s)

/-- Noting a piece in the core's range table changes no warp. -/
theorem keepsIssuing_notePiece (s : State) (core ctx : Nat) (p : Piece) : KeepsIssuing s (notePiece s core ctx p) := ⟨rfl, rfl, rfl⟩

theorem keepsIssuing_noteLanes (s : State) (x : Site) (sp : Space) (as : List (Nat × Nat)) :
    KeepsIssuing s (noteLanes s x sp as) := by
  have hfold {f : State → Nat × Nat → State} (hf : ∀ t e, KeepsIssuing t (f t e)) : KeepsIssuing s (as.foldl f s) :=
    List.foldlRecOn (motive := KeepsIssuing s) as f (.refl s) fun t ht e _ => ht.trans (hf t e)
  cases sp with
  | scratch => exact .refl s
  | _ =>
    refine hfold fun t ⟨l, a⟩ => ?_
    dsimp only
    split
    · exact keepsIssuing_notePiece _ _ _ _
    · exact .refl t

theorem keepsIssuing_checkLanes {s t : State} {x : Site} {sp : Space} {n : Nat} {as : List (Nat × Nat)}
    {locs : List (Nat × Nat × Loc)} (h : checkLanes s x sp n as = .ok t locs) : KeepsIssuing s t := by
  simp only [checkLanes] at h
  split at h
  · cases h
  split at h
  · cases h; exact keepsIssuing_noteLanes _ _ _ _
  split at h
  · cases h
  split at h
  next s' _ ht =>
    have htouch : KeepsIssuing s s' := by
      have := keepsIssuing_touchLanes s x sp as
      rwa [ht] at this
    split at h
    · cases h; exact htouch.trans (keepsIssuing_noteLanes _ _ _ _)
    · cases h
  · cases h
  · cases h

/-! ### Fetch -/

theorem keepsIssuing_readCode (s : State) (core pa n : Nat) : KeepsIssuing s (readCode s core pa n).1 := by
  simp only [readCode]
  exact ⟨rfl, rfl, rfl⟩

theorem state_eq_of_checkWord_run {s t : State} {x : Site} {v : W128} {i : Instr} (h : checkWord s x v = .run t i) : t = s := by
  simp only [checkWord] at h
  split at h
  · cases h
  split at h
  · cases h
  · rw [ite_eq_iff] at h
    obtain ⟨-, h⟩ | ⟨-, h⟩ := h
    · cases h
    · exact (IssuePlan.run.inj h).1.symm

theorem rebuildStacks_ne_run (s t : State) (x : Site) (i : Instr) : rebuildStacks s x ≠ .run t i := by
  simp only [rebuildStacks]
  repeat' split
  all_goals exact IssuePlan.noConfusion

/-- An instruction that the fetch gives is issued where a warp stands in the slot. -/
theorem siteOf_of_planAt_run {s t : State} {i : Instr} (h : planAt s = .run t i) : siteOf t ≠ none := by
  simp only [planAt] at h
  split at h
  · cases h
  next y hy =>
    split at h
    · exact absurd h (rebuildStacks_ne_run _ _ _ _)
    split at h
    next s' _ _ pa _ hc =>
      have hfetched : KeepsIssuing s t :=
        state_eq_of_checkWord_run h ▸ (keepsIssuing_checkLanes hc).trans (keepsIssuing_readCode s' y.ref.core pa 16)
      rw [hfetched.siteOf_eq, hy]
      exact Option.some_ne_none y
    all_goals cases h

theorem siteOf_of_issuePlan_run {s t : State} {core part slot : Nat} {i : Instr} (h : issuePlan s core part slot = .run t i) :
    siteOf t ≠ none := by
  unfold issuePlan at h
  split at h
  · cases h
  · exact siteOf_of_planAt_run h

/-! ### Moves -/

/-- Every move of the device goes on: an instruction is issued where a warp stands, and no other move can stop. -/
theorem runMove_runs (mv : Move) (s : State) : Runs (runMove mv s) := by
  cases mv with
  | issue core part slot =>
    unfold runMove
    dsimp only
    split
    · exact ⟨_, rfl⟩
    · exact ⟨_, rfl⟩
    next h => exact settle_runs (exec_runs (siteOf_of_issuePlan_run h) _)
  | event i =>
    cases hw : Instr.word? i with
    | none =>
      simp only [runMove, hw, Option.isSome_none, Bool.false_eq_true, if_false]
      exact settle_runs (exec_runs_of_no_word hw s)
    | some opw => exact ⟨s, by simp only [runMove, hw, Option.isSome_some, if_true]⟩
  | _ => exact ⟨_, rfl⟩

/-- Settles O59: the fetch that gives an instruction leaves its warp in the slot, and only an instruction without a warp stops. -/
theorem stepGoesOn : Obligations.StepGoesOn := by
  intro s
  unfold step
  split
  · exact runMove_runs _ _
  · exact runMove_runs _ _

end Sys2Proof.Machine
end

section
/-! What the shared checks answer before an instruction's meaning (R12): the branch that each of them takes, and what waiting or
parking then leaves of the warp (R65, R71, R178, R292, R299). -/

namespace Sys2Proof.Machine

/-- A site is found before any lane of it is chosen. -/
theorem siteOf_act {s : State} {y : Site} (h : siteOf s = some y) : y.act = 0 := by
  unfold siteOf at h
  repeat' split at h
  all_goals cases h
  rfl

/-! ### The branches of the checks -/

section
variable {i : Instr} {w : Enc} {s : State} {y : Site}

theorem gate_of_mustReconverge (hy : siteOf s = some y) (h : (warpWide i && mustReconverge y.wp y.rn.path y.pa) = true) :
    gate i w s = .reconverge y := by
  simp only [gate, hy, h, if_true]

theorem gate_of_guardEmpty (hy : siteOf s = some y) (h : (warpWide i && mustReconverge y.wp y.rn.path y.pa) = false)
    (hg : guardEmpty y.wp w.guard = true) : gate i w s = .wait y := by
  simp only [gate, hy, h, hg, Bool.false_eq_true, if_false, if_true]

/-- Past reconvergence and guard, with an active lane, the checks are privilege, empty registers and sources, in this order. -/
theorem gate_of_active (hy : siteOf s = some y) (h : (warpWide i && mustReconverge y.wp y.rn.path y.pa) = false)
    (hg : guardEmpty y.wp w.guard = false) {x : Site} (hx : x = { y with act := activeLanes i w y }) (ha : x.act ≠ 0) :
    gate i w s =
      if needsSys s x i && !ctxSys s x.cr.ctx then
        .trap x { code := 0x02, tx := BitVec.ofNat 32 (match Instr.word? i with | some (op, _) => op | none => 0), mask := x.act }
      else if mustWait i w s x then .wait x
      else match sourceTrap i w s x with
        | some t => .trap x t
        | none => .go x := by
  subst hx
  simp only [gate, hy, h, hg, Bool.false_eq_true, if_false]
  exact if_neg ha

end

/-! ### What waiting and parking leave -/

/-- A warp that parks for reconvergence has ended its run; its other paths stand. -/
theorem runEnded_reconverge (y : Site) : RunEnded y y.wp { y.wp with
    run := none
    paths := kvSet y.wp.paths y.rn.path { y.pa with st := .reconverge, resume := none }
    lastLow := some (lowLane (y.pa.mask &&& y.wp.live)), afterSplit := [], readySince := none } :=
  ⟨rfl, rfl, rfl, fun _ _ hk hp => (kvGet_kvSet_ne hk).trans hp⟩

theorem kvMap_id {α : Type} (m : KV α) : kvMap m (fun _ v => v) = m := by
  simp [kvMap]

/-- An abandoned ray's answer is a message: memory stays. -/
theorem abandonRays_mem (s : State) (ctx : Nat) (wp : Warp) (m : Mask) : (abandonRays s ctx wp m).1.mem = s.mem := by
  simp only [abandonRays]
  refine List.foldlRecOn (motive := fun t : State => t.mem = s.mem) wp.rays _ rfl fun t ht e _ => ?_
  split
  · split
    · exact ht
    · exact ht
  · exact ht

/-- Without a lane no ray is abandoned. -/
theorem abandonRays_zero (s : State) (ctx : Nat) (wp : Warp) : abandonRays s ctx wp 0 = (s, wp) := by
  have hnone (l : Nat) : (0 : Mask).getLsbD l = false := BitVec.getLsbD_zero
  simp only [abandonRays, hnone, Bool.false_and, Bool.false_eq_true, if_false, kvMap_id]
  refine congrArg (·, wp) (List.foldl_fixed' (fun e => ?_) wp.rays)
  split
  · rfl
  · rfl

/-- An abandoned ray is a `.cand` ray of the given lanes; the others stand. -/
theorem abandonRays_rays (s : State) (ctx : Nat) (wp : Warp) (m : Mask) (k : Nat) (q : LaneRay) (h : kvGet wp.rays k = some q) :
    kvGet (abandonRays s ctx wp m).2.rays k = some q ∨ (m.getLsbD k = true ∧ q.cand = true ∧
      kvGet (abandonRays s ctx wp m).2.rays k = some { q with abandoned := true, offer := none }) := by
  have hk : kvGet (abandonRays s ctx wp m).2.rays k =
      some (if m.getLsbD k && q.cand then { q with abandoned := true, offer := none } else q) := by
    simp only [abandonRays, kvGet_kvMap, h, Option.map_some]
  by_cases hm : (m.getLsbD k && q.cand) = true
  · rw [if_pos hm] at hk
    rw [Bool.and_eq_true] at hm
    exact .inr ⟨hm.1, hm.2, hk⟩
  · rw [if_neg hm] at hk
    exact .inl hk

/-- What a site that waits has abandoned: the rays of its active lanes, or, at any other instruction, nothing (R292, R299). -/
theorem abandoning_eq (x : Site) (i : Instr) (s : State) :
    x.abandoning i s = ({ x with wp := (abandonRays s x.cr.ctx x.wp x.act).2 }, (abandonRays s x.cr.ctx x.wp x.act).1) ∨
    x.abandoning i s = (x, s) := by
  simp only [Site.abandoning]
  exact ite_eq_or_eq _ _ _

theorem abandoning_of_no_lane {x : Site} (h : x.act = 0) (i : Instr) (s : State) : x.abandoning i s = (x, s) := by
  obtain h' | h' := abandoning_eq x i s
  · rw [h', h, abandonRays_zero, ← h]
  · exact h'

theorem abandoning_of_other {i : Instr} (h : ∀ v, i ≠ .trace v ∧ i ≠ .exit v ∧ i ≠ .reform v) (x : Site) (s : State) :
    x.abandoning i s = (x, s) := by
  simp only [Site.abandoning]
  split
  next v => exact absurd rfl (h v).1
  next v => exact absurd rfl (h v).2.1
  next v => exact absurd rfl (h v).2.2
  · rfl

/-- What waiting leaves of memory, registers and rays. -/
theorem abandoning_frame (x : Site) (i : Instr) (s : State) :
    (x.abandoning i s).2.mem = s.mem ∧ (x.abandoning i s).1.wp.regs = x.wp.regs ∧
    ∀ k q, kvGet x.wp.rays k = some q → kvGet (x.abandoning i s).1.wp.rays k = some q ∨
      (x.act.getLsbD k = true ∧ q.cand = true ∧
        kvGet (x.abandoning i s).1.wp.rays k = some { q with abandoned := true, offer := none }) := by
  obtain h | h := abandoning_eq x i s
  · rw [h]
    exact ⟨abandonRays_mem _ _ _ _, rfl, abandonRays_rays s x.cr.ctx x.wp x.act⟩
  · rw [h]
    exact ⟨rfl, rfl, fun k q hq => .inl hq⟩

/-! ### The answers of the checks -/

section
variable {i : Instr} {w : Enc} {s : State} (body : Site → State → Act)

theorem issueInstr_reconverge {x : Site} (h : gate i w s = .reconverge x) :
    issueInstr i w s body = .next (setWarp s x.ref.crew x.ref.warp x.park) := by
  simp only [issueInstr, h, Site.put]

theorem issueInstr_wait {x : Site} (h : gate i w s = .wait x) :
    Waits (issueInstr i w s body) (x.abandoning i s).2 (x.abandoning i s).1 := by
  simp only [Waits, issueInstr, h, Act.state, Site.put]

theorem issueInstr_trap {x : Site} {t : TrapInfo} (h : gate i w s = .trap x t) : Traps (issueInstr i w s body) s x t := by
  simp only [Traps, issueInstr, h]

end

/-- Settles O56: each clause is the branch of the checks that its hypotheses choose. -/
theorem issueChecks : Obligations.IssueChecks := by
  intro i op w s y hw hy x aside priv
  obtain ⟨body, hbody⟩ := exec_issues_word hw s
  rw [hbody]
  have hactive (ha : aside = false) (hg : guardEmpty y.wp w.guard = false) (hx : x.act ≠ 0) :=
    gate_of_active hy ha hg (x := x) rfl hx
  have hwait (ha : aside = false) (hg : guardEmpty y.wp w.guard = false) (hx : x.act ≠ 0) (hp : priv = false)
      (hm : mustWait i w s x = true) : Waits (issueInstr i w s body) (x.abandoning i s).2 (x.abandoning i s).1 :=
    issueInstr_wait body ((hactive ha hg hx).trans (by rw [if_neg (ne_true_of_eq_false hp), if_pos hm]))
  refine ⟨fun ha => ?_, fun ha hg => ?_, fun ha hg hx hp => ?_, fun ha hg hx hp hm ho => ?_, fun ha hg hx hp hm => ?_,
    fun t ha hg hx hp hm ht => ?_⟩
  · exact ⟨_, issueInstr_reconverge body (gate_of_mustReconverge hy ha), runEnded_reconverge y, kvGet_kvSet_same _ _ _⟩
  · have h := issueInstr_wait body (gate_of_guardEmpty hy ha hg)
    rwa [abandoning_of_no_lane (siteOf_act hy)] at h
  · refine issueInstr_trap body ((hactive ha hg hx).trans ?_)
    rw [if_pos hp, hw]
  · have h := hwait ha hg hx hp hm
    rwa [abandoning_of_other ho] at h
  · exact ⟨hwait ha hg hx hp hm, abandoning_frame x i s⟩
  · refine issueInstr_trap body ((hactive ha hg hx).trans ?_)
    rw [if_neg (ne_true_of_eq_false hp), if_neg (ne_true_of_eq_false hm), ht]

end Sys2Proof.Machine
end

section
/-! What O60 is about (R24, R188, R189, R403): where a state keeps the canonical form of every memory, and where the state inside an answer
of the model's functions does. -/

namespace Sys2Proof.Machine

/-! ### The states inside answers

`X.memoriesWf` says of an answer of type X that the state it carries, if it carries one, keeps the canonical form of every memory. -/

def Act.memoriesWf : Act → Prop
  | .done _ s | .ended s | .block _ s | .trap _ _ s => s.memoriesWf

def Arrival.memoriesWf : Arrival → Prop
  | .taken s | .later s => s.memoriesWf

def Await.memoriesWf : Await → Prop
  | .again s | .on s _ => s.memoriesWf
  | .fails _ => True

def Touch.memoriesWf : Touch → Prop
  | .ok s _ | .wait s => s.memoriesWf
  | .fault _ _ => True

def AgentTouch.memoriesWf : AgentTouch → Prop
  | .ok s _ | .wait s => s.memoriesWf
  | .fault _ _ _ => True

def AgentRead.memoriesWf : AgentRead → Prop
  | .ok s _ | .wait s => s.memoriesWf
  | .fault _ _ _ => True

def BusTouch.memoriesWf : BusTouch → Prop
  | .ok s | .fault s _ _ | .wait s => s.memoriesWf

def FiltTouch.memoriesWf : FiltTouch → Prop
  | .ok s _ | .wait s => s.memoriesWf
  | .fault _ _ => True

def Checked.memoriesWf : Checked → Prop
  | .ok s _ | .wait s _ => s.memoriesWf
  | .trap _ => True

def SyncLoad.memoriesWf : SyncLoad → Prop
  | .ok s _ | .wait _ s => s.memoriesWf
  | .trap _ => True

def Pushed.memoriesWf : Pushed → Prop
  | .ok _ s | .wait _ s => s.memoriesWf
  | .trap _ => True

def Performed.memoriesWf : Performed → Prop
  | .done s _ _ | .wait s => s.memoriesWf

def Reads.memoriesWf : Reads → Prop
  | .ok s _ | .fault s _ | .wait s => s.memoriesWf

def LaunchRead.memoriesWf : LaunchRead → Prop
  | .ok s _ | .fault s _ | .wait s => s.memoriesWf

def SemRead.memoriesWf : SemRead → Prop
  | .holds s | .waits s | .later s => s.memoriesWf
  | .fault _ => True

def StartTry.memoriesWf : StartTry → Prop
  | .runs s _ | .done s | .fails s _ _ | .wait s => s.memoriesWf

def RangeTry.memoriesWf : RangeTry → Prop
  | .done s _ => s.memoriesWf
  | .wait => True

def RayTry.memoriesWf : RayTry → Prop
  | .ok s | .wait s => s.memoriesWf

def QLook.memoriesWf : QLook → Prop
  | .at_ s _ | .wait s | .fails s => s.memoriesWf

def EntryLook.memoriesWf : EntryLook → Prop
  | .at_ s _ | .refused s | .wait s => s.memoriesWf

def RootLook.memoriesWf : RootLook → Prop
  | .valid s | .invalid s | .wait s => s.memoriesWf

def ViewTry.memoriesWf : ViewTry → Prop
  | .ok s | .wait s => s.memoriesWf

def Append.memoriesWf : Append → Prop
  | .done s | .wait s _ _ | .fault s _ _ => s.memoriesWf

def PutEnd.memoriesWf : PutEnd → Prop
  | .ended s _ _ | .wait s => s.memoriesWf

def IssuePlan.memoriesWf : IssuePlan → Prop
  | .idle s | .stopped s | .run s _ => s.memoriesWf

def Rearm.memoriesWf (a : Rearm) : Prop := a.s.memoriesWf

def SomeWf : Option State → Prop
  | some s => s.memoriesWf
  | none => True

def SomeSndWf {α : Type} : Option (α × State) → Prop
  | some (_, s) => s.memoriesWf
  | none => True

def NextWf : Host.Outcome State Fault Refusal → Prop
  | .next s => s.memoriesWf
  | _ => True

/-! ### What keeps the form -/

variable {s : State}

/-- A state with the same memory, tier and crews keeps the form. -/
theorem State.memoriesWf.frame {t : State} (h : s.memoriesWf) (hm : t.mem = s.mem := by rfl) (ht : t.tier = s.tier := by rfl)
    (hc : t.crews = s.crews := by rfl) : t.memoriesWf := by
  obtain ⟨hmem, htier, hcrews⟩ := h
  exact ⟨hm ▸ hmem, ht ▸ htier, hc ▸ hcrews⟩

theorem wf_fst_ite {α : Type} {c : Prop} [Decidable c] {a b : State × α} (ha : a.1.memoriesWf) (hb : b.1.memoriesWf) :
    (if c then a else b).1.memoriesWf := by
  split
  · exact ha
  · exact hb

theorem wf_ite {c : Prop} [Decidable c] {a b : State} (ha : a.memoriesWf) (hb : b.memoriesWf) :
    (if c then a else b).memoriesWf := by
  split
  · exact ha
  · exact hb

theorem wf_foldl {α : Type} {f : State → α → State} {l : List α} (hf : ∀ {t a}, t.memoriesWf → (f t a).memoriesWf)
    (h : s.memoriesWf) : (l.foldl f s).memoriesWf :=
  List.foldlRecOn (motive := State.memoriesWf) l f h fun _ ht _ _ => hf ht

theorem memory_wf_nil : Memory.wf [] := ⟨.nil, fun _ hc => nomatch hc⟩

/-! ### Crews -/

theorem scratch_wf_of_kvGet {k c} (h : s.memoriesWf) (hc : kvGet s.crews k = some c) : Memory.wf c.scratch :=
  h.2.2 _ (kvGet_mem hc)

theorem wf_kvMapCrews {f : Nat → Crew → Crew} (h : s.memoriesWf)
    (hf : ∀ k c, Memory.wf c.scratch → Memory.wf (f k c).scratch) :
    { s with crews := kvMap s.crews f }.memoriesWf := by
  obtain ⟨hmem, htier, hcrews⟩ := h
  refine ⟨hmem, htier, fun e he => ?_⟩
  obtain ⟨d, hd, rfl⟩ := List.mem_map.1 he
  exact hf _ _ (hcrews d hd)

theorem wf_kvSetCrews {k c} (h : s.memoriesWf) (hc : Memory.wf c.scratch) : { s with crews := kvSet s.crews k c }.memoriesWf := by
  obtain ⟨hmem, htier, hcrews⟩ := h
  refine ⟨hmem, htier, fun e he => ?_⟩
  obtain rfl | he := kvSet_mem he
  · exact hc
  · exact hcrews e he

theorem wf_kvFilterCrews {p : Nat → Crew → Bool} (h : s.memoriesWf) : { s with crews := kvFilter s.crews p }.memoriesWf := by
  obtain ⟨hmem, htier, hcrews⟩ := h
  exact ⟨hmem, htier, fun e he => hcrews e (List.mem_of_mem_filter he)⟩

end Sys2Proof.Machine
end

section
/-! Home memory, the capacity tier and scratch through the operations that every agent shares (R24, R188, R189, R403): the warp's site,
frames on the ports, home bytes, caches and accesses. A lemma `wf_f` states that f keeps the canonical form of every memory; its proof
follows the branches of f. Where f answers more than a state, the lemma speaks of an answer `out` that f is known to give, so that it takes
the equation of a case split. -/

namespace Sys2Proof.Machine

variable {s : State}

/-! ### The issuing warp -/

theorem wf_setWarp {k n wp} (h : s.memoriesWf) : (setWarp s k n wp).memoriesWf := by
  obtain ⟨hmem, htier, hcrews⟩ := h
  exact ⟨hmem, htier, setWarp_scratch_wf hcrews k n wp⟩

theorem wf_setCore {id c} (h : s.memoriesWf) : (setCore s id c).memoriesWf :=
  h

theorem wf_setCtx {id c} (h : s.memoriesWf) : (setCtx s id c).memoriesWf :=
  h

theorem wf_setLaunch {id l} (h : s.memoriesWf) : (setLaunch s id l).memoriesWf :=
  h

theorem wf_modCrew {k f} (h : s.memoriesWf) (hf : ∀ c, Memory.wf c.scratch → Memory.wf (f c).scratch) :
    (modCrew s k f).memoriesWf := by
  obtain ⟨hmem, htier, hcrews⟩ := h
  exact ⟨hmem, htier, modCrew_scratch_wf hcrews k f hf⟩

/-! ### Frames, notices and records sent -/

theorem wf_setPort {p x} (h : s.memoriesWf) : (setPort s p x).memoriesWf :=
  h

theorem wf_pumpPort {n} (h : s.memoriesWf) : (pumpPort s n).memoriesWf :=
  wf_ite (wf_setPort h) h

theorem wf_sendFrame {n f} (h : s.memoriesWf) : (sendFrame s n f).memoriesWf :=
  wf_pumpPort (wf_setPort h)

theorem wf_sendEmpty {n t} (h : s.memoriesWf) : (sendEmpty s n t).memoriesWf :=
  wf_setPort h

theorem wf_takeFrames {n frames vc flits} (h : s.memoriesWf) : (takeFrames s n frames vc flits).memoriesWf :=
  wf_ite (wf_pumpPort (wf_setPort h)) (wf_sendEmpty (wf_pumpPort (wf_setPort h)))

theorem wf_sendHost {t bytes} (h : s.memoriesWf) : (sendHost s t bytes).memoriesWf :=
  wf_sendFrame h

theorem wf_noticeDone {ctx queue tag completed} (h : s.memoriesWf) : (noticeDone s ctx queue tag completed).memoriesWf :=
  wf_sendHost h

theorem wf_noticeResidency {ctx launch crew va reason} (h : s.memoriesWf) :
    (noticeResidency s ctx launch crew va reason).memoriesWf :=
  wf_sendHost h

theorem wf_answer {op status reason tok result} (h : s.memoriesWf) : (answer s op status reason tok result).memoriesWf :=
  wf_sendHost h

theorem wf_hostTry {flits who op} (h : s.memoriesWf) (hop : ∀ {t}, t.memoriesWf → (op t).memoriesWf) :
    (hostTry s flits who op).memoriesWf := by
  dsimp only [hostTry]
  split
  · exact h
  · split
    · exact wf_takeFrames (wf_answer h)
    · have hdone := hop h
      split
      next ht => rw [ht] at hdone; exact wf_takeFrames hdone
      next ht => rw [ht] at hdone; exact hdone

theorem wf_hostOp {flits who op} (h : s.memoriesWf) (hop : ∀ {t}, t.memoriesWf → (op t).memoriesWf) :
    (hostOp s flits who op).memoriesWf :=
  wf_hostTry h (fun ht => hop ht)

theorem wf_postRecord {ctx r} (h : s.memoriesWf) : (postRecord s ctx r).memoriesWf :=
  wf_sendHost h

theorem wf_postAgent {ctx kind code va tx warp} (h : s.memoriesWf) : (postAgent s ctx kind code va tx warp).memoriesWf :=
  wf_postRecord h

/-! ### Checks, traps and the ends of runs -/

theorem Crew.ask_scratch (c : Crew) (why : SaveWhy) : (c.ask why).scratch = c.scratch := by
  unfold Crew.ask
  extract_lets stands
  split <;> rfl

theorem wf_askSave {crew why} (h : s.memoriesWf) : (askSave s crew why).memoriesWf :=
  wf_modCrew h fun c hc => (c.ask_scratch why).symm ▸ hc

theorem wf_dropVersions {ctx} (h : s.memoriesWf) : (dropVersions s ctx).memoriesWf := by
  refine wf_kvMapCrews h fun k c hc => ?_
  split
  · exact hc
  · exact hc

theorem wf_faultContext {ctx} (h : s.memoriesWf) : (faultContext s ctx).memoriesWf := by
  refine wf_ite (wf_kvMapCrews h fun k c hc => ?_) h
  split
  · rwa [Crew.ask_scratch]
  · exact hc

theorem wf_discardVersions {launch wp m} (h : s.memoriesWf)
    {out} (hr : discardVersions s launch wp m = out) : out.1.memoriesWf := by
  subst hr
  dsimp only [discardVersions]
  split
  · exact wf_setLaunch h
  · exact h

theorem wf_routeTrap {x wp t record isCall again} (h : s.memoriesWf) : (routeTrap s x wp t record isCall again).memoriesWf :=
  have hset {v} := wf_setWarp (k := x.ref.crew) (n := x.ref.warp) (wp := v) h
  wf_ite hset (wf_ite (wf_noticeResidency (wf_modCrew (wf_askSave hset) fun _ hc => hc))
    (wf_ite (wf_faultContext (wf_postRecord (wf_askSave hset))) hset))

theorem wf_takeTrap {x t isCall again} (h : s.memoriesWf) : (takeTrap s x t isCall again).memoriesWf := by
  unfold takeTrap
  extract_lets t' src x'
  split
  next hdrop =>
    have hdropped := wf_fst_ite (c := (again.isNone && t'.code != 0x03) = true)
      (wf_discardVersions (launch := x'.cr.launch) (wp := x'.wp) (m := t'.mask) h rfl) (b := (s, x'.wp, false)) h
    rw [hdrop] at hdropped
    exact wf_ite (wf_setWarp hdropped) (wf_routeTrap hdropped)

theorem wf_stateNewId (h : s.memoriesWf) {out} (hr : State.newId s = out) : out.2.memoriesWf :=
  hr ▸ h

theorem wf_postMsg {m} (h : s.memoriesWf) : (postMsg s m).memoriesWf :=
  h

theorem wf_abandonRays {ctx wp m} (h : s.memoriesWf) {out} (hr : abandonRays s ctx wp m = out) : out.1.memoriesWf := by
  subst hr
  dsimp only [abandonRays]
  refine wf_foldl ?_ h
  intro _ _ ht
  split
  · exact wf_ite (wf_postMsg ht) ht
  · exact ht

theorem wf_siteAbandoning {x i} (h : s.memoriesWf) {out} (hr : Site.abandoning x i s = out) : out.2.memoriesWf := by
  subst hr
  obtain hgo | hstay := abandoning_eq x i s
  · rw [hgo]
    exact wf_abandonRays h rfl
  · rwa [hstay]

theorem wf_sitePut {x wp} (h : s.memoriesWf) : (Site.put x s wp).memoriesWf :=
  wf_setWarp h

theorem wf_actState {w a} (h : a.memoriesWf) : (Act.state w a).memoriesWf := by
  cases a with
  | done x t => exact wf_sitePut h
  | ended t => exact h
  | block x t => exact wf_sitePut h
  | trap x i t => exact wf_takeTrap h

theorem wf_issueInstr {i w body} (h : s.memoriesWf) (hbody : ∀ {x t}, t.memoriesWf → (body x t).memoriesWf) :
    NextWf (issueInstr i w s body) := by
  dsimp only [issueInstr]
  split
  · exact trivial
  · exact wf_actState (wf_siteAbandoning h rfl)
  · exact wf_sitePut h
  · exact wf_takeTrap h
  · exact wf_actState (hbody h)

theorem wf_onSite {f x} (h : s.memoriesWf) {out} (hr : onSite f x s = out) : out.memoriesWf :=
  hr ▸ h

theorem wf_aluD {i w wide f} (h : s.memoriesWf) : NextWf (aluD i w s wide f) :=
  wf_issueInstr h (fun ht => wf_onSite ht rfl)

theorem wf_aluP {i w f} (h : s.memoriesWf) : NextWf (aluP i w s f) :=
  wf_issueInstr h (fun ht => wf_onSite ht rfl)

theorem wf_fpuD {i w f} (h : s.memoriesWf) : NextWf (fpuD i w s f) :=
  wf_issueInstr h (fun ht => wf_onSite ht rfl)

/-! ### Home memory, pieces, frames and first touches -/

theorem wf_setTag {blk t} (h : s.memoriesWf) : (setTag s blk t).memoriesWf :=
  h

theorem wf_homePuts {pa l} (h : s.memoriesWf) : (homePuts s pa l).memoriesWf := by
  obtain ⟨hmem, htier, hcrews⟩ := h
  have hothers := homePuts_others s pa l
  exact ⟨homePuts_wf hmem pa l, (congrArg State.tier hothers).symm ▸ htier, (congrArg State.crews hothers).symm ▸ hcrews⟩

theorem wf_homePut {pa b} (h : s.memoriesWf) : (homePut s pa b).memoriesWf :=
  wf_homePuts (l := [b]) h

theorem wf_homeRaw {pa b} (h : s.memoriesWf) : (homeRaw s pa b).memoriesWf := by
  obtain ⟨hmem, htier, hcrews⟩ := h
  exact ⟨cellSet_wf hmem pa b, htier, hcrews⟩

theorem wf_homeZero {lo hi} (h : s.memoriesWf) : (homeZero s lo hi).memoriesWf := by
  obtain ⟨hmem, htier, hcrews⟩ := h
  exact ⟨homeZero_wf hmem lo hi, htier, hcrews⟩

theorem wf_writeLeaf {leaf ps} (h : s.memoriesWf) : (writeLeaf s leaf ps).memoriesWf :=
  wf_homePuts (wf_homePuts h)

theorem wf_replaceSlot {x ps} (h : s.memoriesWf) {out} (hr : replaceSlot s x ps = out) : SomeWf out := by
  subst hr
  dsimp only [replaceSlot]
  split
  · exact wf_writeLeaf h
  · exact trivial

theorem wf_setSlot {x p} (h : s.memoriesWf) : (setSlot s x p).memoriesWf := by
  dsimp only [setSlot]
  cases hr : replaceSlot s x [p] with
  | none => exact h
  | some t => exact wf_replaceSlot h hr

theorem wf_splitUnit {x va f lo hi t} (h : s.memoriesWf) (hr : splitUnit s x va f = some (lo, hi, t)) : t.memoriesWf := by
  simp only [splitUnit] at hr
  split at hr
  next hslot => cases hr; exact wf_replaceSlot h hslot
  · split at hr
    · cases hr; exact wf_setSlot h
    · cases hr

theorem wf_takeFrom {r b fuel} (h : s.memoriesWf) {out} (hr : takeFrom r b fuel s = out) : SomeSndWf out := by
  induction fuel generalizing s with
  | zero => subst hr; trivial
  | succ fuel ih =>
    simp only [takeFrom] at hr
    have hput := wf_homePuts (pa := b + 8) (l := leBytes 8 (homeNat s (b + 8) 8 + 1))
      (wf_homePuts (pa := ringEntry b (homeNat s (b + 8) 8)) (l := leBytes 8 0) h)
    split at hr
    · split at hr
      · subst hr; exact hput
      · exact ih hput.frame hr
    · subst hr; trivial

theorem wf_takeFrame {r} (h : s.memoriesWf) {out} (hr : takeFrame s r = out) : SomeSndWf out := by
  unfold takeFrame at hr
  split at hr
  · subst hr; trivial
  · exact wf_takeFrom h hr

theorem wf_storeGive {g} (h : s.memoriesWf) : (storeGive s g).memoriesWf := by
  dsimp only [storeGive]
  split
  · exact h
  · exact wf_ite (wf_homePuts h) h

theorem wf_settleGives (h : s.memoriesWf) : (settleGives s).memoriesWf :=
  wf_foldl (fun ht => wf_storeGive ht) h

theorem wf_giveFrame {r pa} (h : s.memoriesWf) : (giveFrame s r pa).memoriesWf := by
  dsimp only [giveFrame]
  split
  · exact h
  · exact wf_settleGives ((wf_homePuts h).frame)

theorem wf_takeLocal {r} (h : s.memoriesWf) {out} (hr : takeLocal s r = out) : SomeSndWf out := by
  cases out with
  | none => trivial
  | some frame =>
    obtain ⟨k, -, hk⟩ := List.exists_of_findSome?_eq_some hr
    exact wf_takeFrame h hk

theorem wf_dropTables {ctx lo hi} (h : s.memoriesWf) : (dropTables s ctx lo hi).memoriesWf :=
  h

theorem wf_noteResident {ctx lo hi} (h : s.memoriesWf) : (noteResident s ctx lo hi).memoriesWf :=
  h

theorem wf_placeAt {ctx x va frame} (h : s.memoriesWf) {out} (hr : placeAt s ctx x va frame = out) : SomeWf out := by
  subst hr
  dsimp only [placeAt]
  split
  · trivial
  next hr => exact wf_homeZero (wf_noteResident (wf_splitUnit h hr))

theorem wf_firstTouch {ctx va ring x} (h : s.memoriesWf) {out} (hr : firstTouch s ctx va ring x = out) : out.memoriesWf := by
  subst hr
  dsimp only [firstTouch]
  split
  · exact trivial
  · split
    · exact h
    · split
      next hr =>
        split
        next hr1 => exact wf_placeAt (wf_takeLocal h hr) hr1
        · exact trivial
      · exact h

theorem wf_takeRing {ring v} (h : s.memoriesWf) (hr : (if ring = 8 then takeFrame s 8 else takeLocal s ring) = some v) :
    v.2.memoriesWf := by
  split at hr
  · exact wf_takeFrame h hr
  · exact wf_takeLocal h hr

theorem wf_startRecall {ctx va ring x} (h : s.memoriesWf) {out} (hr : startRecall s ctx va ring x = out) : out.memoriesWf := by
  subst hr
  dsimp only [startRecall]
  split
  · trivial
  next hr =>
    have hid := wf_stateNewId (wf_splitUnit h hr) rfl
    split
    next hframe => exact (wf_takeRing hid hframe).frame
    · exact hid

/-! ### Caches, releases and translation -/

theorem wf_putSector {core blk x} (h : s.memoriesWf) : (putSector s core blk x).memoriesWf :=
  wf_setCore h

theorem wf_dropSector {core blk} (h : s.memoriesWf) : (dropSector s core blk).memoriesWf :=
  wf_setCore h

theorem wf_writeBack {core blk} (h : s.memoriesWf) : (writeBack s core blk).memoriesWf := by
  dsimp only [writeBack]
  split
  · exact h
  · exact wf_putSector (wf_ite (wf_setTag (wf_foldl (fun ht => wf_homePut ht) h)) (wf_foldl (fun ht => wf_homePut ht) h))

theorem wf_flushSector {core blk} (h : s.memoriesWf) : (flushSector s core blk).memoriesWf :=
  wf_dropSector (wf_writeBack h)

theorem wf_releaseStep {core sc} (h : s.memoriesWf) : (releaseStep s core sc).memoriesWf :=
  wf_foldl (fun ht => wf_writeBack ht) h

theorem wf_acquireStep {core sc} (h : s.memoriesWf) : (acquireStep s core sc).memoriesWf :=
  wf_setCore h

theorem wf_allocWay {core blk} (h : s.memoriesWf) {out} (hr : allocWay s core blk = out) : out.1.memoriesWf := by
  subst hr
  dsimp only [allocWay]
  split
  · exact h
  · exact wf_foldl (fun ht => wf_flushSector ht) (wf_setCore h)

theorem wf_takeSector {core blk tag} (h : s.memoriesWf) {out} (hr : takeSector s core blk tag = out) : out.1.memoriesWf :=
  hr ▸ wf_allocWay h rfl

theorem wf_filled {core blk sc} (h : s.memoriesWf) {out} (hr : filled s core blk sc = out) : out.1.memoriesWf :=
  hr ▸ wf_putSector (wf_takeSector (tag := 0) h rfl)

theorem wf_l1Load {core sc pa n} (h : s.memoriesWf) {out} (hr : l1Load s core sc pa n = out) : out.1.memoriesWf := by
  subst hr
  dsimp only [l1Load]
  split
  · split
    · exact h
    · exact wf_filled h rfl
  · exact wf_filled h rfl

theorem wf_l1Store {core sc pa bs whole} (h : s.memoriesWf) : (l1Store s core sc pa bs whole).memoriesWf := by
  dsimp only [l1Store]
  split
  · exact wf_putSector (wf_takeSector h rfl)
  · split
    · exact wf_ite (wf_setTag (wf_homePuts h)) (wf_homePuts h)
    · exact wf_putSector (wf_ite (wf_setTag (wf_homePuts h)) (wf_homePuts h))

theorem wf_flushExtent {lo hi} (h : s.memoriesWf) : (flushExtent s lo hi).memoriesWf :=
  wf_foldl (fun ht => wf_foldl (fun hu => wf_flushSector hu) ht) h

theorem wf_notePiece {core ctx p} (h : s.memoriesWf) : (notePiece s core ctx p).memoriesWf :=
  wf_setCore h

theorem wf_touch {core ctx perm va ring} (h : s.memoriesWf)
    {out} (hr : touch s core ctx perm va ring = out) : out.memoriesWf := by
  subst hr
  unfold touch
  extract_lets hit await failed
  have hhit {t pa p} (ht : t.memoriesWf) : (hit t pa p).memoriesWf := by
    dsimp only [hit]
    split
    · exact wf_notePiece ht
    · exact ht
  have hawait {a} (ha : a.memoriesWf) : (await a).memoriesWf := by
    cases a with
    | again t =>
      dsimp only [await]
      split
      · exact hhit ha
      · exact ha
    | on t k => exact ha
    | fails r => trivial
  split
  · trivial
  · split
    · exact hhit h
    · trivial
    · trivial
    · trivial
    · exact hawait (wf_firstTouch h rfl)
    · exact hawait (wf_startRecall h rfl)
    · exact h
    · exact h

theorem wf_touchSpan {core ctx perm ring vas} (h : s.memoriesWf) {out} (hr : touchSpan s core ctx perm ring vas = out) :
    out.1.memoriesWf := by
  subst hr
  induction vas generalizing s with
  | nil => exact h
  | cons va rest ih =>
    dsimp only [touchSpan]
    split
    next hr => exact ih (wf_touch h hr)
    · exact wf_touch h rfl

theorem wf_readCode {core pa n} (h : s.memoriesWf) {out} (hr : readCode s core pa n = out) : out.1.memoriesWf :=
  hr ▸ wf_setCore h

theorem wf_dropCode {core blk} (h : s.memoriesWf) : (dropCode s core blk).memoriesWf :=
  wf_setCore h

theorem wf_clearCode (h : s.memoriesWf) : (clearCode s).memoriesWf :=
  h

theorem wf_scratchPut {crew off bs} (h : s.memoriesWf) : (scratchPut s crew off bs).memoriesWf :=
  wf_modCrew h fun _ hc => cellsSet_wf hc _ _

theorem wf_lanePut {crew off bs} (h : s.memoriesWf) : (lanePut s crew off bs).memoriesWf :=
  wf_scratchPut h

theorem wf_overlayOld {c} (h : s.memoriesWf) : (overlayOld s c).memoriesWf :=
  wf_foldl (fun ht => wf_modCrew ht fun _ hd => cellSet_wf hd _ _) h

theorem wf_underlayNew {before read after c} (h : after.memoriesWf) : (underlayNew before read after c).memoriesWf :=
  wf_foldl (fun ht => wf_ite (wf_modCrew ht fun _ hd => cellSet_wf hd _ _) ht) h

theorem wf_noteWrites {before after cmd} (h : after.memoriesWf) : (noteWrites before after cmd).memoriesWf :=
  h

/-! ### Lane addresses, loads, stores and atomics -/

theorem wf_touchLanes {x sp as} (h : s.memoriesWf) {out} (hr : touchLanes s x sp as = out) : out.1.memoriesWf := by
  subst hr
  induction as generalizing s with
  | nil => exact h
  | cons e rest ih =>
    rw [touchLanes.eq_def]
    dsimp only
    split
    · split
      next hr => exact ih (wf_firstTouch h hr)
      next hr => exact ih (wf_firstTouch h hr)
      · exact ih h
    · split
      next hr => exact ih (wf_startRecall h hr)
      next hr => exact ih (wf_startRecall h hr)
      · exact ih h
    all_goals exact ih h

theorem wf_noteLanes {x sp as} (h : s.memoriesWf) : (noteLanes s x sp as).memoriesWf := by
  have hfold {f : State → Nat × Nat → State} (hf : ∀ t e, t.memoriesWf → (f t e).memoriesWf) : (as.foldl f s).memoriesWf :=
    wf_foldl (fun ht => hf _ _ ht) h
  cases sp with
  | scratch => exact h
  | _ =>
    refine hfold fun t e ht => ?_
    dsimp only
    split
    · exact wf_notePiece ht
    · exact ht

theorem wf_checkLanes {x sp w as} (h : s.memoriesWf) {out} (hr : checkLanes s x sp w as = out) : out.memoriesWf := by
  subst hr
  dsimp only [checkLanes]
  split
  · exact trivial
  · split
    · exact wf_noteLanes h
    · split
      · exact trivial
      · split
        next hr =>
          split
          · exact wf_noteLanes (wf_touchLanes h hr)
          · exact wf_touchLanes h hr
        next hr => exact wf_touchLanes h hr
        next hr => exact trivial

theorem wf_readLoc {core sc pool loc n} (h : s.memoriesWf)
    {out} (hr : readLoc s core sc pool loc n = out) : out.1.memoriesWf := by
  subst hr
  dsimp only [readLoc]
  split
  · split
    · exact h
    · exact wf_l1Load h rfl
  · exact h

theorem wf_storeLane {r sc w vers whole a} (h : s.memoriesWf) : (storeLane s r sc w vers whole a).memoriesWf := by
  dsimp only [storeLane]
  split
  · exact wf_lanePut h
  · split
    · split
      · exact h
      · exact wf_setWarp h
    · exact wf_ite (wf_homePuts h) (wf_l1Store h)

theorem wf_atomicLane {core p code t a} (h : s.memoriesWf)
    {out} (hr : atomicLane s core p code t a = out) : out.1.memoriesWf := by
  subst hr
  dsimp only [atomicLane]
  split
  · exact wf_lanePut h
  · split
    · exact wf_flushSector h
    · exact wf_homePuts (wf_flushSector h)

theorem wf_atomicAt {r p code t dst a} (h : s.memoriesWf)
    {out} (hr : atomicAt s r p code t dst a = out) : out.1.memoriesWf := by
  subst hr
  dsimp only [atomicAt]
  split
  next hr => exact wf_atomicLane h hr
  next hr =>
    split
    · exact wf_atomicLane h hr
    · exact wf_setWarp (wf_atomicLane h hr)

theorem wf_atomicLanes {r p code t dst as} (h : s.memoriesWf) {out} (hr : atomicLanes s r p code t dst as = out) :
    out.1.memoriesWf := by
  subst hr
  induction as generalizing s with
  | nil => exact h
  | cons a rest ih =>
    dsimp only [atomicLanes]
    split
    · exact ih h
    · exact ih (wf_atomicAt h rfl)

theorem wf_zeroLane {r vers a} (h : s.memoriesWf) : (zeroLane s r vers a).memoriesWf := by
  dsimp only [zeroLane]
  split
  · exact h
  · split
    · split
      · exact h
      · exact wf_setWarp h
    · split
      · exact wf_homeZero h
      · exact wf_putSector (wf_homeZero h)

theorem wf_flushLane {core inval a} (h : s.memoriesWf) : (flushLane s core inval a).memoriesWf := by
  dsimp only [flushLane]
  split
  · exact h
  · exact wf_ite (wf_flushSector (wf_flushSector h)) (wf_writeBack (wf_writeBack h))

end Sys2Proof.Machine
end

section
/-! The canonical form of every memory through the memory instructions, barriers, items and control flow (R137-R218, R386-R400). -/

namespace Sys2Proof.Machine

variable {s : State}

/-! ### Memory instructions and the return of loads -/

theorem wf_loadBody {w sp sc acq addr x} (h : s.memoriesWf)
    {out} (hr : loadBody w sp sc acq addr x s = out) : out.memoriesWf := by
  subst hr
  dsimp only [loadBody]
  split
  · exact h
  · split
    · exact h
    next hr => exact wf_checkLanes h hr
    next hr =>
      split
      · exact wf_checkLanes h hr
      · split
        · exact wf_checkLanes h hr
        · exact wf_checkLanes h hr

theorem wf_performLane {r wp e vers a} (h : s.memoriesWf)
    {out} (hr : performLane s r wp e vers a = out) : out.1.memoriesWf := by
  subst hr
  dsimp only [performLane]
  split
  · split
    · exact wf_readCode h rfl
    · exact h
  · split
    · exact h
    · exact wf_readLoc h rfl

theorem wf_performLanes {r e vers as} (h : s.memoriesWf) : (performLanes s r e vers as).memoriesWf := by
  induction as generalizing s with
  | nil => exact h
  | cons a rest ih =>
    dsimp only [performLanes]
    split
    · exact h
    · refine ih (wf_setWarp ?_)
      split
      · exact h
      · exact wf_performLane h rfl

theorem wf_execLoadDataReturn {dws k} (h : s.memoriesWf) : NextWf (execLoadDataReturn dws k s) := by
  dsimp only [execLoadDataReturn]
  split
  · exact h
  · split
    · exact h
    · split
      · exact h
      · split
        · exact h
        · split
          · exact wf_ite (wf_acquireStep (wf_performLanes h)) (wf_performLanes h)
          · exact wf_setWarp (wf_ite (wf_acquireStep (wf_performLanes h)) (wf_performLanes h))

theorem wf_storeBody {i w sp n kind dst addr val new x} (h : s.memoriesWf)
    {out} (hr : storeBody i w sp n kind dst addr val new x s = out) : out.memoriesWf := by
  subst hr
  dsimp only [storeBody]
  split
  · exact h
  · split
    · exact h
    · split
      · exact h
      next hr => exact wf_checkLanes h hr
      next hr =>
        split
        · exact wf_checkLanes h hr
        · exact wf_checkLanes h hr

theorem wf_poisonAtomic {w x dst las bad} (h : s.memoriesWf)
    {out} (hr : poisonAtomic w x s dst las bad = out) : out.memoriesWf := by
  subst hr
  dsimp only [poisonAtomic]
  split
  · exact h
  · split
    · exact wf_atomicLanes h rfl
    · exact wf_takeTrap (wf_atomicLanes h rfl)

theorem wf_atomBody {w dst isRed x} (h : s.memoriesWf) {out} (hr : atomBody w dst isRed x s = out) : out.memoriesWf := by
  subst hr
  dsimp only [atomBody]
  split
  · exact h
  · split
    · exact h
    next hr => exact wf_checkLanes h hr
    next hr =>
      split
      · split <;> exact wf_checkLanes h hr
      · exact wf_poisonAtomic (wf_checkLanes h hr) rfl

theorem wf_execAtoms {w} (h : s.memoriesWf) : NextWf (execAtoms w s) := by
  dsimp only [execAtoms]
  refine wf_issueInstr h ?_
  intro _ _ ht
  split
  · exact ht
  · split
    · exact ht
    · split
      · exact ht
      next hr1 => exact wf_checkLanes ht hr1
      next hr1 =>
        split
        · exact wf_checkLanes ht hr1
        · split
          · exact wf_checkLanes ht hr1
          · exact wf_checkLanes ht hr1

theorem wf_execPfetch {w} (h : s.memoriesWf) : NextWf (execPfetch w s) := by
  dsimp only [execPfetch]
  refine wf_issueInstr h ?_
  intro _ _ ht
  split
  · refine wf_foldl ?_ ht
    intro _ _ hu
    split
    · exact wf_filled (wf_filled hu rfl) rfl
    · exact hu
  · exact ht

theorem wf_flushBody {i w inval x} (h : s.memoriesWf) {out} (hr : flushBody i w inval x s = out) : out.memoriesWf :=
  hr ▸ wf_storeBody h rfl

theorem wf_execFence {w} (h : s.memoriesWf) : NextWf (execFence w s) := by
  dsimp only [execFence]
  refine wf_issueInstr h ?_
  intro _ _ ht
  split
  · exact ht
  · split
    · exact ht
    · exact wf_acquireStep (wf_releaseStep ht)

theorem wf_splitReqAnswer {q b} (h : s.memoriesWf) : (SplitReq.answer q s b).memoriesWf := by
  dsimp only [SplitReq.answer]
  split
  · exact h
  · exact wf_setWarp h

theorem wf_serveSplit {core q} (h : s.memoriesWf) {out} (hr : serveSplit s core q = out) : SomeWf out := by
  subst hr
  dsimp only [serveSplit]
  split
  · exact wf_splitReqAnswer h
  split
  · exact wf_splitReqAnswer (wf_modCrew (wf_foldl (fun ht => wf_flushSector ht) h) fun _ hc => cellsClear_wf hc _ _)
  split
  · trivial
  · exact wf_splitReqAnswer (wf_modCrew h fun _ hc => cellsClear_wf hc _ _)

theorem wf_serveSplits {core fuel} (h : s.memoriesWf) : (serveSplits core fuel s).memoriesWf := by
  induction fuel generalizing s with
  | zero => exact h
  | succ fuel ih =>
    dsimp only [serveSplits]
    split
    · exact h
    · split
      · exact h
      next hr => exact ih (wf_setCore (wf_serveSplit h hr))

theorem wf_execCsplit {w} (h : s.memoriesWf) : NextWf (execCsplit w s) := by
  dsimp only [execCsplit]
  refine wf_issueInstr h ?_
  intro _ _ ht
  split
  · exact ht
  · exact wf_serveSplits (wf_setCore (wf_sitePut ht))

/-! ### Barriers and reductions -/

theorem Crew.testBar_scratch (width : Nat) (c : Crew) (k : Nat) : (c.testBar width k).scratch = c.scratch := by
  simp only [Crew.testBar]
  split
  · rfl
  · exact List.foldlRecOn (motive := fun d : Crew => d.scratch = c.scratch) _ _ rfl fun d hd _ _ => hd

theorem wf_testBars {crew} (h : s.memoriesWf) : (testBars s crew).memoriesWf :=
  wf_modCrew h fun _ hc => List.foldlRecOn (motive := fun d : Crew => Memory.wf d.scratch) _ _ hc fun d hd b _ =>
    (d.testBar_scratch _ b).symm ▸ hd

theorem wf_testGroupBar {launch e} (h : s.memoriesWf) : (testGroupBar s launch e).memoriesWf := by
  dsimp only [testGroupBar]
  split
  · exact h
  · refine wf_ite h (wf_ite (wf_setLaunch (wf_kvMapCrews h fun k c hc => ?_)) (wf_setLaunch h))
    split
    · exact hc
    · exact hc

theorem wf_testGred {launch g} (h : s.memoriesWf) : (testGred s launch g).memoriesWf := by
  unfold testGred
  extract_lets l
  split
  · exact h
  · split
    · exact h
    · refine wf_ite (wf_kvMapCrews h fun k c hc => ?_) h
      split
      · exact hc
      · exact hc

theorem wf_unarrive {crew warp m} (h : s.memoriesWf) : (unarrive s crew warp m).memoriesWf :=
  wf_ite (wf_setLaunch (wf_modCrew h fun _ hc => hc)) (wf_modCrew h fun _ hc => hc)

theorem wf_testSync {crew} (h : s.memoriesWf) : (testSync s crew).memoriesWf := by
  dsimp only [testSync]
  split
  · exact h
  · exact wf_foldl (fun ht => wf_testGred ht) (wf_foldl (fun ht => wf_testGroupBar ht) (wf_testBars h))

/-! ### Items and the lanes they fill -/

theorem wf_agentTouch {core ctx perm ring va n} (h : s.memoriesWf) {out} (hr : agentTouch s core ctx perm ring va n = out) :
    out.memoriesWf := by
  subst hr
  unfold agentTouch
  split
  next hr => exact wf_touchSpan h hr
  · trivial
  next hr => exact wf_touchSpan h hr

theorem wf_agentRead {ctx va n} (h : s.memoriesWf) {out} (hr : agentRead s ctx va n = out) : out.memoriesWf := by
  subst hr
  dsimp only [agentRead]
  split
  next hr =>
    split
    · exact trivial
    · exact wf_agentTouch h hr
  · exact trivial
  next hr => exact wf_agentTouch h hr

theorem wf_putBytes {pas bs} (h : s.memoriesWf) : (putBytes s pas bs).memoriesWf :=
  wf_foldl (fun ht => wf_homePut ht) h

theorem wf_queueItem {ctx iq} (h : s.memoriesWf) {out} (hr : queueItem s ctx iq = out) : out.1.memoriesWf := by
  subst hr
  dsimp only [queueItem]
  split
  · exact h
  · split
    next hr =>
      split
      next hr1 =>
        split
        · split
          next hr2 => exact wf_putBytes (wf_agentRead (wf_agentRead (wf_agentTouch h hr) hr1) hr2)
          next hr2 => exact wf_agentRead (wf_agentRead (wf_agentTouch h hr) hr1) hr2
          · exact wf_agentRead (wf_agentTouch h hr) hr1
        · exact wf_agentRead (wf_agentTouch h hr) hr1
      next hr1 => exact wf_agentRead (wf_agentTouch h hr) hr1
      · exact wf_agentTouch h hr
    next hr => exact wf_agentTouch h hr
    · exact h

theorem wf_nextItem {launch} (h : s.memoriesWf) {out} (hr : nextItem s launch = out) : out.1.memoriesWf := by
  subst hr
  dsimp only [nextItem]
  split
  · exact wf_queueItem h rfl
  · split
    · exact wf_setLaunch h
    · exact h

theorem wf_touchSource {l} (h : s.memoriesWf) : (touchSource s l).memoriesWf := by
  dsimp only [touchSource]
  split
  · exact h
  · split
    next hr => exact wf_agentTouch h hr
    next hr => exact wf_agentTouch h hr
    · exact h

theorem wf_fillLanes {launch core path ls wp} (h : s.memoriesWf) {out} (hr : fillLanes launch core path ls s wp = out) :
    out.1.memoriesWf := by
  subst hr
  induction ls generalizing s wp with
  | nil => exact h
  | cons l rest ih =>
    dsimp only [fillLanes]
    split
    next hr => exact wf_nextItem h hr
    next hr => exact ih (wf_ite (wf_acquireStep (wf_nextItem h hr)) (wf_nextItem h hr))

theorem wf_syncLanes {x n as} (h : s.memoriesWf) {out} (hr : syncLanes x n as s = out) : out.1.memoriesWf := by
  subst hr
  induction as generalizing s with
  | nil => exact h
  | cons a rest ih =>
    dsimp only [syncLanes]
    split
    · exact ih h
    · exact ih (wf_performLane h rfl)

/-! ### Control flow and versions -/

theorem wf_siteFinish {x wp} (h : s.memoriesWf) {out} (hr : Site.finish x s wp = out) : out.memoriesWf :=
  hr ▸ wf_sitePut h

theorem wf_siteFallThrough {x w} (h : s.memoriesWf) {out} (hr : Site.fallThrough x w s = out) : out.memoriesWf :=
  hr ▸ wf_siteFinish h rfl

theorem wf_syncLoad {x n as} (h : s.memoriesWf) {out} (hr : syncLoad s x n as = out) : out.memoriesWf := by
  subst hr
  dsimp only [syncLoad]
  split
  · exact trivial
  next hr => exact wf_checkLanes h hr
  next hr =>
    split
    · exact wf_checkLanes h hr
    · split
      · exact trivial
      · exact wf_syncLanes (wf_checkLanes h hr) rfl

theorem wf_sitePushReturn {x lanes v} (h : s.memoriesWf) {out} (hr : Site.pushReturn x s lanes v = out) : out.memoriesWf := by
  subst hr
  dsimp only [Site.pushReturn]
  split
  · exact h
  · split
    · exact trivial
    · split
      · exact h
      · split
        · exact trivial
        next hr => exact wf_checkLanes h hr
        next hr => exact wf_checkLanes h hr

theorem wf_callBody {w targets x} (h : s.memoriesWf) {out} (hr : callBody w targets x s = out) : out.memoriesWf := by
  subst hr
  dsimp only [callBody]
  split
  · exact h
  next hr => exact wf_sitePushReturn h hr
  next hr => exact wf_siteFinish (wf_sitePushReturn h hr) rfl

theorem wf_execBrau {w} (h : s.memoriesWf) : NextWf (execBrau w s) := by
  dsimp only [execBrau]
  refine wf_issueInstr h ?_
  intro _ _ ht
  split
  · exact ht
  · split
    · exact wf_siteFallThrough ht rfl
    · split
      · exact wf_siteFinish ht rfl
      · split
        · exact ht
        · exact wf_siteFinish ht rfl

theorem wf_execBrx {w} (h : s.memoriesWf) : NextWf (execBrx w s) := by
  dsimp only [execBrx]
  refine wf_issueInstr h ?_
  intro _ _ ht
  split
  · exact wf_siteFallThrough ht rfl
  · split
    · exact ht
    · split
      · exact ht
      next hr1 => exact wf_syncLoad ht hr1
      next hr1 =>
        split
        · exact wf_syncLoad ht hr1
        · exact wf_siteFinish (wf_syncLoad ht hr1) rfl

theorem wf_execCall {w} (h : s.memoriesWf) : NextWf (execCall w s) := by
  dsimp only [execCall]
  refine wf_issueInstr h ?_
  intro _ _ ht
  split
  · exact wf_siteFallThrough ht rfl
  · exact wf_callBody ht rfl

theorem wf_execCalli {w} (h : s.memoriesWf) : NextWf (execCalli w s) := by
  dsimp only [execCalli]
  refine wf_issueInstr h ?_
  intro _ _ ht
  split
  · exact wf_siteFallThrough ht rfl
  · split
    · exact ht
    · exact wf_callBody ht rfl

theorem wf_retBody {w ts x} (h : s.memoriesWf) {out} (hr : retBody w ts x s = out) : out.memoriesWf := by
  subst hr
  dsimp only [retBody]
  split
  · exact h
  · exact wf_siteFinish h rfl

theorem wf_execRet {w} (h : s.memoriesWf) : NextWf (execRet w s) := by
  dsimp only [execRet]
  refine wf_issueInstr h ?_
  intro _ _ ht
  split
  · exact wf_siteFallThrough ht rfl
  · split
    · exact ht
    · split
      · exact wf_retBody ht rfl
      · split
        · exact ht
        next hr1 => exact wf_syncLoad ht hr1
        next hr1 => exact wf_retBody (wf_syncLoad ht hr1) rfl

theorem wf_execJsave {w} (h : s.memoriesWf) : NextWf (execJsave w s) :=
  wf_issueInstr h (fun ht => wf_sitePut ht)

theorem wf_parkBody {w park x} (h : s.memoriesWf) {out} (hr : parkBody w park x s = out) : out.memoriesWf := by
  subst hr
  dsimp only [parkBody]
  split
  · exact wf_siteFallThrough h rfl
  · split
    · exact wf_siteFinish h rfl
    · split
      · exact wf_siteFinish h rfl
      · exact wf_siteFinish h rfl

theorem wf_countOut {launch core which up} (h : s.memoriesWf) : (countOut s launch core which up).memoriesWf :=
  wf_setLaunch h

theorem wf_sendHeld {x lane js} (h : s.memoriesWf) {out} (hr : sendHeld x lane js s = out) : out.2.memoriesWf := by
  subst hr
  induction js generalizing s x with
  | nil => exact h
  | cons j rest ih => exact ih (wf_countOut h)

theorem wf_publishVersion {core ctx v} (h : s.memoriesWf) : (publishVersion s core ctx v).memoriesWf := by
  dsimp only [publishVersion]
  refine wf_foldl ?_ h
  intro _ _ ht
  refine wf_foldl ?_ ?_
  · intro _ _ hu
    split
    · exact wf_setTag hu
    · exact hu
  · refine wf_foldl ?_ ht
    intro _ _ hu
    split
    · exact wf_homePut (wf_flushSector hu)
    · exact hu

theorem wf_touchLines {x ls} (h : s.memoriesWf) {out} (hr : touchLines x ls s = out) : out.1.memoriesWf := by
  subst hr
  induction ls generalizing s with
  | nil => exact h
  | cons l rest ih =>
    dsimp only [touchLines]
    split
    next hr => exact ih (wf_touch h hr)
    next hr => exact wf_touch h hr
    · exact ih h

theorem wf_versionWait {x} (h : s.memoriesWf) {out} (hr : versionWait s x = out) : out.1.memoriesWf := by
  subst hr
  dsimp only [versionWait]
  split
  · exact h
  · split
    · exact h
    · exact wf_touchLines h rfl

theorem wf_sitePublish {x} (h : s.memoriesWf) {out} (hr : Site.publish x s = out) : out.2.memoriesWf := by
  subst hr
  dsimp only [Site.publish]
  split
  · exact h
  · refine wf_setLaunch (List.foldlRecOn (motive := fun r : Site × State => r.2.memoriesWf) _ _ ?_ fun r hr _ _ => wf_sendHeld hr rfl)
    exact wf_foldl (fun ht => wf_publishVersion ht) (wf_releaseStep h)

theorem wf_execCommit {w} (h : s.memoriesWf) : NextWf (execCommit w s) := by
  dsimp only [execCommit]
  refine wf_issueInstr h ?_
  intro _ _ ht
  split
  · exact ht
  · split
    next hr1 => exact wf_versionWait ht hr1
    next hr1 => exact wf_sitePublish (wf_versionWait ht hr1) rfl

theorem wf_siteVacated {x wp} (h : s.memoriesWf) {out} (hr : Site.vacated x s wp = out) : out.memoriesWf :=
  hr ▸ wf_testSync (wf_sitePut h)

theorem wf_execExit {w} (h : s.memoriesWf) : NextWf (execExit w s) := by
  dsimp only [execExit]
  refine wf_issueInstr h ?_
  intro _ _ ht
  split
  · exact wf_siteFallThrough ht rfl
  · split
    · exact wf_abandonRays ht rfl
    · split
      next hr1 => exact wf_versionWait (wf_abandonRays ht rfl) hr1
      next hr1 => exact wf_siteVacated (wf_sitePublish (wf_versionWait (wf_abandonRays ht rfl) hr1) rfl) rfl

theorem wf_execRefill {w} (h : s.memoriesWf) : NextWf (execRefill w s) := by
  dsimp only [execRefill]
  refine wf_issueInstr h ?_
  intro _ _ ht
  split
  · exact wf_siteFallThrough ht rfl
  · split
    · exact ht
    · exact wf_siteFinish (wf_unarrive (wf_fillLanes ht rfl)) rfl

theorem wf_settleFiling {core r} (h : s.memoriesWf) : (settleFiling core s r).memoriesWf := by
  dsimp only [settleFiling]
  split
  · exact wf_ite h (wf_testSync (wf_setWarp (wf_setCore h)))
  · exact h

theorem wf_settleFilings {core} (h : s.memoriesWf) : (settleFilings s core).memoriesWf :=
  wf_foldl (fun ht => wf_settleFiling ht) h

theorem wf_reformBody {w spills x} (h : s.memoriesWf) {out} (hr : reformBody w spills x s = out) : out.memoriesWf :=
  hr ▸ wf_siteVacated (wf_setCore h) rfl

theorem wf_execReform {w} (h : s.memoriesWf) : NextWf (execReform w s) := by
  dsimp only [execReform]
  refine wf_issueInstr h ?_
  intro _ _ ht
  split
  · exact wf_siteFallThrough ht rfl
  · split
    · exact wf_abandonRays ht rfl
    · split
      · exact wf_abandonRays ht rfl
      · split
        · exact wf_reformBody (wf_abandonRays ht rfl) rfl
        · split
          · exact wf_abandonRays ht rfl
          next hr1 => exact wf_syncLoad (wf_abandonRays ht rfl) hr1
          next hr1 => exact wf_reformBody (wf_syncLoad (wf_abandonRays ht rfl) hr1) rfl

theorem wf_execYield {w} (h : s.memoriesWf) : NextWf (execYield w s) := by
  refine wf_issueInstr h fun {x t} ht => ?_
  have hput := wf_sitePut (x := x) (wp := settlePaths { x.endRun w (x.pa.pc + 16) with hintYh := true }) ht
  dsimp only
  split
  · exact hput
  · refine wf_modCrew hput fun c hc => ?_
    split
    · exact hc
    · split
      · exact hc
      · exact hc

theorem wf_execNpregEnter {w} (h : s.memoriesWf) : NextWf (execNpregEnter w s) := by
  dsimp only [execNpregEnter]
  refine wf_issueInstr h ?_
  intro _ _ ht
  split
  · exact ht
  · exact wf_modCrew ht fun _ hc => hc

theorem wf_execNpregLeave {w} (h : s.memoriesWf) : NextWf (execNpregLeave w s) := by
  dsimp only [execNpregLeave]
  refine wf_issueInstr h ?_
  intro _ _ ht
  split
  · exact ht
  · exact wf_modCrew ht fun _ hc => hc

theorem wf_execTrapBrk {w} (h : s.memoriesWf) : NextWf (execTrapBrk w s) := by
  dsimp only [execTrapBrk]
  refine wf_issueInstr h ?_
  intro _ _ ht
  split
  · exact wf_siteFallThrough ht rfl
  · exact ht

theorem wf_execTrapCall {w} (h : s.memoriesWf) : NextWf (execTrapCall w s) := by
  dsimp only [execTrapCall]
  refine wf_issueInstr h ?_
  intro _ _ ht
  split
  · exact wf_siteFallThrough ht rfl
  · exact wf_takeTrap ht

theorem wf_execTrapTret {w} (h : s.memoriesWf) : NextWf (execTrapTret w s) := by
  dsimp only [execTrapTret]
  refine wf_issueInstr h ?_
  intro _ _ ht
  split
  · exact wf_siteFallThrough ht rfl
  · split
    · exact ht
    · exact wf_siteFinish ht rfl

/-! ### Queues and their status -/

theorem wf_setQueue {q x} (h : s.memoriesWf) : (setQueue s q x).memoriesWf :=
  h

theorem wf_writeStatus {q} (h : s.memoriesWf) : (writeStatus s q).memoriesWf := by
  dsimp only [writeStatus]
  split
  next hr => exact wf_putBytes (wf_setQueue (wf_agentTouch h hr))
  next hr => exact wf_setQueue (wf_agentTouch h hr)
  · exact wf_postAgent (wf_setQueue h)

theorem wf_settleContext {ctx} (h : s.memoriesWf) : (settleContext s ctx).memoriesWf := by
  dsimp only [settleContext]
  split
  · exact wf_ite (wf_setCtx h) h
  · exact wf_ite (wf_setCtx h) h
  · exact wf_ite h (wf_setCtx h)
  · exact h

theorem wf_faultQueue {q reason sub tag here} (h : s.memoriesWf) : (faultQueue s q reason sub tag here).memoriesWf :=
  wf_ite (wf_ite (wf_writeStatus (wf_setQueue h)) (wf_setQueue h)) h

theorem wf_faultStarted {q e reason sub tag} (h : s.memoriesWf) : (faultStarted s q e reason sub tag).memoriesWf :=
  wf_ite (wf_faultQueue (wf_setQueue h)) h

theorem wf_completeStarted {q e tag note} (h : s.memoriesWf) : (completeStarted s q e tag note).memoriesWf :=
  wf_ite (wf_ite (wf_noticeDone (wf_writeStatus (wf_setQueue h))) (wf_writeStatus (wf_setQueue h))) h

end Sys2Proof.Machine
end

section
/-! The canonical form of every memory through sealed records and engine commands (R219-R286, R334-R343). -/

namespace Sys2Proof.Machine

variable {s : State}

/-! ### Sealed records -/

theorem wf_areaPuts {ctx ls} (h : s.memoriesWf) : (areaPuts ctx ls s).memoriesWf := by
  induction ls generalizing s with
  | nil => exact h
  | cons e rest ih =>
    dsimp only [areaPuts]
    split
    next hr => exact ih (wf_homePuts (wf_touch h hr))
    · exact ih h
    next hr => exact wf_setCtx (wf_touch h hr)

theorem wf_areaWriteMove {ctx} (h : s.memoriesWf) : (areaWriteMove s ctx).memoriesWf :=
  wf_ite h (wf_areaPuts (wf_setCtx h))

theorem wf_recordAreaPut {ctx off bs} (h : s.memoriesWf) : (recordAreaPut s ctx off bs).memoriesWf :=
  wf_ite (wf_areaPuts h) (wf_setCtx h)

theorem wf_setRecord {ctx k r} (h : s.memoriesWf) : (setRecord s ctx k r).memoriesWf :=
  wf_recordAreaPut (wf_ite (wf_recordAreaPut (wf_setCtx h)) (wf_setCtx h))

/-! ### Accesses of engine commands -/

theorem wf_busPut {b pa va v} (h : s.memoriesWf) : (busPut s b pa va v).memoriesWf := by
  dsimp only [busPut]
  split
  · split
    · exact h
    · exact wf_setWarp h
  · exact wf_homePut (wf_flushSector h)

theorem wf_busRaw {b pa va v} (h : s.memoriesWf) : (busRaw s b pa va v).memoriesWf :=
  wf_ite (wf_busPut h) (wf_homeRaw (wf_flushSector h))

theorem wf_busSetTag {b pa va t} (h : s.memoriesWf) : (busSetTag s b pa va t).memoriesWf := by
  dsimp only [busSetTag]
  split
  · split
    · exact h
    · exact wf_setWarp h
  · exact wf_setTag h

theorem wf_busTouch {b perm kind ls done} (h : s.memoriesWf)
    {out} (hr : busTouch b perm kind ls done s = out) : out.memoriesWf := by
  subst hr
  induction ls generalizing s done with
  | nil => exact h
  | cons e rest ih =>
    dsimp only [busTouch]
    split
    next hr => exact wf_touch h hr
    · exact h
    next hr =>
      split
      · exact wf_touch h hr
      · exact ih (wf_touch h hr)

theorem wf_copyJobDoIn {j b t} (h : s.memoriesWf) {out} (hr : CopyJob.doIn j b s t = out) : out.1.memoriesWf := by
  subst hr
  dsimp only [CopyJob.doIn]
  split
  · exact h
  · exact wf_ite (wf_scratchPut (wf_scratchPut h)) (wf_scratchPut h)

theorem wf_copyJobStoreElem {j b p k bits tag} (h : s.memoriesWf) : (CopyJob.storeElem j b p k bits tag s).memoriesWf :=
  wf_foldl (fun ht => wf_ite (wf_busRaw ht) (wf_busPut ht)) h

theorem wf_copyJobStoreTag {j b p k tag} (h : s.memoriesWf) : (CopyJob.storeTag j b p k tag s).memoriesWf :=
  wf_ite (wf_busSetTag h) h

theorem wf_copyJobDoOut {j b t} (h : s.memoriesWf) {out} (hr : CopyJob.doOut j b s t = out) : out.1.memoriesWf := by
  subst hr
  dsimp only [CopyJob.doOut]
  split
  · exact wf_foldl (fun ht => wf_copyJobStoreTag ht) (wf_foldl (fun ht => wf_copyJobStoreElem ht) h)
  · exact h

theorem wf_copyJobClearPoison {j b rows} (h : s.memoriesWf) : (CopyJob.clearPoison j b rows s).memoriesWf :=
  wf_ite h (wf_foldl (fun ht => wf_ite (wf_busSetTag ht) ht) h)

theorem wf_copyJobPerform {j b} (h : s.memoriesWf) {out} (hr : CopyJob.perform j b s = out) : out.memoriesWf := by
  subst hr
  unfold CopyJob.perform
  extract_lets rows spans go overflow
  have hgo {rows t} (ht : t.memoriesWf) : (go rows t).1.memoriesWf := by
    unfold go
    extract_lets r
    have hrows : r.1.memoriesWf :=
      List.foldlRecOn (motive := fun a : State × Nat => a.1.memoriesWf) _ _ ht fun a ha _ _ =>
        wf_fst_ite (wf_copyJobDoOut ha rfl) (wf_copyJobDoIn ha rfl)
    exact wf_ite (wf_copyJobClearPoison hrows) hrows
  split
  · exact h
  split
  · exact h
  have htouch : (if j.out then busTouch b permWrite 2 spans 0 s else busTouch b permRead 1 spans 0 s).memoriesWf := by
    split
    · exact wf_busTouch h rfl
    · exact wf_busTouch h rfl
  split
  next hr =>
    rw [hr] at htouch
    exact htouch
  next hr =>
    rw [hr] at htouch
    exact hgo htouch
  next hr =>
    rw [hr] at htouch
    exact hgo htouch

/-! ### Commands and the scoreboard -/

theorem wf_execSealRec {w} (h : s.memoriesWf) : NextWf (execSealRec w s) := by
  dsimp only [execSealRec]
  refine wf_issueInstr h ?_
  intro _ _ ht
  split
  · exact ht
  · split
    · exact ht
    · split
      · exact ht
      · split
        · exact ht
        · split
          · exact ht
          · exact ht
          · exact wf_setRecord ht

theorem wf_execUnsealRec {w} (h : s.memoriesWf) : NextWf (execUnsealRec w s) := by
  dsimp only [execUnsealRec]
  refine wf_issueInstr h ?_
  intro _ _ ht
  split
  · exact ht
  · split
    · exact ht
    · exact wf_setRecord ht

theorem wf_execHqry {w} (h : s.memoriesWf) : NextWf (execHqry w s) := by
  dsimp only [execHqry]
  refine wf_issueInstr h ?_
  intro _ _ ht
  split
  · exact ht
  · split
    · exact ht
    · exact ht

theorem wf_enterCommand {x c} (h : s.memoriesWf) {out} (hr : enterCommand x s c = out) : out.2.1.memoriesWf :=
  hr ▸ (wf_releaseStep h).frame

theorem wf_issueCommand {x c} (h : s.memoriesWf) {out} (hr : issueCommand x s c = out) : out.memoriesWf := by
  subst hr
  dsimp only [issueCommand]
  split
  · exact h
  · exact wf_enterCommand h rfl

theorem wf_copyBody {w kind x} (h : s.memoriesWf) {out} (hr : copyBody w kind x s = out) : out.memoriesWf := by
  subst hr
  unfold copyBody
  split
  · exact h
  split
  · exact h
  split
  · exact h
  split
  split
  · exact h
  split
  · exact h
  split
  · exact h
  split
  · exact h
  extract_lets image list c
  split
  · exact h
  · exact wf_ite (wf_countOut (wf_enterCommand h rfl)) (wf_enterCommand h rfl)

theorem wf_execWaitc {w} (h : s.memoriesWf) : NextWf (execWaitc w s) := by
  dsimp only [execWaitc]
  refine wf_issueInstr h ?_
  intro _ _ ht
  split
  · exact ht
  · split
    · exact ht
    · split
      · exact ht
      · exact wf_ite ht (wf_acquireStep ht)

theorem wf_completeCommand {k c} (h : s.memoriesWf) : (completeCommand s k c).memoriesWf := by
  dsimp only [completeCommand]
  refine wf_settleContext ?_
  split
  · split
    · refine wf_countOut ?_
      split
      · exact h
      · exact wf_testSync (wf_modCrew h fun _ hc => hc)
    · split
      · exact h
      · exact wf_testSync (wf_modCrew h fun _ hc => hc)
  · split
    · exact h
    · exact wf_testSync (wf_modCrew h fun _ hc => hc)

theorem wf_execCommandComplete {cmd} (h : s.memoriesWf) : NextWf (execCommandComplete cmd s) := by
  dsimp only [execCommandComplete]
  split
  · exact h
  · exact wf_ite (wf_completeCommand h) h

/-! ### Barrier instructions and the store queue -/

theorem wf_execBari {w} (h : s.memoriesWf) : NextWf (execBari w s) := by
  dsimp only [execBari]
  refine wf_issueInstr h ?_
  intro _ _ ht
  split
  · exact ht
  · split
    · split
      · exact ht
      · split
        · exact wf_modCrew ht fun _ hc => hc
        · exact wf_testBars (wf_modCrew ht fun _ hc => hc)
    · split
      · exact ht
      · split
        · exact ht
        · exact wf_testBars (wf_modCrew ht fun _ hc => hc)

theorem wf_barArrive {x nb wait} (h : s.memoriesWf) {out} (hr : barArrive s x nb wait = out) : out.memoriesWf := by
  subst hr
  dsimp only [barArrive]
  split
  · exact h
  · split
    · exact h
    · split <;> exact h

theorem wf_barStart {w kind x} (h : s.memoriesWf) {out} (hr : barStart w kind x s = out) : out.memoriesWf := by
  subst hr
  dsimp only [barStart]
  split
  · exact h
  · split
    · exact wf_barArrive h rfl
    · split
      · exact h
      · exact h

theorem wf_barBody {w kind x} (h : s.memoriesWf) {out} (hr : barBody w kind x s = out) : out.memoriesWf := by
  subst hr
  dsimp only [barBody]
  split
  · exact h
  · split
    · split
      · exact wf_barStart (wf_acquireStep h) rfl
      · exact wf_acquireStep h
    · exact h
    · exact wf_barStart h rfl

theorem wf_execGrpq {w} (h : s.memoriesWf) : NextWf (execGrpq w s) := by
  dsimp only [execGrpq]
  refine wf_issueInstr h ?_
  intro _ _ ht
  split <;> exact ht

theorem wf_execGred {w} (h : s.memoriesWf) : NextWf (execGred w s) := by
  dsimp only [execGred]
  refine wf_issueInstr h ?_
  intro _ _ ht
  split
  · exact ht
  · split
    · exact ht
    · split
      · exact ht
      · split
        · exact ht
        · exact wf_testGred (wf_sitePut (wf_setLaunch ht))

theorem wf_recordArrival {r seq group num m} (h : s.memoriesWf) : (recordArrival s r seq group num m).memoriesWf := by
  dsimp only [recordArrival]
  refine wf_testSync ?_
  split
  · exact wf_ite (wf_setLaunch (wf_releaseStep h)) (wf_modCrew (wf_releaseStep h) fun _ hc => hc)
  · exact wf_setWarp (wf_ite (wf_setLaunch (wf_releaseStep h)) (wf_modCrew (wf_releaseStep h) fun _ hc => hc))

theorem wf_performStore {r e a} (h : s.memoriesWf) : (performStore s r e a).memoriesWf := by
  dsimp only [performStore]
  split
  · exact wf_storeLane h
  · exact wf_storeLane h
  · exact wf_zeroLane h
  · exact wf_flushLane h
  · exact h
  · exact h

theorem wf_performEntry {r e} (h : s.memoriesWf) {out} (hr : performEntry s r e = out) : out.1.memoriesWf := by
  subst hr
  dsimp only [performEntry]
  split
  · exact wf_foldl (fun ht => wf_performStore ht) (wf_ite (wf_releaseStep h) h)
  · exact wf_foldl (fun ht => wf_performStore ht) h
  · exact wf_foldl (fun ht => wf_performStore ht) h
  · exact wf_foldl (fun ht => wf_performStore ht) h
  · exact wf_atomicLanes h rfl
  · exact wf_recordArrival h

theorem wf_latePoison {r e bad} (h : s.memoriesWf) : (latePoison s r e bad).memoriesWf := by
  dsimp only [latePoison]
  split
  · split
    · exact wf_takeTrap h
    · exact wf_setWarp h
  · exact h

theorem wf_leaveQueue {r} (h : s.memoriesWf) : (leaveQueue s r).memoriesWf := by
  dsimp only [leaveQueue]
  split
  · exact h
  · split
    · exact h
    · split
      · exact h
      · split
        next hr => exact wf_performEntry (wf_setWarp h) hr
        next hr => exact wf_ite h (wf_latePoison (wf_performEntry (wf_setWarp h) hr))

theorem wf_performQueued {r wp e a} (h : s.memoriesWf) : (performQueued s r wp e a).memoriesWf := by
  dsimp only [performQueued]
  split
  · exact h
  · split
    · split
      next hr =>
        split
        · exact wf_atomicLanes h hr
        · exact wf_setWarp (wf_atomicLanes h hr)
      · exact h
    · split
      · exact wf_performStore (wf_releaseStep h)
      · exact wf_setWarp (wf_performStore (wf_releaseStep h))
    · split
      · exact wf_performStore h
      · exact wf_setWarp (wf_performStore h)

theorem wf_performLoading {r wp e a} (h : s.memoriesWf) : (performLoading s r wp e a).memoriesWf := by
  dsimp only [performLoading]
  split
  · exact h
  · split
    · exact wf_performLane h rfl
    · exact wf_setWarp (wf_performLane h rfl)

theorem wf_laneAccessMove {dws seq lane} (h : s.memoriesWf) : (laneAccessMove s dws seq lane).memoriesWf := by
  dsimp only [laneAccessMove]
  split
  · exact h
  · split
    · exact h
    · split
      · split
        · exact wf_performLoading h
        · exact h
      · split
        · exact wf_performQueued h
        · exact h
      · exact h

/-! ### Filters -/

theorem wf_filtBody {w grid x} (h : s.memoriesWf) {out} (hr : filtBody w grid x s = out) : out.memoriesWf := by
  subst hr
  unfold filtBody
  split
  · exact h
  split
  · exact h
  refine iteInduction (motive := Act.memoriesWf) (fun _ => h) fun _ => ?_
  extract_lets d n coord c
  refine iteInduction (motive := Act.memoriesWf) (fun _ => h) fun _ => ?_
  refine iteInduction (motive := Act.memoriesWf) (fun _ => h) fun _ => ?_
  exact wf_enterCommand h rfl

theorem wf_filtTouch {ctx ring n vas k pas} (h : s.memoriesWf) {out} (hr : filtTouch ctx ring n vas k s pas = out) :
    out.memoriesWf := by
  subst hr
  induction vas generalizing s k pas with
  | nil => exact h
  | cons va rest ih =>
    dsimp only [filtTouch]
    split
    next hr => exact wf_touch h hr
    · trivial
    next hr =>
      split
      · trivial
      · exact ih (wf_touch h hr)

theorem wf_filtEnd {k c grid b dst lanes lane r} (h : s.memoriesWf) : (filtEnd s k c grid b dst lanes lane r).memoriesWf := by
  dsimp only [filtEnd]
  refine State.memoriesWf.frame ?_ rfl rfl rfl
  split
  · exact h
  · exact wf_setWarp h

theorem wf_execFilterRequestEnd {cmd lane} (h : s.memoriesWf) : NextWf (execFilterRequestEnd cmd lane s) := by
  dsimp only [execFilterRequestEnd]
  split
  · exact h
  · split
    · split
      · exact h
      · split
        next hr => exact wf_filtTouch h hr
        next hr => exact wf_filtEnd (wf_filtTouch h hr)
        · exact wf_filtEnd h
    · exact h

/-! ### Tiles and matrix commands -/

theorem wf_noteMode {ctx} (h : s.memoriesWf) : (noteMode s ctx).memoriesWf :=
  wf_setCtx h

theorem wf_execAccz {w} (h : s.memoriesWf) : NextWf (execAccz w s) := by
  dsimp only [execAccz]
  refine wf_issueInstr h ?_
  intro _ _ ht
  split
  · exact ht
  · split
    · exact ht
    · split
      · exact ht
      · exact wf_modCrew ht fun _ hc => hc

theorem wf_execAccrd {w} (h : s.memoriesWf) : NextWf (execAccrd w s) := by
  dsimp only [execAccrd]
  refine wf_issueInstr h ?_
  intro _ _ ht
  split
  · exact ht
  · split
    · exact ht
    · exact ht
    · exact ht

theorem wf_execAccwr {w} (h : s.memoriesWf) : NextWf (execAccwr w s) := by
  dsimp only [execAccwr]
  refine wf_issueInstr h ?_
  intro _ _ ht
  split
  · exact ht
  · split
    · exact ht
    · exact ht
    · exact wf_modCrew ht fun _ hc => hc

theorem wf_mxIssue {x j ok arv follow} (h : s.memoriesWf) {out} (hr : mxIssue x s j ok arv follow = out) : out.memoriesWf := by
  subst hr
  unfold mxIssue
  extract_lets fo asz bsz
  split
  · exact h
  split
  · exact h
  split
  · exact h
  split
  · exact h
  split
  · exact h
  split
  · exact h
  split
  · exact h
  split
  · exact h
  split
  · exact h
  split
  · exact h
  extract_lets j tiles own far c
  split
  · exact h
  · exact wf_issueCommand (wf_noteMode h) rfl

theorem wf_mmaBody {w kind x} (h : s.memoriesWf) {out} (hr : mmaBody w kind x s = out) : out.memoriesWf := by
  subst hr
  dsimp only [mmaBody]
  split
  · exact h
  · split
    · exact h
    · exact wf_mxIssue h rfl

theorem wf_tileMoveBody {w store x} (h : s.memoriesWf) {out} (hr : tileMoveBody w store x s = out) : out.memoriesWf := by
  subst hr
  dsimp only [tileMoveBody]
  split
  · exact h
  · split
    · exact h
    · split
      · exact h
      · split
        · exact h
        · split
          · exact h
          · exact wf_issueCommand h rfl

theorem wf_tileLoad {crew fmt tile off pitch flush} (h : s.memoriesWf) :
    (tileLoad s crew fmt tile off pitch flush).memoriesWf :=
  wf_modCrew h fun _ hc => hc

theorem wf_tileStore {crew fmt tile off pitch flush} (h : s.memoriesWf)
    {out} (hr : tileStore s crew fmt tile off pitch flush = out) :
    out.1.memoriesWf := by
  subst hr
  refine List.foldlRecOn (motive := fun r : State × Nat => r.1.memoriesWf) _ _ h fun r hr k _ => ?_
  dsimp only
  split
  · exact wf_scratchPut (wf_scratchPut hr)
  · exact wf_scratchPut hr

theorem wf_mxServe {c j crew core b first second} (h : s.memoriesWf)
    {out} (hr : mxServe s c j crew core b first second = out) : out.1.memoriesWf := by
  subst hr
  dsimp only [mxServe]
  split
  · exact wf_postRecord (wf_modCrew (wf_ite (wf_modCrew h fun _ hc => hc) h) fun _ hc => hc)
  · exact wf_modCrew (wf_ite (wf_modCrew h fun _ hc => hc) h) fun _ hc => hc

theorem wf_countPoisoning {crew} (h : s.memoriesWf) : (countPoisoning s crew).memoriesWf :=
  wf_modCrew h fun _ hc => hc

theorem wf_mxBlockStep {errs i c j} (h : s.memoriesWf) {out} (hr : mxBlockStep errs i s c j = out) : out.1.memoriesWf := by
  subst hr
  unfold mxBlockStep
  extract_lets e
  split
  next s1 j1 st1 hlead =>
    have h1 : s1.memoriesWf := by
      split at hlead
      · obtain rfl := congrArg Prod.fst hlead
        exact h
      · obtain rfl := congrArg Prod.fst hlead
        exact wf_ite (wf_countPoisoning (wf_mxServe h rfl)) (wf_mxServe h rfl)
    split
    next hfollow =>
      split at hfollow
      · obtain rfl := congrArg Prod.fst hfollow
        exact h1
      · split at hfollow
        · obtain rfl := congrArg Prod.fst hfollow
          exact h1
        · obtain rfl := congrArg Prod.fst hfollow
          exact wf_ite (wf_countPoisoning (wf_mxServe h1 rfl)) (wf_mxServe h1 rfl)

theorem wf_mxMeetStep {errs i c j} (h : s.memoriesWf) {out} (hr : mxMeetStep errs i s c j = out) : out.1.memoriesWf :=
  hr ▸ wf_underlayNew (wf_mxBlockStep (wf_overlayOld h) rfl)

theorem wf_mxBlocks {errs n i c j} (h : s.memoriesWf) {out} (hr : mxBlocks errs n i s c j = out) : out.1.memoriesWf := by
  subst hr
  induction n generalizing s i c j with
  | zero => exact h
  | succ n ih =>
    dsimp only [mxBlocks]
    split
    · exact h
    · exact ih (wf_mxMeetStep h rfl)

theorem wf_mxFlag {crew tile za bad} (h : s.memoriesWf) : (mxFlag s crew tile za bad).memoriesWf :=
  wf_modCrew h fun _ hc => hc

theorem wf_mxLeave {k c j} (h : s.memoriesWf) : (mxLeave s k c j).memoriesWf := by
  unfold mxLeave
  extract_lets s1 s2 s3 s4
  have hflag : s2.memoriesWf := by
    unfold s2
    split
    · exact wf_mxFlag (wf_mxFlag h)
    · exact wf_mxFlag h
  exact (wf_modCrew hflag fun _ hc => hc : s3.memoriesWf).frame

theorem wf_setServing {c v} (h : s.memoriesWf) : (setServing s c v).memoriesWf := by
  dsimp only [setServing]
  split
  · exact h
  · exact wf_setCore (wf_setCore h)

theorem wf_mxServeCmd {core k errs} (h : s.memoriesWf) : (mxServeCmd s core k errs).memoriesWf := by
  dsimp only [mxServeCmd]
  split
  · exact h
  · split
    · exact wf_ite h (wf_ite (wf_mxLeave (wf_mxBlocks (wf_setServing h) rfl)) (wf_mxBlocks (wf_setServing h) rfl))
    · exact h

theorem wf_execMatrixTileStep {core errs} (h : s.memoriesWf) : NextWf (execMatrixTileStep core errs s) := by
  dsimp only [execMatrixTileStep]
  split
  · exact wf_mxServeCmd h
  · split
    · exact h
    · split
      · exact h
      · exact wf_ite (wf_setCore h) (wf_mxServeCmd (wf_setCore h))

theorem wf_execMxacq {w} (h : s.memoriesWf) : NextWf (execMxacq w s) := by
  dsimp only [execMxacq]
  refine wf_issueInstr h ?_
  intro _ _ ht
  split
  · exact ht
  · split
    · exact wf_modCrew ht fun _ hc => hc
    · exact wf_modCrew ht fun _ hc => hc

theorem wf_execMxrel {w} (h : s.memoriesWf) : NextWf (execMxrel w s) := by
  dsimp only [execMxrel]
  refine wf_issueInstr h ?_
  intro _ _ ht
  split
  · exact ht
  · split
    · exact ht
    · exact wf_modCrew ht fun _ hc => hc

theorem wf_execMxstat {w} (h : s.memoriesWf) : NextWf (execMxstat w s) := by
  dsimp only [execMxstat]
  refine wf_issueInstr h ?_
  intro _ _ ht
  split <;> exact ht

end Sys2Proof.Machine
end

section
/-! The canonical form of every memory through rays, links and views (R287-R332, R461-R476). -/

namespace Sys2Proof.Machine

variable {s : State}

/-! ### Rays between stacks -/

theorem wf_takePoolId {ctx id} (h : s.memoriesWf) : (takePoolId s ctx id).memoriesWf :=
  wf_setCtx h

theorem wf_freePool {ctx id} (h : s.memoriesWf) : (freePool s ctx id).memoriesWf :=
  wf_setCtx h

theorem wf_setRay {r} (h : s.memoriesWf) : (setRay s r).memoriesWf :=
  h

theorem wf_dropRay {r} (h : s.memoriesWf) : (dropRay s r).memoriesWf :=
  h

theorem wf_damsonTouch {ctx stack va} (h : s.memoriesWf) {out} (hr : damsonTouch s ctx stack va = out) : out.memoriesWf :=
  hr ▸ wf_touch h rfl

theorem wf_damsonTouches {ctx stack vas} (h : s.memoriesWf)
    {out} (hr : damsonTouches s ctx stack vas = out) : out.1.memoriesWf := by
  subst hr
  induction vas generalizing s with
  | nil => exact h
  | cons va rest ih =>
    dsimp only [damsonTouches]
    split
    next hr => exact ih (wf_damsonTouch h hr)
    · exact ih h
    next hr => exact ih (wf_damsonTouch h hr)

theorem wf_putEntry {pa e} (h : s.memoriesWf) : (putEntry s pa e).memoriesWf :=
  wf_homePuts h

theorem wf_entryTouch {ctx stack tid} (h : s.memoriesWf) {out} (hr : entryTouch s ctx stack tid = out) : out.memoriesWf := by
  subst hr
  dsimp only [entryTouch]
  split
  · exact trivial
  · exact wf_damsonTouch h rfl

theorem wf_unbindAt {pa ver} (h : s.memoriesWf) : (unbindAt s pa ver).memoriesWf := by
  dsimp only [unbindAt]
  split
  · exact h
  · exact wf_putEntry h

theorem wf_putHit {pa ws} (h : s.memoriesWf) : (putHit s pa ws).memoriesWf := by
  dsimp only [putHit]
  split
  · exact wf_homePuts (wf_homePuts h)
  · exact h

theorem wf_finishRay {r st} (h : s.memoriesWf) {out} (hr : finishRay s r st = out) : out.memoriesWf := by
  subst hr
  dsimp only [finishRay]
  split
  · exact wf_damsonTouches h rfl
  · split
    · exact wf_postMsg (wf_dropRay (wf_foldl (fun ht => wf_unbindAt ht) (wf_putHit (wf_damsonTouches h rfl))))
    · exact wf_dropRay (wf_damsonTouches h rfl)

theorem wf_finishOr {r st} (h : s.memoriesWf) : (finishOr s r st).memoriesWf := by
  dsimp only [finishOr]
  split
  next hr => exact wf_finishRay h hr
  next hr => exact wf_postMsg (wf_setRay (wf_finishRay h hr))

theorem wf_putProgress {pa r} (h : s.memoriesWf) : (putProgress s pa r).memoriesWf :=
  wf_homePuts (wf_putHit h)

theorem wf_queueSpot {r} (h : s.memoriesWf) {out} (hr : queueSpot s r = out) : out.memoriesWf := by
  subst hr
  unfold queueSpot
  extract_lets q fresh
  split
  · exact h
  split
  split
  · exact h
  split
  next hr => exact wf_damsonTouches h hr
  next hr =>
    split
    · exact wf_damsonTouches h hr
    · exact wf_damsonTouches h hr
  next hr => exact wf_damsonTouches h hr

theorem wf_putQueue {r held p} (h : s.memoriesWf) : (putQueue s r held p).memoriesWf := by
  dsimp only [putQueue]
  split
  · exact h
  · refine State.memoriesWf.frame ?_ rfl rfl rfl
    refine wf_homePuts ?_
    split
    · exact wf_homePuts (wf_setRay h)
    · exact wf_setRay h

theorem wf_enqueueRay {r held} (h : s.memoriesWf) {out} (hr : enqueueRay s r held = out) : out.memoriesWf := by
  subst hr
  dsimp only [enqueueRay]
  split
  next hr => exact wf_putQueue (wf_queueSpot h hr)
  next hr => exact wf_queueSpot h hr
  next hr => exact wf_finishRay (wf_queueSpot h hr) rfl

theorem wf_readSpill {ctx stack line} (h : s.memoriesWf) {out} (hr : readSpill s ctx stack line = out) : out.1.memoriesWf := by
  subst hr
  dsimp only [readSpill]
  split
  next hr => exact wf_damsonTouch h hr
  · exact h
  next hr => exact wf_damsonTouch h hr

theorem wf_refillOne {stack} (h : s.memoriesWf) {out} (hr : refillOne s stack = out) : out.1.memoriesWf := by
  subst hr
  dsimp only [refillOne]
  split
  · exact h
  · split
    next hr => exact wf_readSpill h hr
    next hr =>
      split
      · exact wf_finishOr (wf_readSpill h hr)
      · exact wf_readSpill h hr
      · exact wf_readSpill h hr

theorem wf_refillLoop {stack fuel} (h : s.memoriesWf) : (refillLoop stack fuel s).memoriesWf := by
  induction fuel generalizing s with
  | zero => exact h
  | succ fuel ih =>
    dsimp only [refillLoop]
    split
    next hr => exact ih (wf_refillOne h hr)
    next hr => exact wf_refillOne h hr

theorem wf_refillSram {stack} (h : s.memoriesWf) : (refillSram s stack).memoriesWf :=
  wf_refillLoop h

theorem wf_returnRay {r} (h : s.memoriesWf) {out} (hr : returnRay s r = out) : out.memoriesWf := by
  subst hr
  dsimp only [returnRay]
  split
  · exact wf_finishOr h
  · split
    next hr => exact wf_damsonTouch h hr
    · exact wf_finishOr h
    next hr =>
      split
      · exact wf_finishOr (wf_damsonTouch h hr)
      · exact wf_postMsg (wf_setRay (wf_homePuts (wf_damsonTouch h hr)))

theorem wf_forwardRay {k r home what} (h : s.memoriesWf) : (forwardRay s k r home what).memoriesWf := by
  unfold forwardRay
  split
  next hr => exact wf_damsonTouch h hr
  · exact wf_dropRay (r := r) h
  next t pa hr =>
    have hput := wf_putProgress (pa := pa) (r := r) (wf_damsonTouch h hr)
    generalize putProgress t pa r = u at hput
    exact hput

theorem wf_settleMsg {k a} (h : a.memoriesWf) : (settleMsg k a).memoriesWf := by
  cases a with
  | ok t => exact h
  | wait t => exact h

theorem wf_admitAt {k pa r what} (h : s.memoriesWf) : (admitAt s k pa r what).memoriesWf := by
  dsimp only [admitAt]
  split
  · exact wf_settleMsg (wf_finishRay h rfl)
  · split
    · exact wf_forwardRay h
    · split
      · exact wf_settleMsg (wf_enqueueRay h rfl)
      · split
        · exact wf_settleMsg (wf_returnRay h rfl)
        · split
          · exact wf_settleMsg (wf_enqueueRay h rfl)
          · split
            next hr => exact wf_queueSpot h hr
            next hr => exact wf_settleMsg (wf_finishRay (wf_queueSpot h hr) rfl)
            next hr => exact (wf_putQueue (wf_putEntry (wf_queueSpot h hr))).frame

theorem wf_arriveAt {k r what} (h : s.memoriesWf) : (arriveAt s k r what).memoriesWf := by
  dsimp only [arriveAt]
  split
  next hr => exact wf_entryTouch h hr
  · exact wf_settleMsg (wf_finishRay h rfl)
  next hr => exact wf_admitAt (wf_entryTouch h hr)

theorem wf_readmitRay {k r line} (h : s.memoriesWf) : (readmitRay s k r line).memoriesWf := by
  dsimp only [readmitRay]
  split
  · exact h
  · split
    · exact wf_arriveAt h
    · split
      next hr => exact wf_readSpill h hr
      next hr => exact wf_settleMsg (wf_finishRay (wf_readSpill h hr) rfl)
      next hr => exact wf_arriveAt (wf_readSpill h hr)

theorem wf_execRayAdmit {k} (h : s.memoriesWf) : NextWf (execRayAdmit k s) := by
  dsimp only [execRayAdmit]
  split
  · split
    · exact h
    · split
      · exact wf_settleMsg (wf_finishRay h rfl)
      · exact wf_settleMsg (wf_returnRay h rfl)
      · exact wf_readmitRay h
      · exact wf_arriveAt h
  · exact h

theorem wf_storageTouch {ctx stack va size} (h : s.memoriesWf)
    {out} (hr : storageTouch s ctx stack va size = out) : out.1.memoriesWf :=
  hr ▸ wf_damsonTouches h rfl

theorem wf_boundStorage {r e b} (h : s.memoriesWf) {out} (hr : boundStorage s r e b = out) : out.1.memoriesWf := by
  subst hr
  unfold boundStorage
  extract_lets cur key kept va
  clear_value kept
  cases kept with
  | some p => exact h
  | none =>
    refine wf_fst_ite (wf_storageTouch h rfl) ?_
    exact wf_ite (wf_storageTouch h rfl).frame (wf_storageTouch h rfl)

theorem wf_poisonVersion {pa r b} (h : s.memoriesWf) : (poisonVersion s pa r b).memoriesWf :=
  wf_ite h (wf_postAgent (wf_putEntry h))

theorem wf_afterVisit {r b ep rp cp a6} (h : s.memoriesWf)
    {out} (hr : afterVisit s r b ep rp cp a6 = out) : out.1.memoriesWf := by
  subst hr
  dsimp only [afterVisit]
  split
  · exact wf_finishOr (wf_ite (wf_poisonVersion h) h)
  · exact wf_finishOr h
  · split
    next hr => exact wf_returnRay (wf_unbindAt h) hr
    next hr => exact wf_postMsg (wf_setRay (wf_returnRay (wf_unbindAt h) hr))
  · split
    · exact wf_finishOr h
    · exact wf_postMsg (wf_setRay (wf_homePuts h))
  · split
    · exact wf_dropRay h
    · exact wf_postMsg (wf_setRay h)

theorem wf_serveRay {r} (h : s.memoriesWf) {out} (hr : serveRay s r = out) : out.1.memoriesWf := by
  subst hr
  dsimp only [serveRay]
  split
  · exact h
  · split
    · exact wf_damsonTouches h rfl
    · split
      · split
        · exact wf_finishOr (wf_damsonTouches h rfl)
        · split
          · exact wf_finishOr (wf_damsonTouches h rfl)
          · split
            · exact wf_boundStorage (wf_damsonTouches h rfl) rfl
            · exact wf_afterVisit (wf_boundStorage (wf_damsonTouches h rfl) rfl) rfl
      · exact wf_finishOr (wf_damsonTouches h rfl)

theorem wf_serveBatch {k es} (h : s.memoriesWf) : (serveBatch k es s).memoriesWf := by
  induction es generalizing s with
  | nil => exact h
  | cons e rest ih =>
    dsimp only [serveBatch]
    split
    · exact ih h
    · refine ih ?_
      split
      · exact wf_serveRay h rfl
      · exact wf_serveRay h rfl

theorem wf_execTreeletBatch {stack ctx tid} (h : s.memoriesWf) : NextWf (execTreeletBatch stack ctx tid s) :=
  wf_ite (wf_refillSram h) (wf_refillSram (wf_serveBatch h))

theorem wf_putCandw {pa on} (h : s.memoriesWf) : (putCandw s pa on).memoriesWf :=
  wf_homePut h

theorem wf_execCandidateReturn {k} (h : s.memoriesWf) : NextWf (execCandidateReturn k s) := by
  dsimp only [execCandidateReturn]
  split
  · split
    · exact h
    · split
      next hr => exact wf_damsonTouch h hr
      · exact h
      next hr => exact wf_ite (wf_setRay (wf_putCandw (wf_damsonTouch h hr))) (wf_postMsg (wf_setRay (wf_putCandw (wf_damsonTouch h hr))))
  · exact h

theorem wf_resendCandidate {r pa} (h : s.memoriesWf) : (resendCandidate s r pa).memoriesWf := by
  dsimp only [resendCandidate]
  split
  · exact wf_postMsg (wf_setRay (wf_putCandw h))
  · exact h

theorem wf_execCandidateAnswer {k} (h : s.memoriesWf) : NextWf (execCandidateAnswer k s) := by
  dsimp only [execCandidateAnswer]
  split
  · split
    · exact h
    · split
      · exact h
      · refine wf_settleMsg ?_
        split
        · exact wf_finishRay h rfl
        · exact wf_enqueueRay h rfl
  · exact h

theorem wf_lookEntry {core ctx id} (h : s.memoriesWf) {out} (hr : lookEntry s core ctx id = out) : out.memoriesWf := by
  subst hr
  dsimp only [lookEntry]
  split
  · exact h
  · split
    next hr => exact wf_touch h hr
    · exact h
    next hr => exact wf_touch h hr

theorem wf_readmitHeld {ctx tid} (h : s.memoriesWf) : (readmitHeld s ctx tid).memoriesWf :=
  wf_foldl (fun ht => wf_refillSram ht) (wf_foldl (fun ht => wf_postMsg ht) h)

theorem wf_dropReplicas {ctx tid} (h : s.memoriesWf) : (dropReplicas s ctx tid).memoriesWf :=
  h

theorem wf_changeEntry {core pa q} (h : s.memoriesWf) : (changeEntry s core pa q).memoriesWf :=
  wf_ite (wf_putEntry h) (wf_dropReplicas (wf_readmitHeld (wf_putEntry (wf_releaseStep h))))

theorem wf_tableReqAnswer {q v} (h : s.memoriesWf) : (TableReq.answer q s v).memoriesWf := by
  dsimp only [TableReq.answer]
  split
  · exact h
  · exact wf_setWarp h

theorem wf_tableAccess {core q} (h : s.memoriesWf) {out} (hr : tableAccess s core q = out) :
    out.1.memoriesWf ∧ SomeWf out.2 := by
  subst hr
  dsimp only [tableAccess]
  split
  · exact ⟨h, wf_tableReqAnswer h⟩
  · split
    next hr => exact ⟨wf_lookEntry h hr, trivial⟩
    next hr => exact ⟨wf_lookEntry h hr, wf_tableReqAnswer (wf_lookEntry h hr)⟩
    next hr =>
      have hlook := wf_lookEntry h hr
      split
      · exact ⟨hlook, wf_tableReqAnswer hlook⟩
      · exact ⟨hlook, wf_tableReqAnswer (wf_ite (wf_changeEntry hlook) hlook)⟩

theorem wf_tableOpMove {core k} (h : s.memoriesWf) : (tableOpMove s core k).memoriesWf := by
  dsimp only [tableOpMove]
  split
  · exact h
  · refine wf_ite h ?_
    split
    next hr => exact (wf_tableAccess h hr).1
    next hr => exact wf_setCore (wf_tableAccess h hr).2

theorem wf_siteAsk {x w q} (h : s.memoriesWf) {out} (hr : Site.ask x w s q = out) : out.memoriesWf :=
  hr ▸ wf_setCore h

theorem wf_execTlshut {w} (h : s.memoriesWf) : NextWf (execTlshut w s) := by
  dsimp only [execTlshut]
  refine wf_issueInstr h ?_
  intro _ _ ht
  split
  · exact ht
  · exact wf_siteAsk ht rfl

theorem wf_execTlpost {w} (h : s.memoriesWf) : NextWf (execTlpost w s) := by
  dsimp only [execTlpost]
  refine wf_issueInstr h ?_
  intro _ _ ht
  split
  · exact ht
  · split
    · exact ht
    · exact wf_siteAsk ht rfl

theorem wf_execTlqry {w} (h : s.memoriesWf) : NextWf (execTlqry w s) := by
  dsimp only [execTlqry]
  refine wf_issueInstr h ?_
  intro _ _ ht
  split
  · exact ht
  · exact wf_siteAsk ht rfl

/-! ### Rays at the core -/

theorem wf_traceBody {w x} (h : s.memoriesWf) {out} (hr : traceBody w x s = out) : out.memoriesWf := by
  subst hr
  dsimp only [traceBody]
  split
  · exact h
  · split
    · exact h
    · split
      · exact wf_abandonRays h rfl
      · exact wf_enterCommand (wf_abandonRays h rfl) rfl

theorem wf_candGetBody {w x} (h : s.memoriesWf) {out} (hr : candGetBody w x s = out) : out.memoriesWf := by
  subst hr
  dsimp only [candGetBody]
  split <;> exact h

theorem wf_candAnswer {kind x} (h : s.memoriesWf) {out} (hr : candAnswer kind x s = out) : out.memoriesWf := by
  subst hr
  dsimp only [candAnswer]
  split
  · exact h
  · split
    · exact h
    · refine wf_foldl ?_ h
      intro _ _ ht
      split
      · exact wf_postMsg ht
      · exact ht

theorem wf_execHitDelivery {k} (h : s.memoriesWf) : NextWf (execHitDelivery k s) := by
  dsimp only [execHitDelivery]
  split
  · split
    · exact h
    · split
      · exact h
      · exact wf_freePool (wf_setWarp h)
  · exact h

theorem wf_execCandidateDelivery {k} (h : s.memoriesWf) : NextWf (execCandidateDelivery k s) := by
  dsimp only [execCandidateDelivery]
  split
  · split
    · exact wf_postMsg h
    · exact wf_ite (wf_postMsg h) (wf_setWarp h)
  · exact h

theorem wf_traceEnds {crew warp hit lanes st} (h : s.memoriesWf) : (traceEnds s crew warp hit lanes st).memoriesWf := by
  dsimp only [traceEnds]
  split
  · exact h
  · exact wf_setWarp h

theorem wf_lookRoot {ctx stack root} (h : s.memoriesWf) {out} (hr : lookRoot s ctx stack root = out) : out.memoriesWf := by
  subst hr
  dsimp only [lookRoot]
  split
  · exact h
  · split
    next hr =>
      split <;> exact wf_entryTouch h hr
    · exact h
    next hr => exact wf_entryTouch h hr

theorem wf_traceLanes {b root hit ls done} (h : s.memoriesWf) {out} (hr : traceLanes b root hit ls done s = out) :
    out.1.memoriesWf := by
  subst hr
  induction ls generalizing s done with
  | nil => exact h
  | cons e rest ih =>
    dsimp only [traceLanes]
    split
    · exact ih (wf_traceEnds h)
    · split
      next hr => exact wf_lookRoot h hr
      next hr => exact ih (wf_traceEnds (wf_lookRoot h hr))
      next hr =>
        have hlook := wf_lookRoot h hr
        split
        · exact hlook
        · split
          next hr1 => exact wf_busTouch hlook hr1
          next hr1 => exact wf_traceEnds (wf_busTouch hlook hr1)
          next hr1 =>
            refine ih (wf_postMsg (wf_setRay ?_))
            split
            · exact wf_setWarp (wf_takePoolId (wf_homePuts (wf_setTag (wf_flushSector (wf_busTouch hlook hr1)))))
            · exact wf_takePoolId (wf_homePuts (wf_setTag (wf_flushSector (wf_busTouch hlook hr1))))

/-! ### Remote commands and collectives -/

theorem wf_remoteBody {w kind x} (h : s.memoriesWf) {out} (hr : remoteBody w kind x s = out) : out.memoriesWf := by
  subst hr
  unfold remoteBody
  split
  · exact h
  split
  · exact h
  split
  · exact h
  extract_lets sc t ctl sl
  split
  · exact h
  split
  · exact h
  split
  · exact h
  extract_lets job span
  split
  · split
    · exact h
    · exact h
  split
  · exact h
  · exact wf_ite (wf_enterCommand h rfl) (wf_countOut (wf_enterCommand h rfl))

theorem wf_execColl {w} (h : s.memoriesWf) : NextWf (execColl w s) := by
  dsimp only [execColl]
  refine wf_issueInstr h ?_
  intro _ _ ht
  split
  · exact ht
  · split
    · exact ht
    · split
      · exact ht
      · split
        · exact ht
        · split
          · exact ht
          · exact wf_issueCommand ht rfl

theorem wf_remoteEnds {k c f} (h : s.memoriesWf) : (remoteEnds s k c f).memoriesWf := by
  dsimp only [remoteEnds]
  split
  · exact wf_ite h (wf_countOut h)
  · exact h

theorem wf_failToken {tok reason dev} (h : s.memoriesWf) : (failToken s tok reason dev).memoriesWf := by
  dsimp only [failToken]
  split
  · exact h
  · exact wf_remoteEnds h

theorem wf_sendSeries {port f bs} (h : s.memoriesWf) : (sendSeries s port f bs).memoriesWf :=
  wf_foldl (fun ht => wf_sendFrame ht) h

theorem wf_startRemote {k c j} (h : s.memoriesWf) : (startRemote s k c j).memoriesWf := by
  dsimp only [startRemote]
  split
  · exact wf_remoteEnds h
  · split
    · exact wf_sendSeries h
    · exact wf_sendFrame h
    · exact wf_sendFrame h

theorem wf_dropColl {c} (h : s.memoriesWf) : (dropColl s c).memoriesWf :=
  h

theorem wf_putColl {c} (h : s.memoriesWf) : (putColl s c).memoriesWf := h

theorem wf_settleColl {co} (h : s.memoriesWf) : (settleColl s co).memoriesWf := by
  dsimp only [settleColl]
  split
  · exact h
  · split
    · split
      · exact wf_remoteEnds (wf_dropColl h)
      · exact wf_ite (wf_remoteEnds (wf_acquireStep (wf_dropColl (wf_noteWrites (wf_scratchPut h))))) h
    · exact h

theorem wf_sendShare {port f seq count off ws} (h : s.memoriesWf) : (sendShare s port f seq count off ws).memoriesWf :=
  wf_foldl (fun ht => wf_sendFrame ht) h

theorem wf_startColl {k c kind ty set lo count} (h : s.memoriesWf) : (startColl s k c kind ty set lo count).memoriesWf := by
  dsimp only [startColl]
  split
  · exact wf_remoteEnds h
  · refine wf_settleColl ?_
    refine wf_putColl ?_
    refine wf_foldl ?_ h
    intro _ _ ht
    split
    · exact ht
    · split
      · exact ht
      · exact wf_sendShare ht

/-! ### The start of commands -/

theorem wf_commandDone {k c status fault} (h : s.memoriesWf) : (commandDone s k c status fault).memoriesWf :=
  h

theorem wf_startMatrix {k c j} (h : s.memoriesWf) : (startMatrix s k c j).memoriesWf := by
  unfold startMatrix
  extract_lets zero s1 idx st s2
  have hzeroed : s1.memoriesWf := wf_ite (wf_foldl (fun ht => wf_modCrew ht fun _ hc => hc) h) h
  exact (wf_modCrew hzeroed fun _ hc => hc : s2.memoriesWf).frame

theorem wf_startTrace {k c root hit lanes} (h : s.memoriesWf) : (startTrace s k c root hit lanes).memoriesWf := by
  dsimp only [startTrace]
  split
  next hr => exact wf_commandDone (wf_traceLanes h hr)
  next hr => exact wf_traceLanes h hr

theorem wf_startCommand {k c} (h : s.memoriesWf) : (startCommand s k c).memoriesWf := by
  dsimp only [startCommand]
  split
  · split
    next hr => exact wf_copyJobPerform h hr
    next hr => exact wf_commandDone (wf_copyJobPerform h hr)
  · exact wf_startMatrix h
  · exact wf_commandDone (wf_tileLoad h)
  · exact wf_commandDone (wf_tileStore h rfl)
  · exact wf_startTrace h
  · exact h
  · exact wf_ite h (wf_startRemote h)
  · exact wf_startColl h

theorem wf_beginCommand {k c} (h : s.memoriesWf) : (beginCommand s k c).memoriesWf :=
  wf_noteWrites (wf_underlayNew (wf_startCommand (wf_overlayOld h)))

theorem wf_skipCommand {k c f} (h : s.memoriesWf) : (skipCommand s k c f).memoriesWf := by
  dsimp only [skipCommand]
  split
  · exact wf_remoteEnds h
  · exact wf_commandDone h

theorem wf_execCommandStart {cmd} (h : s.memoriesWf) : NextWf (execCommandStart cmd s) := by
  dsimp only [execCommandStart]
  split
  · exact h
  · split
    · split
      · exact h
      · split
        · exact wf_skipCommand h
        · split
          · exact wf_skipCommand h
          · exact wf_beginCommand h
    · exact wf_startTrace h
    · exact h

/-! ### Frames that arrive and the states of ports -/

theorem wf_dropFrame {port} (h : s.memoriesWf) : (dropFrame s port).memoriesWf :=
  wf_sendEmpty (wf_setPort h)

theorem wf_resendAll {port} (h : s.memoriesWf) : (resendAll s port).memoriesWf :=
  wf_setPort h

theorem wf_receive {port t f act} (h : s.memoriesWf) (hact : ∀ {t}, t.memoriesWf → (act t).memoriesWf) :
    (receive s port t f act).memoriesWf := by
  dsimp only [receive]
  split
  · exact h
  split
  · exact wf_dropFrame h
  have hheard := wf_setPort (p := port) (x := (getPort s port).heard s.now f) h
  split
  · exact wf_setPort (wf_takeFrames hheard)
  have htaken := hact hheard
  split
  next ht => rw [ht] at htaken; exact wf_takeFrames htaken
  · have hlater := hact h
    split
    next ht => rw [ht] at hlater; exact hlater
    next ht => rw [ht] at hlater; exact hlater

theorem wf_execBadFrame {port f} (h : s.memoriesWf) : NextWf (execBadFrame port f s) :=
  wf_ite h (wf_ite (wf_receive h (fun ht => wf_answer ht)) (wf_ite (wf_receive h (fun ht => ht)) (wf_dropFrame h)))

theorem wf_hearEmpty {port f} (h : s.memoriesWf) : (hearEmpty s port f).memoriesWf :=
  wf_pumpPort (wf_setPort h)

theorem wf_execNak {port f} (h : s.memoriesWf) : NextWf (execNak port f s) :=
  wf_ite h (wf_resendAll (wf_hearEmpty h))

theorem wf_execCreditReturn {port f} (h : s.memoriesWf) : NextWf (execCreditReturn port f s) :=
  wf_ite h (wf_hearEmpty h)

theorem wf_execRetransmitTimeout {port} (h : s.memoriesWf) : NextWf (execRetransmitTimeout port s) :=
  wf_ite (wf_resendAll h) h

theorem wf_enterPort {port st} (h : s.memoriesWf) : (enterPort s port st).memoriesWf :=
  wf_setPort h

theorem wf_portDown {port} (h : s.memoriesWf) : (portDown s port).memoriesWf :=
  wf_foldl (fun ht => wf_failToken ht) (wf_enterPort (wf_setPort h))

theorem wf_execLinkTrained {port credits} (h : s.memoriesWf) : NextWf (execLinkTrained port credits s) :=
  wf_ite h (wf_pumpPort (wf_setPort (wf_enterPort h)))

theorem wf_execTrainingTimeout {port} (h : s.memoriesWf) : NextWf (execTrainingTimeout port s) :=
  wf_ite (wf_portDown h) h

theorem wf_execErrorWindowEnd {port} (h : s.memoriesWf) : NextWf (execErrorWindowEnd port s) :=
  wf_ite h (wf_ite (wf_enterPort (wf_setPort h)) (wf_ite (wf_enterPort (wf_setPort h)) (wf_setPort h)))

theorem wf_execDrainingEnd {port} (h : s.memoriesWf) : NextWf (execDrainingEnd port s) :=
  wf_ite (wf_enterPort h) h

theorem wf_execLossOfSignal {port} (h : s.memoriesWf) : NextWf (execLossOfSignal port s) :=
  wf_ite h (wf_portDown h)

theorem wf_execPortWaitTimeout {port} (h : s.memoriesWf) : NextWf (execPortWaitTimeout port s) := by
  dsimp only [execPortWaitTimeout]
  split
  · exact h
  · split
    · exact wf_failToken h
    · exact h

theorem wf_writeLctl {port v} (h : s.memoriesWf) : (writeLctl s port v).memoriesWf :=
  wf_ite (wf_enterPort h) (wf_ite (wf_enterPort h) h)

theorem wf_execLctlRetrain {port} (h : s.memoriesWf) : NextWf (execLctlRetrain port s) :=
  wf_writeLctl h

theorem wf_execLctlStartTraining {port} (h : s.memoriesWf) : NextWf (execLctlStartTraining port s) :=
  wf_writeLctl h

theorem wf_sendFault {port f code bytes va} (h : s.memoriesWf) : (sendFault s port f code bytes va).memoriesWf :=
  wf_sendFrame h

theorem wf_clearWhole {start e va pa} (h : s.memoriesWf) : (clearWhole s start e va pa).memoriesWf :=
  wf_ite (wf_setTag h) h

theorem wf_putParts {ctx start parts n} (h : s.memoriesWf)
    {out} (hr : putParts ctx start parts n s = out) : out.memoriesWf := by
  subst hr
  induction parts generalizing s n with
  | nil => exact h
  | cons e rest ih =>
    dsimp only [putParts]
    split
    next hr => exact wf_touch h hr
    · exact h
    next hr => exact ih (wf_clearWhole (wf_homePuts (wf_touch h hr)))

theorem wf_takePut {port f} (h : s.memoriesWf) {out} (hr : takePut port f s = out) : out.memoriesWf := by
  subst hr
  unfold takePut
  extract_lets key p settle
  have hsettle {t p} (ht : t.memoriesWf) : (settle t p).memoriesWf := by
    dsimp only [settle]
    split
    · split
      · exact wf_sendFault ht
      · exact wf_sendFrame ht
    · exact ht
  split
  · exact hsettle h
  split
  · exact hsettle h
  split
  · exact hsettle h
  split
  next hr => exact wf_putParts h hr
  next hr => exact hsettle (wf_putParts h hr)

theorem wf_execPutData {port frame} (h : s.memoriesWf) : NextWf (execPutData port frame s) :=
  wf_receive h (fun ht => wf_takePut ht rfl)

theorem wf_takeGet {port f} (h : s.memoriesWf) {out} (hr : takeGet port f s = out) : out.memoriesWf := by
  subst hr
  dsimp only [takeGet]
  split
  · exact wf_sendFault h
  · split
    · exact wf_sendFault h
    · split
      next hr => exact wf_agentTouch h hr
      · exact wf_sendFault h
      next hr => exact wf_sendSeries (wf_agentTouch h hr)

theorem wf_execGetRequest {port frame} (h : s.memoriesWf) : NextWf (execGetRequest port frame s) :=
  wf_receive h (fun ht => wf_takeGet ht rfl)

theorem wf_takeSignal {port f} (h : s.memoriesWf) {out} (hr : takeSignal port f s = out) : out.memoriesWf := by
  subst hr
  dsimp only [takeSignal]
  split
  · exact wf_sendFault h
  · split
    · exact wf_sendFault h
    · split
      next hr => exact wf_touch h hr
      · exact wf_sendFault h
      next hr =>
        split
        · exact wf_sendFault (wf_touch h hr)
        · exact wf_sendFrame (wf_homePuts (wf_touch h hr))

theorem wf_execSignalMessage {port frame} (h : s.memoriesWf) : NextWf (execSignalMessage port frame s) :=
  wf_receive h (fun ht => wf_takeSignal ht rfl)

theorem wf_takeGetData {f} (h : s.memoriesWf) {out} (hr : takeGetData f s = out) : out.memoriesWf := by
  subst hr
  dsimp only [takeGetData]
  split
  · exact h
  · split
    · exact wf_ite h (wf_ite (wf_remoteEnds (wf_noteWrites (wf_scratchPut h))) ((wf_scratchPut h).frame))
    · exact h

theorem wf_execGetData {port frame} (h : s.memoriesWf) : NextWf (execGetData port frame s) :=
  wf_receive h (fun ht => wf_takeGetData ht rfl)

theorem wf_execPerformedAcknowledgement {port frame} (h : s.memoriesWf) :
    NextWf (execPerformedAcknowledgement port frame s) := by
  dsimp only [execPerformedAcknowledgement]
  refine wf_receive h ?_
  intro _ ht
  split
  · exact ht
  · split
    · exact wf_ite ht (wf_remoteEnds ht)
    · exact ht

theorem wf_execFaultResponse {port frame} (h : s.memoriesWf) : NextWf (execFaultResponse port frame s) := by
  dsimp only [execFaultResponse]
  refine wf_receive h ?_
  intro _ ht
  split
  · exact ht
  · exact wf_remoteEnds ht

theorem wf_execCollectiveSegment {port frame} (h : s.memoriesWf) : NextWf (execCollectiveSegment port frame s) := by
  dsimp only [execCollectiveSegment]
  refine wf_receive h ?_
  intro _ ht
  split
  · exact wf_sendFault ht
  · split
    · exact wf_sendFault ht
    · split
      · exact ht
      · exact wf_settleColl (wf_putColl ht)

theorem wf_hostTouch {f perm} (h : s.memoriesWf) {out} (hr : hostTouch s f perm = out) : out.memoriesWf := by
  subst hr
  dsimp only [hostTouch]
  split
  · split
    · exact trivial
    · exact h
  · split
    · exact trivial
    · exact wf_agentTouch h rfl

theorem wf_takeHostWrite {port f} (h : s.memoriesWf) {out} (hr : takeHostWrite port f s = out) : out.memoriesWf := by
  subst hr
  unfold takeHostWrite
  extract_lets key p settle
  have hsettle {t p} (ht : t.memoriesWf) : (settle t p).memoriesWf := by
    dsimp only [settle]
    split
    · split
      · exact wf_sendFault ht
      · exact wf_sendFrame ht
    · exact ht
  split
  · exact hsettle h
  split
  · exact hsettle h
  split
  next hr => exact wf_hostTouch h hr
  · exact hsettle h
  next hr => exact hsettle (wf_foldl (fun ht => wf_clearWhole ht) (wf_putBytes (wf_hostTouch h hr)))

theorem wf_execHostWrite {port frame} (h : s.memoriesWf) : NextWf (execHostWrite port frame s) :=
  wf_receive h (fun ht => wf_takeHostWrite ht rfl)

theorem wf_execHostRead {port frame} (h : s.memoriesWf) : NextWf (execHostRead port frame s) := by
  dsimp only [execHostRead]
  refine wf_receive h ?_
  intro _ ht
  split
  · exact wf_sendFault ht
  · split
    next hr1 => exact wf_hostTouch ht hr1
    · exact wf_sendFault ht
    next hr1 =>
      split
      · exact wf_sendFault (wf_hostTouch ht hr1)
      · exact wf_sendSeries (wf_hostTouch ht hr1)

theorem wf_execCollset {tok ctx set ids} (h : s.memoriesWf) : NextWf (execCollset tok ctx set ids s) :=
  wf_hostOp h (fun ht => wf_ite (wf_answer ht) (wf_ite (wf_answer ht) (wf_ite (wf_answer ht) (wf_answer ht))))

/-! ### View launches -/

theorem wf_setView {k v} (h : s.memoriesWf) : (setView s k v).memoriesWf :=
  h

theorem wf_settleView {k} (h : s.memoriesWf) : (settleView s k).memoriesWf := by
  dsimp only [settleView]
  split
  · exact wf_ite h h
  · exact h

theorem wf_stopView {k v unit code va} (h : s.memoriesWf) : (stopView s k v unit code va).memoriesWf :=
  wf_ite h (wf_settleView (wf_faultStarted (wf_postAgent (wf_setView h))))

theorem wf_putVis {k v u n p ws} (h : s.memoriesWf) {out} (hr : putVis s k v u n p ws = out) : out.memoriesWf := by
  subst hr
  dsimp only [putVis]
  split
  · exact h
  · split
    next hr => exact wf_agentTouch h hr
    · exact wf_stopView h
    next hr => exact wf_setView (wf_putBytes (wf_agentTouch h hr))

theorem wf_noRay {k v u n p st} (h : s.memoriesWf) : (noRay s k v u n p st).memoriesWf := by
  dsimp only [noRay]
  split
  next hr => exact wf_putVis h hr
  next hr =>
    split
    · exact wf_setView (wf_putVis h hr)
    · exact wf_putVis h hr

theorem wf_sendViewRay {k v u n p} (h : s.memoriesWf) : (sendViewRay s k v u n p).memoriesWf := by
  dsimp only [sendViewRay]
  split
  · exact wf_noRay h
  · split
    · exact wf_noRay h
    · split
      · exact h
      next core id _ =>
        split
        next hr => exact wf_lookRoot h hr
        next hr => exact wf_noRay (wf_lookRoot h hr)
        next hr =>
          split
          next hr1 => exact wf_agentTouch (wf_lookRoot h hr) hr1
          · exact wf_stopView (wf_lookRoot h hr)
          next pas hr1 =>
            have htouch := wf_agentTouch (wf_lookRoot h hr) hr1
            have hpool {bytes} := wf_takePoolId (ctx := v.ctx) (id := id) (wf_putBytes (pas := pas) (bs := bytes) htouch)
            exact wf_postMsg (wf_setRay (wf_setView hpool.frame))

theorem wf_viewRayMove {k u} (h : s.memoriesWf) : (viewRayMove s k u).memoriesWf := by
  dsimp only [viewRayMove]
  split
  · exact h
  · split
    · exact h
    · split
      · exact h
      · exact wf_sendViewRay h

theorem wf_execViewSampleDelivery {k} (h : s.memoriesWf) : NextWf (execViewSampleDelivery k s) := by
  dsimp only [execViewSampleDelivery]
  split
  · split
    · exact h
    · split
      · exact h
      · split
        · exact h
        · split
          · split
            · exact wf_settleContext (wf_settleView (wf_setView (wf_freePool h)))
            · exact wf_freePool h
          · split
            next hr =>
              split
              · exact wf_settleContext (wf_settleView (wf_setView (wf_freePool (wf_putVis h hr))))
              · exact wf_freePool (wf_putVis h hr)
            next hr => exact wf_putVis h hr
  · exact h

theorem wf_headerTouch {ctx perm hva lo n} (h : s.memoriesWf) {out} (hr : headerTouch s ctx perm hva lo n = out) :
    out.memoriesWf := by
  subst hr
  have htouch := wf_agentTouch h (rfl : agentTouch s none ctx perm 0 (hva + lo) n = _)
  dsimp only [headerTouch]
  split
  next hr =>
    rw [hr] at htouch
    split
    · trivial
    · exact htouch
  · exact htouch

theorem wf_appendAt {ctx hva i item} (h : s.memoriesWf) {out} (hr : appendAt s ctx hva i item = out) : out.memoriesWf := by
  subst hr
  dsimp only [appendAt]
  split
  next hr => exact wf_headerTouch h hr
  · exact h
  next hr =>
    split
    · exact wf_headerTouch h hr
    · split
      next hr1 => exact wf_agentTouch (wf_headerTouch h hr) hr1
      · exact wf_headerTouch h hr
      next hr1 =>
        split
        next hr2 => exact wf_agentTouch (wf_putBytes (wf_agentTouch (wf_headerTouch h hr) hr1)) hr2
        · exact wf_putBytes (wf_agentTouch (wf_headerTouch h hr) hr1)
        next hr2 => exact wf_putBytes (wf_agentTouch (wf_putBytes (wf_agentTouch (wf_headerTouch h hr) hr1)) hr2)

theorem wf_appendItem {ctx iq resv item} (h : s.memoriesWf)
    {out} (hr : appendItem s ctx iq resv item = out) : out.memoriesWf := by
  subst hr
  dsimp only [appendItem]
  split
  · exact h
  · exact wf_appendAt h rfl
  · split
    next hr => exact wf_headerTouch h hr
    · exact h
    next hr => exact wf_appendAt (wf_putBytes (wf_headerTouch h hr)) rfl

theorem wf_appendItems {k u items} (h : s.memoriesWf) : (appendItems k u items s).memoriesWf := by
  induction items generalizing s with
  | nil =>
    dsimp only [appendItems]
    split
    · exact h
    · exact wf_setView h
  | cons it rest ih =>
    dsimp only [appendItems]
    split
    · exact h
    · split
      next hr => exact wf_stopView (wf_appendItem h hr)
      next hr => exact wf_setView (wf_appendItem h hr)
      next hr => exact ih (wf_setView (wf_appendItem h hr))

theorem wf_execTileEmission {view vunit} (h : s.memoriesWf) : NextWf (execTileEmission view vunit s) := by
  dsimp only [execTileEmission]
  split
  · exact h
  · split
    · exact h
    · split
      · exact h
      · exact wf_appendItems h

theorem wf_closeItems {ctx iq} (h : s.memoriesWf) {out} (hr : closeItems s ctx iq = out) : out.memoriesWf := by
  subst hr
  dsimp only [closeItems]
  split
  · exact h
  · split
    next hr =>
      split
      next hr1 => exact wf_putBytes (wf_agentTouch (wf_headerTouch h hr) hr1)
      · exact wf_agentTouch (wf_headerTouch h hr) rfl
    · exact wf_headerTouch h rfl

theorem wf_execViewComplete {view} (h : s.memoriesWf) : NextWf (execViewComplete view s) := by
  dsimp only [execViewComplete]
  split
  · exact h
  · split
    · exact h
    · split
      · split
        next hr => exact wf_closeItems h hr
        · exact wf_stopView h
        next hr => exact wf_completeStarted (wf_closeItems h hr)
      · exact wf_completeStarted h

end Sys2Proof.Machine
end

section
/-! The canonical form of every memory through crews, queues, contexts and the issue of an instruction (R137-R152, R344-R371). -/

namespace Sys2Proof.Machine

variable {s : State}

/-! ### The lives of crews -/

theorem wf_fillWarp {crew warp pc} (h : s.memoriesWf) : (fillWarp s crew warp pc).memoriesWf := by
  dsimp only [fillWarp]
  split
  · exact wf_ite (wf_fillLanes h rfl) (wf_unarrive (wf_setWarp (wf_fillLanes h rfl)))
  · exact h

theorem wf_execBinAged {core bin} (h : s.memoriesWf) : NextWf (execBinAged core bin s) := by
  dsimp only [execBinAged]
  split
  · exact h
  · exact wf_ite h (wf_setCore h)

theorem wf_testLaunch {core launch} (h : s.memoriesWf) : (testLaunch s core launch).memoriesWf :=
  wf_foldl (fun ht => wf_testSync ht) h

theorem wf_execBinDraw {dws} (h : s.memoriesWf) : NextWf (execBinDraw dws s) := by
  dsimp only [execBinDraw]
  split
  · exact h
  · split
    · split
      · exact h
      · split
        · exact h
        · exact wf_testLaunch (wf_settleFilings (wf_unarrive (wf_setWarp (wf_setCore h))))
    · exact h

theorem wf_idleTrap {x t} (h : s.memoriesWf) : (idleTrap s x t).memoriesWf :=
  wf_faultContext (wf_postRecord (wf_askSave (wf_setWarp h)))

theorem wf_idleRefill {x} (h : s.memoriesWf) : (idleRefill s x).memoriesWf := by
  dsimp only [idleRefill]
  split
  · exact wf_fillWarp h
  · split
    next hr => exact wf_idleTrap h
    next hr => exact wf_nextItem h hr

theorem wf_execIdleWarpRefill {dws} (h : s.memoriesWf) : NextWf (execIdleWarpRefill dws s) := by
  dsimp only [execIdleWarpRefill]
  split
  · exact h
  · split
    · exact wf_ite h (wf_idleRefill h)
    · exact h

theorem wf_lostFault {crew warp cls f} (h : s.memoriesWf) : (lostFault s crew warp cls f).memoriesWf :=
  wf_postRecord h

theorem wf_dropSplits {core crew} (h : s.memoriesWf) : (dropSplits s core crew).memoriesWf :=
  wf_setCore h

theorem wf_retireCrew {crew} (h : s.memoriesWf) : (retireCrew s crew).memoriesWf := by
  dsimp only [retireCrew]
  split
  · exact h
  · exact wf_ite h (wf_testSync (wf_kvSetCrews (wf_dropSplits (wf_releaseStep h)) memory_wf_nil))

theorem wf_retireWarp {crew warp} (h : s.memoriesWf) : (retireWarp s crew warp).memoriesWf := by
  dsimp only [retireWarp]
  split
  · exact wf_ite h (wf_retireCrew (wf_testSync (wf_setWarp (wf_foldl (fun ht => wf_foldl (fun hu => wf_lostFault hu) ht) h))))
  · exact h

theorem wf_execWarpRetire {dws} (h : s.memoriesWf) : NextWf (execWarpRetire dws s) := by
  dsimp only [execWarpRetire]
  split
  · exact h
  · split
    · exact wf_ite (wf_retireWarp (wf_touchSource h)) h
    · exact h

theorem wf_execStoreQueueLeave {dws} (h : s.memoriesWf) : NextWf (execStoreQueueLeave dws s) := by
  dsimp only [execStoreQueueLeave]
  split
  · exact h
  · exact wf_retireCrew (wf_leaveQueue h)

theorem wf_execCommandRetire {cmd} (h : s.memoriesWf) : NextWf (execCommandRetire cmd s) := by
  dsimp only [execCommandRetire]
  split
  · exact h
  · split
    · exact h
    · split
      · split
        · exact wf_setCore h
        · exact h
      · refine wf_retireCrew ?_
        split
        · refine wf_lostFault ?_
          refine wf_setWarp ?_
          split
          · exact wf_setCore h
          · exact h
        · refine wf_setWarp ?_
          split
          · exact wf_setCore h
          · exact h

theorem wf_startCount {core ctx} (h : s.memoriesWf) : (startCount s core ctx).memoriesWf :=
  wf_setCore h

theorem wf_contextRuns {ctx} (h : s.memoriesWf) : (contextRuns s ctx).memoriesWf :=
  wf_ite (wf_setCtx h) h

theorem wf_placeNew {launch num core b} (h : s.memoriesWf) : (placeNew s launch num core b).memoriesWf :=
  wf_testSync (wf_foldl (fun ht => wf_retireWarp ht) (wf_foldl (fun ht => wf_fillWarp ht)
    (wf_contextRuns (wf_kvSetCrews (wf_stateNewId (wf_startCount h) rfl) memory_wf_nil))))

theorem wf_execCrewPlacement {launch} (h : s.memoriesWf) : NextWf (execCrewPlacement launch s) := by
  dsimp only [execCrewPlacement]
  split
  · exact h
  · split
    · exact h
    · split
      · exact h
      · exact wf_ite (wf_setLaunch (wf_foldl (fun ht => wf_placeNew ht) h)) (wf_foldl (fun ht => wf_placeNew ht) h)

theorem wf_rearmLane {ctx core dws a l lr} (h : a.memoriesWf)
    {out} (hr : rearmLane ctx core dws a l lr = out) : out.memoriesWf := by
  subst hr
  dsimp only [rearmLane]
  split
  · exact h
  · split
    next hr => exact wf_touch (s := a.s) h hr
    · exact h
    next hr =>
      have htouch := wf_touch (s := a.s) h hr
      split
      · exact wf_freePool (wf_homePuts (wf_flushSector htouch))
      · split
        · exact wf_resendCandidate (wf_homePuts (wf_flushSector htouch))
        · exact wf_homePuts (wf_flushSector htouch)

theorem wf_restoreWarp {ctx core a wp part slot} (h : a.memoriesWf) {out} (hr : restoreWarp ctx core a wp part slot = out) :
    out.memoriesWf := by
  subst hr
  exact List.foldlRecOn (motive := Rearm.memoriesWf) _ _ h fun b hb e _ => wf_rearmLane hb rfl

theorem wf_takeWays {core n} (h : s.memoriesWf) {out} (hr : takeWays s core n = out) : out.1.memoriesWf :=
  hr ▸ wf_foldl (fun ht => wf_flushSector ht) h

theorem wf_restoreCrew {key core b} (h : s.memoriesWf) : (restoreCrew s key core b).memoriesWf := by
  unfold restoreCrew
  split
  · exact h
  next c hc =>
    extract_lets s1 step
    have hstep (a : Rearm × KV Warp) (e : Nat × Warp) (ha : a.1.memoriesWf) : (step a e).1.memoriesWf := by
      dsimp only [step]
      split
      · exact ha
      · exact wf_restoreWarp ha rfl
    have hwarps : (c.warps.foldl step ({ s := s1, wp := {} }, [])).1.memoriesWf :=
      List.foldlRecOn (motive := fun a : Rearm × KV Warp => a.1.memoriesWf) _ step (wf_acquireStep (wf_startCount h))
        fun a ha e _ => hstep a e ha
    have hscratch := scratch_wf_of_kvGet h hc
    exact wf_testSync (wf_settleFilings (wf_contextRuns (wf_kvSetCrews (wf_setCore (wf_stateNewId (wf_takeWays hwarps rfl) rfl))
      hscratch)))

theorem wf_touchRecords {key core} (h : s.memoriesWf) {out} (hr : touchRecords s key core = out) : out.1.memoriesWf := by
  subst hr
  refine List.foldlRecOn (motive := fun r : State × Bool => r.1.memoriesWf) _ _ h fun r hr id _ => ?_
  dsimp only
  split
  next ht => exact wf_touch hr ht
  · exact hr
  next ht => exact wf_touch hr ht

theorem wf_execCrewRestore {crew core} (h : s.memoriesWf) : NextWf (execCrewRestore crew core s) := by
  dsimp only [execCrewRestore, NextWf]
  split
  · exact h
  · split
    · exact h
    · split
      · exact h
      next ps _ =>
        have htouched {b} : (ps.foldl (fun (a : State × Bool) p =>
            ((touchRecords a.1 p.1 p.2.1).1, a.2 || (touchRecords a.1 p.1 p.2.1).2)) (s, b)).1.memoriesWf :=
          List.foldlRecOn (motive := fun a : State × Bool => a.1.memoriesWf) _ _ h fun a ha p _ =>
            show (touchRecords a.1 p.1 p.2.1).1.memoriesWf from wf_touchRecords ha rfl
        exact wf_ite htouched (wf_foldl (fun ht => wf_restoreCrew ht) htouched)

theorem Crew.atRest_scratch (c : Crew) : c.atRest.scratch = c.scratch := by
  rfl

theorem wf_saveStops {key c} (h : s.memoriesWf) (hc : Memory.wf c.scratch) : (saveStops s key c).memoriesWf :=
  wf_postRecord (wf_faultContext (wf_kvSetCrews h hc))

theorem wf_writeImage {pas} (h : s.memoriesWf) : (writeImage s pas).memoriesWf :=
  wf_foldl (fun ht => wf_homePuts ht) h

theorem wf_imageCrew {key c at_ size} (h : s.memoriesWf) (hc : Memory.wf c.scratch) :
    (imageCrew s key c at_ size).memoriesWf := by
  dsimp only [imageCrew]
  refine wf_settleFilings (wf_kvSetCrews (wf_ite (wf_setCtx ?_) ?_) hc)
  · exact wf_setCore (wf_stateNewId h rfl)
  · exact wf_setCore (wf_stateNewId h rfl)

theorem wf_saveCrew {key c} (h : s.memoriesWf) (hc : Memory.wf c.scratch) : (saveCrew s key c).memoriesWf := by
  dsimp only [saveCrew]
  split
  · exact wf_saveStops (wf_releaseStep h) hc
  · split
    next hr => exact wf_touchSpan h hr
    · exact wf_saveStops (wf_releaseStep h) hc
    next hr => exact wf_imageCrew (wf_writeImage (wf_releaseStep (wf_touchSpan h hr))) hc

theorem wf_execCrewSave {crew} (h : s.memoriesWf) : NextWf (execCrewSave crew s) := by
  dsimp only [execCrewSave, NextWf]
  split
  · exact h
  next hc => exact wf_ite (wf_settleContext (wf_saveCrew h (scratch_wf_of_kvGet h hc))) h

theorem wf_execLaunchComplete {launch} (h : s.memoriesWf) : NextWf (execLaunchComplete launch s) := by
  dsimp only [execLaunchComplete, NextWf]
  split
  · exact h
  · refine wf_ite (wf_touchSource h) (wf_settleContext ?_)
    split
    · exact wf_completeStarted (wf_kvFilterCrews (wf_touchSource h))
    · exact wf_kvFilterCrews (wf_touchSource h)

/-! ### Queues and their commands -/

theorem wf_qsetupOp {tok queue ctx va} (h : s.memoriesWf) {out} (hr : qsetupOp tok queue ctx va s = out) : out.memoriesWf := by
  subst hr
  dsimp only [qsetupOp]
  split
  · exact wf_answer h
  · split
    · exact wf_answer h
    · split
      · exact wf_answer h
      · split
        next hr => exact wf_agentRead h hr
        · exact wf_answer h
        next hr =>
          split
          · exact wf_answer (wf_agentRead h hr)
          · split
            · exact wf_answer (wf_agentRead h hr)
            · split
              · exact wf_answer (wf_agentRead h hr)
              · split
                · exact wf_answer (wf_agentRead h hr)
                · exact wf_answer (wf_setQueue (wf_agentRead h hr))

theorem wf_execQsetup {tok queue ctx va} (h : s.memoriesWf) : NextWf (execQsetup tok queue ctx va s) :=
  wf_hostTry h (fun ht => wf_qsetupOp ht rfl)

theorem wf_execQdisable {tok queue} (h : s.memoriesWf) : NextWf (execQdisable tok queue s) :=
  wf_hostOp h (fun ht => wf_ite (wf_answer ht) (wf_ite (wf_answer ht) (wf_answer (wf_setQueue ht))))

theorem wf_execQresume {tok queue skip} (h : s.memoriesWf) : NextWf (execQresume tok queue skip s) :=
  wf_hostOp h (fun ht => wf_ite (wf_answer ht)
    (wf_ite (wf_answer ht) (wf_answer (wf_ite (wf_writeStatus (wf_setQueue ht)) (wf_setQueue ht)))))

theorem wf_execDoorbell {queue tail} (h : s.memoriesWf) : NextWf (execDoorbell queue tail s) :=
  wf_hostOp h (fun ht => wf_ite ht (wf_setQueue ht))

theorem wf_iqsetupOp {tok ctx iq va} (h : s.memoriesWf) {out} (hr : iqsetupOp tok ctx iq va s = out) : out.memoriesWf := by
  subst hr
  dsimp only [iqsetupOp]
  split
  · exact wf_answer h
  · split
    · exact wf_answer h
    · split
      · exact wf_answer h
      · split
        · exact wf_answer h
        · split
          · exact wf_answer h
          · split
            next hr => exact wf_touch h hr
            · exact wf_answer h
            next hr =>
              split
              next hr1 => exact wf_touch (wf_touch h hr) hr1
              · exact wf_answer (wf_touch h hr)
              next hr1 => exact wf_answer (wf_setCtx (wf_touch (wf_touch h hr) hr1))

theorem wf_execIqsetup {tok ctx iq va} (h : s.memoriesWf) : NextWf (execIqsetup tok ctx iq va s) :=
  wf_hostTry h (fun ht => wf_iqsetupOp ht rfl)

theorem wf_markStarted {q c k} (h : s.memoriesWf) : (markStarted s q c k).memoriesWf :=
  wf_writeStatus (wf_setQueue h)

theorem wf_serveQueue {q kind start} (h : s.memoriesWf) (hstart : ∀ {t x c}, t.memoriesWf → (start t x c).memoriesWf) :
    (serveQueue s q kind start).memoriesWf := by
  dsimp only [serveQueue]
  split
  · exact h
  · split
    next hr => exact wf_agentRead h hr
    · exact wf_ite (wf_faultQueue h) (wf_faultQueue h)
    next c hr =>
      have hread := wf_agentRead h hr
      refine wf_ite (wf_faultQueue hread) (wf_ite (wf_faultQueue hread) (wf_ite hread (wf_ite (wf_setQueue hread) ?_)))
      have hstarted := hstart (x := getQueue s q) (c := c) hread
      split
      next hs => rw [hs] at hstarted; exact hstarted
      next hs => rw [hs] at hstarted; exact wf_faultQueue hstarted
      next hs => rw [hs] at hstarted; exact wf_markStarted hstarted
      next hs => rw [hs] at hstarted; exact wf_completeStarted (wf_markStarted hstarted)

theorem wf_semRead {ctx c} (h : s.memoriesWf) {out} (hr : semRead s ctx c = out) : out.memoriesWf := by
  subst hr
  dsimp only [semRead]
  split
  · trivial
  split
  next hr => exact wf_agentRead h hr
  · trivial
  next hr =>
    have hread := wf_agentRead h hr
    exact iteInduction (motive := SemRead.memoriesWf) (fun _ => hread) fun _ => hread

theorem wf_execSemwait {queue} (h : s.memoriesWf) : NextWf (execSemwait queue s) := by
  dsimp only [execSemwait]
  refine wf_serveQueue h ?_
  intro _ _ _ ht
  split
  next hr1 => exact wf_semRead ht hr1
  next hr1 => exact wf_semRead ht hr1
  next hr1 => exact wf_semRead ht hr1
  · exact ht

theorem wf_execSemwaitRecheck {queue} (h : s.memoriesWf) : NextWf (execSemwaitRecheck queue s) := by
  dsimp only [execSemwaitRecheck]
  split
  · split
    next hr => exact wf_completeStarted (wf_semRead h hr)
    next hr => exact wf_semRead h hr
    next hr => exact wf_semRead h hr
    · exact wf_faultStarted h
  · exact h

theorem wf_semWord {perm f x c} (hf : ∀ {t pa}, t.memoriesWf → (f t pa).memoriesWf) (h : s.memoriesWf)
    {out} (hr : semWord perm f s x c = out) : out.memoriesWf := by
  subst hr
  dsimp only [semWord]
  split
  · exact h
  · split
    next hr => exact wf_touch h hr
    · exact h
    next hr =>
      split
      · exact wf_touch h hr
      · exact hf (wf_touch h hr)

theorem wf_execSemsignal {queue} (h : s.memoriesWf) : NextWf (execSemsignal queue s) :=
  wf_serveQueue h (fun ht => wf_semWord (fun hu => wf_homePuts hu) ht rfl)

theorem wf_execQueueFence {queue} (h : s.memoriesWf) : NextWf (execQueueFence queue s) := by
  dsimp only [execQueueFence]
  refine wf_serveQueue h ?_
  intro _ _ _ ht
  split
  · exact ht
  · exact wf_semWord (fun hu => wf_homePuts hu) ht rfl

theorem wf_execRangeop {queue} (h : s.memoriesWf) : NextWf (execRangeop queue s) := by
  dsimp only [execRangeop]
  refine wf_serveQueue h ?_
  intro _ _ _ ht
  split <;> exact ht

theorem wf_execView {queue} (h : s.memoriesWf) : NextWf (execView queue s) := by
  dsimp only [execView]
  refine wf_serveQueue h ?_
  intro _ _ _ ht
  split
  · exact ht
  · split
    next hr1 => exact wf_agentRead ht hr1
    · exact ht
    next hr1 =>
      split
      · exact wf_agentRead ht hr1
      · exact wf_setView (wf_stateNewId (wf_agentRead ht hr1) rfl)

/-! ### LAUNCH -/

theorem wf_readSpans {ctx spans} (h : s.memoriesWf) {out} (hr : readSpans ctx spans s = out) : out.memoriesWf := by
  subst hr
  induction spans generalizing s with
  | nil => exact h
  | cons e rest ih =>
    dsimp only [readSpans]
    split
    next hr => exact wf_agentRead h hr
    · exact h
    next hr =>
      have hrest := ih (wf_agentRead h hr)
      split
      next hs => rw [hs] at hrest; exact hrest
      · exact hrest

theorem wf_readLaunch {ctx c} (h : s.memoriesWf) {out} (hr : readLaunch s ctx c = out) : out.memoriesWf := by
  subst hr
  dsimp only [readLaunch]
  split
  next hr => exact wf_readSpans h hr
  next hr => exact wf_readSpans h hr
  next hr =>
    split
    next hr1 => exact wf_readSpans (wf_readSpans h hr) hr1
    next hr1 => exact wf_readSpans (wf_readSpans h hr) hr1
    next hr1 =>
      split
      next hr2 => exact wf_readSpans (wf_readSpans (wf_readSpans h hr) hr1) hr2
      next hr2 => exact wf_readSpans (wf_readSpans (wf_readSpans h hr) hr1) hr2
      next hr2 => exact wf_readSpans (wf_readSpans (wf_readSpans h hr) hr1) hr2

theorem wf_execLaunch {queue} (h : s.memoriesWf) : NextWf (execLaunch queue s) := by
  dsimp only [execLaunch]
  refine wf_serveQueue h ?_
  intro _ _ _ ht
  split
  next hr1 => exact wf_readLaunch ht hr1
  next hr1 => exact wf_readLaunch ht hr1
  next hr1 =>
    split
    · exact wf_readLaunch ht hr1
    · exact wf_setLaunch (wf_clearCode (wf_stateNewId (wf_readLaunch ht hr1) rfl))

/-! ### Operations on contexts -/

theorem wf_ctxOp {op tok ctx sts act} (hact : ∀ {t}, t.memoriesWf → (act t).memoriesWf) (h : s.memoriesWf) :
    NextWf (ctxOp op tok ctx sts act s) :=
  wf_hostOp h (fun ht => wf_ite (wf_answer ht) (wf_ite (wf_answer ht) (hact ht)))

theorem wf_execCreate {tok ctx pa} (h : s.memoriesWf) : NextWf (execCreate tok ctx pa s) := by
  dsimp only [execCreate]
  refine wf_ctxOp ?_ h
  intro _ ht
  split
  · exact wf_answer ht
  · split
    · exact wf_answer ht
    · exact wf_answer (wf_foldl (fun hu => wf_recordAreaPut hu) (wf_setCtx ht))

theorem wf_execSuspend {tok ctx} (h : s.memoriesWf) : NextWf (execSuspend tok ctx s) :=
  wf_ctxOp (fun ht => wf_settleContext (wf_answer (wf_foldl (fun hu => wf_askSave hu) (wf_setCtx ht)))) h

theorem wf_resumeContext {ctx desc} (h : s.memoriesWf) : (resumeContext s ctx desc).memoriesWf := by
  refine wf_kvMapCrews (wf_setCtx h) fun k c hc => ?_
  split
  · exact hc
  · exact hc

theorem wf_execResume {tok ctx pa} (h : s.memoriesWf) : NextWf (execResume tok ctx pa s) := by
  dsimp only [execResume]
  refine wf_ctxOp ?_ h
  intro _ ht
  split
  · exact wf_answer (wf_resumeContext ht)
  · split
    · exact wf_answer ht
    · split
      · exact wf_answer ht
      · exact wf_ite (wf_answer ht) (wf_answer (wf_resumeContext ht))

theorem wf_execDrain {tok ctx} (h : s.memoriesWf) : NextWf (execDrain tok ctx s) :=
  wf_ctxOp (fun ht => wf_settleContext (wf_answer (wf_setCtx ht))) h

theorem wf_execDestroy {tok ctx} (h : s.memoriesWf) : NextWf (execDestroy tok ctx s) := by
  refine wf_ctxOp (fun ht => wf_answer (wf_kvMapCrews (wf_setCtx (wf_dropVersions ht)) fun k c hc => ?_)) h
  split
  · exact hc
  · exact hc

theorem wf_execRready {tok ctx} (h : s.memoriesWf) : NextWf (execRready tok ctx s) := by
  refine wf_hostOp h fun ht => wf_ite (wf_answer ht) (wf_ite (wf_answer ht) (wf_answer (wf_kvMapCrews ht fun k c hc => ?_)))
  split
  · exact hc
  · exact hc

theorem wf_discardTier {ctx} (h : s.memoriesWf) : (discardTier s ctx).memoriesWf := by
  refine wf_foldl (fun {t e} ht => wf_ite ?_ ht) h
  obtain ⟨hmem, htier, hcrews⟩ := ht
  exact ⟨hmem, cellsClear_wf htier _ _, hcrews⟩

theorem wf_forgetContext {ctx} (h : s.memoriesWf) : (forgetContext s ctx).memoriesWf :=
  wf_kvFilterCrews (p := fun _ c => c.ctx != ctx) h

theorem wf_execContextRelease {ctx} (h : s.memoriesWf) : NextWf (execContextRelease ctx s) :=
  wf_ite h (wf_forgetContext (wf_discardTier (wf_foldl (fun ht => wf_flushExtent ht) (wf_dropTables h))))

/-! ### Fetching an instruction -/

theorem wf_wordAt {core pa} (h : s.memoriesWf) {out} (hr : wordAt s core pa = out) : out.1.memoriesWf :=
  hr ▸ wf_readCode h rfl

theorem wf_checkWord {x v} (h : s.memoriesWf) {out} (hr : checkWord s x v = out) : out.memoriesWf := by
  subst hr
  unfold checkWord
  split
  · exact wf_takeTrap h
  · split
    · exact wf_takeTrap h
    · extract_lets ends
      split
      · exact wf_takeTrap h
      · exact h

theorem wf_rebuildRow {x locs} (h : s.memoriesWf) : (rebuildRow s x locs).memoriesWf :=
  wf_sitePut h

theorem wf_rebuildStacks {x} (h : s.memoriesWf) {out} (hr : rebuildStacks s x = out) : out.memoriesWf := by
  subst hr
  dsimp only [rebuildStacks]
  split
  · exact wf_takeTrap h
  next hr => exact wf_sitePut (wf_checkLanes h hr)
  next hr =>
    split
    · exact wf_rebuildRow (wf_checkLanes h hr)
    · exact wf_sitePut h

theorem wf_planAt (h : s.memoriesWf) {out} (hr : planAt s = out) : out.memoriesWf := by
  subst hr
  dsimp only [planAt]
  split
  · exact h
  · split
    · exact wf_rebuildStacks h rfl
    · split
      next hr => exact wf_checkWord (wf_wordAt (wf_checkLanes h hr) rfl) rfl
      next hr => exact wf_checkLanes h hr
      next hr => exact wf_sitePut (wf_checkLanes h hr)
      · exact wf_takeTrap h

theorem wf_issuePlan {core part slot} (h : s.memoriesWf) {out} (hr : issuePlan s core part slot = out) : out.memoriesWf := by
  subst hr
  dsimp only [issuePlan]
  split
  · exact h
  · exact wf_planAt (s := { s with issuing := some _ }) h rfl

end Sys2Proof.Machine
end

section
/-! The canonical form of every memory through moves of units, range requests, schedules, system registers and the debugger
(R153-R186, R348-R351, R401-R460). -/

namespace Sys2Proof.Machine

variable {s : State}

/-! ### Units between frames and the tier -/

theorem wf_beginMove {m} (h : s.memoriesWf) : (beginMove s m).memoriesWf :=
  h

theorem wf_frameFor {ring} (h : s.memoriesWf) {out} (hr : frameFor s ring = out) : SomeSndWf out := by
  subst hr
  dsimp only [frameFor]
  split
  · exact wf_takeFrame h rfl
  · exact wf_takeLocal h rfl

theorem wf_returnFrame {ring pa} (h : s.memoriesWf) : (returnFrame s ring pa).memoriesWf :=
  wf_ite h (wf_giveFrame h)

theorem wf_frameRetryMove {k} (h : s.memoriesWf) : (frameRetryMove s k).memoriesWf := by
  dsimp only [frameRetryMove]
  split
  · split
    · split
      next hr => exact wf_frameFor h hr
      · exact h
    · split
      next hr => exact wf_frameFor h hr
      · exact h
    · exact h
  · exact h

theorem wf_tierToHome {ctx back pa n} (h : s.memoriesWf) : (tierToHome s ctx back pa n).memoriesWf := by
  obtain ⟨hmem, htier, hcrews⟩ := h
  exact ⟨cellsMove_wf hmem _ _ _ _, htier, hcrews⟩

theorem wf_wearUnit {unit} (h : s.memoriesWf) : (wearUnit s unit).memoriesWf :=
  h

theorem wf_withTier {m tags owner} (h : s.memoriesWf) (hm : Memory.wf m) :
    { s with tier := m, tierTags := tags, tierOwner := owner }.memoriesWf := by
  obtain ⟨hmem, -, hcrews⟩ := h
  exact ⟨hmem, hm, hcrews⟩

theorem wf_homeToTier {ctx pa back n} (h : s.memoriesWf) : (homeToTier s ctx pa back n).memoriesWf := by
  unfold homeToTier
  generalize List.map _ _ = units
  have hworn : (units.foldl wearUnit s).memoriesWf := wf_foldl (fun ht => wf_wearUnit ht) h
  obtain ⟨-, htier, -⟩ := id hworn
  exact wf_withTier hworn (cellsMove_wf htier _ _ _ _)

theorem wf_wakeMove {k why} (h : s.memoriesWf) : (wakeMove s k why).memoriesWf := by
  refine wf_kvMapCrews h fun _ c hc => ?_
  split
  · exact hc
  · exact hc

theorem wf_finishRmove {k m x dst} (h : s.memoriesWf) : (finishRmove s k m x dst).memoriesWf := by
  refine wf_ite h (wf_wakeMove (wf_noteResident (wf_setSlot ?_)))
  obtain ⟨hmem, htier, hcrews⟩ := wf_flushExtent h
  exact ⟨cellsMove_wf hmem _ _ _ _, htier, hcrews⟩

theorem wf_finishEvict {k x ring ctx since} (h : s.memoriesWf) : (finishEvict s k x ring ctx since).memoriesWf :=
  wf_ite h (wf_wakeMove (wf_foldl (fun ht => wf_returnFrame ht) (wf_setSlot (wf_homeToTier (wf_flushExtent h)))))

theorem wf_finishRecall {k m x frame} (h : s.memoriesWf) : (finishRecall s k m x frame).memoriesWf :=
  wf_wakeMove (wf_noteResident (wf_setSlot (wf_tierToHome h)))

theorem wf_execMoveComplete {k} (h : s.memoriesWf) : NextWf (execMoveComplete k s) := by
  dsimp only [execMoveComplete]
  split
  · exact h
  · split
    · exact h
    · split
      · split
        · split
          next hr => exact wf_wakeMove (wf_placeAt h hr)
          · exact wf_wakeMove (wf_returnFrame h)
        · exact wf_wakeMove (wf_returnFrame h)
      · exact wf_ite h (wf_finishRecall h)
      · exact wf_finishEvict h
      · exact wf_finishRmove h
      · exact h
      · exact wf_wakeMove h

theorem wf_nextState {o} (ho : NextWf o) (h : s.memoriesWf) : (nextState o s).memoriesWf := by
  cases o with
  | next t => exact ho
  | fault r => exact h
  | refused r => exact h

theorem wf_tryFailed {u act} (h : s.memoriesWf) (hact : ∀ {t}, t.memoriesWf → (act t).memoriesWf) :
    (tryFailed u s act).memoriesWf :=
  wf_ite h (hact (t := { s with failedUnit := some u }) h).frame

theorem wf_commandTouches {ctx} {act : State → State} (hact : act ∈ commandTouches s ctx) {t} (h : t.memoriesWf) :
    (act t).memoriesWf := by
  obtain ⟨l, hl, hact⟩ := List.mem_flatten.1 hact
  obtain ⟨⟨k, c⟩, -, rfl⟩ := List.mem_map.1 hl
  dsimp only at hact
  split at hact
  · cases hact
  split at hact
  · obtain ⟨l, -, rfl⟩ := List.mem_map.1 hact
    exact wf_nextState (wf_execFilterRequestEnd h) h
  · cases hact
  · cases hact
  · obtain rfl := List.mem_singleton.1 hact
    exact wf_nextState (wf_execCommandStart h) h

theorem wf_rayTouches {ctx} {act : State → State} (hact : act ∈ rayTouches s ctx) {t} (h : t.memoriesWf) :
    (act t).memoriesWf := by
  unfold rayTouches at hact
  rcases List.mem_append.1 hact with hact | hact
  · rcases List.mem_append.1 hact with hact | hact
    · obtain ⟨l, hl, hact⟩ := List.mem_flatten.1 hact
      obtain ⟨⟨k, m⟩, -, rfl⟩ := List.mem_map.1 hl
      simp only [List.mem_cons, List.not_mem_nil, or_false] at hact
      rcases hact with rfl | rfl | rfl | rfl | rfl | rfl
      · exact wf_nextState (wf_execRayAdmit h) h
      · exact wf_nextState (wf_execHitDelivery h) h
      · exact wf_nextState (wf_execCandidateDelivery h) h
      · exact wf_nextState (wf_execCandidateReturn h) h
      · exact wf_nextState (wf_execCandidateAnswer h) h
      · exact wf_nextState (wf_execViewSampleDelivery h) h
    · obtain ⟨⟨k, q⟩, -, rfl⟩ := List.mem_map.1 hact
      exact wf_nextState (wf_execTreeletBatch h) h
  · obtain ⟨l, hl, hact⟩ := List.mem_flatten.1 hact
    obtain ⟨⟨core, co⟩, -, rfl⟩ := List.mem_map.1 hl
    obtain ⟨i, -, rfl⟩ := List.mem_map.1 hact
    exact wf_tableOpMove h

theorem wf_queueTouches {ctx} {act : State → State} (hact : act ∈ queueTouches s ctx) {t} (h : t.memoriesWf) :
    (act t).memoriesWf := by
  unfold queueTouches at hact
  simp only [List.mem_append, List.mem_flatten, List.mem_map, List.mem_cons, List.not_mem_nil, or_false] at hact
  obtain ((hview | hqueue) | rfl) | ⟨_, -, rfl⟩ := hact
  · obtain ⟨_, ⟨⟨k, v⟩, -, rfl⟩, hact⟩ := hview
    simp only [List.mem_append, List.mem_flatten, List.mem_map, List.mem_cons, List.not_mem_nil, or_false] at hact
    obtain ⟨_, ⟨u, -, rfl⟩, hact⟩ | rfl := hact
    · simp only [List.mem_cons, List.not_mem_nil, or_false] at hact
      obtain rfl | rfl := hact
      · exact wf_viewRayMove h
      · exact wf_nextState (wf_execTileEmission h) h
    · exact wf_nextState (wf_execViewComplete h) h
  · obtain ⟨_, ⟨⟨k, q⟩, -, rfl⟩, hact⟩ := hqueue
    simp only [List.mem_cons, List.not_mem_nil, or_false] at hact
    obtain rfl | rfl | rfl | rfl | rfl | rfl | rfl := hact
    · exact wf_nextState (wf_execLaunch h) h
    · exact wf_nextState (wf_execView h) h
    · exact wf_nextState (wf_execSemwait h) h
    · exact wf_nextState (wf_execSemwaitRecheck h) h
    · exact wf_nextState (wf_execSemsignal h) h
    · exact wf_nextState (wf_execQueueFence h) h
    · exact wf_ite (wf_writeStatus h) h
  · exact wf_areaWriteMove h
  · exact wf_nextState (wf_execCrewSave h) h

theorem wf_failTouches {ctx lo hi} (h : s.memoriesWf) : (failTouches s ctx lo hi).memoriesWf := by
  refine List.foldlRecOn (motive := State.memoriesWf) _ _ h fun t ht act hact => wf_tryFailed ht fun hu => ?_
  rcases List.mem_append.1 hact with hact | hact
  · rcases List.mem_append.1 hact with hact | hact
    · exact wf_commandTouches hact hu
    · exact wf_rayTouches hact hu
  · exact wf_queueTouches hact hu

theorem wf_failRequest {m} (h : s.memoriesWf) : (failRequest s m).memoriesWf := by
  dsimp only [failRequest]
  split
  · exact wf_ite h h
  · exact h

theorem wf_frameTimeout {k m} (h : s.memoriesWf) : (frameTimeout s k m).memoriesWf := by
  dsimp only [frameTimeout]
  split
  · exact h
  · split
    · exact wf_failTouches (wf_wakeMove h)
    · refine wf_failTouches ?_
      refine wf_wakeMove ?_
      refine wf_failRequest ?_
      split
      · exact wf_ite (wf_setSlot h) h
      · exact h
    · exact h

theorem wf_noteResidents (h : s.memoriesWf) : (noteResidents s).memoriesWf :=
  h

theorem wf_takeVictim {ring v} (h : s.memoriesWf) : (takeVictim s ring v).memoriesWf := by
  dsimp only [takeVictim]
  refine wf_beginMove ?_
  split
  next hr => exact wf_replaceSlot h hr
  · exact wf_setSlot h

theorem wf_evictStartMove {ring} (h : s.memoriesWf) : (evictStartMove s ring).memoriesWf := by
  dsimp only [evictStartMove]
  split
  · exact h
  · split
    · exact wf_takeVictim h
    · exact h

/-! ### Range requests -/

theorem wf_sendRange {i w code args} (h : s.memoriesWf) : NextWf (sendRange i w code args s) := by
  dsimp only [sendRange]
  refine wf_issueInstr h ?_
  intro _ _ ht
  split
  · exact ht
  · split
    · exact ht
    · exact (wf_releaseStep ht).frame

theorem wf_execRsplit {w} (h : s.memoriesWf) : NextWf (execRsplit w s) :=
  wf_sendRange h

theorem wf_execRmerge {w} (h : s.memoriesWf) : NextWf (execRmerge w s) :=
  wf_sendRange h

theorem wf_execRinv {w} (h : s.memoriesWf) : NextWf (execRinv w s) :=
  wf_sendRange h

theorem wf_execRhint {w} (h : s.memoriesWf) : NextWf (execRhint w s) :=
  wf_sendRange h

theorem wf_execRmove {w} (h : s.memoriesWf) : NextWf (execRmove w s) :=
  wf_sendRange h

theorem wf_execRcmpt {w} (h : s.memoriesWf) : NextWf (execRcmpt w s) :=
  wf_sendRange h

theorem wf_execRprobe {w} (h : s.memoriesWf) : NextWf (execRprobe w s) :=
  wf_sendRange h

theorem wf_execStep {w} (h : s.memoriesWf) : NextWf (execStep w s) :=
  wf_sendRange h

theorem wf_rangeTryStatus {n} (h : s.memoriesWf) {out} (hr : RangeTry.status s n = out) : out.memoriesWf :=
  hr ▸ h

theorem wf_splitAt {ctx x va} (h : s.memoriesWf) {out} (hr : splitAt s ctx x va = out) : SomeWf out := by
  subst hr
  dsimp only [splitAt]
  cases hr : replaceSlot s x [cutPiece x.piece x.piece.base va, cutPiece x.piece va x.piece.lim] with
  | none => trivial
  | some t => exact wf_dropTables (wf_replaceSlot h hr)

theorem wf_rsplitOp {r} (h : s.memoriesWf) {out} (hr : rsplitOp s r = out) : out.memoriesWf := by
  subst hr
  dsimp only [rsplitOp]
  split
  · exact wf_rangeTryStatus h rfl
  · split
    · exact trivial
    · exact wf_rangeTryStatus h rfl
    · split
      · exact wf_rangeTryStatus h rfl
      · split
        · exact h
        · split
          next hr => exact wf_rangeTryStatus (wf_splitAt h hr) rfl
          · exact wf_rangeTryStatus h rfl

theorem wf_rmergeOp {r} (h : s.memoriesWf) {out} (hr : rmergeOp s r = out) : out.memoriesWf := by
  subst hr
  dsimp only [rmergeOp]
  split
  · exact wf_rangeTryStatus h rfl
  · split
    · exact wf_rangeTryStatus h rfl
    · split
      · split
        · exact wf_rangeTryStatus h rfl
        · exact wf_rangeTryStatus (wf_dropTables (wf_writeLeaf h)) rfl
      · exact trivial
      · exact trivial
      · exact wf_rangeTryStatus h rfl
      · exact wf_rangeTryStatus h rfl

theorem wf_hintFrom {ctx hi hint fuel va} (h : s.memoriesWf) {out} (hr : hintFrom ctx hi hint fuel va s = out) :
    out.1.memoriesWf := by
  subst hr
  induction fuel generalizing s va with
  | zero => exact h
  | succ fuel ih =>
    unfold hintFrom
    split
    · exact h
    · extract_lets p cut q
      have hcut (at_ : Nat) : (cut at_).1.memoriesWf := by
        dsimp only [cut]
        split
        · exact h
        · split
          · exact h
          next hr => exact ih (wf_splitAt h hr)
      split
      · exact hcut va
      split
      · exact hcut hi
      · exact ih (wf_dropTables (wf_setSlot h))

theorem wf_rhintOp {r} (h : s.memoriesWf) {out} (hr : rhintOp s r = out) : out.memoriesWf := by
  subst hr
  dsimp only [rhintOp]
  split
  · exact wf_rangeTryStatus h rfl
  · split
    · exact wf_rangeTryStatus h rfl
    · split
      · exact trivial
      · split
        · exact wf_rangeTryStatus h rfl
        · exact wf_rangeTryStatus (wf_hintFrom h rfl) rfl

theorem wf_rprobeOp {r} (h : s.memoriesWf) {out} (hr : rprobeOp s r = out) : out.memoriesWf := by
  subst hr
  dsimp only [rprobeOp]
  split
  · exact trivial
  · exact wf_rangeTryStatus h rfl

theorem wf_stepOp {r} (h : s.memoriesWf) {out} (hr : stepOp s r = out) : out.memoriesWf :=
  hr ▸ wf_setCtx h

theorem wf_setHead {r} (h : s.memoriesWf) : (setHead s r).memoriesWf :=
  h

theorem wf_rinvBegin {r} (h : s.memoriesWf) : (rinvBegin s r).memoriesWf :=
  wf_ite (wf_setHead h) (wf_ite h (wf_setHead (wf_dropTables h)))

theorem wf_rmoveBegin {r} (h : s.memoriesWf) : (rmoveBegin s r).memoriesWf := by
  dsimp only [rmoveBegin]
  split
  · exact wf_setHead h
  · split
    · exact wf_setHead h
    · split
      · exact h
      · exact wf_setHead h
      · exact wf_ite (wf_ite (wf_setHead h) (wf_ite (wf_setHead h) (wf_setHead (wf_beginMove (wf_setSlot h)))))
          (wf_ite (wf_ite (wf_setHead h) (wf_setHead (wf_beginMove (wf_setSlot h)))) (wf_ite (wf_setHead h) (wf_setHead h)))

theorem wf_rmoveNext {r} (h : s.memoriesWf) : (rmoveNext s r).memoriesWf := by
  dsimp only [rmoveNext]
  split
  · exact h
  · split
    · exact h
    · split
      next hr => exact wf_startRecall h hr
      next hr => exact wf_startRecall h hr
      · exact wf_setHead h

theorem wf_rcmptBegin {r} (h : s.memoriesWf) : (rcmptBegin s r).memoriesWf :=
  wf_ite (wf_setHead h) (wf_ite (wf_setHead h) (wf_setHead h))

theorem wf_rcmptNext {r} (h : s.memoriesWf) : (rcmptNext s r).memoriesWf := by
  dsimp only [rcmptNext]
  split
  · exact h
  · split
    · exact h
    · split
      · exact wf_setHead h
      · split
        · exact wf_setHead h
        next hr =>
          split
          next hr1 => exact wf_beginMove (wf_setHead (wf_takeFrame (wf_replaceSlot h hr) hr1))
          · exact wf_ite (wf_setHead h) h

theorem wf_setLock {ctx v} (h : s.memoriesWf) : (setLock s ctx v).memoriesWf :=
  wf_homePuts h

theorem wf_lockBegin {r} (h : s.memoriesWf) : (lockBegin s r).memoriesWf :=
  wf_ite (wf_setLock (wf_setHead h)) h

theorem wf_lockEnd {r} (h : s.memoriesWf) : (lockEnd s r).memoriesWf :=
  wf_ite (wf_setLock h) h

theorem wf_rangeBeginMove (h : s.memoriesWf) : (rangeBeginMove s).memoriesWf := by
  dsimp only [rangeBeginMove]
  split
  · exact h
  · split
    · exact wf_lockBegin h
    · exact wf_lockBegin h
    · exact wf_lockBegin h
    · exact wf_rinvBegin h
    · exact wf_rmoveBegin h
    · exact wf_rmoveNext h
    · exact wf_rcmptBegin h
    · exact wf_ite (wf_rcmptNext h) h
    · exact h

theorem wf_rangeTry {r} (h : s.memoriesWf) {out} (hr : rangeTry s r = out) : out.memoriesWf := by
  subst hr
  dsimp only [rangeTry]
  split
  · exact wf_rsplitOp h rfl
  · exact wf_rmergeOp h rfl
  · exact wf_rhintOp h rfl
  · exact wf_rprobeOp h rfl
  · exact wf_stepOp h rfl
  · split
    · exact trivial
    · exact wf_rangeTryStatus (wf_foldl (fun ht => wf_flushExtent ht) h) rfl

theorem wf_deliverRange {r v} (h : s.memoriesWf) : (deliverRange s r v).memoriesWf := by
  dsimp only [deliverRange]
  split
  · split
    · exact wf_setWarp h
    · exact h
  · split
    · exact wf_ite (wf_completeStarted h) (wf_faultStarted h)
    · exact h
  · exact h

theorem wf_execRangeOpComplete {k} (h : s.memoriesWf) : NextWf (execRangeOpComplete k s) := by
  dsimp only [execRangeOpComplete]
  split
  · exact h
  · split
    · exact h
    · split
      · exact h
      next hr => exact wf_deliverRange (wf_lockEnd (wf_rangeTry h hr))

/-! ### Slices, deadlines and evictions -/

theorem wf_execGrow {w} (h : s.memoriesWf) : NextWf (execGrow w s) := by
  dsimp only [execGrow]
  refine wf_issueInstr h ?_
  intro _ _ ht
  split
  · exact ht
  · split
    · split <;> exact ht
    · split
      · exact ht
      · split
        · exact ht
        · split
          · exact ht
          · exact wf_stateNewId ht rfl

theorem wf_execShrink {w} (h : s.memoriesWf) : NextWf (execShrink w s) := by
  dsimp only [execShrink]
  refine wf_issueInstr h ?_
  intro _ _ ht
  split
  · exact ht
  · split
    · exact ht
    · split <;> exact ht

theorem wf_execGrowGrant {core part} (h : s.memoriesWf) : NextWf (execGrowGrant core part s) := by
  dsimp only [execGrowGrant]
  split
  · exact h
  · split
    · exact h
    · split
      · exact wf_setWarp h
      · exact h

theorem wf_execRegisterStallResolution {core} (h : s.memoriesWf) : NextWf (execRegisterStallResolution core s) := by
  dsimp only [execRegisterStallResolution]
  split
  · split
    · exact h
    · split
      · exact wf_foldl (fun ht => wf_askSave ht) (wf_setCore h)
      · split
        · exact wf_setWarp (wf_setCore h)
        · exact wf_setCore h
  · exact h

theorem wf_execStallEviction {dws} (h : s.memoriesWf) : NextWf (execStallEviction dws s) := by
  dsimp only [execStallEviction]
  split
  · exact h
  · split
    · exact h
    · split
      · exact wf_ite (wf_setWarp h) h
      · exact h

theorem wf_without {keys} (h : s.memoriesWf) : (without s keys).memoriesWf := by
  refine wf_kvMapCrews h fun k c hc => ?_
  split
  · exact hc
  · exact hc

theorem wf_pick {key grace} (h : s.memoriesWf) : (pick s key grace).memoriesWf := by
  refine wf_modCrew h fun _ hc => ?_
  split
  · exact hc
  · exact hc

theorem wf_execSliceExpiry {core ctx} (h : s.memoriesWf) : NextWf (execSliceExpiry core ctx s) := by
  dsimp only [execSliceExpiry]
  split
  · exact wf_ite h (wf_foldl (fun ht => wf_pick ht) (wf_setCore h))
  · exact h

theorem wf_execYieldDeadlineExpiry {crew} (h : s.memoriesWf) : NextWf (execYieldDeadlineExpiry crew s) := by
  dsimp only [execYieldDeadlineExpiry]
  split
  · exact h
  · split
    · exact wf_ite (wf_modCrew h fun _ hc => hc) h
    · exact h

theorem wf_execNpregBudgetExpiry {crew} (h : s.memoriesWf) : NextWf (execNpregBudgetExpiry crew s) := by
  refine wf_modCrew h fun c hc => ?_
  split
  · split
    · exact hc
    · exact hc
  · exact hc

theorem wf_execThermalMigration {hot} (h : s.memoriesWf) : NextWf (execThermalMigration hot s) := by
  refine wf_kvMapCrews h fun k c hc => ?_
  split
  · exact (c.ask_scratch .migration).symm ▸ hc
  · exact hc

theorem wf_recallSaveMove {crew} (h : s.memoriesWf) : (recallSaveMove s crew).memoriesWf := by
  dsimp only [recallSaveMove]
  split
  · exact h
  · exact wf_ite (wf_modCrew (wf_askSave h) fun _ hc => hc) h

/-! ### System registers -/

theorem wf_writeLink {port k v} (h : s.memoriesWf) : (writeLink s port k v).memoriesWf := by
  dsimp only [writeLink]
  split
  · exact wf_writeLctl h
  · exact wf_setPort h
  · exact wf_setPort h
  · exact wf_setPort h
  · exact wf_setPort h
  · exact wf_setPort h
  · exact wf_ite h h
  · exact h

theorem wf_writeSys {x n v} (h : s.memoriesWf) : (writeSys s x n v).memoriesWf := by
  unfold writeSys
  extract_lets c co sv stack putStack core
  refine wf_ite (wf_setCtx h) (wf_ite (wf_setCore h) (wf_ite (wf_setCore h) (wf_ite (wf_setCore h) ?_)))
  refine wf_ite h (wf_ite h (wf_ite h (wf_ite h (wf_ite h (wf_ite h (wf_ite h (wf_ite (wf_setCtx h) ?_)))))))
  split
  · exact wf_writeLink h
  · exact h

theorem wf_execSysrd {w} (h : s.memoriesWf) : NextWf (execSysrd w s) := by
  dsimp only [execSysrd]
  refine wf_issueInstr h ?_
  intro _ _ ht
  split
  · exact ht
  · exact wf_setCore ht

theorem wf_sysReadMove {core k} (h : s.memoriesWf) : (sysReadMove s core k).memoriesWf := by
  dsimp only [sysReadMove]
  split
  · exact h
  · split
    · exact wf_setWarp (wf_setCore h)
    · exact wf_setCore h

theorem wf_execSyswr {w} (h : s.memoriesWf) : NextWf (execSyswr w s) := by
  dsimp only [execSyswr]
  refine wf_issueInstr h ?_
  intro _ _ ht
  split
  · exact ht
  · split
    · exact ht
    · exact wf_writeSys (wf_releaseStep ht)

theorem wf_execClk {w} (h : s.memoriesWf) : NextWf (execClk w s) := by
  dsimp only [execClk]
  refine wf_issueInstr h ?_
  intro _ _ ht
  split <;> exact ht

/-! ### Warp-wide instructions -/

theorem wf_predBody {w v x} (h : s.memoriesWf) {out} (hr : predBody w v x s = out) : out.memoriesWf := by
  subst hr
  dsimp only [predBody]
  split
  · exact h
  · split
    · exact wf_sitePut h
    · exact h

/-! ### The instructions of the opcode table -/

theorem wf_issueWord {i} (h : s.memoriesWf) : NextWf (issueWord i s) := by
  cases i with
  | nop | iaddc | isubb | idiv | fcmp | f2i | flgclr | welf | wmrg | vote | shfl | wred | wscan | laneMatch | elect
  | pmov | bxq | cntrd | hitq =>
    exact wf_issueInstr h (fun ht => wf_onSite ht rfl)
  | bra => exact wf_issueInstr h (fun ht => wf_siteFinish ht rfl)
  | brau => exact wf_execBrau h
  | brx => exact wf_execBrx h
  | call => exact wf_execCall h
  | calli => exact wf_execCalli h
  | ret => exact wf_execRet h
  | jsave => exact wf_execJsave h
  | join | jwait => exact wf_issueInstr h (fun ht => wf_parkBody ht rfl)
  | exit => exact wf_execExit h
  | refill => exact wf_execRefill h
  | reform => exact wf_execReform h
  | yield => exact wf_execYield h
  | npregEnter => exact wf_execNpregEnter h
  | npregLeave => exact wf_execNpregLeave h
  | trapBrk => exact wf_execTrapBrk h
  | trapCall => exact wf_execTrapCall h
  | trapTret => exact wf_execTrapTret h
  | iadd | isub | imul | imulh | imad | imadw | imin | imax | iabs | isad | isel | and | or | xor | andn | lop3 | shl
  | shr | sar | rotl | fshf | bfx | bfi | popc | clz | ctz | brev | blv | bdlv | lea | prmt | mov | movl | cvti
  | fclass =>
    exact wf_aluD h
  | icmp => exact wf_aluP h
  | fadd | fsub | fmul | ffma | fmin | fmax | frnd | fcvt | i2f | fdiv | fsqrt | frcp | frsq | exp2 | log2 | sinpi
  | cospi | fdot2 | fscale =>
    exact wf_fpuD h
  | plop | pmovSet => exact wf_issueInstr h (fun ht => wf_predBody ht rfl)
  | ld | lds | ldk => exact wf_issueInstr h (fun ht => wf_loadBody ht rfl)
  | st | sts | pfetchZero => exact wf_issueInstr h (fun ht => wf_storeBody ht rfl)
  | atom | red => exact wf_issueInstr h (fun ht => wf_atomBody ht rfl)
  | atoms => exact wf_execAtoms h
  | pfetch => exact wf_execPfetch h
  | fence => exact wf_execFence h
  | cflush | cinv => exact wf_issueInstr h (fun ht => wf_flushBody ht rfl)
  | csplit => exact wf_execCsplit h
  | sealRec => exact wf_execSealRec h
  | unsealRec => exact wf_execUnsealRec h
  | hqry => exact wf_execHqry h
  | cpy | gath | scat => exact wf_issueInstr h (fun ht => wf_copyBody ht rfl)
  | coll => exact wf_execColl h
  | putn | getn | signal => exact wf_issueInstr h (fun ht => wf_remoteBody ht rfl)
  | waitc => exact wf_execWaitc h
  | mma | mmap | mmag => exact wf_issueInstr h (fun ht => wf_mmaBody ht rfl)
  | accz => exact wf_execAccz h
  | accld | accst => exact wf_issueInstr h (fun ht => wf_tileMoveBody ht rfl)
  | accrd => exact wf_execAccrd h
  | accwr => exact wf_execAccwr h
  | mxacq => exact wf_execMxacq h
  | mxrel => exact wf_execMxrel h
  | mxstat => exact wf_execMxstat h
  | trace => exact wf_issueInstr h (fun ht => wf_traceBody ht rfl)
  | candGet => exact wf_issueInstr h (fun ht => wf_candGetBody ht rfl)
  | candAccept | candReject | candTerm => exact wf_issueInstr h (fun ht => wf_candAnswer ht rfl)
  | filtTex | filtGrid => exact wf_issueInstr h (fun ht => wf_filtBody ht rfl)
  | tlshut => exact wf_execTlshut h
  | tlpost => exact wf_execTlpost h
  | tlqry => exact wf_execTlqry h
  | bari => exact wf_execBari h
  | bara | barw | baraw => exact wf_issueInstr h (fun ht => wf_barBody ht rfl)
  | grpq => exact wf_execGrpq h
  | gred => exact wf_execGred h
  | step => exact wf_execStep h
  | sysrd => exact wf_execSysrd h
  | syswr => exact wf_execSyswr h
  | clk => exact wf_execClk h
  | grow => exact wf_execGrow h
  | shrink => exact wf_execShrink h
  | rsplit => exact wf_execRsplit h
  | rmerge => exact wf_execRmerge h
  | rinv => exact wf_execRinv h
  | rprobe => exact wf_execRprobe h
  | rhint => exact wf_execRhint h
  | rmove => exact wf_execRmove h
  | rcmpt => exact wf_execRcmpt h
  | commit => exact wf_execCommit h
  | _ => trivial

/-! ### The warp that runs next -/

theorem wf_inSlot {r wp slot k} (h : s.memoriesWf) : (inSlot s r wp slot k).memoriesWf :=
  (wf_setWarp h).frame

theorem wf_heldState (h : s.memoriesWf) : (heldState s).memoriesWf := by
  dsimp only [heldState]
  split
  · exact h
  · exact (wf_sitePut h).frame

theorem wf_tryIssue (h : s.memoriesWf) {out} (hr : tryIssue s = out) : SomeWf out := by
  subst hr
  unfold tryIssue
  extract_lets moved
  have hmoved {b t} (ht : t.memoriesWf) : SomeWf (moved b t) := by
    unfold moved
    split
    · trivial
    · exact ht
  split
  next hr => exact hmoved (wf_planAt h hr)
  next hr => exact wf_planAt h hr
  next i hr =>
    have hword := wf_issueWord (i := i) (wf_planAt h hr)
    split
    next hu =>
      rw [hu] at hword
      exact hmoved hword
    · exact wf_planAt h hr

theorem wf_execRunStart {core part slot} (h : s.memoriesWf) : NextWf (execRunStart core part slot s) := by
  dsimp only [execRunStart]
  split
  · exact h
  · split
    · exact h
    · split
      · refine wf_setWarp ?_
        refine wf_foldl ?_ h
        intro _ _ ht
        split
        · exact wf_setWarp ht
        · exact ht
      · refine wf_foldl ?_ h
        intro _ _ ht
        split
        · exact wf_setWarp ht
        · exact ht

theorem wf_noteStalls (h : s.memoriesWf) : (noteStalls s).memoriesWf := by
  refine wf_kvMapCrews h fun k c hc => ?_
  split
  · exact hc
  · exact hc

theorem wf_noteReady (h : s.memoriesWf) : (noteReady s).memoriesWf := by
  refine wf_kvMapCrews h fun k c hc => ?_
  split
  · exact hc
  · exact hc

/-! ### The schedules of the stacks -/

theorem wf_setStack {k x} (h : s.memoriesWf) : (setStack s k x).memoriesWf :=
  h

theorem wf_setPStack {k x} (h : s.memoriesWf) : (setPStack s k x).memoriesWf :=
  h

theorem wf_wakeStack {k} (h : s.memoriesWf) : (wakeStack s k).memoriesWf :=
  wf_setStack h

theorem wf_requestMove {kind tier a c bank left crew core hub} (h : s.memoriesWf) :
    (requestMove s kind tier a c bank left crew core hub).memoriesWf :=
  wf_ite h (wf_ite (wf_ite (wf_setPStack h) h) (wf_ite (wf_setStack (wf_wakeStack h)) h))

theorem wf_countLate {r stack} (h : s.memoriesWf) : (countLate s r stack).memoriesWf := by
  dsimp only [countLate]
  split
  · exact h
  · split
    · exact wf_setCore h
    · exact wf_ite h (wf_ite (wf_setStack h) h)

theorem wf_execGapCopyComplete {pstack region} (h : s.memoriesWf) : NextWf (execGapCopyComplete pstack region s) :=
  wf_ite h (wf_setPStack h)

theorem wf_execChannelRequestServe {stack channel} (h : s.memoriesWf) : NextWf (execChannelRequestServe stack channel s) := by
  dsimp only [execChannelRequestServe]
  split
  · split
    · exact h
    · split
      · exact h
      · exact wf_countLate (wf_setStack h)
  · split
    · split
      · exact h
      · exact wf_countLate (wf_setPStack h)
    · exact h

theorem wf_execRefreshDue {stack channel} (h : s.memoriesWf) : NextWf (execRefreshDue stack channel s) :=
  wf_ite h (wf_ite (wf_setStack h) (wf_ite (wf_setStack h) (wf_ite (wf_setStack h) (wf_setStack h))))

theorem wf_execRefreshEnd {stack channel} (h : s.memoriesWf) : NextWf (execRefreshEnd stack channel s) := by
  dsimp only [execRefreshEnd]
  split
  · exact wf_ite h (wf_setStack h)
  · exact wf_ite h (wf_setStack h)

theorem wf_execSelfRefreshEntry {stack} (h : s.memoriesWf) : NextWf (execSelfRefreshEntry stack s) :=
  wf_ite h (wf_setStack h)

theorem wf_execRetentionEntry {stack} (h : s.memoriesWf) : NextWf (execRetentionEntry stack s) :=
  wf_ite h (wf_setStack h)

theorem wf_execStackWake {stack} (h : s.memoriesWf) : NextWf (execStackWake stack s) := by
  dsimp only [execStackWake]
  split
  · exact wf_ite h (wf_setStack h)
  · exact h

theorem wf_execDebugWakeReturn {stack} (h : s.memoriesWf) : NextWf (execDebugWakeReturn stack s) := by
  dsimp only [execDebugWakeReturn]
  split
  · exact wf_ite h (wf_ite (wf_setStack h) (wf_setStack h))
  · exact h

/-! ### The debugger -/

theorem wf_debugDone {result} (h : s.memoriesWf) : (debugDone s result).memoriesWf :=
  h

theorem wf_debugError (h : s.memoriesWf) : (debugError s).memoriesWf :=
  h

theorem wf_haltWarp {r} (h : s.memoriesWf) : (haltWarp s r).memoriesWf := by
  dsimp only [haltWarp]
  split
  · exact h
  · split
    · exact h
    · split
      · exact wf_setWarp h
      · exact wf_setWarp h

theorem wf_takeHalts (h : s.memoriesWf) : (takeHalts s).memoriesWf :=
  wf_foldl (fun ht => wf_haltWarp ht) h

theorem wf_finishIssue (h : s.memoriesWf) : (finishIssue s).memoriesWf := by
  dsimp only [finishIssue]
  split
  · exact h
  · split
    · exact wf_ite (wf_haltWarp h) h
    · exact h

theorem wf_execDhalt {who} (h : s.memoriesWf) : NextWf (execDhalt who s) := by
  dsimp only [execDhalt]
  split
  · exact wf_debugError h
  · split
    · exact h
    · refine wf_debugDone ?_
      refine wf_foldl ?_ h
      intro _ _ ht
      split
      · exact wf_ite (wf_setWarp ht) (wf_haltWarp ht)
      · exact ht

theorem wf_releaseWarp {r} (h : s.memoriesWf) : (releaseWarp s r).memoriesWf := by
  dsimp only [releaseWarp]
  split
  · exact h
  · split
    · exact h
    · split
      · exact wf_routeTrap (wf_setWarp h)
      · exact wf_setWarp h

theorem wf_execDrelease {who} (h : s.memoriesWf) : NextWf (execDrelease who s) := by
  dsimp only [execDrelease]
  split
  · exact wf_debugError h
  · split
    · exact wf_debugError (wf_takeHalts h)
    · exact wf_debugDone (wf_foldl (fun ht => wf_releaseWarp ht) (wf_takeHalts h))

theorem wf_execDattach {ctx} (h : s.memoriesWf) : NextWf (execDattach ctx s) :=
  wf_ite (wf_debugError h) (wf_debugDone h)

theorem wf_execDdetach (h : s.memoriesWf) : NextWf (execDdetach s) := by
  dsimp only [execDdetach]
  split
  · exact wf_debugError h
  · exact wf_debugDone (wf_foldl (fun ht => wf_releaseWarp ht) ((wf_takeHalts h).frame))

theorem wf_execDcatch {catchMask} (h : s.memoriesWf) : NextWf (execDcatch catchMask s) := by
  dsimp only [execDcatch]
  split
  · exact wf_debugError h
  · exact wf_debugDone (wf_setCtx h)

theorem wf_execDwatch {k base m kind} (h : s.memoriesWf) : NextWf (execDwatch k base m kind s) := by
  dsimp only [execDwatch]
  split
  · exact wf_debugError h
  · exact wf_ite (wf_debugError h) (wf_debugDone (wf_setCtx h))

theorem wf_execDstep {dws} (h : s.memoriesWf) : NextWf (execDstep dws s) := by
  have hhalts := wf_takeHalts h
  unfold execDstep
  dsimp only [NextWf]
  split
  · split
    · split
      · exact wf_debugError hhalts
      split
      · exact wf_debugError hhalts
      split
      · exact wf_debugDone (wf_haltWarp (wf_releaseWarp hhalts))
      split
      next hfind =>
        obtain ⟨k, -, hk⟩ := List.exists_of_findSome?_eq_some hfind
        have htry := wf_tryIssue (wf_inSlot hhalts) hk
        exact wf_debugDone (wf_haltWarp htry)
      · exact hhalts
    · exact wf_debugError hhalts
  · exact wf_debugError hhalts

theorem wf_execDread {dws file index lanes} (h : s.memoriesWf) : NextWf (execDread dws file index lanes s) := by
  dsimp only [execDread]
  split
  · exact wf_debugError (wf_takeHalts h)
  · exact wf_ite (wf_debugError (wf_takeHalts h)) (wf_debugDone (wf_takeHalts h))

theorem wf_execDwrite {dws file index lanes values} (h : s.memoriesWf) : NextWf (execDwrite dws file index lanes values s) := by
  dsimp only [execDwrite]
  split
  · exact wf_debugError (wf_takeHalts h)
  · exact wf_ite (wf_debugError (wf_takeHalts h)) (wf_debugDone (wf_setWarp (wf_takeHalts h)))

theorem wf_debugWake {k} (h : s.memoriesWf) {out} (hr : debugWake s k = out) : out.1.memoriesWf := by
  subst hr
  dsimp only [debugWake]
  split
  · exact wf_setStack h
  · split <;> exact wf_setStack h

theorem wf_execDmem {pa count wr} (h : s.memoriesWf) : NextWf (execDmem pa count wr s) := by
  dsimp only [execDmem]
  split
  · exact wf_debugError h
  · split
    · exact h
    · split
      · exact (wf_homePuts (wf_debugWake h rfl)).frame
      · exact wf_ite (wf_debugWake h rfl) (wf_debugWake h rfl)

theorem wf_execWear {pstack region} (h : s.memoriesWf) : NextWf (execWear pstack region s) :=
  wf_ite (wf_debugError h) (wf_debugDone h)

end Sys2Proof.Machine
end

section
/-! The canonical form of every memory through a step: the management controller, every instruction, event and move (R24, R188, R189). -/

namespace Sys2Proof.Machine

variable {s : State}

/-! ### The management controller -/

theorem wf_blankState : (blankState s).memoriesWf :=
  ⟨memory_wf_nil, memory_wf_nil, fun _ he => nomatch he⟩

theorem wf_trainPort {p} (h : s.memoriesWf) : (trainPort s p).memoriesWf :=
  wf_enterPort h

theorem wf_placeRing {r} (h : s.memoriesWf) : (placeRing s r).memoriesWf :=
  wf_foldl (fun ht => wf_giveFrame ht) h

theorem wf_boot {firmware warm} : (boot s firmware warm).memoriesWf := by
  unfold boot
  extract_lets v shipped fw cp cfg s' base
  have hblank : s'.memoriesWf := wf_blankState
  split
  · exact wf_trainPort hblank.frame
  · exact wf_foldl (fun ht => wf_trainPort ht) (wf_foldl (fun ht => wf_placeRing ht) hblank.frame)

theorem wf_execColdBoot {firmware} : NextWf (execColdBoot firmware s) :=
  wf_boot

theorem wf_execWarmReset {firmware} : NextWf (execWarmReset firmware s) :=
  wf_boot

theorem wf_execPowerLoss : NextWf (execPowerLoss s) :=
  wf_blankState

theorem wf_execFwstage {tok image} (h : s.memoriesWf) : NextWf (execFwstage tok image s) :=
  wf_hostOp h (fun ht => wf_ite (wf_answer ht) (wf_ite (wf_answer ht) (wf_answer ht)))

theorem wf_execFwswap {tok} (h : s.memoriesWf) : NextWf (execFwswap tok s) := by
  dsimp only [execFwswap]
  refine wf_hostOp h ?_
  intro _ ht
  split
  · exact ht
  · exact wf_answer ht

theorem wf_swapMove (h : s.memoriesWf) : (swapMove s).memoriesWf := by
  dsimp only [swapMove]
  split
  · exact h
  · exact wf_ite h (wf_answer h)

theorem wf_answerLong {op tok first more} (h : s.memoriesWf) : (answerLong s op tok first more).memoriesWf :=
  wf_foldl (fun ht => wf_sendHost ht) h

theorem wf_execAttest {tok nonce} (h : s.memoriesWf) : NextWf (execAttest tok nonce s) :=
  wf_hostOp h (fun ht => wf_answerLong ht)

theorem wf_execPowerProjection {draw} (h : s.memoriesWf) : NextWf (execPowerProjection draw s) :=
  wf_ite h h

theorem wf_beginFence (h : s.memoriesWf) : (beginFence s).memoriesWf := by
  dsimp only [beginFence]
  split
  · exact h
  · exact wf_foldl (fun ht => wf_ite ht (wf_foldl (fun hu => wf_askSave hu) (wf_setCore ht))) h

theorem wf_execHostFence {tok unitNo isQuad} (h : s.memoriesWf) : NextWf (execHostFence tok unitNo isQuad s) := by
  dsimp only [execHostFence]
  refine wf_hostOp h ?_
  intro _ ht
  split
  · exact wf_answer ht
  · exact wf_ite (wf_answer ht) (wf_ite (wf_beginFence ht) ht)

theorem wf_endFence (h : s.memoriesWf) : (endFence s).memoriesWf := by
  dsimp only [endFence]
  split
  · exact h
  · exact wf_ite (wf_beginFence (wf_answer h)) h

theorem wf_execTestingEnd {core beyondSpares} (h : s.memoriesWf) : NextWf (execTestingEnd core beyondSpares s) :=
  wf_ite h (wf_endFence (wf_setCore (wf_foldl (fun ht => wf_flushSector ht) h)))

theorem wf_execUnfence {tok unitNo isQuad} (h : s.memoriesWf) : NextWf (execUnfence tok unitNo isQuad s) := by
  dsimp only [execUnfence]
  refine wf_hostOp h ?_
  intro _ ht
  split
  · exact wf_answer ht
  · exact wf_ite (wf_answer (wf_foldl (fun hu => wf_setCore hu) ht)) (wf_answer ht)

theorem wf_endDrain {k status online} (h : s.memoriesWf) : (endDrain s k status online).memoriesWf := by
  dsimp only [endDrain]
  split
  · exact h
  · exact wf_answer (wf_setPStack h)

theorem wf_drainNextMove {k} (h : s.memoriesWf) : (drainNextMove s k).memoriesWf := by
  dsimp only [drainNextMove]
  split
  · exact h
  · split
    · exact wf_endDrain h
    · split
      next hr => exact wf_startRecall h hr
      next hr => exact wf_startRecall h hr
      · exact wf_endDrain h

theorem wf_execPdrain {tok pstack} (h : s.memoriesWf) : NextWf (execPdrain tok pstack s) :=
  wf_hostOp h (fun ht => wf_ite (wf_answer ht) (wf_ite (wf_answer ht) (wf_setPStack ht)))

theorem wf_execPreturn {tok pstack} (h : s.memoriesWf) : NextWf (execPreturn tok pstack s) :=
  wf_hostOp h (fun ht => wf_ite (wf_answer ht) (wf_ite (wf_answer ht) (wf_answer (wf_setPStack ht))))

theorem wf_execFrameWaitTimeout {k} (h : s.memoriesWf) : NextWf (execFrameWaitTimeout k s) := by
  dsimp only [execFrameWaitTimeout]
  split
  · exact h
  · split
    · exact wf_ite (wf_endDrain (wf_frameTimeout h)) (wf_frameTimeout h)
    · exact wf_frameTimeout h

theorem wf_execCorrectedSoftError {core} (h : s.memoriesWf) : NextWf (execCorrectedSoftError core s) :=
  wf_ite (wf_setCore h) h

theorem wf_poisonWriteBack {core pa} (h : s.memoriesWf) : (poisonWriteBack s core pa).memoriesWf := by
  dsimp only [poisonWriteBack]
  split
  · exact h
  · split
    · exact h
    · split
      · exact wf_postAgent (wf_setTag (wf_flushSector h))
      · exact wf_setTag (wf_flushSector h)

theorem wf_execUncorrectableError {at_} (h : s.memoriesWf) : NextWf (execUncorrectableError at_ s) := by
  unfold execUncorrectableError
  extract_lets onWarp
  have hwarp {dws f} : (onWarp dws f).memoriesWf := by
    unfold onWarp
    split
    · exact h
    · split
      · exact wf_setWarp h
      · exact h
  dsimp only [NextWf]
  split
  · exact hwarp
  · exact hwarp
  · refine wf_modCrew h fun _ hc => ?_
    split
    · exact hc
    · exact hc
  · exact wf_ite (wf_setTag h) h
  · exact wf_poisonWriteBack h

/-! ### Every instruction and event -/

/-- The instructions of the opcode table are those that exec and issueWord give the same meaning. -/
theorem exec_eq_issueWord {i opw} (hw : Instr.word? i = some opw) : exec i s = issueWord i s := by
  cases i <;> cases hw
  all_goals rfl

theorem wf_execEvent {i} (hw : Instr.word? i = none) (h : s.memoriesWf) : NextWf (exec i s) := by
  cases i with
  | runStart => exact wf_execRunStart h
  | stallEviction => exact wf_execStallEviction h
  | loadDataReturn => exact wf_execLoadDataReturn h
  | storeQueueLeave => exact wf_execStoreQueueLeave h
  | registerStallResolution => exact wf_execRegisterStallResolution h
  | growGrant => exact wf_execGrowGrant h
  | binAged => exact wf_execBinAged h
  | binDraw => exact wf_execBinDraw h
  | idleWarpRefill => exact wf_execIdleWarpRefill h
  | warpRetire => exact wf_execWarpRetire h
  | launchComplete => exact wf_execLaunchComplete h
  | commandStart => exact wf_execCommandStart h
  | commandComplete => exact wf_execCommandComplete h
  | commandRetire => exact wf_execCommandRetire h
  | matrixTileStep => exact wf_execMatrixTileStep h
  | rayAdmit => exact wf_execRayAdmit h
  | treeletBatch => exact wf_execTreeletBatch h
  | hitDelivery => exact wf_execHitDelivery h
  | candidateDelivery => exact wf_execCandidateDelivery h
  | candidateReturn => exact wf_execCandidateReturn h
  | candidateAnswer => exact wf_execCandidateAnswer h
  | filterRequestEnd => exact wf_execFilterRequestEnd h
  | viewSampleDelivery => exact wf_execViewSampleDelivery h
  | tileEmission => exact wf_execTileEmission h
  | viewComplete => exact wf_execViewComplete h
  | moveComplete => exact wf_execMoveComplete h
  | frameWaitTimeout => exact wf_execFrameWaitTimeout h
  | rangeOpComplete => exact wf_execRangeOpComplete h
  | sliceExpiry => exact wf_execSliceExpiry h
  | yieldDeadlineExpiry => exact wf_execYieldDeadlineExpiry h
  | npregBudgetExpiry => exact wf_execNpregBudgetExpiry h
  | crewSave => exact wf_execCrewSave h
  | crewPlacement => exact wf_execCrewPlacement h
  | crewRestore => exact wf_execCrewRestore h
  | thermalMigration => exact wf_execThermalMigration h
  | contextRelease => exact wf_execContextRelease h
  | doorbell => exact wf_execDoorbell h
  | launch => exact wf_execLaunch h
  | view => exact wf_execView h
  | semwait => exact wf_execSemwait h
  | semwaitRecheck => exact wf_execSemwaitRecheck h
  | semsignal => exact wf_execSemsignal h
  | rangeop => exact wf_execRangeop h
  | queueFence => exact wf_execQueueFence h
  | create => exact wf_execCreate h
  | suspend => exact wf_execSuspend h
  | resume => exact wf_execResume h
  | drain => exact wf_execDrain h
  | destroy => exact wf_execDestroy h
  | qsetup => exact wf_execQsetup h
  | qdisable => exact wf_execQdisable h
  | qresume => exact wf_execQresume h
  | iqsetup => exact wf_execIqsetup h
  | rready => exact wf_execRready h
  | hostFence => exact wf_execHostFence h
  | unfence => exact wf_execUnfence h
  | testingEnd => exact wf_execTestingEnd h
  | pdrain => exact wf_execPdrain h
  | preturn => exact wf_execPreturn h
  | fwstage => exact wf_execFwstage h
  | fwswap => exact wf_execFwswap h
  | attest => exact wf_execAttest h
  | collset => exact wf_execCollset h
  | putData => exact wf_execPutData h
  | getRequest => exact wf_execGetRequest h
  | signalMessage => exact wf_execSignalMessage h
  | getData => exact wf_execGetData h
  | performedAcknowledgement => exact wf_execPerformedAcknowledgement h
  | faultResponse => exact wf_execFaultResponse h
  | collectiveSegment => exact wf_execCollectiveSegment h
  | hostWrite => exact wf_execHostWrite h
  | hostRead => exact wf_execHostRead h
  | nak => exact wf_execNak h
  | badFrame => exact wf_execBadFrame h
  | retransmitTimeout => exact wf_execRetransmitTimeout h
  | linkTrained => exact wf_execLinkTrained h
  | trainingTimeout => exact wf_execTrainingTimeout h
  | errorWindowEnd => exact wf_execErrorWindowEnd h
  | drainingEnd => exact wf_execDrainingEnd h
  | lossOfSignal => exact wf_execLossOfSignal h
  | portWaitTimeout => exact wf_execPortWaitTimeout h
  | lctlRetrain => exact wf_execLctlRetrain h
  | lctlStartTraining => exact wf_execLctlStartTraining h
  | channelRequestServe => exact wf_execChannelRequestServe h
  | refreshDue => exact wf_execRefreshDue h
  | refreshEnd => exact wf_execRefreshEnd h
  | selfRefreshEntry => exact wf_execSelfRefreshEntry h
  | retentionEntry => exact wf_execRetentionEntry h
  | stackWake => exact wf_execStackWake h
  | debugWakeReturn => exact wf_execDebugWakeReturn h
  | gapCopyComplete => exact wf_execGapCopyComplete h
  | powerProjection => exact wf_execPowerProjection h
  | uncorrectableError => exact wf_execUncorrectableError h
  | coldBoot => exact wf_execColdBoot
  | warmReset => exact wf_execWarmReset
  | dattach => exact wf_execDattach h
  | ddetach => exact wf_execDdetach h
  | dcatch => exact wf_execDcatch h
  | dhalt => exact wf_execDhalt h
  | dstep => exact wf_execDstep h
  | dread => exact wf_execDread h
  | dwrite => exact wf_execDwrite h
  | dwatch => exact wf_execDwatch h
  | drelease => exact wf_execDrelease h
  | dmem => exact wf_execDmem h
  | wear => exact wf_execWear h
  | creditReturn => exact wf_execCreditReturn h
  | correctedSoftError => exact wf_execCorrectedSoftError h
  | powerLoss => exact wf_execPowerLoss
  | _ => cases hw

theorem wf_exec {i} (h : s.memoriesWf) : NextWf (exec i s) := by
  cases hw : Instr.word? i with
  | some opw =>
    rw [exec_eq_issueWord hw]
    exact wf_issueWord h
  | none => exact wf_execEvent hw h

/-! ### The other moves -/

theorem wf_passTime {n} (h : s.memoriesWf) : (passTime s n).memoriesWf := by
  refine wf_kvMapCrews (wf_settleGives (wf_noteResidents (wf_noteReady (wf_noteStalls h)))) fun k c hc => ?_
  split
  · exact hc
  · exact hc

theorem wf_countCodewords {n corrected failed} (h : s.memoriesWf) : (countCodewords s n corrected failed).memoriesWf :=
  wf_ite (wf_setPort h) h

theorem wf_dropPiece {core k} (h : s.memoriesWf) : (dropPiece s core k).memoriesWf :=
  wf_setCore h

theorem wf_internalMove {mv} (h : s.memoriesWf) : (internalMove mv s).memoriesWf := by
  dsimp only [internalMove]
  split
  · exact h
  · exact h
  · exact wf_passTime h
  · exact wf_flushSector h
  · exact wf_dropCode h
  · exact wf_laneAccessMove h
  · exact wf_serveSplits h
  · exact wf_tableOpMove h
  · exact wf_sysReadMove h
  · exact wf_dropPiece h
  · exact wf_viewRayMove h
  · exact wf_evictStartMove h
  · exact wf_frameRetryMove h
  · exact wf_rangeBeginMove h
  · exact wf_ite (wf_writeStatus h) h
  · exact wf_areaWriteMove h
  · exact wf_pumpPort h
  · exact wf_countCodewords h
  · exact wf_recallSaveMove h
  · exact wf_drainNextMove h
  · exact wf_swapMove h
  · exact wf_requestMove h

theorem wf_beginStep (h : s.memoriesWf) : (beginStep s).memoriesWf :=
  h

/-! ### One move -/

theorem nextWf_settle {o} (h : NextWf o) : NextWf (settle o) := by
  cases o with
  | next t => exact wf_finishIssue h
  | fault r => trivial
  | refused r => trivial

theorem wf_runMove {mv} (h : s.memoriesWf) : NextWf (runMove mv s) := by
  unfold runMove
  split
  · split
    next hr => exact wf_finishIssue (wf_issuePlan h hr)
    next hr => exact wf_finishIssue (wf_issuePlan h hr)
    next hr => exact nextWf_settle (wf_exec (wf_issuePlan h hr))
  · split
    · exact h
    · exact nextWf_settle (wf_exec h)
  · exact wf_internalMove h

/-! ### One step -/

theorem wf_step (h : s.memoriesWf) : NextWf (step s) := by
  dsimp only [step]
  split
  · exact wf_runMove (wf_beginStep h)
  · exact wf_runMove (wf_beginStep h)

/-- Settles O60, by cases on what the step makes: every instruction, event and move writes home memory, the tier and scratch through
operations that keep the canonical form. -/
theorem memoryFormKept : Obligations.MemoryFormKept := by
  unfold Obligations.MemoryFormKept
  intro s t h ht
  have hstep := wf_step h
  rw [ht] at hstep
  exact hstep

end Sys2Proof.Machine
end

section
/-! The state right after reset (R26, R344, R357, R458, R460, R467, R477, R482). -/

namespace Sys2Proof.Machine

/-- Nothing is listed after reset, and an unlisted byte reads as zero. -/
theorem homeByte_reset (pa : Nat) : homeByte State.reset pa = 0 :=
  show (if isZeroTag tagDefault then (0 : Byte) else cellDefault) = 0 by decide

theorem memoriesWf_reset : State.reset.memoriesWf :=
  ⟨memory_wf_nil, memory_wf_nil, fun _ he => nomatch he⟩

/-- Settles O58: a table of the reset state lists nothing, so a read of it gives the default of its entries. -/
theorem resetValues : Obligations.ResetValues := by
  unfold Obligations.ResetValues
  refine ⟨memoriesWf_reset, homeByte_reset, rfl, rfl, rfl, ?_, ?_, ?_, ?_, ?_, rfl, rfl⟩
  · exact fun ctx => ⟨rfl, rfl, rfl⟩
  · exact fun queue => rfl
  · exact fun core => ⟨rfl, rfl, rfl, rfl⟩
  · exact fun port => ⟨rfl, rfl, rfl⟩
  · exact fun stack => rfl

end Sys2Proof.Machine
end

section
/-! The management controller's operations (R27, R471, R480-R485): what a message of the host that is heard comes to, the cores that a fence
takes and an unfence returns, the drain of a persistent stack, updates, and the power limit. -/

namespace Sys2Proof.Machine

/-! ### A message of the host that is heard -/

/-- An operation that the host asks for takes effect, and its flits are taken there (R469, R471). -/
theorem hostMakes_hostOp {s t : State} {flits who op} (hs : HostHeard s) (hop : op s = t) :
    HostMakes (.next (hostOp s flits who op)) flits t := by
  obtain ⟨hears, hboot⟩ := hs
  subst hop
  unfold HostMakes hostOp hostTry
  rw [hears]
  split
  next hnot => cases hnot
  · split
    next step _ _ hfailed => exact absurd hfailed (hboot step)
    · rfl

/-! ### One core after another -/

theorem getCore_congr {s t : State} (h : t.cores = s.cores) (k : Nat) : getCore t k = getCore s k := by
  unfold getCore
  rw [h]

theorem getCore_setCore (s : State) (k j : Nat) (c : Core) : getCore (setCore s k c) j = if j = k then c else getCore s j :=
  kvD_kvSet ..

/-- A change made to core after core, each to that core alone, brings every core of the list from Q to P and leaves the others. -/
theorem getCore_foldl {P Q : Core → Prop} {g : State → Nat → State} (hPQ : ∀ c, P c → Q c)
    (hsame : ∀ s k, Q (getCore s k) → P (getCore (g s k) k)) (hother : ∀ s k j, j ≠ k → getCore (g s k) j = getCore s j)
    (cores : List Nat) (s : State) (hs : ∀ k ∈ cores, Q (getCore s k)) :
    (∀ k ∈ cores, P (getCore (cores.foldl g s) k)) ∧ ∀ k, k ∉ cores → getCore (cores.foldl g s) k = getCore s k := by
  induction cores generalizing s with
  | nil => exact ⟨fun _ hk => absurd hk List.not_mem_nil, fun _ _ => rfl⟩
  | cons c cs ih =>
    have hc : P (getCore (g s c) c) := hsame s c (hs c List.mem_cons_self)
    have hrest : ∀ k ∈ cs, Q (getCore (g s c) k) := fun k hk => by
      by_cases hkc : k = c
      · rw [hkc]
        exact hPQ _ hc
      · exact hother s c k hkc ▸ hs k (List.mem_cons_of_mem c hk)
    obtain ⟨hin, hout⟩ := ih (g s c) hrest
    refine ⟨fun k hk => ?_, fun k hk => ?_⟩
    · by_cases hkcs : k ∈ cs
      · exact hin k hkcs
      · obtain rfl | hk := List.mem_cons.1 hk
        · exact hout k hkcs ▸ hc
        · exact absurd hk hkcs
    · obtain ⟨hkc, hkcs⟩ := not_or.1 (mt List.mem_cons.2 hk)
      exact (hout k hkcs).trans (hother s c k hkc)

/-! ### Fences (R482, R483) -/

/-- What a fence does to one of its cores: it drains, and its crews are to be saved. -/
def drainCore (s : State) (k : Nat) : State :=
  let c := getCore s k
  if c.fence ≠ .inService then s
  else (crewsOn s k).foldl (fun s (e : Nat × Crew) => askSave s e.1 .fencing) (setCore s k { c with fence := .draining })

theorem beginFence_eq {s : State} {cores tok rest} (h : s.service.fences = (cores, tok) :: rest) :
    beginFence s = cores.foldl drainCore s := by
  unfold beginFence
  rw [h]
  rfl

/-- Asking crews to be saved changes neither a core nor the service. -/
theorem foldl_askSave_others (s : State) (l : List (Nat × Crew)) (why : SaveWhy) :
    (l.foldl (fun s e => askSave s e.1 why) s).cores = s.cores ∧ (l.foldl (fun s e => askSave s e.1 why) s).service = s.service :=
  List.foldlRecOn (motive := fun t : State => t.cores = s.cores ∧ t.service = s.service) _ _ ⟨rfl, rfl⟩ fun _ ht _ _ => ht

theorem getCore_drainCore (s : State) (k j : Nat) : getCore (drainCore s k) j =
    if j = k ∧ (getCore s k).fence = .inService then { getCore s k with fence := .draining } else getCore s j := by
  unfold drainCore
  extract_lets c
  split
  next hout => rw [if_neg fun h => hout h.2]
  next hin =>
    have hfence : (getCore s k).fence = .inService := not_not.1 hin
    rw [getCore_congr (foldl_askSave_others _ _ _).1, getCore_setCore]
    simp only [hfence, and_true, c]

theorem drainCore_service (s : State) (k : Nat) : (drainCore s k).service = s.service := by
  unfold drainCore
  extract_lets c
  split
  · rfl
  · exact (foldl_askSave_others _ _ _).2

theorem foldl_drainCore_service (s : State) (cores : List Nat) : (cores.foldl drainCore s).service = s.service :=
  List.foldlRecOn (motive := fun t : State => t.service = s.service) _ _ rfl fun t ht k _ => (drainCore_service t k).trans ht

/-- The cores in service of a list drain after it, and no other core changes. -/
theorem getCore_foldl_drainCore (s : State) (cores : List Nat) (hs : ∀ k ∈ cores, (getCore s k).fence = .inService) :
    (∀ k ∈ cores, (getCore (cores.foldl drainCore s) k).fence = .draining) ∧
    ∀ k, k ∉ cores → getCore (cores.foldl drainCore s) k = getCore s k := by
  refine getCore_foldl (P := fun c => c.fence = .draining) (Q := fun c => c.fence = .inService ∨ c.fence = .draining)
    (fun _ => Or.inr) (fun s k hk => ?_) (fun s k j hj => ?_) cores s fun k hk => Or.inl (hs k hk)
  · obtain hin | hdrain := hk
    · rw [getCore_drainCore, if_pos ⟨rfl, hin⟩]
    · rw [getCore_drainCore, if_neg fun h => by simp [hdrain] at h]
      exact hdrain
  · rw [getCore_drainCore, if_neg fun h => hj h.1]

/-- A core returned to service. -/
def reopenCore (s : State) (k : Nat) : State := setCore s k { getCore s k with fence := .inService }

theorem getCore_foldl_reopenCore (s : State) (cores : List Nat) :
    (∀ k ∈ cores, (getCore (cores.foldl reopenCore s) k).fence = .inService) ∧
    ∀ k, k ∉ cores → getCore (cores.foldl reopenCore s) k = getCore s k := by
  refine getCore_foldl (P := fun c => c.fence = .inService) (Q := fun _ => True) (fun _ _ => trivial) (fun s k _ => ?_)
    (fun s k j hj => ?_) cores s fun _ _ => trivial
  · rw [reopenCore, getCore_setCore, if_pos rfl]
  · rw [reopenCore, getCore_setCore, if_neg hj]

/-- A fence that is asked for is turned away where a core of it is not in service or in another fence. -/
theorem fenceBusy_iff (s : State) (cores : List Nat) :
    (cores.any fun k => (getCore s k).fence != .inService || s.service.fences.any fun f => f.1.contains k) = true ↔
    ∃ k ∈ cores, (getCore s k).fence ≠ .inService ∨ ∃ f ∈ s.service.fences, k ∈ f.1 := by
  simp

/-- A core goes back to service where it is OUT and within its spares. -/
theorem mayReopen_iff (s : State) (cores : List Nat) :
    (cores.all fun k => (getCore s k).fence == .out && !(getCore s k).beyondSpares) = true ↔
    ∀ k ∈ cores, (getCore s k).fence = .out ∧ (getCore s k).beyondSpares = false := by
  simp

section

variable {s : State} {tok : W32} {n : Nat} {quad : Bool} {cores : List Nat} (hs : HostHeard s) (hunit : fenceCores n quad = some cores)
include hs hunit

theorem hostFence_busy (hbusy : ∃ k ∈ cores, (getCore s k).fence ≠ .inService ∨ ∃ f ∈ s.service.fences, k ∈ f.1) :
    HostMakes (exec (.hostFence tok n quad) s) 1 (answer s 11 1 0 tok []) := by
  refine hostMakes_hostOp hs ?_
  rw [hunit]
  exact if_pos ((fenceBusy_iff s cores).2 hbusy)

theorem hostFence_queued (hbusy : ¬∃ k ∈ cores, (getCore s k).fence ≠ .inService ∨ ∃ f ∈ s.service.fences, k ∈ f.1)
    (hfences : s.service.fences ≠ []) : HostMakes (exec (.hostFence tok n quad) s) 1
      { s with service := { s.service with fences := s.service.fences ++ [(cores, tok)] } } := by
  refine hostMakes_hostOp hs ?_
  rw [hunit]
  dsimp only
  rw [if_neg (mt (fenceBusy_iff s cores).1 hbusy), if_neg (mt List.isEmpty_iff.1 hfences)]

theorem hostFence_begins (hbusy : ¬∃ k ∈ cores, (getCore s k).fence ≠ .inService ∨ ∃ f ∈ s.service.fences, k ∈ f.1)
    (hfences : s.service.fences = []) : ∃ t, HostMakes (exec (.hostFence tok n quad) s) 1 t ∧ t.service.fences = [(cores, tok)] ∧
      (∀ k ∈ cores, (getCore t k).fence = .draining) ∧ (∀ k, k ∉ cores → getCore t k = getCore s k) := by
  let u : State := { s with service := { s.service with fences := [(cores, tok)] } }
  have hin : ∀ k ∈ cores, (getCore u k).fence = .inService := fun k hk =>
    not_not.1 fun hnot => hbusy ⟨k, hk, Or.inl hnot⟩
  refine ⟨cores.foldl drainCore u, hostMakes_hostOp hs ?_, ?_, getCore_foldl_drainCore u cores hin⟩
  · rw [hunit]
    dsimp only
    rw [if_neg (mt (fenceBusy_iff s cores).1 hbusy), if_pos (List.isEmpty_iff.2 hfences), hfences]
    exact beginFence_eq rfl
  · rw [foldl_drainCore_service]

theorem unfence_reopens (hout : ∀ k ∈ cores, (getCore s k).fence = .out ∧ (getCore s k).beyondSpares = false) :
    ∃ t, HostMakes (exec (.unfence tok n quad) s) 1 (answer t 12 0 0 tok []) ∧ (∀ k ∈ cores, (getCore t k).fence = .inService) ∧
      ∀ k, k ∉ cores → getCore t k = getCore s k := by
  refine ⟨cores.foldl reopenCore s, hostMakes_hostOp hs ?_, getCore_foldl_reopenCore s cores⟩
  rw [hunit]
  exact if_pos ((mayReopen_iff s cores).2 hout)

theorem unfence_refused (hin : ∃ k ∈ cores, (getCore s k).fence ≠ .out ∨ (getCore s k).beyondSpares = true) :
    HostMakes (exec (.unfence tok n quad) s) 1 (answer s 12 1 0 tok []) := by
  refine hostMakes_hostOp hs ?_
  rw [hunit]
  obtain ⟨k, hk, hnot⟩ := hin
  refine if_neg fun hall => ?_
  obtain ⟨hout, hspares⟩ := (mayReopen_iff s cores).1 hall k hk
  obtain hfence | hbeyond := hnot
  · exact hfence hout
  · simp [hspares] at hbeyond

end

/-! ### The end of a core's testing (R483) -/

theorem homePut_service (s : State) (pa : Nat) (b : Byte) : (homePut s pa b).service = s.service := by
  unfold homePut
  split
  · rfl
  · rfl

theorem writeBack_service (s : State) (core blk : Nat) : (writeBack s core blk).service = s.service := by
  unfold writeBack
  split
  · rfl
  next x _ =>
    extract_lets u v
    have hput : u.service = s.service :=
      List.foldlRecOn (motive := fun t : State => t.service = s.service) _ _ rfl fun t ht _ _ => (homePut_service t _ _).trans ht
    have htag : v.service = u.service := by
      unfold v
      split
      · rfl
      · rfl
    exact htag.trans hput

theorem foldl_flushSector_service (s : State) (core : Nat) (blks : List Nat) :
    (blks.foldl (fun s b => flushSector s core b) s).service = s.service :=
  List.foldlRecOn (motive := fun t : State => t.service = s.service) _ _ rfl fun t ht b _ => (writeBack_service t core b).trans ht

theorem endFence_idle {s : State} (h : s.service.fences = []) : endFence s = s := by
  unfold endFence
  rw [h]

theorem testingEnd_idle {s : State} {core : Nat} {b : Bool} (h : (getCore s core).fence ≠ .draining ∨ crewsOn s core ≠ []) :
    exec (.testingEnd core b) s = .next s := by
  refine congrArg _ (if_pos (h.imp_right fun hcrews => ?_))
  rwa [Bool.not_eq_true', List.isEmpty_eq_false_iff]

/-- The core that testing leaves: OUT, and nothing in its SRAM. -/
theorem testingEnd_out {s : State} {core : Nat} {b : Bool} (hdrain : (getCore s core).fence = .draining) (hcrews : crewsOn s core = [])
    (hfences : s.service.fences = []) : ∃ t, exec (.testingEnd core b) s = .next t ∧
      (getCore t core).fence = .out ∧ (getCore t core).beyondSpares = b ∧ (getCore t core).l1 = [] ∧ (getCore t core).icache = [] ∧
      (getCore t core).cmiss = [] ∧ (getCore t core).pstall = [] ∧ (getCore t core).ccorr = 0 := by
  have hgo : ¬((getCore s core).fence ≠ .draining ∨ (!(crewsOn s core).isEmpty) = true) := by simp [hdrain, hcrews]
  have hflushed : ((((getCore s core).l1.map (·.1)).foldl (fun s b => flushSector s core b) s).service).fences = [] := by
    rw [foldl_flushSector_service, hfences]
  refine ⟨_, congrArg Host.Outcome.next ((if_neg hgo).trans (endFence_idle hflushed)), ?_⟩
  rw [getCore_setCore, if_pos rfl]
  exact ⟨rfl, rfl, rfl, rfl, rfl, rfl, rfl⟩

/-! ### Persistent stacks (R484) -/

section

variable {s : State} {tok : W32} {k : Nat} (hs : HostHeard s) (hk : k < 4)
include hs hk

theorem pdrain_refused (h : (getPStack s k).online = false ∨ (getPStack s k).draining ≠ none) :
    HostMakes (exec (.pdrain tok k) s) 1 (answer s 13 1 0 tok []) := by
  refine hostMakes_hostOp hs ?_
  dsimp only
  rw [if_neg (Nat.not_le.2 hk), if_pos]
  rwa [Bool.or_eq_true, Bool.not_eq_true', Option.isSome_iff_ne_none]

theorem pdrain_begins (honline : (getPStack s k).online = true) (hdrain : (getPStack s k).draining = none) :
    HostMakes (exec (.pdrain tok k) s) 1 (setPStack s k { getPStack s k with draining := some tok }) := by
  refine hostMakes_hostOp hs ?_
  dsimp only
  rw [if_neg (Nat.not_le.2 hk), if_neg]
  simp [honline, hdrain]

theorem preturn_refused (honline : (getPStack s k).online = true) :
    HostMakes (exec (.preturn tok k) s) 1 (answer s 14 1 0 tok []) := by
  refine hostMakes_hostOp hs ?_
  dsimp only
  rw [if_neg (Nat.not_le.2 hk), if_pos honline]

theorem preturn_returns (honline : (getPStack s k).online = false) :
    HostMakes (exec (.preturn tok k) s) 1 (answer (setPStack s k { getPStack s k with online := true }) 14 0 0 tok []) := by
  refine hostMakes_hostOp hs ?_
  dsimp only
  rw [if_neg (Nat.not_le.2 hk), if_neg (Bool.not_eq_true _ ▸ honline)]

end

/-! ### Updates and attestation (R480, R485) -/

section

variable {s : State} {tok : W32} {image : List Byte} (hs : HostHeard s)
include hs

theorem fwstage_processors (h : imageRuns 1 image = true) : HostMakes (exec (.fwstage tok image) s) (longFlits image.length)
    (answer { s with service := { s.service with staged := some image } } 15 0 0 tok []) :=
  hostMakes_hostOp hs (if_pos h)

theorem fwstage_configuration (h1 : imageRuns 1 image = false) (h2 : imageRuns 2 image = true) :
    HostMakes (exec (.fwstage tok image) s) (longFlits image.length)
      (answer { s with service := { s.service with config := image } } 15 0 0 tok []) := by
  refine hostMakes_hostOp hs ?_
  dsimp only
  rw [if_neg (Bool.not_eq_true _ ▸ h1), if_pos h2]

theorem fwswap_refused (h : s.service.staged = none ∨ s.service.swap ≠ none) :
    HostMakes (exec (.fwswap tok) s) 1 (answer s 16 1 0 tok []) := by
  refine hostMakes_hostOp hs ?_
  dsimp only
  split
  next hstaged hswap => simp [hstaged, hswap] at h
  · rfl

theorem fwswap_begins (hstaged : s.service.staged = some image) (hswap : s.service.swap = none) :
    HostMakes (exec (.fwswap tok) s) 1 { s with service := { s.service with staged := none, swap := some (tok, 0, image) } } := by
  refine hostMakes_hostOp hs ?_
  dsimp only
  rw [hstaged, hswap]

theorem attest_answers (nonce : List Byte) : ∃ first more, HostMakes (exec (.attest tok nonce) s) 1 (answerLong s 17 tok first more) ∧
    first.take 2 = leBytes 2 s.service.deviceId ∧
    more.take (s.service.chain.getLastD []).length = s.service.chain.getLastD [] := by
  refine ⟨_, _, hostMakes_hostOp hs rfl, ?_, ?_⟩
  · simp only [List.append_assoc]
    exact List.take_left' (by simp [leBytes])
  · simp only [List.append_assoc]
    exact List.take_left

end

section

variable {s : State} {tok : W32} {k : Nat} {image : List Byte} (hswap : s.service.swap = some (tok, k, image))
include hswap

theorem swapMove_next (hk : k < 3) : swapMove s = { s with service := { s.service with swap := some (tok, k + 1, image) } } := by
  unfold swapMove
  rw [hswap]
  exact if_pos hk

/-- After the last processor the image is measured and the operation answered. -/
theorem swapMove_last (hk : 3 ≤ k) : ∃ v, swapMove s = answer { s with service := v } 16 0 0 tok [] ∧ v.processors = image ∧
    v.swap = none ∧ v.chain = s.service.chain ++ [digest64 (s.service.chain.getLastD [] ++ digest64 (Config.imageBody image))] := by
  refine ⟨{ measure s.service image with processors := image, swap := none }, ?_, rfl, rfl, rfl⟩
  unfold swapMove
  rw [hswap]
  exact if_neg (Nat.not_lt.2 hk)

theorem mayServe_replacing {q : Nat} {x : Queue} (hq : q % 4 = k) : mayServe s q x = false := by
  simp [mayServe, replacing, hswap, hq]

end

/-! ### The power limit (R27, R481) -/

theorem powerProjection_idle {s : State} {draw : Nat} (h : s.now < s.service.projAt + 1024 ∨ s.service.boot ≠ .done) :
    exec (.powerProjection draw) s = .next s :=
  congrArg _ (if_pos h)

theorem powerProjection_moves {s : State} {draw : Nat} (hnow : s.service.projAt + 1024 ≤ s.now) (hboot : s.service.boot = .done) :
    ∃ n, exec (.powerProjection draw) s = .next { s with service := n } ∧
      n.pproj = BitVec.ofNat 32 draw ∧ n.projAt = s.now ∧ n.penv = s.service.penv ∧
      n.limited = (if s.service.penv.toNat < draw then min 3 (s.service.limited + 1)
        else if draw + 50 < s.service.penv.toNat then s.service.limited - 1 else s.service.limited) := by
  have hgo : ¬(s.now < s.service.projAt + 1024 ∨ s.service.boot ≠ .done) := by simp [hnow, hboot]
  exact ⟨_, congrArg _ (if_neg hgo), rfl, rfl, rfl, rfl⟩

/-- Settles O47, operation by operation. -/
theorem serviceOperationResults : Obligations.ServiceOperationResults := by
  unfold Obligations.ServiceOperationResults
  intro s tok hs
  refine ⟨fun n quad cores hunit => ?_, ?_, fun core b => ?_, fun k hk => ?_, fun image => ?_, fwswap_refused hs, fun image => ?_,
    fun tok' k image hswap => ?_, attest_answers hs, fun draw => ?_⟩
  · exact ⟨hostFence_busy hs hunit, hostFence_queued hs hunit, hostFence_begins hs hunit, unfence_reopens hs hunit,
      unfence_refused hs hunit⟩
  · exact ⟨rfl, rfl, rfl, rfl⟩
  · exact ⟨testingEnd_idle, testingEnd_out⟩
  · exact ⟨pdrain_refused hs hk, pdrain_begins hs hk, preturn_refused hs hk, preturn_returns hs hk⟩
  · exact ⟨fwstage_processors hs, fwstage_configuration hs⟩
  · exact fwswap_begins hs
  · exact ⟨swapMove_next hswap, swapMove_last hswap, fun q x => mayServe_replacing hswap⟩
  · exact ⟨powerProjection_idle, powerProjection_moves⟩

end Sys2Proof.Machine
end

section
/-! The encodings of a floating-point format (R31, R32): an encoding is its fields, and a finite number is packed and decoded by one pair
m * 2^e. -/

namespace Sys2Proof.Machine

/-! ### Fields of an encoding -/

/-- What the formats of R31 have in common, as far as rounding needs it. -/
def Fmt.Proper (f : Fmt) : Prop := 2 ≤ f.eb ∧ 1 ≤ f.fb ∧ f.fb ≤ 30 ∧ f.eb ≤ 8

theorem Fmt.proper_of_format {f : Fmt} (h : f = fmt32 ∨ f = fmt16 ∨ f = fmtB16) : f.Proper := by
  rcases h with rfl | rfl | rfl <;> simp [Fmt.Proper, fmt32, fmt16, fmtB16]

/-- The pairs m * 2^e by which the finite numbers of a format are read. -/
def Fmt.Canon (f : Fmt) (m : Nat) (e : Int) : Prop :=
  m < 2 ^ (f.fb + 1) ∧ f.qmin ≤ e ∧ e ≤ f.emax - f.fb ∧ (2 ^ f.fb ≤ m ∨ e = f.qmin)

/-- The magnitude bits of such a pair. -/
def Fmt.pack (f : Fmt) (m : Nat) (e : Int) : Nat := if m < 2 ^ f.fb then m else (e - f.qmin).toNat * 2 ^ f.fb + m

variable {f : Fmt}

theorem Fmt.emax_eq (hf : f.Proper) : f.emax = f.qmin + f.fb + (2 ^ f.eb : Nat) - 3 := by
  obtain ⟨n, hn⟩ := Nat.exists_eq_add_of_le hf.1
  have : f.eb - 1 = n + 1 := by omega
  simp only [Fmt.emax, Fmt.qmin, Fmt.emin, Fmt.bias, this]
  rw [hn]
  push_cast
  ring

theorem Fmt.bits_eq (f : Fmt) : 2 ^ f.bits = 2 * f.signBit := by
  rw [Fmt.bits, Fmt.signBit, ← pow_succ', add_comm 1, Nat.add_right_comm]

theorem Fmt.signBit_pos (f : Fmt) : 0 < f.signBit := Nat.two_pow_pos _

theorem Fmt.infBits_lt (f : Fmt) : f.infBits < f.signBit := by
  rw [Fmt.infBits, Fmt.signBit, pow_add]
  exact Nat.mul_lt_mul_of_pos_right (Nat.sub_lt (by positivity) one_pos) (by positivity)

theorem Fmt.signed_lt {v : Nat} (neg : Bool) (h : v < f.signBit) : f.signed neg v < 2 ^ f.bits := by
  rw [f.bits_eq]
  cases neg <;> simp [Fmt.signed] <;> omega

theorem Fmt.signBit_le_signed {v : Nat} {neg : Bool} (h : v < f.signBit) : f.signBit ≤ f.signed neg v ↔ neg = true := by
  cases neg <;> simp [Fmt.signed, h]

theorem Fmt.field_lt {ex fr : Nat} (hex : ex < 2 ^ f.eb) (hfr : fr < 2 ^ f.fb) : ex * 2 ^ f.fb + fr < f.signBit := by
  calc ex * 2 ^ f.fb + fr < (ex + 1) * 2 ^ f.fb := by rw [Nat.succ_mul]; omega
    _ ≤ 2 ^ f.eb * 2 ^ f.fb := Nat.mul_le_mul_right _ hex
    _ = f.signBit := (pow_add 2 _ _).symm

/-- An encoding is its sign, its exponent field and its fraction field. -/
theorem exists_fields {v : Nat} (hv : v < 2 ^ f.bits) :
    ∃ neg ex fr, ex < 2 ^ f.eb ∧ fr < 2 ^ f.fb ∧ v = f.signed neg (ex * 2 ^ f.fb + fr) := by
  refine ⟨decide (f.signBit ≤ v), v % f.signBit / 2 ^ f.fb, v % f.signBit % 2 ^ f.fb, ?_, Nat.mod_lt _ (by positivity), ?_⟩
  · refine Nat.div_lt_of_lt_mul ?_
    rw [← pow_add, add_comm]
    exact Nat.mod_lt _ f.signBit_pos
  · rw [Nat.div_add_mod', Fmt.signed]
    rw [f.bits_eq] at hv
    simp only [decide_eq_true_eq]
    split
    · rw [Nat.mod_eq_sub_mod ‹_›, Nat.mod_eq_of_lt (by omega)]; omega
    · exact (Nat.mod_eq_of_lt (by omega)).symm

theorem signed_fraction {neg : Bool} {ex fr : Nat} (hfr : fr < 2 ^ f.fb) :
    f.signed neg (ex * 2 ^ f.fb + fr) % 2 ^ f.fb = fr := by
  have : f.signBit = 2 ^ f.eb * 2 ^ f.fb := pow_add 2 _ _
  cases neg <;> simp [Fmt.signed, this, Nat.add_mod, Nat.mod_eq_of_lt hfr]

theorem signed_exponent {neg : Bool} {ex fr : Nat} (hex : ex < 2 ^ f.eb) (hfr : fr < 2 ^ f.fb) :
    f.signed neg (ex * 2 ^ f.fb + fr) / 2 ^ f.fb % 2 ^ f.eb = ex := by
  have hs : f.signBit = 2 ^ f.eb * 2 ^ f.fb := pow_add 2 _ _
  have h0 : (ex * 2 ^ f.fb + fr) / 2 ^ f.fb = ex := by
    rw [Nat.mul_comm, Nat.mul_add_div (by positivity), Nat.div_eq_of_lt hfr, Nat.add_zero]
  cases neg
  · simp [Fmt.signed, h0, Nat.mod_eq_of_lt hex]
  · simp only [Fmt.signed, if_true, hs]
    rw [Nat.mul_comm (2 ^ f.eb), Nat.mul_add_div (by positivity), h0, Nat.add_mod_left, Nat.mod_eq_of_lt hex]

/-- Decoding by fields (R31). -/
theorem decodeF_signed {neg : Bool} {ex fr : Nat} (hex : ex < 2 ^ f.eb) (hfr : fr < 2 ^ f.fb) :
    decodeF f (f.signed neg (ex * 2 ^ f.fb + fr)) =
      if ex = 2 ^ f.eb - 1 then
        if fr = 0 then .inf neg else .nan neg f.fb (if fr < 2 ^ (f.fb - 1) then fr + 2 ^ (f.fb - 1) else fr)
      else if ex = 0 then .fin neg fr f.qmin
      else .fin neg (fr + 2 ^ f.fb) (f.qmin + ex - 1) := by
  have hlt := Fmt.field_lt hex hfr
  have hneg : decide (f.signBit ≤ f.signed neg (ex * 2 ^ f.fb + fr)) = neg := by
    rw [Bool.eq_iff_iff, decide_eq_true_eq, Fmt.signBit_le_signed hlt]
  simp only [decodeF, Nat.mod_eq_of_lt (Fmt.signed_lt neg hlt), signed_exponent hex hfr, signed_fraction hfr, hneg]

/-! ### Finite numbers -/

theorem pack_fields {m : Nat} {e : Int} (h : f.Canon m e) (hf : f.Proper) :
    ∃ ex fr, ex < 2 ^ f.eb - 1 ∧ fr < 2 ^ f.fb ∧ f.pack m e = ex * 2 ^ f.fb + fr ∧
      (ex = 0 ∧ fr = m ∧ e = f.qmin ∨ ex ≠ 0 ∧ m = fr + 2 ^ f.fb ∧ e = f.qmin + ex - 1) := by
  obtain ⟨hm, hmin, hmax, hnorm⟩ := h
  have hmx := Fmt.emax_eq hf
  have h4 : 2 ^ 2 ≤ 2 ^ f.eb := Nat.pow_le_pow_right (by decide) hf.1
  rcases Nat.lt_or_ge m (2 ^ f.fb) with hs | hn
  · refine ⟨0, m, by omega, hs, by simp [Fmt.pack, hs], .inl ⟨rfl, rfl, by omega⟩⟩
  · rw [pow_succ] at hm
    refine ⟨(e - f.qmin).toNat + 1, m - 2 ^ f.fb, by omega, by omega, ?_, .inr ⟨by omega, by omega, by omega⟩⟩
    rw [Fmt.pack, if_neg (by omega), Nat.succ_mul]
    omega

theorem pack_lt_infBits {m : Nat} {e : Int} (h : f.Canon m e) (hf : f.Proper) : f.pack m e < f.infBits := by
  obtain ⟨ex, fr, hex, hfr, hp, -⟩ := pack_fields h hf
  rw [hp, Fmt.infBits]
  calc ex * 2 ^ f.fb + fr < (ex + 1) * 2 ^ f.fb := by rw [Nat.succ_mul]; omega
    _ ≤ _ := Nat.mul_le_mul_right _ hex

theorem pack_lt {m : Nat} {e : Int} (h : f.Canon m e) (hf : f.Proper) : f.pack m e < f.signBit :=
  (pack_lt_infBits h hf).trans f.infBits_lt

/-- The encoding of a finite number decodes to it. -/
theorem decodeF_pack {m : Nat} {e : Int} (neg : Bool) (h : f.Canon m e) (hf : f.Proper) :
    decodeF f (f.signed neg (f.pack m e)) = .fin neg m e := by
  obtain ⟨ex, fr, hex, hfr, hp, hcase⟩ := pack_fields h hf
  rw [hp, decodeF_signed (by omega) hfr, if_neg (by omega)]
  rcases hcase with ⟨rfl, rfl, rfl⟩ | ⟨h0, rfl, rfl⟩
  · simp
  · rw [if_neg h0]

/-- A finite encoding is the packing of what it decodes to. -/
theorem decodeF_fin {v m : Nat} {e : Int} {neg : Bool} (hf : f.Proper) (hv : v < 2 ^ f.bits) (h : decodeF f v = .fin neg m e) :
    f.Canon m e ∧ v = f.signed neg (f.pack m e) := by
  obtain ⟨s, ex, fr, hex, hfr, rfl⟩ := exists_fields hv
  rw [decodeF_signed hex hfr] at h
  have hmx := Fmt.emax_eq hf
  have h4 : 2 ^ 2 ≤ 2 ^ f.eb := Nat.pow_le_pow_right (by decide) hf.1
  split at h
  · split at h <;> cases h
  · split at h
    next h0 =>
      cases h
      subst h0
      exact ⟨⟨by rw [pow_succ]; omega, le_rfl, by omega, .inr rfl⟩, by simp [Fmt.pack, hfr]⟩
    next h0 =>
      cases h
      refine ⟨⟨by rw [pow_succ]; omega, by omega, by omega, .inl (by omega)⟩, ?_⟩
      rw [Fmt.pack, if_neg (by omega)]
      congr 1
      obtain ⟨k, rfl⟩ := Nat.exists_eq_succ_of_ne_zero h0
      rw [show (f.qmin + (k.succ : Int) - 1 - f.qmin).toNat = k by omega, Nat.succ_mul]
      omega

theorem bitLen_eq {m n : Nat} (hlo : 2 ^ n ≤ m) (hhi : m < 2 ^ (n + 1)) : bitLen m = n + 1 := by
  have h0 : m ≠ 0 := (lt_of_lt_of_le (by positivity) hlo).ne'
  rw [bitLen, if_neg h0, (Nat.log2_eq_iff h0).2 ⟨hlo, hhi⟩]

theorem two_pow_le_of_pos {m : Nat} (h : 0 < m) : 2 ^ (bitLen m - 1) ≤ m := by
  rw [bitLen, if_neg h.ne']
  exact Nat.log2_self_le h.ne'

theorem lt_two_pow_bitLen (m : Nat) : m < 2 ^ bitLen m := by
  rw [bitLen]
  split
  · simp [*]
  · exact Nat.lt_log2_self

/-- encodeMag packs a pair that is already on the format's grid. -/
theorem encodeMag_canon {m : Nat} {e : Int} (h : f.Canon m e) : encodeMag f m e = f.pack m e := by
  obtain ⟨hm, hmin, hmax, hnorm⟩ := h
  rw [encodeMag]
  split
  next h0 => simp [Fmt.pack, h0]
  next h0 =>
    have hlift : min (f.fb + 1 - bitLen m) (e - f.qmin).toNat = 0 := by
      rcases hnorm with hn | rfl
      · simp [bitLen_eq hn hm]
      · simp
    simp only [hlift, pow_zero, Nat.mul_one, Nat.cast_zero, sub_zero, Fmt.pack]

end Sys2Proof.Machine
end

section
/-! Rounding a magnitude (R35): to a multiple of a power of two, and which number of a format that is. -/

namespace Sys2Proof.Machine

variable {f : Fmt}

/-! ### Rounding a magnitude to a grid (R35) -/

/-- Which way a magnitude is rounded. -/
inductive MagDir where
  | down | up | near

/-- The way a magnitude goes in a mode, by its sign. -/
def RMode.dir (mode : RMode) (neg : Bool) : MagDir :=
  match mode with
  | .rne => .near
  | .rz => .down
  | .rd => if neg then .up else .down
  | .ru => if neg then .down else .up

/-- The natural number k is t rounded to an integer. -/
def MagDir.Rounds (d : MagDir) (t : ℝ) (k : Nat) : Prop :=
  match d with
  | .down => (k : ℝ) ≤ t ∧ t < k + 1
  | .up => (k : ℝ) - 1 < t ∧ t ≤ k
  | .near => |(k : ℝ) - t| ≤ 1 / 2 ∧ (|(k : ℝ) - t| = 1 / 2 → k % 2 = 0)

/-- The integer m with its sticky bit stands for t. -/
def StandsFor (m : Nat) (sticky : Bool) (t : ℝ) : Prop :=
  if sticky then (m : ℝ) < t ∧ t < m + 1 else t = m

theorem MagDir.rounds_self (d : MagDir) (k : Nat) : d.Rounds k k := by
  cases d <;> simp [MagDir.Rounds]

theorem MagDir.Rounds.eq_of_nat {d : MagDir} {k n : Nat} (h : d.Rounds n k) : k = n := by
  cases d with
  | down =>
    obtain ⟨h1, h2⟩ := h
    norm_cast at h1 h2
    omega
  | up =>
    obtain ⟨h1, h2⟩ := h
    rw [sub_lt_iff_lt_add] at h1
    norm_cast at h1 h2
    omega
  | near =>
    obtain ⟨h1, -⟩ := h
    rw [abs_le] at h1
    have h2 : (k : ℝ) < n + 1 := by linarith
    have h3 : (n : ℝ) < k + 1 := by linarith
    norm_cast at h2 h3
    omega

/-- Rounding up where roundsUp says so is rounding. -/
theorem rounds_of_roundsUp {mode : RMode} {neg odd above tie ix : Bool} {t : ℝ} {k : Nat} (hlo : (k : ℝ) ≤ t) (hhi : t < k + 1)
    (hodd : odd = true ↔ k % 2 = 1) (habove : above = true ↔ (k : ℝ) + 1 / 2 < t) (htie : tie = true ↔ t = k + 1 / 2)
    (hix : ix = true ↔ (k : ℝ) < t) :
    (mode.dir neg).Rounds t (if roundsUp mode neg odd above tie ix then k + 1 else k) := by
  have hdown : MagDir.down.Rounds t k := ⟨hlo, hhi⟩
  have hup : MagDir.up.Rounds t (if ix then k + 1 else k) := by
    simp only [MagDir.Rounds]
    split
    · push_cast; exact ⟨by linarith [hix.1 ‹_›], by linarith⟩
    · have : t = k := le_antisymm (not_lt.1 fun h => ‹¬_› (hix.2 h)) hlo
      simp [this]
  cases mode with
  | rz => exact hdown
  | rd => cases neg
          · simpa [RMode.dir, roundsUp] using hdown
          · simpa [RMode.dir, roundsUp] using hup
  | ru => cases neg
          · simpa [RMode.dir, roundsUp] using hup
          · simpa [RMode.dir, roundsUp] using hdown
  | rne =>
    simp only [RMode.dir, roundsUp, MagDir.Rounds, Bool.or_eq_true, Bool.and_eq_true]
    rcases lt_trichotomy t (k + 1 / 2) with h | h | h
    · rw [if_neg (by rw [habove, htie]; rintro (h' | ⟨h', -⟩) <;> linarith), abs_sub_comm, abs_of_nonneg (by linarith)]
      exact ⟨by linarith, fun h' => by linarith⟩
    · subst h
      by_cases ho : k % 2 = 1
      · rw [if_pos (.inr ⟨htie.2 rfl, hodd.2 ho⟩), abs_of_nonneg (by push_cast; linarith)]
        exact ⟨by push_cast; linarith, fun _ => by omega⟩
      · rw [if_neg (by rw [habove, hodd]; rintro (h' | h'); exacts [lt_irrefl _ h', ho h'.2]), abs_sub_comm, abs_of_nonneg (by linarith)]
        exact ⟨by linarith, fun _ => by omega⟩
    · rw [if_pos (.inl (habove.2 h)), abs_of_nonneg (by push_cast; linarith)]
      exact ⟨by push_cast; linarith, fun h' => by push_cast at h'; linarith⟩

/-- The remainder of m by 2^s, and the sticky bit, say where t / 2^s lies between two integers. -/
theorem StandsFor.split {m s : Nat} {sticky : Bool} {t : ℝ} (h : StandsFor m sticky t) (hs : 0 < s) :
    let k : ℝ := (m / 2 ^ s : Nat)
    let r := m % 2 ^ s
    k ≤ t / 2 ^ s ∧ t / 2 ^ s < k + 1 ∧
    ((decide (2 ^ (s - 1) < r) || (r == 2 ^ (s - 1) && sticky)) = true ↔ k + 1 / 2 < t / 2 ^ s) ∧
    ((r == 2 ^ (s - 1) && !sticky) = true ↔ t / 2 ^ s = k + 1 / 2) ∧
    ((r != 0 || sticky) = true ↔ k < t / 2 ^ s) := by
  intro k r
  obtain ⟨n, rfl⟩ := Nat.exists_eq_succ_of_ne_zero hs.ne'
  have hr : r < 2 ^ (n + 1) := Nat.mod_lt _ (by positivity)
  have hm : (m : ℝ) = k * (2 * 2 ^ n) + r := by
    rw [← pow_succ']
    simp only [k, r]
    exact_mod_cast (Nat.div_add_mod' m (2 ^ (n + 1))).symm
  obtain ⟨H, hH⟩ : ∃ H : Nat, H = 2 ^ n := ⟨_, rfl⟩
  have hH0 : (0 : ℝ) < H := by rw [hH]; positivity
  have hHr : ((2 : ℝ) ^ n) = H := by rw [hH]; norm_cast
  simp only [Nat.succ_eq_add_one, Nat.add_sub_cancel, pow_succ', hHr, ← hH] at hr hm ⊢
  clear_value k r
  have hr1 : (r : ℝ) + 1 ≤ 2 * H := by exact_mod_cast hr
  rw [le_div_iff₀ (by positivity), div_lt_iff₀ (by positivity), lt_div_iff₀ (by positivity), lt_div_iff₀ (by positivity),
    div_eq_iff (by positivity)]
  cases sticky
  · have ht : t = m := h
    simp only [Bool.and_false, Bool.or_false, Bool.not_false, Bool.and_true, decide_eq_true_eq, beq_iff_eq, bne_iff_ne,
      ← Nat.pos_iff_ne_zero, ← Nat.cast_lt (α := ℝ), ← Nat.cast_inj (R := ℝ), Nat.cast_zero]
    refine ⟨by linarith, by linarith, ?_, ?_, ?_⟩
    all_goals constructor <;> intro <;> linarith
  · obtain ⟨h1, h2⟩ : (m : ℝ) < t ∧ t < m + 1 := h
    have hr0 : (0 : ℝ) ≤ r := r.cast_nonneg
    simp only [Bool.and_true, Bool.or_true, Bool.not_true, Bool.and_false, Bool.or_eq_true, decide_eq_true_eq, beq_iff_eq,
      Bool.false_eq_true, false_iff, true_iff]
    refine ⟨by linarith, by linarith, ?_, ?_, by linarith⟩
    · constructor
      · intro h'
        have : (H : ℝ) ≤ r := by exact_mod_cast (by omega : H ≤ r)
        linarith
      · intro h'
        by_contra hc
        have : (r : ℝ) + 1 ≤ H := by exact_mod_cast (by omega : r + 1 ≤ H)
        linarith
    · intro h'
      rcases Nat.lt_or_ge r H with hlt | hge
      · have : (r : ℝ) + 1 ≤ H := by exact_mod_cast hlt
        linarith
      · have : (H : ℝ) ≤ r := by exact_mod_cast hge
        linarith

/-- The real that a magnitude with its sticky bit stands for, on a finer or coarser grid. -/
def Magnitude (m : Nat) (e : Int) (sticky : Bool) (Q : ℝ) : Prop := StandsFor m sticky (Q / 2 ^ e)

/-- roundGrid rounds to the grid of 2^q, and says whether it changed the value. -/
theorem roundGrid_rounds {mode : RMode} {neg : Bool} {m : Nat} {e q : Int} {sticky : Bool} {Q : ℝ} (h : Magnitude m e sticky Q)
    (hq : sticky = true → e < q) :
    (mode.dir neg).Rounds (Q / 2 ^ q) (roundGrid mode neg m e sticky q).1 ∧
      ((roundGrid mode neg m e sticky q).2 = true ↔ Q / 2 ^ q ≠ (roundGrid mode neg m e sticky q).1) := by
  rw [roundGrid]
  split
  next hle =>
    have hst : sticky = false := by
      rw [← Bool.not_eq_true]
      intro hs
      have := hq hs
      omega
    subst hst
    have ht : Q / 2 ^ q = ((m * 2 ^ (e - q).toNat : Nat) : ℝ) := by
      have h' : Q / 2 ^ e = m := h
      rw [div_eq_iff (by positivity)] at h' ⊢
      rw [h']
      push_cast
      rw [mul_assoc, ← zpow_natCast, ← zpow_add₀ two_ne_zero]
      congr 2
      omega
    rw [ht]
    exact ⟨MagDir.rounds_self _ _, by simp⟩
  next hlt =>
    obtain ⟨s, hs⟩ : ∃ s : Nat, q = e + s := ⟨(q - e).toNat, by omega⟩
    have hs0 : 0 < s := by omega
    have hdiv : Q / 2 ^ q = Q / 2 ^ e / 2 ^ s := by rw [hs, zpow_add₀ two_ne_zero, div_div, zpow_natCast]
    obtain ⟨hlo, hhi, habove, htie, hix⟩ := h.split hs0
    have hsn : (q - e).toNat = s := by omega
    rw [hdiv, hsn]
    dsimp only
    have hr := rounds_of_roundsUp (mode := mode) (neg := neg) hlo hhi beq_iff_eq habove htie hix
    refine ⟨hr, hix.trans ⟨fun hK heq => ?_, fun hne => lt_of_le_of_ne hlo fun heq => hne ?_⟩⟩
    · rw [heq] at hK hhi
      norm_cast at hK hhi
      omega
    · rw [← heq] at hr ⊢
      rw [hr.eq_of_nat]

/-! ### The numbers of a format -/

/-- A magnitude with its sign. -/
def signedReal (neg : Bool) (Q : ℝ) : ℝ := if neg then -Q else Q

/-- The largest number of a format. -/
noncomputable def Fmt.top (f : Fmt) : ℝ := 2 ^ (f.emax + 1) - 2 ^ (f.emax - f.fb)

/-- Half a step beyond the largest number of a format (R36). -/
noncomputable def Fmt.edge (f : Fmt) : ℝ := 2 ^ (f.emax + 1) - 2 ^ (f.emax - f.fb - 1)

/-- A number within the range of a format that is a multiple of each step that its size admits. -/
def Fmt.Holds (f : Fmt) (u : ℝ) : Prop :=
  |u| ≤ f.top ∧ ∀ q : Int, f.qmin ≤ q → (q = f.qmin ∨ (2 : ℝ) ^ (q + f.fb) ≤ |u|) → ∃ j : Int, u = j * 2 ^ q

theorem abs_signedReal {neg : Bool} {Q : ℝ} (hQ : 0 ≤ Q) : |signedReal neg Q| = Q := by
  cases neg <;> simp [signedReal, abs_of_nonneg hQ]

theorem Fmt.Holds.neg {u : ℝ} (h : f.Holds u) : f.Holds (-u) := by
  obtain ⟨htop, hgrid⟩ := h
  refine ⟨by rwa [abs_neg], fun q hq hc => ?_⟩
  obtain ⟨j, rfl⟩ := hgrid q hq (by rwa [abs_neg] at hc)
  exact ⟨-j, by push_cast; ring⟩

theorem Fmt.Canon.le_top {m : Nat} {e : Int} (h : f.Canon m e) : (m : ℝ) * 2 ^ e ≤ f.top := by
  obtain ⟨hm, -, hmax, -⟩ := h
  have hm' : (m : ℝ) ≤ 2 ^ (f.fb + 1) - 1 := by
    have : m + 1 ≤ 2 ^ (f.fb + 1) := hm
    have : ((m + 1 : Nat) : ℝ) ≤ (2 ^ (f.fb + 1) : Nat) := by exact_mod_cast this
    push_cast at this
    linarith
  calc (m : ℝ) * 2 ^ e ≤ (2 ^ (f.fb + 1) - 1) * 2 ^ (f.emax - f.fb) :=
        mul_le_mul hm' (zpow_le_zpow_right₀ one_le_two hmax) (by positivity) (by linarith [(m.cast_nonneg : (0 : ℝ) ≤ m)])
    _ = f.top := by
        rw [Fmt.top, sub_mul, one_mul, ← zpow_natCast, ← zpow_add₀ two_ne_zero]
        congr 2
        push_cast
        ring

theorem Fmt.Canon.holds {m : Nat} {e : Int} (neg : Bool) (h : f.Canon m e) : f.Holds (signedReal neg (m * 2 ^ e)) := by
  have habs : |signedReal neg ((m : ℝ) * 2 ^ e)| = m * 2 ^ e := abs_signedReal (by positivity)
  refine ⟨habs.trans_le h.le_top, fun q hq hc => ?_⟩
  rw [habs] at hc
  obtain ⟨hm, hmin, hmax, hnorm⟩ := h
  have hqe : q ≤ e := by
    rcases hc with rfl | hc
    · exact hmin
    · have hlt : (2 : ℝ) ^ (q + f.fb) < 2 ^ (e + (f.fb + 1)) := by
        calc (2 : ℝ) ^ (q + f.fb) ≤ m * 2 ^ e := hc
          _ < 2 ^ (f.fb + 1) * 2 ^ e := mul_lt_mul_of_pos_right (by exact_mod_cast hm) (by positivity)
          _ = 2 ^ (e + (f.fb + 1)) := by rw [zpow_add₀ two_ne_zero, mul_comm]; norm_cast
      have := (zpow_lt_zpow_iff_right₀ one_lt_two).1 hlt
      omega
  obtain ⟨n, rfl⟩ : ∃ n : Nat, e = q + n := ⟨(e - q).toNat, by omega⟩
  refine ⟨(if neg then -1 else 1) * (m * 2 ^ n), ?_⟩
  rw [zpow_add₀ two_ne_zero, zpow_natCast]
  cases neg <;> simp [signedReal] <;> ring

/-- A finite encoding has a value, and the value's magnitude and sign are those of its pair. -/
theorem finValue_of_fin {v m : Nat} {e : Int} {neg : Bool} (h : decodeF f v = .fin neg m e) :
    ∃ x : Rat, finValue f v = some x ∧ (x : ℝ) = signedReal neg (m * 2 ^ e) := by
  refine ⟨_, by rw [finValue, h], ?_⟩
  cases neg <;> simp [signedReal]

theorem exists_fin_of_finValue {v : Nat} {x : Rat} (h : finValue f v = some x) :
    ∃ neg m e, decodeF f v = .fin neg m e ∧ x = (if neg then -1 else 1) * m * 2 ^ e := by
  rw [finValue] at h
  split at h
  next hd => exact ⟨_, _, _, hd, (Option.some.inj h).symm⟩
  next => cases h

theorem decodeF_mod (f : Fmt) (v : Nat) : decodeF f (v % 2 ^ f.bits) = decodeF f v := by
  simp only [decodeF, Nat.mod_mod]

theorem holds_of_finValue (hf : f.Proper) {v : Nat} {x : Rat} (h : finValue f v = some x) : f.Holds x := by
  obtain ⟨neg, m, e, hd, rfl⟩ := exists_fin_of_finValue h
  rw [← decodeF_mod] at hd
  have hc := (decodeF_fin hf (Nat.mod_lt _ (by positivity)) hd).1
  convert hc.holds neg using 1
  cases neg <;> simp [signedReal]

theorem decodeF_inf (neg : Bool) (f : Fmt) : decodeF f (f.signed neg f.infBits) = .inf neg := by
  have := decodeF_signed (f := f) (neg := neg) (ex := 2 ^ f.eb - 1) (fr := 0) (Nat.sub_lt (by positivity) one_pos) (by positivity)
  rwa [if_pos rfl, if_pos rfl, Nat.add_zero] at this

theorem finValue_inf (neg : Bool) (f : Fmt) : finValue f (f.signed neg f.infBits) = none := by
  rw [finValue, decodeF_inf]

/-! ### The best number of a format -/

/-- Of the numbers of a format v is the one that a magnitude Q rounds to; `even`: a tie goes to it. -/
def MagDir.Best (d : MagDir) (f : Fmt) (Q v : ℝ) (even : Prop) : Prop :=
  match d with
  | .down => v ≤ Q ∧ ∀ u, f.Holds u → u ≤ Q → u ≤ v
  | .up => Q ≤ v ∧ ∀ u, f.Holds u → Q ≤ u → v ≤ u
  | .near => Q < f.edge ∧ ∀ u, f.Holds u → |v - Q| ≤ |u - Q| ∧ (|v - Q| = |u - Q| → u = v ∨ even)

/-- A magnitude Q goes to an infinity. -/
def MagDir.Leaves (d : MagDir) (f : Fmt) (Q : ℝ) : Prop :=
  match d with
  | .down => False
  | .up => f.top < Q
  | .near => f.edge ≤ Q

/-- Where t is at least 2^fb, or the steps are the least there are, a number of the format is a whole number of steps, or
lies below 2^fb steps. -/
theorem Fmt.Holds.steps {u t : ℝ} {q : Int} (h : f.Holds u) (hq : f.qmin ≤ q) (hQ : q = f.qmin ∨ 2 ^ f.fb ≤ t) :
    (∃ j : Int, u / 2 ^ q = j) ∨ (u / 2 ^ q < (2 ^ f.fb : Nat) ∧ ((2 ^ f.fb : Nat) : ℝ) ≤ t) := by
  have hpos : (0 : ℝ) < 2 ^ q := by positivity
  by_cases hc : q = f.qmin ∨ (2 : ℝ) ^ (q + f.fb) ≤ |u|
  · obtain ⟨j, rfl⟩ := h.2 q hq hc
    exact .inl ⟨j, mul_div_cancel_right₀ _ hpos.ne'⟩
  · obtain ⟨hne, hlt⟩ := not_or.1 hc
    refine .inr ⟨?_, by push_cast; exact hQ.resolve_left hne⟩
    rw [div_lt_iff₀ hpos]
    push_cast
    rw [← zpow_natCast, ← zpow_add₀ two_ne_zero, add_comm]
    exact lt_of_le_of_lt (le_abs_self u) (not_le.1 hlt)

/-- Rounding to the steps of the grid is rounding in the format. -/
theorem MagDir.Rounds.best {d : MagDir} {Q : ℝ} {q : Int} {k : Nat} {even : Prop} (h : d.Rounds (Q / 2 ^ q) k) (hq : f.qmin ≤ q)
    (hQ : q = f.qmin ∨ 2 ^ f.fb ≤ Q / 2 ^ q) (hedge : d = .near → Q < f.edge) (heven : k % 2 = 0 → even) :
    d.Best f Q (k * 2 ^ q) even := by
  have hpos : (0 : ℝ) < 2 ^ q := by positivity
  have hQq : Q = Q / 2 ^ q * 2 ^ q := (div_mul_cancel₀ _ hpos.ne').symm
  cases d with
  | down =>
    obtain ⟨hlo, hhi⟩ := h
    refine ⟨(le_div_iff₀ hpos).1 hlo, fun u hu huQ => (div_le_iff₀ hpos).1 ?_⟩
    have huQ' : u / 2 ^ q ≤ Q / 2 ^ q := by gcongr
    rcases hu.steps hq hQ with ⟨j, hj⟩ | ⟨hlt, hle⟩
    · rw [hj] at huQ' ⊢
      have : (j : ℝ) < (k : Int) + 1 := lt_of_le_of_lt huQ' hhi
      norm_cast at this ⊢
      omega
    · have : (((2 ^ f.fb : Nat)) : ℝ) < k + 1 := lt_of_le_of_lt hle hhi
      have : 2 ^ f.fb ≤ k := Nat.lt_succ_iff.1 (by exact_mod_cast this)
      exact hlt.le.trans (by exact_mod_cast this)
  | up =>
    obtain ⟨hlo, hhi⟩ := h
    refine ⟨(div_le_iff₀ hpos).1 hhi, fun u hu huQ => (le_div_iff₀ hpos).1 ?_⟩
    have huQ' : Q / 2 ^ q ≤ u / 2 ^ q := by gcongr
    rcases hu.steps hq hQ with ⟨j, hj⟩ | ⟨hlt, hle⟩
    · rw [hj] at huQ' ⊢
      have : ((k : Int) : ℝ) < j + 1 := sub_lt_iff_lt_add.1 (lt_of_lt_of_le hlo huQ')
      norm_cast at this ⊢
      omega
    · exact absurd (hle.trans huQ') (not_le.2 hlt)
  | near =>
    obtain ⟨hhalf, htie⟩ := h
    refine ⟨hedge rfl, fun u hu => ?_⟩
    have hscale : ∀ y : ℝ, |y * 2 ^ q - Q| = |y - Q / 2 ^ q| * 2 ^ q := fun y => by
      rw [← abs_of_pos hpos, ← abs_mul, abs_of_pos hpos, sub_mul, ← hQq]
    rw [← div_mul_cancel₀ u hpos.ne', hscale, hscale, mul_le_mul_iff_left₀ hpos, mul_left_inj' hpos.ne', mul_left_inj' hpos.ne']
    generalize Q / 2 ^ q = t at *
    have far : ∀ j : Int, j ≠ k → 1 / 2 ≤ |(j : ℝ) - t| := fun j hj => by
      have h1 : (1 : ℝ) ≤ |(j : ℝ) - k| := by
        have : (1 : Int) ≤ |j - k| := Int.one_le_abs (sub_ne_zero.2 hj)
        exact_mod_cast this
      have h2 := abs_sub_le (j : ℝ) t k
      rw [abs_sub_comm t] at h2
      linarith
    rcases hu.steps hq hQ with ⟨j, hj⟩ | ⟨hlt, hle⟩
    · rw [hj]
      by_cases hjk : j = k
      · subst hjk
        exact ⟨le_rfl, fun _ => .inl rfl⟩
      · have := far j hjk
        exact ⟨hhalf.trans this, fun he => .inr (heven (htie (by linarith)))⟩
    · have hstrict : |(k : ℝ) - t| < |u / 2 ^ q - t| := by
        rw [abs_of_neg (by linarith : u / 2 ^ q - t < 0)]
        by_cases hk : ((2 ^ f.fb : Nat) : Int) = k
        · have : ((2 ^ f.fb : Nat) : ℝ) = k := by exact_mod_cast hk
          rw [← this, abs_of_nonpos (by linarith)]
          linarith
        · have := far _ hk
          rw [abs_of_nonpos (by push_cast at hle ⊢; linarith)] at this
          push_cast at *
          linarith
      exact ⟨hstrict.le, fun he => absurd he hstrict.ne⟩

end Sys2Proof.Machine
end

section
/-! What round of R36 delivers: the encoding that RoundOf asks for, and its flags. -/

namespace Sys2Proof.Machine

variable {f : Fmt}

/-! ### What a rounding delivers (R36) -/

theorem signedReal_neg_iff {neg : Bool} {Q : ℝ} (hQ : 0 < Q) : signedReal neg Q < 0 ↔ neg = true := by
  cases neg <;> simp [signedReal, hQ, hQ.le]

theorem signed_even (hf : f.Proper) (neg : Bool) (r : Nat) : f.signed neg r % 2 = r % 2 := by
  obtain ⟨n, hn⟩ : ∃ n, f.eb + f.fb = n + 1 := ⟨f.eb + f.fb - 1, by have := hf.1; omega⟩
  cases neg <;> simp [Fmt.signed, Fmt.signBit, hn, pow_succ, Nat.add_mod]

section
variable {neg : Bool} {Q : ℝ} {r : Nat} {v : Rat} {w : ℝ} {even : Prop} (hf : f.Proper)

include hf in
/-- Toward zero is down for what is positive and up for what is negative. -/
theorem MagDir.Best.toward_zero (hv : finValue f r = some v) (hw : (v : ℝ) = signedReal neg w) (h : MagDir.down.Best f Q w even) :
    if neg then RoundsUp f (signedReal neg Q) r else RoundsDown f (signedReal neg Q) r := by
  obtain ⟨hle, hbest⟩ := h
  cases neg
  · refine (if_neg Bool.false_ne_true).mpr ?_
    simp only [RoundsDown, hv, ← Rat.cast_le (K := ℝ), hw, signedReal]
    exact ⟨hle, fun b u hu => hbest u (holds_of_finValue hf hu)⟩
  · refine (if_pos rfl).mpr ?_
    simp only [RoundsUp, hv, ← Rat.cast_le (K := ℝ), hw, signedReal]
    refine ⟨neg_le_neg hle, fun b u hu hq => ?_⟩
    exact neg_le.1 (hbest _ (holds_of_finValue hf hu).neg (neg_le.1 hq))

include hf in
/-- Away from zero is up for what is positive and down for what is negative. -/
theorem MagDir.Best.from_zero (hv : finValue f r = some v) (hw : (v : ℝ) = signedReal neg w) (h : MagDir.up.Best f Q w even) :
    if neg then RoundsDown f (signedReal neg Q) r else RoundsUp f (signedReal neg Q) r := by
  obtain ⟨hle, hbest⟩ := h
  cases neg
  · refine (if_neg Bool.false_ne_true).mpr ?_
    simp only [RoundsUp, hv, ← Rat.cast_le (K := ℝ), hw, signedReal]
    exact ⟨hle, fun b u hu => hbest u (holds_of_finValue hf hu)⟩
  · refine (if_pos rfl).mpr ?_
    simp only [RoundsDown, hv, ← Rat.cast_le (K := ℝ), hw, signedReal]
    refine ⟨neg_le_neg hle, fun b u hu hq => ?_⟩
    exact le_neg.1 (hbest _ (holds_of_finValue hf hu).neg (le_neg.1 hq))

/-- What the way of a magnitude asks of the encoding that it goes to. -/
def MagDir.Goes (d : MagDir) (f : Fmt) (neg : Bool) (q : ℝ) (r : Nat) : Prop :=
  match d with
  | .down => if neg then RoundsUp f q r else RoundsDown f q r
  | .up => if neg then RoundsDown f q r else RoundsUp f q r
  | .near => RoundOf f .rne q r

theorem MagDir.Goes.roundOf {mode : RMode} (hQ : 0 < Q) (hr : r < 2 ^ f.bits) (hs : f.signBit ≤ r ↔ neg = true)
    (h : (mode.dir neg).Goes f neg (signedReal neg Q) r) : RoundOf f mode (signedReal neg Q) r := by
  have hneg := signedReal_neg_iff (neg := neg) hQ
  cases mode with
  | rne => exact h
  | rz => exact ⟨hr, hs.trans hneg.symm, by simp only [hneg]; exact h⟩
  | rd => exact ⟨hr, hs.trans hneg.symm, by cases neg <;> exact h⟩
  | ru => exact ⟨hr, hs.trans hneg.symm, by cases neg <;> exact h⟩

include hf in
theorem MagDir.Best.goes {d : MagDir} (hQ : 0 < Q) (hr : r < 2 ^ f.bits) (hs : f.signBit ≤ r ↔ neg = true) (hv : finValue f r = some v)
    (hw : (v : ℝ) = signedReal neg w) (h : d.Best f Q w (r % 2 = 0)) : d.Goes f neg (signedReal neg Q) r := by
  cases d with
  | down => exact h.toward_zero hf hv hw
  | up => exact h.from_zero hf hv hw
  | near =>
    obtain ⟨hedge, hbest⟩ := h
    refine ⟨hr, hs.trans (signedReal_neg_iff hQ).symm, ?_⟩
    simp only [hv]
    refine ⟨(abs_signedReal hQ.le).trans_lt hedge, fun b u hu => ?_⟩
    have hu' := holds_of_finValue hf hu
    rw [hw]
    cases neg
    · obtain ⟨hle, htie⟩ := hbest u hu'
      exact ⟨hle, fun he => (htie he).imp_left fun h' => by exact_mod_cast h'.trans hw.symm⟩
    · obtain ⟨hle, htie⟩ := hbest (-u) hu'.neg
      have hflip : ∀ y : ℝ, |-y - Q| = |y - -Q| := fun y => by rw [← abs_neg]; ring_nf
      have hw' : |w - Q| = |-w - -Q| := by rw [← hflip, neg_neg]
      rw [hflip, hw'] at hle htie
      refine ⟨hle, fun he => (htie he).imp_left fun h' => ?_⟩
      have : (u : ℝ) = v := by rw [hw, signedReal, if_pos rfl, ← h', neg_neg]
      exact_mod_cast this

include hf in
theorem MagDir.Leaves.goes {d : MagDir} (hQ : 0 < Q) (h : d.Leaves f Q) :
    d.Goes f neg (signedReal neg Q) (f.signed neg f.infBits) := by
  have hlt := f.infBits_lt
  cases d with
  | down => exact h.elim
  | up =>
    have hall : ∀ b u, finValue f b = some u → |(u : ℝ)| < Q := fun b u hu => lt_of_le_of_lt (holds_of_finValue hf hu).1 h
    cases neg
    · simp only [MagDir.Goes, RoundsUp, finValue_inf, signedReal, Bool.false_eq_true, if_false]
      exact ⟨rfl, fun b u hu => (abs_lt.1 (hall b u hu)).2⟩
    · simp only [MagDir.Goes, RoundsDown, finValue_inf, signedReal, if_true]
      exact ⟨trivial, fun b u hu => (abs_lt.1 (hall b u hu)).1⟩
  | near =>
    refine ⟨Fmt.signed_lt neg hlt, (Fmt.signBit_le_signed hlt).trans (signedReal_neg_iff hQ).symm, ?_⟩
    simp only [finValue_inf, Fmt.signBit_le_signed hlt, abs_signedReal hQ.le]
    exact ⟨h, by simp⟩

end

/-- A result is an exact nonzero value rounded once, inexact where it differs from it, and neither invalid nor a division by zero. -/
def Delivers (f : Fmt) (mode : RMode) (q : ℝ) (r : Nat × FFlags) : Prop :=
  RoundOf f mode q r.1 ∧ r.2.nv = false ∧ r.2.dz = false ∧ (r.2.nx = true ↔ ∀ v, finValue f r.1 = some v → (v : ℝ) ≠ q)

/-- A magnitude that is rounded on a grid whose steps the format has, to a number of the format, is delivered. -/
theorem delivers_grid (hf : f.Proper) {mode : RMode} {neg : Bool} {Q : ℝ} {q e : Int} {k m : Nat} {fl : FFlags} (hQ : 0 < Q)
    (hk : (mode.dir neg).Rounds (Q / 2 ^ q) k) (hq : f.qmin ≤ q) (hn : q = f.qmin ∨ 2 ^ f.fb ≤ Q / 2 ^ q)
    (hedge : mode.dir neg = .near → Q < f.edge) (hc : f.Canon m e) (hval : (m : ℝ) * 2 ^ e = k * 2 ^ q) (heven : k % 2 = 0 → m % 2 = 0)
    (hnv : fl.nv = false) (hdz : fl.dz = false) (hnx : fl.nx = true ↔ Q / 2 ^ q ≠ k) :
    Delivers f mode (signedReal neg Q) (f.signed neg (encodeMag f m e), fl) := by
  rw [encodeMag_canon hc]
  have hlt := pack_lt hc hf
  obtain ⟨v, hv, hw⟩ := finValue_of_fin (decodeF_pack neg hc hf)
  rw [hval] at hw
  have hr := Fmt.signed_lt neg hlt
  have hs : f.signBit ≤ f.signed neg (f.pack m e) ↔ neg = true := Fmt.signBit_le_signed hlt
  have heven' : k % 2 = 0 → f.signed neg (f.pack m e) % 2 = 0 := fun h => by
    obtain ⟨n, hn⟩ := Nat.exists_eq_add_of_le hf.2.1
    rw [signed_even hf, Fmt.pack]
    split
    · exact heven h
    · simp [hn, pow_add, Nat.add_mod, Nat.mul_mod, heven h]
  refine ⟨((hk.best hq hn hedge heven').goes hf hQ hr hs hv hw).roundOf hQ hr hs, hnv, hdz, hnx.trans ?_⟩
  have heq : (v : ℝ) = signedReal neg Q ↔ Q / 2 ^ q = k := by
    rw [hw, div_eq_iff (by positivity)]
    cases neg <;> simp [signedReal, eq_comm]
  simp [hv, heq]

/-! ### Beyond the largest number -/

/-- The largest number of a format is 2^(fb+1) - 1 steps of its highest binade, and the edge half a step more. -/
theorem Fmt.top_eq (f : Fmt) : f.top = (2 ^ (f.fb + 1) - 1) * 2 ^ (f.emax - f.fb) := by
  rw [Fmt.top, sub_mul, one_mul, ← zpow_natCast, ← zpow_add₀ two_ne_zero]
  congr 2
  push_cast
  ring

theorem Fmt.edge_eq (f : Fmt) : f.edge = (2 ^ (f.fb + 1) - 1 / 2) * 2 ^ (f.emax - f.fb) := by
  rw [Fmt.edge, sub_mul, ← zpow_natCast, ← zpow_add₀ two_ne_zero, zpow_sub_one₀ two_ne_zero]
  congr 1
  · congr 1
    push_cast
    ring
  · ring

theorem Fmt.top_lt_edge (f : Fmt) : f.top < f.edge := by
  rw [f.top_eq, f.edge_eq]
  exact mul_lt_mul_of_pos_right (by linarith) (by positivity)

theorem Fmt.edge_lt (f : Fmt) : f.edge < 2 ^ (f.emax + 1) :=
  sub_lt_self _ (by positivity)

theorem Fmt.lt_edge {Q : ℝ} (h : Q < 2 ^ f.emax) : Q < f.edge := by
  refine h.trans ?_
  rw [Fmt.edge, zpow_add₀ two_ne_zero, zpow_one]
  have : (2 : ℝ) ^ (f.emax - f.fb - 1) < 2 ^ f.emax := zpow_lt_zpow_right₀ one_lt_two (by omega)
  linarith

theorem Fmt.canon_max (hf : f.Proper) : f.Canon (2 ^ (f.fb + 1) - 1) (f.emax - f.fb) := by
  have hmx := Fmt.emax_eq hf
  have h4 : 2 ^ 2 ≤ 2 ^ f.eb := Nat.pow_le_pow_right (by decide) hf.1
  have h1 : 0 < 2 ^ f.fb := by positivity
  exact ⟨Nat.sub_lt (by positivity) one_pos, by omega, le_rfl, .inl (by rw [pow_succ]; omega)⟩

theorem Fmt.maxBits_eq (hf : f.Proper) : f.maxBits = f.pack (2 ^ (f.fb + 1) - 1) (f.emax - f.fb) := by
  have hmx := Fmt.emax_eq hf
  have h4 : 2 ^ 2 ≤ 2 ^ f.eb := Nat.pow_le_pow_right (by decide) hf.1
  have h1 : 0 < 2 ^ f.fb := by positivity
  obtain ⟨n, hn⟩ : ∃ n, 2 ^ f.eb = n + 3 := ⟨2 ^ f.eb - 3, by omega⟩
  rw [Fmt.maxBits, Fmt.infBits, Fmt.pack, if_neg (by rw [pow_succ]; omega),
    show (f.emax - f.fb - f.qmin).toNat = n by omega, hn, show n + 3 - 1 = n + 2 from rfl, Nat.add_mul, pow_succ]
  omega

/-- A magnitude of at least 2^(emax+1) lies beyond all that a format holds. -/
theorem Fmt.beyond {Q : ℝ} (h : 2 ^ (f.emax + 1) ≤ Q) : f.top < Q ∧ f.edge ≤ Q :=
  ⟨f.top_lt_edge.trans (f.edge_lt.trans_le h), (f.edge_lt.trans_le h).le⟩

/-- A magnitude beyond the largest number is delivered as that number where it goes down, else as an infinity. -/
theorem delivers_overflow (hf : f.Proper) {mode : RMode} {neg : Bool} {Q : ℝ} {b : Bool} (hQ : 0 < Q) (hb : b = true ↔ mode.dir neg = .down)
    (hdown : b = true → f.top < Q) (hleave : b = false → (mode.dir neg).Leaves f Q) :
    Delivers f mode (signedReal neg Q) (f.signed neg (if b then f.maxBits else f.infBits), .overflow) := by
  cases b with
  | false =>
    have hlt := f.infBits_lt
    refine ⟨((hleave rfl).goes hf hQ).roundOf hQ (Fmt.signed_lt neg hlt) (Fmt.signBit_le_signed hlt), rfl, rfl, iff_of_true rfl ?_⟩
    intro v hv
    simp [finValue_inf] at hv
  | true =>
    have hc := f.canon_max hf
    have hlt := pack_lt hc hf
    have htop : ((2 ^ (f.fb + 1) - 1 : Nat) : ℝ) * 2 ^ (f.emax - f.fb) = f.top := by
      rw [f.top_eq, Nat.cast_sub Nat.one_le_two_pow]
      push_cast
      rfl
    obtain ⟨v, hv, hw⟩ := finValue_of_fin (decodeF_pack neg hc hf)
    rw [htop] at hw
    have hbest : MagDir.down.Best f Q f.top (f.signed neg (f.pack (2 ^ (f.fb + 1) - 1) (f.emax - f.fb)) % 2 = 0) :=
      ⟨(hdown rfl).le, fun u hu _ => (le_abs_self u).trans hu.1⟩
    rw [← hb.1 rfl] at hbest
    rw [if_pos rfl, Fmt.maxBits_eq hf]
    refine ⟨(hbest.goes hf hQ (Fmt.signed_lt neg hlt) (Fmt.signBit_le_signed hlt) hv hw).roundOf hQ (Fmt.signed_lt neg hlt)
      (Fmt.signBit_le_signed hlt), rfl, rfl, iff_of_true rfl fun u hu => ?_⟩
    obtain rfl := Option.some.inj (hv.symm.trans hu)
    rw [hw]
    have := (hdown rfl).ne
    cases neg <;> simpa [signedReal] using this

/-! ### round (R36) -/

theorem MagDir.Rounds.ge_of_ge {d : MagDir} {t : ℝ} {k n : Nat} (h : d.Rounds t k) (hn : (n : ℝ) ≤ t) : n ≤ k := by
  have hlt : (n : ℝ) < k + 1 := by
    cases d with
    | down => exact hn.trans_lt h.2
    | up => exact hn.trans_lt (h.2.trans_lt (lt_add_one _))
    | near => linarith [(abs_le.1 h.1).1]
  exact Nat.lt_succ_iff.1 (by exact_mod_cast hlt)

theorem MagDir.Rounds.le_of_le {d : MagDir} {t : ℝ} {k n : Nat} (h : d.Rounds t k) (hn : t ≤ n) : k ≤ n := by
  have hlt : (k : ℝ) < n + 1 := by
    cases d with
    | down => exact h.1.trans_lt (hn.trans_lt (lt_add_one _))
    | up => linarith [h.1]
    | near => linarith [(abs_le.1 h.1).2]
  exact Nat.lt_succ_iff.1 (by exact_mod_cast hlt)

/-- What rounds to an even number of steps rounds to half as many steps of twice the size. -/
theorem MagDir.Rounds.half {d : MagDir} {t : ℝ} {k : Nat} (h : d.Rounds t (2 * k)) : d.Rounds (t / 2) k := by
  cases d with
  | down =>
    obtain ⟨h1, h2⟩ := h
    push_cast at h1 h2
    exact ⟨by linarith, by linarith⟩
  | up =>
    obtain ⟨h1, h2⟩ := h
    push_cast at h1 h2
    exact ⟨by linarith, by linarith⟩
  | near =>
    have h1 : |2 * (k - t / 2)| ≤ 1 / 2 := by
      have := h.1
      push_cast at this
      rwa [mul_sub, mul_div_cancel₀ t two_ne_zero]
    rw [abs_mul, abs_two] at h1
    exact ⟨by linarith, fun he => by linarith⟩

theorem ne_natCast_of_small {t : ℝ} (h0 : 0 < t) (h : t < 1 / 2) (k : Nat) : t ≠ k := by
  rintro rfl
  have h1 : (k : ℝ) < 1 := h.trans (by norm_num)
  norm_cast at h0 h1
  omega

/-- All that lies strictly between 0 and 1/2 is rounded alike. -/
theorem MagDir.Rounds.of_small {d : MagDir} {t t' : ℝ} {k : Nat} (h : d.Rounds t k) (h0 : 0 < t) (h1 : t < 1 / 2) (h0' : 0 < t')
    (h1' : t' < 1 / 2) : d.Rounds t' k := by
  have hk1 : k ≤ 1 := h.le_of_le (by push_cast; linarith)
  cases d with
  | down =>
    have : (k : ℝ) < 1 := by linarith [h.1]
    obtain rfl : k = 0 := by
      norm_cast at this
      omega
    exact ⟨by simpa using h0'.le, by simpa using h1'.trans (by norm_num)⟩
  | up =>
    have : (0 : ℝ) < k := h0.trans_le h.2
    obtain rfl : k = 1 := by
      norm_cast at this
      omega
    exact ⟨by simpa using h0', by push_cast; linarith⟩
  | near =>
    have : (k : ℝ) < 1 := by linarith [(abs_le.1 h.1).2]
    obtain rfl : k = 0 := by
      norm_cast at this
      omega
    simp only [MagDir.Rounds, Nat.cast_zero, zero_sub, abs_neg, abs_of_pos h0']
    exact ⟨h1'.le, by simp⟩

/-- The steps of a magnitude's own binade: it is 2^fb of them or more, and less than twice as many. -/
theorem Magnitude.binade {m : Nat} {e : Int} {sticky : Bool} {Q : ℝ} (h : Magnitude m e sticky Q) (hm : 0 < m) (n : Nat) :
    2 ^ n ≤ Q / 2 ^ (e + bitLen m - (n + 1 : Nat)) ∧ Q / 2 ^ (e + bitLen m - (n + 1 : Nat)) < 2 ^ (n + 1) := by
  have hl : 0 < bitLen m := by
    rw [bitLen, if_neg hm.ne']
    omega
  obtain ⟨l, hl⟩ := Nat.exists_eq_succ_of_ne_zero hl.ne'
  have hlo : 2 ^ l ≤ m := by simpa [hl] using two_pow_le_of_pos hm
  have hhi : m + 1 ≤ 2 ^ (l + 1) := by simpa [hl] using lt_two_pow_bitLen m
  have hT : (m : ℝ) ≤ Q / 2 ^ e ∧ Q / 2 ^ e < m + 1 := by
    cases sticky
    · have : Q / 2 ^ e = m := h
      rw [this]
      exact ⟨le_rfl, lt_add_one _⟩
    · exact ⟨h.1.le, h.2⟩
  have hq : Q / 2 ^ (e + bitLen m - (n + 1 : Nat)) = Q / 2 ^ e / 2 ^ l * 2 ^ n := by
    rw [hl, show e + (l.succ : Nat) - (n + 1 : Nat) = e + l - n by push_cast; ring, zpow_sub₀ two_ne_zero, zpow_add₀ two_ne_zero,
      zpow_natCast, zpow_natCast]
    field_simp
  have hlo' : (2 : ℝ) ^ l ≤ Q / 2 ^ e := le_trans (by exact_mod_cast hlo) hT.1
  have hhi' : Q / 2 ^ e < 2 ^ l * 2 := lt_of_lt_of_le hT.2 (by rw [← pow_succ]; exact_mod_cast hhi)
  rw [hq, pow_succ' 2 n]
  refine ⟨le_mul_of_one_le_left (by positivity) ((one_le_div₀ (by positivity)).2 hlo'), mul_lt_mul_of_pos_right ?_ (by positivity)⟩
  rwa [div_lt_iff₀ (by positivity), mul_comm]

/-- Whether an overflow in a mode goes to the largest number. -/
def RMode.toMax (mode : RMode) (neg : Bool) : Bool :=
  match mode with
  | .rne => false
  | .rz => true
  | .rd => !neg
  | .ru => neg

theorem RMode.toMax_iff {mode : RMode} {neg : Bool} : mode.toMax neg = true ↔ mode.dir neg = .down := by
  cases mode <;> cases neg <;> simp [RMode.toMax, RMode.dir]

/-- roundF by its cases: it rounds to fb + 1 bits, and what that makes too large overflows, what it makes too small is rounded on the
subnormal grid instead. -/
theorem roundF_eq {mode : RMode} {neg : Bool} {m : Nat} {e : Int} {sticky : Bool} {q : Int} {k : Nat} {ix : Bool} (hm : 0 < m)
    (hq : q = e + bitLen m - (f.fb + 1 : Nat)) (hk : roundGrid mode neg m e sticky q = (k, ix)) :
    roundF f mode false neg m e sticky =
      if f.emax < q + bitLen k - 1 then (f.signed neg (if mode.toMax neg then f.maxBits else f.infBits), .overflow)
      else if q + bitLen k - 1 < f.emin then
        (f.signed neg (encodeMag f (roundGrid mode neg m e sticky f.qmin).1 f.qmin),
          if (roundGrid mode neg m e sticky f.qmin).2 then .underflow else .none)
      else (f.signed neg (if bitLen k > f.fb + 1 then encodeMag f (k / 2) (q + 1) else encodeMag f k q), if ix then .inexact else .none) := by
  have h0 : (m = 0 && !sticky) = false := by simp [hm.ne']
  subst hq
  simp only [roundF, h0, hk, Bool.false_eq_true, if_false]
  split
  · cases mode <;> rfl
  · split
    · cases (roundGrid mode neg m e sticky f.qmin).2 <;> simp
    · split <;> rfl

section
variable {d : MagDir} {Q : ℝ} {q : Int} {k : Nat}

theorem le_of_steps {n : Nat} (h : 2 ^ n ≤ Q / 2 ^ q) : (2 : ℝ) ^ (q + n) ≤ Q := by
  rwa [le_div_iff₀ (by positivity), ← zpow_natCast, ← zpow_add₀ two_ne_zero, add_comm] at h

theorem lt_of_steps {n : Nat} (h : Q / 2 ^ q < 2 ^ n) : Q < (2 : ℝ) ^ (q + n) := by
  rwa [div_lt_iff₀ (by positivity), ← zpow_natCast, ← zpow_add₀ two_ne_zero, add_comm] at h

/-- Rounded to fb + 1 bits a magnitude keeps them, or is carried to the next power of two. -/
theorem MagDir.Rounds.bits (hk : d.Rounds (Q / 2 ^ q) k) (hlo : 2 ^ f.fb ≤ Q / 2 ^ q) (hhi : Q / 2 ^ q < 2 ^ (f.fb + 1)) :
    2 ^ f.fb ≤ k ∧ k < 2 ^ (f.fb + 1) ∧ bitLen k = f.fb + 1 ∨ k = 2 * 2 ^ f.fb ∧ bitLen k = f.fb + 2 := by
  have h1 : 2 ^ f.fb ≤ k := hk.ge_of_ge (by exact_mod_cast hlo)
  have h2 : k ≤ 2 ^ (f.fb + 1) := hk.le_of_le (by exact_mod_cast hhi.le)
  rcases h2.lt_or_eq with hlt | rfl
  · exact .inl ⟨h1, hlt, bitLen_eq h1 hlt⟩
  · exact .inr ⟨pow_succ' _ _, bitLen_eq le_rfl (Nat.pow_lt_pow_right one_lt_two (Nat.lt_succ_self _))⟩

/-- What overflows after rounding to fb + 1 bits lies above the largest number, and leaves the format unless it goes down. -/
theorem MagDir.Rounds.overflow (hk : d.Rounds (Q / 2 ^ q) k) (hlo : 2 ^ f.fb ≤ Q / 2 ^ q) (hhi : Q / 2 ^ q < 2 ^ (f.fb + 1))
    (htop : f.emax < q + bitLen k - 1) : f.top < Q ∧ (d ≠ .down → d.Leaves f Q) := by
  by_cases hq : f.emax < q + f.fb
  · obtain ⟨h1, h2⟩ := Fmt.beyond (f := f) ((zpow_le_zpow_right₀ one_le_two (by omega)).trans (le_of_steps hlo))
    refine ⟨h1, fun hd => ?_⟩
    cases d with
    | down => exact absurd rfl hd
    | up => exact h1
    | near => exact h2
  · obtain ⟨-, -, hb⟩ | ⟨rfl, hb⟩ := hk.bits hlo hhi
    · omega
    · obtain rfl : q = f.emax - f.fb := by omega
      have htQ : ∀ x : ℝ, x < Q / 2 ^ (f.emax - f.fb) → x * 2 ^ (f.emax - f.fb) < Q := fun x => (lt_div_iff₀ (by positivity)).1
      have h2 : ((2 * 2 ^ f.fb : Nat) : ℝ) = 2 ^ (f.fb + 1) := by rw [pow_succ']; norm_cast
      cases d with
      | down => exact absurd hhi (not_lt.2 (h2 ▸ hk.1))
      | up =>
        have : f.top < Q := f.top_eq ▸ htQ _ (h2 ▸ hk.1)
        exact ⟨this, fun _ => this⟩
      | near =>
        have : f.edge ≤ Q := by
          rw [f.edge_eq, ← le_div_iff₀ (by positivity)]
          have := (abs_le.1 hk.1).2
          rw [h2] at this
          linarith
        exact ⟨f.top_lt_edge.trans_le this, fun _ => this⟩

/-- What does not overflow when it is rounded to nearest lies below the edge. -/
theorem MagDir.Rounds.lt_edge (hk : d.Rounds (Q / 2 ^ q) k) (hlo : 2 ^ f.fb ≤ Q / 2 ^ q) (hhi : Q / 2 ^ q < 2 ^ (f.fb + 1))
    (htop : q + bitLen k - 1 ≤ f.emax) (hd : d = .near) : Q < f.edge := by
  subst hd
  have hQ := lt_of_steps hhi
  obtain ⟨-, hlt, hb⟩ | ⟨rfl, hb⟩ := hk.bits hlo hhi
  · rcases (show q + f.fb ≤ f.emax by omega).lt_or_eq with hlt' | heq
    · exact Fmt.lt_edge (hQ.trans_le (zpow_le_zpow_right₀ one_le_two (by push_cast; omega)))
    · obtain rfl : q = f.emax - f.fb := by omega
      rw [f.edge_eq, ← div_lt_iff₀ (by positivity)]
      obtain ⟨hhalf, htie⟩ := hk
      have hk1 : (k : ℝ) + 1 ≤ 2 ^ (f.fb + 1) := by exact_mod_cast hlt
      refine lt_of_le_of_ne (by linarith [(abs_le.1 hhalf).1]) fun he => ?_
      have hkk : (k : ℝ) + 1 = 2 ^ (f.fb + 1) := by linarith [(abs_le.1 hhalf).1]
      have heven := htie (by rw [he, ← hkk, abs_sub_comm, abs_of_nonneg (by linarith)]; ring)
      have : k + 1 = 2 * 2 ^ f.fb := by
        rw [← pow_succ']
        exact_mod_cast hkk
      omega
  · exact Fmt.lt_edge (hQ.trans_le (zpow_le_zpow_right₀ one_le_two (by push_cast; omega)))

end

section
variable {mode : RMode} {neg : Bool} {Q : ℝ} {q : Int} {k : Nat} {ix : Bool}

/-- On the subnormal grid a magnitude below 2^emin is delivered. -/
theorem delivers_subnormal (hf : f.Proper) (hQ : 0 < Q) (hlt : Q < 2 ^ f.emin) (hk : (mode.dir neg).Rounds (Q / 2 ^ f.qmin) k)
    (hix : ix = true ↔ Q / 2 ^ f.qmin ≠ k) :
    Delivers f mode (signedReal neg Q) (f.signed neg (encodeMag f k f.qmin), if ix then .underflow else .none) := by
  have hmx := Fmt.emax_eq hf
  have h4 : 2 ^ 2 ≤ 2 ^ f.eb := Nat.pow_le_pow_right (by decide) hf.1
  have hmin : f.emin = f.qmin + f.fb := by simp [Fmt.qmin]
  have hk1 : k ≤ 2 ^ f.fb := by
    refine hk.le_of_le ?_
    rw [div_le_iff₀ (by positivity)]
    push_cast
    rw [← zpow_natCast, ← zpow_add₀ two_ne_zero, add_comm, ← hmin]
    exact hlt.le
  have hc : f.Canon k f.qmin :=
    ⟨hk1.trans_lt (Nat.pow_lt_pow_right one_lt_two (Nat.lt_succ_self _)), le_rfl, by omega, .inr rfl⟩
  refine delivers_grid hf hQ hk le_rfl (.inl rfl) (fun _ => ?_) hc rfl id ?_ ?_ ?_
  · exact Fmt.lt_edge (hlt.trans_le (zpow_le_zpow_right₀ one_le_two (by omega)))
  · cases ix <;> rfl
  · cases ix <;> rfl
  · cases ix <;> simpa [FFlags.underflow, FFlags.none] using hix

/-- A magnitude that fb + 1 bits bring into the range of the exponents is delivered. -/
theorem delivers_normal (hf : f.Proper) (hQ : 0 < Q) (hlo : 2 ^ f.fb ≤ Q / 2 ^ q) (hhi : Q / 2 ^ q < 2 ^ (f.fb + 1))
    (hk : (mode.dir neg).Rounds (Q / 2 ^ q) k) (hix : ix = true ↔ Q / 2 ^ q ≠ k) (hmax : q + bitLen k - 1 ≤ f.emax)
    (hmin : f.emin ≤ q + bitLen k - 1) :
    Delivers f mode (signedReal neg Q)
      (f.signed neg (if bitLen k > f.fb + 1 then encodeMag f (k / 2) (q + 1) else encodeMag f k q), if ix then .inexact else .none) := by
  have hedge := hk.lt_edge hlo hhi hmax
  have hqm : f.emin = f.qmin + f.fb := by simp [Fmt.qmin]
  have hnv : (if ix then FFlags.inexact else .none).nv = false := by cases ix <;> rfl
  have hdz : (if ix then FFlags.inexact else .none).dz = false := by cases ix <;> rfl
  have hnx : (if ix then FFlags.inexact else .none).nx = ix := by cases ix <;> rfl
  obtain ⟨h1, h2, hb⟩ | ⟨rfl, hb⟩ := hk.bits hlo hhi
  · rw [if_neg (by omega)]
    exact delivers_grid hf hQ hk (by omega) (.inr hlo) hedge ⟨h2, by omega, by omega, .inl h1⟩ rfl id hnv hdz (by rwa [hnx])
  · rw [if_pos (by omega), Nat.mul_div_cancel_left _ two_pos]
    have hc : f.Canon (2 ^ f.fb) (q + 1) :=
      ⟨Nat.pow_lt_pow_right one_lt_two (Nat.lt_succ_self _), by omega, by omega, .inl le_rfl⟩
    have heven : 2 ^ f.fb % 2 = 0 := by
      obtain ⟨n, hn⟩ := Nat.exists_eq_add_of_le hf.2.1
      simp [hn, pow_add]
    have hstep : (2 : ℝ) ^ (q + 1) = 2 ^ q * 2 := zpow_add_one₀ two_ne_zero q
    by_cases hq : f.qmin ≤ q
    · exact delivers_grid hf hQ hk hq (.inr hlo) hedge hc (by rw [hstep]; push_cast; ring) (fun _ => heven) hnv hdz (by rwa [hnx])
    · -- carried up to 2^emin from the binade below: the steps there are half those of the subnormal grid
      have hhalf : Q / 2 ^ (q + 1) = Q / 2 ^ q / 2 := by rw [hstep, div_div]
      refine delivers_grid hf hQ (hhalf ▸ hk.half) hc.2.1 (.inl (by omega)) hedge hc rfl (fun _ => heven) hnv hdz ?_
      rw [hnx, hix, hhalf, Ne, Ne, div_eq_iff two_ne_zero]
      push_cast
      rw [mul_comm]

end

/-- roundF delivers what its magnitude stands for. -/
theorem roundF_delivers (hf : f.Proper) {mode : RMode} {neg : Bool} {m : Nat} {e : Int} {sticky : Bool} {Q : ℝ} (hm : 0 < m)
    (hQ : 0 < Q) (h : Magnitude m e sticky Q) (hs : sticky = true → 2 ^ (f.fb + 1) ≤ m) :
    Delivers f mode (signedReal neg Q) (roundF f mode false neg m e sticky) := by
  obtain ⟨q, hq⟩ : ∃ q, q = e + bitLen m - (f.fb + 1 : Nat) := ⟨_, rfl⟩
  obtain ⟨hlo, hhi⟩ := h.binade hm f.fb
  rw [← hq] at hlo hhi
  have hsq : sticky = true → e < q := fun hst => by
    have := (Nat.pow_lt_pow_iff_right one_lt_two).1 ((hs hst).trans_lt (lt_two_pow_bitLen m))
    omega
  obtain ⟨hk, hix⟩ := roundGrid_rounds (mode := mode) (neg := neg) h hsq
  obtain ⟨k, ix, hkix⟩ : ∃ k ix, roundGrid mode neg m e sticky q = (k, ix) := ⟨_, _, rfl⟩
  rw [hkix] at hk hix
  dsimp only at hk hix
  rw [roundF_eq hm hq hkix]
  split
  next htop =>
    obtain ⟨habove, hleave⟩ := hk.overflow hlo hhi htop
    exact delivers_overflow hf hQ RMode.toMax_iff (fun _ => habove) fun hb => hleave fun hd => by simp [RMode.toMax_iff.2 hd] at hb
  next htop =>
    split
    next hsub =>
      have hbits := hk.bits hlo hhi
      have hqm : f.emin = f.qmin + f.fb := by simp [Fmt.qmin]
      obtain ⟨hk', hix'⟩ := roundGrid_rounds (mode := mode) (neg := neg) (q := f.qmin) h fun hst => by have := hsq hst; omega
      exact delivers_subnormal hf hQ ((lt_of_steps hhi).trans_le (zpow_le_zpow_right₀ one_le_two (by push_cast; omega))) hk' hix'
    next hnorm => exact delivers_normal hf hQ hlo hhi hk hix (by omega) (by omega)

/-- What lies beyond 2^(emax+1) is delivered alike, however far beyond. -/
theorem roundF_delivers_huge (hf : f.Proper) {mode : RMode} {neg : Bool} {m : Nat} {e : Int} {Q Q' : ℝ} (hm : 0 < m)
    (h : Magnitude m e false Q) (hQ : 2 ^ (f.emax + 1) ≤ Q) (hQ' : 2 ^ (f.emax + 1) ≤ Q') :
    Delivers f mode (signedReal neg Q') (roundF f mode false neg m e false) := by
  obtain ⟨q, hq⟩ : ∃ q, q = e + bitLen m - (f.fb + 1 : Nat) := ⟨_, rfl⟩
  obtain ⟨hlo, hhi⟩ := h.binade hm f.fb
  rw [← hq] at hlo hhi
  obtain ⟨hk, -⟩ := roundGrid_rounds (mode := mode) (neg := neg) (q := q) h nofun
  have hlt := (zpow_lt_zpow_iff_right₀ one_lt_two).1 (hQ.trans_lt (lt_of_steps hhi))
  have hbits := hk.bits hlo hhi
  rw [roundF_eq hm hq Prod.mk.eta.symm, if_pos (by push_cast at hlt; omega)]
  obtain ⟨htop, hedge⟩ := Fmt.beyond hQ'
  have hpos : 0 < Q' := lt_of_lt_of_le (by positivity) hQ'
  refine delivers_overflow hf hpos RMode.toMax_iff (fun _ => htop) fun hb => ?_
  rw [← Bool.not_eq_true, RMode.toMax_iff] at hb
  generalize mode.dir neg = d at hb
  cases d with
  | down => exact absurd rfl hb
  | up => exact htop
  | near => exact hedge

/-- What lies below half the least number is delivered alike, however far below. -/
theorem roundF_delivers_tiny (hf : f.Proper) {mode : RMode} {neg : Bool} {m : Nat} {e : Int} {Q Q' : ℝ} (hm : 0 < m) (hQ0 : 0 < Q')
    (h : Magnitude m e false Q) (hQ : Q < 2 ^ (f.qmin - 1)) (hQ' : Q' < 2 ^ (f.qmin - 1)) :
    Delivers f mode (signedReal neg Q') (roundF f mode false neg m e false) := by
  have hmx := Fmt.emax_eq hf
  have h4 : 2 ^ 2 ≤ 2 ^ f.eb := Nat.pow_le_pow_right (by decide) hf.1
  have hqm : f.emin = f.qmin + f.fb := by simp [Fmt.qmin]
  obtain ⟨q, hq⟩ : ∃ q, q = e + bitLen m - (f.fb + 1 : Nat) := ⟨_, rfl⟩
  obtain ⟨hlo, hhi⟩ := h.binade hm f.fb
  rw [← hq] at hlo hhi
  obtain ⟨hk, -⟩ := roundGrid_rounds (mode := mode) (neg := neg) (q := q) h nofun
  have hlt := (zpow_lt_zpow_iff_right₀ one_lt_two).1 ((le_of_steps hlo).trans_lt hQ)
  have hbits := hk.bits hlo hhi
  rw [roundF_eq hm hq Prod.mk.eta.symm, if_neg (by omega), if_pos (by omega)]
  obtain ⟨hk', hix'⟩ := roundGrid_rounds (mode := mode) (neg := neg) (q := f.qmin) h nofun
  have hpos : 0 < Q := lt_of_lt_of_le (by positivity) (le_of_steps hlo)
  have hsmall : ∀ y : ℝ, y < 2 ^ (f.qmin - 1) → y / 2 ^ f.qmin < 1 / 2 := fun y hy => by
    rw [div_lt_iff₀ (by positivity)]
    rw [zpow_sub_one₀ two_ne_zero] at hy
    linarith
  have ht0 : 0 < Q / 2 ^ f.qmin := by positivity
  have ht0' : 0 < Q' / 2 ^ f.qmin := by positivity
  refine delivers_subnormal hf hQ0 (hQ'.trans_le (zpow_le_zpow_right₀ one_le_two (by omega)))
    (hk'.of_small ht0 (hsmall _ hQ) ht0' (hsmall _ hQ')) (hix'.trans (iff_of_true ?_ ?_))
  · exact ne_natCast_of_small ht0 (hsmall _ hQ) _
  · exact ne_natCast_of_small ht0' (hsmall _ hQ') _

end Sys2Proof.Machine
end

section
/-! The operations on finite operands (R121-R123, R131): each result is its exact value rounded once. -/

namespace Sys2Proof.Machine

variable {f : Fmt} {p : Profile} {mode : RMode}

/-! ### Exact values of the operands -/

/-- The number that a finite value stands for. -/
def FVal.exact : FVal → Rat
  | .fin s m e => (if s then -1 else 1) * m * 2 ^ e
  | _ => 0

def FVal.isFin : FVal → Bool
  | .fin _ _ _ => true
  | _ => false

theorem FVal.exists_of_isFin {x : FVal} (h : x.isFin = true) : ∃ s m e, x = .fin s m e := by
  cases x with
  | fin s m e => exact ⟨s, m, e, rfl⟩
  | nan s fb fr => cases h
  | inf s => cases h

@[simp] theorem FVal.isFin_negate (x : FVal) : x.negate.isFin = x.isFin := by cases x <;> rfl

@[simp] theorem FVal.exact_negate (x : FVal) : x.negate.exact = -x.exact := by
  cases x with
  | fin s m e => cases s <;> simp [FVal.negate, FVal.exact]
  | nan s fb fr => simp [FVal.negate, FVal.exact]
  | inf s => simp [FVal.negate, FVal.exact]

theorem finValue_iff {v : Nat} {x : Rat} : finValue f v = some x ↔ (decodeF f v).isFin = true ∧ (decodeF f v).exact = x := by
  rw [finValue]
  cases decodeF f v <;> simp [FVal.isFin, FVal.exact]

/-- The cast of a finite value is its magnitude with its sign. -/
theorem FVal.cast_exact_fin (s : Bool) (m : Nat) (e : Int) : ((FVal.fin s m e).exact : ℝ) = signedReal s (m * 2 ^ e) := by
  cases s <;> simp [FVal.exact, signedReal]

theorem isSignalling_signed {neg : Bool} {ex fr : Nat} (hex : ex < 2 ^ f.eb) (hfr : fr < 2 ^ f.fb) :
    isSignalling f (f.signed neg (ex * 2 ^ f.fb + fr)) = (ex == 2 ^ f.eb - 1 && fr != 0 && decide (fr < 2 ^ (f.fb - 1))) := by
  simp only [isSignalling, signed_exponent hex hfr, signed_fraction hfr]

/-- Only a NaN signals (R32). -/
theorem isSignalling_eq_false {v : Nat} (hv : v < 2 ^ f.bits) (h : (decodeF f v).isNaN = false) : isSignalling f v = false := by
  obtain ⟨neg, ex, fr, hex, hfr, rfl⟩ := exists_fields hv
  rw [isSignalling_signed hex hfr]
  by_cases he : ex = 2 ^ f.eb - 1
  · by_cases h0 : fr = 0
    · simp [h0]
    · rw [decodeF_signed hex hfr, if_pos he, if_neg h0] at h
      cases h
  · simp [he]

/-- A source that is no NaN is read as it stands where denormals are preserved, and raises no flag. -/
theorem readF_of_not_nan (hp : p.flush = false) {v : Nat} (hv : v < 2 ^ f.bits) (h : (decodeF f v).isNaN = false) :
    readF p f v = (decodeF f v, .none) := by
  simp [readF, hp, isSignalling_eq_false hv h]

theorem readF_of_finValue (hp : p.flush = false) {v : Nat} {x : Rat} (hv : v < 2 ^ f.bits) (h : finValue f v = some x) :
    readF p f v = (decodeF f v, .none) := by
  obtain ⟨s, m, e, hd, -⟩ := exists_fin_of_finValue h
  exact readF_of_not_nan hp hv (by rw [hd]; rfl)

/-! ### Exact sums -/

theorem FFlags.or_none (a : FFlags) : a.or .none = a := by
  cases a; simp [FFlags.or, FFlags.none]

/-- The least exponent of the nonzero terms so far. -/
def leastExp (acc : Int) : FVal → Int
  | .fin _ m e => if m = 0 then acc else min acc e
  | _ => acc

/-- The sum of the terms so far in units of 2^e. -/
def addTerm (e acc : Int) : FVal → Int
  | .fin s m ex => if m = 0 then acc else
      if s then acc - (m * 2 ^ (ex - e).toNat : Nat) else acc + (m * 2 ^ (ex - e).toNat : Nat)
  | _ => acc

theorem exactSum_eq (l : List FVal) : exactSum l = (l.foldl (addTerm (l.foldl leastExp 10000)) 0, l.foldl leastExp 10000) := rfl

/-- Every term is a whole number of units of 2^e. -/
def Units (e : Int) (x : FVal) : Prop := ∀ s m ex, x = .fin s m ex → m = 0 ∨ e ≤ ex

theorem foldl_leastExp_le (l : List FVal) (a : Int) : l.foldl leastExp a ≤ a ∧ ∀ x ∈ l, Units (l.foldl leastExp a) x := by
  induction l generalizing a with
  | nil => simp
  | cons y l ih =>
    obtain ⟨hle, hall⟩ := ih (leastExp a y)
    have hstep : leastExp a y ≤ a ∧ Units (leastExp a y) y := by
      cases y with
      | fin s m ex =>
        simp only [leastExp]
        split
        · exact ⟨le_rfl, fun _ _ _ h => .inl (by cases h; assumption)⟩
        · exact ⟨min_le_left _ _, fun _ _ _ h => .inr (by cases h; exact min_le_right _ _)⟩
      | nan s fb fr => exact ⟨le_rfl, fun _ _ _ h => nomatch h⟩
      | inf s => exact ⟨le_rfl, fun _ _ _ h => nomatch h⟩
    refine ⟨hle.trans hstep.1, fun x hx => ?_⟩
    rcases List.mem_cons.1 hx with rfl | hx
    · exact fun s m ex h => (hstep.2 s m ex h).imp_right hle.trans
    · exact hall x hx

theorem addTerm_exact {e : Int} {x : FVal} (h : Units e x) (acc : Int) : (addTerm e acc x : Rat) * 2 ^ e = acc * 2 ^ e + x.exact := by
  cases x with
  | fin s m ex =>
    simp only [addTerm, FVal.exact]
    split
    next h0 => simp [h0]
    next h0 =>
      have hex : e ≤ ex := (h s m ex rfl).resolve_left h0
      have hpow : (2 : Rat) ^ ex = 2 ^ (ex - e).toNat * 2 ^ e := by
        rw [← zpow_natCast, ← zpow_add₀ two_ne_zero]
        congr 1
        omega
      rw [hpow]
      split <;> · push_cast; ring
  | nan s fb fr => simp [addTerm, FVal.exact]
  | inf s => simp [addTerm, FVal.exact]

theorem foldl_addTerm_exact {e : Int} {l : List FVal} (h : ∀ x ∈ l, Units e x) (acc : Int) :
    ((l.foldl (addTerm e) acc : Int) : Rat) * 2 ^ e = acc * 2 ^ e + (l.map FVal.exact).sum := by
  induction l generalizing acc with
  | nil => simp
  | cons y l ih =>
    rw [List.foldl_cons, ih (fun x hx => h x (List.mem_cons_of_mem _ hx)), addTerm_exact (h y List.mem_cons_self), List.map_cons,
      List.sum_cons, add_assoc]

/-- A list of finite values sums exactly. -/
theorem exactSum_exact (l : List FVal) : ((exactSum l).1 : Rat) * 2 ^ (exactSum l).2 = (l.map FVal.exact).sum := by
  rw [exactSum_eq, foldl_addTerm_exact (foldl_leastExp_le l _).2, Int.cast_zero, zero_mul, zero_add]

/-! ### Results rounded once -/

theorem magnitude_exact (m : Nat) (e : Int) : Magnitude m e false (m * 2 ^ e) := by
  have h : (m : ℝ) * 2 ^ e / 2 ^ e = m := mul_div_cancel_right₀ _ (by positivity)
  exact h

/-- round of an exact nonzero value (R36). -/
theorem roundF_exact (hf : f.Proper) {s : Bool} {m : Nat} {e : Int} (hm : m ≠ 0) :
    Delivers f mode ((FVal.fin s m e).exact : Rat) (roundF f mode false s m e false) := by
  rw [FVal.cast_exact_fin]
  exact roundF_delivers hf (Nat.pos_of_ne_zero hm) (by positivity) (magnitude_exact m e) nofun

/-- Sources that raise no flag add none to what is delivered. -/
theorem Delivers.or_none {q : ℝ} {r : Nat × FFlags} (h : Delivers f mode q r) : Delivers f mode q (r.1, FFlags.none.or r.2) := h

theorem isNaN_of_isFin {x : FVal} (h : x.isFin = true) : x.isNaN = false := by
  obtain ⟨s, m, e, rfl⟩ := FVal.exists_of_isFin h
  rfl

theorem isInf_of_isFin {x : FVal} (h : x.isFin = true) : x.isInf = false := by
  obtain ⟨s, m, e, rfl⟩ := FVal.exists_of_isFin h
  rfl

/-- The sum of finite terms: its exact value rounded once, or a signed zero. -/
theorem sumF_fin {srcs ts : List FVal} {fl : FFlags} (hsrcs : ∀ x ∈ srcs, x.isNaN = false) (hts : ∀ x ∈ ts, x.isFin = true) :
    sumF p f mode srcs fl (ts.map some) =
      if (exactSum ts).1 = 0 then (f.signed (zeroSumNeg mode ts) 0, fl)
      else
        let r := roundF f mode p.flush (decide ((exactSum ts).1 < 0)) (exactSum ts).1.natAbs (exactSum ts).2 false
        (r.1, fl.or r.2) := by
  have hvalid : invalidSum (ts.map some) = false := by
    simp only [invalidSum, List.any_map, Bool.or_eq_false_iff, List.any_eq_false, Function.comp_apply, Bool.and_eq_false_iff]
    refine ⟨by simp, .inl fun x hx => ?_⟩
    obtain ⟨s, m, e, rfl⟩ := FVal.exists_of_isFin (hts x hx)
    simp
  have hnan : srcs.any FVal.isNaN = false := List.any_eq_false.2 fun x hx => by simp [hsrcs x hx]
  have hinf : ts.filter FVal.isInf = [] := List.filter_eq_nil_iff.2 fun x hx => by simp [isInf_of_isFin (hts x hx)]
  simp only [sumF, hvalid, hnan, List.filterMap_map, Function.id_comp, List.filterMap_some, hinf, Bool.false_eq_true, if_false]

/-- A nonzero sum of finite terms is delivered. -/
theorem sumF_delivers (hf : f.Proper) (hp : p.flush = false) {srcs ts : List FVal} (hsrcs : ∀ x ∈ srcs, x.isNaN = false)
    (hts : ∀ x ∈ ts, x.isFin = true) {q : Rat} (hq : (ts.map FVal.exact).sum = q) (h0 : (q : ℝ) ≠ 0) :
    Delivers f mode q (sumF p f mode srcs .none (ts.map some)) := by
  have hsum := (exactSum_exact ts).trans hq
  have hv : (exactSum ts).1 ≠ 0 := by
    rintro hv
    rw [hv, Int.cast_zero, zero_mul] at hsum
    simp [← hsum] at h0
  have hval : (FVal.fin (decide ((exactSum ts).1 < 0)) (exactSum ts).1.natAbs (exactSum ts).2).exact = q := by
    rw [← hsum, FVal.exact]
    simp only [decide_eq_true_eq]
    congr 1
    split
    next h => rw [Nat.cast_natAbs, abs_of_neg h]; push_cast; ring
    next h => rw [Nat.cast_natAbs, abs_of_nonneg (not_lt.1 h), one_mul]
  rw [sumF_fin hsrcs hts, if_neg hv, hp, ← hval]
  exact (roundF_exact hf (Int.natAbs_ne_zero.2 hv)).or_none

/-- The product of finite values is exact. -/
theorem mulF_fin {x y : FVal} (hx : x.isFin = true) (hy : y.isFin = true) :
    ∃ z, mulF x y = some z ∧ z.isFin = true ∧ z.exact = x.exact * y.exact := by
  obtain ⟨s, m, e, rfl⟩ := FVal.exists_of_isFin hx
  obtain ⟨s', m', e', rfl⟩ := FVal.exists_of_isFin hy
  refine ⟨_, rfl, rfl, ?_⟩
  simp only [FVal.exact, zpow_add₀ (two_ne_zero (α := Rat))]
  cases s <;> cases s' <;> simp <;> ring

section
variable {a b c : Nat} {x y z : Rat} (hf : f.Proper) (hp : p.flush = false) (ha : a < 2 ^ f.bits) (hb : b < 2 ^ f.bits)
  (hx : finValue f a = some x) (hy : finValue f b = some y)

include hf hp ha hx

include hb hy in
theorem faddE_delivers (h0 : ((x + y : Rat) : ℝ) ≠ 0) : Delivers f mode (x + y : Rat) (faddE p f mode a b) := by
  obtain ⟨hxf, rfl⟩ := finValue_iff.1 hx
  obtain ⟨hyf, rfl⟩ := finValue_iff.1 hy
  rw [faddE, readF_of_finValue hp ha hx, readF_of_finValue hp hb hy]
  exact sumF_delivers (ts := [decodeF f a, decodeF f b]) hf hp (by simp [isNaN_of_isFin, hxf, hyf]) (by simp [hxf, hyf]) (by simp) h0

include hb hy in
theorem fsubE_delivers (h0 : ((x - y : Rat) : ℝ) ≠ 0) : Delivers f mode (x - y : Rat) (fsubE p f mode a b) := by
  obtain ⟨hxf, rfl⟩ := finValue_iff.1 hx
  obtain ⟨hyf, rfl⟩ := finValue_iff.1 hy
  rw [fsubE, readF_of_finValue hp ha hx, readF_of_finValue hp hb hy]
  exact sumF_delivers (ts := [decodeF f a, (decodeF f b).negate]) hf hp (by simp [isNaN_of_isFin, hxf, hyf]) (by simp [hxf, hyf])
    (by simp [sub_eq_add_neg]) h0

include hb hy in
theorem ffmaE_delivers (hc : c < 2 ^ f.bits) (hz : finValue f c = some z) (h0 : ((x * y + z : Rat) : ℝ) ≠ 0) :
    Delivers f mode (x * y + z : Rat) (ffmaE p f mode a b c) := by
  obtain ⟨hxf, rfl⟩ := finValue_iff.1 hx
  obtain ⟨hyf, rfl⟩ := finValue_iff.1 hy
  obtain ⟨hzf, rfl⟩ := finValue_iff.1 hz
  obtain ⟨w, hw, hwf, hwr⟩ := mulF_fin hxf hyf
  rw [ffmaE, readF_of_finValue hp ha hx, readF_of_finValue hp hb hy, readF_of_finValue hp hc hz]
  dsimp only
  rw [hw]
  exact sumF_delivers (ts := [w, decodeF f c]) hf hp (by simp [isNaN_of_isFin, hxf, hyf, hzf]) (by simp [hwf, hzf]) (by simp [hwr]) h0

include hb hy in
theorem fmulE_delivers (h0 : ((x * y : Rat) : ℝ) ≠ 0) : Delivers f mode (x * y : Rat) (fmulE p f mode a b) := by
  obtain ⟨hxf, rfl⟩ := finValue_iff.1 hx
  obtain ⟨hyf, rfl⟩ := finValue_iff.1 hy
  obtain ⟨w, hw, hwf, hwr⟩ := mulF_fin hxf hyf
  obtain ⟨s, m, e, rfl⟩ := FVal.exists_of_isFin hwf
  rw [← hwr] at h0 ⊢
  have hm : m ≠ 0 := by
    rintro rfl
    simp [FVal.exact] at h0
  simp only [fmulE, readF_of_finValue hp ha hx, readF_of_finValue hp hb hy, isNaN_of_isFin, hxf, hyf, hw, hp, Bool.or_self,
    Bool.false_eq_true, if_false]
  exact (roundF_exact hf hm).or_none

end

/-! ### Scaled values (R123) -/

/-- A nonzero number of a format lies between its least step and 2^(emax+1). -/
theorem Fmt.Canon.bounds {m : Nat} {e : Int} (h : f.Canon m e) (hm : m ≠ 0) :
    (2 : ℝ) ^ f.qmin ≤ m * 2 ^ e ∧ (m : ℝ) * 2 ^ e < 2 ^ (f.emax + 1) := by
  refine ⟨?_, h.le_top.trans_lt (f.top_lt_edge.trans f.edge_lt)⟩
  have h1 : (1 : ℝ) ≤ m := by exact_mod_cast Nat.one_le_iff_ne_zero.2 hm
  exact (zpow_le_zpow_right₀ one_le_two h.2.1).trans (le_mul_of_one_le_left (by positivity) h1)

theorem clampInt_cases (k : Int) : clampInt (-1000) 1000 k = k ∨ clampInt (-1000) 1000 k = 1000 ∧ 1000 < k ∨
    clampInt (-1000) 1000 k = -1000 ∧ k < -1000 := by
  unfold clampInt
  split <;> [skip; split] <;> omega

/-- A value scaled by 2^k is delivered; scaled by more than 1000 either way it is as if by 1000. -/
theorem roundF_scaled (hf : f.Proper) {s : Bool} {m : Nat} {e : Int} (hc : f.Canon m e) (hm : m ≠ 0) (k : Int) :
    Delivers f mode ((FVal.fin s m (e + k)).exact : Rat) (roundF f mode false s m (e + clampInt (-1000) 1000 k) false) := by
  obtain ⟨hlo, hhi⟩ := hc.bounds hm
  have hm0 := Nat.pos_of_ne_zero hm
  have hscale : ∀ j : Int, (m : ℝ) * 2 ^ (e + j) = m * 2 ^ e * 2 ^ j := fun j => by rw [zpow_add₀ two_ne_zero, mul_assoc]
  have hmx := Fmt.emax_eq hf
  have h8 : 2 ^ f.eb ≤ 2 ^ 8 := Nat.pow_le_pow_right (by decide) hf.2.2.2
  have hfb := hf.2.2.1
  rw [FVal.cast_exact_fin]
  obtain h | ⟨h, hk⟩ | ⟨h, hk⟩ := clampInt_cases k
  · rw [h]
    exact roundF_delivers hf hm0 (by positivity) (magnitude_exact m _) nofun
  · have hhuge : ∀ j : Int, 1000 ≤ j → (2 : ℝ) ^ (f.emax + 1) ≤ m * 2 ^ (e + j) := fun j hj => by
      calc (2 : ℝ) ^ (f.emax + 1) ≤ 2 ^ (f.qmin + j) := zpow_le_zpow_right₀ one_le_two (by omega)
        _ = 2 ^ f.qmin * 2 ^ j := zpow_add₀ two_ne_zero _ _
        _ ≤ m * 2 ^ e * 2 ^ j := by gcongr
        _ = m * 2 ^ (e + j) := (hscale j).symm
    rw [h]
    exact roundF_delivers_huge hf hm0 (magnitude_exact m _) (hhuge _ le_rfl) (hhuge _ hk.le)
  · have htiny : ∀ j : Int, j ≤ -1000 → (m : ℝ) * 2 ^ (e + j) < 2 ^ (f.qmin - 1) := fun j hj => by
      calc (m : ℝ) * 2 ^ (e + j) = m * 2 ^ e * 2 ^ j := hscale j
        _ < 2 ^ (f.emax + 1) * 2 ^ j := by gcongr
        _ = 2 ^ (f.emax + 1 + j) := (zpow_add₀ two_ne_zero _ _).symm
        _ ≤ 2 ^ (f.qmin - 1) := zpow_le_zpow_right₀ one_le_two (by omega)
    rw [h]
    exact roundF_delivers_tiny hf hm0 (by positivity) (magnitude_exact m _) (htiny _ le_rfl) (htiny _ hk.le)

/-! ### Quotients and roots (R131) -/

theorem standsFor_div (a : Nat) {n : Nat} (hn : 0 < n) : StandsFor (a / n) (a % n != 0) ((a : ℝ) / n) := by
  have hn' : (0 : ℝ) < n := by exact_mod_cast hn
  have ha : (a : ℝ) = (a / n : Nat) * n + (a % n : Nat) := by exact_mod_cast (Nat.div_add_mod' a n).symm
  have hlt : ((a % n : Nat) : ℝ) < n := by exact_mod_cast Nat.mod_lt a hn
  rw [StandsFor]
  split
  next h =>
    have hpos : (0 : ℝ) < (a % n : Nat) := by
      exact_mod_cast Nat.pos_of_ne_zero (by simpa using h)
    rw [lt_div_iff₀ hn', div_lt_iff₀ hn', add_mul, one_mul]
    exact ⟨by linarith, by linarith⟩
  next h =>
    have h0 : a % n = 0 := by simpa using h
    rw [div_eq_iff hn'.ne', ha, h0, Nat.cast_zero, add_zero]

/-- The quotient's magnitude, to at least 70 bits and a sticky bit. -/
theorem quotF_magnitude {m n : Nat} (e e' : Int) (hm : 0 < m) (hn : 0 < n) :
    Magnitude (quotF m e n e').1 (quotF m e n e').2.1 (quotF m e n e').2.2 (m * 2 ^ e / (n * 2 ^ e')) ∧ 2 ^ 70 ≤ (quotF m e n e').1 := by
  constructor
  · have h := standsFor_div (m * 2 ^ (70 + bitLen n)) hn
    have hn' : (n : ℝ) ≠ 0 := by exact_mod_cast hn.ne'
    simp only [Magnitude, quotF]
    convert h using 1
    rw [zpow_sub₀ two_ne_zero, zpow_sub₀ two_ne_zero, zpow_natCast]
    push_cast
    field_simp
  · rw [quotF, Nat.le_div_iff_mul_le hn, pow_add]
    calc 2 ^ 70 * n ≤ 2 ^ 70 * 2 ^ bitLen n := Nat.mul_le_mul_left _ (lt_two_pow_bitLen n).le
      _ ≤ m * (2 ^ 70 * 2 ^ bitLen n) := Nat.le_mul_of_pos_left _ hm

/-- One bit of the root: the bound that the bits still to come leave. -/
theorem isqrt_step {n : Nat} (j : Nat) : ∀ r, r * r ≤ n → n < (r + 2 ^ j) * (r + 2 ^ j) →
    let R := (List.range j).foldr (fun k r => let t := r + 2 ^ k; if t * t ≤ n then t else r) r
    R * R ≤ n ∧ n < (R + 1) * (R + 1) := by
  induction j with
  | zero => exact fun r h1 h2 => ⟨h1, h2⟩
  | succ j ih =>
    intro r h1 h2
    rw [List.range_succ, List.foldr_append, List.foldr_cons, List.foldr_nil]
    dsimp only
    split
    next h => exact ih _ h (by rwa [add_assoc, ← two_mul, ← pow_succ'])
    next h => exact ih _ h1 (not_le.1 h)

/-- isqrt is the integer square root. -/
theorem isqrt_bounds (n : Nat) : isqrt n * isqrt n ≤ n ∧ n < (isqrt n + 1) * (isqrt n + 1) := by
  refine isqrt_step (bitLen n / 2 + 1) 0 (Nat.zero_le n) ?_
  rw [zero_add, ← pow_add]
  exact (lt_two_pow_bitLen n).trans_le (Nat.pow_le_pow_right two_pos (by omega))

theorem standsFor_isqrt (n : Nat) : StandsFor (isqrt n) (isqrt n * isqrt n != n) (Real.sqrt n) := by
  obtain ⟨hlo, hhi⟩ := isqrt_bounds n
  have hr : (0 : ℝ) ≤ isqrt n := Nat.cast_nonneg _
  rw [StandsFor]
  split
  next h =>
    refine ⟨Real.lt_sqrt_of_sq_lt ?_, (Real.sqrt_lt' (by positivity)).2 ?_⟩
    · rw [sq]
      exact_mod_cast lt_of_le_of_ne hlo (by simpa using h)
    · rw [sq]
      exact_mod_cast hhi
  next h =>
    have h0 : isqrt n * isqrt n = n := by simpa using h
    rw [Real.sqrt_eq_iff_mul_self_eq (Nat.cast_nonneg _) hr]
    exact_mod_cast h0.symm

/-- The root's magnitude: of n = m * 2^sh with e - sh even. -/
theorem sqrt_magnitude (m sh : Nat) (e : Int) (h : (e - sh) % 2 = 0) :
    Magnitude (isqrt (m * 2 ^ sh)) ((e - sh) / 2) (isqrt (m * 2 ^ sh) * isqrt (m * 2 ^ sh) != m * 2 ^ sh) (Real.sqrt (m * 2 ^ e)) := by
  have hroot := standsFor_isqrt (m * 2 ^ sh)
  have hpow : (m : ℝ) * 2 ^ e = ((m * 2 ^ sh : Nat) : ℝ) * (2 ^ ((e - sh) / 2) * 2 ^ ((e - sh) / 2)) := by
    push_cast
    rw [← zpow_add₀ two_ne_zero, mul_assoc, ← zpow_natCast, ← zpow_add₀ two_ne_zero]
    congr 2
    omega
  rw [Magnitude, hpow, Real.sqrt_mul (Nat.cast_nonneg _), Real.sqrt_mul_self (by positivity), mul_div_cancel_right₀ _ (by positivity)]
  exact hroot

/-- The quotient of finite operands by whether they are zeros. -/
theorem fdivE_fin {a b : Nat} {s s' : Bool} {m n : Nat} {e e' : Int} (hx : readF p f a = (.fin s m e, .none))
    (hy : readF p f b = (.fin s' n e', .none)) :
    fdivE p f mode a b =
      if n = 0 then (if m = 0 then (f.canonNaN, .invalid) else (f.signed (s != s') f.infBits, .divZero))
      else if m = 0 then (f.signed (s != s') 0, .none)
      else
        let r := roundF f mode p.flush (s != s') (quotF m e n e').1 (quotF m e n e').2.1 (quotF m e n e').2.2
        (r.1, FFlags.none.or r.2) := by
  rw [fdivE, hx, hy]
  rfl

section
variable {a b : Nat} {x y : Rat} (hf : f.Proper) (hp : p.flush = false) (ha : a < 2 ^ f.bits) (hx : finValue f a = some x)

include hf hp ha hx

theorem fscaleE_delivers (k : Int) (h0 : ((x * 2 ^ k : Rat) : ℝ) ≠ 0) : Delivers f mode (x * 2 ^ k : Rat) (fscaleE p f mode a k) := by
  obtain ⟨s, m, e, hd, rfl⟩ := exists_fin_of_finValue hx
  have hm : m ≠ 0 := by
    rintro rfl
    simp at h0
  have hval : (if s then -1 else 1 : Rat) * m * 2 ^ e * 2 ^ k = (FVal.fin s m (e + k)).exact := by
    rw [FVal.exact, zpow_add₀ two_ne_zero, mul_assoc]
  rw [hval, fscaleE, readF_of_finValue hp ha hx, hd]
  dsimp only
  rw [if_neg hm, hp]
  exact (roundF_scaled hf (decodeF_fin hf ha hd).1 hm k).or_none

theorem fdivE_delivers (hb : b < 2 ^ f.bits) (hy : finValue f b = some y) (hy0 : y ≠ 0) (h0 : ((x / y : Rat) : ℝ) ≠ 0) :
    Delivers f mode (x / y : Rat) (fdivE p f mode a b) := by
  obtain ⟨s, m, e, hd, rfl⟩ := exists_fin_of_finValue hx
  obtain ⟨s', n, e', hd', rfl⟩ := exists_fin_of_finValue hy
  have hm : m ≠ 0 := by
    rintro rfl
    simp at h0
  have hn : n ≠ 0 := by
    rintro rfl
    simp at hy0
  obtain ⟨hmag, h70⟩ := quotF_magnitude e e' (Nat.pos_of_ne_zero hm) (Nat.pos_of_ne_zero hn)
  have hval : (((if s then -1 else 1 : Rat) * m * 2 ^ e / ((if s' then -1 else 1) * n * 2 ^ e') : Rat) : ℝ) =
      signedReal (s != s') (m * 2 ^ e / (n * 2 ^ e')) := by
    cases s <;> cases s' <;> simp [signedReal, neg_div, div_neg]
  rw [hval, fdivE_fin (hd ▸ readF_of_finValue hp ha hx) (hd' ▸ readF_of_finValue hp hb hy), if_neg hn, if_neg hm, hp]
  refine (roundF_delivers hf (lt_of_lt_of_le (by positivity) h70) ?_ hmag fun _ => ?_).or_none
  · have : 0 < m := Nat.pos_of_ne_zero hm
    have : 0 < n := Nat.pos_of_ne_zero hn
    positivity
  · exact (Nat.pow_le_pow_right two_pos (by have := hf.2.2.1; omega)).trans h70

theorem fsqrtE_delivers (h0 : 0 < x) : Delivers f mode (Real.sqrt x) (fsqrtE p f mode a) := by
  obtain ⟨s, m, e, hd, rfl⟩ := exists_fin_of_finValue hx
  have hm : m ≠ 0 := by
    rintro rfl
    simp at h0
  have hm0 := Nat.pos_of_ne_zero hm
  obtain rfl : s = false := by
    cases s
    · rfl
    · have : (0 : Rat) < m * 2 ^ e := by positivity
      simp at h0
      linarith
  obtain ⟨sh, hsh⟩ : ∃ sh : Nat, sh = if e % 2 = 0 then 80 else 81 := ⟨_, rfl⟩
  have hmag := sqrt_magnitude m sh e (by split at hsh <;> omega)
  have hbig : 2 ^ (f.fb + 1) ≤ isqrt (m * 2 ^ sh) := by
    have h80 : 2 ^ 40 * 2 ^ 40 ≤ m * 2 ^ sh := by
      rw [← pow_add]
      exact (Nat.pow_le_pow_right two_pos (by split at hsh <;> omega)).trans (Nat.le_mul_of_pos_left _ hm0)
    have := Nat.mul_self_lt_mul_self_iff.1 (h80.trans_lt (isqrt_bounds _).2)
    exact (Nat.pow_le_pow_right two_pos (by have := hf.2.2.1; omega)).trans (Nat.lt_succ_iff.1 this)
  have hval : (((if false then -1 else 1 : Rat) * m * 2 ^ e : Rat) : ℝ) = m * 2 ^ e := by simp
  rw [hval, fsqrtE, readF_of_finValue hp ha hx, hd]
  dsimp only
  rw [if_neg hm, if_neg Bool.false_ne_true, ← hsh, hp]
  exact (roundF_delivers (neg := false) hf (lt_of_lt_of_le (by positivity) hbig) (by positivity) hmag fun _ => hbig).or_none

end

/-- Settles O35: each operation hands its exact value to round, and round delivers it. -/
theorem floatRounding : Obligations.FloatRounding := by
  unfold Obligations.FloatRounding
  intro p f mode a b c x y z hformat hp ha hb hc hx hy hz
  have hf := Fmt.proper_of_format hformat
  exact ⟨faddE_delivers hf hp ha hb hx hy, fsubE_delivers hf hp ha hb hx hy, fmulE_delivers hf hp ha hb hx hy,
    ffmaE_delivers hf hp ha hb hx hy hc hz, fun k => fscaleE_delivers hf hp ha hx k,
    fun hy0 => fdivE_delivers hf hp ha hx hb hy hy0, fun hx0 _ => fsqrtE_delivers hf hp ha hx hx0⟩

end Sys2Proof.Machine
end

section
/-! The results of floating point that are not a rounding (R36, R41, R121, R124-R126, R129, R131, R133): what each source is read as, comparison,
and the special values. -/

namespace Sys2Proof.Machine

variable {f : Fmt} {p : Profile} {mode : RMode} {a b : Nat} {x y : Rat}

/-! ### Reading sources -/

theorem isSubnormal_signed {neg : Bool} {ex fr : Nat} (hex : ex < 2 ^ f.eb) (hfr : fr < 2 ^ f.fb) :
    isSubnormal f (f.signed neg (ex * 2 ^ f.fb + fr)) = (ex == 0 && fr != 0) := by
  simp only [isSubnormal, signed_exponent hex hfr, signed_fraction hfr]

/-- An encoding that is not subnormal is read as it stands in every profile. -/
theorem readF_of_not_subnormal (h : isSubnormal f a = false) :
    readF p f a = (decodeF f a, if isSignalling f a then .invalid else .none) := by
  simp [readF, h]

theorem decodeF_zero (hf : f.Proper) (neg : Bool) : decodeF f (f.signed neg 0) = .fin neg 0 f.qmin := by
  have h4 : 2 ^ 2 ≤ 2 ^ f.eb := Nat.pow_le_pow_right (by decide) hf.1
  have h := decodeF_signed (f := f) (neg := neg) (ex := 0) (fr := 0) (by positivity) (by positivity)
  rwa [if_neg (by omega), if_pos rfl, Nat.zero_mul] at h

theorem readF_zero (hf : f.Proper) (p : Profile) (neg : Bool) : readF p f (f.signed neg 0) = (.fin neg 0 f.qmin, .none) := by
  have hsub := isSubnormal_signed (f := f) (neg := neg) (ex := 0) (fr := 0) (by positivity) (by positivity)
  have hsig := isSignalling_signed (f := f) (neg := neg) (ex := 0) (fr := 0) (by positivity) (by positivity)
  rw [Nat.zero_mul] at hsub hsig
  rw [readF_of_not_subnormal hsub, hsig, decodeF_zero hf]
  simp

theorem readF_inf (hf : f.Proper) (p : Profile) (neg : Bool) : readF p f (f.signed neg f.infBits) = (.inf neg, .none) := by
  have h4 : 2 ^ 2 ≤ 2 ^ f.eb := Nat.pow_le_pow_right (by decide) hf.1
  have hex : 2 ^ f.eb - 1 < 2 ^ f.eb := by omega
  have hsub : isSubnormal f (f.signed neg f.infBits) = false :=
    (isSubnormal_signed (ex := 2 ^ f.eb - 1) (fr := 0) hex (by positivity)).trans (by simp)
  have hsig : isSignalling f (f.signed neg f.infBits) = false :=
    (isSignalling_signed (ex := 2 ^ f.eb - 1) (fr := 0) hex (by positivity)).trans (by simp)
  rw [readF_of_not_subnormal hsub, hsig, decodeF_inf]
  rfl

theorem readF_pos_zero (hf : f.Proper) (p : Profile) : readF p f 0 = (.fin false 0 f.qmin, .none) := readF_zero hf p false
theorem readF_neg_zero (hf : f.Proper) (p : Profile) : readF p f f.signBit = (.fin true 0 f.qmin, .none) := readF_zero hf p true
theorem readF_pos_inf (hf : f.Proper) (p : Profile) : readF p f f.infBits = (.inf false, .none) := readF_inf hf p false
theorem readF_neg_inf (hf : f.Proper) (p : Profile) : readF p f (f.signBit + f.infBits) = (.inf true, .none) := readF_inf hf p true

/-- The encoding of 1. -/
theorem readF_one (hf : f.Proper) (p : Profile) : readF p f (f.bias.toNat * 2 ^ f.fb) = (.fin false (2 ^ f.fb) (-f.fb), .none) := by
  obtain ⟨n, hn⟩ := Nat.exists_eq_add_of_le hf.1
  have hB : f.bias = (2 * 2 ^ n - 1 : Nat) := by
    rw [Fmt.bias, show f.eb - 1 = n + 1 by omega, Nat.cast_sub (by have := Nat.two_pow_pos n; omega)]
    push_cast
    ring
  have hE : 2 ^ f.eb = 4 * 2 ^ n := by rw [hn, pow_add]; rfl
  have hpos := Nat.two_pow_pos n
  have hex : f.bias.toNat < 2 ^ f.eb := by omega
  have hsub : isSubnormal f (f.bias.toNat * 2 ^ f.fb) = false :=
    (isSubnormal_signed (neg := false) (fr := 0) hex (by positivity)).trans (by simp)
  have hsig : isSignalling f (f.bias.toNat * 2 ^ f.fb) = false :=
    (isSignalling_signed (neg := false) (fr := 0) hex (by positivity)).trans (by simp)
  have hdec := decodeF_signed (f := f) (neg := false) (fr := 0) hex (by positivity)
  rw [if_neg (by omega), if_neg (by omega), Nat.zero_add,
    show f.qmin + f.bias.toNat - 1 = -f.fb by simp only [Fmt.qmin, Fmt.emin]; omega] at hdec
  rw [readF_of_not_subnormal hsub, hsig]
  exact Prod.ext hdec rfl

/-- A NaN is read as it stands in every profile. -/
theorem readF_nan (hf : f.Proper) (ha : a < 2 ^ f.bits) (h : (decodeF f a).isNaN = true) :
    readF p f a = (decodeF f a, if isSignalling f a then .invalid else .none) := by
  obtain ⟨neg, ex, fr, hex, hfr, rfl⟩ := exists_fields ha
  refine readF_of_not_subnormal ?_
  rw [isSubnormal_signed hex hfr]
  by_cases h0 : ex = 0
  · have h4 : 2 ^ 2 ≤ 2 ^ f.eb := Nat.pow_le_pow_right (by decide) hf.1
    rw [decodeF_signed hex hfr, if_neg (by omega), if_pos h0] at h
    cases h
  · simp [h0]

/-! ### Signs and equal numbers -/

theorem finValue_sign {s : Bool} {m : Nat} {e : Int} (hx : ((if s then -1 else 1) * m * 2 ^ e : Rat) ≠ 0) :
    m ≠ 0 ∧ (((if s then -1 else 1) * m * 2 ^ e : Rat) < 0 ↔ s = true) := by
  have hm : m ≠ 0 := by
    rintro rfl
    simp at hx
  have hpos : (0 : Rat) < m * 2 ^ e := by
    have : 0 < m := Nat.pos_of_ne_zero hm
    positivity
  refine ⟨hm, ?_⟩
  cases s
  · simpa using hpos.le
  · simpa using hpos

/-- The sign of what a finite encoding decodes to is its top bit. -/
theorem neg_decodeF (hf : f.Proper) (ha : a < 2 ^ f.bits) (hx : finValue f a = some x) :
    (decodeF f a).neg = true ↔ f.signBit ≤ a := by
  obtain ⟨s, m, e, hd, -⟩ := exists_fin_of_finValue hx
  obtain ⟨hc, rfl⟩ := decodeF_fin hf ha hd
  rw [hd]
  exact (Fmt.signBit_le_signed (pack_lt hc hf)).symm

theorem Fmt.Canon.le_of_eq {m n : Nat} {e e' : Int} (h' : f.Canon n e') (h : f.Canon m e) (he : (m : Rat) * 2 ^ e = n * 2 ^ e') :
    e' ≤ e := by
  by_contra hlt
  obtain ⟨k, rfl⟩ : ∃ k : Nat, e' = e + (k + 1 : Nat) := ⟨(e' - e - 1).toNat, by omega⟩
  obtain ⟨hm, hmin, -, -⟩ := h
  obtain ⟨-, -, -, hn⟩ := h'
  have hn' : 2 ^ f.fb ≤ n := hn.resolve_right (by omega)
  rw [zpow_add₀ two_ne_zero, mul_comm ((2 : Rat) ^ e), ← mul_assoc, zpow_natCast] at he
  have hmn : m = n * 2 ^ (k + 1) := by exact_mod_cast mul_right_cancel₀ (by positivity) he
  have : 2 ^ f.fb * 2 ≤ n * 2 ^ (k + 1) := Nat.mul_le_mul hn' (Nat.le_self_pow (by omega) 2)
  rw [pow_succ] at hm
  omega

/-- A number has one pair in a format. -/
theorem Fmt.Canon.unique {m n : Nat} {e e' : Int} (h : f.Canon m e) (h' : f.Canon n e') (he : (m : Rat) * 2 ^ e = n * 2 ^ e') :
    m = n ∧ e = e' := by
  obtain rfl : e = e' := le_antisymm (h.le_of_eq h' he.symm) (h'.le_of_eq h he)
  exact ⟨by exact_mod_cast mul_right_cancel₀ (by positivity) he, rfl⟩

/-- Two encodings of one number that have one sign are the same. -/
theorem eq_of_finValue_eq (hf : f.Proper) (ha : a < 2 ^ f.bits) (hb : b < 2 ^ f.bits) (hx : finValue f a = some x)
    (hy : finValue f b = some x) (hs : f.signBit ≤ a ↔ f.signBit ≤ b) : a = b := by
  obtain ⟨s, m, e, hd, rfl⟩ := exists_fin_of_finValue hx
  obtain ⟨s', n, e', hd', heq⟩ := exists_fin_of_finValue hy
  obtain ⟨hc, rfl⟩ := decodeF_fin hf ha hd
  obtain ⟨hc', rfl⟩ := decodeF_fin hf hb hd'
  rw [Fmt.signBit_le_signed (pack_lt hc hf), Fmt.signBit_le_signed (pack_lt hc' hf), Bool.coe_iff_coe] at hs
  subst hs
  have hval : (m : Rat) * 2 ^ e = n * 2 ^ e' := by cases s <;> simpa using heq
  obtain ⟨rfl, rfl⟩ := hc.unique hc' hval
  rfl

/-- What is read from an encoding and is no NaN is written back as it was. -/
theorem rebits_decodeF (hf : f.Proper) (ha : a < 2 ^ f.bits) (h : (decodeF f a).isNaN = false) : rebits f (decodeF f a) = a := by
  cases hd : decodeF f a with
  | nan s fb fr => simp [hd, FVal.isNaN] at h
  | inf s =>
    obtain ⟨neg, ex, fr, hex, hfr, rfl⟩ := exists_fields ha
    rw [decodeF_signed hex hfr] at hd
    split at hd
    next he =>
      split at hd
      next h0 =>
        cases hd
        subst he h0
        rfl
      next => cases hd
    next => split at hd <;> cases hd
  | fin s m e =>
    obtain ⟨hc, rfl⟩ := decodeF_fin hf ha hd
    rw [rebits, encodeMag_canon hc]

/-! ### Comparison (R125) and the lesser or greater (R41, R124) -/

theorem ltF_fin {u v : FVal} (hu : u.isFin = true) (hv : v.isFin = true) : ltF u v = decide (u.exact < v.exact) := by
  have hlt : ltF u v = decide ((exactSum [u, v.negate]).1 < 0) := by
    obtain ⟨s, m, e, rfl⟩ := FVal.exists_of_isFin hu
    obtain ⟨s', n, e', rfl⟩ := FVal.exists_of_isFin hv
    rfl
  have hsum := exactSum_exact [u, v.negate]
  have hpos : (0 : Rat) < 2 ^ (exactSum [u, v.negate]).2 := by positivity
  rw [hlt, decide_eq_decide, ← Int.cast_lt_zero (R := Rat), ← mul_lt_mul_iff_left₀ hpos, hsum]
  simp

theorem eqF_fin {u v : FVal} (hu : u.isFin = true) (hv : v.isFin = true) : eqF u v = decide (u.exact = v.exact) := by
  rw [eqF, ltF_fin hu hv, ltF_fin hv hu, ← decide_not, ← decide_not, ← Bool.decide_and, decide_eq_decide, not_lt, not_lt,
    le_antisymm_iff, and_comm]

section
variable (hf : f.Proper) (hp : p.flush = false) (ha : a < 2 ^ f.bits) (hb : b < 2 ^ f.bits) (hx : finValue f a = some x)
  (hy : finValue f b = some y)

include hp ha hb hx hy

theorem fminmaxE_fin (isMax num : Bool) :
    (fminmaxE p f isMax num a b).1 = rebits f (pickF isMax (decodeF f a) (decodeF f b)) := by
  have hxf := isNaN_of_isFin (finValue_iff.1 hx).1
  have hyf := isNaN_of_isFin (finValue_iff.1 hy).1
  simp only [fminmaxE, readF_of_finValue hp ha hx, readF_of_finValue hp hb hy, hxf, hyf]

include hf

/-- The lesser of two numbers, or of two equal ones the first if it is negative. -/
theorem fminE_fin (num : Bool) : (fminmaxE p f false num a b).1 = if x < y ∨ (x = y ∧ f.signBit ≤ a) then a else b := by
  obtain ⟨hxf, hxe⟩ := finValue_iff.1 hx
  obtain ⟨hyf, hye⟩ := finValue_iff.1 hy
  have hsign := neg_decodeF hf ha hx
  have hra := rebits_decodeF hf ha (isNaN_of_isFin hxf)
  have hrb := rebits_decodeF hf hb (isNaN_of_isFin hyf)
  rw [fminmaxE_fin hp ha hb hx hy, pickF, eqF_fin hxf hyf, ltF_fin hxf hyf, hxe, hye]
  rcases lt_trichotomy x y with h | rfl | h
  · simp [h, h.ne, hra]
  · by_cases hs : f.signBit ≤ a
    · simp [hsign.2 hs, hs, hra]
    · simp [mt hsign.1 hs, hs, hrb]
  · simp [h.ne', h.not_gt, hrb]

/-- The greater of two numbers, or of two equal ones the second unless it alone is negative. -/
theorem fmaxE_fin (num : Bool) : (fminmaxE p f true num a b).1 = if y < x ∨ (x = y ∧ f.signBit ≤ b) then a else b := by
  obtain ⟨hxf, hxe⟩ := finValue_iff.1 hx
  obtain ⟨hyf, hye⟩ := finValue_iff.1 hy
  have hsign := neg_decodeF hf ha hx
  have hra := rebits_decodeF hf ha (isNaN_of_isFin hxf)
  have hrb := rebits_decodeF hf hb (isNaN_of_isFin hyf)
  rw [fminmaxE_fin hp ha hb hx hy, pickF, eqF_fin hxf hyf, ltF_fin hxf hyf, hxe, hye]
  rcases lt_trichotomy x y with h | rfl | h
  · simp [h, h.ne, h.not_gt, hrb]
  · by_cases hsame : f.signBit ≤ a ↔ f.signBit ≤ b
    · obtain rfl := eq_of_finValue_eq hf ha hb hx hy hsame
      simp [hra]
    · by_cases hs : f.signBit ≤ a
      · simp [hsign.2 hs, mt (iff_of_true hs) hsame, hrb]
      · simp [mt hsign.1 hs, not_not.1 (mt (iff_of_false hs) hsame), hra]
  · simp [h, h.ne', h.not_gt, hra]

omit hf in
theorem fcmpE_fin :
    (fcmpE p f 0 false a b).1 = decide (x = y) ∧ (fcmpE p f 1 false a b).1 = decide (x ≠ y) ∧
    (fcmpE p f 2 false a b).1 = decide (x < y) ∧ (fcmpE p f 3 false a b).1 = decide (x ≤ y) ∧
    (fcmpE p f 4 false a b).1 = decide (x > y) ∧ (fcmpE p f 5 false a b).1 = decide (x ≥ y) ∧
    (fcmpE p f 6 false a b).1 = true ∧ (fcmpE p f 7 false a b).1 = false := by
  obtain ⟨hxf, hxe⟩ := finValue_iff.1 hx
  obtain ⟨hyf, hye⟩ := finValue_iff.1 hy
  simp only [fcmpE, readF_of_finValue hp ha hx, readF_of_finValue hp hb hy, isNaN_of_isFin hxf, isNaN_of_isFin hyf, Bool.or_self,
    Bool.false_eq_true, if_false, eqF_fin hxf hyf, ltF_fin hxf hyf, ltF_fin hyf hxf, hxe, hye]
  refine ⟨trivial, decide_not.symm, trivial, ?_, trivial, ?_, trivial, trivial⟩
  · rw [← Bool.decide_or, decide_eq_decide, le_iff_lt_or_eq]
  · rw [← Bool.decide_or, decide_eq_decide, ge_iff_le, le_iff_lt_or_eq, eq_comm]

end

/-! ### Invalid operations and zero sums (R36, R121, R131) -/

section
variable (hf : f.Proper)
include hf

/-- Opposite infinities, 0 by an infinity, and quotients of zeros and of infinities are invalid. -/
theorem invalid_operations :
    faddE p f mode f.infBits (f.signBit + f.infBits) = (f.canonNaN, .invalid) ∧ fsubE p f mode f.infBits f.infBits = (f.canonNaN, .invalid) ∧
    fmulE p f mode 0 f.infBits = (f.canonNaN, .invalid) ∧ fdivE p f mode 0 0 = (f.canonNaN, .invalid) ∧
    fdivE p f mode f.infBits f.infBits = (f.canonNaN, .invalid) := by
  simp only [faddE, fsubE, fmulE, fdivE, readF_pos_zero hf, readF_pos_inf hf, readF_neg_inf hf]
  exact ⟨rfl, rfl, rfl, rfl, rfl⟩

/-- The sum of zeros is minus zero where both are, and in RD. -/
theorem zero_sums :
    faddE p f mode f.signBit f.signBit = (f.signBit, .none) ∧ fsubE p f mode f.signBit 0 = (f.signBit, .none) ∧
    faddE p f mode 0 f.signBit = (if mode = .rd then f.signBit else 0, .none) := by
  simp only [faddE, fsubE, readF_pos_zero hf, readF_neg_zero hf]
  exact ⟨rfl, rfl, by cases mode <;> rfl⟩

omit hf in
/-- The difference of two equal nonzero numbers is minus zero in RD alone. -/
theorem fsubE_equal (hp : p.flush = false) (ha : a < 2 ^ f.bits) (hb : b < 2 ^ f.bits) (hx : finValue f a = some x)
    (hy : finValue f b = some x) (h0 : x ≠ 0) : fsubE p f mode a b = (if mode = .rd then f.signBit else 0, .none) := by
  obtain ⟨hxf, hxe⟩ := finValue_iff.1 hx
  obtain ⟨hyf, hye⟩ := finValue_iff.1 hy
  have hsum := exactSum_exact [decodeF f a, (decodeF f b).negate]
  have hv : (exactSum [decodeF f a, (decodeF f b).negate]).1 = 0 := by
    have h2 : (2 : Rat) ^ (exactSum [decodeF f a, (decodeF f b).negate]).2 ≠ 0 := by positivity
    simpa [hxe, hye, h2] using hsum
  have hsign : zeroSumNeg mode [decodeF f a, (decodeF f b).negate] = (mode == .rd) := by
    obtain ⟨s, m, e, hd, rfl⟩ := exists_fin_of_finValue hx
    simp [zeroSumNeg, hd, (finValue_sign h0).1]
  have hfin := sumF_fin (p := p) (f := f) (mode := mode) (srcs := [decodeF f a, decodeF f b]) (fl := .none)
    (ts := [decodeF f a, (decodeF f b).negate]) (by simp [isNaN_of_isFin, hxf, hyf]) (by simp [hxf, hyf])
  rw [if_pos hv, hsign] at hfin
  rw [fsubE, readF_of_finValue hp ha hx, readF_of_finValue hp hb hy]
  refine hfin.trans ?_
  cases mode <;> rfl

/-- A nonzero number by zero is an infinity of its sign and a division by zero. -/
theorem fdivE_zero (hp : p.flush = false) (ha : a < 2 ^ f.bits) (hx : finValue f a = some x) (h0 : x ≠ 0) :
    fdivE p f mode a 0 = (if x < 0 then f.signBit + f.infBits else f.infBits, .divZero) := by
  obtain ⟨s, m, e, hd, rfl⟩ := exists_fin_of_finValue hx
  obtain ⟨hm, hs⟩ := finValue_sign h0
  rw [fdivE_fin (hd ▸ readF_of_finValue hp ha hx) (readF_pos_zero hf p), if_pos rfl, if_neg hm]
  simp only [hs]
  cases s <;> rfl

omit hf in
/-- Of a negative number the root, its reciprocal and the logarithm are invalid. -/
theorem negative_invalid (hp : p.flush = false) (ha : a < 2 ^ f.bits) (hx : finValue f a = some x) (h0 : x < 0) :
    fsqrtE p f mode a = (f.canonNaN, .invalid) ∧ frsqE p f a = (f.canonNaN, .invalid) ∧ log2E p f a = (f.canonNaN, .invalid) := by
  obtain ⟨s, m, e, hd, rfl⟩ := exists_fin_of_finValue hx
  obtain ⟨hm, hs⟩ := finValue_sign h0.ne
  obtain rfl := hs.1 h0
  simp only [fsqrtE, frsqE, log2E, readF_of_finValue hp ha hx, hd, if_neg hm, if_true]
  exact ⟨rfl, rfl, rfl⟩

end

/-! ### NaN sources (R40, R41, R125, R129) and classes (R126) -/

/-- Beside a number a NaN is left out of the IEEE-number minimum, makes the other one a NaN, and compares unordered. -/
theorem nan_and_number (hf : f.Proper) (hp : p.flush = false) (ha : a < 2 ^ f.bits) (hb : b < 2 ^ f.bits)
    (hna : (decodeF f a).isNaN = true) (hnb : (decodeF f b).isNaN = false) :
    fminmaxE p f false true a b = (b, if isSignalling f a then .invalid else .none) ∧
    fminmaxE p f false false a b = (nanResult p f [decodeF f a], if isSignalling f a then .invalid else .none) ∧
    ∀ cc sig, fcmpE p f cc sig a b = (cc == 1 || cc == 7, if isSignalling f a || sig then .invalid else .none) := by
  have hone : nanResult p f [decodeF f a, decodeF f b] = nanResult p f [decodeF f a] := by
    simp only [nanResult, List.find?_cons, hna]
  simp only [fminmaxE, fcmpE, readF_nan hf ha hna, readF_of_not_nan hp hb hnb, hna, hnb, rebits_decodeF hf hb hnb, hone,
    FFlags.or_none, Bool.true_or, if_true]
  refine ⟨trivial, rfl, fun cc sig => ?_⟩
  cases isSignalling f a <;> cases sig <;> rfl

theorem f2iE_nan (hf : f.Proper) (ha : a < 2 ^ f.bits) (hna : (decodeF f a).isNaN = true) (e : Elem) :
    f2iE p f e mode a = (0, .invalid) := by
  rw [f2iE, readF_nan hf ha hna]
  cases hd : decodeF f a with
  | nan s fb fr => rfl
  | inf s => simp [hd, FVal.isNaN] at hna
  | fin s m e => simp [hd, FVal.isNaN] at hna

/-- A class is one bit of ten. -/
theorem fclassE_bit (f : Fmt) (a : Nat) : ∃ k, k < 10 ∧ fclassE f a = 2 ^ k := by
  simp only [fclassE]
  split
  · split
    · split
      · exact ⟨0, by decide, rfl⟩
      · exact ⟨7, by decide, rfl⟩
    · split
      · exact ⟨8, by decide, rfl⟩
      · exact ⟨9, by decide, rfl⟩
  · split
    · split
      · split
        · exact ⟨3, by decide, rfl⟩
        · exact ⟨4, by decide, rfl⟩
      · split
        · exact ⟨2, by decide, rfl⟩
        · exact ⟨5, by decide, rfl⟩
    · split
      · exact ⟨1, by decide, rfl⟩
      · exact ⟨6, by decide, rfl⟩

/-! ### Special functions at their special values (R133) -/

/-- The special functions at 1, and the trigonometric ones at the zeros, whatever is flushed. -/
theorem special_table (h : f = fmt32 ∨ f = fmt16 ∨ f = fmtB16) (flush : Bool) :
    let p : Profile := ⟨false, .rne, false, flush⟩
    let one := f.bias.toNat * 2 ^ f.fb
    frcpE p f one = (one, .none) ∧ frsqE p f one = (one, .none) ∧ exp2E p f one = (one + 2 ^ f.fb, .none) ∧ log2E p f one = (0, .none) ∧
    sinpiE p f one = (0, .none) ∧ cospiE p f one = (f.signBit + one, .none) ∧ sinpiE p f 0 = (0, .none) ∧
    sinpiE p f f.signBit = (f.signBit, .none) ∧ cospiE p f 0 = (one, .none) ∧ cospiE p f f.signBit = (one, .none) := by
  rcases h with rfl | rfl | rfl <;> revert flush <;> decide +kernel

section
variable (h : f = fmt32 ∨ f = fmt16 ∨ f = fmtB16)
include h

theorem frcpE_special : frcpE p f 0 = (f.infBits, .divZero) ∧ frcpE p f f.signBit = (f.signBit + f.infBits, .divZero) ∧
    frcpE p f f.infBits = (0, .none) ∧ frcpE p f (f.signBit + f.infBits) = (f.signBit, .none) ∧
    frcpE p f (f.bias.toNat * 2 ^ f.fb) = (f.bias.toNat * 2 ^ f.fb, .none) := by
  have hf := Fmt.proper_of_format h
  obtain ⟨hone, -⟩ := special_table h p.flush
  simp only [frcpE, readF_one hf] at hone
  simp only [frcpE, readF_pos_zero hf, readF_neg_zero hf, readF_pos_inf hf, readF_neg_inf hf, readF_one hf]
  exact ⟨rfl, rfl, rfl, rfl, hone⟩

theorem frsqE_special : frsqE p f 0 = (f.infBits, .divZero) ∧ frsqE p f f.signBit = (f.signBit + f.infBits, .divZero) ∧
    frsqE p f f.infBits = (0, .none) ∧ frsqE p f (f.signBit + f.infBits) = (f.canonNaN, .invalid) ∧
    frsqE p f (f.bias.toNat * 2 ^ f.fb) = (f.bias.toNat * 2 ^ f.fb, .none) := by
  have hf := Fmt.proper_of_format h
  obtain ⟨-, hone, -⟩ := special_table h p.flush
  simp only [frsqE, readF_one hf] at hone
  simp only [frsqE, readF_pos_zero hf, readF_neg_zero hf, readF_pos_inf hf, readF_neg_inf hf, readF_one hf]
  exact ⟨rfl, rfl, rfl, rfl, hone⟩

theorem exp2E_special : exp2E p f 0 = (f.bias.toNat * 2 ^ f.fb, .none) ∧ exp2E p f f.signBit = (f.bias.toNat * 2 ^ f.fb, .none) ∧
    exp2E p f f.infBits = (f.infBits, .none) ∧ exp2E p f (f.signBit + f.infBits) = (0, .none) ∧
    exp2E p f (f.bias.toNat * 2 ^ f.fb) = (f.bias.toNat * 2 ^ f.fb + 2 ^ f.fb, .none) := by
  have hf := Fmt.proper_of_format h
  obtain ⟨-, -, hone, -⟩ := special_table h p.flush
  simp only [exp2E, readF_one hf] at hone
  simp only [exp2E, readF_pos_zero hf, readF_neg_zero hf, readF_pos_inf hf, readF_neg_inf hf, readF_one hf]
  exact ⟨rfl, rfl, rfl, rfl, hone⟩

theorem log2E_special : log2E p f 0 = (f.signBit + f.infBits, .divZero) ∧ log2E p f f.signBit = (f.signBit + f.infBits, .divZero) ∧
    log2E p f f.infBits = (f.infBits, .none) ∧ log2E p f (f.signBit + f.infBits) = (f.canonNaN, .invalid) ∧
    log2E p f (f.bias.toNat * 2 ^ f.fb) = (0, .none) := by
  have hf := Fmt.proper_of_format h
  obtain ⟨-, -, -, hone, -⟩ := special_table h p.flush
  simp only [log2E, readF_one hf] at hone
  simp only [log2E, readF_pos_zero hf, readF_neg_zero hf, readF_pos_inf hf, readF_neg_inf hf, readF_one hf]
  exact ⟨rfl, rfl, rfl, rfl, hone⟩

theorem sinpiE_cospiE_special : sinpiE p f 0 = (0, .none) ∧ sinpiE p f f.signBit = (f.signBit, .none) ∧
    sinpiE p f f.infBits = (f.canonNaN, .invalid) ∧ sinpiE p f (f.bias.toNat * 2 ^ f.fb) = (0, .none) ∧
    cospiE p f 0 = (f.bias.toNat * 2 ^ f.fb, .none) ∧ cospiE p f f.signBit = (f.bias.toNat * 2 ^ f.fb, .none) ∧
    cospiE p f f.infBits = (f.canonNaN, .invalid) ∧
    cospiE p f (f.bias.toNat * 2 ^ f.fb) = (f.signBit + f.bias.toNat * 2 ^ f.fb, .none) := by
  have hf := Fmt.proper_of_format h
  obtain ⟨-, -, -, -, hs1, hc1, hs0, hsn0, hc0, hcn0⟩ := special_table h p.flush
  simp only [sinpiE, cospiE, readF_one hf, readF_pos_zero hf, readF_neg_zero hf] at hs1 hc1 hs0 hsn0 hc0 hcn0
  simp only [sinpiE, cospiE, readF_pos_zero hf, readF_neg_zero hf, readF_pos_inf hf, readF_one hf]
  exact ⟨hs0, hsn0, rfl, hs1, hc0, hcn0, rfl, hc1⟩

end

/-- Settles O36: clause by clause, from what each source is read as. -/
theorem floatSpecialValues : Obligations.FloatSpecialValues := by
  unfold Obligations.FloatSpecialValues
  intro p f mode a b hformat ha hb
  have hf := Fmt.proper_of_format hformat
  refine ⟨invalid_operations hf, fun heq hp hsome h0 => ?_, zero_sums hf, fun x hx h0 hp => ?_, fun x y hx hy hp => ?_,
    fun hna hnb hp => nan_and_number hf hp ha hb hna hnb, fclassE_bit f a, fun e hna => f2iE_nan hf ha hna e, frcpE_special hformat,
    frsqE_special hformat, exp2E_special hformat, log2E_special hformat, sinpiE_cospiE_special hformat⟩
  · obtain ⟨x, hx⟩ := Option.isSome_iff_exists.1 hsome
    exact fsubE_equal hp ha hb hx (heq ▸ hx) fun hx0 => h0 (hx0 ▸ hx)
  · exact ⟨fdivE_zero hf hp ha hx h0, negative_invalid hp ha hx⟩
  · exact ⟨fminE_fin hf hp ha hb hx hy true, fmaxE_fin hf hp ha hb hx hy true, fcmpE_fin hp ha hb hx hy⟩

end Sys2Proof.Machine
end

section
/-! Matrix commands (R54, R271-R274, R278, R279, R284): what their issue comes to check by check, and what one step of an array leaves. -/

namespace Sys2Proof.Machine

/-! ### Entering a command (R252) -/

/-- A checked command enters, or waits. -/
theorem issueCommand_enters (w : Enc) (s : State) (x : Site) (c : Command) :
    EntersCommand (.next ((issueCommand x s c).state w)) w s x c := by
  refine ⟨fun h => ?_, fun h => ?_⟩
  · rw [issueCommand, if_pos h]
    rfl
  · rw [issueCommand, if_neg (ne_true_of_eq_false h)]
    rfl

/-- An instruction that does nothing takes its place in its run. -/
theorem done_goesOnTo (w : Enc) (s : State) (x : Site) : GoesOnTo (.next ((Act.done x s).state w)) w x s := by
  obtain ⟨hkeeps, hgoes⟩ := advance_keeps x x w ⟨rfl, rfl, rfl⟩ rfl (keepsWarp_refl _) rfl
  exact ⟨x.advance w, rfl, hkeeps, hgoes, advance_regs x w⟩

/-! ### MMA, MMAP and MMAG (R271-R276) -/

/-- The follower crew where one stands on the other core. -/
def Follow.entry : Follow → Option (Nat × Crew)
  | .crew k c => some (k, c)
  | _ => Option.none

/-- The command that a checked shape block enters. -/
def mxCommand (x : Site) (j : MxJob) (arv : Option Nat) (fo : Option (Nat × Crew)) (ao bo xo : Nat) : Command :=
  let asz := j.imageBytes j.pa j.rows
  let bsz := j.imageBytes j.pb 64
  let tiles := (x.ref.crew :: (fo.map (·.1)).toList).map fun c => Region.tile c j.tile
  let own := (if j.kind = 2 then [Region.bytes x.ref.crew xo (xo + 128)] else []) ++
    [Region.bytes x.ref.crew ao (ao + asz), Region.bytes x.ref.crew bo (bo + bsz)]
  let far := (fo.map fun e => Region.bytes e.1 ao (ao + asz)).toList
  { cls := 1, op := .matrix { j with a := ao, b := bo, x := xo, follower := fo.map (·.1) }, scope := 1, arv := arv,
    reads := own ++ far ++ (if j.za then [] else tiles), writes := tiles, pair := fo.map fun _ => x.ref.core ^^^ 1 }

/-- A matrix command reads its operand images and writes its tile in its crew and in its follower's. -/
theorem mxCommand_regions (x : Site) (j : MxJob) (arv : Option Nat) (fo : Option (Nat × Crew)) (ao bo xo : Nat) :
    Region.tile x.ref.crew j.tile ∈ (mxCommand x j arv fo ao bo xo).writes ∧
    Region.bytes x.ref.crew ao (ao + j.imageBytes j.pa j.rows) ∈ (mxCommand x j arv fo ao bo xo).reads ∧
    Region.bytes x.ref.crew bo (bo + j.imageBytes j.pb 64) ∈ (mxCommand x j arv fo ao bo xo).reads ∧
    ∀ e, fo = some e → Region.tile e.1 j.tile ∈ (mxCommand x j arv fo ao bo xo).writes := by
  refine ⟨List.mem_cons_self, ?_, ?_, fun e he => ?_⟩
  · exact List.mem_append_left _ (List.mem_append_left _ (List.mem_append_right _ List.mem_cons_self))
  · exact List.mem_append_left _ (List.mem_append_left _ (List.mem_append_right _ (List.mem_cons_of_mem _ List.mem_cons_self)))
  · subst he
    exact List.mem_cons_of_mem _ List.mem_cons_self

section
variable {x : Site} {s : State} {j : MxJob} {ok : Bool} {arv : Option Nat} {follow : Follow}

theorem mxIssue_bound (h : x.cr.acc ≤ j.tile) : mxIssue x s j ok arv follow = .trap x (accTrap x.act 1 j.tile) s := by
  unfold mxIssue
  extract_lets fo asz bsz
  exact if_pos h

theorem Follow.within (hfo : ∀ e, follow.entry = some e → j.tile < e.2.acc) :
    ¬(follow.entry.any fun e => decide (e.2.acc ≤ j.tile)) = true := by
  cases h : follow.entry with
  | none => simp
  | some e => simp [hfo e h]

theorem Follow.fits {n : Nat} (h : ∀ e, follow.entry = some e → n ≤ scratchSize e.2) :
    ¬(follow.entry.any fun e => decide (scratchSize e.2 < n)) = true := by
  cases he : follow.entry with
  | none => simp
  | some e => simpa using h e he

/-- The checks on the fields come after those on the tile. -/
theorem mxIssue_reason (hacc : j.tile < x.cr.acc) (hfo : ∀ e, follow.entry = some e → j.tile < e.2.acc) {r : Nat}
    (hr : j.reason ok = some r) : mxIssue x s j ok arv follow = .trap x (accTrap x.act r) s := by
  unfold mxIssue
  extract_lets fo asz bsz
  have hentry : fo = follow.entry := by cases follow <;> rfl
  clear_value fo
  subst hentry
  rw [if_neg hacc.not_ge, if_neg (Follow.within hfo), hr]

/-- Past tile, fields, barrier and scratch a command waits for its follower and for its queue, and enters. -/
theorem mxIssue_checked (hacc : j.tile < x.cr.acc) (hfo : ∀ e, follow.entry = some e → j.tile < e.2.acc) (hr : j.reason ok = none)
    (harv : ∀ k, arv = some k → (kvGet x.cr.bars k).isSome = true) {ao bo xo : Nat} (ha : ownScratch x j.a (j.imageBytes j.pa j.rows) = .ok ao)
    (hb : ownScratch x j.b (j.imageBytes j.pb 64) = .ok bo) (hx : j.kind = 2 → ownScratch x j.x 128 = .ok xo) (hx0 : j.kind ≠ 2 → xo = 0) :
    mxIssue x s j ok arv follow =
      if j.kind = 1 ∧ follow = .none then .trap x (regionTrap x j.a 3) s
      else if follow = .waits then .block x s
      else if follow.entry.any fun e => decide (scratchSize e.2 < ao + j.imageBytes j.pa j.rows) then .trap x (regionTrap x j.a 4) s
      else if 8 ≤ mxInFlight s x.ref.crew then .block x s
      else issueCommand x (noteMode s x.cr.ctx) (mxCommand x j arv follow.entry ao bo xo) := by
  have harv' : arvTrap x arv = none := by
    cases arv with
    | none => rfl
    | some k => simp [arvTrap, harv k rfl]
  have hxo : (if j.kind = 2 then ownScratch x j.x 128 else .ok 0) = .ok xo := by
    split
    · exact hx ‹_›
    · rw [hx0 ‹_›]
  unfold mxIssue
  extract_lets fo asz bsz
  have hentry : fo = follow.entry := by cases follow <;> rfl
  clear_value fo
  subst hentry
  rw [if_neg hacc.not_ge, if_neg (Follow.within hfo), hr]
  dsimp only
  rw [harv']
  dsimp only
  rw [hxo]
  dsimp only
  rw [ha]
  dsimp only
  rw [hb]
  rfl

end

section
variable {w : Enc} {s : State} {x : Site}

/-- With the array free or held a command goes on to its shape block. -/
theorem mmaBody_held {kind : Nat} (hact : x.act ≠ 0) (hheld : mxReserved s x.cr.ctx = false ∨ mxHeld x.cr (kind == 1) = true) :
    mmaBody w kind x s = mxIssue x s (mxJob s x w kind).1 (mxJob s x w kind).2.1 (mxJob s x w kind).2.2
      (if kind = 1 then followerOf s x else .none) := by
  rw [mmaBody, if_neg hact, if_neg (by rcases hheld with h | h <;> simp [h])]

theorem mmaBody_not_held (hact : x.act ≠ 0) (hres : mxReserved s x.cr.ctx = true) (hnot : mxHeld x.cr false = false) :
    mmaBody w 0 x s = .trap x { code := 0x0F, tx := 1, mask := x.act } s := by
  rw [mmaBody, if_neg hact, if_pos (by simp [hres, hnot])]
  rfl

end

/-! ### Tile transfer (R272, R278, R279) -/

/-- The operands of ACCLD and ACCST: tiles, image, pitch and the words that say them. -/
theorem tileMoveBody_enters {w : Enc} {store : Bool} {x : Site} {s : State} {row p a off : Nat} {ts : List Nat} (hact : x.act ≠ 0)
    (hts : ts = if w.sub.toNat = 4 then [w.d.idx.toNat, w.d.idx.toNat + 1] else [w.d.idx.toNat])
    (hrow : row = tileRow w.sub.toNat) (ha : a = rawValue s x .n32 false w.a 0)
    (hp : p = if scalarValue x.wp w.b.idx.toNat false / 2 ^ 16 = 0 then row else 8 * (scalarValue x.wp w.b.idx.toNat false / 2 ^ 16))
    (hacc : ∀ k ∈ ts, k < x.cr.acc) (hrp : row ≤ p) (hpal : p % (if 3 ≤ w.sub.toNat then 64 else 8) = 0)
    (haal : a % (if 3 ≤ w.sub.toNat then 64 else 8) = 0) (h14 : bitsAt (scalarValue x.wp w.b.idx.toNat false) 14 2 = 0)
    (h0 : bitsAt (scalarValue x.wp w.b.idx.toNat false) 0 7 = 0) (h13 : (scalarValue x.wp w.b.idx.toNat false).testBit 13 = false)
    (hoff : ownScratch x a (if 3 ≤ w.sub.toNat then 64 * p + 2 * p else 63 * p + row) = .ok off) :
    tileMoveBody w store x s =
      let n := if 3 ≤ w.sub.toNat then 64 * p + 2 * p else 63 * p + row
      let image := [Region.bytes x.ref.crew off (off + n)]
      let tiles := ts.map fun k => Region.tile x.ref.crew k
      issueCommand x s { cls := 1, op := .tileMove store w.sub.toNat w.d.idx.toNat off p, scope := 1, arv := none,
                         reads := if store then tiles else image, writes := if store then image else tiles } := by
  have hfind : ts.find? (fun k => decide (x.cr.acc ≤ k)) = none :=
    List.find?_eq_none.2 fun k hk => by simp [hacc k hk]
  subst hrow ha
  unfold tileMoveBody
  rw [if_neg hact]
  dsimp only
  rw [← hts, ← hp, hfind, h13, h14, h0]
  have hfields : firstReason [(3, decide (p < tileRow w.sub.toNat) || p % (if decide (3 ≤ w.sub.toNat) = true then 64 else 8) != 0 ||
      rawValue s x .n32 false w.a 0 % (if decide (3 ≤ w.sub.toNat) = true then 64 else 8) != 0), (4, 0 != 0 || 0 != 0)] = none := by
    simp only [decide_eq_true_eq, hpal, haal, hrp.not_gt]
    rfl
  rw [hfields]
  simp only [arvTrap, Bool.false_eq_true, if_false, decide_eq_true_eq, hoff]

/-! ### The array's step (R54, R284) -/

/-- Under rising keys an entry that is listed is the one found. -/
theorem kvGet_of_mem {α : Type} {m : KV α} (h : Rising m) {x : Nat} {v : α} (hm : (x, v) ∈ m) : kvGet m x = some v := by
  induction m with
  | nil => cases hm
  | cons c t ih =>
    obtain ⟨k, w⟩ := c
    obtain ⟨h1, h2⟩ := List.pairwise_cons.1 h
    rw [kvGet]
    rcases List.mem_cons.1 hm with he | hm
    · cases he
      exact if_pos rfl
    · have hlt : k < x := h1 _ hm
      rw [if_neg hlt.ne, if_neg hlt.not_gt, ih h2 hm]

/-- The entries of a tile as tileFill lists them. -/
def tileEntries (t : Nat) (f : Nat → Nat → Nat) : KV W32 :=
  (List.range 4096).filterMap fun k =>
    let v := BitVec.ofNat 32 (f (k / 64) (k % 64))
    if v = 0 then none else some (4096 * t + k, v)

theorem mem_tileEntries {t : Nat} {f : Nat → Nat → Nat} {e : Nat × W32} :
    e ∈ tileEntries t f ↔ ∃ k, k < 4096 ∧ e.1 = 4096 * t + k ∧ e.2 = BitVec.ofNat 32 (f (k / 64) (k % 64)) ∧ e.2 ≠ 0 := by
  obtain ⟨y, v⟩ := e
  simp only [tileEntries, List.mem_filterMap, List.mem_range]
  refine exists_congr fun k => and_congr_right fun _ => ?_
  split
  next h => simp [h]
  next h =>
    simp only [Option.some.injEq, Prod.mk.injEq]
    exact ⟨fun ⟨h1, h2⟩ => ⟨h1.symm, h2.symm, h2 ▸ h⟩, fun ⟨h1, h2, _⟩ => ⟨h1.symm, h2.symm⟩⟩

theorem tileFill_eq (m : KV W32) (t : Nat) (f : Nat → Nat → Nat) :
    tileFill m t f = (m.filter fun e => decide (e.1 < 4096 * t)) ++ tileEntries t f ++ m.filter fun e => decide (4096 * (t + 1) ≤ e.1) :=
  rfl

/-- Filling a tile touches no element of another. -/
theorem mem_tileFill {m : KV W32} {t : Nat} {f : Nat → Nat → Nat} {e : Nat × W32} (h : e ∈ tileFill m t f) :
    e ∈ m ∨ 4096 * t ≤ e.1 ∧ e.1 < 4096 * (t + 1) := by
  rw [tileFill_eq, List.mem_append, List.mem_append] at h
  rcases h with (h | h) | h
  · exact .inl (List.mem_of_mem_filter h)
  · obtain ⟨k, hk, he, -⟩ := mem_tileEntries.1 h
    exact .inr ⟨by omega, by omega⟩
  · exact .inl (List.mem_of_mem_filter h)

theorem tileEntries_rising (t : Nat) (f : Nat → Nat → Nat) : Rising (tileEntries t f) := by
  refine List.pairwise_lt_range.filterMap _ fun k k' hlt e he e' he' => ?_
  dsimp only at he he'
  split at he
  · cases he
  · split at he'
    · cases he'
    · cases he
      cases he'
      exact Nat.add_lt_add_left hlt _

theorem tileFill_rising {m : KV W32} (h : Rising m) (t : Nat) (f : Nat → Nat → Nat) : Rising (tileFill m t f) := by
  rw [tileFill_eq]
  refine List.pairwise_append.2 ⟨List.pairwise_append.2 ⟨h.filter _, tileEntries_rising t f, fun a ha b hb => ?_⟩, h.filter _,
    fun a ha b hb => ?_⟩
  · obtain ⟨k, -, hb1, -⟩ := mem_tileEntries.1 hb
    have ha1 := of_decide_eq_true (List.mem_filter.1 ha).2
    omega
  · have hb1 := of_decide_eq_true (List.mem_filter.1 hb).2
    rcases List.mem_append.1 ha with ha | ha
    · have ha1 := of_decide_eq_true (List.mem_filter.1 ha).2
      omega
    · obtain ⟨k, hk, ha1, -⟩ := mem_tileEntries.1 ha
      omega

/-- An element of a tile that was filled. -/
theorem tileGet_tileFill {m : KV W32} (h : Rising m) (t : Nat) (f : Nat → Nat → Nat) {r c : Nat} (hr : r < 64) (hc : c < 64) :
    tileGet (tileFill m t f) t r c = f r c % 2 ^ 32 := by
  have hk : 64 * r + c < 4096 := by omega
  have hdiv : (64 * r + c) / 64 = r := by omega
  have hmod : (64 * r + c) % 64 = c := by omega
  have hval : kvD (tileFill m t f) (4096 * t + 64 * r + c) 0 = BitVec.ofNat 32 (f r c) := by
    rw [add_assoc, kvD]
    by_cases hv : BitVec.ofNat 32 (f r c) = 0
    · cases hg : kvGet (tileFill m t f) (4096 * t + (64 * r + c)) with
      | none => exact hv.symm
      | some v =>
        have hmem := kvGet_mem hg
        rw [tileFill_eq, List.mem_append, List.mem_append] at hmem
        rcases hmem with (hm | hm) | hm
        · have := of_decide_eq_true (List.mem_filter.1 hm).2
          omega
        · obtain ⟨k, -, hkey, hv', -⟩ := mem_tileEntries.1 hm
          obtain rfl : 64 * r + c = k := Nat.add_left_cancel hkey
          rw [hdiv, hmod] at hv'
          exact hv'
        · have := of_decide_eq_true (List.mem_filter.1 hm).2
          omega
    · rw [kvGet_of_mem (tileFill_rising h t f) (v := BitVec.ofNat 32 (f r c))]
      · rfl
      · rw [tileFill_eq]
        exact List.mem_append_left _ (List.mem_append_right _ (mem_tileEntries.2 ⟨_, hk, rfl, by rw [hdiv, hmod], hv⟩))
  rw [tileGet, hval, BitVec.toNat_ofNat]

/-- What a K-block puts into an element of the tile (R54), where no row is indexed. -/
theorem mxStep_tiles {j : MxJob} {tiles : KV W32} {ca cb : Crew} {b r q : Nat} (h : Rising tiles) (hidx : j.idx = []) (hr : r < 64)
    (hq : q < 64) : tileGet (mxStep j tiles ca cb b).1 j.tile r q =
      mxElem j.flush (tileGet tiles j.tile r q) (mxBlock j ca j.a j.pa j.rows r b).1 (mxBlock j cb j.b j.pb 64 q b).1 % 2 ^ 32 := by
  rw [mxStep, tileGet_tileFill h _ _ hr hq]
  simp [hidx, List.getD_eq_getElem?_getD, hr, hq]

theorem mem_mxStep {j : MxJob} {tiles : KV W32} {ca cb : Crew} {b : Nat} {e : Nat × W32} (h : e ∈ (mxStep j tiles ca cb b).1) :
    e ∈ tiles ∨ 4096 * j.tile ≤ e.1 ∧ e.1 < 4096 * (j.tile + 1) := by
  rw [mxStep] at h
  dsimp only at h
  exact mem_tileFill h

section
variable {s : State} {c : Command} {j : MxJob} {cr : Crew}

/-- A K-block whose first run agrees writes the tile. -/
theorem mxServe_agreeing (crew core b : Nat) (second : Bool) :
    ∃ st, mxServe s c j crew core b false second =
      (modCrew s crew fun d => { d with tiles := (mxStep j (kvD s.crews crew {}).tiles (kvD s.crews crew {}) (kvD s.crews c.crew {}) b).1 },
       (mxStep j (kvD s.crews crew {}).tiles (kvD s.crews crew {}) (kvD s.crews c.crew {}) b).2.1, false, st) :=
  ⟨_, rfl⟩

/-- A K-block without a mismatch or a follower writes its tile, and counts a poisoning where an operand is poisoned. -/
theorem mxBlockStep_agreeing (hskip : j.skip = false) (hbad : j.bad = false) (hfo : j.follower = none) :
    ∃ st, mxBlockStep 0 0 s c j =
      (let r := mxStep j (kvD s.crews c.crew {}).tiles (kvD s.crews c.crew {}) (kvD s.crews c.crew {}) j.done
       let u := modCrew s c.crew fun d => { d with tiles := r.1 }
       (if r.2.1 then countPoisoning u c.crew else u, { c with status := c.status ||| BitVec.ofNat 8 st },
         { j with bad := r.2.1, skip := false, done := j.done + 1 })) := by
  obtain ⟨st, hserve⟩ := mxServe_agreeing (s := s) (c := c) (j := j) c.crew c.core j.done false
  have hagree (k : Nat) : (0 : BitVec 32).getLsbD k = false := BitVec.getLsbD_zero
  refine ⟨st ||| 0, ?_⟩
  simp only [mxBlockStep, hskip, hagree, hserve, hbad, hfo, Bool.false_eq_true, if_false, Bool.not_false, Bool.and_true,
    Bool.false_or]

/-- Without a byte that a lane's store changed a command reads its scratch as it stands (R234). -/
theorem mxMeetStep_of_no_was (hwas : c.was = []) (errs : BitVec 32) (i : Nat) (hkeep : (mxBlockStep errs i s c j).2.1.was = c.was) :
    mxMeetStep errs i s c j = mxBlockStep errs i s c j := by
  have hread : overlayOld s c = s := by rw [overlayOld, hwas]; rfl
  rw [mxMeetStep, hread]
  dsimp only
  rw [underlayNew, hkeep, hwas]
  rfl

theorem mxKb_pos (fmt : Nat) : 0 < mxKb fmt := by
  unfold mxKb
  split <;> [skip; split] <;> decide

/-- A command of one K-block is served in one step. -/
theorem mxBlocks_single (hk : j.k = mxKb j.fmt) (hdone : j.done = 0) (hskip : j.skip = false) {t : State} {d : Command} {j' : MxJob}
    (h : mxMeetStep 0 0 s c j = (t, d, j')) (hj : j'.k = j.k ∧ j'.fmt = j.fmt ∧ j'.done = 1) :
    mxBlocks 0 8 0 s c j = (t, d, j') ∧ j'.finished = true := by
  have hdiv : j.k / mxKb j.fmt = 1 := by rw [hk, Nat.div_self (mxKb_pos _)]
  have hfin : j'.finished = true := by
    obtain ⟨h1, h2, h3⟩ := hj
    simp [MxJob.finished, h1, h2, h3, hdiv]
  have hnot : j.finished = false := by simp [MxJob.finished, hdone, hdiv, hskip]
  refine ⟨?_, hfin⟩
  rw [mxBlocks, if_neg (ne_true_of_eq_false hnot), h]
  dsimp only
  rw [mxBlocks, if_pos hfin]

/-- What a command that leaves the array leaves behind. -/
theorem mxLeave_leaves (hfo : j.follower = none) (hcr : kvGet s.crews c.crew = some cr) (k : Nat) :
    (mxLeave s k c j).mem = s.mem ∧ (mxLeave s k c j).tags = s.tags ∧ (getCore (mxLeave s k c j) c.core).serving = none ∧
    kvGet (mxLeave s k c j).cmds k = some { c with op := .matrix j, phase := .accessed } ∧
    ∃ cr', kvGet (mxLeave s k c j).crews c.crew = some cr' ∧ cr'.scratch = cr.scratch ∧ cr'.tiles = cr.tiles ∧
      cr'.mxQueue = cr.mxQueue.filter (· != k) := by
  simp only [mxLeave, hfo]
  refine ⟨rfl, rfl, ?_, kvGet_kvSet_same _ _ _, ?_⟩
  · simp [getCore]
  · simp [mxFlag, hcr]

/-- What serving a command of one K-block leaves: the command is finished, and its crew holds the tile that the block makes. -/
theorem mxBlocks_leaves (hcr : kvGet s.crews c.crew = some cr) (hfo : j.follower = none) (hdone : j.done = 0) (hskip : j.skip = false)
    (hbad : j.bad = false) (hwas : c.was = []) (hk : j.k = mxKb j.fmt) :
    ∃ v d j', mxBlocks 0 8 0 s c j = (v, d, j') ∧ j'.finished = true ∧ j'.follower = none ∧ d.crew = c.crew ∧ d.core = c.core ∧
      v.mem = s.mem ∧ v.tags = s.tags ∧ ∃ cr', kvGet v.crews c.crew = some cr' ∧ cr'.scratch = cr.scratch ∧
        cr'.mxQueue = cr.mxQueue ∧ cr'.tiles = (mxStep j cr.tiles cr cr 0).1 := by
  have hkvD : kvD s.crews c.crew {} = cr := by rw [kvD, hcr]; rfl
  obtain ⟨st, hstep⟩ := mxBlockStep_agreeing (s := s) (c := c) hskip hbad hfo
  have hmeet := (mxMeetStep_of_no_was hwas 0 0 (congrArg (·.2.1.was) hstep)).trans hstep
  obtain ⟨hblocks, hfin⟩ := mxBlocks_single hk hdone hskip hmeet ⟨rfl, rfl, congrArg (· + 1) hdone⟩
  refine ⟨_, _, _, hblocks, hfin, hfo, rfl, rfl, ?_⟩
  rw [hkvD, hdone]
  split
  · simp [countPoisoning, hcr]
  · simp [hcr]

/-- A command whose K-blocks are all served leaves the array. -/
theorem mxServeCmd_finishes {core k : Nat} (hc : kvGet s.cmds k = some c) (hop : c.op = .matrix j) (hcore : c.core = core)
    (hph : c.phase = .started) (hpair : c.pair = none) {v : State} {d : Command} {j' : MxJob}
    (hblocks : mxBlocks 0 8 0 s c j = (v, d, j')) (hfin : j'.finished = true) : mxServeCmd s core k 0 = mxLeave v k d j' := by
  rw [mxServeCmd, hc]
  dsimp only
  rw [hop]
  dsimp only
  rw [if_neg (by simp [hcore, hph]), setServing, hpair]
  dsimp only
  rw [hblocks]
  exact if_pos hfin

end

/-- MATRIX_TILE_STEP serves the command that its array is on. -/
theorem exec_matrixTileStep {s : State} {core k : Nat} (h : (getCore s core).serving = some k) (errs : BitVec 32) :
    exec (.matrixTileStep core errs) s = .next (mxServeCmd s core k errs) := by
  change Host.Outcome.next _ = Host.Outcome.next _
  rw [h]

/-- Settles O23: the checks of an issue in their order, and one step of the array. -/
theorem matrixCommands : Obligations.MatrixCommands := by
  unfold Obligations.MatrixCommands
  refine ⟨fun w s x => ?_, fun w s x => ?_, ?_⟩
  · intro enters
    have hent (kind : Nat) (follow : Follow) : enters (.next ((mxIssue x s (mxJob s x w kind).1 (mxJob s x w kind).2.1
        (mxJob s x w kind).2.2 follow).state w)) kind follow := by
      dsimp only [enters]
      refine ⟨fun hacc => ?_, fun hacc hfo => ⟨fun r hr => ?_, fun hr harv ao bo xo ha hb hx hx0 => ?_⟩⟩
      · rw [mxIssue_bound hacc]
        rfl
      · rw [mxIssue_reason hacc (by cases follow <;> exact hfo) hr]
        rfl
      · rw [mxIssue_checked hacc (by cases follow <;> exact hfo) hr harv ha hb hx hx0]
        refine ⟨fun hk hf => ?_, fun hf => ?_, fun hk hf hfar => ⟨fun hfull => ?_, fun hroom => ?_⟩⟩
        · rw [if_pos ⟨hk, hf⟩]
          rfl
        · subst hf
          rw [if_neg nofun, if_pos rfl]
          rfl
        · rw [if_neg fun h => hk h.1 h.2, if_neg hf, if_neg (Follow.fits (by cases follow <;> exact hfar)), if_pos hfull]
          rfl
        · rw [if_neg fun h => hk h.1 h.2, if_neg hf, if_neg (Follow.fits (by cases follow <;> exact hfar)), if_neg (Nat.not_le.2 hroom)]
          obtain ⟨htile, hra, hrb, hfar'⟩ := mxCommand_regions x (mxJob s x w kind).1 (mxJob s x w kind).2.2 follow.entry ao bo xo
          refine ⟨_, rfl, rfl, rfl, ?_, ?_, htile, hra, hrb, ?_, issueCommand_enters w _ x _⟩
          · cases follow <;> rfl
          · cases follow <;> rfl
          · cases follow <;> exact hfar'
    have hgo (kind : Nat) {o : Host.Outcome State Fault Refusal} (hi : o = .next ((mmaBody w kind x s).state w)) (hact : x.act ≠ 0)
        (hheld : mxReserved s x.cr.ctx = false ∨ mxHeld x.cr (kind == 1) = true) :
        enters o kind (if kind = 1 then followerOf s x else .none) := by
      rw [hi, mmaBody_held hact hheld]
      exact hent kind _
    refine ⟨fun hi hact => ⟨fun hres hnot => ?_, hgo 0 (issue_go hi _) hact⟩, fun hi hact => hgo 2 (issue_go hi _) hact,
      fun hi hact => hgo 1 (issue_go hi _) hact⟩
    exact (issue_go hi (mmaBody w 0)).trans (by rw [mmaBody_not_held hact hres hnot]; rfl)
  · intro enters
    have hent (store : Bool) {o : Host.Outcome State Fault Refusal} (ho : o = .next ((tileMoveBody w store x s).state w)) :
        enters o store := by
      dsimp only [enters]
      refine ⟨fun hact => ?_, fun hact hacc hrp hpal haal h14 h0 h13 off hoff => ?_⟩
      · rw [ho, tileMoveBody, if_pos hact]
        exact done_goesOnTo w s x
      · rw [ho, tileMoveBody_enters hact rfl rfl rfl rfl hacc hrp hpal haal h14 h0 h13 hoff]
        refine ⟨_, rfl, rfl, rfl, rfl, ?_, ?_, issueCommand_enters w s x _⟩
        · cases store <;> exact fun k hk => List.mem_map_of_mem hk
        · cases store <;> exact List.mem_cons_self
    exact ⟨fun hi => hent false (issue_go hi _), fun hi => hent true (issue_go hi _)⟩
  · intro core k s c j cr hserving hc hop hcore hph hpair hcr hfo hkind hidx hrows hdone hskip hbad hwas hk
    obtain ⟨v, d, j', hblocks, hfin, hfo', hdcrew, hdcore, hmem, htags, cr1, hcr1, hscr, hq, htiles⟩ :=
      mxBlocks_leaves hcr hfo hdone hskip hbad hwas hk
    obtain ⟨lmem, ltags, lserv, lcmd, cr2, hcr2, lscr, ltiles, lq⟩ := mxLeave_leaves (c := d) hfo' (hdcrew ▸ hcr1) k
    refine ⟨_, _, cr2, (exec_matrixTileStep hserving 0).trans (congrArg _ (mxServeCmd_finishes hc hop hcore hph hpair hblocks hfin)),
      lmem.trans hmem, ltags.trans htags, hcore ▸ hdcore ▸ lserv, lcmd, rfl, hdcrew ▸ hcr2, lscr.trans hscr, lq.trans (by rw [hq]),
      fun e he => ?_, fun hrise r q hr hq' => ?_⟩
    · rw [ltiles, htiles] at he
      exact mem_mxStep he
    · rw [ltiles, htiles, mxStep_tiles hrise hidx hr hq', hrows]

end Sys2Proof.Machine
end

section
/-! The instruction word read back field by field, its bytes, and the decoder against the encoder (R28, R56, R58, R59, R80-R93). -/

namespace Sys2Proof.Machine

/-! ### Lane types and operand fields -/

@[simp] theorem Ty.ofCode_code (t : Ty) : Ty.ofCode (Ty.code t) = t := by cases t <;> rfl

theorem Ty.code_lt (t : Ty) : Ty.code t < 16 := by cases t <;> decide

theorem Ty.code_ofCode {n : Nat} (h : n < 16) : Ty.code (Ty.ofCode n) = n := by interval_cases n <;> rfl

/-- A flag is the field of one bit at its place. -/
theorem ofBool_getLsbD {n : Nat} (v : BitVec n) (k : Nat) : BitVec.ofBool (v.getLsbD k) = v.extractLsb' k 1 := by
  ext i hi
  simp [Nat.lt_one_iff.1 hi]

theorem getLsbD_append_low {n m k : Nat} {x : BitVec n} {y : BitVec m} (h : k < m) : (x ++ y).getLsbD k = y.getLsbD k := by
  rw [BitVec.getLsbD_append, if_pos h]

theorem getLsbD_append_high {n m k : Nat} {x : BitVec n} {y : BitVec m} (h : m ≤ k) :
    (x ++ y).getLsbD k = x.getLsbD (k - m) := by
  rw [BitVec.getLsbD_append, if_neg (Nat.not_lt.2 h)]

@[simp] theorem Operand.ofBits_bits (o : Operand) : Operand.ofBits (Operand.bits o) = o := by
  obtain ⟨f, idx, fep, mod, lsel⟩ := o
  simp (disch := decide) only [Operand.ofBits, Operand.bits, BitVec.extractLsb'_append_eq_of_le,
    BitVec.extractLsb'_append_eq_of_add_le, getLsbD_append_low, getLsbD_append_high]
  cases f <;> simp

@[simp] theorem Operand.bits_ofBits (v : W16) : Operand.bits (Operand.ofBits v) = v := by
  calc Operand.bits (Operand.ofBits v)
      = v.extractLsb' 14 2 ++ (v.extractLsb' 12 2 ++ (v.extractLsb' 11 1 ++ (v.extractLsb' 2 9 ++ v.extractLsb' 0 2))) := by
        simp only [Operand.bits, Operand.ofBits, ofBool_getLsbD]
        generalize v.extractLsb' 0 2 = f
        obtain rfl | rfl | rfl | rfl : f = 0 ∨ f = 1 ∨ f = 2 ∨ f = 3 := by revert f; decide
        all_goals rfl
    _ = v := by simp only [BitVec.extractLsb'_append_extractLsb'_eq_extractLsb', BitVec.extractLsb'_eq_self]

/-! ### Words and fields -/

@[simp] theorem wordOp_toWord (op : BitVec 8) (w : Enc) : wordOp (Enc.toWord op w) = op.toNat := by
  simp (disch := decide) only [wordOp, Enc.toWord, BitVec.extractLsb'_append_eq_of_add_le, BitVec.extractLsb'_eq_self]

@[simp] theorem wordReserved_toWord (op : BitVec 8) (w : Enc) : wordReserved (Enc.toWord op w) = 0 := by
  rw [wordReserved, Enc.toWord, BitVec.extractLsb'_append_eq_left]

/-- The fields of a word come back from it, B and C with a literal as the zero fields they are held as (R58). -/
theorem ofWord_toWord (op : BitVec 8) {w : Enc} (h : literalCanonical w = true) : Enc.ofWord (Enc.toWord op w) = w := by
  obtain ⟨sub, ty, ⟨ga, gan, gb, gbn, gc⟩, ch, d, a, b, c, e, lit, bnd, dly, yh, ph⟩ := w
  have hty : Ty.code ty % 16 = Ty.code ty := Nat.mod_eq_of_lt (Ty.code_lt ty)
  cases lit <;> simp (disch := decide) only [Enc.ofWord, Enc.toWord, BitVec.extractLsb'_append_eq_of_le,
    BitVec.extractLsb'_append_eq_of_add_le, getLsbD_append_low, getLsbD_append_high]
  case none => simp [hty]
  case some v =>
    obtain ⟨rfl, rfl⟩ : b = Operand.zero ∧ c = Operand.zero := by simpa [literalCanonical] using h
    simp [hty]

theorem literalCanonical_ofWord (v : W128) : literalCanonical (Enc.ofWord v) = true := by
  simp only [literalCanonical, Enc.ofWord]
  cases v.getLsbD 29 <;> rfl

/-- A word without reserved bits is its operation code and its fields put together again (R56, R58). -/
theorem toWord_ofWord {v : W128} (h : wordReserved v = 0) : Enc.toWord (BitVec.ofNat 8 (wordOp v)) (Enc.ofWord v) = v := by
  have hres : (0 : BitVec 9) = v.extractLsb' 119 9 := h.symm
  have hop : BitVec.ofNat 8 (wordOp v) = v.extractLsb' 0 8 := by rw [wordOp, BitVec.ofNat_toNat, BitVec.setWidth_eq]
  have hty : BitVec.ofNat 4 (Ty.code (Ty.ofCode (v.extractLsb' 12 4).toNat)) = v.extractLsb' 12 4 := by
    rw [Ty.code_ofCode (BitVec.isLt _), BitVec.ofNat_toNat, BitVec.setWidth_eq]
  have hlit : BitVec.ofBool (if v.getLsbD 29 then some (v.extractLsb' 64 32) else none).isSome = v.extractLsb' 29 1 := by
    rw [← ofBool_getLsbD]
    cases v.getLsbD 29 <;> rfl
  simp only [Enc.toWord, Enc.ofWord, hres, hop, hty, hlit, Operand.bits_ofBits, ofBool_getLsbD]
  cases v.getLsbD 29 <;>
    simp only [Bool.false_eq_true, if_true, if_false, Operand.bits_ofBits,
      BitVec.extractLsb'_append_extractLsb'_eq_extractLsb', BitVec.extractLsb'_eq_self]

/-! ### Operation codes -/

/-- Every instruction of the table is the one of its operation code and fields; rows that share a code are told apart by SUB. -/
theorem opField (i : Instr) : Laws.OpField.Statement i := by
  cases i
  case npregEnter w => exact Laws.OpField.npregEnter w
  case npregLeave w => exact Laws.OpField.npregLeave w
  case trapBrk w => exact Laws.OpField.trapBrk w
  case trapCall w => exact Laws.OpField.trapCall w
  case trapTret w => exact Laws.OpField.trapTret w
  case pmov w => exact Laws.OpField.pmov w
  case pmovSet w => exact Laws.OpField.pmovSet w
  case pfetch w => exact Laws.OpField.pfetch w
  case pfetchZero w => exact Laws.OpField.pfetchZero w
  case candGet w => exact Laws.OpField.candGet w
  case candAccept w => exact Laws.OpField.candAccept w
  case candReject w => exact Laws.OpField.candReject w
  case candTerm w => exact Laws.OpField.candTerm w
  case filtTex w => exact Laws.OpField.filtTex w
  case filtGrid w => exact Laws.OpField.filtGrid w
  all_goals intro _ op w hw; cases hw
  all_goals exact ⟨by decide, rfl⟩

/-- An instruction found under an operation code has that code and the fields it was made with. -/
theorem word?_of_ofOp {op : Nat} {e : Enc} {i : Instr} (h : ofOp op e = some i) : Instr.word? i = some (op, e) := by
  unfold ofOp at h
  repeat' split at h
  all_goals cases h
  all_goals rfl

/-! ### Decoding and encoding -/

theorem wellFormed_iff {i : Instr} {op : Nat} {w : Enc} (hw : Instr.word? i = some (op, w)) :
    WellFormed i = true ↔ literalCanonical w = true ∧ wordLegal i w = true := by
  simp only [WellFormed, hw, Bool.and_eq_true]

theorem encode_of_word? {i : Instr} {op : Nat} {w : Enc} (hw : Instr.word? i = some (op, w)) :
    encode i = some (Enc.toWord (BitVec.ofNat 8 op) w) := by
  simp only [encode, hw]

/-- A word is an instruction when no reserved bit is set, its code and SUB are assigned and R76 has no cause for it. -/
theorem decodeWord_eq_ok {v : W128} {i : Instr} : decodeWord v = .ok i ↔
    wordReserved v = 0 ∧ ofOp (wordOp v) (Enc.ofWord v) = some i ∧ wordLegal i (Enc.ofWord v) = true := by
  rw [wordLegal, Option.isNone_iff_eq_none]
  refine ⟨fun h => ?_, fun ⟨hr, ho, hi⟩ => by simp only [decodeWord, hr, ho, hi, ne_eq, not_true_eq_false, if_false]⟩
  unfold decodeWord at h
  split at h
  · cases h
  next hr =>
    split at h
    · cases h
    next ho =>
      split at h
      next hi =>
        cases h
        exact ⟨not_not.1 hr, ho, hi⟩
      · split at h <;> cases h

theorem decodeWord_of_encode {i : Instr} {v : W128} (hf : WellFormed i = true) (he : encode i = some v) :
    decodeWord v = .ok i := by
  cases hw : Instr.word? i with
  | none => simp only [encode, hw, reduceCtorEq] at he
  | some opw =>
    obtain ⟨op, w⟩ := opw
    obtain ⟨hlt, hop⟩ := opField i hf op w hw
    obtain ⟨hlit, hlegal⟩ := (wellFormed_iff hw).1 hf
    have hop8 : (BitVec.ofNat 8 op).toNat = op := Nat.mod_eq_of_lt hlt
    obtain rfl : Enc.toWord (BitVec.ofNat 8 op) w = v := Option.some.inj ((encode_of_word? hw).symm.trans he)
    rw [decodeWord_eq_ok, wordReserved_toWord, wordOp_toWord, hop8, ofWord_toWord _ hlit]
    exact ⟨rfl, hop, hlegal⟩

theorem wellFormed_encode_of_decodeWord {i : Instr} {v : W128} (h : decodeWord v = .ok i) :
    WellFormed i = true ∧ encode i = some v := by
  obtain ⟨hr, ho, hl⟩ := decodeWord_eq_ok.1 h
  have hw := word?_of_ofOp ho
  exact ⟨(wellFormed_iff hw).2 ⟨literalCanonical_ofWord v, hl⟩, by rw [encode_of_word? hw, toWord_ofWord hr]⟩

/-! ### Bytes -/

theorem leBytes_succ (n v : Nat) : leBytes (n + 1) v = BitVec.ofNat 8 v :: leBytes n (v / 256) := by
  simp [leBytes, List.range_succ_eq_map, Nat.pow_succ', Nat.div_div_eq_div_mul]

@[simp] theorem length_leBytes (n v : Nat) : (leBytes n v).length = n := by simp [leBytes]

theorem leNat_leBytes (n v : Nat) : leNat (leBytes n v) = v % 256 ^ n := by
  induction n generalizing v with
  | zero => simp [leBytes, leNat, Nat.mod_one]
  | succ n ih =>
    calc leNat (leBytes (n + 1) v) = v % 256 + 256 * leNat (leBytes n (v / 256)) := by
          rw [leBytes_succ]; simp [leNat]
      _ = v % 256 ^ (n + 1) := by rw [ih, Nat.pow_succ', Nat.mod_mul]

/-- Sixteen bytes and more decode as the word that the sixteen make (R56). -/
theorem decodeBytes_append {l : List Byte} (h : l.length = 16) (more : List Byte) :
    decodeBytes (l ++ more) = (decodeWord (BitVec.ofNat 128 (leNat l))).map (·, more) := by
  have hlen : ¬ (l ++ more).length < 16 := by rw [List.length_append]; omega
  rw [decodeBytes, if_neg hlen, List.take_left' h, List.drop_left' h]
  cases decodeWord (BitVec.ofNat 128 (leNat l)) <;> rfl

theorem decodeBytes_leBytes (v : W128) (more : List Byte) :
    decodeBytes (leBytes 16 v.toNat ++ more) = (decodeWord v).map (·, more) := by
  have hv : BitVec.ofNat 128 (leNat (leBytes 16 v.toNat)) = v := by
    rw [leNat_leBytes, show 256 ^ 16 = 2 ^ 128 by norm_num, Nat.mod_eq_of_lt v.isLt, BitVec.ofNat_toNat, BitVec.setWidth_eq]
  rw [decodeBytes_append (length_leBytes 16 _), hv]

theorem decodeBytes_truncated {l : List Byte} (h : l.length < 16) : decodeBytes l = .error .truncated := by
  rw [decodeBytes, if_pos h]

/-- Bytes that decode with the rest left over are sixteen, and their word is the instruction's. -/
theorem decodeWord_of_decodeBytes {code more : List Byte} {i : Instr} (h : decodeBytes (code ++ more) = .ok (i, more)) :
    decodeWord (BitVec.ofNat 128 (leNat code)) = .ok i := by
  have hlong : ¬ (code ++ more).length < 16 := fun hlt => by simp only [decodeBytes_truncated hlt, reduceCtorEq] at h
  rw [decodeBytes, if_neg hlong] at h
  split at h
  next hd =>
    obtain ⟨rfl, hmore⟩ := Prod.mk.inj (Except.ok.inj h)
    have hlen : code.length = 16 := by
      have := congrArg List.length hmore
      rw [List.length_drop, List.length_append] at this
      rw [List.length_append] at hlong
      omega
    rwa [List.take_left' hlen] at hd
  · cases h

/-- Settles O53: fields and words are read back from each other, and each operation code with its SUB is one instruction's. -/
theorem decodeEncode : Obligations.DecodeEncode := by
  intro i v rest
  refine ⟨fun hf he => ?_, wellFormed_encode_of_decodeWord, decodeBytes_truncated⟩
  have hd := decodeWord_of_encode hf he
  exact ⟨hd, by rw [decodeBytes_leBytes, hd]; rfl⟩

/-- Settles O54: each word is that of the instruction beside it, which is well-formed. -/
theorem specWordsDecode : Obligations.SpecWordsDecode := by
  unfold Obligations.SpecWordsDecode
  refine ⟨?_, ?_, ?_, ?_, ?_, ?_, ?_, ?_⟩
  all_goals exact decodeWord_of_encode (by decide) rfl

end Sys2Proof.Machine
end

section
/-! The bytes that a fetch reads (R20, R209) and what an issue slot does with them (R74-R76, R95, R141, R406). -/

namespace Sys2Proof.Machine

/-! ### The bytes of a fetch -/

theorem drop_take_eq_map_range {α : Type} (d : α) {l : List α} {o n : Nat} (h : o + n ≤ l.length) :
    (l.drop o).take n = (List.range n).map fun k => l.getD (o + k) d := by
  refine List.ext_getElem (by simp; omega) fun k hk _ => ?_
  have hk' : o + k < l.length := by simp at hk; omega
  simp [List.getElem?_eq_getElem hk']

@[simp] theorem length_codeBytes (s : State) (pa n : Nat) : (codeBytes s pa n).length = n := by simp [codeBytes]

/-- Outside POISON the bytes of code are those at home (R209). -/
theorem codeBytes_of_not_poison {s : State} {pa n : Nat} (h : ∀ k < n, isPoisonTag (homeTag s (pa + k)) = false) :
    codeBytes s pa n = (List.range n).map fun k => homeByte s (pa + k) := by
  refine List.map_congr_left fun k hk => ?_
  simp only [h k (List.mem_range.1 hk), Bool.false_eq_true, if_false]

section
variable {s : State} {core pa : Nat}

theorem readCode_of_uncached (h : kvGet (getCore s core).icache (pa / 64) = none) (ha : pa % 16 = 0) :
    (readCode s core pa 16).2 = (List.range 16).map fun k => (codeBytes s (64 * (pa / 64)) 64).getD (pa % 64 + k) 0 := by
  simp only [readCode, h]
  exact drop_take_eq_map_range 0 (by rw [length_codeBytes]; omega)

theorem readCode_of_cached {b : List Byte} (h : kvGet (getCore s core).icache (pa / 64) = some b) (ha : pa % 16 = 0) :
    (readCode s core pa 16).2 = (List.range 16).map fun k =>
      (staleCode s.tick (pa / 64) b (codeBytes s (64 * (pa / 64)) 64)).getD (pa % 64 + k) 0 := by
  simp only [readCode, h]
  exact drop_take_eq_map_range 0 (by simp [staleCode]; omega)

/-- A block that the instruction cache does not hold is read from memory. -/
theorem readCode_eq_codeBytes (h : kvGet (getCore s core).icache (pa / 64) = none) (ha : pa % 16 = 0)
    (hp : isPoisonTag (homeTag s pa) = false) : (readCode s core pa 16).2 = codeBytes s pa 16 := by
  have htag {a : Nat} (hb : a / 64 = pa / 64) : isPoisonTag (homeTag s a) = false := by
    rwa [homeTag, hb]
  rw [readCode_of_uncached h ha, codeBytes_of_not_poison fun k hk => htag (by omega),
    codeBytes_of_not_poison (pa := pa) fun k hk => htag (by omega)]
  refine List.map_congr_left fun k hk => ?_
  have hk : pa % 64 + k < 64 := by have := List.mem_range.1 hk; omega
  have hpa : 64 * (pa / 64) + (pa % 64 + k) = pa + k := by omega
  simp [hk, hpa]

/-- A byte met where a block is held: the held one where its word's old value is met, else memory's (R209). -/
theorem staleCode_getD {tick blk : Nat} {b home : List Byte} {k : Nat} (hk : k < home.length) :
    (staleCode tick blk b home).getD k 0 =
      if Config.meetsOld tick (2 ^ 100 + 16 * blk + k / 4) then b.getD k (home.getD k 0) else home.getD k 0 := by
  simp only [staleCode, List.getD_eq_getElem?_getD, List.getElem?_map, List.getElem?_zipIdx, List.getElem?_eq_getElem hk,
    Option.map_some, Option.getD_some, Nat.zero_add]
  by_cases h : b[k]?.getD home[k] = home[k]
  · rw [if_pos h, h, ite_self]
  · rw [if_neg h]

/-- Of each aligned 4-byte word of a held block the old or the new bytes are met (R209). -/
theorem readCode_words {b : List Byte} (h : kvGet (getCore s core).icache (pa / 64) = some b) (ha : pa % 16 = 0) :
    ∃ old : Nat → Bool, (readCode s core pa 16).2 = (List.range 16).map fun k =>
      let home := (codeBytes s (64 * (pa / 64)) 64).getD (pa % 64 + k) 0
      if old (k / 4) then b.getD (pa % 64 + k) home else home := by
  refine ⟨fun j => Config.meetsOld s.tick (2 ^ 100 + 16 * (pa / 64) + (pa % 64 / 4 + j)), ?_⟩
  rw [readCode_of_cached h ha]
  refine List.map_congr_left fun k hk => ?_
  have hk : pa % 64 + k < 64 := by have := List.mem_range.1 hk; omega
  have hword : (pa % 64 + k) / 4 = pa % 64 / 4 + k / 4 := by omega
  rw [staleCode_getD (by rwa [length_codeBytes]), hword]

end

/-! ### What an issue slot does with a word -/

theorem step_of_agenda {s : State} {mv : Move} {rest : List Move} (h : s.agenda = mv :: rest) :
    step s = runMove mv (beginStep { s with agenda := rest }) := by
  simp only [step, h]

section
variable {s t : State} {x y : Site} {v : W128} {i : Instr} {op : Nat} {w : Enc}

/-- A word with a cause of R76 is ILLEGAL, over the lanes of the path (log entry 123). -/
theorem checkWord_of_illegal {c : IllegalCause} (h : illegalWord x.width x.wp.n v = some c) : checkWord s x v = .stopped
    (takeTrap s x { code := 0x01, tx := illegalWordTx c x.wp.n, mask := x.act, va := 0 }) := by
  simp only [checkWord, h]

/-- A 24th instruction that does not end its run is RUN_LENGTH (R74). -/
theorem checkWord_of_longRun (h : illegalWord x.width x.wp.n v = none) (hd : decodeWord v = .ok i)
    (hw : Instr.word? i = some (op, w)) (hn : x.rn.files.count = 23) (he : endsRun i w = false) :
    checkWord s x v = .stopped (takeTrap s x { code := 0x07, mask := x.act, va := 0 }) := by
  simp only [checkWord, h, hd, hw, hn, he, Bool.not_false, and_self, if_true]

theorem checkWord_of_admitted (h : illegalWord x.width x.wp.n v = none) (hd : decodeWord v = .ok i)
    (hw : Instr.word? i = some (op, w)) (hn : x.rn.files.count ≠ 23 ∨ endsRun i w = true) : checkWord s x v = .run s i := by
  have hshort : ¬ (x.rn.files.count = 23 ∧ (!endsRun i w) = true) := by
    rw [Bool.not_eq_true', ← Bool.not_eq_true]
    exact fun ⟨h23, hend⟩ => hn.elim (· h23) hend
  simp only [checkWord, h, hd, hw]
  exact if_neg hshort

/-- A warp without rebuild stores whose fetch passes its checks is given the word there. -/
theorem planAt_of_fetch {l a pa : Nat} (hy : siteOf s = some y) (hr : y.pa.rebuild = [])
    (hx : x = { y with act := pathLanes y.wp y.pa })
    (hc : checkLanes s x .fetch 16 [(lowLane x.act, y.pa.pc.toNat)] = .ok t [(l, a, .mem pa)]) :
    planAt s = checkWord (readCode t y.ref.core pa 16).1 x.touched (BitVec.ofNat 128 (leNat (readCode t y.ref.core pa 16).2)) := by
  subst hx
  simp only [planAt, hy, hr, hc, List.isEmpty_nil, Bool.not_true, Bool.false_eq_true, if_false, wordAt]

end

section
variable {s : State} {core part slot : Nat} {r : IssueRef}

theorem runMove_issue_of_stopped {t : State} (hr : slotHolder s core part slot = some r)
    (h : planAt { s with issuing := some r } = .stopped t) : runMove (.issue core part slot) s = .next (finishIssue t) := by
  simp only [runMove, issuePlan, hr, h]

theorem runMove_issue_of_run {t : State} {i : Instr} (hr : slotHolder s core part slot = some r)
    (h : planAt { s with issuing := some r } = .run t i) : runMove (.issue core part slot) s = settle (exec i t) := by
  simp only [runMove, issuePlan, hr, h]

end

/-- Settles O55: the fetch hands the word that it reads to the checks, and each of their branches is one clause. -/
theorem stepRunsDecoded : Obligations.StepRunsDecoded := by
  intro s t rest core part slot l a pa r y i more u x hag hslot hy hreb hfetch m code v
  have hplan : planAt u = checkWord m x.touched v := planAt_of_fetch hy hreb rfl hfetch
  have hstep := step_of_agenda hag
  refine ⟨⟨rfl, rfl, readCode_eq_codeBytes, fun _ => readCode_words⟩, fun c hc => ?_,
    fun hc hdec op w hw => ?_⟩
  · rw [hstep, runMove_issue_of_stopped hslot (hplan.trans (checkWord_of_illegal hc))]
    rfl
  · have hd : decodeWord v = .ok i := decodeWord_of_decodeBytes hdec
    refine ⟨fun hn he => ?_, fun hn => ?_⟩
    · rw [hstep, runMove_issue_of_stopped hslot (hplan.trans (checkWord_of_longRun hc hd hw hn he))]
      rfl
    · have hrun : step s = settle (exec i m) :=
        hstep.trans (runMove_issue_of_run hslot (hplan.trans (checkWord_of_admitted hc hd hw hn)))
      exact ⟨hrun, fun n hn => by rw [hrun, hn]; rfl⟩

end Sys2Proof.Machine
end

section
/-! Atomics at issue (R83, R203, R204, R210-R213): an access that waits in the store queue and what it empties, the answers of ATOM,
RED and ATOMS, and the value of each atomic operation over integers. -/

namespace Sys2Proof.Machine

/-! ### Empty destinations (R70) -/

theorem mem_foldl_setIns {l m : List Nat} {k : Nat} : k ∈ l.foldl setIns m ↔ k ∈ l ∨ k ∈ m := by
  induction l generalizing m with
  | nil => simp
  | cons a l ih => rw [List.foldl_cons, ih, mem_setIns, List.mem_cons]; tauto

theorem mem_mainKeys {r n q l : Nat} {m : Mask} (hl : l < 64) :
    64 * q + l ∈ mainKeys r n m ↔ m.getLsbD l = true ∧ r ≤ q ∧ q < r + n := by
  simp only [mainKeys, List.mem_flatten, List.mem_map, List.mem_range, exists_exists_and_eq_and, mem_lanesOf]
  constructor
  · rintro ⟨k, hk, l', ⟨hl', hm⟩, he⟩
    obtain ⟨rfl, rfl⟩ : q = r + k ∧ l = l' := by omega
    exact ⟨hm, by omega, by omega⟩
  · rintro ⟨hm, hr, hq⟩
    exact ⟨q - r, by omega, l, ⟨hl, hm⟩, by omega⟩

theorem mem_vempty_emptyMain {g : Regs} {r n q l : Nat} {m : Mask} (hl : l < 64) :
    64 * q + l ∈ (g.emptyMain r n m).vempty ↔ 64 * q + l ∈ g.vempty ∨ (m.getLsbD l = true ∧ r ≤ q ∧ q < r + n) := by
  rw [Regs.emptyMain, mem_foldl_setIns, mem_mainKeys hl, or_comm]

theorem mem_sempty_emptyScalar {g : Regs} {r n q : Nat} :
    q ∈ (g.emptyScalar r n).sempty ↔ q ∈ g.sempty ∨ (r ≤ q ∧ q < r + n) := by
  have hfold : (g.emptyScalar r n).sempty = ((List.range n).map (r + ·)).foldl setIns g.sempty := List.foldl_map.symm
  rw [hfold, mem_foldl_setIns, or_comm, List.mem_map]
  refine or_congr_right ⟨?_, fun ⟨hr, hq⟩ => ⟨q - r, List.mem_range.2 (by omega), by omega⟩⟩
  rintro ⟨k, hk, rfl⟩
  have := List.mem_range.1 hk
  omega

theorem emptyDest_emptied (g : Regs) (d : Dest) (m : Mask) : Emptied g (g.emptyDest d m) d m := by
  cases d with
  | none => exact ⟨rfl, rfl, rfl, rfl, ⟨rfl, rfl⟩, ⟨rfl, rfl, rfl, rfl, rfl⟩, rfl⟩
  | main r wide =>
    exact ⟨rfl, rfl, rfl, rfl, ⟨rfl, rfl⟩, ⟨rfl, rfl, rfl, rfl, rfl⟩, rfl, fun _ _ hl => mem_vempty_emptyMain hl⟩
  | scalar r wide =>
    exact ⟨rfl, rfl, rfl, rfl, ⟨rfl, rfl⟩, ⟨rfl, rfl, rfl, rfl, rfl⟩, rfl, fun _ => mem_sempty_emptyScalar⟩

/-! ### Entering the store queue (R204) -/

/-- A site after an access that waits in the store queue: the entry is the queue's last, its destination is empty. -/
def Site.queued (x : Site) (e : StoreEntry) : Site := (x.mapRegs fun r => r.emptyDest e.dst x.act).enqueue e

section
variable (x : Site) (e : StoreEntry) (w : Enc)

@[simp] theorem advance_storeQ : (x.advance w).storeQ = x.wp.storeQ := by
  unfold Site.advance Site.endRun
  split <;> rfl

theorem queued_emptied : Emptied x.wp.regs ((x.queued e).advance w).regs e.dst x.act :=
  advance_regs (x.queued e) w ▸ emptyDest_emptied x.wp.regs e.dst x.act

theorem queued_goesOn : GoesOn w x ((x.queued e).advance w) :=
  (advance_keeps (x.queued e) (x.queued e) w ⟨rfl, rfl, rfl⟩ rfl (keepsWarp_refl _) rfl).2

theorem queued_storeQ : ((x.queued e).advance w).storeQ = x.wp.storeQ ++ [{ e with seq := x.wp.nextSeq, pc := x.tpc }] :=
  advance_storeQ (x.queued e) w

theorem queued_keepsWarp :
    KeepsWarp { x.wp with storeQ := ((x.queued e).advance w).storeQ, nextSeq := x.wp.nextSeq + 1 } ((x.queued e).advance w) := by
  unfold KeepsWarp Site.advance Site.endRun
  split <;> rfl

/-- An access that waits in the store queue has forgotten its touches, and nothing else changed. -/
theorem done_storeQueued (t : State) (locs : List (Nat × Nat × Loc)) (kind : StoreKind) (n : Nat) (dst : Dest) (val new : Nat → Nat) :
    StoreQueued (.next ((Act.done (x.touched.queued
      { kind := kind, width := n, lanes := locs.map fun a => laneAccess a (val a.1) (new a.1), dst := dst }) t).state w)) w x t locs kind n dst val new :=
  ⟨_, _, rfl, queued_goesOn x.touched _ w, queued_emptied x.touched _ w, queued_storeQ x.touched _ w, rfl, rfl, rfl, rfl, rfl,
    queued_keepsWarp x.touched _ w⟩

end

/-! ### ATOM and RED (R210-R213) -/

section
variable {w : Enc} {s t : State} {x : Site} {dst : Dest} {isRed once : Bool} {locs : List (Nat × Nat × Loc)}

/-- Past its checks, with no POISON block in the way, an atomic waits for room in the store queue and enters it. -/
theorem atomBody_checked (hact : x.act ≠ 0) (honce : (Dest.isScalar dst || (isRed && onceForm (.red w) w)) = once)
    (hc : checkLanes s x (.global permAtomic 3) (accessWidth w.ty) (laneAddrs x (addrVA s x w)) = .ok t locs)
    (hp : poisonedLanes t x 3 (accessWidth w.ty) ((if once then locs.take 1 else locs).map fun a =>
      laneAccess a (srcC s x w.ty w a.1) (casNew s x w a.1)) = []) :
    atomBody w dst isRed x s = if x.wp.storeQ.length < 16 then
        .done (x.touched.queued
          { kind := .atomic w.sub.toNat w.ty isRed, width := accessWidth w.ty, dst := dst
            lanes := (if once then locs.take 1 else locs).map fun a => laneAccess a (srcC s x w.ty w a.1) (casNew s x w a.1) }) t
      else .block x t := by
  have hlanes : (if once = true then (locs.map fun a => laneAccess a (storeValue s x w a.1) (casNew s x w a.1)).take 1
        else locs.map fun a => laneAccess a (storeValue s x w a.1) (casNew s x w a.1)) =
      (if once then locs.take 1 else locs).map fun a => laneAccess a (srcC s x w.ty w a.1) (casNew s x w a.1) := by
    cases once
    · rfl
    · exact List.map_take.symm
  simp only [atomBody, if_neg hact, hc, honce, hlanes, hp, queueRoom, Bool.not_eq_true', decide_eq_false_iff_not, ite_not]
  rfl

/-- ATOM and RED go on without a lane, trap where a lane fails its checks, and wait in the store queue or for room in it. -/
theorem atomBody_answers {o : Host.Outcome State Fault Refusal} (ho : o = .next ((atomBody w dst isRed x s).state w))
    (honce : (Dest.isScalar dst || (isRed && onceForm (.red w) w)) = once) :
    let n := accessWidth w.ty
    let checked := checkLanes s x (.global permAtomic 3) n (laneAddrs x (addrVA s x w))
    let taken (locs : List (Nat × Nat × Loc)) := if once then locs.take 1 else locs
    (x.act = 0 → GoesOnTo o w x s) ∧
    (x.act ≠ 0 → ∀ q, checked = .trap q → Traps o s x.touched q) ∧
    (x.act ≠ 0 → ∀ t locs, checked = .ok t locs →
      poisonedLanes t x 3 n ((taken locs).map fun a => laneAccess a (srcC s x w.ty w a.1) (casNew s x w a.1)) = [] →
      (16 ≤ x.wp.storeQ.length → Waits o t x) ∧
      (x.wp.storeQ.length < 16 →
        StoreQueued o w x t (taken locs) (.atomic w.sub.toNat w.ty isRed) n dst (srcC s x w.ty w) (casNew s x w))) := by
  subst ho
  refine ⟨fun hact => ?_, fun hact q hq => ?_, fun hact t locs hc hp => ⟨fun hfull => ?_, fun hroom => ?_⟩⟩
  · rw [atomBody, if_pos hact]
    exact done_goesOnTo w s x
  · simp only [atomBody, if_neg hact, hq]
    rfl
  · rw [atomBody_checked hact honce hc hp, if_neg hfull.not_gt]
    rfl
  · rw [atomBody_checked hact honce hc hp, if_pos hroom]
    exact done_storeQueued x w t _ _ _ _ _ _

end

/-- An aligned atomic that translates lacks its permission in a versioned launch (R212). -/
theorem checkLane_versioned {s : State} {x : Site} {perm n a : Nat} (ha : a % n = 0) (hv : (getLaunch s x.cr.launch).vers = true)
    (hmiss : ∀ tx, translate s (some x.ref.core) x.cr.ctx perm a ≠ .miss tx) :
    checkLane s x (.global perm 3) n a = .fault { order := 3, code := 0x0A, tx := 4 } := by
  have hvers : versioned s x = true := hv
  simp only [checkLane, ha, hvers, bne_self_eq_false, Bool.false_eq_true, if_false, and_self, if_true]
  split
  next tx h => exact absurd h (hmiss tx)
  · rfl
  · rfl

/-! ### ATOMS (R210, R450) -/

theorem exec_atoms (w : Enc) (s : State) : exec (.atoms w) s = execAtoms w s := rfl

section
variable {w : Enc} {s : State} {x : Site} (hi : Issues (.atoms w) w s x)
include hi

theorem atoms_idle (hact : x.act = 0) : GoesOnTo (exec (.atoms w) s) w x s := by
  rw [exec_atoms, execAtoms, issue_go hi, if_pos hact]
  exact done_goesOnTo w s x

theorem atoms_full (hact : x.act ≠ 0) (hfull : 16 ≤ x.wp.storeQ.length) : Waits (exec (.atoms w) s) s x := by
  have hroom : queueRoom x = false := decide_eq_false hfull.not_gt
  rw [exec_atoms, execAtoms, issue_go hi, if_neg hact, hroom]
  rfl

theorem atoms_trap (hact : x.act ≠ 0) (hroom : x.wp.storeQ.length < 16) {q : TrapInfo}
    (hq : checkLanes s x .scratch (accessWidth w.ty) (laneAddrs x (addr32 s x w)) = .trap q) : Traps (exec (.atoms w) s) s x q := by
  have hroom : queueRoom x = true := decide_eq_true hroom
  simp only [exec_atoms, execAtoms, issue_go hi, if_neg hact, hroom, hq]
  rfl

/-- Past its checks, with no poison in the way, ATOMS enters the store queue. -/
theorem atoms_queued (hact : x.act ≠ 0) (hroom : x.wp.storeQ.length < 16) {t : State} {locs : List (Nat × Nat × Loc)}
    {las : List LaneAccess} (hlas : las = locs.map fun a => laneAccess a (srcC s x w.ty w a.1) (casNew s x w a.1))
    (hc : checkLanes s x .scratch (accessWidth w.ty) (laneAddrs x (addr32 s x w)) = .ok t locs)
    (hwait : poisonWaits t x 3 (accessWidth w.ty) las = false) (htrap : poisonTrap t x .scratch 3 (accessWidth w.ty) las = none) :
    exec (.atoms w) s = .next ((Act.done (x.queued
      { kind := .atomic w.sub.toNat w.ty false, width := accessWidth w.ty, dst := destOf w.d (Ty.wide w.ty)
        lanes := if Dest.isScalar (destOf w.d (Ty.wide w.ty)) then las.take 1 else las }) t).state w) := by
  have hroom : queueRoom x = true := decide_eq_true hroom
  subst hlas
  rw [exec_atoms, execAtoms, issue_go hi, if_neg hact, hroom]
  dsimp only
  rw [hc]
  simp only [storeValue, hwait, htrap]
  rfl

end

/-! ### The value of each operation (R83, R210) -/

/-- An element of an element-wise function that stays in the range of the type is the function's value. -/
theorem elemOf_mapElems2 {t : Ty} (ht : t ≠ .b1) (f : Int → Int → Int) (a b i : Nat) (hi : i < (Ty.elem t).count)
    (hlo : elemLo (Ty.elem t) ≤ f (elemOf (Ty.elem t) a i) (elemOf (Ty.elem t) b i))
    (hhi : f (elemOf (Ty.elem t) a i) (elemOf (Ty.elem t) b i) ≤ elemHi (Ty.elem t)) :
    elemOf (Ty.elem t) (mapElems2 (Ty.elem t) 0 f a b) i = f (elemOf (Ty.elem t) a i) (elemOf (Ty.elem t) b i) := by
  refine (elemOf_wrap _ (Nat.zero_lt_of_lt (elem_width_pos t ht)) _ i _ ?_).2.2.2 hlo hhi
  rw [mapElems2, packElems_field _ _ _ (by simpa using hi)]
  simp [hi, resElem, Nat.mod_eq_of_lt (wrapNat_lt _ _)]

/-- A function that picks one of two elements loses nothing. -/
theorem elemOf_mapElems2_pick {t : Ty} (ht : t ≠ .b1) {f : Int → Int → Int} (hf : ∀ u v, f u v = u ∨ f u v = v) (a b : Nat) {i : Nat}
    (hi : i < (Ty.elem t).count) :
    elemOf (Ty.elem t) (mapElems2 (Ty.elem t) 0 f a b) i = f (elemOf (Ty.elem t) a i) (elemOf (Ty.elem t) b i) := by
  have hrange (r : Nat) := elemOf_range (Ty.elem t) (Nat.zero_lt_of_lt (elem_width_pos t ht)) r i
  have hin : elemLo (Ty.elem t) ≤ f (elemOf (Ty.elem t) a i) (elemOf (Ty.elem t) b i) ∧
      f (elemOf (Ty.elem t) a i) (elemOf (Ty.elem t) b i) ≤ elemHi (Ty.elem t) := by
    rcases hf (elemOf (Ty.elem t) a i) (elemOf (Ty.elem t) b i) with h | h
    · rw [h]; exact hrange a
    · rw [h]; exact hrange b
  exact elemOf_mapElems2 ht f a b i hi hin.1 hin.2

/-- The integer types of atomics (R83). -/
theorem atomicNew_integer {t : Ty} (ht : t = .n32 ∨ t = .s32 ∨ t = .n64 ∨ t = .s64) :
    t ≠ .f32 ∧ t ≠ .b1 ∧ 0 < (Ty.elem t).count := by
  rcases ht with rfl | rfl | rfl | rfl <;> decide

/-- Settles O15: each issue clause is the branch of the meaning that its hypotheses choose, and each operation is read off its code. -/
theorem atomicsWaitInQueue : Obligations.AtomicsWaitInQueue := by
  refine ⟨fun w s x => ⟨fun perm a => checkLane_versioned, fun hi => ?_, fun hi => ?_, fun hi => ?_⟩,
    fun p t old x y ht hold hx => ?_⟩
  · exact atomBody_answers (issue_go hi _) (Bool.or_false _)
  · exact atomBody_answers (issue_go hi _) rfl
  · refine ⟨atoms_idle hi, atoms_full hi, fun hact hroom q => atoms_trap hi hact hroom,
      fun hact hroom t locs hc hwait htrap => ⟨_, atoms_queued hi hact hroom rfl hc hwait htrap, ?_⟩⟩
    exact ⟨queued_goesOn x _ w, queued_emptied x _ w, queued_keepsWarp x _ w, _, queued_storeQ x _ w, rfl, rfl, rfl, rfl⟩
  · obtain ⟨hf32, hb1, hone⟩ := atomicNew_integer ht
    refine ⟨if_neg hf32, ?_, ?_, fun k => Nat.testBit_and .., fun k => Nat.testBit_or .., fun k => Nat.testBit_xor .., rfl, rfl, rfl, rfl⟩
    · rw [atomicNew, if_neg hf32]
      exact elemOf_mapElems2_pick hb1 min_choice old x hone
    · rw [atomicNew, if_neg hf32]
      exact elemOf_mapElems2_pick hb1 max_choice old x hone

end Sys2Proof.Machine
end

section
/-! The integer arithmetic of R102-R104, R111, R114 and R115: what each value function gives, and the two results of IDIV. -/

namespace Sys2Proof.Machine

/-! ### The lane types of an instruction (R84-R93) -/

/-- A type admitted by a list of codes without that of b1 is not b1. -/
theorem ne_b1_of_code {t : Ty} {codes : List Nat} (h : codes.contains (Ty.code t) = true) (hc : 15 ∉ codes) : t ≠ .b1 := by
  rintro rfl
  exact hc (List.contains_iff_mem.1 h)

/-- A type admitted by codes of one-element integer types and b32 alone is read at its own width. -/
theorem width_of_code {t : Ty} {codes : List Nat} (h : codes.contains (Ty.code t) = true) (hc : codes ⊆ [0, 1, 2, 3, 14]) :
    srcWidth t = (Ty.elem t).width := by
  have hmem : Ty.code t ∈ [0, 1, 2, 3, 14] := hc (List.contains_iff_mem.1 h)
  exact width_src t (by cases t <;> simp [Ty.code] at hmem ⊢)

/-- A source of a type that is read as one word is below 2^32. -/
theorem srcValue_lt_word {t : Ty} (ht : srcWidth t = 32) (s : State) (x : Site) (o : Operand) (l : Nat) : srcValue s x t o l < 2 ^ 32 :=
  ht ▸ srcValue_lt s x t o l

theorem srcB_lt_word {t : Ty} (ht : srcWidth t = 32) (s : State) (x : Site) (w : Enc) (l : Nat) : srcB s x t w l < 2 ^ 32 :=
  ht ▸ srcB_lt s x t w l (by rintro rfl; cases ht)

/-! ### Element by element (R102-R104) -/

/-- An instruction of one result that is a function of the elements of two sources through res computes it element by element. -/
theorem computes_elementwise {i : Instr} {w : Enc} {wide : Bool} {dmod : Nat} {f : Int → Int → Int} {a b : State → Site → Nat → Nat}
    (ht : w.ty ≠ .b1) (he : ∀ s, exec i s = aluD i w s wide fun x l => mapElems2 (Ty.elem w.ty) dmod f (a s x l) (b s x l)) :
    Computes i w wide fun s x l r => Elementwise w.ty dmod f (a s x l) (b s x l) r :=
  computes_aluD he fun _ _ _ => mapElems2_elementwise w.ty ht dmod f _ _

theorem absV_eq (t : Ty) (dmod a : Nat) : absV t dmod a = mapElems2 (Ty.elem t) dmod (fun x _ => |x|) a 0 := by
  simp only [absV, Int.abs_eq_natAbs]

/-- Settles O1: each value function is its operation on the elements through res. -/
theorem integerElementResults : Obligations.IntegerElementResults := by
  intro w
  refine ⟨fun h => ?_, fun h => ?_, fun h => ?_, fun h => ?_, fun h => ?_, fun h => ?_, fun h => ?_⟩
  all_goals have ht : w.ty ≠ .b1 := ne_b1_of_code (wellFormed_ty rfl h) (by decide)
  · exact computes_elementwise ht fun _ => rfl
  · exact computes_elementwise ht fun _ => rfl
  · exact computes_elementwise ht fun _ => rfl
  · exact computes_elementwise ht fun _ => rfl
  · exact computes_elementwise ht fun _ => rfl
  · exact computes_elementwise ht fun s => congrArg (aluD _ w s _) (funext₂ fun _ _ => absV_eq _ _ _)
  · exact computes_aluD (fun _ => rfl) fun _ _ _ i => mapElems3_holds w.ty ht _ (fun x y z => x * y + z) _ _ _ i

/-! ### The upper half of a product (R103) -/

/-- The upper half of the product of two elements is in the range of their type. -/
theorem upper_product_range {e : Elem} (he : 0 < e.width) {x y : Int} (hx : elemLo e ≤ x ∧ x ≤ elemHi e)
    (hy : elemLo e ≤ y ∧ y ≤ elemHi e) : elemLo e ≤ x * y / 2 ^ e.width ∧ x * y / 2 ^ e.width ≤ elemHi e := by
  have hpos : (0 : Int) < 2 ^ e.width := by positivity
  obtain ⟨hx1, hx2⟩ := hx
  obtain ⟨hy1, hy2⟩ := hy
  rw [Int.le_ediv_iff_mul_le hpos, ← Int.lt_add_one_iff (a := x * y / _), Int.ediv_lt_iff_lt_mul hpos]
  unfold elemLo elemHi at *
  split at hx1
  next hs =>
    have hp : (2 : Int) ^ e.width = 2 * 2 ^ (e.width - 1) := by rw [← pow_succ']; congr 1; omega
    have hq : (0 : Int) < 2 ^ (e.width - 1) := by positivity
    simp only [hs, if_true] at hx2 hy1 hy2 ⊢
    rw [hp]
    generalize (2 : Int) ^ (e.width - 1) = q at *
    have hxy : |x * y| ≤ q * q := by
      rw [abs_mul]
      exact mul_le_mul (abs_le.2 ⟨hx1, by omega⟩) (abs_le.2 ⟨hy1, by omega⟩) (abs_nonneg y) hq.le
    obtain ⟨h1, h2⟩ := abs_le.1 hxy
    constructor <;> nlinarith
  next hs =>
    simp only [hs, Bool.false_eq_true, if_false] at hx2 hy1 hy2 ⊢
    generalize (2 : Int) ^ e.width = q at *
    constructor <;> nlinarith [mul_nonneg hx1 hy1]

/-- IMULH holds the upper half of the exact product. -/
theorem mulhV_upper {t : Ty} (ht : t ≠ .b1) (a b : Nat) : ∃ low : Nat, low < 2 ^ (Ty.elem t).width ∧
    elemOf (Ty.elem t) a 0 * elemOf (Ty.elem t) b 0 =
      2 ^ (Ty.elem t).width * elemOf (Ty.elem t) (mulhV t a b) 0 + low := by
  have hw : 0 < (Ty.elem t).width := Nat.zero_lt_of_lt (elem_width_pos t ht)
  obtain ⟨hlo, hhi⟩ := upper_product_range hw (elemOf_range _ hw a 0) (elemOf_range _ hw b 0)
  refine ⟨wrapNat (Ty.elem t).width (elemOf (Ty.elem t) a 0 * elemOf (Ty.elem t) b 0), wrapNat_lt _ _, ?_⟩
  rw [elemOf_small _ hw (mulhV t a b) (wrapNat_lt _ _) _ rfl hlo hhi, wrapNat_cast, Int.mul_ediv_add_emod]

/-! ### Sums (R102, R104, R111) -/

theorem foldl_add_natCast (l : List Nat) (f : Nat → Nat) :
    ((l.foldl (fun acc i => acc + f i) 0 : Nat) : Int) = (l.map fun i => (f i : Int)).sum := by
  rw [← List.foldl_map (g := (· + ·)), ← List.sum_eq_foldl, Nat.cast_list_sum, List.map_map]
  rfl

/-- ISAD adds the absolute differences of the elements and an n32. -/
theorem sadV_holds (t : Ty) (dmod a b : Nat) {c : Nat} (hc : c < 2 ^ 32) : ElemHolds ⟨1, 32, false⟩ dmod (sadV t dmod a b c) 0
    (((List.range (Ty.elem t).count).map fun i => |elemOf (Ty.elem t) a i - elemOf (Ty.elem t) b i|).sum + c) := by
  have hsum := foldl_add_natCast (List.range (Ty.elem t).count) fun i => (elemOf (Ty.elem t) a i - elemOf (Ty.elem t) b i).natAbs
  simp only [Int.abs_eq_natAbs, ← hsum]
  have := resElem_single ⟨1, 32, false⟩ (by decide) dmod
    (((List.range (Ty.elem t).count).foldl (fun acc i => acc + (elemOf (Ty.elem t) a i - elemOf (Ty.elem t) b i).natAbs) 0 + c : Nat))
  rw [Nat.cast_add] at this
  rwa [sadV, Nat.mod_eq_of_lt hc]

theorem leaV_zmod (k a : Nat) {b : Nat} (hb : b < 2 ^ 32) : (leaV k a b : ZMod (2 ^ 64)) = a + b * 2 ^ k := by
  rw [leaV, Nat.mod_eq_of_lt hb, ZMod.natCast_mod]
  push_cast
  rfl

/-- IADDC: the sum and the carry are the exact sum of both sources and the carry in. -/
theorem addcV_exact {t : Ty} {a b : Nat} (ha : a < 2 ^ (Ty.elem t).width) (hb : b < 2 ^ (Ty.elem t).width) (cin : Bool) :
    (addcV t a b cin).1 < 2 ^ (Ty.elem t).width ∧
    (addcV t a b cin).1 + (addcV t a b cin).2.toNat * 2 ^ (Ty.elem t).width = a + b + cin.toNat := by
  have hcin : (if cin = true then 1 else 0) = cin.toNat := by cases cin <;> rfl
  have hle : cin.toNat ≤ 1 := Bool.toNat_le cin
  simp only [addcV, Nat.mod_eq_of_lt ha, Nat.mod_eq_of_lt hb, hcin]
  refine ⟨Nat.mod_lt _ (by positivity), ?_⟩
  by_cases hs : 2 ^ (Ty.elem t).width ≤ a + b + cin.toNat
  · rw [decide_eq_true hs, Nat.mod_eq_sub_mod hs, Nat.mod_eq_of_lt (by omega)]
    simp only [Bool.toNat_true]
    omega
  · rw [decide_eq_false hs, Nat.mod_eq_of_lt (by omega)]
    simp

/-- ISUBB: the difference less the borrow is the exact difference of both sources and the borrow in. -/
theorem subbV_exact {t : Ty} {a b : Nat} (ha : a < 2 ^ (Ty.elem t).width) (hb : b < 2 ^ (Ty.elem t).width) (cin : Bool) :
    (subbV t a b cin).1 < 2 ^ (Ty.elem t).width ∧
    (subbV t a b cin).1 + b + cin.toNat = a + (subbV t a b cin).2.toNat * 2 ^ (Ty.elem t).width := by
  have hcin : (if cin = true then (1 : Int) else 0) = cin.toNat := by cases cin <;> rfl
  have hle : cin.toNat ≤ 1 := Bool.toNat_le cin
  refine ⟨wrapNat_lt _ _, ?_⟩
  simp only [subbV, Nat.mod_eq_of_lt ha, Nat.mod_eq_of_lt hb, hcin]
  have hcast := wrapNat_cast (Ty.elem t).width ((a : Int) - b - cin.toNat)
  zify at ha hb hle ⊢
  by_cases hs : (a : Int) - b - cin.toNat < 0
  · rw [decide_eq_true hs, hcast, ← Int.add_emod_right, Int.emod_eq_of_lt (by omega) (by omega)]
    simp only [Bool.toNat_true, Nat.cast_one]
    omega
  · rw [decide_eq_false hs, hcast, Int.emod_eq_of_lt (by omega) (by omega)]
    simp only [Bool.toNat_false, Nat.cast_zero]
    omega

/-! ### Division (R115) -/

/-- IDIV: the quotient through res, and the remainder. -/
theorem idivV_spec {t : Ty} (ht : t ≠ .b1) (dmod a b : Nat) :
    let e := Ty.elem t
    let x := elemOf e a 0
    let y := elemOf e b 0
    ElemHolds e dmod (idivV t dmod a b).1 0 (if y = 0 then (if e.signed then -1 else 2 ^ e.width - 1) else x.tdiv y) ∧
    elemOf e (idivV t dmod a b).2 0 = if y = 0 then x else x.tmod y := by
  intro e x y
  have hw : 1 < e.width := elem_width_pos t ht
  have hx := elemOf_range e (Nat.zero_lt_of_lt hw) a 0
  by_cases hy : y = 0
  · have hdiv : idivV t dmod a b = (resElem e dmod (if e.signed then -1 else 2 ^ e.width - 1), wrapNat e.width x) := if_pos hy
    rw [hdiv, if_pos hy, if_pos hy]
    exact ⟨resElem_single e hw dmod _, elemOf_small e (Nat.zero_lt_of_lt hw) _ (wrapNat_lt _ _) _ rfl hx.1 hx.2⟩
  · have hdiv : idivV t dmod a b = (resElem e dmod (x.tdiv y), wrapNat e.width (x - x.tdiv y * y)) := if_neg hy
    have hmod : x - x.tdiv y * y = x.tmod y := by rw [Int.tmod_def, mul_comm]
    rw [hdiv, if_neg hy, if_neg hy, hmod]
    obtain ⟨hlo, hhi⟩ := tmod_range e x y hx
    exact ⟨resElem_single e hw dmod _, elemOf_small e (Nat.zero_lt_of_lt hw) _ (wrapNat_lt _ _) _ rfl hlo hhi⟩

/-- The remainder does not depend on the destination modifier. -/
theorem idivV_snd (t : Ty) (dmod dmod' a b : Nat) : (idivV t dmod a b).2 = (idivV t dmod' a b).2 := by
  simp only [idivV]
  split <;> rfl

/-! ### A result in D and a second one in E (R65) -/

theorem putDst_opf (x : Site) (o : Operand) (wide : Bool) (vals : List (Nat × Nat)) :
    (x.putDst o wide vals).rn.files.opf = (x.writeDst o wide vals).rn.files.opf := by
  unfold Site.putDst
  split
  · rfl
  · exact shiftDst_opf _ o wide

/-- A destination reads as DestWritten says in any warp with the registers and the operand file of its write. -/
theorem writeDst_written {x : Site} {w : Enc} {o : Operand} {wide : Bool} {f : Nat → Nat} {b : Warp}
    (hregs : b.regs = (x.writeDst o wide (x.lanes f)).wp.regs)
    (hrun : w.bnd = false → ∀ r, b.run = some r → r.files.opf = (x.writeDst o wide (x.lanes f)).rn.files.opf) :
    DestWritten x w b o wide f := by
  refine putDst_written x w o wide f b ?_ (putDst_opf x o wide _ ▸ hrun)
  rw [putDst_regs, hregs]
  exact ⟨⟨rfl, rfl, rfl⟩, rfl, rfl, rfl⟩

/-- What is written depends on the registers, the operand file and the active lanes alone. -/
theorem writeDst_congr {x y : Site} (hregs : y.wp.regs = x.wp.regs) (hrn : y.rn = x.rn) (o : Operand) (wide : Bool) (vals : List (Nat × Nat)) :
    (y.writeDst o wide vals).wp.regs = (x.writeDst o wide vals).wp.regs ∧ (y.writeDst o wide vals).rn = (x.writeDst o wide vals).rn := by
  unfold Site.writeDst
  split
  · split
    · exact ⟨hregs, hrn⟩
    · simp only [mapRegs_regs, mapRegs_rn, hregs, hrn, and_self]
  · simp only [mapRegs_regs, mapRegs_rn, hregs, hrn, and_self]
  · simp only [hregs, hrn, and_self]
  · exact ⟨hregs, hrn⟩

theorem writeDst_others (x : Site) (o : Operand) (wide : Bool) (vals : List (Nat × Nat)) :
    PredKept x.wp.regs (x.writeDst o wide vals).wp.regs ∧ FlagsKept x.wp.regs (x.writeDst o wide vals).wp.regs :=
  putDst_regs x o wide vals ▸ putDst_others x o wide vals

/-- A meaning that ends in a site whose registers and operand file are those of a written D and then a written E gives both. -/
theorem givesDE_of {w : Enc} {s : State} {x y m : Site} {wide : Bool} {val snd : Nat → Nat}
    (hm : m = x.writeDst w.d wide (x.lanes val)) (hr : RegsOnly x y)
    (hregs : y.wp.regs = (m.writeDst w.e wide (x.lanes snd)).wp.regs)
    (hopf : y.rn.files.opf = (m.writeDst w.e wide (x.lanes snd)).rn.files.opf) :
    GivesDE (.next ((Act.done y s).state w)) w s x wide val snd := by
  obtain ⟨hkeeps, hgoes⟩ := hr.advance w
  obtain ⟨⟨hp, hpe⟩, hnv, hdz, hof, huf, hnx⟩ := writeDst_others x w.d wide (x.lanes val)
  obtain ⟨⟨gp, gpe⟩, gnv, gdz, gof, guf, gnx⟩ := writeDst_others m w.e wide (x.lanes snd)
  rw [← hm] at hp hpe hnv hdz hof huf hnx
  rw [← hregs] at gp gpe gnv gdz gof guf gnx
  refine ⟨m.advance w, y.advance w, ?_, hkeeps, hgoes, ?_, ?_, ?_⟩
  · simp only [Act.state, Site.put, hr.1]
  · refine writeDst_written (by rw [advance_regs, hm]) fun hb r hrun => ?_
    rw [advance_run _ _ hb] at hrun
    cases hrun
    rw [hm]
  · obtain ⟨hsame, hrn⟩ :=
      writeDst_congr (x := m) (y := { x with wp := m.advance w, rn := m.rn }) (advance_regs m w) rfl w.e wide (x.lanes snd)
    refine writeDst_written (x := { x with wp := m.advance w, rn := m.rn }) ?_ fun hb r hrun => ?_
    · rw [advance_regs, hregs]
      exact hsame.symm
    · rw [advance_run _ _ hb] at hrun
      cases hrun
      exact hopf.trans (congrArg (fun rn => rn.files.opf) hrn.symm)
  · rw [advance_regs]
    exact ⟨⟨gp.trans hp, gpe.trans hpe⟩, gnv.trans hnv, gdz.trans hdz, gof.trans hof, guf.trans huf, gnx.trans hnx⟩

/-- A shift of the last-result file, made or not, writes no register and no entry of the operand file. -/
theorem shiftDst_unless (c : Prop) [Decidable c] (x : Site) (o : Operand) (wide : Bool) :
    RegsOnly x (if c then x else x.shiftDst o wide) ∧ (if c then x else x.shiftDst o wide).wp = x.wp ∧
    (if c then x else x.shiftDst o wide).rn.files.opf = x.rn.files.opf := by
  split
  · exact ⟨.refl x, rfl, rfl⟩
  · exact ⟨regsOnly_shiftDst x o wide, rfl, shiftDst_opf x o wide⟩

/-- IDIV of one result writes D and shifts by it. -/
theorem idiv_gives_one {w : Enc} {s : State} {x : Site} (hi : Issues (.idiv w) w s x) (h2 : w.sub ≠ 2) :
    GivesD (exec (.idiv w) s) w s x (Ty.wide w.ty) fun l => if w.sub = 1
      then (idivV w.ty (if w.sub = 1 then 0 else dMod w) (tA s x w l) (tB s x w l)).2
      else (idivV w.ty (if w.sub = 1 then 0 else dMod w) (tA s x w l) (tB s x w l)).1 := by
  have hexec : exec (.idiv w) s = _ := issue_go hi _
  rw [hexec]
  simp only [onSite, if_neg h2]
  obtain ⟨hr, hwp, hopf⟩ := shiftDst_unless (w.d.file = .scalar) (x.writeDst w.d (Ty.wide w.ty) _) w.d (Ty.wide w.ty)
  exact givesD_of ((regsOnly_writeDst x w.d _ _).trans hr) (congrArg Warp.regs hwp) hopf

/-- IDIV of both results writes D and then E, and shifts by them. -/
theorem idiv_gives_both {w : Enc} {s : State} {x : Site} (hi : Issues (.idiv w) w s x) (h2 : w.sub = 2) :
    GivesDE (exec (.idiv w) s) w s x (Ty.wide w.ty) (fun l => (idivV w.ty (dMod w) (tA s x w l) (tB s x w l)).1)
      fun l => (idivV w.ty (dMod w) (tA s x w l) (tB s x w l)).2 := by
  have h1 : w.sub ≠ 1 := by rw [h2]; decide
  have hexec : exec (.idiv w) s = _ := issue_go hi _
  rw [hexec]
  simp only [onSite, if_pos h2, if_neg h1]
  obtain ⟨hr, hwp, hopf⟩ := shiftDst_unless (w.d.file = .scalar)
    ((x.writeDst w.d (Ty.wide w.ty) _).writeDst w.e (Ty.wide w.ty) _) w.d (Ty.wide w.ty)
  refine givesDE_of rfl ((((regsOnly_writeDst x w.d _ _).trans (regsOnly_writeDst _ w.e _ _)).trans hr).trans
    (regsOnly_shiftDst _ w.e _)) ?_ ((shiftDst_opf _ _ _).trans hopf)
  exact congrArg Warp.regs hwp

/-- Settles O2: the value functions of upper products, sums with carries, conversion and division. -/
theorem integerWideResults : Obligations.IntegerWideResults := by
  refine ⟨fun w => ⟨fun h => ?_, fun h => ?_, fun h => ?_, fun h => ?_, fun h => ?_⟩,
    fun w s x => ⟨fun h hi => ?_, fun h hi => ?_⟩, fun w s x h hi => ?_⟩
  · have ht : w.ty ≠ .b1 := ne_b1_of_code (wellFormed_ty rfl h) (by decide)
    exact computes_aluD (fun _ => rfl) fun _ _ _ => mulhV_upper ht _ _
  · exact computes_aluD (fun _ => rfl) fun _ _ _ => resElem_single ⟨1, 64, _⟩ (show 1 < 64 by decide) _ _
  · exact computes_aluD (fun _ => rfl) fun s x l => sadV_holds _ _ _ _ (srcC_lt s x .n32 w l)
  · exact computes_aluD (fun _ => rfl) fun s x l =>
      ⟨Nat.mod_lt _ (by positivity), leaV_zmod _ _ (srcB_lt s x .n32 w l (by decide))⟩
  · have ht : w.ty ≠ .b1 := ne_b1_of_code (wellFormed_ty rfl h) (by decide)
    exact computes_aluD (fun _ => rfl) fun _ _ _ => resElem_single _ (elem_width_pos _ ht) _ _
  · have hty := wellFormed_ty rfl h
    have hw := width_of_code hty (by decide)
    exact ⟨_, _, issue_dp_gives hi _ _ _, fun l _ => addcV_exact (hw ▸ srcValue_lt s x w.ty w.a l)
      (hw ▸ srcB_lt s x w.ty w l (ne_b1_of_code hty (by decide))) _⟩
  · have hty := wellFormed_ty rfl h
    have hw := width_of_code hty (by decide)
    exact ⟨_, _, issue_dp_gives hi _ _ _, fun l _ => subbV_exact (hw ▸ srcValue_lt s x w.ty w.a l)
      (hw ▸ srcB_lt s x w.ty w l (ne_b1_of_code hty (by decide))) _⟩
  · have ht : w.ty ≠ .b1 := ne_b1_of_code (wellFormed_ty rfl h) (by decide)
    refine ⟨fun l => (idivV w.ty (dMod w) (tA s x w l) (tB s x w l)).1, fun l => (idivV w.ty (dMod w) (tA s x w l) (tB s x w l)).2,
      fun h0 => ?_, fun h1 => ?_, idiv_gives_both hi, fun l _ => ?_⟩
    · have := idiv_gives_one hi (by rw [h0]; decide)
      simpa only [h0, BitVec.reduceEq, if_false] using this
    · have := idiv_gives_one hi (by rw [h1]; decide)
      simpa only [h1, if_true, idivV_snd w.ty 0 (dMod w)] using this
    · obtain ⟨hq, hrem⟩ := idivV_spec ht (dMod w) (tA s x w l) (tB s x w l)
      exact ⟨fun _ => hq, hrem⟩

end Sys2Proof.Machine
end

section
/-! The bit instructions of R106-R110 and R112: the bits of each value function, place by place. -/

namespace Sys2Proof.Machine

/-! ### Logic and shifts (R106, R107) -/

section
variable (t : Ty) (a b c j : Nat)

theorem andV_testBit : (andV t a b).testBit j = (decide (j < (Ty.elem t).width) && (a.testBit j && b.testBit j)) := by
  rw [andV, Nat.testBit_mod_two_pow, Nat.testBit_and]

theorem orV_testBit : (orV t a b).testBit j = (decide (j < (Ty.elem t).width) && (a.testBit j || b.testBit j)) := by
  rw [orV, Nat.testBit_mod_two_pow, Nat.testBit_or]

theorem xorV_testBit : (xorV t a b).testBit j = (decide (j < (Ty.elem t).width) && (a.testBit j ^^ b.testBit j)) := by
  rw [xorV, Nat.testBit_mod_two_pow, Nat.testBit_xor]

theorem andnV_testBit : (andnV t a b).testBit j = (decide (j < (Ty.elem t).width) && (a.testBit j && !b.testBit j)) := by
  rw [andnV, Nat.testBit_mod_two_pow, Nat.testBit_and, testBit_notBits]
  cases decide (j < (Ty.elem t).width)
  · rfl
  · rfl

/-- LOP3 looks each place up in its table. -/
theorem lop3V_testBit (tt : Nat) : (lop3V tt a b c).testBit j =
    (decide (j < 32) && tt.testBit ((a.testBit j).toNat + 2 * (b.testBit j).toNat + 4 * (c.testBit j).toNat)) :=
  (bitSum_spec (fun j => tt.testBit ((a.testBit j).toNat + 2 * (b.testBit j).toNat + 4 * (c.testBit j).toNat)) 32).2 j

theorem shlV_testBit : (shlV t a c).testBit j = (decide (j < (Ty.elem t).width ∧ c ≤ j) && a.testBit (j - c)) := by
  simp only [shlV]
  split
  next h => rw [Nat.zero_testBit, decide_eq_false (by omega), Bool.false_and]
  · rw [Nat.testBit_mod_two_pow, Nat.mul_comm, Nat.testBit_two_pow_mul, Bool.decide_and, Bool.and_assoc]

theorem shrV_testBit : (shrV t a c).testBit j = (decide (j + c < (Ty.elem t).width) && a.testBit (j + c)) := by
  simp only [shrV]
  split
  next h => rw [Nat.zero_testBit, decide_eq_false (by omega), Bool.false_and]
  · rw [Nat.testBit_div_two_pow, Nat.testBit_mod_two_pow]

end

/-- Settles O3: each value function moves or combines bits as its lemma says; a source that is one word is below 2^32. -/
theorem bitwiseResults : Obligations.BitwiseResults := by
  refine ⟨fun w => ⟨fun h => ?_, fun h => ?_, fun h => ?_, fun h => ?_, fun h => ?_⟩,
    fun w => ⟨fun h => ?_, fun h => ?_, fun h => ?_, fun h => ?_, fun h => ?_⟩⟩
  · exact computes_aluD (fun _ => rfl) fun _ _ _ => andV_testBit _ _ _
  · exact computes_aluD (fun _ => rfl) fun _ _ _ => orV_testBit _ _ _
  · exact computes_aluD (fun _ => rfl) fun _ _ _ => xorV_testBit _ _ _
  · exact computes_aluD (fun _ => rfl) fun _ _ _ => andnV_testBit _ _ _
  · exact computes_aluD (fun _ => rfl) fun _ _ _ j => lop3V_testBit _ _ _ j _
  · exact computes_aluD (fun _ => rfl) fun _ _ _ => shlV_testBit _ _ _
  · exact computes_aluD (fun _ => rfl) fun _ _ _ => shrV_testBit _ _ _
  · have hty := wellFormed_ty rfl h
    have hpos := Nat.zero_lt_of_lt (elem_width_pos w.ty (ne_b1_of_code hty (by decide)))
    exact computes_aluD (fun _ => rfl) fun s x l j =>
      sar_testBit _ _ _ _ hpos (width_of_code hty (by decide) ▸ srcValue_lt s x w.ty w.a l)
  · have hty : w.ty = .b32 := eq_of_beq (wellFormed_ty rfl h)
    exact computes_aluD (fun _ => rfl) fun s x l j => rotl_testBit _ _ _ (srcValue_lt_word (hty ▸ rfl) s x w.a l)
  · have hty : w.ty = .b32 := eq_of_beq (wellFormed_ty rfl h)
    refine computes_aluD (fun _ => rfl) fun s x l j => ?_
    have hbits := fshf_testBit (w.sub == 1) (tA s x w l) (tB s x w l) (nC s x w l) j (srcValue_lt_word (hty ▸ rfl) s x w.a l)
      (srcB_lt_word (hty ▸ rfl) s x w l)
    simpa only [beq_iff_eq] using hbits

/-! ### Fields and counts (R108, R109) -/

/-- n32 and s32 are read as one word. -/
theorem word_of_code {t : Ty} (h : [0, 1].contains (Ty.code t) = true) : srcWidth t = 32 := by
  cases t <;> simp [Ty.code, srcWidth] at h ⊢

/-- BFI takes the bits of the field from the inserted value and the others from the base. -/
theorem bfiV_testBit (base ctl ins j : Nat) :
    let pos := ctl % 256
    let len := min (ctl / 256 % 256) 32
    (bfiV base ctl ins).testBit j =
      (decide (j < 32) && if pos ≤ j ∧ j < pos + len then ins.testBit (j - pos) else base.testBit j) :=
  (bitSum_spec (fun j => if ctl % 256 ≤ j ∧ j < ctl % 256 + min (ctl / 256 % 256) 32 then ins.testBit (j - ctl % 256) else base.testBit j)
    32).2 j

theorem foldl_add_toNat (p : Nat → Bool) (l : List Nat) (n : Nat) :
    l.foldl (fun acc j => acc + (p j).toNat) n = n + (l.filter p).length := by
  induction l generalizing n with
  | nil => rfl
  | cons a l ih =>
    rw [List.foldl_cons, ih, List.filter_cons]
    cases p a
    · rfl
    · simp only [Bool.toNat_true, if_true, List.length_cons]
      omega

theorem popcV_eq (t : Ty) (a : Nat) : popcV t a = ((List.range (Ty.elem t).width).filter fun j => a.testBit j).length :=
  (foldl_add_toNat a.testBit _ 0).trans (Nat.zero_add _)

/-! ### Byte permutation (R112) -/

/-- PRMT puts into each byte the byte of the pool that its control byte names, under that control's mode. -/
theorem prmtV_bytes (a b sel : Nat) : prmtV a b sel < 2 ^ 32 ∧ ∀ i, i < 4 →
    let c := sel / 256 ^ i % 256
    let v := if c % 8 < 4 then a / 256 ^ (c % 8) % 256 else b / 256 ^ (c % 8 - 4) % 256
    prmtV a b sel / 256 ^ i % 256 = if c / 8 % 4 = 0 then v else if c / 8 % 4 = 1 then 0
      else if c / 8 % 4 = 2 then 255 else if 128 ≤ v then 255 else 0 := by
  have hpow (k : Nat) : 256 ^ k = 2 ^ (8 * k) := (pow_mul 2 8 k).symm
  obtain ⟨hlt, hbytes⟩ := prmt_spec a b sel
  refine ⟨hlt, fun i hi => ?_⟩
  simp only [hpow] at hbytes ⊢
  exact hbytes i hi

/-- Settles O4: each value function is characterised by its bits or bytes. -/
theorem bitFieldResults : Obligations.BitFieldResults := by
  refine ⟨fun w => ⟨fun h => ?_, fun h => ?_⟩,
    fun w => ⟨fun h => ?_, fun h => ?_, fun h => ?_, fun h => ?_, fun h => ?_, fun h => ?_, fun h => ?_⟩⟩
  · have hw := word_of_code (wellFormed_ty rfl h)
    exact computes_aluD (fun _ => rfl) fun s x l => bfx_spec _ _ _ (srcValue_lt_word hw s x w.a l)
  · exact computes_aluD (fun _ => rfl) fun _ _ _ => bfiV_testBit _ _ _
  · exact computes_aluD (fun _ => rfl) fun _ _ _ => popcV_eq _ _
  · exact computes_aluD (fun _ => rfl) fun s x l => firstBit_spec _ fun j => (tA s x w l).testBit ((Ty.elem w.ty).width - 1 - j)
  · exact computes_aluD (fun _ => rfl) fun s x l => firstBit_spec _ fun j => (tA s x w l).testBit j
  · exact computes_aluD (fun _ => rfl) fun _ _ _ => brev_testBit _ _
  · refine computes_aluD (fun _ => rfl) fun s x l => ?_
    by_cases hsub : w.sub = 1
    · have hthree : (w.sub == 1) = true := beq_iff_eq.2 hsub
      rw [if_pos hsub, if_pos hsub, hthree]
      exact blv3_spec _ _ _
    · have htwo : (w.sub == 1) = false := beq_false_of_ne hsub
      rw [if_neg hsub, if_neg hsub, htwo]
      exact blv2_spec _ _
  · refine computes_aluD (fun _ => rfl) fun s x l i => ?_
    simpa only [beq_iff_eq] using bdlv_testBit (w.sub == 1) (tA s x w l) (nB s x w l) i
  · exact computes_aluD (fun _ => rfl) fun _ _ _ => prmtV_bytes _ _ _

end Sys2Proof.Machine
end

section
/-! Compare, select, move, predicate logic and j masks (R105, R113, R169, R184, R185). -/

namespace Sys2Proof.Machine

/-! ### Compare (R105) -/

/-- ICMP compares the first elements under its condition code. -/
theorem icmpV_eq (t : Ty) (sub : BitVec 4) (p q : Nat) :
    let a := elemOf (Ty.elem t) p 0
    let b := elemOf (Ty.elem t) q 0
    icmpV t sub.toNat p q = if sub = 0 then decide (a = b) else if sub = 1 then decide (a ≠ b) else if sub = 2 then decide (a < b)
      else if sub = 3 then decide (a ≤ b) else if sub = 4 then decide (a > b) else decide (a ≥ b) := by
  intro a b
  simp only [BitVec.toNat_eq, BitVec.reduceToNat]
  generalize sub.toNat = cc
  obtain _ | _ | _ | _ | _ | n := cc
  all_goals rfl

/-! ### Move (R113) -/

theorem maxBits_lt (f : Fmt) : f.maxBits < f.signBit := lt_of_le_of_lt (Nat.sub_le _ _) f.infBits_lt

/-- A destination modifier keeps an encoding, lessens it, or makes it the largest number of its sign. -/
theorem clampF_lt {f : Fmt} {v : Nat} (dmod : Nat) (hv : v < 2 ^ f.bits) : clampF f dmod v < 2 ^ f.bits := by
  have hpos : 0 < 2 ^ f.bits := by positivity
  unfold clampF
  split
  · split
    · exact hpos
    · split_ifs with hneg hone
      · exact hpos
      · exact hone.trans hv
      · exact hv
  · split
    · exact Fmt.signed_lt _ (maxBits_lt f)
    · exact hv
  · exact hv

/-- Fields of n bits added at their places are what is read there. -/
theorem fields_fold (n : Nat) {c : Nat → Nat} (hc : ∀ i, c i < 2 ^ n) (k : Nat) :
    (List.range k).foldl (fun acc i => acc + c i * 2 ^ (n * i)) 0 < 2 ^ (k * n) ∧
    ∀ i, i < k → (List.range k).foldl (fun acc i => acc + c i * 2 ^ (n * i)) 0 / 2 ^ (n * i) % 2 ^ n = c i := by
  induction k with
  | zero => simp
  | succ k ih =>
    obtain ⟨hlt, hfield⟩ := ih
    rw [List.range_succ, List.foldl_append, List.foldl_cons, List.foldl_nil]
    generalize (List.range k).foldl (fun acc i => acc + c i * 2 ^ (n * i)) 0 = v at *
    rw [mul_comm k n] at hlt
    refine ⟨?_, fun i hi => ?_⟩
    · calc v + c k * 2 ^ (n * k) < (c k + 1) * 2 ^ (n * k) := by rw [Nat.succ_mul]; omega
        _ ≤ 2 ^ n * 2 ^ (n * k) := Nat.mul_le_mul_right _ (hc k)
        _ = 2 ^ ((k + 1) * n) := by rw [← pow_add]; congr 1; ring
    · obtain rfl | hik := Nat.eq_or_lt_of_le (Nat.le_of_lt_succ hi)
      · rw [Nat.add_mul_div_right _ _ (by positivity), Nat.div_eq_of_lt hlt, Nat.zero_add, Nat.mod_eq_of_lt (hc _)]
      · obtain ⟨d, rfl⟩ := Nat.exists_eq_add_of_lt hik
        have hsplit : c (i + d + 1) * 2 ^ (n * (i + d + 1)) = 2 ^ n * (c (i + d + 1) * 2 ^ (n * d)) * 2 ^ (n * i) := by
          rw [show n * (i + d + 1) = n + n * d + n * i by ring, pow_add, pow_add]
          ring
        rw [hsplit, Nat.add_mul_div_right _ _ (by positivity), Nat.add_mul_mod_self_left, hfield i hik]

theorem fpMap_fst (t : Ty) (dmod : Nat) (g : Nat → Nat × FFlags) : (fpMap t dmod g).1 =
    (List.range (fpCount t)).foldl (fun acc i => acc + clampF (Ty.fmt t) dmod (g i).1 * 2 ^ ((Ty.fmt t).bits * i)) 0 :=
  (List.foldl_hom Prod.fst fun _ _ => rfl).symm

/-- A floating-point move clamps each element. -/
theorem movV_fp {t : Ty} (ht : Ty.isFp t = true) (dmod v : Nat) : movV t dmod v < 2 ^ (fpCount t * (Ty.fmt t).bits) ∧
    ∀ i, i < fpCount t → fpElem t (movV t dmod v) i = clampF (Ty.fmt t) dmod (fpElem t v i) := by
  have hmov : movV t dmod v = _ := (if_pos ht).trans (fpMap_fst t dmod _)
  rw [hmov]
  exact fields_fold (Ty.fmt t).bits (fun i => clampF_lt dmod (Nat.mod_lt _ (by positivity))) (fpCount t)

/-! ### Predicate destinations (R72, R184, R185) -/

section
variable {w : Enc} {s : State} {x : Site} {f : Nat → Bool}

/-- A predicate destination takes in each active lane the bit of the mask that is written. -/
theorem putPred_mask_written {o : Operand} {v : Mask} {b : Warp} (ha : x.act ≠ 0)
    (hv : ∀ l, l < x.width → x.act.getLsbD l = true → v.getLsbD l = f l) (hb : b.regs = (x.putPred o v).wp.regs) :
    PredWritten x b o f := by
  have hp : b.regs.p = kvSet x.wp.regs.p o.idx.toNat (maskMerge x.act v (kvD x.wp.regs.p o.idx.toNat 0)) := hb ▸ rfl
  have he : b.regs.pempty = setDel x.wp.regs.pempty o.idx.toNat := hb ▸ rfl
  rw [PredWritten, if_neg ha]
  refine ⟨fun l hl hm => ?_, fun l hm => ?_, ?_, fun r hr => ⟨?_, ?_⟩⟩
  · rw [Regs.pmask, hp, kvD_kvSet_same, maskMerge_getLsbD, if_pos hm, hv l hl hm]
  · rw [Regs.pmask, hp, kvD_kvSet_same, maskMerge_getLsbD, hm]
    rfl
  · rw [he, mem_setDel]
    exact fun h => h.2 rfl
  · rw [Regs.pmask, hp, kvD_kvSet_ne hr]
    rfl
  · rw [he, mem_setDel]
    exact and_iff_left hr

/-- Writing a predicate or j mask touches no other file. -/
theorem putPred_others (o : Operand) (v : Mask) : MainKept x.wp.regs (x.putPred o v).wp.regs ∧
    ScalarKept x.wp.regs (x.putPred o v).wp.regs ∧ FlagsKept x.wp.regs (x.putPred o v).wp.regs :=
  ⟨⟨rfl, rfl, rfl⟩, ⟨rfl, rfl, rfl⟩, rfl, rfl, rfl, rfl, rfl⟩

/-- Without an active lane a predicate destination stands. -/
theorem idle_predWritten (ha : x.act = 0) (o : Operand) : PredWritten x (x.advance w) o f := by
  rw [PredWritten, if_pos ha, advance_regs]
  exact ⟨rfl, rfl⟩

/-- A meaning that writes a mask to D where a lane is active gives the predicate. -/
theorem putPred_gives {v : Mask} (hv : ∀ l, l < x.width → x.act.getLsbD l = true → v.getLsbD l = f l) :
    GivesP (.next ((Act.done (if x.act = 0 then x else x.putPred w.d v) s).state w)) w s x f := by
  by_cases ha : x.act = 0
  · rw [if_pos ha]
    obtain ⟨hkeeps, hgoes⟩ := (RegsOnly.refl x).advance w
    refine ⟨x.advance w, rfl, hkeeps, hgoes, idle_predWritten ha w.d, ?_⟩
    rw [advance_regs]
    exact ⟨⟨rfl, rfl, rfl⟩, ⟨rfl, rfl, rfl⟩, rfl, rfl, rfl, rfl, rfl⟩
  · rw [if_neg ha]
    obtain ⟨hkeeps, hgoes⟩ := (regsOnly_putPred x w.d v).advance w
    refine ⟨(x.putPred w.d v).advance w, rfl, hkeeps, hgoes, putPred_mask_written ha hv (advance_regs _ _), ?_⟩
    rw [advance_regs]
    exact putPred_others w.d v

/-- A meaning that writes a predicate or a j mask gives it, and tests JOIN and JWAIT after a j mask. -/
theorem predBody_gives {v : Site → State → Mask} (hv : ∀ l, l < x.width → x.act.getLsbD l = true → (v x s).getLsbD l = f l) :
    GivesPJ (.next ((predBody w v x s).state w)) w s x f := by
  by_cases ha : x.act = 0
  · obtain ⟨hkeeps, hgoes⟩ := (RegsOnly.refl x).advance w
    refine ⟨x.advance w, ?_, hkeeps, hgoes, idle_predWritten ha w.d, ?_⟩
    · rw [predBody, if_pos ha, if_neg fun h => h.1 ha]
      rfl
    · rw [advance_regs]
      exact ⟨⟨rfl, rfl, rfl⟩, ⟨rfl, rfl, rfl⟩, rfl, rfl, rfl, rfl, rfl⟩
  · obtain ⟨hkeeps, hgoes⟩ := (regsOnly_putPred x w.d (v x s)).advance w
    refine ⟨(x.putPred w.d (v x s)).advance w, ?_, hkeeps, hgoes, putPred_mask_written ha hv (advance_regs _ _), ?_⟩
    · by_cases hj : 16 ≤ w.d.idx.toNat
      · simp only [predBody, if_neg ha, if_pos hj, if_pos (And.intro ha hj)]
        rfl
      · simp only [predBody, if_neg ha, if_neg hj, if_neg fun h : _ ∧ _ => hj h.2]
        rfl
    · rw [advance_regs]
      exact putPred_others w.d (v x s)

end

theorem predSrcMask_getLsbD (x : Site) (o : Operand) {l : Nat} (hl : l < x.width) (h64 : l < 64) :
    (predSrcMask x o).getLsbD l = predValue x o l := by
  simp only [predSrcMask, predValue, BitVec.getLsbD_and, maskBelow_getLsbD _ _ h64, hl, decide_true, Bool.and_true]
  split
  · simp [h64]
  · rfl

theorem pmovMask_getLsbD (s : State) (x : Site) (o : Operand) {l : Nat} (h64 : l < 64) :
    (pmovMask s x o).getLsbD l = ((rawValue s x .n64 (x.width == 64) o 0).testBit l ^^ o.mod == 1) := by
  have hraw : (BitVec.ofNat 64 (rawValue s x .n64 (x.width == 64) o 0)).getLsbD l = (rawValue s x .n64 (x.width == 64) o 0).testBit l := by
    rw [BitVec.getLsbD_ofNat, decide_eq_true h64, Bool.true_and]
  simp only [pmovMask, Site.maskWide]
  split
  next h => rw [BitVec.getLsbD_not, hraw, decide_eq_true h64, Bool.true_and, beq_iff_eq.2 h, Bool.xor_true]
  next h => rw [hraw, beq_false_of_ne h, Bool.xor_false]

/-- PLOP gives the conjunction, the disjunction, the exclusive or, or A without B. -/
theorem plop_gives {w : Enc} {s : State} {x : Site} (hi : Issues (.plop w) w s x) : GivesPJ (exec (.plop w) s) w s x fun l =>
    let a := predValue x w.a l
    let b := predValue x w.b l
    if w.sub = 0 then a && b else if w.sub = 1 then a || b else if w.sub = 2 then a ^^ b else a && !b := by
  have hexec : exec (.plop w) s = _ := issue_go hi _
  rw [hexec]
  refine predBody_gives fun l hl hm => ?_
  have h64 : l < 64 := lt_of_getLsbD hm
  simp only [BitVec.toNat_eq, BitVec.reduceToNat, ← predSrcMask_getLsbD x _ hl h64]
  generalize w.sub.toNat = n
  obtain _ | _ | _ | n := n
  · exact BitVec.getLsbD_and
  · exact BitVec.getLsbD_or
  · exact BitVec.getLsbD_xor
  · simp [h64]

/-! ### JSAVE (R169) -/

theorem maskMerge_all (new old : Mask) : maskMerge (~~~0) new old = new := by
  refine BitVec.eq_of_getLsbD_eq fun l hl => ?_
  have hzero : (0 : Mask).getLsbD l = false := BitVec.getLsbD_zero
  rw [maskMerge_getLsbD, BitVec.getLsbD_not, hzero, decide_eq_true hl]
  rfl

/-- JSAVE makes its j mask the set of active lanes. -/
theorem jsave_saves {w : Enc} {s : State} {x : Site} (hi : Issues (.jsave w) w s x) : ∃ b, exec (.jsave w) s =
      .next (setWarp s x.ref.crew x.ref.warp (settlePaths b)) ∧ KeepsWarp x.wp b ∧ GoesOn w x b ∧
    b.regs.pmask w.d.idx.toNat = x.act ∧ (∀ r, r ≠ w.d.idx.toNat → b.regs.pmask r = x.wp.regs.pmask r) ∧
    MainKept x.wp.regs b.regs ∧ ScalarKept x.wp.regs b.regs ∧ FlagsKept x.wp.regs b.regs := by
  obtain ⟨hkeeps, hgoes⟩ := (regsOnly_mapRegs x fun r => r.putPred w.d.idx.toNat (~~~0) x.act).advance w
  have hexec : exec (.jsave w) s = execJsave w s := rfl
  refine ⟨(x.mapRegs fun r => r.putPred w.d.idx.toNat (~~~0) x.act).advance w, ?_, hkeeps, hgoes, ?_⟩
  · rw [hexec, execJsave, issue_go hi]
    rfl
  rw [advance_regs]
  refine ⟨?_, fun r hr => kvD_kvSet_ne hr, ⟨rfl, rfl, rfl⟩, ⟨rfl, rfl, rfl⟩, rfl, rfl, rfl, rfl, rfl⟩
  exact (kvD_kvSet_same _ _ _ _).trans (maskMerge_all _ _)

/-- Settles O5: values of compare, select and move, and the masks that predicate and j destinations take. -/
theorem selectAndPredicateResults : Obligations.SelectAndPredicateResults := by
  refine ⟨fun w => ⟨fun h s x hi => ?_, fun h => ?_, fun h => ?_, fun h => ?_⟩,
    fun w s x => ⟨fun h hi => ?_, fun h hi => ?_, fun h hi => ?_, fun h hi => ?_⟩⟩
  · have hgives : GivesP (exec (.icmp w) s) w s x _ := aluP_gives hi fun x l => icmpV w.ty w.sub.toNat (tA s x w l) (tB s x w l)
    simpa only [icmpV_eq] using hgives
  · exact computes_aluD (fun _ => rfl) fun _ _ _ => rfl
  · refine computes_aluD (fun _ => rfl) fun s x l => ?_
    split
    next hfp => exact movV_fp hfp _ _
    next hfp =>
      intro ht
      have hmov : movV w.ty (dMod w) (tA s x w l) = _ := if_neg hfp
      exact hmov ▸ mapElems2_elementwise w.ty ht _ _ _ _
  · refine computes_aluD (fun _ => rfl) fun s x l v hv => ?_
    simp only [hv, Option.getD_some]
  · exact plop_gives hi
  · have hexec : exec (.pmovSet w) s = _ := issue_go hi _
    exact hexec ▸ predBody_gives fun l _ hm => pmovMask_getLsbD s x w.a (lt_of_getLsbD hm)
  · have hexec : exec (.elect w) s = _ := issue_go hi _
    exact hexec ▸ putPred_gives fun l _ hm => laneBit_getLsbD _ _ (lt_of_getLsbD hm)
  · exact jsave_saves hi

end Sys2Proof.Machine
end

section
/-! The floating-point instructions (R117, R120-R132, R134-R136): flags raised beside a result or a predicate, the types that fill one
register, the fields that a well-formed word names for D, and the three registers of a triple. -/

namespace Sys2Proof.Machine

/-! ### What is kept twice is kept -/

theorem MainKept.trans {a b c : Regs} (h : MainKept a b) (g : MainKept b c) : MainKept a c := by
  obtain ⟨hv, hempty, hpoison⟩ := h
  obtain ⟨gv, gempty, gpoison⟩ := g
  exact ⟨gv.trans hv, gempty.trans hempty, gpoison.trans hpoison⟩

theorem ScalarKept.trans {a b c : Regs} (h : ScalarKept a b) (g : ScalarKept b c) : ScalarKept a c := by
  obtain ⟨hs, hempty, hpoison⟩ := h
  obtain ⟨gs, gempty, gpoison⟩ := g
  exact ⟨gs.trans hs, gempty.trans hempty, gpoison.trans hpoison⟩

theorem PredKept.trans {a b c : Regs} (h : PredKept a b) (g : PredKept b c) : PredKept a c := by
  obtain ⟨hp, hempty⟩ := h
  obtain ⟨gp, gempty⟩ := g
  exact ⟨gp.trans hp, gempty.trans hempty⟩

theorem FlagsKept.trans {a b c : Regs} (h : FlagsKept a b) (g : FlagsKept b c) : FlagsKept a c := by
  obtain ⟨hnv, hdz, hof, huf, hnx⟩ := h
  obtain ⟨gnv, gdz, gof, guf, gnx⟩ := g
  exact ⟨gnv.trans hnv, gdz.trans hdz, gof.trans hof, guf.trans huf, gnx.trans hnx⟩

/-! ### Flags raised (R42) -/

section
variable {w : Enc} {s : State} {x : Site}

/-- The state after a meaning that wrote registers and run files alone. -/
theorem RegsOnly.done_state {y : Site} (h : RegsOnly x y) (w : Enc) (s : State) :
    (Act.done y s).state w = setWarp s x.ref.crew x.ref.warp (y.advance w) := by
  obtain ⟨href, -⟩ := h
  simp only [Act.state, Site.put, href]

/-- Flags ored in over the active lanes, after writes that keep the flags, are raised. -/
theorem flagFold_flagsRaised {b : Warp} {g : Regs} {f : Nat → FFlags} (hg : FlagsKept x.wp.regs g)
    (hb : b.regs = flagFold g (lanesOf x.act) f) : FlagsRaised x b f := by
  obtain ⟨hnv, hdz, hof, huf, hnx⟩ := hg
  intro l hl
  rw [hb, ← hnv, ← hdz, ← hof, ← huf, ← hnx]
  exact flagFold_raised g x.act f l hl

/-- A result that leaves the flags is one that raises none. -/
theorem GivesD.givesF {o : Host.Outcome State Fault Refusal} {wide : Bool} {val : Nat → Nat} (h : GivesD o w s x wide val) :
    GivesF o w s x wide fun l => (val l, .none) := by
  obtain ⟨b, ho, hkeeps, hgoes, hdst, hpred, hnv, hdz, hof, huf, hnx⟩ := h
  refine ⟨b, ho, hkeeps, hgoes, hdst, hpred, fun l _ => ?_⟩
  simp [hnv, hdz, hof, huf, hnx, FFlags.none]

/-- A meaning that writes D and then ors in the flags of the active lanes gives the result and raises the flags. -/
theorem putDst_raised_gives (wide : Bool) (r : Nat → Nat × FFlags) :
    GivesF (.next ((Act.done ((x.putDst w.d wide (x.lanes fun l => (r l).1)).mapRegs fun g =>
      flagFold g (lanesOf x.act) fun l => (r l).2) s).state w)) w s x wide r := by
  have hr := (regsOnly_putDst x w.d wide (x.lanes fun l => (r l).1)).trans
    (regsOnly_mapRegs _ fun g => flagFold g (lanesOf x.act) fun l => (r l).2)
  obtain ⟨hkeeps, hgoes⟩ := hr.advance w
  obtain ⟨hpred, hflags⟩ := putDst_others x w.d wide (x.lanes fun l => (r l).1)
  obtain ⟨fmain, fscal, fpred⟩ :=
    flagFold_others (x.putDst w.d wide (x.lanes fun l => (r l).1)).wp.regs (lanesOf x.act) fun l => (r l).2
  refine ⟨_, congrArg _ (hr.done_state w s), hkeeps, hgoes, ?_, ?_, flagFold_flagsRaised hflags (advance_regs _ w)⟩
  · refine putDst_written x w w.d wide _ _ ?_ fun hb q hrun => ?_
    · rw [advance_regs]
      exact ⟨fmain, fscal⟩
    · rw [advance_run _ _ hb] at hrun
      cases hrun
      rfl
  · rw [advance_regs]
    exact hpred.trans fpred

/-! ### Results of one register (R28, R84-R93) -/

/-- A type admitted by codes without those of n64 and s64 fills one register. -/
theorem not_wide_of_code {t : Ty} {codes : List Nat} (h : codes.contains (Ty.code t) = true) (hc : 2 ∉ codes ∧ 3 ∉ codes) :
    Ty.wide t = false := by
  have hmem : Ty.code t ∈ codes := List.contains_iff_mem.1 h
  cases t
  case n64 => exact absurd hmem hc.1
  case s64 => exact absurd hmem hc.2
  all_goals rfl

/-- A floating-point instruction of the shared shape, of a type that fills one register, gives its result and raises its flags. -/
theorem fpuD_gives_of_code {i : Instr} {codes : List Nat} (h : codes.contains (Ty.code w.ty) = true) (hc : 2 ∉ codes ∧ 3 ∉ codes)
    (hi : Issues i w s x) (f : Site → Nat → Nat × FFlags) : GivesF (fpuD i w s f) w s x (Ty.wide w.ty) (f x) :=
  not_wide_of_code h hc ▸ fpuD_gives hi f

/-- FCVT gives its value: its types, f32 or a pair or half of 16 bits, all fill one register. -/
theorem fcvt_gives (h : WellFormed (.fcvt w) = true) (hi : Issues (.fcvt w) w s x) :
    GivesF (exec (.fcvt w) s) w s x (Ty.wide w.ty) fun l =>
      fcvtV x.prof w.ty w.sub.toNat (dMod w) (srcValue s x (fcvtSource w) w.a l)
        (if w.ty = .f16x2 ∨ w.ty = .bf16x2 then srcB s x .f32 w l else 0) := by
  have hwide : Ty.wide w.ty = false := by
    by_cases ht : w.ty = .f32
    · rw [ht]
      rfl
    · have hty : tyOk (.fcvt w) = true := wellFormed_ty rfl h
      rw [tyOk, if_neg ht, Bool.and_eq_true] at hty
      exact not_wide_of_code hty.1 (by decide)
  exact hwide ▸ fpuD_gives hi _

/-- FCLASS gives the class of its source and raises no flag. -/
theorem fclass_gives (h : WellFormed (.fclass w) = true) (hi : Issues (.fclass w) w s x) :
    GivesF (exec (.fclass w) s) w s x (Ty.wide w.ty) fun l => (fclassE (Ty.fmt w.ty) (tA s x w l), .none) := by
  rw [not_wide_of_code (wellFormed_ty rfl h) (by decide)]
  exact (aluD_gives hi false fun x l => fclassE (Ty.fmt w.ty) (tA s x w l)).givesF

/-- F2I gives its integer, one register or a pair, and raises its flags. -/
theorem f2i_gives (hi : Issues (.f2i w) w s x) : GivesF (exec (.f2i w) s) w s x (Ty.wide w.ty) fun l =>
    f2iV x.prof w.ty w.sub.toNat (srcValue s x (if 8 ≤ w.sub.toNat then .f16 else .f32) w.a l) := by
  have hexec : exec (.f2i w) s = _ := issue_go hi _
  exact hexec ▸ putDst_raised_gives (Ty.wide w.ty) _

/-! ### FCMP and FLGCLR (R125, R134) -/

/-- A meaning that writes a mask to D and ors in flags, where a lane is active, gives the predicate and raises the flags. -/
theorem putPred_raised_gives (r : Nat → Bool × FFlags) :
    ∃ b, Host.Outcome.next ((Act.done (if x.act = 0 then x else
        (x.putPred w.d (maskWhere x.width fun l => (r l).1)).mapRegs fun g => flagFold g (lanesOf x.act) fun l => (r l).2) s).state w) =
        (.next (setWarp s x.ref.crew x.ref.warp b) : Host.Outcome State Fault Refusal) ∧ KeepsWarp x.wp b ∧ GoesOn w x b ∧
      MainKept x.wp.regs b.regs ∧ ScalarKept x.wp.regs b.regs ∧
      (PredWritten x b w.d fun l => (r l).1) ∧ FlagsRaised x b fun l => (r l).2 := by
  by_cases ha : x.act = 0
  · rw [if_pos ha]
    obtain ⟨hkeeps, hgoes⟩ := (RegsOnly.refl x).advance w
    have hnone : (x.advance w).regs = flagFold x.wp.regs (lanesOf x.act) fun l => (r l).2 := by
      rw [advance_regs, ha, lanesOf_zero]
      rfl
    refine ⟨_, congrArg _ ((RegsOnly.refl x).done_state w s), hkeeps, hgoes, ?_, ?_, idle_predWritten ha w.d,
      flagFold_flagsRaised ⟨rfl, rfl, rfl, rfl, rfl⟩ hnone⟩
    · rw [advance_regs]
      exact ⟨rfl, rfl, rfl⟩
    · rw [advance_regs]
      exact ⟨rfl, rfl, rfl⟩
  · rw [if_neg ha]
    have hr := (regsOnly_putPred x w.d (maskWhere x.width fun l => (r l).1)).trans
      (regsOnly_mapRegs _ fun g => flagFold g (lanesOf x.act) fun l => (r l).2)
    obtain ⟨hkeeps, hgoes⟩ := hr.advance w
    obtain ⟨hmain, hscal, hflags⟩ := putPred_others (x := x) w.d (maskWhere x.width fun l => (r l).1)
    obtain ⟨fmain, fscal, fpred⟩ :=
      flagFold_others (x.putPred w.d (maskWhere x.width fun l => (r l).1)).wp.regs (lanesOf x.act) fun l => (r l).2
    refine ⟨_, congrArg _ (hr.done_state w s), hkeeps, hgoes, ?_, ?_, putPred_written x w.d _ _ ha ?_,
      flagFold_flagsRaised hflags (advance_regs _ w)⟩
    · rw [advance_regs]
      exact hmain.trans fmain
    · rw [advance_regs]
      exact hscal.trans fscal
    · rw [advance_regs]
      exact fpred

/-- Registers without the flags of k (bit 0 to 4: f.nv, f.dz, f.of, f.uf, f.nx) in the lanes of m. -/
def Regs.clearFlags (r : Regs) (k : Nat) (m : Mask) : Regs :=
  let clear (i : Nat) (f : Mask) : Mask := if k.testBit i then f &&& ~~~m else f
  { r with fnv := clear 0 r.fnv, fdz := clear 1 r.fdz, fof := clear 2 r.fof, fuf := clear 3 r.fuf, fnx := clear 4 r.fnx }

theorem clearFlags_getLsbD (r : Regs) (k : Nat) (m : Mask) {l : Nat} (hl : l < 64) :
    (r.clearFlags k m).fnv.getLsbD l = (r.fnv.getLsbD l && !(k.testBit 0 && m.getLsbD l)) ∧
    (r.clearFlags k m).fdz.getLsbD l = (r.fdz.getLsbD l && !(k.testBit 1 && m.getLsbD l)) ∧
    (r.clearFlags k m).fof.getLsbD l = (r.fof.getLsbD l && !(k.testBit 2 && m.getLsbD l)) ∧
    (r.clearFlags k m).fuf.getLsbD l = (r.fuf.getLsbD l && !(k.testBit 3 && m.getLsbD l)) ∧
    (r.clearFlags k m).fnx.getLsbD l = (r.fnx.getLsbD l && !(k.testBit 4 && m.getLsbD l)) := by
  have hclear (c : Bool) (f : Mask) : (if c then f &&& ~~~m else f).getLsbD l = (f.getLsbD l && !(c && m.getLsbD l)) := by
    cases c <;> simp [hl]
  exact ⟨hclear _ _, hclear _ _, hclear _ _, hclear _ _, hclear _ _⟩

/-- FLGCLR clears the flags of its mask in the active lanes, and no other register changes. -/
theorem flgclr_clears (hi : Issues (.flgclr w) w s x) :
    ∃ b, exec (.flgclr w) s = .next (setWarp s x.ref.crew x.ref.warp b) ∧ KeepsWarp x.wp b ∧ GoesOn w x b ∧
      b.regs = x.wp.regs.clearFlags (Operand.bits w.e).toNat x.act := by
  have hexec : exec (.flgclr w) s =
    .next ((Act.done (x.mapRegs fun r => r.clearFlags (Operand.bits w.e).toNat x.act) s).state w) := issue_go hi _
  have hr := regsOnly_mapRegs x fun r => r.clearFlags (Operand.bits w.e).toNat x.act
  obtain ⟨hkeeps, hgoes⟩ := hr.advance w
  exact ⟨_, hexec.trans (congrArg _ (hr.done_state w s)), hkeeps, hgoes, advance_regs _ w⟩

end

/-! ### The field D of a well-formed word (R76) -/

/-- A word with no illegal field has a D of its role. -/
theorem roleOk_dst_of_badField {width : Nat} {i : Instr} {sh : Shape} {w : Enc} (h : badField width i sh w = none) :
    roleOk width sh.dmod sh.d w.d = true := by
  have hd : (sh.eff w.lit.isSome).d = sh.d ∧ (sh.eff w.lit.isSome).dmod = sh.dmod := by
    unfold Shape.eff Shape.withLit
    split
    · split <;> exact ⟨rfl, rfl⟩
    · exact ⟨rfl, rfl⟩
  by_contra hbad
  rw [Bool.not_eq_true] at hbad
  revert h
  simp only [badField, fieldsOf, List.map_cons, hd, hbad]
  split <;> simp [List.findIdx_cons]

/-- In a well-formed word D is of its role, at some warp width. -/
theorem wellFormed_dst {i : Instr} {op : Nat} {w : Enc} {sh : Shape} (hw : Instr.word? i = some (op, w)) (h : WellFormed i = true)
    (hsh : shapeOf i = some sh) : ∃ width, roleOk width sh.dmod sh.d w.d = true := by
  obtain ⟨width, h⟩ := wellFormed_legal hw h
  have hsub := illegal_sub h
  have hty := illegal_ty h
  refine ⟨width, roleOk_dst_of_badField (i := i) ?_⟩
  by_contra hbad
  obtain ⟨k, hk⟩ := Option.ne_none_iff_exists'.1 hbad
  simp only [illegalInstr, hsub, hty, hsh, hk, Bool.not_true, Bool.or_false, Bool.false_eq_true, if_false] at h
  revert h
  split <;> simp

/-- A block of main registers names the main file. -/
theorem file_of_mdst {width n : Nat} {dm : Bool} {p : PairRule} {o : Operand} (h : roleOk width dm (.mdst n p) o = true) :
    o.file = .main := by
  simp only [roleOk, Bool.and_eq_true, beq_iff_eq] at h
  obtain ⟨⟨-, hfile⟩, -⟩ := h
  exact hfile

/-! ### Triples (R120, R135, R136) -/

/-- The three words of a triple, lowest register first. -/
def tripleValue (r : Nat × Nat × Nat) : Nat := r.1 % 2 ^ 32 + 2 ^ 32 * (r.2.1 % 2 ^ 32) + 2 ^ 64 * (r.2.2 % 2 ^ 32)

theorem tripleValue_words (r : Nat × Nat × Nat) : resultWord (tripleValue r) 0 = resultWord r.1 0 ∧
    resultWord (tripleValue r) 1 = resultWord r.2.1 0 ∧ resultWord (tripleValue r) 2 = resultWord r.2.2 0 := by
  obtain ⟨p, q, t⟩ := r
  simp only [resultWord, tripleValue]
  refine ⟨?_, ?_, ?_⟩
  all_goals
    refine BitVec.eq_of_toNat_eq ?_
    simp only [BitVec.toNat_ofNat]
    omega

/-- Registers written after the registers below them are one block, whose words are those of both values. -/
theorem MainWritten.append {a b c : Regs} {d n k : Nat} {m : Mask} {f g v : Nat → Nat} (h : MainWritten a b d n m f)
    (h' : MainWritten b c (d + n) k m g) (hf : ∀ l j, j < n → resultWord (v l) j = resultWord (f l) j)
    (hg : ∀ l j, j < k → resultWord (v l) (n + j) = resultWord (g l) j) : MainWritten a c d (n + k) m v := by
  obtain ⟨hin, hout⟩ := h
  obtain ⟨hin', hout'⟩ := h'
  refine ⟨fun l j hl hj hm => ?_, fun r l hl hr => ?_⟩
  · by_cases hjn : j < n
    · obtain ⟨hv, he, hp⟩ := hin l j hl hjn hm
      obtain ⟨hv', he', hp'⟩ := hout' (d + j) l hl fun hr => by omega
      exact ⟨hv'.trans (hv.trans (hf l j hjn).symm), he'.not.2 he, hp'.not.2 hp⟩
    · obtain ⟨i, rfl⟩ := Nat.exists_eq_add_of_le (Nat.le_of_not_lt hjn)
      rw [hg l i (by omega), ← Nat.add_assoc]
      exact hin' l i hl (by omega) hm
  · obtain ⟨hv, he, hp⟩ := hout r l hl fun hd => hr ⟨hd.1, by omega⟩
    obtain ⟨hv', he', hp'⟩ := hout' r l hl fun hd => hr ⟨hd.1, by omega⟩
    exact ⟨hv'.trans hv, he'.trans he, hp'.trans hp⟩

theorem next_idx {o : Operand} {k : Nat} (h : o.idx.toNat + k < 512) : (Operand.next o k).idx.toNat = o.idx.toNat + k := by
  simp only [Operand.next, BitVec.toNat_add, BitVec.toNat_ofNat]
  omega

/-- Registers after a triple is written in the lanes of m to the three main registers from d, one after another. -/
def tripleFold (a : Regs) (d : Nat) (m : Mask) (r : Nat → Nat × Nat × Nat) : Regs :=
  mainFold (d + 2) false (mainFold (d + 1) false (mainFold d false a ((lanesOf m).map fun l => (l, (r l).1)))
    ((lanesOf m).map fun l => (l, (r l).2.1))) ((lanesOf m).map fun l => (l, (r l).2.2))

/-- The three registers hold the triple; the other registers and the flags stand. -/
theorem tripleFold_written (a : Regs) (d : Nat) (m : Mask) (r : Nat → Nat × Nat × Nat) :
    MainWritten a (tripleFold a d m r) d 3 m (fun l => tripleValue (r l)) ∧ ScalarKept a (tripleFold a d m r) ∧
    PredKept a (tripleFold a d m r) ∧ FlagsKept a (tripleFold a d m r) := by
  unfold tripleFold
  have hlow := mainFold_written d false a m fun l => (r l).1
  obtain ⟨lscal, lpred, lflags⟩ := mainFold_others d false a ((lanesOf m).map fun l => (l, (r l).1))
  generalize mainFold d false a _ = u at *
  have hmid := mainFold_written (d + 1) false u m fun l => (r l).2.1
  obtain ⟨mscal, mpred, mflags⟩ := mainFold_others (d + 1) false u ((lanesOf m).map fun l => (l, (r l).2.1))
  generalize mainFold (d + 1) false u _ = v at *
  have hhigh := mainFold_written (d + 2) false v m fun l => (r l).2.2
  obtain ⟨hscal, hpred, hflags⟩ := mainFold_others (d + 2) false v ((lanesOf m).map fun l => (l, (r l).2.2))
  refine ⟨(hlow.append hmid ?_ ?_).append hhigh (fun _ _ _ => rfl) ?_, (lscal.trans mscal).trans hscal, (lpred.trans mpred).trans hpred,
    (lflags.trans mflags).trans hflags⟩
  all_goals
    intro l j hj
    obtain rfl : j = 0 := Nat.lt_one_iff.1 hj
    obtain ⟨h0, h1, h2⟩ := tripleValue_words (r l)
  · exact h0
  · exact h1
  · exact h2

section
variable {w : Enc} {s : State} {x : Site}

/-- The registers after a triple: its values in D and the two registers after it, then its flags. -/
theorem putTriple_regs {o : Operand} (hfile : o.file = .main) (hidx : o.idx.toNat + 2 < 512)
    (val : Nat → (Nat × Nat × Nat) × FFlags) :
    (x.putTriple o ((lanesOf x.act).map fun l => (l, val l))).wp.regs =
      flagFold (tripleFold x.wp.regs o.idx.toNat x.act fun l => (val l).1) (lanesOf x.act) fun l => (val l).2 := by
  have h1 : (Operand.next o 1).idx.toNat = o.idx.toNat + 1 := next_idx (by omega)
  have h2 : (Operand.next o 2).idx.toNat = o.idx.toNat + 2 := next_idx hidx
  simp only [Site.putTriple, shiftDst_wp, mapRegs_regs, List.map_map, Function.comp_def, List.foldl_map,
    writeDst_regs_main _ (Operand.next o 2) _ _ hfile, writeDst_regs_main _ (Operand.next o 1) _ _ hfile,
    writeDst_regs_main _ o _ _ hfile, h1, h2]
  rfl

/-- A triple writes registers and run files alone. -/
theorem regsOnly_putTriple (x : Site) (o : Operand) (rs : List (Nat × (Nat × Nat × Nat) × FFlags)) : RegsOnly x (x.putTriple o rs) :=
  ((((((regsOnly_writeDst x o false _).trans (regsOnly_writeDst _ (Operand.next o 1) false _)).trans
    (regsOnly_writeDst _ (Operand.next o 2) false _)).trans (regsOnly_mapRegs _ _)).trans (regsOnly_shiftDst _ o false)).trans
    (regsOnly_shiftDst _ (Operand.next o 1) false)).trans (regsOnly_shiftDst _ (Operand.next o 2) false)

/-- A meaning that ends in a triple gives its values and raises its flags. -/
theorem putTriple_gives (hfile : w.d.file = .main) (hidx : w.d.idx.toNat + 2 < 512) (val : Nat → (Nat × Nat × Nat) × FFlags) :
    ∃ b, Host.Outcome.next ((Act.done (x.putTriple w.d ((lanesOf x.act).map fun l => (l, val l))) s).state w) =
        (.next (setWarp s x.ref.crew x.ref.warp b) : Host.Outcome State Fault Refusal) ∧ KeepsWarp x.wp b ∧ GoesOn w x b ∧
      MainWritten x.wp.regs b.regs w.d.idx.toNat 3 x.act (fun l => tripleValue (val l).1) ∧
      ScalarKept x.wp.regs b.regs ∧ PredKept x.wp.regs b.regs ∧ FlagsRaised x b fun l => (val l).2 := by
  have hr := regsOnly_putTriple x w.d ((lanesOf x.act).map fun l => (l, val l))
  obtain ⟨hkeeps, hgoes⟩ := hr.advance w
  have hregs := (advance_regs _ w).trans (putTriple_regs (x := x) hfile hidx val)
  obtain ⟨hmain, hscal, hpred, hflags⟩ := tripleFold_written x.wp.regs w.d.idx.toNat x.act fun l => (val l).1
  refine ⟨_, congrArg _ (hr.done_state w s), hkeeps, hgoes, ?_⟩
  generalize tripleFold x.wp.regs _ _ _ = g at *
  obtain ⟨⟨fv, fve, fvp⟩, fscal, fpred⟩ := flagFold_others g (lanesOf x.act) fun l => (val l).2
  refine ⟨?_, ?_, ?_, flagFold_flagsRaised hflags hregs⟩
  · rw [hregs]
    simpa only [MainWritten, Regs.main, fv, fve, fvp] using hmain
  · exact hregs ▸ hscal.trans fscal
  · exact hregs ▸ hpred.trans fpred

end

/-- Settles O34: each instruction is of one of the shapes above, with its own value function. -/
theorem floatResults : Obligations.FloatResults := by
  refine ⟨fun w s x => ?_, fun w s x => ⟨fun _ hi => ?_, fun _ hi => ?_, fun h hi hidx => ?_, fun h hi hidx => ?_⟩⟩
  · refine ⟨?_, ?_, ?_, ?_, ?_, ?_, ?_, ?_, fclass_gives, ?_, fcvt_gives, fun _ hi => f2i_gives hi, fun _ hi => fpuD_gives hi _,
      ?_, ?_, ?_, ?_, ?_, ?_, ?_, ?_⟩
    all_goals exact fun h hi => fpuD_gives_of_code (wellFormed_ty rfl h) (by decide) hi _
  · have hexec : exec (.fcmp w) s = _ := issue_go hi _
    exact hexec ▸ putPred_raised_gives _
  · obtain ⟨b, ho, hkeeps, hgoes, hregs⟩ := flgclr_clears hi
    refine ⟨b, ho, hkeeps, hgoes, ?_⟩
    rw [hregs]
    exact ⟨⟨rfl, rfl, rfl⟩, ⟨rfl, rfl, rfl⟩, ⟨rfl, rfl⟩, fun l hl => clearFlags_getLsbD _ _ _ hl⟩
  · have hexec : exec (.welf w) s = _ := issue_go hi _
    obtain ⟨width, hd⟩ := wellFormed_dst rfl h rfl
    rw [hexec]
    simp only [onSite]
    exact putTriple_gives (file_of_mdst hd) hidx fun l => welfV x.prof (mainValue x.wp w.a.idx.toNat l false)
      (mainValue x.wp (w.a.idx.toNat + 1) l false) (mainValue x.wp (w.a.idx.toNat + 2) l false) (srcB s x .f32 w l)
  · have hexec : exec (.wmrg w) s = _ := issue_go hi _
    obtain ⟨width, hd⟩ := wellFormed_dst rfl h rfl
    rw [hexec]
    simp only [onSite]
    exact putTriple_gives (file_of_mdst hd) hidx fun l => wmrgV x.prof (mainValue x.wp w.a.idx.toNat l false)
      (mainValue x.wp (w.a.idx.toNat + 1) l false) (mainValue x.wp (w.a.idx.toNat + 2) l false) (mainValue x.wp w.b.idx.toNat l false)
      (mainValue x.wp (w.b.idx.toNat + 1) l false) (mainValue x.wp (w.b.idx.toNat + 2) l false)

end Sys2Proof.Machine
end

section
/-! Warps where they stand: reading a warp that was put back, and which warp and path an issue slot takes (R141, R144, R159). -/

namespace Sys2Proof.Machine

/-! ### A warp put back -/

theorem getWarp_of_crew {s : State} {crew warp : Nat} {c : Crew} (hc : kvGet s.crews crew = some c) :
    getWarp s crew warp = kvGet c.warps warp := by
  simp only [getWarp, hc, Option.bind_some]

theorem getWarp_setWarp_same {s : State} {crew warp : Nat} {c : Crew} (hc : kvGet s.crews crew = some c) (wp : Warp) :
    getWarp (setWarp s crew warp wp) crew warp = some wp := by
  simp only [getWarp, setWarp_crews, kvGet_kvMod_same, hc, Option.map_some, Option.bind_some, kvGet_kvSet_same]

/-! ### Which warp runs (R144) -/

theorem find_lowest_free_slot {used : List Nat} {slot : Nat} :
    (List.range 3).find? (fun k => !used.contains k) = some slot ↔ slot < 3 ∧ slot ∉ used ∧ ∀ k, k < slot → k ∈ used := by
  rw [List.find?_range_eq_some]
  simp only [Bool.not_eq_true', List.contains_eq_mem, decide_eq_false_iff_not, Bool.not_not, decide_eq_true_eq, List.mem_range]
  tauto

/-- Where the slot is not the lowest free one of its partition, nothing starts. -/
theorem runStart_of_other_slot {s : State} {core part slot : Nat} (h : ¬(slot < 3 ∧ slot ∉ slotsInUse s core part ∧
    ∀ k, k < slot → k ∈ slotsInUse s core part)) : exec (.runStart core part slot) s = .next s := by
  have hslot := find_lowest_free_slot.not.2 h
  simp only [exec, execRunStart, if_pos hslot]

/-- A run that ended leaves its hints to the selection that follows, which uses them up (R144). -/
def Warp.chosenFrom (wp : Warp) (now : Nat) : Warp :=
  { wp with hintPh := false, hintYh := false, readySince := some (wp.readySince.getD now) }

/-- The lowest free slot takes the path of the one warp that is READY. -/
theorem runStart_of_one_runner {s : State} {core part slot : Nat} {r : Runner} {wp : Warp} {c : Crew}
    (hslot : slot < 3 ∧ slot ∉ slotsInUse s core part ∧ ∀ k, k < slot → k ∈ slotsInUse s core part)
    (hr : runners s core part = [r]) (hwp : getWarp s r.ref.crew r.ref.warp = some wp) (hc : kvGet s.crews r.ref.crew = some c) :
    exec (.runStart core part slot) s = .next (setWarp (setWarp s r.ref.crew r.ref.warp (wp.chosenFrom s.now)) r.ref.crew r.ref.warp
      ((wp.chosenFrom s.now).running slot r.path)) := by
  have hfind := find_lowest_free_slot.2 hslot
  have hput := getWarp_setWarp_same (warp := r.ref.warp) hc (wp.chosenFrom s.now)
  simp only [Warp.chosenFrom] at hput ⊢
  simp only [exec, execRunStart, hfind, ne_eq, not_true_eq_false, if_false, hr, pickMin, List.foldl_cons, List.foldl_nil, hwp, hput]

/-- A path begun in a slot goes on with the files it was stopped with; the warp's other paths, registers and lanes stand. -/
theorem running_eq {wp : Warp} {k : Nat} {p : Path} (hp : kvGet wp.paths k = some p) (slot : Nat) :
    wp.running slot k = { wp with
      run := some { slot := slot, path := k, files := p.resume.getD {} }, resumeAt := none, readySince := none
      paths := kvSet wp.paths k { p with st := .running, resume := none } } := by
  simp only [Warp.running, hp]

theorem before_of_priority {now : Nat} {a b : Runner} (ha : a.since + 256 > now) (hb : b.since + 256 > now) (hy : a.yields = b.yields)
    (hp : b.prio < a.prio) : Runner.before now a b = true := by
  have ha' : ¬a.since + 256 ≤ now := by omega
  have hb' : ¬b.since + 256 ≤ now := by omega
  have hne : ¬a.prio = b.prio := by omega
  simp [Runner.before, ha', hb', hy, hne, hp]

theorem before_of_age {now : Nat} {a b : Runner} (ha : a.since + 256 ≤ now) (hb : now < b.since + 256) :
    Runner.before now a b = true := by
  have hb' : ¬b.since + 256 ≤ now := by omega
  simp [Runner.before, ha, hb']

/-- What an eviction from a slot does with a warp that holds one (R141). -/
theorem stallEviction_eq {s : State} {dws : Nat} {r : IssueRef} {wp : Warp} {q : Run} (hr : warpAt s dws = some r)
    (hwp : getWarp s r.crew r.warp = some wp) (hq : wp.run = some q) :
    exec (.stallEviction dws) s = .next (match q.stalled with
      | some t => if t + 512 ≤ s.now then setWarp s r.crew r.warp wp.evicted else s
      | none => s) := by
  simp only [exec, execStallEviction, hr, hwp, hq, Option.bind_some] <;> rfl

/-- Settles O40: the lowest free slot takes the one READY warp, the order of R144 is read off its definition, and a stalled warp
leaves its slot at 512 cycles. -/
theorem runStartResults : Obligations.RunStartResults := by
  intro s core part slot
  refine ⟨fun h => runStart_of_other_slot ?_, fun hnone => ?_, fun r wp c p h3 hfree hlow hr _ hwp hc hp => ?_,
    fun a b => before_of_priority, fun a b => before_of_age, fun wp k hk => ?_, fun dws r wp q hr hwp hq => ?_⟩
  · rintro ⟨h3, hfree, hlow⟩
    obtain hused | hbig | ⟨k, hk, hkfree⟩ := h
    · exact hfree hused
    · omega
    · exact hkfree (hlow k hk)
  · simp only [exec, execRunStart, hnone, pickMin, ite_self]
  · refine ⟨(wp.chosenFrom s.now).running slot r.path, runStart_of_one_runner ⟨h3, hfree, hlow⟩ hr hwp hc, ?_⟩
    rw [running_eq (wp := wp.chosenFrom s.now) hp]
    exact ⟨rfl, rfl, rfl, rfl, kvGet_kvSet_same _ _ _, fun k hk => kvGet_kvSet_ne hk, rfl, rfl⟩
  · simp only [Warp.pathOrder, hk]
  · rw [stallEviction_eq hr hwp hq]
    refine ⟨?_, fun t ht hlong => ?_⟩
    · rintro (hnone | ⟨t, ht, hshort⟩)
      · rw [hnone]
      · simp only [ht, if_neg (Nat.not_le.2 hshort)]
    · simp only [ht, if_pos hlong, Warp.evicted, hq]

end Sys2Proof.Machine
end

section
/-! Register counts (R153-R156): what GROW and SHRINK check, the registers of a warp that has grown or shrunk, and the end of a core on
which every warp waits. -/

namespace Sys2Proof.Machine

/-! ### The reasons of GROW_OVER (R155) -/

theorem growReason_unaligned {width n have_ : Nat} {grow : Bool} (h : n % 8 ≠ 0 ∨ n = 0) :
    growReason width n have_ grow = some 1 := by
  have hbad : (n % 8 != 0 || n == 0) = true := by simpa using h
  simp only [growReason, firstReason, List.find?_cons, hbad, Option.map_some]

section
variable {width n have_ : Nat} (hmul : n % 8 = 0)
include hmul

theorem growReason_aligned (hpos : 0 < n) (grow : Bool) : growReason width n have_ grow =
    firstReason [(2, grow && decide (384 < n)), (3, grow && decide (65536 < n * width)),
      (4, if grow then decide (n < have_) else decide (have_ < n))] := by
  have hgood : (n % 8 != 0 || n == 0) = false := by simp [hmul]; omega
  simp only [growReason, firstReason, List.find?_cons, hgood]

theorem growReason_over (h : 384 < n) : growReason width n have_ true = some 2 := by
  rw [growReason_aligned hmul (by omega)]
  simp [firstReason, h]

section
variable (hpos : 0 < n)
include hpos

theorem growReason_partition (h384 : n ≤ 384) (h : 65536 < n * width) : growReason width n have_ true = some 3 := by
  rw [growReason_aligned hmul hpos]
  simp [firstReason, h, Nat.not_lt.2 h384]

theorem growReason_below (h384 : n ≤ 384) (hfit : n * width ≤ 65536) (h : n < have_) : growReason width n have_ true = some 4 := by
  rw [growReason_aligned hmul hpos]
  simp [firstReason, h, Nat.not_lt.2 h384, Nat.not_lt.2 hfit]

theorem growReason_none (h384 : n ≤ 384) (hfit : n * width ≤ 65536) (h : have_ ≤ n) : growReason width n have_ true = none := by
  rw [growReason_aligned hmul hpos]
  simp [firstReason, Nat.not_lt.2 h, Nat.not_lt.2 h384, Nat.not_lt.2 hfit]

theorem shrinkReason_above (h : have_ < n) : growReason width n have_ false = some 4 := by
  rw [growReason_aligned hmul hpos]
  simp [firstReason, h]

theorem shrinkReason_none (h : n ≤ have_) : growReason width n have_ false = none := by
  rw [growReason_aligned hmul hpos]
  simp [firstReason, Nat.not_lt.2 h]

end
end

/-! ### GROW and SHRINK -/

/-- A warp that keeps everything but its run and registers keeps its count. -/
theorem KeepsWarp.n_eq {a b : Warp} (h : KeepsWarp a b) : b.n = a.n := by
  unfold KeepsWarp at h
  have hn := congrArg Warp.n h
  exact hn

/-- An instruction that goes on with another warp in its place: the path goes on, and the warp keeps what it then holds. -/
theorem done_with_warp (w : Enc) (s : State) (x : Site) {wp : Warp} (hp : wp.paths = x.wp.paths) :
    ∃ b, (Act.done { x with wp := wp } s).state w = setWarp s x.ref.crew x.ref.warp b ∧ GoesOn w x b ∧ b.regs = wp.regs ∧
      b.n = wp.n ∧ KeepsWarp wp b := by
  obtain ⟨hkeeps, hpath, hself, hrun⟩ := advance_keeps { x with wp := wp } { x with wp := wp } w ⟨rfl, rfl, rfl⟩ rfl rfl rfl
  refine ⟨_, rfl, ⟨fun k hk => ?_, hself, hrun⟩, advance_regs _ w, ?_, hkeeps⟩
  · rw [← hp]
    exact hpath k hk
  · exact hkeeps.n_eq

/-- What a warp that waits keeps: its count, its registers and its request. -/
theorem hold_keeps (x : Site) (now : Nat) :
    (x.hold now).grow = x.wp.grow ∧ (x.hold now).regs = x.wp.regs ∧ (x.hold now).n = x.wp.n := by
  unfold Site.hold
  split
  · exact ⟨rfl, rfl, rfl⟩
  · exact ⟨rfl, rfl, rfl⟩

section
variable {w : Enc} {s : State} {x : Site} (hact : x.act ≠ 0)
include hact

section
variable (hi : Issues (.grow w) w s x)
include hi

theorem grow_traps {r : Nat} (hg : x.wp.grow = none) (hr : growReason x.width (uB s x w) x.wp.n true = some r) :
    Traps (exec (.grow w) s) s x (growOver x r (uB s x w)) := by
  rw [Traps, exec, execGrow, issue_go hi]
  simp only [if_neg hact, hg, hr]
  rfl

/-- A GROW that passes its checks keeps its count, takes its registers, or becomes a request (R154). -/
theorem grow_checked (hg : x.wp.grow = none) (hr : growReason x.width (uB s x w) x.wp.n true = none) :
    exec (.grow w) s = .next (Act.state w (
      if uB s x w = x.wp.n then .done x s
      else if (growRequests s x.ref.core x.wp.part).isEmpty ∧ (uB s x w - x.wp.n) * x.width ≤ freeRegs s x.ref.core x.wp.part then
        .done { x with wp := x.wp.grown (uB s x w) } s
      else .block { x with wp := { x.wp with grow := some { n := uB s x w, order := s.newId.1 } } } s.newId.2)) := by
  rw [exec, execGrow, issue_go hi]
  simp only [if_neg hact, hg, hr]

theorem grow_pending {g : GrowReq} (hg : x.wp.grow = some g) : exec (.grow w) s = .next (Act.state w (
    if g.failed then .trap { x with wp := { x.wp with grow := none } } (growOver x 5 (uB s x w)) s else .block x s)) := by
  rw [exec, execGrow, issue_go hi]
  simp only [if_neg hact, hg]

end

theorem shrink_traps (hi : Issues (.shrink w) w s x) {r : Nat} (hr : growReason x.width (uB s x w) x.wp.n false = some r) :
    Traps (exec (.shrink w) s) s x (growOver x r (uB s x w)) := by
  rw [Traps, exec, execShrink, issue_go hi]
  simp only [if_neg hact, hr]
  rfl

theorem shrink_checked (hi : Issues (.shrink w) w s x) (hr : growReason x.width (uB s x w) x.wp.n false = none) :
    exec (.shrink w) s = .next (Act.state w (
      if x.wp.regs.vempty.any fun k => decide (uB s x w ≤ k / 64) then .block x s
      else .done { x with wp := x.wp.shrunk (uB s x w) } s)) := by
  rw [exec, execShrink, issue_go hi]
  simp only [if_neg hact, hr]

end

/-! ### The registers after a change of count -/

theorem kvGet_kvFilter {α : Type} {m : KV α} (h : Rising m) (p : Nat → α → Bool) (x : Nat) :
    kvGet (kvFilter m p) x = (kvGet m x).filter (p x) := by
  induction m with
  | nil => rfl
  | cons e t ih =>
    obtain ⟨k, v⟩ := e
    obtain ⟨hlow, ht⟩ := List.pairwise_cons.1 h
    have hcons : kvFilter ((k, v) :: t) p = if p k v then (k, v) :: kvFilter t p else kvFilter t p := List.filter_cons
    have hbelow (hx : x ≤ k) : kvGet (kvFilter t p) x = none :=
      kvGet_none_of_lt fun e he => hx.trans_lt (hlow e (List.mem_of_mem_filter he))
    rw [hcons, kvGet]
    by_cases hkx : k = x
    · subst hkx
      cases hp : p k v
      · simp [hp, hbelow le_rfl, Option.filter_some]
      · simp [hp, kvGet, Option.filter_some]
    · rw [if_neg hkx]
      by_cases hxk : x < k
      · rw [if_pos hxk]
        split
        · rw [kvGet, if_neg hkx, if_pos hxk]
          rfl
        · exact hbelow hxk.le
      · rw [if_neg hxk, ← ih ht]
        split
        · rw [kvGet, if_neg hkx, if_neg hxk]
        · rfl

/-- The main registers whose keys are kept read as before, and the others as zero. -/
theorem main_of_kvFilter {g g' : Regs} (h : Rising g.v) {p : Nat → Bool} (hv : g'.v = kvFilter g.v fun k _ => p k) (r l : Nat) :
    g'.main r l = if p (64 * r + l) then g.main r l else 0 := by
  simp only [Regs.main, kvD, hv, kvGet_kvFilter h]
  cases p (64 * r + l)
  · simp
  · cases kvGet g.v (64 * r + l)
    · rfl
    · simp [Option.filter_some]

/-- The register of a key. -/
theorem register_of_key {r l : Nat} (hl : l < 64) : (64 * r + l) / 64 = r := by omega

/-- A warp that has grown holds what it held, and zero, full, beyond its old count (R154). -/
theorem grown_registers {wp : Warp} (h : Rising wp.regs.v) (n r : Nat) {l : Nat} (hl : l < 64) :
    (wp.grown n).regs.main r l = (if r < wp.n then wp.regs.main r l else 0) ∧
    (64 * r + l ∈ (wp.grown n).regs.vempty ↔ r < wp.n ∧ 64 * r + l ∈ wp.regs.vempty) := by
  have hmain := main_of_kvFilter (g' := (wp.grown n).regs) (p := fun k => decide (k / 64 < wp.n)) h rfl r l
  have hempty : 64 * r + l ∈ (wp.grown n).regs.vempty ↔ _ := List.mem_filter
  simp only [register_of_key hl, decide_eq_true_eq] at hmain hempty
  exact ⟨hmain, hempty.trans and_comm⟩

/-- A warp that has shrunk holds what it held below its new count. -/
theorem shrunk_main {wp : Warp} (h : Rising wp.regs.v) {n r l : Nat} (hl : l < 64) (hr : r < n) :
    (wp.shrunk n).regs.main r l = wp.regs.main r l := by
  have hmain := main_of_kvFilter (g' := (wp.shrunk n).regs) (p := fun k => decide (k / 64 < n)) h rfl r l
  simp only [register_of_key hl, hr, decide_true, if_true] at hmain
  exact hmain

/-! ### When every warp waits (R156) -/

theorem kvFilter_eq_nil {α : Type} {m : KV α} {p : Nat → α → Bool} (h : ∀ e ∈ m, p e.1 e.2 = false) : kvFilter m p = [] :=
  List.filter_eq_nil_iff.2 fun e he => by simp [h e he]

/-- The crews of a core in another order. -/
theorem mem_youngest {s : State} {core : Nat} {e : Nat × Crew} (h : e ∈ youngest s core) : e ∈ crewsOn s core := by
  simp only [youngest, List.map_reverse, List.mem_reverse, List.mem_map] at h
  obtain ⟨f, hf, rfl⟩ := h
  revert f
  refine List.foldlRecOn (motive := fun m : KV (Nat × Crew) => ∀ f ∈ m, f.2 ∈ crewsOn s core) (crewsOn s core) _
    (fun _ hf => absurd hf (List.not_mem_nil)) fun m hm c hc f hf => ?_
  obtain rfl | hf := kvSet_mem hf
  · exact hc
  · exact hm f hf

section
variable {s : State} {core : Nat}

theorem registerStall_idle (h : (getCore s core).regStallSince = none ∨
    (∃ t, (getCore s core).regStallSince = some t ∧ s.now < t + 256) ∨ regStalled s core = false) :
    exec (.registerStallResolution core) s = .next s := by
  simp only [exec, execRegisterStallResolution]
  split
  next t k wk part need ht ho =>
    refine congrArg _ (if_pos ?_)
    obtain hnone | ⟨u, hu, hnow⟩ | hst := h
    · exact absurd ht (hnone ▸ nofun)
    · obtain rfl := Option.some.inj (hu.symm.trans ht)
      exact .inl hnow
    · exact .inr (by simp [hst])
  · rfl

/-- With one crew on a core nobody gives way: the oldest request can never be granted (R156). -/
theorem registerStall_fails {t k wk part need : Nat} {wp : Warp} (ht : (getCore s core).regStallSince = some t)
    (hnow : t + 256 ≤ s.now) (hst : regStalled s core = true) (ho : oldestGrow s core = some (k, wk, part, need))
    (hone : ∀ e ∈ crewsOn s core, e.1 = k) (hfree : freeRegs s core part < need) (hwp : getWarp s k wk = some wp) :
    exec (.registerStallResolution core) s = .next (setWarp (setCore s core { getCore s core with regStallSince := none }) k wk
      { wp with grow := wp.grow.map fun g => { g with failed := true } }) := by
  have hgo : ¬(s.now < t + 256 ∨ (!regStalled s core) = true) := by simp [hst]; omega
  have hcand (c : Core) (q : Nat × Crew → Bool) :
      (youngest (setCore s core c) core).filter (fun e => e.1 != k && q e) = [] :=
    List.filter_eq_nil_iff.2 fun e he => by simp [hone e (mem_youngest he)]
  have hnobody (c : Core) : stallVictims (setCore s core c) part need [] (freeRegs (setCore s core c) core part) = none :=
    if_neg (Nat.not_le.2 hfree)
  have hput (c : Core) : getWarp (setCore s core c) k wk = some wp := hwp
  simp only [exec, execRegisterStallResolution, ht, ho, if_neg hgo, Bool.and_assoc, hcand, hnobody, hput]

end

section
variable {s : State} {core part k wk need o : Nat} {rest : List (Nat × Nat × Nat × Nat)} {wp : Warp} {g : GrowReq}

/-- The oldest request of a partition is granted where the partition has the registers, and else waits (R154). -/
theorem growGrant_eq (hq : growRequests s core part = (k, wk, need, o) :: rest) (hwp : getWarp s k wk = some wp)
    (hg : wp.grow = some g) : exec (.growGrant core part) s =
      .next (if freeRegs s core part < need then s else setWarp s k wk (wp.grown g.n)) := by
  simp only [exec, execGrowGrant, hq, hwp, hg]

end

/-- Settles O37: the checks of R155 in their order, what is left of the registers, and the requests of a partition and of a core. -/
theorem registerCountResults : Obligations.RegisterCountResults := by
  intro w s x
  refine ⟨fun hi hact hg => ⟨?_, ?_, ?_, ?_, fun hmul hpos h384 hfit hle => ?_⟩, fun g hi hact hg => ?_, fun hi hact => ⟨?_, ?_, ?_⟩,
    fun hv r l hl => ?_, fun core part k wk need o rest wp g hq hwp hg => ?_, fun core => registerStall_idle,
    fun core t k wk part need wp ht hnow hst ho hone hfree hwp => ?_⟩
  · exact fun h => grow_traps hact hi hg (growReason_unaligned h)
  · exact fun hmul h => grow_traps hact hi hg (growReason_over hmul h)
  · exact fun hmul hpos h384 h => grow_traps hact hi hg (growReason_partition hmul hpos h384 h)
  · exact fun hmul hpos h384 hfit h => grow_traps hact hi hg (growReason_below hmul hpos h384 hfit h)
  · have hexec := grow_checked hact hi hg (growReason_none hmul hpos h384 hfit hle)
    refine ⟨fun heq => ?_, fun hlt hq hroom => ?_, fun hlt hno => ?_⟩
    · rw [hexec, if_pos heq]
      exact done_goesOnTo w s x
    · rw [if_neg hlt.ne', if_pos ⟨by simp [hq], hroom⟩] at hexec
      obtain ⟨b, hb, hgoes, hregs, hn, hkeeps⟩ := done_with_warp w s x (wp := x.wp.grown (uB s x w)) rfl
      exact ⟨b, hexec.trans (congrArg _ hb), hgoes, hregs, hn, hkeeps⟩
    · rw [if_neg hlt.ne', if_neg fun h => hno.elim (fun hq => hq (List.isEmpty_iff.1 h.1)) fun hroom => absurd h.2 (Nat.not_le.2 hroom)]
        at hexec
      exact ⟨_, hexec, hold_keeps _ _⟩
  · have hexec := grow_pending hact hi hg
    refine ⟨fun hf => ?_, fun hf => ?_⟩
    · rw [Waits, hexec, if_neg (by simp [hf])]
      rfl
    · rw [Traps, hexec, if_pos hf]
      rfl
  · exact fun h => shrink_traps hact hi (growReason_unaligned h)
  · exact fun hmul hpos h => shrink_traps hact hi (shrinkReason_above hmul hpos h)
  · intro hmul hpos hle
    have hexec := shrink_checked hact hi (shrinkReason_none hmul hpos hle)
    refine ⟨fun ⟨k, hk, hn⟩ => ?_, fun hall => ?_⟩
    · rw [Waits, hexec, if_pos (List.any_eq_true.2 ⟨k, hk, decide_eq_true hn⟩)]
      rfl
    · rw [if_neg (by simpa using hall)] at hexec
      obtain ⟨b, hb, hgoes, hregs, hn, hkeeps⟩ := done_with_warp w s x (wp := x.wp.shrunk (uB s x w)) rfl
      exact ⟨b, hexec.trans (congrArg _ hb), hgoes, hregs, hn, hkeeps⟩
  · obtain ⟨hmain, hempty⟩ := grown_registers hv (uB s x w) r hl
    exact ⟨hmain, hempty, shrunk_main hv hl⟩
  · rw [growGrant_eq hq hwp hg]
    exact ⟨fun h => congrArg _ (if_pos h), fun h => congrArg _ (if_neg (Nat.not_lt.2 h))⟩
  · exact ⟨_, registerStall_fails ht hnow hst ho hone hfree hwp, rfl⟩

end Sys2Proof.Machine
end

section
/-! Lanes that take a thread or an item (R137, R147, R173, R174): what a lane holds then, and that the other lanes keep what they held. -/

namespace Sys2Proof.Machine

/-! ### The registers of a lane -/

/-- A lane keeps its main registers and its sticky flags, and no register of it becomes empty. -/
def Regs.LaneKept (a b : Regs) (l : Nat) : Prop :=
  (∀ r, b.main r l = a.main r l ∧ (64 * r + l ∈ b.vempty → 64 * r + l ∈ a.vempty)) ∧
  b.fnv.getLsbD l = a.fnv.getLsbD l ∧ b.fnx.getLsbD l = a.fnx.getLsbD l

theorem Regs.LaneKept.refl (a : Regs) (l : Nat) : a.LaneKept a l := ⟨fun _ => ⟨rfl, id⟩, rfl, rfl⟩

theorem Regs.LaneKept.trans {a b c : Regs} {l : Nat} (h : a.LaneKept b l) (g : b.LaneKept c l) : a.LaneKept c l := by
  obtain ⟨hregs, hnv, hnx⟩ := h
  obtain ⟨gregs, gnv, gnx⟩ := g
  exact ⟨fun r => ⟨(gregs r).1.trans (hregs r).1, fun hr => (hregs r).2 ((gregs r).2 hr)⟩, gnv.trans hnv, gnx.trans hnx⟩

theorem clearLane_getLsbD (m : Mask) (k : Nat) {l : Nat} (hl : l < 64) :
    (m &&& ~~~laneBit k).getLsbD l = (m.getLsbD l && decide (l ≠ k)) := by
  rw [BitVec.getLsbD_and, BitVec.getLsbD_not, laneBit_getLsbD k l hl]
  simp [hl]

theorem setLane_getLsbD (m : Mask) (k : Nat) {l : Nat} (hl : l < 64) :
    (m ||| laneBit k).getLsbD l = (m.getLsbD l || decide (l = k)) := by
  rw [BitVec.getLsbD_or, laneBit_getLsbD k l hl]

theorem freshLane_keeps (r : Regs) {k l : Nat} (hl : l < 64) (h : l ≠ k) : r.LaneKept (r.freshLane k) l := by
  refine ⟨fun _ => ⟨rfl, fun hr => (List.mem_filter.1 hr).1⟩, ?_, ?_⟩
  · simp [Regs.freshLane, clearLane_getLsbD _ k hl, h]
  · simp [Regs.freshLane, clearLane_getLsbD _ k hl, h]

theorem freshLane_clears (r : Regs) {l : Nat} (hl : l < 64) :
    (r.freshLane l).fnv.getLsbD l = false ∧ (r.freshLane l).fnx.getLsbD l = false := by
  constructor
  · simp [Regs.freshLane, clearLane_getLsbD _ l hl]
  · simp [Regs.freshLane, clearLane_getLsbD _ l hl]

theorem putMain_keeps (r : Regs) (g : Nat) {k l : Nat} (v : W32) (hk : k < 64) (hl : l < 64) (h : l ≠ k) :
    r.LaneKept (r.putMain g k v) l := by
  refine ⟨fun q => ⟨?_, fun hq => ((putMain_vempty r g k _ v).1 hq).1⟩, rfl, rfl⟩
  rw [putMain_main r g k q l v hk hl, if_neg fun e => h e.2]

/-- A value for each of some main registers of one lane. -/
def Regs.putLane (r : Regs) (l : Nat) (vals : List (Nat × W32)) : Regs := vals.foldl (fun r e => r.putMain e.1 l e.2) r

theorem putLane_flags (r : Regs) (l : Nat) (vals : List (Nat × W32)) :
    (r.putLane l vals).fnv = r.fnv ∧ (r.putLane l vals).fnx = r.fnx ∧ (r.putLane l vals).fdz = r.fdz ∧
      (r.putLane l vals).fof = r.fof ∧ (r.putLane l vals).fuf = r.fuf := by
  induction vals generalizing r with
  | nil => exact ⟨rfl, rfl, rfl, rfl, rfl⟩
  | cons e t ih => exact ih (r.putMain e.1 l e.2)

theorem putLane_keeps (r : Regs) {k l : Nat} (vals : List (Nat × W32)) (hk : k < 64) (hl : l < 64) (h : l ≠ k) :
    r.LaneKept (r.putLane k vals) l := by
  induction vals generalizing r with
  | nil => exact .refl r l
  | cons e t ih => exact (putMain_keeps r e.1 e.2 hk hl h).trans (ih _)

/-- A register that none of the values is for stands. -/
theorem putLane_other (r : Regs) {l g : Nat} {vals : List (Nat × W32)} (hl : l < 64) (h : g ∉ vals.map (·.1)) :
    (r.putLane l vals).main g l = r.main g l ∧ (64 * g + l ∈ (r.putLane l vals).vempty → 64 * g + l ∈ r.vempty) := by
  induction vals generalizing r with
  | nil => exact ⟨rfl, id⟩
  | cons e t ih =>
    obtain ⟨hne, ht⟩ := not_or.1 (List.mem_cons.not.1 h)
    obtain ⟨hmain, hempty⟩ := ih (r.putMain e.1 l e.2) ht
    refine ⟨hmain.trans ?_, fun hg => ((putMain_vempty r e.1 l _ e.2).1 (hempty hg)).1⟩
    rw [putMain_main r e.1 l g l e.2 hl hl, if_neg fun heq => hne heq.1]

/-- A register takes its value and is full. -/
theorem putLane_mem (r : Regs) {l g : Nat} {v : W32} {vals : List (Nat × W32)} (hl : l < 64) (hnd : (vals.map (·.1)).Nodup)
    (h : (g, v) ∈ vals) : (r.putLane l vals).main g l = v ∧ 64 * g + l ∉ (r.putLane l vals).vempty := by
  induction vals generalizing r with
  | nil => exact absurd h List.not_mem_nil
  | cons e t ih =>
    obtain ⟨hfresh, hnd⟩ := List.nodup_cons.1 hnd
    obtain rfl | ht := List.mem_cons.1 h
    · obtain ⟨hmain, hempty⟩ := putLane_other (r.putMain g l v) hl hfresh
      refine ⟨hmain.trans ?_, fun hg => ((putMain_vempty r g l _ v).1 (hempty hg)).2 rfl⟩
      rw [putMain_main r g l g l v hl hl, if_pos ⟨rfl, rfl⟩]
    · exact ih (r.putMain e.1 l e.2) hnd ht

/-! ### The lane of a warp -/

/-- A lane of a warp keeps its registers, its item and whether it is live, and its return stack where the warp lists them in order. -/
def Warp.LaneKept (a b : Warp) (l : Nat) : Prop :=
  a.regs.LaneKept b.regs l ∧ b.live.getLsbD l = a.live.getLsbD l ∧ kvGet b.items l = kvGet a.items l ∧
  (Rising a.stackTab → Rising b.stackTab ∧ kvGet b.stackTab l = kvGet a.stackTab l)

theorem Warp.LaneKept.refl (a : Warp) (l : Nat) : a.LaneKept a l := ⟨.refl a.regs l, rfl, rfl, fun h => ⟨h, rfl⟩⟩

theorem Warp.LaneKept.trans {a b c : Warp} {l : Nat} (h : a.LaneKept b l) (g : b.LaneKept c l) : a.LaneKept c l := by
  obtain ⟨hregs, hlive, hitem, hstack⟩ := h
  obtain ⟨gregs, glive, gitem, gstack⟩ := g
  refine ⟨hregs.trans gregs, glive.trans hlive, gitem.trans hitem, fun hr => ?_⟩
  obtain ⟨hr', hs⟩ := hstack hr
  obtain ⟨gr, gs⟩ := gstack hr'
  exact ⟨gr, gs.trans hs⟩

/-! ### A thread that is drawn (R147, R174) -/

/-- The values of a thread's block, by register. -/
def Bin.block (b : Bin) (t : BinThread) : List (Nat × W32) := t.regs.zipIdx.map fun e => (b.vb + e.2, e.1)

theorem block_nodup (b : Bin) (t : BinThread) : ((b.block t).map (·.1)).Nodup := by
  have hkeys : (b.block t).map (·.1) = (List.range' 0 t.regs.length).map (b.vb + ·) := by
    rw [← List.zipIdx_map_snd, Bin.block, List.map_map, List.map_map]
    rfl
  rw [hkeys]
  exact (List.nodup_range' (step := 1)).map fun _ _ h => Nat.add_left_cancel h

theorem mem_block {b : Bin} {t : BinThread} {q : Nat} {v : W32} (h : t.regs[q]? = some v) : (b.vb + q, v) ∈ b.block t :=
  List.mem_map.2 ⟨(v, q), List.mk_mem_zipIdx_iff_getElem?.2 h, rfl⟩

/-- The registers of a lane that draws a thread, before its flags. -/
def Bin.drawnRegs (b : Bin) (r : Regs) (l : Nat) (t : BinThread) : Regs := (r.freshLane l).putLane l (b.block t)

theorem drawThread_regs (b : Bin) (wp : Warp) (l : Nat) (t : BinThread) :
    (drawThread b wp l t).regs = { b.drawnRegs wp.regs l t with
      fnv := if t.fnv then (b.drawnRegs wp.regs l t).fnv ||| laneBit l else (b.drawnRegs wp.regs l t).fnv
      fdz := if t.fdz then (b.drawnRegs wp.regs l t).fdz ||| laneBit l else (b.drawnRegs wp.regs l t).fdz
      fof := if t.fof then (b.drawnRegs wp.regs l t).fof ||| laneBit l else (b.drawnRegs wp.regs l t).fof
      fuf := if t.fuf then (b.drawnRegs wp.regs l t).fuf ||| laneBit l else (b.drawnRegs wp.regs l t).fuf
      fnx := if t.fnx then (b.drawnRegs wp.regs l t).fnx ||| laneBit l else (b.drawnRegs wp.regs l t).fnx } := by
  have hfold : t.regs.zipIdx.foldl (fun r (e : W32 × Nat) => r.putMain (b.vb + e.2) l e.1) (wp.regs.freshLane l) =
      b.drawnRegs wp.regs l t := by
    simp only [Bin.drawnRegs, Regs.putLane, Bin.block, List.foldl_map]
  simp only [drawThread, hfold]

theorem flag_put {m : Mask} {on : Bool} {k l : Nat} (hl : l < 64) :
    (if on then m ||| laneBit k else m).getLsbD l = (m.getLsbD l || (on && decide (l = k))) := by
  cases on
  · simp
  · simp [setLane_getLsbD m k hl]

/-- A lane holds a thread of a bin: its item, its flags and its block of registers, full. -/
def Bin.Holds (b : Bin) (wp : Warp) (l : Nat) (t : BinThread) : Prop :=
  kvGet wp.items l = some t.item ∧ wp.regs.fnv.getLsbD l = t.fnv ∧ wp.regs.fnx.getLsbD l = t.fnx ∧
  ∀ q v, t.regs[q]? = some v → wp.regs.main (b.vb + q) l = v ∧ 64 * (b.vb + q) + l ∉ wp.regs.vempty

theorem Bin.Holds.kept {b : Bin} {wp wp' : Warp} {l : Nat} {t : BinThread} (h : b.Holds wp l t) (g : wp.LaneKept wp' l) :
    b.Holds wp' l t := by
  obtain ⟨hitem, hnv, hnx, hregs⟩ := h
  obtain ⟨⟨gregs, gnv, gnx⟩, -, gitem, -⟩ := g
  exact ⟨gitem.trans hitem, gnv.trans hnv, gnx.trans hnx, fun q v hv =>
    ⟨(gregs _).1.trans (hregs q v hv).1, fun hq => (hregs q v hv).2 ((gregs _).2 hq)⟩⟩

theorem drawThread_keeps (b : Bin) (wp : Warp) {k l : Nat} (t : BinThread) (hk : k < 64) (hl : l < 64) (h : l ≠ k) :
    wp.LaneKept (drawThread b wp k t) l := by
  have hregs : wp.regs.LaneKept (b.drawnRegs wp.regs k t) l := (freshLane_keeps wp.regs hl h).trans (putLane_keeps _ _ hk hl h)
  obtain ⟨hmain, hnv, hnx⟩ := hregs
  refine ⟨?_, ?_, kvGet_kvSet_ne h, fun hr => ⟨kvSet_rising hr _ _, kvGet_kvSet_ne h⟩⟩
  · rw [drawThread_regs]
    exact ⟨hmain, by simp [flag_put hl, h, hnv], by simp [flag_put hl, h, hnx]⟩
  · simp [drawThread, setLane_getLsbD wp.live k hl, h]

theorem drawThread_holds (b : Bin) (wp : Warp) {l : Nat} (t : BinThread) (hl : l < 64) :
    b.Holds (drawThread b wp l t) l t ∧ (drawThread b wp l t).live.getLsbD l = true := by
  obtain ⟨hnv, hnx⟩ := freshLane_clears wp.regs hl
  obtain ⟨pnv, pnx, -⟩ := putLane_flags (wp.regs.freshLane l) l (b.block t)
  refine ⟨⟨kvGet_kvSet_same _ _ _, ?_, ?_, fun q v hv => ?_⟩, ?_⟩
  · simp [drawThread_regs, flag_put hl, Bin.drawnRegs, pnv, hnv]
  · simp [drawThread_regs, flag_put hl, Bin.drawnRegs, pnx, hnx]
  · rw [drawThread_regs]
    exact putLane_mem _ hl (block_nodup b t) (mem_block hv)
  · simp [drawThread, setLane_getLsbD wp.live l hl]

/-- Threads take the lanes from i upward in their order. -/
def Bin.drawFrom (b : Bin) (ts : List BinThread) (i : Nat) (wp : Warp) : Warp :=
  (ts.zipIdx i).foldl (fun w e => drawThread b w e.2 e.1) wp

theorem drawFrom_keeps (b : Bin) {ts : List BinThread} {i l : Nat} (wp : Warp) (hlen : i + ts.length ≤ 64) (hl : l < 64)
    (h : l < i ∨ i + ts.length ≤ l) : wp.LaneKept (b.drawFrom ts i wp) l := by
  induction ts generalizing i wp with
  | nil => exact .refl wp l
  | cons t ts ih =>
    rw [List.length_cons] at hlen h
    exact (drawThread_keeps b wp t (by omega) hl (by omega)).trans (ih _ (by omega) (by omega))

theorem drawFrom_holds (b : Bin) {ts : List BinThread} {i j : Nat} {t : BinThread} (wp : Warp) (hlen : i + ts.length ≤ 64)
    (h : ts[j]? = some t) : b.Holds (b.drawFrom ts i wp) (i + j) t ∧ (b.drawFrom ts i wp).live.getLsbD (i + j) = true := by
  induction ts generalizing i j wp with
  | nil => exact absurd h (by simp)
  | cons u ts ih =>
    rw [List.length_cons] at hlen
    cases j with
    | zero =>
      obtain rfl : u = t := by simpa using h
      obtain ⟨hholds, hlive⟩ := drawThread_holds b wp u (l := i) (by omega)
      have hkept := drawFrom_keeps b (ts := ts) (i := i + 1) (l := i) (drawThread b wp i u) (by omega) (by omega) (by omega)
      exact ⟨hholds.kept hkept, hkept.2.1.trans hlive⟩
    | succ j =>
      have hstep := ih (i := i + 1) (drawThread b wp i u) (by omega) (by simpa using h)
      rwa [Nat.add_right_comm] at hstep

/-- The warp that draws a bin, before its lanes are filled: registers outside the bin's block are cleared (R147). -/
def Warp.cleared (wp : Warp) (b : Bin) : Warp :=
  let inBlock (k : Nat) : Bool := decide (b.vb ≤ k / 64) && decide (k / 64 < b.vb + b.n)
  { wp with regs := { wp.regs with
      v := kvFilter wp.regs.v fun k _ => inBlock k, vempty := wp.regs.vempty.filter inBlock, vpoison := wp.regs.vpoison.filter inBlock } }

/-- The rebuild stores of a bin's threads: each spilled entry at its lane and row (R174). -/
def Bin.rebuild (b : Bin) : List (Nat × Nat × W32) :=
  (b.threads.zipIdx.map fun e => e.1.spill.zipIdx.map fun r => (e.2, r.2, r.1)).flatten

theorem drawn_eq (wp : Warp) (b : Bin) : wp.drawn b = { b.drawFrom b.threads 0 (wp.cleared b) with
    paths := [(0, { pc := b.pc, mask := (b.drawFrom b.threads 0 (wp.cleared b)).live, rebuild := b.rebuild })]
    run := none, lastLow := none, afterSplit := [], readySince := none, reformed := false
    spill := b.threads.foldl (fun n t => max n t.spill.length) (b.drawFrom b.threads 0 (wp.cleared b)).spill } := rfl

theorem mem_rebuild {b : Bin} {l q : Nat} {t : BinThread} {v : W32} (ht : b.threads[l]? = some t) (hv : t.spill[q]? = some v) :
    (l, q, v) ∈ b.rebuild :=
  List.mem_flatten.2 ⟨_, List.mem_map.2 ⟨(t, l), List.mk_mem_zipIdx_iff_getElem?.2 ht, rfl⟩,
    List.mem_map.2 ⟨(v, q), List.mk_mem_zipIdx_iff_getElem?.2 hv, rfl⟩⟩

/-- The threads of a bin are in lanes 0 upward, and no other lane of a vacant warp is live (R147). -/
theorem drawn_lanes {wp : Warp} {b : Bin} (hlive : wp.live = 0) (hlen : b.threads.length ≤ 64) :
    (∀ l, l < 64 → ((wp.drawn b).live.getLsbD l = true ↔ l < b.threads.length)) ∧
    ∀ l t, b.threads[l]? = some t → b.Holds (wp.drawn b) l t := by
  rw [drawn_eq]
  refine ⟨fun l hl => ?_, fun l t ht => ?_⟩
  · by_cases hb : l < b.threads.length
    · have h := drawFrom_holds b (i := 0) (wp.cleared b) (by omega) (List.getElem?_eq_getElem hb)
      rw [Nat.zero_add] at h
      exact iff_of_true h.2 hb
    · obtain ⟨-, h, -⟩ := drawFrom_keeps b (ts := b.threads) (i := 0) (wp.cleared b) (by omega) hl (by omega)
      refine iff_of_false (ne_true_of_eq_false (h.trans ?_)) hb
      simp [Warp.cleared, hlive]
  · have h := drawFrom_holds b (i := 0) (wp.cleared b) (by omega) ht
    rw [Nat.zero_add] at h
    exact h.1

end Sys2Proof.Machine
end

section
/-! Bins, idle warps, retirement and the completion of launches (R146-R152, R173, R174, R375). -/

namespace Sys2Proof.Machine

theorem live_of_vacant {wp : Warp} (h : wp.vacant = true) : wp.live = 0 := by
  simp only [Warp.vacant, Bool.and_eq_true, beq_iff_eq] at h
  exact h.1.1

theorem not_idle_of_not_vacant {wp : Warp} (h : wp.vacant = false) : wp.idle = false := by
  simp only [Warp.idle, h, Bool.false_and]

theorem vacant_of_idle {wp : Warp} (h : wp.idle = true) : wp.vacant = true := by
  simp only [Warp.idle, Bool.and_eq_true] at h
  exact h.1

/-- A bin becomes drawable once, when its first thread has the bin age (R147). -/
theorem binAged_eq {s : State} {core k : Nat} {b : Bin} (hb : kvGet (getCore s core).bins k = some b) :
    exec (.binAged core k) s = .next (if b.drawableAt.isSome ∨ s.now < b.firstAt + (getLaunch s b.launch).kernel.binAge then s
      else setCore s core { getCore s core with bins := kvSet (getCore s core).bins k { b with
        aged := true, drawableAt := some (b.firstAt + (getLaunch s b.launch).kernel.binAge) } }) := by
  simp only [exec, execBinAged, hb]

/-! ### A warp in a device warp slot -/

section
variable {s : State} {dws : Nat} {r : IssueRef} {c : Crew} {wp : Warp} (hr : warpAt s dws = some r)
  (hc : kvGet s.crews r.crew = some c) (hwp : getWarp s r.crew r.warp = some wp) (hph : c.phase = .resident)
include hr hc hwp hph

theorem binDraw_eq : exec (.binDraw dws) s = .next (if !wp.vacant ∨ stopping s r.crew c then s else match drawBin s c wp with
    | none => s
    | some (k, b) => testLaunch (settleFilings (unarrive (setWarp (setCore s c.core { getCore s c.core with
        bins := kvDel (getCore s c.core).bins k }) r.crew r.warp ((wp.drawn b).unarrive (wp.drawn b).live)) r.crew r.warp
        (wp.drawn b).live) c.core) c.core c.launch) := by
  simp only [exec, execBinDraw, hr, hc, hwp, hph, ne_eq, not_true_eq_false, false_or] <;> rfl

theorem idleWarpRefill_eq : exec (.idleWarpRefill dws) s =
    .next (if !wp.idle ∨ stopping s r.crew c ∨ (drawBin s c wp).isSome then s
      else idleRefill s (idleSite r c wp (getLaunch s c.launch).kernel)) := by
  simp only [exec, execIdleWarpRefill, hr, hc, hwp, hph, ne_eq, not_true_eq_false, false_or]

theorem warpRetire_eq : exec (.warpRetire dws) s =
    .next (if wp.vacant then retireWarp (touchSource s (getLaunch s c.launch)) r.crew r.warp else s) := by
  simp only [exec, execWarpRetire, hr, hwp, kvD, hc, Option.getD_some, hph, true_and]

/-- A warp with a live lane draws nothing, takes no items and does not retire. -/
theorem live_warp_stays (hv : wp.vacant = false) : exec (.binDraw dws) s = .next s ∧ exec (.idleWarpRefill dws) s = .next s ∧
    exec (.warpRetire dws) s = .next s := by
  rw [binDraw_eq hr hc hwp hph, idleWarpRefill_eq hr hc hwp hph, warpRetire_eq hr hc hwp hph, hv, not_idle_of_not_vacant hv]
  exact ⟨rfl, rfl, rfl⟩

end

/-! ### Drawing a bin (R147, R174) -/

theorem drawn_results {wp : Warp} {b : Bin} (hv : wp.vacant = true) (hlen : b.threads.length ≤ 64) :
    (∀ l, l < 64 → ((wp.drawn b).live.getLsbD l = true ↔ l < b.threads.length)) ∧
    (∃ p, (wp.drawn b).paths = [(0, p)] ∧ p.pc = b.pc ∧ p.mask = (wp.drawn b).live ∧ p.resume = none ∧
      ∀ l t q v, b.threads[l]? = some t → t.spill[q]? = some v → (l, q, v) ∈ p.rebuild) ∧
    ∀ l t, b.threads[l]? = some t → kvGet (wp.drawn b).items l = some t.item ∧ (wp.drawn b).regs.fnv.getLsbD l = t.fnv ∧
      (wp.drawn b).regs.fnx.getLsbD l = t.fnx ∧ ∀ q v, q < b.n → t.regs[q]? = some v →
        (wp.drawn b).regs.main (b.vb + q) l = v ∧ 64 * (b.vb + q) + l ∉ (wp.drawn b).regs.vempty := by
  obtain ⟨hlive, hholds⟩ := drawn_lanes (live_of_vacant hv) hlen
  refine ⟨hlive, ⟨_, congrArg Warp.paths (drawn_eq wp b), rfl, rfl, rfl, fun l t q v ht hq => mem_rebuild ht hq⟩, fun l t ht => ?_⟩
  obtain ⟨hitem, hnv, hnx, hregs⟩ := hholds l t ht
  exact ⟨hitem, hnv, hnx, fun q v _ hv => hregs q v hv⟩

/-! ### An idle warp's REFILL (R149) -/

theorem refillTrap_idle (r : IssueRef) (c : Crew) (wp : Warp) (k : Kernel) : refillTrap (idleSite r c wp k) =
    if k.rmap.any fun e => decide (wp.n ≤ e.2) then some { code := 0x01, tx := BitVec.ofNat 32 (5 + 2 ^ 16 * wp.n), mask := 0 }
    else none := rfl

/-- A drained dense range gives nothing. -/
theorem nextItem_drained {s : State} {id : Nat} (hq : (getLaunch s id).itemQueue = none)
    (h : (getLaunch s id).items ≤ (getLaunch s id).nextItem) : nextItem s id = (s, none) := by
  simp only [nextItem, hq, if_neg (Nat.not_lt.2 h)]

/-- Where the source gives nothing, a vacant warp stays as it is. -/
theorem fillWarp_drained {s : State} {crew warp : Nat} {c : Crew} {wp : Warp} (hc : kvGet s.crews crew = some c)
    (hwp : getWarp s crew warp = some wp) (hnone : nextItem s c.launch = (s, none)) (pc : W64) : fillWarp s crew warp pc = s := by
  have hfill (ls : List Nat) (w : Warp) : fillLanes c.launch c.core 0 ls s w = (s, w) := by
    cases ls with
    | nil => rfl
    | cons l rest => simp only [fillLanes, hnone]
  have hnew : wp.live &&& ~~~wp.live = 0 := BitVec.and_not_self wp.live
  simp only [fillWarp, hc, hwp, hfill, hnew, if_true]

section
variable {s : State} {r : IssueRef} {c : Crew} {wp : Warp} {k : Kernel}

theorem idleRefill_fills (h : (k.rmap.any fun e => decide (wp.n ≤ e.2)) = false) : idleRefill s (idleSite r c wp k) =
    fillWarp s r.crew r.warp (match wp.refillPc with | some pc => pc + 16 | none => k.entryPc) := by
  simp only [idleRefill, refillTrap_idle, h, Bool.false_eq_true, if_false] <;> rfl

/-- A refill map that names a register at or above N: the trap of an idle warp is fatal (R173; log entry 130). -/
theorem idleRefill_traps (h : (k.rmap.any fun e => decide (wp.n ≤ e.2)) = true) {u : State} {i : Item}
    (hi : nextItem s c.launch = (u, some i)) : ∃ rec, idleRefill s (idleSite r c wp k) =
      faultContext (postRecord (askSave (setWarp s r.crew r.warp { wp with record := rec }) r.crew .fatal) c.ctx (fatalRecord rec))
        c.ctx ∧ rec.getD 0 0 = 1 ∧ rec.getD 2 0 = BitVec.ofNat 32 (5 + 2 ^ 16 * wp.n) := by
  have hi' : nextItem s (idleSite r c wp k).cr.launch = (u, some i) := hi
  simp only [idleRefill, refillTrap_idle, h, if_true, hi']
  exact ⟨_, rfl, rfl, rfl⟩

theorem idleRefill_drained (hc : kvGet s.crews r.crew = some c) (hwp : getWarp s r.crew r.warp = some wp)
    (hnone : nextItem s c.launch = (s, none)) : idleRefill s (idleSite r c wp k) = s := by
  cases h : k.rmap.any fun e => decide (wp.n ≤ e.2) with
  | false => rw [idleRefill_fills h, fillWarp_drained hc hwp hnone]
  | true =>
    have hnone' : nextItem s (idleSite r c wp k).cr.launch = (s, none) := hnone
    simp only [idleRefill, refillTrap_idle, h, if_true, hnone']

end

/-! ### Retirement (R152) -/

theorem mayRetire_iff (s : State) (c : Crew) (wp : Warp) : mayRetire s c wp = true ↔ wp.vacant = true ∧
    sourceDrained s (getLaunch s c.launch) = true ∧ ∀ e ∈ (getCore s c.core).bins, e.2.launch ≠ c.launch := by
  simp only [mayRetire, Bool.and_eq_true, Bool.not_eq_true', List.any_eq_false, beq_iff_eq, and_assoc, ne_eq]

section
variable {s : State} {crew warp : Nat} {c : Crew} {wp : Warp} (hc : kvGet s.crews crew = some c)
  (hwp : getWarp s crew warp = some wp)
include hc hwp

theorem retireWarp_stays (h : mayRetire s c wp = false) : retireWarp s crew warp = s := by
  simp only [retireWarp, hc, hwp, h, Bool.not_false, if_true]

/-- A warp all of whose command faults have been delivered retires with no record. -/
theorem retireWarp_retires (h : mayRetire s c wp = true) (hf : ∀ e ∈ wp.eng, e.2.faults = []) :
    retireWarp s crew warp = retireCrew (testSync (setWarp s crew warp { wp with
      retired := true, eng := kvMap wp.eng fun _ (e : EngClass) => { e with faults := [] }, rays := [], loads := [], grow := none,
      reformed := false }) crew) crew := by
  have hposts : wp.eng.foldl (fun s e => e.2.faults.foldl (fun s f => lostFault s crew warp e.1 f) s) s = s :=
    List.foldlRecOn (motive := fun t : State => t = s) wp.eng _ rfl fun t ht e he => by rw [hf e he, List.foldl_nil, ht]
  simp only [retireWarp, hc, hwp, h, Bool.not_true, Bool.false_eq_true, if_false, hposts]

end

/-! ### The end of a launch (R375) -/

section
variable {s : State} {id : Nat} {l : Launch} (hl : kvGet s.launches id = some l)
include hl

theorem launchComplete_waits (h : launchOver (touchSource s l) id l = false) :
    exec (.launchComplete id) s = .next (touchSource s l) := by
  simp only [exec, execLaunchComplete, hl, h, Bool.not_false, if_true]

theorem launchComplete_ends (h : launchOver (touchSource s l) id l = true) {e : Nat × Started}
    (he : (getQueue (touchSource s l) l.queue).started.find? (fun e => e.2 == .launch id) = some e) :
    exec (.launchComplete id) s = .next (settleContext (completeStarted { touchSource s l with
      launches := kvDel (touchSource s l).launches id, crews := kvFilter (touchSource s l).crews fun _ c => c.launch != id }
      l.queue e l.tag l.note) l.ctx) := by
  have hq (ls : KV Launch) (cs : KV Crew) :
      (getQueue { touchSource s l with launches := ls, crews := cs } l.queue).started.find? (fun e => e.2 == .launch id) = some e := he
  simp only [exec, execLaunchComplete, hl, h, Bool.not_true, Bool.false_eq_true, if_false, hq]

end

theorem launchOver_means {s : State} {id : Nat} {l : Launch} (h : launchOver s id l = true) : sourceDrained s l = true ∧
    (∀ e ∈ s.crews, e.2.launch = id → e.2.phase = .retired) ∧ ∀ e ∈ l.outS ++ l.outP ++ l.outG, e.2 = 0 := by
  simp only [launchOver, Bool.and_eq_true, List.all_eq_true, beq_iff_eq] at h
  obtain ⟨⟨⟨hdrained, -⟩, hcrews⟩, hout⟩ := h
  exact ⟨hdrained, fun e he hid => hcrews e (List.mem_filter.2 ⟨he, by simpa using hid⟩), hout⟩

/-- Settles O41: what each of these moves comes to in the states that its clause names. -/
theorem binAndRefillResults : Obligations.BinAndRefillResults := by
  intro s
  refine ⟨fun core k b hb => ?_, fun dws r c wp hr hc hwp hph => ?_, fun id l hl => ?_⟩
  · rw [binAged_eq hb]
    refine ⟨fun h => congrArg _ (if_pos ?_), fun hnone hage => congrArg _ (if_neg ?_)⟩
    · exact h.imp_left Option.isSome_iff_ne_none.2
    · simp only [hnone, Option.isSome_none, Bool.false_eq_true, false_or]
      omega
  · refine ⟨live_warp_stays hr hc hwp hph, fun hst hv => ?_, fun hst hidle hdraw => ?_, mayRetire_iff s c wp, fun hv d up hd hup => ?_⟩
    · have hexec := binDraw_eq hr hc hwp hph
      simp only [hst, hv, Bool.not_true, Bool.false_eq_true, or_self, if_false] at hexec
      refine ⟨fun hnone => ?_, fun k b hdraw => ⟨wp.drawn b, ?_, rfl, rfl, rfl, drawn_results hv⟩⟩
      · rw [hexec, hnone]
      · rw [hexec, hdraw]
    · have hexec := idleWarpRefill_eq hr hc hwp hph
      simp only [hst, hidle, hdraw, Option.isSome_none, Bool.not_true, Bool.false_eq_true, or_self, if_false] at hexec
      rw [hexec]
      refine ⟨fun hpast => ?_, fun hpast u i hi => ?_, fun hq hend => ?_⟩
      · exact congrArg _ (idleRefill_fills hpast)
      · obtain ⟨rec, hrec, hwords⟩ := idleRefill_traps (r := r) hpast hi
        exact ⟨rec, congrArg _ hrec, hwords⟩
      · rw [idleRefill_drained hc hwp (nextItem_drained hq hend)]
    · rw [warpRetire_eq hr hc hwp hph, if_pos hv]
      exact ⟨fun hno => congrArg _ (retireWarp_stays hd hup hno), fun hyes hf => congrArg _ (retireWarp_retires hd hup hyes hf)⟩
  · refine ⟨fun hq => ?_, launchComplete_waits hl, fun e hover he => launchComplete_ends hl hover he, launchOver_means⟩
    simp only [touchSource, hq, Option.bind_none]

end Sys2Proof.Machine
end

section
/-! REFILL from a dense range (R137, R151, R173, R364): the items that the source gives, in the order of the vacant lanes. -/

namespace Sys2Proof.Machine

/-! ### A lane that takes an item -/

/-- The registers of the refill map with an item's values. -/
def Kernel.mapped (k : Kernel) (it : Item) : List (Nat × W32) := k.rmap.map fun e => (e.2, mapSource it e.1)

theorem fillLane_regs (k : Kernel) (wp : Warp) (path l : Nat) (it : Item) :
    (fillLane k wp path l it).regs = (wp.regs.freshLane l).putLane l (k.mapped it) := by
  simp only [fillLane, Regs.putLane, Kernel.mapped, List.foldl_map]

theorem fillLane_keeps (k : Kernel) (wp : Warp) (path : Nat) {l m : Nat} (it : Item) (hl : l < 64) (hm : m < 64) (h : m ≠ l) :
    wp.LaneKept (fillLane k wp path l it) m := by
  refine ⟨?_, ?_, kvGet_kvSet_ne h, fun hr => ⟨kvDel_rising hr l, kvGet_kvDel_ne hr h⟩⟩
  · rw [fillLane_regs]
    exact (freshLane_keeps wp.regs hm h).trans (putLane_keeps _ _ hl hm h)
  · simp [fillLane, setLane_getLsbD wp.live l hm, h]

/-- A lane holds an item: its values, an empty return stack, clear flags, and the registers of the refill map (R173). -/
def Kernel.Filled (k : Kernel) (wp : Warp) (l : Nat) (it : Item) : Prop :=
  kvGet wp.items l = some { idx := it.idx, seq := it.seq } ∧ wp.regs.fnv.getLsbD l = false ∧ wp.regs.fnx.getLsbD l = false ∧
  ∀ src reg, (src, reg) ∈ k.rmap → (k.rmap.map (·.2)).Nodup → wp.regs.main reg l = mapSource it src

theorem Kernel.Filled.kept {k : Kernel} {wp wp' : Warp} {l : Nat} {it : Item} (h : k.Filled wp l it) (g : wp.LaneKept wp' l) :
    k.Filled wp' l it := by
  obtain ⟨hitem, hnv, hnx, hregs⟩ := h
  obtain ⟨⟨gregs, gnv, gnx⟩, -, gitem, -⟩ := g
  exact ⟨gitem.trans hitem, gnv.trans hnv, gnx.trans hnx, fun src reg hs hnd => (gregs reg).1.trans (hregs src reg hs hnd)⟩

theorem fillLane_fills (k : Kernel) (wp : Warp) (path : Nat) {l : Nat} (it : Item) (hl : l < 64) :
    k.Filled (fillLane k wp path l it) l it := by
  obtain ⟨hnv, hnx⟩ := freshLane_clears wp.regs hl
  obtain ⟨pnv, pnx, -⟩ := putLane_flags (wp.regs.freshLane l) l (k.mapped it)
  refine ⟨kvGet_kvSet_same _ _ _, ?_, ?_, fun src reg hs hnd => ?_⟩
  · rw [fillLane_regs, pnv, hnv]
  · rw [fillLane_regs, pnx, hnx]
  · have hkeys : (k.mapped it).map (·.1) = k.rmap.map (·.2) := by
      rw [Kernel.mapped, List.map_map]
      rfl
    rw [fillLane_regs]
    exact (putLane_mem _ hl (hkeys ▸ hnd) (List.mem_map.2 ⟨(src, reg), hs, rfl⟩)).1

/-! ### Items one after another -/

/-- The item of an index of a generated range (R137, R364). -/
def denseItem (i : Nat) : Item :=
  { idx := i, seq := BitVec.ofNat 32 i, words := [lowWord i, BitVec.ofNat 32 (i / 2 ^ 32 % 256)] ++ List.replicate 6 0 }

theorem mapSource_dense (i src : Nat) : mapSource (denseItem i) src =
    if src = 0 ∨ src = 3 then lowWord i else if src = 1 ∨ src = 4 then BitVec.ofNat 32 (i / 2 ^ 32 % 256)
    else if src = 2 then BitVec.ofNat 32 i else 0 := by
  match src with
  | 0 | 1 | 2 | 3 | 4 => rfl
  | n + 5 =>
    have hpad : (List.replicate 6 (0 : W32)).getD n 0 = 0 := by
      simp only [List.getD_eq_getElem?_getD, List.getElem?_replicate]
      split <;> rfl
    simpa [mapSource, denseItem] using hpad

/-- A warp whose lanes take items of a generated range, from index i on. -/
def fillFrom (k : Kernel) (path : Nat) : List Nat → Nat → Warp → Warp
  | [], _, wp => wp
  | l :: rest, i, wp => fillFrom k path rest (i + 1) (fillLane k wp path l (denseItem i))

/-- A generated range that has handed out n more items. -/
def Launch.gave (l : Launch) (n : Nat) : Launch := { l with nextItem := l.nextItem + n }

/-- A generated range gives its next index, until none is left. -/
theorem nextItem_dense {s : State} {id : Nat} (hq : (getLaunch s id).itemQueue = none)
    (h : (getLaunch s id).nextItem < (getLaunch s id).items) :
    ∃ t, nextItem s id = (t, some (denseItem (getLaunch s id).nextItem)) ∧ getLaunch t id = (getLaunch s id).gave 1 := by
  refine ⟨setLaunch s id ((getLaunch s id).gave 1), ?_, kvD_kvSet_same _ _ _ _⟩
  simp only [nextItem]
  split
  next q hsome => exact absurd (hq.symm.trans hsome) nofun
  · exact if_pos h

/-- A dense range fills the first of some lanes, as many as it has items for (R137, R173). -/
theorem fillLanes_dense (id core path : Nat) (lanes : List Nat) (s : State) (wp : Warp) {l : Launch} (hl : getLaunch s id = l)
    (hq : l.itemQueue = none) :
    ∃ t, fillLanes id core path lanes s wp =
        (t, fillFrom l.kernel path (lanes.take (min lanes.length (l.items - l.nextItem))) l.nextItem wp) ∧
      getLaunch t id = l.gave (min lanes.length (l.items - l.nextItem)) := by
  induction lanes generalizing s wp l with
  | nil => exact ⟨s, rfl, by simp [hl, Launch.gave]⟩
  | cons a rest ih =>
    subst hl
    by_cases h : (getLaunch s id).nextItem < (getLaunch s id).items
    · obtain ⟨u, hnext, hu⟩ := nextItem_dense hq h
      obtain ⟨t, hfill, ht⟩ := ih u (fillLane (getLaunch s id).kernel wp path a (denseItem (getLaunch s id).nextItem)) hu hq
      have hn : min (a :: rest).length ((getLaunch s id).items - (getLaunch s id).nextItem) =
          min rest.length (((getLaunch s id).gave 1).items - ((getLaunch s id).gave 1).nextItem) + 1 := by
        simp only [Launch.gave, List.length_cons]
        omega
      refine ⟨t, ?_, ?_⟩
      · have hdense : ((getLaunch s id).gave 1).itemQueue.isSome = false := by rw [Launch.gave, hq, Option.isSome_none]
        rw [fillLanes, hnext]
        simp only [hu, hdense, Bool.false_eq_true, if_false]
        rw [hn, List.take_succ_cons]
        exact hfill
      · rw [ht, hn]
        simp only [Launch.gave, Nat.add_assoc, Nat.add_comm 1]
    · have hn : min (a :: rest).length ((getLaunch s id).items - (getLaunch s id).nextItem) = 0 := by omega
      refine ⟨s, ?_, by simp only [hn, Launch.gave, Nat.add_zero]⟩
      simp only [hn, List.take_zero, fillFrom, fillLanes, nextItem, hq, if_neg h]

section
variable (k : Kernel) (path : Nat)

theorem fillFrom_keeps {lanes : List Nat} {m : Nat} (i : Nat) (wp : Warp) (hlt : ∀ l ∈ lanes, l < 64) (hm : m < 64) (h : m ∉ lanes) :
    wp.LaneKept (fillFrom k path lanes i wp) m := by
  induction lanes generalizing i wp with
  | nil => exact .refl wp m
  | cons a rest ih =>
    obtain ⟨hne, hrest⟩ := not_or.1 (List.mem_cons.not.1 h)
    obtain ⟨ha, hlt⟩ := List.forall_mem_cons.1 hlt
    exact (fillLane_keeps k wp path (denseItem i) ha hm hne).trans (ih _ _ hlt hrest)

/-- The j-th of the lanes holds the j-th of the items, and has no return stack. -/
theorem fillFrom_fills {lanes : List Nat} {j l : Nat} (i : Nat) (wp : Warp) (hlt : ∀ l ∈ lanes, l < 64) (hnd : lanes.Nodup)
    (h : lanes[j]? = some l) : k.Filled (fillFrom k path lanes i wp) l (denseItem (i + j)) ∧
      (Rising wp.stackTab → kvGet (fillFrom k path lanes i wp).stackTab l = none) := by
  induction lanes generalizing i j wp with
  | nil => exact absurd h (by simp)
  | cons a rest ih =>
    obtain ⟨ha, hlt⟩ := List.forall_mem_cons.1 hlt
    obtain ⟨hfresh, hnd⟩ := List.nodup_cons.1 hnd
    cases j with
    | zero =>
      obtain rfl : a = l := by simpa using h
      have hkept := fillFrom_keeps k path (i + 1) (fillLane k wp path a (denseItem i)) hlt ha hfresh
      refine ⟨(fillLane_fills k wp path (denseItem i) ha).kept hkept, fun hr => ?_⟩
      obtain ⟨-, -, -, hstack⟩ := hkept
      exact (hstack (kvDel_rising hr a)).2.trans (kvGet_kvDel_same hr a)
    | succ j =>
      obtain ⟨hfilled, hstack⟩ := ih (i + 1) (fillLane k wp path a (denseItem i)) hlt hnd (by simpa using h)
      rw [Nat.add_right_comm] at hfilled
      exact ⟨hfilled, fun hr => hstack (kvDel_rising hr a)⟩

theorem fillFrom_live {lanes : List Nat} {m : Nat} (i : Nat) (wp : Warp) (hm : m < 64) :
    (fillFrom k path lanes i wp).live.getLsbD m = true ↔ wp.live.getLsbD m = true ∨ m ∈ lanes := by
  induction lanes generalizing i wp with
  | nil => simp [fillFrom]
  | cons a rest ih =>
    rw [fillFrom, ih]
    simp [fillLane, setLane_getLsbD wp.live a hm, or_assoc]

/-- The path that the lanes join stands where it stood. -/
theorem fillFrom_path {lanes : List Nat} {p : Path} (i : Nat) (wp : Warp) (hp : kvGet wp.paths path = some p) :
    ∃ q, kvGet (fillFrom k path lanes i wp).paths path = some q ∧ q.pc = p.pc ∧
      ∀ m, m < 64 → (q.mask.getLsbD m = true ↔ p.mask.getLsbD m = true ∨ m ∈ lanes) := by
  induction lanes generalizing i wp p with
  | nil => exact ⟨p, hp, rfl, fun m _ => by simp⟩
  | cons a rest ih =>
    have hjoin : kvGet (fillLane k wp path a (denseItem i)).paths path = some { p with mask := p.mask ||| laneBit a } := by
      simp only [fillLane, kvGet_kvMod_same, hp, Option.map_some]
    obtain ⟨q, hq, hpc, hmask⟩ := ih (i + 1) _ hjoin
    refine ⟨q, hq, hpc, fun m hm => (hmask m hm).trans ?_⟩
    simp [setLane_getLsbD p.mask a hm, or_assoc]

/-- Filling lanes touches neither the run nor the refill point. -/
theorem fillFrom_frame (lanes : List Nat) (i : Nat) (wp : Warp) :
    (fillFrom k path lanes i wp).run = wp.run ∧ (fillFrom k path lanes i wp).refillPc = wp.refillPc := by
  induction lanes generalizing i wp with
  | nil => exact ⟨rfl, rfl⟩
  | cons a rest ih => exact ih (i + 1) _

end

/-! ### REFILL (R173) -/

/-- Lanes that have not arrived are a matter of barriers and groups: the source of a launch stands. -/
theorem unarrive_nextItem (s : State) (crew warp : Nat) (m : Mask) (id : Nat) :
    (getLaunch (unarrive s crew warp m) id).nextItem = (getLaunch s id).nextItem := by
  simp only [unarrive]
  split
  · simp only [getLaunch, setLaunch_launches, modCrew_launches, kvD_kvSet]
    split
    next h => rw [h]
    · rfl
  · rfl

theorem runEnded_endRun (x : Site) (w : Enc) (pc : W64) : RunEnded x x.wp (x.endRun w pc) ∧
    kvGet (x.endRun w pc).paths x.rn.path = some (x.pa.endedAt pc) :=
  ⟨⟨rfl, rfl, rfl, fun _ _ hk hp => (kvGet_kvSet_ne hk).trans hp⟩, kvGet_kvSet_same _ _ _⟩

/-- A path whose instruction has no active lane goes on to the next word with its run ended (R160). -/
theorem fallThrough_steps (x : Site) (w : Enc) (s : State) :
    Stepped (.next ((x.fallThrough w s).state w)) s x (x.pa.pc + 16) := by
  obtain ⟨hended, hpath⟩ := runEnded_endRun x w (x.pa.pc + 16)
  exact ⟨_, rfl, hended, _, hpath, rfl, rfl, rfl⟩

theorem kernel_of_site {i : Instr} {w : Enc} {s : State} {x : Site} (h : Issues i w s x) :
    x.k = (getLaunch s x.cr.launch).kernel := by
  obtain ⟨y, hy, -, -, rfl, -⟩ := h
  unfold siteOf at hy
  repeat' split at hy
  all_goals cases hy
  rfl

section
variable {w : Enc} {s : State} {x : Site} (hi : Issues (.refill w) w s x)
include hi

theorem refill_idle (hact : x.act = 0) : Stepped (exec (.refill w) s) s x (x.pa.pc + 16) := by
  rw [exec, execRefill, issue_go hi]
  simp only [if_pos hact]
  exact fallThrough_steps x w s

theorem refill_traps (hact : x.act ≠ 0) (h : ∃ e ∈ x.k.rmap, x.wp.n ≤ e.2) : exec (.refill w) s =
    .next (takeTrap s x { code := 0x01, tx := BitVec.ofNat 32 (5 + 2 ^ 16 * x.wp.n), mask := x.act }) := by
  have hpast : (x.k.rmap.any fun e => decide (x.wp.n ≤ e.2)) = true := by simpa using h
  rw [exec, execRefill, issue_go hi]
  simp only [if_neg hact, refillTrap, hpast, if_true]
  rfl

/-- What a REFILL that does not trap makes of its warp: its run has ended, and the source has filled its vacant lanes. -/
theorem refill_fills (hact : x.act ≠ 0) (h : ∀ e ∈ x.k.rmap, e.2 < x.wp.n) {t : State} {wp : Warp}
    (hfill : fillLanes x.cr.launch x.ref.core x.rn.path (vacantLanes x.width x.wp) s
      { x.endRun w (x.pa.pc + 16) with refillPc := some x.pa.pc } = (t, wp)) : exec (.refill w) s =
    .next (setWarp (unarrive t x.ref.crew x.ref.warp (wp.live &&& ~~~x.wp.live)) x.ref.crew x.ref.warp
      (settlePaths (wp.unarrive (wp.live &&& ~~~x.wp.live)))) := by
  have hpast : (x.k.rmap.any fun e => decide (x.wp.n ≤ e.2)) = false := by simpa using h
  have hlanes : vacantLanes x.width { x.endRun w (x.pa.pc + 16) with refillPc := some x.pa.pc } = vacantLanes x.width x.wp := rfl
  rw [exec, execRefill, issue_go hi]
  simp only [if_neg hact, refillTrap, hpast, Bool.false_eq_true, if_false, hlanes, hfill]
  rfl

end

/-- Settles O12: the lanes that a dense range fills, one item after another. -/
theorem refillResults : Obligations.RefillResults := by
  intro w s x hi l
  refine ⟨refill_idle hi, refill_traps hi, fun hact hmap hq => ?_⟩
  intro vacant n
  have hlt : ∀ a ∈ vacant.take n, a < 64 := fun a ha => (mem_lanesOf.1 (List.mem_of_mem_take ha)).1
  have hnd : (vacant.take n).Nodup := (lanesOf_nodup _).sublist (List.take_sublist n vacant)
  let w0 : Warp := { x.endRun w (x.pa.pc + 16) with refillPc := some x.pa.pc }
  obtain ⟨t, hfill, hlaunch⟩ := fillLanes_dense x.cr.launch x.ref.core x.rn.path vacant s w0 rfl hq
  rw [← kernel_of_site hi] at hfill
  obtain ⟨hrun, hpc⟩ := fillFrom_frame x.k x.rn.path (vacant.take n) l.nextItem w0
  have hpath : kvGet w0.paths x.rn.path = some (x.pa.endedAt (x.pa.pc + 16)) := (runEnded_endRun x w _).2
  refine ⟨_, _, refill_fills hi hact hmap hfill, hrun, hpc, ?_, fun k hk => fillFrom_live x.k x.rn.path _ w0 hk,
    fillFrom_path x.k x.rn.path _ w0 hpath, fun i k hk hin => ?_⟩
  · rw [unarrive_nextItem, hlaunch]
    rfl
  · obtain ⟨⟨hitem, hnv, hnx, hregs⟩, hstack⟩ := fillFrom_fills x.k x.rn.path l.nextItem w0 hlt hnd (j := i) (l := k)
      (by rw [List.getElem?_take_of_lt hin, hk])
    exact ⟨hitem, hstack, hnv, hnx, fun src reg hs hmapnd => (hregs src reg hs hmapnd).trans (mapSource_dense _ src)⟩

end Sys2Proof.Machine
end

section
/-! Path tables that settle to one table (R158, R170, R171). A statement that names the warp before its waits are tested is met by every
table that settles to the same one. Where the keys of a table do not rise, which no step builds but an arbitrary state may hold, a table
other than the one that an instruction leaves is the one wanted: a screen of paths put before the table, whose merges hide the table
until they have all merged away. -/

namespace Sys2Proof.Machine

/-! ### Merges at JOIN and JWAIT -/

/-- A path that waits at a JOIN or a JWAIT. -/
def Path.waits (p : Path) : Bool := match p.st with
  | .parkedJoin _ | .parkedWait _ => true
  | _ => false

/-- A choice of waiting paths by what they wait for and where. -/
def Chooses (g : Path → Bool) : Prop := (∀ p, g p = true → p.waits = true) ∧ ∀ p q : Path, p.st = q.st → p.pc = q.pc → g p = g q

/-- Some choices of a table's paths merge, one choice after another. -/
def mergeAll (all ps : KV Path) (gs : List (Path → Bool)) : KV Path :=
  gs.foldl (fun ps g => mergePaths ps (all.filter fun e => g e.2) releasedPath) ps

theorem chooses_parkedJoin (j pc : Nat) : Chooses fun p => p.pc.toNat == pc && p.st == .parkedJoin j := by
  refine ⟨fun p h => ?_, fun p q hst hpc => by simp only [hst, hpc]⟩
  simp only [Bool.and_eq_true, beq_iff_eq] at h
  simp only [Path.waits, h.2]

theorem chooses_parkedWait (j pc : Nat) : Chooses fun p => p.pc.toNat == pc && p.st == .parkedWait j := by
  refine ⟨fun p h => ?_, fun p q hst hpc => by simp only [hst, hpc]⟩
  simp only [Bool.and_eq_true, beq_iff_eq] at h
  simp only [Path.waits, h.2]

theorem joinDue_merges {wp : Warp} {j : Nat} {ps : KV Path} (h : joinDue wp j = some ps) :
    ∃ gs, (∀ g ∈ gs, Chooses g) ∧ ps = mergeAll wp.paths wp.paths gs := by
  simp only [joinDue, Option.map_eq_some_iff] at h
  obtain ⟨pc, -, rfl⟩ := h
  refine ⟨[fun p => p.pc.toNat == pc && p.st == .parkedJoin j], List.forall_mem_singleton.2 (chooses_parkedJoin j pc), ?_⟩
  simp only [mergeAll, List.foldl_cons, List.foldl_nil, atPc, List.filter_filter]

theorem jwaitDue_merges {wp : Warp} {j : Nat} {ps : KV Path} (h : jwaitDue wp j = some ps) :
    ∃ gs, (∀ g ∈ gs, Chooses g) ∧ ps = mergeAll wp.paths wp.paths gs := by
  simp only [jwaitDue] at h
  split at h
  · obtain rfl := Option.some.inj h
    refine ⟨(pathPcs (wp.paths.filter fun e => e.2.st == .parkedWait j)).map fun pc p => p.pc.toNat == pc && p.st == .parkedWait j,
      List.forall_mem_map.2 fun pc _ => chooses_parkedWait j pc, ?_⟩
    simp only [mergeAll, List.foldl_map, atPc, List.filter_filter]
  · exact absurd h nofun

/-- What holds of a warp's paths, and of what their merges make of them, holds when every JOIN and JWAIT is tested; nothing else of
the warp changes. -/
theorem settleJoins_keeps {P : KV Path → Prop} (hstep : ∀ ps gs, P ps → (∀ g ∈ gs, Chooses g) → P (mergeAll ps ps gs)) (n : Nat)
    {wp : Warp} (h : P wp.paths) :
    P (settleJoins n wp).paths ∧ settleJoins n wp = { wp with paths := (settleJoins n wp).paths } := by
  induction n generalizing wp with
  | zero => exact ⟨h, rfl⟩
  | succ n ih =>
    rw [settleJoins]
    split
    next ps hps =>
      obtain ⟨j, -, hj⟩ := List.exists_of_findSome?_eq_some hps
      have hmerges : ∃ gs, (∀ g ∈ gs, Chooses g) ∧ ps = mergeAll wp.paths wp.paths gs := by
        cases hdue : joinDue wp j with
        | some qs =>
          rw [hdue] at hj
          obtain rfl : qs = ps := Option.some.inj hj
          exact joinDue_merges hdue
        | none =>
          rw [hdue] at hj
          exact jwaitDue_merges hj
      obtain ⟨gs, hgs, rfl⟩ := hmerges
      exact ih (wp := { wp with paths := mergeAll wp.paths wp.paths gs }) (hstep _ _ h hgs)
    · exact ⟨h, rfl⟩

/-- Where no path waits at a JOIN or a JWAIT nothing is due. -/
theorem settleJoins_of_none_waits {wp : Warp} (h : ∀ e ∈ wp.paths, e.2.waits = false) (n : Nat) : settleJoins n wp = wp := by
  have hnone {g : Path → Bool} (hg : Chooses g) : wp.paths.filter (fun e => g e.2) = [] :=
    List.filter_eq_nil_iff.2 fun e he hge => ne_true_of_eq_false (h e he) (hg.1 _ hge)
  have hkeep (ps : KV Path) (gs : List (Path → Bool)) (hps : ps = wp.paths) (hgs : ∀ g ∈ gs, Chooses g) :
      mergeAll ps ps gs = wp.paths := by
    subst hps
    refine List.foldlRecOn (motive := fun qs : KV Path => qs = wp.paths) gs _ rfl fun qs hqs g hg => ?_
    rw [hnone (hgs g hg), mergePaths, pickMin]
    exact hqs
  obtain ⟨hpaths, hwp⟩ := settleJoins_keeps (P := fun ps => ps = wp.paths) hkeep n rfl
  rw [hwp, hpaths]

/-! ### Lanes of a table -/

/-- Every path of a table has lanes, and none of them is of a mask. -/
def Avoids (m : Mask) (ps : KV Path) : Prop := ∀ e ∈ ps, e.2.mask &&& m = 0 ∧ e.2.mask ≠ 0

theorem or_avoids {m a b : Mask} (ha : a &&& m = 0) (hb : b &&& m = 0) : (a ||| b) &&& m = 0 := by
  rw [BitVec.and_comm, BitVec.and_or_distrib_left, BitVec.and_comm m a, BitVec.and_comm m b, ha, hb]
  rfl

theorem foldl_kvDel_mem {l ps : KV Path} {e : Nat × Path} (h : e ∈ l.foldl (fun m e => kvDel m e.1) ps) : e ∈ ps := by
  induction l generalizing ps with
  | nil => exact h
  | cons a t ih => exact kvDel_mem (ih h)

theorem pickMin_mem {α : Type} {lt : α → α → Bool} {l : List α} {x : α} (h : pickMin lt l = some x) : x ∈ l := by
  induction l generalizing x with
  | nil => exact absurd h nofun
  | cons a t ih =>
    rw [pickMin] at h
    split at h
    · obtain rfl := Option.some.inj h
      exact List.mem_cons_self
    next y hy =>
      split at h
      · obtain rfl := Option.some.inj h
        exact List.mem_cons_of_mem _ (ih hy)
      · obtain rfl := Option.some.inj h
        exact List.mem_cons_self

theorem unionMask_avoids {m : Mask} {l : KV Path} (h : Avoids m l) (hne : l ≠ []) : unionMask l &&& m = 0 ∧ unionMask l ≠ 0 := by
  have key (l : KV Path) (h : Avoids m l) (a : Mask) (ha : a &&& m = 0) (hpos : l ≠ [] ∨ a ≠ 0) :
      l.foldl (fun m e => m ||| e.2.mask) a &&& m = 0 ∧ l.foldl (fun m e => m ||| e.2.mask) a ≠ 0 := by
    induction l generalizing a with
    | nil => exact ⟨ha, hpos.resolve_left (not_not_intro rfl)⟩
    | cons e t ih =>
      obtain ⟨⟨hmask, hpos⟩, ht⟩ := List.forall_mem_cons.1 h
      refine ih ht _ (or_avoids ha hmask) (.inr fun hz => hpos ?_)
      exact (BitVec.or_eq_zero_iff.1 hz).2
  exact key l h 0 (BitVec.zero_and) (.inl hne)

theorem mergePaths_avoids {m : Mask} {ps l : KV Path} (h : Avoids m ps) (hl : Avoids m l) : Avoids m (mergePaths ps l releasedPath) := by
  rw [mergePaths]
  split
  · exact h
  next k p hp =>
    intro e he
    obtain rfl | he := kvSet_mem he
    · exact unionMask_avoids hl (List.ne_nil_of_mem (pickMin_mem hp))
    · exact h e (foldl_kvDel_mem he)

theorem settleJoins_avoids {m : Mask} {wp : Warp} (h : Avoids m wp.paths) (n : Nat) : Avoids m (settleJoins n wp).paths := by
  refine (settleJoins_keeps (P := Avoids m) (fun ps gs hps _ => ?_) n h).1
  refine List.foldlRecOn (motive := Avoids m) gs _ hps fun qs hqs g _ => ?_
  exact mergePaths_avoids hqs fun e he => hps e (List.mem_of_mem_filter he)

/-! ### A screen -/

theorem kvGet_none_of_no_key {α : Type} {m : KV α} {x : Nat} (h : ∀ e ∈ m, e.1 ≠ x) : kvGet m x = none :=
  Option.eq_none_iff_forall_ne_some.2 fun _ hv => h _ (kvGet_mem hv) rfl

theorem kvMod_of_no_key {α : Type} {m : KV α} {x : Nat} (f : α → α) (h : ∀ e ∈ m, e.1 ≠ x) : kvMod m x f = m := by
  refine (List.map_congr_left fun e he => ?_).trans (List.map_id m)
  exact if_neg (h e he)

/-- A path that goes back to the branch at 0, where it was split off, and a post that was left at that branch. -/
def sweep (lanes : Mask) : Path := { mask := lanes, splitFrom := some 0 }
def post (lanes : Mask) : Path := { mask := lanes, splitFrom := some 0, stay := true }

/-- A path that waits where another does, and merges with it first. -/
def Path.double (p : Path) : Path := { pc := p.pc, mask := p.mask, st := p.st }

/-- The doubles of a table's waiting paths, under one key, after a path that waits for nothing. -/
def doubles (K : Nat) (lanes : Mask) (L : KV Path) : KV Path :=
  (K, { mask := lanes }) :: (L.filter fun e => e.2.waits).map fun e => (K, e.2.double)

/-- As many sweeps, under that key. -/
def sweeps (K : Nat) (lanes : Mask) (L : KV Path) : KV Path := (doubles K lanes L).map fun _ => (K, sweep lanes)

def posts (K : Nat) (lanes : Mask) : KV Path :=
  [(K + 1, post lanes), (K + 2, post lanes), (K + 3, post lanes), (K + 4, post lanes)]

/-- A table behind its screen, which is of keys above its own: posts, which hide the keys below theirs, the doubles of its waiting
paths, which take the released paths to the screen's key, and the sweeps, which take those away when the posts are tested. -/
def screened (K : Nat) (lanes : Mask) (L : KV Path) : KV Path := posts K lanes ++ (doubles K lanes L ++ (sweeps K lanes L ++ L))

/-- What the merges of a screened table put before it: at most one path, under the screen's key. -/
def Front (K : Nat) (R : KV Path) : Prop := R = [] ∨ ∃ p : Path, R = [(K, p)] ∧ p.st = .ready ∧ p.stay = false ∧ p.splitFrom = none

section
variable {K : Nat} {R l T : KV Path} {z p : Path}

theorem foldl_kvDel_front (hR : Front K R) (hl : ∀ e ∈ l, e.1 ≤ K) : ∃ R', Front K R' ∧
    l.foldl (fun m e => kvDel m e.1) (R ++ (K + 1, z) :: T) = R' ++ (K + 1, z) :: T := by
  induction l generalizing R with
  | nil => exact ⟨R, hR, rfl⟩
  | cons e t ih =>
    obtain ⟨he, ht⟩ := List.forall_mem_cons.1 hl
    have hbelow : kvDel ((K + 1, z) :: T) e.1 = (K + 1, z) :: T := by
      rw [kvDel, if_neg (by omega), if_pos (by omega)]
    rw [List.foldl_cons]
    obtain rfl | ⟨p, rfl, hp⟩ := hR
    · rw [List.nil_append, hbelow]
      exact ih (R := []) (.inl rfl) ht
    · by_cases hK : e.1 = K
      · rw [hK, List.singleton_append, kvDel, if_pos rfl]
        exact ih (R := []) (.inl rfl) ht
      · rw [List.singleton_append, kvDel, if_neg (Ne.symm hK), if_pos (by omega)]
        exact ih (R := [(K, p)]) (.inr ⟨p, rfl, hp⟩) ht

theorem kvSet_front (hR : Front K R) : kvSet (R ++ (K + 1, z) :: T) K p = [(K, p)] ++ (K + 1, z) :: T := by
  obtain rfl | ⟨q, rfl, -⟩ := hR
  · rw [List.nil_append, kvSet, if_neg (by omega), if_pos (by omega)]
    rfl
  · rw [List.singleton_append, kvSet, if_pos rfl]
    rfl

/-- A merge whose path is under the screen's key leaves the table behind the screen as it is. -/
theorem mergePaths_front (hR : Front K R) (hl : ∀ e ∈ l, e.1 ≤ K)
    (hpick : ∀ e, pickMin (fun a b => decide (lowLane a.2.mask < lowLane b.2.mask)) l = some e →
      e.1 = K ∧ e.2.stay = false ∧ e.2.splitFrom = none) :
    ∃ R', Front K R' ∧ mergePaths (R ++ (K + 1, z) :: T) l releasedPath = R' ++ (K + 1, z) :: T := by
  rw [mergePaths]
  split
  · exact ⟨R, hR, rfl⟩
  next k p hp =>
    obtain ⟨rfl, hstay, hsplit⟩ := hpick (k, p) hp
    obtain ⟨R', hR', hdel⟩ := foldl_kvDel_front (z := z) (T := T) hR hl
    rw [hdel, kvSet_front hR']
    exact ⟨[(k, releasedPath { p with mask := unionMask l })], .inr ⟨_, rfl, rfl, hstay, hsplit⟩, rfl⟩

end

/-- The first of the least comes first: it is of the first list, or less than all of it. -/
theorem pickMin_append {α : Type} (f : α → Nat) {A B : List α} {x : α}
    (h : pickMin (fun a b => decide (f a < f b)) (A ++ B) = some x) : x ∈ A ∨ (x ∈ B ∧ ∀ a ∈ A, f x < f a) := by
  induction A generalizing x with
  | nil => exact .inr ⟨pickMin_mem h, fun a ha => absurd ha List.not_mem_nil⟩
  | cons a t ih =>
    rw [List.cons_append, pickMin] at h
    split at h
    · obtain rfl := Option.some.inj h
      exact .inl List.mem_cons_self
    next y hy =>
      split at h
      next hlt =>
        obtain rfl := Option.some.inj h
        obtain hA | ⟨hB, hall⟩ := ih hy
        · exact .inl (List.mem_cons_of_mem _ hA)
        · exact .inr ⟨hB, List.forall_mem_cons.2 ⟨of_decide_eq_true hlt, hall⟩⟩
      · obtain rfl := Option.some.inj h
        exact .inl List.mem_cons_self

section
variable {K : Nat} {lanes : Mask} {L R : KV Path} {g : Path → Bool}

theorem key_of_doubles {e : Nat × Path} (h : e ∈ doubles K lanes L) : e.1 = K ∧ e.2.stay = false ∧ e.2.splitFrom = none := by
  obtain rfl | h := List.mem_cons.1 h
  · exact ⟨rfl, rfl, rfl⟩
  · obtain ⟨q, -, rfl⟩ := List.mem_map.1 h
    exact ⟨rfl, rfl, rfl⟩

theorem mem_sweeps {e : Nat × Path} (h : e ∈ sweeps K lanes L) : e = (K, sweep lanes) := by
  obtain ⟨-, -, rfl⟩ := List.mem_map.1 h
  rfl

theorem mem_posts {e : Nat × Path} (h : e ∈ posts K lanes) : K < e.1 ∧ e.2 = post lanes := by
  simp only [posts, List.mem_cons, List.not_mem_nil, or_false] at h
  obtain rfl | rfl | rfl | rfl := h
  all_goals exact ⟨by simp, rfl⟩

/-- The waiting paths of a screened table are its own and their doubles, which come first. -/
theorem filter_screened (hg : Chooses g) (hR : Front K R) : (R ++ screened K lanes L).filter (fun e => g e.2) =
    (doubles K lanes L).filter (fun e => g e.2) ++ L.filter (fun e => g e.2) := by
  have hnone {ps : KV Path} (h : ∀ e ∈ ps, e.2.st = .ready) : ps.filter (fun e => g e.2) = [] := by
    refine List.filter_eq_nil_iff.2 fun e he hge => ?_
    have hw := hg.1 _ hge
    simp only [Path.waits, h e he, Bool.false_eq_true] at hw
  have hfront : R.filter (fun e => g e.2) = [] := by
    refine hnone ?_
    obtain rfl | ⟨p, rfl, hst, -⟩ := hR
    · exact fun e he => absurd he List.not_mem_nil
    · exact List.forall_mem_singleton.2 hst
  have hposts : (posts K lanes).filter (fun e => g e.2) = [] := hnone fun e he => by rw [(mem_posts he).2]; rfl
  have hsweeps : (sweeps K lanes L).filter (fun e => g e.2) = [] := hnone fun e he => by rw [mem_sweeps he]; rfl
  simp only [screened, List.filter_append, hfront, hposts, hsweeps, List.nil_append]

/-- The merges of a screened table leave it behind its screen. -/
theorem mergeAll_screened {gs : List (Path → Bool)} (hL : ∀ e ∈ L, e.1 < K) (hgs : ∀ g ∈ gs, Chooses g) (hR : Front K R) :
    ∃ R', Front K R' ∧ mergeAll (R ++ screened K lanes L) (R ++ screened K lanes L) gs = R' ++ screened K lanes L := by
  refine List.foldlRecOn (motive := fun ps : KV Path => ∃ R', Front K R' ∧ ps = R' ++ screened K lanes L) gs _ ⟨R, hR, rfl⟩ ?_
  rintro _ ⟨R₁, hR₁, rfl⟩ g hmem
  have hg := hgs g hmem
  rw [filter_screened hg hR]
  refine mergePaths_front hR₁ (fun e he => ?_) fun e he => ?_
  · obtain he | he := List.mem_append.1 he
    · exact (key_of_doubles (List.mem_of_mem_filter he)).1.le
    · exact (hL e (List.mem_of_mem_filter he)).le
  · obtain hd | ⟨hown, hless⟩ := pickMin_append (fun a : Nat × Path => lowLane a.2.mask) he
    · exact key_of_doubles (List.mem_of_mem_filter hd)
    · obtain ⟨hown, hge⟩ := List.mem_filter.1 hown
      have hdouble : (K, e.2.double) ∈ (doubles K lanes L).filter fun e => g e.2 :=
        List.mem_filter.2 ⟨List.mem_cons_of_mem _ (List.mem_map.2 ⟨e, List.mem_filter.2 ⟨hown, hg.1 _ hge⟩, rfl⟩),
          (hg.2 e.2.double e.2 rfl rfl).trans hge⟩
      exact absurd (hless _ hdouble) (lt_irrefl _)

end

/-! ### The posts are tested -/

/-- The paths of a warp that are back at a branch where a path was left, of those that a table still has. -/
def backAt (wp : Warp) (ps : KV Path) (q : Nat × Path) : KV Path :=
  wp.paths.filter fun e => (kvGet ps e.1).isSome && backAtBranch wp e q

/-- A path that was left at its branch takes back the paths that stand there (R158). -/
def stayStep (wp : Warp) (ps : KV Path) (q : Nat × Path) : KV Path :=
  if (backAt wp ps q).isEmpty then ps
  else kvMod ((backAt wp ps q).foldl (fun m e => kvDel m e.1) ps) q.1 fun p => { p with mask := p.mask ||| unionMask (backAt wp ps q) }

theorem stayStep_of_back {wp : Warp} {ps back : KV Path} {q : Nat × Path} (h : backAt wp ps q = back) (hne : back ≠ []) :
    ∃ f, stayStep wp ps q = kvMod (back.foldl (fun m e => kvDel m e.1) ps) q.1 f := by
  subst h
  exact ⟨_, if_neg fun he => hne (List.isEmpty_iff.1 he)⟩

theorem settleStays_eq (wp : Warp) :
    settleStays wp = { wp with paths := (wp.paths.filter fun q => q.2.stay).foldl (stayStep wp) wp.paths } := rfl

/-- A key that is taken away as often as a table begins with it. -/
theorem foldl_kvDel_heads {K : Nat} {A l T : KV Path} (hA : ∀ e ∈ A, e.1 = K) (hl : ∀ e ∈ l, e.1 = K) (hlen : A.length = l.length) :
    l.foldl (fun m e => kvDel m e.1) (A ++ T) = T := by
  induction l generalizing A with
  | nil =>
    obtain rfl := List.length_eq_zero_iff.1 hlen
    rfl
  | cons e t ih =>
    cases A with
    | nil => exact absurd hlen (by simp)
    | cons a A =>
      obtain ⟨ha, hA⟩ := List.forall_mem_cons.1 hA
      obtain ⟨he, ht⟩ := List.forall_mem_cons.1 hl
      rw [List.foldl_cons, List.cons_append, he, ← ha, kvDel, if_pos rfl]
      exact ih hA ht (by simpa using hlen)

/-- Keys that a table does not reach are taken from nowhere. -/
theorem foldl_kvDel_hidden {K : Nat} {l T : KV Path} {z : Path} (hl : ∀ e ∈ l, e.1 = K) :
    l.foldl (fun m e => kvDel m e.1) ((K + 1, z) :: T) = (K + 1, z) :: T := by
  induction l with
  | nil => rfl
  | cons e t ih =>
    obtain ⟨he, ht⟩ := List.forall_mem_cons.1 hl
    rw [List.foldl_cons, kvDel, if_neg (by omega), if_pos (by omega), ih ht]

section
variable {wp : Warp} {K : Nat} {lanes : Mask} {L R ps : KV Path} (hrun : wp.run = none) (hL : ∀ e ∈ L, e.1 < K) (hR : Front K R)

include hrun hR in
/-- What is back at a post of a screened table, where its own paths are hidden: other posts, and the sweeps where their key is. -/
theorem back_post (n : Nat) (hid : ∀ e ∈ L, kvGet ps e.1 = none) :
    backAt { wp with paths := R ++ screened K lanes L } ps (n, post lanes) =
    (posts K lanes).filter (fun e => (kvGet ps e.1).isSome && e.1 != n) ++
      if (kvGet ps K).isSome ∧ K ≠ n then sweeps K lanes L else [] := by
  have hinert {qs : KV Path} (h : ∀ e ∈ qs, e.2.splitFrom = none) : qs.filter (fun e => (kvGet ps e.1).isSome &&
      backAtBranch { wp with paths := R ++ screened K lanes L } e (n, post lanes)) = [] :=
    List.filter_eq_nil_iff.2 fun e he hb => by
      simp [backAtBranch, h e he] at hb
  have hfront : ∀ e ∈ R, e.2.splitFrom = none := by
    obtain rfl | ⟨p, rfl, -, -, hsplit⟩ := hR
    · exact fun e he => absurd he List.not_mem_nil
    · exact List.forall_mem_singleton.2 hsplit
  have hown : L.filter (fun e => (kvGet ps e.1).isSome &&
      backAtBranch { wp with paths := R ++ screened K lanes L } e (n, post lanes)) = [] :=
    List.filter_eq_nil_iff.2 fun e he => by simp [hid e he]
  have hposts : (posts K lanes).filter (fun e => (kvGet ps e.1).isSome &&
      backAtBranch { wp with paths := R ++ screened K lanes L } e (n, post lanes)) =
      (posts K lanes).filter (fun e => (kvGet ps e.1).isSome && e.1 != n) :=
    List.filter_congr fun e he => by simp [backAtBranch, (mem_posts he).2, post, hrun]
  have hsweeps : (sweeps K lanes L).filter (fun e => (kvGet ps e.1).isSome &&
      backAtBranch { wp with paths := R ++ screened K lanes L } e (n, post lanes)) =
      if (kvGet ps K).isSome ∧ K ≠ n then sweeps K lanes L else [] := by
    split
    next h =>
      refine List.filter_eq_self.2 fun e he => ?_
      simp [mem_sweeps he, backAtBranch, sweep, post, hrun, h.1, h.2]
    next h =>
      refine List.filter_eq_nil_iff.2 fun e he hb => h ?_
      rw [mem_sweeps he] at hb
      simp [backAtBranch, sweep, post, hrun] at hb
      exact hb
  rw [backAt, screened, List.filter_append, List.filter_append, List.filter_append, List.filter_append, ← screened, hinert hfront, hposts,
    hinert fun e he => (key_of_doubles he).2.2, hsweeps, hown, List.nil_append, List.nil_append, List.append_nil]

/-- The keys of the screen's second part and of the table. -/
theorem key_le_of_behind {e : Nat × Path} (hL : ∀ e ∈ L, e.1 < K) (h : e ∈ doubles K lanes L ++ (sweeps K lanes L ++ L)) : e.1 ≤ K := by
  obtain h | h := List.mem_append.1 h
  · exact (key_of_doubles h).1.le
  · obtain h | h := List.mem_append.1 h
    · exact (congrArg Prod.fst (mem_sweeps h)).le
    · exact (hL e h).le

theorem kvGet_hidden {k x : Nat} {v : Path} {T : KV Path} (h : x < k) : kvGet ((k, v) :: T) x = none := by
  rw [kvGet, if_neg (by omega), if_pos h]

/-- Only the first entry of a key above the table's is at that key. -/
theorem kvMod_head {k : Nat} {z : Path} {T : KV Path} (f : Path → Path) (h : ∀ e ∈ T, e.1 ≠ k) :
    kvMod ((k, z) :: T) k f = (k, f z) :: T := by
  have hT := kvMod_of_no_key f h
  simp only [kvMod, List.map_cons, if_true] at hT ⊢
  rw [hT]

theorem sweeps_ne_nil : sweeps K lanes L ≠ [] := List.cons_ne_nil _ _

include hrun hL hR in
/-- The first post takes the other posts and what the merges put before them. -/
theorem stayStep_first : ∃ z, stayStep { wp with paths := R ++ screened K lanes L } (R ++ screened K lanes L) (K + 1, post lanes) =
    (K + 1, z) :: (doubles K lanes L ++ (sweeps K lanes L ++ L)) := by
  have hkeys : ∀ e ∈ doubles K lanes L ++ (sweeps K lanes L ++ L), e.1 ≠ K + 1 := fun e he =>
    (Nat.lt_succ_of_le (key_le_of_behind hL he)).ne
  have hsweep : ∀ e ∈ sweeps K lanes L, e.1 = K := fun e he => congrArg Prod.fst (mem_sweeps he)
  have hfold : ∃ back, backAt { wp with paths := R ++ screened K lanes L } (R ++ screened K lanes L) (K + 1, post lanes) = back ∧
      back ≠ [] ∧ back.foldl (fun m e => kvDel m e.1) (R ++ screened K lanes L) =
        (K + 1, post lanes) :: (doubles K lanes L ++ (sweeps K lanes L ++ L)) := by
    obtain rfl | ⟨p, rfl, hp⟩ := hR
    · have hid : ∀ e ∈ L, kvGet ([] ++ screened K lanes L) e.1 = none := fun e he => kvGet_hidden (Nat.lt_succ_of_lt (hL e he))
      refine ⟨[(K + 2, post lanes), (K + 3, post lanes), (K + 4, post lanes)], (back_post hrun (.inl rfl) _ hid).trans ?_, nofun, ?_⟩
      · simp [screened, posts, kvGet]
      · simp [screened, posts, kvDel]
    · have hid : ∀ e ∈ L, kvGet ([(K, p)] ++ screened K lanes L) e.1 = none := fun e he => kvGet_hidden (hL e he)
      refine ⟨[(K + 2, post lanes), (K + 3, post lanes), (K + 4, post lanes)] ++ sweeps K lanes L,
        (back_post hrun (.inr ⟨p, rfl, hp⟩) _ hid).trans ?_, nofun, ?_⟩
      · simp [screened, posts, kvGet]
      · have hposts : [(K + 2, post lanes), (K + 3, post lanes), (K + 4, post lanes)].foldl (fun m e => kvDel m e.1)
            ([(K, p)] ++ screened K lanes L) = (K, p) :: (K + 1, post lanes) :: (doubles K lanes L ++ (sweeps K lanes L ++ L)) := by
          simp [screened, posts, kvDel]
        obtain ⟨e, qs, hqs⟩ := List.exists_cons_of_ne_nil (sweeps_ne_nil (K := K) (lanes := lanes) (L := L))
        rw [hqs] at hsweep
        obtain ⟨he, hall⟩ := List.forall_mem_cons.1 hsweep
        rw [List.foldl_append, hposts, hqs, List.foldl_cons, he, kvDel, if_pos rfl, foldl_kvDel_hidden hall]
  obtain ⟨back, hback, hne, hdel⟩ := hfold
  obtain ⟨f, hstep⟩ := stayStep_of_back hback hne
  exact ⟨_, hstep.trans (by rw [hdel]; exact kvMod_head f hkeys)⟩

include hrun hR in
/-- The second post takes the first. -/
theorem stayStep_second {z : Path} (hL : ∀ e ∈ L, e.1 < K) :
    stayStep { wp with paths := R ++ screened K lanes L } ((K + 1, z) :: (doubles K lanes L ++ (sweeps K lanes L ++ L))) (K + 2, post lanes) =
      doubles K lanes L ++ (sweeps K lanes L ++ L) := by
  have hnone {x : Nat} (hx : K < x) : kvGet (doubles K lanes L ++ (sweeps K lanes L ++ L)) x = none :=
    kvGet_none_of_no_key fun e he => ((key_le_of_behind hL he).trans_lt hx).ne
  have hback : backAt { wp with paths := R ++ screened K lanes L } ((K + 1, z) :: (doubles K lanes L ++ (sweeps K lanes L ++ L)))
      (K + 2, post lanes) = [(K + 1, post lanes)] := by
    refine (back_post hrun hR _ fun e he => kvGet_hidden (Nat.lt_succ_of_lt (hL e he))).trans ?_
    simp [posts, hnone, kvGet]
  obtain ⟨f, hstep⟩ := stayStep_of_back hback nofun
  rw [hstep, List.foldl_cons, List.foldl_nil, kvDel, if_pos rfl]
  exact kvMod_of_no_key f fun e he => by have := key_le_of_behind hL he; simp only; omega

include hrun hR in
/-- A later post takes the sweeps, and with them as many paths of their key as they are. -/
theorem stayStep_sweeps {A T : KV Path} {n : Nat} (hn : K < n) (hA : ∀ e ∈ A, e.1 = K) (hlen : A.length = (sweeps K lanes L).length)
    (hL : ∀ e ∈ L, e.1 < K) (hT : ∀ e ∈ T, e.1 ≤ K) :
    stayStep { wp with paths := R ++ screened K lanes L } (A ++ T) (n, post lanes) = T := by
  have hkeys : ∀ e ∈ A ++ T, e.1 ≤ K := fun e he => (List.mem_append.1 he).elim (fun h => (hA e h).le) (hT e)
  have hhead : (kvGet (A ++ T) K).isSome ∧ ∀ x, x < K → kvGet (A ++ T) x = none := by
    cases A with
    | nil => exact absurd hlen.symm (by simp [sweeps_ne_nil])
    | cons a A =>
      obtain ⟨k, v⟩ := a
      obtain rfl : k = K := hA _ List.mem_cons_self
      exact ⟨by simp [kvGet], fun x hx => kvGet_hidden hx⟩
  have hback : backAt { wp with paths := R ++ screened K lanes L } (A ++ T) (n, post lanes) = sweeps K lanes L := by
    have hposts : (posts K lanes).filter (fun e => (kvGet (A ++ T) e.1).isSome && e.1 != n) = [] :=
      List.filter_eq_nil_iff.2 fun e he => by
        rw [kvGet_none_of_no_key fun q hq => ((hkeys q hq).trans_lt (mem_posts he).1).ne]
        simp
    rw [back_post hrun hR _ fun e he => hhead.2 _ (hL e he), hposts, if_pos ⟨hhead.1, hn.ne⟩, List.nil_append]
  obtain ⟨f, hstep⟩ := stayStep_of_back hback sweeps_ne_nil
  rw [hstep, foldl_kvDel_heads hA (fun e he => congrArg Prod.fst (mem_sweeps he)) hlen]
  exact kvMod_of_no_key f fun e he => ((hT e he).trans_lt hn).ne

/-- The paths of a screened table that were left at their branch: the posts, and the table's own. -/
theorem stays_screened (hR : Front K R) :
    (R ++ screened K lanes L).filter (fun q => q.2.stay) = posts K lanes ++ L.filter fun q => q.2.stay := by
  have hnone {ps : KV Path} (h : ∀ e ∈ ps, e.2.stay = false) : ps.filter (fun q => q.2.stay) = [] :=
    List.filter_eq_nil_iff.2 fun e he => ne_true_of_eq_false (h e he)
  have hfront : ∀ e ∈ R, e.2.stay = false := by
    obtain rfl | ⟨p, rfl, -, hstay, -⟩ := hR
    · exact fun e he => absurd he List.not_mem_nil
    · exact List.forall_mem_singleton.2 hstay
  rw [screened, List.filter_append, List.filter_append, List.filter_append, List.filter_append, hnone hfront,
    hnone (ps := doubles K lanes L) fun e he => (key_of_doubles he).2.1,
    hnone (ps := sweeps K lanes L) fun e he => by rw [mem_sweeps he]; rfl]
  rfl

/-- Behind its screen a table tests its own paths as it would alone. -/
theorem stayStep_own (hR : Front K R) (hps : ∀ e ∈ ps, e.1 < K) (q : Nat × Path) :
    stayStep { wp with paths := R ++ screened K lanes L } ps q = stayStep { wp with paths := L } ps q := by
  have hgone {qs : KV Path} (h : ∀ e ∈ qs, K ≤ e.1) :
      qs.filter (fun e => (kvGet ps e.1).isSome && backAtBranch { wp with paths := L } e q) = [] :=
    List.filter_eq_nil_iff.2 fun e he => by
      rw [kvGet_none_of_no_key fun d hd => ((hps d hd).trans_le (h e he)).ne]
      simp
  have hfront : ∀ e ∈ R, K ≤ e.1 := by
    obtain rfl | ⟨p, rfl, -⟩ := hR
    · exact fun e he => absurd he List.not_mem_nil
    · exact List.forall_mem_singleton.2 le_rfl
  have hback : backAt { wp with paths := R ++ screened K lanes L } ps q = backAt { wp with paths := L } ps q := by
    change (R ++ screened K lanes L).filter (fun e => (kvGet ps e.1).isSome && backAtBranch { wp with paths := L } e q) = _
    rw [screened, List.filter_append, List.filter_append, List.filter_append, List.filter_append, hgone hfront,
      hgone fun e he => (mem_posts he).1.le, hgone fun e he => (key_of_doubles he).1.ge,
      hgone fun e he => (congrArg Prod.fst (mem_sweeps he)).ge]
    rfl
  rw [stayStep, stayStep, hback]

theorem stayStep_keys {P : Nat → Prop} (wp : Warp) (h : ∀ e ∈ ps, P e.1) (q : Nat × Path) : ∀ e ∈ stayStep wp ps q, P e.1 := by
  rw [stayStep]
  split
  · exact h
  · intro e he
    obtain ⟨⟨k, v⟩, hd, rfl⟩ := List.mem_map.1 he
    have hkey : P k := h (k, v) (foldl_kvDel_mem hd)
    dsimp only
    split
    · exact hkey
    · exact hkey

include hrun hL hR in
/-- The posts of a screened table take its screen away, and then it settles as it would alone. -/
theorem settleStays_screened :
    settleStays { wp with paths := R ++ screened K lanes L } = settleStays { wp with paths := L } := by
  have hsweepKeys : ∀ e ∈ sweeps K lanes L, e.1 = K := fun e he => congrArg Prod.fst (mem_sweeps he)
  have hlen : (doubles K lanes L).length = (sweeps K lanes L).length := (List.length_map _).symm
  have hposts : (posts K lanes).foldl (stayStep { wp with paths := R ++ screened K lanes L }) (R ++ screened K lanes L) = L := by
    obtain ⟨z, hfirst⟩ := stayStep_first (lanes := lanes) hrun hL hR
    simp only [posts, List.foldl_cons, List.foldl_nil]
    rw [hfirst, stayStep_second hrun hR hL,
      stayStep_sweeps hrun hR (by omega) (fun e he => (key_of_doubles he).1) hlen hL
        (fun e he => (List.mem_append.1 he).elim (fun h => (hsweepKeys e h).le) fun h => (hL e h).le),
      stayStep_sweeps hrun hR (by omega) hsweepKeys rfl hL fun e he => (hL e he).le]
  have hown (qs ps : KV Path) (hps : ∀ e ∈ ps, e.1 < K) :
      qs.foldl (stayStep { wp with paths := R ++ screened K lanes L }) ps = qs.foldl (stayStep { wp with paths := L }) ps := by
    induction qs generalizing ps with
    | nil => rfl
    | cons q t ih =>
      rw [List.foldl_cons, List.foldl_cons, stayStep_own hR hps]
      exact ih _ (stayStep_keys (P := (· < K)) _ hps q)
  rw [settleStays_eq, settleStays_eq]
  simp only [stays_screened hR, List.foldl_append, hposts, hown _ L hL]

end

/-! ### Any table -/

theorem settleTret_of_not_all {wp : Warp} {e : Nat × Path} (he : e ∈ wp.paths) (h : e.2.st ≠ .atTret) : settleTret wp = wp := by
  have hall : (wp.paths.all fun e => e.2.st == .atTret) = false := by
    rw [List.all_eq_false]
    exact ⟨e, he, by simpa using h⟩
  rw [settleTret]
  split
  · rfl
  · rw [hall, Bool.and_false]
    rfl

/-- A warp either stays in its handler, or all its paths wait at a TRAP.tret and it leaves (R446). -/
theorem settleTret_cases (wp : Warp) : settleTret wp = wp ∨
    ∃ h, wp.handler = some h ∧ settleTret wp = settleJoins 20 (leaveHandler wp h) := by
  rw [settleTret]
  split
  · exact .inl rfl
  next h hh =>
    split
    · exact .inr ⟨h, hh, rfl⟩
    · exact .inl rfl

theorem settleTret_of_one {wp : Warp} {h : Handler} {e : Nat × Path} (hh : wp.handler = some h) (hp : wp.paths = [e])
    (he : e.2.st = .atTret) : settleTret wp = settleJoins 20 (leaveHandler wp h) := by
  simp [settleTret, hh, hp, he]

/-- What returns from a handler is of the table that was set aside. -/
theorem leaveHandler_paths (wp : Warp) (ps : KV Path) (h : Handler) : leaveHandler { wp with paths := ps } h = leaveHandler wp h := by
  unfold leaveHandler
  cases h.entry
  · rfl
  · rfl

theorem exists_key_above (L : KV Path) (n : Nat) : ∃ K, n < K ∧ ∀ e ∈ L, e.1 < K := by
  induction L with
  | nil => exact ⟨n + 1, n.lt_succ_self, fun e he => absurd he List.not_mem_nil⟩
  | cons a t ih =>
    obtain ⟨K, hn, ht⟩ := ih
    refine ⟨max K (a.1 + 1), lt_max_of_lt_left hn, List.forall_mem_cons.2 ⟨lt_max_of_lt_right a.1.lt_succ_self, fun e he => ?_⟩⟩
    exact lt_max_of_lt_left (ht e he)

theorem screened_avoids {m lanes : Mask} {L : KV Path} (K : Nat) (hm : lanes &&& m = 0) (hpos : lanes ≠ 0) (hL : Avoids m L) :
    Avoids m (screened K lanes L) := by
  intro e he
  obtain he | he := List.mem_append.1 he
  · rw [(mem_posts he).2]
    exact ⟨hm, hpos⟩
  obtain he | he := List.mem_append.1 he
  · obtain rfl | he := List.mem_cons.1 he
    · exact ⟨hm, hpos⟩
    · obtain ⟨q, hq, rfl⟩ := List.mem_map.1 he
      exact hL q (List.mem_of_mem_filter hq)
  obtain he | he := List.mem_append.1 he
  · rw [mem_sweeps he]
    exact ⟨hm, hpos⟩
  · exact hL e he

/-- A screened table settles as the table that its merges have made settles. -/
theorem settlePaths_screened {wp : Warp} (hrun : wp.run = none) {K : Nat} (lanes : Mask)
    (hL : ∀ e ∈ (settleJoins 20 wp).paths, e.1 < K) (htret : settleTret (settleJoins 20 wp) = settleJoins 20 wp) :
    settlePaths { wp with paths := screened K lanes (settleJoins 20 wp).paths } = settlePaths wp := by
  obtain ⟨-, hjoins⟩ := settleJoins_keeps (P := fun _ => True) (fun _ _ _ _ => trivial) 20 (wp := wp) trivial
  generalize (settleJoins 20 wp).paths = L at *
  obtain ⟨⟨R, hR, hpaths⟩, hwall⟩ := settleJoins_keeps
    (P := fun ps => ∃ R, Front K R ∧ ps = R ++ screened K lanes L)
    (fun ps gs hps hgs => by
      obtain ⟨R, hR, rfl⟩ := hps
      exact mergeAll_screened hL hgs hR) 20 (wp := { wp with paths := screened K lanes L }) ⟨[], .inl rfl, rfl⟩
  have hpost : (K + 1, post lanes) ∈ R ++ screened K lanes L := List.mem_append_right _ List.mem_cons_self
  rw [hpaths] at hwall
  rw [settlePaths, settlePaths, htret, hwall, settleTret_of_not_all hpost (by simp [post]), hjoins]
  exact congrArg (fun w => settleReconverge (settleEntries w)) (settleStays_screened hrun hL hR)

/-- Every table settles as one that lacks a given key does, with lanes of no other mask. -/
theorem exists_table_without {wp : Warp} {m : Mask} (hrun : wp.run = none) (hne : wp.paths ≠ []) (h : Avoids m wp.paths) (k : Nat) :
    ∃ ps, settlePaths { wp with paths := ps } = settlePaths wp ∧ Avoids m ps ∧ kvGet ps k = none := by
  obtain ⟨e, t, he⟩ := List.exists_cons_of_ne_nil hne
  obtain ⟨hm, hpos⟩ := h e (he ▸ List.mem_cons_self)
  obtain htret | ⟨hd, hhd, htret⟩ := settleTret_cases (settleJoins 20 wp)
  · obtain ⟨K, hk, hL⟩ := exists_key_above (settleJoins 20 wp).paths k
    exact ⟨_, settlePaths_screened hrun e.2.mask hL htret, screened_avoids K hm hpos (settleJoins_avoids h 20),
      kvGet_hidden (Nat.lt_succ_of_lt hk)⟩
  · obtain ⟨-, hjoins⟩ := settleJoins_keeps (P := fun _ => True) (fun _ _ _ _ => trivial) 20 (wp := wp) trivial
    refine ⟨[(k + 1, { mask := e.2.mask, st := .atTret })], ?_, List.forall_mem_singleton.2 ⟨hm, hpos⟩, kvGet_hidden k.lt_succ_self⟩
    have hone := settleJoins_of_none_waits (wp := { wp with paths := [(k + 1, { mask := e.2.mask, st := .atTret })] })
      (List.forall_mem_singleton.2 rfl) 20
    have hhandler : wp.handler = some hd := by rw [hjoins] at hhd; exact hhd
    have hreturn := settleTret_of_one (wp := { wp with paths := [(k + 1, { mask := e.2.mask, st := .atTret })] }) hhandler rfl rfl
    have hleave : leaveHandler (settleJoins 20 wp) hd = leaveHandler wp hd :=
      (congrArg (leaveHandler · hd) hjoins).trans (leaveHandler_paths _ _ _)
    rw [settlePaths, settlePaths, hone, hreturn, leaveHandler_paths, htret, hleave]

end Sys2Proof.Machine
end

section
/-! EXIT and REFORM (R146-R148, R172-R174): the lanes that leave their paths, and the bins that take the threads of a REFORM. -/

namespace Sys2Proof.Machine

/-! ### Bins that take threads (R146, R147) -/

/-- A bin takes a thread of a launch, a PC and a block: it is bound to them and has room. -/
def Bin.Accepts (b : Bin) (width launch : Nat) (pc : W64) (vb n : Nat) : Prop :=
  b.launch = launch ∧ b.pc = pc ∧ b.vb = vb ∧ b.n = n ∧ b.threads.length < width

section
variable {bins : KV Bin} {width launch vb n : Nat} {pc : W64}

theorem find_accepting_none (h : bins.find? (fun e => e.2.launch == launch && e.2.pc == pc && e.2.vb == vb && e.2.n == n &&
    decide (e.2.threads.length < width)) = none) : ∀ e ∈ bins, ¬e.2.Accepts width launch pc vb n := by
  intro e he hacc
  obtain ⟨h1, h2, h3, h4, h5⟩ := hacc
  exact List.find?_eq_none.1 h e he (by simp [h1, h2, h3, h4, h5])

/-- Where no bin takes a thread, none of its launch, PC and block has room, and none is empty. -/
theorem binFor_none (h : binFor bins width launch pc vb n = none) :
    (∀ e ∈ bins, ¬e.2.Accepts width launch pc vb n) ∧ ∀ k, k < 64 → (kvGet bins k).isSome = true := by
  unfold binFor at h
  split at h
  · exact absurd h nofun
  next hfind =>
    rw [Option.map_eq_none_iff, List.find?_eq_none] at h
    refine ⟨find_accepting_none hfind, fun k hk => ?_⟩
    have hfull := h k (List.mem_range.2 hk)
    simpa [Option.isSome_iff_ne_none] using hfull

/-- The bin that takes a thread has room for it, or was empty. -/
theorem binFor_some {k : Nat} {b : Bin} (h : binFor bins width launch pc vb n = some (k, b)) :
    ((k, b) ∈ bins ∧ b.Accepts width launch pc vb n) ∨
    (k < 64 ∧ kvGet bins k = none ∧ b = { launch := launch, pc := pc, vb := vb, n := n }) := by
  unfold binFor at h
  split at h
  next e hfind =>
    obtain rfl := Option.some.inj h
    have hacc := List.find?_some hfind
    simp only [Bool.and_eq_true, beq_iff_eq, decide_eq_true_eq, and_assoc] at hacc
    exact .inl ⟨List.mem_of_find?_eq_some hfind, hacc⟩
  · rw [Option.map_eq_some_iff] at h
    obtain ⟨j, hj, hjk⟩ := h
    obtain ⟨rfl, rfl⟩ := Prod.mk.inj hjk
    have hfree := List.find?_some hj
    rw [Option.isNone_iff_eq_none] at hfree
    exact .inr ⟨List.mem_range.1 (List.mem_of_find?_eq_some hj), hfree, rfl⟩

end

/-- A bin with one more thread: the first starts its age, and the last makes it drawable, if its age has not (R147). -/
theorem file_fields (b : Bin) (now width age : Nat) (th : BinThread) :
    (b.file now width age th).launch = b.launch ∧ (b.file now width age th).pc = b.pc ∧ (b.file now width age th).vb = b.vb ∧
    (b.file now width age th).n = b.n ∧ (b.file now width age th).threads = b.threads ++ [th] ∧
    (b.file now width age th).firstAt = (if b.threads = [] then now else b.firstAt) ∧
    (b.file now width age th).drawableAt = if (b.threads ++ [th]).length = width then
      some (b.drawableAt.getD (min now ((if b.threads = [] then now else b.firstAt) + age))) else b.drawableAt := by
  simp only [Bin.file, List.isEmpty_iff]
  split
  · exact ⟨rfl, rfl, rfl, rfl, rfl, rfl, rfl⟩
  · exact ⟨rfl, rfl, rfl, rfl, rfl, rfl, rfl⟩

theorem fileThreads_none {now width launch age l vb n : Nat} {pc : W64} {th : BinThread} {bins : KV Bin}
    (h : binFor bins width launch pc vb n = none) :
    fileThreads now width launch age [(l, pc, vb, n, th)] bins = (bins, [(l, pc, vb, n, th)]) := by
  simp only [fileThreads, h]

theorem fileThreads_some {now width launch age l vb n k : Nat} {pc : W64} {th : BinThread} {bins : KV Bin} {b : Bin}
    (h : binFor bins width launch pc vb n = some (k, b)) :
    fileThreads now width launch age [(l, pc, vb, n, th)] bins = (kvSet bins k (b.file now width age th), []) := by
  simp only [fileThreads, h]

/-! ### Lanes that leave -/

theorem dropLanes_avoids (ps : KV Path) (m : Mask) : Avoids m (dropLanes ps m) := by
  intro e he
  obtain ⟨hmem, hpos⟩ := List.mem_filter.1 he
  obtain ⟨q, -, rfl⟩ := List.mem_map.1 hmem
  refine ⟨?_, by simpa using hpos⟩
  rw [BitVec.and_assoc, BitVec.not_and_self]
  exact BitVec.and_zero

/-- Lanes that become vacant have left every path, and a wholly vacant warp is in no handler (R148, R158, R445). -/
theorem vacate_vacated {a wp : Warp} (h : wp.live = a.live) (m : Mask) : Vacated a (vacate wp m) m := by
  refine ⟨congrArg (· &&& ~~~m) h, dropLanes_avoids wp.paths m, fun hz => ?_⟩
  exact if_pos hz

theorem vacated_state (x : Site) (w : Enc) (s : State) (wp : Warp) :
    (x.vacated s wp).state w = testSync (setWarp s x.ref.crew x.ref.warp (settlePaths wp)) x.ref.crew := rfl

/-- Where a launch is not versioned nothing waits to be published, and nothing is. -/
theorem versionWait_unversioned {s : State} {x : Site} (h : (getLaunch s x.cr.launch).vers = false) : versionWait s x = (s, false) := by
  simp only [versionWait, h, Bool.not_false, if_true]

theorem publish_unversioned {s : State} {x : Site} (h : (getLaunch s x.cr.launch).vers = false) : x.publish s = (x, s) := by
  simp only [Site.publish, h, Bool.not_false, if_true]

/-- The site of a warp whose lanes have abandoned their rays. -/
def Site.withWarp (x : Site) (wp : Warp) : Site := { x with wp := wp }

section
variable {w : Enc} {s : State} {x : Site} {t : State} {wp : Warp}

theorem exit_idle (hi : Issues (.exit w) w s x) (hact : x.act = 0) : Stepped (exec (.exit w) s) s x (x.pa.pc + 16) := by
  rw [exec, execExit, issue_go hi]
  simp only [if_pos hact]
  exact fallThrough_steps x w s

theorem exit_leaves (hi : Issues (.exit w) w s x) (hact : x.act ≠ 0) (hgone : abandonRays s x.cr.ctx x.wp x.act = (t, wp))
    (hfly : lanesInFlight wp x.act = false) (hv : (getLaunch t x.cr.launch).vers = false) : exec (.exit w) s =
      .next (testSync (setWarp t x.ref.crew x.ref.warp (settlePaths
        { vacate ((x.withWarp wp).endRun w (x.pa.pc + 16)) x.act with reformed := false })) x.ref.crew) := by
  have hwait : versionWait t (x.withWarp wp) = (t, false) := versionWait_unversioned hv
  have hpub : (x.withWarp wp).publish t = (x.withWarp wp, t) := publish_unversioned hv
  simp only [Site.withWarp] at hwait hpub
  rw [exec, execExit, issue_go hi]
  simp only [if_neg hact, hgone, hfly, Bool.false_eq_true, if_false, hwait, hpub]
  exact congrArg _ (vacated_state _ w t _)

theorem reform_idle (hi : Issues (.reform w) w s x) (hact : x.act = 0) : Stepped (exec (.reform w) s) s x (x.pa.pc + 16) := by
  rw [exec, execReform, issue_go hi]
  simp only [if_pos hact]
  exact fallThrough_steps x w s

theorem misaligned_none {y : Site} {ts : List (Nat × Nat)} (h : ∀ e ∈ ts, e.2 % 16 = 0) : y.misaligned ts = none := by
  have hnil : ts.filter (fun e => e.2 % 16 != 0) = [] := List.filter_eq_nil_iff.2 fun e he => by simp [h e he]
  simp only [Site.misaligned, hnil]

/-- The threads of a REFORM with no spilled entries, in lane order (R146, R174). -/
def Site.threads (x : Site) (w : Enc) (s : State) : List Filing := (lanesOf x.act).map fun l =>
  (l, BitVec.ofNat 64 (x.k.codeVa + srcValue s x .n32 w.a l), w.b.idx.toNat, (Operand.bits w.e).toNat,
    threadOf x.wp l w.b.idx.toNat (Operand.bits w.e).toNat [])

theorem reform_files (hi : Issues (.reform w) w s x) (hact : x.act ≠ 0) (hgone : abandonRays s x.cr.ctx x.wp x.act = (t, wp))
    (hfly : lanesInFlight wp x.act = false) (hv : (getLaunch t x.cr.launch).vers = false)
    (halign : ∀ l, x.act.getLsbD l = true → srcValue t (x.withWarp wp) .n32 w.a l % 16 = 0)
    (hspill : ∀ l, x.act.getLsbD l = true → (kvD wp.stackTab l {}).spilled = 0) {bins : KV Bin} {rest : List Filing}
    (hfile : fileThreads t.now x.width x.cr.launch x.k.binAge ((x.withWarp wp).threads w t) (getCore t x.ref.core).bins = (bins, rest)) :
    exec (.reform w) s = .next (testSync (setWarp (setCore t x.ref.core { getCore t x.ref.core with bins := bins })
      x.ref.crew x.ref.warp (settlePaths (((x.withWarp wp).endRun w (x.pa.pc + 16)).filed (x.act &&& ~~~filingLanes rest) rest)))
      x.ref.crew) := by
  have hmis : (x.withWarp wp).misaligned ((lanesOf x.act).map fun l => (l, srcValue t (x.withWarp wp) .n32 w.a l)) = none :=
    misaligned_none (List.forall_mem_map.2 fun l hl => halign l (mem_lanesOf.1 hl).2)
  have hrows : ((lanesOf x.act).map fun l => (List.range (kvD wp.stackTab l {}).spilled).map fun r =>
      (l, (x.withWarp wp).stackVa t l r)).flatten = [] :=
    List.flatten_eq_nil_iff.2 (List.forall_mem_map.2 fun l hl => by rw [hspill l (mem_lanesOf.1 hl).2]; rfl)
  have hvers : versioned t (x.withWarp wp) = false := hv
  have hbody : reformBody w [] (x.withWarp wp) t = (x.withWarp wp).vacated (setCore t x.ref.core { getCore t x.ref.core with bins := bins })
      (((x.withWarp wp).endRun w (x.pa.pc + 16)).filed (x.act &&& ~~~filingLanes rest) rest) := by
    simp only [Site.threads, Site.withWarp] at hfile
    simp only [reformBody, List.filter_nil, List.map_nil, Site.codePc, Site.withWarp, Site.width] at hfile ⊢
    rw [hfile]
  simp only [Site.withWarp] at hmis hrows hvers hbody
  rw [exec, execReform, issue_go hi]
  simp only [if_neg hact, hgone, hfly, hvers, Bool.false_and, Bool.or_self, Bool.false_eq_true, if_false, hmis, hrows, List.isEmpty_nil,
    if_true, hbody]
  exact congrArg _ (vacated_state (x.withWarp wp) w _ _)

end

/-- A warp with the threads that wait for a bin: the filed lanes have left, and nothing else but paths and return stacks changed. -/
theorem filed_vacated {a wp : Warp} (h : wp.live = a.live) (lanes : Mask) (rest : List Filing) :
    Vacated a (wp.filed lanes rest) lanes ∧ (wp.filed lanes rest).filing = rest ∧ (wp.filed lanes rest).regs = wp.regs ∧
      (wp.filed lanes rest).run = wp.run :=
  ⟨vacate_vacated (wp := { wp with versions := (lanesOf lanes).foldl kvDel wp.versions, filing := rest }) h lanes, rfl, rfl, rfl⟩

/-- A warp whose run has ended and that has vacated lanes settles as one whose path at a key, if it has one, stands at a PC: itself
where its path there does, which it does in every table of rising keys; where another entry of the key has come in its place, one
with another table (exists_table_without). -/
theorem exists_settling_at {a wp : Warp} {m : Mask} (hrun : wp.run = none) (h : Vacated a wp m) (k : Nat) (pc : W64) :
    ∃ b, settlePaths b = settlePaths wp ∧ { b with paths := wp.paths } = wp ∧ Vacated a b m ∧
      ∀ p, kvGet b.paths k = some p → p.pc = pc := by
  by_cases hpc : ∀ p, kvGet wp.paths k = some p → p.pc = pc
  · exact ⟨wp, rfl, rfl, h, hpc⟩
  · push Not at hpc
    obtain ⟨p, hp, -⟩ := hpc
    obtain ⟨hlive, hpaths, hhandler⟩ := h
    obtain ⟨ps, hsettle, hps, hnone⟩ := exists_table_without hrun (List.ne_nil_of_mem (kvGet_mem hp)) hpaths k
    exact ⟨{ wp with paths := ps }, hsettle, rfl, ⟨hlive, hps, hhandler⟩, fun q hq => absurd (hnone.symm.trans hq) nofun⟩

/-- Settles O11: the lanes that leave, the bins that their threads go to, and the threads that no bin takes. -/
theorem leavingResults : Obligations.LeavingResults := by
  refine ⟨fun w s x => ⟨fun hi => ⟨exit_idle hi, fun hact hfly hv => ?_⟩, fun hi => ⟨reform_idle hi, fun hact hfly hv halign hspill => ?_⟩⟩,
    fun now width launch age l pc vb n th bins => ?_⟩
  · exact ⟨_, exit_leaves hi hact rfl hfly hv, vacate_vacated rfl x.act, rfl, rfl⟩
  · intro vb n filed
    obtain ⟨hleft, hfiling, hregs, hrun⟩ := filed_vacated (a := x.wp)
      (wp := (x.withWarp (abandonRays s x.cr.ctx x.wp x.act).2).endRun w (x.pa.pc + 16)) rfl (x.act &&& ~~~filingLanes filed.2) filed.2
    obtain ⟨b, hsettle, hb, hvac, hpc⟩ := exists_settling_at hrun hleft x.rn.path (x.pa.pc + 16)
    refine ⟨b, ?_, hvac, ?_, ?_, ?_, hpc⟩
    · rw [hsettle]
      exact reform_files hi hact rfl hfly hv halign hspill rfl
    · exact (congrArg Warp.filing hb).trans hfiling
    · exact (congrArg Warp.regs hb).trans hregs
    · exact (congrArg Warp.run hb).trans hrun
  · intro accepts r
    cases hfor : binFor bins width launch pc vb n with
    | none =>
      have hr : r = _ := fileThreads_none hfor
      obtain ⟨hno, hfull⟩ := binFor_none hfor
      rw [hr]
      exact .inl ⟨rfl, rfl, hno, hfull⟩
    | some e =>
      obtain ⟨k, b⟩ := e
      have hr : r = _ := fileThreads_some hfor
      obtain ⟨hlaunch, hpc, hvb, hn, hths, hfirst, hdraw⟩ := file_fields b now width age th
      rw [hr]
      refine .inr ⟨rfl, k, b.file now width age th, kvGet_kvSet_same _ _ _, ?_⟩
      obtain ⟨hmem, hacc⟩ | ⟨hk, hfree, rfl⟩ := binFor_some hfor
      · obtain ⟨alaunch, apc, avb, an, aroom⟩ := hacc
        refine ⟨hlaunch.trans alaunch, hpc.trans apc, hvb.trans avb, hn.trans an, by simp [hths], fun m hm => kvGet_kvSet_ne hm,
          .inl ⟨(k, b), hmem, rfl, ⟨alaunch, apc, avb, an, aroom⟩, hths, hfirst, ?_⟩⟩
        rw [hdraw, hths, hfirst]
      · refine ⟨hlaunch, hpc, hvb, hn, by simp [hths], fun m hm => kvGet_kvSet_ne hm, .inr ⟨hk, hfree, hths, hfirst, ?_⟩⟩
        simpa [eq_comm] using hdraw

end Sys2Proof.Machine
end

section
/-! The warp-wide instructions (R179-R183, R185, R186): results that are one value for the whole warp, in a scalar register. -/

namespace Sys2Proof.Machine

/-! ### Scalar fields of a well-formed word (R76) -/

/-- In a word with no illegal field every field is of its role. -/
theorem roleOk_of_badField {width : Nat} {i : Instr} {sh : Shape} {w : Enc} (h : badField width i sh w = none) :
    ∀ f ∈ fieldsOf (sh.eff w.lit.isSome) w, roleOk width f.2.2 f.1 f.2.1 = true := by
  have hall {bad : List Bool} (hlen : bad.length = 5) (hnone : (if bad.findIdx id < 5 then some (bad.findIdx id) else none) = none) :
      true ∉ bad := by
    intro hb
    rw [if_pos (hlen ▸ List.findIdx_lt_length_of_exists ⟨true, hb, rfl⟩)] at hnone
    exact absurd hnone nofun
  simp only [badField] at h
  split at h
  · exact absurd (List.mem_set (by simp [fieldsOf]) true) (hall (by simp [fieldsOf]) h)
  · intro f hf
    by_contra hbad
    exact hall (by simp [fieldsOf]) h (List.mem_map.2 ⟨f, hf, by simpa using hbad⟩)

/-- A word past the checks on its fields has no illegal field. -/
theorem badField_of_legal {width : Nat} {i : Instr} {sh : Shape} {w : Enc} (h : illegalInstr width 384 i w = none)
    (hsh : shapeOf i = some sh) : badField width i sh w = none := by
  have hsub := illegal_sub h
  have hty := illegal_ty h
  by_contra hbad
  obtain ⟨k, hk⟩ := Option.ne_none_iff_exists'.1 hbad
  simp only [illegalInstr, hsub, hty, hsh, hk, Bool.not_true, Bool.or_false, Bool.false_eq_true, if_false] at h
  revert h
  split <;> simp

/-- A scalar destination names the scalar file. -/
theorem file_of_sdst {width : Nat} {dm : Bool} {p : PairRule} {o : Operand} (h : roleOk width dm (.sdst p) o = true) :
    o.file = .scalar := by
  simp only [roleOk, Bool.and_eq_true, beq_iff_eq] at h
  obtain ⟨⟨-, hfile⟩, -⟩ := h
  exact hfile

theorem wred_file {w : Enc} (h : WellFormed (.wred w) = true) : w.d.file = .scalar := by
  obtain ⟨width, hd⟩ := wellFormed_dst (i := .wred w) rfl h rfl
  exact file_of_sdst hd

theorem pmov_file {w : Enc} (h : WellFormed (.pmov w) = true) : w.d.file = .scalar := by
  obtain ⟨width, hd⟩ := wellFormed_dst (i := .pmov w) rfl h rfl
  exact file_of_sdst hd

/-- A VOTE that gives a mask or a count names a scalar. -/
theorem vote_file {w : Enc} (h : WellFormed (.vote w) = true) (hsub : ¬w.sub.toNat < 3) : w.d.file = .scalar := by
  obtain ⟨width, hd⟩ := wellFormed_dst (i := .vote w) rfl h rfl
  simp only [sh, if_neg hsub] at hd
  split at hd
  · exact file_of_sdst hd
  · exact file_of_sdst hd

/-- The block scale of BXQ goes to a scalar. -/
theorem bxq_scale_file {w : Enc} (h : WellFormed (.bxq w) = true) : w.e.file = .scalar := by
  obtain ⟨width, hlegal⟩ := wellFormed_legal (i := .bxq w) rfl h
  have hlit : w.lit = none := wellFormed_lit (i := .bxq w) rfl h rfl rfl
  have hfield := roleOk_of_badField (badField_of_legal hlegal rfl) (.sdst .single, w.e, false) (by simp [hlit, fieldsOf, Shape.eff, sh])
  exact file_of_sdst hfield

/-! ### One value for the warp -/

section
variable {w : Enc} {s : State} {x : Site} {wide : Bool}

/-- A value written to D in every active lane is D's result. -/
theorem putDst_gives (val : Nat → Nat) :
    GivesD (.next ((Act.done (x.putDst w.d wide (x.lanes val)) s).state w)) w s x wide val :=
  givesD_of (regsOnly_putDst x w.d wide _) (putDst_regs x w.d wide _) (putDst_opf x w.d wide _)

/-- A scalar register takes the one value of a warp, where a lane is active (R69). -/
theorem writeDst_scalar {o : Operand} (h : o.file = .scalar) (k v : Nat) :
    (if x.act = 0 then x else x.writeDst o wide [(k, v)]) = x.writeDst o wide (x.lanes fun _ => v) := by
  split
  next hact => simp only [Site.writeDst, h, lanes_nil x _ hact]
  next hact =>
    obtain ⟨t, ht⟩ := lanes_head x (fun _ => v) hact
    simp only [Site.writeDst, h, ht]

theorem putDst_scalar {o : Operand} (h : o.file = .scalar) (k v : Nat) :
    (if x.act = 0 then x else x.putDst o wide [(k, v)]) = x.putDst o wide (x.lanes fun _ => v) := by
  simp only [Site.putDst, h, true_or, if_true]
  exact writeDst_scalar h k v

theorem ones_getLsbD {l : Nat} (hl : l < 64) : (~~~(0 : Mask)).getLsbD l = true := by
  simp only [BitVec.getLsbD_not, hl, decide_true, Bool.true_and, Bool.not_eq_true']
  exact BitVec.getLsbD_zero

theorem putBit_gives {val : Bool} :
    GivesP (.next ((Act.done (if x.act = 0 then x else x.putBit w.d val) s).state w)) w s x fun _ => val := by
  refine putPred_gives fun l _ hm => ?_
  cases val
  · exact BitVec.getLsbD_zero
  · exact ones_getLsbD (lt_of_getLsbD hm)

end

/-! ### Masks of lanes -/

theorem lanesOf_maskOf_filter (m : Mask) (p : Nat → Bool) : lanesOf (maskOf ((lanesOf m).filter p)) = (lanesOf m).filter p := by
  rw [lanesOf, lanesOf, List.filter_filter]
  refine List.filter_congr fun l hl => ?_
  have h64 := List.mem_range.1 hl
  rw [maskOf_getLsbD _ _ h64]
  simp [h64]

/-- The active lanes are live lanes of the path (R68). -/
theorem act_ownLanes {i : Instr} {w : Enc} {s : State} {x : Site} (h : Issues i w s x) {l : Nat} (hl : x.act.getLsbD l = true) :
    (ownLanes x).getLsbD l = true := by
  obtain ⟨y, -, -, -, rfl, -⟩ := h
  simp only [activeLanes, pathLanes, BitVec.getLsbD_and, Bool.and_eq_true] at hl
  obtain ⟨⟨⟨hlive, hmask⟩, -⟩, -⟩ := hl
  simp only [ownLanes, BitVec.getLsbD_and, hlive, hmask, Bool.and_self]

/-- Active lanes lie below the width, but for BRAU, which takes every live lane (R68, R165). -/
theorem act_lt_width {i : Instr} {w : Enc} {s : State} {x : Site} (h : Issues i w s x) (hb : isBrau i = false) {l : Nat}
    (hl : x.act.getLsbD l = true) : l < x.width := by
  obtain ⟨y, -, -, -, rfl, -⟩ := h
  have h64 := lt_of_getLsbD hl
  simp only [activeLanes, hb, guardMask, BitVec.getLsbD_and, Bool.and_eq_true, Bool.false_eq_true, if_false,
    maskBelow_getLsbD _ _ h64, decide_eq_true_eq] at hl
  obtain ⟨-, -, hwidth⟩ := hl
  exact hwidth

/-! ### Votes and PMOV (R179, R185) -/

section
variable {w : Enc} {s : State} {x : Site}

/-- The lanes that vote true: active lanes whose source holds. -/
def Site.ayes (x : Site) (o : Operand) : Mask := predSrcMask x o &&& x.act

theorem ayes_getLsbD (hact : ∀ l, x.act.getLsbD l = true → l < x.width) (o : Operand) {l : Nat} (hl : l < 64) :
    (x.ayes o).getLsbD l = (x.act.getLsbD l && predValue x o l) := by
  rw [Site.ayes, BitVec.getLsbD_and, Bool.and_comm]
  cases hm : x.act.getLsbD l
  · rfl
  · rw [predSrcMask_getLsbD x o (hact l hm) hl]

theorem ayes_all (hact : ∀ l, x.act.getLsbD l = true → l < x.width) (o : Operand) : (x.ayes o == x.act) =
    (List.range 64).all fun l => !x.act.getLsbD l || (x.act.getLsbD l && predValue x o l) := by
  rw [Bool.eq_iff_iff, beq_iff_eq, BitVec.eq_of_getLsbD_eq_iff, List.all_eq_true]
  simp only [List.mem_range]
  refine forall₂_congr fun l hl => ?_
  rw [ayes_getLsbD hact o hl]
  cases x.act.getLsbD l <;> simp

theorem ayes_none (hact : ∀ l, x.act.getLsbD l = true → l < x.width) (o : Operand) : (x.ayes o == 0) =
    (List.range 64).all fun l => !(x.act.getLsbD l && predValue x o l) := by
  rw [Bool.eq_iff_iff, beq_iff_eq, BitVec.eq_of_getLsbD_eq_iff, List.all_eq_true]
  simp only [List.mem_range]
  refine forall₂_congr fun l hl => ?_
  have hzero : (0 : Mask).getLsbD l = false := BitVec.getLsbD_zero
  rw [ayes_getLsbD hact o hl, hzero, Bool.not_eq_true']

theorem filter_range_congr {n m : Nat} {p : Nat → Bool} (h : ∀ l, p l = true → l < n ∧ l < m) :
    (List.range n).filter p = (List.range m).filter p := by
  wlog hnm : n ≤ m generalizing n m
  · exact (this (fun l hl => (h l hl).symm) (Nat.le_of_not_le hnm)).symm
  obtain ⟨d, rfl⟩ := Nat.exists_eq_add_of_le hnm
  have hnone : ((List.range d).map (n + ·)).filter p = [] :=
    List.filter_eq_nil_iff.2 (List.forall_mem_map.2 fun l _ hl => absurd (h _ hl).1 (by omega))
  rw [List.range_add, List.filter_append, hnone, List.append_nil]

theorem ayes_count (hact : ∀ l, x.act.getLsbD l = true → l < x.width) (o : Operand) : maskCount (x.ayes o) =
    ((List.range x.width).filter fun l => x.act.getLsbD l && predValue x o l).length := by
  have hlanes : lanesOf (x.ayes o) = (List.range 64).filter fun l => x.act.getLsbD l && predValue x o l :=
    List.filter_congr fun l hl => ayes_getLsbD hact o (List.mem_range.1 hl)
  rw [maskCount, hlanes, filter_range_congr fun l hl => ?_]
  have hm := (Bool.and_eq_true_iff.1 hl).1
  exact ⟨lt_of_getLsbD hm, hact l hm⟩

/-- VOTE gives every active lane of D whether all, any, or all or none of the active lanes hold A. -/
theorem vote_gives_truth (hi : Issues (.vote w) w s x) (hsub : w.sub.toNat < 3) : GivesP (exec (.vote w) s) w s x fun _ =>
    let all := (List.range 64).all fun l => !x.act.getLsbD l || (x.act.getLsbD l && predValue x w.a l)
    let none := (List.range 64).all fun l => !(x.act.getLsbD l && predValue x w.a l)
    if w.sub = 0 then all else if w.sub = 1 then !none else all || none := by
  have hact (l : Nat) : x.act.getLsbD l = true → l < x.width := act_lt_width hi rfl
  have hexec : exec (.vote w) s = _ := issue_go hi _
  rw [hexec]
  simp only [onSite, BitVec.toNat_eq (x := w.sub), BitVec.reduceToNat, ← ayes_all hact, ← ayes_none hact]
  generalize w.sub.toNat = n at *
  obtain _ | _ | _ | n := n
  · exact putBit_gives
  · exact putBit_gives
  · exact putBit_gives
  · omega

/-- VOTE.mask gives the mask of the active lanes that hold A. -/
theorem vote_gives_mask (hw : WellFormed (.vote w) = true) (hi : Issues (.vote w) w s x) (hsub : w.sub = 3) :
    GivesD (exec (.vote w) s) w s x (x.width == 64) fun _ => (x.ayes w.a).toNat := by
  have hexec : exec (.vote w) s = _ := issue_go hi _
  have hfile := vote_file hw (by rw [hsub]; decide)
  rw [hexec]
  simp only [onSite, hsub, BitVec.reduceToNat]
  exact putDst_scalar hfile 0 (x.ayes w.a).toNat ▸ putDst_gives _

/-- VOTE.count gives their number. -/
theorem vote_gives_count (hw : WellFormed (.vote w) = true) (hi : Issues (.vote w) w s x) (hsub : w.sub = 4) :
    GivesD (exec (.vote w) s) w s x false fun _ => maskCount (x.ayes w.a) := by
  have hexec : exec (.vote w) s = _ := issue_go hi _
  have hfile := vote_file hw (by rw [hsub]; decide)
  rw [hexec]
  simp only [onSite, hsub, BitVec.reduceToNat]
  exact putDst_scalar hfile 0 (maskCount (x.ayes w.a)) ▸ putDst_gives _

/-- PMOV gives the mask of the lanes of the warp that hold A. -/
theorem pmov_gives (hw : WellFormed (.pmov w) = true) (hi : Issues (.pmov w) w s x) :
    GivesD (exec (.pmov w) s) w s x (x.width == 64) fun _ => (predSrcMask x w.a).toNat := by
  have hexec : exec (.pmov w) s = _ := issue_go hi _
  rw [hexec]
  simp only [onSite]
  exact putDst_scalar (pmov_file hw) 0 (predSrcMask x w.a).toNat ▸ putDst_gives _

theorem predSrcMask_bits (o : Operand) {l : Nat} (h64 : l < 64) :
    (predSrcMask x o).getLsbD l = (decide (l < x.width) && predValue x o l) := by
  by_cases hl : l < x.width
  · rw [predSrcMask_getLsbD x o hl h64, decide_eq_true hl, Bool.true_and]
  · rw [predSrcMask, BitVec.getLsbD_and, maskBelow_getLsbD _ _ h64, decide_eq_false hl, Bool.and_false, Bool.false_and]

/-! ### MATCH (R183) -/

/-- The active lanes whose value is that of a lane. -/
def Site.alike (x : Site) (v : Nat → Nat) (l : Nat) : Mask := maskOf ((lanesOf x.act).filter fun k => v k == v l)

theorem alike_getLsbD (v : Nat → Nat) (l : Nat) {k : Nat} (hk : k < 64) :
    (x.alike v l).getLsbD k = (x.act.getLsbD k && (v k == v l)) := by
  rw [Site.alike, maskOf_getLsbD _ _ hk, Bool.eq_iff_iff, decide_eq_true_iff, List.mem_filter, mem_lanesOf, Bool.and_eq_true]
  exact and_congr_left' (and_iff_right hk)

theorem match_gives_mask (hi : Issues (.laneMatch w) w s x) (hsub : w.sub = 0) :
    GivesD (exec (.laneMatch w) s) w s x (x.width == 64) fun l => (x.alike (srcValue s x w.ty w.a) l).toNat := by
  have hexec : exec (.laneMatch w) s = _ := issue_go hi _
  rw [hexec]
  simp only [onSite, if_pos hsub]
  exact putDst_gives _

/-- All active lanes have the value of the lowest. -/
def Site.uniform (x : Site) (v : Nat → Nat) : Bool := (lanesOf x.act).all fun l => v l == v (lowLane x.act)

theorem lowLane_mem {m : Mask} (h : m ≠ 0) : lowLane m ∈ lanesOf m := by
  have hne : lanesOf m ≠ [] := lanesOf_eq_nil.not.2 h
  rw [lowLane, List.headD_eq_head?_getD, List.head?_eq_some_head hne]
  exact List.head_mem hne

theorem uniform_iff (v : Nat → Nat) : x.uniform v = true ↔
    ∀ l k, l < 64 → k < 64 → x.act.getLsbD l = true → x.act.getLsbD k = true → v l = v k := by
  simp only [Site.uniform, List.all_eq_true, mem_lanesOf, beq_iff_eq]
  refine ⟨fun h l k hl hk hml hmk => (h l ⟨hl, hml⟩).trans (h k ⟨hk, hmk⟩).symm, fun h l hl => ?_⟩
  have hne : x.act ≠ 0 := fun hz => by
    have := hl.2
    rw [hz] at this
    exact absurd this (by simp)
  obtain ⟨h64, hm⟩ := mem_lanesOf.1 (lowLane_mem hne)
  exact h l _ hl.1 h64 hl.2 hm

/-- Only the active lanes' bits of a mask reach a predicate destination. -/
theorem putPred_congr (o : Operand) {v v' : Mask} (h : ∀ l, x.act.getLsbD l = true → v.getLsbD l = v'.getLsbD l) :
    x.putPred o v = x.putPred o v' := by
  have hmerge (old : Mask) : maskMerge x.act v old = maskMerge x.act v' old := by
    refine BitVec.eq_of_getLsbD_eq fun l _ => ?_
    simp only [maskMerge_getLsbD]
    split
    next hm => exact h l hm
    · rfl
  simp only [Site.putPred, Regs.putPred, hmerge]

/-- One truth value in every active lane. -/
theorem putBit_eq (hact : ∀ l, x.act.getLsbD l = true → l < x.width) (o : Operand) (b : Bool) :
    x.putBit o b = x.putPred o (maskWhere x.width fun _ => b) := by
  refine putPred_congr o fun l hm => ?_
  have h64 := lt_of_getLsbD hm
  rw [maskWhere_getLsbD _ _ _ h64, decide_eq_true (hact l hm), Bool.true_and]
  cases b
  · exact BitVec.getLsbD_zero
  · exact ones_getLsbD h64

/-- A meaning that writes D and then, where a lane is active, one truth value to E gives both. -/
theorem putDst_putBit_gives {i : Instr} (hi : Issues i w s x) (hb : isBrau i = false) {wide : Bool} (val : Nat → Nat) {y : Site}
    (hy : x.putDst w.d wide (x.lanes val) = y) (b : Bool) :
    GivesDP (.next ((Act.done (if y.act = 0 then y else y.putBit w.e b) s).state w)) w s x wide val fun _ => b := by
  have hact (l : Nat) : x.act.getLsbD l = true → l < x.width := act_lt_width hi hb
  obtain ⟨-, -, -, hk, hput, -⟩ := regsOnly_putDst x w.d wide (x.lanes val)
  have hgives := issue_dp_gives hi wide (fun _ => val) fun _ _ => b
  rw [issue_go hi] at hgives
  rw [hy] at hk hput
  simp only [onSite, hy] at hgives
  have hwidth : y.width = x.width := congrArg Kernel.width hk
  rw [putBit_eq (by rwa [hput, hwidth]), hput, hwidth]
  by_cases ha : x.act = 0
  · rw [if_pos ha] at hgives ⊢
    rwa [← lanes_nil x val ha, hy] at hgives
  · rw [if_neg ha] at hgives ⊢
    exact hgives

/-- MATCH.all gives the active lanes where their values are all the same, and says whether they are. -/
theorem match_gives_all (hi : Issues (.laneMatch w) w s x) (hsub : w.sub ≠ 0) :
    GivesDP (exec (.laneMatch w) s) w s x (x.width == 64)
      (fun _ => if x.uniform (srcValue s x w.ty w.a) then x.act.toNat else 0) fun _ => x.uniform (srcValue s x w.ty w.a) := by
  have hexec : exec (.laneMatch w) s = _ := issue_go hi _
  rw [hexec]
  simp only [onSite, if_neg hsub]
  exact putDst_putBit_gives hi rfl _ rfl _

/-! ### SHFL (R180) -/

/-- The source lane of SHFL is the one that its subform names, within the warp. -/
theorem shflLane_eq (sub : BitVec 4) (width l b : Nat) : shflLane sub.toNat width l b =
    let k : Int := if sub = 0 then b else if sub = 1 then l - b else if sub = 2 then l + b else ((l ^^^ b : Nat) : Int)
    if 0 ≤ k ∧ k < width then k.toNat else l := by
  have hwithin (k : Int) : (if k < 0 ∨ (width : Int) ≤ k then l else k.toNat) = if 0 ≤ k ∧ k < width then k.toNat else l := by
    split_ifs
    all_goals omega
  simp only [shflLane, BitVec.toNat_eq (x := sub), BitVec.reduceToNat]
  obtain _ | _ | _ | n := sub.toNat
  all_goals exact hwithin _

/-- Settles O6: what the lanes vote, match and exchange. -/
theorem laneExchangeResults : Obligations.LaneExchangeResults := by
  intro w s x p
  refine ⟨fun _ hi => vote_gives_truth hi, fun hw hi hsub => ⟨x.ayes w.a, vote_gives_mask hw hi hsub, fun l hl => ?_⟩,
    fun hw hi hsub => ?_, fun hw hi => ⟨predSrcMask x w.a, pmov_gives hw hi, fun l => predSrcMask_bits w.a⟩,
    fun _ hi hsub => ⟨x.alike (srcValue s x w.ty w.a), match_gives_mask hi hsub, fun l k => alike_getLsbD _ l⟩,
    fun _ hi hsub => ⟨_, match_gives_all hi (by rw [hsub]; decide), uniform_iff _⟩, fun _ hi => ?_⟩
  · by_cases h64 : l < 64
    · exact ayes_getLsbD (fun _ => act_lt_width hi rfl) w.a h64
    · simp only [p, BitVec.getLsbD_of_ge _ l (Nat.le_of_not_lt h64), Bool.false_and]
  · exact ayes_count (fun _ => act_lt_width hi rfl) w.a ▸ vote_gives_count hw hi hsub
  · have hexec : exec (.shfl w) s = _ := issue_go hi _
    rw [hexec]
    simp only [onSite, shflLane_eq]
    exact putDst_gives _

end

end Sys2Proof.Machine
end

section
/-! Reductions and scans over lanes, and block quantisation (R181, R182, R186). -/

namespace Sys2Proof.Machine

/-- An integer sum over lanes is reduced into the element of its type (R98, R181). -/
theorem reduceV_sum (p : Profile) {t : Ty} (hfp : Ty.isFp t = false) (hb1 : t ≠ .b1) (dmod : Nat) {vals : List Nat} (hne : vals ≠ []) :
    ElemHolds (Ty.elem t) dmod (reduceV p t 0 dmod vals).1 0 (vals.map fun v => elemOf (Ty.elem t) v 0).sum := by
  have hsum : reduceInt (Ty.elem t) 0 (vals.map fun v => elemOf (Ty.elem t) v 0) = (vals.map fun v => elemOf (Ty.elem t) v 0).sum := by
    obtain ⟨v, vs, rfl⟩ := List.exists_cons_of_ne_nil hne
    rw [List.sum_eq_foldl, List.map_cons, List.foldl_cons, Int.zero_add]
    rfl
  have hreduce : (reduceV p t 0 dmod vals).1 =
      resElem (Ty.elem t) dmod (reduceInt (Ty.elem t) 0 (vals.map fun v => elemOf (Ty.elem t) v 0)) := by
    unfold reduceV
    split
    · exact absurd hfp nofun
    · exact absurd rfl hb1
    · rfl
  rw [hreduce, hsum]
  exact resElem_single _ (elem_width_pos t hb1) dmod _

section
variable {w : Enc} {s : State} {x : Site}

/-- WRED gives its scalar the reduction of the active lanes, and every active lane its flags. -/
theorem wred_gives (hw : WellFormed (.wred w) = true) (hi : Issues (.wred w) w s x) : GivesF (exec (.wred w) s) w s x (Ty.wide w.ty)
    fun _ => reduceV x.prof w.ty w.sub.toNat (dMod w) ((lanesOf x.act).map fun l => reduceSource s x w l) := by
  have hexec : exec (.wred w) s = _ := issue_go hi _
  rw [hexec]
  simp only [onSite]
  generalize reduceV x.prof w.ty w.sub.toNat (dMod w) ((lanesOf x.act).map fun l => reduceSource s x w l) = r
  have hput := putDst_scalar (x := x) (wide := Ty.wide w.ty) (wred_file hw) 0 r.1
  have hgives := putDst_raised_gives (w := w) (s := s) (x := x) (Ty.wide w.ty) fun _ => r
  rw [← hput] at hgives
  by_cases ha : x.act = 0
  · simp only [ha, lanesOf_zero] at hgives ⊢
    exact hgives
  · simp only [if_neg ha] at hgives ⊢
    exact hgives

/-- The reduction of the active lanes up to a lane, or before it (R182). -/
def scanAt (s : State) (x : Site) (w : Enc) (l : Nat) : Nat × FFlags :=
  reduceV x.prof w.ty (w.sub.toNat % 8) (dMod w)
    (((lanesOf x.act).filter fun k => if w.sub.toNat < 8 then decide (k ≤ l) else decide (k < l)).map fun k => srcValue s x w.ty w.a k)

theorem scan_lanes (sub : BitVec 4) (k l : Nat) : (decide (k < l) || (k == l && !sub.getLsbD 3)) =
    if sub.toNat < 8 then decide (k ≤ l) else decide (k < l) := by
  have hbit : sub.getLsbD 3 = !decide (sub.toNat < 8) := by revert sub; decide
  rw [hbit]
  by_cases h : sub.toNat < 8
  · simp [h, Nat.le_iff_lt_or_eq, Bool.decide_or, beq_eq_decide]
  · simp [h]

/-- WSCAN gives each active lane its reduction, but for a scalar destination, which takes a free value. -/
theorem wscan_gives (hi : Issues (.wscan w) w s x) : ∃ free, GivesF (exec (.wscan w) s) w s x (Ty.wide w.ty) fun l =>
    (if w.d.file = .scalar then free else (scanAt s x w l).1, (scanAt s x w l).2) := by
  have hexec : exec (.wscan w) s = _ := issue_go hi _
  rw [hexec]
  simp only [onSite, scan_lanes, List.map_map, List.foldl_map, Function.comp_def]
  generalize (Config.freeWord (2 * s.tick)).toNat + 2 ^ 32 * (Config.freeWord (2 * s.tick + 1)).toNat = free
  exact ⟨free, putDst_raised_gives (Ty.wide w.ty) fun l =>
    (if w.d.file = .scalar then free else (scanAt s x w l).1, (scanAt s x w l).2)⟩

theorem writeDst_scalar_regs {y z : Site} {o : Operand} (hfile : o.file = .scalar) (h : y.wp.regs = z.wp.regs) (wide : Bool)
    (vals : List (Nat × Nat)) : (y.writeDst o wide vals).wp.regs = (z.writeDst o wide vals).wp.regs := by
  simp only [Site.writeDst, hfile]
  cases vals with
  | nil => exact h
  | cons e t => simp only [mapRegs_regs, h]

/-- A meaning that writes D and then, where a lane is active, one value to a scalar E gives both. -/
theorem putDst_writeScalar_gives {wide : Bool} (hfile : w.e.file = .scalar) (val : Nat → Nat) (tag : Nat) {y : Site}
    (hy : x.putDst w.d wide (x.lanes val) = y) :
    GivesDE (.next ((Act.done (if y.act = 0 then y else y.writeDst w.e wide [(0, tag)]) s).state w)) w s x wide val fun _ => tag := by
  have hr := regsOnly_putDst x w.d wide (x.lanes val)
  have hregs := putDst_regs x w.d wide (x.lanes val)
  have hopf := putDst_opf x w.d wide (x.lanes val)
  rw [hy] at hr hregs hopf
  have hside : w.e.file ≠ .side := by rw [hfile]; decide
  have hact : y.act = x.act := by
    obtain ⟨-, -, -, -, hact, -⟩ := hr
    exact hact
  have hlanes : (y.lanes fun _ => tag) = x.lanes fun _ => tag := by rw [Site.lanes, Site.lanes, hact]
  rw [writeDst_scalar hfile, hlanes]
  refine givesDE_of rfl (hr.trans (regsOnly_writeDst y w.e wide _)) (writeDst_scalar_regs hfile hregs wide _) ?_
  rw [writeDst_opf _ _ _ _ hside, writeDst_opf _ _ _ _ hside, hopf]

end

/-- Settles O7: the reduction of the active lanes, the scan up to each lane, and the codes of a block with their tag. -/
theorem warpReductionResults : Obligations.WarpReductionResults := by
  intro w s x
  refine ⟨fun hw hi => ?_, fun hw hi => ?_, fun hw hi => ?_⟩
  · intro r
    refine ⟨wred_gives hw hi, fun ha hsub hfp hb1 => ?_⟩
    have hne : (lanesOf x.act).map (fun l => reduceSource s x w l) ≠ [] := fun h => ha (lanesOf_eq_nil.1 (List.map_eq_nil_iff.1 h))
    have hsum := reduceV_sum x.prof hfp hb1 (dMod w) hne
    rw [List.map_map] at hsum
    simp only [r, hsub]
    exact hsum
  · obtain ⟨free, hgives⟩ := wscan_gives hi
    exact ⟨_, hgives, fun l _ => ⟨rfl, fun hfile => if_neg hfile⟩⟩
  · have hexec : exec (.bxq w) s = _ := issue_go hi _
    intro k q
    rw [hexec]
    simp only [onSite, beq_iff_eq]
    exact putDst_writeScalar_gives (bxq_scale_file hw) _ _ rfl

end Sys2Proof.Machine
end

section
/-! Control transfers (R158, R160): the groups that the lanes of a path fall into by where they go, and the entries of the path table that
the groups take. -/

namespace Sys2Proof.Machine

/-! ### Groups by target (R160) -/

/-- One more lane and its target among the groups: it joins the group that goes there, or makes one. -/
def addTarget (gs : List (W64 × Mask)) (e : Nat × W64) : List (W64 × Mask) :=
  if gs.any fun g => g.1 == e.2 then gs.map fun g => if g.1 = e.2 then (g.1, g.2 ||| laneBit e.1) else g
  else gs ++ [(e.2, laneBit e.1)]

theorem splitGroups_eq (targets : List (Nat × W64)) (rest : Mask) (fall : W64) : splitGroups targets rest fall =
    if rest = 0 then targets.foldl addTarget []
    else if (targets.foldl addTarget []).all fun g => g.1 == fall then
      [(fall, (targets.foldl addTarget []).foldl (fun m g => m ||| g.2) rest)]
    else (targets.foldl addTarget []).filter (fun g => decide (lowLane g.2 < lowLane rest)) ++ [(fall, rest)] ++
      (targets.foldl addTarget []).filter fun g => decide (lowLane rest < lowLane g.2) := rfl

/-- The groups of some lanes with targets: each target has a group, and each group is some lanes' target and holds just the lanes
that go there. -/
def Grouped (targets : List (Nat × W64)) (gs : List (W64 × Mask)) : Prop :=
  (∀ e ∈ targets, ∃ g ∈ gs, g.1 = e.2) ∧
  ∀ g ∈ gs, (∃ e ∈ targets, e.2 = g.1) ∧ ∀ l, g.2.getLsbD l = true ↔ l < 64 ∧ (l, g.1) ∈ targets

theorem laneBit_iff {k l : Nat} : (laneBit k).getLsbD l = true ↔ l < 64 ∧ l = k := by
  by_cases hl : l < 64
  · rw [laneBit_getLsbD k l hl, decide_eq_true_iff]
    exact (and_iff_right hl).symm
  · rw [BitVec.getLsbD_of_ge _ l (Nat.le_of_not_lt hl)]
    simp [hl]

theorem Grouped.add {targets : List (Nat × W64)} {gs : List (W64 × Mask)} (h : Grouped targets gs) (e : Nat × W64) :
    Grouped (targets ++ [e]) (addTarget gs e) := by
  obtain ⟨hall, hgs⟩ := h
  have hmem {l : Nat} {pc : W64} : (l, pc) ∈ targets ++ [e] ↔ (l, pc) ∈ targets ∨ l = e.1 ∧ pc = e.2 := by
    rw [List.mem_append, List.mem_singleton, Prod.ext_iff]
  unfold addTarget
  split
  next hany =>
    simp only [List.any_eq_true, beq_iff_eq] at hany
    obtain ⟨g₀, hg₀, hto⟩ := hany
    have hfst (g : W64 × Mask) : (if g.1 = e.2 then (g.1, g.2 ||| laneBit e.1) else g).1 = g.1 := by split <;> rfl
    refine ⟨fun a ha => ?_, List.forall_mem_map.2 fun g hg => ⟨?_, fun l => ?_⟩⟩
    · have hgroup : ∃ g ∈ gs, g.1 = a.2 := by
        obtain ha | ha := List.mem_append.1 ha
        · exact hall a ha
        · obtain rfl := List.mem_singleton.1 ha
          exact ⟨g₀, hg₀, hto⟩
      obtain ⟨g, hg, hga⟩ := hgroup
      exact ⟨_, List.mem_map.2 ⟨g, hg, rfl⟩, (hfst g).trans hga⟩
    · obtain ⟨a, ha, hag⟩ := (hgs g hg).1
      exact ⟨a, List.mem_append_left _ ha, hag.trans (hfst g).symm⟩
    · have hbits := (hgs g hg).2 l
      rw [hfst, hmem]
      split
      next heq =>
        rw [BitVec.getLsbD_or, Bool.or_eq_true, hbits, laneBit_iff, ← and_or_left]
        exact and_congr_right fun _ => or_congr_right (and_iff_left heq).symm
      next hne =>
        rw [hbits]
        exact and_congr_right fun _ => (or_iff_left fun h => hne h.2).symm
  next hany =>
    simp only [List.any_eq_true, beq_iff_eq, not_exists, not_and] at hany
    refine ⟨fun a ha => ?_, fun g hg => ?_⟩
    · obtain ha | ha := List.mem_append.1 ha
      · obtain ⟨g, hg, hga⟩ := hall a ha
        exact ⟨g, List.mem_append_left _ hg, hga⟩
      · obtain rfl := List.mem_singleton.1 ha
        exact ⟨_, List.mem_append_right _ (List.mem_singleton.2 rfl), rfl⟩
    · obtain hg | hg := List.mem_append.1 hg
      · obtain ⟨⟨a, ha, hag⟩, hbits⟩ := hgs g hg
        refine ⟨⟨a, List.mem_append_left _ ha, hag⟩, fun l => ?_⟩
        rw [hbits, hmem]
        exact and_congr_right fun _ => (or_iff_left fun h => hany g hg h.2).symm
      · obtain rfl := List.mem_singleton.1 hg
        refine ⟨⟨e, List.mem_append_right _ (List.mem_singleton.2 rfl), rfl⟩, fun l => ?_⟩
        rw [laneBit_iff, hmem, and_iff_left rfl]
        refine and_congr_right fun _ => (or_iff_right fun h => ?_).symm
        obtain ⟨g, hg, hge⟩ := hall _ h
        exact hany g hg hge

theorem grouped_foldl (targets : List (Nat × W64)) : Grouped targets (targets.foldl addTarget []) := by
  have key (ts done : List (Nat × W64)) (gs : List (W64 × Mask)) (h : Grouped done gs) :
      Grouped (done ++ ts) (ts.foldl addTarget gs) := by
    induction ts generalizing done gs with
    | nil => rwa [List.append_nil]
    | cons e ts ih =>
      have hnext := ih (done ++ [e]) (addTarget gs e) (h.add e)
      rwa [List.append_assoc] at hnext
  exact key targets [] [] ⟨fun e he => absurd he List.not_mem_nil, fun g hg => absurd hg List.not_mem_nil⟩

/-- The lanes of some groups and of a mask. -/
theorem foldl_or_getLsbD (gs : List (W64 × Mask)) (m : Mask) (l : Nat) :
    (gs.foldl (fun m g => m ||| g.2) m).getLsbD l = true ↔ m.getLsbD l = true ∨ ∃ g ∈ gs, g.2.getLsbD l = true := by
  induction gs generalizing m with
  | nil => simp
  | cons g gs ih =>
    rw [List.foldl_cons, ih, BitVec.getLsbD_or, Bool.or_eq_true, or_assoc]
    simp

theorem mask_ne_zero {m : Mask} {l : Nat} (h : m.getLsbD l = true) : m ≠ 0 := by
  rintro rfl
  exact absurd h (by simp)

theorem lowLane_getLsbD {m : Mask} (h : m ≠ 0) : m.getLsbD (lowLane m) = true := (mem_lanesOf.1 (lowLane_mem h)).2

section
variable {x : Site} {tgt : Nat → W64}

/-- The active lanes with their targets. -/
def Site.aims (x : Site) (tgt : Nat → W64) : List (Nat × W64) := (lanesOf x.act).map fun l => (l, tgt l)

theorem mem_aims {l : Nat} {pc : W64} : (l, pc) ∈ x.aims tgt ↔ x.act.getLsbD l = true ∧ tgt l = pc := by
  simp only [Site.aims, List.mem_map, mem_lanesOf, Prod.mk.injEq]
  constructor
  · rintro ⟨k, ⟨-, hk⟩, rfl, rfl⟩
    exact ⟨hk, rfl⟩
  · rintro ⟨hl, rfl⟩
    exact ⟨l, ⟨lt_of_getLsbD hl, hl⟩, rfl, rfl⟩

theorem placeOf_active {l : Nat} (h : x.act.getLsbD l = true) : placeOf x tgt l = tgt l := if_pos h

theorem placeOf_idle {l : Nat} (h : x.act.getLsbD l = false) : placeOf x tgt l = x.pa.pc + 16 := if_neg (by simp [h])

/-- A group of a control transfer: some lanes of the path that go to one place, and with each of them all that go as one group with it. -/
def IsGroup (x : Site) (tgt : Nat → W64) (g : W64 × Mask) : Prop :=
  g.2 ≠ 0 ∧ ∀ l, g.2.getLsbD l = true → g.1 = placeOf x tgt l ∧
    ∀ m, g.2.getLsbD m = true ↔ (ownLanes x).getLsbD m = true ∧ OneGroup x tgt l m

/-- The groups of the active lanes by target. -/
theorem aims_grouped : (∀ l, x.act.getLsbD l = true → ∃ g ∈ (x.aims tgt).foldl addTarget [], g.2.getLsbD l = true) ∧
    ∀ g ∈ (x.aims tgt).foldl addTarget [], g.2 ≠ 0 ∧ ∀ l, g.2.getLsbD l = true ↔ x.act.getLsbD l = true ∧ tgt l = g.1 := by
  obtain ⟨hall, hgs⟩ := grouped_foldl (x.aims tgt)
  have hbits {g : W64 × Mask} (hg : g ∈ (x.aims tgt).foldl addTarget []) (l : Nat) :
      g.2.getLsbD l = true ↔ x.act.getLsbD l = true ∧ tgt l = g.1 := by
    rw [(hgs g hg).2, mem_aims]
    exact and_iff_right_of_imp fun h => lt_of_getLsbD h.1
  refine ⟨fun l hl => ?_, fun g hg => ⟨?_, hbits hg⟩⟩
  · obtain ⟨g, hg, hto⟩ := hall (l, tgt l) (mem_aims.2 ⟨hl, rfl⟩)
    exact ⟨g, hg, (hbits hg l).2 ⟨hl, hto.symm⟩⟩
  · obtain ⟨⟨⟨l, pc⟩, he, hto⟩, -⟩ := hgs g hg
    obtain ⟨hl, rfl⟩ := mem_aims.1 he
    exact mask_ne_zero ((hbits hg l).2 ⟨hl, hto⟩)

/-- The lanes of the path that are not active. -/
theorem idle_iff {l : Nat} : (ownLanes x &&& ~~~x.act).getLsbD l = true ↔ (ownLanes x).getLsbD l = true ∧ x.act.getLsbD l = false := by
  rw [BitVec.getLsbD_and, BitVec.getLsbD_not, Bool.and_eq_true]
  refine and_congr_right fun h => ?_
  rw [decide_eq_true (lt_of_getLsbD h), Bool.true_and, Bool.not_eq_true']

/-- The whole path goes to the next word. -/
def FallsThrough (x : Site) (tgt : Nat → W64) : Prop := ∀ k, (ownLanes x).getLsbD k = true → placeOf x tgt k = x.pa.pc + 16

section
variable (hact : ∀ l, x.act.getLsbD l = true → (ownLanes x).getLsbD l = true)
include hact

/-- The active lanes of one target are a group, where none that is not active goes with them. -/
theorem isGroup_of_aim {g : W64 × Mask} (hg : g.2 ≠ 0 ∧ ∀ l, g.2.getLsbD l = true ↔ x.act.getLsbD l = true ∧ tgt l = g.1)
    (halone : ∀ l m, x.act.getLsbD l = true → (ownLanes x).getLsbD m = true → OneGroup x tgt l m → x.act.getLsbD m = true) :
    IsGroup x tgt g := by
  obtain ⟨hne, hbits⟩ := hg
  refine ⟨hne, fun l hl => ?_⟩
  obtain ⟨ha, hto⟩ := (hbits l).1 hl
  refine ⟨hto.symm.trans (placeOf_active ha).symm, fun m => ?_⟩
  rw [hbits m]
  constructor
  · rintro ⟨hm, hmto⟩
    exact ⟨hact m hm, by rw [placeOf_active ha, placeOf_active hm, hto, hmto], .inl (ha.trans hm.symm)⟩
  · rintro ⟨hm, hone⟩
    have hm := halone l m ha hm hone
    have hsame := hone.1
    rw [placeOf_active ha, placeOf_active hm] at hsame
    exact ⟨hm, hsame.symm.trans hto⟩

omit hact in
/-- Where the whole path goes to the next word, its lanes are one group. -/
theorem isGroup_of_fallsThrough {g : W64 × Mask} (hfall : FallsThrough x tgt) (hto : g.1 = x.pa.pc + 16) (hne : g.2 ≠ 0)
    (hbits : ∀ l, g.2.getLsbD l = true ↔ (ownLanes x).getLsbD l = true) : IsGroup x tgt g := by
  refine ⟨hne, fun l hl => ?_⟩
  have hl := hfall l ((hbits l).1 hl)
  refine ⟨hto.trans hl.symm, fun m => ?_⟩
  rw [hbits]
  exact (and_iff_left_of_imp fun hm => ⟨hl.trans (hfall m hm).symm, .inr hfall⟩).symm

omit hact in
/-- Where some lane goes elsewhere, the lanes that are not active are a group. -/
theorem isGroup_of_idle (hmixed : ¬FallsThrough x tgt) (hne : ownLanes x &&& ~~~x.act ≠ 0) :
    IsGroup x tgt (x.pa.pc + 16, ownLanes x &&& ~~~x.act) := by
  refine ⟨hne, fun l hl => ?_⟩
  have ha := (idle_iff.1 hl).2
  refine ⟨(placeOf_idle ha).symm, fun m => ?_⟩
  rw [idle_iff]
  refine and_congr_right fun hm => ⟨fun hma => ⟨(placeOf_idle ha).trans (placeOf_idle hma).symm, .inl (ha.trans hma.symm)⟩, ?_⟩
  rintro ⟨-, hboth | hall⟩
  · exact hboth.symm.trans ha
  · exact absurd hall hmixed

/-- The groups by target all go to the next word just where the whole path does. -/
theorem fallsThrough_iff_aims : ((x.aims tgt).foldl addTarget []).all (fun g => g.1 == x.pa.pc + 16) = true ↔ FallsThrough x tgt := by
  obtain ⟨hall, hgs⟩ := aims_grouped (x := x) (tgt := tgt)
  simp only [List.all_eq_true, beq_iff_eq]
  constructor
  · intro hfall l _
    by_cases ha : x.act.getLsbD l = true
    · obtain ⟨g, hg, hl⟩ := hall l ha
      rw [placeOf_active ha, (((hgs g hg).2 l).1 hl).2, hfall g hg]
    · exact placeOf_idle (Bool.eq_false_iff.2 ha)
  · intro hfall g hg
    obtain ⟨hne, hbits⟩ := hgs g hg
    obtain ⟨ha, hto⟩ := (hbits _).1 (lowLane_getLsbD hne)
    exact hto.symm.trans ((placeOf_active ha).symm.trans (hfall _ (hact _ ha)))

/-- The lanes of the groups by target, with those that are not active, are the lanes of the path. -/
theorem aims_and_idle_iff {l : Nat} : (((x.aims tgt).foldl addTarget []).foldl (fun m g => m ||| g.2) (ownLanes x &&& ~~~x.act)).getLsbD l =
    true ↔ (ownLanes x).getLsbD l = true := by
  obtain ⟨hall, hgs⟩ := aims_grouped (x := x) (tgt := tgt)
  rw [foldl_or_getLsbD, idle_iff]
  constructor
  · rintro (⟨h, -⟩ | ⟨g, hg, hl⟩)
    · exact h
    · exact hact l (((hgs g hg).2 l).1 hl).1
  · intro h
    by_cases ha : x.act.getLsbD l = true
    · exact .inr (hall l ha)
    · exact .inl ⟨h, Bool.eq_false_iff.2 ha⟩

omit hact in
/-- A group put among others by its lowest lane. -/
theorem mem_inserted {gs : List (W64 × Mask)} {g₀ : W64 × Mask} (hlow : ∀ g ∈ gs, lowLane g.2 ≠ lowLane g₀.2) {g : W64 × Mask} :
    g ∈ gs.filter (fun g => decide (lowLane g.2 < lowLane g₀.2)) ++ [g₀] ++ gs.filter (fun g => decide (lowLane g₀.2 < lowLane g.2)) ↔
      g ∈ gs ∨ g = g₀ := by
  simp only [List.mem_append, List.mem_filter, List.mem_singleton, decide_eq_true_eq]
  rw [or_right_comm, ← and_or_left]
  exact or_congr_left (and_iff_left_of_imp fun hg => Nat.lt_or_gt_of_ne (hlow g hg))

/-- The groups of a control transfer hold every lane of the path, and each is a group in the sense of R160. -/
theorem transferGroups_spec : (∀ l, (ownLanes x).getLsbD l = true → ∃ g ∈ transferGroups x tgt, g.2.getLsbD l = true) ∧
    ∀ g ∈ transferGroups x tgt, IsGroup x tgt g := by
  have hgroups : transferGroups x tgt = splitGroups (x.aims tgt) (ownLanes x &&& ~~~x.act) (x.pa.pc + 16) := rfl
  have hfall := fallsThrough_iff_aims hact (tgt := tgt)
  have hlanes {l : Nat} := aims_and_idle_iff hact (tgt := tgt) (l := l)
  obtain ⟨hall, hgs⟩ := aims_grouped (x := x) (tgt := tgt)
  rw [hgroups, splitGroups_eq]
  generalize (x.aims tgt).foldl addTarget [] = gs at *
  by_cases hzero : ownLanes x &&& ~~~x.act = 0
  · have hbusy {l : Nat} (h : (ownLanes x).getLsbD l = true) : x.act.getLsbD l = true := by
      by_contra hne
      exact mask_ne_zero (idle_iff.2 ⟨h, Bool.eq_false_iff.2 hne⟩) hzero
    rw [if_pos hzero]
    exact ⟨fun l hl => hall l (hbusy hl), fun g hg => isGroup_of_aim hact (hgs g hg) fun _ _ _ hm _ => hbusy hm⟩
  rw [if_neg hzero]
  by_cases hthrough : FallsThrough x tgt
  · rw [if_pos (hfall.2 hthrough)]
    have hne := mask_ne_zero ((foldl_or_getLsbD gs _ _).2 (.inl (lowLane_getLsbD hzero)))
    exact ⟨fun l hl => ⟨_, List.mem_singleton.2 rfl, hlanes.2 hl⟩,
      List.forall_mem_singleton.2 (isGroup_of_fallsThrough hthrough rfl hne fun _ => hlanes)⟩
  · rw [if_neg (hfall.not.2 hthrough)]
    have hlow (g : W64 × Mask) (hg : g ∈ gs) : lowLane g.2 ≠ lowLane (ownLanes x &&& ~~~x.act) := fun h => by
      obtain ⟨hne, hbits⟩ := hgs g hg
      obtain ⟨ha, -⟩ := (hbits _).1 (lowLane_getLsbD hne)
      rw [h, (idle_iff.1 (lowLane_getLsbD hzero)).2] at ha
      exact absurd ha nofun
    have hmem {g : W64 × Mask} := mem_inserted (g₀ := (x.pa.pc + 16, ownLanes x &&& ~~~x.act)) hlow (g := g)
    refine ⟨fun l hl => ?_, fun g hg => ?_⟩
    · by_cases ha : x.act.getLsbD l = true
      · obtain ⟨g, hg, hgl⟩ := hall l ha
        exact ⟨g, hmem.2 (.inl hg), hgl⟩
      · exact ⟨_, hmem.2 (.inr rfl), idle_iff.2 ⟨hl, Bool.eq_false_iff.2 ha⟩⟩
    · obtain hg | rfl := hmem.1 hg
      · refine isGroup_of_aim hact (hgs g hg) fun l m ha _ hone => ?_
        obtain ⟨-, hboth | hthrough'⟩ := hone
        · exact hboth.symm.trans ha
        · exact absurd hthrough' hthrough
      · exact isGroup_of_idle hthrough hzero

end

end

/-! ### Entries of the path table (R158, R160) -/

theorem mem_freeEntries {ps : KV Path} {k : Nat} : k ∈ freeEntries ps ↔ k < maxPaths ∧ kvGet ps k = none := by
  rw [freeEntries, List.mem_filter, List.mem_range, Option.isNone_iff_eq_none]

theorem freeEntries_nodup (ps : KV Path) : (freeEntries ps).Nodup := List.nodup_range.filter _

/-- A write to an entry in use frees none and takes none. -/
theorem freeEntries_kvSet {ps : KV Path} {k : Nat} {p q : Path} (h : kvGet ps k = some p) : freeEntries (kvSet ps k q) = freeEntries ps := by
  refine List.filter_congr fun j _ => ?_
  rw [kvGet_kvSet]
  split
  next hj => rw [hj, h, Option.isNone_some, Option.isNone_some]
  · rfl

/-- A table of n paths leaves at least 16 - n entries free. -/
theorem le_freeEntries (ps : KV Path) : maxPaths - ps.length ≤ (freeEntries ps).length := by
  have hused : ((List.range maxPaths).filter fun k => !(kvGet ps k).isNone).length ≤ ps.length := by
    have hlen : (ps.map (·.1)).length = ps.length := List.length_map _
    rw [← hlen]
    refine ((List.nodup_range.filter _).subperm fun k hk => ?_).length_le
    obtain ⟨p, hp⟩ := Option.isSome_iff_exists.1 (by simpa using (List.mem_filter.1 hk).2)
    exact List.mem_map.2 ⟨(k, p), kvGet_mem hp, rfl⟩
  have hsum := List.length_eq_length_filter_add (l := List.range maxPaths) fun k => (kvGet ps k).isNone
  rw [List.length_range] at hsum
  rw [freeEntries]
  omega

section
variable {α β : Type} {m : KV β} {es : List (Nat × α)} (f : α → β)

theorem kvGet_foldl_kvSet_other {k : Nat} (h : k ∉ es.map (·.1)) : kvGet (es.foldl (fun m e => kvSet m e.1 (f e.2)) m) k = kvGet m k := by
  induction es generalizing m with
  | nil => rfl
  | cons e es ih =>
    obtain ⟨hne, h⟩ := not_or.1 (List.mem_cons.not.1 h)
    exact (ih h).trans (kvGet_kvSet_ne hne)

theorem kvGet_foldl_kvSet_mem (hnd : (es.map (·.1)).Nodup) {k : Nat} {a : α} (h : (k, a) ∈ es) :
    kvGet (es.foldl (fun m e => kvSet m e.1 (f e.2)) m) k = some (f a) := by
  induction es generalizing m with
  | nil => exact absurd h List.not_mem_nil
  | cons e es ih =>
    obtain ⟨hfresh, hnd⟩ := List.nodup_cons.1 hnd
    obtain rfl | h := List.mem_cons.1 h
    · exact (kvGet_foldl_kvSet_other f hfresh).trans (kvGet_kvSet_same m k _)
    · exact ih hnd h

end

/-- Some groups that take free entries of a table, one each, while the path of an entry in use becomes another. -/
theorem placed_groups {ps : KV Path} {k : Nat} {p q : Path} (hk : kvGet ps k = some p) (gs : List (W64 × Mask)) (mk : W64 × Mask → Path)
    (hroom : gs.length ≤ (freeEntries ps).length) {out : KV Path}
    (hout : out = ((freeEntries ps).zip gs).foldl (fun m e => kvSet m e.1 (mk e.2)) (kvSet ps k q)) :
    (∀ j r, j ≠ k → kvGet ps j = some r → kvGet out j = some r) ∧ kvGet out k = some q ∧
    ∀ g ∈ gs, ∃ j, kvGet out j = some (mk g) := by
  have hkeys : (((freeEntries ps).zip gs).map (·.1)).Sublist (freeEntries ps) := by
    rw [List.zip_eq_zip_take_min, List.map_fst_zip (by simp)]
    exact List.take_sublist _ _
  have hused {j : Nat} {r : Path} (hj : kvGet ps j = some r) : j ∉ ((freeEntries ps).zip gs).map (·.1) := fun h =>
    absurd (hj.symm.trans (mem_freeEntries.1 (hkeys.subset h)).2) nofun
  subst hout
  refine ⟨fun j r hj hr => ?_, ?_, fun g hg => ?_⟩
  · rw [kvGet_foldl_kvSet_other mk (hused hr), kvGet_kvSet_ne hj, hr]
  · rw [kvGet_foldl_kvSet_other mk (hused hk), kvGet_kvSet_same]
  · obtain ⟨i, hi, rfl⟩ := List.getElem_of_mem hg
    have hpair : ((freeEntries ps)[i]'(hi.trans_le hroom), gs[i]) ∈ (freeEntries ps).zip gs := by
      rw [← List.getElem_zip (h := by rw [List.length_zip]; omega)]
      exact List.getElem_mem _
    exact ⟨_, kvGet_foldl_kvSet_mem mk ((freeEntries_nodup ps).sublist hkeys) hpair⟩

/-- The path of a group, with the branch that it keeps in mind. -/
def splitPath (since : Option W64) (g : W64 × Mask) : Path := { pc := g.1, mask := g.2, splitFrom := since }

/-- What R160 makes of the groups with some entries free: each group is on a READY path of its own, or, where the groups outnumber the
entries, with others on a path at the branch. The other entries stand. -/
theorem applyPlan_spec {ps : KV Path} {k : Nat} {p : Path} (hk : kvGet ps k = some p) (pc : W64) {gs : List (W64 × Mask)} {free : Nat}
    (hfree : free ≤ (freeEntries ps).length) (hgs : ∀ g ∈ gs, g.2 ≠ 0) {out : KV Path} {made : List Nat}
    (hout : applyPlan ps k pc (splitPlan gs free) = (out, made)) :
    (∀ j r, j ≠ k → kvGet ps j = some r → kvGet out j = some r) ∧
    ∀ g ∈ gs, (∃ j r, kvGet out j = some r ∧ r.pc = g.1 ∧ r.mask = g.2 ∧ r.st = .ready) ∨
      (free + 1 < gs.length ∧ ∃ r, kvGet out k = some r ∧ r.pc = pc ∧ (∀ l, g.2.getLsbD l = true → r.mask.getLsbD l = true) ∧
        r.st = if free = 0 then .noEntry else .ready) := by
  by_cases hfew : gs.length ≤ free + 1
  · simp only [splitPlan, if_pos hfew, applyPlan, if_true] at hout
    cases gs with
    | nil =>
      obtain ⟨rfl, -⟩ := Prod.mk.inj hout
      exact ⟨fun _ _ _ hr => hr, fun g hg => absurd hg List.not_mem_nil⟩
    | cons g₀ gs =>
      have hroom : gs.length ≤ (freeEntries ps).length := by rw [List.length_cons] at hfew; omega
      obtain ⟨hps, hown, hplaced⟩ := placed_groups hk gs (splitPath ((kvGet ps k).bind (·.splitFrom))) hroom (Prod.mk.inj hout).1.symm
      refine ⟨hps, fun g hg => .inl ?_⟩
      obtain rfl | hg := List.mem_cons.1 hg
      · exact ⟨k, _, hown, rfl, rfl, rfl⟩
      · obtain ⟨j, hj⟩ := hplaced g hg
        exact ⟨j, _, hj, rfl, rfl, rfl⟩
  · have hdropped (l : Nat) : ((gs.drop free).foldl (fun m g => m ||| g.2) (0 : Mask)).getLsbD l = true ↔
        ∃ g ∈ gs.drop free, g.2.getLsbD l = true := by
      rw [foldl_or_getLsbD]
      simp
    have hstay : (gs.drop free).foldl (fun m g => m ||| g.2) (0 : Mask) ≠ 0 := by
      obtain ⟨g, rest, hdrop⟩ := List.exists_cons_of_ne_nil (l := gs.drop free) fun h => hfew (by
        have := List.drop_eq_nil_iff.1 h
        omega)
      have hg : g ∈ gs.drop free := hdrop ▸ List.mem_cons_self
      exact mask_ne_zero ((hdropped _).2 ⟨g, hg, lowLane_getLsbD (hgs g (List.mem_of_mem_drop hg))⟩)
    simp only [splitPlan, if_neg hfew, applyPlan, if_neg hstay] at hout
    have hroom : (gs.take free).length ≤ (freeEntries ps).length := by rw [List.length_take]; omega
    obtain ⟨hps, hown, hplaced⟩ := placed_groups hk (gs.take free) (splitPath (some pc)) hroom (Prod.mk.inj hout).1.symm
    refine ⟨hps, fun g hg => ?_⟩
    rw [← List.take_append_drop free gs] at hg
    obtain hg | hg := List.mem_append.1 hg
    · obtain ⟨j, hj⟩ := hplaced g hg
      exact .inl ⟨j, _, hj, rfl, rfl, rfl⟩
    · have hnone : ((freeEntries ps).zip (gs.take free)).isEmpty = decide (free = 0) := by
        rw [Bool.eq_iff_iff, List.isEmpty_iff, decide_eq_true_iff, ← List.length_eq_zero_iff, List.length_zip, List.length_take]
        omega
      refine .inr ⟨by omega, _, hown, rfl, fun l hl => (hdropped l).2 ⟨g, hg, hl⟩, ?_⟩
      simp only [hnone, decide_eq_true_eq]

/-! ### The transfer -/

section
variable {x : Site} {tgt : Nat → W64}

/-- A path is back at the branch where its group was split off (R158). -/
theorem back_iff : (x.pa.splitFrom == some x.pa.pc && x.wp.paths.any fun q => q.1 != x.rn.path && q.2.stay && q.2.pc == x.pa.pc) = true ↔
    BackAtBranch x := by
  simp only [BackAtBranch, Bool.and_eq_true, beq_iff_eq, List.any_eq_true, bne_iff_ne, and_assoc]

/-- What R160 makes of some lanes with targets and the free entries of the warp's path table. -/
def Site.plan (x : Site) (ts : List (Nat × W64)) : List (W64 × Mask) × Mask :=
  splitPlan (splitGroups ts (ownLanes x &&& ~~~x.act) (x.pa.pc + 16)) (freeCount x)

theorem transfer_back (h : BackAtBranch x) (w : Enc) (ts : List (Nat × W64)) : x.transfer w ts = (x.endRun w x.pa.pc, x.act) :=
  if_pos (back_iff.2 h)

theorem transfer_away (h : ¬BackAtBranch x) (w : Enc) (ts : List (Nat × W64)) : x.transfer w ts =
    let r := applyPlan (x.endRun w x.pa.pc).paths x.rn.path x.pa.pc (x.plan ts)
    ({ x.endRun w x.pa.pc with paths := r.1, afterSplit := if 1 < r.2.length then r.2 else [] }, (x.plan ts).2) :=
  if_neg fun hb => h (back_iff.1 hb)

/-- A meaning that ends in a control transfer of its active lanes is one in the sense of R160. -/
theorem transfer_branches (w : Enc) (hpath : kvGet x.wp.paths x.rn.path = some x.pa)
    (hact : ∀ l, x.act.getLsbD l = true → (ownLanes x).getLsbD l = true) (s : State) :
    Branched (.next ((x.finish s (x.transfer w (x.aims tgt)).1).state w)) s x x.wp tgt := by
  refine ⟨_, rfl, ?_⟩
  obtain ⟨hended, hown⟩ := runEnded_endRun x w x.pa.pc
  by_cases hback : BackAtBranch x
  · rw [transfer_back hback]
    refine ⟨hended, fun l hl => ⟨x.rn.path, _, hown, ?_, .inl ⟨hback, rfl, rfl, rfl⟩⟩⟩
    rw [ownLanes, BitVec.getLsbD_and, Bool.and_eq_true] at hl
    exact hl.1
  · obtain ⟨hkeeps, hregs, hrun, hothers⟩ := hended
    obtain ⟨hall, hgroups⟩ := transferGroups_spec hact (tgt := tgt)
    have hroom : freeCount x ≤ (freeEntries (x.endRun w x.pa.pc).paths).length := by
      simp only [Site.endRun, freeEntries_kvSet hpath]
      exact le_freeEntries x.wp.paths
    obtain ⟨hps, hplaced⟩ := applyPlan_spec hown x.pa.pc hroom (fun g hg => (hgroups g hg).1) rfl
    rw [transfer_away hback]
    refine ⟨⟨hkeeps, hregs, hrun, fun k p hk hp => hps k p hk (hothers k p hk hp)⟩, fun l hl => ?_⟩
    obtain ⟨g, hg, hgl⟩ := hall l hl
    obtain ⟨hto, hmates⟩ := (hgroups g hg).2 l hgl
    obtain ⟨k, p, hk, hpc, hmask, hst⟩ | ⟨hmany, p, hk, hpc, hmask, hst⟩ := hplaced g hg
    · exact ⟨k, p, hk, hmask ▸ hgl, .inr (.inl ⟨hback, hpc.trans hto, hst, fun m => hmask ▸ hmates m⟩)⟩
    · exact ⟨_, p, hk, hmask l hgl, .inr (.inr ⟨hback, hmany, rfl, hpc, hst⟩)⟩

/-- The path that issues an instruction is an entry of its warp's table. -/
theorem path_of_issues {i : Instr} {w : Enc} {s : State} (h : Issues i w s x) : kvGet x.wp.paths x.rn.path = some x.pa := by
  obtain ⟨y, hy, -, -, rfl, -⟩ := h
  unfold siteOf at hy
  repeat' split at hy
  all_goals cases hy
  assumption

/-- What an instruction that issues makes of a control transfer of its active lanes. -/
theorem issue_branches {i : Instr} {w : Enc} {s : State} (hi : Issues i w s x) (t : State) :
    Branched (.next ((x.finish t (x.transfer w (x.aims tgt)).1).state w)) t x x.wp tgt :=
  transfer_branches w (path_of_issues hi) (fun _ => act_ownLanes hi) t

/-- A meaning that ends the run with the whole path at a PC. -/
theorem finish_steps (w : Enc) (s : State) (pc : W64) : Stepped (.next ((x.finish s (x.endRun w pc)).state w)) s x pc := by
  obtain ⟨hended, hpath⟩ := runEnded_endRun x w pc
  exact ⟨_, rfl, hended, _, hpath, rfl, rfl, rfl⟩

/-- An instruction whose meaning falls through moves the whole path to the next word. -/
theorem issue_idle {i : Instr} {w : Enc} {s : State} {body : Site → State → Act} (hi : Issues i w s x)
    (h : body x s = x.fallThrough w s) : Stepped (issueInstr i w s body) s x (x.pa.pc + 16) := by
  rw [issue_go hi, h]
  exact fallThrough_steps x w s

end

end Sys2Proof.Machine
end

section
/-! NOP and branches (R164-R166, R177). -/

namespace Sys2Proof.Machine

section
variable {w : Enc} {s : State} {x : Site}

/-- A meaning that leaves its warp as it is, whatever state it makes, goes on to the next word. -/
theorem done_goes (t : State) : GoesOnTo (.next ((Act.done x t).state w)) w x t := by
  obtain ⟨hkeeps, hgoes⟩ := (RegsOnly.refl x).advance w
  exact ⟨_, rfl, hkeeps, hgoes, advance_regs x w⟩

theorem nop_goes (hi : Issues (.nop w) w s x) : GoesOnTo (exec (.nop w) s) w x s := by
  have hexec : exec (.nop w) s = _ := issue_go hi _
  exact hexec ▸ done_goes s

theorem bra_branches (hi : Issues (.bra w) w s x) :
    Branched (exec (.bra w) s) s x x.wp fun _ => x.pa.pc + (w.lit.getD 0).signExtend 64 := by
  rw [exec, execBra, issue_go hi]
  exact issue_branches hi s

/-! ### Traps of some of the active lanes -/

theorem maskOf_iff {ls : List Nat} (h : ∀ l ∈ ls, l < 64) {l : Nat} : (maskOf ls).getLsbD l = true ↔ l ∈ ls := by
  by_cases hl : l < 64
  · rw [maskOf_getLsbD _ _ hl, decide_eq_true_iff]
  · rw [BitVec.getLsbD_of_ge _ l (Nat.le_of_not_lt hl)]
    exact ⟨nofun, fun hmem => absurd (h l hmem) hl⟩

/-- Where a condition picks out active lanes, they are the lanes of a mask, whose lowest is the first of them. -/
theorem picked_lanes {p : Nat → Bool} (h : ∃ l, l < 64 ∧ x.act.getLsbD l = true ∧ p l = true) :
    ∃ b bs, (lanesOf x.act).filter p = b :: bs ∧ lowLane (maskOf (b :: bs)) = b ∧
      ∀ l, (maskOf (b :: bs)).getLsbD l = true ↔ x.act.getLsbD l = true ∧ p l = true := by
  obtain ⟨l, hl, ha, hp⟩ := h
  obtain ⟨b, bs, hbs⟩ := List.exists_cons_of_ne_nil (List.ne_nil_of_mem (List.mem_filter.2 ⟨mem_lanesOf.2 ⟨hl, ha⟩, hp⟩))
  refine ⟨b, bs, hbs, ?_, fun k => ?_⟩
  · rw [lowLane, ← hbs, lanesOf_maskOf_filter, hbs]
    rfl
  · rw [← hbs, maskOf_iff fun j hj => (mem_lanesOf.1 (List.mem_of_mem_filter hj)).1, List.mem_filter, mem_lanesOf]
    exact and_congr_left' (and_iff_right_of_imp lt_of_getLsbD)

theorem picked_none {p : Nat → Bool} (h : ∀ l, x.act.getLsbD l = true → p l = false) : (lanesOf x.act).filter p = [] :=
  List.filter_eq_nil_iff.2 fun l hl => ne_true_of_eq_false (h l (mem_lanesOf.1 hl).2)

/-! ### BRAU (R165) -/

/-- A lane at a BRAU that disagrees with the lowest about the guard or, without a literal, about the target. -/
def differsAt (s : State) (x : Site) (w : Enc) : Nat → Bool := fun l =>
  (guardMask x.width x.wp w.guard).getLsbD l != (guardMask x.width x.wp w.guard).getLsbD (lowLane x.act) ||
    (w.lit.isNone && nB s x w l != nB s x w (lowLane x.act))

theorem differsAt_iff (l : Nat) : differsAt s x w l = true ↔
    (guardMask x.width x.wp w.guard).getLsbD l ≠ (guardMask x.width x.wp w.guard).getLsbD (lowLane x.act) ∨
      (w.lit = none ∧ nB s x w l ≠ nB s x w (lowLane x.act)) := by
  simp only [differsAt, Bool.or_eq_true, Bool.and_eq_true, bne_iff_ne, Option.isNone_iff_eq_none]

theorem brau_traps (hi : Issues (.brau w) w s x) (h : ∃ l, l < 64 ∧ x.act.getLsbD l = true ∧ differsAt s x w l = true) :
    ∃ m : Mask, exec (.brau w) s = .next (takeTrap s x { code := 0x04, mask := m }) ∧
      ∀ l, m.getLsbD l = true ↔ x.act.getLsbD l = true ∧ differsAt s x w l = true := by
  obtain ⟨b, bs, hbs, -, hmask⟩ := picked_lanes h
  refine ⟨_, ?_, hmask⟩
  unfold differsAt at hbs
  rw [exec, execBrau, issue_go hi]
  simp only [hbs]
  rfl

section
variable (hi : Issues (.brau w) w s x) (hsame : ∀ l, x.act.getLsbD l = true → differsAt s x w l = false)
include hsame

theorem none_differs : (lanesOf x.act).filter (fun l =>
    (guardMask x.width x.wp w.guard).getLsbD l != (guardMask x.width x.wp w.guard).getLsbD (lowLane x.act) ||
      (w.lit.isNone && nB s x w l != nB s x w (lowLane x.act))) = [] :=
  picked_none hsame

include hi

theorem brau_falls (hg : (guardMask x.width x.wp w.guard).getLsbD (lowLane x.act) = false) :
    Stepped (exec (.brau w) s) s x (x.pa.pc + 16) := by
  rw [exec, execBrau, issue_go hi]
  simp only [none_differs hsame]
  rw [hg]
  exact fallThrough_steps x w s

theorem brau_goes_literal (hg : (guardMask x.width x.wp w.guard).getLsbD (lowLane x.act) = true) {v : W32} (hv : w.lit = some v) :
    Stepped (exec (.brau w) s) s x (x.pa.pc + v.signExtend 64) := by
  have htarget : x.literalTarget w = x.pa.pc + v.signExtend 64 := by rw [Site.literalTarget, hv, Option.getD_some]
  rw [exec, execBrau, issue_go hi]
  simp only [none_differs hsame]
  rw [hg, hv, htarget]
  exact finish_steps w s _

theorem brau_goes_code (hg : (guardMask x.width x.wp w.guard).getLsbD (lowLane x.act) = true) (hlit : w.lit = none)
    (halign : nB s x w (lowLane x.act) % 16 = 0) :
    Stepped (exec (.brau w) s) s x (BitVec.ofNat 64 (x.k.codeVa + nB s x w (lowLane x.act))) := by
  have hmis : x.misaligned ((lanesOf x.act).map fun l => (l, nB s x w l)) = none := by
    refine misaligned_none (List.forall_mem_map.2 fun l hl => ?_)
    have hagree := (differsAt_iff l).not.1 (ne_true_of_eq_false (hsame l (mem_lanesOf.1 hl).2))
    push Not at hagree
    rw [hagree.2 hlit]
    exact halign
  rw [exec, execBrau, issue_go hi]
  simp only [none_differs hsame]
  rw [hg, hlit, hmis]
  exact finish_steps w s _

end

/-! ### BRX (R166) -/

theorem brx_traps (hi : Issues (.brx w) w s x) (hact : x.act ≠ 0)
    (h : ∃ l, l < 64 ∧ x.act.getLsbD l = true ∧ nB s x w l ≤ srcValue s x .n32 w.a l) : ∃ (m : Mask) (b : Nat),
      exec (.brx w) s = .next (takeTrap s x { code := 0x06, tx := BitVec.ofNat 32 b, mask := m }) ∧ b = nB s x w (lowLane m) ∧
      ∀ l, m.getLsbD l = true ↔ x.act.getLsbD l = true ∧ nB s x w l ≤ srcValue s x .n32 w.a l := by
  obtain ⟨b, bs, hbs, hlow, hmask⟩ := picked_lanes (p := fun l => decide (nB s x w l ≤ srcValue s x .n32 w.a l)) (by simpa using h)
  refine ⟨_, nB s x w b, ?_, by rw [hlow], fun l => (hmask l).trans (and_congr_right fun _ => decide_eq_true_iff)⟩
  rw [exec, execBrx, issue_go hi]
  simp only [if_neg hact, hbs]
  rfl

theorem brx_branches (hi : Issues (.brx w) w s x) (hact : x.act ≠ 0) {t : State} {f : Nat → Nat}
    (hbound : ∀ l, x.act.getLsbD l = true → srcValue s x .n32 w.a l < nB s x w l)
    (hload : syncLoad s x 4 ((lanesOf x.act).map fun l =>
      (l, (srcValue s x .n64 (if w.lit.isSome then w.e else w.c) 0 + 4 * srcValue s x .n32 w.a l) % 2 ^ 64)) =
      .ok t ((lanesOf x.act).map fun l => (l, f l)))
    (halign : ∀ l, x.act.getLsbD l = true → f l % 16 = 0) :
    Branched (exec (.brx w) s) t x x.touched.wp fun l => BitVec.ofNat 64 (x.k.codeVa + f l) := by
  have hnone : (lanesOf x.act).filter (fun l => decide (nB s x w l ≤ srcValue s x .n32 w.a l)) = [] :=
    picked_none fun l hl => decide_eq_false (Nat.not_le_of_lt (hbound l hl))
  have hmis : x.misaligned ((lanesOf x.act).map fun l => (l, f l)) = none :=
    misaligned_none (List.forall_mem_map.2 fun l hl => halign l (mem_lanesOf.1 hl).2)
  rw [exec, execBrx, issue_go hi]
  simp only [if_neg hact, hnone, hload, hmis, List.map_map, Function.comp_def]
  exact transfer_branches (x := x.touched) w (path_of_issues (x := x) hi) (fun _ => act_ownLanes (x := x) hi) t

end

/-- Settles O8: NOP goes on, a branch is a control transfer, and BRAU moves the whole path. -/
theorem branchResults : Obligations.BranchResults := by
  intro w s x
  refine ⟨nop_goes, bra_branches, fun hi => ?_, fun hi hact => ⟨brx_traps hi hact, fun t f => brx_branches hi hact⟩⟩
  intro g lo differs
  have hdiffers (l : Nat) : differsAt s x w l = true ↔ differs l := differsAt_iff l
  have hsame (h : ∀ l, x.act.getLsbD l = true → ¬differs l) (l : Nat) (hl : x.act.getLsbD l = true) : differsAt s x w l = false :=
    Bool.eq_false_iff.2 fun hd => h l hl ((hdiffers l).1 hd)
  refine ⟨fun h => ?_, fun h hg => brau_falls hi (hsame h) hg, fun h hg v hv => brau_goes_literal hi (hsame h) hg hv,
    fun h hg hlit halign => brau_goes_code hi (hsame h) hg hlit halign⟩
  simp only [← hdiffers] at h ⊢
  exact brau_traps hi h

end Sys2Proof.Machine
end

section
/-! Calls and returns (R164, R167, R168): the return stacks of the lanes that leave. -/

namespace Sys2Proof.Machine

/-! ### Return stacks (R167) -/

/-- The stacks of some lanes changed one by one. -/
def changeStacks (f : LaneStack → LaneStack) (ls : List Nat) (st : KV LaneStack) : KV LaneStack :=
  ls.foldl (fun m l => kvSet m l (f (kvD m l {}))) st

theorem kvD_changeStacks (f : LaneStack → LaneStack) {ls : List Nat} (hnd : ls.Nodup) (st : KV LaneStack) (l : Nat) :
    kvD (changeStacks f ls st) l {} = if l ∈ ls then f (kvD st l {}) else kvD st l {} := by
  induction ls generalizing st with
  | nil => rfl
  | cons a ls ih =>
    obtain ⟨hfresh, hnd⟩ := List.nodup_cons.1 hnd
    rw [changeStacks, List.foldl_cons]
    refine (ih hnd _).trans ?_
    by_cases hla : l = a
    · subst hla
      rw [if_neg hfresh, kvD_kvSet_same, if_pos List.mem_cons_self]
    · rw [kvD_kvSet_ne hla]
      simp only [List.mem_cons, hla, false_or]

theorem push_room {st : LaneStack} (h : st.chip.length < 4) (v : W32) : st.push v = { st with chip := v :: st.chip } :=
  if_neg (Nat.not_le_of_lt h)

/-- A push keeps the newest four entries on chip, and spills the oldest of a full stack. -/
theorem push_fields (st : LaneStack) (v : W32) : (st.push v).chip = v :: st.chip.take 3 ∧
    (st.push v).spilled = st.spilled + if 4 ≤ st.chip.length then 1 else 0 := by
  unfold LaneStack.push
  split
  · exact ⟨rfl, rfl⟩
  next h => exact ⟨by rw [List.take_of_length_le (by omega)], rfl⟩

/-- A site whose warp has other return stacks and another %spill. -/
def Site.withStacks (x : Site) (st : KV LaneStack) (spill : Nat) : Site := { x with wp := { x.wp with stackTab := st, spill := spill } }

/-- A site after a push in the lanes of a mask: with no lane %spill stands. -/
def Site.pushed (x : Site) (m : Mask) (v : W32) : Site :=
  x.withStacks (changeStacks (·.push v) (lanesOf m) x.wp.stackTab) (if m = 0 then x.wp.spill
    else spillOffset x.width { x.wp with stackTab := changeStacks (·.push v) (lanesOf m) x.wp.stackTab })

/-- The lanes of a mask whose stacks are full. -/
def Site.full (x : Site) (m : Mask) : List Nat := (lanesOf m).filter fun l => decide (4 ≤ (kvD x.wp.stackTab l {}).chip.length)

theorem pushed_eq (x : Site) (m : Mask) (v : W32) : ({ x with wp :=
    if m = 0 then { x.wp with stackTab := changeStacks (·.push v) (lanesOf m) x.wp.stackTab }
    else { x.wp with stackTab := changeStacks (·.push v) (lanesOf m) x.wp.stackTab,
                     spill := spillOffset x.width { x.wp with stackTab := changeStacks (·.push v) (lanesOf m) x.wp.stackTab } } } : Site) =
    x.pushed m v := by
  unfold Site.pushed Site.withStacks
  split
  · rfl
  · rfl

section
variable {s : State} {x : Site} {m : Mask} {v : W32}

/-- Where every stack has room the push is done at once. -/
theorem pushReturn_room (h : x.full m = []) : x.pushReturn s m v = .ok (x.pushed m v) s := by
  unfold Site.full at h
  rw [← pushed_eq]
  simp only [Site.pushReturn, h]
  rfl

theorem full_lt {l : Nat} (h : l ∈ x.full m) : l < 64 := (mem_lanesOf.1 (List.mem_of_mem_filter h)).1

/-- A full stack with no row left to spill to traps the lanes that have one (R167). -/
theorem pushReturn_traps (h : ∃ l ∈ x.full m, (getLaunch s x.cr.launch).csrows ≤ (kvD x.wp.stackTab l {}).spilled) :
    ∃ (k : Mask) (va : Nat), x.pushReturn s m v = .trap { code := 0x09, tx := 2, mask := k, va := va } ∧
      ∀ l, k.getLsbD l = true ↔ l ∈ x.full m ∧ (getLaunch s x.cr.launch).csrows ≤ (kvD x.wp.stackTab l {}).spilled := by
  obtain ⟨l, hl, hrows⟩ := h
  obtain ⟨b, bs, hbs⟩ := List.exists_cons_of_ne_nil (List.ne_nil_of_mem hl)
  have hmem : l ∈ (x.full m).filter fun l => decide ((getLaunch s x.cr.launch).csrows ≤ (kvD x.wp.stackTab l {}).spilled) :=
    List.mem_filter.2 ⟨hl, decide_eq_true hrows⟩
  obtain ⟨c, cs, hcs⟩ := List.exists_cons_of_ne_nil (List.ne_nil_of_mem hmem)
  have hmask (j : Nat) : (maskOf (c :: cs)).getLsbD j = true ↔
      j ∈ x.full m ∧ (getLaunch s x.cr.launch).csrows ≤ (kvD x.wp.stackTab j {}).spilled := by
    rw [← hcs, maskOf_iff fun j hj => full_lt (List.mem_of_mem_filter hj), List.mem_filter, decide_eq_true_iff]
  refine ⟨maskOf (c :: cs), x.stackVa s c (kvD x.wp.stackTab c {}).spilled % 2 ^ 56, ?_, hmask⟩
  rw [hbs] at hcs
  unfold Site.full at hbs
  simp only [Site.pushReturn, hbs, hcs]

/-- A full stack with a row left sends its oldest entry there through the store queue (R167). -/
theorem pushReturn_spills {t : State} {locs : List (Nat × Nat × Loc)} (hfull : x.full m ≠ [])
    (hrows : ∀ l ∈ x.full m, (kvD x.wp.stackTab l {}).spilled < (getLaunch s x.cr.launch).csrows) (hroom : queueRoom x = true)
    (hcheck : checkLanes s x (.global permWrite 2) 4 ((x.full m).map fun l =>
      (l, stackVa (getLaunch s x.cr.launch) x.cr.num x.ref.warp l (kvD x.wp.stackTab l {}).spilled)) = .ok t locs) :
    x.pushReturn s m v = .ok ((x.touched.enqueue (spillEntry locs ((x.full m).map fun l =>
      ((kvD x.wp.stackTab l {}).chip.getD 3 0).toNat))).pushed m v) t := by
  have hnone : (x.full m).filter (fun l => decide ((getLaunch s x.cr.launch).csrows ≤ (kvD x.wp.stackTab l {}).spilled)) = [] :=
    List.filter_eq_nil_iff.2 fun l hl => ne_true_of_eq_false (decide_eq_false (Nat.not_le_of_lt (hrows l hl)))
  obtain ⟨b, bs, hbs⟩ := List.exists_cons_of_ne_nil hfull
  rw [hbs] at hnone hcheck ⊢
  unfold Site.full at hbs
  rw [← pushed_eq]
  simp only [Site.pushReturn, hbs, hnone, hroom, Site.stackVa, hcheck, Bool.not_true, Bool.false_eq_true, if_false]
  rfl

end

/-! ### Stacks apart from the transfer -/

section
variable {w : Enc} {s : State} {x : Site} {tgt : Nat → W64}

/-- Where the lanes go does not depend on the return stacks. -/
theorem transfer_withStacks (st : KV LaneStack) (spill : Nat) (ts : List (Nat × W64)) : (x.withStacks st spill).transfer w ts =
    ({ (x.transfer w ts).1 with stackTab := st, spill := spill }, (x.transfer w ts).2) := by
  by_cases hback : BackAtBranch x
  · rw [transfer_back (x := x) hback, transfer_back (x := x.withStacks st spill) hback]
    rfl
  · rw [transfer_away (x := x) hback, transfer_away (x := x.withStacks st spill) hback]
    rfl

theorem transfer_stacks (w : Enc) (ts : List (Nat × W64)) :
    (x.transfer w ts).1.stackTab = x.wp.stackTab ∧ (x.transfer w ts).1.spill = x.wp.spill := by
  by_cases hback : BackAtBranch x
  · rw [transfer_back hback]
    exact ⟨rfl, rfl⟩
  · rw [transfer_away hback]
    exact ⟨rfl, rfl⟩

/-- An active lane leaves the instruction: it is of no group that R160 leaves there. -/
def Site.Leaves (x : Site) (w : Enc) (tgt : Nat → W64) (l : Nat) : Prop :=
  x.act.getLsbD l = true ∧ (x.transfer w (x.aims tgt)).2.getLsbD l = false

/-- The active lanes that leave. -/
def Site.leaving (x : Site) (w : Enc) (tgt : Nat → W64) : Mask := x.act &&& ~~~(x.transfer w (x.aims tgt)).2

theorem leaving_iff {l : Nat} : (x.leaving w tgt).getLsbD l = true ↔ x.Leaves w tgt l := by
  rw [Site.leaving, Site.Leaves, BitVec.getLsbD_and, BitVec.getLsbD_not, Bool.and_eq_true]
  refine and_congr_right fun h => ?_
  rw [decide_eq_true (lt_of_getLsbD h), Bool.true_and, Bool.not_eq_true']

theorem mem_leaving {l : Nat} : l ∈ lanesOf (x.leaving w tgt) ↔ x.Leaves w tgt l := by
  rw [mem_lanesOf, leaving_iff]
  exact and_iff_right_of_imp fun h => lt_of_getLsbD h.1

/-- The stacks of the leaving lanes change, the others stand. -/
theorem kvD_changeLeaving (f : LaneStack → LaneStack) (st : KV LaneStack) (l : Nat) :
    (x.Leaves w tgt l → kvD (changeStacks f (lanesOf (x.leaving w tgt)) st) l {} = f (kvD st l {})) ∧
    (¬x.Leaves w tgt l → kvD (changeStacks f (lanesOf (x.leaving w tgt)) st) l {} = kvD st l {}) := by
  rw [kvD_changeStacks f (lanesOf_nodup _)]
  exact ⟨fun h => if_pos (mem_leaving.2 h), fun h => if_neg fun hl => h (mem_leaving.1 hl)⟩

/-- The outcome of a call whose leaving lanes have room on chip: a transfer, with the return offset pushed on the lanes that leave. -/
def Called (o : Host.Outcome State Fault Refusal) (w : Enc) (s : State) (x : Site) (tgt : Nat → W64) : Prop :=
  (∀ l, x.Leaves w tgt l → (kvD x.wp.stackTab l {}).chip.length < 4) → ∃ (st : KV LaneStack) (sp : Nat),
    Branched o s x { x.wp with stackTab := st, spill := sp } tgt ∧
    ((∃ l, x.Leaves w tgt l) → sp = spillOffset x.width { x.wp with stackTab := st }) ∧ ((∀ l, ¬x.Leaves w tgt l) → sp = x.wp.spill) ∧
    ∀ l, l < 64 → (x.Leaves w tgt l → (kvD st l {}).chip = x.returnOffset :: (kvD x.wp.stackTab l {}).chip ∧
        (kvD st l {}).spilled = (kvD x.wp.stackTab l {}).spilled) ∧
      (¬x.Leaves w tgt l → kvD st l {} = kvD x.wp.stackTab l {})

theorem branched_withStacks {o : Host.Outcome State Fault Refusal} {st : KV LaneStack} {spill : Nat}
    (h : Branched o s (x.withStacks st spill) (x.withStacks st spill).wp tgt) :
    Branched o s x { x.wp with stackTab := st, spill := spill } tgt := h

theorem callBody_called {i : Instr} (hi : Issues i w s x) : Called (.next ((callBody w (x.aims tgt) x s).state w)) w s x tgt := by
  intro hroom
  have hnone : x.full (x.leaving w tgt) = [] := List.filter_eq_nil_iff.2 fun l hl =>
    ne_true_of_eq_false (decide_eq_false (Nat.not_le_of_lt (hroom l (mem_leaving.1 hl))))
  have hbody : callBody w (x.aims tgt) x s = x.finish s ((x.pushed (x.leaving w tgt) x.returnOffset).transfer w (x.aims tgt)).1 := by
    have hpush := pushReturn_room (s := s) (v := x.returnOffset) hnone
    unfold Site.leaving at hpush
    simp only [callBody, hpush]
    rfl
  rw [hbody]
  refine ⟨_, _, branched_withStacks (transfer_branches (x := x.pushed (x.leaving w tgt) x.returnOffset) w
    (path_of_issues (x := x) hi) (fun _ => act_ownLanes (x := x) hi) s), ?_, ?_, fun l _ => ?_⟩
  · rintro ⟨l, hl⟩
    exact if_neg (mask_ne_zero (leaving_iff.2 hl))
  · intro hstay
    refine if_pos (lanesOf_eq_nil.1 (List.eq_nil_iff_forall_not_mem.2 fun l hl => hstay l (mem_leaving.1 hl)))
  · obtain ⟨hpush, hstand⟩ := kvD_changeLeaving (x := x) (w := w) (tgt := tgt) (·.push x.returnOffset) x.wp.stackTab l
    refine ⟨fun h => ?_, hstand⟩
    rw [hpush h, push_room (hroom l h)]
    exact ⟨rfl, rfl⟩

/-! ### CALL and CALLI (R164, R168) -/

theorem call_called (hi : Issues (.call w) w s x) (hact : x.act ≠ 0) :
    Called (exec (.call w) s) w s x fun _ => x.pa.pc + (w.lit.getD 0).signExtend 64 := by
  rw [exec, execCall, issue_go hi]
  simp only [if_neg hact]
  exact callBody_called hi

theorem call_idle (hi : Issues (.call w) w s x) (hact : x.act = 0) : Stepped (exec (.call w) s) s x (x.pa.pc + 16) := by
  rw [exec, execCall]
  exact issue_idle hi (if_pos hact)

theorem calli_traps (hi : Issues (.calli w) w s x)
    (h : ∃ l, l < 64 ∧ x.act.getLsbD l = true ∧ srcValue s x .n32 w.a l % 16 ≠ 0) : ∃ (m : Mask) (va : Nat),
      exec (.calli w) s = .next (takeTrap s x { code := 0x08, tx := 16, mask := m, va := va }) ∧
      (∀ l, m.getLsbD l = true ↔ x.act.getLsbD l = true ∧ srcValue s x .n32 w.a l % 16 ≠ 0) ∧
      va = (x.k.codeVa + srcValue s x .n32 w.a (lowLane m)) % 2 ^ 56 := by
  obtain ⟨b, bs, hbs, hlow, hmask⟩ := picked_lanes (p := fun l => srcValue s x .n32 w.a l % 16 != 0) (by simpa using h)
  obtain ⟨l, -, hl, -⟩ := h
  have hbad : ((lanesOf x.act).map fun l => (l, srcValue s x .n32 w.a l)).filter (fun e => e.2 % 16 != 0) =
      (b :: bs).map fun l => (l, srcValue s x .n32 w.a l) := by
    rw [List.filter_map, ← hbs]
    rfl
  refine ⟨_, (x.k.codeVa + srcValue s x .n32 w.a b) % 2 ^ 56, ?_, fun l => (hmask l).trans (and_congr_right fun _ => bne_iff_ne), by rw [hlow]⟩
  rw [exec, execCalli, issue_go hi]
  simp only [if_neg (mask_ne_zero hl), Site.misaligned, hbad, List.map_cons, List.headD_cons, List.map_map, Function.comp_def, List.map_id']
  rfl

theorem calli_called (hi : Issues (.calli w) w s x) (hact : x.act ≠ 0)
    (halign : ∀ l, x.act.getLsbD l = true → srcValue s x .n32 w.a l % 16 = 0) :
    Called (exec (.calli w) s) w s x fun l => BitVec.ofNat 64 (x.k.codeVa + srcValue s x .n32 w.a l) := by
  have hmis : x.misaligned ((lanesOf x.act).map fun l => (l, srcValue s x .n32 w.a l)) = none :=
    misaligned_none (List.forall_mem_map.2 fun l hl => halign l (mem_lanesOf.1 hl).2)
  rw [exec, execCalli, issue_go hi]
  simp only [if_neg hact, hmis, List.map_map, Function.comp_def]
  exact callBody_called hi

/-! ### RET (R168) -/

theorem ret_traps (hi : Issues (.ret w) w s x)
    (h : ∃ l, l < 64 ∧ x.act.getLsbD l = true ∧ (kvD x.wp.stackTab l {}).chip = [] ∧ (kvD x.wp.stackTab l {}).spilled = 0) :
    ∃ m : Mask, exec (.ret w) s = .next (takeTrap s x { code := 0x05, mask := m }) ∧
      ∀ l, m.getLsbD l = true ↔
        x.act.getLsbD l = true ∧ (kvD x.wp.stackTab l {}).chip = [] ∧ (kvD x.wp.stackTab l {}).spilled = 0 := by
  obtain ⟨b, bs, hbs, -, hmask⟩ := picked_lanes
    (p := fun l => (kvD x.wp.stackTab l {}).chip.isEmpty && (kvD x.wp.stackTab l {}).spilled == 0) (by simpa using h)
  obtain ⟨l, -, hl, -⟩ := h
  refine ⟨_, ?_, fun l => (hmask l).trans (and_congr_right fun _ => ?_)⟩
  · rw [exec, execRet, issue_go hi]
    simp only [if_neg (mask_ne_zero hl), hbs]
    rfl
  · rw [Bool.and_eq_true, List.isEmpty_iff, beq_iff_eq]

/-- The target of a return: the newest entry on chip. -/
def Site.returnTo (x : Site) (l : Nat) : W64 := BitVec.ofNat 64 (x.k.codeVa + ((kvD x.wp.stackTab l {}).chip.headD 0).toNat)

theorem touched_stay (ts : List (Nat × W64)) : (x.touched.transfer w ts).2 = (x.transfer w ts).2 := by
  by_cases hback : BackAtBranch x
  · rw [transfer_back (x := x) hback, transfer_back (x := x.touched) hback]
    rfl
  · rw [transfer_away (x := x) hback, transfer_away (x := x.touched) hback]
    rfl

/-- The newest entries on chip of the active lanes. -/
def Site.returns (x : Site) : List (Nat × Nat) := (lanesOf x.act).map fun l => (l, ((kvD x.wp.stackTab l {}).chip.headD 0).toNat)

/-- A return to known aligned offsets is a transfer, and pops the lanes that leave. -/
theorem retBody_pops (hmis : x.misaligned x.returns = none) : retBody w x.returns x s =
    x.finish s ((x.touched.withStacks (changeStacks LaneStack.pop (lanesOf (x.leaving w x.returnTo)) x.wp.stackTab)
      x.wp.spill).transfer w (x.aims x.returnTo)).1 := by
  have haims : x.returns.map (fun e => (e.1, x.touched.codePc e.2)) = x.aims x.returnTo := List.map_map
  obtain ⟨hstacks, hspill⟩ := transfer_stacks (x := x.touched) w (x.aims x.returnTo)
  rw [transfer_withStacks, Site.leaving, ← touched_stay]
  simp only [retBody, hmis, haims]
  generalize x.touched.transfer w (x.aims x.returnTo) = r at *
  obtain ⟨wp, stay⟩ := r
  rw [show x.wp.stackTab = wp.stackTab from hstacks.symm, show x.wp.spill = wp.spill from hspill.symm]
  rfl

/-- A return with every address on chip reads none from memory. -/
theorem ret_body (hi : Issues (.ret w) w s x) (hact : x.act ≠ 0)
    (hchip : ∀ l, x.act.getLsbD l = true → ∃ v r, (kvD x.wp.stackTab l {}).chip = v :: r ∧ v.toNat % 16 = 0) :
    exec (.ret w) s = .next ((retBody w x.returns x s).state w) := by
  have hsome {l : Nat} (hl : l ∈ lanesOf x.act) : (kvD x.wp.stackTab l {}).chip.isEmpty = false := by
    obtain ⟨v, r, hvr, -⟩ := hchip l (mem_lanesOf.1 hl).2
    rw [hvr]
    rfl
  have hnone : (lanesOf x.act).filter (fun l => (kvD x.wp.stackTab l {}).chip.isEmpty && (kvD x.wp.stackTab l {}).spilled == 0) = [] :=
    List.filter_eq_nil_iff.2 fun l hl => by simp [hsome hl]
  have hfar : (lanesOf x.act).filter (fun l => (kvD x.wp.stackTab l {}).chip.isEmpty) = [] :=
    List.filter_eq_nil_iff.2 fun l hl => by simp [hsome hl]
  rw [exec, execRet, issue_go hi]
  simp only [if_neg hact, hnone, hfar, List.isEmpty_nil, if_true]
  refine congrArg (fun ts => Host.Outcome.next ((retBody w ts x s).state w)) (List.map_congr_left fun l _ => ?_)
  cases (kvD x.wp.stackTab l {}).chip
  · rfl
  · rfl

theorem ret_branches (hi : Issues (.ret w) w s x) (hact : x.act ≠ 0)
    (hchip : ∀ l, x.act.getLsbD l = true → ∃ v r, (kvD x.wp.stackTab l {}).chip = v :: r ∧ v.toNat % 16 = 0) :
    ∃ st : KV LaneStack, Branched (exec (.ret w) s) s x { x.touched.wp with stackTab := st } x.returnTo ∧
      ∀ l, (x.Leaves w x.returnTo l → (kvD st l {}).chip = (kvD x.wp.stackTab l {}).chip.tail) ∧
        (¬x.Leaves w x.returnTo l → kvD st l {} = kvD x.wp.stackTab l {}) := by
  have hmis : x.misaligned x.returns = none := misaligned_none (List.forall_mem_map.2 fun l hl => by
    obtain ⟨v, r, hvr, hv⟩ := hchip l (mem_lanesOf.1 hl).2
    rw [hvr]
    exact hv)
  rw [ret_body hi hact hchip, retBody_pops hmis]
  refine ⟨_, transfer_branches (x := x.touched.withStacks _ _) w (path_of_issues (x := x) hi) (fun _ => act_ownLanes (x := x) hi) s, fun l => ?_⟩
  obtain ⟨hpop, hstand⟩ := kvD_changeLeaving (x := x) (w := w) (tgt := x.returnTo) LaneStack.pop x.wp.stackTab l
  refine ⟨fun h => ?_, hstand⟩
  obtain ⟨v, r, hvr, -⟩ := hchip l h.1
  rw [hpop h, LaneStack.pop, hvr]
  rfl

end

/-- Settles O9: the stacks that calls push and returns pop, and what a push on full stacks comes to. -/
theorem callResults : Obligations.CallResults := by
  refine ⟨fun w s x => ?_, fun s x m v => ?_⟩
  · intro chip leaves called
    refine ⟨fun hi => ⟨call_called hi, call_idle hi⟩, fun hi => ⟨calli_traps hi, calli_called hi⟩,
      fun hi => ⟨ret_traps hi, fun hact hchip => ?_⟩⟩
    obtain ⟨st, hbranched, hst⟩ := ret_branches hi hact hchip
    exact ⟨st, hbranched, fun l _ => hst l⟩
  · intro st full rows
    refine ⟨pushReturn_traps, fun t locs hfull hrows hroom hcheck => ?_⟩
    refine ⟨_, _, pushReturn_spills hfull hrows hroom hcheck, rfl, rfl, rfl, if_neg fun hz => hfull ?_, rfl, fun l hl hm => ?_⟩
    · simp only [full, hz, lanesOf_zero, List.filter_nil]
    · have hpush := kvD_changeStacks (·.push v) (lanesOf_nodup m) x.wp.stackTab l
      rw [if_pos (mem_lanesOf.2 ⟨hl, hm⟩)] at hpush
      obtain ⟨hchip, hspilled⟩ := push_fields (st l) v
      exact ⟨(congrArg LaneStack.chip hpush).trans hchip, (congrArg LaneStack.spilled hpush).trans hspilled⟩

end Sys2Proof.Machine
end

section
/-! Parking at JOIN and JWAIT, YIELD, NPREG and the forms of TRAP (R160, R170, R171, R175-R177, R349, R446). -/

namespace Sys2Proof.Machine

/-! ### JOIN and JWAIT (R160, R170, R171) -/

/-- The active lanes of a j mask, and the rest of the path's. -/
def Site.parking (x : Site) (j : Nat) : Mask := x.act &&& x.wp.regs.pmask (16 + j)
def Site.staying (x : Site) (j : Nat) : Mask := ownLanes x &&& ~~~x.parking j

/-- The outcome of JOIN or JWAIT on j: the lanes of the mask park in a state, and the others go on in a free entry, if there is one. -/
def Parks (o : Host.Outcome State Fault Refusal) (s : State) (x : Site) (j : Nat) (st : PathState) : Prop :=
  (x.parking j = 0 → Stepped o s x (x.pa.pc + 16)) ∧
  (x.parking j ≠ 0 → ∃ b, o = .next (setWarp s x.ref.crew x.ref.warp (settlePaths b)) ∧ RunEnded x x.wp b ∧
    (x.staying j = 0 → kvGet b.paths x.rn.path = some { pc := x.pa.pc, mask := x.parking j, st := st }) ∧
    (∀ f fs, x.staying j ≠ 0 → freeEntries x.wp.paths = f :: fs →
      kvGet b.paths x.rn.path = some { pc := x.pa.pc, mask := x.parking j, st := st } ∧
      kvGet b.paths f = some { pc := x.pa.pc + 16, mask := x.staying j }) ∧
    (x.staying j ≠ 0 → freeEntries x.wp.paths = [] →
      kvGet b.paths x.rn.path = some { pc := x.pa.pc, mask := ownLanes x, st := .noEntry }))

/-- The path of the lanes that park. -/
def Site.parked (x : Site) (w : Enc) (park : Nat → PathState) : Path :=
  { pc := x.pa.pc, mask := x.parking (w.a.idx.toNat - 16), st := park (w.a.idx.toNat - 16) }

section
variable {w : Enc} {s : State} {x : Site}

/-- A warp whose run has ended with its path put back as another, and nothing else of its table changed. -/
theorem runEnded_withPath (x : Site) (w : Enc) (pc : W64) (p : Path) :
    RunEnded x x.wp { x.endRun w pc with paths := kvSet (x.endRun w pc).paths x.rn.path p } := by
  obtain ⟨⟨hkeeps, hregs, hrun, hothers⟩, -⟩ := runEnded_endRun x w pc
  exact ⟨hkeeps, hregs, hrun, fun k q hk hq => (kvGet_kvSet_ne hk).trans (hothers k q hk hq)⟩

section
variable {park : Nat → PathState} (hhere : x.parking (w.a.idx.toNat - 16) ≠ 0)
include hhere

/-- All the lanes of the path park. -/
theorem parkBody_whole (hrest : x.staying (w.a.idx.toNat - 16) = 0) : parkBody w park x s =
    x.finish s { x.endRun w x.pa.pc with
      paths := kvSet (x.endRun w x.pa.pc).paths x.rn.path (x.parked w park) } :=
  (if_neg hhere).trans (if_pos hrest)

/-- Some lanes go on, and no entry is free: the whole path waits for one. -/
theorem parkBody_waits (hrest : x.staying (w.a.idx.toNat - 16) ≠ 0) (hfree : freeEntries (x.endRun w x.pa.pc).paths = []) :
    parkBody w park x s = x.finish s { x.endRun w x.pa.pc with
      paths := kvSet (x.endRun w x.pa.pc).paths x.rn.path { pc := x.pa.pc, mask := ownLanes x, st := .noEntry } } := by
  refine (if_neg hhere).trans ((if_neg hrest).trans ?_)
  simp only [hfree]
  rfl

/-- Some lanes go on, in the first free entry. -/
theorem parkBody_divides (hrest : x.staying (w.a.idx.toNat - 16) ≠ 0) {f : Nat} {fs : List Nat}
    (hfree : freeEntries (x.endRun w x.pa.pc).paths = f :: fs) : parkBody w park x s =
    x.finish s { x.endRun w x.pa.pc with
      paths := kvSet (kvSet (x.endRun w x.pa.pc).paths x.rn.path (x.parked w park)) f
        { pc := x.pa.pc + 16, mask := x.staying (w.a.idx.toNat - 16) } } := by
  refine (if_neg hhere).trans ((if_neg hrest).trans ?_)
  simp only [hfree]
  rfl

end

theorem parkBody_parks (hpath : kvGet x.wp.paths x.rn.path = some x.pa) (park : Nat → PathState) :
    Parks (.next ((parkBody w park x s).state w)) s x (w.a.idx.toNat - 16) (park (w.a.idx.toNat - 16)) := by
  have hentries : freeEntries (x.endRun w x.pa.pc).paths = freeEntries x.wp.paths := freeEntries_kvSet hpath
  refine ⟨fun hhere => ?_, fun hhere => ?_⟩
  · have hbody : parkBody w park x s = _ := if_pos hhere
    rw [hbody]
    exact fallThrough_steps x w s
  by_cases hrest : x.staying (w.a.idx.toNat - 16) = 0
  · rw [parkBody_whole hhere hrest]
    exact ⟨_, rfl, runEnded_withPath x w _ _, fun _ => kvGet_kvSet_same _ _ _, fun _ _ h => absurd hrest h, fun h => absurd hrest h⟩
  cases hfree : freeEntries x.wp.paths with
  | nil =>
    rw [parkBody_waits hhere hrest (hentries.trans hfree)]
    exact ⟨_, rfl, runEnded_withPath x w _ _, fun h => absurd h hrest, fun _ _ _ h => absurd h nofun, fun _ _ => kvGet_kvSet_same _ _ _⟩
  | cons f fs =>
    have hunused : kvGet x.wp.paths f = none := (mem_freeEntries.1 (hfree ▸ List.mem_cons_self)).2
    have hne : x.rn.path ≠ f := fun h => by simp [h, hunused] at hpath
    obtain ⟨hkeeps, hregs, hrun, hothers⟩ := runEnded_withPath x w x.pa.pc (x.parked w park)
    rw [parkBody_divides hhere hrest (hentries.trans hfree)]
    refine ⟨_, rfl, ⟨hkeeps, hregs, hrun, fun k p hk hp => ?_⟩, fun h => absurd h hrest, fun g gs _ h => ?_, fun _ h => absurd h nofun⟩
    · have hkf : k ≠ f := fun h => by simp [h, hunused] at hp
      exact (kvGet_kvSet_ne hkf).trans (hothers k p hk hp)
    · obtain ⟨rfl, -⟩ := List.cons.inj h
      exact ⟨(kvGet_kvSet_ne hne).trans (kvGet_kvSet_same _ _ _), kvGet_kvSet_same _ _ _⟩

theorem join_parks (hi : Issues (.join w) w s x) :
    Parks (exec (.join w) s) s x (w.a.idx.toNat - 16) (.parkedJoin (w.a.idx.toNat - 16)) := by
  have hexec : exec (.join w) s = _ := issue_go hi _
  exact hexec ▸ parkBody_parks (path_of_issues hi) _

theorem jwait_parks (hi : Issues (.jwait w) w s x) :
    Parks (exec (.jwait w) s) s x (w.a.idx.toNat - 16) (.parkedWait (w.a.idx.toNat - 16)) := by
  have hexec : exec (.jwait w) s = _ := issue_go hi _
  exact hexec ▸ parkBody_parks (path_of_issues hi) _

/-! ### YIELD (R175, R349) -/

/-- A crew that yields is saved where a switch is pending, with no expiry counted up to its deadline. -/
def Crew.yielded (c : Crew) (now : Nat) : Crew := match c.ydl with
  | none => c
  | some d => { c with saveWhy := some (c.saveWhy.getD .slice), ydlExpired := c.ydlExpired && decide (d < now) }

/-- The warp that yields: its run has ended, and it ranks last next. -/
def Site.yielding (x : Site) (w : Enc) : Warp := { x.endRun w (x.pa.pc + 16) with hintYh := true }

theorem yielded_of_none {c : Crew} (h : c.ydl = none) (now : Nat) : c.yielded now = c := by
  simp only [Crew.yielded, h]

theorem yielded_of_some {c : Crew} {d : Nat} (h : c.ydl = some d) (now : Nat) : c.yielded now =
    if now ≤ d then { c with saveWhy := some (c.saveWhy.getD .slice), ydlExpired := false }
    else { c with saveWhy := some (c.saveWhy.getD .slice) } := by
  simp only [Crew.yielded, h]
  split
  next hin => rw [decide_eq_false (Nat.not_lt_of_le hin), Bool.and_false]
  next hout => rw [decide_eq_true (Nat.lt_of_not_le hout), Bool.and_true]

theorem yield_idle (hi : Issues (.yield w) w s x) (hact : x.act = 0) :
    exec (.yield w) s = .next (setWarp s x.ref.crew x.ref.warp (settlePaths (x.yielding w))) := by
  rw [exec, execYield, issue_go hi]
  simp only [if_pos hact]
  rfl

theorem yield_switches (hi : Issues (.yield w) w s x) (hact : x.act ≠ 0) : exec (.yield w) s =
    .next (modCrew (setWarp s x.ref.crew x.ref.warp (settlePaths (x.yielding w))) x.ref.crew fun c => c.yielded s.now) := by
  rw [exec, execYield, issue_go hi]
  simp only [if_neg hact]
  refine congrArg (fun f => Host.Outcome.next (modCrew (setWarp s x.ref.crew x.ref.warp (settlePaths (x.yielding w))) x.ref.crew f))
    (funext fun c => ?_)
  split
  next h => exact (yielded_of_none h s.now).symm
  next d h => exact (yielded_of_some h s.now).symm

/-! ### NPREG (R176) -/

theorem npregEnter_opens (hi : Issues (.npregEnter w) w s x) (hact : x.act ≠ 0) (hu : uB s x w ≠ 0)
    (hclosed : ∀ t, x.cr.npreg = some t → t ≤ s.now) : GoesOnTo (exec (.npregEnter w) s) w x
      (modCrew s x.ref.crew fun c => { c with npreg := some (s.now + min (uB s x w) 65536) }) := by
  have hopen : regionOpen s x.cr = false := by
    unfold regionOpen
    split
    next t h => exact decide_eq_false (Nat.not_lt_of_le (hclosed t h))
    · rfl
  have hmin : min (uB s x w) 65536 ≠ 0 := by omega
  rw [exec, execNpregEnter, issue_go hi]
  simp only [hact, hmin, hopen, Bool.false_eq_true, or_self, if_false]
  exact done_goes _

theorem npregEnter_stands (hi : Issues (.npregEnter w) w s x)
    (h : x.act = 0 ∨ uB s x w = 0 ∨ ∃ t, x.cr.npreg = some t ∧ s.now < t) : GoesOnTo (exec (.npregEnter w) s) w x s := by
  have hstand : x.act = 0 ∨ min (uB s x w) 65536 = 0 ∨ regionOpen s x.cr = true := by
    refine h.imp_right (Or.imp (fun hu => by omega) ?_)
    rintro ⟨t, ht, hlt⟩
    simp only [regionOpen, ht, decide_eq_true hlt]
  rw [exec, execNpregEnter, issue_go hi]
  simp only [if_pos hstand]
  exact done_goes s

theorem npregLeave_closes (hi : Issues (.npregLeave w) w s x) : GoesOnTo (exec (.npregLeave w) s) w x
    (if x.act = 0 then s else modCrew s x.ref.crew fun c => { c with npreg := none }) := by
  rw [exec, execNpregLeave, issue_go hi]
  by_cases hact : x.act = 0
  · simp only [if_pos hact]
    exact done_goes s
  · simp only [if_neg hact]
    exact done_goes _

/-! ### TRAP (R177, R446) -/

theorem trapBrk_idle (hi : Issues (.trapBrk w) w s x) (hact : x.act = 0) : Stepped (exec (.trapBrk w) s) s x (x.pa.pc + 16) := by
  rw [exec, execTrapBrk]
  exact issue_idle hi (if_pos hact)

theorem trapBrk_traps (hi : Issues (.trapBrk w) w s x) (hact : x.act ≠ 0) :
    exec (.trapBrk w) s = .next (takeTrap s x { code := 0x13, mask := x.act }) := by
  rw [exec, execTrapBrk, issue_go hi]
  simp only [if_neg hact]
  rfl

theorem trapCall_idle (hi : Issues (.trapCall w) w s x) (hact : x.act = 0) : Stepped (exec (.trapCall w) s) s x (x.pa.pc + 16) := by
  rw [exec, execTrapCall]
  exact issue_idle hi (if_pos hact)

theorem trapCall_traps (hi : Issues (.trapCall w) w s x) (hact : x.act ≠ 0) : exec (.trapCall w) s =
    .next (takeTrap s x { code := 0x13, tx := BitVec.ofNat 32 (uB s x w), mask := x.act } true) := by
  rw [exec, execTrapCall, issue_go hi]
  simp only [if_neg hact]
  rfl

theorem trapTret_traps (hi : Issues (.trapTret w) w s x) (hact : x.act ≠ 0) (hh : x.wp.handler = none) : exec (.trapTret w) s =
    .next (takeTrap s x { code := 0x13, tx := 0xFFFFFFFF, mask := x.act }) := by
  rw [exec, execTrapTret, issue_go hi]
  simp only [if_neg hact, hh]
  rfl

/-- The warp whose path waits at a TRAP.tret. -/
def Site.atTret (x : Site) (w : Enc) : Warp :=
  { x.endRun w x.pa.pc with paths := kvMod (x.endRun w x.pa.pc).paths x.rn.path fun p => { p with st := .atTret } }

theorem trapTret_waits (hi : Issues (.trapTret w) w s x) (hact : x.act ≠ 0) (hh : x.wp.handler ≠ none) :
    exec (.trapTret w) s = .next (setWarp s x.ref.crew x.ref.warp (settlePaths (x.atTret w))) := by
  obtain ⟨h, hh⟩ := Option.ne_none_iff_exists'.1 hh
  rw [exec, execTrapTret, issue_go hi]
  simp only [if_neg hact, hh]
  rfl

theorem atTret_ends (x : Site) (w : Enc) : RunEnded x x.wp (x.atTret w) ∧
    kvGet (x.atTret w).paths x.rn.path = some { x.pa.endedAt x.pa.pc with st := .atTret } := by
  obtain ⟨⟨hkeeps, hregs, hrun, hothers⟩, hown⟩ := runEnded_endRun x w x.pa.pc
  refine ⟨⟨hkeeps, hregs, hrun, fun k p hk hp => ?_⟩, ?_⟩
  · rw [Site.atTret, kvGet_kvMod_ne hk]
    exact hothers k p hk hp
  rw [Site.atTret, kvGet_kvMod_same, hown]
  rfl

end

/-- Settles O10: JOIN and JWAIT divide the path, YIELD ends the run, NPREG changes the crew's region alone, and TRAP traps or waits. -/
theorem rejoinAndYieldResults : Obligations.RejoinAndYieldResults := by
  refine ⟨fun w s x => ⟨join_parks, jwait_parks⟩, fun w s x => ⟨fun hi => ?_, fun hi => ⟨npregEnter_stands hi, npregEnter_opens hi⟩,
    npregLeave_closes, fun hi => ⟨trapBrk_idle hi, trapBrk_traps hi⟩, fun hi => ⟨trapCall_idle hi, trapCall_traps hi⟩,
    fun hi hact => ⟨trapTret_traps hi hact, fun hh => ?_⟩⟩⟩
  · obtain ⟨⟨hkeeps, hregs, hrun, hothers⟩, hown⟩ := runEnded_endRun x w (x.pa.pc + 16)
    have hended : RunEnded x x.wp (x.yielding w) := ⟨hkeeps, hregs, hrun, hothers⟩
    by_cases hact : x.act = 0
    · exact ⟨x.yielding w, _, yield_idle hi hact, hended, rfl, ⟨_, hown, rfl, rfl, rfl⟩, fun _ => rfl, fun h => absurd hact h⟩
    · exact ⟨x.yielding w, _, yield_switches hi hact, hended, rfl, ⟨_, hown, rfl, rfl, rfl⟩, fun h => absurd h hact, fun _ => rfl⟩
  · obtain ⟨hended, hown⟩ := atTret_ends x w
    exact ⟨_, trapTret_waits hi hact hh, hended, _, hown, rfl, rfl, rfl⟩

end Sys2Proof.Machine
end

section
/-! Loads at issue (R199-R209): the addresses of lanes, what the checks on them come to, and a load that goes in flight. -/

namespace Sys2Proof.Machine

/-! ### Addresses (R200) -/

section
variable {s : State} {x : Site} {w : Enc} {l : Nat}

theorem addrVA_index (h : w.lit = none) :
    addrVA s x w l = (rawValue s x .n64 true w.a l + rawValue s x .n32 false w.b l) % 2 ^ 64 := by
  simp only [addrVA, h]

/-- The literal of a global access is a signed offset. -/
theorem addrVA_literal {v : W32} (h : w.lit = some v) :
    (addrVA s x w l : ZMod (2 ^ 64)) = rawValue s x .n64 true w.a l + (v.toInt : ZMod (2 ^ 64)) ∧ addrVA s x w l < 2 ^ 64 := by
  have hv : signedOf 32 v.toNat = v.toInt := by
    rw [signedOf, Nat.mod_eq_of_lt v.isLt, BitVec.toInt_eq_toNat_cond]
    have := v.isLt
    split <;> split <;> omega
  have hwrap : ((wrapNat 64 v.toInt : Nat) : ZMod (2 ^ 64)) = (v.toInt : ZMod (2 ^ 64)) := by
    have hcast := wrapNat_cast 64 v.toInt
    rw [← Int.cast_natCast, hcast, ZMod.intCast_eq_intCast_iff]
    exact Int.mod_modEq _ _
  simp only [addrVA, h, hv]
  refine ⟨?_, Nat.mod_lt _ (by positivity)⟩
  rw [ZMod.natCast_mod, Nat.cast_add, hwrap]

theorem addr32_eq : addr32 s x w l = (rawValue s x .n32 false w.a l + match w.lit with
    | some v => v.toNat
    | none => rawValue s x .n32 false w.b l) % 2 ^ 32 := rfl

end

/-! ### The first condition that lanes meet (R203) -/

theorem pickMin_eq_none {α : Type} {lt : α → α → Bool} {l : List α} : pickMin lt l = none ↔ l = [] := by
  cases l with
  | nil => exact ⟨fun _ => rfl, fun _ => rfl⟩
  | cons a t =>
    rw [pickMin]
    split
    · simp
    · split <;> simp

/-- The element that is picked is least. -/
theorem pickMin_le {α : Type} (f : α → Nat) {l : List α} {x : α} (h : pickMin (fun p q => decide (f p < f q)) l = some x) :
    ∀ y ∈ l, f x ≤ f y := by
  induction l generalizing x with
  | nil => exact fun _ hy => absurd hy List.not_mem_nil
  | cons a t ih =>
    rw [pickMin] at h
    split at h
    next hnone =>
      obtain rfl := Option.some.inj h
      rw [pickMin_eq_none.1 hnone]
      simp
    next y hy =>
      split at h
      next hlt =>
        obtain rfl := Option.some.inj h
        exact List.forall_mem_cons.2 ⟨(of_decide_eq_true hlt).le, ih hy⟩
      next hge =>
        obtain rfl := Option.some.inj h
        have hle : f a ≤ f y := Nat.le_of_not_lt fun hlt => hge (decide_eq_true hlt)
        exact List.forall_mem_cons.2 ⟨le_rfl, fun z hz => hle.trans (ih hy z hz)⟩

/-- The condition that a lane's address meets, if any. -/
def LaneCheck.fault? : LaneCheck → Option LaneFault
  | .fault f => some f
  | _ => none

theorem LaneCheck.fault?_eq_some {c : LaneCheck} {f : LaneFault} : c.fault? = some f ↔ c = .fault f := by
  cases c <;> simp [LaneCheck.fault?]

/-- The lanes that meet a condition, with their addresses. -/
def laneFaults (cs : List (Nat × Nat × LaneCheck)) : List (Nat × Nat × LaneFault) :=
  cs.filterMap fun e => e.2.2.fault?.map fun f => (e.1, e.2.1, f)

/-- The trap over the lanes that meet the condition of one of them. -/
def faultTrap (x : Site) (sp : Space) (fs : List (Nat × Nat × LaneFault)) (p : Nat × Nat × LaneFault) : TrapInfo :=
  { code := p.2.2.code, tx := BitVec.ofNat 32 p.2.2.tx
    va := if p.2.2.code = 0x08 ∧ sp = .scratch then p.2.1 else faultVa x sp p.2.1
    mask := maskOf ((fs.filter fun q => q.2.2.order == p.2.2.order && q.2.2.code == p.2.2.code).map (·.1)) }

/-- The lanes trap with the first condition that any of them meets. -/
theorem laneTrap_eq (x : Site) (sp : Space) (cs : List (Nat × Nat × LaneCheck)) : laneTrap x sp cs =
    (pickMin (fun p q => decide (p.2.2.order < q.2.2.order)) (laneFaults cs)).map (faultTrap x sp (laneFaults cs)) := by
  simp only [laneTrap]
  generalize hfs : List.filterMap _ cs = fs
  obtain rfl : fs = laneFaults cs := by
    subst hfs
    refine List.filterMap_congr fun ⟨l, a, c⟩ _ => ?_
    cases c <;> rfl
  cases pickMin (fun p q : Nat × Nat × LaneFault => decide (p.2.2.order < q.2.2.order)) (laneFaults cs) <;> rfl

/-- The checks of an access on its lanes, one by one. -/
def laneChecks (s : State) (x : Site) (sp : Space) (n : Nat) (as : List (Nat × Nat)) : List (Nat × Nat × LaneCheck) :=
  as.map fun e => (e.1, e.2, checkLane s x sp n e.2)

section
variable {s : State} {x : Site} {sp : Space} {n : Nat} {as : List (Nat × Nat)}

theorem mem_laneFaults {p : Nat × Nat × LaneFault} :
    p ∈ laneFaults (laneChecks s x sp n as) ↔ (p.1, p.2.1) ∈ as ∧ checkLane s x sp n p.2.1 = .fault p.2.2 := by
  obtain ⟨l, a, f⟩ := p
  simp only [laneFaults, laneChecks, List.filterMap_map, List.mem_filterMap, Function.comp_apply, Option.map_eq_some_iff,
    LaneCheck.fault?_eq_some, Prod.mk.injEq]
  constructor
  · rintro ⟨⟨l', a'⟩, hmem, f', hf, rfl, rfl, rfl⟩
    exact ⟨hmem, hf⟩
  · rintro ⟨hmem, hf⟩
    exact ⟨(l, a), hmem, f, hf, rfl, rfl, rfl⟩

theorem checkLanes_trap {q : TrapInfo} (h : laneTrap x sp (laneChecks s x sp n as) = some q) :
    checkLanes s x sp n as = .trap q := by
  simp only [laneChecks] at h
  simp only [checkLanes, h]

/-! ### A misaligned lane -/

theorem checkLane_misaligned {a : Nat} (h : a % n ≠ 0) : checkLane s x sp n a = .fault { order := 1, code := 0x08, tx := n } :=
  if_pos (bne_iff_ne.2 h)

/-- Misalignment is the first condition of R203, and an aligned address meets a later one. -/
theorem checkLane_fault {a : Nat} {f : LaneFault} (h : checkLane s x sp n a = .fault f) :
    (a % n ≠ 0 ∧ f = { order := 1, code := 0x08, tx := n }) ∨ (a % n = 0 ∧ 2 ≤ f.order) := by
  by_cases ha : a % n = 0
  · refine .inr ⟨ha, ?_⟩
    simp only [checkLane, ha, bne_self_eq_false, Bool.false_eq_true, if_false] at h
    repeat' split at h
    all_goals cases h <;> simp
  · exact .inl ⟨ha, (LaneCheck.fault.inj ((checkLane_misaligned ha).symm.trans h)).symm⟩

/-- The trap of lanes of which some are misaligned: it is over these lanes. -/
theorem checkLanes_misaligned (hsome : ∃ e ∈ as, e.1 < 64 ∧ e.2 % n ≠ 0) (hall : ∀ e ∈ as, e.1 < 64) :
    ∃ q, checkLanes s x sp n as = .trap q ∧ q.code = 0x08 ∧ q.tx = BitVec.ofNat 32 n ∧
      ∀ l, q.mask.getLsbD l = true ↔ ∃ e ∈ as, e.1 = l ∧ e.2 % n ≠ 0 := by
  obtain ⟨e, he, -, hmis⟩ := hsome
  have hfault : (e.1, e.2, { order := 1, code := 0x08, tx := n }) ∈ laneFaults (laneChecks s x sp n as) :=
    mem_laneFaults.2 ⟨he, checkLane_misaligned hmis⟩
  obtain ⟨p, hp⟩ := Option.ne_none_iff_exists'.1 (mt pickMin_eq_none.1 (List.ne_nil_of_mem hfault) :
    pickMin (fun p q => decide (p.2.2.order < q.2.2.order)) (laneFaults (laneChecks s x sp n as)) ≠ none)
  have hfirst : p.2.2.order ≤ 1 := pickMin_le (fun p => p.2.2.order) hp _ hfault
  have hkind : p.2.2 = { order := 1, code := 0x08, tx := n } := by
    obtain ⟨-, hf⟩ | ⟨-, hlate⟩ := checkLane_fault (mem_laneFaults.1 (pickMin_mem hp)).2
    · exact hf
    · omega
  refine ⟨_, checkLanes_trap (by rw [laneTrap_eq, hp]; rfl), congrArg LaneFault.code hkind,
    congrArg (fun f => BitVec.ofNat 32 (LaneFault.tx f)) hkind, fun l => ?_⟩
  have hlanes : ∀ k ∈ ((laneFaults (laneChecks s x sp n as)).filter fun q =>
      q.2.2.order == p.2.2.order && q.2.2.code == p.2.2.code).map (·.1), k < 64 := by
    intro k hk
    obtain ⟨q, hq, rfl⟩ := List.mem_map.1 hk
    exact hall _ (mem_laneFaults.1 (List.mem_of_mem_filter hq)).1
  rw [faultTrap, maskOf_iff hlanes, List.mem_map]
  constructor
  · rintro ⟨q, hq, rfl⟩
    obtain ⟨hq, hsame⟩ := List.mem_filter.1 hq
    obtain ⟨hmem, hf⟩ := mem_laneFaults.1 hq
    refine ⟨_, hmem, rfl, ?_⟩
    obtain ⟨ha, -⟩ | ⟨-, hlate⟩ := checkLane_fault hf
    · exact ha
    · simp [hkind] at hsame
      omega
  · rintro ⟨d, hd, rfl, hdmis⟩
    refine ⟨(d.1, d.2, { order := 1, code := 0x08, tx := n }), List.mem_filter.2 ⟨?_, by simp [hkind]⟩, rfl⟩
    exact mem_laneFaults.2 ⟨hd, checkLane_misaligned hdmis⟩

/-! ### Lanes that all pass -/

/-- Noting the pieces that lanes used changes cores alone. -/
theorem noteLanes_cores (s : State) (x : Site) (sp : Space) (as : List (Nat × Nat)) :
    ∃ cs, noteLanes s x sp as = { s with cores := cs } := by
  have hfold {f : State → Nat × Nat → State} (hf : ∀ t e, ∃ cs, f t e = { t with cores := cs }) :
      ∃ cs, as.foldl f s = { s with cores := cs } :=
    List.foldlRecOn (motive := fun t : State => ∃ cs, t = { s with cores := cs }) as f ⟨s.cores, rfl⟩ fun t ht e _ => by
      obtain ⟨_, rfl⟩ := ht
      exact hf _ e
  cases sp with
  | scratch => exact ⟨s.cores, rfl⟩
  | _ =>
    refine hfold fun t ⟨l, a⟩ => ?_
    dsimp only
    split
    · exact ⟨_, rfl⟩
    · exact ⟨t.cores, rfl⟩

theorem okLocs_of_ok (as : List (Nat × Nat)) (f : Nat × Nat → Loc) :
    okLocs (as.map fun e => (e.1, e.2, LaneCheck.ok (f e))) = some (as.map fun e => (e.1, e.2, f e)) := by
  simp [okLocs, List.filterMap_map, Function.comp_def]

/-- Lanes that pass their checks access their locations. -/
theorem checkLanes_ok {f : Nat × Nat → Loc} (h : ∀ e ∈ as, checkLane s x sp n e.2 = .ok (f e)) :
    checkLanes s x sp n as = .ok (noteLanes s x sp as) (as.map fun e => (e.1, e.2, f e)) := by
  have hrun : laneChecks s x sp n as = as.map fun e => (e.1, e.2, LaneCheck.ok (f e)) :=
    List.map_congr_left fun e he => by rw [h e he]
  have hno : laneFaults (laneChecks s x sp n as) = [] := by
    simp [hrun, laneFaults, LaneCheck.fault?]
  have htrap : laneTrap x sp (laneChecks s x sp n as) = none := by
    rw [laneTrap_eq, hno]
    rfl
  have hlocs := hrun ▸ okLocs_of_ok as f
  simp only [laneChecks] at htrap hlocs
  simp only [checkLanes, htrap, hlocs]

theorem checkLane_fetch {a pa : Nat} {p : Piece} (ha : a % n = 0)
    (h : translate s (some x.ref.core) x.cr.ctx permExec a = .ok pa p) : checkLane s x .fetch n a = .ok (.mem pa) := by
  simp only [checkLane, ha, bne_self_eq_false, Bool.false_eq_true, if_false, h]

/-- An aligned address that translates, in a context without a debugger, is accessed. -/
theorem checkLane_global {perm kind a pa : Nat} {p : Piece} (ha : a % n = 0) (hdbg : (getCtx s x.cr.ctx).attached = false)
    (hvers : kind = 3 → (getLaunch s x.cr.launch).vers = false)
    (h : translate s (some x.ref.core) x.cr.ctx perm a = .ok pa p) : checkLane s x (.global perm kind) n a = .ok (.mem pa) := by
  have hplain : ¬(kind = 3 ∧ versioned s x = true) := fun ⟨hk, hv⟩ => Bool.false_ne_true ((hvers hk).symm.trans hv)
  have hwatch : watchHit s x.cr.ctx kind a n = none := by simp [watchHit, hdbg]
  simp only [checkLane, ha, bne_self_eq_false, Bool.false_eq_true, if_false, h, if_neg hplain, hwatch]

end

/-! ### A load in flight (R204, R206) -/

/-- With nothing in the store queue of a warp whose launch is not versioned, no lane of a load is served at issue. -/
theorem loadLanes_unqueued {s : State} {x : Site} (sp : Space) (n : Nat) (locs : List (Nat × Nat × Loc)) (hq : x.wp.storeQ = [])
    (hv : (getLaunch s x.cr.launch).vers = false) : loadLanes s x sp n locs = locs.map fun a => laneAccess a 0 0 := by
  have hlane (a : LaneAccess) : takeEarly (versioned s x) x.wp n a = a := by
    simp [takeEarly, versioned, hv, hq, serveLane, queueOf, versionBytes]
  have hall : takeEarly (versioned s x) x.wp n = id := funext hlane
  simp only [loadLanes, hall, List.map_id, ite_self]

/-- A site after a load went in flight: it is the youngest, and its destination is empty. -/
def Site.loading (x : Site) (e : LoadEntry) : Site :=
  { x with wp := { x.wp with regs := x.wp.regs.emptyDest e.dst x.act, loads := x.wp.loads ++ [e], nextSeq := x.wp.nextSeq + 1 } }

section
variable (x : Site) (e : LoadEntry) (w : Enc)

@[simp] theorem advance_loads : (x.advance w).loads = x.wp.loads := by
  unfold Site.advance Site.endRun
  split <;> rfl

theorem loading_goesOn : GoesOn w x ((x.loading e).advance w) :=
  (advance_keeps (x.loading e) (x.loading e) w ⟨rfl, rfl, rfl⟩ rfl (keepsWarp_refl _) rfl).2

theorem loading_emptied : Emptied x.wp.regs ((x.loading e).advance w).regs e.dst x.act :=
  advance_regs (x.loading e) w ▸ emptyDest_emptied x.wp.regs e.dst x.act

theorem loading_loads : ((x.loading e).advance w).loads = x.wp.loads ++ [e] := advance_loads (x.loading e) w

theorem loading_keepsWarp :
    KeepsWarp { x.wp with loads := ((x.loading e).advance w).loads, nextSeq := x.wp.nextSeq + 1 } ((x.loading e).advance w) := by
  unfold KeepsWarp Site.advance Site.endRun
  split <;> rfl

/-- The entry of a load that its lanes' checks let through. -/
def loadEntry (sc : Nat) (acq code : Bool) (las : List LaneAccess) : LoadEntry :=
  { seq := x.wp.nextSeq, ty := w.ty, width := accessWidth w.ty, sc := sc, acq := acq, code := code
    lanes := if Dest.isScalar (destOf w.d (Ty.wide w.ty)) then las.take 1 else las, dst := destOf w.d (Ty.wide w.ty) }

/-- A load that goes in flight has forgotten its touches, and nothing else changed. -/
theorem done_loadIssued (t : State) (sc : Nat) (acq code : Bool) (las : List LaneAccess) :
    LoadIssued (.next ((Act.done (x.touched.loading (loadEntry x w sc acq code las)) t).state w)) w x t
      (if Dest.isScalar (destOf w.d (Ty.wide w.ty)) then las.take 1 else las) sc acq code :=
  ⟨_, _, rfl, loading_goesOn x.touched _ w, loading_emptied x.touched _ w, loading_loads x.touched _ w, rfl, rfl, rfl, rfl, rfl, rfl,
    rfl, rfl, loading_keepsWarp x.touched _ w⟩

end

section
variable {w : Enc} {s : State} {x : Site} {sp : Space} {sc : Nat} {acq : Bool} {addr : State → Site → Nat → Nat}

/-- Past its checks, with no poison in the way, a load goes in flight. -/
theorem loadBody_checked {t : State} {locs : List (Nat × Nat × Loc)} (hact : x.act ≠ 0)
    (hc : checkLanes s x sp (accessWidth w.ty) (laneAddrs x (addr s x)) = .ok t locs)
    (hp : sp ≠ .code → poisonWaits t x sc (accessWidth w.ty) (loadLanes t x sp (accessWidth w.ty) locs) = false ∧
      poisonTrap t x sp sc (accessWidth w.ty) (loadLanes t x sp (accessWidth w.ty) locs) = none) :
    loadBody w sp sc acq addr x s =
      .done (x.touched.loading (loadEntry x w sc acq (sp == .code) (loadLanes t x sp (accessWidth w.ty) locs))) t := by
  by_cases hsp : sp = .code
  · subst hsp
    simp only [loadBody, if_neg hact, hc, ne_eq, not_true_eq_false, false_and, if_false, if_true]
    rfl
  · obtain ⟨hwait, htrap⟩ := hp hsp
    simp only [loadBody, if_neg hact, hc, hsp, hwait, htrap, Bool.false_eq_true, and_false, if_false]
    rfl

/-- A load goes on without a lane, traps where a lane fails its checks, and goes in flight where all pass. -/
theorem loadBody_answers {o : Host.Outcome State Fault Refusal} (ho : o = .next ((loadBody w sp sc acq addr x s).state w)) :
    let n := accessWidth w.ty
    let checked := checkLanes s x sp n (laneAddrs x (addr s x))
    (x.act = 0 → GoesOnTo o w x s) ∧
    (x.act ≠ 0 → ∀ q, checked = .trap q → o = .next (takeTrap s x.touched q)) ∧
    (x.act ≠ 0 → ∀ t locs, checked = .ok t locs →
      let las := loadLanes t x sp n locs
      (sp ≠ .code → poisonWaits t x sc n las = false ∧ poisonTrap t x sp sc n las = none) →
      LoadIssued o w x t (if Dest.isScalar (destOf w.d (Ty.wide w.ty)) then las.take 1 else las) sc acq (sp == .code)) := by
  subst ho
  refine ⟨fun hact => ?_, fun hact q hq => ?_, fun hact t locs hc hp => ?_⟩
  · rw [loadBody, if_pos hact]
    exact done_goesOnTo w s x
  · simp only [loadBody, if_neg hact, hq]
    rfl
  · rw [loadBody_checked hact hc hp]
    exact done_loadIssued x w t sc acq _ _

end

/-- Settles O13: addresses, the checks on lanes, and the three loads by what their meaning answers. -/
theorem loadsGoInFlight : Obligations.LoadsGoInFlight := by
  refine ⟨fun s x w l => ⟨addrVA_index, fun v => addrVA_literal, addr32_eq⟩, fun s x sp n as f => ⟨fun h => ?_, checkLanes_misaligned, ?_, ?_⟩,
    fun s x sp n locs => loadLanes_unqueued sp n locs, fun w s x => ⟨fun hi => ?_, fun hi => ?_, fun hi => ?_⟩⟩
  · obtain ⟨cs, hcs⟩ := noteLanes_cores s x sp as
    exact ⟨_, checkLanes_ok h, by rw [hcs], by rw [hcs], by rw [hcs], by rw [hcs], by rw [hcs]⟩
  · rintro a pa p ha rfl h
    exact checkLane_fetch ha h
  · rintro perm kind a pa p ha rfl hdbg hvers h
    exact checkLane_global ha hdbg hvers h
  · exact loadBody_answers (issue_go hi _)
  · exact loadBody_answers (issue_go hi _)
  · exact loadBody_answers (issue_go hi _)

end Sys2Proof.Machine
end

section
/-! Stores at issue (R204, R207, R215, R216): they wait for room in the store queue, are checked, and enter it. -/

namespace Sys2Proof.Machine

section
variable {i : Instr} {w : Enc} {s : State} {x : Site} {sp : Space} {n : Nat} {kind : StoreKind} {addr : State → Site → Nat → Nat}
  {val : Nat → Nat}

/-- Past its checks, and with room for its versions, a store enters the store queue. -/
theorem storeBody_checked {t : State} {locs : List (Nat × Nat × Loc)} (hact : x.act ≠ 0) (hroom : x.wp.storeQ.length < 16)
    (hc : checkLanes s x sp n (laneAddrs x (addr s x)) = .ok t locs)
    (hv : (∃ inval llc, kind = .flush inval llc) ∨
      versionTrap t x ((if onceForm i w then locs.take 1 else locs).map fun a => laneAccess a (val a.1) 0) = none) :
    storeBody i w sp n kind .none addr val (fun _ => 0) x s = .done (x.touched.queued
      { kind := kind, width := n, dst := .none
        lanes := (if onceForm i w then locs.take 1 else locs).map fun a => laneAccess a (val a.1) 0 }) t := by
  have hroom : queueRoom x = true := decide_eq_true hroom
  simp only [storeBody, if_neg hact, hroom, hc, Bool.not_true, Bool.false_eq_true, if_false]
  obtain ⟨inval, llc, rfl⟩ | hv := hv
  · rfl
  · cases kind
    case flush => rfl
    all_goals
      simp only [hv]
      rfl

/-- A store goes on without a lane, waits for room, traps where a lane fails its checks, and waits in the store queue. -/
theorem storeBody_answers {o : Host.Outcome State Fault Refusal} {vers : Bool}
    (ho : o = .next ((storeBody i w sp n kind .none addr val (fun _ => 0) x s).state w))
    (hkind : vers = true ∨ ∃ inval llc, kind = .flush inval llc) :
    let checked := checkLanes s x sp n (laneAddrs x (addr s x))
    let taken (locs : List (Nat × Nat × Loc)) := if onceForm i w then locs.take 1 else locs
    (x.act = 0 → GoesOnTo o w x s) ∧
    (x.act ≠ 0 → 16 ≤ x.wp.storeQ.length → o = .next (setWarp s x.ref.crew x.ref.warp (x.hold s.now))) ∧
    (x.act ≠ 0 → x.wp.storeQ.length < 16 → ∀ q, checked = .trap q → o = .next (takeTrap s x.touched q)) ∧
    (x.act ≠ 0 → x.wp.storeQ.length < 16 → ∀ t locs, checked = .ok t locs →
      (vers = true → versionTrap t x ((taken locs).map fun a => laneAccess a (val a.1) 0) = none) →
      StoreQueued o w x t (taken locs) kind n .none val fun _ => 0) := by
  subst ho
  refine ⟨fun hact => ?_, fun hact hfull => ?_, fun hact hroom q hq => ?_, fun hact hroom t locs hc hv => ?_⟩
  · rw [storeBody, if_pos hact]
    exact done_goesOnTo w s x
  · have hroom : queueRoom x = false := decide_eq_false hfull.not_gt
    rw [storeBody, if_neg hact, hroom]
    rfl
  · have hroom : queueRoom x = true := decide_eq_true hroom
    simp only [storeBody, if_neg hact, hroom, hq]
    rfl
  · rw [storeBody_checked hact hroom hc (hkind.symm.imp_right hv)]
    exact done_storeQueued x w t _ kind n .none val fun _ => 0

end

/-- Settles O14: the five instructions are one meaning in different spaces, of different widths and kinds. -/
theorem storesWaitInQueue : Obligations.StoresWaitInQueue := by
  refine fun w s x => ⟨fun hi => ?_, fun hi => ?_, fun hi => ?_, fun hi => ?_, fun hi => ?_⟩
  · have hexec : exec (.st w) s = execSt w s := rfl
    rw [execSt, issue_go hi] at hexec
    exact storeBody_answers (val := storeValue s x w) hexec (.inl rfl)
  · have hexec : exec (.sts w) s = execSts w s := rfl
    rw [execSts, issue_go hi] at hexec
    exact storeBody_answers (val := storeValue s x w) hexec (.inl rfl)
  · have hexec : exec (.pfetchZero w) s = execPfetchZero w s := rfl
    rw [execPfetchZero, issue_go hi] at hexec
    exact storeBody_answers (val := fun _ => 0) hexec (.inl rfl)
  · have hexec : exec (.cflush w) s = execCflush w s := rfl
    rw [execCflush, issue_go hi] at hexec
    exact storeBody_answers (val := fun _ => 0) hexec (.inr ⟨_, _, rfl⟩)
  · have hexec : exec (.cinv w) s = execCinv w s := rfl
    rw [execCinv, issue_go hi] at hexec
    exact storeBody_answers (val := fun _ => 0) hexec (.inr ⟨_, _, rfl⟩)

end Sys2Proof.Machine
end

section
/-! An entry that leaves the store queue (R198, R204, R207, R211): a store at device scope or wider and an atomic, at their homes. -/

namespace Sys2Proof.Machine

/-! ### Bytes at their homes (R198) -/

theorem getD_leBytes {n k : Nat} (v : Nat) (hk : k < n) : (leBytes n v).getD k 0 = BitVec.ofNat 8 (v / 256 ^ k) := by
  simp [leBytes, hk]

/-- Clearing the tag of a POISON block changes no byte as it reads at its home. -/
theorem homeByte_clearPoison {s : State} {blk : Nat} (h : isPoisonTag (tagGet s.tags blk) = true) (p : Nat) :
    homeByte (setTag s blk 0) p = homeByte s p := by
  have hzero : isZeroTag 0 = false := by decide
  have hpoison : isZeroTag (tagGet s.tags blk) = false := by
    have hformat : tagFormat (tagGet s.tags blk) = 15 := beq_iff_eq.1 h
    simp [isZeroTag, hformat]
  simp only [homeByte, homeTag, setTag, tagGet_tagSet_zero]
  by_cases hb : p / 64 = blk
  · subst hb
    simp only [if_true, hzero, hpoison, Bool.false_eq_true, if_false]
  · simp only [if_neg hb]
    rfl

/-- The byte that a lane's store of n bytes puts at an address. -/
def storedByte (n : Nat) (a : LaneAccess) (p : Nat) : Option Byte :=
  match a.loc with
  | .mem pa => if pa ≤ p ∧ p < pa + n then some (BitVec.ofNat 8 (a.x / 256 ^ (p - pa))) else none
  | .scratch _ _ => none

theorem storedByte_eq_none {n : Nat} {a : LaneAccess} {p : Nat} (h : ¬Covers n a p) : storedByte n a p = none := by
  unfold storedByte
  split
  next pa hloc => exact if_neg fun hin => h ⟨pa, hloc, hin⟩
  · rfl

theorem storedByte_at {n pa k : Nat} {a : LaneAccess} (hloc : a.loc = .mem pa) (hk : k < n) :
    storedByte n a (pa + k) = some (BitVec.ofNat 8 (a.x / 256 ^ k)) := by
  simp only [storedByte, hloc]
  rw [if_pos (by omega), Nat.add_sub_cancel_left]

/-- From s to t the lanes have stored their bytes at the homes, one lane after another, and no warp changed. -/
structure Stored (n : Nat) (lanes : List LaneAccess) (s t : State) : Prop where
  keeps : KeepsIssuing s t
  wf : Memory.wf t.mem
  bytes : ∀ p, homeByte t p = lanes.foldl (fun b a => (storedByte n a p).getD b) (homeByte s p)

/-- An address that no lane covers reads as before. -/
theorem Stored.uncovered {n : Nat} {lanes : List LaneAccess} {s t : State} (h : Stored n lanes s t) {p : Nat}
    (hp : ∀ a ∈ lanes, ¬Covers n a p) : homeByte t p = homeByte s p := by
  rw [h.bytes]
  refine List.foldlRecOn (motive := (· = homeByte s p)) lanes _ rfl fun b hb a ha => ?_
  rw [storedByte_eq_none (hp a ha)]
  exact hb

/-- Where all lanes that put a byte at an address put the same, it is the byte read there. -/
theorem foldl_getD_of_agree {α β : Type} {f : α → Option β} {v : β} {l : List α} (hall : ∀ a ∈ l, f a = none ∨ f a = some v)
    (hsome : ∃ a ∈ l, f a = some v) (b : β) : l.foldl (fun b a => (f a).getD b) b = v := by
  induction l generalizing b with
  | nil => obtain ⟨a, ha, -⟩ := hsome; exact absurd ha List.not_mem_nil
  | cons c t ih =>
    have hrest : ∀ a ∈ t, f a = none ∨ f a = some v := fun a ha => hall a (List.mem_cons_of_mem c ha)
    rw [List.foldl_cons]
    by_cases ht : ∃ a ∈ t, f a = some v
    · exact ih hrest ht _
    · obtain ⟨a, ha, hav⟩ := hsome
      obtain rfl | ha := List.mem_cons.1 ha
      · rw [hav]
        refine List.foldlRecOn (motive := (· = v)) t _ rfl fun b hb d hd => ?_
        rw [(hrest d hd).resolve_right fun h => ht ⟨d, hd, h⟩]
        exact hb
      · exact absurd ⟨a, ha, hav⟩ ht

/-- A byte that one lane alone covers is that lane's. -/
theorem Stored.covered {n : Nat} {lanes : List LaneAccess} {s t : State} (h : Stored n lanes s t) {a : LaneAccess} (ha : a ∈ lanes)
    {pa k : Nat} (hloc : a.loc = .mem pa) (hk : k < n) (hone : ∀ c ∈ lanes, Covers n c (pa + k) → c = a) :
    homeByte t (pa + k) = BitVec.ofNat 8 (a.x / 256 ^ k) := by
  rw [h.bytes]
  refine foldl_getD_of_agree (fun c hc => ?_) ⟨a, ha, storedByte_at hloc hk⟩ _
  by_cases hcov : Covers n c (pa + k)
  · obtain rfl := hone c hc hcov
    exact .inr (storedByte_at hloc hk)
  · exact .inl (storedByte_eq_none hcov)

/-! ### One lane of a store (R207) -/

theorem homePuts_stored {s : State} {pa : Nat} {a : LaneAccess} (n : Nat) (hwf : Memory.wf s.mem) (hloc : a.loc = .mem pa) :
    Stored n [a] s (homePuts s pa (leBytes n a.x)) := by
  refine ⟨keepsIssuing_homePuts _ _ _, homePuts_wf hwf _ _, fun p => ?_⟩
  rw [homeByte_homePuts hwf, length_leBytes]
  simp only [List.foldl_cons, List.foldl_nil, storedByte, hloc]
  split
  next hin => rw [getD_leBytes _ (by omega), Option.getD_some]
  · rfl

/-- A lane store at device scope or wider goes home; of its core it changes the sector, where it holds one. -/
theorem l1Store_stored {s : State} {core sc pa n : Nat} {a : LaneAccess} (hsc : 2 ≤ sc) (hwf : Memory.wf s.mem) (hloc : a.loc = .mem pa)
    (whole : Bool) : Stored n [a] s (l1Store s core sc pa (leBytes n a.x) whole) := by
  obtain ⟨hkeeps, hmem, hbytes⟩ := homePuts_stored n hwf hloc
  unfold l1Store
  extract_lets blk off m put u v
  rw [if_neg hsc.not_gt]
  have hv : KeepsIssuing s v ∧ Memory.wf v.mem ∧ ∀ p, homeByte v p = homeByte u p := by
    unfold v
    split
    next hclear =>
      exact ⟨⟨hkeeps.issuing, hkeeps.crews, hkeeps.launches⟩, hmem, homeByte_clearPoison ((Bool.and_eq_true_iff.1 hclear).2)⟩
    · exact ⟨hkeeps, hmem, fun _ => rfl⟩
  obtain ⟨hvkeeps, hvmem, hvbytes⟩ := hv
  split
  · exact ⟨hvkeeps, hvmem, fun p => (hvbytes p).trans (hbytes p)⟩
  · exact ⟨⟨hvkeeps.issuing, hvkeeps.crews, hvkeeps.launches⟩, hvmem, fun p => (hvbytes p).trans (hbytes p)⟩

theorem storeLane_stored {s : State} {r : IssueRef} {sc n : Nat} {whole : List Nat} {a : LaneAccess} (hsc : 2 ≤ sc)
    (hwf : Memory.wf s.mem) (hloc : ∃ p, a.loc = .mem p) : Stored n [a] s (storeLane s r sc n false whole a) := by
  obtain ⟨pa, hpa⟩ := hloc
  simp only [storeLane, hpa, Bool.false_eq_true, if_false]
  split
  · exact homePuts_stored n hwf hpa
  · exact l1Store_stored hsc hwf hpa _

theorem KeepsIssuing.crewVersioned_eq {s t : State} (h : KeepsIssuing s t) (k : Nat) : crewVersioned t k = crewVersioned s k := by
  simp only [crewVersioned, getLaunch, h.crews, h.launches]

theorem KeepsIssuing.getWarp_eq {s t : State} (h : KeepsIssuing s t) (k n : Nat) : getWarp t k n = getWarp s k n := by
  simp only [getWarp, h.crews]

/-- The lanes of a store are performed one after another. -/
theorem performStores_stored {s : State} {r : IssueRef} {e : StoreEntry} {sc : Nat} {rel : Bool} (hkind : e.kind = .store sc rel)
    (hsc : 2 ≤ sc) (hv : crewVersioned s r.crew = false) (hwf : Memory.wf s.mem) {lanes : List LaneAccess}
    (hloc : ∀ a ∈ lanes, ∃ p, a.loc = .mem p) : Stored e.width lanes s (lanes.foldl (fun s a => performStore s r e a) s) := by
  induction lanes generalizing s with
  | nil => exact ⟨.refl s, hwf, fun _ => rfl⟩
  | cons a rest ih =>
    obtain ⟨ha, hrest⟩ := List.forall_mem_cons.1 hloc
    have hone : Stored e.width [a] s (performStore s r e a) := by
      simp only [performStore, hkind, hv]
      exact storeLane_stored hsc hwf ha
    obtain ⟨hkeeps, hmem, hbytes⟩ := ih (hone.keeps.crewVersioned_eq r.crew ▸ hv) hone.wf hrest
    refine ⟨hone.keeps.trans hkeeps, hmem, fun p => ?_⟩
    rw [List.foldl_cons, hbytes, hone.bytes]
    rfl

/-! ### The entry leaves (R204) -/

/-- A crew with a warp that has not retired stays. -/
theorem retireCrew_of_live {s : State} {k n : Nat} {wp : Warp} (hw : getWarp s k n = some wp) (hlive : wp.retired = false) :
    retireCrew s k = s := by
  obtain ⟨c, hc, hwp⟩ := Option.bind_eq_some_iff.1 hw
  have hsome : c.warps.all (fun e => e.2.retired && e.2.storeQ.isEmpty) = false :=
    List.all_eq_false.2 ⟨(n, wp), kvGet_mem hwp, by simp [hlive]⟩
  simp only [retireCrew, hc, hsome]
  exact if_pos (.inr (.inl rfl))

section
variable {s : State} {dws : Nat} {r : IssueRef} {wp : Warp} {e : StoreEntry} {q : List StoreEntry}

/-- The oldest entry of a queue leaves once it comes before every load, and is performed. -/
theorem leaveQueue_performs (hwp : getWarp s r.crew r.warp = some wp) (hq : wp.storeQ = e :: q) (hloads : ∀ f ∈ wp.loads, e.seq ≤ f.seq) :
    ∃ lat, ∀ t, performEntry (setWarp s r.crew r.warp { wp with storeQ := q, lat := lat }) r e = (t, []) → leaveQueue s r = t := by
  have hfirst : wp.loads.any (fun f => decide (f.seq < e.seq)) = false :=
    List.any_eq_false.2 fun f hf => by simpa using hloads f hf
  cases hdst : e.dst with
  | none =>
    refine ⟨wp.lat, fun t hperf => ?_⟩
    simp only [leaveQueue, hwp, hq, hfirst, hdst, hperf, Bool.false_eq_true, if_false]
  | _ =>
    refine ⟨latOf e.waited, fun t hperf => ?_⟩
    simp only [leaveQueue, hwp, hq, hfirst, hdst, hperf, Bool.false_eq_true, if_false]

/-- When an entry of a live warp has been performed, its crew stays. -/
theorem storeQueueLeave_of_performed {t : State} {b : Warp} (hr : queueWarpAt s dws = some r) (hleave : leaveQueue s r = t)
    (hb : getWarp t r.crew r.warp = some b) (hlive : b.retired = false) : exec (.storeQueueLeave dws) s = .next t := by
  have hexec : exec (.storeQueueLeave dws) s = execStoreQueueLeave dws s := rfl
  rw [hexec, execStoreQueueLeave, hr]
  simp only [hleave, retireCrew_of_live hb hlive]

/-- A warp put back in the place of one that was found is found. -/
theorem getWarp_setWarp {s : State} {k n : Nat} {wp : Warp} (h : getWarp s k n = some wp) (b : Warp) :
    getWarp (setWarp s k n b) k n = some b := by
  obtain ⟨c, hc, -⟩ := Option.bind_eq_some_iff.1 h
  exact getWarp_setWarp_same hc b

/-- A warp put back leaves the launch of every crew. -/
theorem launch_setWarp (s : State) (k n j : Nat) (b : Warp) :
    (kvD (setWarp s k n b).crews j {}).launch = (kvD s.crews j {}).launch := by
  simp only [setWarp_crews, kvD, kvGet_kvMod]
  split
  · cases kvGet s.crews j <;> rfl
  · rfl

/-- The lanes of a plain store at device scope or wider are stored at their homes. -/
theorem performEntry_store {sc : Nat} (hkind : e.kind = .store sc false) (hsc : 2 ≤ sc) (hv : crewVersioned s r.crew = false)
    (hwf : Memory.wf s.mem) (hlanes : ∀ a ∈ e.lanes, a.done = false ∧ ∃ p, a.loc = .mem p) :
    ∃ t, performEntry s r e = (t, []) ∧ Stored e.width e.lanes s t := by
  have hall : e.lanes.filter (fun a => !a.done) = e.lanes :=
    List.filter_eq_self.2 fun a ha => by simp [(hlanes a ha).1]
  refine ⟨_, ?_, performStores_stored hkind hsc hv hwf fun a ha => (hlanes a ha).2⟩
  simp only [performEntry, hkind, hall]
  rfl

/-! ### An atomic (R210, R211) -/

/-- An atomic on a block that its core does not hold, and that is not POISON, reads and writes the home. -/
theorem atomicLane_home {core pa : Nat} {a : LaneAccess} (p : Profile) (code : Nat) (t : Ty) (hloc : a.loc = .mem pa)
    (hsec : sectorAt s core (pa / 64) = none) (hpoison : isPoisonTag (homeTag s pa) = false) :
    atomicLane s core p code t a =
      (homePuts (dropSector s core (pa / 64)) pa (leBytes (accessWidth t) (atomicNew p code t (homeNat s pa (accessWidth t)) a.x a.y)),
        some (homeNat s pa (accessWidth t))) := by
  have hflush : flushSector s core (pa / 64) = dropSector s core (pa / 64) := by
    simp only [flushSector, writeBack, hsec]
  have htag : homeTag (dropSector s core (pa / 64)) pa = homeTag s pa := rfl
  have hold : homeNat (dropSector s core (pa / 64)) pa (accessWidth t) = homeNat s pa (accessWidth t) := rfl
  simp only [atomicLane, hloc, hflush, htag, hpoison, hold, Bool.false_eq_true, if_false]

/-- An atomic of one lane fills its destination with the old value and puts the new one at its home. -/
theorem performEntry_atomic {code pa : Nat} {ty : Ty} {isRed : Bool} {a : LaneAccess} (hwp : getWarp s r.crew r.warp = some wp)
    (hwf : Memory.wf s.mem) (hkind : e.kind = .atomic code ty isRed) (hlanes : e.lanes = [a]) (hdone : a.done = false)
    (hloc : a.loc = .mem pa) (hsec : sectorAt s r.core (pa / 64) = none) (hpoison : isPoisonTag (homeTag s pa) = false) :
    let n := accessWidth ty
    let old := homeNat s pa n
    let prof := Profile.ofByte (getLaunch s (kvD s.crews r.crew {}).launch).kernel.prof
    ∃ t, performEntry s r e = (t, []) ∧ getWarp t r.crew r.warp = some { wp with regs := wp.regs.fillDest e.dst a.lane old } ∧
      ∀ p, homeByte t p = if pa ≤ p ∧ p < pa + n then BitVec.ofNat 8 (atomicNew prof code ty old a.x a.y / 256 ^ (p - pa))
        else homeByte s p := by
  intro n old prof
  have hput (l : List Byte) : getWarp (homePuts (dropSector s r.core (pa / 64)) pa l) r.crew r.warp = some wp :=
    ((keepsIssuing_homePuts _ _ _).getWarp_eq _ _).trans hwp
  refine ⟨_, ?_, getWarp_setWarp (hput (leBytes n (atomicNew prof code ty old a.x a.y))) _, fun p => ?_⟩
  · simp only [performEntry, hkind, hlanes, hdone, Bool.not_false, List.filter_cons_of_pos, List.filter_nil, atomicLanes, atomicAt,
      Bool.false_eq_true, if_false, atomicLane_home _ code ty hloc hsec hpoison, hput, if_true]
    rfl
  · refine (homeByte_homePuts (s := dropSector s r.core (pa / 64)) hwf pa p _).trans ?_
    rw [length_leBytes]
    split
    next hin => exact getD_leBytes _ (by omega)
    · rfl

end

/-- Settles O17: the lanes of a store put their bytes one after another, and an atomic writes its new value in one piece. -/
theorem storeLeavesQueue : Obligations.StoreLeavesQueue := by
  refine ⟨fun s dws sc r wp e q hwf hr hwp hlive hq hloads hkind hsc hv hlanes => ?_,
    fun s dws code pa ty isRed r wp e q a hwf hr hwp hlive hq hloads hkind hlanes hdone hloc hsec hpoison => ?_⟩
  · obtain ⟨lat, hleave⟩ := leaveQueue_performs hwp hq hloads
    have hput := getWarp_setWarp hwp { wp with storeQ := q, lat := lat }
    have hvers : crewVersioned (setWarp s r.crew r.warp { wp with storeQ := q, lat := lat }) r.crew = false := by
      rw [crewVersioned, launch_setWarp]
      exact hv
    obtain ⟨t, hperf, hstored⟩ := performEntry_store hkind hsc hvers hwf hlanes
    have hb := (hstored.keeps.getWarp_eq r.crew r.warp).trans hput
    exact ⟨t, storeQueueLeave_of_performed hr (hleave t hperf) hb hlive, ⟨_, hb, rfl, rfl, rfl, rfl⟩, fun p hp => hstored.uncovered hp,
      fun a ha p k hloc hk hone => hstored.covered ha hloc hk hone⟩
  · obtain ⟨lat, hleave⟩ := leaveQueue_performs hwp hq hloads
    have hput := getWarp_setWarp hwp { wp with storeQ := q, lat := lat }
    obtain ⟨t, hperf, hb, hbytes⟩ := performEntry_atomic hput hwf hkind hlanes hdone hloc hsec hpoison
    rw [launch_setWarp] at hbytes
    refine ⟨t, _, storeQueueLeave_of_performed hr (hleave t hperf) hb hlive, hb, rfl, rfl, fun k hk => ?_, fun p hp => ?_⟩
    · rw [hbytes, if_pos (by omega), Nat.add_sub_cancel_left]
      rfl
    · rw [hbytes, if_neg (by omega)]
      rfl

end Sys2Proof.Machine
end

section
/-! The L1 (R191-R195): what writing back, evicting and filling leave of memory and of the other sectors, and what a load reads. -/

namespace Sys2Proof.Machine

/-! ### Sectors -/

section
variable {s : State} {core blk b : Nat}

theorem sectorAt_congr {t : State} (h : t.cores = s.cores) : sectorAt t core b = sectorAt s core b := by
  simp only [sectorAt, getCore_congr h]

theorem sectorAt_putSector (y : Sector) : sectorAt (putSector s core blk y) core b = if b = blk then some y else sectorAt s core b := by
  simp only [sectorAt, putSector, getCore_setCore, if_true, kvGet_kvSet]

theorem l1Rising_putSector (h : L1Rising s core) (y : Sector) : L1Rising (putSector s core blk y) core := by
  simp only [L1Rising, putSector, getCore_setCore, if_true]
  exact kvSet_rising h blk y

theorem sectorAt_dropSector (h : L1Rising s core) :
    sectorAt (dropSector s core blk) core b = if b = blk then none else sectorAt s core b := by
  simp only [sectorAt, dropSector, getCore_setCore, if_true]
  split
  next hb => rw [hb, kvGet_kvDel_same h]
  next hb => exact kvGet_kvDel_ne h hb

theorem l1Rising_dropSector (h : L1Rising s core) : L1Rising (dropSector s core blk) core := by
  simp only [L1Rising, dropSector, getCore_setCore, if_true]
  exact kvDel_rising h blk

end

/-! ### Write-backs change dirty bytes alone (R193, R195) -/

/-- From s to t a core's L1 has written dirty bytes back: no other byte of memory changed, and what is dirty in t was so in s. -/
structure WritesBack (core : Nat) (s t : State) : Prop where
  wf : Memory.wf t.mem
  rising : L1Rising t core
  bytes : WroteBack s t core
  dirty : ∀ b y k, sectorAt t core b = some y → y.dirty.getLsbD k = true →
    ∃ z, sectorAt s core b = some z ∧ z.dirty.getLsbD k = true ∧ y.data.getD k 0 = z.data.getD k 0

section
variable {core : Nat} {s t u : State}

theorem WritesBack.refl (hwf : Memory.wf s.mem) (hr : L1Rising s core) : WritesBack core s s :=
  ⟨hwf, hr, fun _ => .inl rfl, fun _ y _ hy hk => ⟨y, hy, hk, rfl⟩⟩

theorem WritesBack.trans (h : WritesBack core s t) (g : WritesBack core t u) : WritesBack core s u := by
  refine ⟨g.wf, g.rising, fun p => ?_, fun b y k hy hk => ?_⟩
  · obtain hp | ⟨y, hy, hk, hp⟩ := g.bytes p
    · exact hp ▸ h.bytes p
    · obtain ⟨z, hz, hzk, hdata⟩ := h.dirty _ y _ hy hk
      exact .inr ⟨z, hz, hzk, hp.trans hdata⟩
  · obtain ⟨z, hz, hzk, hyz⟩ := g.dirty b y k hy hk
    obtain ⟨v, hv, hvk, hzv⟩ := h.dirty b z k hz hzk
    exact ⟨v, hv, hvk, hyz.trans hzv⟩

/-- A block of which the L1 holds no sector reads as before. -/
theorem WritesBack.unheld (h : WritesBack core s t) {p : Nat} (hp : sectorAt s core (p / 64) = none) : homeByte t p = homeByte s p :=
  (h.bytes p).resolve_right fun ⟨_, hy, _⟩ => nomatch hp.symm.trans hy

/-- One step after another, each of which writes back. -/
theorem writesBack_foldl {α : Type} {f : State → α → State} (hf : ∀ t a, Memory.wf t.mem → L1Rising t core → WritesBack core t (f t a))
    (l : List α) (h : WritesBack core s t) : WritesBack core s (l.foldl f t) :=
  List.foldlRecOn (motive := WritesBack core s) l f h fun u hu a _ => hu.trans (hf u a hu.wf hu.rising)

/-- Bytes written one by one at their homes. -/
theorem homeByte_foldl_homePut (base : Nat) (f : Nat → Byte) (ks : List Nat) (hwf : Memory.wf s.mem) :
    let t := ks.foldl (fun s k => homePut s (base + k) (f k)) s
    Memory.wf t.mem ∧ ∀ p, homeByte t p = if base ≤ p ∧ p - base ∈ ks then f (p - base) else homeByte s p := by
  induction ks generalizing s with
  | nil => exact ⟨hwf, fun p => by simp⟩
  | cons k ks ih =>
    obtain ⟨htwf, hbytes⟩ := ih (homePut_wf hwf (base + k) (f k))
    refine ⟨htwf, fun p => ?_⟩
    rw [List.foldl_cons, hbytes, homeByte_homePut hwf]
    by_cases hp : p = base + k
    · subst hp
      simp
    · have hne : ¬(base ≤ p ∧ p - base = k) := by omega
      simp only [List.mem_cons, if_neg hp, and_or_left, hne, false_or]

theorem homePut_others (s : State) (pa : Nat) (b : Byte) : KeepsIssuing s (homePut s pa b) ∧ (homePut s pa b).cores = s.cores := by
  unfold homePut
  split
  · exact ⟨⟨rfl, rfl, rfl⟩, rfl⟩
  · exact ⟨⟨rfl, rfl, rfl⟩, rfl⟩

/-- A sector that is written back puts its dirty bytes at their homes and is clean. -/
theorem writeBack_of_held {blk : Nat} {x : Sector} (hx : sectorAt s core blk = some x) :
    ∃ u, writeBack s core blk = putSector u core blk { x with dirty := 0, tagDirty := false } ∧ KeepsIssuing s u ∧ u.cores = s.cores ∧
      (Memory.wf s.mem → Memory.wf u.mem ∧ ∀ p, homeByte u p =
        if 64 * blk ≤ p ∧ p - 64 * blk ∈ lanesOf x.dirty then x.data.getD (p - 64 * blk) 0 else homeByte s p) := by
  simp only [writeBack, hx]
  generalize ht : List.foldl _ s (lanesOf x.dirty) = t
  have hothers : KeepsIssuing s t ∧ t.cores = s.cores := by
    subst ht
    exact List.foldlRecOn (motive := fun t : State => KeepsIssuing s t ∧ t.cores = s.cores) _ _ ⟨.refl s, rfl⟩
      fun u ⟨hkeeps, hcores⟩ k _ => ⟨hkeeps.trans (homePut_others u _ _).1, (homePut_others u _ _).2.trans hcores⟩
  have hbytes (hwf : Memory.wf s.mem) : Memory.wf t.mem ∧ ∀ p, homeByte t p =
      if 64 * blk ≤ p ∧ p - 64 * blk ∈ lanesOf x.dirty then x.data.getD (p - 64 * blk) 0 else homeByte s p := by
    subst ht
    exact homeByte_foldl_homePut (64 * blk) (fun k => x.data.getD k 0) _ hwf
  obtain ⟨⟨hissuing, hcrews, hlaunches⟩, hcores⟩ := hothers
  by_cases htag : (x.tagDirty && isPoisonTag (homeTag t (64 * blk))) = true
  · have hpoison : isPoisonTag (tagGet t.tags blk) = true := by
      rw [Bool.and_eq_true, homeTag, Nat.mul_div_cancel_left _ (by decide)] at htag
      exact htag.2
    rw [if_pos htag]
    exact ⟨_, rfl, ⟨hissuing, hcrews, hlaunches⟩, hcores, fun hwf => ⟨(hbytes hwf).1, fun p =>
      (homeByte_clearPoison hpoison p).trans ((hbytes hwf).2 p)⟩⟩
  · rw [if_neg htag]
    exact ⟨_, rfl, ⟨hissuing, hcrews, hlaunches⟩, hcores, hbytes⟩

theorem writeBack_of_unheld {blk : Nat} (h : sectorAt s core blk = none) : writeBack s core blk = s := by
  simp only [writeBack, h]

theorem writesBack_writeBack (blk : Nat) (hwf : Memory.wf s.mem) (hr : L1Rising s core) : WritesBack core s (writeBack s core blk) := by
  cases hx : sectorAt s core blk with
  | none =>
    rw [writeBack_of_unheld hx]
    exact .refl hwf hr
  | some x =>
    obtain ⟨u, hu, -, hcores, hbytes⟩ := writeBack_of_held hx
    obtain ⟨huwf, hbytes⟩ := hbytes hwf
    have hur : L1Rising u core := by rwa [L1Rising, getCore_congr hcores]
    rw [hu]
    refine ⟨huwf, l1Rising_putSector hur _, fun p => ?_, fun b y k hy hk => ?_⟩
    · have hp : homeByte (putSector u core blk { x with dirty := 0, tagDirty := false }) p = homeByte u p := rfl
      rw [hp, hbytes]
      split
      next hin =>
        obtain ⟨hlt, hdirty⟩ := mem_lanesOf.1 hin.2
        have hblk : p / 64 = blk := by omega
        have hoff : p - 64 * blk = p % 64 := by omega
        rw [hoff] at hdirty ⊢
        exact .inr ⟨x, hblk ▸ hx, hdirty, rfl⟩
      · exact .inl rfl
    · rw [sectorAt_putSector, sectorAt_congr hcores] at hy
      split at hy
      · obtain rfl := Option.some.inj hy
        simp at hk
      · exact ⟨y, hy, hk, rfl⟩

theorem writesBack_dropSector (blk : Nat) (hwf : Memory.wf s.mem) (hr : L1Rising s core) :
    WritesBack core s (dropSector s core blk) := by
  refine ⟨hwf, l1Rising_dropSector hr, fun _ => .inl rfl, fun b y k hy hk => ⟨y, ?_, hk, rfl⟩⟩
  rw [sectorAt_dropSector hr] at hy
  split at hy
  · cases hy
  · exact hy

theorem writesBack_flushSector (blk : Nat) (hwf : Memory.wf s.mem) (hr : L1Rising s core) :
    WritesBack core s (flushSector s core blk) :=
  have h := writesBack_writeBack blk hwf hr
  h.trans (writesBack_dropSector blk h.wf h.rising)

theorem keepsIssuing_flushSector (s : State) (core blk : Nat) : KeepsIssuing s (flushSector s core blk) := by
  have hwrite : KeepsIssuing s (writeBack s core blk) := by
    cases hx : sectorAt s core blk with
    | none =>
      rw [writeBack_of_unheld hx]
      exact .refl s
    | some x =>
      obtain ⟨u, hu, ⟨hissuing, hcrews, hlaunches⟩, -⟩ := writeBack_of_held hx
      exact hu ▸ ⟨hissuing, hcrews, hlaunches⟩
  exact ⟨hwrite.issuing, hwrite.crews, hwrite.launches⟩

/-! ### A fill (R191, R192, R195) -/

/-- The state in which a block's way is free: a line that stood in it has left. -/
theorem allocWay_cases (s : State) (core blk : Nat) : (allocWay s core blk).1 = s ∨
    sectorAt s core blk = none ∧ ∃ out : List Nat, (allocWay s core blk).1 =
      out.foldl (fun s b => flushSector s core b) (setCore s core { getCore s core with fills := (getCore s core).fills + 1 }) := by
  cases hx : sectorAt s core blk with
  | some y => exact .inl (by simp only [allocWay, hx, Option.orElse_some])
  | none =>
    cases hn : sectorAt s core (blk ^^^ 1) with
    | some y => exact .inl (by simp only [allocWay, hx, hn, Option.orElse_none])
    | none =>
      simp only [allocWay, hx, hn, Option.orElse_none]
      exact .inr ⟨trivial, _, rfl⟩

theorem keepsIssuing_allocWay (s : State) (core blk : Nat) : KeepsIssuing s (allocWay s core blk).1 := by
  obtain h | ⟨-, out, h⟩ := allocWay_cases s core blk
  · rw [h]
    exact .refl s
  · rw [h]
    exact List.foldlRecOn (motive := KeepsIssuing s) out _ ⟨rfl, rfl, rfl⟩ fun u hu b _ => hu.trans (keepsIssuing_flushSector u core b)

theorem writesBack_allocWay (blk : Nat) (hwf : Memory.wf s.mem) (hr : L1Rising s core) : WritesBack core s (allocWay s core blk).1 := by
  obtain h | ⟨-, out, h⟩ := allocWay_cases s core blk
  · rw [h]
    exact .refl hwf hr
  · have hl1 (n : Nat) : (getCore (setCore s core { getCore s core with fills := n }) core).l1 = (getCore s core).l1 := by
      rw [getCore_setCore, if_pos rfl]
    rw [h]
    refine writesBack_foldl (fun u b => writesBack_flushSector b) out ⟨hwf, ?_, fun _ => .inl rfl, fun b y k hy hk => ⟨y, ?_, hk, rfl⟩⟩
    · rwa [L1Rising, hl1]
    · rwa [sectorAt, hl1] at hy

/-- A sector that is held is the one filled, and its state stands. -/
theorem takeSector_of_held {blk : Nat} {y : Sector} (tag : W16) (h : sectorAt s core blk = some y) :
    takeSector s core blk tag = (s, y) := by
  simp only [takeSector, allocWay, h, Option.orElse_some, Option.getD_some]

/-- A byte of a filled sector: the sector's own where it is dirty, else the home's. -/
theorem filled_byte (s : State) (core blk sc : Nat) {j : Nat} (hj : j < 64) :
    (filled s core blk sc).2.data[j]? = some (if (takeSector s core blk 0).2.dirty.getLsbD j = true
      then (takeSector s core blk 0).2.data.getD j 0 else homeByte (takeSector s core blk 0).1 (64 * blk + j)) := by
  simp [filled, homeBytes, hj]

theorem keepsIssuing_filled (s : State) (core blk sc : Nat) : KeepsIssuing s (filled s core blk sc).1 :=
  have h := keepsIssuing_allocWay s core blk
  ⟨h.issuing, h.crews, h.launches⟩

theorem writesBack_filled (blk sc : Nat) (hwf : Memory.wf s.mem) (hr : L1Rising s core) : WritesBack core s (filled s core blk sc).1 := by
  have h := writesBack_allocWay blk hwf hr
  refine h.trans ⟨h.wf, l1Rising_putSector h.rising _, fun _ => .inl rfl, fun b y k hy hk => ?_⟩
  have hput : (filled s core blk sc).1 = putSector (allocWay s core blk).1 core blk (filled s core blk sc).2 := rfl
  rw [hput, sectorAt_putSector] at hy
  split at hy
  next hb =>
    obtain rfl := Option.some.inj hy
    have hdirty : (takeSector s core blk 0).2.dirty.getLsbD k = true := hk
    have hdata : (filled s core blk sc).2.data.getD k 0 = (takeSector s core blk 0).2.data.getD k 0 := by
      rw [List.getD_eq_getElem?_getD, filled_byte s core blk sc (lt_of_getLsbD hk), if_pos hdirty, Option.getD_some]
    rw [hb]
    simp only [takeSector] at hdirty hdata
    cases hx : sectorAt (allocWay s core blk).1 core blk with
    | none => simp [hx] at hdirty
    | some x =>
      rw [hx, Option.getD_some] at hdirty hdata
      exact ⟨x, rfl, hdirty, hdata⟩
  · exact ⟨y, hy, hk, rfl⟩

/-! ### A load through the L1 (R192) -/

theorem l1Load_of_fill {blk sc pa n : Nat} (hblk : blk = pa / 64) (h : sectorAt s core blk = none ∨ 2 ≤ sc) : l1Load s core sc pa n =
    ((filled s core blk sc).1, ((filled s core blk sc).2.data.drop (pa % 64)).take n, isPoisonTag (filled s core blk sc).2.tag) := by
  subst hblk
  cases hx : sectorAt s core (pa / 64) with
  | none => simp only [l1Load, hx]
  | some y =>
    have hsc : 2 ≤ sc := h.resolve_left (hx ▸ nofun)
    have hmiss (q : Prop) : ¬(sc < 2 ∧ q) := fun hlt => absurd hlt.1 hsc.not_gt
    simp only [l1Load, hx, if_neg (hmiss _)]

/-- A load leaves a state that a fill leaves, or its own. -/
theorem l1Load_state (s : State) (core sc pa n : Nat) :
    (l1Load s core sc pa n).1 = s ∨ (l1Load s core sc pa n).1 = (filled s core (pa / 64) sc).1 := by
  simp only [l1Load]
  split
  · split
    · exact .inl rfl
    · exact .inr rfl
  · exact .inr rfl

theorem keepsIssuing_l1Load (s : State) (core sc pa n : Nat) : KeepsIssuing s (l1Load s core sc pa n).1 := by
  obtain h | h := l1Load_state s core sc pa n
  · rw [h]
    exact .refl s
  · rw [h]
    exact keepsIssuing_filled _ _ _ _

theorem writesBack_l1Load (sc pa n : Nat) (hwf : Memory.wf s.mem) (hr : L1Rising s core) :
    WritesBack core s (l1Load s core sc pa n).1 := by
  obtain h | h := l1Load_state s core sc pa n
  · rw [h]
    exact .refl hwf hr
  · rw [h]
    exact writesBack_filled _ _ hwf hr

/-- Where the L1 holds the block, a load evicts nothing. -/
theorem l1Load_of_held {sc pa n : Nat} (h : sectorAt s core (pa / 64) ≠ none) :
    (l1Load s core sc pa n).1.mem = s.mem ∧ (l1Load s core sc pa n).1.tags = s.tags := by
  obtain ⟨y, hy⟩ := Option.ne_none_iff_exists'.1 h
  have hfill : (filled s core (pa / 64) sc).1.mem = s.mem ∧ (filled s core (pa / 64) sc).1.tags = s.tags := by
    simp only [filled, takeSector_of_held 0 hy]
    exact ⟨rfl, rfl⟩
  obtain hs | hs := l1Load_state s core sc pa n
  · rw [hs]
    exact ⟨rfl, rfl⟩
  · rw [hs]
    exact hfill

theorem byteMask_getLsbD {off n l : Nat} (hl : l < 64) : (byteMask off n).getLsbD l = decide (off ≤ l ∧ l < off + n) := by
  rw [byteMask, BitVec.getLsbD_ofNat, Nat.testBit_mul_two_pow, Nat.testBit_two_pow_sub_one]
  simp only [hl, decide_true, Bool.true_and, ← Bool.decide_and]
  exact decide_eq_decide.2 (and_congr_right fun _ => by omega)

/-- A load at quad scope or narrower of bytes that the sector holds valid reads the sector. -/
theorem l1Load_of_valid {sc pa n k : Nat} {y : Sector} (hy : sectorAt s core (pa / 64) = some y)
    (hvalid : ∀ j, j < n → y.valid.getLsbD (pa % 64 + j) = true) (hsc : sc < 2) (hk : k < n) :
    (l1Load s core sc pa n).2.1[k]? = y.data[pa % 64 + k]? := by
  have hall : byteMask (pa % 64) n &&& ~~~y.valid = (0 : Mask) := by
    refine BitVec.eq_of_getLsbD_eq fun l hl => ?_
    rw [BitVec.getLsbD_and, byteMask_getLsbD hl, BitVec.getLsbD_not]
    by_cases hin : pa % 64 ≤ l ∧ l < pa % 64 + n
    · have hbit := hvalid (l - pa % 64) (by omega)
      rw [show pa % 64 + (l - pa % 64) = l by omega] at hbit
      simp [hbit]
    · simp [hin]
  simp only [l1Load, hy, if_pos (And.intro hsc hall)]
  rw [List.getElem?_take_of_lt hk, List.getElem?_drop]

/-- Where the L1 does not hold the block, or at cluster scope and wider, a load reads what its core has written and else the home. -/
theorem l1Load_merged {sc pa n k : Nat} (hwf : Memory.wf s.mem) (hr : L1Rising s core) (hin : pa % 64 + n ≤ 64) (hk : k < n)
    (h : sectorAt s core (pa / 64) = none ∨ 2 ≤ sc) : (l1Load s core sc pa n).2.1[k]? = some (mergedByte s core (pa + k)) := by
  have hblk : (pa + k) / 64 = pa / 64 := by omega
  have hoff : (pa + k) % 64 = pa % 64 + k := by omega
  have hpa : 64 * (pa / 64) + (pa % 64 + k) = pa + k := by omega
  rw [l1Load_of_fill rfl h, List.getElem?_take_of_lt hk, List.getElem?_drop, filled_byte _ _ _ _ (by omega), hpa, mergedByte, hblk, hoff]
  cases hx : sectorAt s core (pa / 64) with
  | some y => rw [takeSector_of_held 0 hx]
  | none =>
    have hwb := writesBack_allocWay (pa / 64) hwf hr
    have hclean : (takeSector s core (pa / 64) 0).2.dirty.getLsbD (pa % 64 + k) = false := by
      simp only [takeSector]
      cases hy : sectorAt (allocWay s core (pa / 64)).1 core (pa / 64) with
      | none => simp
      | some y =>
        refine Bool.eq_false_iff.2 fun hdirty => ?_
        obtain ⟨z, hz, -⟩ := hwb.dirty _ y _ hy hdirty
        exact nomatch hx.symm.trans hz
    simp only [hclean, Bool.false_eq_true, if_false]
    exact congrArg some (hwb.unheld (hblk.symm ▸ hx))

end

/-! ### A load's data returns (R204, R206) -/

/-- The k-th load in flight of a resident warp, of one lane and without an acquire step, can return, and the store queue holds none of
its bytes. -/
structure Returning (s : State) (dws k : Nat) (r : IssueRef) (wp : Warp) (e : LoadEntry) (a : LaneAccess) : Prop where
  warp : warpAt s dws = some r
  found : getWarp s r.crew r.warp = some wp
  load : wp.loads[k]? = some e
  ready : loadReady (crewVersioned s r.crew) wp e = true
  data : e.code = false
  plain : e.acq = false
  lanes : e.lanes = [a]
  waits : a.done = false
  unqueued : serveLane (crewVersioned s r.crew) a.lane (wp.storeQ.filter fun q => decide (q.seq < e.seq)) a.loc e.width = .memory

/-- The load has filled its destination with a value and is in flight no more. -/
def Lands (s : State) (dws k : Nat) (r : IssueRef) (wp : Warp) (e : LoadEntry) (lane v : Nat) (t : State) : Prop :=
  exec (.loadDataReturn dws k) s = .next t ∧ getWarp t r.crew r.warp = some { wp with
    regs := wp.regs.fillDest e.dst lane v, loads := wp.loads.filter (fun f => f.seq != e.seq), lat := latOf e.waited }

section
variable {s u : State} {dws k : Nat} {r : IssueRef} {wp : Warp} {e : LoadEntry} {a : LaneAccess} {bs : List Byte}

/-- A lane that neither the queue nor a version serves takes what its location holds. -/
theorem performLane_of_unserved (h : Returning s dws k r wp e a)
    (hloc : crewVersioned s r.crew = false ∨ ∃ c o, a.loc = .scratch c o)
    (hread : readLoc s r.core e.sc (inPool s (kvD s.crews r.crew {}).ctx a.va) a.loc e.width = (u, bs, false)) :
    performLane s r wp e (crewVersioned s r.crew) a = (u, { a with x := leNat bs, y := 0, done := true }) := by
  have hearly : takeEarly (crewVersioned s r.crew) { wp with storeQ := wp.storeQ.filter fun q => decide (q.seq < e.seq) } e.width a = a := by
    simp only [takeEarly, h.unqueued]
    obtain hv | ⟨c, o, hl⟩ := hloc
    · simp only [hv, versionBytes]
    · simp only [hl, versionBytes]
      cases crewVersioned s r.crew <;> rfl
  have hover : overVersion (crewVersioned s r.crew) wp a bs = bs := by
    obtain hv | ⟨c, o, hl⟩ := hloc
    · simp only [hv, overVersion]
    · simp only [hl, overVersion]
      cases crewVersioned s r.crew <;> rfl
  simp only [performLane, h.data, hearly, h.waits, hread, hover, Bool.false_eq_true, if_false]
  rfl

/-- Where its lane reads bytes that are not poisoned, the load lands, and the rest of the state is as the lane's access leaves it. -/
theorem loadDataReturn_lands (h : Returning s dws k r wp e a)
    (hloc : crewVersioned s r.crew = false ∨ ∃ c o, a.loc = .scratch c o)
    (hread : readLoc s r.core e.sc (inPool s (kvD s.crews r.crew {}).ctx a.va) a.loc e.width = (u, bs, false)) (hu : KeepsIssuing s u) :
    ∃ b c, Lands s dws k r wp e a.lane (leNat bs) (setWarp (setWarp u r.crew r.warp b) r.crew r.warp c) := by
  have hput := getWarp_setWarp ((hu.getWarp_eq _ _).trans h.found) { wp with regs := wp.regs.fillDest e.dst a.lane (leNat bs) }
  refine ⟨_, _, ?_, getWarp_setWarp hput _⟩
  have hexec : exec (.loadDataReturn dws k) s = execLoadDataReturn dws k s := rfl
  simp only [hexec, execLoadDataReturn, h.warp, h.found, h.load, h.ready, Bool.not_true, Bool.false_eq_true, if_false, h.plain, h.lanes,
    performLanes, h.waits, performLane_of_unserved h hloc hread, if_true, hput]

/-- A warp put back leaves every scratch. -/
theorem scratch_setWarp (s : State) (k n d : Nat) (b : Warp) :
    (kvD (setWarp s k n b).crews d {}).scratch = (kvD s.crews d {}).scratch := by
  simp only [setWarp_crews, kvD, kvGet_kvMod]
  split
  · cases kvGet s.crews d <;> rfl
  · rfl

/-- A load of scratch that no command in flight has written beside: memory and every scratch stand. -/
theorem loadDataReturn_scratch (h : Returning s dws k r wp e a) {c o : Nat} (hloc : a.loc = .scratch c o)
    (hclean : scratchPoison (kvD s.crews c {}) o e.width = none) (hcmds : ∀ d ∈ s.cmds, d.2.was = []) :
    ∃ t, Lands s dws k r wp e a.lane (leNat (scratchBytes (kvD s.crews c {}) o e.width)) t ∧ t.mem = s.mem ∧ t.tags = s.tags ∧
      ∀ d, (kvD t.crews d {}).scratch = (kvD s.crews d {}).scratch := by
  have hmeet (bs : List Byte) : meetCommands s c o bs = bs :=
    List.foldlRecOn (motive := (· = bs)) s.cmds _ rfl fun _ hb d hd => by rw [hcmds d hd]; exact hb
  have hread : readLoc s r.core e.sc (inPool s (kvD s.crews r.crew {}).ctx a.va) a.loc e.width =
      (s, scratchBytes (kvD s.crews c {}) o e.width, false) := by
    simp only [hloc, readLoc, hmeet, hclean, Option.isSome_none]
  obtain ⟨b, b', hlands⟩ := loadDataReturn_lands h (.inr ⟨c, o, hloc⟩) hread (.refl s)
  exact ⟨_, hlands, rfl, rfl, fun d => (scratch_setWarp _ _ _ d _).trans (scratch_setWarp _ _ _ d _)⟩

/-- A load of memory in a launch that is not versioned lands with what it reads through the L1. -/
theorem loadDataReturn_mem (h : Returning s dws k r wp e a) {pa : Nat} (hloc : a.loc = .mem pa) (hv : crewVersioned s r.crew = false)
    (hpool : inPool s (kvD s.crews r.crew {}).ctx a.va = false) (hclean : (l1Load s r.core e.sc pa e.width).2.2 = false) :
    ∃ t, Lands s dws k r wp e a.lane (leNat (l1Load s r.core e.sc pa e.width).2.1) t ∧
      (Memory.wf s.mem → L1Rising s r.core → WroteBack s t r.core) ∧
      (sectorAt s r.core (pa / 64) ≠ none → t.mem = s.mem ∧ t.tags = s.tags) := by
  have hread : readLoc s r.core e.sc (inPool s (kvD s.crews r.crew {}).ctx a.va) a.loc e.width =
      ((l1Load s r.core e.sc pa e.width).1, (l1Load s r.core e.sc pa e.width).2.1, false) := by
    rw [hpool, hloc]
    exact congrArg (fun p => ((l1Load s r.core e.sc pa e.width).1, (l1Load s r.core e.sc pa e.width).2.1, p)) hclean
  obtain ⟨b, b', hlands⟩ := loadDataReturn_lands h (.inl hv) hread (keepsIssuing_l1Load _ _ _ _ _)
  exact ⟨_, hlands, fun hwf hr => (writesBack_l1Load e.sc pa e.width hwf hr).bytes, l1Load_of_held⟩

end

/-! ### Where the list of sectors is out of order -/

/-- A core, all of whose ways a crew holds as scratch, whose L1 lists the sector of block 512 before the dirty one of block 0: a look-up
of block 0 ends at block 512 and finds nothing, until that sector has left. -/
def unsortedL1 : State :=
  { cores := [(0, { l1 := [(512, {}), (0, { data := List.replicate 64 1, valid := 1, dirty := 1 })] })]
    crews := [(0, { phase := .resident, ways := List.range 16 })] }

theorem l1Load_unsorted : (l1Load unsortedL1 0 0 0 1).2.1[0]? = some 1 := by decide

/-- Refutes O16: what a load of a block reads that the L1 does not hold. In a state whose list of sectors is out of order the fill evicts a
sector that hides the block's own, and the load reads the latter. The clause asks for a canonical memory alone; in a core whose L1 lists
its sectors in order it holds (l1Load_merged), and the other clauses hold as they stand (loadDataReturn_scratch, loadDataReturn_mem,
l1Load_of_valid). -/
theorem not_loadReturns : ¬ Obligations.LoadReturns := by
  unfold Obligations.LoadReturns
  rintro ⟨-, hloads⟩
  have hmem : Memory.wf unsortedL1.mem := by decide
  have hnone : sectorAt unsortedL1 0 (0 / 64) = none := by decide
  have hread := (hloads unsortedL1 0 0 0 1 0 hmem (by decide) (by decide)).2 (.inl hnone)
  rw [l1Load_unsorted] at hread
  exact absurd hread (by decide)

end Sys2Proof.Machine
end

section
/-! Prefetches, fences and the split of the L1 (R214, R217, R218): what they leave, and the split in a state that lists a crew twice. -/

namespace Sys2Proof.Machine

/-! ### PFETCH and FENCE (R193, R195, R214, R217) -/

section
variable {w : Enc} {s : State} {x : Site}

/-- A prefetch fills both sectors of each lane's line whose page may be read; a fill changes no warp and writes back what it evicts. -/
theorem pfetch_leaves (hi : Issues (.pfetch w) w s x) : ∃ t, GoesOnTo (exec (.pfetch w) s) w x t ∧ t.crews = s.crews ∧ (w.sub ≠ 0 → t = s) ∧
    (Memory.wf s.mem → L1Rising s x.ref.core → WroteBack s t x.ref.core) := by
  have hexec : exec (.pfetch w) s = execPfetch w s := rfl
  rw [hexec, execPfetch, issue_go hi]
  by_cases hsub : w.sub = 0
  · rw [if_pos hsub]
    refine ⟨_, done_goesOnTo w _ x, ?_, fun h => absurd hsub h, fun hwf hr => ?_⟩
    · refine List.foldlRecOn (motive := fun t : State => t.crews = s.crews) _ _ rfl fun t ht (_, a) _ => ?_
      dsimp only
      split
      · exact ((keepsIssuing_filled _ _ _ _).crews.trans (keepsIssuing_filled _ _ _ _).crews).trans ht
      · exact ht
    · refine (writesBack_foldl (fun t (_, a) htwf htr => ?_) _ (.refl hwf hr)).bytes
      dsimp only
      split
      next pa _ _ =>
        have h := writesBack_filled (pa / 128 * 2) 0 htwf htr
        exact h.trans (writesBack_filled _ _ h.wf h.rising)
      · exact .refl htwf htr
  · rw [if_neg hsub]
    exact ⟨s, done_goesOnTo w s x, rfl, fun _ => rfl, fun hwf hr => (WritesBack.refl hwf hr).bytes⟩

theorem fence_goes (hi : Issues (.fence w) w s x) (hact : x.act ≠ 0) (hstores : x.wp.storeQ = []) (hloads : x.wp.loads = [])
    (hremote : w.sub = 4 → remotePending s x = false) : GoesOnTo (exec (.fence w) s) w x
      (acquireStep (releaseStep s x.ref.core w.sub.toNat) x.ref.core w.sub.toNat) := by
  have hexec : exec (.fence w) s = execFence w s := rfl
  have hsub : (w.sub == 4 && remotePending s x) = false := by simpa using hremote
  rw [hexec, execFence, issue_go hi, if_neg hact]
  simp only [hstores, hloads, hsub, List.isEmpty_nil, Bool.and_self, Bool.not_true, Bool.or_self, Bool.false_eq_true, if_false]
  exact done_goesOnTo w _ x

theorem fence_waits (hi : Issues (.fence w) w s x) (hact : x.act ≠ 0) (h : x.wp.storeQ ≠ [] ∨ x.wp.loads ≠ []) :
    exec (.fence w) s = .next (setWarp s x.ref.crew x.ref.warp (x.hold s.now)) := by
  have hexec : exec (.fence w) s = execFence w s := rfl
  have hopen : (x.wp.storeQ.isEmpty && x.wp.loads.isEmpty) = false := by
    simpa [imp_iff_not_or] using h
  rw [hexec, execFence, issue_go hi, if_neg hact]
  simp only [hopen, Bool.not_false, Bool.true_or, if_true]
  rfl

end

/-! ### CSPLIT that waits (R218) -/

/-- The issuing warp and its crew are in the state's lists. -/
theorem found_of_issues {i : Instr} {w : Enc} {s : State} {x : Site} (h : Issues i w s x) :
    kvGet s.crews x.ref.crew = some x.cr ∧ kvGet x.cr.warps x.ref.warp = some x.wp := by
  obtain ⟨y, hy, -, -, rfl, -⟩ := h
  unfold siteOf at hy
  repeat' split at hy
  all_goals cases hy
  exact ⟨‹_›, ‹_›⟩

/-- A test of the values of a list of entries answers the same where an entry is set to a value that answers the same. -/
theorem any_kvSet {α : Type} {m : KV α} {x : Nat} {a b : α} {p : α → Bool} (h : kvGet m x = some a) (hp : p b = p a) :
    (kvSet m x b).any (fun e => p e.2) = m.any fun e => p e.2 := by
  induction m with
  | nil => cases h
  | cons e t ih =>
    obtain ⟨k, v⟩ := e
    rw [kvGet] at h
    rw [kvSet]
    split at h
    next hk =>
      obtain rfl := Option.some.inj h
      simp [hk, hp]
    next hk =>
      split at h
      · cases h
      next hlt =>
        rw [if_neg hk, if_neg hlt]
        simp [ih h]

/-- So it does where the entry of a key that stands once is changed to such a value. -/
theorem any_kvMod {α : Type} {m : KV α} {x : Nat} {a : α} {f : α → α} {p : α → Bool} (hr : Rising m) (h : kvGet m x = some a)
    (hp : p (f a) = p a) : (kvMod m x f).any (fun e => p e.2) = m.any fun e => p e.2 := by
  rw [kvMod, List.any_map, Bool.eq_iff_iff, List.any_eq_true, List.any_eq_true]
  refine exists_congr fun e => and_congr_right fun he => ?_
  simp only [Function.comp_apply]
  split
  next hk =>
    have hv := kvGet_of_mem hr he
    rw [hk, h] at hv
    rw [← Option.some.inj hv, hp]
  · rfl

/-- Whether a warp has an access outstanding that a test names. -/
def hasAccess (meets : Nat → LaneAccess → Bool) (wp : Warp) : Bool :=
  (wp.loads.any fun e => e.lanes.any (meets e.width)) || wp.storeQ.any fun e => e.lanes.any (meets e.width)

/-- Where each crew stands once, a warp put back with its accesses leaves the scratch as busy as it was. -/
theorem scratchBusy_setWarp {s : State} {k n c off : Nat} {cr : Crew} {a b : Warp} (hr : Rising s.crews)
    (hcr : kvGet s.crews k = some cr) (ha : kvGet cr.warps n = some a) (hloads : b.loads = a.loads) (hstores : b.storeQ = a.storeQ) :
    scratchBusy (setWarp s k n b) c off = scratchBusy s c off := by
  unfold scratchBusy
  extract_lets meets region
  have haccess : hasAccess meets b = hasAccess meets a := by rw [hasAccess, hasAccess, hloads, hstores]
  have hcrews := any_kvMod (f := fun c : Crew => { c with warps := kvSet c.warps n b })
    (p := fun c => c.warps.any fun e => hasAccess meets e.2) hr hcr (any_kvSet ha haccess)
  exact congrArg (· || s.cmds.any fun e => e.2.phase != .completed && (e.2.reads ++ e.2.writes).any region) hcrews

/-- The split at the head waits where it gives up ways with an access outstanding. -/
theorem serveSplit_busy {s : State} {core : Nat} {q : SplitReq} {cr : Crew} (hcr : kvGet s.crews q.crew = some cr) (hn : q.n ≤ 8)
    (hroom : cr.scr + 32768 * q.n ≤ 1048576) (hless : q.n < cr.ways.length)
    (hbusy : scratchBusy s q.crew (cr.scr + 32768 * q.n) = true) : serveSplit s core q = none := by
  have hd : kvD s.crews q.crew {} = cr := by rw [kvD, hcr, Option.getD_some]
  simp only [serveSplit, hd]
  rw [if_neg (by omega), if_neg (by omega), if_pos ⟨hless, hbusy⟩]

theorem serveSplits_waits {s : State} {core fuel : Nat} {q : SplitReq} {qs : List SplitReq} (h : (getCore s core).splits = q :: qs)
    (hq : serveSplit s core q = none) : serveSplits core (fuel + 1) s = s := by
  simp only [serveSplits, h, hq]

section
variable {w : Enc} {s : State} {x : Site}

/-- The request that a CSPLIT issues. -/
def splitRequest (w : Enc) (s : State) (x : Site) : SplitReq :=
  { crew := x.ref.crew, warp := x.ref.warp, n := uB s x w, pd := w.e.idx.toNat, mask := x.act }

/-- The warp after a CSPLIT, its predicate empty. -/
def splitIssued (w : Enc) (x : Site) : Warp := (x.mapRegs fun r => r.emptyPred w.e.idx.toNat).advance w

/-- CSPLIT queues its request on its core and serves what can be served. -/
theorem exec_csplit (hi : Issues (.csplit w) w s x) (hact : x.act ≠ 0) : exec (.csplit w) s =
    .next (serveSplits x.ref.core ((getCore s x.ref.core).splits.length + 1) (setWarp (setCore s x.ref.core { getCore s x.ref.core with
      splits := (getCore s x.ref.core).splits ++ [splitRequest w s x] }) x.ref.crew x.ref.warp (splitIssued w x))) := by
  have hexec : exec (.csplit w) s = execCsplit w s := rfl
  rw [hexec, execCsplit, issue_go hi, if_neg hact]
  rfl

theorem splitIssued_keeps (w : Enc) (x : Site) : KeepsWarp x.wp (splitIssued w x) ∧ GoesOn w x (splitIssued w x) ∧
    (splitIssued w x).regs = x.wp.regs.emptyPred w.e.idx.toNat :=
  have ⟨hkeeps, hgoes⟩ := (regsOnly_mapRegs x fun r => r.emptyPred w.e.idx.toNat).advance w
  ⟨hkeeps, hgoes, advance_regs _ w⟩

/-- Where the core serves no other split and each crew stands once, a split that gives up ways with an access outstanding waits. -/
theorem csplit_waits (hi : Issues (.csplit w) w s x) (hact : x.act ≠ 0) (hempty : (getCore s x.ref.core).splits = [])
    (hr : Rising s.crews) (hn : uB s x w ≤ 8) (hroom : x.cr.scr + 32768 * uB s x w ≤ 1048576) (hless : uB s x w < x.cr.ways.length)
    (hbusy : scratchBusy s x.ref.crew (x.cr.scr + 32768 * uB s x w) = true) : exec (.csplit w) s =
    .next (setWarp (setCore s x.ref.core { getCore s x.ref.core with splits := [splitRequest w s x] }) x.ref.crew x.ref.warp
      (splitIssued w x)) := by
  obtain ⟨hcr, hwp⟩ := found_of_issues hi
  have hkeeps := (splitIssued_keeps w x).1
  unfold KeepsWarp at hkeeps
  rw [exec_csplit hi hact, hempty, List.nil_append, List.length_nil]
  generalize splitIssued w x = b at hkeeps ⊢
  have hloads : b.loads = x.wp.loads := (congrArg Warp.loads hkeeps :)
  have hstores : b.storeQ = x.wp.storeQ := (congrArg Warp.storeQ hkeeps :)
  have hfound : kvGet (setWarp s x.ref.crew x.ref.warp b).crews x.ref.crew =
      some { x.cr with warps := kvSet x.cr.warps x.ref.warp b } := by
    rw [setWarp_crews, kvGet_kvMod_same, hcr, Option.map_some]
  refine congrArg _ (serveSplits_waits (congrArg Core.splits (kvD_kvSet_same ..)) (serveSplit_busy hfound hn hroom hless ?_))
  exact (scratchBusy_setWarp hr hcr hwp hloads hstores).trans hbusy

end

/-! ### A list that holds a crew twice -/

/-- CSPLIT to no way, into p5. -/
def csplitToNone : Enc :=
  let none : Operand := ⟨.main, 0, false, 0, 0⟩
  { sub := 0, ty := .n32, guard := ⟨31, false, 31, false, false⟩, ch := 0, d := none, a := none, b := none, c := none
    e := ⟨.pred, 5, false, 0, 0⟩, lit := some 0, bnd := false, dly := 0, yh := false, ph := false }

/-- A warp of one lane whose one path runs. -/
def splittingWarp : Warp := { live := 1, paths := [(0, { mask := 1 })], run := some { path := 0 } }

/-- A resident crew of that warp that holds one way as scratch. -/
def splittingCrew : Crew := { phase := .resident, warps := [(0, splittingWarp)], ways := [3] }

/-- The crew a second time: here its warp has a load of the crew's scratch in flight. -/
def twinCrew : Crew := { warps := [(0, { loads := [{ lanes := [{ loc := .scratch 0 0 }] }] })] }

/-- The crew's warp issues, and the list of crews holds the crew's key twice: what is written to the warp overwrites the twin's too. -/
def twinState : State := { issuing := some {}, crews := [(0, splittingCrew), (0, twinCrew)] }

def splittingSite : Site :=
  { ref := {}, cr := splittingCrew, wp := splittingWarp, rn := { path := 0 }, pa := { mask := 1 }, k := {}, act := 1 }

theorem issues_csplit_twin : Issues (.csplit csplitToNone) csplitToNone twinState splittingSite :=
  ⟨{ splittingSite with act := 0 }, rfl, by decide, by decide, by decide, .inr (by decide)⟩

/-- The split requests that the core holds after a step. -/
def splitsAfter (core : Nat) : Host.Outcome State Fault Refusal → List SplitReq
  | .next t => (getCore t core).splits
  | _ => []

/-- The twin's load is overwritten with the warp that moves on, and the split is served at once. -/
theorem splitsAfter_csplit_twin : splitsAfter 0 (exec (.csplit csplitToNone) twinState) = [] := by decide

/-- Refutes O18: that CSPLIT waits where an access to the ways it gives up is outstanding. In a state that lists the crew's key twice the
access is the second entry's, which the write of the issuing warp overwrites, and the split is served at once. In a state that lists
each crew once the clause holds (csplit_waits), as do those on PFETCH and FENCE in every state (pfetch_leaves, fence_goes, fence_waits). -/
theorem not_cacheInstructions : ¬ Obligations.CacheInstructions := by
  unfold Obligations.CacheInstructions
  intro h
  obtain ⟨-, -, -, hempty, -⟩ := h csplitToNone twinState splittingSite
  obtain ⟨-, -, hbusy, -⟩ := hempty issues_csplit_twin (by decide) (by decide)
  obtain ⟨b, hexec, -⟩ := hbusy (by decide) (by decide) (by decide)
  have hsplits := splitsAfter_csplit_twin
  rw [hexec] at hsplits
  have hwaits : splitsAfter 0 (.next (setWarp (setCore twinState 0 { getCore twinState 0 with
    splits := [{ crew := 0, warp := 0, n := uB twinState splittingSite csplitToNone, pd := 5, mask := 1 }] }) 0 0 b)) ≠ [] := by
    simp [splitsAfter, setWarp, getCore, setCore, kvD]
  exact hwaits hsplits

end Sys2Proof.Machine
end

section
/-! The life of an engine command (R230, R232, R252, R257, R259-R264): what its entry, start, completion and retirement leave, and what WAITC
and CNTRD answer. -/

namespace Sys2Proof.Machine

/-! ### Entering (R230, R252, R257) -/

/-- RAW, WAR or WAW (R257). -/
theorem mustFollow_iff {p c : Command} : mustFollow p c = true ↔
    regionsMeet p.writes c.reads = true ∨ regionsMeet p.reads c.writes = true ∨ regionsMeet p.writes c.writes = true := by
  simp only [mustFollow, Bool.or_eq_true, or_assoc]

/-- The entries on the scoreboards of some cores that a command must follow. -/
def boardPreds (u : State) (cores : List Nat) (c : Command) : List Nat :=
  ((cores.map fun k => boardEntries u k).flatten.filter fun e => mustFollow e.2 c).foldl (fun m e => setIns m e.1) []

theorem mem_boardPreds {u : State} {cores : List Nat} {c : Command} {n : Nat} : n ∈ boardPreds u cores c ↔
    ∃ k ∈ cores, ∃ p, (n, p) ∈ boardEntries u k ∧ mustFollow p c = true := by
  rw [boardPreds, ← List.foldl_map, mem_foldl_setIns]
  simp only [List.mem_map, List.mem_filter, List.mem_flatten, List.not_mem_nil, or_false]
  constructor
  · rintro ⟨⟨_, p⟩, ⟨⟨_, ⟨k, hk, rfl⟩, he⟩, hp⟩, rfl⟩
    exact ⟨k, hk, p, he, hp⟩
  · rintro ⟨k, hk, p, he, hp⟩
    exact ⟨(n, p), ⟨⟨_, ⟨k, hk, rfl⟩, he⟩, hp⟩, rfl⟩

section
variable (x : Site) (s : State) (c : Command)

/-- A checked command as it enters in the state u after the release of its issue. -/
def Command.entered (u : State) : Command :=
  { c with crew := x.ref.crew, warp := x.ref.warp, core := x.ref.core, tpc := x.tpc, lane := lowLane x.act
           preds := boardPreds u (x.ref.core :: c.pair.toList) c }

/-- A command that enters does so after the release of its issue, under a new number, and counts in its class. -/
theorem enterCommand_eq : enterCommand x s c =
    let u := releaseStep s x.ref.core c.issueScope
    (x.setClass c.cls { engClass x.wp c.cls with count := (engClass x.wp c.cls).count + 1 },
     { u with fresh := u.fresh + 1, cmds := kvSet u.cmds u.fresh (c.entered x u) }, u.fresh) := rfl

@[simp] theorem engClass_setClass_same (cls : Nat) (e : EngClass) : engClass (x.setClass cls e).wp cls = e := kvD_kvSet_same _ _ _ _

theorem engClass_setClass_ne {cls k : Nat} (e : EngClass) (h : k ≠ cls) : engClass (x.setClass cls e).wp k = engClass x.wp k :=
  kvD_kvSet_ne h

end

/-! ### WAITC and CNTRD (R262-R264) -/

/-- The status bits of a fault and of a cancelled command (R260). -/
theorem stFlt_bit : BitVec.ofNat 8 stFlt = 32 := rfl
theorem stCanc_bit : BitVec.ofNat 8 stCanc = 16 := rfl

section
variable {w : Enc} {s : State} {x : Site}

theorem waitc_idle (hi : Issues (.waitc w) w s x) (hact : x.act = 0) : GoesOnTo (exec (.waitc w) s) w x s := by
  have hexec : exec (.waitc w) s = execWaitc w s := rfl
  rw [hexec, execWaitc, issue_go hi, if_pos hact]
  exact done_goesOnTo w s x

/-- The oldest pending fault of the class is raised, and is no longer pending. -/
theorem waitc_raises (hi : Issues (.waitc w) w s x) (hact : x.act ≠ 0) {f : CmdFault} {rest : List CmdFault}
    (hf : (engClass x.wp w.sub.toNat).faults = f :: rest) : ∃ e : EngClass, e.faults = rest ∧
      Traps (exec (.waitc w) s) s (x.setClass w.sub.toNat e)
        { code := f.code, va := f.va, mask := x.act, tx := BitVec.ofNat 32 (f.tx w.sub.toNat), why := some f.reason } := by
  have hexec : exec (.waitc w) s = execWaitc w s := rfl
  refine ⟨{ engClass x.wp w.sub.toNat with
    faults := rest
    status := if rest.isEmpty then (engClass x.wp w.sub.toNat).status &&& ~~~(BitVec.ofNat 8 stFlt) else (engClass x.wp w.sub.toNat).status },
    rfl, ?_⟩
  rw [hexec, execWaitc, issue_go hi, if_neg hact]
  simp only [hf]
  rfl

theorem waitc_waits (hi : Issues (.waitc w) w s x) (hact : x.act ≠ 0) (hf : (engClass x.wp w.sub.toNat).faults = [])
    (hcount : uB s x w < (engClass x.wp w.sub.toNat).count) : Waits (exec (.waitc w) s) s x := by
  have hexec : exec (.waitc w) s = execWaitc w s := rfl
  rw [hexec, execWaitc, issue_go hi, if_neg hact]
  simp only [hf, if_pos hcount]
  rfl

/-- Once the count is reached, the path goes on after the acquire that the retired commands of the class ask for. -/
theorem waitc_goes (hi : Issues (.waitc w) w s x) (hact : x.act ≠ 0) (hf : (engClass x.wp w.sub.toNat).faults = [])
    (hcount : (engClass x.wp w.sub.toNat).count ≤ uB s x w) : GoesOnTo (exec (.waitc w) s) w x
      (if (engClass x.wp w.sub.toNat).acq = 0 then s else acquireStep s x.ref.core (engClass x.wp w.sub.toNat).acq) := by
  have hexec : exec (.waitc w) s = execWaitc w s := rfl
  rw [hexec, execWaitc, issue_go hi, if_neg hact]
  simp only [hf, if_neg (Nat.not_lt.2 hcount)]
  exact done_goesOnTo w _ x

/-- A scalar D takes the one value written to it, and the path goes on in a warp that otherwise stands. -/
theorem writeDst_scalar_advance (hfile : w.d.file = .scalar) (v : Nat) :
    let b := (x.writeDst w.d false [(0, v)]).advance w
    GoesOn w x b ∧ MainKept x.wp.regs b.regs ∧ ScalarWritten x.wp.regs b.regs w.d.idx.toNat 1 v ∧ KeepsWarp x.wp b := by
  obtain ⟨hkeeps, hgoes⟩ := (regsOnly_writeDst x w.d false [(0, v)]).advance w
  have hregs : ((x.writeDst w.d false [(0, v)]).advance w).regs = x.wp.regs.putScalarV w.d.idx.toNat false v := by
    rw [advance_regs, Site.writeDst, hfile]
    rfl
  obtain ⟨hmain, -⟩ := putScalarV_others x.wp.regs w.d.idx.toNat false v
  exact ⟨hgoes, hregs ▸ hmain, hregs ▸ putScalarV_written _ _ _ _, hkeeps⟩

theorem cntrd_done (hi : Issues (.cntrd w) w s x) (hact : x.act ≠ 0) : exec (.cntrd w) s =
    let e := engClass x.wp w.sub.toNat
    .next ((Act.done ((x.setClass w.sub.toNat { e with status := e.status &&& 32 }).writeDst w.d false
      [(0, min e.count 63 + 2 ^ 8 * e.status.toNat)]) s).state w) := by
  have hexec : exec (.cntrd w) s = execCntrd w s := rfl
  rw [hexec, execCntrd, issue_go hi, onSite, if_neg hact]
  simp only [stFlt_bit]

/-- D takes the count and the status of the class, whose status but for the bit of a pending fault is then clear. -/
theorem cntrd_reads (hi : Issues (.cntrd w) w s x) (hfile : w.d.file = .scalar) (hact : x.act ≠ 0) :
    let e := engClass x.wp w.sub.toNat
    ∃ b, exec (.cntrd w) s = .next (setWarp s x.ref.crew x.ref.warp b) ∧ GoesOn w x b ∧ MainKept x.wp.regs b.regs ∧
      ScalarWritten x.wp.regs b.regs w.d.idx.toNat 1 (min e.count 63 + 2 ^ 8 * e.status.toNat) ∧
      KeepsWarp { x.wp with eng := kvSet x.wp.eng w.sub.toNat { e with status := e.status &&& 32 } } b := by
  intro e
  obtain ⟨href, -⟩ := regsOnly_writeDst (x.setClass w.sub.toNat { e with status := e.status &&& 32 }) w.d false
    [(0, min e.count 63 + 2 ^ 8 * e.status.toNat)]
  refine ⟨_, ?_, writeDst_scalar_advance (x := x.setClass w.sub.toNat { e with status := e.status &&& 32 }) hfile _⟩
  rw [cntrd_done hi hact]
  simp only [Act.state, Site.put, e, href]
  rfl

end

/-! ### Starting (R257, R261) -/

section
variable {s : State} {k : Nat} {c : Command}

theorem commandStart_held (hc : kvGet s.cmds k = some c) (hphase : c.phase = .waiting) (hpreds : c.preds ≠ []) :
    exec (.commandStart k) s = .next s := by
  have hexec : exec (.commandStart k) s = execCommandStart k s := rfl
  simp [hexec, execCommandStart, hc, hphase, hpreds]

theorem commandStart_begins (hc : kvGet s.cmds k = some c) (hphase : c.phase = .waiting) (hpreds : c.preds = [])
    (hlive : c.cancelled = false) (hpoison : readPoison s c.reads = none) : exec (.commandStart k) s = .next (beginCommand s k c) := by
  have hexec : exec (.commandStart k) s = execCommandStart k s := rfl
  simp [hexec, execCommandStart, hc, hphase, hpreds, hlive, hpoison]

/-- A command whose accesses are done is in its phase, with its status bits and its fault. -/
theorem kvGet_commandDone (s : State) (k : Nat) (c : Command) (status : Nat) (fault : Option CmdFault) :
    kvGet (commandDone s k c status fault).cmds k =
      some { c with phase := .accessed, status := c.status ||| BitVec.ofNat 8 status, fault := fault } := kvGet_kvSet_same _ _ _

/-- A command on this device that is skipped makes no access: it is as good as done. -/
theorem skipCommand_of_local (h : c.op.isRemote = false) (s : State) (k : Nat) (f : Option CmdFault) :
    skipCommand s k c f = commandDone s k c 0 f := by
  unfold skipCommand
  split
  next hop =>
    rw [hop] at h
    cases h
  next => rfl

theorem commandStart_poisoned (hc : kvGet s.cmds k = some c) (hphase : c.phase = .waiting) (hpreds : c.preds = [])
    (hlive : c.cancelled = false) {f : CmdFault} (hpoison : readPoison s c.reads = some f) (hlocal : c.op.isRemote = false) :
    exec (.commandStart k) s = .next (commandDone s k c 0 (some f)) := by
  have hexec : exec (.commandStart k) s = execCommandStart k s := rfl
  simp [hexec, execCommandStart, hc, hphase, hpreds, hlive, hpoison, skipCommand_of_local hlocal]

/-- Where no lane has stored beside it, a command begins with the scratch as it stands, and only what it writes is noted. -/
theorem beginCommand_of_fresh (hwas : c.was = []) : beginCommand s k c = noteWrites s (startCommand s k c) k := by
  simp only [beginCommand, overlayOld, underlayNew, hwas, List.foldl_nil]

/-- Noting what a command has written changes only that note. -/
theorem kvGet_noteWrites {before after : State} {d : Command} (h : kvGet after.cmds k = some d) :
    ∃ was, kvGet (noteWrites before after k).cmds k = some { d with was := was } :=
  ⟨_, by rw [noteWrites, kvGet_kvMod_same, h, Option.map_some]⟩

/-- A copy that performs all its accesses has them done, with the status and the fault of its performance. -/
theorem beginCommand_copy {j : CopyJob} {t : State} {st : Nat} {f : Option CmdFault} (hop : c.op = .copy j) (hwas : c.was = [])
    (hdone : j.perform (Bus.of s c) s = .done t st f) : beginCommand s k c = noteWrites s (commandDone t k c st f) k := by
  rw [beginCommand_of_fresh hwas]
  simp only [startCommand, hop, hdone]

end

/-! ### Completion (R257, R261, R265) -/

section
variable {s : State} {k : Nat} {c : Command}

theorem commandComplete_early (hc : kvGet s.cmds k = some c) (hphase : c.phase ≠ .accessed) : exec (.commandComplete k) s = .next s := by
  have hexec : exec (.commandComplete k) s = execCommandComplete k s := rfl
  simp only [hexec, execCommandComplete, hc, if_neg hphase]

theorem commandComplete_completes (hc : kvGet s.cmds k = some c) (hphase : c.phase = .accessed) :
    exec (.commandComplete k) s = .next (completeCommand s k c) := by
  have hexec : exec (.commandComplete k) s = execCommandComplete k s := rfl
  simp only [hexec, execCommandComplete, hc, if_pos hphase]

@[simp] theorem settleContext_cmds (s : State) (ctx : Nat) : (settleContext s ctx).cmds = s.cmds := by
  unfold settleContext
  dsimp only
  repeat' split
  all_goals rfl

@[simp] theorem countOut_cmds (s : State) (launch core which : Nat) (up : Bool) : (countOut s launch core which up).cmds = s.cmds := rfl

/-- A command as the completion of another, good or bad, leaves it: without that predecessor, and cancelled after a bad one. -/
def Command.released (d : Command) (k : Nat) (bad : Bool) : Command :=
  if d.preds.contains k then { d with preds := setDel d.preds k, cancelled := d.cancelled || bad } else d

/-- A command without a barrier that completes leaves every other command as its release says. -/
theorem completeCommand_cmds (harv : c.arv = none) : (completeCommand s k c).cmds =
    kvMap s.cmds fun n d => if n = k then { c with phase := .completed, was := [] } else d.released k (c.fault.isSome || c.cancelled) := by
  simp only [completeCommand, harv, settleContext_cmds]
  split
  next => split <;> rfl
  next => rfl

theorem completeCommand_releases (harv : c.arv = none) {n : Nat} {d : Command} (hn : n ≠ k) (hd : kvGet s.cmds n = some d)
    (hk : k ∈ d.preds) : kvGet (completeCommand s k c).cmds n =
      some { d with preds := setDel d.preds k, cancelled := d.cancelled || (c.fault.isSome || c.cancelled) } := by
  rw [completeCommand_cmds harv, kvGet_kvMap, hd, Option.map_some, if_neg hn, Command.released, if_pos (List.contains_iff_mem.2 hk)]

end

/-! ### Retirement (R259, R260, R262) -/

section
variable {s : State} {k : Nat} {c : Command}

theorem commandRetire_early (hc : kvGet s.cmds k = some c) (h : c.phase ≠ .completed ∨ olderUnretired s k c = true) :
    exec (.commandRetire k) s = .next s := by
  have hexec : exec (.commandRetire k) s = execCommandRetire k s := rfl
  simp only [hexec, execCommandRetire, hc, if_pos h]

/-- A class after a command of it has retired: one less in flight, its status, its scope and its fault added. -/
def EngClass.retiring (e : EngClass) (c : Command) : EngClass :=
  { e with
    count := e.count - 1
    status := e.status ||| c.status ||| (if c.fault.isSome then 32 else 0) ||| (if c.cancelled then 16 else 0)
    acq := max e.acq c.scope
    faults := e.faults ++ c.fault.toList }

/-- A warp after a command of it has retired. -/
def Warp.retiring (wp : Warp) (c : Command) : Warp := { wp with eng := kvSet wp.eng c.cls ((engClass wp c.cls).retiring c) }

/-- The oldest command of its class retires to a warp that has not: it is gone, its class has it counted, and its crew may now retire. -/
theorem commandRetire_retires (hc : kvGet s.cmds k = some c) (hphase : c.phase = .completed) (hold : olderUnretired s k c = false)
    (hpair : c.pair = none) {wp : Warp} (hwp : getWarp s c.crew c.warp = some wp) (hlive : wp.retired = false) :
    exec (.commandRetire k) s =
      .next (retireCrew (setWarp { s with cmds := kvDel s.cmds k } c.crew c.warp (wp.retiring c)) c.crew) := by
  have hexec : exec (.commandRetire k) s = execCommandRetire k s := rfl
  have hstands : getWarp { s with cmds := kvDel s.cmds k } c.crew c.warp = some wp := hwp
  simp only [hexec, execCommandRetire, hc, hphase, hold, hpair, hstands, hlive, ne_eq, not_true_eq_false, Bool.false_eq_true, or_self, if_false,
    stFlt_bit, stCanc_bit, Warp.retiring, EngClass.retiring]

/-- The warp that was read is read again once another was put in its place. -/
theorem getWarp_setWarp_of_getWarp {t : State} {crew warp : Nat} {wp : Warp} (h : getWarp s crew warp = some wp) (ht : t.crews = s.crews)
    (b : Warp) : getWarp (setWarp t crew warp b) crew warp = some b := by
  obtain ⟨cr, hcr, -⟩ := Option.bind_eq_some_iff.1 h
  exact getWarp_setWarp_same (ht ▸ hcr) b

end

/-! ### The obligation -/

/-- Settles O20: a command's entry, start, completion and retirement, and its class at WAITC and CNTRD. -/
theorem commandLife : Obligations.CommandLife := by
  unfold Obligations.CommandLife
  refine ⟨fun x s c => ?_, fun w s x => ?_, fun s k c hc => ?_⟩
  · rw [enterCommand_eq]
    refine ⟨⟨_, kvGet_kvSet_same _ _ _, rfl, rfl, rfl, rfl, rfl, rfl, rfl, rfl, rfl, rfl, fun n => ?_⟩, fun n hn => kvGet_kvSet_ne hn, rfl, rfl,
      congrArg _ (engClass_setClass_same x _ _), fun n hn => engClass_setClass_ne x _ hn, rfl⟩
    simp only [← mustFollow_iff]
    exact mem_boardPreds
  · refine ⟨fun hi => ⟨waitc_idle hi, fun hact f rest hf => ?_, waitc_waits hi, waitc_goes hi⟩, cntrd_reads⟩
    obtain ⟨e, he, htrap⟩ := waitc_raises hi hact hf
    exact ⟨_, htrap, (congrArg _ (engClass_setClass_same x _ e)).trans he, rfl⟩
  · refine ⟨commandStart_held hc, commandStart_begins hc, fun f hphase hpreds hlive hpoison hlocal => ?_, fun j t st f hop hwas hdone => ?_,
      commandComplete_early hc, commandComplete_completes hc, fun n d _ harv hn hd hk => completeCommand_releases harv hn hd hk,
      fun wp hphase hold hpair hwp hlive => ?_, commandRetire_early hc⟩
    · exact ⟨_, _, commandStart_poisoned hc hphase hpreds hlive hpoison hlocal, kvGet_commandDone _ _ _ _ _, rfl, rfl, rfl, rfl⟩
    · rw [beginCommand_copy hop hwas hdone]
      obtain ⟨was, hd⟩ := kvGet_noteWrites (before := s) (kvGet_commandDone t k c st f)
      exact ⟨_, hd, rfl, rfl, rfl, rfl⟩
    · exact ⟨_, _, commandRetire_retires hc hphase hold hpair hwp hlive, rfl, rfl, getWarp_setWarp_of_getWarp hwp rfl _, rfl, rfl,
        fun cls hcls => kvD_kvSet_ne hcls, kvD_kvSet_same _ _ _ _⟩

end Sys2Proof.Machine
end
